-- ==== Sys2Proof/Word.lean ====
section
/-!
DEFINITION. The word types of the Gerix G4 and the keyed tables that State is built of.
-/
namespace Sys2Proof

/-- One byte (R3). -/
abbrev Byte := BitVec 8
/-- A 32-bit register value (R45). -/
abbrev W32 := BitVec 32
/-- A 64-bit pair, uniform register, address or instruction word. -/
abbrev W64 := BitVec 64
/-- A mask of the sixteen lanes of a wave. -/
abbrev Lanes := BitVec 16

/-- A table of records by number, kept with strictly rising keys. -/
abbrev Tbl (α : Type) := List (Nat × α)

/-- The record under key `k`, if there is one. -/
def Tbl.get? {α : Type} : Tbl α → Nat → Option α
  | [], _ => none
  | (j, a) :: r, k => if j = k then some a else Tbl.get? r k

/-- The table with `a` under key `k`. -/
def Tbl.set {α : Type} : Tbl α → Nat → α → Tbl α
  | [], k, a => [(k, a)]
  | (j, b) :: r, k, a =>
    if k < j then (k, a) :: (j, b) :: r
    else if k = j then (k, a) :: r
    else (j, b) :: Tbl.set r k a

/-- The table without key `k`. -/
def Tbl.del {α : Type} : Tbl α → Nat → Tbl α
  | [], _ => []
  | (j, b) :: r, k => if j = k then Tbl.del r k else (j, b) :: Tbl.del r k

/-- The table with the record under `k`, if any, replaced by `f` of it. -/
def Tbl.modify {α : Type} : Tbl α → Nat → (α → α) → Tbl α
  | [], _, _ => []
  | (j, b) :: r, k, f => if j = k then (j, f b) :: r else (j, b) :: Tbl.modify r k f

/-- Every record replaced by `f` of its key and itself. -/
def Tbl.mapAll {α β : Type} (t : Tbl α) (f : Nat → α → β) : Tbl β := t.map fun p => (p.1, f p.1 p.2)

/-- One more than the largest key, or 0. -/
def Tbl.fresh {α : Type} (t : Tbl α) : Nat := t.foldl (fun m p => max m (p.1 + 1)) 0

/-- Keys strictly rising. -/
def Tbl.sorted {α : Type} : Tbl α → Bool
  | [] => true
  | [_] => true
  | (j, _) :: (k, b) :: r => decide (j < k) && Tbl.sorted ((k, b) :: r)

/-- Element `i` of a list replaced by `f` of it. -/
def listModify {α : Type} : List α → Nat → (α → α) → List α
  | [], _, _ => []
  | a :: r, 0, f => f a :: r
  | a :: r, n + 1, f => a :: listModify r n f

/-- Element `i` of a list replaced by `a`. -/
def listSet {α : Type} (l : List α) (i : Nat) (a : α) : List α := listModify l i fun _ => a

/-- The sixteen lane numbers. -/
def laneList : List Nat := [0, 1, 2, 3, 4, 5, 6, 7, 8, 9, 10, 11, 12, 13, 14, 15]

/-- The mask whose bit `i` is `f i`. -/
def lanesOf (f : Nat → Bool) : Lanes :=
  laneList.foldl (fun m i => if f i then m ||| (1#16 <<< i) else m) 0#16

/-- The number of lanes in the mask. -/
def laneCount (m : Lanes) : Nat := laneList.foldl (fun n i => if m.getLsbD i then n + 1 else n) 0

/-- The lanes of the mask, ascending. -/
def lanesIn (m : Lanes) : List Nat := laneList.filter fun i => m.getLsbD i

/-- The lowest lane of the mask, or 0. -/
def lowLane (m : Lanes) : Nat := (lanesIn m).headD 0

end Sys2Proof
end

