-- ==== Sys2Proof/Config.lean ====
section
/-!
DEFINITION. What the manual leaves open, as opaque constants: no proof can see their values. The free
values are applied to the state's counter `fresh`, or to the operands they depend on.
-/
namespace Sys2Proof.Config

/-- Time that passes in a step: LTIME ticks of a foundation die. -/
opaque ticks : Nat → Nat → Nat
/-- Extra cycles that pass in a step (R460). -/
opaque idleCycles : Nat → Nat
/-- A number that the manual leaves open, by the counter. -/
opaque freeNat : Nat → Nat
/-- The address that the unit chooses for a fresh range (R462). -/
opaque chooseVa : Nat → Nat
/-- The device frame that the unit chooses for an allocation. -/
opaque chooseFrame : Nat → Nat
/-- A byte that a peer device returns for a read of its memory: counter, peer, address. -/
opaque peerByte : Nat → Nat → Nat → BitVec 8
/-- Whether a peer device refuses an access (R418): counter, peer, address. -/
opaque peerRefuses : Nat → Nat → Nat → Bool
/-- First host physical address of a partition device's HDM range behind a port (R420). -/
opaque hdmBase : Nat → Nat → Nat
/-- A byte of host memory when the device obtains its line: counter, address. -/
opaque hostByte : Nat → Nat → BitVec 8
/-- The line, among those of a full set, that a cache or a slice evicts at a fill, if it is one of them. -/
opaque evicts : Nat → Nat
/-- The set of a line in a first-level cache (R320), by ASID and line number. -/
opaque l1Set : Nat → Nat → Nat
/-- The set of a line in an L2 slice (R322), by ASID and line number. -/
opaque l2Set : Nat → Nat → Nat
/-- A measurement of the module (R439), by selector word and counter. -/
opaque measure : Nat → Nat → BitVec 64
/-- Backing-store bytes of a context (R69). -/
opaque backingBytes : Nat → BitVec 64
/-- The RSA-3072 signature of the package's identity over a digest (R436, R457). -/
opaque signRsa : List (BitVec 8) → List (BitVec 8)
/-- The SLH-DSA-SHA2-192s signature of the package's identity over a digest. -/
opaque signSlh : List (BitVec 8) → List (BitVec 8)
/-- Whether an RSA-3072 signature over a digest verifies against the root keys of the record (R433). -/
opaque verifyRsa : List (BitVec 8) → List (BitVec 8) → Bool
/-- As `verifyRsa`, for SLH-DSA-SHA2-192s. -/
opaque verifySlh : List (BitVec 8) → List (BitVec 8) → Bool
/-- SHA-384 (R433, R436). -/
opaque sha384 : List (BitVec 8) → List (BitVec 8)
/-- The ROM version (Table 15.9). -/
opaque romVersion : BitVec 32
/-- The bytes of the signed configuration record (R456): a function of its generation, of the retired banks by structure
code, unit and bank, and of the two minimum security versions. -/
opaque configRecord : Nat → List (Nat × Nat × Nat) → Nat → Nat → List (BitVec 8)

end Sys2Proof.Config
end

