-- ==== Sys2Proof/Syntax.lean ====
section
/-!
DEFINITION. The syntax of the device's steps: every row of the opcode table is one constructor of
`Instr`. Rows IADD to NOP are the instructions of code memory; the rows after them are the events
of the device and the service calls, which have no encoding in code memory.
-/
namespace Sys2Proof

/-- Integer-column type codes of Table 3.3 (R86). -/
inductive ITy where
  | s32 | n32 | s64 | n64 | s16 | n16 | s8 | n8 | b32 | b64 | b16 | b8 | b128 | s4
  deriving DecidableEq, Repr

/-- Floating-point-column type codes of Table 3.3 (R86). -/
inductive FTy where
  | f32 | f16 | bf16 | f64 | e4 | e5 | f4 | ps8 | blk
  deriving DecidableEq, Repr

/-- A type of either column (CVT, REDUX, SCAN). -/
inductive NTy where
  | int (t : ITy) | flt (t : FTy)
  deriving DecidableEq, Repr

/-- SIZE of a group 0 immediate form (Table 3.5). -/
inductive ISize where
  | s32 | n32 | s64 | n64
  deriving DecidableEq, Repr

/-- Rounding modes (Table 4.4). -/
inductive RM where
  | rne | rz | rup | rdn | rna | sr
  deriving DecidableEq, Repr

/-- Overflow policies (Table 4.5). -/
inductive Ovf where
  | inf | sat | nan | trap
  deriving DecidableEq, Repr

/-- Sign modes on source A (Table 6.1). -/
inductive Sgn where
  | none | neg | abs | cps
  deriving DecidableEq, Repr

/-- Relations of ICMP and FCMP (R144, R179); `un` is FCMP's alone. -/
inductive Rel where
  | eq | ne | lt | le | gt | ge | un
  deriving DecidableEq, Repr

/-- Scopes (Table 7.1). -/
inductive Scope where
  | sys | pkg | fnd | die | core | team | wave | item
  deriving DecidableEq, Repr

/-- Orders (Table 7.1). -/
inductive Ord where
  | rlx | acq | rel | ar
  deriving DecidableEq, Repr

/-- Special registers in the order of Table 5.4. -/
inductive SReg where
  | x | y | z | tx | ty | tz | team | tcount | wave | lane | core | die | fnd | gang | grid
  deriving DecidableEq, Repr

/-- Atomic operations (Table 7.5). -/
inductive AtomOp where
  | add | sub | min | max | and | or | xor | exch | cas | inc | dec | fadd
  deriving DecidableEq, Repr

/-- Reduction and scan operations (Table 6.7). -/
inductive RedOp where
  | add | min | max | and | or | xor | fadd | fmin | fmax
  deriving DecidableEq, Repr

/-- LXCH modes (Table 6.6). -/
inductive XMode where
  | lane | rot | slide | flip
  deriving DecidableEq, Repr

/-- VOTE modes (Table 6.6). -/
inductive VMode where
  | any | all | same | none
  deriving DecidableEq, Repr

/-- MMA tile shapes (R259). -/
inductive MShape where
  | m64n64 | m128n64 | m128n128
  deriving DecidableEq, Repr

/-- TRAPRET modes (R278). -/
inductive RetMode where
  | resume | retry | kill | host
  deriving DecidableEq, Repr

/-- SHAPE selectors (Table 5.6). -/
inductive ShSel where
  | kind | sx | sy | sz
  deriving DecidableEq, Repr

/-- Fields every instruction word carries (Table 3.2): stall count, completion flag, guard. -/
structure Hdr where
  stall : Fin 16
  flag : Option (Fin 12)
  guard : Fin 8
  gneg : Bool
  deriving DecidableEq, Repr

/-- A register source: last-use bit, class (true: uniform), index (Table 3.2). -/
structure Src where
  lu : Bool
  uni : Bool
  idx : Fin 64
  deriving DecidableEq, Repr

/-- A source that is always a uniform register. -/
structure USrc where
  lu : Bool
  idx : Fin 64
  deriving DecidableEq, Repr

/-- A source that is always a vector register or pair. -/
structure VSrc where
  lu : Bool
  idx : Fin 64
  deriving DecidableEq, Repr

/-- A register destination. -/
structure Dst where
  uni : Bool
  idx : Fin 64
  deriving DecidableEq, Repr

/-- Operands of one integer source, with .SAT (R140). -/
structure Int1 where
  h : Hdr
  t : ITy
  sat : Bool
  d : Dst
  a : Src
  deriving DecidableEq, Repr

/-- Operands of two integer sources, with .SAT (R140). -/
structure Int2 where
  h : Hdr
  t : ITy
  sat : Bool
  d : Dst
  a : Src
  b : Src
  deriving DecidableEq, Repr

/-- Operands of three integer sources, with .SAT (R140). -/
structure Int3 where
  h : Hdr
  t : ITy
  sat : Bool
  d : Dst
  a : Src
  b : Src
  c : Src
  deriving DecidableEq, Repr

/-- Operands of group 0 I-form: type from SIZE, 24-bit immediate (R87, R88). -/
structure IntI where
  h : Hdr
  sz : ISize
  d : Dst
  a : Src
  imm : BitVec 24
  deriving DecidableEq, Repr

/-- Operands of group 0 L-form: type from SIZE, 64-bit constant (R89). -/
structure IntL where
  h : Hdr
  sz : ISize
  d : Dst
  a : Src
  k : W64
  deriving DecidableEq, Repr

/-- Operands of IADDC: carry-in and carry-out predicates (R143). -/
structure Addc where
  h : Hdr
  t : ITy
  d : Dst
  a : Src
  b : Src
  pin : Fin 8
  pout : Fin 8
  deriving DecidableEq, Repr

/-- Operands of one source, no modifier. -/
structure Un where
  h : Hdr
  t : ITy
  d : Dst
  a : Src
  deriving DecidableEq, Repr

/-- Operands of two sources, no modifier. -/
structure Bin where
  h : Hdr
  t : ITy
  d : Dst
  a : Src
  b : Src
  deriving DecidableEq, Repr

/-- Operands of three sources, no modifier. -/
structure Tern where
  h : Hdr
  t : ITy
  d : Dst
  a : Src
  b : Src
  c : Src
  deriving DecidableEq, Repr

/-- Operands of ICMP register form (R144). -/
structure Cmp where
  h : Hdr
  t : ITy
  rel : Rel
  pd : Fin 8
  a : Src
  b : Src
  deriving DecidableEq, Repr

/-- Operands of ICMP I-form: the code carries the relation (R144). -/
structure CmpI where
  h : Hdr
  sz : ISize
  rel : Rel
  pd : Fin 8
  a : Src
  imm : BitVec 24
  deriving DecidableEq, Repr

/-- Operands of ICMP L-form (R144). -/
structure CmpL where
  h : Hdr
  sz : ISize
  rel : Rel
  pd : Fin 8
  a : Src
  k : W64
  deriving DecidableEq, Repr

/-- Operands of LOGT truth table (R147). -/
structure Logt where
  h : Hdr
  wide : Bool
  table : Byte
  d : Dst
  a : Src
  b : Src
  c : Src
  deriving DecidableEq, Repr

/-- Operands of BYSEL register form (R150). -/
structure Bysel where
  h : Hdr
  d : Dst
  a : Src
  b : Src
  c : Src
  deriving DecidableEq, Repr

/-- Operands of BYSEL I-form (R150). -/
structure ByselI where
  h : Hdr
  d : Dst
  a : Src
  imm : BitVec 24
  deriving DecidableEq, Repr

/-- Operands of BYSEL L-form (R150). -/
structure ByselL where
  h : Hdr
  d : Dst
  a : Src
  k : W64
  deriving DecidableEq, Repr

/-- Operands of LEA register form (R152). -/
structure Lea where
  h : Hdr
  t : ITy
  sh : Fin 8
  d : Dst
  a : Src
  b : Src
  deriving DecidableEq, Repr

/-- Operands of MOVI (R153). -/
structure MovI where
  h : Hdr
  sz : ISize
  d : Dst
  imm : BitVec 24
  deriving DecidableEq, Repr

/-- Operands of MOVL (R153). -/
structure MovL where
  h : Hdr
  sz : ISize
  d : Dst
  k : W64
  deriving DecidableEq, Repr

/-- Operands of SEL (R154). -/
structure SelOp where
  h : Hdr
  t : ITy
  d : Dst
  a : Src
  b : Src
  p : Fin 8
  deriving DecidableEq, Repr

/-- Operands of PLOP (R155). -/
structure Plop where
  h : Hdr
  table : Byte
  pd : Fin 8
  pa : Fin 8
  pb : Fin 8
  pc : Fin 8
  deriving DecidableEq, Repr

/-- Operands of MOVS (R156). -/
structure MovS where
  h : Hdr
  wide : Bool
  d : Dst
  sr : SReg
  deriving DecidableEq, Repr

/-- Operands of two floating-point sources with Table 6.1 modifiers (R173). -/
structure FBin where
  h : Hdr
  t : FTy
  rm : RM
  ftz : Bool
  sgn : Sgn
  d : Dst
  a : Src
  b : Src
  deriving DecidableEq, Repr

/-- Operands of one floating-point source with Table 6.1 modifiers. -/
structure FUn where
  h : Hdr
  t : FTy
  rm : RM
  ftz : Bool
  sgn : Sgn
  d : Dst
  a : Src
  deriving DecidableEq, Repr

/-- Operands of three floating-point sources with Table 6.1 modifiers. -/
structure FTern where
  h : Hdr
  t : FTy
  rm : RM
  ftz : Bool
  sgn : Sgn
  d : Dst
  a : Src
  b : Src
  c : Src
  deriving DecidableEq, Repr

/-- Operands of FMIN and FMAX register form (R178). -/
structure FMM where
  h : Hdr
  t : FTy
  prop : Bool
  ftz : Bool
  sgn : Sgn
  d : Dst
  a : Src
  b : Src
  deriving DecidableEq, Repr

/-- Operands of FCMP register form (R179). -/
structure FCmp where
  h : Hdr
  t : FTy
  rel : Rel
  ftz : Bool
  sgn : Sgn
  pd : Fin 8
  a : Src
  b : Src
  deriving DecidableEq, Repr

/-- Operands of FCLASS (R180). -/
structure FCls where
  h : Hdr
  t : FTy
  d : Dst
  a : Src
  deriving DecidableEq, Repr

/-- Operands of groups 1 and 2 I-form (R88). -/
structure FI where
  h : Hdr
  t : FTy
  d : Dst
  a : Src
  imm : BitVec 24
  deriving DecidableEq, Repr

/-- Operands of groups 1 and 2 L-form (R89). -/
structure FL where
  h : Hdr
  t : FTy
  d : Dst
  a : Src
  k : W64
  deriving DecidableEq, Repr

/-- Operands of FCMP I-form (R179). -/
structure FCmpI where
  h : Hdr
  t : FTy
  rel : Rel
  pd : Fin 8
  a : Src
  imm : BitVec 24
  deriving DecidableEq, Repr

/-- Operands of FCMP L-form (R179). -/
structure FCmpL where
  h : Hdr
  t : FTy
  rel : Rel
  pd : Fin 8
  a : Src
  k : W64
  deriving DecidableEq, Repr

/-- Operands of DOT2 (R186). -/
structure Dot2 where
  h : Hdr
  t : FTy
  rm : RM
  ftz : Bool
  d : Dst
  a : Src
  b : Src
  c : Src
  deriving DecidableEq, Repr

/-- Operands of DOT4: `tb` none is "the same as TA" (R187). -/
structure Dot4 where
  h : Hdr
  ta : FTy
  tb : Option FTy
  rm : RM
  ftz : Bool
  d : Dst
  a : Src
  b : Src
  c : Src
  deriving DecidableEq, Repr

/-- Operands of CVT (R188). -/
structure Cvt where
  h : Hdr
  td : NTy
  ts : NTy
  rm : RM
  ovf : Ovf
  ftz : Bool
  d : Dst
  a : Src
  deriving DecidableEq, Repr

/-- Operands of LXCH register form (R198). -/
structure Lxch where
  h : Hdr
  wide : Bool
  mode : XMode
  seg : Fin 4
  d : Dst
  a : Src
  b : Src
  deriving DecidableEq, Repr

/-- Operands of LXCH I-form (R198). -/
structure LxchI where
  h : Hdr
  wide : Bool
  mode : XMode
  seg : Fin 4
  d : Dst
  a : Src
  sel : BitVec 5
  deriving DecidableEq, Repr

/-- Operands of VOTE (R198). -/
structure Vote where
  h : Hdr
  mode : VMode
  pd : Fin 8
  pa : Fin 8
  deriving DecidableEq, Repr

/-- Operands of BALLOT (R198). -/
structure Ballot where
  h : Hdr
  d : Dst
  pa : Fin 8
  deriving DecidableEq, Repr

/-- Operands of REDUX (R198, R201). -/
structure Redux where
  h : Hdr
  op : RedOp
  t : NTy
  d : Dst
  a : Src
  deriving DecidableEq, Repr

/-- Operands of SCAN (R198, R203). -/
structure ScanOp where
  h : Hdr
  op : RedOp
  t : NTy
  exc : Bool
  d : Dst
  a : Src
  deriving DecidableEq, Repr

/-- Operands of MATCH (R198, R204). -/
structure MatchOp where
  h : Hdr
  wide : Bool
  unif : Bool
  d : Dst
  a : Src
  deriving DecidableEq, Repr

/-- Operands of QBLK (R192). -/
structure Qblk where
  h : Hdr
  rm : RM
  ovf : Ovf
  d : Fin 64
  a : VSrc
  b : USrc
  c : USrc
  deriving DecidableEq, Repr

/-- Operands of QUNPK (R193). -/
structure Qunpk where
  h : Hdr
  rm : RM
  d : Fin 64
  a : VSrc
  deriving DecidableEq, Repr

/-- Operands of AMAX (R194). -/
structure Amax where
  h : Hdr
  prop : Bool
  t : FTy
  d : Dst
  a : Src
  deriving DecidableEq, Repr

/-- Operands of SHAPE (R171): the source carries no last-use bit. -/
structure ShapeOp where
  h : Hdr
  sel : ShSel
  d : Dst
  uni : Bool
  idx : Fin 64
  deriving DecidableEq, Repr

/-- Operands of an instruction with no operand and no guard. -/
structure Bare where
  stall : Fin 16
  flag : Option (Fin 12)
  deriving DecidableEq, Repr

/-- Operands of an instruction with a guard and no operand. -/
structure GBare where
  h : Hdr
  deriving DecidableEq, Repr

/-- Operands of LD register form (R209); `off` is the BOFF register. -/
structure LdR where
  h : Hdr
  t : ITy
  ord : Ord
  scope : Scope
  d : Fin 64
  a : Src
  off : Option USrc
  deriving DecidableEq, Repr

/-- Operands of LD I-form (R209). -/
structure LdI where
  h : Hdr
  t : ITy
  d : Fin 64
  a : Src
  imm : BitVec 24
  deriving DecidableEq, Repr

/-- Operands of LD L-form (R209). -/
structure LdL where
  h : Hdr
  t : ITy
  d : Fin 64
  a : Src
  k : W64
  deriving DecidableEq, Repr

/-- Operands of LDU register form (R209). -/
structure LduR where
  h : Hdr
  t : ITy
  ord : Ord
  scope : Scope
  d : Fin 64
  a : USrc
  off : Option USrc
  deriving DecidableEq, Repr

/-- Operands of LDU I-form (R209). -/
structure LduI where
  h : Hdr
  t : ITy
  d : Fin 64
  a : USrc
  imm : BitVec 24
  deriving DecidableEq, Repr

/-- Operands of LDU L-form (R209). -/
structure LduL where
  h : Hdr
  t : ITy
  d : Fin 64
  a : USrc
  k : W64
  deriving DecidableEq, Repr

/-- Operands of ST register form: data in source C (R209). -/
structure StR where
  h : Hdr
  t : ITy
  ord : Ord
  scope : Scope
  a : Src
  off : Option USrc
  c : Src
  deriving DecidableEq, Repr

/-- Operands of ST I-form: data in the D field (R209). -/
structure StI where
  h : Hdr
  t : ITy
  v : Dst
  a : Src
  imm : BitVec 24
  deriving DecidableEq, Repr

/-- Operands of ST L-form: data in the D field (R209). -/
structure StL where
  h : Hdr
  t : ITy
  v : Dst
  a : Src
  k : W64
  deriving DecidableEq, Repr

/-- Operands of ATOM (R214). -/
structure Atom where
  h : Hdr
  op : AtomOp
  t : ITy
  ord : Ord
  scope : Scope
  dlu : Bool
  d : Fin 64
  a : Src
  b : Src
  deriving DecidableEq, Repr

/-- Operands of RED (R214). -/
structure RedM where
  h : Hdr
  op : AtomOp
  t : ITy
  ord : Ord
  scope : Scope
  a : Src
  b : Src
  deriving DecidableEq, Repr

/-- Operands of PREF register form: target 0 L1, 1 L2, 2 stash (R218). -/
structure PrefR where
  h : Hdr
  target : Fin 3
  excl : Bool
  a : Src
  off : Option USrc
  deriving DecidableEq, Repr

/-- Operands of PREF I-form (R218). -/
structure PrefI where
  h : Hdr
  a : Src
  imm : BitVec 24
  deriving DecidableEq, Repr

/-- Operands of PREF L-form (R218). -/
structure PrefL where
  h : Hdr
  a : Src
  k : W64
  deriving DecidableEq, Repr

/-- Operands of CCTL: operation 0 .L1LINE, 1 .L1ALL, 2 .L2LINE; .L1ALL names no address (R219). -/
structure Cctl where
  h : Hdr
  op : Fin 3
  addr : Option Src
  off : Option USrc
  deriving DecidableEq, Repr

/-- Operands of FENCE (R220). -/
structure Fence where
  h : Hdr
  ord : Ord
  sc : Bool
  scope : Scope
  deriving DecidableEq, Repr

/-- Operands of PHCLOSE (R221). -/
structure Phclose where
  h : Hdr
  d : Dst
  deriving DecidableEq, Repr

/-- Operands of PHWAIT (R222). -/
structure Phwait where
  h : Hdr
  a : USrc
  b : Src
  deriving DecidableEq, Repr

/-- Operands of WAITV (R223). -/
structure Waitv where
  h : Hdr
  t : ITy
  a : Src
  b : Src
  c : USrc
  deriving DecidableEq, Repr

/-- Operands of BAR.ARV and BAR.WAIT (R224). -/
structure BarOp where
  h : Hdr
  bar : Fin 4
  deriving DecidableEq, Repr

/-- Operands of BARM.ARV (R227). -/
structure BarmArv where
  h : Hdr
  scope : Scope
  a : Src
  deriving DecidableEq, Repr

/-- Operands of BARM.WAIT; the destination stands with .STAT only (R228). -/
structure BarmWait where
  h : Hdr
  scope : Scope
  stat : Option (Fin 64)
  a : Src
  b : Src
  deriving DecidableEq, Repr

/-- Operands of SMAP (R230). -/
structure Smap where
  h : Hdr
  rw : Bool
  retain : Bool
  a : USrc
  b : USrc
  c : USrc
  deriving DecidableEq, Repr

/-- Operands of SUNMAP, SFLUSH, SFILL, SDISCARD (R239). -/
structure KeyOp where
  h : Hdr
  a : USrc
  deriving DecidableEq, Repr

/-- Operands of SQUERY (R240). -/
structure Squery where
  h : Hdr
  d : Dst
  a : USrc
  deriving DecidableEq, Repr

/-- Operands of CPY (R250): kC names a uniform pair. -/
structure Cpy where
  h : Hdr
  w : Fin 64
  scope : Scope
  d : Fin 64
  a : Src
  b : Src
  c : USrc
  deriving DecidableEq, Repr

/-- Operands of CPYT (R250). -/
structure Cpyt where
  h : Hdr
  w : Fin 64
  scope : Scope
  store : Bool
  d : Fin 64
  a : VSrc
  b : Src
  c : USrc
  deriving DecidableEq, Repr

/-- Operands of CPYG and CPYS (R250). -/
structure CpyGS where
  h : Hdr
  scope : Scope
  d : Fin 64
  a : USrc
  b : USrc
  c : USrc
  deriving DecidableEq, Repr

/-- Operands of a *once* instruction with one uniform source. -/
structure KOp where
  h : Hdr
  a : USrc
  deriving DecidableEq, Repr

/-- Operands of TWAIT (R250). -/
structure Twait where
  h : Hdr
  all : Bool
  a : USrc
  deriving DecidableEq, Repr

/-- Operands of TFFR (R250). -/
structure Tffr where
  h : Hdr
  d : Dst
  a : USrc
  deriving DecidableEq, Repr

/-- Operands of CNTWAIT (R250). -/
structure Cntwait where
  h : Hdr
  scope : Scope
  d : Dst
  a : USrc
  b : USrc
  c : USrc
  deriving DecidableEq, Repr

/-- Operands of GSET (R259). -/
structure Gset where
  h : Hdr
  g : Fin 16
  a : USrc
  b : USrc
  deriving DecidableEq, Repr

/-- Operands of GCNT (R259). -/
structure Gcnt where
  h : Hdr
  d : Dst
  g : Fin 16
  deriving DecidableEq, Repr

/-- Operands of ACFG (R259). -/
structure Acfg where
  h : Hdr
  discard : Bool
  a : USrc
  deriving DecidableEq, Repr

/-- Operands of MMA (R259). -/
structure Mma where
  h : Hdr
  shape : MShape
  z : Bool
  tile : Fin 32
  ga : Fin 16
  gb : Fin 16
  tag : Option (Fin 64)
  deriving DecidableEq, Repr

/-- Operands of ACC.LD (R259, R270). -/
structure AccLd where
  h : Hdr
  wide : Bool
  d : Fin 64
  tile : Fin 32
  b : USrc
  deriving DecidableEq, Repr

/-- Operands of ACC.ST (R259, R270). -/
structure AccSt where
  h : Hdr
  wide : Bool
  tile : Fin 32
  a : VSrc
  b : USrc
  deriving DecidableEq, Repr

/-- Operands of ACC.ZERO (R259, R263). -/
structure AccZero where
  h : Hdr
  shape : MShape
  wide : Bool
  tile : Fin 32
  deriving DecidableEq, Repr

/-- Operands of ACC.MOV: `froms` is .FROMS (R259, R271). -/
structure AccMov where
  h : Hdr
  froms : Bool
  t : FTy
  rm : RM
  tile : Fin 32
  a : USrc
  b : USrc
  deriving DecidableEq, Repr

/-- Operands of a *once* instruction with one destination. -/
structure DOp where
  h : Hdr
  d : Dst
  deriving DecidableEq, Repr

/-- Operands of BRA and CALL: signed word offset (R158). -/
structure Bra where
  h : Hdr
  imm : BitVec 24
  deriving DecidableEq, Repr

/-- Operands of BRX and CALLX: 64-bit target (R158). -/
structure Brx where
  h : Hdr
  a : Src
  deriving DecidableEq, Repr

/-- Operands of RET: pair source (R161). -/
structure Ret where
  h : Hdr
  a : VSrc
  deriving DecidableEq, Repr

/-- Operands of TRAP and BRK: 24-bit code (R168). -/
structure CodeOp where
  h : Hdr
  imm : BitVec 24
  deriving DecidableEq, Repr

/-- Operands of SVC (R273, R274). -/
structure Svc where
  h : Hdr
  code : Byte
  a : USrc
  deriving DecidableEq, Repr

/-- Operands of CSRR (R275). -/
structure Csrr where
  h : Hdr
  d : Dst
  ix : BitVec 12
  deriving DecidableEq, Repr

/-- Operands of CSRW (R275). -/
structure Csrw where
  h : Hdr
  a : USrc
  ix : BitVec 12
  deriving DecidableEq, Repr

/-- Operands of LAUNCH (R276). -/
structure Launch where
  h : Hdr
  d : Dst
  a : USrc
  deriving DecidableEq, Repr

/-- Operands of LWAIT; no source is .ALL (R277). -/
structure Lwait where
  h : Hdr
  a : Option USrc
  deriving DecidableEq, Repr

/-- Operands of TRAPRET (R278). -/
structure Trapret where
  h : Hdr
  mode : RetMode
  deriving DecidableEq, Repr

/-- What executes an instruction: a sub-wave of a resident team, or a span. -/
inductive Focus where
  | sub (team wave sub : Nat)
  | span (id : Nat)
  deriving DecidableEq, Repr

/-- What owns completion flags and operations in flight: a wave, or a span (R50). -/
inductive Owner where
  | wave (team wave : Nat)
  | span (id : Nat)
  deriving DecidableEq, Repr

/-- Structures with retirable banks, by the codes of BANK_RETIRE (Table 15.6). -/
inductive Struct where
  | pool | stash | acc | l1 | icache | l2 | hbm
  deriving DecidableEq, Repr

/-- One physical bank, way, slice or channel of a unit (R397). -/
structure BankRef where
  st : Struct
  unit : Nat
  bank : Nat
  deriving DecidableEq, Repr

/-- What an uncorrectable error destroyed on use (Table 13.4): `team` a vector pool or form file value of a team,
`uniform` one of the uniform pool, which is never vented (R61). -/
inductive ErrSite where
  | team (team : Nat)
  | uniform (team : Nat)
  | sector (core sector : Nat)
  | undo (team : Nat)
  | tiles (team : Nat)
  | clean
  | unit16 (place : Nat)
  | translation (unit asid va : Nat)
  | directory (slice : Nat)
  deriving DecidableEq, Repr

/-- A line by canonical name in a partition device: ASID and VA div 64 (R313). -/
structure LineRef where
  dev : Nat
  asid : Nat
  line : Nat
  deriving DecidableEq, Repr

/-- A holder as the directory names it: agent number and kind (Table 10.2). -/
structure Holder where
  agent : Nat
  kind : Nat
  deriving DecidableEq, Repr

/-- A compute die or a foundation die. -/
inductive DieRef where
  | compute (d : Nat)
  | foundation (f : Nat)
  deriving DecidableEq, Repr

/-- A request of a peer device (R418): a read, a write of bytes, an atomic with its operand as ATOM takes it (R215), or a
doorbell write. -/
inductive PeerOp where
  | read (va bytes : Nat)
  | write (va : Nat) (data : List Byte)
  | atomic (va : Nat) (op : AtomOp) (t : ITy) (b : Nat)
  | doorbell (queue tail : Nat)
  deriving DecidableEq, Repr

/-- Who makes a service call (R421, R274): a function of a host port (vf 0 is the physical
function) or an item of a context on a core. -/
inductive Caller where
  | host (port vf : Nat)
  | item (ctx core team wave : Nat)
  deriving DecidableEq, Repr

/-- An accepted service call: the fields of its parameter block (Table 15.3) as the unit read them.
`flight` is the tracked operation of a device caller whose flag falls at the status write; `bad`
marks a VERSION, reserved field or other field of the block outside its limits (R424). -/
structure Call where
  dev : Nat
  caller : Caller
  block : Nat
  counter : Nat
  scope : Nat
  irq : Bool
  vector : Nat
  ctx : Nat
  args : List W64
  flight : Nat
  bad : Bool
  /-- port on which the completion vector of a host call is delivered (R428) -/
  irqPort : Nat
  deriving DecidableEq, Repr

/-- What bring-up finds (R458): dies that train, images that verify, and whether the pair's halves agree. -/
structure BringUp where
  lockstep : Bool
  /-- the copy of the configuration record with the higher generation verifies, and the other one does (R456) -/
  recordOk : Bool
  olderOk : Bool := false
  trustedOk : Bool
  identityOk : Bool
  policyOk : Bool
  deadCompute : List Nat
  deadFoundation : List Nat
  deriving DecidableEq, Repr

/-- The steps of the device, one constructor per row of the opcode table, in its order. -/
inductive Instr where
  /-- IADD (R140). -/
  | iadd (x : Int2)
  /-- IADD_I (R140). -/
  | iaddI (x : IntI)
  /-- IADD_L (R140). -/
  | iaddL (x : IntL)
  /-- ISUB (R140). -/
  | isub (x : Int2)
  /-- ISUB_I (R140). -/
  | isubI (x : IntI)
  /-- ISUB_L (R140). -/
  | isubL (x : IntL)
  /-- IADDC (R143). -/
  | iaddc (x : Addc)
  /-- INEG (R140). -/
  | ineg (x : Int1)
  /-- IABS (R140). -/
  | iabs (x : Int1)
  /-- IMUL (R140). -/
  | imul (x : Int2)
  /-- IMUL_I (R140). -/
  | imulI (x : IntI)
  /-- IMUL_L (R140). -/
  | imulL (x : IntL)
  /-- IMULH (R140). -/
  | imulh (x : Bin)
  /-- IMULH_I (R140). -/
  | imulhI (x : IntI)
  /-- IMULH_L (R140). -/
  | imulhL (x : IntL)
  /-- IMAD (R140). -/
  | imad (x : Int3)
  /-- IMADW (R140). -/
  | imadw (x : Tern)
  /-- IDIV (R142). -/
  | idiv (x : Bin)
  /-- IDIV_I (R142). -/
  | idivI (x : IntI)
  /-- IDIV_L (R142). -/
  | idivL (x : IntL)
  /-- IREM (R142). -/
  | irem (x : Bin)
  /-- IREM_I (R142). -/
  | iremI (x : IntI)
  /-- IREM_L (R142). -/
  | iremL (x : IntL)
  /-- IMIN (R140). -/
  | imin (x : Bin)
  /-- IMIN_I (R140). -/
  | iminI (x : IntI)
  /-- IMIN_L (R140). -/
  | iminL (x : IntL)
  /-- IMAX (R140). -/
  | imax (x : Bin)
  /-- IMAX_I (R140). -/
  | imaxI (x : IntI)
  /-- IMAX_L (R140). -/
  | imaxL (x : IntL)
  /-- ICLAMP (R140). -/
  | iclamp (x : Tern)
  /-- ICMP (R144). -/
  | icmp (x : Cmp)
  /-- ICMP_I (R144). -/
  | icmpI (x : CmpI)
  /-- ICMP_L (R144). -/
  | icmpL (x : CmpL)
  /-- AND (R145). -/
  | and (x : Bin)
  /-- AND_I (R145). -/
  | andI (x : IntI)
  /-- AND_L (R145). -/
  | andL (x : IntL)
  /-- OR (R145). -/
  | or (x : Bin)
  /-- OR_I (R145). -/
  | orI (x : IntI)
  /-- OR_L (R145). -/
  | orL (x : IntL)
  /-- XOR (R145). -/
  | xor (x : Bin)
  /-- XOR_I (R145). -/
  | xorI (x : IntI)
  /-- XOR_L (R145). -/
  | xorL (x : IntL)
  /-- NOT (R145). -/
  | not (x : Un)
  /-- LOGT (R147). -/
  | logt (x : Logt)
  /-- SHL (R146). -/
  | shl (x : Bin)
  /-- SHL_I (R146). -/
  | shlI (x : IntI)
  /-- SHL_L (R146). -/
  | shlL (x : IntL)
  /-- SHR (R146). -/
  | shr (x : Bin)
  /-- SHR_I (R146). -/
  | shrI (x : IntI)
  /-- SHR_L (R146). -/
  | shrL (x : IntL)
  /-- SAR (R146). -/
  | sar (x : Bin)
  /-- SAR_I (R146). -/
  | sarI (x : IntI)
  /-- SAR_L (R146). -/
  | sarL (x : IntL)
  /-- ROL (R146). -/
  | rol (x : Bin)
  /-- ROL_I (R146). -/
  | rolI (x : IntI)
  /-- ROL_L (R146). -/
  | rolL (x : IntL)
  /-- FSHL (R146). -/
  | fshl (x : Tern)
  /-- POPC (R148). -/
  | popc (x : Un)
  /-- CLZ (R148). -/
  | clz (x : Un)
  /-- CTZ (R148). -/
  | ctz (x : Un)
  /-- BREV (R145). -/
  | brev (x : Un)
  /-- BFX (R149). -/
  | bfx (x : Bin)
  /-- BFX_I (R149). -/
  | bfxI (x : IntI)
  /-- BFX_L (R149). -/
  | bfxL (x : IntL)
  /-- BFI (R149). -/
  | bfi (x : Tern)
  /-- BYSEL (R150). -/
  | bysel (x : Bysel)
  /-- BYSEL_I (R150). -/
  | byselI (x : ByselI)
  /-- BYSEL_L (R150). -/
  | byselL (x : ByselL)
  /-- LEA (R152). -/
  | lea (x : Lea)
  /-- LEA_I (R152). -/
  | leaI (x : IntI)
  /-- LEA_L (R152). -/
  | leaL (x : IntL)
  /-- MOV (R153). -/
  | mov (x : Un)
  /-- MOVI (R153). -/
  | movi (x : MovI)
  /-- MOVL (R153). -/
  | movl (x : MovL)
  /-- SEL (R154). -/
  | sel (x : SelOp)
  /-- PLOP (R155). -/
  | plop (x : Plop)
  /-- MOVS (R156). -/
  | movs (x : MovS)
  /-- FADD (R177). -/
  | fadd (x : FBin)
  /-- FADD_I (R177). -/
  | faddI (x : FI)
  /-- FADD_L (R177). -/
  | faddL (x : FL)
  /-- FSUB (R177). -/
  | fsub (x : FBin)
  /-- FSUB_I (R177). -/
  | fsubI (x : FI)
  /-- FSUB_L (R177). -/
  | fsubL (x : FL)
  /-- FMUL (R177). -/
  | fmul (x : FBin)
  /-- FMUL_I (R177). -/
  | fmulI (x : FI)
  /-- FMUL_L (R177). -/
  | fmulL (x : FL)
  /-- FFMA (R177). -/
  | ffma (x : FTern)
  /-- FMIN (R178). -/
  | fmin (x : FMM)
  /-- FMIN_I (R178). -/
  | fminI (x : FI)
  /-- FMIN_L (R178). -/
  | fminL (x : FL)
  /-- FMAX (R178). -/
  | fmax (x : FMM)
  /-- FMAX_I (R178). -/
  | fmaxI (x : FI)
  /-- FMAX_L (R178). -/
  | fmaxL (x : FL)
  /-- FCMP (R179). -/
  | fcmp (x : FCmp)
  /-- FCMP_I (R179). -/
  | fcmpI (x : FCmpI)
  /-- FCMP_L (R179). -/
  | fcmpL (x : FCmpL)
  /-- FCLASS (R180). -/
  | fclass (x : FCls)
  /-- FRND (R181). -/
  | frnd (x : FUn)
  /-- FSCALE (R182). -/
  | fscale (x : FBin)
  /-- FSCALE_I (R182). -/
  | fscaleI (x : FI)
  /-- FSCALE_L (R182). -/
  | fscaleL (x : FL)
  /-- FDIV (R183). -/
  | fdiv (x : FBin)
  /-- FSQRT (R183). -/
  | fsqrt (x : FUn)
  /-- FRCP (R183). -/
  | frcp (x : FUn)
  /-- FRSQ (R183). -/
  | frsq (x : FUn)
  /-- FEXP2 (R183). -/
  | fexp2 (x : FUn)
  /-- FLOG2 (R183). -/
  | flog2 (x : FUn)
  /-- FSINPI (R183). -/
  | fsinpi (x : FUn)
  /-- FCOSPI (R183). -/
  | fcospi (x : FUn)
  /-- HADD2 (R185). -/
  | hadd2 (x : FBin)
  /-- HMUL2 (R185). -/
  | hmul2 (x : FBin)
  /-- HFMA2 (R185). -/
  | hfma2 (x : FTern)
  /-- DOT2 (R186). -/
  | dot2 (x : Dot2)
  /-- DOT4 (R187). -/
  | dot4 (x : Dot4)
  /-- FADD_F64 (R177). -/
  | faddF64 (x : FBin)
  /-- FADD_F64_I (R177). -/
  | faddF64I (x : FI)
  /-- FADD_F64_L (R177). -/
  | faddF64L (x : FL)
  /-- FSUB_F64 (R177). -/
  | fsubF64 (x : FBin)
  /-- FSUB_F64_I (R177). -/
  | fsubF64I (x : FI)
  /-- FSUB_F64_L (R177). -/
  | fsubF64L (x : FL)
  /-- FMUL_F64 (R177). -/
  | fmulF64 (x : FBin)
  /-- FMUL_F64_I (R177). -/
  | fmulF64I (x : FI)
  /-- FMUL_F64_L (R177). -/
  | fmulF64L (x : FL)
  /-- FFMA_F64 (R177). -/
  | ffmaF64 (x : FTern)
  /-- FMIN_F64 (R178). -/
  | fminF64 (x : FMM)
  /-- FMIN_F64_I (R178). -/
  | fminF64I (x : FI)
  /-- FMIN_F64_L (R178). -/
  | fminF64L (x : FL)
  /-- FMAX_F64 (R178). -/
  | fmaxF64 (x : FMM)
  /-- FMAX_F64_I (R178). -/
  | fmaxF64I (x : FI)
  /-- FMAX_F64_L (R178). -/
  | fmaxF64L (x : FL)
  /-- FCMP_F64 (R179). -/
  | fcmpF64 (x : FCmp)
  /-- FCMP_F64_I (R179). -/
  | fcmpF64I (x : FCmpI)
  /-- FCMP_F64_L (R179). -/
  | fcmpF64L (x : FCmpL)
  /-- FCLASS_F64 (R180). -/
  | fclassF64 (x : FCls)
  /-- FRND_F64 (R181). -/
  | frndF64 (x : FUn)
  /-- FSCALE_F64 (R182). -/
  | fscaleF64 (x : FBin)
  /-- FSCALE_F64_I (R182). -/
  | fscaleF64I (x : FI)
  /-- FSCALE_F64_L (R182). -/
  | fscaleF64L (x : FL)
  /-- FDIV_F64 (R183). -/
  | fdivF64 (x : FBin)
  /-- FSQRT_F64 (R183). -/
  | fsqrtF64 (x : FUn)
  /-- FRCP_F64 (R183). -/
  | frcpF64 (x : FUn)
  /-- CVT (R190). -/
  | cvt (x : Cvt)
  /-- LXCH (R199). -/
  | lxch (x : Lxch)
  /-- LXCH_I (R199). -/
  | lxchI (x : LxchI)
  /-- VOTE (R200). -/
  | vote (x : Vote)
  /-- BALLOT (R200). -/
  | ballot (x : Ballot)
  /-- REDUX (R202). -/
  | redux (x : Redux)
  /-- SCAN (R203). -/
  | scan (x : ScanOp)
  /-- MATCH (R204). -/
  | matchOp (x : MatchOp)
  /-- QBLK (R192). -/
  | qblk (x : Qblk)
  /-- QUNPK (R193). -/
  | qunpk (x : Qunpk)
  /-- AMAX (R194). -/
  | amax (x : Amax)
  /-- SHAPE (R171). -/
  | shape (x : ShapeOp)
  /-- MAT (R170). -/
  | mat (x : Bare)
  /-- LD (R210). -/
  | ld (x : LdR)
  /-- LD_I (R210). -/
  | ldI (x : LdI)
  /-- LD_L (R210). -/
  | ldL (x : LdL)
  /-- LDU (R210). -/
  | ldu (x : LduR)
  /-- LDU_I (R210). -/
  | lduI (x : LduI)
  /-- LDU_L (R210). -/
  | lduL (x : LduL)
  /-- ST (R210). -/
  | st (x : StR)
  /-- ST_I (R210). -/
  | stI (x : StI)
  /-- ST_L (R210). -/
  | stL (x : StL)
  /-- ATOM (R215). -/
  | atom (x : Atom)
  /-- RED (R215). -/
  | red (x : RedM)
  /-- PREF (R218). -/
  | pref (x : PrefR)
  /-- PREF_I (R218). -/
  | prefI (x : PrefI)
  /-- PREF_L (R218). -/
  | prefL (x : PrefL)
  /-- CCTL (R219). -/
  | cctl (x : Cctl)
  /-- FENCE (R220). -/
  | fence (x : Fence)
  /-- PHCLOSE (R221). -/
  | phclose (x : Phclose)
  /-- PHWAIT (R222). -/
  | phwait (x : Phwait)
  /-- WAITV (R223). -/
  | waitv (x : Waitv)
  /-- BAR_ARV (R224). -/
  | barArv (x : BarOp)
  /-- BAR_WAIT (R224). -/
  | barWait (x : BarOp)
  /-- BARM_ARV (R227). -/
  | barmArv (x : BarmArv)
  /-- BARM_WAIT (R228). -/
  | barmWait (x : BarmWait)
  /-- SMAP (R233). -/
  | smap (x : Smap)
  /-- SUNMAP (R239). -/
  | sunmap (x : KeyOp)
  /-- SFLUSH (R239). -/
  | sflush (x : KeyOp)
  /-- SFILL (R239). -/
  | sfill (x : KeyOp)
  /-- SDISCARD (R239). -/
  | sdiscard (x : KeyOp)
  /-- SQUERY (R240). -/
  | squery (x : Squery)
  /-- CPY (R251). -/
  | cpy (x : Cpy)
  /-- CPYT (R254). -/
  | cpyt (x : Cpyt)
  /-- CPYG (R255). -/
  | cpyg (x : CpyGS)
  /-- CPYS (R255). -/
  | cpys (x : CpyGS)
  /-- COPYQ (R256). -/
  | copyq (x : KOp)
  /-- TWAIT (R257). -/
  | twait (x : Twait)
  /-- TFFR (R257). -/
  | tffr (x : Tffr)
  /-- TCLR (R257). -/
  | tclr (x : KOp)
  /-- CNTWAIT (R258). -/
  | cntwait (x : Cntwait)
  /-- GSET (R260). -/
  | gset (x : Gset)
  /-- GCNT (R261). -/
  | gcnt (x : Gcnt)
  /-- ACFG (R262). -/
  | acfg (x : Acfg)
  /-- MMA (R264). -/
  | mma (x : Mma)
  /-- ACC_LD (R270). -/
  | accLd (x : AccLd)
  /-- ACC_ST (R270). -/
  | accSt (x : AccSt)
  /-- ACC_ZERO (R271). -/
  | accZero (x : AccZero)
  /-- ACC_MOV (R271). -/
  | accMov (x : AccMov)
  /-- MPROG (R272). -/
  | mprog (x : DOp)
  /-- BRA (R158). -/
  | bra (x : Bra)
  /-- CALL (R160). -/
  | call (x : Bra)
  /-- BRX (R158). -/
  | brx (x : Brx)
  /-- CALLX (R160). -/
  | callx (x : Brx)
  /-- RET (R161). -/
  | ret (x : Ret)
  /-- JOINPT (R162). -/
  | joinpt (x : Bare)
  /-- SYNC (R163). -/
  | sync (x : Bare)
  /-- EXIT (R166). -/
  | exit (x : GBare)
  /-- YIELD (R167). -/
  | yield (x : Bare)
  /-- SJOIN (R169). -/
  | sjoin (x : Bare)
  /-- TRAP (R168). -/
  | trap (x : CodeOp)
  /-- BRK (R168). -/
  | brk (x : CodeOp)
  /-- SVC (R274). -/
  | svc (x : Svc)
  /-- CSRR (R275). -/
  | csrr (x : Csrr)
  /-- CSRW (R275). -/
  | csrw (x : Csrw)
  /-- LAUNCH (R276). -/
  | launch (x : Launch)
  /-- LWAIT (R277). -/
  | lwait (x : Lwait)
  /-- TRAPRET (R278). -/
  | trapret (x : Trapret)
  /-- NOP (R279). -/
  | nop (x : Bare)
  /-- CLAUSE_START (R78). -/
  | clauseStart (core : Nat) (port : Nat)
  /-- CLAUSE_FETCH (R81). -/
  | clauseFetch (who : Focus)
  /-- RESULT_WRITE (R138). -/
  | resultWrite (who : Owner) (seq : Nat)
  /-- TRACKED_COMPLETE (R138). -/
  | trackedComplete (who : Owner) (seq : Nat)
  /-- SCOREBOARD_MISMATCH (R97). -/
  | scoreboardMismatch (team : Nat) (wave : Nat) (again : Bool)
  /-- HANDLER_ENTRY (R386). -/
  | handlerEntry (team : Nat) (wave : Nat) (sub : Nat)
  /-- FAULT_RECORD (R388). -/
  | faultRecord (team : Nat) (wave : Nat) (sub : Nat)
  /-- CURSOR_TAKE (R26). -/
  | cursorTake (cursor : Nat)
  /-- SJOIN_TIMEOUT (R34). -/
  | sjoinTimeout (span : Nat)
  /-- SPAN_SLOT_GRANT (R351). -/
  | spanSlotGrant (span : Nat)
  /-- SPAN_RECORD_FETCH (R350). -/
  | spanRecordFetch (span : Nat)
  /-- TEAM_ADMIT (R353). -/
  | teamAdmit (team : Nat)
  /-- AFFINITY_TIMEOUT (R354). -/
  | affinityTimeout (cursor : Nat)
  /-- GRID_COMPLETE (R42). -/
  | gridComplete (grid : Nat)
  /-- FRAME_REFILL (R66). -/
  | frameRefill (team : Nat) (wave : Nat) (depth : Nat)
  /-- UNIFORM_FRAME_REFILL (R67). -/
  | uniformFrameRefill (team : Nat) (wave : Nat)
  /-- PIPE_ERROR (R393). -/
  | pipeError (team : Nat) (sub : Nat) (site : Option BankRef)
  /-- CORRECTED_ERROR (R391). -/
  | correctedError (b : BankRef) (addr : Nat)
  /-- UNCORRECTED_ERROR (R391). -/
  | uncorrectedError (b : BankRef) (site : ErrSite)
  /-- PATROL_SCRUB (R391). -/
  | patrolScrub (b : BankRef) (place : Nat) (found : Fin 3)
  /-- VENT_START (R397). -/
  | ventStart (b : BankRef)
  /-- VENT_MOVE (R398). -/
  | ventMove (b : BankRef)
  /-- L2_SLICE_HANDOVER (R343). -/
  | l2SliceHandover (slice : Nat)
  /-- HBM_PAGE_MOVE (R339). -/
  | hbmPageMove (dev : Nat) (frame : Nat) (target : Nat)
  /-- SECTOR_FILL_COMPLETE (R235). -/
  | sectorFillComplete (core : Nat) (sector : Nat)
  /-- SECTOR_FILL_FAULT (R235). -/
  | sectorFillFault (core : Nat) (sector : Nat)
  /-- SECTOR_WRITEBACK_COMPLETE (R238). -/
  | sectorWritebackComplete (core : Nat) (sector : Nat)
  /-- STASH_RECALL (R319). -/
  | stashRecall (core : Nat) (line : LineRef) (write : Bool)
  /-- GETS (R331). -/
  | gets (line : LineRef) (who : Holder)
  /-- GETM (R331). -/
  | getm (line : LineRef) (who : Holder)
  /-- UPGRADE (R333). -/
  | upgrade (line : LineRef) (who : Holder)
  /-- GETP (R330). -/
  | getp (line : LineRef) (who : Holder)
  /-- WRITE_BACK (R331). -/
  | writeBack (line : LineRef) (who : Holder)
  /-- CLEAN_NOTICE (R331). -/
  | cleanNotice (line : LineRef) (who : Holder)
  /-- UNCACHED_ACCESS (R331). -/
  | uncachedAccess (line : LineRef) (write : Bool)
  /-- RECALL_FOR_READ (R331). -/
  | recallForRead (line : LineRef) (who : Holder)
  /-- RECALL_FOR_WRITE (R331). -/
  | recallForWrite (line : LineRef) (who : Holder)
  /-- RECALL_ACK (R328). -/
  | recallAck (line : LineRef) (who : Holder)
  /-- HOME_FILL_COMPLETE (R336). -/
  | homeFillComplete (line : LineRef)
  /-- TRANSLATION_WALK (R336). -/
  | translationWalk (dev : Nat) (asid : Nat) (va : Nat)
  /-- TRANSLATION_FAULT (R337). -/
  | translationFault (line : LineRef)
  /-- MEMRD_SNPDATA (R334). -/
  | memrdSnpdata (dev : Nat) (port : Nat) (dpa : Nat)
  /-- MEMRD_SNPINV (R334). -/
  | memrdSnpinv (dev : Nat) (port : Nat) (dpa : Nat)
  /-- MEMRD_NO_SNOOP (R334). -/
  | memrdNoSnoop (dev : Nat) (port : Nat) (dpa : Nat)
  /-- MEMWR (R334). -/
  | memwr (dev : Nat) (port : Nat) (dpa : Nat) (data : List Byte)
  /-- BIRSPI (R334). -/
  | birspi (line : LineRef) (port : Nat)
  /-- BISNPDATA_RESPONSE (R334). -/
  | bisnpdataResponse (line : LineRef) (port : Nat) (data : Option (List Byte))
  /-- H2D_SNPINV (R335). -/
  | h2dSnpinv (dev : Nat) (port : Nat) (hpa : Nat)
  /-- H2D_SNPDATA (R335). -/
  | h2dSnpdata (dev : Nat) (port : Nat) (hpa : Nat)
  /-- H2D_SNPCUR (R335). -/
  | h2dSnpcur (dev : Nat) (port : Nat) (hpa : Nat)
  /-- COPY_VALIDATED (R246). -/
  | copyValidated (team : Nat) (wave : Nat) (sub : Nat)
  /-- COPY_START (R373). -/
  | copyStart (team : Nat) (tag : Nat)
  /-- COPY_COMPLETE (R249). -/
  | copyComplete (team : Nat) (tag : Nat)
  /-- COPY_FAULT (R248). -/
  | copyFault (team : Nat) (tag : Nat)
  /-- MMA_KSTEP_COMMIT (R265). -/
  | mmaKstepCommit (team : Nat) (seq : Nat) (chain : Fin 2)
  /-- MMA_COMPLETE (R265). -/
  | mmaComplete (team : Nat) (seq : Nat)
  /-- MMA_FAULT (R267). -/
  | mmaFault (team : Nat) (seq : Nat) (chain : Fin 2)
  /-- ACC_MOV_FAULT (R271). -/
  | accMovFault (team : Nat) (seq : Nat)
  /-- WAITV_RELEASE (R223). -/
  | waitvRelease (team : Nat) (wave : Nat) (sub : Nat)
  /-- WAITV_TIMEOUT (R223). -/
  | waitvTimeout (team : Nat) (wave : Nat) (sub : Nat)
  /-- CNTWAIT_RELEASE (R258). -/
  | cntwaitRelease (team : Nat) (wave : Nat) (sub : Nat)
  /-- CNTWAIT_TIMEOUT (R258). -/
  | cntwaitTimeout (team : Nat) (wave : Nat) (sub : Nat)
  /-- PHDONE_ADVANCE (R414). -/
  | phdoneAdvance (die : Nat)
  /-- PHDONE_MIRROR_UPDATE (R415). -/
  | phdoneMirrorUpdate (viewer : Nat) (die : Nat)
  /-- YIELD_TIMEOUT (R167). -/
  | yieldTimeout (team : Nat) (wave : Nat) (sub : Nat)
  /-- DOORBELL_WRITE (R345). -/
  | doorbellWrite (queue : Nat) (tail : Nat)
  /-- QUEUE_LAUNCH (R347). -/
  | queueLaunch (queue : Nat)
  /-- WAITCNT (R347). -/
  | waitcnt (queue : Nat)
  /-- WAITCNT_RELEASE (R347). -/
  | waitcntRelease (queue : Nat) (index : Nat)
  /-- SIGNAL (R347). -/
  | signal (queue : Nat)
  /-- QUEUE_NOP (R347). -/
  | queueNop (queue : Nat)
  /-- TRANSFER_ACCEPT (R377). -/
  | transferAccept (queue : Nat)
  /-- TRANSFER_COMPLETE (R379). -/
  | transferComplete (engine : Nat) (slot : Nat)
  /-- TRANSFER_FAULT (R380). -/
  | transferFault (engine : Nat) (slot : Nat)
  /-- ACCOUNTING_ROUND (R359). -/
  | accountingRound (dev : Nat)
  /-- RELAY_ROTATION (R361). -/
  | relayRotation (grid : Nat)
  /-- TEAM_SWAP_OUT (R364). -/
  | teamSwapOut (team : Nat)
  /-- PREEMPT_DRAIN_END (R362). -/
  | preemptDrainEnd (ctx : Nat)
  /-- PREEMPT_DRAIN_DEADLINE (R362). -/
  | preemptDrainDeadline (ctx : Nat)
  /-- PREEMPT_SWAP_DEADLINE (R362). -/
  | preemptSwapDeadline (ctx : Nat)
  /-- DEBUG_HALT_STOP (R401). -/
  | debugHaltStop (team : Nat) (wave : Nat)
  /-- STEP (R402). -/
  | step (team : Nat) (wave : Nat) (sub : Nat)
  /-- LINK_IDLE_SLEEP (R408). -/
  | linkIdleSleep (link : Nat)
  /-- LINK_WAKE (R408). -/
  | linkWake (link : Nat)
  /-- LINK_WAKE_COMPLETE (R408). -/
  | linkWakeComplete (link : Nat)
  /-- LINK_SLOW (R408). -/
  | linkSlow (link : Nat)
  /-- LINK_WAKE_FAIL (R408). -/
  | linkWakeFail (link : Nat)
  /-- LINK_RETRY_FAIL (R408). -/
  | linkRetryFail (link : Nat)
  /-- FLIT_RECEIVE (R409). -/
  | flitReceive (link : Nat) (seq : Nat)
  /-- HEARTBEAT (R411). -/
  | heartbeat (die : DieRef)
  /-- HEARTBEAT_TIMEOUT (R411). -/
  | heartbeatTimeout (die : DieRef)
  /-- PEER_REQUEST (R418). -/
  | peerRequest (dev : Nat) (peer : Nat) (op : PeerOp)
  /-- PEER_TIMEOUT (R419). -/
  | peerTimeout (dev : Nat) (peer : Nat)
  /-- HOST_LINK_DOWN (R426). -/
  | hostLinkDown (port : Nat)
  /-- LEASE_PERIOD_EXPIRY (R426). -/
  | leasePeriodExpiry (dev : Nat)
  /-- TAKEOVER_WINDOW_EXPIRY (R426). -/
  | takeoverWindowExpiry (dev : Nat)
  /-- POLICY_IMAGE_FAULT (R432). -/
  | policyImageFault
  /-- ERR_LOG_WINDOW_CLOSE (R438). -/
  | errLogWindowClose (b : BankRef)
  /-- TELEMETRY_WINDOW (R439). -/
  | telemetryWindow
  /-- THERMAL_THROTTLE (R454). -/
  | thermalThrottle (die : Nat)
  /-- THERMAL_RECOVER (R454). -/
  | thermalRecover (die : Nat)
  /-- THERMAL_SHUTDOWN (R454). -/
  | thermalShutdown (die : Nat)
  /-- THERMAL_RESTART (R454). -/
  | thermalRestart (found : BringUp)
  /-- INPUT_LOW (R454). -/
  | inputLow
  /-- UNDERVOLTAGE (R454). -/
  | undervoltage
  /-- INPUT_HIGH (R454). -/
  | inputHigh
  /-- OVERVOLTAGE (R454). -/
  | overvoltage
  /-- INPUT_RECOVER (R454). -/
  | inputRecover (found : BringUp)
  /-- POWER_CAP_STEP (R455). -/
  | powerCapStep (watts : Nat)
  /-- CAP_NOT_MET (R455). -/
  | capNotMet (watts : Nat)
  /-- PACKAGE_RESET (R458). -/
  | packageReset (found : BringUp)
  /-- CTX_CREATE (R425). -/
  | ctxCreate (c : Call)
  /-- CTX_DESTROY (R425). -/
  | ctxDestroy (c : Call)
  /-- CTX_QUERY (R425). -/
  | ctxQuery (c : Call)
  /-- PART_SET (R405). -/
  | partSet (c : Call)
  /-- PART_QUERY (R425). -/
  | partQuery (c : Call)
  /-- QUEUE_CREATE (R345). -/
  | queueCreate (c : Call)
  /-- QUEUE_DESTROY (R425). -/
  | queueDestroy (c : Call)
  /-- QUEUE_BIND_PRIORITY (R344). -/
  | queueBindPriority (c : Call)
  /-- LAUNCH_GRID (R276). -/
  | launchGrid (c : Call)
  /-- LAUNCH_CANCEL (R425). -/
  | launchCancel (c : Call)
  /-- SHARE_SET (R358). -/
  | shareSet (c : Call)
  /-- VA_RESERVE (R462). -/
  | vaReserve (c : Call)
  /-- VA_RELEASE (R425). -/
  | vaRelease (c : Call)
  /-- MEM_ALLOC (R462). -/
  | memAlloc (c : Call)
  /-- MEM_FREE (R425). -/
  | memFree (c : Call)
  /-- MAP (R462). -/
  | map (c : Call)
  /-- UNMAP (R340). -/
  | unmap (c : Call)
  /-- PROTECT (R338). -/
  | protect (c : Call)
  /-- ALIAS_REGISTER (R315). -/
  | aliasRegister (c : Call)
  /-- RANGE_PURGE (R340). -/
  | rangePurge (c : Call)
  /-- HOST_MAP (R425). -/
  | hostMap (c : Call)
  /-- PEER_MAP (R418). -/
  | peerMap (c : Call)
  /-- PEER_UNMAP (R425). -/
  | peerUnmap (c : Call)
  /-- FAULT_FETCH (R388). -/
  | faultFetch (c : Call)
  /-- FAULT_RESOLVE (R389). -/
  | faultResolve (c : Call)
  /-- FAULT_ABORT (R389). -/
  | faultAbort (c : Call)
  /-- CTX_SUSPEND (R362). -/
  | ctxSuspend (c : Call)
  /-- CTX_RESUME (R362). -/
  | ctxResume (c : Call)
  /-- DBG_ATTACH (R425). -/
  | dbgAttach (c : Call)
  /-- DBG_HALT (R401). -/
  | dbgHalt (c : Call)
  /-- DBG_STEP (R402). -/
  | dbgStep (c : Call)
  /-- DBG_READ_STATE (R440). -/
  | dbgReadState (c : Call)
  /-- DBG_WRITE_STATE (R440). -/
  | dbgWriteState (c : Call)
  /-- DBG_DETACH (R425). -/
  | dbgDetach (c : Call)
  /-- CAP_QUERY (R441). -/
  | capQuery (c : Call)
  /-- BANK_RETIRE (R397). -/
  | bankRetire (c : Call)
  /-- ERR_LOG_READ (R438). -/
  | errLogRead (c : Call)
  /-- ERR_CLEAR (R438). -/
  | errClear (c : Call)
  /-- DIE_QUARANTINE (R411). -/
  | dieQuarantine (c : Call)
  /-- LEASE_RENEW (R426). -/
  | leaseRenew (c : Call)
  /-- LEASE_RELEASE (R426). -/
  | leaseRelease (c : Call)
  /-- LEASE_TAKEOVER (R426). -/
  | leaseTakeover (c : Call)
  /-- ATTEST_QUOTE (R436). -/
  | attestQuote (c : Call)
  /-- FW_STAGE (R435). -/
  | fwStage (c : Call)
  /-- FW_ACTIVATE (R435). -/
  | fwActivate (c : Call)
  /-- TELEMETRY_READ (R439). -/
  | telemetryRead (c : Call)
  /-- POWER_CAP_SET (R455). -/
  | powerCapSet (c : Call)
  /-- RESYNC (R430). -/
  | resync (c : Call)
  /-- ACCESS_PERFORMED (R209). -/
  | accessPerformed (who : Owner) (seq : Nat)
  /-- ACC_MOVE_DONE (R271). -/
  | accMoveDone (team : Nat) (seq : Nat)
  /-- COPY_UNIT_MOVE (R373). -/
  | copyUnitMove (team : Nat) (tag : Nat)
  /-- TRANSFER_BURST (R378). -/
  | transferBurst (engine : Nat) (slot : Nat)
  /-- SVCDB_WRITE (R423). -/
  | svcdbWrite (dev : Nat) (port : Nat) (vf : Nat) (addr : Nat)
  /-- DROPPED_CLEAR (R421). -/
  | droppedClear (dev : Nat) (port : Nat) (vf : Nat)
  /-- QUEUE_COMMAND_FENCED (R348). -/
  | queueCommandFenced (queue : Nat)
  /-- FLIT_RETRY (R408). -/
  | flitRetry (link : Nat)
  /-- HOST_LINK_UP (R426). -/
  | hostLinkUp (port : Nat)
  /-- UNDO_WRITE_COMPLETE (R395). -/
  | undoWriteComplete (team : Nat) (sector : Nat)
  /-- FW_STAGE_WRITE_DONE (R435). -/
  | fwStageWriteDone (c : Call)
  deriving DecidableEq, Repr

end Sys2Proof
end

