-- ==== Sys2Proof/WellFormed.lean ====
section
/-!
DEFINITION. Which instructions are well formed: the checks that the decoder makes on one word
beyond the shape of its fields (Table 3.8): accepted types, register alignment (R45), uniform
destinations (R84), limits on modifiers.
-/
namespace Sys2Proof

/-- Registers of a vector operand of this type: 1, 2 for 64 bits, 4 for 128 bits (R45, R209). -/
def ITy.regs : ITy → Nat
  | .s64 | .n64 | .b64 => 2
  | .b128 => 4
  | .s32 | .n32 | .s16 | .n16 | .s8 | .n8 | .b32 | .b16 | .b8 | .s4 => 1

/-- Width in bits. -/
def ITy.width : ITy → Nat
  | .s64 | .n64 | .b64 => 64
  | .b128 => 128
  | .s32 | .n32 | .b32 => 32
  | .s16 | .n16 | .b16 => 16
  | .s8 | .n8 | .b8 => 8
  | .s4 => 4

/-- Type codes 0 to 7 (Table 5.1, "All"). -/
def ITy.arith : ITy → Bool
  | .s32 | .n32 | .s64 | .n64 | .s16 | .n16 | .s8 | .n8 => true
  | .b32 | .b64 | .b16 | .b8 | .b128 | .s4 => false

/-- Type codes 0 to 3. -/
def ITy.wide4 (t : ITy) : Bool := t == .s32 || t == .n32 || t == .s64 || t == .n64

/-- Type codes 8 and 9. -/
def ITy.bits (t : ITy) : Bool := t == .b32 || t == .b64

/-- Types of LD (Table 7.3). -/
def ITy.ldTy (t : ITy) : Bool :=
  t == .s8 || t == .n8 || t == .s16 || t == .n16 || t == .b32 || t == .b64 || t == .b128

/-- Types of ST (Table 7.3). -/
def ITy.stTy (t : ITy) : Bool := t == .b8 || t == .b16 || t == .b32 || t == .b64 || t == .b128

/-- Types that SIZE chooses in group 4 (Table 3.5). -/
def ITy.accTy (t : ITy) : Bool := t == .b32 || t == .b64 || t == .b128

/-- Registers of a SIZE-typed operand of group 0 (Table 3.5). -/
def ISize.regs : ISize → Nat
  | .s32 | .n32 => 1
  | .s64 | .n64 => 2

/-- Registers of a floating-point operand (R172). -/
def FTy.regs : FTy → Nat
  | .f64 => 2
  | .f32 | .f16 | .bf16 | .e4 | .e5 | .f4 | .ps8 | .blk => 1

/-- `.F32`, `.F16` or `.BF16` (R172). -/
def FTy.half (t : FTy) : Bool := t == .f32 || t == .f16 || t == .bf16

/-- `.F16` or `.BF16` (R185). -/
def FTy.packed (t : FTy) : Bool := t == .f16 || t == .bf16

/-- `.E4` or `.E5` (R187). -/
def FTy.fp8 (t : FTy) : Bool := t == .e4 || t == .e5

/-- Registers of an operand of either column. -/
def NTy.regs : NTy → Nat
  | .int t => t.regs
  | .flt t => t.regs

/-- Special registers that a uniform destination may read (Table 5.4). -/
def SReg.uniform : SReg → Bool
  | .x | .y | .z | .tx | .ty | .tz | .lane => false
  | .team | .tcount | .wave | .core | .die | .fnd | .gang | .grid => true

/-- The scopes of a barrier word: .DIE, .FND, .PKG, .SYS (R227). -/
def Scope.wide : Scope → Bool
  | .sys | .pkg | .fnd | .die => true
  | .core | .team | .wave | .item => false

/-- Counter scopes: codes 0 to 5 (R250). -/
def Scope.counter : Scope → Bool
  | .sys | .pkg | .fnd | .die | .core | .team => true
  | .wave | .item => false

/-- Unguarded: p7, not negated (R85). -/
def Hdr.plain (h : Hdr) : Bool := h.guard == 7 && !h.gneg

/-- One register, or an aligned pair when the operand is wide. -/
def wd (wide : Bool) : Nat := if wide then 2 else 1

/-- A vector source starts at a multiple of `n` (R45, R191, R209); a uniform one need not. -/
def Src.fits (s : Src) (n : Nat) : Bool := s.uni || s.idx.val % n == 0

/-- As `Src.fits`, for a destination. -/
def Dst.fits (d : Dst) (n : Nat) : Bool := d.uni || d.idx.val % n == 0

/-- An address source, where there is one, is a pair or a uniform register. -/
def optFits : Option Src → Bool
  | none => true
  | some s => s.fits 2

/-- A uniform destination has only uniform sources and no guard (R84). -/
def dstOk (h : Hdr) (d : Dst) (ss : List Src) : Bool := !d.uni || (h.plain && ss.all fun s => s.uni)

/-- A uniform destination that the description permits whatever the sources: no guard (R84). -/
def dstPlain (h : Hdr) (d : Dst) : Bool := !d.uni || h.plain

/-- A destination beside a predicate source: that source has class 0, so the destination is not uniform (R84, R143, R154; log
13). -/
def dstVec (d : Dst) : Bool := !d.uni

/-- A vector source as a source. -/
def VS (s : VSrc) : Src := { lu := s.lu, uni := false, idx := s.idx }

/-- Significand width of a floating-point type (R189). -/
def FTy.sig : FTy → Nat
  | .f64 => 53 | .f32 => 24 | .f16 => 11 | .bf16 => 8 | .e4 => 4 | .e5 => 3 | .f4 => 2
  | .ps8 => 0 | .blk => 0

/-- A type that CVT takes: floating-point codes 0 to 7, integer codes 0 to 7 and 13 (R189). -/
def cvtTy : NTy → Bool
  | .flt t => t != .blk
  | .int t => t.arith || t == .s4

/-- CVT's conditions (R189). -/
def cvtOk (td ts : NTy) (rm : RM) (ovf : Ovf) : Bool :=
  cvtTy td && cvtTy ts &&
  (match td, ts with
   | .int _, .int _ => false
   | .int _, .flt _ => ovf == .inf && rm != .sr
   | .flt _, .int _ => rm != .sr
   | .flt d, .flt s => rm != .sr || (d != .f64 && d != .ps8 && decide (d.sig < s.sig)))

/-- The types of each reduction operation (Table 6.7). -/
def redOk (op : RedOp) (t : NTy) : Bool :=
  match op, t with
  | .add, .int t | .min, .int t | .max, .int t => t.arith
  | .and, .int t | .or, .int t | .xor, .int t => t.bits
  | .fadd, .flt t | .fmin, .flt t | .fmax, .flt t => t.half || t == .f64
  | _, _ => false

/-- The types of each atomic operation (Table 7.5). -/
def atomOk (op : AtomOp) (t : ITy) : Bool :=
  match op with
  | .add | .sub | .min | .max => t.wide4
  | .and | .or | .xor | .exch | .cas | .fadd => t.bits
  | .inc | .dec => t == .n32 || t == .n64

/-- Registers of an atomic's operand: CAS names a pair or a quad base (R214). -/
def atomRegs (op : AtomOp) (t : ITy) : Nat := if op = .cas then 2 * t.regs else t.regs

/-- A tile group of FP32 tiles starts at a multiple of its tile count (R263). -/
def tileOk (sh : MShape) (tile : Nat) : Bool :=
  match sh with
  | .m64n64 => true
  | .m128n64 => tile % 2 == 0
  | .m128n128 => tile % 4 == 0

/-- As `tileOk` for .F64 groups; .M128N128 is fenced (R263). -/
def tileWideOk (sh : MShape) (tile : Nat) : Bool :=
  match sh with
  | .m64n64 => tile % 2 == 0
  | .m128n64 => tile % 4 == 0
  | .m128n128 => false

/-- The indices that Table 2.3 lists (R55). -/
def csrListed (ix : BitVec 12) : Bool :=
  [0x000, 0x001, 0x002, 0x003, 0x010, 0x011, 0x012, 0x020, 0x021, 0x022, 0x023, 0x030, 0x031,
   0x040, 0x041, 0x042, 0x043].contains ix.toNat

/-- The word of this instruction passes the decode checks of Table 3.8 that concern its own fields.
Events and service calls have no word, and are not well formed as instructions of code memory. -/
def Instr.wf : Instr → Bool
  | .iadd x => x.t.arith && x.d.fits x.t.regs && x.a.fits x.t.regs && x.b.fits x.t.regs && dstOk x.h x.d [x.a, x.b]
  | .isub x => x.t.arith && x.d.fits x.t.regs && x.a.fits x.t.regs && x.b.fits x.t.regs && dstOk x.h x.d [x.a, x.b]
  | .iaddc x => (x.t == .n32 || x.t == .n64) && x.d.fits x.t.regs && x.a.fits x.t.regs && x.b.fits x.t.regs && dstVec x.d
  | .ineg x => x.t.arith && x.d.fits x.t.regs && x.a.fits x.t.regs && dstOk x.h x.d [x.a]
  | .iabs x => (x.t == .s8 || x.t == .s16 || x.t == .s32 || x.t == .s64) && x.d.fits x.t.regs && x.a.fits x.t.regs && dstOk x.h x.d [x.a]
  | .imul x => x.t.arith && x.d.fits x.t.regs && x.a.fits x.t.regs && x.b.fits x.t.regs && dstOk x.h x.d [x.a, x.b]
  | .imulh x => x.t.wide4 && x.d.fits x.t.regs && x.a.fits x.t.regs && x.b.fits x.t.regs && dstOk x.h x.d [x.a, x.b]
  | .imad x => x.t.arith && x.d.fits x.t.regs && x.a.fits x.t.regs && x.b.fits x.t.regs && x.c.fits x.t.regs && dstOk x.h x.d [x.a, x.b, x.c]
  | .imadw x => (x.t == .s32 || x.t == .n32) && x.d.fits 2 && x.c.fits 2 && dstOk x.h x.d [x.a, x.b, x.c]
  | .idiv x => x.t.arith && x.d.fits x.t.regs && x.a.fits x.t.regs && x.b.fits x.t.regs && dstOk x.h x.d [x.a, x.b]
  | .irem x => x.t.arith && x.d.fits x.t.regs && x.a.fits x.t.regs && x.b.fits x.t.regs && dstOk x.h x.d [x.a, x.b]
  | .imin x => x.t.arith && x.d.fits x.t.regs && x.a.fits x.t.regs && x.b.fits x.t.regs && dstOk x.h x.d [x.a, x.b]
  | .imax x => x.t.arith && x.d.fits x.t.regs && x.a.fits x.t.regs && x.b.fits x.t.regs && dstOk x.h x.d [x.a, x.b]
  | .iclamp x => x.t.arith && x.d.fits x.t.regs && x.a.fits x.t.regs && x.b.fits x.t.regs && x.c.fits x.t.regs && dstOk x.h x.d [x.a, x.b, x.c]
  | .icmp x => x.t.arith && x.rel != .un && x.a.fits x.t.regs && x.b.fits x.t.regs
  | .and x => x.t.bits && x.d.fits x.t.regs && x.a.fits x.t.regs && x.b.fits x.t.regs && dstOk x.h x.d [x.a, x.b]
  | .or x => x.t.bits && x.d.fits x.t.regs && x.a.fits x.t.regs && x.b.fits x.t.regs && dstOk x.h x.d [x.a, x.b]
  | .xor x => x.t.bits && x.d.fits x.t.regs && x.a.fits x.t.regs && x.b.fits x.t.regs && dstOk x.h x.d [x.a, x.b]
  | .not x => x.t.bits && x.d.fits x.t.regs && x.a.fits x.t.regs && dstOk x.h x.d [x.a]
  | .logt x => x.d.fits (wd x.wide) && x.a.fits (wd x.wide) && x.b.fits (wd x.wide) && x.c.fits (wd x.wide) && dstOk x.h x.d [x.a, x.b, x.c]
  | .shl x => x.t.bits && x.d.fits x.t.regs && x.a.fits x.t.regs && dstOk x.h x.d [x.a, x.b]
  | .shr x => x.t.bits && x.d.fits x.t.regs && x.a.fits x.t.regs && dstOk x.h x.d [x.a, x.b]
  | .sar x => x.t.bits && x.d.fits x.t.regs && x.a.fits x.t.regs && dstOk x.h x.d [x.a, x.b]
  | .rol x => x.t.bits && x.d.fits x.t.regs && x.a.fits x.t.regs && dstOk x.h x.d [x.a, x.b]
  | .fshl x => x.t.bits && x.d.fits x.t.regs && x.a.fits x.t.regs && x.b.fits x.t.regs && dstOk x.h x.d [x.a, x.b, x.c]
  | .popc x => x.t.bits && x.a.fits x.t.regs && dstOk x.h x.d [x.a]
  | .clz x => x.t.bits && x.a.fits x.t.regs && dstOk x.h x.d [x.a]
  | .ctz x => x.t.bits && x.a.fits x.t.regs && dstOk x.h x.d [x.a]
  | .brev x => x.t.bits && x.d.fits x.t.regs && x.a.fits x.t.regs && dstOk x.h x.d [x.a]
  | .bfx x => x.t.wide4 && x.d.fits x.t.regs && x.a.fits x.t.regs && dstOk x.h x.d [x.a, x.b]
  | .bfi x => x.t.bits && x.d.fits x.t.regs && x.a.fits x.t.regs && x.c.fits x.t.regs && dstOk x.h x.d [x.a, x.b, x.c]
  | .bysel x => dstOk x.h x.d [x.a, x.b, x.c]
  | .lea x => x.t.wide4 && x.d.fits 2 && x.a.fits 2 && x.b.fits x.t.regs && dstOk x.h x.d [x.a, x.b]
  | .mov x => x.t.bits && x.d.fits x.t.regs && x.a.fits x.t.regs && dstOk x.h x.d [x.a]
  | .sel x => x.t.bits && x.d.fits x.t.regs && x.a.fits x.t.regs && x.b.fits x.t.regs && dstVec x.d
  | .plop _ => true
  | .movs x => (!x.d.uni || x.sr.uniform) && x.d.fits (wd x.wide) && dstOk x.h x.d []
  | .iaddI x => x.d.fits x.sz.regs && x.a.fits x.sz.regs && dstOk x.h x.d [x.a]
  | .isubI x => x.d.fits x.sz.regs && x.a.fits x.sz.regs && dstOk x.h x.d [x.a]
  | .imulI x => x.d.fits x.sz.regs && x.a.fits x.sz.regs && dstOk x.h x.d [x.a]
  | .imulhI x => x.d.fits x.sz.regs && x.a.fits x.sz.regs && dstOk x.h x.d [x.a]
  | .idivI x => x.d.fits x.sz.regs && x.a.fits x.sz.regs && dstOk x.h x.d [x.a]
  | .iremI x => x.d.fits x.sz.regs && x.a.fits x.sz.regs && dstOk x.h x.d [x.a]
  | .iminI x => x.d.fits x.sz.regs && x.a.fits x.sz.regs && dstOk x.h x.d [x.a]
  | .imaxI x => x.d.fits x.sz.regs && x.a.fits x.sz.regs && dstOk x.h x.d [x.a]
  | .icmpI x => x.rel != .un && x.a.fits x.sz.regs
  | .andI x => x.d.fits x.sz.regs && x.a.fits x.sz.regs && dstOk x.h x.d [x.a]
  | .orI x => x.d.fits x.sz.regs && x.a.fits x.sz.regs && dstOk x.h x.d [x.a]
  | .xorI x => x.d.fits x.sz.regs && x.a.fits x.sz.regs && dstOk x.h x.d [x.a]
  | .shlI x => x.d.fits x.sz.regs && x.a.fits x.sz.regs && dstOk x.h x.d [x.a]
  | .shrI x => x.d.fits x.sz.regs && x.a.fits x.sz.regs && dstOk x.h x.d [x.a]
  | .sarI x => x.d.fits x.sz.regs && x.a.fits x.sz.regs && dstOk x.h x.d [x.a]
  | .rolI x => x.d.fits x.sz.regs && x.a.fits x.sz.regs && dstOk x.h x.d [x.a]
  | .bfxI x => decide (x.imm.toNat < 65536) && x.d.fits x.sz.regs && x.a.fits x.sz.regs && dstOk x.h x.d [x.a]
  | .byselI x => decide (x.imm.toNat < 1048576) && dstOk x.h x.d [x.a]
  | .leaI x => x.d.fits 2 && x.a.fits 2 && dstOk x.h x.d [x.a]
  | .movi x => x.d.fits x.sz.regs && dstOk x.h x.d []
  | .iaddL x => x.d.fits x.sz.regs && x.a.fits x.sz.regs && dstOk x.h x.d [x.a]
  | .isubL x => x.d.fits x.sz.regs && x.a.fits x.sz.regs && dstOk x.h x.d [x.a]
  | .imulL x => x.d.fits x.sz.regs && x.a.fits x.sz.regs && dstOk x.h x.d [x.a]
  | .imulhL x => x.d.fits x.sz.regs && x.a.fits x.sz.regs && dstOk x.h x.d [x.a]
  | .idivL x => x.d.fits x.sz.regs && x.a.fits x.sz.regs && dstOk x.h x.d [x.a]
  | .iremL x => x.d.fits x.sz.regs && x.a.fits x.sz.regs && dstOk x.h x.d [x.a]
  | .iminL x => x.d.fits x.sz.regs && x.a.fits x.sz.regs && dstOk x.h x.d [x.a]
  | .imaxL x => x.d.fits x.sz.regs && x.a.fits x.sz.regs && dstOk x.h x.d [x.a]
  | .icmpL x => x.rel != .un && x.a.fits x.sz.regs
  | .andL x => x.d.fits x.sz.regs && x.a.fits x.sz.regs && dstOk x.h x.d [x.a]
  | .orL x => x.d.fits x.sz.regs && x.a.fits x.sz.regs && dstOk x.h x.d [x.a]
  | .xorL x => x.d.fits x.sz.regs && x.a.fits x.sz.regs && dstOk x.h x.d [x.a]
  | .shlL x => x.d.fits x.sz.regs && x.a.fits x.sz.regs && dstOk x.h x.d [x.a]
  | .shrL x => x.d.fits x.sz.regs && x.a.fits x.sz.regs && dstOk x.h x.d [x.a]
  | .sarL x => x.d.fits x.sz.regs && x.a.fits x.sz.regs && dstOk x.h x.d [x.a]
  | .rolL x => x.d.fits x.sz.regs && x.a.fits x.sz.regs && dstOk x.h x.d [x.a]
  | .bfxL x => x.d.fits x.sz.regs && x.a.fits x.sz.regs && dstOk x.h x.d [x.a]
  | .byselL x => dstOk x.h x.d [x.a]
  | .leaL x => x.d.fits 2 && x.a.fits 2 && dstOk x.h x.d [x.a]
  | .movl x => x.d.fits x.sz.regs && dstOk x.h x.d []
  | .fadd x => x.t.half && (!x.ftz || x.t != .bf16) && x.rm != .sr && dstOk x.h x.d [x.a, x.b]
  | .fsub x => x.t.half && (!x.ftz || x.t != .bf16) && x.rm != .sr && dstOk x.h x.d [x.a, x.b]
  | .fmul x => x.t.half && (!x.ftz || x.t != .bf16) && x.rm != .sr && dstOk x.h x.d [x.a, x.b]
  | .ffma x => x.t.half && (!x.ftz || x.t != .bf16) && x.rm != .sr && dstOk x.h x.d [x.a, x.b, x.c]
  | .fmin x => x.t.half && (!x.ftz || x.t != .bf16) && dstOk x.h x.d [x.a, x.b]
  | .fmax x => x.t.half && (!x.ftz || x.t != .bf16) && dstOk x.h x.d [x.a, x.b]
  | .fcmp x => x.t.half && (!x.ftz || x.t != .bf16)
  | .fclass x => x.t.half && dstOk x.h x.d [x.a]
  | .frnd x => x.t.half && (!x.ftz || x.t != .bf16) && x.rm != .sr && x.sgn != .cps && dstOk x.h x.d [x.a]
  | .fscale x => x.t.half && (!x.ftz || x.t != .bf16) && x.rm != .sr && x.sgn != .cps && dstOk x.h x.d [x.a, x.b]
  | .fdiv x => x.t.half && (!x.ftz || x.t != .bf16) && x.rm != .sr && dstOk x.h x.d [x.a, x.b]
  | .fsqrt x => x.t.half && (!x.ftz || x.t != .bf16) && x.rm != .sr && x.sgn != .cps && dstOk x.h x.d [x.a]
  | .frcp x => x.t.half && (!x.ftz || x.t != .bf16) && x.rm != .sr && x.sgn != .cps && dstOk x.h x.d [x.a]
  | .frsq x => x.t.half && (!x.ftz || x.t != .bf16) && x.rm != .sr && x.sgn != .cps && x.rm == .rne && dstOk x.h x.d [x.a]
  | .fexp2 x => x.t.half && (!x.ftz || x.t != .bf16) && x.rm != .sr && x.sgn != .cps && x.rm == .rne && dstOk x.h x.d [x.a]
  | .flog2 x => x.t.half && (!x.ftz || x.t != .bf16) && x.rm != .sr && x.sgn != .cps && x.rm == .rne && dstOk x.h x.d [x.a]
  | .fsinpi x => x.t.half && (!x.ftz || x.t != .bf16) && x.rm != .sr && x.sgn != .cps && x.rm == .rne && dstOk x.h x.d [x.a]
  | .fcospi x => x.t.half && (!x.ftz || x.t != .bf16) && x.rm != .sr && x.sgn != .cps && x.rm == .rne && dstOk x.h x.d [x.a]
  | .hadd2 x => x.t.packed && (!x.ftz || x.t != .bf16) && x.rm != .sr && dstOk x.h x.d [x.a, x.b]
  | .hmul2 x => x.t.packed && (!x.ftz || x.t != .bf16) && x.rm != .sr && dstOk x.h x.d [x.a, x.b]
  | .hfma2 x => x.t.packed && (!x.ftz || x.t != .bf16) && x.rm != .sr && dstOk x.h x.d [x.a, x.b, x.c]
  | .dot2 x => x.t.packed && x.rm != .sr && dstOk x.h x.d [x.a, x.b, x.c]
  | .dot4 x => x.ta.fp8 && (x.tb == none || x.tb == some .e4 || x.tb == some .e5) && x.rm != .sr && dstOk x.h x.d [x.a, x.b, x.c]
  | .faddI x => x.t.half && dstOk x.h x.d [x.a]
  | .fsubI x => x.t.half && dstOk x.h x.d [x.a]
  | .fmulI x => x.t.half && dstOk x.h x.d [x.a]
  | .fminI x => x.t.half && dstOk x.h x.d [x.a]
  | .fmaxI x => x.t.half && dstOk x.h x.d [x.a]
  | .fcmpI x => x.t.half && x.rel != .un
  | .fscaleI x => x.t.half && dstOk x.h x.d [x.a]
  | .faddL x => x.t.half && dstOk x.h x.d [x.a]
  | .fsubL x => x.t.half && dstOk x.h x.d [x.a]
  | .fmulL x => x.t.half && dstOk x.h x.d [x.a]
  | .fminL x => x.t.half && dstOk x.h x.d [x.a]
  | .fmaxL x => x.t.half && dstOk x.h x.d [x.a]
  | .fcmpL x => x.t.half && x.rel != .un
  | .fscaleL x => x.t.half && dstOk x.h x.d [x.a]
  | .faddF64 x => x.t == .f64 && !x.ftz && x.rm != .sr && x.d.fits 2 && x.a.fits 2 && x.b.fits 2 && dstOk x.h x.d [x.a, x.b]
  | .fsubF64 x => x.t == .f64 && !x.ftz && x.rm != .sr && x.d.fits 2 && x.a.fits 2 && x.b.fits 2 && dstOk x.h x.d [x.a, x.b]
  | .fmulF64 x => x.t == .f64 && !x.ftz && x.rm != .sr && x.d.fits 2 && x.a.fits 2 && x.b.fits 2 && dstOk x.h x.d [x.a, x.b]
  | .ffmaF64 x => x.t == .f64 && !x.ftz && x.rm != .sr && x.d.fits 2 && x.a.fits 2 && x.b.fits 2 && x.c.fits 2 && dstOk x.h x.d [x.a, x.b, x.c]
  | .fminF64 x => x.t == .f64 && !x.ftz && x.d.fits 2 && x.a.fits 2 && x.b.fits 2 && dstOk x.h x.d [x.a, x.b]
  | .fmaxF64 x => x.t == .f64 && !x.ftz && x.d.fits 2 && x.a.fits 2 && x.b.fits 2 && dstOk x.h x.d [x.a, x.b]
  | .fcmpF64 x => x.t == .f64 && !x.ftz && x.a.fits 2 && x.b.fits 2
  | .fclassF64 x => x.t == .f64 && x.a.fits 2 && dstOk x.h x.d [x.a]
  | .frndF64 x => x.t == .f64 && !x.ftz && x.rm != .sr && x.sgn != .cps && x.d.fits 2 && x.a.fits 2 && dstOk x.h x.d [x.a]
  | .fscaleF64 x => x.t == .f64 && !x.ftz && x.rm != .sr && x.sgn != .cps && x.d.fits 2 && x.a.fits 2 && dstOk x.h x.d [x.a, x.b]
  | .fdivF64 x => x.t == .f64 && !x.ftz && x.rm != .sr && x.d.fits 2 && x.a.fits 2 && x.b.fits 2 && dstOk x.h x.d [x.a, x.b]
  | .fsqrtF64 x => x.t == .f64 && !x.ftz && x.rm != .sr && x.sgn != .cps && x.d.fits 2 && x.a.fits 2 && dstOk x.h x.d [x.a]
  | .frcpF64 x => x.t == .f64 && !x.ftz && x.rm != .sr && x.sgn != .cps && x.d.fits 2 && x.a.fits 2 && dstOk x.h x.d [x.a]
  | .cvt x => cvtOk x.td x.ts x.rm x.ovf && x.d.fits x.td.regs && x.a.fits x.ts.regs && dstOk x.h x.d [x.a]
  | .faddF64I x => x.t == .f64 && x.d.fits 2 && x.a.fits 2 && dstOk x.h x.d [x.a]
  | .fsubF64I x => x.t == .f64 && x.d.fits 2 && x.a.fits 2 && dstOk x.h x.d [x.a]
  | .fmulF64I x => x.t == .f64 && x.d.fits 2 && x.a.fits 2 && dstOk x.h x.d [x.a]
  | .fminF64I x => x.t == .f64 && x.d.fits 2 && x.a.fits 2 && dstOk x.h x.d [x.a]
  | .fmaxF64I x => x.t == .f64 && x.d.fits 2 && x.a.fits 2 && dstOk x.h x.d [x.a]
  | .fcmpF64I x => x.t == .f64 && x.rel != .un && x.a.fits 2
  | .fscaleF64I x => x.t == .f64 && x.d.fits 2 && x.a.fits 2 && dstOk x.h x.d [x.a]
  | .faddF64L x => x.t == .f64 && x.d.fits 2 && x.a.fits 2 && dstOk x.h x.d [x.a]
  | .fsubF64L x => x.t == .f64 && x.d.fits 2 && x.a.fits 2 && dstOk x.h x.d [x.a]
  | .fmulF64L x => x.t == .f64 && x.d.fits 2 && x.a.fits 2 && dstOk x.h x.d [x.a]
  | .fminF64L x => x.t == .f64 && x.d.fits 2 && x.a.fits 2 && dstOk x.h x.d [x.a]
  | .fmaxF64L x => x.t == .f64 && x.d.fits 2 && x.a.fits 2 && dstOk x.h x.d [x.a]
  | .fcmpF64L x => x.t == .f64 && x.rel != .un && x.a.fits 2
  | .fscaleF64L x => x.t == .f64 && x.d.fits 2 && x.a.fits 2 && dstOk x.h x.d [x.a]
  | .lxch x => x.d.fits (wd x.wide) && x.a.fits (wd x.wide) && dstOk x.h x.d [x.a, x.b]
  | .vote _ => true
  | .ballot x => dstPlain x.h x.d
  | .redux x => redOk x.op x.t && x.d.fits x.t.regs && x.a.fits x.t.regs && dstPlain x.h x.d
  | .scan x => redOk x.op x.t && !x.d.uni && x.d.fits x.t.regs && x.a.fits x.t.regs && dstOk x.h x.d [x.a]
  | .matchOp x => !x.d.uni && x.a.fits (wd x.wide) && dstOk x.h x.d [x.a]
  | .qblk x => (x.a.idx.val % 8 == 0)
  | .qunpk x => x.rm != .sr && (x.d.val % 8 == 0)
  | .amax x => (x.t == .f32 || x.t == .f16 || x.t == .bf16 || x.t == .f64) && x.d.fits x.t.regs && x.a.fits x.t.regs && dstPlain x.h x.d
  | .shape x => x.d.fits 2 && dstPlain x.h x.d
  | .mat _ => true
  | .lxchI x => x.d.fits (wd x.wide) && x.a.fits (wd x.wide) && dstOk x.h x.d [x.a]
  | .ld x => x.t.ldTy && (x.ord == .rlx || x.ord == .acq) && (x.d.val % x.t.regs == 0) && x.a.fits 2
  | .ldu x => (x.t == .b32 || x.t == .b64) && (x.ord == .rlx || x.ord == .acq) && x.h.plain
  | .st x => x.t.stTy && (x.ord == .rlx || x.ord == .rel) && !(x.t == .b128 && x.c.uni) && x.a.fits 2 && x.c.fits x.t.regs
  | .atom x => atomOk x.op x.t && !(x.op == .cas && x.b.uni) && (x.d.val % x.t.regs == 0) && x.a.fits 2 && x.b.fits (atomRegs x.op x.t)
  | .red x => atomOk x.op x.t && x.op != .exch && x.op != .cas && (x.ord == .rlx || x.ord == .rel) && x.a.fits 2 && x.b.fits x.t.regs
  | .pref x => x.a.fits 2
  | .cctl x => (x.addr.isSome == (x.op.val != 1)) && (x.addr.isSome || x.off.isNone) && optFits x.addr
  | .ldI x => x.t.accTy && (x.d.val % x.t.regs == 0) && x.a.fits 2
  | .lduI x => (x.t == .b32 || x.t == .b64) && x.h.plain
  | .stI x => x.t.accTy && !(x.t == .b128 && x.v.uni) && x.v.fits x.t.regs && x.a.fits 2
  | .prefI x => x.a.fits 2
  | .ldL x => x.t.accTy && (x.d.val % x.t.regs == 0) && x.a.fits 2
  | .lduL x => (x.t == .b32 || x.t == .b64) && x.h.plain
  | .stL x => x.t.accTy && !(x.t == .b128 && x.v.uni) && x.v.fits x.t.regs && x.a.fits 2
  | .prefL x => x.a.fits 2
  | .fence x => x.scope != .item && x.ord != .rlx && (!x.sc || x.ord == .ar)
  | .phclose x => x.d.fits 2 && dstPlain x.h x.d
  | .phwait x => x.b.fits 2
  | .waitv x => x.t.bits && x.a.fits 2 && x.b.fits x.t.regs
  | .barArv _ => true
  | .barWait _ => true
  | .barmArv x => x.scope.wide && x.a.fits 2
  | .barmWait x => x.scope.wide && x.a.fits 2
  | .smap _ => true
  | .sunmap _ => true
  | .sflush _ => true
  | .sfill _ => true
  | .sdiscard _ => true
  | .squery x => x.d.fits 2 && dstPlain x.h x.d
  | .cpy x => x.scope.counter && x.a.fits 2 && x.b.fits 2 && decide (x.c.idx.val ≤ 62)
  | .cpyt x => x.scope.counter && decide (x.a.idx.val ≤ 59) && decide (x.c.idx.val ≤ 62)
  | .cpyg x => x.scope.counter && decide (x.c.idx.val ≤ 62)
  | .cpys x => x.scope.counter && decide (x.c.idx.val ≤ 62)
  | .copyq _ => true
  | .twait _ => true
  | .tffr x => x.d.fits 2 && dstPlain x.h x.d
  | .tclr _ => true
  | .cntwait x => x.scope.counter && x.d.fits 2 && dstPlain x.h x.d
  | .gset _ => true
  | .gcnt x => x.d.fits 2 && dstPlain x.h x.d
  | .acfg _ => true
  | .mma x => tileOk x.shape x.tile.val
  | .accLd x => (!x.wide || x.tile.val % 2 == 0) && (x.d.val % wd x.wide == 0)
  | .accSt x => (!x.wide || x.tile.val % 2 == 0) && (x.a.idx.val % wd x.wide == 0)
  | .accZero x => (if x.wide then tileWideOk x.shape x.tile.val else tileOk x.shape x.tile.val)
  | .accMov x => (x.t == .f32 || x.t == .f16 || x.t == .bf16 || (x.t == .f64 && x.tile.val % 2 == 0)) && x.rm != .sr
  | .mprog x => x.d.fits 2 && dstPlain x.h x.d
  | .brx x => x.a.fits 2
  | .callx x => x.a.fits 2
  | .ret x => (x.a.idx.val % 2 == 0)
  | .joinpt _ => true
  | .sync _ => true
  | .exit _ => true
  | .yield _ => true
  | .sjoin _ => true
  | .launch x => x.d.fits 2 && dstPlain x.h x.d
  | .lwait _ => true
  | .trapret _ => true
  | .nop _ => true
  | .bra _ => true
  | .call _ => true
  | .trap _ => true
  | .brk _ => true
  | .svc x => decide (1 ≤ x.code.toNat ∧ x.code.toNat ≤ 0x30)
  | .csrr x => csrListed x.ix && x.d.fits 2 && dstPlain x.h x.d
  | .csrw x => csrListed x.ix
  | _ => false

end Sys2Proof
end

