-- ==== Sys2Proof/Decode.lean ====
section
/-!
DEFINITION. The encoding of instruction words and clause headers (R75, R76, R82 to R92, Tables 3.1
to 3.8) as a decoder that is total on any word, the encoder beside it, the decode of a whole
clause, and the engine class and latency class of each opcode (Table 3.6).
-/
namespace Sys2Proof

/-- A flag bit of a field. -/
def bit (b : Bool) : Nat := if b then 1 else 0

/-- The lowest bit of a field. -/
def toBit (n : Nat) : Bool := n % 2 == 1

/-- The fields of a register-form word (Table 3.2), each as a number; `d` holds the class in bit 7,
the reserved bit [44] in bit 6 and the index below, `a`, `b`, `c` hold LU, class and index. -/
structure RWord where
  opc : Nat
  stall : Nat
  flag : Nat
  d : Nat
  a : Nat
  b : Nat
  c : Nat
  guard : Nat
  gneg : Nat
  mod : Nat
  deriving DecidableEq, Repr

/-- The fields of an I-form or L-form word (Table 3.4). -/
structure IWord where
  opc : Nat
  stall : Nat
  flag : Nat
  d : Nat
  a : Nat
  imm : Nat
  guard : Nat
  gneg : Nat
  size : Nat
  deriving DecidableEq, Repr

/-- The word with these fields, at the bit positions of Table 3.2. -/
def RWord.word (r : RWord) : Nat :=
  r.opc * 2 ^ 54 + r.stall * 2 ^ 50 + r.flag * 2 ^ 46 + r.d * 2 ^ 38 + r.a * 2 ^ 30 + r.b * 2 ^ 22 +
    r.c * 2 ^ 14 + r.guard * 2 ^ 11 + r.gneg * 2 ^ 10 + r.mod

/-- The fields of a word (Table 3.2). -/
def RWord.of (w : Nat) : RWord :=
  { opc := w / 2 ^ 54 % 1024, stall := w / 2 ^ 50 % 16, flag := w / 2 ^ 46 % 16, d := w / 2 ^ 38 % 256,
    a := w / 2 ^ 30 % 256, b := w / 2 ^ 22 % 256, c := w / 2 ^ 14 % 256, guard := w / 2 ^ 11 % 8,
    gneg := w / 2 ^ 10 % 2, mod := w % 1024 }

/-- The word with these fields: IMM[23:8] in [29:14], IMM[7:0] in [9:2] (Table 3.4). -/
def IWord.word (r : IWord) : Nat :=
  r.opc * 2 ^ 54 + r.stall * 2 ^ 50 + r.flag * 2 ^ 46 + r.d * 2 ^ 38 + r.a * 2 ^ 30 +
    r.imm / 256 * 2 ^ 14 + r.guard * 2 ^ 11 + r.gneg * 2 ^ 10 + r.imm % 256 * 4 + r.size

/-- The fields of a word (Table 3.4). -/
def IWord.of (w : Nat) : IWord :=
  { opc := w / 2 ^ 54 % 1024, stall := w / 2 ^ 50 % 16, flag := w / 2 ^ 46 % 16, d := w / 2 ^ 38 % 256,
    a := w / 2 ^ 30 % 256, imm := w / 2 ^ 14 % 65536 * 256 + w / 4 % 256, guard := w / 2 ^ 11 % 8,
    gneg := w / 2 ^ 10 % 2, size := w % 4 }

/-- FLAG: 15 is none (Table 3.2). -/
def encFlag : Option (Fin 12) → Nat
  | none => 15
  | some f => f.val

/-- The flag that a FLAG field names; 12 to 14 are fenced and do not encode back. -/
def decFlag (n : Nat) : Option (Fin 12) := if h : n < 12 then some ⟨n, h⟩ else none

/-- The header fields of a word. -/
def RWord.hdr (r : RWord) : Hdr :=
  { stall := Fin.ofNat 16 r.stall, flag := decFlag r.flag, guard := Fin.ofNat 8 r.guard, gneg := toBit r.gneg }

/-- The header fields of a word. -/
def IWord.hdr (r : IWord) : Hdr :=
  { stall := Fin.ofNat 16 r.stall, flag := decFlag r.flag, guard := Fin.ofNat 8 r.guard, gneg := toBit r.gneg }

/-- A source field: LU, class, index. -/
def Src.enc (s : Src) : Nat := bit s.lu * 128 + bit s.uni * 64 + s.idx.val
/-- The source of a field. -/
def Src.dec (n : Nat) : Src := { lu := toBit (n / 128), uni := toBit (n / 64), idx := Fin.ofNat 64 n }
/-- A uniform source field: class 1. -/
def USrc.enc (s : USrc) : Nat := bit s.lu * 128 + 64 + s.idx.val
/-- The uniform source of a field; a class of 0 does not encode back. -/
def USrc.dec (n : Nat) : USrc := { lu := toBit (n / 128), idx := Fin.ofNat 64 n }
/-- A vector source field: class 0. -/
def VSrc.enc (s : VSrc) : Nat := bit s.lu * 128 + s.idx.val
/-- The vector source of a field; a class of 1 does not encode back. -/
def VSrc.dec (n : Nat) : VSrc := { lu := toBit (n / 128), idx := Fin.ofNat 64 n }
/-- A destination field: class, reserved bit, index. -/
def Dst.enc (d : Dst) : Nat := bit d.uni * 128 + d.idx.val
/-- The destination of a field. -/
def Dst.dec (n : Nat) : Dst := { uni := toBit (n / 128), idx := Fin.ofNat 64 n }
/-- An offset register, or the reserved field of BOFF = 0 (R205). -/
def encOff : Option USrc → Nat
  | none => 0
  | some s => s.enc
/-- An address source, or a reserved field. -/
def encOpt : Option Src → Nat
  | none => 0
  | some s => s.enc
/-- An index field, or a reserved field. -/
def encIdx : Option (Fin 64) → Nat
  | none => 0
  | some i => i.val
/-- DOT4's TB (R187). -/
def encTb : Option FTy → Nat
  | none => 0
  | some .e5 => 2
  | some _ => 1
/-- DOT4's TB of a field; 3 is fenced. -/
def decTb : Nat → Option (Option FTy)
  | 0 => some none
  | 1 => some (some .e4)
  | 2 => some (some .e5)
  | _ => none

/-- Code of Table 3.3. -/
def ITy.code : ITy → Nat
  | .s32 => 0
  | .n32 => 1
  | .s64 => 2
  | .n64 => 3
  | .s16 => 4
  | .n16 => 5
  | .s8 => 6
  | .n8 => 7
  | .b32 => 8
  | .b64 => 9
  | .b16 => 10
  | .b8 => 11
  | .b128 => 12
  | .s4 => 13

/-- The ITy with this code, if the code is assigned. -/
def ITy.ofCode : Nat → Option ITy
  | 0 => some .s32
  | 1 => some .n32
  | 2 => some .s64
  | 3 => some .n64
  | 4 => some .s16
  | 5 => some .n16
  | 6 => some .s8
  | 7 => some .n8
  | 8 => some .b32
  | 9 => some .b64
  | 10 => some .b16
  | 11 => some .b8
  | 12 => some .b128
  | 13 => some .s4
  | _ => none

/-- Code of Table 3.3. -/
def FTy.code : FTy → Nat
  | .f32 => 0
  | .f16 => 1
  | .bf16 => 2
  | .f64 => 3
  | .e4 => 4
  | .e5 => 5
  | .f4 => 6
  | .ps8 => 7
  | .blk => 8

/-- The FTy with this code, if the code is assigned. -/
def FTy.ofCode : Nat → Option FTy
  | 0 => some .f32
  | 1 => some .f16
  | 2 => some .bf16
  | 3 => some .f64
  | 4 => some .e4
  | 5 => some .e5
  | 6 => some .f4
  | 7 => some .ps8
  | 8 => some .blk
  | _ => none

/-- Code of Table 3.5. -/
def ISize.code : ISize → Nat
  | .s32 => 0
  | .n32 => 1
  | .s64 => 2
  | .n64 => 3

/-- The ISize with this code, if the code is assigned. -/
def ISize.ofCode : Nat → Option ISize
  | 0 => some .s32
  | 1 => some .n32
  | 2 => some .s64
  | 3 => some .n64
  | _ => none

/-- Code of Table 4.4. -/
def RM.code : RM → Nat
  | .rne => 0
  | .rz => 1
  | .rup => 2
  | .rdn => 3
  | .rna => 4
  | .sr => 5

/-- The RM with this code, if the code is assigned. -/
def RM.ofCode : Nat → Option RM
  | 0 => some .rne
  | 1 => some .rz
  | 2 => some .rup
  | 3 => some .rdn
  | 4 => some .rna
  | 5 => some .sr
  | _ => none

/-- Code of Table 4.5. -/
def Ovf.code : Ovf → Nat
  | .inf => 0
  | .sat => 1
  | .nan => 2
  | .trap => 3

/-- The Ovf with this code, if the code is assigned. -/
def Ovf.ofCode : Nat → Option Ovf
  | 0 => some .inf
  | 1 => some .sat
  | 2 => some .nan
  | 3 => some .trap
  | _ => none

/-- Code of Table 6.1. -/
def Sgn.code : Sgn → Nat
  | .none => 0
  | .neg => 1
  | .abs => 2
  | .cps => 3

/-- The Sgn with this code, if the code is assigned. -/
def Sgn.ofCode : Nat → Option Sgn
  | 0 => some .none
  | 1 => some .neg
  | 2 => some .abs
  | 3 => some .cps
  | _ => none

/-- Code of R144, R179. -/
def Rel.code : Rel → Nat
  | .eq => 0
  | .ne => 1
  | .lt => 2
  | .le => 3
  | .gt => 4
  | .ge => 5
  | .un => 6

/-- The Rel with this code, if the code is assigned. -/
def Rel.ofCode : Nat → Option Rel
  | 0 => some .eq
  | 1 => some .ne
  | 2 => some .lt
  | 3 => some .le
  | 4 => some .gt
  | 5 => some .ge
  | 6 => some .un
  | _ => none

/-- Code of Table 7.1. -/
def Scope.code : Scope → Nat
  | .sys => 0
  | .pkg => 1
  | .fnd => 2
  | .die => 3
  | .core => 4
  | .team => 5
  | .wave => 6
  | .item => 7

/-- The Scope with this code, if the code is assigned. -/
def Scope.ofCode : Nat → Option Scope
  | 0 => some .sys
  | 1 => some .pkg
  | 2 => some .fnd
  | 3 => some .die
  | 4 => some .core
  | 5 => some .team
  | 6 => some .wave
  | 7 => some .item
  | _ => none

/-- Code of Table 7.1. -/
def Ord.code : Ord → Nat
  | .rlx => 0
  | .acq => 1
  | .rel => 2
  | .ar => 3

/-- The Ord with this code, if the code is assigned. -/
def Ord.ofCode : Nat → Option Ord
  | 0 => some .rlx
  | 1 => some .acq
  | 2 => some .rel
  | 3 => some .ar
  | _ => none

/-- Code of Table 5.4. -/
def SReg.code : SReg → Nat
  | .x => 0
  | .y => 1
  | .z => 2
  | .tx => 3
  | .ty => 4
  | .tz => 5
  | .team => 6
  | .tcount => 7
  | .wave => 8
  | .lane => 9
  | .core => 10
  | .die => 11
  | .fnd => 12
  | .gang => 13
  | .grid => 14

/-- The SReg with this code, if the code is assigned. -/
def SReg.ofCode : Nat → Option SReg
  | 0 => some .x
  | 1 => some .y
  | 2 => some .z
  | 3 => some .tx
  | 4 => some .ty
  | 5 => some .tz
  | 6 => some .team
  | 7 => some .tcount
  | 8 => some .wave
  | 9 => some .lane
  | 10 => some .core
  | 11 => some .die
  | 12 => some .fnd
  | 13 => some .gang
  | 14 => some .grid
  | _ => none

/-- Code of Table 7.5. -/
def AtomOp.code : AtomOp → Nat
  | .add => 0
  | .sub => 1
  | .min => 2
  | .max => 3
  | .and => 4
  | .or => 5
  | .xor => 6
  | .exch => 7
  | .cas => 8
  | .inc => 9
  | .dec => 10
  | .fadd => 11

/-- The AtomOp with this code, if the code is assigned. -/
def AtomOp.ofCode : Nat → Option AtomOp
  | 0 => some .add
  | 1 => some .sub
  | 2 => some .min
  | 3 => some .max
  | 4 => some .and
  | 5 => some .or
  | 6 => some .xor
  | 7 => some .exch
  | 8 => some .cas
  | 9 => some .inc
  | 10 => some .dec
  | 11 => some .fadd
  | _ => none

/-- Code of Table 6.6. -/
def XMode.code : XMode → Nat
  | .lane => 0
  | .rot => 1
  | .slide => 2
  | .flip => 3

/-- The XMode with this code, if the code is assigned. -/
def XMode.ofCode : Nat → Option XMode
  | 0 => some .lane
  | 1 => some .rot
  | 2 => some .slide
  | 3 => some .flip
  | _ => none

/-- Code of Table 6.6. -/
def VMode.code : VMode → Nat
  | .any => 0
  | .all => 1
  | .same => 2
  | .none => 3

/-- The VMode with this code, if the code is assigned. -/
def VMode.ofCode : Nat → Option VMode
  | 0 => some .any
  | 1 => some .all
  | 2 => some .same
  | 3 => some .none
  | _ => none

/-- Code of R259. -/
def MShape.code : MShape → Nat
  | .m64n64 => 0
  | .m128n64 => 1
  | .m128n128 => 2

/-- The MShape with this code, if the code is assigned. -/
def MShape.ofCode : Nat → Option MShape
  | 0 => some .m64n64
  | 1 => some .m128n64
  | 2 => some .m128n128
  | _ => none

/-- Code of R278. -/
def RetMode.code : RetMode → Nat
  | .resume => 0
  | .retry => 1
  | .kill => 2
  | .host => 3

/-- The RetMode with this code, if the code is assigned. -/
def RetMode.ofCode : Nat → Option RetMode
  | 0 => some .resume
  | 1 => some .retry
  | 2 => some .kill
  | 3 => some .host
  | _ => none

/-- Code of Table 5.6. -/
def ShSel.code : ShSel → Nat
  | .kind => 0
  | .sx => 1
  | .sy => 2
  | .sz => 3

/-- The ShSel with this code, if the code is assigned. -/
def ShSel.ofCode : Nat → Option ShSel
  | 0 => some .kind
  | 1 => some .sx
  | 2 => some .sy
  | 3 => some .sz
  | _ => none

/-- Code of Table 6.7. -/
def RedOp.code : RedOp → Nat
  | .add => 0 | .min => 1 | .max => 2 | .and => 3 | .or => 4 | .xor => 5 | .fadd => 8 | .fmin => 9 | .fmax => 10

/-- The operation with this code of Table 6.7. -/
def RedOp.ofCode : Nat → Option RedOp
  | 0 => some .add | 1 => some .min | 2 => some .max | 3 => some .and | 4 => some .or | 5 => some .xor
  | 8 => some .fadd | 9 => some .fmin | 10 => some .fmax | _ => none

/-- CVT's type with its column: 0 floating-point, 16 integer (Table 6.5). -/
def NTy.code : NTy → Nat
  | .flt t => t.code
  | .int t => 16 + t.code

/-- The type with this CVT code. -/
def NTy.ofCode (n : Nat) : Option NTy :=
  if n < 16 then (FTy.ofCode n).map .flt else (ITy.ofCode (n - 16)).map .int

/-- REDUX and SCAN read the type in the column that the operation names (R201). -/
def redTy (op : RedOp) (n : Nat) : Option NTy :=
  match op with
  | .add | .min | .max | .and | .or | .xor => (ITy.ofCode n).map .int
  | .fadd | .fmin | .fmax => (FTy.ofCode n).map .flt

/-- SIZE of a floating-point I-form or L-form (Table 3.5): group 2 has SIZE 0 only. -/
def FTy.size (t : FTy) : Nat := if t = .f64 then 0 else t.code

/-- The type that SIZE gives in the group `g`. -/
def FTy.ofSize (g size : Nat) : Option FTy :=
  if g = 2 then (if size = 0 then some .f64 else none)
  else if size = 3 then none else FTy.ofCode size

/-- SIZE of a group 4 I-form or L-form (Table 3.5). -/
def ITy.accSize : ITy → Nat
  | .b32 => 0 | .b64 => 1 | .b128 => 2
  | .s32 | .n32 | .s64 | .n64 | .s16 | .n16 | .s8 | .n8 | .b16 | .b8 | .s4 => 3

/-- The access width that SIZE gives in group 4. -/
def ITy.ofAccSize : Nat → Option ITy
  | 0 => some .b32 | 1 => some .b64 | 2 => some .b128 | _ => none

/-- Word of Int1 operands under opcode `o`. -/
def encInt1 (o : Nat) (x : Int1) : RWord :=
  { opc := o, stall := x.h.stall.val, flag := encFlag x.h.flag, guard := x.h.guard.val, gneg := bit x.h.gneg, d := x.d.enc, a := x.a.enc, b := 0, c := 0, mod := x.t.code + bit x.sat * 16 }

/-- Int1 operands of a word. -/
def decInt1 (r : RWord) : Option Int1 := do
  let x_t ← ITy.ofCode (r.mod % 16)
  some { h := r.hdr, t := x_t, sat := toBit (r.mod / 16 % 2), d := Dst.dec (r.d), a := Src.dec (r.a) }

/-- Word of Int2 operands under opcode `o`. -/
def encInt2 (o : Nat) (x : Int2) : RWord :=
  { opc := o, stall := x.h.stall.val, flag := encFlag x.h.flag, guard := x.h.guard.val, gneg := bit x.h.gneg, d := x.d.enc, a := x.a.enc, b := x.b.enc, c := 0, mod := x.t.code + bit x.sat * 16 }

/-- Int2 operands of a word. -/
def decInt2 (r : RWord) : Option Int2 := do
  let x_t ← ITy.ofCode (r.mod % 16)
  some { h := r.hdr, t := x_t, sat := toBit (r.mod / 16 % 2), d := Dst.dec (r.d), a := Src.dec (r.a), b := Src.dec (r.b) }

/-- Word of Int3 operands under opcode `o`. -/
def encInt3 (o : Nat) (x : Int3) : RWord :=
  { opc := o, stall := x.h.stall.val, flag := encFlag x.h.flag, guard := x.h.guard.val, gneg := bit x.h.gneg, d := x.d.enc, a := x.a.enc, b := x.b.enc, c := x.c.enc, mod := x.t.code + bit x.sat * 16 }

/-- Int3 operands of a word. -/
def decInt3 (r : RWord) : Option Int3 := do
  let x_t ← ITy.ofCode (r.mod % 16)
  some { h := r.hdr, t := x_t, sat := toBit (r.mod / 16 % 2), d := Dst.dec (r.d), a := Src.dec (r.a), b := Src.dec (r.b), c := Src.dec (r.c) }

/-- Word of IntI operands under opcode `o`. -/
def encIntI (o : Nat) (x : IntI) : IWord :=
  { opc := o, stall := x.h.stall.val, flag := encFlag x.h.flag, guard := x.h.guard.val, gneg := bit x.h.gneg, d := x.d.enc, a := x.a.enc, imm := x.imm.toNat, size := x.sz.code }

/-- IntI operands of a word. -/
def decIntI (r : IWord) : Option IntI := do
  let x_sz ← ISize.ofCode (r.size)
  some { h := r.hdr, sz := x_sz, d := Dst.dec (r.d), a := Src.dec (r.a), imm := BitVec.ofNat 24 (r.imm) }

/-- Word of IntL operands under opcode `o`. -/
def encIntL (o : Nat) (x : IntL) : IWord :=
  { opc := o, stall := x.h.stall.val, flag := encFlag x.h.flag, guard := x.h.guard.val, gneg := bit x.h.gneg, d := x.d.enc, a := x.a.enc, imm := 0, size := x.sz.code }

/-- IntL operands of a word. -/
def decIntL (r : IWord) (k : W64) : Option IntL := do
  let x_sz ← ISize.ofCode (r.size)
  some { h := r.hdr, sz := x_sz, d := Dst.dec (r.d), a := Src.dec (r.a), k := k }

/-- Word of Addc operands under opcode `o`. -/
def encAddc (o : Nat) (x : Addc) : RWord :=
  { opc := o, stall := x.h.stall.val, flag := encFlag x.h.flag, guard := x.h.guard.val, gneg := bit x.h.gneg, d := x.d.enc, a := x.a.enc, b := x.b.enc, c := x.pin.val, mod := x.t.code + x.pout.val * 16 }

/-- Addc operands of a word. -/
def decAddc (r : RWord) : Option Addc := do
  let x_t ← ITy.ofCode (r.mod % 16)
  some { h := r.hdr, t := x_t, pout := Fin.ofNat 8 (r.mod / 16 % 8), d := Dst.dec (r.d), a := Src.dec (r.a), b := Src.dec (r.b), pin := Fin.ofNat 8 (r.c) }

/-- Word of Un operands under opcode `o`. -/
def encUn (o : Nat) (x : Un) : RWord :=
  { opc := o, stall := x.h.stall.val, flag := encFlag x.h.flag, guard := x.h.guard.val, gneg := bit x.h.gneg, d := x.d.enc, a := x.a.enc, b := 0, c := 0, mod := x.t.code }

/-- Un operands of a word. -/
def decUn (r : RWord) : Option Un := do
  let x_t ← ITy.ofCode (r.mod % 16)
  some { h := r.hdr, t := x_t, d := Dst.dec (r.d), a := Src.dec (r.a) }

/-- Word of Bin operands under opcode `o`. -/
def encBin (o : Nat) (x : Bin) : RWord :=
  { opc := o, stall := x.h.stall.val, flag := encFlag x.h.flag, guard := x.h.guard.val, gneg := bit x.h.gneg, d := x.d.enc, a := x.a.enc, b := x.b.enc, c := 0, mod := x.t.code }

/-- Bin operands of a word. -/
def decBin (r : RWord) : Option Bin := do
  let x_t ← ITy.ofCode (r.mod % 16)
  some { h := r.hdr, t := x_t, d := Dst.dec (r.d), a := Src.dec (r.a), b := Src.dec (r.b) }

/-- Word of Tern operands under opcode `o`. -/
def encTern (o : Nat) (x : Tern) : RWord :=
  { opc := o, stall := x.h.stall.val, flag := encFlag x.h.flag, guard := x.h.guard.val, gneg := bit x.h.gneg, d := x.d.enc, a := x.a.enc, b := x.b.enc, c := x.c.enc, mod := x.t.code }

/-- Tern operands of a word. -/
def decTern (r : RWord) : Option Tern := do
  let x_t ← ITy.ofCode (r.mod % 16)
  some { h := r.hdr, t := x_t, d := Dst.dec (r.d), a := Src.dec (r.a), b := Src.dec (r.b), c := Src.dec (r.c) }

/-- Word of Cmp operands under opcode `o`. -/
def encCmp (o : Nat) (x : Cmp) : RWord :=
  { opc := o, stall := x.h.stall.val, flag := encFlag x.h.flag, guard := x.h.guard.val, gneg := bit x.h.gneg, d := x.pd.val, a := x.a.enc, b := x.b.enc, c := 0, mod := x.t.code + x.rel.code * 16 }

/-- Cmp operands of a word. -/
def decCmp (r : RWord) : Option Cmp := do
  let x_t ← ITy.ofCode (r.mod % 16)
  let x_rel ← Rel.ofCode (r.mod / 16 % 8)
  some { h := r.hdr, t := x_t, rel := x_rel, pd := Fin.ofNat 8 (r.d), a := Src.dec (r.a), b := Src.dec (r.b) }

/-- Word of CmpI operands under opcode `o`. -/
def encCmpI (o : Nat) (x : CmpI) : IWord :=
  { opc := o + x.rel.code, stall := x.h.stall.val, flag := encFlag x.h.flag, guard := x.h.guard.val, gneg := bit x.h.gneg, d := x.pd.val, a := x.a.enc, imm := x.imm.toNat, size := x.sz.code }

/-- CmpI operands of a word. -/
def decCmpI (o : Nat) (r : IWord) : Option CmpI := do
  let x_sz ← ISize.ofCode (r.size)
  let x_rel ← Rel.ofCode ((r.opc - o) % 32)
  some { h := r.hdr, sz := x_sz, rel := x_rel, pd := Fin.ofNat 8 (r.d), a := Src.dec (r.a), imm := BitVec.ofNat 24 (r.imm) }

/-- Word of CmpL operands under opcode `o`. -/
def encCmpL (o : Nat) (x : CmpL) : IWord :=
  { opc := o + x.rel.code, stall := x.h.stall.val, flag := encFlag x.h.flag, guard := x.h.guard.val, gneg := bit x.h.gneg, d := x.pd.val, a := x.a.enc, imm := 0, size := x.sz.code }

/-- CmpL operands of a word. -/
def decCmpL (o : Nat) (r : IWord) (k : W64) : Option CmpL := do
  let x_sz ← ISize.ofCode (r.size)
  let x_rel ← Rel.ofCode ((r.opc - o) % 32)
  some { h := r.hdr, sz := x_sz, rel := x_rel, pd := Fin.ofNat 8 (r.d), a := Src.dec (r.a), k := k }

/-- Word of Logt operands under opcode `o`. -/
def encLogt (o : Nat) (x : Logt) : RWord :=
  { opc := o, stall := x.h.stall.val, flag := encFlag x.h.flag, guard := x.h.guard.val, gneg := bit x.h.gneg, d := x.d.enc, a := x.a.enc, b := x.b.enc, c := x.c.enc, mod := x.table.toNat + bit x.wide * 256 }

/-- Logt operands of a word. -/
def decLogt (r : RWord) : Option Logt :=
  some { h := r.hdr, table := BitVec.ofNat 8 (r.mod % 256), wide := toBit (r.mod / 256 % 2), d := Dst.dec (r.d), a := Src.dec (r.a), b := Src.dec (r.b), c := Src.dec (r.c) }

/-- Word of Bysel operands under opcode `o`. -/
def encBysel (o : Nat) (x : Bysel) : RWord :=
  { opc := o, stall := x.h.stall.val, flag := encFlag x.h.flag, guard := x.h.guard.val, gneg := bit x.h.gneg, d := x.d.enc, a := x.a.enc, b := x.b.enc, c := x.c.enc, mod := 8 }

/-- Bysel operands of a word. -/
def decBysel (r : RWord) : Option Bysel :=
  if r.mod % 16 = 8 then some { h := r.hdr, d := Dst.dec (r.d), a := Src.dec (r.a), b := Src.dec (r.b), c := Src.dec (r.c) } else none

/-- Word of ByselI operands under opcode `o`. -/
def encByselI (o : Nat) (x : ByselI) : IWord :=
  { opc := o, stall := x.h.stall.val, flag := encFlag x.h.flag, guard := x.h.guard.val, gneg := bit x.h.gneg, d := x.d.enc, a := x.a.enc, imm := x.imm.toNat, size := 1 }

/-- ByselI operands of a word. -/
def decByselI (r : IWord) : Option ByselI :=
  if r.size = 1 then some { h := r.hdr, d := Dst.dec (r.d), a := Src.dec (r.a), imm := BitVec.ofNat 24 (r.imm) } else none

/-- Word of ByselL operands under opcode `o`. -/
def encByselL (o : Nat) (x : ByselL) : IWord :=
  { opc := o, stall := x.h.stall.val, flag := encFlag x.h.flag, guard := x.h.guard.val, gneg := bit x.h.gneg, d := x.d.enc, a := x.a.enc, imm := 0, size := 1 }

/-- ByselL operands of a word. -/
def decByselL (r : IWord) (k : W64) : Option ByselL :=
  if r.size = 1 then some { h := r.hdr, d := Dst.dec (r.d), a := Src.dec (r.a), k := k } else none

/-- Word of Lea operands under opcode `o`. -/
def encLea (o : Nat) (x : Lea) : RWord :=
  { opc := o, stall := x.h.stall.val, flag := encFlag x.h.flag, guard := x.h.guard.val, gneg := bit x.h.gneg, d := x.d.enc, a := x.a.enc, b := x.b.enc, c := 0, mod := x.t.code + x.sh.val * 16 }

/-- Lea operands of a word. -/
def decLea (r : RWord) : Option Lea := do
  let x_t ← ITy.ofCode (r.mod % 16)
  some { h := r.hdr, t := x_t, sh := Fin.ofNat 8 (r.mod / 16 % 8), d := Dst.dec (r.d), a := Src.dec (r.a), b := Src.dec (r.b) }

/-- Word of MovI operands under opcode `o`. -/
def encMovI (o : Nat) (x : MovI) : IWord :=
  { opc := o, stall := x.h.stall.val, flag := encFlag x.h.flag, guard := x.h.guard.val, gneg := bit x.h.gneg, d := x.d.enc, a := 0, imm := x.imm.toNat, size := x.sz.code }

/-- MovI operands of a word. -/
def decMovI (r : IWord) : Option MovI := do
  let x_sz ← ISize.ofCode (r.size)
  some { h := r.hdr, sz := x_sz, d := Dst.dec (r.d), imm := BitVec.ofNat 24 (r.imm) }

/-- Word of MovL operands under opcode `o`. -/
def encMovL (o : Nat) (x : MovL) : IWord :=
  { opc := o, stall := x.h.stall.val, flag := encFlag x.h.flag, guard := x.h.guard.val, gneg := bit x.h.gneg, d := x.d.enc, a := 0, imm := 0, size := x.sz.code }

/-- MovL operands of a word. -/
def decMovL (r : IWord) (k : W64) : Option MovL := do
  let x_sz ← ISize.ofCode (r.size)
  some { h := r.hdr, sz := x_sz, d := Dst.dec (r.d), k := k }

/-- Word of SelOp operands under opcode `o`. -/
def encSelOp (o : Nat) (x : SelOp) : RWord :=
  { opc := o, stall := x.h.stall.val, flag := encFlag x.h.flag, guard := x.h.guard.val, gneg := bit x.h.gneg, d := x.d.enc, a := x.a.enc, b := x.b.enc, c := x.p.val, mod := x.t.code }

/-- SelOp operands of a word. -/
def decSelOp (r : RWord) : Option SelOp := do
  let x_t ← ITy.ofCode (r.mod % 16)
  some { h := r.hdr, t := x_t, d := Dst.dec (r.d), a := Src.dec (r.a), b := Src.dec (r.b), p := Fin.ofNat 8 (r.c) }

/-- Word of Plop operands under opcode `o`. -/
def encPlop (o : Nat) (x : Plop) : RWord :=
  { opc := o, stall := x.h.stall.val, flag := encFlag x.h.flag, guard := x.h.guard.val, gneg := bit x.h.gneg, d := x.pd.val, a := x.pa.val, b := x.pb.val, c := x.pc.val, mod := x.table.toNat }

/-- Plop operands of a word. -/
def decPlop (r : RWord) : Option Plop :=
  some { h := r.hdr, table := BitVec.ofNat 8 (r.mod % 256), pd := Fin.ofNat 8 (r.d), pa := Fin.ofNat 8 (r.a), pb := Fin.ofNat 8 (r.b), pc := Fin.ofNat 8 (r.c) }

/-- Word of MovS operands under opcode `o`. -/
def encMovS (o : Nat) (x : MovS) : RWord :=
  { opc := o, stall := x.h.stall.val, flag := encFlag x.h.flag, guard := x.h.guard.val, gneg := bit x.h.gneg, d := x.d.enc, a := x.sr.code, b := 0, c := 0, mod := (8 + bit x.wide) }

/-- MovS operands of a word. -/
def decMovS (r : RWord) : Option MovS := do
  let x_sr ← SReg.ofCode (r.a)
  some { h := r.hdr, wide := toBit r.mod, sr := x_sr, d := Dst.dec (r.d) }

/-- Word of FBin operands under opcode `o`. -/
def encFBin (o : Nat) (x : FBin) : RWord :=
  { opc := o, stall := x.h.stall.val, flag := encFlag x.h.flag, guard := x.h.guard.val, gneg := bit x.h.gneg, d := x.d.enc, a := x.a.enc, b := x.b.enc, c := 0, mod := x.t.code + x.rm.code * 16 + bit x.ftz * 128 + x.sgn.code * 256 }

/-- FBin operands of a word. -/
def decFBin (r : RWord) : Option FBin := do
  let x_t ← FTy.ofCode (r.mod % 16)
  let x_rm ← RM.ofCode (r.mod / 16 % 8)
  let x_sgn ← Sgn.ofCode (r.mod / 256 % 4)
  some { h := r.hdr, t := x_t, rm := x_rm, ftz := toBit (r.mod / 128 % 2), sgn := x_sgn, d := Dst.dec (r.d), a := Src.dec (r.a), b := Src.dec (r.b) }

/-- Word of FUn operands under opcode `o`. -/
def encFUn (o : Nat) (x : FUn) : RWord :=
  { opc := o, stall := x.h.stall.val, flag := encFlag x.h.flag, guard := x.h.guard.val, gneg := bit x.h.gneg, d := x.d.enc, a := x.a.enc, b := 0, c := 0, mod := x.t.code + x.rm.code * 16 + bit x.ftz * 128 + x.sgn.code * 256 }

/-- FUn operands of a word. -/
def decFUn (r : RWord) : Option FUn := do
  let x_t ← FTy.ofCode (r.mod % 16)
  let x_rm ← RM.ofCode (r.mod / 16 % 8)
  let x_sgn ← Sgn.ofCode (r.mod / 256 % 4)
  some { h := r.hdr, t := x_t, rm := x_rm, ftz := toBit (r.mod / 128 % 2), sgn := x_sgn, d := Dst.dec (r.d), a := Src.dec (r.a) }

/-- Word of FTern operands under opcode `o`. -/
def encFTern (o : Nat) (x : FTern) : RWord :=
  { opc := o, stall := x.h.stall.val, flag := encFlag x.h.flag, guard := x.h.guard.val, gneg := bit x.h.gneg, d := x.d.enc, a := x.a.enc, b := x.b.enc, c := x.c.enc, mod := x.t.code + x.rm.code * 16 + bit x.ftz * 128 + x.sgn.code * 256 }

/-- FTern operands of a word. -/
def decFTern (r : RWord) : Option FTern := do
  let x_t ← FTy.ofCode (r.mod % 16)
  let x_rm ← RM.ofCode (r.mod / 16 % 8)
  let x_sgn ← Sgn.ofCode (r.mod / 256 % 4)
  some { h := r.hdr, t := x_t, rm := x_rm, ftz := toBit (r.mod / 128 % 2), sgn := x_sgn, d := Dst.dec (r.d), a := Src.dec (r.a), b := Src.dec (r.b), c := Src.dec (r.c) }

/-- Word of FMM operands under opcode `o`. -/
def encFMM (o : Nat) (x : FMM) : RWord :=
  { opc := o, stall := x.h.stall.val, flag := encFlag x.h.flag, guard := x.h.guard.val, gneg := bit x.h.gneg, d := x.d.enc, a := x.a.enc, b := x.b.enc, c := 0, mod := x.t.code + bit x.prop * 16 + bit x.ftz * 128 + x.sgn.code * 256 }

/-- FMM operands of a word. -/
def decFMM (r : RWord) : Option FMM := do
  let x_t ← FTy.ofCode (r.mod % 16)
  let x_sgn ← Sgn.ofCode (r.mod / 256 % 4)
  some { h := r.hdr, t := x_t, prop := toBit (r.mod / 16 % 2), ftz := toBit (r.mod / 128 % 2), sgn := x_sgn, d := Dst.dec (r.d), a := Src.dec (r.a), b := Src.dec (r.b) }

/-- Word of FCmp operands under opcode `o`. -/
def encFCmp (o : Nat) (x : FCmp) : RWord :=
  { opc := o, stall := x.h.stall.val, flag := encFlag x.h.flag, guard := x.h.guard.val, gneg := bit x.h.gneg, d := x.pd.val, a := x.a.enc, b := x.b.enc, c := 0, mod := x.t.code + x.rel.code * 16 + bit x.ftz * 128 + x.sgn.code * 256 }

/-- FCmp operands of a word. -/
def decFCmp (r : RWord) : Option FCmp := do
  let x_t ← FTy.ofCode (r.mod % 16)
  let x_rel ← Rel.ofCode (r.mod / 16 % 8)
  let x_sgn ← Sgn.ofCode (r.mod / 256 % 4)
  some { h := r.hdr, t := x_t, rel := x_rel, ftz := toBit (r.mod / 128 % 2), sgn := x_sgn, pd := Fin.ofNat 8 (r.d), a := Src.dec (r.a), b := Src.dec (r.b) }

/-- Word of FCls operands under opcode `o`. -/
def encFCls (o : Nat) (x : FCls) : RWord :=
  { opc := o, stall := x.h.stall.val, flag := encFlag x.h.flag, guard := x.h.guard.val, gneg := bit x.h.gneg, d := x.d.enc, a := x.a.enc, b := 0, c := 0, mod := x.t.code }

/-- FCls operands of a word. -/
def decFCls (r : RWord) : Option FCls := do
  let x_t ← FTy.ofCode (r.mod % 16)
  some { h := r.hdr, t := x_t, d := Dst.dec (r.d), a := Src.dec (r.a) }

/-- Word of FI operands under opcode `o`. -/
def encFI (o : Nat) (x : FI) : IWord :=
  { opc := o, stall := x.h.stall.val, flag := encFlag x.h.flag, guard := x.h.guard.val, gneg := bit x.h.gneg, d := x.d.enc, a := x.a.enc, imm := x.imm.toNat, size := x.t.size }

/-- FI operands of a word. -/
def decFI (r : IWord) : Option FI := do
  let x_t ← FTy.ofSize (r.opc / 128) r.size
  some { h := r.hdr, t := x_t, d := Dst.dec (r.d), a := Src.dec (r.a), imm := BitVec.ofNat 24 (r.imm) }

/-- Word of FL operands under opcode `o`. -/
def encFL (o : Nat) (x : FL) : IWord :=
  { opc := o, stall := x.h.stall.val, flag := encFlag x.h.flag, guard := x.h.guard.val, gneg := bit x.h.gneg, d := x.d.enc, a := x.a.enc, imm := 0, size := x.t.size }

/-- FL operands of a word. -/
def decFL (r : IWord) (k : W64) : Option FL := do
  let x_t ← FTy.ofSize (r.opc / 128) r.size
  some { h := r.hdr, t := x_t, d := Dst.dec (r.d), a := Src.dec (r.a), k := k }

/-- Word of FCmpI operands under opcode `o`. -/
def encFCmpI (o : Nat) (x : FCmpI) : IWord :=
  { opc := o + x.rel.code, stall := x.h.stall.val, flag := encFlag x.h.flag, guard := x.h.guard.val, gneg := bit x.h.gneg, d := x.pd.val, a := x.a.enc, imm := x.imm.toNat, size := x.t.size }

/-- FCmpI operands of a word. -/
def decFCmpI (o : Nat) (r : IWord) : Option FCmpI := do
  let x_t ← FTy.ofSize (r.opc / 128) r.size
  let x_rel ← Rel.ofCode ((r.opc - o) % 32)
  some { h := r.hdr, t := x_t, rel := x_rel, pd := Fin.ofNat 8 (r.d), a := Src.dec (r.a), imm := BitVec.ofNat 24 (r.imm) }

/-- Word of FCmpL operands under opcode `o`. -/
def encFCmpL (o : Nat) (x : FCmpL) : IWord :=
  { opc := o + x.rel.code, stall := x.h.stall.val, flag := encFlag x.h.flag, guard := x.h.guard.val, gneg := bit x.h.gneg, d := x.pd.val, a := x.a.enc, imm := 0, size := x.t.size }

/-- FCmpL operands of a word. -/
def decFCmpL (o : Nat) (r : IWord) (k : W64) : Option FCmpL := do
  let x_t ← FTy.ofSize (r.opc / 128) r.size
  let x_rel ← Rel.ofCode ((r.opc - o) % 32)
  some { h := r.hdr, t := x_t, rel := x_rel, pd := Fin.ofNat 8 (r.d), a := Src.dec (r.a), k := k }

/-- Word of Dot2 operands under opcode `o`. -/
def encDot2 (o : Nat) (x : Dot2) : RWord :=
  { opc := o, stall := x.h.stall.val, flag := encFlag x.h.flag, guard := x.h.guard.val, gneg := bit x.h.gneg, d := x.d.enc, a := x.a.enc, b := x.b.enc, c := x.c.enc, mod := x.t.code + x.rm.code * 16 + bit x.ftz * 128 }

/-- Dot2 operands of a word. -/
def decDot2 (r : RWord) : Option Dot2 := do
  let x_t ← FTy.ofCode (r.mod % 16)
  let x_rm ← RM.ofCode (r.mod / 16 % 8)
  some { h := r.hdr, t := x_t, rm := x_rm, ftz := toBit (r.mod / 128 % 2), d := Dst.dec (r.d), a := Src.dec (r.a), b := Src.dec (r.b), c := Src.dec (r.c) }

/-- Word of Dot4 operands under opcode `o`. -/
def encDot4 (o : Nat) (x : Dot4) : RWord :=
  { opc := o, stall := x.h.stall.val, flag := encFlag x.h.flag, guard := x.h.guard.val, gneg := bit x.h.gneg, d := x.d.enc, a := x.a.enc, b := x.b.enc, c := x.c.enc, mod := x.ta.code + x.rm.code * 16 + bit x.ftz * 128 + encTb x.tb * 256 }

/-- Dot4 operands of a word. -/
def decDot4 (r : RWord) : Option Dot4 := do
  let x_ta ← FTy.ofCode (r.mod % 16)
  let x_rm ← RM.ofCode (r.mod / 16 % 8)
  let x_tb ← decTb (r.mod / 256 % 4)
  some { h := r.hdr, ta := x_ta, rm := x_rm, ftz := toBit (r.mod / 128 % 2), tb := x_tb, d := Dst.dec (r.d), a := Src.dec (r.a), b := Src.dec (r.b), c := Src.dec (r.c) }

/-- Word of Cvt operands under opcode `o`. -/
def encCvt (o : Nat) (x : Cvt) : RWord :=
  { opc := o, stall := x.h.stall.val, flag := encFlag x.h.flag, guard := x.h.guard.val, gneg := bit x.h.gneg, d := x.d.enc, a := x.a.enc, b := x.ts.code + bit x.ftz * 32, c := 0, mod := x.td.code + x.rm.code * 32 + x.ovf.code * 256 }

/-- Cvt operands of a word. -/
def decCvt (r : RWord) : Option Cvt := do
  let x_td ← NTy.ofCode (r.mod % 32)
  let x_rm ← RM.ofCode (r.mod / 32 % 8)
  let x_ovf ← Ovf.ofCode (r.mod / 256 % 4)
  let x_ts ← NTy.ofCode (r.b / 1 % 32)
  some { h := r.hdr, td := x_td, rm := x_rm, ovf := x_ovf, ts := x_ts, ftz := toBit (r.b / 32 % 2), d := Dst.dec (r.d), a := Src.dec (r.a) }

/-- Word of Lxch operands under opcode `o`. -/
def encLxch (o : Nat) (x : Lxch) : RWord :=
  { opc := o, stall := x.h.stall.val, flag := encFlag x.h.flag, guard := x.h.guard.val, gneg := bit x.h.gneg, d := x.d.enc, a := x.a.enc, b := x.b.enc, c := 0, mod := (8 + bit x.wide) + x.mode.code * 16 + x.seg.val * 64 }

/-- Lxch operands of a word. -/
def decLxch (r : RWord) : Option Lxch := do
  let x_mode ← XMode.ofCode (r.mod / 16 % 4)
  some { h := r.hdr, wide := toBit r.mod, mode := x_mode, seg := Fin.ofNat 4 (r.mod / 64 % 4), d := Dst.dec (r.d), a := Src.dec (r.a), b := Src.dec (r.b) }

/-- Word of LxchI operands under opcode `o`. -/
def encLxchI (o : Nat) (x : LxchI) : IWord :=
  { opc := o, stall := x.h.stall.val, flag := encFlag x.h.flag, guard := x.h.guard.val, gneg := bit x.h.gneg, d := x.d.enc, a := x.a.enc, imm := x.sel.toNat + x.mode.code * 32 + x.seg.val * 128 + bit x.wide * 512, size := 0 }

/-- LxchI operands of a word. -/
def decLxchI (r : IWord) : Option LxchI := do
  let x_mode ← XMode.ofCode (r.imm / 32 % 4)
  if r.size = 0 then some { h := r.hdr, sel := BitVec.ofNat 5 (r.imm), mode := x_mode, seg := Fin.ofNat 4 (r.imm / 128 % 4), wide := toBit (r.imm / 512 % 2), d := Dst.dec (r.d), a := Src.dec (r.a) } else none

/-- Word of Vote operands under opcode `o`. -/
def encVote (o : Nat) (x : Vote) : RWord :=
  { opc := o, stall := x.h.stall.val, flag := encFlag x.h.flag, guard := x.h.guard.val, gneg := bit x.h.gneg, d := x.pd.val, a := x.pa.val, b := 0, c := 0, mod := x.mode.code }

/-- Vote operands of a word. -/
def decVote (r : RWord) : Option Vote := do
  let x_mode ← VMode.ofCode (r.mod % 4)
  some { h := r.hdr, mode := x_mode, pd := Fin.ofNat 8 (r.d), pa := Fin.ofNat 8 (r.a) }

/-- Word of Ballot operands under opcode `o`. -/
def encBallot (o : Nat) (x : Ballot) : RWord :=
  { opc := o, stall := x.h.stall.val, flag := encFlag x.h.flag, guard := x.h.guard.val, gneg := bit x.h.gneg, d := x.d.enc, a := x.pa.val, b := 0, c := 0, mod := 0 }

/-- Ballot operands of a word. -/
def decBallot (r : RWord) : Option Ballot :=
  some { h := r.hdr, d := Dst.dec (r.d), pa := Fin.ofNat 8 (r.a) }

/-- Word of Redux operands under opcode `o`. -/
def encRedux (o : Nat) (x : Redux) : RWord :=
  { opc := o, stall := x.h.stall.val, flag := encFlag x.h.flag, guard := x.h.guard.val, gneg := bit x.h.gneg, d := x.d.enc, a := x.a.enc, b := 0, c := 0, mod := x.op.code * 16 + x.t.code % 16 }

/-- Redux operands of a word. -/
def decRedux (r : RWord) : Option Redux := do
  let x_op ← RedOp.ofCode (r.mod / 16 % 16)
  let x_t ← redTy x_op (r.mod % 16)
  some { h := r.hdr, op := x_op, t := x_t, d := Dst.dec (r.d), a := Src.dec (r.a) }

/-- Word of ScanOp operands under opcode `o`. -/
def encScanOp (o : Nat) (x : ScanOp) : RWord :=
  { opc := o, stall := x.h.stall.val, flag := encFlag x.h.flag, guard := x.h.guard.val, gneg := bit x.h.gneg, d := x.d.enc, a := x.a.enc, b := 0, c := 0, mod := x.op.code * 16 + x.t.code % 16 + bit x.exc * 256 }

/-- ScanOp operands of a word. -/
def decScanOp (r : RWord) : Option ScanOp := do
  let x_op ← RedOp.ofCode (r.mod / 16 % 16)
  let x_t ← redTy x_op (r.mod % 16)
  some { h := r.hdr, op := x_op, t := x_t, exc := toBit (r.mod / 256 % 2), d := Dst.dec (r.d), a := Src.dec (r.a) }

/-- Word of MatchOp operands under opcode `o`. -/
def encMatchOp (o : Nat) (x : MatchOp) : RWord :=
  { opc := o, stall := x.h.stall.val, flag := encFlag x.h.flag, guard := x.h.guard.val, gneg := bit x.h.gneg, d := x.d.enc, a := x.a.enc, b := 0, c := 0, mod := (8 + bit x.wide) + bit x.unif * 16 }

/-- MatchOp operands of a word. -/
def decMatchOp (r : RWord) : Option MatchOp :=
  some { h := r.hdr, wide := toBit r.mod, unif := toBit (r.mod / 16 % 2), d := Dst.dec (r.d), a := Src.dec (r.a) }

/-- Word of Qblk operands under opcode `o`. -/
def encQblk (o : Nat) (x : Qblk) : RWord :=
  { opc := o, stall := x.h.stall.val, flag := encFlag x.h.flag, guard := x.h.guard.val, gneg := bit x.h.gneg, d := x.d.val, a := x.a.enc, b := x.b.enc, c := x.c.enc, mod := x.rm.code * 16 + x.ovf.code * 128 }

/-- Qblk operands of a word. -/
def decQblk (r : RWord) : Option Qblk := do
  let x_rm ← RM.ofCode (r.mod / 16 % 8)
  let x_ovf ← Ovf.ofCode (r.mod / 128 % 4)
  some { h := r.hdr, rm := x_rm, ovf := x_ovf, d := Fin.ofNat 64 (r.d), a := VSrc.dec (r.a), b := USrc.dec (r.b), c := USrc.dec (r.c) }

/-- Word of Qunpk operands under opcode `o`. -/
def encQunpk (o : Nat) (x : Qunpk) : RWord :=
  { opc := o, stall := x.h.stall.val, flag := encFlag x.h.flag, guard := x.h.guard.val, gneg := bit x.h.gneg, d := x.d.val, a := x.a.enc, b := 0, c := 0, mod := x.rm.code * 16 }

/-- Qunpk operands of a word. -/
def decQunpk (r : RWord) : Option Qunpk := do
  let x_rm ← RM.ofCode (r.mod / 16 % 8)
  some { h := r.hdr, rm := x_rm, d := Fin.ofNat 64 (r.d), a := VSrc.dec (r.a) }

/-- Word of Amax operands under opcode `o`. -/
def encAmax (o : Nat) (x : Amax) : RWord :=
  { opc := o, stall := x.h.stall.val, flag := encFlag x.h.flag, guard := x.h.guard.val, gneg := bit x.h.gneg, d := x.d.enc, a := x.a.enc, b := 0, c := 0, mod := x.t.code + bit x.prop * 16 }

/-- Amax operands of a word. -/
def decAmax (r : RWord) : Option Amax := do
  let x_t ← FTy.ofCode (r.mod % 16)
  some { h := r.hdr, t := x_t, prop := toBit (r.mod / 16 % 2), d := Dst.dec (r.d), a := Src.dec (r.a) }

/-- Word of ShapeOp operands under opcode `o`. -/
def encShapeOp (o : Nat) (x : ShapeOp) : RWord :=
  { opc := o, stall := x.h.stall.val, flag := encFlag x.h.flag, guard := x.h.guard.val, gneg := bit x.h.gneg, d := x.d.enc, a := bit x.uni * 64 + x.idx.val, b := 0, c := 0, mod := x.sel.code }

/-- ShapeOp operands of a word. -/
def decShapeOp (r : RWord) : Option ShapeOp := do
  let x_sel ← ShSel.ofCode (r.mod % 4)
  some { h := r.hdr, sel := x_sel, d := Dst.dec (r.d), uni := toBit (r.a / 64), idx := Fin.ofNat 64 r.a }

/-- Word of Bare operands under opcode `o`. -/
def encBare (o : Nat) (x : Bare) : RWord :=
  { opc := o, stall := x.stall.val, flag := encFlag x.flag, guard := 7, gneg := 0, d := 0, a := 0, b := 0, c := 0, mod := 0 }

/-- Bare operands of a word. -/
def decBare (r : RWord) : Option Bare :=
  some { stall := Fin.ofNat 16 r.stall, flag := decFlag r.flag }

/-- Word of GBare operands under opcode `o`. -/
def encGBare (o : Nat) (x : GBare) : RWord :=
  { opc := o, stall := x.h.stall.val, flag := encFlag x.h.flag, guard := x.h.guard.val, gneg := bit x.h.gneg, d := 0, a := 0, b := 0, c := 0, mod := 0 }

/-- GBare operands of a word. -/
def decGBare (r : RWord) : Option GBare :=
  some { h := r.hdr }

/-- Word of LdR operands under opcode `o`. -/
def encLdR (o : Nat) (x : LdR) : RWord :=
  { opc := o, stall := x.h.stall.val, flag := encFlag x.h.flag, guard := x.h.guard.val, gneg := bit x.h.gneg, d := x.d.val, a := x.a.enc, b := encOff x.off, c := 0, mod := x.t.code + x.scope.code * 16 + x.ord.code * 128 + bit x.off.isSome * 512 }

/-- LdR operands of a word. -/
def decLdR (r : RWord) : Option LdR := do
  let x_t ← ITy.ofCode (r.mod % 16)
  let x_scope ← Scope.ofCode (r.mod / 16 % 8)
  let x_ord ← Ord.ofCode (r.mod / 128 % 4)
  some { h := r.hdr, t := x_t, scope := x_scope, ord := x_ord, d := Fin.ofNat 64 (r.d), a := Src.dec (r.a), off := if toBit (r.mod / 512) then some (USrc.dec r.b) else none }

/-- Word of LdI operands under opcode `o`. -/
def encLdI (o : Nat) (x : LdI) : IWord :=
  { opc := o, stall := x.h.stall.val, flag := encFlag x.h.flag, guard := x.h.guard.val, gneg := bit x.h.gneg, d := x.d.val, a := x.a.enc, imm := x.imm.toNat, size := x.t.accSize }

/-- LdI operands of a word. -/
def decLdI (r : IWord) : Option LdI := do
  let x_t ← ITy.ofAccSize r.size
  some { h := r.hdr, t := x_t, d := Fin.ofNat 64 (r.d), a := Src.dec (r.a), imm := BitVec.ofNat 24 (r.imm) }

/-- Word of LdL operands under opcode `o`. -/
def encLdL (o : Nat) (x : LdL) : IWord :=
  { opc := o, stall := x.h.stall.val, flag := encFlag x.h.flag, guard := x.h.guard.val, gneg := bit x.h.gneg, d := x.d.val, a := x.a.enc, imm := 0, size := x.t.accSize }

/-- LdL operands of a word. -/
def decLdL (r : IWord) (k : W64) : Option LdL := do
  let x_t ← ITy.ofAccSize r.size
  some { h := r.hdr, t := x_t, d := Fin.ofNat 64 (r.d), a := Src.dec (r.a), k := k }

/-- Word of LduR operands under opcode `o`. -/
def encLduR (o : Nat) (x : LduR) : RWord :=
  { opc := o, stall := x.h.stall.val, flag := encFlag x.h.flag, guard := x.h.guard.val, gneg := bit x.h.gneg, d := 128 + x.d.val, a := x.a.enc, b := encOff x.off, c := 0, mod := x.t.code + x.scope.code * 16 + x.ord.code * 128 + bit x.off.isSome * 512 }

/-- LduR operands of a word. -/
def decLduR (r : RWord) : Option LduR := do
  let x_t ← ITy.ofCode (r.mod % 16)
  let x_scope ← Scope.ofCode (r.mod / 16 % 8)
  let x_ord ← Ord.ofCode (r.mod / 128 % 4)
  some { h := r.hdr, t := x_t, scope := x_scope, ord := x_ord, d := Fin.ofNat 64 r.d, a := USrc.dec (r.a), off := if toBit (r.mod / 512) then some (USrc.dec r.b) else none }

/-- Word of LduI operands under opcode `o`. -/
def encLduI (o : Nat) (x : LduI) : IWord :=
  { opc := o, stall := x.h.stall.val, flag := encFlag x.h.flag, guard := x.h.guard.val, gneg := bit x.h.gneg, d := 128 + x.d.val, a := x.a.enc, imm := x.imm.toNat, size := x.t.accSize }

/-- LduI operands of a word. -/
def decLduI (r : IWord) : Option LduI := do
  let x_t ← ITy.ofAccSize r.size
  some { h := r.hdr, t := x_t, d := Fin.ofNat 64 r.d, a := USrc.dec (r.a), imm := BitVec.ofNat 24 (r.imm) }

/-- Word of LduL operands under opcode `o`. -/
def encLduL (o : Nat) (x : LduL) : IWord :=
  { opc := o, stall := x.h.stall.val, flag := encFlag x.h.flag, guard := x.h.guard.val, gneg := bit x.h.gneg, d := 128 + x.d.val, a := x.a.enc, imm := 0, size := x.t.accSize }

/-- LduL operands of a word. -/
def decLduL (r : IWord) (k : W64) : Option LduL := do
  let x_t ← ITy.ofAccSize r.size
  some { h := r.hdr, t := x_t, d := Fin.ofNat 64 r.d, a := USrc.dec (r.a), k := k }

/-- Word of StR operands under opcode `o`. -/
def encStR (o : Nat) (x : StR) : RWord :=
  { opc := o, stall := x.h.stall.val, flag := encFlag x.h.flag, guard := x.h.guard.val, gneg := bit x.h.gneg, d := 0, a := x.a.enc, b := encOff x.off, c := x.c.enc, mod := x.t.code + x.scope.code * 16 + x.ord.code * 128 + bit x.off.isSome * 512 }

/-- StR operands of a word. -/
def decStR (r : RWord) : Option StR := do
  let x_t ← ITy.ofCode (r.mod % 16)
  let x_scope ← Scope.ofCode (r.mod / 16 % 8)
  let x_ord ← Ord.ofCode (r.mod / 128 % 4)
  some { h := r.hdr, t := x_t, scope := x_scope, ord := x_ord, a := Src.dec (r.a), off := if toBit (r.mod / 512) then some (USrc.dec r.b) else none, c := Src.dec (r.c) }

/-- Word of StI operands under opcode `o`. -/
def encStI (o : Nat) (x : StI) : IWord :=
  { opc := o, stall := x.h.stall.val, flag := encFlag x.h.flag, guard := x.h.guard.val, gneg := bit x.h.gneg, d := x.v.enc, a := x.a.enc, imm := x.imm.toNat, size := x.t.accSize }

/-- StI operands of a word. -/
def decStI (r : IWord) : Option StI := do
  let x_t ← ITy.ofAccSize r.size
  some { h := r.hdr, t := x_t, v := Dst.dec (r.d), a := Src.dec (r.a), imm := BitVec.ofNat 24 (r.imm) }

/-- Word of StL operands under opcode `o`. -/
def encStL (o : Nat) (x : StL) : IWord :=
  { opc := o, stall := x.h.stall.val, flag := encFlag x.h.flag, guard := x.h.guard.val, gneg := bit x.h.gneg, d := x.v.enc, a := x.a.enc, imm := 0, size := x.t.accSize }

/-- StL operands of a word. -/
def decStL (r : IWord) (k : W64) : Option StL := do
  let x_t ← ITy.ofAccSize r.size
  some { h := r.hdr, t := x_t, v := Dst.dec (r.d), a := Src.dec (r.a), k := k }

/-- Word of Atom operands under opcode `o`. -/
def encAtom (o : Nat) (x : Atom) : RWord :=
  { opc := o, stall := x.h.stall.val, flag := encFlag x.h.flag, guard := x.h.guard.val, gneg := bit x.h.gneg, d := x.d.val, a := x.a.enc, b := x.b.enc, c := x.op.code, mod := x.t.code + x.scope.code * 16 + x.ord.code * 128 + bit x.dlu * 512 }

/-- Atom operands of a word. -/
def decAtom (r : RWord) : Option Atom := do
  let x_t ← ITy.ofCode (r.mod % 16)
  let x_scope ← Scope.ofCode (r.mod / 16 % 8)
  let x_ord ← Ord.ofCode (r.mod / 128 % 4)
  let x_op ← AtomOp.ofCode (r.c)
  some { h := r.hdr, t := x_t, scope := x_scope, ord := x_ord, dlu := toBit (r.mod / 512 % 2), op := x_op, d := Fin.ofNat 64 (r.d), a := Src.dec (r.a), b := Src.dec (r.b) }

/-- Word of RedM operands under opcode `o`. -/
def encRedM (o : Nat) (x : RedM) : RWord :=
  { opc := o, stall := x.h.stall.val, flag := encFlag x.h.flag, guard := x.h.guard.val, gneg := bit x.h.gneg, d := 0, a := x.a.enc, b := x.b.enc, c := x.op.code, mod := x.t.code + x.scope.code * 16 + x.ord.code * 128 }

/-- RedM operands of a word. -/
def decRedM (r : RWord) : Option RedM := do
  let x_t ← ITy.ofCode (r.mod % 16)
  let x_scope ← Scope.ofCode (r.mod / 16 % 8)
  let x_ord ← Ord.ofCode (r.mod / 128 % 4)
  let x_op ← AtomOp.ofCode (r.c)
  some { h := r.hdr, t := x_t, scope := x_scope, ord := x_ord, op := x_op, a := Src.dec (r.a), b := Src.dec (r.b) }

/-- Word of PrefR operands under opcode `o`. -/
def encPrefR (o : Nat) (x : PrefR) : RWord :=
  { opc := o, stall := x.h.stall.val, flag := encFlag x.h.flag, guard := x.h.guard.val, gneg := bit x.h.gneg, d := 0, a := x.a.enc, b := encOff x.off, c := 0, mod := x.target.val + bit x.excl * 4 + bit x.off.isSome * 512 }

/-- PrefR operands of a word. -/
def decPrefR (r : RWord) : Option PrefR :=
  some { h := r.hdr, target := Fin.ofNat 3 (r.mod % 4), excl := toBit (r.mod / 4 % 2), a := Src.dec (r.a), off := if toBit (r.mod / 512) then some (USrc.dec r.b) else none }

/-- Word of PrefI operands under opcode `o`. -/
def encPrefI (o : Nat) (x : PrefI) : IWord :=
  { opc := o, stall := x.h.stall.val, flag := encFlag x.h.flag, guard := x.h.guard.val, gneg := bit x.h.gneg, d := 0, a := x.a.enc, imm := x.imm.toNat, size := 0 }

/-- PrefI operands of a word. -/
def decPrefI (r : IWord) : Option PrefI :=
  if r.size = 0 then some { h := r.hdr, a := Src.dec (r.a), imm := BitVec.ofNat 24 (r.imm) } else none

/-- Word of PrefL operands under opcode `o`. -/
def encPrefL (o : Nat) (x : PrefL) : IWord :=
  { opc := o, stall := x.h.stall.val, flag := encFlag x.h.flag, guard := x.h.guard.val, gneg := bit x.h.gneg, d := 0, a := x.a.enc, imm := 0, size := 0 }

/-- PrefL operands of a word. -/
def decPrefL (r : IWord) (k : W64) : Option PrefL :=
  if r.size = 0 then some { h := r.hdr, a := Src.dec (r.a), k := k } else none

/-- Word of Cctl operands under opcode `o`. -/
def encCctl (o : Nat) (x : Cctl) : RWord :=
  { opc := o, stall := x.h.stall.val, flag := encFlag x.h.flag, guard := x.h.guard.val, gneg := bit x.h.gneg, d := 0, a := encOpt x.addr, b := encOff x.off, c := 0, mod := x.op.val + bit x.off.isSome * 512 }

/-- Cctl operands of a word. -/
def decCctl (r : RWord) : Option Cctl :=
  some { h := r.hdr, op := Fin.ofNat 3 (r.mod % 4), addr := if r.mod % 4 = 1 then none else some (Src.dec r.a), off := if toBit (r.mod / 512) then some (USrc.dec r.b) else none }

/-- Word of Fence operands under opcode `o`. -/
def encFence (o : Nat) (x : Fence) : RWord :=
  { opc := o, stall := x.h.stall.val, flag := encFlag x.h.flag, guard := x.h.guard.val, gneg := bit x.h.gneg, d := 0, a := 0, b := 0, c := 0, mod := x.scope.code * 16 + x.ord.code * 128 + bit x.sc * 512 }

/-- Fence operands of a word. -/
def decFence (r : RWord) : Option Fence := do
  let x_scope ← Scope.ofCode (r.mod / 16 % 8)
  let x_ord ← Ord.ofCode (r.mod / 128 % 4)
  some { h := r.hdr, scope := x_scope, ord := x_ord, sc := toBit (r.mod / 512 % 2) }

/-- Word of Phclose operands under opcode `o`. -/
def encPhclose (o : Nat) (x : Phclose) : RWord :=
  { opc := o, stall := x.h.stall.val, flag := encFlag x.h.flag, guard := x.h.guard.val, gneg := bit x.h.gneg, d := x.d.enc, a := 0, b := 0, c := 0, mod := 0 }

/-- Phclose operands of a word. -/
def decPhclose (r : RWord) : Option Phclose :=
  some { h := r.hdr, d := Dst.dec (r.d) }

/-- Word of Phwait operands under opcode `o`. -/
def encPhwait (o : Nat) (x : Phwait) : RWord :=
  { opc := o, stall := x.h.stall.val, flag := encFlag x.h.flag, guard := x.h.guard.val, gneg := bit x.h.gneg, d := 0, a := x.a.enc, b := x.b.enc, c := 0, mod := 0 }

/-- Phwait operands of a word. -/
def decPhwait (r : RWord) : Option Phwait :=
  some { h := r.hdr, a := USrc.dec (r.a), b := Src.dec (r.b) }

/-- Word of Waitv operands under opcode `o`. -/
def encWaitv (o : Nat) (x : Waitv) : RWord :=
  { opc := o, stall := x.h.stall.val, flag := encFlag x.h.flag, guard := x.h.guard.val, gneg := bit x.h.gneg, d := 0, a := x.a.enc, b := x.b.enc, c := x.c.enc, mod := x.t.code }

/-- Waitv operands of a word. -/
def decWaitv (r : RWord) : Option Waitv := do
  let x_t ← ITy.ofCode (r.mod % 16)
  some { h := r.hdr, t := x_t, a := Src.dec (r.a), b := Src.dec (r.b), c := USrc.dec (r.c) }

/-- Word of BarOp operands under opcode `o`. -/
def encBarOp (o : Nat) (x : BarOp) : RWord :=
  { opc := o, stall := x.h.stall.val, flag := encFlag x.h.flag, guard := x.h.guard.val, gneg := bit x.h.gneg, d := 0, a := 0, b := 0, c := 0, mod := x.bar.val }

/-- BarOp operands of a word. -/
def decBarOp (r : RWord) : Option BarOp :=
  some { h := r.hdr, bar := Fin.ofNat 4 (r.mod % 4) }

/-- Word of BarmArv operands under opcode `o`. -/
def encBarmArv (o : Nat) (x : BarmArv) : RWord :=
  { opc := o, stall := x.h.stall.val, flag := encFlag x.h.flag, guard := x.h.guard.val, gneg := bit x.h.gneg, d := 0, a := x.a.enc, b := 0, c := 0, mod := x.scope.code * 16 }

/-- BarmArv operands of a word. -/
def decBarmArv (r : RWord) : Option BarmArv := do
  let x_scope ← Scope.ofCode (r.mod / 16 % 8)
  some { h := r.hdr, scope := x_scope, a := Src.dec (r.a) }

/-- Word of BarmWait operands under opcode `o`. -/
def encBarmWait (o : Nat) (x : BarmWait) : RWord :=
  { opc := o, stall := x.h.stall.val, flag := encFlag x.h.flag, guard := x.h.guard.val, gneg := bit x.h.gneg, d := encIdx x.stat, a := x.a.enc, b := x.b.enc, c := 0, mod := x.scope.code * 16 + bit x.stat.isSome * 128 }

/-- BarmWait operands of a word. -/
def decBarmWait (r : RWord) : Option BarmWait := do
  let x_scope ← Scope.ofCode (r.mod / 16 % 8)
  some { h := r.hdr, scope := x_scope, stat := if toBit (r.mod / 128) then some (Fin.ofNat 64 r.d) else none, a := Src.dec (r.a), b := Src.dec (r.b) }

/-- Word of Smap operands under opcode `o`. -/
def encSmap (o : Nat) (x : Smap) : RWord :=
  { opc := o, stall := x.h.stall.val, flag := encFlag x.h.flag, guard := x.h.guard.val, gneg := bit x.h.gneg, d := 0, a := x.a.enc, b := x.b.enc, c := x.c.enc, mod := bit x.rw + bit x.retain * 2 }

/-- Smap operands of a word. -/
def decSmap (r : RWord) : Option Smap :=
  some { h := r.hdr, rw := toBit (r.mod % 2), retain := toBit (r.mod / 2 % 2), a := USrc.dec (r.a), b := USrc.dec (r.b), c := USrc.dec (r.c) }

/-- Word of KeyOp operands under opcode `o`. -/
def encKeyOp (o : Nat) (x : KeyOp) : RWord :=
  { opc := o, stall := x.h.stall.val, flag := encFlag x.h.flag, guard := x.h.guard.val, gneg := bit x.h.gneg, d := 0, a := x.a.enc, b := 0, c := 0, mod := 0 }

/-- KeyOp operands of a word. -/
def decKeyOp (r : RWord) : Option KeyOp :=
  some { h := r.hdr, a := USrc.dec (r.a) }

/-- Word of Squery operands under opcode `o`. -/
def encSquery (o : Nat) (x : Squery) : RWord :=
  { opc := o, stall := x.h.stall.val, flag := encFlag x.h.flag, guard := x.h.guard.val, gneg := bit x.h.gneg, d := x.d.enc, a := x.a.enc, b := 0, c := 0, mod := 0 }

/-- Squery operands of a word. -/
def decSquery (r : RWord) : Option Squery :=
  some { h := r.hdr, d := Dst.dec (r.d), a := USrc.dec (r.a) }

/-- Word of Cpy operands under opcode `o`. -/
def encCpy (o : Nat) (x : Cpy) : RWord :=
  { opc := o, stall := x.h.stall.val, flag := encFlag x.h.flag, guard := x.h.guard.val, gneg := bit x.h.gneg, d := x.d.val, a := x.a.enc, b := x.b.enc, c := x.c.enc, mod := x.w.val + x.scope.code * 64 }

/-- Cpy operands of a word. -/
def decCpy (r : RWord) : Option Cpy := do
  let x_scope ← Scope.ofCode (r.mod / 64 % 8)
  some { h := r.hdr, w := Fin.ofNat 64 (r.mod % 64), scope := x_scope, d := Fin.ofNat 64 (r.d), a := Src.dec (r.a), b := Src.dec (r.b), c := USrc.dec (r.c) }

/-- Word of Cpyt operands under opcode `o`. -/
def encCpyt (o : Nat) (x : Cpyt) : RWord :=
  { opc := o, stall := x.h.stall.val, flag := encFlag x.h.flag, guard := x.h.guard.val, gneg := bit x.h.gneg, d := x.d.val, a := x.a.enc, b := x.b.enc, c := x.c.enc, mod := x.w.val + x.scope.code * 64 + bit x.store * 512 }

/-- Cpyt operands of a word. -/
def decCpyt (r : RWord) : Option Cpyt := do
  let x_scope ← Scope.ofCode (r.mod / 64 % 8)
  some { h := r.hdr, w := Fin.ofNat 64 (r.mod % 64), scope := x_scope, store := toBit (r.mod / 512 % 2), d := Fin.ofNat 64 (r.d), a := VSrc.dec (r.a), b := Src.dec (r.b), c := USrc.dec (r.c) }

/-- Word of CpyGS operands under opcode `o`. -/
def encCpyGS (o : Nat) (x : CpyGS) : RWord :=
  { opc := o, stall := x.h.stall.val, flag := encFlag x.h.flag, guard := x.h.guard.val, gneg := bit x.h.gneg, d := x.d.val, a := x.a.enc, b := x.b.enc, c := x.c.enc, mod := x.scope.code * 64 }

/-- CpyGS operands of a word. -/
def decCpyGS (r : RWord) : Option CpyGS := do
  let x_scope ← Scope.ofCode (r.mod / 64 % 8)
  some { h := r.hdr, scope := x_scope, d := Fin.ofNat 64 (r.d), a := USrc.dec (r.a), b := USrc.dec (r.b), c := USrc.dec (r.c) }

/-- Word of KOp operands under opcode `o`. -/
def encKOp (o : Nat) (x : KOp) : RWord :=
  { opc := o, stall := x.h.stall.val, flag := encFlag x.h.flag, guard := x.h.guard.val, gneg := bit x.h.gneg, d := 0, a := x.a.enc, b := 0, c := 0, mod := 0 }

/-- KOp operands of a word. -/
def decKOp (r : RWord) : Option KOp :=
  some { h := r.hdr, a := USrc.dec (r.a) }

/-- Word of Twait operands under opcode `o`. -/
def encTwait (o : Nat) (x : Twait) : RWord :=
  { opc := o, stall := x.h.stall.val, flag := encFlag x.h.flag, guard := x.h.guard.val, gneg := bit x.h.gneg, d := 0, a := x.a.enc, b := 0, c := 0, mod := bit x.all }

/-- Twait operands of a word. -/
def decTwait (r : RWord) : Option Twait :=
  some { h := r.hdr, all := toBit (r.mod % 2), a := USrc.dec (r.a) }

/-- Word of Tffr operands under opcode `o`. -/
def encTffr (o : Nat) (x : Tffr) : RWord :=
  { opc := o, stall := x.h.stall.val, flag := encFlag x.h.flag, guard := x.h.guard.val, gneg := bit x.h.gneg, d := x.d.enc, a := x.a.enc, b := 0, c := 0, mod := 0 }

/-- Tffr operands of a word. -/
def decTffr (r : RWord) : Option Tffr :=
  some { h := r.hdr, d := Dst.dec (r.d), a := USrc.dec (r.a) }

/-- Word of Cntwait operands under opcode `o`. -/
def encCntwait (o : Nat) (x : Cntwait) : RWord :=
  { opc := o, stall := x.h.stall.val, flag := encFlag x.h.flag, guard := x.h.guard.val, gneg := bit x.h.gneg, d := x.d.enc, a := x.a.enc, b := x.b.enc, c := x.c.enc, mod := x.scope.code * 16 }

/-- Cntwait operands of a word. -/
def decCntwait (r : RWord) : Option Cntwait := do
  let x_scope ← Scope.ofCode (r.mod / 16 % 8)
  some { h := r.hdr, scope := x_scope, d := Dst.dec (r.d), a := USrc.dec (r.a), b := USrc.dec (r.b), c := USrc.dec (r.c) }

/-- Word of Gset operands under opcode `o`. -/
def encGset (o : Nat) (x : Gset) : RWord :=
  { opc := o, stall := x.h.stall.val, flag := encFlag x.h.flag, guard := x.h.guard.val, gneg := bit x.h.gneg, d := x.g.val, a := x.a.enc, b := x.b.enc, c := 0, mod := 0 }

/-- Gset operands of a word. -/
def decGset (r : RWord) : Option Gset :=
  some { h := r.hdr, g := Fin.ofNat 16 (r.d), a := USrc.dec (r.a), b := USrc.dec (r.b) }

/-- Word of Gcnt operands under opcode `o`. -/
def encGcnt (o : Nat) (x : Gcnt) : RWord :=
  { opc := o, stall := x.h.stall.val, flag := encFlag x.h.flag, guard := x.h.guard.val, gneg := bit x.h.gneg, d := x.d.enc, a := x.g.val, b := 0, c := 0, mod := 0 }

/-- Gcnt operands of a word. -/
def decGcnt (r : RWord) : Option Gcnt :=
  some { h := r.hdr, d := Dst.dec (r.d), g := Fin.ofNat 16 (r.a) }

/-- Word of Acfg operands under opcode `o`. -/
def encAcfg (o : Nat) (x : Acfg) : RWord :=
  { opc := o, stall := x.h.stall.val, flag := encFlag x.h.flag, guard := x.h.guard.val, gneg := bit x.h.gneg, d := 0, a := x.a.enc, b := 0, c := 0, mod := bit x.discard }

/-- Acfg operands of a word. -/
def decAcfg (r : RWord) : Option Acfg :=
  some { h := r.hdr, discard := toBit (r.mod % 2), a := USrc.dec (r.a) }

/-- Word of Mma operands under opcode `o`. -/
def encMma (o : Nat) (x : Mma) : RWord :=
  { opc := o, stall := x.h.stall.val, flag := encFlag x.h.flag, guard := x.h.guard.val, gneg := bit x.h.gneg, d := x.tile.val, a := x.ga.val, b := x.gb.val, c := encIdx x.tag, mod := x.shape.code + bit x.z * 4 + bit x.tag.isSome * 8 }

/-- Mma operands of a word. -/
def decMma (r : RWord) : Option Mma := do
  let x_shape ← MShape.ofCode (r.mod % 4)
  some { h := r.hdr, shape := x_shape, z := toBit (r.mod / 4 % 2), tag := if toBit (r.mod / 8) then some (Fin.ofNat 64 r.c) else none, tile := Fin.ofNat 32 (r.d), ga := Fin.ofNat 16 (r.a), gb := Fin.ofNat 16 (r.b) }

/-- Word of AccLd operands under opcode `o`. -/
def encAccLd (o : Nat) (x : AccLd) : RWord :=
  { opc := o, stall := x.h.stall.val, flag := encFlag x.h.flag, guard := x.h.guard.val, gneg := bit x.h.gneg, d := x.d.val, a := x.tile.val, b := x.b.enc, c := 0, mod := bit x.wide * 3 }

/-- AccLd operands of a word. -/
def decAccLd (r : RWord) : Option AccLd :=
  some { h := r.hdr, wide := toBit r.mod, d := Fin.ofNat 64 (r.d), tile := Fin.ofNat 32 (r.a), b := USrc.dec (r.b) }

/-- Word of AccSt operands under opcode `o`. -/
def encAccSt (o : Nat) (x : AccSt) : RWord :=
  { opc := o, stall := x.h.stall.val, flag := encFlag x.h.flag, guard := x.h.guard.val, gneg := bit x.h.gneg, d := x.tile.val, a := x.a.enc, b := x.b.enc, c := 0, mod := bit x.wide * 3 }

/-- AccSt operands of a word. -/
def decAccSt (r : RWord) : Option AccSt :=
  some { h := r.hdr, wide := toBit r.mod, tile := Fin.ofNat 32 (r.d), a := VSrc.dec (r.a), b := USrc.dec (r.b) }

/-- Word of AccZero operands under opcode `o`. -/
def encAccZero (o : Nat) (x : AccZero) : RWord :=
  { opc := o, stall := x.h.stall.val, flag := encFlag x.h.flag, guard := x.h.guard.val, gneg := bit x.h.gneg, d := x.tile.val, a := 0, b := 0, c := 0, mod := x.shape.code + bit x.wide * 4 }

/-- AccZero operands of a word. -/
def decAccZero (r : RWord) : Option AccZero := do
  let x_shape ← MShape.ofCode (r.mod % 4)
  some { h := r.hdr, shape := x_shape, wide := toBit (r.mod / 4 % 2), tile := Fin.ofNat 32 (r.d) }

/-- Word of AccMov operands under opcode `o`. -/
def encAccMov (o : Nat) (x : AccMov) : RWord :=
  { opc := o, stall := x.h.stall.val, flag := encFlag x.h.flag, guard := x.h.guard.val, gneg := bit x.h.gneg, d := x.tile.val, a := x.a.enc, b := x.b.enc, c := 0, mod := x.t.code + bit x.froms * 16 + x.rm.code * 32 }

/-- AccMov operands of a word. -/
def decAccMov (r : RWord) : Option AccMov := do
  let x_t ← FTy.ofCode (r.mod % 16)
  let x_rm ← RM.ofCode (r.mod / 32 % 8)
  some { h := r.hdr, t := x_t, froms := toBit (r.mod / 16 % 2), rm := x_rm, tile := Fin.ofNat 32 (r.d), a := USrc.dec (r.a), b := USrc.dec (r.b) }

/-- Word of DOp operands under opcode `o`. -/
def encDOp (o : Nat) (x : DOp) : RWord :=
  { opc := o, stall := x.h.stall.val, flag := encFlag x.h.flag, guard := x.h.guard.val, gneg := bit x.h.gneg, d := x.d.enc, a := 0, b := 0, c := 0, mod := 0 }

/-- DOp operands of a word. -/
def decDOp (r : RWord) : Option DOp :=
  some { h := r.hdr, d := Dst.dec (r.d) }

/-- Word of Bra operands under opcode `o`. -/
def encBra (o : Nat) (x : Bra) : IWord :=
  { opc := o, stall := x.h.stall.val, flag := encFlag x.h.flag, guard := x.h.guard.val, gneg := bit x.h.gneg, d := 0, a := 0, imm := x.imm.toNat, size := 0 }

/-- Bra operands of a word. -/
def decBra (r : IWord) : Option Bra :=
  if r.size = 0 then some { h := r.hdr, imm := BitVec.ofNat 24 (r.imm) } else none

/-- Word of Brx operands under opcode `o`. -/
def encBrx (o : Nat) (x : Brx) : RWord :=
  { opc := o, stall := x.h.stall.val, flag := encFlag x.h.flag, guard := x.h.guard.val, gneg := bit x.h.gneg, d := 0, a := x.a.enc, b := 0, c := 0, mod := 0 }

/-- Brx operands of a word. -/
def decBrx (r : RWord) : Option Brx :=
  some { h := r.hdr, a := Src.dec (r.a) }

/-- Word of Ret operands under opcode `o`. -/
def encRet (o : Nat) (x : Ret) : RWord :=
  { opc := o, stall := x.h.stall.val, flag := encFlag x.h.flag, guard := x.h.guard.val, gneg := bit x.h.gneg, d := 0, a := x.a.enc, b := 0, c := 0, mod := 0 }

/-- Ret operands of a word. -/
def decRet (r : RWord) : Option Ret :=
  some { h := r.hdr, a := VSrc.dec (r.a) }

/-- Word of CodeOp operands under opcode `o`. -/
def encCodeOp (o : Nat) (x : CodeOp) : IWord :=
  { opc := o, stall := x.h.stall.val, flag := encFlag x.h.flag, guard := x.h.guard.val, gneg := bit x.h.gneg, d := 0, a := 0, imm := x.imm.toNat, size := 0 }

/-- CodeOp operands of a word. -/
def decCodeOp (r : IWord) : Option CodeOp :=
  if r.size = 0 then some { h := r.hdr, imm := BitVec.ofNat 24 (r.imm) } else none

/-- Word of Svc operands under opcode `o`. -/
def encSvc (o : Nat) (x : Svc) : IWord :=
  { opc := o, stall := x.h.stall.val, flag := encFlag x.h.flag, guard := x.h.guard.val, gneg := bit x.h.gneg, d := 0, a := x.a.enc, imm := x.code.toNat, size := 0 }

/-- Svc operands of a word. -/
def decSvc (r : IWord) : Option Svc :=
  if r.size = 0 then some { h := r.hdr, code := BitVec.ofNat 8 (r.imm), a := USrc.dec (r.a) } else none

/-- Word of Csrr operands under opcode `o`. -/
def encCsrr (o : Nat) (x : Csrr) : IWord :=
  { opc := o, stall := x.h.stall.val, flag := encFlag x.h.flag, guard := x.h.guard.val, gneg := bit x.h.gneg, d := x.d.enc, a := 0, imm := x.ix.toNat, size := 0 }

/-- Csrr operands of a word. -/
def decCsrr (r : IWord) : Option Csrr :=
  if r.size = 0 then some { h := r.hdr, d := Dst.dec (r.d), ix := BitVec.ofNat 12 (r.imm) } else none

/-- Word of Csrw operands under opcode `o`. -/
def encCsrw (o : Nat) (x : Csrw) : IWord :=
  { opc := o, stall := x.h.stall.val, flag := encFlag x.h.flag, guard := x.h.guard.val, gneg := bit x.h.gneg, d := 0, a := x.a.enc, imm := x.ix.toNat, size := 0 }

/-- Csrw operands of a word. -/
def decCsrw (r : IWord) : Option Csrw :=
  if r.size = 0 then some { h := r.hdr, a := USrc.dec (r.a), ix := BitVec.ofNat 12 (r.imm) } else none

/-- Word of Launch operands under opcode `o`. -/
def encLaunch (o : Nat) (x : Launch) : RWord :=
  { opc := o, stall := x.h.stall.val, flag := encFlag x.h.flag, guard := x.h.guard.val, gneg := bit x.h.gneg, d := x.d.enc, a := x.a.enc, b := 0, c := 0, mod := 0 }

/-- Launch operands of a word. -/
def decLaunch (r : RWord) : Option Launch :=
  some { h := r.hdr, d := Dst.dec (r.d), a := USrc.dec (r.a) }

/-- Word of Lwait operands under opcode `o`. -/
def encLwait (o : Nat) (x : Lwait) : RWord :=
  { opc := o, stall := x.h.stall.val, flag := encFlag x.h.flag, guard := x.h.guard.val, gneg := bit x.h.gneg, d := 0, a := encOff x.a, b := 0, c := 0, mod := bit x.a.isNone }

/-- Lwait operands of a word. -/
def decLwait (r : RWord) : Option Lwait :=
  some { h := r.hdr, a := if toBit r.mod then none else some (USrc.dec r.a) }

/-- Word of Trapret operands under opcode `o`. -/
def encTrapret (o : Nat) (x : Trapret) : RWord :=
  { opc := o, stall := x.h.stall.val, flag := encFlag x.h.flag, guard := x.h.guard.val, gneg := bit x.h.gneg, d := 0, a := 0, b := 0, c := 0, mod := x.mode.code }

/-- Trapret operands of a word. -/
def decTrapret (r : RWord) : Option Trapret := do
  let x_mode ← RetMode.ofCode (r.mod % 4)
  some { h := r.hdr, mode := x_mode }

/-- The word of an instruction, from the encoding tables; the constant of an L-form stands in the next
slot (`Instr.constant`). Events and service calls have no word. -/
def encode : Instr → Option Nat
  | .iadd x => some (encInt2 0x000 x).word
  | .isub x => some (encInt2 0x001 x).word
  | .iaddc x => some (encAddc 0x002 x).word
  | .ineg x => some (encInt1 0x003 x).word
  | .iabs x => some (encInt1 0x004 x).word
  | .imul x => some (encInt2 0x005 x).word
  | .imulh x => some (encBin 0x006 x).word
  | .imad x => some (encInt3 0x007 x).word
  | .imadw x => some (encTern 0x008 x).word
  | .idiv x => some (encBin 0x009 x).word
  | .irem x => some (encBin 0x00A x).word
  | .imin x => some (encBin 0x00B x).word
  | .imax x => some (encBin 0x00C x).word
  | .iclamp x => some (encTern 0x00D x).word
  | .icmp x => some (encCmp 0x00E x).word
  | .and x => some (encBin 0x00F x).word
  | .or x => some (encBin 0x010 x).word
  | .xor x => some (encBin 0x011 x).word
  | .not x => some (encUn 0x012 x).word
  | .logt x => some (encLogt 0x013 x).word
  | .shl x => some (encBin 0x014 x).word
  | .shr x => some (encBin 0x015 x).word
  | .sar x => some (encBin 0x016 x).word
  | .rol x => some (encBin 0x017 x).word
  | .fshl x => some (encTern 0x018 x).word
  | .popc x => some (encUn 0x019 x).word
  | .clz x => some (encUn 0x01A x).word
  | .ctz x => some (encUn 0x01B x).word
  | .brev x => some (encUn 0x01C x).word
  | .bfx x => some (encBin 0x01D x).word
  | .bfi x => some (encTern 0x01E x).word
  | .bysel x => some (encBysel 0x01F x).word
  | .lea x => some (encLea 0x020 x).word
  | .mov x => some (encUn 0x021 x).word
  | .sel x => some (encSelOp 0x022 x).word
  | .plop x => some (encPlop 0x023 x).word
  | .movs x => some (encMovS 0x024 x).word
  | .iaddI x => some (encIntI 0x040 x).word
  | .isubI x => some (encIntI 0x041 x).word
  | .imulI x => some (encIntI 0x042 x).word
  | .imulhI x => some (encIntI 0x043 x).word
  | .idivI x => some (encIntI 0x044 x).word
  | .iremI x => some (encIntI 0x045 x).word
  | .iminI x => some (encIntI 0x046 x).word
  | .imaxI x => some (encIntI 0x047 x).word
  | .icmpI x => some (encCmpI 0x048 x).word
  | .andI x => some (encIntI 0x04E x).word
  | .orI x => some (encIntI 0x04F x).word
  | .xorI x => some (encIntI 0x050 x).word
  | .shlI x => some (encIntI 0x051 x).word
  | .shrI x => some (encIntI 0x052 x).word
  | .sarI x => some (encIntI 0x053 x).word
  | .rolI x => some (encIntI 0x054 x).word
  | .bfxI x => some (encIntI 0x055 x).word
  | .byselI x => some (encByselI 0x056 x).word
  | .leaI x => some (encIntI 0x057 x).word
  | .movi x => some (encMovI 0x058 x).word
  | .iaddL x => some (encIntL 0x060 x).word
  | .isubL x => some (encIntL 0x061 x).word
  | .imulL x => some (encIntL 0x062 x).word
  | .imulhL x => some (encIntL 0x063 x).word
  | .idivL x => some (encIntL 0x064 x).word
  | .iremL x => some (encIntL 0x065 x).word
  | .iminL x => some (encIntL 0x066 x).word
  | .imaxL x => some (encIntL 0x067 x).word
  | .icmpL x => some (encCmpL 0x068 x).word
  | .andL x => some (encIntL 0x06E x).word
  | .orL x => some (encIntL 0x06F x).word
  | .xorL x => some (encIntL 0x070 x).word
  | .shlL x => some (encIntL 0x071 x).word
  | .shrL x => some (encIntL 0x072 x).word
  | .sarL x => some (encIntL 0x073 x).word
  | .rolL x => some (encIntL 0x074 x).word
  | .bfxL x => some (encIntL 0x075 x).word
  | .byselL x => some (encByselL 0x076 x).word
  | .leaL x => some (encIntL 0x077 x).word
  | .movl x => some (encMovL 0x078 x).word
  | .fadd x => some (encFBin 0x080 x).word
  | .fsub x => some (encFBin 0x081 x).word
  | .fmul x => some (encFBin 0x082 x).word
  | .ffma x => some (encFTern 0x083 x).word
  | .fmin x => some (encFMM 0x084 x).word
  | .fmax x => some (encFMM 0x085 x).word
  | .fcmp x => some (encFCmp 0x086 x).word
  | .fclass x => some (encFCls 0x087 x).word
  | .frnd x => some (encFUn 0x088 x).word
  | .fscale x => some (encFBin 0x089 x).word
  | .fdiv x => some (encFBin 0x08A x).word
  | .fsqrt x => some (encFUn 0x08B x).word
  | .frcp x => some (encFUn 0x08C x).word
  | .frsq x => some (encFUn 0x08D x).word
  | .fexp2 x => some (encFUn 0x08E x).word
  | .flog2 x => some (encFUn 0x08F x).word
  | .fsinpi x => some (encFUn 0x090 x).word
  | .fcospi x => some (encFUn 0x091 x).word
  | .hadd2 x => some (encFBin 0x092 x).word
  | .hmul2 x => some (encFBin 0x093 x).word
  | .hfma2 x => some (encFTern 0x094 x).word
  | .dot2 x => some (encDot2 0x095 x).word
  | .dot4 x => some (encDot4 0x096 x).word
  | .faddI x => some (encFI 0x0C0 x).word
  | .fsubI x => some (encFI 0x0C1 x).word
  | .fmulI x => some (encFI 0x0C2 x).word
  | .fminI x => some (encFI 0x0C3 x).word
  | .fmaxI x => some (encFI 0x0C4 x).word
  | .fcmpI x => some (encFCmpI 0x0C5 x).word
  | .fscaleI x => some (encFI 0x0CB x).word
  | .faddL x => some (encFL 0x0E0 x).word
  | .fsubL x => some (encFL 0x0E1 x).word
  | .fmulL x => some (encFL 0x0E2 x).word
  | .fminL x => some (encFL 0x0E3 x).word
  | .fmaxL x => some (encFL 0x0E4 x).word
  | .fcmpL x => some (encFCmpL 0x0E5 x).word
  | .fscaleL x => some (encFL 0x0EB x).word
  | .faddF64 x => some (encFBin 0x100 x).word
  | .fsubF64 x => some (encFBin 0x101 x).word
  | .fmulF64 x => some (encFBin 0x102 x).word
  | .ffmaF64 x => some (encFTern 0x103 x).word
  | .fminF64 x => some (encFMM 0x104 x).word
  | .fmaxF64 x => some (encFMM 0x105 x).word
  | .fcmpF64 x => some (encFCmp 0x106 x).word
  | .fclassF64 x => some (encFCls 0x107 x).word
  | .frndF64 x => some (encFUn 0x108 x).word
  | .fscaleF64 x => some (encFBin 0x109 x).word
  | .fdivF64 x => some (encFBin 0x10A x).word
  | .fsqrtF64 x => some (encFUn 0x10B x).word
  | .frcpF64 x => some (encFUn 0x10C x).word
  | .cvt x => some (encCvt 0x120 x).word
  | .faddF64I x => some (encFI 0x140 x).word
  | .fsubF64I x => some (encFI 0x141 x).word
  | .fmulF64I x => some (encFI 0x142 x).word
  | .fminF64I x => some (encFI 0x143 x).word
  | .fmaxF64I x => some (encFI 0x144 x).word
  | .fcmpF64I x => some (encFCmpI 0x145 x).word
  | .fscaleF64I x => some (encFI 0x14B x).word
  | .faddF64L x => some (encFL 0x160 x).word
  | .fsubF64L x => some (encFL 0x161 x).word
  | .fmulF64L x => some (encFL 0x162 x).word
  | .fminF64L x => some (encFL 0x163 x).word
  | .fmaxF64L x => some (encFL 0x164 x).word
  | .fcmpF64L x => some (encFCmpL 0x165 x).word
  | .fscaleF64L x => some (encFL 0x16B x).word
  | .lxch x => some (encLxch 0x180 x).word
  | .vote x => some (encVote 0x181 x).word
  | .ballot x => some (encBallot 0x182 x).word
  | .redux x => some (encRedux 0x183 x).word
  | .scan x => some (encScanOp 0x184 x).word
  | .matchOp x => some (encMatchOp 0x185 x).word
  | .qblk x => some (encQblk 0x188 x).word
  | .qunpk x => some (encQunpk 0x189 x).word
  | .amax x => some (encAmax 0x18A x).word
  | .shape x => some (encShapeOp 0x190 x).word
  | .mat x => some (encBare 0x191 x).word
  | .lxchI x => some (encLxchI 0x1C0 x).word
  | .ld x => some (encLdR 0x200 x).word
  | .ldu x => some (encLduR 0x201 x).word
  | .st x => some (encStR 0x202 x).word
  | .atom x => some (encAtom 0x203 x).word
  | .red x => some (encRedM 0x204 x).word
  | .pref x => some (encPrefR 0x205 x).word
  | .cctl x => some (encCctl 0x206 x).word
  | .ldI x => some (encLdI 0x240 x).word
  | .lduI x => some (encLduI 0x241 x).word
  | .stI x => some (encStI 0x242 x).word
  | .prefI x => some (encPrefI 0x243 x).word
  | .ldL x => some (encLdL 0x260 x).word
  | .lduL x => some (encLduL 0x261 x).word
  | .stL x => some (encStL 0x262 x).word
  | .prefL x => some (encPrefL 0x263 x).word
  | .fence x => some (encFence 0x280 x).word
  | .phclose x => some (encPhclose 0x281 x).word
  | .phwait x => some (encPhwait 0x282 x).word
  | .waitv x => some (encWaitv 0x283 x).word
  | .barArv x => some (encBarOp 0x284 x).word
  | .barWait x => some (encBarOp 0x285 x).word
  | .barmArv x => some (encBarmArv 0x286 x).word
  | .barmWait x => some (encBarmWait 0x287 x).word
  | .smap x => some (encSmap 0x288 x).word
  | .sunmap x => some (encKeyOp 0x289 x).word
  | .sflush x => some (encKeyOp 0x28A x).word
  | .sfill x => some (encKeyOp 0x28B x).word
  | .sdiscard x => some (encKeyOp 0x28C x).word
  | .squery x => some (encSquery 0x28D x).word
  | .cpy x => some (encCpy 0x300 x).word
  | .cpyt x => some (encCpyt 0x301 x).word
  | .cpyg x => some (encCpyGS 0x302 x).word
  | .cpys x => some (encCpyGS 0x303 x).word
  | .copyq x => some (encKOp 0x304 x).word
  | .twait x => some (encTwait 0x305 x).word
  | .tffr x => some (encTffr 0x306 x).word
  | .tclr x => some (encKOp 0x307 x).word
  | .cntwait x => some (encCntwait 0x308 x).word
  | .gset x => some (encGset 0x310 x).word
  | .gcnt x => some (encGcnt 0x311 x).word
  | .acfg x => some (encAcfg 0x312 x).word
  | .mma x => some (encMma 0x313 x).word
  | .accLd x => some (encAccLd 0x314 x).word
  | .accSt x => some (encAccSt 0x315 x).word
  | .accZero x => some (encAccZero 0x316 x).word
  | .accMov x => some (encAccMov 0x317 x).word
  | .mprog x => some (encDOp 0x318 x).word
  | .brx x => some (encBrx 0x380 x).word
  | .callx x => some (encBrx 0x381 x).word
  | .ret x => some (encRet 0x382 x).word
  | .joinpt x => some (encBare 0x383 x).word
  | .sync x => some (encBare 0x384 x).word
  | .exit x => some (encGBare 0x385 x).word
  | .yield x => some (encBare 0x386 x).word
  | .sjoin x => some (encBare 0x387 x).word
  | .launch x => some (encLaunch 0x390 x).word
  | .lwait x => some (encLwait 0x391 x).word
  | .trapret x => some (encTrapret 0x392 x).word
  | .nop x => some (encBare 0x393 x).word
  | .bra x => some (encBra 0x3C0 x).word
  | .call x => some (encBra 0x3C1 x).word
  | .trap x => some (encCodeOp 0x3C2 x).word
  | .brk x => some (encCodeOp 0x3C3 x).word
  | .svc x => some (encSvc 0x3C4 x).word
  | .csrr x => some (encCsrr 0x3C5 x).word
  | .csrw x => some (encCsrw 0x3C6 x).word
  | _ => none

/-- The constant slot of an L-form (R89). -/
def Instr.constant : Instr → Option W64
  | .iaddL x => some x.k
  | .isubL x => some x.k
  | .imulL x => some x.k
  | .imulhL x => some x.k
  | .idivL x => some x.k
  | .iremL x => some x.k
  | .iminL x => some x.k
  | .imaxL x => some x.k
  | .icmpL x => some x.k
  | .andL x => some x.k
  | .orL x => some x.k
  | .xorL x => some x.k
  | .shlL x => some x.k
  | .shrL x => some x.k
  | .sarL x => some x.k
  | .rolL x => some x.k
  | .bfxL x => some x.k
  | .byselL x => some x.k
  | .leaL x => some x.k
  | .movl x => some x.k
  | .faddL x => some x.k
  | .fsubL x => some x.k
  | .fmulL x => some x.k
  | .fminL x => some x.k
  | .fmaxL x => some x.k
  | .fcmpL x => some x.k
  | .fscaleL x => some x.k
  | .faddF64L x => some x.k
  | .fsubF64L x => some x.k
  | .fmulF64L x => some x.k
  | .fminF64L x => some x.k
  | .fmaxF64L x => some x.k
  | .fcmpF64L x => some x.k
  | .fscaleF64L x => some x.k
  | .ldL x => some x.k
  | .lduL x => some x.k
  | .stL x => some x.k
  | .prefL x => some x.k
  | _ => none

/-- Group 0 of the opcode map (R90, R91): the instruction whose fields the word holds. -/
def parse0 (opc w : Nat) (k : Option W64) : Option Instr :=
  match opc with
  | 0x000 => (decInt2 (RWord.of w)).map .iadd
  | 0x001 => (decInt2 (RWord.of w)).map .isub
  | 0x002 => (decAddc (RWord.of w)).map .iaddc
  | 0x003 => (decInt1 (RWord.of w)).map .ineg
  | 0x004 => (decInt1 (RWord.of w)).map .iabs
  | 0x005 => (decInt2 (RWord.of w)).map .imul
  | 0x006 => (decBin (RWord.of w)).map .imulh
  | 0x007 => (decInt3 (RWord.of w)).map .imad
  | 0x008 => (decTern (RWord.of w)).map .imadw
  | 0x009 => (decBin (RWord.of w)).map .idiv
  | 0x00A => (decBin (RWord.of w)).map .irem
  | 0x00B => (decBin (RWord.of w)).map .imin
  | 0x00C => (decBin (RWord.of w)).map .imax
  | 0x00D => (decTern (RWord.of w)).map .iclamp
  | 0x00E => (decCmp (RWord.of w)).map .icmp
  | 0x00F => (decBin (RWord.of w)).map .and
  | 0x010 => (decBin (RWord.of w)).map .or
  | 0x011 => (decBin (RWord.of w)).map .xor
  | 0x012 => (decUn (RWord.of w)).map .not
  | 0x013 => (decLogt (RWord.of w)).map .logt
  | 0x014 => (decBin (RWord.of w)).map .shl
  | 0x015 => (decBin (RWord.of w)).map .shr
  | 0x016 => (decBin (RWord.of w)).map .sar
  | 0x017 => (decBin (RWord.of w)).map .rol
  | 0x018 => (decTern (RWord.of w)).map .fshl
  | 0x019 => (decUn (RWord.of w)).map .popc
  | 0x01A => (decUn (RWord.of w)).map .clz
  | 0x01B => (decUn (RWord.of w)).map .ctz
  | 0x01C => (decUn (RWord.of w)).map .brev
  | 0x01D => (decBin (RWord.of w)).map .bfx
  | 0x01E => (decTern (RWord.of w)).map .bfi
  | 0x01F => (decBysel (RWord.of w)).map .bysel
  | 0x020 => (decLea (RWord.of w)).map .lea
  | 0x021 => (decUn (RWord.of w)).map .mov
  | 0x022 => (decSelOp (RWord.of w)).map .sel
  | 0x023 => (decPlop (RWord.of w)).map .plop
  | 0x024 => (decMovS (RWord.of w)).map .movs
  | 0x040 => (decIntI (IWord.of w)).map .iaddI
  | 0x041 => (decIntI (IWord.of w)).map .isubI
  | 0x042 => (decIntI (IWord.of w)).map .imulI
  | 0x043 => (decIntI (IWord.of w)).map .imulhI
  | 0x044 => (decIntI (IWord.of w)).map .idivI
  | 0x045 => (decIntI (IWord.of w)).map .iremI
  | 0x046 => (decIntI (IWord.of w)).map .iminI
  | 0x047 => (decIntI (IWord.of w)).map .imaxI
  | 0x048 => (decCmpI 0x048 (IWord.of w)).map .icmpI
  | 0x049 => (decCmpI 0x048 (IWord.of w)).map .icmpI
  | 0x04A => (decCmpI 0x048 (IWord.of w)).map .icmpI
  | 0x04B => (decCmpI 0x048 (IWord.of w)).map .icmpI
  | 0x04C => (decCmpI 0x048 (IWord.of w)).map .icmpI
  | 0x04D => (decCmpI 0x048 (IWord.of w)).map .icmpI
  | 0x04E => (decIntI (IWord.of w)).map .andI
  | 0x04F => (decIntI (IWord.of w)).map .orI
  | 0x050 => (decIntI (IWord.of w)).map .xorI
  | 0x051 => (decIntI (IWord.of w)).map .shlI
  | 0x052 => (decIntI (IWord.of w)).map .shrI
  | 0x053 => (decIntI (IWord.of w)).map .sarI
  | 0x054 => (decIntI (IWord.of w)).map .rolI
  | 0x055 => (decIntI (IWord.of w)).map .bfxI
  | 0x056 => (decByselI (IWord.of w)).map .byselI
  | 0x057 => (decIntI (IWord.of w)).map .leaI
  | 0x058 => (decMovI (IWord.of w)).map .movi
  | 0x060 => k.bind fun k => (decIntL (IWord.of w) k).map .iaddL
  | 0x061 => k.bind fun k => (decIntL (IWord.of w) k).map .isubL
  | 0x062 => k.bind fun k => (decIntL (IWord.of w) k).map .imulL
  | 0x063 => k.bind fun k => (decIntL (IWord.of w) k).map .imulhL
  | 0x064 => k.bind fun k => (decIntL (IWord.of w) k).map .idivL
  | 0x065 => k.bind fun k => (decIntL (IWord.of w) k).map .iremL
  | 0x066 => k.bind fun k => (decIntL (IWord.of w) k).map .iminL
  | 0x067 => k.bind fun k => (decIntL (IWord.of w) k).map .imaxL
  | 0x068 => k.bind fun k => (decCmpL 0x068 (IWord.of w) k).map .icmpL
  | 0x069 => k.bind fun k => (decCmpL 0x068 (IWord.of w) k).map .icmpL
  | 0x06A => k.bind fun k => (decCmpL 0x068 (IWord.of w) k).map .icmpL
  | 0x06B => k.bind fun k => (decCmpL 0x068 (IWord.of w) k).map .icmpL
  | 0x06C => k.bind fun k => (decCmpL 0x068 (IWord.of w) k).map .icmpL
  | 0x06D => k.bind fun k => (decCmpL 0x068 (IWord.of w) k).map .icmpL
  | 0x06E => k.bind fun k => (decIntL (IWord.of w) k).map .andL
  | 0x06F => k.bind fun k => (decIntL (IWord.of w) k).map .orL
  | 0x070 => k.bind fun k => (decIntL (IWord.of w) k).map .xorL
  | 0x071 => k.bind fun k => (decIntL (IWord.of w) k).map .shlL
  | 0x072 => k.bind fun k => (decIntL (IWord.of w) k).map .shrL
  | 0x073 => k.bind fun k => (decIntL (IWord.of w) k).map .sarL
  | 0x074 => k.bind fun k => (decIntL (IWord.of w) k).map .rolL
  | 0x075 => k.bind fun k => (decIntL (IWord.of w) k).map .bfxL
  | 0x076 => k.bind fun k => (decByselL (IWord.of w) k).map .byselL
  | 0x077 => k.bind fun k => (decIntL (IWord.of w) k).map .leaL
  | 0x078 => k.bind fun k => (decMovL (IWord.of w) k).map .movl
  | _ => none

/-- Group 1 of the opcode map (R90, R91): the instruction whose fields the word holds. -/
def parse1 (opc w : Nat) (k : Option W64) : Option Instr :=
  match opc with
  | 0x080 => (decFBin (RWord.of w)).map .fadd
  | 0x081 => (decFBin (RWord.of w)).map .fsub
  | 0x082 => (decFBin (RWord.of w)).map .fmul
  | 0x083 => (decFTern (RWord.of w)).map .ffma
  | 0x084 => (decFMM (RWord.of w)).map .fmin
  | 0x085 => (decFMM (RWord.of w)).map .fmax
  | 0x086 => (decFCmp (RWord.of w)).map .fcmp
  | 0x087 => (decFCls (RWord.of w)).map .fclass
  | 0x088 => (decFUn (RWord.of w)).map .frnd
  | 0x089 => (decFBin (RWord.of w)).map .fscale
  | 0x08A => (decFBin (RWord.of w)).map .fdiv
  | 0x08B => (decFUn (RWord.of w)).map .fsqrt
  | 0x08C => (decFUn (RWord.of w)).map .frcp
  | 0x08D => (decFUn (RWord.of w)).map .frsq
  | 0x08E => (decFUn (RWord.of w)).map .fexp2
  | 0x08F => (decFUn (RWord.of w)).map .flog2
  | 0x090 => (decFUn (RWord.of w)).map .fsinpi
  | 0x091 => (decFUn (RWord.of w)).map .fcospi
  | 0x092 => (decFBin (RWord.of w)).map .hadd2
  | 0x093 => (decFBin (RWord.of w)).map .hmul2
  | 0x094 => (decFTern (RWord.of w)).map .hfma2
  | 0x095 => (decDot2 (RWord.of w)).map .dot2
  | 0x096 => (decDot4 (RWord.of w)).map .dot4
  | 0x0C0 => (decFI (IWord.of w)).map .faddI
  | 0x0C1 => (decFI (IWord.of w)).map .fsubI
  | 0x0C2 => (decFI (IWord.of w)).map .fmulI
  | 0x0C3 => (decFI (IWord.of w)).map .fminI
  | 0x0C4 => (decFI (IWord.of w)).map .fmaxI
  | 0x0C5 => (decFCmpI 0x0C5 (IWord.of w)).map .fcmpI
  | 0x0C6 => (decFCmpI 0x0C5 (IWord.of w)).map .fcmpI
  | 0x0C7 => (decFCmpI 0x0C5 (IWord.of w)).map .fcmpI
  | 0x0C8 => (decFCmpI 0x0C5 (IWord.of w)).map .fcmpI
  | 0x0C9 => (decFCmpI 0x0C5 (IWord.of w)).map .fcmpI
  | 0x0CA => (decFCmpI 0x0C5 (IWord.of w)).map .fcmpI
  | 0x0CB => (decFI (IWord.of w)).map .fscaleI
  | 0x0E0 => k.bind fun k => (decFL (IWord.of w) k).map .faddL
  | 0x0E1 => k.bind fun k => (decFL (IWord.of w) k).map .fsubL
  | 0x0E2 => k.bind fun k => (decFL (IWord.of w) k).map .fmulL
  | 0x0E3 => k.bind fun k => (decFL (IWord.of w) k).map .fminL
  | 0x0E4 => k.bind fun k => (decFL (IWord.of w) k).map .fmaxL
  | 0x0E5 => k.bind fun k => (decFCmpL 0x0E5 (IWord.of w) k).map .fcmpL
  | 0x0E6 => k.bind fun k => (decFCmpL 0x0E5 (IWord.of w) k).map .fcmpL
  | 0x0E7 => k.bind fun k => (decFCmpL 0x0E5 (IWord.of w) k).map .fcmpL
  | 0x0E8 => k.bind fun k => (decFCmpL 0x0E5 (IWord.of w) k).map .fcmpL
  | 0x0E9 => k.bind fun k => (decFCmpL 0x0E5 (IWord.of w) k).map .fcmpL
  | 0x0EA => k.bind fun k => (decFCmpL 0x0E5 (IWord.of w) k).map .fcmpL
  | 0x0EB => k.bind fun k => (decFL (IWord.of w) k).map .fscaleL
  | _ => none

/-- Group 2 of the opcode map (R90, R91): the instruction whose fields the word holds. -/
def parse2 (opc w : Nat) (k : Option W64) : Option Instr :=
  match opc with
  | 0x100 => (decFBin (RWord.of w)).map .faddF64
  | 0x101 => (decFBin (RWord.of w)).map .fsubF64
  | 0x102 => (decFBin (RWord.of w)).map .fmulF64
  | 0x103 => (decFTern (RWord.of w)).map .ffmaF64
  | 0x104 => (decFMM (RWord.of w)).map .fminF64
  | 0x105 => (decFMM (RWord.of w)).map .fmaxF64
  | 0x106 => (decFCmp (RWord.of w)).map .fcmpF64
  | 0x107 => (decFCls (RWord.of w)).map .fclassF64
  | 0x108 => (decFUn (RWord.of w)).map .frndF64
  | 0x109 => (decFBin (RWord.of w)).map .fscaleF64
  | 0x10A => (decFBin (RWord.of w)).map .fdivF64
  | 0x10B => (decFUn (RWord.of w)).map .fsqrtF64
  | 0x10C => (decFUn (RWord.of w)).map .frcpF64
  | 0x120 => (decCvt (RWord.of w)).map .cvt
  | 0x140 => (decFI (IWord.of w)).map .faddF64I
  | 0x141 => (decFI (IWord.of w)).map .fsubF64I
  | 0x142 => (decFI (IWord.of w)).map .fmulF64I
  | 0x143 => (decFI (IWord.of w)).map .fminF64I
  | 0x144 => (decFI (IWord.of w)).map .fmaxF64I
  | 0x145 => (decFCmpI 0x145 (IWord.of w)).map .fcmpF64I
  | 0x146 => (decFCmpI 0x145 (IWord.of w)).map .fcmpF64I
  | 0x147 => (decFCmpI 0x145 (IWord.of w)).map .fcmpF64I
  | 0x148 => (decFCmpI 0x145 (IWord.of w)).map .fcmpF64I
  | 0x149 => (decFCmpI 0x145 (IWord.of w)).map .fcmpF64I
  | 0x14A => (decFCmpI 0x145 (IWord.of w)).map .fcmpF64I
  | 0x14B => (decFI (IWord.of w)).map .fscaleF64I
  | 0x160 => k.bind fun k => (decFL (IWord.of w) k).map .faddF64L
  | 0x161 => k.bind fun k => (decFL (IWord.of w) k).map .fsubF64L
  | 0x162 => k.bind fun k => (decFL (IWord.of w) k).map .fmulF64L
  | 0x163 => k.bind fun k => (decFL (IWord.of w) k).map .fminF64L
  | 0x164 => k.bind fun k => (decFL (IWord.of w) k).map .fmaxF64L
  | 0x165 => k.bind fun k => (decFCmpL 0x165 (IWord.of w) k).map .fcmpF64L
  | 0x166 => k.bind fun k => (decFCmpL 0x165 (IWord.of w) k).map .fcmpF64L
  | 0x167 => k.bind fun k => (decFCmpL 0x165 (IWord.of w) k).map .fcmpF64L
  | 0x168 => k.bind fun k => (decFCmpL 0x165 (IWord.of w) k).map .fcmpF64L
  | 0x169 => k.bind fun k => (decFCmpL 0x165 (IWord.of w) k).map .fcmpF64L
  | 0x16A => k.bind fun k => (decFCmpL 0x165 (IWord.of w) k).map .fcmpF64L
  | 0x16B => k.bind fun k => (decFL (IWord.of w) k).map .fscaleF64L
  | _ => none

/-- Group 3 of the opcode map (R90, R91): the instruction whose fields the word holds. -/
def parse3 (opc w : Nat) (_k : Option W64) : Option Instr :=
  match opc with
  | 0x180 => (decLxch (RWord.of w)).map .lxch
  | 0x181 => (decVote (RWord.of w)).map .vote
  | 0x182 => (decBallot (RWord.of w)).map .ballot
  | 0x183 => (decRedux (RWord.of w)).map .redux
  | 0x184 => (decScanOp (RWord.of w)).map .scan
  | 0x185 => (decMatchOp (RWord.of w)).map .matchOp
  | 0x188 => (decQblk (RWord.of w)).map .qblk
  | 0x189 => (decQunpk (RWord.of w)).map .qunpk
  | 0x18A => (decAmax (RWord.of w)).map .amax
  | 0x190 => (decShapeOp (RWord.of w)).map .shape
  | 0x191 => (decBare (RWord.of w)).map .mat
  | 0x1C0 => (decLxchI (IWord.of w)).map .lxchI
  | _ => none

/-- Group 4 of the opcode map (R90, R91): the instruction whose fields the word holds. -/
def parse4 (opc w : Nat) (k : Option W64) : Option Instr :=
  match opc with
  | 0x200 => (decLdR (RWord.of w)).map .ld
  | 0x201 => (decLduR (RWord.of w)).map .ldu
  | 0x202 => (decStR (RWord.of w)).map .st
  | 0x203 => (decAtom (RWord.of w)).map .atom
  | 0x204 => (decRedM (RWord.of w)).map .red
  | 0x205 => (decPrefR (RWord.of w)).map .pref
  | 0x206 => (decCctl (RWord.of w)).map .cctl
  | 0x240 => (decLdI (IWord.of w)).map .ldI
  | 0x241 => (decLduI (IWord.of w)).map .lduI
  | 0x242 => (decStI (IWord.of w)).map .stI
  | 0x243 => (decPrefI (IWord.of w)).map .prefI
  | 0x260 => k.bind fun k => (decLdL (IWord.of w) k).map .ldL
  | 0x261 => k.bind fun k => (decLduL (IWord.of w) k).map .lduL
  | 0x262 => k.bind fun k => (decStL (IWord.of w) k).map .stL
  | 0x263 => k.bind fun k => (decPrefL (IWord.of w) k).map .prefL
  | _ => none

/-- Group 5 of the opcode map (R90, R91): the instruction whose fields the word holds. -/
def parse5 (opc w : Nat) (_k : Option W64) : Option Instr :=
  match opc with
  | 0x280 => (decFence (RWord.of w)).map .fence
  | 0x281 => (decPhclose (RWord.of w)).map .phclose
  | 0x282 => (decPhwait (RWord.of w)).map .phwait
  | 0x283 => (decWaitv (RWord.of w)).map .waitv
  | 0x284 => (decBarOp (RWord.of w)).map .barArv
  | 0x285 => (decBarOp (RWord.of w)).map .barWait
  | 0x286 => (decBarmArv (RWord.of w)).map .barmArv
  | 0x287 => (decBarmWait (RWord.of w)).map .barmWait
  | 0x288 => (decSmap (RWord.of w)).map .smap
  | 0x289 => (decKeyOp (RWord.of w)).map .sunmap
  | 0x28A => (decKeyOp (RWord.of w)).map .sflush
  | 0x28B => (decKeyOp (RWord.of w)).map .sfill
  | 0x28C => (decKeyOp (RWord.of w)).map .sdiscard
  | 0x28D => (decSquery (RWord.of w)).map .squery
  | _ => none

/-- Group 6 of the opcode map (R90, R91): the instruction whose fields the word holds. -/
def parse6 (opc w : Nat) (_k : Option W64) : Option Instr :=
  match opc with
  | 0x300 => (decCpy (RWord.of w)).map .cpy
  | 0x301 => (decCpyt (RWord.of w)).map .cpyt
  | 0x302 => (decCpyGS (RWord.of w)).map .cpyg
  | 0x303 => (decCpyGS (RWord.of w)).map .cpys
  | 0x304 => (decKOp (RWord.of w)).map .copyq
  | 0x305 => (decTwait (RWord.of w)).map .twait
  | 0x306 => (decTffr (RWord.of w)).map .tffr
  | 0x307 => (decKOp (RWord.of w)).map .tclr
  | 0x308 => (decCntwait (RWord.of w)).map .cntwait
  | 0x310 => (decGset (RWord.of w)).map .gset
  | 0x311 => (decGcnt (RWord.of w)).map .gcnt
  | 0x312 => (decAcfg (RWord.of w)).map .acfg
  | 0x313 => (decMma (RWord.of w)).map .mma
  | 0x314 => (decAccLd (RWord.of w)).map .accLd
  | 0x315 => (decAccSt (RWord.of w)).map .accSt
  | 0x316 => (decAccZero (RWord.of w)).map .accZero
  | 0x317 => (decAccMov (RWord.of w)).map .accMov
  | 0x318 => (decDOp (RWord.of w)).map .mprog
  | _ => none

/-- Group 7 of the opcode map (R90, R91): the instruction whose fields the word holds. -/
def parse7 (opc w : Nat) (_k : Option W64) : Option Instr :=
  match opc with
  | 0x380 => (decBrx (RWord.of w)).map .brx
  | 0x381 => (decBrx (RWord.of w)).map .callx
  | 0x382 => (decRet (RWord.of w)).map .ret
  | 0x383 => (decBare (RWord.of w)).map .joinpt
  | 0x384 => (decBare (RWord.of w)).map .sync
  | 0x385 => (decGBare (RWord.of w)).map .exit
  | 0x386 => (decBare (RWord.of w)).map .yield
  | 0x387 => (decBare (RWord.of w)).map .sjoin
  | 0x390 => (decLaunch (RWord.of w)).map .launch
  | 0x391 => (decLwait (RWord.of w)).map .lwait
  | 0x392 => (decTrapret (RWord.of w)).map .trapret
  | 0x393 => (decBare (RWord.of w)).map .nop
  | 0x3C0 => (decBra (IWord.of w)).map .bra
  | 0x3C1 => (decBra (IWord.of w)).map .call
  | 0x3C2 => (decCodeOp (IWord.of w)).map .trap
  | 0x3C3 => (decCodeOp (IWord.of w)).map .brk
  | 0x3C4 => (decSvc (IWord.of w)).map .svc
  | 0x3C5 => (decCsrr (IWord.of w)).map .csrr
  | 0x3C6 => (decCsrw (IWord.of w)).map .csrw
  | _ => none

/-- The fields of a word by its opcode; a fenced opcode names no instruction (R91). -/
def parse (w : Nat) (k : Option W64) : Option Instr :=
  let opc := w / 2 ^ 54
  match opc / 128 with
  | 0 => parse0 opc w k
  | 1 => parse1 opc w k
  | 2 => parse2 opc w k
  | 3 => parse3 opc w k
  | 4 => parse4 opc w k
  | 5 => parse5 opc w k
  | 6 => parse6 opc w k
  | 7 => parse7 opc w k
  | _ => none

/-- Why a clause fails the checks of Table 3.8; every one traps ILLEGAL_ENCODING, subcode 0 (R92). -/
inductive DecodeError where
  | headerClass
  | headerReserved
  | headerEnd
  | headerUnif
  | fencedOpcode
  | illFormed
  | reservedBits
  | missingConstant
  | wrongClass
  | notLast
  deriving DecidableEq, Repr

/-- The instruction of a word and, for an L-form, of the slot after it. A word is accepted only when it is
well formed and encodes back to itself, so every reserved bit and unused field is zero (R83, R86). -/
def decode (w : Nat) (k : Option W64) : Except DecodeError Instr :=
  match parse w k with
  | none => if k.isNone && (parse w (some 0)).isSome then .error .missingConstant else .error .fencedOpcode
  | some i =>
    if i.wf then (if encode i = some w then .ok i else .error .reservedBits) else .error .illFormed

/-- The decoder as the host asks it: the first word in the low 64 bits, the next slot above them. -/
def decodeTableWord (_nbits w : Nat) : Option Instr :=
  match decode (w % 2 ^ 64) (some (BitVec.ofNat 64 (w / 2 ^ 64))) with
  | .ok i => some i
  | .error _ => none

/-- The opcode of an instruction. -/
def Instr.opcode (i : Instr) : Nat := ((encode i).getD 0) / 2 ^ 54

/-- Engine class by opcode (Tables 3.6 and 3.7). -/
def classOf (opc : Nat) : Nat :=
  if opc < 0x080 then 0
  else if opc < 0x100 then (if 0x08A ≤ opc ∧ opc ≤ 0x091 then 1 else 0)
  else if opc < 0x180 then (if 0x10A ≤ opc ∧ opc ≤ 0x10C then 1 else 0)
  else if opc < 0x200 then (if opc = 0x191 then 6 else 0)
  else if opc < 0x280 then 2
  else if opc < 0x300 then 3
  else if opc < 0x310 then 4
  else if opc < 0x380 then 5
  else if opc < 0x388 then 6
  else if opc < 0x3C0 then 7
  else if opc < 0x3C4 then 6
  else 7

/-- Latency classes (Table 3.9). -/
inductive Lat where
  | fixed (cycles : Nat)
  | tracked
  | none
  deriving DecidableEq, Repr

/-- Latency class by opcode (Table 3.6); an I-form or L-form has that of its register form (R95). -/
def latOf (opc : Nat) : Lat :=
  if opc < 0x080 then
    (if opc = 0x005 ∨ opc = 0x007 ∨ opc = 0x042 ∨ opc = 0x062 then .fixed 6
     else if opc = 0x006 ∨ opc = 0x008 ∨ opc = 0x043 ∨ opc = 0x063 then .fixed 10
     else if opc = 0x009 ∨ opc = 0x00A ∨ opc = 0x044 ∨ opc = 0x045 ∨ opc = 0x064 ∨ opc = 0x065 then .tracked
     else .fixed 4)
  else if opc < 0x100 then (if 0x08A ≤ opc ∧ opc ≤ 0x091 then .tracked else .fixed 6)
  else if opc < 0x180 then
    (if 0x10A ≤ opc ∧ opc ≤ 0x10C then .tracked else if opc = 0x120 then .fixed 6 else .fixed 10)
  else if opc < 0x200 then
    (if opc = 0x188 ∨ opc = 0x189 ∨ opc = 0x18A then .tracked
     else if opc = 0x190 then .fixed 4 else if opc = 0x191 then .none else .fixed 10)
  else if [0x200, 0x201, 0x203, 0x240, 0x241, 0x260, 0x261, 0x281, 0x287, 0x28D, 0x306, 0x308, 0x311, 0x314,
      0x318, 0x390, 0x3C5].contains opc then .tracked
  else .none

/-- The instructions that stand only in the last slot of a clause (R77). -/
def Instr.terminal : Instr → Bool
  | .bra _ | .brx _ | .call _ | .callx _ | .ret _ | .exit _ | .sync _ | .sjoin _ | .yield _ | .trap _
  | .brk _ | .trapret _ => true
  | _ => false

/-- The terminals that may end a clause of any class (R77). -/
def Instr.anyEnd : Instr → Bool
  | .bra _ | .brx _ | .call _ | .callx _ | .ret _ | .exit _ | .sync _ => true
  | _ => false

/-- A run of registers that an instruction names: class, first index, count, last-use bit. -/
structure RegRef where
  uni : Bool
  idx : Nat
  n : Nat
  lu : Bool
  deriving DecidableEq, Repr

/-- A source of `n` registers; a uniform operand is one register. -/
def Src.ref (s : Src) (n : Nat) : RegRef := { uni := s.uni, idx := s.idx.val, n := if s.uni then 1 else n, lu := s.lu }
/-- A uniform source. -/
def USrc.ref (s : USrc) : RegRef := { uni := true, idx := s.idx.val, n := 1, lu := s.lu }
/-- A vector source of `n` registers. -/
def VSrc.ref (s : VSrc) (n : Nat) : RegRef := { uni := false, idx := s.idx.val, n := n, lu := s.lu }
/-- A destination of `n` registers; a uniform destination is one register. -/
def Dst.ref (d : Dst) (n : Nat) : RegRef := { uni := d.uni, idx := d.idx.val, n := if d.uni then 1 else n, lu := false }
/-- A vector destination of `n` registers. -/
def vref (i : Fin 64) (n : Nat) : RegRef := { uni := false, idx := i.val, n := n, lu := false }
/-- A uniform destination. -/
def uref (i : Fin 64) : RegRef := { uni := true, idx := i.val, n := 1, lu := false }
/-- Two successive uniform registers (R250). -/
def pairRef (s : USrc) : RegRef := { uni := true, idx := s.idx.val, n := 2, lu := s.lu }
/-- An optional uniform source. -/
def optRef : Option USrc → List RegRef
  | none => []
  | some s => [s.ref]
/-- An optional address source. -/
def optSrcRef (s : Option Src) (n : Nat) : List RegRef :=
  match s with
  | none => []
  | some s => [s.ref n]
/-- An optional vector destination. -/
def optVref : Option (Fin 64) → List RegRef
  | none => []
  | some i => [vref i 1]

/-- What an instruction names: its header fields, the registers it reads and writes, and the predicates
it reads (its guard apart) and writes. -/
structure Use where
  hdr : Hdr
  rd : List RegRef
  wr : List RegRef
  pr : List Nat
  pw : List Nat
  deriving DecidableEq, Repr

/-- What each instruction of code memory names (the operand fields of Tables 5.1 to 8.10). CPYT's RANK
coordinate registers and QBLK's element group depend on values read at issue. -/
def Instr.use : Instr → Option Use
  | .iadd x => some { hdr := x.h, rd := [x.a.ref x.t.regs, x.b.ref x.t.regs], wr := [x.d.ref x.t.regs], pr := [], pw := [] }
  | .isub x => some { hdr := x.h, rd := [x.a.ref x.t.regs, x.b.ref x.t.regs], wr := [x.d.ref x.t.regs], pr := [], pw := [] }
  | .iaddc x => some { hdr := x.h, rd := [x.a.ref x.t.regs, x.b.ref x.t.regs], wr := [x.d.ref x.t.regs], pr := [x.pin.val], pw := [x.pout.val] }
  | .ineg x => some { hdr := x.h, rd := [x.a.ref x.t.regs], wr := [x.d.ref x.t.regs], pr := [], pw := [] }
  | .iabs x => some { hdr := x.h, rd := [x.a.ref x.t.regs], wr := [x.d.ref x.t.regs], pr := [], pw := [] }
  | .imul x => some { hdr := x.h, rd := [x.a.ref x.t.regs, x.b.ref x.t.regs], wr := [x.d.ref x.t.regs], pr := [], pw := [] }
  | .imulh x => some { hdr := x.h, rd := [x.a.ref x.t.regs, x.b.ref x.t.regs], wr := [x.d.ref x.t.regs], pr := [], pw := [] }
  | .imad x => some { hdr := x.h, rd := [x.a.ref x.t.regs, x.b.ref x.t.regs, x.c.ref x.t.regs], wr := [x.d.ref x.t.regs], pr := [], pw := [] }
  | .imadw x => some { hdr := x.h, rd := [x.a.ref 1, x.b.ref 1, x.c.ref 2], wr := [x.d.ref 2], pr := [], pw := [] }
  | .idiv x => some { hdr := x.h, rd := [x.a.ref x.t.regs, x.b.ref x.t.regs], wr := [x.d.ref x.t.regs], pr := [], pw := [] }
  | .irem x => some { hdr := x.h, rd := [x.a.ref x.t.regs, x.b.ref x.t.regs], wr := [x.d.ref x.t.regs], pr := [], pw := [] }
  | .imin x => some { hdr := x.h, rd := [x.a.ref x.t.regs, x.b.ref x.t.regs], wr := [x.d.ref x.t.regs], pr := [], pw := [] }
  | .imax x => some { hdr := x.h, rd := [x.a.ref x.t.regs, x.b.ref x.t.regs], wr := [x.d.ref x.t.regs], pr := [], pw := [] }
  | .iclamp x => some { hdr := x.h, rd := [x.a.ref x.t.regs, x.b.ref x.t.regs, x.c.ref x.t.regs], wr := [x.d.ref x.t.regs], pr := [], pw := [] }
  | .icmp x => some { hdr := x.h, rd := [x.a.ref x.t.regs, x.b.ref x.t.regs], wr := [], pr := [], pw := [x.pd.val] }
  | .and x => some { hdr := x.h, rd := [x.a.ref x.t.regs, x.b.ref x.t.regs], wr := [x.d.ref x.t.regs], pr := [], pw := [] }
  | .or x => some { hdr := x.h, rd := [x.a.ref x.t.regs, x.b.ref x.t.regs], wr := [x.d.ref x.t.regs], pr := [], pw := [] }
  | .xor x => some { hdr := x.h, rd := [x.a.ref x.t.regs, x.b.ref x.t.regs], wr := [x.d.ref x.t.regs], pr := [], pw := [] }
  | .not x => some { hdr := x.h, rd := [x.a.ref x.t.regs], wr := [x.d.ref x.t.regs], pr := [], pw := [] }
  | .logt x => some { hdr := x.h, rd := [x.a.ref (wd x.wide), x.b.ref (wd x.wide), x.c.ref (wd x.wide)], wr := [x.d.ref (wd x.wide)], pr := [], pw := [] }
  | .shl x => some { hdr := x.h, rd := [x.a.ref x.t.regs, x.b.ref 1], wr := [x.d.ref x.t.regs], pr := [], pw := [] }
  | .shr x => some { hdr := x.h, rd := [x.a.ref x.t.regs, x.b.ref 1], wr := [x.d.ref x.t.regs], pr := [], pw := [] }
  | .sar x => some { hdr := x.h, rd := [x.a.ref x.t.regs, x.b.ref 1], wr := [x.d.ref x.t.regs], pr := [], pw := [] }
  | .rol x => some { hdr := x.h, rd := [x.a.ref x.t.regs, x.b.ref 1], wr := [x.d.ref x.t.regs], pr := [], pw := [] }
  | .fshl x => some { hdr := x.h, rd := [x.a.ref x.t.regs, x.b.ref x.t.regs, x.c.ref 1], wr := [x.d.ref x.t.regs], pr := [], pw := [] }
  | .popc x => some { hdr := x.h, rd := [x.a.ref x.t.regs], wr := [x.d.ref 1], pr := [], pw := [] }
  | .clz x => some { hdr := x.h, rd := [x.a.ref x.t.regs], wr := [x.d.ref 1], pr := [], pw := [] }
  | .ctz x => some { hdr := x.h, rd := [x.a.ref x.t.regs], wr := [x.d.ref 1], pr := [], pw := [] }
  | .brev x => some { hdr := x.h, rd := [x.a.ref x.t.regs], wr := [x.d.ref x.t.regs], pr := [], pw := [] }
  | .bfx x => some { hdr := x.h, rd := [x.a.ref x.t.regs, x.b.ref 1], wr := [x.d.ref x.t.regs], pr := [], pw := [] }
  | .bfi x => some { hdr := x.h, rd := [x.a.ref x.t.regs, x.b.ref 1, x.c.ref x.t.regs], wr := [x.d.ref x.t.regs], pr := [], pw := [] }
  | .bysel x => some { hdr := x.h, rd := [x.a.ref 1, x.b.ref 1, x.c.ref 1], wr := [x.d.ref 1], pr := [], pw := [] }
  | .lea x => some { hdr := x.h, rd := [x.a.ref 2, x.b.ref x.t.regs], wr := [x.d.ref 2], pr := [], pw := [] }
  | .mov x => some { hdr := x.h, rd := [x.a.ref x.t.regs], wr := [x.d.ref x.t.regs], pr := [], pw := [] }
  | .sel x => some { hdr := x.h, rd := [x.a.ref x.t.regs, x.b.ref x.t.regs], wr := [x.d.ref x.t.regs], pr := [x.p.val], pw := [] }
  | .plop x => some { hdr := x.h, rd := [], wr := [], pr := [x.pa.val, x.pb.val, x.pc.val], pw := [x.pd.val] }
  | .movs x => some { hdr := x.h, rd := [], wr := [x.d.ref (wd x.wide)], pr := [], pw := [] }
  | .iaddI x => some { hdr := x.h, rd := [x.a.ref x.sz.regs], wr := [x.d.ref x.sz.regs], pr := [], pw := [] }
  | .isubI x => some { hdr := x.h, rd := [x.a.ref x.sz.regs], wr := [x.d.ref x.sz.regs], pr := [], pw := [] }
  | .imulI x => some { hdr := x.h, rd := [x.a.ref x.sz.regs], wr := [x.d.ref x.sz.regs], pr := [], pw := [] }
  | .imulhI x => some { hdr := x.h, rd := [x.a.ref x.sz.regs], wr := [x.d.ref x.sz.regs], pr := [], pw := [] }
  | .idivI x => some { hdr := x.h, rd := [x.a.ref x.sz.regs], wr := [x.d.ref x.sz.regs], pr := [], pw := [] }
  | .iremI x => some { hdr := x.h, rd := [x.a.ref x.sz.regs], wr := [x.d.ref x.sz.regs], pr := [], pw := [] }
  | .iminI x => some { hdr := x.h, rd := [x.a.ref x.sz.regs], wr := [x.d.ref x.sz.regs], pr := [], pw := [] }
  | .imaxI x => some { hdr := x.h, rd := [x.a.ref x.sz.regs], wr := [x.d.ref x.sz.regs], pr := [], pw := [] }
  | .icmpI x => some { hdr := x.h, rd := [x.a.ref x.sz.regs], wr := [], pr := [], pw := [x.pd.val] }
  | .andI x => some { hdr := x.h, rd := [x.a.ref x.sz.regs], wr := [x.d.ref x.sz.regs], pr := [], pw := [] }
  | .orI x => some { hdr := x.h, rd := [x.a.ref x.sz.regs], wr := [x.d.ref x.sz.regs], pr := [], pw := [] }
  | .xorI x => some { hdr := x.h, rd := [x.a.ref x.sz.regs], wr := [x.d.ref x.sz.regs], pr := [], pw := [] }
  | .shlI x => some { hdr := x.h, rd := [x.a.ref x.sz.regs], wr := [x.d.ref x.sz.regs], pr := [], pw := [] }
  | .shrI x => some { hdr := x.h, rd := [x.a.ref x.sz.regs], wr := [x.d.ref x.sz.regs], pr := [], pw := [] }
  | .sarI x => some { hdr := x.h, rd := [x.a.ref x.sz.regs], wr := [x.d.ref x.sz.regs], pr := [], pw := [] }
  | .rolI x => some { hdr := x.h, rd := [x.a.ref x.sz.regs], wr := [x.d.ref x.sz.regs], pr := [], pw := [] }
  | .bfxI x => some { hdr := x.h, rd := [x.a.ref x.sz.regs], wr := [x.d.ref x.sz.regs], pr := [], pw := [] }
  | .byselI x => some { hdr := x.h, rd := [x.a.ref 1], wr := [x.d.ref 1], pr := [], pw := [] }
  | .leaI x => some { hdr := x.h, rd := [x.a.ref 2], wr := [x.d.ref 2], pr := [], pw := [] }
  | .movi x => some { hdr := x.h, rd := [], wr := [x.d.ref x.sz.regs], pr := [], pw := [] }
  | .iaddL x => some { hdr := x.h, rd := [x.a.ref x.sz.regs], wr := [x.d.ref x.sz.regs], pr := [], pw := [] }
  | .isubL x => some { hdr := x.h, rd := [x.a.ref x.sz.regs], wr := [x.d.ref x.sz.regs], pr := [], pw := [] }
  | .imulL x => some { hdr := x.h, rd := [x.a.ref x.sz.regs], wr := [x.d.ref x.sz.regs], pr := [], pw := [] }
  | .imulhL x => some { hdr := x.h, rd := [x.a.ref x.sz.regs], wr := [x.d.ref x.sz.regs], pr := [], pw := [] }
  | .idivL x => some { hdr := x.h, rd := [x.a.ref x.sz.regs], wr := [x.d.ref x.sz.regs], pr := [], pw := [] }
  | .iremL x => some { hdr := x.h, rd := [x.a.ref x.sz.regs], wr := [x.d.ref x.sz.regs], pr := [], pw := [] }
  | .iminL x => some { hdr := x.h, rd := [x.a.ref x.sz.regs], wr := [x.d.ref x.sz.regs], pr := [], pw := [] }
  | .imaxL x => some { hdr := x.h, rd := [x.a.ref x.sz.regs], wr := [x.d.ref x.sz.regs], pr := [], pw := [] }
  | .icmpL x => some { hdr := x.h, rd := [x.a.ref x.sz.regs], wr := [], pr := [], pw := [x.pd.val] }
  | .andL x => some { hdr := x.h, rd := [x.a.ref x.sz.regs], wr := [x.d.ref x.sz.regs], pr := [], pw := [] }
  | .orL x => some { hdr := x.h, rd := [x.a.ref x.sz.regs], wr := [x.d.ref x.sz.regs], pr := [], pw := [] }
  | .xorL x => some { hdr := x.h, rd := [x.a.ref x.sz.regs], wr := [x.d.ref x.sz.regs], pr := [], pw := [] }
  | .shlL x => some { hdr := x.h, rd := [x.a.ref x.sz.regs], wr := [x.d.ref x.sz.regs], pr := [], pw := [] }
  | .shrL x => some { hdr := x.h, rd := [x.a.ref x.sz.regs], wr := [x.d.ref x.sz.regs], pr := [], pw := [] }
  | .sarL x => some { hdr := x.h, rd := [x.a.ref x.sz.regs], wr := [x.d.ref x.sz.regs], pr := [], pw := [] }
  | .rolL x => some { hdr := x.h, rd := [x.a.ref x.sz.regs], wr := [x.d.ref x.sz.regs], pr := [], pw := [] }
  | .bfxL x => some { hdr := x.h, rd := [x.a.ref x.sz.regs], wr := [x.d.ref x.sz.regs], pr := [], pw := [] }
  | .byselL x => some { hdr := x.h, rd := [x.a.ref 1], wr := [x.d.ref 1], pr := [], pw := [] }
  | .leaL x => some { hdr := x.h, rd := [x.a.ref 2], wr := [x.d.ref 2], pr := [], pw := [] }
  | .movl x => some { hdr := x.h, rd := [], wr := [x.d.ref x.sz.regs], pr := [], pw := [] }
  | .fadd x => some { hdr := x.h, rd := [x.a.ref 1, x.b.ref 1], wr := [x.d.ref 1], pr := [], pw := [] }
  | .fsub x => some { hdr := x.h, rd := [x.a.ref 1, x.b.ref 1], wr := [x.d.ref 1], pr := [], pw := [] }
  | .fmul x => some { hdr := x.h, rd := [x.a.ref 1, x.b.ref 1], wr := [x.d.ref 1], pr := [], pw := [] }
  | .ffma x => some { hdr := x.h, rd := [x.a.ref 1, x.b.ref 1, x.c.ref 1], wr := [x.d.ref 1], pr := [], pw := [] }
  | .fmin x => some { hdr := x.h, rd := [x.a.ref 1, x.b.ref 1], wr := [x.d.ref 1], pr := [], pw := [] }
  | .fmax x => some { hdr := x.h, rd := [x.a.ref 1, x.b.ref 1], wr := [x.d.ref 1], pr := [], pw := [] }
  | .fcmp x => some { hdr := x.h, rd := [x.a.ref 1, x.b.ref 1], wr := [], pr := [], pw := [x.pd.val] }
  | .fclass x => some { hdr := x.h, rd := [x.a.ref 1], wr := [x.d.ref 1], pr := [], pw := [] }
  | .frnd x => some { hdr := x.h, rd := [x.a.ref 1], wr := [x.d.ref 1], pr := [], pw := [] }
  | .fscale x => some { hdr := x.h, rd := [x.a.ref 1, x.b.ref 1], wr := [x.d.ref 1], pr := [], pw := [] }
  | .fdiv x => some { hdr := x.h, rd := [x.a.ref 1, x.b.ref 1], wr := [x.d.ref 1], pr := [], pw := [] }
  | .fsqrt x => some { hdr := x.h, rd := [x.a.ref 1], wr := [x.d.ref 1], pr := [], pw := [] }
  | .frcp x => some { hdr := x.h, rd := [x.a.ref 1], wr := [x.d.ref 1], pr := [], pw := [] }
  | .frsq x => some { hdr := x.h, rd := [x.a.ref 1], wr := [x.d.ref 1], pr := [], pw := [] }
  | .fexp2 x => some { hdr := x.h, rd := [x.a.ref 1], wr := [x.d.ref 1], pr := [], pw := [] }
  | .flog2 x => some { hdr := x.h, rd := [x.a.ref 1], wr := [x.d.ref 1], pr := [], pw := [] }
  | .fsinpi x => some { hdr := x.h, rd := [x.a.ref 1], wr := [x.d.ref 1], pr := [], pw := [] }
  | .fcospi x => some { hdr := x.h, rd := [x.a.ref 1], wr := [x.d.ref 1], pr := [], pw := [] }
  | .hadd2 x => some { hdr := x.h, rd := [x.a.ref 1, x.b.ref 1], wr := [x.d.ref 1], pr := [], pw := [] }
  | .hmul2 x => some { hdr := x.h, rd := [x.a.ref 1, x.b.ref 1], wr := [x.d.ref 1], pr := [], pw := [] }
  | .hfma2 x => some { hdr := x.h, rd := [x.a.ref 1, x.b.ref 1, x.c.ref 1], wr := [x.d.ref 1], pr := [], pw := [] }
  | .dot2 x => some { hdr := x.h, rd := [x.a.ref 1, x.b.ref 1, x.c.ref 1], wr := [x.d.ref 1], pr := [], pw := [] }
  | .dot4 x => some { hdr := x.h, rd := [x.a.ref 1, x.b.ref 1, x.c.ref 1], wr := [x.d.ref 1], pr := [], pw := [] }
  | .faddI x => some { hdr := x.h, rd := [x.a.ref 1], wr := [x.d.ref 1], pr := [], pw := [] }
  | .fsubI x => some { hdr := x.h, rd := [x.a.ref 1], wr := [x.d.ref 1], pr := [], pw := [] }
  | .fmulI x => some { hdr := x.h, rd := [x.a.ref 1], wr := [x.d.ref 1], pr := [], pw := [] }
  | .fminI x => some { hdr := x.h, rd := [x.a.ref 1], wr := [x.d.ref 1], pr := [], pw := [] }
  | .fmaxI x => some { hdr := x.h, rd := [x.a.ref 1], wr := [x.d.ref 1], pr := [], pw := [] }
  | .fcmpI x => some { hdr := x.h, rd := [x.a.ref 1], wr := [], pr := [], pw := [x.pd.val] }
  | .fscaleI x => some { hdr := x.h, rd := [x.a.ref 1], wr := [x.d.ref 1], pr := [], pw := [] }
  | .faddL x => some { hdr := x.h, rd := [x.a.ref 1], wr := [x.d.ref 1], pr := [], pw := [] }
  | .fsubL x => some { hdr := x.h, rd := [x.a.ref 1], wr := [x.d.ref 1], pr := [], pw := [] }
  | .fmulL x => some { hdr := x.h, rd := [x.a.ref 1], wr := [x.d.ref 1], pr := [], pw := [] }
  | .fminL x => some { hdr := x.h, rd := [x.a.ref 1], wr := [x.d.ref 1], pr := [], pw := [] }
  | .fmaxL x => some { hdr := x.h, rd := [x.a.ref 1], wr := [x.d.ref 1], pr := [], pw := [] }
  | .fcmpL x => some { hdr := x.h, rd := [x.a.ref 1], wr := [], pr := [], pw := [x.pd.val] }
  | .fscaleL x => some { hdr := x.h, rd := [x.a.ref 1], wr := [x.d.ref 1], pr := [], pw := [] }
  | .faddF64 x => some { hdr := x.h, rd := [x.a.ref 2, x.b.ref 2], wr := [x.d.ref 2], pr := [], pw := [] }
  | .fsubF64 x => some { hdr := x.h, rd := [x.a.ref 2, x.b.ref 2], wr := [x.d.ref 2], pr := [], pw := [] }
  | .fmulF64 x => some { hdr := x.h, rd := [x.a.ref 2, x.b.ref 2], wr := [x.d.ref 2], pr := [], pw := [] }
  | .ffmaF64 x => some { hdr := x.h, rd := [x.a.ref 2, x.b.ref 2, x.c.ref 2], wr := [x.d.ref 2], pr := [], pw := [] }
  | .fminF64 x => some { hdr := x.h, rd := [x.a.ref 2, x.b.ref 2], wr := [x.d.ref 2], pr := [], pw := [] }
  | .fmaxF64 x => some { hdr := x.h, rd := [x.a.ref 2, x.b.ref 2], wr := [x.d.ref 2], pr := [], pw := [] }
  | .fcmpF64 x => some { hdr := x.h, rd := [x.a.ref 2, x.b.ref 2], wr := [], pr := [], pw := [x.pd.val] }
  | .fclassF64 x => some { hdr := x.h, rd := [x.a.ref 2], wr := [x.d.ref 1], pr := [], pw := [] }
  | .frndF64 x => some { hdr := x.h, rd := [x.a.ref 2], wr := [x.d.ref 2], pr := [], pw := [] }
  | .fscaleF64 x => some { hdr := x.h, rd := [x.a.ref 2, x.b.ref 1], wr := [x.d.ref 2], pr := [], pw := [] }
  | .fdivF64 x => some { hdr := x.h, rd := [x.a.ref 2, x.b.ref 2], wr := [x.d.ref 2], pr := [], pw := [] }
  | .fsqrtF64 x => some { hdr := x.h, rd := [x.a.ref 2], wr := [x.d.ref 2], pr := [], pw := [] }
  | .frcpF64 x => some { hdr := x.h, rd := [x.a.ref 2], wr := [x.d.ref 2], pr := [], pw := [] }
  | .cvt x => some { hdr := x.h, rd := [x.a.ref x.ts.regs], wr := [x.d.ref x.td.regs], pr := [], pw := [] }
  | .faddF64I x => some { hdr := x.h, rd := [x.a.ref 2], wr := [x.d.ref 2], pr := [], pw := [] }
  | .fsubF64I x => some { hdr := x.h, rd := [x.a.ref 2], wr := [x.d.ref 2], pr := [], pw := [] }
  | .fmulF64I x => some { hdr := x.h, rd := [x.a.ref 2], wr := [x.d.ref 2], pr := [], pw := [] }
  | .fminF64I x => some { hdr := x.h, rd := [x.a.ref 2], wr := [x.d.ref 2], pr := [], pw := [] }
  | .fmaxF64I x => some { hdr := x.h, rd := [x.a.ref 2], wr := [x.d.ref 2], pr := [], pw := [] }
  | .fcmpF64I x => some { hdr := x.h, rd := [x.a.ref 2], wr := [], pr := [], pw := [x.pd.val] }
  | .fscaleF64I x => some { hdr := x.h, rd := [x.a.ref 2], wr := [x.d.ref 2], pr := [], pw := [] }
  | .faddF64L x => some { hdr := x.h, rd := [x.a.ref 2], wr := [x.d.ref 2], pr := [], pw := [] }
  | .fsubF64L x => some { hdr := x.h, rd := [x.a.ref 2], wr := [x.d.ref 2], pr := [], pw := [] }
  | .fmulF64L x => some { hdr := x.h, rd := [x.a.ref 2], wr := [x.d.ref 2], pr := [], pw := [] }
  | .fminF64L x => some { hdr := x.h, rd := [x.a.ref 2], wr := [x.d.ref 2], pr := [], pw := [] }
  | .fmaxF64L x => some { hdr := x.h, rd := [x.a.ref 2], wr := [x.d.ref 2], pr := [], pw := [] }
  | .fcmpF64L x => some { hdr := x.h, rd := [x.a.ref 2], wr := [], pr := [], pw := [x.pd.val] }
  | .fscaleF64L x => some { hdr := x.h, rd := [x.a.ref 2], wr := [x.d.ref 2], pr := [], pw := [] }
  | .lxch x => some { hdr := x.h, rd := [x.a.ref (wd x.wide), x.b.ref 1], wr := [x.d.ref (wd x.wide)], pr := [], pw := [] }
  | .vote x => some { hdr := x.h, rd := [], wr := [], pr := [x.pa.val], pw := [x.pd.val] }
  | .ballot x => some { hdr := x.h, rd := [], wr := [x.d.ref 1], pr := [x.pa.val], pw := [] }
  | .redux x => some { hdr := x.h, rd := [x.a.ref x.t.regs], wr := [x.d.ref x.t.regs], pr := [], pw := [] }
  | .scan x => some { hdr := x.h, rd := [x.a.ref x.t.regs], wr := [x.d.ref x.t.regs], pr := [], pw := [] }
  | .matchOp x => some { hdr := x.h, rd := [x.a.ref (wd x.wide)], wr := [x.d.ref 1], pr := [], pw := [] }
  | .qblk x => some { hdr := x.h, rd := [x.a.ref 8, x.b.ref, x.c.ref], wr := [vref x.d 1], pr := [], pw := [] }
  | .qunpk x => some { hdr := x.h, rd := [x.a.ref 1], wr := [vref x.d 8], pr := [], pw := [] }
  | .amax x => some { hdr := x.h, rd := [x.a.ref x.t.regs], wr := [x.d.ref x.t.regs], pr := [], pw := [] }
  | .shape x => some { hdr := x.h, rd := [], wr := [x.d.ref 2], pr := [], pw := [] }
  | .mat x => some { hdr := { stall := x.stall, flag := x.flag, guard := 7, gneg := false }, rd := [], wr := [], pr := [], pw := [] }
  | .lxchI x => some { hdr := x.h, rd := [x.a.ref (wd x.wide)], wr := [x.d.ref (wd x.wide)], pr := [], pw := [] }
  | .ld x => some { hdr := x.h, rd := [x.a.ref 2] ++ optRef x.off, wr := [vref x.d x.t.regs], pr := [], pw := [] }
  | .ldu x => some { hdr := x.h, rd := [x.a.ref] ++ optRef x.off, wr := [uref x.d], pr := [], pw := [] }
  | .st x => some { hdr := x.h, rd := [x.a.ref 2, x.c.ref x.t.regs] ++ optRef x.off, wr := [], pr := [], pw := [] }
  | .atom x => some { hdr := x.h, rd := [x.a.ref 2, x.b.ref (atomRegs x.op x.t)], wr := if x.dlu then [] else [vref x.d x.t.regs], pr := [], pw := [] }
  | .red x => some { hdr := x.h, rd := [x.a.ref 2, x.b.ref x.t.regs], wr := [], pr := [], pw := [] }
  | .pref x => some { hdr := x.h, rd := [x.a.ref 2] ++ optRef x.off, wr := [], pr := [], pw := [] }
  | .cctl x => some { hdr := x.h, rd := optSrcRef x.addr 2 ++ optRef x.off, wr := [], pr := [], pw := [] }
  | .ldI x => some { hdr := x.h, rd := [x.a.ref 2], wr := [vref x.d x.t.regs], pr := [], pw := [] }
  | .lduI x => some { hdr := x.h, rd := [x.a.ref], wr := [uref x.d], pr := [], pw := [] }
  | .stI x => some { hdr := x.h, rd := [x.v.ref x.t.regs, x.a.ref 2], wr := [], pr := [], pw := [] }
  | .prefI x => some { hdr := x.h, rd := [x.a.ref 2], wr := [], pr := [], pw := [] }
  | .ldL x => some { hdr := x.h, rd := [x.a.ref 2], wr := [vref x.d x.t.regs], pr := [], pw := [] }
  | .lduL x => some { hdr := x.h, rd := [x.a.ref], wr := [uref x.d], pr := [], pw := [] }
  | .stL x => some { hdr := x.h, rd := [x.v.ref x.t.regs, x.a.ref 2], wr := [], pr := [], pw := [] }
  | .prefL x => some { hdr := x.h, rd := [x.a.ref 2], wr := [], pr := [], pw := [] }
  | .fence x => some { hdr := x.h, rd := [], wr := [], pr := [], pw := [] }
  | .phclose x => some { hdr := x.h, rd := [], wr := [x.d.ref 2], pr := [], pw := [] }
  | .phwait x => some { hdr := x.h, rd := [x.a.ref, x.b.ref 2], wr := [], pr := [], pw := [] }
  | .waitv x => some { hdr := x.h, rd := [x.a.ref 2, x.b.ref x.t.regs, x.c.ref], wr := [], pr := [], pw := [] }
  | .barArv x => some { hdr := x.h, rd := [], wr := [], pr := [], pw := [] }
  | .barWait x => some { hdr := x.h, rd := [], wr := [], pr := [], pw := [] }
  | .barmArv x => some { hdr := x.h, rd := [x.a.ref 2], wr := [], pr := [], pw := [] }
  | .barmWait x => some { hdr := x.h, rd := [x.a.ref 2, x.b.ref 1], wr := optVref x.stat, pr := [], pw := [] }
  | .smap x => some { hdr := x.h, rd := [x.a.ref, x.b.ref, x.c.ref], wr := [], pr := [], pw := [] }
  | .sunmap x => some { hdr := x.h, rd := [x.a.ref], wr := [], pr := [], pw := [] }
  | .sflush x => some { hdr := x.h, rd := [x.a.ref], wr := [], pr := [], pw := [] }
  | .sfill x => some { hdr := x.h, rd := [x.a.ref], wr := [], pr := [], pw := [] }
  | .sdiscard x => some { hdr := x.h, rd := [x.a.ref], wr := [], pr := [], pw := [] }
  | .squery x => some { hdr := x.h, rd := [x.a.ref], wr := [x.d.ref 2], pr := [], pw := [] }
  | .cpy x => some { hdr := x.h, rd := [x.a.ref 2, x.b.ref 2, pairRef x.c], wr := [], pr := [], pw := [] }
  | .cpyt x => some { hdr := x.h, rd := [x.a.ref 1, x.b.ref 1, pairRef x.c], wr := [], pr := [], pw := [] }
  | .cpyg x => some { hdr := x.h, rd := [x.a.ref, x.b.ref, pairRef x.c], wr := [], pr := [], pw := [] }
  | .cpys x => some { hdr := x.h, rd := [x.a.ref, x.b.ref, pairRef x.c], wr := [], pr := [], pw := [] }
  | .copyq x => some { hdr := x.h, rd := [x.a.ref], wr := [], pr := [], pw := [] }
  | .twait x => some { hdr := x.h, rd := [x.a.ref], wr := [], pr := [], pw := [] }
  | .tffr x => some { hdr := x.h, rd := [x.a.ref], wr := [x.d.ref 2], pr := [], pw := [] }
  | .tclr x => some { hdr := x.h, rd := [x.a.ref], wr := [], pr := [], pw := [] }
  | .cntwait x => some { hdr := x.h, rd := [x.a.ref, x.b.ref, x.c.ref], wr := [x.d.ref 2], pr := [], pw := [] }
  | .gset x => some { hdr := x.h, rd := [x.a.ref, x.b.ref], wr := [], pr := [], pw := [] }
  | .gcnt x => some { hdr := x.h, rd := [], wr := [x.d.ref 2], pr := [], pw := [] }
  | .acfg x => some { hdr := x.h, rd := [x.a.ref], wr := [], pr := [], pw := [] }
  | .mma x => some { hdr := x.h, rd := [], wr := [], pr := [], pw := [] }
  | .accLd x => some { hdr := x.h, rd := [x.b.ref], wr := [vref x.d (wd x.wide)], pr := [], pw := [] }
  | .accSt x => some { hdr := x.h, rd := [x.a.ref (wd x.wide), x.b.ref], wr := [], pr := [], pw := [] }
  | .accZero x => some { hdr := x.h, rd := [], wr := [], pr := [], pw := [] }
  | .accMov x => some { hdr := x.h, rd := [x.a.ref, x.b.ref], wr := [], pr := [], pw := [] }
  | .mprog x => some { hdr := x.h, rd := [], wr := [x.d.ref 2], pr := [], pw := [] }
  | .brx x => some { hdr := x.h, rd := [x.a.ref 2], wr := [], pr := [], pw := [] }
  | .callx x => some { hdr := x.h, rd := [x.a.ref 2], wr := [], pr := [], pw := [] }
  | .ret x => some { hdr := x.h, rd := [x.a.ref 2], wr := [], pr := [], pw := [] }
  | .joinpt x => some { hdr := { stall := x.stall, flag := x.flag, guard := 7, gneg := false }, rd := [], wr := [], pr := [], pw := [] }
  | .sync x => some { hdr := { stall := x.stall, flag := x.flag, guard := 7, gneg := false }, rd := [], wr := [], pr := [], pw := [] }
  | .exit x => some { hdr := x.h, rd := [], wr := [], pr := [], pw := [] }
  | .yield x => some { hdr := { stall := x.stall, flag := x.flag, guard := 7, gneg := false }, rd := [], wr := [], pr := [], pw := [] }
  | .sjoin x => some { hdr := { stall := x.stall, flag := x.flag, guard := 7, gneg := false }, rd := [], wr := [], pr := [], pw := [] }
  | .launch x => some { hdr := x.h, rd := [x.a.ref], wr := [x.d.ref 2], pr := [], pw := [] }
  | .lwait x => some { hdr := x.h, rd := optRef x.a, wr := [], pr := [], pw := [] }
  | .trapret x => some { hdr := x.h, rd := [], wr := [], pr := [], pw := [] }
  | .nop x => some { hdr := { stall := x.stall, flag := x.flag, guard := 7, gneg := false }, rd := [], wr := [], pr := [], pw := [] }
  | .bra x => some { hdr := x.h, rd := [], wr := [], pr := [], pw := [] }
  | .call x => some { hdr := x.h, rd := [], wr := [], pr := [], pw := [] }
  | .trap x => some { hdr := x.h, rd := [], wr := [], pr := [], pw := [] }
  | .brk x => some { hdr := x.h, rd := [], wr := [], pr := [], pw := [] }
  | .svc x => some { hdr := x.h, rd := [x.a.ref], wr := [], pr := [], pw := [] }
  | .csrr x => some { hdr := x.h, rd := [], wr := [x.d.ref 2], pr := [], pw := [] }
  | .csrw x => some { hdr := x.h, rd := [x.a.ref], wr := [], pr := [], pw := [] }
  | _ => none

/-- The header of a clause (Table 3.1). -/
structure ClauseHeader where
  cls : Nat
  count : Nat
  wait : Nat
  yield : Bool
  unif : Bool
  reserved : Nat
  deriving DecidableEq, Repr

/-- The fields of a header word. -/
def ClauseHeader.of (w : Nat) : ClauseHeader :=
  { cls := w / 2 ^ 60 % 16, count := w / 2 ^ 56 % 16, wait := w / 2 ^ 44 % 4096, yield := toBit (w / 2 ^ 43),
    unif := toBit (w / 2 ^ 42), reserved := w % 2 ^ 42 }

/-- The header word with these fields. -/
def ClauseHeader.word (h : ClauseHeader) : Nat :=
  h.cls * 2 ^ 60 + h.count * 2 ^ 56 + h.wait * 2 ^ 44 + bit h.yield * 2 ^ 43 + bit h.unif * 2 ^ 42 + h.reserved

/-- Bytes of a clause from its header word (R75). -/
def clauseBytes (w : Nat) : Nat := 8 * ((ClauseHeader.of w).count + 2)

/-- One instruction of a decoded clause: its slot number, counting from 0, and the instruction. -/
structure Slot where
  ix : Nat
  ins : Instr
  deriving DecidableEq, Repr

/-- A fetched and decoded clause. -/
structure Clause where
  addr : Nat
  hdr : ClauseHeader
  slots : List Slot
  deriving DecidableEq, Repr

/-- The address of the clause boundary that follows. -/
def Clause.finish (c : Clause) : Nat := c.addr + 8 * (c.hdr.count + 2)

/-- The conditions of R79 on one instruction of a uniform-only clause of class `cls`. -/
def unifOk (cls : Nat) (i : Instr) : Bool :=
  match i.use with
  | none => false
  | some u =>
    u.hdr.plain &&
    (match i with
     | .nop _ => true
     | .bra _ | .call _ | .exit _ | .sync _ => true
     | .brx _ | .callx _ => u.rd.all fun r => r.uni
     | .ret _ => false
     | .ldu _ | .lduI _ | .lduL _ | .pref _ | .prefI _ | .prefL _ => u.rd.all fun r => r.uni
     | _ => decide (cls < 2) && (u.rd.all fun r => r.uni) && (u.wr.all fun r => r.uni))

/-- The instructions of the slots `ix, ix + 1, …` (the first is a constant when the flag is set), each tried in slot order; the error names the first
failing slot (R92). -/
def decodeSlots (cls count : Nat) : Bool → Nat → List W64 → Except (Nat × DecodeError) (List Slot)
  | _, _, [] => .ok []
  | true, ix, _ :: rest => decodeSlots cls count false (ix + 1) rest
  | false, ix, w :: rest =>
    match decode w.toNat rest.head? with
    | .error e => .error (ix, e)
    | .ok i =>
      let last := decide (ix = count)
      if i.terminal && !last then .error (ix, .notLast)
      else if classOf i.opcode ≠ cls ∧ ¬ (i.anyEnd ∧ last) ∧ i.opcode ≠ 0x393 then .error (ix, .wrongClass)
      else if i.constant.isSome && rest.isEmpty then .error (ix, .missingConstant)
      else (decodeSlots cls count i.constant.isSome (ix + 1) rest).map fun l => ⟨ix, i⟩ :: l

/-- An instruction may stand at slot `ix` of a clause of class `cls` (R77). -/
def placeOk (cls count ix : Nat) (i : Instr) : Bool :=
  !(i.terminal && ix != count) && (classOf i.opcode == cls || (i.anyEnd && ix == count) || i.opcode == 0x393)

/-- The words of a clause that start an instruction, as far as their opcode tells: R79's conditions, which a UNIF clause breaks
in its header (R92), with the class and the place of each instruction. -/
def unifSlots (cls count : Nat) : Bool → Nat → List W64 → Bool
  | _, _, [] => true
  | true, ix, _ :: rest => unifSlots cls count false (ix + 1) rest
  | false, ix, w :: rest =>
    match parse w.toNat (some (rest.headD 0)) with
    | none => unifSlots cls count false (ix + 1) rest
    | some i => unifOk cls i && placeOk cls count ix i && unifSlots cls count i.constant.isSome (ix + 1) rest

/-- Decode of a whole clause at `addr` (R92): the header, then the words in slot order. `room` is the bytes
from `addr` to the end of .text. The error gives the word's number, the header counting as 0. -/
def decodeClause (addr room : Nat) (header : W64) (words : List W64) : Except (Nat × DecodeError) Clause :=
  let h := ClauseHeader.of header.toNat
  if h.cls > 7 then .error (0, .headerClass)
  else if h.reserved ≠ 0 then .error (0, .headerReserved)
  else if room < 8 * (h.count + 2) then .error (0, .headerEnd)
  else if h.unif && !(decide (h.cls ≤ 2) && unifSlots h.cls h.count false 0 words) then .error (0, .headerUnif)
  else
    match decodeSlots h.cls h.count false 0 words with
    | .error (ix, e) => .error (ix + 1, e)
    | .ok l => .ok { addr := addr, hdr := h, slots := l }

end Sys2Proof
end

