-- ==== Sys2Proof/Machine/Flags.lean ====
section
/-!
DEFINITION. Number formats, rounding and flags (04, R113 to R131): every floating-point operation of
the device on bit patterns, each with the FPFLAGS bits it raises. Values are exact: a sign, a
natural mantissa and an exponent, with a sticky bit for a value that lies strictly above.
-/
namespace Sys2Proof

/-- A floating-point layout of Table 4.2: fraction bits, exponent bits, bias, and which encodings with an
all-ones exponent are special. -/
structure Fmt where
  mbits : Nat
  ebits : Nat
  bias : Nat
  ieee : Bool
  deriving DecidableEq, Repr

/-- The layouts of Table 4.2; PS8 and the block code have none and read as FP32. -/
def FTy.fmt : FTy → Fmt
  | .f64 => ⟨52, 11, 1023, true⟩
  | .f32 => ⟨23, 8, 127, true⟩
  | .f16 => ⟨10, 5, 15, true⟩
  | .bf16 => ⟨7, 8, 127, true⟩
  | .e5 => ⟨2, 5, 15, true⟩
  | .e4 => ⟨3, 4, 7, false⟩
  | .f4 => ⟨1, 2, 1, false⟩
  | .ps8 => ⟨23, 8, 127, true⟩
  | .blk => ⟨23, 8, 127, true⟩

/-- Width of a value in bits. -/
def FTy.width : FTy → Nat
  | .f64 => 64
  | .f32 => 32
  | .f16 | .bf16 => 16
  | .e4 | .e5 | .ps8 => 8
  | .f4 => 4
  | .blk => 32

/-- Signedness of an integer type (Table 4.1). -/
def ITy.signed (t : ITy) : Bool := t == .s32 || t == .s64 || t == .s16 || t == .s8 || t == .s4

/-- Least value of an integer type. -/
def ITy.tmin (t : ITy) : Int := if t.signed then -(2 ^ (t.width - 1) : Int) else 0

/-- Greatest value of an integer type. -/
def ITy.tmax (t : ITy) : Int := if t.signed then 2 ^ (t.width - 1) - 1 else 2 ^ t.width - 1

end Sys2Proof

namespace Sys2Proof.Machine
open Sys2Proof

/-- FPFLAGS bits (Table 2.5): bit 0 IV, 1 DZ, 2 OF, 3 UF, 4 IX. -/
abbrev FFlags := BitVec 5
/-- Invalid operation. -/
def fIV : FFlags := 1#5
/-- Division by zero. -/
def fDZ : FFlags := 2#5
/-- Overflow. -/
def fOF : FFlags := 4#5
/-- Underflow. -/
def fUF : FFlags := 8#5
/-- Inexact. -/
def fIX : FFlags := 16#5

/-- Number of bits of `n`, 0 for 0. -/
def bitLen (n : Nat) : Nat := if n = 0 then 0 else Nat.log2 n + 1

/-- A value read or computed: NaN (signalling or not), infinity, or `(-1)^neg * (m + δ) * 2^e` with
`0 < δ < 1` exactly when `sticky`. -/
inductive FVal where
  | nan (signalling : Bool)
  | inf (neg : Bool)
  | fin (neg : Bool) (m : Nat) (e : Int) (sticky : Bool)
  deriving DecidableEq, Repr

/-- The sign bit of a pattern. -/
def signOf (t : FTy) (b : Nat) : Bool := toBit (b / 2 ^ (t.width - 1))

/-- A PS8 term: `(-1)^s * 2^(-e)` in units of 2^-6, and 0 for e = 7 (R117). -/
def ps8Term (n : Nat) : Int :=
  let e := n % 8
  let v : Int := if e = 7 then 0 else 2 ^ (6 - e)
  if toBit (n / 8) then -v else v

/-- The value of a PS8 byte in units of 2^-6 (R117). -/
def ps8Val (b : Nat) : Int := ps8Term (b / 16 % 16) + ps8Term (b % 16)

/-- The value of a pattern in its format (R115, R117). -/
def fdec (t : FTy) (b : Nat) : FVal :=
  if t = .ps8 then .fin (decide (ps8Val b < 0)) (ps8Val b).natAbs (-6) false
  else
    let f := t.fmt
    let frac := b % 2 ^ f.mbits
    let ex := b / 2 ^ f.mbits % 2 ^ f.ebits
    let neg := signOf t b
    if f.ieee && ex == 2 ^ f.ebits - 1 then
      (if frac = 0 then .inf neg else .nan (frac < 2 ^ (f.mbits - 1)))
    else if t = .e4 ∧ ex = 15 ∧ frac = 7 then .nan false
    else if ex = 0 then .fin neg frac (1 - (f.bias : Int) - f.mbits) false
    else .fin neg (2 ^ f.mbits + frac) ((ex : Int) - f.bias - f.mbits) false

/-- The canonical NaN of a format (R127); FP4 and PS8 have none and give +0. -/
def canonNaN : FTy → Nat
  | .f64 => 0x7FF8000000000000
  | .f32 => 0x7FC00000
  | .f16 => 0x7E00
  | .bf16 => 0x7FC0
  | .e5 => 0x7E
  | .e4 => 0x7F
  | .f4 => 0
  | .ps8 => 0x77
  | .blk => 0

/-- The pattern of the largest finite value. -/
def maxFinite : FTy → Nat
  | .f64 => 0x7FEFFFFFFFFFFFFF
  | .f32 => 0x7F7FFFFF
  | .f16 => 0x7BFF
  | .bf16 => 0x7F7F
  | .e5 => 0x7B
  | .e4 => 0x7E
  | .f4 => 0x7
  | .ps8 => 0x00
  | .blk => 0

/-- The pattern with its sign bit set when `neg`. -/
def withSign (t : FTy) (neg : Bool) (b : Nat) : Nat := if neg then b + 2 ^ (t.width - 1) else b

/-- The pattern of an infinity of a format that has infinities. -/
def infBits (t : FTy) (neg : Bool) : Nat :=
  withSign t neg ((2 ^ t.fmt.ebits - 1) * 2 ^ t.fmt.mbits)

/-- A result: the pattern, the flags raised, and whether it overflowed under the TRAP policy (R126). -/
structure FRes where
  bits : Nat
  fl : FFlags
  ovTrap : Bool
  deriving DecidableEq, Repr

/-- A result without an overflow trap. -/
def fres (bits : Nat) (fl : FFlags) : FRes := ⟨bits, fl, false⟩

/-- Whether a rounding of a magnitude `M + rem/2^sh` steps away from zero (Table 4.4, R123). `sh` is at
least 1; `r` is the draw of 16 random bits. -/
def stepsAway (rm : RM) (neg : Bool) (M rem sh : Nat) (sticky : Bool) (r : Nat) : Bool :=
  let half := 2 ^ (sh - 1)
  match rm with
  | .rne => decide (rem > half) || (rem == half && (sticky || toBit M))
  | .rz => false
  | .rup => !neg && (decide (rem ≠ 0) || sticky)
  | .rdn => neg && (decide (rem ≠ 0) || sticky)
  | .rna => decide (rem ≥ half)
  | .sr => decide (r < rem * 2 ^ 16 / 2 ^ sh)

/-- `m * 2^e` rounded to a multiple of `2^q`: the multiple and whether it is inexact. A shift far past the
mantissa leaves only a sticky remainder. -/
def roundAt (rm : RM) (neg : Bool) (m : Nat) (e q : Int) (sticky : Bool) (r : Nat) : Nat × Bool :=
  if q ≤ e then (m * 2 ^ (e - q).toNat, sticky)
  else
    let d := (q - e).toNat
    let far := decide (d > bitLen m + 20)
    let sh := if far then bitLen m + 20 else d
    let M := m / 2 ^ sh
    let rem := m % 2 ^ sh
    (M + bit (stepsAway rm neg M rem sh sticky r), decide (rem ≠ 0) || sticky)

/-- PS8 magnitudes in units of 2^-6 (R117). -/
def ps8Mags : List Nat :=
  [0, 1, 2, 3, 4, 5, 6, 7, 8, 9, 10, 12, 14, 15, 16, 17, 18, 20, 24, 28] ++
  [30, 31, 32, 33, 34, 36, 40, 48, 56, 60, 62, 63, 64, 65, 66, 68, 72, 80, 96, 128]

/-- The exponent `e` in 0 to 6 with `2^(6-e) = n`, if there is one. -/
def ps8Exp (n : Nat) : Option Nat := (List.range 7).find? fun e => 2 ^ (6 - e) == n

/-- The canonical PS8 encoding of a magnitude and sign (R118). -/
def ps8Canon (neg : Bool) (n : Nat) : Nat :=
  if n = 0 then 0x77
  else
    let s := bit neg
    let e1 := ((List.range 7).find? fun e => decide (2 ^ (6 - e) ≤ n)).getD 6
    if 2 ^ (6 - e1) = n then s * 128 + e1 * 16 + 7
    else
      match ps8Exp (n - 2 ^ (6 - e1)) with
      | some e2 => s * 128 + e1 * 16 + s * 8 + e2
      | none =>
        match ps8Exp (2 ^ (7 - e1) - n) with
        | some e2 => s * 128 + (e1 - 1) * 16 + (1 - s) * 8 + e2
        | none => 0x77

/-- ROUND into PS8 (R118, R126): nearest magnitude, a tie to the smaller under RNE and to the larger under
RNA; a magnitude above 2 overflows to ±2. PS8 never sets UF (R190). -/
def roundPs8 (rm : RM) (ovf : Ovf) (neg : Bool) (m : Nat) (e : Int) : FRes :=
  -- compare in units of 2^-6 / 2^k with k = max (-6 - e) 0
  let k := (-6 - e).toNat
  let v := m * 2 ^ (e + 6).toNat
  let top := 128 * 2 ^ k
  if v > top then ⟨if neg then 0x88 else 0x00, fOF ||| fIX, decide (ovf = .trap)⟩
  else
    let lo := (ps8Mags.filter fun g => decide (g * 2 ^ k ≤ v)).foldl max 0
    if lo * 2 ^ k = v then fres (ps8Canon neg lo) 0
    else
      let hi := (ps8Mags.find? fun g => decide (v < g * 2 ^ k)).getD 128
      let dl := v - lo * 2 ^ k
      let dh := hi * 2 ^ k - v
      let up := match rm with
        | .rne => decide (dh < dl)
        | .rna => decide (dh ≤ dl)
        | .rz => false
        | .rup => !neg
        | .rdn => neg
        | .sr => false
      let n := if up then hi else lo
      fres (ps8Canon neg n) fIX

/-- The delivered result of an overflow (Table 4.5). -/
def overflow (t : FTy) (rm : RM) (ovf : Ovf) (neg : Bool) : FRes :=
  let fl := fOF ||| fIX
  let big := withSign t neg (maxFinite t)
  if t = .f4 then ⟨big, fl, decide (ovf = .trap)⟩
  else
    match ovf with
    | .inf =>
      if t = .e4 then ⟨canonNaN t, fl, false⟩
      else
        let toZero := decide (rm = .rz) || (decide (rm = .rup) && neg) || (decide (rm = .rdn) && !neg)
        ⟨if toZero then big else infBits t neg, fl, false⟩
    | .sat => ⟨big, fl, false⟩
    | .nan => ⟨canonNaN t, fl, false⟩
    | .trap => ⟨big, fl, true⟩

/-- ROUND of a nonzero or sticky magnitude into a format (R122, R123, R126, R128, R130): subnormal range,
then overflow; tininess after rounding with an unbounded exponent. `ftz` writes a tiny result as zero. -/
def roundNum (t : FTy) (rm : RM) (ovf : Ovf) (ftz : Bool) (r : Nat) (neg : Bool) (m : Nat) (e : Int)
    (sticky : Bool) : FRes :=
  let f := t.fmt
  let p : Int := f.mbits + 1
  let qmin : Int := 1 - (f.bias : Int) - f.mbits
  let qu : Int := e + bitLen m - p
  let q := max qu qmin
  let (M, inexact) := roundAt rm neg m e q sticky r
  let (Mu, _) := roundAt rm neg m e qu sticky r
  let tiny := if qu ≥ qmin then false else if qu < qmin - 1 then true else decide (Mu < 2 ^ (f.mbits + 1))
  let bits := ((q - qmin).toNat) * 2 ^ f.mbits + M
  if bits > maxFinite t then overflow t rm ovf neg
  else if tiny && ftz then fres (withSign t neg 0) (fUF ||| fIX)
  else
    fres (withSign t neg bits)
      ((if tiny && inexact then fUF else 0) ||| (if inexact then fIX else 0))

/-- The delivered result of an exact value (R122 to R130). An infinity into FP8E4, FP4 or PS8 is an
overflow of its sign (R126). A signalling NaN sets IV; so does any NaN into FP4 or PS8 (R127). -/
def deliver (t : FTy) (rm : RM) (ovf : Ovf) (ftz : Bool) (r : Nat) : FVal → FRes
  | .nan s => fres (canonNaN t) (if s || t == .f4 || t == .ps8 then fIV else 0)
  | .inf neg =>
    if t = .e4 ∨ t = .f4 then overflow t rm ovf neg
    else if t = .ps8 then ⟨if neg then 0x88 else 0x00, fOF ||| fIX, decide (ovf = .trap)⟩
    else fres (infBits t neg) 0
  | .fin neg m e sticky =>
    if t = .ps8 then roundPs8 rm ovf neg m e
    else if m = 0 ∧ sticky = false then fres (withSign t neg 0) 0
    else roundNum t rm ovf ftz r neg m e sticky

/-- Flush of a subnormal source pattern to a zero of its sign, when flush-to-zero is in effect (R130). -/
def flushSrc (t : FTy) (ftz : Bool) (b : Nat) : Nat :=
  if ftz && (t == .f32 || t == .f16) && (b / 2 ^ t.fmt.mbits % 2 ^ t.fmt.ebits == 0) then
    withSign t (signOf t b) 0
  else b

/-- Flush-to-zero acts on .F32 and .F16 only (R130). -/
def ftzFor (t : FTy) (ctlFtz insFtz : Bool) : Bool := (t == .f32 || t == .f16) && (ctlFtz || insFtz)

/-- The sign mode on source A (R174): only the top bit changes. -/
def signMode (t : FTy) (s : Sgn) (a b : Nat) : Nat :=
  let h := 2 ^ (t.width - 1)
  let low := a % h
  match s with
  | .none => a
  | .neg => if signOf t a then low else low + h
  | .abs => low
  | .cps => if signOf t b then low + h else low

/-- A signed integer times `2^e`, as a value; a zero is `+0` except under RDN (R128). -/
def ofSum (rm : RM) (v : Int) (e : Int) : FVal :=
  if v = 0 then .fin (decide (rm = .rdn)) 0 0 false else .fin (decide (v < 0)) v.natAbs e false

/-- The signed mantissa of a finite value. -/
def smant (neg : Bool) (m : Nat) : Int := if neg then -(m : Int) else m

/-- Whether a value is a NaN. -/
def FVal.isNaN : FVal → Bool
  | .nan _ => true
  | .inf _ => false
  | .fin _ _ _ _ => false

/-- Whether a value is a signalling NaN. -/
def FVal.isSig : FVal → Bool
  | .nan s => s
  | .inf _ => false
  | .fin _ _ _ _ => false

/-- The exact sum of two values; the sign of an exact zero follows R128. `∞ − ∞` is a signalling NaN, so
that it sets IV. -/
def vadd (rm : RM) : FVal → FVal → FVal
  | .nan s, .nan s' => .nan (s || s')
  | .nan s, _ => .nan s
  | _, .nan s => .nan s
  | .inf a, .inf b => if a = b then .inf a else .nan true
  | .inf a, .fin _ _ _ _ => .inf a
  | .fin _ _ _ _, .inf b => .inf b
  | .fin a m e _, .fin b n f _ =>
    if m = 0 ∧ n = 0 then .fin (if a = b then a else decide (rm = .rdn)) 0 0 false
    else
      let g := min e f
      ofSum rm (smant a m * 2 ^ (e - g).toNat + smant b n * 2 ^ (f - g).toNat) g

/-- The exact product; `0 × ∞` is a signalling NaN, so that it sets IV (R128). -/
def vmul : FVal → FVal → FVal
  | .nan s, .nan s' => .nan (s || s')
  | .nan s, _ => .nan s
  | _, .nan s => .nan s
  | .inf a, .inf b => .inf (a != b)
  | .inf a, .fin b n _ _ => if n = 0 then .nan true else .inf (a != b)
  | .fin a m _ _, .inf b => if m = 0 then .nan true else .inf (a != b)
  | .fin a m e _, .fin b n f _ => .fin (a != b) (m * n) (e + f) false

/-- The negated value. -/
def vneg : FVal → FVal
  | .nan s => .nan s
  | .inf a => .inf (!a)
  | .fin a m e s => .fin (!a) m e s

/-- A product and an addend (R177): a product `0 × ∞` is invalid whatever the addend. -/
def vfma (rm : RM) (a b c : FVal) : FVal :=
  match vmul a b, c with
  | .nan s, .nan s' => .nan (s || s')
  | p, c => vadd rm p c

/-- Common parameters of an arithmetic instruction: type, rounding, flush-to-zero in effect, sign mode. -/
structure FCtx where
  t : FTy
  rm : RM
  ftz : Bool
  sgn : Sgn
  deriving DecidableEq, Repr

/-- Source A with its sign mode and flush. -/
def FCtx.a (c : FCtx) (a b : Nat) : Nat := flushSrc c.t c.ftz (signMode c.t c.sgn a b)

/-- A source other than A. -/
def FCtx.s (c : FCtx) (b : Nat) : Nat := flushSrc c.t c.ftz b

/-- Delivery under the INF row (R126). -/
def FCtx.out (c : FCtx) (v : FVal) : FRes := deliver c.t c.rm .inf c.ftz 0 v

/-- FADD (R177). -/
def fAdd (c : FCtx) (a b : Nat) : FRes := c.out (vadd c.rm (fdec c.t (c.a a b)) (fdec c.t (c.s b)))
/-- FSUB (R177): the addend's sign is changed; a NaN stays one. -/
def fSub (c : FCtx) (a b : Nat) : FRes := c.out (vadd c.rm (fdec c.t (c.a a b)) (vneg (fdec c.t (c.s b))))
/-- FMUL (R177). -/
def fMul (c : FCtx) (a b : Nat) : FRes := c.out (vmul (fdec c.t (c.a a b)) (fdec c.t (c.s b)))
/-- FFMA (R177). -/
def fFma (c : FCtx) (a b d : Nat) : FRes :=
  c.out (vfma c.rm (fdec c.t (c.a a b)) (fdec c.t (c.s b)) (fdec c.t (c.s d)))

/-- Comparison of two finite or infinite values: negative, zero or positive. -/
def vcmp : FVal → FVal → Int
  | .inf a, .inf b => if a = b then 0 else if a then -1 else 1
  | .inf a, _ => if a then -1 else 1
  | _, .inf b => if b then 1 else -1
  | .fin a m e _, .fin b n f _ =>
    let g := min e f
    let x := smant a m * 2 ^ (e - g).toNat
    let y := smant b n * 2 ^ (f - g).toNat
    if x < y then -1 else if y < x then 1 else 0
  | .nan _, _ => 0
  | _, .nan _ => 0

/-- FMIN and FMAX (R178): the bits of the operand chosen, −0 below +0; IV for a signalling NaN only. -/
def fMinMax (t : FTy) (isMax prop : Bool) (a b : Nat) : FRes :=
  let x := fdec t a
  let y := fdec t b
  let fl : FFlags := if x.isSig || y.isSig then fIV else 0
  if x.isNaN || y.isNaN then
    (if prop || (x.isNaN && y.isNaN) then fres (canonNaN t) fl
     else fres (if x.isNaN then b else a) fl)
  else
    let k := vcmp x y
    let aFirst := if k = 0 then signOf t a else decide (k < 0)   -- a is the lower of the two
    fres (if aFirst != isMax then a else b) fl

/-- FCMP (R179): the relation and the flags. -/
def fCompare (t : FTy) (rel : Rel) (a b : Nat) : Bool × FFlags :=
  let x := fdec t a
  let y := fdec t b
  let nan := x.isNaN || y.isNaN
  let sig : FFlags := if x.isSig || y.isSig then fIV else 0
  let any : FFlags := if nan then fIV else 0
  let k := vcmp x y
  match rel with
  | .eq => (!nan && decide (k = 0), sig)
  | .ne => (nan || decide (k ≠ 0), sig)
  | .lt => (!nan && decide (k < 0), any)
  | .le => (!nan && decide (k ≤ 0), any)
  | .gt => (!nan && decide (0 < k), any)
  | .ge => (!nan && decide (0 ≤ k), any)
  | .un => (nan, sig)

/-- FCLASS (Table 6.3). -/
def fClass (t : FTy) (b : Nat) : Nat :=
  let f := t.fmt
  let ex := b / 2 ^ f.mbits % 2 ^ f.ebits
  match fdec t b with
  | .nan s => if s then 0x100 else 0x200
  | .inf neg => if neg then 0x001 else 0x080
  | .fin neg m _ _ =>
    if m = 0 then (if neg then 0x008 else 0x010)
    else if ex = 0 then (if neg then 0x004 else 0x020)
    else (if neg then 0x002 else 0x040)

/-- FRND (R181): rounded to an integral value; never IX, OF or UF. -/
def fRound (c : FCtx) (a : Nat) : FRes :=
  match fdec c.t (c.a a 0) with
  | .nan s => fres (canonNaN c.t) (if s then fIV else 0)
  | .inf neg => fres (infBits c.t neg) 0
  | .fin neg m e _ =>
    let (M, _) := roundAt c.rm neg m e 0 false 0
    if 0 ≤ e then c.out (.fin neg m e false)
    else fres (deliver c.t c.rm .inf false 0 (.fin neg M 0 false)).bits 0

/-- FSCALE (R182): `a × 2^n`, one rounding. -/
def fScale (c : FCtx) (a : Nat) (n : Int) : FRes :=
  match fdec c.t (c.a a 0) with
  | .nan s => fres (canonNaN c.t) (if s then fIV else 0)
  | .inf neg => fres (infBits c.t neg) 0
  | .fin neg m e _ => c.out (.fin neg m (e + n) false)

/-- Integer square root, one bit of the root at a time from bit `k - 1` down. -/
def isqrtFrom (n : Nat) : Nat → Nat → Nat
  | 0, r => r
  | k + 1, r => isqrtFrom n k (if (r + 2 ^ k) * (r + 2 ^ k) ≤ n then r + 2 ^ k else r)

/-- The largest `r` with `r * r ≤ n`. -/
def isqrt (n : Nat) : Nat := isqrtFrom n (bitLen n / 2 + 1) 0

/-- FDIV (R131): quotient with 130 bits and a sticky remainder. -/
def vdiv : FVal → FVal → FVal × FFlags
  | .nan s, .nan s' => (.nan (s || s'), 0)
  | .nan s, _ => (.nan s, 0)
  | _, .nan s => (.nan s, 0)
  | .inf _, .inf _ => (.nan true, 0)
  | .inf a, .fin b _ _ _ => (.inf (a != b), 0)
  | .fin a _ _ _, .inf b => (.fin (a != b) 0 0 false, 0)
  | .fin a m e _, .fin b n f _ =>
    if n = 0 then (if m = 0 then (.nan true, 0) else (.inf (a != b), fDZ))
    else if m = 0 then (.fin (a != b) 0 0 false, 0)
    else
      let k := 130 + bitLen n
      let q := m * 2 ^ k / n
      (.fin (a != b) q (e - f - k) (decide (m * 2 ^ k % n ≠ 0)), 0)

/-- FSQRT (R131). -/
def vsqrt : FVal → FVal
  | .nan s => .nan s
  | .inf neg => if neg then .nan true else .inf false
  | .fin neg m e _ =>
    if m = 0 then .fin neg 0 0 false
    else if neg then .nan true
    else
      let odd := (e % 2).toNat
      let n := m * 2 ^ (odd + 256)
      let r := isqrt n
      .fin false r ((e - odd) / 2 - 128) (decide (r * r ≠ n))

/-- FRSQ (R131): the root of `2^(2k) / m`. -/
def vrsqrt : FVal → FVal × FFlags
  | .nan s => (.nan s, 0)
  | .inf neg => (if neg then .nan true else .fin false 0 0 false, 0)
  | .fin neg m e _ =>
    if m = 0 then (.inf neg, fDZ)
    else if neg then (.nan true, 0)
    else
      let odd := (e % 2).toNat
      let n := m * 2 ^ odd
      let k := 160 + bitLen n
      let r := isqrt (2 ^ (2 * k) / n)
      (.fin false r (-(e - odd) / 2 - k) (decide (r * r * n ≠ 2 ^ (2 * k))), 0)

/-- Fixed-point scale of the series below. -/
def fxBits : Nat := 200
/-- `ln 2 * 2^200`, rounded down. -/
def fxLn2 : Nat := 1113844574712631719546256151097547306333272293549090750737802
/-- `π * 2^200`, rounded down. -/
def fxPi : Nat := 5048344754617993871973410141242436836214643421488662971535368

/-- `Σ t^k / k!` in fixed point, `k` from the given term on. -/
def fxExp (t : Nat) : Nat → Nat → Nat → Nat
  | 0, _, _ => 0
  | fuel + 1, k, term => term + fxExp t fuel (k + 1) (term * t / 2 ^ fxBits / (k + 1))

/-- `Σ z^(2k+1) / (2k+1)` in fixed point. -/
def fxAtanh (z2 : Nat) : Nat → Nat → Nat → Nat
  | 0, _, _ => 0
  | fuel + 1, k, pw => pw / (2 * k + 1) + fxAtanh z2 fuel (k + 1) (pw * z2 / 2 ^ fxBits)

/-- Alternating series with terms `term * t2 / ((j+1)(j+2))`: sine from `j = 1`, cosine from `j = 0`. -/
def fxAlt (t2 : Nat) : Nat → Nat → Int → Int
  | 0, _, _ => 0
  | fuel + 1, j, term => term - fxAlt t2 fuel (j + 2) (term * t2 / 2 ^ fxBits / ((j + 1) * (j + 2)))

/-- `sin(π r)` for `0 ≤ r ≤ 1/4`, `r` and the result in fixed point. -/
def fxSinPi (r : Nat) : Nat :=
  let t := fxPi * r / 2 ^ fxBits
  (fxAlt (t * t / 2 ^ fxBits) 30 1 t).toNat

/-- `cos(π r)` for `0 ≤ r ≤ 1/4`. -/
def fxCosPi (r : Nat) : Nat :=
  let t := fxPi * r / 2 ^ fxBits
  (fxAlt (t * t / 2 ^ fxBits) 30 0 (2 ^ fxBits : Nat)).toNat

/-- FEXP2 (R131, Table 4.6). An integer argument gives an exact power; any other result is irrational and
carries the sticky bit. -/
def vexp2 : FVal → FVal
  | .nan s => .nan s
  | .inf neg => if neg then .fin false 0 0 false else .inf false
  | .fin neg m e _ =>
    if m = 0 then .fin false 1 0 false
    else if e + bitLen m > 16 then
      -- far out of range of every format
      (if neg then .fin false 1 (-100000) true else .fin false 1 100000 false)
    else if 0 ≤ e then .fin false 1 (smant neg (m * 2 ^ e.toNat)) false
    else if e + bitLen m < -90 then
      (if neg then .fin false (2 ^ fxBits - 1) (-(fxBits : Int)) true else .fin false (2 ^ fxBits) (-(fxBits : Int)) true)
    else
      let d : Nat := 2 ^ (-e).toNat
      let v := smant neg m
      let n := v / d
      let fr : Nat := (v - n * d).toNat * 2 ^ fxBits / d
      if v % d = 0 then .fin false 1 n false
      else .fin false (fxExp (fr * fxLn2 / 2 ^ fxBits) 60 0 (2 ^ fxBits)) (n - fxBits) true

/-- FLOG2 (R131, Table 4.6). A power of two gives an exact integer. -/
def vlog2 : FVal → FVal × FFlags
  | .nan s => (.nan s, 0)
  | .inf neg => (if neg then .nan true else .inf false, 0)
  | .fin neg m e _ =>
    if m = 0 then (.inf true, fDZ)
    else if neg then (.nan true, 0)
    else
      let l := bitLen m - 1
      let n : Int := e + l
      if m = 2 ^ l then (if n = 0 then .fin false 0 0 false else .fin (decide (n < 0)) n.natAbs 0 false, 0)
      else
        -- mantissa in [1, 2); above 1.4 it is halved, so that the logarithm is small near 1
        let hi := decide (m * 5 > 7 * 2 ^ l)
        let n' : Int := if hi then n + 1 else n
        let den := if hi then 2 ^ (l + 1) else 2 ^ l
        let zneg := decide (m < den)
        let num := if zneg then den - m else m - den
        let z := num * 2 ^ fxBits / (m + den)
        let ln := 2 * fxAtanh (z * z / 2 ^ fxBits) 80 0 z
        let lg := ln * 2 ^ fxBits / fxLn2
        let total : Int := n' * 2 ^ fxBits + (if zneg then -(lg : Int) else lg)
        (.fin (decide (total < 0)) total.natAbs (-(fxBits : Int)) true, 0)

/-- `|sin|` or `|cos|` of `π x` for `x = m / d` in `[0, 2)`: the quadrant reduced to an eighth, with the
exact values at multiples of a half. `c` asks for the cosine. The first component is the sign. -/
def vcirc (c : Bool) (m d : Nat) : FVal :=
  let x := if c then m * 2 + d else m * 2   -- cos(πx) = sin(π(x + 1/2)); units of 1/(2d)
  let x := x % (4 * d)
  let neg := decide (x ≥ 2 * d)
  let y := x % (2 * d)                      -- sin(π y/(2d)), 0 ≤ y < 2d
  let y := if y > d then 2 * d - y else y   -- 0 ≤ y ≤ d, that is 0 to 1/2
  if y = 0 then .fin false 0 0 false
  else if y = d then .fin neg 1 0 false
  else if 2 * y ≤ d then
    .fin neg (fxSinPi (y * 2 ^ fxBits / (2 * d))) (-(fxBits : Int)) true
  else
    let v := fxCosPi ((d - y) * 2 ^ fxBits / (2 * d))
    .fin neg (min v (2 ^ fxBits - 1)) (-(fxBits : Int)) true

/-- FSINPI and FCOSPI (R131, Table 4.6). -/
def vsincos (c : Bool) : FVal → FVal
  | .nan s => .nan s
  | .inf _ => .nan true
  | .fin neg m e _ =>
    if m = 0 then (if c then .fin false 1 0 false else .fin neg 0 0 false)
    else if 0 ≤ e then
      (if c then .fin (e == 0 && toBit m) 1 0 false else .fin neg 0 0 false)
    else if e + bitLen m < -60 then
      -- sin(πx) is πx to far more than the precision of any format; cos(πx) lies just below 1
      (if c then .fin false (2 ^ fxBits - 1) (-(fxBits : Int)) true
       else .fin neg (fxPi * m) (e - fxBits) true)
    else
      let d : Nat := 2 ^ (-e).toNat
      match vcirc c (m % (2 * d)) d with
      | .fin s M E st =>
        if M = 0 then .fin (!c && neg) 0 0 false
        else .fin (if c then s else s != neg) M E st
      | v => v

/-- FDIV. -/
def fDiv (c : FCtx) (a b : Nat) : FRes :=
  let (v, fl) := vdiv (fdec c.t (c.a a b)) (fdec c.t (c.s b))
  let r := c.out v
  { r with fl := r.fl ||| fl }
/-- FSQRT. -/
def fSqrt (c : FCtx) (a : Nat) : FRes := c.out (vsqrt (fdec c.t (c.a a 0)))
/-- FRCP: `1 / a`. -/
def fRcp (c : FCtx) (a : Nat) : FRes :=
  let (v, fl) := vdiv (.fin false 1 0 false) (fdec c.t (c.a a 0))
  let r := c.out v
  { r with fl := r.fl ||| fl }
/-- FRSQ. -/
def fRsq (c : FCtx) (a : Nat) : FRes :=
  let (v, fl) := vrsqrt (fdec c.t (c.a a 0))
  let r := c.out v
  { r with fl := r.fl ||| fl }
/-- FEXP2. -/
def fExp2 (c : FCtx) (a : Nat) : FRes := c.out (vexp2 (fdec c.t (c.a a 0)))
/-- FLOG2. -/
def fLog2 (c : FCtx) (a : Nat) : FRes :=
  let (v, fl) := vlog2 (fdec c.t (c.a a 0))
  let r := c.out v
  { r with fl := r.fl ||| fl }
/-- FSINPI. -/
def fSinPi (c : FCtx) (a : Nat) : FRes := c.out (vsincos false (fdec c.t (c.a a 0)))
/-- FCOSPI. -/
def fCosPi (c : FCtx) (a : Nat) : FRes := c.out (vsincos true (fdec c.t (c.a a 0)))

/-- Element `i` of a packed 32-bit register (R185). -/
def half16 (x i : Nat) : Nat := x / 2 ^ (16 * i) % 65536

/-- A packed operation on both elements, with the union of their flags (R185). -/
def packed2 (f : Nat → FRes) : FRes :=
  let r0 := f 0
  let r1 := f 1
  ⟨r0.bits + r1.bits * 65536, r0.fl ||| r1.fl, false⟩

/-- A finite value is a zero. -/
def FVal.isZero : FVal → Bool
  | .fin _ m _ s => m == 0 && !s
  | .nan _ => false
  | .inf _ => false

/-- The sign of a value. -/
def FVal.neg : FVal → Bool
  | .nan _ => false
  | .inf n => n
  | .fin n _ _ _ => n

/-- Exact sum of a list of values (DOT2, DOT4, R186): a NaN or opposite infinities give NaN; zeros of one
sign keep it (R128). -/
def vsum (rm : RM) (l : List FVal) : FVal :=
  if l.any FVal.isNaN then .nan (l.any FVal.isSig)
  else
    let infs := l.filter fun v => match v with | .inf _ => true | _ => false
    if infs.any FVal.neg && infs.any (fun v => !v.neg) then .nan true
    else match infs with
      | v :: _ => v
      | [] =>
        if l.all FVal.isZero then
          .fin (if l.all FVal.neg then true else if l.all (fun v => !v.neg) then false else decide (rm = .rdn)) 0 0 false
        else
          l.foldl (fun acc v =>
            match acc, v with
            | .fin a m e _, .fin b n f _ =>
              let g := min e f
              ofSum rm (smant a m * 2 ^ (e - g).toNat + smant b n * 2 ^ (f - g).toNat) g
            | x, _ => x) (.fin false 0 0 false)

/-- DOT2 and DOT4 (R186, R187): `c + Σ a_j b_j`, products and sum exact, one rounding into FP32. `ta`, `tb`
are the element types, `n` the elements, `fs` the sources' flush, `fc` that of `c` and the result. -/
def fDot (ta tb : FTy) (n : Nat) (rm : RM) (fs fc : Bool) (a b c : Nat) : FRes :=
  let el (t : FTy) (x j : Nat) := fdec t (flushSrc t fs (x / 2 ^ (t.width * j) % 2 ^ t.width))
  let ps := (List.range n).map fun j => vmul (el ta a j) (el tb b j)
  deliver .f32 rm .inf fc 0 (vsum rm (fdec .f32 (flushSrc .f32 fc c) :: ps))

/-- The exact value of a source of CVT: a floating-point pattern, or an integer (R190). -/
def nval : NTy → Bool → Nat → FVal
  | .flt t, ftz, b => fdec t (flushSrc t ftz (b % 2 ^ t.width))
  | .int t, _, b =>
    let w := t.width
    let u := b % 2 ^ w
    let sgn := t == .s32 || t == .s64 || t == .s16 || t == .s8 || t == .s4
    if sgn && toBit (u / 2 ^ (w - 1)) then .fin true (2 ^ w - u) 0 false else .fin false u 0 false

/-- The rounding of a finite value to an integer (R190). -/
def toInt (rm : RM) (neg : Bool) (m : Nat) (e : Int) : Int × Bool :=
  let (M, ix) := roundAt rm neg m e 0 false 0
  (smant neg M, ix)

/-- The result of CVT to an integer type, as an exact integer, with its flags (R190). -/
def cvtInt (t : ITy) (rm : RM) : FVal → Int × FFlags
  | .nan _ => (0, fIV)
  | .inf neg => (if neg then t.tmin else t.tmax, fIV)
  | .fin neg m e _ =>
    if m ≠ 0 ∧ e > 80 then (if neg then t.tmin else t.tmax, fIV)
    else
      let (v, ix) := toInt rm neg m e
      if v < t.tmin then (t.tmin, fIV)
      else if t.tmax < v then (t.tmax, fIV)
      else (v, if ix then fIX else 0)

/-- One element of an S8 or S4 block (R192): range overflow sets OF and IX, a NaN gives 0 and IV. -/
def quantInt (w : Nat) (rm : RM) (ovf : Ovf) (r : Nat) : FVal → FRes
  | .nan _ => fres 0 fIV
  | .inf neg => ⟨(if neg then 2 ^ (w - 1) else 2 ^ (w - 1) - 1), fOF ||| fIX, decide (ovf = .trap)⟩
  | .fin neg m e st =>
    let far := decide (m ≠ 0 ∧ e > 80)
    let (M, ix) := if far then (2 ^ w, true) else roundAt rm neg m e 0 st r
    let v := smant neg M
    if v < -(2 ^ (w - 1) : Int) ∨ (2 ^ (w - 1) : Int) - 1 < v then
      ⟨(if neg then 2 ^ (w - 1) else 2 ^ (w - 1) - 1), fOF ||| fIX, decide (ovf = .trap)⟩
    else fres (v % (2 ^ w : Int)).toNat (if ix then fIX else 0)

/-- A value times `2^k`. -/
def vscale (k : Int) : FVal → FVal
  | .nan s => .nan s
  | .inf n => .inf n
  | .fin n m e s => .fin n m (e + k) s

end Sys2Proof.Machine
end

