-- ==== Sys2Proof/Machine/Operands.lean ====
section
/-!
DEFINITION. Operand forms and the integer, bit and block operations on raw register values (R137 to
R156, R191 to R204). A raw value is a natural number: 32 bits of a vector register, 64 bits of a pair
or of a uniform register.
-/
namespace Sys2Proof

/-- The type of an I-form or L-form of group 0 (Table 3.5). -/
def ISize.ty : ISize → ITy
  | .s32 => .s32
  | .n32 => .n32
  | .s64 => .s64
  | .n64 => .n64

/-- The bit-string type of a logic or shift I-form or L-form (R145). -/
def ISize.bty : ISize → ITy
  | .s32 | .n32 => .b32
  | .s64 | .n64 => .b64

/-- A 24-bit immediate sign-extended to 64 bits. -/
def sext24 (imm : BitVec 24) : Nat := (imm.signExtend 64).toNat

/-- A widened I-form immediate of group 0 (Table 3.5): sign-extended for SIZE 0 and 2. -/
def ISize.widen (sz : ISize) (imm : BitVec 24) : Nat :=
  match sz with
  | .s32 | .s64 => sext24 imm
  | .n32 | .n64 => imm.toNat

/-- The width to which a source operand of REDUX, SCAN, CVT or AMAX is read. -/
def NTy.width : NTy → Nat
  | .int t => t.width
  | .flt t => t.width

/-- Bits of a register that holds a result of this type: 64 for a pair, else 32. -/
def ITy.regBits (t : ITy) : Nat := if t.width = 64 then 64 else 32

end Sys2Proof

namespace Sys2Proof.Machine
open Sys2Proof

/-- READ (R137): the exact integer that a raw operand holds under a type. -/
def readI (t : ITy) (x : Nat) : Int :=
  let b := x % 2 ^ t.width
  if t.signed && toBit (b / 2 ^ (t.width - 1)) then (b : Int) - 2 ^ t.width else b

/-- The low `n` bits of an exact integer, as a pattern. -/
def wrap (n : Nat) (v : Int) : Nat := (v % (2 ^ n : Int)).toNat

/-- WRITE (R137): saturation, wrap to the width, extension of a narrow result to 32 bits by its signedness. -/
def writeI (t : ITy) (sat : Bool) (v : Int) : Nat :=
  let v := if sat then min (max v t.tmin) t.tmax else v
  let u := wrap t.width v
  if t.width = 64 then u else wrap 32 (readI t u)

/-- IADD (Table 5.1). -/
def opAdd (t : ITy) (sat : Bool) (a b : Nat) : Nat := writeI t sat (readI t a + readI t b)
/-- ISUB. -/
def opSub (t : ITy) (sat : Bool) (a b : Nat) : Nat := writeI t sat (readI t a - readI t b)
/-- IADDC: result and carry-out (R143). -/
def opAddc (t : ITy) (a b : Nat) (cin : Bool) : Nat × Bool :=
  let s := a % 2 ^ t.width + b % 2 ^ t.width + bit cin
  (s % 2 ^ t.width, toBit (s / 2 ^ t.width))
/-- INEG. -/
def opNeg (t : ITy) (sat : Bool) (a : Nat) : Nat := writeI t sat (0 - readI t a)
/-- IABS. -/
def opAbs (t : ITy) (sat : Bool) (a : Nat) : Nat := writeI t sat ((readI t a).natAbs : Int)
/-- IMUL. -/
def opMul (t : ITy) (sat : Bool) (a b : Nat) : Nat := writeI t sat (readI t a * readI t b)
/-- IMULH: the floor of the product over 2^W. -/
def opMulh (t : ITy) (a b : Nat) : Nat := writeI t false ((readI t a * readI t b) / 2 ^ t.width)
/-- IMAD. -/
def opMad (t : ITy) (sat : Bool) (a b c : Nat) : Nat := writeI t sat (readI t a * readI t b + readI t c)
/-- The 64-bit type of IMADW's addend and result. -/
def madwTy (t : ITy) : ITy := if t = .s32 then .s64 else .n64
/-- IMADW. -/
def opMadw (t : ITy) (a b c : Nat) : Nat :=
  writeI (madwTy t) false (readI t a * readI t b + readI (madwTy t) c)
/-- IDIV and IREM (R142): the quotient truncated toward zero, the remainder with the dividend's sign. The
last component says that the divisor is zero. -/
def opDivRem (t : ITy) (rem : Bool) (a b : Nat) : Nat × Bool :=
  let x := readI t a
  let y := readI t b
  if y = 0 then (writeI t false (if rem then x else 0), true)
  else (writeI t false (if rem then x.tmod y else x.tdiv y), false)
/-- IMIN. -/
def opMin (t : ITy) (a b : Nat) : Nat := writeI t false (min (readI t a) (readI t b))
/-- IMAX. -/
def opMax (t : ITy) (a b : Nat) : Nat := writeI t false (max (readI t a) (readI t b))
/-- ICLAMP: `c` when `b > c`, by the order of the two operations. -/
def opClamp (t : ITy) (a b c : Nat) : Nat :=
  writeI t false (min (max (readI t a) (readI t b)) (readI t c))
/-- The relations of ICMP (R144). -/
def relI (r : Rel) (x y : Int) : Bool :=
  match r with
  | .eq => decide (x = y)
  | .ne => decide (x ≠ y)
  | .lt => decide (x < y)
  | .le => decide (x ≤ y)
  | .gt => decide (x > y)
  | .ge => decide (x ≥ y)
  | .un => false
/-- ICMP. -/
def opCmp (t : ITy) (r : Rel) (a b : Nat) : Bool := relI r (readI t a) (readI t b)

/-- The low `w` bits. -/
def low (w x : Nat) : Nat := x % 2 ^ w
/-- AND. -/
def opAnd (t : ITy) (a b : Nat) : Nat := low t.width (Nat.land a b)
/-- OR. -/
def opOr (t : ITy) (a b : Nat) : Nat := low t.width (Nat.lor a b)
/-- XOR. -/
def opXor (t : ITy) (a b : Nat) : Nat := low t.width (Nat.xor a b)
/-- NOT. -/
def opNot (t : ITy) (a : Nat) : Nat := 2 ^ t.width - 1 - low t.width a
/-- LOGT (R147): bit `i` is bit `a_i + 2 b_i + 4 c_i` of the table. -/
def opLogt (w table a b c : Nat) : Nat :=
  (List.range w).foldl (fun acc i =>
    let k := a / 2 ^ i % 2 + 2 * (b / 2 ^ i % 2) + 4 * (c / 2 ^ i % 2)
    acc + table / 2 ^ k % 2 * 2 ^ i) 0
/-- A shift count: bits [31:0] of the operand (R146). -/
def shCount (b : Nat) : Nat := b % 2 ^ 32
/-- SHL. -/
def opShl (t : ITy) (a b : Nat) : Nat :=
  if shCount b < t.width then low t.width (low t.width a * 2 ^ shCount b) else 0
/-- SHR. -/
def opShr (t : ITy) (a b : Nat) : Nat := if shCount b < t.width then low t.width a / 2 ^ shCount b else 0
/-- SAR. -/
def opSar (t : ITy) (a b : Nat) : Nat :=
  let w := t.width
  let x : Int := if toBit (a / 2 ^ (w - 1)) then (low w a : Int) - 2 ^ w else low w a
  wrap w (x / 2 ^ min (shCount b) (w - 1))
/-- ROL. -/
def opRol (t : ITy) (a b : Nat) : Nat :=
  let w := t.width
  let n := shCount b % w
  low w (low w a * 2 ^ n) + low w a / 2 ^ (w - n)
/-- FSHL. -/
def opFshl (t : ITy) (a b c : Nat) : Nat :=
  let w := t.width
  low w ((low w a * 2 ^ w + low w b) * 2 ^ (shCount c % w) / 2 ^ w)
/-- POPC (R148). -/
def opPopc (t : ITy) (a : Nat) : Nat := (List.range t.width).foldl (fun n i => n + a / 2 ^ i % 2) 0
/-- CLZ: W for zero. -/
def opClz (t : ITy) (a : Nat) : Nat := t.width - bitLen (low t.width a)
/-- CTZ: W for zero. -/
def opCtz (t : ITy) (a : Nat) : Nat := ((List.range t.width).find? fun i => toBit (a / 2 ^ i)).getD t.width
/-- BREV. -/
def opBrev (t : ITy) (a : Nat) : Nat :=
  (List.range t.width).foldl (fun acc i => acc + a / 2 ^ (t.width - 1 - i) % 2 * 2 ^ i) 0
/-- The clipped length of a bit field (R149). -/
def clipLen (w pos len : Nat) : Nat := if pos ≥ w then 0 else min len (w - pos)
/-- BFX. -/
def opBfx (t : ITy) (a b : Nat) : Nat :=
  let pos := b % 256
  let e := clipLen t.width pos (b / 256 % 256)
  if e = 0 then 0
  else
    let f := low t.width a / 2 ^ pos % 2 ^ e
    if t.signed && toBit (f / 2 ^ (e - 1)) then wrap (ITy.regBits t) ((f : Int) - 2 ^ e) else f
/-- BFI. -/
def opBfi (t : ITy) (a b c : Nat) : Nat :=
  let w := t.width
  let pos := b % 256
  let e := clipLen w pos (b / 256 % 256)
  let c := low w c
  c - c / 2 ^ pos % 2 ^ e * 2 ^ pos + a % 2 ^ e * 2 ^ pos
/-- BYSEL (R150): `y` holds bytes y0 to y7. -/
def opBysel (a b sel : Nat) : Nat :=
  let y := low 32 a + low 32 b * 2 ^ 32
  (List.range 4).foldl (fun acc j =>
    let f := sel / 2 ^ (5 * j) % 32
    let byte := y / 2 ^ (8 * (f % 8)) % 256
    let r := match f / 8 with
      | 0 => byte
      | 1 => if byte ≥ 128 then 255 else 0
      | 2 => 0
      | _ => 255
    acc + r * 2 ^ (8 * j)) 0
/-- LEA (R152). -/
def opLea (t : ITy) (sh : Nat) (a b : Nat) : Nat := wrap 64 ((a : Int) + readI t b * 2 ^ sh)
/-- PLOP and the truth table of three inputs (R155). -/
def opPlop (table : Nat) (a b c : Bool) : Bool := toBit (table / 2 ^ (bit a + 2 * bit b + 4 * bit c))

/-- The lane that LXCH reads (R199): `none` when a slide leaves the segment. -/
def lxchLane (mode : XMode) (seg : Nat) (i b : Nat) (sb : Int) : Option Nat :=
  let w := 2 * 2 ^ seg
  let o := i % w
  let base := i - o
  match mode with
  | .lane => some (base + b % w)
  | .rot => some (base + (o + b) % w)
  | .slide => if 0 ≤ (o : Int) + sb ∧ (o : Int) + sb < w then some (base + ((o : Int) + sb).toNat) else none
  | .flip => some (base + Nat.xor o (b % w))

/-- One combination of REDUX or SCAN on raw values (R201), with its flags. -/
def redStep (op : RedOp) (t : NTy) (ctlFtz : Bool) (a b : Nat) : Nat × FFlags :=
  match t with
  | .int t =>
    (match op with
     | .add => (opAdd t false a b, 0)
     | .min => (opMin t a b, 0)
     | .max => (opMax t a b, 0)
     | .and => (opAnd t a b, 0)
     | .or => (opOr t a b, 0)
     | .xor | .fadd | .fmin | .fmax => (opXor t a b, 0))
  | .flt t =>
    let ftz := ftzFor t ctlFtz false
    let r := match op with
      | .fmin => fMinMax t false false (flushSrc t ftz a) (flushSrc t ftz b)
      | .fmax => fMinMax t true false (flushSrc t ftz a) (flushSrc t ftz b)
      | .fadd | .add | .min | .max | .and | .or | .xor => fAdd ⟨t, .rne, ftz, .none⟩ a b
    (r.bits, r.fl)

/-- The identity of SCAN.EXC (Table 6.7). -/
def redIdentity (op : RedOp) (t : NTy) : Nat :=
  match t with
  | .int t =>
    (match op with
     | .min => writeI t false t.tmax
     | .max => writeI t false t.tmin
     | .and => 2 ^ t.width - 1
     | .add | .or | .xor | .fadd | .fmin | .fmax => 0)
  | .flt t =>
    (match op with
     | .fmin => infBits t false
     | .fmax => infBits t true
     | .fadd | .add | .min | .max | .and | .or | .xor => withSign t true 0)

/-- One stage of the butterfly of R202: lanes whose numbers differ in bit `d` combine. -/
def butterfly (f : Nat → Nat → Nat × FFlags) (d : Nat) (x : List (Option Nat)) : List (Option Nat) × FFlags :=
  let get (i : Nat) : Option Nat := (x[i]?).getD none
  let comb (i : Nat) : Option Nat × FFlags :=
    let lo := get (if toBit (i / d) then i - d else i)
    let hi := get (if toBit (i / d) then i else i + d)
    match lo, hi with
    | some a, some b => let r := f a b; (some r.1, r.2)
    | some a, none => (some a, 0)
    | none, b => (b, 0)
  (laneList.map fun i => (comb i).1,
   laneList.foldl (fun fl i => fl ||| (comb i).2) 0)

/-- Element count of a block format; none for a fenced code (Table 4.3). -/
def blkCount : Nat → Option Nat
  | 0x00 => some 0
  | 0x01 | 0x02 | 0x04 | 0x05 => some 62
  | 0x03 | 0x06 => some 124
  | _ => none

/-- Element type of a block format: `none` for the integer formats. -/
def blkTy : Nat → Option FTy
  | 0x01 => some .e4
  | 0x02 => some .e5
  | 0x03 => some .f4
  | 0x04 => some .ps8
  | _ => none

/-- Bits of a block element. -/
def blkBits (c : Nat) : Nat := if c = 0x03 ∨ c = 0x06 then 4 else 8

/-- Element `j` of a block, its 64 bytes as one number with byte 0 lowest (R119). -/
def blkElem (blk c j : Nat) : Nat := blk / 2 ^ (16 + blkBits c * j) % 2 ^ blkBits c

/-- Value of a block element without the block's scale (R119). -/
def blkVal (c e : Nat) : FVal :=
  match blkTy c with
  | some t => fdec t e
  | none =>
    let w := blkBits c
    if toBit (e / 2 ^ (w - 1)) then .fin true (2 ^ w - e) 0 false else .fin false e 0 false

/-- One element of QBLK (R121, R192): `x × 2^(127 − s)` rounded in format `c`. -/
def quantElem (c s : Nat) (rm : RM) (ovf : Ovf) (r : Nat) (x : FVal) : FRes :=
  let v := vscale (127 - (s : Int)) x
  match blkTy c with
  | some t => deliver t rm ovf false r v
  | none => quantInt (blkBits c) rm ovf r v

/-- The magnitude of a pattern: its sign bit cleared. -/
def fmag (t : FTy) (b : Nat) : Nat := b % 2 ^ (t.width - 1)

/-- AMAX over the participants' values (R194). -/
def opAmax (t : FTy) (prop : Bool) (l : List Nat) : Nat :=
  let nan (b : Nat) : Bool := (fdec t b).isNaN
  if (prop && l.any nan) || l.all nan then canonNaN t
  else (l.filter fun b => !nan b).foldl (fun m b => max m (fmag t b)) 0

/-- The new value of an atomic (Table 7.5, R217). `b` is the operand, `n` the new value of CAS. -/
def atomNew (op : AtomOp) (t : ITy) (old b n : Nat) : Nat :=
  let w := t.width
  match op with
  | .add => wrap w (readI t old + readI t b)
  | .sub => wrap w (readI t old - readI t b)
  | .min => wrap w (min (readI t old) (readI t b))
  | .max => wrap w (max (readI t old) (readI t b))
  | .and => low w (Nat.land old b)
  | .or => low w (Nat.lor old b)
  | .xor => low w (Nat.xor old b)
  | .exch => low w b
  | .cas => if old = low w b then low w n else old
  | .inc => if old ≥ low w b then 0 else old + 1
  | .dec => if old = 0 ∨ old > low w b then low w b else old - 1
  | .fadd =>
    let ft : FTy := if t = .b64 then .f64 else .f32
    (fAdd ⟨ft, .rne, false, .none⟩ old (low w b)).bits

end Sys2Proof.Machine
end

