-- ==== Sys2Proof/Machine/State.lean ====
section
/-!
DEFINITION. The state of a package as plain data, every piece that the manual gives it, the state after
package reset, and the ways in which a step can stop. Cores, dies and links that a table does not list
are in the state of their `{}` record, which is their state after reset.
-/
namespace Sys2Proof.Machine
open Sys2Proof

/-- Byte memory in canonical form: rising addresses, no zero byte listed; an unlisted byte reads 0. -/
abbrev Memory := List Host.Cell

/-! ## Registers -/

/-- A vector slot (R63): written mask and sixteen lane values. -/
structure VSlot where
  mask : Lanes := 0
  vals : List W32 := List.replicate 16 0
  /-- the lap checkpoint refers to the slot: a write allocates another (R70) -/
  lap : Bool := false
  deriving DecidableEq, Repr

/-- A uniform slot (R63). -/
structure USlot where
  mask : Lanes := 0
  val : W64 := 0
  /-- as for a vector slot -/
  lap : Bool := false
  deriving DecidableEq, Repr

/-- The shape and storage of a span register (Table 1.2). -/
inductive Form where
  | u (w : W64)
  | a (base sx sy sz : W64)
  deriving DecidableEq, Repr

/-- A span vector register: bits [31:0] of its form, or bits [63:32] when `hi` (the odd half of a pair). -/
structure SSlot where
  hi : Bool := false
  form : Form
  deriving DecidableEq, Repr

/-- A span predicate (R18, R22): uniform, or an axis, the exact base and coefficient of `h`, a relation. -/
inductive SPred where
  | u (b : Bool)
  | a (axis : Nat) (base coef : Int) (rel : Rel)
  deriving DecidableEq, Repr

/-! ## Waves -/

/-- A trap: cause, subcode and address (Table 13.1). -/
structure Trap where
  cause : Nat
  sub : Nat := 0
  addr : Nat := 0
  deriving DecidableEq, Repr

/-- How far a parked sub-wave's trap has been delivered (R386 to R388). -/
inductive ParkStage where
  | pending
  | recorded (rec : Nat)
  deriving DecidableEq, Repr

/-- A sub-wave parked by a trap (R37). `entry` marks a trap at the start of a clause (R278); `forceRec` one
that goes to a host record whatever its route (R386, R387, TRAPRET.HOST). -/
structure Park where
  trap : Trap
  pc : Nat
  depth : Nat
  entry : Bool := false
  forceRec : Bool := false
  stage : ParkStage := .pending
  deriving DecidableEq, Repr

/-- A layout record (R260). Its format at a team's admission, "the zero block" of R73, is FMT 8, .BLK. Log 88. -/
structure Layout where
  base : Nat := 0
  fmt : Nat := 8
  strides : List Nat := [0, 0, 0, 0]
  extents : List Nat := [0, 0, 0, 0]
  conf : W64 := 0
  deriving DecidableEq, Repr

/-- What a wait instruction holds its lanes for (R78). -/
inductive HoldKind where
  | sync | barArv | barWait | barmWait | waitv | phwait | twait | cntwait | lwait
  | copyTag | copyCheck | copyq | svc | mma | acfg | smap | phclose | fence | access
  deriving DecidableEq, Repr

/-- A held instruction: its participants still held, its flight, the LTIME at which a budget ends, the last
value read, a number that the instruction remembers, and its sources by lane with whether each is released. -/
structure Hold where
  kind : HoldKind
  lanes : Lanes
  flight : Option Nat := none
  deadline : Option Nat := none
  /-- LTIME at which the lanes were first held -/
  since : Nat := 0
  value : W64 := 0
  aux : Nat := 0
  src : Tbl (List (Nat × Bool)) := []
  /-- the team's engine order at the issue (R269, R304) -/
  order : Nat := 0
  /-- layout records that a held MMA read at its issue (R260, R264) -/
  lays : List Layout := []
  /-- the access is a store to the accumulator window (R269) -/
  tiles : Bool := false
  deriving DecidableEq, Repr

/-- The interrupted place of a handler (R386, R278): the trap and the clause and slot it struck. -/
structure Handler where
  park : Park
  clause : Option Clause
  pc : Nat
  slot : Nat
  deriving DecidableEq, Repr

/-- A sub-wave (R36, R47). `pc` is the clause boundary at which it stands, or the base of its fetched clause;
`slot` the next slot of that clause; `joins` its open join records, innermost first. -/
structure SubWave where
  pc : Nat
  mask : Lanes
  depth : Nat := 0
  clause : Option Clause := none
  started : Bool := false
  slot : Nat := 0
  joins : List Nat := []
  age : Nat := 0
  park : Option Park := none
  hold : Option Hold := none
  handler : Option Handler := none
  /-- YIELD: the cycle at which the wait ends, and the port that issued it (R167) -/
  yieldTo : Option (Nat × Nat) := none
  /-- the debugger's single step (R402): 1 while one instruction is to issue, 2 once it has passed and STEP is
  to be raised -/
  stepping : Nat := 0
  /-- the clause and slot of the instruction that the step issued, for a retry of it (Table 13.3) -/
  stepFrom : Option (Clause × Nat) := none
  /-- lanes that a step names and that a collective instruction holds: each is isolated, and raises STEP, when the lanes pass
  it (R38, R402) -/
  stepLanes : Lanes := 0
  /-- a one-lane sub-wave that a step isolated, until it is resumed (R38) -/
  single : Bool := false
  /-- a retried copy arrival opens a rendezvous of its own (R246) -/
  retried : Bool := false
  /-- the undersized instruction at which it stands has been counted (R96) -/
  stalled : Bool := false
  deriving DecidableEq, Repr

/-- A join record (R162 to R164). -/
structure JoinRec where
  mask : Lanes
  depth : Nat
  gone : Lanes := 0
  deriving DecidableEq, Repr

/-- What finishes an operation in flight. -/
inductive FlightKind where
  | result     -- a fixed-latency result or an instruction without one (R138)
  | tracked    -- a tracked operation that completes on its own
  | access     -- a memory access to be performed at its scope
  | engine     -- an engine, the launch unit or the service unit completes it
  | barrier    -- a team barrier's arrival or wait: its flag falls in the cycle after issue (R224)
  | stash (core entry : Nat)   -- the fills and write-backs of a map entry complete it (Table 7.10)
  deriving DecidableEq, Repr

/-- An issued instruction as the scoreboard sees it (R50, R94 to R96): issue clock, latency class, the
registers and predicates it writes, the flag it holds, and whether it has completed. -/
structure Flight where
  born : Nat
  cycle : Nat
  lat : Lat
  kind : FlightKind
  lanes : Lanes
  depth : Nat
  regs : List RegRef
  preds : List Nat
  flag : Option Nat
  done : Bool := false
  /-- phase that a store, atomic or copy write was tagged with, and its die (R221) -/
  tag : Option (Nat × Nat) := none
  deriving DecidableEq, Repr

/-- A wave (R48 to R51). Vector registers are keyed `r` below 16 and `64 * depth + r` above (R46). -/
structure Wave where
  present : Lanes
  live : Lanes
  subs : Tbl SubWave
  vregs : Tbl VSlot := []
  uregs : Tbl USlot := []
  preds : List Lanes := List.replicate 7 0
  flags : List Nat := List.replicate 12 0
  ctl : W64 := 0
  tstat : W64 := 0
  fpflags : W64 := 0
  seed : W64 := 0
  keys : List W64 := List.replicate 16 0
  draws : List (BitVec 40) := List.replicate 16 0
  trapCause : W64 := 0
  trapPc : W64 := 0
  trapAddr : W64 := 0
  clock : Nat := 0
  flights : Tbl Flight := []
  seq : Nat := 0
  joins : Tbl JoinRec := []
  joinSeq : Nat := 0
  age : Nat := 0
  /-- cycle in which the ageing count reached 255 (R356) -/
  ageFull : Nat := 0
  /-- cycle in which the stall count of the last instruction has elapsed (R356) -/
  stallTo : Nat := 0
  /-- depths whose vector frame stands in the backing store (R66) -/
  spilled : List Nat := []
  /-- the uniform frame stands in the backing store (R67) -/
  uspilled : Bool := false
  /-- the slots that only the lap checkpoint holds stand in the backing store (R66) -/
  lapSpilled : Bool := false
  halted : Bool := false
  haltAsked : Bool := false
  deriving DecidableEq, Repr

/-! ## Teams -/

/-- Copy-tag states (R244). -/
inductive TagState where
  | idle | opened | busy | done
  deriving DecidableEq, Repr

/-- Where a piece of a copy reads: an effective address, or a fill of bytes. -/
inductive MoveSrc where
  | addr (ea : Nat)
  | fill (bytes : List Byte)
  deriving DecidableEq, Repr

/-- One run of bytes of a copy, within one line of its destination, written by the item with linear index `item`, whose
arrival has the place `ord` in the team's engine order (R247, R304). -/
structure Move where
  src : MoveSrc
  dst : Nat
  len : Nat
  item : Nat
  ord : Nat := 0
  deriving DecidableEq, Repr

/-- A copy on a tag: the rendezvous (R245), then the data movement with its progress (R247, R248). -/
structure Copy where
  opc : Nat
  w : Nat
  scope : Scope
  cvals : List W64
  counter : Nat
  store : Bool := false
  waves : List Nat := []
  /-- what is still to be moved -/
  moves : List Move := []
  /-- participating items, with the places of their arrivals in the engine order (R305) -/
  items : Tbl Nat := []
  /-- flights of the arrivals, by wave and sequence number -/
  flights : List (Nat × Nat) := []
  pc : Nat := 0
  /-- rendezvous complete; order in which it completed -/
  ready : Option Nat := none
  /-- bytes moved -/
  moved : Nat := 0
  /-- bytes that the copy has overwritten, as they stood before its first write, and whether they carried poison (R247) -/
  old : Tbl (Byte × Bool) := []
  /-- phase tag of its last writes, until they have been performed (R300) -/
  tag : Option (Nat × Nat) := none
  stopped : Option Nat := none
  /-- the shape record and the program that its validation has read: address, length and words of each (R376) -/
  recs : List (Nat × Nat × List Nat) := []
  deriving DecidableEq, Repr

/-- A progress record (Table 2.6, R272). -/
structure Progress where
  k0 : Nat := 0
  k1 : Nat := 0
  split : Bool := false
  deriving DecidableEq, Repr

/-- An MMA in the matrix queue (R264 to R268). -/
structure Mma where
  tile : Nat
  shape : MShape
  z : Bool
  la : Layout
  lb : Layout
  n : Nat
  prog : Progress
  hidden : Option Nat := none
  hiddenData : Memory := []
  cls : Option Nat := none
  started : Bool := false
  tag : Option Nat := none
  flight : Nat × Nat
  /-- layout records that it reads through -/
  ga : Nat
  gb : Nat
  pc : Nat := 0
  /-- issuing items, by linear index (R307) -/
  items : List Nat := []
  /-- chains stopped by a fault and the record raised (R267) -/
  stopped : Option Nat := none
  deriving DecidableEq, Repr

/-- What an ACC.ZERO or ACC.MOV does when it runs (R271). -/
inductive AccOp where
  | zero (tiles : List Nat)
  | mov (froms : Bool) (t : FTy) (rm : RM) (tile : Nat) (off pitch : Nat)
  | ld (lanes : Lanes) (wide : Bool) (d : Nat) (depth : Nat) (tile row chunk : Nat)
  | st (lanes : Lanes) (wide : Bool) (vals : List Nat) (tile row chunk : Nat)
  deriving DecidableEq, Repr

/-- An ACC move of a team, waiting for or running on its tiles (R270, R271). -/
structure AccMove where
  op : AccOp
  flight : Nat × Nat
  pc : Nat := 0
  /-- issuing items, by linear index -/
  items : List Nat := []
  stopped : Option Nat := none
  deriving DecidableEq, Repr

/-- A team barrier (R224): the current generation and, per wave, the lanes that have arrived in it, and the
lanes of earlier generations that have not waited yet are those of no listed arrival. -/
structure Barrier where
  gen : Nat := 0
  arrived : Tbl Lanes := []
  deriving DecidableEq, Repr

/-- A scratch or mapped sector as the undo area keeps it (R394). -/
structure Undo where
  bytes : List Byte
  state : Option Nat := none
  deriving DecidableEq, Repr

/-- A lap checkpoint (R70, R394). `undo` is keyed by core sector; `pending` lists sectors whose undo copy
has not reached device memory (R395). -/
structure Lap where
  waves : Tbl Wave
  layouts : List Layout
  tags : List TagState
  /-- arrivals of the team barriers at the lap's start -/
  bars : List Barrier := []
  undo : Tbl Undo := []
  pending : List Nat := []
  unrecoverable : Bool := false
  errors : Nat := 0
  deriving DecidableEq, Repr

/-- Life of a map entry (R233, R237, R238). -/
inductive EntryState where
  | live (team : Nat)
  | retained
  | displaced
  deriving DecidableEq, Repr

/-- A map entry of a core (Table 7.7, R233). `lo` is its first byte in the core's stash. -/
structure MapEntry where
  st : EntryState
  ctx : Nat
  key : Nat
  base : Nat
  rw : Bool
  retain : Bool
  rstride : Nat
  foff : Nat
  fbytes : Nat
  rpr : Nat
  rowstride : Nat
  rows : Nat
  fmt : Nat
  lo : Nat
  size : Nat
  reused : Bool := false
  /-- the allocation base of the team that made the entry (R233) -/
  allocBase : Nat := 0
  affKey : Nat := 0
  lastUse : Nat := 0
  deriving DecidableEq, Repr

/-- Where a team stands. -/
inductive TeamState where
  | resident
  | swapped (since : Nat)
  | held           -- exited, with live child grids (R41)
  deriving DecidableEq, Repr

/-- A team (R52). -/
structure Team where
  ctx : Nat
  grid : Nat
  cursor : Nat := 0
  index : Nat
  bx : Nat
  by_ : Nat
  bz : Nat
  state : TeamState := .resident
  core : Nat := 0
  order : Nat := 0
  firstOrder : Option Nat := none
  admitTick : Nat := 0
  /-- LTIME at which the affinity wait of a returning team ends (R354) -/
  affUntil : Option Nat := none
  waves : Tbl Wave
  layouts : List Layout := List.replicate 16 {}
  tags : List TagState := List.replicate 64 .idle
  copies : Tbl Copy := []
  bankconf : W64 := 0
  mprog : Progress := {}
  /-- the most recently issued MMA, whose record MPROG shows (R272) -/
  lastMma : Nat := 0
  stashBase : Nat := 0
  stashBytes : Nat := 0
  /-- tiles of the core reserved for the team (R262), in the order of its tile numbers -/
  accTiles : List Nat := []
  accCount : Nat := 0
  accLive : List Nat := []
  acc : Memory := []
  mmas : Tbl Mma := []
  moves : Tbl AccMove := []
  seq : Nat := 0
  bars : List Barrier := List.replicate 4 {}
  children : Nat := 0
  childGrids : List Nat := []
  lap : Option Lap := none
  /-- scratch bytes and map-entry records of a swapped-out team (R364, R237) -/
  savedScratch : Memory := []
  /-- sectors of the allocation that carried poison, by number in it -/
  savedPoison : List Nat := []
  savedEntries : List MapEntry := []
  /-- the team is to be swapped out: no wave of it starts a clause (R363) -/
  stopping : Bool := false
  deriving DecidableEq, Repr

/-! ## Spans, cursors and grids -/

/-- A box of teams (R17). -/
structure Box where
  bx0 : Nat
  bx1 : Nat
  by0 : Nat
  by1 : Nat
  bz0 : Nat
  bz1 : Nat
  deriving DecidableEq, Repr

/-- Where a span stands (R25, R34, R350, R351). -/
inductive SpanState where
  | ready          -- waits for a span slot
  | running (core slot : Nat)
  | parkedJoin (pc since : Nat)
  | parkedFault (core slot : Nat) (rec : Option Nat) (trap : Trap)
  | saved          -- saved by pre-emption
  deriving DecidableEq, Repr

/-- A span (R17, R350). Registers are keyed as in a wave. `cached` is the foundation die that caches its record
(R350). -/
structure Span where
  grid : Nat
  ctx : Nat
  box : Box
  pc : Nat
  depth : Nat := 0
  clause : Option Clause := none
  started : Bool := false
  slot : Nat := 0
  vregs : Tbl SSlot := []
  uregs : Tbl Form := []
  preds : List SPred := List.replicate 7 (.u false)
  flags : List Nat := List.replicate 12 0
  ctl : W64 := 0
  tstat : W64 := 0
  fpflags : W64 := 0
  seed : W64 := 0
  clock : Nat := 0
  /-- as for a wave -/
  stallTo : Nat := 0
  flights : Tbl Flight := []
  seq : Nat := 0
  state : SpanState := .ready
  cached : Option Nat := none
  /-- progress of a block store: linear position of the next item (R31) -/
  blockPos : Nat := 0
  /-- a block store is under way -/
  inBlock : Bool := false
  /-- the undersized instruction at which it stands has been counted (R96) -/
  stalled : Bool := false
  /-- order in which it reached the instruction that cuts it, while it waits for its turn (R25) -/
  cutAt : Option Nat := none
  deriving DecidableEq, Repr

/-- A team cursor (R26): the span it was, the number of teams of its box taken in order, the positions taken
out of order (R33), and its place among the cursors by age. -/
structure Cursor where
  span : Span
  pos : Nat := 0
  early : List Nat := []
  age : Nat
  /-- LTIME at which an affinity wait of the next team ends (R354) -/
  affUntil : Option Nat := none
  deriving DecidableEq, Repr

/-- A grid (R14, R15, R42) with the image and launch record it runs from. -/
structure Grid where
  ctx : Nat
  num : Nat
  queue : Option Nat := none
  record : Nat
  depth : Nat := 0
  parent : Option Nat := none
  prio : Nat := 0
  gx : Nat
  gy : Nat
  gz : Nat
  tx : Nat
  ty : Nat
  tz : Nat
  params : List W64 := []
  textVa : Nat
  textLen : Nat
  poolVa : Nat
  entry : Nat
  trapBase : Nat := 0
  policyTeams : Bool := false
  floorReg : Nat := 0
  floorStash : Nat := 0
  floorL2 : Nat := 0
  floorAcc : Nat := 0
  stash : Nat := 0
  scope : Scope := .sys
  signal : Nat := 0
  msix : Nat := 0
  affinity : Bool := false
  affb : W64 := 0
  affs : W64 := 0
  retired : Nat := 0
  abandoned : Nat := 0
  /-- failing status: 0 none, else the STATUS to write (Table 8.11) -/
  failing : Nat := 0
  /-- no team of it is placed or taken from a cursor any more (R44) -/
  stopped : Bool := false
  complete : Bool := false
  /-- LTIME of the last retirement, admission or take, for relay rotation (R361) -/
  progressTick : Nat := 0
  /-- LTIME of the last rotation (R361) -/
  rotateTick : Nat := 0
  age : Nat := 0
  deriving DecidableEq, Repr

/-! ## Cores -/

/-- A capacity register (Table 2.7). -/
structure Cap where
  amount : Nat
  retired : Nat := 0
  spareUsed : Bool := false
  gen : BitVec 16 := 0
  deriving DecidableEq, Repr

/-- A bank map (R341, R342): banks retired, in order, the spare's own fault, and the logical bank that the
spare holds. -/
structure BankMap where
  dead : List Nat := []
  spareBad : Bool := false
  spareFor : Option Nat := none
  deriving DecidableEq, Repr

/-- Sector states of Table 7.9 other than INV. -/
inductive SecState where
  | fill | clean | dirty | wb
  deriving DecidableEq, Repr

/-- A sector under a map entry; a sector of an entry that is not listed is INV. -/
structure Sector where
  st : SecState
  entry : Nat
  deriving DecidableEq, Repr

/-- A scratch byte: its value and the context whose team wrote it last (R459). -/
structure StashByte where
  ctx : Nat
  val : Byte
  deriving DecidableEq, Repr

/-- A vent in progress or waiting (R397, R398): the bank, the map and the capacity register before it, and the move
cursor. -/
structure Vent where
  b : BankRef
  old : BankMap := {}
  cap : Cap := { amount := 0 }
  started : Bool := false
  cursor : Nat := 0
  total : Nat := 0
  deriving DecidableEq, Repr

/-- An issue port (R78, R355): the wave or span that holds it, clause starts so far, preference of another
wave after YIELD. -/
structure Port where
  holder : Option Focus := none
  starts : Nat := 0
  avoid : Option Focus := none
  deriving DecidableEq, Repr

/-- A line of a first-level cache: its way, and a valid and a dirty bit per 16-byte sector (R320). -/
structure CacheLine where
  line : LineRef
  way : Nat := 0
  valid : BitVec 4 := 0
  dirty : BitVec 4 := 0
  deriving DecidableEq, Repr

/-- A core. -/
structure Core where
  inService : Bool := true
  /-- quads lost (R400); port 0 drives quads 0 and 1, port 1 quads 2 and 3 (R355) -/
  deadQuads : List Nat := []
  capReg : Cap := { amount := 8192 }
  capStash : Cap := { amount := 1048576 }
  capAcc : Cap := { amount := 32 }
  pool : BankMap := {}
  stashMap : BankMap := {}
  accMap : BankMap := {}
  l1Dead : List Nat := []
  icDead : List Nat := []
  /-- lines of the L1 data cache and of the instruction cache (R320) -/
  l1 : List CacheLine := []
  ic : List CacheLine := []
  ports : List Port := [{}, {}]
  slots : List (Option Nat) := [none, none, none, none]
  entries : Tbl MapEntry := []
  sectors : Tbl Sector := []
  stash : Tbl StashByte := []
  stashPoison : List Nat := []
  undersized : W64 := 0
  mismatches : W64 := 0
  rollbacks : W64 := 0
  charged : Nat := 0
  undoInMemory : Bool := false
  vents : List Vent := []
  /-- the instructions whose reissue is watched after a scoreboard mismatch: team, wave and issue clock (R97) -/
  mismatchAt : List (Nat × Nat × Nat) := []
  deriving DecidableEq, Repr

/-! ## Dies and links -/

/-- A compute die. `tagged` counts writes in flight per phase (R414). -/
structure CDie where
  inService : Bool := true
  phase : Nat := 1
  phdone : Nat := 0
  tagged : Tbl Nat := []
  heartbeat : Nat := 0
  capL2 : Cap := { amount := 805306368 }
  clockMHz : Nat := 1200
  gate : Nat := 16
  throttled : Bool := false
  deriving DecidableEq, Repr

/-- A foundation die. -/
structure FDie where
  inService : Bool := true
  ltime : W64 := 0
  heartbeat : Nat := 0
  deriving DecidableEq, Repr

/-- Link states (Table 14.2). -/
inductive LinkState where
  | active | sleep | waking | slow | failed
  deriving DecidableEq, Repr

/-- A UCIe link (0 to 3) or a Barnos link (4 to 27). -/
structure Link where
  st : LinkState := .active
  since : Nat := 0
  lastUse : Nat := 0
  retries : Nat := 0
  /-- flits sent and not acknowledged, and sequence numbers accepted at the far end (R409) -/
  unacked : List Nat := []
  accepted : List Nat := []
  slowCount : Nat := 0
  deriving DecidableEq, Repr

/-! ## Homes and translation -/

/-- Holder states of Table 10.4 other than I. -/
inductive HState where
  | s | e | m | o | p
  deriving DecidableEq, Repr

/-- A request at a home: the agent that sent it, the holder that it makes, and the bytes that a host writes with it; `at_`
is the cycle of its arrival (R332). `snoop` marks a host's SnpInv (1) or SnpData (2) of a host line (R335). -/
structure Req where
  src : Option Holder
  who : Option Holder
  write : Bool
  partialOwn : Bool := false
  data : Option (List Byte) := none
  snoop : Nat := 0
  at_ : Nat := 0
  deriving DecidableEq, Repr

/-- A home transaction: its request and the acknowledgements that it awaits (R328, R332). -/
structure Txn where
  req : Req
  acks : List Holder := []
  deriving DecidableEq, Repr

/-- A directory entry with the states of its holders (R326 to R331). `coarse` carries GROUPS, HOST, ENGINE. The line has the
protection bits of its page (R314), and a valid and a dirty bit per sector in the L2 (R322). -/
structure DirEntry where
  line : LineRef
  holders : List (Holder × HState) := []
  coarse : Bool := false
  groups : List Nat := []
  hostBit : Bool := false
  engineBit : Bool := false
  inL2 : Bool := true
  perm : Nat := 0
  l2Valid : BitVec 4 := 0
  l2Dirty : BitVec 4 := 0
  txn : Option Txn := none
  /-- requests that wait for the transaction to end, in the order of R332 -/
  queue : List Req := []
  deriving DecidableEq, Repr

/-- Where a translation leads (R336). -/
inductive Target where
  | hbm (dpa : Nat)
  | host (port hpa : Nat)
  | peer (peer va : Nat)
  | doorbell
  deriving DecidableEq, Repr

/-- A mapped page: permissions R, W, X, SEAL in bits 0 to 3 (R425). -/
structure Page where
  va : Nat
  size : Nat
  target : Target
  perm : Nat
  revoked : Bool := false
  deriving DecidableEq, Repr

/-- An alias range of the remap filter (R315). -/
structure Alias where
  asid : Nat
  base : Nat
  len : Nat
  toAsid : Nat
  toBase : Nat
  mask : Nat
  deriving DecidableEq, Repr

/-! ## Contexts, queues, engines -/

/-- Context states (CTX_QUERY). -/
inductive CtxState where
  | running | suspending | suspended | reset
  deriving DecidableEq, Repr

/-- Phases of a pre-emption (Table 11.6) with the LTIME of each foundation die at which the phase ends. -/
inductive Preempt where
  | drain (ends : List Nat) (swapLen : Nat)
  | swap (ends : List Nat)
  deriving DecidableEq, Repr

/-- A context. -/
structure Ctx where
  dev : Nat
  asid : Nat
  ctl : W64 := 0
  seed : W64 := 0
  inside : Bool := false
  vf : Option Nat := none
  faultVec : Option Nat := none
  st : CtxState := .running
  preempt : Option Preempt := none
  /-- suspended by a warm restart (R429) -/
  warm : Bool := false
  pages : List Page := []
  /-- reserved ranges: base and length -/
  ranges : List (Nat × Nat) := []
  /-- frames of 64 KiB that MEM_ALLOC provided and MEM_FREE has not released: VA, device address -/
  allocs : List (Nat × Nat) := []
  weight : Nat := 16
  quantum : Nat := 100000
  /-- backing-store bytes reserved for it, and the frames of 64 KiB that hold them (R69) -/
  backing : Nat := 0
  frames : List Nat := []
  deficit : Int := 0
  charged : Nat := 0
  chargedTotal : Nat := 0
  deriving DecidableEq, Repr

/-- Queue states (Table 11.4). -/
inductive QState where
  | idle | running | waiting | error | suspended
  deriving DecidableEq, Repr

/-- A command that has started and not completed (R347). -/
structure QCmd where
  index : BitVec 32
  op : Nat
  grid : Option Nat := none
  addr : Nat := 0
  value : W64 := 0
  scope : Scope := .sys
  deriving DecidableEq, Repr

/-- A hardware queue or transfer ring (R344 to R349, R377). -/
structure Queue where
  ctx : Nat
  ring : Nat
  n : Nat
  headVa : Nat
  prio : Nat
  xfer : Option Nat := none
  head : BitVec 32 := 0
  tail : BitVec 32 := 0
  /-- the index of the next command to start -/
  next : BitVec 32 := 0
  st : QState := .idle
  err : Nat := 0
  live : List QCmd := []
  done : List (BitVec 32) := []
  /-- index of a refused WAITCNT that had started (R348) -/
  refused : Option (BitVec 32) := none
  /-- the head word is still to be rewritten: its line waits for a purge or a pin (R340, R348) -/
  owed : Bool := false
  deriving DecidableEq, Repr

/-- A transfer command (R377 to R380). -/
structure Xfer where
  ctx : Nat
  src : Nat
  dst : Nat
  len : Nat
  counter : Nat
  scope : Scope
  team : Option Nat := none
  /-- items whose COPYQ placed it, by linear item index, and the place of the COPYQ in the team's engine order (R304) -/
  items : List Nat := []
  ord : Nat := 0
  grid : Nat := 0
  queue : Option Nat := none
  order : Nat
  running : Bool := false
  off : Nat := 0
  faultRec : Option Nat := none
  held : Bool := false
  deriving DecidableEq, Repr

/-! ## Service unit -/

/-- What a fault record is about (R388, R389). -/
inductive RecOf where
  | sub (team wave sub : Nat)
  | span (id : Nat)
  | copy (team tag : Nat)
  | mma (team seq : Nat)
  | accMove (team seq : Nat)
  | xfer (engine slot : Nat)
  | team
  | debug (team wave sub : Nat)
  deriving DecidableEq, Repr

/-- A fault record (Table 13.2). -/
structure FaultRec where
  dev : Nat
  kind : Nat
  cause : Nat
  sub : Nat
  ctx : Nat
  grid : Nat
  gridKey : Nat
  team : Nat
  pc : Nat := 0
  addr : Nat := 0
  core : Nat := 0xFFFF
  wave : Nat := 0xFF
  depth : Nat := 0
  lanes : Nat := 0
  aux : Nat := 0
  src : Nat := 0
  dst : Nat := 0
  len : Nat := 0
  off : Nat := 0
  what : RecOf
  deriving DecidableEq, Repr

/-- An error-log entry (Table 15.10). -/
structure LogEntry where
  seq : Nat
  time : Nat
  fnd : Nat
  type : Nat
  unit : Nat := 0xFF
  number : Nat := 0
  bank : Nat := 0
  count : Nat := 1
  addr : Nat := 0
  ctx : Nat := 0xFFFFFFFF
  detail : Nat := 0
  deriving DecidableEq, Repr

/-- Error counters of one bank (R391, R397, R438): corrected, uncorrected, the LTIMEs of recent corrected
errors, and the open log window with its count. -/
structure BankErr where
  b : BankRef
  corrected : Nat := 0
  uncorrected : Nat := 0
  recent : List Nat := []
  window : Option (Nat × Nat) := none
  deriving DecidableEq, Repr

/-- Baton states (Table 15.4). -/
inductive Baton where
  | held (port : Nat)
  | opened
  | gone
  deriving DecidableEq, Repr

/-- An MSI-X message: port, function and vector. -/
structure Msix where
  port : Nat
  vf : Nat
  vector : Nat
  deriving DecidableEq, Repr

/-- An export or import window (R418). -/
structure PeerWin where
  handle : Nat
  peer : Nat
  ctx : Nat
  va : Nat
  remote : Nat
  len : Nat
  perm : Nat
  deriving DecidableEq, Repr

/-- A partition device. -/
structure Dev where
  hometab : Tbl Nat := []
  remap : List Alias := []
  records : Tbl FaultRec := []
  recSeq : Nat := 0
  /-- records of teams and grids that wait for room in the store, oldest first (R388) -/
  recHeld : List FaultRec := []
  gridSeq : Nat := 0
  gridAge : Nat := 0
  orderSeq : Nat := 0
  placePtr : Nat := 0
  baton : Baton := .opened
  /-- the port that held the baton last; none before the first takeover -/
  lastPort : Option Nat := none
  bgen : BitVec 32 := 0
  period : Nat := 25000000
  window : Nat := 10000000
  leaseStart : Nat := 0
  heldMsix : List Msix := []
  /-- held messages that a warm restart discarded (R429) -/
  msixLost : Nat := 0
  lostPort : Option Nat := none
  heldLines : List LineRef := []
  /-- accepted calls not yet executed, by code, oldest first (R423) -/
  calls : List (Nat × Call) := []
  /-- calls that wait after releasing the unit, by code -/
  waiting : List (Nat × Call) := []
  barnos : Nat := 0
  routes : Tbl Nat := []
  exports : List PeerWin := []
  imports : List PeerWin := []
  handleSeq : Nat := 0
  debugger : Option Nat := none
  roundStart : Nat := 0
  purging : List (Nat × Nat × Nat) := []
  /-- host requests for device memory that wait for the end of a purge, with their device addresses (R340) -/
  hostWait : List (Nat × Req) := []
  /-- requests of peers that wait for the end of a purge, by Barnos identifier (R340, R418) -/
  peerWait : List (Nat × PeerOp) := []
  /-- what the device last answered to a peer: its identifier, and the bytes read -/
  peerSent : Option (Nat × List Byte) := none
  deriving DecidableEq, Repr

/-- A firmware image in a flash slot (Table 15.8). -/
structure Image where
  version : Nat
  svn : Nat
  header : List Byte
  deriving DecidableEq, Repr

/-- Firmware of one kind (R434, R435): two slots, the active one, the staged one, the running image. -/
structure Fw where
  slots : List (Option Image) := [none, none]
  active : Nat := 0
  staged : Option Nat := none
  /-- the image that an FW_STAGE is writing, and what it fails: 0 nothing, else one more than the code of TYPE 14 -/
  checking : Option (Image × Nat) := none
  running : Option Image := none
  minSvn : Nat := 0
  deriving DecidableEq, Repr

/-- What the configuration record says of a core: its bank maps with the capacity that they leave (R341, R456). -/
structure CoreCfg where
  capReg : Cap
  capStash : Cap
  capAcc : Cap
  pool : BankMap
  stashMap : BankMap
  accMap : BankMap
  l1Dead : List Nat
  icDead : List Nat
  deriving DecidableEq, Repr

/-- A copy of the signed configuration record (R456): its generation, the bank maps of the cores, the retired slices and
channels, and the minimum security versions of the two kinds of image. -/
structure CfgRecord where
  gen : W64 := 0
  cores : Tbl CoreCfg := []
  slices : List Nat := []
  channels : List (Nat × Nat) := []
  minTrusted : Nat := 0
  minPolicy : Nat := 0
  deriving DecidableEq, Repr

/-- The package: firmware, log, power and supply (15, 19). -/
structure Package where
  mode : Nat := 0
  svcDie : Nat := 0
  trusted : Fw := {}
  policy : Fw := {}
  policyRunning : Bool := true
  policyRestarts : List Nat := []
  recovery : Bool := false
  /-- FW_STAGE calls in progress, each with the kind of its image -/
  staging : List (Call × Nat) := []
  log : List LogEntry := []
  logSeq : Nat := 1
  banks : List BankErr := []
  deadSlices : List Nat := []
  deadChannels : List (Nat × Nat) := []
  /-- vents of L2 slices and HBM channels -/
  l2Vents : List Vent := []
  /-- the two copies of the configuration record in flash: the one of the higher generation, and the other (R456) -/
  record : CfgRecord := { gen := 1 }
  olderRecord : CfgRecord := {}
  cap : Nat := 3600
  capLogged : Nat := 0
  /-- LTIME of the last step of the issue gating (R455) -/
  gateAt : Option Nat := none
  /-- the input limit of 2,400 W is in force (R454) -/
  inputLow : Bool := false
  inputHigh : Bool := false
  /-- held in reset by temperature (1) or supply (2) -/
  heldReset : Nat := 0
  /-- SVCDB writes that came before the service unit started: device, port, function and address (R458) -/
  early : List (Nat × Nat × Nat × Nat) := []
  /-- counters of the last complete telemetry window, and as they stood at its end (R439) -/
  teleCounts : List W64 := []
  teleBase : List W64 := []
  /-- LTIME at which the open window began, and the free value from which the last one's means are drawn -/
  teleStart : Nat := 0
  teleFree : Option Nat := none
  deriving DecidableEq, Repr

/-- The registers of one function of a host port (Table 15.2). -/
structure Func where
  outst : Nat := 0
  dropped : Bool := false
  deriving DecidableEq, Repr

/-- A host port. -/
structure HostPort where
  up : Bool := true
  funcs : Tbl Func := []
  /-- host physical lines that the device holds, with their canonical lines (R335) -/
  lines : List (Nat × LineRef) := []
  /-- the line that the device last sent to the host: its number in device or host memory, and its bytes -/
  sent : Option (Nat × List Byte) := none
  deriving DecidableEq, Repr

/-- The whole package. `cur` is the sub-wave or span that issues next and `agenda` the events and inputs
that come first; `fresh` counts free values (the model's own). -/
structure State where
  cur : Option Focus
  agenda : List Instr
  fresh : Nat
  cycle : Nat
  pkg : Package
  ports : List HostPort
  devs : List Dev
  fdies : List FDie
  cdies : Tbl CDie
  links : Tbl Link
  cores : Tbl Core
  ctxs : Tbl Ctx
  queues : Tbl Queue
  grids : Tbl Grid
  spans : Tbl Span
  cursors : Tbl Cursor
  teams : Tbl Team
  engines : Tbl (Tbl Xfer)
  /-- the transfer ring that each engine served last (R377) -/
  ringLast : Tbl Nat
  mirrors : Tbl Nat
  dir : List DirEntry
  /-- translations that each of the sixteen units caches: ASID, base and size of the page, oldest first (R336) -/
  tlb : Tbl (List (Nat × Nat × Nat))
  mem : Memory
  poison : List Nat
  /-- places of the barrier words that BARM instructions have named (R229) -/
  barm : List Nat
  msix : List Msix
  nextId : Nat
  deriving DecidableEq, Repr

/-- Why the machine stops. -/
inductive Fault where
  /-- Raised when an instruction of code memory is to be executed and no sub-wave or span is chosen to
  execute it. Safe: the device issues nothing then. -/
  | noExecutor
  /-- Raised when a step names a team, wave, span, core or other object that the state does not hold.
  Safe. -/
  | noObject
  deriving DecidableEq, Repr

/-- Why the model gives no step. -/
inductive Refusal where
  /-- Raised by an arm of `exec` that has no meaning yet. Safe. -/
  | notModelled (mnemonic : String)
  deriving DecidableEq, Repr

/-- The state after package reset (Table 2.9, Table 14.2, R426, R455, R458): everything free, phases 1,
timers 0, mode P1, all units in service. The batons are OPEN as R426 says, against the reset value of BSTATE in Table 15.2
(log 96). -/
def State.reset : State :=
  { cur := none
    agenda := []
    fresh := 0
    cycle := 0
    pkg := {}
    ports := [{}, {}]
    devs := [{}, {}, {}, {}]
    fdies := [{}, {}, {}, {}]
    cdies := []
    links := []
    cores := []
    ctxs := []
    queues := []
    grids := []
    spans := []
    cursors := []
    teams := []
    engines := []
    ringLast := []
    mirrors := []
    dir := []
    tlb := []
    mem := []
    poison := []
    barm := []
    msix := []
    nextId := 1 }

end Sys2Proof.Machine
end

