-- ==== Sys2Proof/Machine/Ops.lean ====
section
/-!
DEFINITION. The named operations on the state: byte memory, objects by number, registers under the
written-mask rules (R63 to R65), the scoreboard (R94 to R96), and traps: parking (R37, R385), entry into
the handler (R386), host fault records (R388) and the return from the handler (R278).
-/
namespace Sys2Proof.Machine
open Sys2Proof

/-- The outcome of a step. -/
abbrev Res := Host.Outcome State Fault Refusal

/-! ## Byte memory -/

/-- The byte at an address; an unlisted byte is 0. -/
def Memory.get : Memory → Nat → Byte
  | [], _ => 0
  | (x, y) :: r, a => if x = a then y else Memory.get r a

/-- The memory with a byte stored; a zero byte is not listed. -/
def Memory.put : Memory → Nat → Byte → Memory
  | [], a, b => if b = 0 then [] else [(a, b)]
  | (x, y) :: r, a, b =>
    if a < x then (if b = 0 then (x, y) :: r else (a, b) :: (x, y) :: r)
    else if a = x then (if b = 0 then r else (a, b) :: r)
    else (x, y) :: Memory.put r a b

/-- The canonical form: rising addresses, no zero byte. -/
def Memory.wf : Memory → Bool
  | [] => true
  | [(_, y)] => y != 0
  | (x, y) :: (x', y') :: r => decide (x < x') && (y != 0) && Memory.wf ((x', y') :: r)

/-- `n` bytes from an address as a number, lowest byte first (R3). -/
def Memory.getN (m : Memory) (a : Nat) : Nat → Nat
  | 0 => 0
  | n + 1 => (m.get a).toNat + 256 * Memory.getN m (a + 1) n

/-- `n` bytes of a number stored from an address, lowest byte first (R3). -/
def Memory.putN (m : Memory) (a : Nat) : Nat → Nat → Memory
  | 0, _ => m
  | n + 1, v => Memory.putN (m.put a (BitVec.ofNat 8 v)) (a + 1) n (v / 256)

/-- `n` bytes from an address. -/
def Memory.bytes (m : Memory) (a n : Nat) : List Byte := (List.range n).map fun i => m.get (a + i)

/-- `n` bytes from an address, by one pass over a memory that lists nothing below it. -/
def Memory.sliceFrom : Memory → Nat → Nat → List Byte
  | _, _, 0 => []
  | [], a, n + 1 => 0 :: Memory.sliceFrom [] (a + 1) n
  | (x, y) :: r, a, n + 1 => if x = a then y :: Memory.sliceFrom r (a + 1) n else 0 :: Memory.sliceFrom ((x, y) :: r) (a + 1) n

/-- `n` bytes from an address, by one pass. -/
def Memory.slice (m : Memory) (a n : Nat) : List Byte := Memory.sliceFrom (m.filter fun c => decide (a ≤ c.1)) a n

/-- Bytes listed from an address. -/
def Memory.listFrom : Nat → List Byte → Memory
  | _, [] => []
  | a, b :: r => if b = 0 then Memory.listFrom (a + 1) r else (a, b) :: Memory.listFrom (a + 1) r

/-- The memory with a run of bytes stored from an address. -/
def Memory.splice (m : Memory) (a : Nat) (bs : List Byte) : Memory :=
  (m.filter fun c => decide (c.1 < a)) ++ Memory.listFrom a bs ++ m.filter fun c => decide (a + bs.length ≤ c.1)

/-- Bytes as a number, lowest first. -/
def leNat : List Byte → Nat
  | [] => 0
  | b :: r => b.toNat + 256 * leNat r

/-- The `n` low bytes of a number, lowest first. -/
def natLe : Nat → Nat → List Byte
  | 0, _ => []
  | n + 1, v => BitVec.ofNat 8 v :: natLe n (v / 256)

/-- A rising list of numbers with one more. -/
def insertNat : List Nat → Nat → List Nat
  | [], a => [a]
  | x :: r, a => if a < x then a :: x :: r else if a = x then x :: r else x :: insertNat r a

/-- A list of numbers without one. -/
def eraseNat (l : List Nat) (a : Nat) : List Nat := l.filter fun x => x != a

/-- An element put in front of the first that it does not come after. -/
def insertBy {α : Type} (le : α → α → Bool) (a : α) : List α → List α
  | [] => [a]
  | b :: r => if le a b then a :: b :: r else b :: insertBy le a r
/-- A list in order; elements that are equal in it keep their order. -/
def sortBy {α : Type} (le : α → α → Bool) (l : List α) : List α := l.foldr (insertBy le) []

/-! ## Objects by number -/

/-- A core; an unlisted core is as after reset. -/
def State.core (s : State) (c : Nat) : Core := (s.cores.get? c).getD {}
/-- The state with a core changed. -/
def State.modCore (s : State) (c : Nat) (f : Core → Core) : State := { s with cores := s.cores.set c (f (s.core c)) }
/-- A compute die. -/
def State.cdie (s : State) (d : Nat) : CDie := (s.cdies.get? d).getD {}
/-- The state with a compute die changed. -/
def State.modCdie (s : State) (d : Nat) (f : CDie → CDie) : State := { s with cdies := s.cdies.set d (f (s.cdie d)) }
/-- A foundation die. -/
def State.fdie (s : State) (f : Nat) : FDie := (s.fdies[f]?).getD {}
/-- The state with a foundation die changed. -/
def State.modFdie (s : State) (f : Nat) (g : FDie → FDie) : State := { s with fdies := listModify s.fdies f g }
/-- A link. -/
def State.link (s : State) (l : Nat) : Link := (s.links.get? l).getD {}
/-- The state with a link changed. -/
def State.modLink (s : State) (l : Nat) (f : Link → Link) : State := { s with links := s.links.set l (f (s.link l)) }
/-- A partition device. -/
def State.dev (s : State) (d : Nat) : Dev := (s.devs[d]?).getD {}
/-- The state with a partition device changed. -/
def State.modDev (s : State) (d : Nat) (f : Dev → Dev) : State := { s with devs := listModify s.devs d f }
/-- The state with a context changed. -/
def State.modCtx (s : State) (c : Nat) (f : Ctx → Ctx) : State := { s with ctxs := s.ctxs.modify c f }
/-- The state with a grid changed. -/
def State.modGrid (s : State) (g : Nat) (f : Grid → Grid) : State := { s with grids := s.grids.modify g f }
/-- The state with a team changed. -/
def State.modTeam (s : State) (t : Nat) (f : Team → Team) : State := { s with teams := s.teams.modify t f }
/-- The state with a span changed. -/
def State.modSpan (s : State) (i : Nat) (f : Span → Span) : State := { s with spans := s.spans.modify i f }
/-- The state with a queue changed. -/
def State.modQueue (s : State) (q : Nat) (f : Queue → Queue) : State := { s with queues := s.queues.modify q f }
/-- The team with a wave changed. -/
def Team.modWave (t : Team) (w : Nat) (f : Wave → Wave) : Team := { t with waves := t.waves.modify w f }
/-- The wave with a sub-wave changed. -/
def Wave.modSub (w : Wave) (k : Nat) (f : SubWave → SubWave) : Wave := { w with subs := w.subs.modify k f }
/-- The state with a wave changed. -/
def State.modWave (s : State) (t w : Nat) (f : Wave → Wave) : State := s.modTeam t fun tm => tm.modWave w f
/-- The state with a sub-wave changed. -/
def State.modSub (s : State) (t w k : Nat) (f : SubWave → SubWave) : State :=
  s.modWave t w fun wv => wv.modSub k f
/-- A wave of a team. -/
def State.wave? (s : State) (t w : Nat) : Option Wave := (s.teams.get? t).bind fun tm => tm.waves.get? w
/-- The state with the free-value counter advanced. -/
def State.bump (s : State) : State := { s with fresh := s.fresh + 1 }
/-- LTIME of the foundation die of a core. -/
def State.coreTime (s : State) (c : Nat) : Nat := (s.fdie (c / 192)).ltime.toNat

/-- The issuing sub-wave with all that it stands in. -/
structure Ex where
  t : Nat
  w : Nat
  k : Nat
  team : Team
  wave : Wave
  sub : SubWave

/-- The sub-wave `k` of wave `w` of team `t`, where it exists. -/
def State.ex? (s : State) (t w k : Nat) : Option Ex :=
  match s.teams.get? t with
  | none => none
  | some team =>
    match team.waves.get? w with
    | none => none
    | some wave =>
      match wave.subs.get? k with
      | none => none
      | some sub => some ⟨t, w, k, team, wave, sub⟩

/-! ## Registers -/

/-- The key of an architectural register at a depth (R46). -/
def regKey (r depth : Nat) : Nat := if r < 16 then r else 64 * depth + r

/-- Lane `i` of a vector register and whether the read is stale (R65). -/
def Wave.vget (w : Wave) (depth r i : Nat) : W32 × Bool :=
  match w.vregs.get? (regKey r depth) with
  | none => (0, true)
  | some sl => if sl.mask.getLsbD i then ((sl.vals[i]?).getD 0, false) else (0, true)

/-- A uniform register as a sub-wave with active lanes `m` reads it (R63). -/
def Wave.uget (w : Wave) (depth r : Nat) (m : Lanes) : W64 × Bool :=
  match w.uregs.get? (regKey r depth) with
  | none => (0, true)
  | some sl => if sl.mask &&& m = 0 then (0, true) else (sl.val, false)

/-- A write of the lanes `m` of a vector register (R63). -/
def Wave.vput (w : Wave) (depth r : Nat) (m : Lanes) (f : Nat → W32) : Wave :=
  if m = 0 then w
  else
    let key := regKey r depth
    let sl := (w.vregs.get? key).getD {}
    let vals := laneList.map fun i => if m.getLsbD i then f i else (sl.vals[i]?).getD 0
    { w with vregs := w.vregs.set key { mask := sl.mask ||| m, vals := vals } }

/-- A write of a uniform register: its mask becomes every live lane (R63). -/
def Wave.uput (w : Wave) (depth r : Nat) (v : W64) : Wave :=
  { w with uregs := w.uregs.set (regKey r depth) { mask := w.live, val := v } }

/-- The lanes `m` leave the written mask of a vector register; an empty slot is released (R64). -/
def Wave.vrel (w : Wave) (key : Nat) (m : Lanes) : Wave :=
  match w.vregs.get? key with
  | none => w
  | some sl =>
    let mask := sl.mask &&& ~~~m
    { w with vregs := if mask = 0 then w.vregs.del key else w.vregs.set key { sl with mask := mask } }

/-- As `vrel`, for a uniform register. -/
def Wave.urel (w : Wave) (key : Nat) (m : Lanes) : Wave :=
  match w.uregs.get? key with
  | none => w
  | some sl =>
    let mask := sl.mask &&& ~~~m
    { w with uregs := if mask = 0 then w.uregs.del key else w.uregs.set key { sl with mask := mask } }

/-- The lanes `m` leave every windowed register of a depth (R47). -/
def Wave.closeWindow (w : Wave) (depth : Nat) (m : Lanes) : Wave :=
  let keys := (List.range 48).map fun i => 64 * depth + 16 + i
  let w := keys.foldl (fun w k => w.vrel k m) w
  keys.foldl (fun w k => w.urel k m) w

/-- The lanes `m` leave the mask of every register at every depth (R166). -/
def Wave.dropLanes (w : Wave) (m : Lanes) : Wave :=
  let w := (w.vregs.map Prod.fst).foldl (fun w k => w.vrel k m) w
  (w.uregs.map Prod.fst).foldl (fun w k => w.urel k m) w

/-- A predicate mask; p7 is true in every lane (R48). -/
def Wave.pget (w : Wave) (p : Nat) : Lanes := if p = 7 then 0xFFFF else (w.preds[p]?).getD 0

/-- A write of the lanes `m` of a predicate; a write of p7 has no effect (R48). -/
def Wave.pput (w : Wave) (p : Nat) (m v : Lanes) : Wave :=
  if p = 7 then w else { w with preds := listModify w.preds p fun old => (old &&& ~~~m) ||| (v &&& m) }

/-- The active lanes whose guard is true (R85). -/
def Wave.guarded (w : Wave) (h : Hdr) (m : Lanes) : Lanes :=
  let g := w.pget h.guard.val
  if h.gneg then m &&& ~~~g else m &&& g

/-- A source of an instruction in lane `i`: its raw value (32 bits, a pair, a quad, a uniform register or two)
and whether the read is stale. -/
def Wave.rd (w : Wave) (depth : Nat) (m : Lanes) (r : RegRef) (i : Nat) : Nat × Bool :=
  if r.uni then
    (List.range r.n).foldr (fun j acc =>
      let v := w.uget depth (r.idx + j) m
      (v.1.toNat + 2 ^ 64 * acc.1, v.2 || acc.2)) (0, false)
  else
    (List.range r.n).foldr (fun j acc =>
      let v := w.vget depth (r.idx + j) i
      (v.1.toNat + 2 ^ 32 * acc.1, v.2 || acc.2)) (0, false)

/-- Lane values written to a destination: a vector run of 32-bit pieces, or the uniform register. -/
def Wave.wr (w : Wave) (depth : Nat) (r : RegRef) (m : Lanes) (f : Nat → Nat) : Wave :=
  if r.uni then (if m = 0 then w else w.uput depth r.idx (BitVec.ofNat 64 (f (lowLane m))))
  else
    (List.range r.n).foldl (fun w j => w.vput depth (r.idx + j) m fun i => BitVec.ofNat 32 (f i / 2 ^ (32 * j))) w

/-- Last-use bits of the sources (R64): the lanes `m` leave the masks. -/
def Wave.lastUse (w : Wave) (depth : Nat) (rs : List RegRef) (m : Lanes) : Wave :=
  rs.foldl (fun w r =>
    if r.lu then
      (List.range r.n).foldl (fun w j =>
        if r.uni then w.urel (regKey (r.idx + j) depth) m else w.vrel (regKey (r.idx + j) depth) m) w
    else w) w

/-! ## The wave's control bits (Table 2.4) -/

/-- CTL.STRICTREG. -/
def Wave.strictReg (w : Wave) : Bool := w.ctl.getLsbD 0
/-- CTL.STALLCHK is STRICT. -/
def Wave.strictStall (w : Wave) : Bool := w.ctl.toNat / 2 % 4 == 1
/-- CTL.REPRO. -/
def Wave.repro (w : Wave) : Bool := w.ctl.getLsbD 3
/-- CTL.FTZ. -/
def Wave.ftz (w : Wave) : Bool := w.ctl.getLsbD 4
/-- Trap enables of FPFLAGS (Table 2.4). -/
def ctlEnables (ctl : W64) : FFlags := BitVec.ofNat 5 (ctl.toNat / 32)
/-- CTL.DIVZE. -/
def Wave.divze (w : Wave) : Bool := w.ctl.getLsbD 10
/-- FPFLAGS with more flags set (R58). -/
def Wave.raise (w : Wave) (fl : FFlags) : Wave := { w with fpflags := w.fpflags ||| fl.setWidth 64 }
/-- TSTAT.STALE set. -/
def Wave.setStale (w : Wave) : Wave := { w with tstat := w.tstat ||| 1 }
/-- TSTAT.DIVZ set. -/
def Wave.setDivz (w : Wave) : Wave := { w with tstat := w.tstat ||| 2 }

/-! ## Stochastic rounding (R124) -/

/-- SETKEY. -/
def srKey (seed : W64) (team wave : Nat) : W64 :=
  seed ^^^ (BitVec.ofNat 64 team * 0x9E3779B97F4A7C15) ^^^ (BitVec.ofNat 64 wave * 0xC2B2AE3D27D4EB4F)

/-- The 16 bits of a draw of lane `i` with key `k` and counter `n`. -/
def srDraw (k : W64) (i : Nat) (n : BitVec 40) : Nat :=
  let z := k + (BitVec.ofNat 64 i <<< 40) + n.setWidth 64
  let z := (z ^^^ (z >>> 30)) * 0xBF58476D1CE4E5B9
  let z := (z ^^^ (z >>> 27)) * 0x94D049BB133111EB
  let z := z ^^^ (z >>> 31)
  (z.setWidth 16).toNat

/-- The `j`-th draw from now of lane `i`. -/
def Wave.draw (w : Wave) (i j : Nat) : Nat :=
  srDraw ((w.keys[i]?).getD 0) i ((w.draws[i]?).getD 0 + BitVec.ofNat 40 j)

/-- The wave after lane `i` has drawn `n` times. -/
def Wave.drawn (w : Wave) (i n : Nat) : Wave :=
  { w with draws := listModify w.draws i fun c => c + BitVec.ofNat 40 n }

/-! ## Where things are -/

/-- Compute die of a core (R54). -/
def dieOf (core : Nat) : Nat := core / 48
/-- Foundation die of a core. -/
def fndOf (core : Nat) : Nat := core / 192
/-- Foundation dies per partition device in a mode (Table 14.1). -/
def fndsPer (mode : Nat) : Nat := if mode = 0 then 4 else if mode = 1 then 2 else 1
/-- LTIME of the foundation die 0 of a partition device (R5). -/
def State.devTime (s : State) (dev : Nat) : Nat := (s.fdie (dev * fndsPer s.pkg.mode)).ltime.toNat
/-- The partition device that holds a foundation die. -/
def State.devOfFnd (s : State) (f : Nat) : Nat := f / fndsPer s.pkg.mode
/-- The partition device that holds a core. -/
def State.devOfCore (s : State) (c : Nat) : Nat := s.devOfFnd (fndOf c)
/-- The partition devices of the mode (Table 14.1). -/
def State.devCount (s : State) : Nat := 4 / fndsPer s.pkg.mode
/-- Whether a core issues and holds data: in service, on a die in service. -/
def State.coreUp (s : State) (c : Nat) : Bool :=
  decide (c < 768) && (s.core c).inService && (s.cdie (dieOf c)).inService && (s.fdie (fndOf c)).inService

/-! ## MSI-X, the error log and fault records -/

/-- A message to the holder of a device's baton; held while the baton is OPEN or GONE (R428). -/
def State.raiseMsix (s : State) (d : Nat) (vf vector : Nat) : State :=
  match (s.dev d).baton with
  | .held p => { s with msix := s.msix ++ [⟨p, vf, vector⟩] }
  | .opened | .gone =>
    s.modDev d fun v => { v with heldMsix := v.heldMsix ++ [⟨(v.lastPort.getD 0), vf, vector⟩] }

/-- One more entry in the error log, which keeps the newest 8,192 (R437). -/
def State.logEvent (s : State) (fnd : Nat) (e : LogEntry) : State :=
  let e := { e with seq := s.pkg.logSeq, time := (s.fdie fnd).ltime.toNat % 2 ^ 62, fnd := fnd }
  let l := s.pkg.log ++ [e]
  { s with pkg := { s.pkg with log := l.drop (l.length - 8192), logSeq := s.pkg.logSeq + 1 } }

/-- A blank log entry of a type. -/
def logOf (type : Nat) : LogEntry := { seq := 0, time := 0, fnd := 0, type := type }

/-- Room in the record store of a device (R388). -/
def State.recRoom (s : State) (d : Nat) : Bool := decide ((s.dev d).records.length < 4096)

/-- A new fault record, its number, and the fault vector's message (R388). -/
def State.addRecord (s : State) (r : FaultRec) : State × Nat :=
  let id := (s.dev r.dev).recSeq + 1
  let s := s.modDev r.dev fun v => { v with records := v.records.set id r, recSeq := id }
  match (s.ctxs.get? r.ctx).bind fun c => c.faultVec with
  | none => (s, id)
  | some v => (s.raiseMsix r.dev 0 v, id)

/-- A record that nothing holds open: it waits outside the store while the store is full (R388). -/
def State.raiseRecord (s : State) (r : FaultRec) : State :=
  if s.recRoom r.dev then (s.addRecord r).1 else s.modDev r.dev fun v => { v with recHeld := v.recHeld ++ [r] }

/-! ## Traps -/

/-! Causes of Table 13.1. -/
/-- ILLEGAL_ENCODING. -/
def cIllegal : Nat := 0x01
/-- BAD_TARGET. -/
def cBadTarget : Nat := 0x02
/-- PRIVILEGED. -/
def cPrivileged : Nat := 0x03
/-- MISALIGNED. -/
def cMisaligned : Nat := 0x04
/-- PAGE_FAULT. -/
def cPageFault : Nat := 0x05
/-- PROTECTION. -/
def cProtection : Nat := 0x06
/-- STASH_RANGE. -/
def cStashRange : Nat := 0x07
/-- MAP_SHAPE. -/
def cMapShape : Nat := 0x08
/-- COORD_BOUNDS. -/
def cCoordBounds : Nat := 0x09
/-- REG_STALE. -/
def cRegStale : Nat := 0x0A
/-- STALL_UNDERSIZED. -/
def cUndersized : Nat := 0x0B
/-- PIPE_ERROR. -/
def cPipeError : Nat := 0x0C
/-- POISON. -/
def cPoison : Nat := 0x0D
/-- ACC_BUSY. -/
def cAccBusy : Nat := 0x0E
/-- BLOCK_FORMAT. -/
def cBlockFormat : Nat := 0x0F
/-- BARRIER_BROKEN. -/
def cBarrierBroken : Nat := 0x10
/-- CAPACITY. -/
def cCapacity : Nat := 0x11
/-- FP_EXCEPTION. -/
def cFpException : Nat := 0x12
/-- DIV_ZERO. -/
def cDivZero : Nat := 0x13
/-- REPRO_VIOLATION. -/
def cRepro : Nat := 0x14
/-- SOFTWARE. -/
def cSoftware : Nat := 0x15
/-- BREAKPOINT. -/
def cBreakpoint : Nat := 0x16
/-- STEP. -/
def cStep : Nat := 0x17
/-- DEPTH. -/
def cDepth : Nat := 0x18
/-- STACK_OVERFLOW. -/
def cStackOverflow : Nat := 0x19
/-- HOST_GONE. -/
def cHostGone : Nat := 0x1A

/-- Causes with route H (Table 13.1); BLOCK_FORMAT of a lane comes from QBLK or QUNPK. -/
def routeH (cause : Nat) : Bool :=
  [cStashRange, cCoordBounds, cRegStale, cBlockFormat, cFpException, cDivZero, cSoftware].contains cause

/-- TRAPCAUSE (Table 2.6). -/
def trapCauseWord (p : Park) (lanes : Lanes) : W64 :=
  BitVec.ofNat 64 (p.trap.cause + p.trap.sub * 2 ^ 8 + lanes.toNat * 2 ^ 16 + p.depth * 2 ^ 32)

/-- Entry into the handler (R386): TRAPCAUSE, TRAPPC and TRAPADDR are set, the window of depth d + 1 is
opened without writing w62, and the sub-wave continues at TRAPBASE. -/
def Wave.enterHandler (w : Wave) (k : Nat) (sub : SubWave) (p : Park) (base : Nat) : Wave :=
  let w := { w with
    trapCause := trapCauseWord p sub.mask
    trapPc := BitVec.ofNat 64 p.pc
    trapAddr := BitVec.ofNat 64 p.trap.addr }
  let w := w.closeWindow (sub.depth + 1) sub.mask
  w.modSub k fun sub =>
    { sub with
      park := none
      handler := some { park := p, clause := sub.clause, pc := sub.pc, slot := sub.slot }
      pc := base, clause := none, started := false, slot := 0, depth := sub.depth + 1 }

/-- Another sub-wave of the wave is in the handler (R386). -/
def Wave.inHandler (w : Wave) : Bool := w.subs.any fun p => p.2.handler.isSome

/-- Whether a parked sub-wave's trap is for the handler (R386). -/
def parkToHandler (base : Nat) (p : Park) : Bool :=
  routeH p.trap.cause && !p.forceRec && base != 0 && decide (p.depth < 63)

/-- The host record of a parked sub-wave (Table 13.2). -/
def parkRecord (dev : Nat) (tm : Team) (t w k : Nat) (sub : SubWave) (p : Park) (gridNum : Nat) : FaultRec :=
  { dev := dev, kind := if p.trap.cause = cStep then 7 else 1, cause := p.trap.cause, sub := p.trap.sub
    ctx := tm.ctx, grid := gridNum, gridKey := tm.grid, team := tm.index, pc := p.pc, addr := p.trap.addr
    core := tm.core, wave := w, depth := p.depth, lanes := sub.mask.toNat
    what := if p.trap.cause = cStep then .debug t w k else .sub t w k }

/-- Delivery of a parked sub-wave's trap (R386 to R388): into the handler when it is for the handler and
no other sub-wave of the wave is in it; into a host record when it is not; otherwise it stays pending. -/
def State.deliverTrap (s : State) (t w k : Nat) : State :=
  match s.ex? t w k with
  | none => s
  | some e =>
    match e.sub.park with
    | none => s
    | some p =>
      if p.stage ≠ .pending then s
      else
        let g := s.grids.get? e.team.grid
        let base := (g.map fun g => g.trapBase).getD 0
        if parkToHandler base p then
          (if e.wave.inHandler then s else s.modWave t w fun wv => wv.enterHandler k e.sub p base)
        else
          let dev := ((s.ctxs.get? e.team.ctx).map fun c => c.dev).getD 0
          if s.recRoom dev then
            let (s, id) := s.addRecord (parkRecord dev e.team t w k e.sub p ((g.map fun g => g.num).getD 0))
            s.modSub t w k fun sub => { sub with park := some { p with stage := .recorded id } }
          else s

/-- Traps raised by lanes of one instruction, lane by lane. -/
abbrev LaneTraps := List (Nat × Trap)

/-- The causes among some lane traps, ascending, each once (R385). -/
def trapCauses (tr : LaneTraps) : List Nat := tr.foldl (fun l p => insertNat l p.2.cause) []

/-- The lanes of one cause, and the trap that stands for them: subcode and address of the lowest lane; for
FP_EXCEPTION the union of the masks (R129, R385). -/
def trapGroup (tr : LaneTraps) (cause : Nat) : Lanes × Trap :=
  let l := tr.filter fun p => p.2.cause == cause
  let m := lanesOf fun i => l.any fun p => p.1 == i
  let first := (l.head?.map Prod.snd).getD { cause := cause }
  let sub := if cause = cFpException then l.foldl (fun a p => Nat.lor a p.2.sub) 0 else first.sub
  (m, { first with sub := sub })

/-- The word at which a sub-wave stands: its slot's word, or the header at a clause boundary. -/
def SubWave.wordPc (sub : SubWave) : Nat :=
  match sub.clause with
  | none => sub.pc
  | some c => c.addr + 8 * (sub.slot + 1)

/-- One group of lanes splits off parked (R37); when it is the whole sub-wave, the sub-wave itself parks. The
lanes left keep the number `k`. `pc` is TRAPPC. -/
def Wave.parkGroup (w : Wave) (k : Nat) (m : Lanes) (tr : Trap) (pc : Nat) (entry : Bool) : Wave × Nat :=
  match w.subs.get? k with
  | none => (w, k)
  | some sub =>
    let p : Park := { trap := tr, pc := pc, depth := sub.depth, entry := entry, forceRec := sub.handler.isSome }
    if sub.mask &&& ~~~m = 0 then
      (w.modSub k fun sub => { sub with park := some p, hold := none, stepping := 0 }, k)
    else
      let k' := w.subs.fresh
      let w := w.modSub k fun sub => { sub with mask := sub.mask &&& ~~~m }
      ({ w with subs := w.subs.set k' { sub with mask := m, park := some p, hold := none, stepping := 0 } }, k')

/-- Taking the traps of an instruction: one parked sub-wave per cause, in ascending cause code, each
delivered (R37, R385, R386, R388). -/
def State.takeTraps (s : State) (t w k : Nat) (tr : LaneTraps) (pc : Nat) (entry : Bool) : State :=
  (trapCauses tr).foldl (fun s cause =>
    match s.wave? t w with
    | none => s
    | some wv =>
      let g := trapGroup tr cause
      let r := wv.parkGroup k g.1 g.2 pc entry
      (s.modWave t w fun _ => r.1).deliverTrap t w r.2) s

/-- The same trap in every lane of a mask. -/
def allLanes (m : Lanes) (tr : Trap) : LaneTraps := (lanesIn m).map fun i => (i, tr)

/-! ## The scoreboard -/

/-- A flag counter. -/
def flagGet (l : List Nat) (f : Nat) : Nat := (l[f]?).getD 0
/-- A flag counter one higher. -/
def flagInc (l : List Nat) (f : Option Nat) : List Nat :=
  match f with
  | none => l
  | some f => listModify l f (· + 1)
/-- A flag counter one lower. -/
def flagDec (l : List Nat) (f : Option Nat) : List Nat :=
  match f with
  | none => l
  | some f => listModify l f (· - 1)

/-- Two register runs of one class meet; `da`, `db` are their call depths. -/
def refsMeet (a : RegRef) (da : Nat) (b : RegRef) (db : Nat) : Bool :=
  a.uni == b.uni &&
  (List.range a.n).any fun i => (List.range b.n).any fun j => regKey (a.idx + i) da == regKey (b.idx + j) db

/-- An instruction with these operands meets a flight: it reads or writes what the flight writes, in a lane
that the flight writes or in a uniform register. -/
def Flight.meets (f : Flight) (u : Use) (depth : Nat) (m : Lanes) : Bool :=
  (f.regs.any fun r => (u.rd ++ u.wr).any fun q => refsMeet r f.depth q depth && (r.uni || f.lanes &&& m != 0)) ||
  (f.preds.any fun p => p != 7 && ((u.pr ++ u.pw).contains p || u.hdr.guard.val == p) && f.lanes &&& m != 0)

/-- The clause waited on the flight's flag (R95); of a flight that the clause issued after that wait too (log 78). -/
def Flight.waited (f : Flight) (wait : Nat) : Bool :=
  match f.flag with
  | none => false
  | some n => toBit (wait / 2 ^ n)

/-- The flight's result may not be used at clock `now` by the distance rule of R95, or is tracked and still
in flight (R51). -/
def Flight.early (f : Flight) (now : Nat) : Bool :=
  match f.lat with
  | .fixed l => decide (now < f.born + l)
  | .tracked => !f.done
  | .none => false

/-- The flights that make an instruction undersized (R51, R96). -/
def undersizedBy (fl : Tbl Flight) (u : Use) (depth : Nat) (m : Lanes) (now wait : Nat) : List Nat :=
  (fl.filter fun p => p.2.early now && p.2.meets u depth m && !p.2.waited wait).map Prod.fst

/-- A flight that nothing can still meet and nothing waits for. -/
def Flight.stale (f : Flight) (now : Nat) : Bool :=
  !f.early now && (f.done || (f.kind == .result && f.flag.isNone))

/-- A flight completes: its flag falls once (R138). -/
def finishFlight (flights : Tbl Flight) (flags : List Nat) (seq : Nat) : Tbl Flight × List Nat :=
  match flights.get? seq with
  | none => (flights, flags)
  | some f =>
    if f.done then (flights, flags)
    else (flights.set seq { f with done := true }, flagDec flags f.flag)

/-- Completion of a flight of a wave. -/
def Wave.finish (w : Wave) (seq : Nat) : Wave :=
  let r := finishFlight w.flights w.flags seq
  { w with flights := r.1, flags := r.2 }

/-- A write tagged with a store phase reaches its home (R301, R414). -/
def State.untag (s : State) (tag : Option (Nat × Nat)) : State :=
  match tag with
  | none => s
  | some (d, ph) =>
    s.modCdie d fun c =>
      let n := (c.tagged.get? ph).getD 0 - 1
      { c with tagged := if n = 0 then c.tagged.del ph else c.tagged.set ph n }

/-- The tagged writes among some flights reach their homes. -/
def State.untagAll (s : State) (fl : Tbl Flight) : State :=
  fl.foldl (fun s p => if p.2.done then s else s.untag p.2.tag) s

/-- Completion of a flight of a wave, with its tagged write. -/
def State.finishWave (s : State) (t w seq : Nat) : State :=
  match (s.wave? t w).bind fun wv => wv.flights.get? seq with
  | none => s
  | some f =>
    let s := if f.done then s else s.untag f.tag
    s.modWave t w fun wv => wv.finish seq

/-- Completion of a flight of a span. -/
def State.finishSpan (s : State) (i seq : Nat) : State :=
  match (s.spans.get? i).bind fun sp => sp.flights.get? seq with
  | none => s
  | some f =>
    let s := if f.done then s else s.untag f.tag
    s.modSpan i fun sp =>
      let r := finishFlight sp.flights sp.flags seq
      { sp with flights := r.1, flags := r.2 }

/-- Completion of a flight of an owner. -/
def State.finishOwner (s : State) (o : Owner) (seq : Nat) : State :=
  match o with
  | .wave t w => s.finishWave t w seq
  | .span i => s.finishSpan i seq

/-! ## Quads and their ports (R355) -/

/-- Working quads of a core. -/
def Core.quads (c : Core) : Nat := 4 - c.deadQuads.length

/-- The widest gang that a port can take part in: four on a full core, two where both of its quads work. -/
def Core.gangMax (c : Core) (port : Nat) : Nat :=
  if c.deadQuads.isEmpty then 4
  else if c.deadQuads.contains (2 * port) || c.deadQuads.contains (2 * port + 1) then 1
  else 2

end Sys2Proof.Machine
end

