-- ==== Sys2Proof/Machine/Home.lean ====
section
/-!
DEFINITION. Where bytes live and how lines are held: memory interleave (R406), canonical names (R313, R315),
pages (R336), map entries of the stash (R231, R234 to R238), the directory (R322 to R333) and translation
targets (R336, R337).
-/
namespace Sys2Proof

/-- Rows of operand A of a shape (R259). -/
def MShape.rows : MShape → Nat
  | .m64n64 => 64
  | .m128n64 | .m128n128 => 128
/-- Columns of operand B of a shape. -/
def MShape.cols : MShape → Nat
  | .m64n64 | .m128n64 => 64
  | .m128n128 => 128

end Sys2Proof

namespace Sys2Proof.Machine
open Sys2Proof

/-! ## Places -/

/-- log2 of the HBM stacks of a partition device (Table 14.1). -/
def stackBits (mode : Nat) : Nat := if mode = 0 then 4 else if mode = 1 then 3 else 2

/-- The stack, channel and channel offset of a byte of device memory (R406). -/
def interleave (mode dev dpa : Nat) : Nat × Nat × Nat :=
  let n := stackBits mode
  let f := dpa / 2 ^ 16
  let g := dpa / 2 ^ 12 % 16
  let h := Nat.xor (Nat.xor f (f / 2 ^ 4)) (f / 2 ^ 8) % 16
  let st := Nat.xor g h % 2 ^ n
  let k := g / 2 ^ n
  let c := Nat.xor (Nat.xor f (f / 2 ^ 5)) st % 32
  (dev * 2 ^ n + st, c, (f / 2 ^ 5 * (16 / 2 ^ n) + k) * 4096 + dpa % 4096)

/-- The place of a byte of device memory: bytes of the package's 512 channels, one after another. -/
def hbmPlace (mode dev dpa : Nat) : Nat :=
  let p := interleave mode dev dpa
  (p.1 * 32 + p.2.1) * 2 ^ 31 + p.2.2

/-- The place of a byte of host memory behind a port. -/
def hostPlace (port hpa : Nat) : Nat := 2 ^ 70 * (1 + port) + hpa

/-- The canonical name of an address, and the permissions that its alias leaves (R313, R315). -/
def State.canon (s : State) (dev asid va : Nat) : Nat × Nat × Nat :=
  match (s.dev dev).remap.find? fun a => a.asid == asid && decide (a.base ≤ va ∧ va < a.base + a.len) with
  | some a => (a.toAsid, a.toBase + (va - a.base), a.mask)
  | none => (asid, va, 15)

/-- The page of a canonical address. -/
def State.page? (s : State) (dev asid va : Nat) : Option Page :=
  s.ctxs.findSome? fun c =>
    if c.2.dev = dev ∧ c.2.asid = asid then
      c.2.pages.find? fun p => decide (p.va ≤ va ∧ va < p.va + p.size)
    else none

/-- The target of a byte of a page. -/
def Page.at_ (p : Page) (va : Nat) : Target :=
  match p.target with
  | .hbm dpa => .hbm (dpa + (va - p.va))
  | .host port hpa => .host port (hpa + (va - p.va))
  | .peer d v => .peer d (v + (va - p.va))
  | .doorbell => .doorbell

/-- Where the translation of a canonical address leads (R336). -/
def State.target? (s : State) (dev asid va : Nat) : Option Target := (s.page? dev asid va).map fun p => p.at_ va

/-- The place of a canonical address that memory of this package or its hosts holds. -/
def State.place? (s : State) (dev asid va : Nat) : Option Nat :=
  match s.target? dev asid va with
  | some (.hbm dpa) => some (hbmPlace s.pkg.mode dev dpa)
  | some (.host port hpa) => some (hostPlace port hpa)
  | _ => none

/-- The line of a canonical address. -/
def lineOf (dev asid va : Nat) : LineRef := ⟨dev, asid, va / 64⟩

/-! ## Homes (R323) -/

/-- HOMETAB of a device; an entry that no retirement changed has its value of Table 10.1. -/
def State.hometab (s : State) (dev i : Nat) : Nat :=
  match (s.dev dev).hometab.get? i with
  | some v => v
  | none => if s.pkg.mode = 0 then i else if s.pkg.mode = 1 then 512 * dev + i % 512 else 256 * dev + i % 256

/-- The index of a line in HOMETAB. -/
def homeIndex (l : LineRef) : Nat :=
  let p (k : Nat) : Nat := l.line / 2 ^ k % 1024
  Nat.xor (Nat.xor (Nat.xor (Nat.xor (Nat.xor (Nat.xor (p 0) (p 10)) (p 20)) (p 30)) (p 40)) (l.asid % 1024))
    (l.asid / 1024)

/-- The home slice of a line. -/
def State.homeOf (s : State) (l : LineRef) : Nat := s.hometab l.dev (homeIndex l)

/-! ## Map entries (R231, R234) -/

/-- Source bytes of an entry: n of R231. -/
def MapEntry.count (e : MapEntry) : Nat := e.rpr * e.rows * e.fbytes

/-- VA(t) (R231). -/
def MapEntry.va (e : MapEntry) (t : Nat) : Nat :=
  let q := t / e.fbytes
  (e.base + q / e.rpr * e.rowstride + q % e.rpr * e.rstride + e.foff + t % e.fbytes) % 2 ^ 64

/-- The entry is live or retained, so its sectors are a copy of its fields. -/
def MapEntry.active (e : MapEntry) : Bool := e.st != .displaced

/-- The entry that covers a stash offset (R234). -/
def Core.entryAt (c : Core) (off : Nat) : Option (Nat × MapEntry) :=
  c.entries.find? fun p => p.2.active && decide (p.2.lo ≤ off ∧ off < p.2.lo + p.2.size)

/-- The device and ASID of a context. -/
def State.ctxName (s : State) (ctx : Nat) : Nat × Nat :=
  match s.ctxs.get? ctx with
  | some c => (c.dev, c.asid)
  | none => (0, 0)

/-- The canonical addresses of the source bytes of a sector: pairs of the byte's index in the sector and its
address as (ASID, VA). -/
def State.sources (s : State) (e : MapEntry) (sec : Nat) : List (Nat × Nat × Nat) :=
  (List.range 16).filterMap fun b =>
    let t := 16 * sec + b - e.lo
    if t < e.count then
      let c := s.canon (s.ctxName e.ctx).1 (s.ctxName e.ctx).2 (e.va t)
      some (b, c.1, c.2.1)
    else none

/-- The lines that hold source bytes of a sector. -/
def State.sourceLines (s : State) (e : MapEntry) (sec : Nat) : List LineRef :=
  (s.sources e sec).foldl (fun l p =>
    let r := lineOf (s.ctxName e.ctx).1 p.2.1 p.2.2
    if l.contains r then l else l ++ [r]) []

/-- A stash byte as it stands in the banks. -/
def Core.stashByte (c : Core) (off : Nat) : Byte := ((c.stash.get? off).map fun b => b.val).getD 0

/-- A stash byte as scratch of a context (R459). -/
def Core.scratch (c : Core) (ctx off : Nat) : Byte :=
  match c.stash.get? off with
  | some b => if b.ctx = ctx then b.val else 0
  | none => 0

/-- A byte written into the banks; zero bytes are not listed. -/
def Core.stashPut (c : Core) (ctx off : Nat) (v : Byte) : Core :=
  { c with stash := if v = 0 then c.stash.del off else c.stash.set off ⟨ctx, v⟩ }

/-- The 16-byte unit of memory that holds a place is marked poisoned. -/
def State.poisonAt (s : State) (place : Nat) : State := { s with poison := insertNat s.poison (place / 16) }

/-- The bytes of a sector reach memory (R238); a poisoned sector poisons the units that it writes (R392). -/
def State.sectorOut (s : State) (core sec : Nat) (e : MapEntry) : State :=
  let c := s.core core
  let bad := c.stashPoison.contains sec
  (s.sources e sec).foldl (fun s p =>
    match s.place? (s.ctxName e.ctx).1 p.2.1 p.2.2 with
    | none => s
    | some a =>
      let s := { s with mem := s.mem.put a (c.stashByte (16 * sec + p.1)) }
      if bad then s.poisonAt a else s) s

/-- A sector takes another state; none is INV. -/
def State.setSector (s : State) (core sec : Nat) (st : Option SecState) (entry : Nat) : State :=
  s.modCore core fun c =>
    { c with sectors := match st with
      | none => c.sectors.del sec
      | some st => c.sectors.set sec ⟨st, entry⟩ }

/-- The bytes of a sector become INV: nothing of them may be read as the entry's (R234). -/
def State.dropSector (s : State) (core sec : Nat) : State :=
  let s := s.setSector core sec none 0
  s.modCore core fun c =>
    { c with
      stash := c.stash.filter fun p => !decide (16 * sec ≤ p.1 ∧ p.1 < 16 * sec + 16)
      stashPoison := eraseNat c.stashPoison sec }

/-- The lap of the team whose allocation holds a stash offset is marked unrecoverable where the lap wrote the
sector (R394). -/
def State.escapeSector (s : State) (core sec : Nat) : State :=
  { s with teams := s.teams.map fun p =>
      match p.2.lap with
      | none => p
      | some l =>
        if p.2.core = core ∧ p.2.state ≠ .held ∧ (l.undo.get? sec).isSome then
          (p.1, { p.2 with lap := some { l with unrecoverable := true } })
        else p }

/-- No holder: FORM 0. -/
def DirEntry.bare (e : DirEntry) : DirEntry :=
  { e with holders := [], coarse := false, groups := [], hostBit := false, engineBit := false }

/-- A holder leaves (Table 10.6); with the last one the entry has FORM 0 (R331). -/
def DirEntry.remove (e : DirEntry) (h : Holder) : DirEntry :=
  let l := e.holders.filter fun p => p.1 != h
  if l.isEmpty then e.bare else { e with holders := l }

/-- A core's stash gives up its registration for a line of which it keeps no sector (R319, R331). -/
def State.unregister (s : State) (core : Nat) (ls : List LineRef) : State :=
  ls.foldl (fun s l =>
    let kept := (s.core core).sectors.any fun p =>
      match (s.core core).entries.get? p.2.entry with
      | some e => (s.sourceLines e p.1).contains l
      | none => false
    if kept then s
    else { s with dir := s.dir.map fun d => if d.line = l then d.remove ⟨core, 1⟩ else d }) s

/-- The last write-back of a displaced entry frees it (R238). -/
def State.freeEntry (s : State) (core entry : Nat) : State :=
  s.modCore core fun c =>
    match c.entries.get? entry with
    | some e =>
      if e.st = .displaced && !(c.sectors.any fun p => p.2.entry == entry) then
        { c with entries := c.entries.del entry }
      else c
    | none => c

/-- A write-back completes: the sector's bytes reach memory and it leaves the entry (R238), or the sector of a
live entry becomes CLEAN (R239). -/
def State.writebackDone (s : State) (core sec : Nat) : State :=
  let c := s.core core
  match c.sectors.get? sec with
  | none => s
  | some sc =>
    match c.entries.get? sc.entry with
    | none => s.setSector core sec none 0
    | some e =>
      let s := (s.escapeSector core sec).sectorOut core sec e
      if e.active then s.setSector core sec (some .clean) sc.entry
      else
        let s := if ((s.core core).entryAt (16 * sec)).isSome then s.dropSector core sec
          else s.setSector core sec none 0
        (s.unregister core (s.sourceLines e sec)).freeEntry core sc.entry

/-- A displaced entry: its CLEAN sectors leave at once and its DIRTY sectors start their write-back (R238). -/
def State.displace (s : State) (core entry : Nat) : State :=
  let c := s.core core
  match c.entries.get? entry with
  | none => s
  | some e =>
    let s := s.modCore core fun c => { c with entries := c.entries.modify entry fun e => { e with st := .displaced } }
    let mine := c.sectors.filter fun p => p.2.entry == entry
    let s := mine.foldl (fun s p =>
      match p.2.st with
      | .dirty => s.setSector core p.1 (some .wb) entry
      | .wb => s
      | .clean | .fill => (s.setSector core p.1 none 0).unregister core (s.sourceLines e p.1)) s
    s.freeEntry core entry

/-- Every sector of an entry becomes INV without a write-back (SDISCARD). -/
def State.discard (s : State) (core entry : Nat) : State :=
  let c := s.core core
  match c.entries.get? entry with
  | none => s
  | some e =>
    (c.sectors.filter fun p => p.2.entry == entry).foldl (fun s p =>
      (s.dropSector core p.1).unregister core (s.sourceLines e p.1)) s

/-- Every DIRTY sector of a live entry is written back and becomes CLEAN (SFLUSH). -/
def State.flush (s : State) (core entry : Nat) : State :=
  ((s.core core).sectors.filter fun p => p.2.entry == entry && p.2.st == .dirty).foldl (fun s p =>
    s.writebackDone core p.1) s

/-! ## Directory entries (R326 to R328) -/

/-- The directory entry of a line; a line that no slice holds has none. -/
def State.entry? (s : State) (l : LineRef) : Option DirEntry := s.dir.find? fun e => e.line == l
/-- The entry of a line, or a new one that waits for its fill. -/
def State.entry (s : State) (l : LineRef) : DirEntry := (s.entry? l).getD { line := l, inL2 := false }
/-- The state with the entry of a line replaced. -/
def State.putEntry (s : State) (e : DirEntry) : State :=
  if (s.entry? e.line).isSome then { s with dir := s.dir.map fun d => if d.line = e.line then e else d }
  else { s with dir := s.dir ++ [e] }
/-- The line leaves the slice. -/
def State.dropLine (s : State) (l : LineRef) : State := { s with dir := s.dir.filter fun d => d.line != l }

/-- The state in which a holder has the line. -/
def DirEntry.holds (e : DirEntry) (h : Holder) : Option HState :=
  (e.holders.find? fun p => p.1 == h).map Prod.snd
/-- The holder in E, M, O or P (R330). -/
def DirEntry.owner (e : DirEntry) : Option Holder := (e.holders.find? fun p => p.2 != .s).map Prod.fst
/-- HSTATE (Table 10.4). -/
def DirEntry.hstate (e : DirEntry) : Nat :=
  if e.holders.any fun p => p.2 == .p then 4
  else if e.holders.any fun p => p.2 == .o then 3
  else if e.holders.any fun p => p.2 == .e || p.2 == .m then 2
  else if e.coarse || !e.holders.isEmpty then 1
  else 0

/-- An agent marks its bit of a coarse entry (R327). -/
def DirEntry.mark (e : DirEntry) (h : Holder) : DirEntry :=
  if h.agent < 768 then { e with groups := insertNat e.groups (h.agent / 8) }
  else if h.agent < 784 then { e with engineBit := true }
  else { e with hostBit := true }

/-- A holder with its state; a fifth holder makes the entry coarse (R327). -/
def DirEntry.add (e : DirEntry) (h : Holder) (st : HState) : DirEntry :=
  let others := e.holders.filter fun p => p.1 != h
  let e := { e with holders := others ++ [(h, st)] }
  if e.coarse then e.mark h
  else if e.holders.length > 4 then e.holders.foldl (fun e p => e.mark p.1) { e with coarse := true }
  else e

/-- One holder alone, in pointer form (R327). -/
def DirEntry.sole (e : DirEntry) (h : Holder) (st : HState) : DirEntry :=
  { e with holders := [(h, st)], coarse := false, groups := [], hostBit := false, engineBit := false }

/-- The targets of an invalidation or a recall for write (R328). -/
def State.targets (s : State) (e : DirEntry) (who : Option Holder) : List Holder :=
  if e.coarse then
    let cores := (e.groups.flatMap fun g => (List.range 8).map fun i => 8 * g + i).filter s.coreUp
    let own := (e.owner.toList).filter fun h => !(h.agent < 768 && cores.contains h.agent)
    let hosts := if e.hostBit then
        ((List.range 2).filter fun p => ((s.ports[p]?).getD {}).up).map fun p => ⟨784 + p, 3⟩ else []
    let engines := if e.engineBit then
        ((List.range 16).filter fun n => s.devOfFnd (n / 4) == e.line.dev).map fun n => ⟨768 + n, 2⟩ else []
    let rest : List Holder := hosts ++ engines
    cores.map (fun c => ⟨c, 0⟩) ++ (own ++ rest).eraseDups
  else (e.holders.map Prod.fst).filter fun h => some h != who

/-! ## Pins (R266) -/

/-- A team on a core with its stash allocation there. -/
def Team.on (t : Team) (core : Nat) : Bool := t.core == core && t.state == .resident

/-- The team whose allocation holds a stash byte (R353). -/
def State.allocAt (s : State) (core off : Nat) : Option (Nat × Team) :=
  s.teams.find? fun p => p.2.on core && decide (p.2.stashBase ≤ off ∧ off < p.2.stashBase + p.2.stashBytes)

/-- The device of a context. -/
def State.ctxDev (s : State) (ctx : Nat) : Nat := (s.ctxName ctx).1

/-- Steps of the K-loop of an MMA that are not committed yet and so keep their pins (R266). -/
def Mma.open_ (m : Mma) (step : Nat) : Bool :=
  let h := if m.prog.split then (m.n + 1) / 2 else m.n
  if step < h then decide (m.prog.k0 ≤ step) else decide (h + m.prog.k1 ≤ step)

/-- The team-window offset of an operand line (R261). -/
def Layout.line (l : Layout) (r s : Nat) : Nat :=
  let e (i : Nat) : Nat := (l.extents[i]?).getD 1
  let t (i : Nat) : Nat := (l.strides[i]?).getD 0
  l.base + r % e 0 * t 0 + s % e 1 * t 1 + r / e 0 * t 2 + s / e 1 * t 3

/-- An operand line of an MMA that is still pinned holds the offset (R266). -/
def Mma.pins (m : Mma) (o : Nat) : Bool :=
  m.stopped.isNone &&
  (List.range m.n).any fun s => m.open_ s &&
    (((List.range m.shape.rows).any fun r => m.la.line r s == o / 64 * 64) ||
     ((List.range m.shape.cols).any fun r => m.lb.line r s == o / 64 * 64))

/-- A stash byte is pinned by an MMA of the team whose allocation holds it. -/
def State.pinned (s : State) (core off : Nat) : Bool :=
  match s.allocAt core off with
  | none => false
  | some (_, t) => t.mmas.any fun m => m.2.pins (off - t.stashBase)

/-! ## Recalls (Table 10.5, Table 7.9) -/

/-- The sectors of a core's stash that hold source bytes of a line (R319). -/
def State.sectorsOf (s : State) (core : Nat) (l : LineRef) : List (Nat × Sector × MapEntry) :=
  let c := s.core core
  c.sectors.filterMap fun p =>
    match c.entries.get? p.2.entry with
    | some e => if (s.sourceLines e p.1).contains l then some (p.1, p.2, e) else none
    | none => none

/-- Sectors answer a recall (Table 7.9). A FILL sector answers with no data and its fill restarts. -/
def State.recallSectors (s : State) (core : Nat) (write : Bool) (l : List (Nat × Sector × MapEntry)) : State :=
  l.foldl (fun s p =>
    match p.2.1.st with
    | .fill => s
    | .clean => if write then s.dropSector core p.1 else s
    | .dirty =>
      let s := (s.escapeSector core p.1).sectorOut core p.1 p.2.2
      if write then s.dropSector core p.1 else s.setSector core p.1 (some .clean) p.2.1.entry
    | .wb => s.writebackDone core p.1) s

/-- A recall reaches a stash. -/
def State.recallStash (s : State) (core : Nat) (l : LineRef) (write : Bool) : State :=
  s.recallSectors core write (s.sectorsOf core l)

/-- A recalling write waits for the pins on what it would take (R266). -/
def State.recallWaits (s : State) (l : LineRef) (h : Holder) (write : Bool) : Bool :=
  write && decide (h.agent < 768) && (h.kind == 1 || (s.entry l).coarse) &&
  (s.sectorsOf h.agent l).any fun p => s.pinned h.agent (16 * p.1)

/-! ## First-level caches (R320) -/

/-- The sectors of a line that an address range of up to 16 bytes touches: one. -/
def sectorBit (ea : Nat) : BitVec 4 := 1#4 <<< (ea / 16 % 4)

/-- A line leaves both caches of a core. -/
def Core.uncache (c : Core) (l : LineRef) : Core :=
  { c with l1 := c.l1.filter fun x => x.line != l, ic := c.ic.filter fun x => x.line != l }

/-- The dirty bits of a line of a core's L1. -/
def Core.dirtyBits (c : Core) (l : LineRef) : BitVec 4 := ((c.l1.find? fun x => x.line == l).map fun x => x.dirty).getD 0

/-- A holder answers a recall from its own state (R332), and the home merges what it returns. A host port's
data comes with its response (R334). -/
def State.recallNow (s : State) (l : LineRef) (h : Holder) (write : Bool) : State :=
  let e := s.entry l
  let kinds : List Holder := if e.coarse && decide (h.agent < 768) then [⟨h.agent, 0⟩, ⟨h.agent, 1⟩, ⟨h.agent, 2⟩] else [h]
  let s := if h.agent < 768 && (kinds.any fun k => k.kind == 1) then s.recallStash h.agent l write else s
  let e := s.entry l
  let hs := if write then e.holders.filter fun p => !kinds.contains p.1
    else e.holders.map fun p =>
      if kinds.contains p.1 then
        (p.1, if p.1.kind = 0 && (p.2 == .m || p.2 == .o) then .o else .s)
      else p
  let dirty : BitVec 4 := e.holders.foldl (fun d p =>
    if kinds.contains p.1 && (p.2 == .m || p.2 == .o || p.2 == .p) then
      d ||| (if p.1.kind = 0 then (s.core p.1.agent).dirtyBits l else 0xF)
    else d) 0
  let s := s.putEntry { e with holders := hs, l2Dirty := e.l2Dirty ||| dirty }
  if write && decide (h.agent < 768) && kinds.any (fun k => k.kind == 0) then s.modCore h.agent fun c => c.uncache l else s

/-- A holder answers a recall, once no pin holds it up. -/
def State.recallAt (s : State) (l : LineRef) (h : Holder) (write : Bool) : State :=
  if s.recallWaits l h write then s else s.recallNow l h write

/-- A line leaves a core's L1: a write-back or a clean notice (Table 10.5). The pointer stays while the instruction cache
has the line (R320). -/
def State.leaveL1 (s : State) (core : Nat) (l : LineRef) : State :=
  match s.entry? l with
  | none => s
  | some e =>
    let d : BitVec 4 := if e.holds ⟨core, 0⟩ == some .m || e.holds ⟨core, 0⟩ == some .o then (s.core core).dirtyBits l else 0
    let code := (s.core core).ic.any fun x => x.line == l
    let s := s.modCore core fun c => { c with l1 := c.l1.filter fun x => x.line != l }
    let e : DirEntry := { e with l2Dirty := e.l2Dirty ||| d }
    if code then s.putEntry { e with holders := e.holders.map fun p => if p.1 = ⟨core, 0⟩ then (p.1, .s) else p }
    else s.putEntry (e.remove ⟨core, 0⟩)

/-- A line leaves a core's instruction cache. -/
def State.leaveIc (s : State) (core : Nat) (l : LineRef) : State :=
  let data := (s.core core).l1.any fun x => x.line == l
  let s := s.modCore core fun c => { c with ic := c.ic.filter fun x => x.line != l }
  if data then s
  else
    match s.entry? l with
    | none => s
    | some e => s.putEntry (e.remove ⟨core, 0⟩)

/-- The set of a line among the 256 of a first-level cache (R320); which lines share a set is the configuration's. -/
def l1SetOf (l : LineRef) : Nat := Config.l1Set l.asid l.line % 256

/-- The set of a line among the 8,192 of a slice (R322). -/
def l2SetOf (l : LineRef) : Nat := Config.l2Set l.asid l.line % 8192

/-- The lines of a cache in the set of a line. -/
def sameSet (l : LineRef) (xs : List CacheLine) : List CacheLine := xs.filter fun x => l1SetOf x.line == l1SetOf l

/-- Room for a line in a cache with the given ways: the line of its set that a full set gives up. -/
def setVictim (l : LineRef) (xs : List CacheLine) (ways : List Nat) (fresh : Nat) : Option LineRef :=
  if xs.length < ways.length then none
  else
    let set := sameSet l xs
    if set.length < ways.length then none else ((set[Config.evicts fresh]?).or set.head?).map CacheLine.line

/-- The way that a line takes: the lowest that is free in its set (log 26). -/
def freeWay (l : LineRef) (xs : List CacheLine) (ways : List Nat) : Nat :=
  (ways.find? fun w => !(xs.any fun x => x.way == w && l1SetOf x.line == l1SetOf l)).getD 0

/-- The working ways of a core's L1 and of its instruction cache (R320, R341). -/
def Core.l1Ways (c : Core) : List Nat := (List.range 16).filter fun w => !c.l1Dead.contains w
/-- As `l1Ways`. -/
def Core.icWays (c : Core) : List Nat := (List.range 8).filter fun w => !c.icDead.contains w

/-- The line with the sectors that an access fills and, where it writes, dirties. -/
def CacheLine.fill (x : CacheLine) (valid : BitVec 4) (wr : Bool) : CacheLine :=
  { x with valid := x.valid ||| valid, dirty := if wr then x.dirty ||| valid else x.dirty }

/-- An access of a core finds or fills its line in the L1 (R320). -/
def State.cacheData (s : State) (core : Nat) (l : LineRef) (valid : BitVec 4) (wr : Bool) : State :=
  if (s.core core).l1.any fun x => x.line == l then
    s.modCore core fun c => { c with l1 := c.l1.map fun x => if x.line = l then x.fill valid wr else x }
  else
    let s := match setVictim l (s.core core).l1 (s.core core).l1Ways s.fresh with
      | some v => (s.leaveL1 core v).bump
      | none => s
    s.modCore core fun c => { c with l1 := c.l1 ++ [{ line := l, way := freeWay l c.l1 c.l1Ways : CacheLine }.fill valid wr] }

/-- A fetch of a core finds or fills its line in the instruction cache (R320). -/
def State.cacheCode (s : State) (core : Nat) (l : LineRef) : State :=
  if (s.core core).ic.any fun x => x.line == l then s
  else
    let s := match setVictim l (s.core core).ic (s.core core).icWays s.fresh with
      | some v => (s.leaveIc core v).bump
      | none => s
    s.modCore core fun c => { c with ic := c.ic ++ [{ line := l, way := freeWay l c.ic c.icWays, valid := 0xF }] }

/-! ## Transactions (R331, R332, Table 10.6) -/

/-- A transaction opens for a request with the acknowledgements that it awaits. -/
def State.openReq (s : State) (l : LineRef) (q : Req) : State :=
  let e := s.entry l
  let acks := if q.write then s.targets e q.src
    else (e.owner.toList).filter fun h => some h != q.src
  s.putEntry { e with txn := some { req := q, acks := acks } }

/-- A transaction for an agent that becomes a holder, or for an access at the home. -/
def State.openTxn (s : State) (l : LineRef) (who : Option Holder) (write partialOwn : Bool) : State :=
  s.openReq l { src := who, who := who, write := write, partialOwn := partialOwn }

/-- The state that a request leaves its requester in (Table 10.6). -/
def DirEntry.granted (e : DirEntry) (t : Req) : DirEntry :=
  match t.who with
  | none => if t.write then e.bare else e
  | some h =>
    if t.partialOwn then e.sole h .p
    else if t.write then e.sole h (if h.kind = 3 then .e else .m)
    else
      let alone := !e.coarse && (e.holders.filter fun p => p.1 != h).isEmpty
      e.add h (if alone && decide (h.kind ≠ 1) then .e else .s)

/-- 64 bytes of a line stored at its place; the units written are no longer poisoned (R392). -/
def State.putLine (s : State) (place : Nat) (data : List Byte) : State :=
  let bs := (List.range 64).map fun i => (data[i]?).getD 0
  { s with
    mem := s.mem.splice place bs
    poison := s.poison.filter fun u => !decide (place / 16 ≤ u ∧ u < place / 16 + 4) }

/-- A port sends a line to its host: its number and its bytes. -/
def State.sendLine (s : State) (port n place : Nat) : State :=
  { s with ports := listModify s.ports port fun p => { p with sent := some (n, s.mem.bytes place 64) } }

/-- A port's table of host lines (R335). -/
def State.hostLine (s : State) (l : LineRef) (held : Bool) : State :=
  match s.target? l.dev l.asid (64 * l.line) with
  | some (.host port hpa) =>
    let k := (hpa / 64, l)
    { s with ports := listModify s.ports port fun p =>
        { p with lines := (p.lines.filter fun q => q != k) ++ (if held then [k] else []) } }
  | _ => s

/-- The state in which a slice holds a host line toward its host (Table 10.8). -/
inductive CxlState where
  | m | e | s | i
  deriving DecidableEq, Repr

/-- The CXL.cache state of a line, from its internal holders. -/
def DirEntry.cxl (e : DirEntry) : CxlState :=
  if e.holders.any (fun p => p.2 == .m || p.2 == .o || p.2 == .p) || e.l2Dirty != 0 then .m
  else if e.holders.any fun p => p.2 == .e then .e
  else if !e.holders.isEmpty || e.inL2 then .s
  else .i

/-- A host line leaves the device by DirtyEvict or CleanEvict: bytes that are dirty are sent (R335). -/
def State.evictHost (s : State) (l : LineRef) : State :=
  match s.target? l.dev l.asid (64 * l.line) with
  | some (.host port hpa) =>
    let s := if (s.entry l).cxl = .m then s.sendLine port (hpa / 64) (hostPlace port (hpa / 64 * 64)) else s
    s.hostLine l false
  | _ => s

/-- The number of a line in device or host memory. -/
def State.lineNumber (s : State) (l : LineRef) : Nat :=
  match s.target? l.dev l.asid (64 * l.line) with
  | some (.hbm a) | some (.host _ a) => a / 64
  | _ => 0

/-- A line leaves its slice; requests that wait for it stay (R332). -/
def State.leaveSlice (s : State) (l : LineRef) : State :=
  match (s.entry l).queue with
  | [] => s.dropLine l
  | q => s.putEntry { line := l, inL2 := false, queue := q }

/-- What ends a request besides the grant: a host's bytes are merged, its read is answered (R334), or its snoop of a host
line is (R335). -/
def State.serveHost (s : State) (l : LineRef) (q : Req) : State :=
  match s.place? l.dev l.asid (64 * l.line), q.data, q.src with
  | some a, some bs, _ => s.putLine a bs
  | some a, none, some h =>
    if h.kind ≠ 3 || (q.snoop != 0 && (s.entry l).cxl != .m) then s else s.sendLine (h.agent - 784) (s.lineNumber l) a
  | _, _, _ => s

/-- The entry after a request whose acknowledgements have arrived (Table 10.6, R335). -/
def DirEntry.ended (e : DirEntry) (q : Req) : DirEntry :=
  let e := { (e.granted q) with txn := none }
  if q.snoop = 2 then { e with l2Dirty := 0, holders := e.holders.map fun p => (p.1, if p.2 = .o then .s else p.2) } else e

/-- A transaction whose acknowledgements have arrived and whose line stands in the slice ends. -/
def State.endTxn (s : State) (l : LineRef) : State :=
  let e := s.entry l
  match e.txn with
  | some t =>
    if t.acks.isEmpty && e.inL2 then
      let s := (s.serveHost l t.req).putEntry (e.ended t.req)
      if t.req.snoop = 1 then (s.hostLine l false).leaveSlice l else s
    else s
  | none => s

/-- One target's acknowledgement is counted (R328, R333). -/
def State.ack (s : State) (l : LineRef) (h : Holder) : State :=
  let e := s.entry l
  match e.txn with
  | some t => s.putEntry { e with txn := some { t with acks := t.acks.filter fun k => k != h } }
  | none => s

/-- Every target that answers of itself does so; host ports answer by their responses, and pinned sectors wait. -/
def State.answerAll (s : State) (l : LineRef) : State :=
  match (s.entry l).txn with
  | none => s
  | some t => (t.acks.filter fun h => h.kind != 3).foldl (fun s h =>
      if s.recallWaits l h t.req.write then s else (s.recallAt l h t.req.write).ack l h) s

/-- A request waits for its turn, by arrival, kind and agent (R332); an agent that asks again keeps its place. -/
def DirEntry.enqueue (e : DirEntry) (q : Req) : DirEntry :=
  let key (r : Req) : List Nat := match r.src with
    | some h => [r.at_, h.kind, h.agent]
    | none => [r.at_, 4, 0]
  let before (a b : Req) : Bool := match key a, key b with
    | [x, y, z], [x', y', z'] => decide (x < x' ∨ (x = x' ∧ (y < y' ∨ (y = y' ∧ z < z'))))
    | _, _ => false
  let asked := (q.src.map fun h => h.kind != 3).getD true && e.queue.any fun r => r.src == q.src
  if asked then e else { e with queue := insertBy before q e.queue.reverse |>.reverse }

/-- The requests that wait are carried out in turn, while each ends at once. -/
def State.nextReqs (l : LineRef) : Nat → State → State
  | 0, s => s
  | n + 1, s =>
    let e := s.entry l
    match e.txn, e.queue with
    | none, q :: r =>
      State.nextReqs l n ((((s.putEntry { e with queue := r }).openReq l q).answerAll l).endTxn l)
    | _, _ => s

/-- A transaction ends where it can, and the requests that waited for it follow. -/
def State.closeTxn (s : State) (l : LineRef) : State :=
  let s := s.endTxn l
  s.nextReqs l (s.entry l).queue.length

/-! ## Fills from memory and evictions (R324, R335, R336) -/

/-- The device obtains a host line: its bytes are what the host holds at that moment (R335). -/
def State.obtainHost (s : State) (l : LineRef) : State :=
  match s.target? l.dev l.asid (64 * l.line) with
  | some (.host port hpa) =>
    let s := (List.range 64).foldl (fun s i =>
      let a := hostPlace port (hpa + i)
      { s with mem := s.mem.put a (Config.hostByte s.fresh a) }) s
    (s.hostLine l true).bump
  | _ => s

/-- A home evicts a line: every holder is recalled for write and the line leaves (R324). While a holder has not answered,
the line stays. -/
def State.evict (s : State) (l : LineRef) : State :=
  let s := (s.openTxn l none true false).answerAll l
  match (s.entry l).txn with
  | some t => if t.acks.isEmpty then (s.evictHost l).leaveSlice l else s
  | none => s

/-- Lines of a slice in the set of a line that a home may evict: no transaction, so no holder of theirs is being recalled. -/
def victims (l : LineRef) (set : List DirEntry) : List LineRef :=
  (set.filter fun e => e.txn.isNone && e.line != l).map DirEntry.line

/-- A slice has a way free in the set of a line, or makes one free by an eviction (R322, R324). Which lines share a set, and
which line of a full set leaves, is the configuration's. -/
def State.makeRoom (s : State) (l : LineRef) : State :=
  let held := s.dir.filter fun e => e.inL2 && s.homeOf e.line == s.homeOf l
  if held.length < 24 then s
  else
    let set := held.filter fun e => l2SetOf e.line == l2SetOf l
    if set.length < 24 then s
    else
      match victims l set with
      | [] => s
      | v :: vs => (s.evict (((v :: vs)[Config.evicts s.fresh]?).getD v)).bump

/-- A line of the slice of another line's set can be filled. -/
def State.hasWay (s : State) (l : LineRef) : Bool :=
  let held := s.dir.filter fun e => e.inL2 && s.homeOf e.line == s.homeOf l
  decide (held.length < 24) || decide ((held.filter fun e => l2SetOf e.line == l2SetOf l).length < 24)

/-- The translation unit of a home slice under compute die d: unit d mod 4 of foundation die d div 4, which is number d of
the sixteen (R336). -/
def unitOf (slice : Nat) : Nat := slice / 64

/-- A unit caches the translation of a page, and gives up its oldest when it holds 16,384 (R336). -/
def State.cacheWalk (s : State) (unit asid : Nat) (p : Page) : State :=
  let k := (asid, p.va, p.size)
  let l := (s.tlb.get? unit).getD []
  if l.contains k then s else { s with tlb := s.tlb.set unit ((l ++ [k]).drop (l.length + 1 - 16384)) }

/-- The translations of a range leave every unit of a device (R340). -/
def State.dropTlb (s : State) (dev asid va len : Nat) : State :=
  { s with tlb := s.tlb.map fun u =>
      (u.1, if s.devOfFnd (u.1 / 4) = dev then
        u.2.filter fun e => !(e.1 == asid && decide (e.2.1 < va + len ∧ va < e.2.1 + e.2.2))
      else u.2) }

/-- The line in the slice, with the bits of its page (R314). -/
def State.filled (s : State) (l : LineRef) (p : Page) : State :=
  if s.hasWay l then s.putEntry { (s.entry l) with inL2 := true, perm := p.perm, l2Valid := 0xF } else s

/-- The home fills a line from memory, once a way of its set is free. None: the translation fails and the home allocates no
line (R337). -/
def State.homeFill (s : State) (l : LineRef) : Option State :=
  let e := s.entry l
  if e.inL2 then some s
  else
    match s.page? l.dev l.asid (64 * l.line) with
    | none => none
    | some p =>
      match p.at_ (64 * l.line) with
      | .hbm _ => some (((s.cacheWalk (unitOf (s.homeOf l)) l.asid p).makeRoom l).filled l p)
      | .host _ _ => some ((((s.cacheWalk (unitOf (s.homeOf l)) l.asid p).makeRoom l).obtainHost l).filled l p)
      | _ => none

/-- A line lies in a range that is being purged (R340). -/
def State.purging (s : State) (l : LineRef) : Bool :=
  (s.dev l.dev).purging.any fun r => r.1 == l.asid && decide (r.2.1 ≤ 64 * l.line ∧ 64 * l.line < r.2.1 + r.2.2)

/-- What an access needs of a line: a read copy, ownership, partial ownership, or an access at the home. -/
inductive Need where
  | read | own | partialOwn | homeRead | homeWrite
  deriving DecidableEq, Repr

/-- The request that a need makes at the home. -/
def Need.req (n : Need) (who : Holder) (cycle : Nat) : Req :=
  { src := some who
    who := match n with
      | .homeRead | .homeWrite => none
      | _ => some who
    write := n == .own || n == .partialOwn || n == .homeWrite
    partialOwn := n == .partialOwn, at_ := cycle }

/-- Whether the agent holds what it needs already (Table 10.5). -/
def DirEntry.meets (e : DirEntry) (who : Holder) (n : Need) : Bool :=
  match n, e.holds who with
  | .read, some _ => true
  | .own, some .e | .own, some .m => true
  | .partialOwn, some .p => true
  | _, _ => false

/-- A silent change at the holder: E becomes M on a write (Table 10.5). -/
def State.silent (s : State) (l : LineRef) (who : Holder) (n : Need) : State :=
  match n with
  | .own => s.putEntry { (s.entry l) with holders := (s.entry l).holders.map fun p =>
      if p.1 = who then (p.1, .m) else p }
  | _ => s

/-- The agent obtains what it needs of a line, by a home transaction where it does not hold it. False: it waits, for a
purge, a host port's answer, a pin, a way of the slice, or its turn. -/
def State.obtain (s : State) (l : LineRef) (who : Holder) (n : Need) : State × Bool :=
  if s.purging l then (s, false)
  else
    let s := (s.answerAll l).closeTxn l
    let e := s.entry l
    if e.txn.isSome then
      match s.homeFill l with
      | none => (s, false)
      | some s =>
        let s := s.closeTxn l
        let mine := ((s.entry l).txn.map fun t => t.req.src == some who).getD true
        (if mine then s else s.putEntry ((s.entry l).enqueue (n.req who s.cycle)), false)
    else if e.meets who n then (s.silent l who n, true)
    else
      match s.homeFill l with
      | none => (s, false)
      | some s =>
        let s := ((s.openReq l (n.req who s.cycle)).answerAll l).endTxn l
        (s, (s.entry l).txn.isNone)

/-- A host port answers a back-invalidation for a line that it holds: where it held the line in E or M, the bytes
are what the host returns (R334). -/
def State.hostAnswers (s : State) (l : LineRef) (h : Holder) (write : Bool) : State :=
  let e := s.entry l
  let s := match e.holds h, s.place? l.dev l.asid (64 * l.line) with
    | some .e, some a | some .m, some a =>
      ((List.range 64).foldl (fun (s : State) i => { s with mem := s.mem.put (a + i) (Config.hostByte s.fresh (a + i)) }) s).bump
    | _, _ => s
  (s.recallNow l h write).ack l h

/-- An access at the home by a unit of the device: every holder answers, host ports included (Table 10.6). -/
def State.force (s : State) (l : LineRef) (write : Bool) : State :=
  let finish (s : State) : State :=
    let s := match (s.entry l).txn with
      | none => s
      | some t => t.acks.foldl (fun s h => s.hostAnswers l h t.req.write) s
    s.closeTxn l
  match s.homeFill l with
  | none => s
  | some s => finish ((finish s).openTxn l none write false)

/-- What is needed of several lines; the lines already obtained stay held. -/
def State.obtainAll (s : State) (ls : List LineRef) (who : Holder) (n : Need) : State × Bool :=
  ls.foldl (fun r l => if r.2 then r.1.obtain l who n else r) (s, true)

/-- Lines of code that a core fetches through their homes (R320). -/
def State.obtainCode (s : State) (core : Nat) (ls : List LineRef) : State × Bool :=
  ls.foldl (fun r l => if r.2 then
      (match r.1.obtain l ⟨core, 0⟩ .read with
       | (s, true) => (s.cacheCode core l, true)
       | r => r)
    else r) (s, true)

end Sys2Proof.Machine
end

