-- ==== Sys2Proof/Machine/SpanOps.lean ====
section
/-!
DEFINITION. Spans: grids and boxes (R14 to R17), register shapes and their values (R18, R19, R53),
result shapes (R21, R22), splitting, peeling and merging (R23 to R26, R34, R35), and the expansion of a
cursor's team into waves (R26).
-/
namespace Sys2Proof.Machine
open Sys2Proof

/-! ## Boxes (R15 to R17) -/

/-- A quotient rounded up. -/
def ceilDiv (a b : Nat) : Nat := (a + b - 1) / b

/-- Teams of a grid along an axis: BX, BY, BZ (R15). -/
def Grid.across (g : Grid) (d : Nat) : Nat :=
  if d = 0 then ceilDiv g.gx g.tx else if d = 1 then ceilDiv g.gy g.ty else ceilDiv g.gz g.tz
/-- Extent of the grid along an axis. -/
def Grid.items (g : Grid) (d : Nat) : Nat := if d = 0 then g.gx else if d = 1 then g.gy else g.gz
/-- Extent of a team along an axis. -/
def Grid.teamItems (g : Grid) (d : Nat) : Nat := if d = 0 then g.tx else if d = 1 then g.ty else g.tz
/-- %tcount. -/
def Grid.teams (g : Grid) : Nat := g.across 0 * g.across 1 * g.across 2
/-- %team of a team's box coordinates (R15). -/
def Grid.linear (g : Grid) (bx by_ bz : Nat) : Nat := bx + g.across 0 * (by_ + g.across 1 * bz)

/-- First team of a box along an axis. -/
def Box.lo (b : Box) (d : Nat) : Nat := if d = 0 then b.bx0 else if d = 1 then b.by0 else b.bz0
/-- One past the last team of a box along an axis. -/
def Box.hi (b : Box) (d : Nat) : Nat := if d = 0 then b.bx1 else if d = 1 then b.by1 else b.bz1
/-- The box with another range of teams along an axis. -/
def Box.cut (b : Box) (d lo hi : Nat) : Box :=
  if d = 0 then { b with bx0 := lo, bx1 := hi }
  else if d = 1 then { b with by0 := lo, by1 := hi }
  else { b with bz0 := lo, bz1 := hi }
/-- Teams of a box. -/
def Box.count (b : Box) : Nat := (b.bx1 - b.bx0) * (b.by1 - b.by0) * (b.bz1 - b.bz0)
/-- Coordinates of the team at a position of a box, positions in ascending %team order. -/
def Box.at_ (b : Box) (pos : Nat) : Nat × Nat × Nat :=
  let nx := b.bx1 - b.bx0
  let ny := b.by1 - b.by0
  (b.bx0 + pos % nx, b.by0 + pos / nx % ny, b.bz0 + pos / (nx * ny))
/-- Position of a team of the box. -/
def Box.posOf (b : Box) (bx by_ bz : Nat) : Nat :=
  let nx := b.bx1 - b.bx0
  let ny := b.by1 - b.by0
  (bx - b.bx0) + nx * ((by_ - b.by0) + ny * (bz - b.bz0))
/-- Whether a team lies in the box. -/
def Box.mem (b : Box) (bx by_ bz : Nat) : Bool :=
  decide (b.bx0 ≤ bx ∧ bx < b.bx1 ∧ b.by0 ≤ by_ ∧ by_ < b.by1 ∧ b.bz0 ≤ bz ∧ bz < b.bz1)

/-- Origin of a box along an axis, in grid coordinates (R17). -/
def Grid.origin (g : Grid) (b : Box) (d : Nat) : Nat := b.lo d * g.teamItems d
/-- Present items of a box along an axis: the clipped extent (R16, R30). -/
def Grid.width (g : Grid) (b : Box) (d : Nat) : Nat :=
  min (b.hi d * g.teamItems d) (g.items d) - b.lo d * g.teamItems d
/-- Present items of a box: N of R30. -/
def Grid.boxItems (g : Grid) (b : Box) : Nat := g.width b 0 * g.width b 1 * g.width b 2

/-! ## Forms (R18, R19) -/

/-- Base of a form. -/
def Form.base : Form → W64
  | .u w => w
  | .a b _ _ _ => b
/-- Coefficient of a form along an axis. -/
def Form.coef (f : Form) (d : Nat) : W64 :=
  match f with
  | .u _ => 0
  | .a _ x y z => if d = 0 then x else if d = 1 then y else z
/-- Whether the shape is A. -/
def Form.isA : Form → Bool
  | .u _ => false
  | .a _ _ _ _ => true
/-- EVAL at offsets from the origin (R19). -/
def Form.eval (f : Form) (dx dy dz : Nat) : W64 :=
  match f with
  | .u w => w
  | .a b x y z => b + x * BitVec.ofNat 64 dx + y * BitVec.ofNat 64 dy + z * BitVec.ofNat 64 dz
/-- Forms combined piece by piece. -/
def Form.zip (f : W64 → W64 → W64) (p q : Form) : Form :=
  .a (f p.base q.base) (f (p.coef 0) (q.coef 0)) (f (p.coef 1) (q.coef 1)) (f (p.coef 2) (q.coef 2))
/-- A form times a number. -/
def Form.scale (c : W64) (f : Form) : Form := .a (c * f.base) (c * f.coef 0) (c * f.coef 1) (c * f.coef 2)
/-- A form seen from another origin (R23): `o` are the offsets of the new origin. -/
def Form.rebase (f : Form) (o : Nat → Int) : Form :=
  match f with
  | .u w => .u w
  | .a b x y z =>
    .a (b + x * BitVec.ofInt 64 (o 0) + y * BitVec.ofInt 64 (o 1) + z * BitVec.ofInt 64 (o 2)) x y z
/-- A U operand of an affine row has the value that READ gives it (R21, R137). -/
def Form.readAs (t : ITy) (f : Form) : Form :=
  match f with
  | .u w => .u (BitVec.ofInt 64 (readI t w.toNat))
  | f => f
/-- An exact integer of a form's word: signed or unsigned as the type (R22). -/
def exactW (t : ITy) (w : W64) : Int := if t.signed then w.toInt else (w.toNat : Int)

/-- The exact values of an affine function at the corners of a box whose widths are `n` (R22). -/
def corners (n : Nat → Nat) (base : Int) (c : Nat → Int) : List Int :=
  let ends (d : Nat) : List Int := [0, c d * ((n d : Int) - 1)]
  (ends 0).flatMap fun x => (ends 1).flatMap fun y => (ends 2).map fun z => base + x + y + z

/-- The exact corner values of a form under a type. -/
def Form.corners (t : ITy) (n : Nat → Nat) (f : Form) : List Int :=
  match f with
  | .u w => [readI t w.toNat]
  | f => Machine.corners n (exactW t f.base) fun d => exactW t (f.coef d)

/-- Every item's exact value lies in the type's range (R22, step 1). -/
def Form.inRange (t : ITy) (n : Nat → Nat) (f : Form) : Bool :=
  (f.corners t n).all fun v => decide (t.tmin ≤ v ∧ v ≤ t.tmax)

/-- ICMP of two forms (R22): none peels. -/
def formCmp (t : ITy) (rel : Rel) (n : Nat → Nat) (a b : Form) : Option SPred :=
  if !(a.inRange t n && b.inRange t n) then none
  else
    let ex (f : Form) : Int := match f with
      | .u w => readI t w.toNat
      | f => exactW t f.base
    let base := ex a - ex b
    let coef (d : Nat) : Int := exactW t (a.coef d) - exactW t (b.coef d)
    let h := corners n base coef
    let wide (d : Nat) : Bool := decide (1 < n d)
    let live := (List.range 3).filter fun d => wide d && coef d != 0
    match rel with
    | .eq | .ne =>
      if live.isEmpty then some (.u (relI rel base 0))
      else if h.all (fun v => decide (0 < v)) || h.all (fun v => decide (v < 0)) then
        some (.u (relI rel 1 0))
      else none
    | .lt | .le | .gt | .ge | .un =>
      if h.all (fun v => relI rel v 0) then some (.u true)
      else if h.all (fun v => !relI rel v 0) then some (.u false)
      else
        match live with
        | [d] => some (.a d base (coef d) rel)
        | _ => none

/-- A span predicate seen from another origin. -/
def SPred.rebase (p : SPred) (o : Nat → Int) : SPred :=
  match p with
  | .u b => .u b
  | .a d base coef rel => .a d (base + coef * o d) coef rel
/-- A span predicate for the item at an offset along its axis. -/
def SPred.eval (p : SPred) (off : Nat → Nat) : Bool :=
  match p with
  | .u b => b
  | .a d base coef rel => relI rel (base + coef * (off d : Int)) 0

/-! ## Registers of a span (R53) -/

/-- A span's predicate; p7 is U true. -/
def Span.pget (sp : Span) (p : Nat) : SPred := if p = 7 then .u true else (sp.preds[p]?).getD (.u false)
/-- A write of a span's predicate. -/
def Span.pput (sp : Span) (p : Nat) (v : SPred) : Span :=
  if p = 7 then sp else { sp with preds := listSet sp.preds p v }

/-- Bits of a slot's value as a 32-bit register: the form, or none for the high half of an A pair. -/
def SSlot.word (sl : SSlot) : Option Form :=
  match sl.form with
  | .u w => some (.u (if sl.hi then w >>> 32 else w &&& 0xFFFFFFFF))
  | f => if sl.hi then none else some f

/-- A run of registers read by a span: its form and whether a part is released; none peels. -/
def Span.get (sp : Span) (r : RegRef) : Option (Form × Bool) :=
  if r.uni then
    match sp.uregs.get? (regKey r.idx sp.depth) with
    | none => some (.u 0, true)
    | some f => some (f, false)
  else
    let slot (j : Nat) : Option SSlot := sp.vregs.get? (regKey (r.idx + j) sp.depth)
    match r.n, slot 0, slot 1 with
    | 2, some ⟨false, .a b x y z⟩, some ⟨true, f⟩ =>
      if f = .a b x y z then some (f, false) else none
    | n, _, _ =>
      (List.range n).foldr (fun j acc =>
        match acc, slot j with
        | none, _ => none
        | some (f, st), none => some (.u (f.base <<< 32), if n = 1 then true else true || st)
        | some (f, st), some sl =>
          match sl.word with
          | none => none
          | some (.u w) => some (.u (w ||| (f.base <<< 32)), st)
          | some g => if n = 1 then some (g, st) else none) (some (.u 0, false))

/-- A write of a run of registers by a span. -/
def Span.put (sp : Span) (r : RegRef) (f : Form) : Span :=
  if r.uni then { sp with uregs := sp.uregs.set (regKey r.idx sp.depth) f }
  else
    match r.n with
    | 2 =>
      let lo := sp.vregs.set (regKey r.idx sp.depth) { form := f }
      { sp with vregs := lo.set (regKey (r.idx + 1) sp.depth) { hi := true, form := f } }
    | _ =>
      let f := match f with
        | .u w => .u (w &&& 0xFFFFFFFF)
        | f => f
      { sp with vregs := sp.vregs.set (regKey r.idx sp.depth) { form := f } }

/-- Last-use bits in a span (R64). -/
def Span.lastUse (sp : Span) (rs : List RegRef) : Span :=
  rs.foldl (fun sp r =>
    if r.lu then
      (List.range r.n).foldl (fun sp j =>
        if r.uni then { sp with uregs := sp.uregs.del (regKey (r.idx + j) sp.depth) }
        else { sp with vregs := sp.vregs.del (regKey (r.idx + j) sp.depth) }) sp
    else sp) sp

/-- The windowed registers of a depth are released in a span (R46). -/
def Span.closeWindow (sp : Span) (depth : Nat) : Span :=
  let out (k : Nat) : Bool := !(decide (64 * depth + 16 ≤ k ∧ k < 64 * depth + 64))
  { sp with vregs := sp.vregs.filter fun p => out p.1, uregs := sp.uregs.filter fun p => out p.1 }

/-- Words of the form file that a span holds (R53); the two halves of a pair written together are one form. -/
def Span.words (sp : Span) : Nat :=
  let cost (f : Form) : Nat := if f.isA then 4 else 1
  let v := sp.vregs.foldl (fun n p =>
    let lower := (sp.vregs.get? (p.1 - 1)).map fun q => (q.hi, q.form)
    if p.2.hi && lower == some (false, p.2.form) then n else n + cost p.2.form) 0
  let u := sp.uregs.foldl (fun n p => n + cost p.2) 0
  let q := sp.preds.foldl (fun n p => match p with
    | .u _ => n
    | .a _ _ _ _ => n + 2) 0
  v + u + q

/-- CTL.STRICTREG and the other control bits of a span are its copy of the context's. -/
def Span.strictReg (sp : Span) : Bool := sp.ctl.getLsbD 0
/-- CTL.STALLCHK is STRICT. -/
def Span.strictStall (sp : Span) : Bool := sp.ctl.toNat / 2 % 4 == 1
/-- Every flag is zero (R25). -/
def Span.quiet (sp : Span) : Bool := sp.flags.all fun n => n == 0
/-- The word at which a span stands. -/
def Span.wordPc (sp : Span) : Nat :=
  match sp.clause with
  | none => sp.pc
  | some c => c.addr + 8 * (sp.slot + 1)
/-- The span moves to a clause boundary. -/
def Span.goto (sp : Span) (pc : Nat) : Span := { sp with pc := pc, clause := none, started := false, slot := 0 }
/-- The span passes its instruction. -/
def Span.advance (sp : Span) : Span :=
  match sp.clause with
  | none => sp
  | some c =>
    match c.slots.find? fun x => decide (x.ix > sp.slot) with
    | some x => { sp with slot := x.ix }
    | none => sp.goto c.finish

/-! ## Slots, records and SJOIN -/

/-- A span leaves its slot (R351). -/
def State.dropSlot (s : State) (i : Nat) : State :=
  match (s.spans.get? i).map Span.state with
  | some (SpanState.running core slot) | some (SpanState.parkedFault core slot _ _) =>
    s.modCore core fun c =>
      { c with
        slots := listSet c.slots slot none
        ports := c.ports.map fun p => if p.holder = some (Focus.span i) then { p with holder := none } else p }
  | _ => s

/-- Live spans of a grid (R24). -/
def State.liveSpans (s : State) (g : Nat) : Nat := (s.spans.filter fun p => p.2.grid == g).length

/-- The span's shapes and values from a new box's origin (R23). -/
def Span.rebox (sp : Span) (g : Grid) (b : Box) : Span :=
  let o (d : Nat) : Int := (g.origin b d : Int) - (g.origin sp.box d : Int)
  { sp with
    box := b
    vregs := sp.vregs.map fun p => (p.1, { p.2 with form := p.2.form.rebase o })
    uregs := sp.uregs.map fun p => (p.1, p.2.rebase o)
    preds := sp.preds.map fun p => p.rebase o }

/-- The box of two boxes that share a face and whose union is a box (R35, condition 1). -/
def Box.join (a b : Box) : Option Box :=
  (List.range 3).findSome? fun d =>
    let same := ((List.range 3).filter fun e => e != d).all fun e => a.lo e == b.lo e && a.hi e == b.hi e
    if same && a.hi d == b.lo d then some (a.cut d (a.lo d) (b.hi d))
    else if same && b.hi d == a.lo d then some (a.cut d (b.lo d) (a.hi d))
    else none

/-- Two parked spans as one, where R35 allows it. -/
def Span.merge (g : Grid) (a b : Span) : Option Span :=
  match a.box.join b.box with
  | none => none
  | some box =>
    let b' := b.rebox g a.box
    if a.depth = b.depth ∧ b'.vregs = a.vregs ∧ b'.uregs = a.uregs ∧ b'.preds = a.preds then
      let st := match a.state, b.state with
        | .parkedJoin pc x, .parkedJoin _ y => .parkedJoin pc (min x y)
        | st, _ => st
      some { (a.rebox g box) with tstat := a.tstat ||| b.tstat, fpflags := a.fpflags ||| b.fpflags, state := st }
    else none

/-- The span is parked at the SJOIN at `pc`. -/
def Span.joinedAt (sp : Span) (pc : Nat) : Bool :=
  match sp.state with
  | .parkedJoin q _ => q == pc
  | _ => false

/-- When a span parked at an SJOIN, and the origin of its box on z, y and x (R25). -/
def Span.arrival (sp : Span) : List Nat :=
  [match sp.state with
   | .parkedJoin _ since => since
   | _ => 0, sp.box.bz0, sp.box.by0, sp.box.bx0]

/-- Spans of a grid parked at one SJOIN, in the order in which they came there; ties by the lower origin (R25). -/
def State.joined (s : State) (g pc : Nat) : List (Nat × Span) :=
  sortBy (fun a b => !decide (b.2.arrival < a.2.arrival)) (s.spans.filter fun p => p.2.grid == g && p.2.joinedAt pc)

/-- One merge among the spans parked at an SJOIN, if any pair allows one. -/
def State.mergeOnce (s : State) (g pc : Nat) : Option State :=
  match s.grids.get? g with
  | none => none
  | some gr =>
    let l := s.joined g pc
    l.findSome? fun a => l.findSome? fun b =>
      if a.1 = b.1 then none
      else (Span.merge gr a.2 b.2).map fun m => { s with spans := (s.spans.set a.1 m).del b.1 }

/-- Merges until no pair allows one (R34); at most `n` merges. -/
def State.mergeAll : Nat → Nat → Nat → State → State
  | 0, _, _, s => s
  | n + 1, g, pc, s =>
    match s.mergeOnce g pc with
    | none => s
    | some s => State.mergeAll n g pc s

/-- The spans parked at an SJOIN merge and are released past it; each waits for a slot (R34, R351). -/
def State.releaseJoin (s : State) (g pc : Nat) : State :=
  let s := State.mergeAll (s.joined g pc).length g pc s
  { s with spans := s.spans.map fun p =>
      (p.1, if p.2.grid == g && p.2.joinedAt pc then { p.2.advance with state := .ready } else p.2) }

/-- SJOIN_RELEASE: every live span of the grid is parked at one SJOIN (R34). -/
def State.checkJoin (s : State) (g : Nat) : State :=
  match s.spans.find? fun p => p.2.grid == g with
  | none => s
  | some (_, sp) =>
    match sp.state with
    | .parkedJoin pc _ =>
      if (s.joined g pc).length = s.liveSpans g then s.releaseJoin g pc else s
    | _ => s

/-- A span that must be quiet is held until its flags are zero (R25): one of its operations completes. -/
def State.drainSpan (s : State) (i : Nat) (sp : Span) : State :=
  match sp.flights.find? fun p => !p.2.done && p.2.flag.isSome with
  | none => s
  | some (seq, _) => s.finishSpan i seq

/-- No other span of the grid reached an instruction that cuts it before this one did (R25). -/
def State.cutTurn (s : State) (i : Nat) (sp : Span) : Bool :=
  !(s.spans.any fun p => p.1 != i && p.2.grid == sp.grid &&
    (match p.2.cutAt with
     | none => false
     | some n => decide (n < sp.cutAt.getD s.nextId)))

/-- A span that is to be split, peeled or parked is held at its instruction: it takes its place in the order of the cuts of its
grid, and its operations complete (R25). -/
def State.holdCut (s : State) (i : Nat) (sp : Span) : State :=
  let s := if sp.cutAt.isSome then s
    else ({ s with nextId := s.nextId + 1 } : State).modSpan i fun sp => { sp with cutAt := some s.nextId }
  s.drainSpan i sp

/-- Whether a span may be split, peeled or parked now (R25). -/
def State.maycut (s : State) (i : Nat) (sp : Span) : Bool := sp.quiet && s.cutTurn i sp

/-- The fault record of a span (R31, Table 13.2). -/
def spanRecord (dev : Nat) (g : Grid) (i : Nat) (sp : Span) (core : Nat) (t : Trap) : FaultRec :=
  { dev := dev, kind := 2, cause := t.cause, sub := t.sub, ctx := sp.ctx, grid := g.num, gridKey := sp.grid
    team := g.linear sp.box.bx0 sp.box.by0 sp.box.bz0, pc := sp.wordPc, addr := t.addr, core := core
    depth := sp.depth, aux := sp.box.count, what := .span i }

/-- The whole span parks at its instruction with a trap; it keeps its slot (R31, R351). The record is made when
the store has room (R388). -/
def State.parkSpan (s : State) (i : Nat) (sp : Span) (core slot : Nat) (t : Trap) : State :=
  let dev := ((s.ctxs.get? sp.ctx).map fun c => c.dev).getD 0
  match s.grids.get? sp.grid with
  | none => s
  | some g =>
    let r := if s.recRoom dev then
        let a := s.addRecord (spanRecord dev g i sp core t)
        (a.1, some a.2)
      else (s, none)
    let s := r.1.modSpan i fun sp => { sp with state := .parkedFault core slot r.2 t, cutAt := none }
    s.modCore core fun c =>
      { c with ports := c.ports.map fun p => if p.holder = some (Focus.span i) then { p with holder := none } else p }

/-- A span becomes a team cursor at its instruction (R26); no operation of it is in flight. -/
def State.toCursor (s : State) (i : Nat) (sp : Span) : State :=
  let s := (s.dropSlot i).untagAll sp.flights
  let sp : Span := { sp with state := .ready, cutAt := none, flights := sp.flights.map fun p => (p.1, { p.2 with done := true }) }
  let s := { s with
    spans := s.spans.del i
    cursors := s.cursors.set s.nextId { span := sp, age := s.nextId }
    nextId := s.nextId + 1
    cur := if s.cur = some (Focus.span i) then none else s.cur }
  s.checkJoin sp.grid

/-- PEEL (R25, R26). -/
def State.peelSpan (s : State) (i : Nat) (sp : Span) : State :=
  if s.maycut i sp then s.toCursor i sp else s.holdCut i sp

/-- The least offset in `(lo, hi]` at which the relation has another outcome than at 0; `lo` has the outcome
of 0 and `hi` the other. -/
def crossing (f : Nat → Bool) : Nat → Nat → Nat → Nat
  | 0, _, hi => hi
  | n + 1, lo, hi =>
    if hi ≤ lo + 1 then hi
    else
      let mid := (lo + hi) / 2
      if f mid = f 0 then crossing f n mid hi else crossing f n lo mid

/-- SPLIT at an instruction guarded by predicate `p`, an A predicate (R23, R24). The parts stand at the same
instruction, their predicate U; a part keeps no slot. -/
def State.splitSpan (s : State) (i : Nat) (sp : Span) (p : Nat) : State :=
  if !s.maycut i sp then s.holdCut i sp
  else
    match s.grids.get? sp.grid, sp.pget p with
    | some g, .a d base coef rel =>
      let sp0 := sp
      let sp : Span := { sp with cutAt := none, flights := sp.flights.map fun p => (p.1, { p.2 with done := true }) }
      let f (off : Nat) : Bool := relI rel (base + coef * (off : Int)) 0
      let n := g.width sp.box d
      if f (n - 1) = f 0 then s.modSpan i fun sp => { (sp.pput p (.u (f 0))) with cutAt := none }
      else
        let c := g.origin sp.box d + crossing f 64 0 (n - 1)
        let t := g.teamItems d
        let lowHi := c / t
        let highLo := ceilDiv c t
        let part (lo hi : Nat) (b : Bool) : List (Span) :=
          if lo < hi then [{ ((sp.rebox g (sp.box.cut d lo hi)).pput p (.u b)) with state := .ready, cached := none }] else []
        let low := part (sp.box.lo d) lowHi (f 0)
        let high := part highLo (sp.box.hi d) (f (n - 1))
        if s.liveSpans sp.grid - 1 + low.length + high.length > 256 then s.toCursor i sp0
        else
          let s := (s.dropSlot i).untagAll sp0.flights
          let s := { s with spans := s.spans.del i, cur := if s.cur = some (Focus.span i) then none else s.cur }
          let s := (low ++ high).foldl (fun s q =>
            { s with spans := s.spans.set s.nextId q, nextId := s.nextId + 1 }) s
          let s :=
            if lowHi < highLo then
              let mid := { (sp.rebox g (sp.box.cut d lowHi highLo)) with state := .ready, cached := none }
              { s with cursors := s.cursors.set s.nextId { span := mid, age := s.nextId }, nextId := s.nextId + 1 }
            else s
          s.checkJoin sp.grid
    | _, _ => s

/-! ## Expansion of a team (R26, R73) -/

/-- Team-local coordinates of lane `i` of wave `w` (R15). -/
def Grid.local_ (g : Grid) (w i : Nat) : Nat × Nat × Nat :=
  let l := 16 * w + i
  (l % g.tx, l / g.tx % g.ty, l / (g.tx * g.ty))

/-- Present lanes of a wave of a team (R16). -/
def Grid.present (g : Grid) (bx by_ bz w : Nat) : Lanes :=
  lanesOf fun i =>
    let (x, y, z) := g.local_ w i
    decide (bx * g.tx + x < g.gx ∧ by_ * g.ty + y < g.gy ∧ bz * g.tz + z < g.gz)

/-- Waves of a full team. -/
def Grid.waveCount (g : Grid) : Nat := g.tx * g.ty * g.tz / 16

/-- A wave of a team expanded from a span: registers per lane by EVAL, predicates per lane, uniform registers,
window depth and the control registers copied, keys set from the seed (R26, R55, R124). -/
def Span.wave (sp : Span) (g : Grid) (team bx by_ bz w : Nat) (age : Nat) : Option Wave :=
  let m := g.present bx by_ bz w
  if m = 0 then none
  else
    let off (i d : Nat) : Nat :=
      let (x, y, z) := g.local_ w i
      let b := if d = 0 then bx else if d = 1 then by_ else bz
      let l := if d = 0 then x else if d = 1 then y else z
      b * g.teamItems d + l - g.origin sp.box d
    let lane (sl : SSlot) (i : Nat) : W32 :=
      let v := sl.form.eval (off i 0) (off i 1) (off i 2)
      if sl.hi then (v >>> 32).setWidth 32 else v.setWidth 32
    some {
      present := m, live := m
      subs := [(0, { pc := sp.pc, mask := m, depth := sp.depth, clause := sp.clause, slot := sp.slot })]
      vregs := sp.vregs.map fun p =>
        (p.1, { mask := m, vals := laneList.map fun i => if m.getLsbD i then lane p.2 i else 0 })
      uregs := sp.uregs.map fun p => (p.1, { mask := m, val := p.2.base })
      preds := sp.preds.map fun p => lanesOf fun i => m.getLsbD i && p.eval (off i)
      ctl := sp.ctl, tstat := sp.tstat, fpflags := sp.fpflags, seed := sp.seed
      keys := List.replicate 16 (srKey sp.seed team w)
      clock := sp.clock, flights := sp.flights, seq := sp.seq, age := age }

/-- The waves of a team expanded from a span; a wave without a present item is not created (R16). -/
def Span.waves (sp : Span) (g : Grid) (team bx by_ bz : Nat) : Tbl Wave :=
  (List.range g.waveCount).filterMap fun w => (sp.wave g team bx by_ bz w 0).map fun wv => (w, wv)

/-- The team at a position of the cursor's box, resident on a core with its reservations (R26, R353). -/
def Span.team (sp : Span) (g : Grid) (cursor pos core order stashBase : Nat) (accTiles : List Nat) (ltime : Nat) : Team :=
  let (bx, by_, bz) := sp.box.at_ pos
  let team := g.linear bx by_ bz
  { ctx := sp.ctx, grid := sp.grid, cursor := cursor, index := team, bx := bx, by_ := by_, bz := bz
    core := core, order := order, firstOrder := some order, admitTick := ltime
    waves := sp.waves g team bx by_ bz
    stashBase := stashBase, stashBytes := g.stash, accTiles := accTiles }

end Sys2Proof.Machine
end

