-- ==== Sys2Proof/Machine/Issue.lean ====
section
/-!
DEFINITION. The issue of an instruction of code memory: participants and guards (R85), sources and released
reads (R64, R65), results and floating-point flags (R58, R129), completion flags and latency (R50, R94 to R96,
R138), traps per lane (R37, R385), waits that hold the lanes (R78), and the span rules (R21, R25, R32).
-/
namespace Sys2Proof.Machine
open Sys2Proof

/-! ## One lane -/

/-- What one lane, or a span, gives to an operation: raw sources in the order of `Instr.use`, input
predicates, CTL, and its next stochastic-rounding draws. -/
structure LaneIn where
  src : List Nat
  pin : List Bool
  ctl : W64
  draw : Nat → Nat

/-- Source A. -/
def LaneIn.a (v : LaneIn) : Nat := (v.src[0]?).getD 0
/-- Source B. -/
def LaneIn.b (v : LaneIn) : Nat := (v.src[1]?).getD 0
/-- Source C. -/
def LaneIn.c (v : LaneIn) : Nat := (v.src[2]?).getD 0
/-- An input predicate. -/
def LaneIn.p (v : LaneIn) (i : Nat) : Bool := (v.pin[i]?).getD false

/-- What one lane computes: a value per destination register run, a bit per destination predicate, the flags,
and the traps of the operation itself. -/
structure LaneOut where
  vals : List Nat := []
  bits : List Bool := []
  fl : FFlags := 0
  ovTrap : Bool := false
  divz : Bool := false
  draws : Nat := 0
  other : Option Trap := none

/-- A lane that writes one value. -/
def LaneOut.val (x : Nat) : LaneOut := { vals := [x] }
/-- A lane that writes one predicate. -/
def LaneOut.bit (b : Bool) : LaneOut := { bits := [b] }
/-- A lane that writes a floating-point result. -/
def LaneOut.flt (r : FRes) : LaneOut := { vals := [r.bits], fl := r.fl, ovTrap := r.ovTrap }

/-- The trap that a lane's results raise: FP_EXCEPTION with the enabled flags (R126, R129), DIV_ZERO under
CTL.DIVZE (R142), or the operation's own. -/
def LaneOut.trap (ctl : W64) (o : LaneOut) : Option Trap :=
  let en : FFlags := (o.fl &&& ctlEnables ctl) ||| (if o.ovTrap then fOF else 0)
  if o.other.isSome then o.other
  else if en ≠ 0 then some { cause := cFpException, sub := en.toNat }
  else if o.divz && ctl.getLsbD 10 then some { cause := cDivZero }
  else none

/-! ## One sub-wave -/

/-- What an instruction does to its wave: traps by lane, register and predicate writes, sticky bits, draws. -/
structure LaneRes where
  traps : LaneTraps := []
  regs : List (RegRef × Lanes × (Nat → Nat)) := []
  preds : List (Nat × Lanes × Lanes) := []
  fl : FFlags := 0
  stale : Bool := false
  divz : Bool := false
  draws : List (Nat × Nat) := []

/-- The same sticky flags and traps in every lane of a group result (R192, R197). -/
def LaneRes.grouped (r : LaneRes) (ctl : W64) (p : Lanes) (ovTrap : Bool) : LaneRes :=
  let en : FFlags := (r.fl &&& ctlEnables ctl) ||| (if ovTrap then fOF else 0)
  if en = 0 then r else { r with traps := allLanes p { cause := cFpException, sub := en.toNat } }

/-- Lanes that trap. -/
def LaneRes.trapMask (r : LaneRes) : Lanes := lanesOf fun i => r.traps.any fun p => p.1 == i

/-- The wave after the instruction's last-use bits, writes and sticky bits. A lane that traps keeps its
sources, to be read again by a retry, and writes nothing (R37, R64). -/
def Wave.commit (w : Wave) (depth : Nat) (m : Lanes) (u : Use) (r : LaneRes) : Wave :=
  let dead := r.trapMask
  let w := w.lastUse depth u.rd (m &&& ~~~dead)
  let w := r.regs.foldl (fun w p => w.wr depth p.1 (p.2.1 &&& ~~~dead) p.2.2) w
  let w := r.preds.foldl (fun w p => w.pput p.1 (p.2.1 &&& ~~~dead) p.2.2) w
  let w := r.draws.foldl (fun w p => w.drawn p.1 p.2) w
  let w := w.raise r.fl
  let w := if r.stale then w.setStale else w
  if r.divz then w.setDivz else w

/-- The sources of lane `i` and whether one is released. -/
def Wave.sources (w : Wave) (depth : Nat) (m : Lanes) (rs : List RegRef) (i : Nat) : List (Nat × Bool) :=
  rs.map fun r => w.rd depth m r i

/-- A source of lane `i` is released (R65). -/
def Wave.staleAt (w : Wave) (depth : Nat) (m : Lanes) (rs : List RegRef) (i : Nat) : Bool :=
  (w.sources depth m rs i).any fun v => v.2

/-- REG_STALE in the participants that read a released register, under CTL.STRICTREG (R65). -/
def Wave.staleTraps (w : Wave) (depth : Nat) (m p : Lanes) (rs : List RegRef) : LaneTraps :=
  if w.strictReg then
    ((lanesIn p).filter fun i => w.staleAt depth m rs i).map fun i => (i, { cause := cRegStale })
  else []

/-- TSTAT.STALE is set by a released read without a trap. -/
def Wave.staleSets (w : Wave) (depth : Nat) (m p : Lanes) (rs : List RegRef) : Bool :=
  !w.strictReg && (lanesIn p).any fun i => w.staleAt depth m rs i

/-- What lane `i` gives to an operation. -/
def Wave.laneIn (w : Wave) (depth : Nat) (m : Lanes) (u : Use) (i : Nat) : LaneIn :=
  { src := (w.sources depth m u.rd i).map Prod.fst
    pin := u.pr.map fun p => (w.pget p).getLsbD i
    ctl := w.ctl
    draw := fun j => w.draw i j }

/-- A group result over the participants: REG_STALE strikes all of them (R65, R197); with no participant nothing
is written (R196). -/
def Wave.together (w : Wave) (depth : Nat) (m p : Lanes) (u : Use) (f : (Nat → LaneIn) → LaneRes) : LaneRes :=
  if p = 0 then {}
  else if (w.staleTraps depth m p u.rd).isEmpty then
    { f (w.laneIn depth m u) with stale := w.staleSets depth m p u.rd }
  else { traps := allLanes p { cause := cRegStale } }

/-- An operation applied lane by lane to the participants `p` of a sub-wave with lanes `m`. -/
def Wave.lanewise (w : Wave) (depth : Nat) (m p : Lanes) (u : Use) (f : LaneIn → LaneOut) : LaneRes :=
  let st := w.staleTraps depth m p u.rd
  let run := (lanesIn p).filter fun i => !st.any fun q => q.1 == i
  let out (i : Nat) : LaneOut := f (w.laneIn depth m u i)
  { traps := st ++ run.filterMap fun i => ((out i).trap w.ctl).map fun t => (i, t)
    regs := (List.range u.wr.length).filterMap fun j =>
      (u.wr[j]?).map fun r => (r, p, fun i => ((out i).vals[j]?).getD 0)
    preds := (List.range u.pw.length).filterMap fun j =>
      (u.pw[j]?).map fun q => (q, p, lanesOf fun i => ((out i).bits[j]?).getD false)
    fl := run.foldl (fun fl i => fl ||| (out i).fl) 0
    stale := w.staleSets depth m p u.rd
    divz := run.any fun i => (out i).divz
    draws := run.filterMap fun i => if (out i).draws = 0 then none else some (i, (out i).draws) }

/-! ## Ports, flights and advance -/

/-- The sub-wave passes to another clause boundary. -/
def SubWave.goto (sub : SubWave) (pc : Nat) : SubWave :=
  { sub with pc := pc, clause := none, started := false, slot := 0 }

/-- The sub-wave has passed its instruction: a wait ends, and a step of the debugger is made (R402). -/
def SubWave.passed (sub : SubWave) : SubWave :=
  { sub with
    hold := none, retried := false, stalled := false
    stepping := if sub.stepping = 1 then 2 else sub.stepping
    stepFrom := if sub.stepping = 1 then sub.clause.map fun c => (c, sub.slot) else sub.stepFrom }

/-- The sub-wave passes its instruction: to the next slot, or to the boundary after the clause. -/
def SubWave.advance (sub : SubWave) : SubWave :=
  let sub := sub.passed
  match sub.clause with
  | none => sub
  | some c =>
    match c.slots.find? fun x => decide (x.ix > sub.slot) with
    | some x => { sub with slot := x.ix }
    | none => sub.goto c.finish

/-- The port that a focus holds is released. -/
def State.releasePort (s : State) (core : Nat) (f : Focus) : State :=
  s.modCore core fun c =>
    { c with ports := c.ports.map fun p => if p.holder = some f then { p with holder := none } else p }

/-- The stall count and one issue cycle pass on the wave's clock (R94). -/
def issueCost (u : Use) : Nat := 1 + u.hdr.stall.val

/-- Whether the scoreboard keeps a record of an issue: a flag, a result, or an operation in flight. -/
def needsFlight (u : Use) (lat : Lat) (kind : FlightKind) : Bool :=
  u.hdr.flag.isSome || (!(u.wr.isEmpty && u.pw.isEmpty) && decide (lat ≠ .none)) || !(kind == .result || kind == .barrier)

/-- The scoreboard's record of an issue (R94, R138). -/
def flightOf (u : Use) (opc : Nat) (clock cycle depth : Nat) (lanes : Lanes) (kind : FlightKind)
    (tag : Option (Nat × Nat)) : Flight :=
  { born := clock, cycle := cycle, lat := latOf opc
    kind := if kind == .result && latOf opc == .tracked then .tracked else kind
    lanes := lanes, depth := depth
    regs := u.wr, preds := u.pw, flag := u.hdr.flag.map fun f => f.val, tag := tag }

/-- A new flight in a wave: its flag is incremented (R50). Records that nothing can still meet are dropped. -/
def Wave.launchFlight (w : Wave) (f : Flight) : Wave :=
  let old := w.flights.filter fun p => !p.2.stale w.clock
  { w with flights := Tbl.set old w.seq f, flags := flagInc w.flags f.flag, seq := w.seq + 1 }

/-- What an instruction's meaning answers: it completes its issue with effects on the state and the wave; it
transfers control; or it holds its participants (R78). -/
inductive Issue where
  | done (s : State) (r : LaneRes) (kind : FlightKind) (tag : Option (Nat × Nat))
  | jump (s : State) (r : LaneRes) (f : State → State)
  | hold (s : State) (h : Hold)

/-- A sub-wave issues only while its team is resident, its wave not halted, its frames in the pools, no trap
of it pending and no STEP to be raised (R37, R66, R67, R401, R402). -/
def Ex.mayIssue (e : Ex) : Bool :=
  e.team.state == .resident && (!e.wave.halted || e.sub.stepping == 1) && !e.wave.uspilled && !e.wave.spilled.contains e.sub.depth &&
  e.sub.park.isNone && e.sub.stepping != 2 && (e.sub.stepLanes == 0 || e.sub.hold.isSome) && !(e.team.stopping && e.sub.clause.isNone)

/-- The sources of lane `i`: those that a held instruction read at its issue, or the registers. -/
def Ex.srcs (e : Ex) (u : Use) (i : Nat) : List (Nat × Bool) :=
  match e.sub.hold with
  | some h => (h.src.get? i).getD []
  | none => e.wave.sources e.sub.depth e.sub.mask u.rd i

/-- Source `j` of lane `i`. -/
def Ex.src (e : Ex) (u : Use) (i j : Nat) : Nat := (((e.srcs u i)[j]?).map Prod.fst).getD 0

/-- A source of lane `i` is released (R65). -/
def Ex.stale (e : Ex) (u : Use) (i : Nat) : Bool := (e.srcs u i).any fun v => v.2

/-- The lanes of `p` that may run: under CTL.STRICTREG those without a released source (R65). -/
def Ex.runs (e : Ex) (u : Use) (p : Lanes) : List Nat :=
  (lanesIn p).filter fun i => !(e.wave.strictReg && e.stale u i)

/-- REG_STALE in the other lanes. -/
def Ex.staleTraps (e : Ex) (u : Use) (p : Lanes) : LaneTraps :=
  ((lanesIn p).filter fun i => e.wave.strictReg && e.stale u i).map fun i => (i, { cause := cRegStale })

/-- TSTAT.STALE is set by a released read without a trap. -/
def Ex.staleSets (e : Ex) (u : Use) (p : Lanes) : Bool :=
  !e.wave.strictReg && (lanesIn p).any fun i => e.stale u i

/-- The flag named by the instruction stands at 63 (R50). -/
def flagFull (flags : List Nat) (u : Use) : Bool :=
  match u.hdr.flag with
  | none => false
  | some f => decide (63 ≤ flagGet flags f.val)

/-- The wait mask of a sub-wave's clause. -/
def SubWave.waitMask (sub : SubWave) : Nat := (sub.clause.map fun c => c.hdr.wait).getD 0

/-- What a flight writes is written once it completes of itself; the results of the other operations in flight stand out. -/
def FlightKind.own : FlightKind → Bool
  | .result | .tracked | .access | .barrier => true
  | .engine | .stash _ _ => false

/-- Under SAFE an undersized instruction waits until the results it meets are written; the core counts one stall for it
(R51, R96). The wait adds nothing to the issue distance (R94). -/
def State.coverStall (s : State) (e : Ex) (seqs : List Nat) : State :=
  let s := if e.sub.stalled then s
    else (s.modCore e.team.core fun c => { c with undersized := c.undersized + 1 }).modSub e.t e.w e.k fun sub => { sub with stalled := true }
  (seqs.filter fun q => ((e.wave.flights.get? q).map fun f => f.kind.own).getD false).foldl (fun s q => s.finishWave e.t e.w q) s

/-- Among some flights of a wave, one whose result is not written yet. -/
def Wave.unwritten (w : Wave) (seqs : List Nat) : Bool := seqs.any fun q => ((w.flights.get? q).map fun f => !f.done).getD false

/-- The wave at the end of an issue: results, the scoreboard's record, flag and clock. -/
def Wave.settled (w : Wave) (e : Ex) (u : Use) (opc : Nat) (r : LaneRes) (kind : FlightKind)
    (tag : Option (Nat × Nat)) (cycle : Nat) (p : Lanes) : Wave :=
  let live := p &&& ~~~r.trapMask
  let w := w.commit e.sub.depth e.sub.mask u r
  let w :=
    match e.sub.hold.bind fun h => h.flight with
    | some q =>
      let kind : FlightKind := if kind == FlightKind.result && latOf opc == Lat.tracked then .tracked else kind
      -- another part of its lanes may still be held by the instruction (R38)
      if w.subs.any fun k => k.1 != e.k && (k.2.hold.bind fun h => h.flight) == some q then w
      else { w with flights := w.flights.modify q fun f => { f with kind := kind, lanes := live, tag := tag } }
    | none =>
      if needsFlight u (latOf opc) kind && !(live == 0 && p != 0) then
        w.launchFlight (flightOf u opc w.clock cycle e.sub.depth live kind tag)
      else w
  -- a held instruction has counted its cycles when it issued
  if e.sub.hold.isSome then w else { w with clock := w.clock + issueCost u, stallTo := cycle + issueCost u }

/-- The port is released where the sub-wave has left its clause, is parked or has entered or left the handler. -/
def State.yieldPort (s : State) (e : Ex) : State :=
  match s.ex? e.t e.w e.k with
  | none => s.releasePort e.team.core (.sub e.t e.w e.k)
  | some e' =>
    if e'.sub.clause.isNone || e'.sub.park.isSome || e'.sub.handler != e.sub.handler then
      s.releasePort e.team.core (.sub e.t e.w e.k)
    else s

/-- The end of an issue: results, flag, clock; the lanes that trap park (R37) and the others pass on. -/
def State.settle (s : State) (e : Ex) (u : Use) (opc : Nat) (r : LaneRes) (kind : FlightKind)
    (tag : Option (Nat × Nat)) (p : Lanes) : State :=
  let s := s.modWave e.t e.w fun w => w.settled e u opc r kind tag s.cycle p
  let s := s.takeTraps e.t e.w e.k r.traps e.sub.wordPc false
  let s := if e.sub.mask &&& ~~~r.trapMask = 0 then s else s.modSub e.t e.w e.k SubWave.advance
  s.yieldPort e

/-- A transfer of control: last-use bits, flag and clock, then the transfer itself (R138, R158). -/
def State.depart (s : State) (e : Ex) (u : Use) (opc : Nat) (r : LaneRes) (f : State → State) (p : Lanes) : State :=
  let s := s.modWave e.t e.w fun w => w.settled e u opc r .result none s.cycle p
  (f s).releasePort e.team.core (.sub e.t e.w e.k)

/-- The lanes are held: the port is released and the flag, incremented at issue, waits (R78). -/
def State.holdOn (s : State) (e : Ex) (u : Use) (opc : Nat) (h : Hold) : State :=
  match e.sub.hold with
  | some h0 => s.modSub e.t e.w e.k fun sub =>
      { sub with started := false, hold := some { h with
        flight := h0.flight, src := h0.src, since := h0.since, order := h0.order, lays := h0.lays } }
  | none =>
    let seq := e.wave.seq
    let fl := needsFlight u (latOf opc) .engine
    let src : Tbl (List (Nat × Bool)) :=
      (lanesIn h.lanes).map fun i => (i, e.wave.sources e.sub.depth e.sub.mask u.rd i)
    let h : Hold := { h with since := s.coreTime e.team.core, order := e.team.seq }
    -- a team barrier's flag falls in the cycle after issue, held or not (R224)
    let kind : FlightKind := if h.kind = .barArv || h.kind = .barWait then .barrier else .engine
    let s := s.modWave e.t e.w fun w =>
      let w := if fl then
          w.launchFlight (flightOf u opc w.clock s.cycle e.sub.depth h.lanes kind none)
        else w
      { w with clock := w.clock + issueCost u, stallTo := s.cycle + issueCost u }.modSub e.k fun sub =>
        { sub with started := false, hold := some { h with flight := if fl then some seq else none, src := src } }
    -- the next instruction of the team has the next place in its engine order
    (s.modTeam e.t fun t => { t with seq := e.team.seq + 1 }).releasePort e.team.core (.sub e.t e.w e.k)

/-- The answer of a meaning carried out. -/
def Issue.conclude (e : Ex) (u : Use) (opc : Nat) (p : Lanes) (a : Issue) : State :=
  match a with
  | .done s r kind tag => s.settle e u opc r kind tag p
  | .jump s r f => s.depart e u opc r f p
  | .hold s h => s.holdOn e u opc h

/-- The issue of an instruction by a sub-wave: a held instruction goes on; with its flag at 63 it does not issue (R50); an
undersized one waits for what it meets (R51, R96); then the meaning. Log 87: an undersized instruction whose guard is false in
every lane waits and is counted under STRICT too. -/
def State.issueSub (s : State) (e : Ex) (u : Use) (opc : Nat) (body : State → Ex → Lanes → Issue) : State :=
  if !e.mayIssue then s
  else
    match e.sub.hold with
    | some h => (body s e h.lanes).conclude e u opc h.lanes
    | none =>
      let p := e.wave.guarded u.hdr e.sub.mask
      if flagFull e.wave.flags u then s
      else
        let under := undersizedBy e.wave.flights u e.sub.depth e.sub.mask e.wave.clock e.sub.waitMask
        if under.isEmpty then (body s e p).conclude e u opc p
        else if e.wave.strictStall && p != 0 then
          (s.takeTraps e.t e.w e.k (allLanes e.sub.mask { cause := cUndersized }) e.sub.wordPc false).releasePort
            e.team.core (.sub e.t e.w e.k)
        else
          let s := s.coverStall e under
          match s.ex? e.t e.w e.k with
          | none => s
          | some e => if e.wave.unwritten under then s else (body s e p).conclude e u opc p

/-! ## Spans -/

/-- What an instruction does to its span. -/
structure SpanVal where
  regs : List (RegRef × Form) := []
  preds : List (Nat × SPred) := []
  fl : FFlags := 0
  stale : Bool := false
  divz : Bool := false

/-- How an instruction acts in a span. -/
inductive SpanAct where
  | peel
  | split (p : Nat)
  | done (s : State) (r : SpanVal) (kind : FlightKind) (tag : Option (Nat × Nat))
  | jump (s : State) (r : SpanVal) (f : State → State)
  | stall (s : State)
  | fault (s : State) (t : Trap)

/-- The span after an instruction's last-use bits, writes and sticky bits. -/
def Span.commit (sp : Span) (u : Use) (r : SpanVal) : Span :=
  let sp := sp.lastUse u.rd
  let sp := r.regs.foldl (fun sp p => sp.put p.1 p.2) sp
  let sp := r.preds.foldl (fun sp p => sp.pput p.1 p.2) sp
  { sp with
    fpflags := sp.fpflags ||| r.fl.setWidth 64
    tstat := sp.tstat ||| (if r.stale then 1 else 0) ||| (if r.divz then 2 else 0) }

/-- A new flight of a span. -/
def Span.launchFlight (sp : Span) (f : Flight) : Span :=
  let old := sp.flights.filter fun p => !p.2.stale sp.clock
  { sp with flights := Tbl.set old sp.seq f, flags := flagInc sp.flags f.flag, seq := sp.seq + 1 }

/-- The end of an issue in a span. A write that finds the form file full peels at the instruction (R53). -/
def State.settleSpan (s : State) (i : Nat) (sp : Span) (u : Use) (opc : Nat) (r : SpanVal)
    (kind : FlightKind) (tag : Option (Nat × Nat)) : State :=
  let q := sp.commit u r
  let q := if needsFlight u (latOf opc) kind then
      q.launchFlight (flightOf u opc q.clock s.cycle q.depth 0xFFFF kind tag)
    else q
  let q := { q with clock := q.clock + issueCost u, stallTo := s.cycle + issueCost u, blockPos := 0, inBlock := false, stalled := false, cutAt := none }.advance
  s.modSpan i fun _ => q

/-- The sources of a span instruction; none where a source has no single form (R21). -/
def Span.sources (sp : Span) (u : Use) : Option (List (Form × Bool)) :=
  u.rd.foldr (fun r acc =>
    match sp.get r, acc with
    | some v, some l => some (v :: l)
    | _, _ => none) (some [])

/-- How a lane-wise instruction behaves on A sources. -/
inductive SpanRule where
  | once
  | peels
  | affine (f : Span → Grid → List Form → Option (Form))

/-- Execution once with uniform sources; a trap peels (R32). -/
def Span.runOnce (sp : Span) (u : Use) (f : LaneIn → LaneOut) (src : List (Form × Bool)) : Option SpanVal :=
  let stale := src.any fun v => v.2
  let pin := u.pr.map fun p => match sp.pget p with
    | .u b => some b
    | .a _ _ _ _ => none
  if stale && sp.strictReg || pin.any (fun b => b.isNone) then none
  else
    let o := f { src := src.map fun v => v.1.base.toNat, pin := pin.map fun b => b.getD false, ctl := sp.ctl
                 draw := fun _ => 0 }
    if (o.trap sp.ctl).isSome then none
    else
      some {
        regs := (List.range u.wr.length).filterMap fun j =>
          (u.wr[j]?).map fun r => (r, .u (BitVec.ofNat 64 ((o.vals[j]?).getD 0)))
        preds := (List.range u.pw.length).filterMap fun j =>
          (u.pw[j]?).map fun q => (q, .u ((o.bits[j]?).getD false))
        fl := o.fl, stale := stale, divz := o.divz }

/-- A lane-wise instruction in a span (R21). -/
def Span.lanewise (s : State) (sp : Span) (g : Grid) (u : Use) (rule : SpanRule) (f : LaneIn → LaneOut) : SpanAct :=
  match rule, sp.sources u with
  | .peels, _ => .peel
  | _, none => .peel
  | rule, some src =>
    if src.any fun v => v.1.isA then
      (match rule with
       | .affine h =>
         if src.any (fun v => v.2) && sp.strictReg then .peel
         else
           match h sp g (src.map Prod.fst), u.wr with
           | some form, [d] => .done s { regs := [(d, form)], stale := src.any fun v => v.2 } .result none
           | _, _ => .peel
       | .once | .peels => .peel)
    else
      match sp.runOnce u f src with
      | none => .peel
      | some r => .done s r .result none

/-- Under SAFE an undersized instruction of a span waits, and the core counts one stall for it (R51, R96). -/
def State.coverSpan (s : State) (i core : Nat) (seqs : List Nat) : State :=
  let s := if ((s.spans.get? i).map fun sp => sp.stalled).getD true then s
    else (s.modCore core fun c => { c with undersized := c.undersized + 1 }).modSpan i fun sp => { sp with stalled := true }
  seqs.foldl (fun s q => s.finishSpan i q) s

/-- The issue of an instruction by a span: `always` is R27; a guard that is A peels, or splits at a branch; a
guard U false leaves the effects of R85 (Table 1.4). -/
def State.issueSpan (s : State) (i : Nat) (sp : Span) (core : Nat) (u : Use) (opc : Nat)
    (always branch : Bool) (act : State → Span → SpanAct) : State :=
  if always then s.peelSpan i sp
  else if flagFull sp.flags u then s
  else
    match sp.pget u.hdr.guard.val with
    | .a _ _ _ _ => if branch then s.splitSpan i sp u.hdr.guard.val else s.peelSpan i sp
    | .u b =>
      if b == u.hdr.gneg then s.settleSpan i sp u opc {} .result none
      else
        let under := undersizedBy sp.flights u sp.depth 0xFFFF sp.clock ((sp.clause.map fun c => c.hdr.wait).getD 0)
        if !under.isEmpty && sp.strictStall then s.peelSpan i sp
        else
          let s := if under.isEmpty then s else s.coverSpan i core under
          let sp := (s.spans.get? i).getD sp
          match act s sp with
          | .peel => s.peelSpan i sp
          | .split p => s.splitSpan i sp p
          | .done s' r kind tag =>
            if (sp.commit u r).words > 1024 then s.peelSpan i sp
            else s'.settleSpan i sp u opc r kind tag
          | .jump s' r f =>
            let s' := s'.settleSpan i sp u opc r .result none
            f s'
          | .stall s' => s'
          | .fault s' t =>
            if s'.maycut i sp then
              match sp.state with
              | .running c k => s'.parkSpan i sp c k t
              | _ => s'
            else s'.holdCut i sp

/-! ## The common frame of every instruction of code memory -/

/-- An instruction issues in the current sub-wave or span. `names` gives what it reads where that depends on
values read at issue. -/
def issueNaming (i : Instr) (names : State → Use → Ex → Use) (always branch : Bool) (body : Use → State → Ex → Lanes → Issue)
    (act : Use → Nat → Grid → State → Span → SpanAct) (s : State) : Res :=
  match i.use, s.cur with
  | some u, some (.sub t w k) =>
    (match s.ex? t w k with
     | none => .fault .noObject
     | some e => .next (s.issueSub e (names s u e) i.opcode (body (names s u e))))
  | some u, some (.span n) =>
    (match s.spans.get? n with
     | none => .fault .noObject
     | some sp =>
       match s.grids.get? sp.grid with
       | none => .fault .noObject
       | some g =>
         let core := match sp.state with
           | .running c _ => c
           | _ => 0
         .next (s.issueSpan n sp core u i.opcode always branch (act u n g)))
  | _, none => .fault .noExecutor
  | none, _ => .fault .noObject

/-- An instruction whose operands all stand in its word. -/
def issue (i : Instr) (always branch : Bool) (body : Use → State → Ex → Lanes → Issue)
    (act : Use → Nat → Grid → State → Span → SpanAct) (s : State) : Res :=
  issueNaming i (fun _ u _ => u) always branch body act s

/-- An instruction whose every lane acts alone on registers and predicates. -/
def laneOp (i : Instr) (rule : SpanRule) (f : LaneIn → LaneOut) (s : State) : Res :=
  issue i false false
    (fun u s e p => .done s (e.wave.lanewise e.sub.depth e.sub.mask p u f) .result none)
    (fun u _ g s sp => Span.lanewise s sp g u rule f) s

/-- A lane operation (R196, R197). -/
def groupOp (i : Instr) (f : Use → W64 → Lanes → (Nat → LaneIn) → LaneRes) (s : State) : Res :=
  issue i true false
    (fun u s e p => .done s (e.wave.together e.sub.depth e.sub.mask p u (f u e.wave.ctl p)) .result none)
    (fun _ _ _ _ _ => .peel) s

/-- An instruction that always peels a span (R27). -/
def peelOp (i : Instr) (body : Use → State → Ex → Lanes → Issue) (s : State) : Res :=
  issue i true false body (fun _ _ _ _ _ => .peel) s

end Sys2Proof.Machine
end

