-- ==== Sys2Proof/Machine/Access.lean ====
section
/-!
DEFINITION. One access to one naturally aligned unit: regions (R205, R207), the fault order of Table 7.4, fills
of stash sectors (R235), pins (R266), the lap's undo copies (R394, R395), ownership (R331), poison (R392), and
the reading and writing of the bytes themselves (R210).
-/
namespace Sys2Proof.Machine
open Sys2Proof

/-! ## Who accesses what -/

/-- An accessor: its context, the core it is on, its team and items if it has any, whether it has waited
already, the team's engine order at its issue (R269), and its kind as an agent (Table 10.2). -/
structure Accessor where
  ctx : Nat
  core : Nat
  kind : Nat := 0
  team : Option Nat := none
  /-- linear indices of the items whose accesses it makes -/
  items : List Nat := []
  again : Bool := true
  upto : Nat := 0
  /-- a transfer command that a host placed (R81) -/
  host : Bool := false

/-- What an access does to its bytes: width, reads, writes, whether it is performed at the home (R215), and
whether it is an item's plain store. -/
structure Want where
  n : Nat
  rd : Bool
  wr : Bool
  home : Bool := false
  plain : Bool := false

/-- Where an access goes. -/
inductive Dest where
  | stash (core off : Nat)
  | acc (team off : Nat)
  | mem (l : LineRef) (place : Nat)
  | remote (peer va : Nat)
  | door (queue : Nat)
  deriving DecidableEq, Repr

/-- An attempt: it succeeds, traps, or waits. -/
inductive Got (α : Type) where
  | ok (s : State) (a : α)
  | trap (s : State) (t : Trap)
  | wait (s : State)

/-- First address of the stash aperture. -/
def apertureBase : Nat := 0x00FF000000000000
/-- First address of the team window. -/
def windowBase : Nat := 0x00FF800000000000
/-- First address of the accumulator window. -/
def accBase : Nat := 0x00FFC00000000000
/-- First address of the doorbell page (R345). -/
def doorBase : Nat := 0x00FE000000000000

/-- The byte lies in an allocation or a retained entry of the context (Table 7.2). -/
def State.ownByte (s : State) (ctx core off : Nat) : Bool :=
  (match s.allocAt core off with
   | some (_, t) => t.ctx == ctx
   | none => false) ||
  (s.core core).entries.any fun p =>
    p.2.st == .retained && p.2.ctx == ctx && decide (p.2.lo ≤ off ∧ off < p.2.lo + p.2.size)

/-- The stash byte or accumulator byte that an address of the upper regions names, with the range checks of
Table 7.2 and R269; none for any other address. -/
def State.region (s : State) (x : Accessor) (ea : Nat) : Except Trap (Option Dest) :=
  if ea < apertureBase then .ok none
  else if ea < apertureBase + 768 * 0x200000 then
    let core := (ea - apertureBase) / 0x200000
    let off := (ea - apertureBase) % 0x200000
    if off < 0x100000 && s.coreUp core && s.devOfCore core == s.ctxDev x.ctx && s.ownByte x.ctx core off then
      .ok (some (.stash core off))
    else .error { cause := cProtection, addr := ea }
  else if windowBase ≤ ea && ea < windowBase + 0x100000 then
    match x.team.bind fun t => s.teams.get? t with
    | none => .error { cause := cProtection, addr := ea }
    | some t =>
      if ea - windowBase < t.stashBytes then .ok (some (.stash t.core (t.stashBase + (ea - windowBase))))
      else .error { cause := cStashRange, addr := ea }
  else if accBase ≤ ea && ea < accBase + 32 * 0x4000 then
    match x.team, x.team.bind fun t => s.teams.get? t with
    | some k, some t =>
      if ((s.ctxs.get? x.ctx).map fun c => c.inside).getD false && decide ((ea - accBase) / 0x4000 < t.accCount) then
        .ok (some (.acc k (ea - accBase)))
      else .error { cause := cProtection, addr := ea }
    | _, _ => .error { cause := cProtection, addr := ea }
  else .error { cause := cProtection, addr := ea }

/-- Rows 4 and 5 of Table 7.4 for a page, with what an alias leaves of its permissions. A host's own command may write
code (R81). -/
def Page.refuses (p : Page) (mask : Nat) (rd wr : Bool) (host : Bool := false) : Option (Nat × Nat) :=
  let perm := Nat.land p.perm mask
  let bad := toBit (perm / 4) || toBit (perm / 8)
  if wr && !toBit (perm / 2) && !bad then some (cPageFault, 1)
  else if wr && bad && !host then some (cProtection, 0)
  else if rd && !toBit perm then some (cProtection, 0)
  else if p.revoked then some (cHostGone, 0)
  else none

/-- The partition device of this package that bears a Barnos identifier. -/
def State.peerDev (s : State) (dev peer : Nat) : Option Nat :=
  (List.range s.devCount).find? fun d => d != dev && (s.dev d).barnos == peer

/-- An export of a device that admits a peer's access to an address (R418). -/
def State.exported (s : State) (d peer va : Nat) (rd wr : Bool) : Option PeerWin :=
  (s.dev d).exports.find? fun w =>
    w.peer == peer && decide (w.va ≤ va ∧ va < w.va + w.len) && (!rd || toBit w.perm) && (!wr || toBit (w.perm / 2))

/-- Where an address below the upper regions leads for an access (R313, R315, R336, R345, R418). -/
def State.route (s : State) (x : Accessor) (w : Want) (ea : Nat) : Except Trap Dest :=
  let dev := s.ctxDev x.ctx
  let c := s.canon dev (s.ctxName x.ctx).2 ea
  match s.page? dev c.1 c.2.1 with
  | none => .error { cause := cPageFault, addr := ea }
  | some p =>
    match p.refuses c.2.2 w.rd w.wr x.host with
    | some (cause, sub) => .error { cause := cause, sub := sub, addr := ea }
    | none =>
      match p.at_ c.2.1 with
      | .hbm dpa => .ok (.mem (lineOf dev c.1 c.2.1) (hbmPlace s.pkg.mode dev dpa))
      | .host port hpa => .ok (.mem (lineOf dev c.1 c.2.1) (hostPlace port hpa))
      | .doorbell =>
        let q := dev * 256 + (c.2.1 - doorBase) / 8
        if w.plain && c.2.1 % 8 = 0 && (w.n == 4 || w.n == 8) &&
            ((s.queues.get? q).map fun u => u.ctx == x.ctx).getD false then .ok (.door q)
        else .error { cause := cProtection, addr := ea }
      | .peer peer va =>
        match s.peerDev dev peer with
        | none => .ok (.remote peer va)
        | some d =>
          match s.exported d (s.dev dev).barnos va w.rd w.wr with
          | none => .error { cause := cProtection, addr := ea }
          | some win =>
            let q := s.canon d (s.ctxName win.ctx).2 va
            match s.place? d q.1 q.2.1 with
            | some a => .ok (.mem (lineOf d q.1 q.2.1) a)
            | none => .error { cause := cProtection, addr := ea }

/-- Rows 1 to 5 of Table 7.4 in their order, for an aligned unit. -/
def State.resolve (s : State) (x : Accessor) (w : Want) (ea : Nat) : Except Trap Dest :=
  if ea ≥ 2 ^ 56 then .error { cause := cPageFault, addr := ea }
  else if ea % w.n ≠ 0 then .error { cause := cMisaligned, addr := ea }
  else
    match s.region x ea with
    | .error t => .error t
    | .ok none => s.route x w ea
    | .ok (some (.stash core off)) =>
      if w.wr && (((s.core core).entryAt off).map fun e => !e.2.rw).getD false then
        .error { cause := cProtection, addr := ea }
      else .ok (.stash core off)
    | .ok (some d) => .ok d

/-! ## Stash sectors -/

/-- Sectors of undo that a core holds (R394). -/
def State.undoCount (s : State) (core : Nat) : Nat :=
  s.teams.foldl (fun n p => if p.2.core = core then n + ((p.2.lap.map fun l => l.undo.length).getD 0) else n) 0

/-- A state of a sector as the undo area keeps it. -/
def SecState.code : SecState → Nat
  | .fill => 0
  | .clean => 1
  | .dirty => 2
  | .wb => 3

/-- The first write of a lap to a sector keeps its lap-start bytes (R394); with the undo area in memory, the
write waits until they have reached it (R395, log 100). False: it waits. -/
def State.keepUndo (s : State) (core off : Nat) : State × Bool :=
  let sec := off / 16
  match s.allocAt core off with
  | none => (s, true)
  | some (k, t) =>
    match t.lap with
    | none => (s, true)
    | some l =>
      if l.unrecoverable then (s, true)
      else if (l.undo.get? sec).isSome then (s, !l.pending.contains sec)
      else
        let c := s.core core
        if s.undoCount core ≥ 2048 then
          (s.modTeam k fun t => { t with lap := some { l with unrecoverable := true } }, true)
        else
          let u : Undo :=
            { bytes := (List.range 16).map fun i => c.stashByte (16 * sec + i)
              state := (c.sectors.get? sec).map fun x => x.st.code }
          let l := { l with undo := l.undo.set sec u
                            pending := if c.undoInMemory then insertNat l.pending sec else l.pending }
          (s.modTeam k fun t => { t with lap := some l }, !c.undoInMemory)

/-- The access to the source bytes of a sector: the first that is refused, with its global address (R235); poison is tested
last, in the bytes as they then stand. -/
def State.sourceFault (s : State) (e : MapEntry) (sec : Nat) (rd wr : Bool) : Option Trap :=
  let dev := s.ctxDev e.ctx
  (List.range 16).findSome? fun b =>
    let t := 16 * sec + b - e.lo
    if e.count ≤ t then none
    else
      let ea := e.va t
      if ea ≥ 2 ^ 56 then some { cause := cPageFault, addr := ea }
      else
        let c := s.canon dev (s.ctxName e.ctx).2 ea
        match s.page? dev c.1 c.2.1 with
        | none => some { cause := cPageFault, addr := ea }
        | some p =>
          match p.refuses c.2.2 rd wr with
          | some (cause, sub) => some { cause := cause, sub := sub, addr := ea }
          | none =>
            match s.place? dev c.1 c.2.1 with
            | none => some { cause := cProtection, addr := ea }
            | some _ => none

/-- The first source byte of a sector that carries poison (R235, R392). -/
def State.sourcePoison (s : State) (e : MapEntry) (sec : Nat) : Option Trap :=
  (s.sources e sec).findSome? fun p =>
    match s.place? (s.ctxDev e.ctx) p.2.1 p.2.2 with
    | some a => if s.poison.contains (a / 16) then some { cause := cPoison, addr := e.va (16 * sec + p.1 - e.lo) } else none
    | none => none

/-- The other sectors of a core that hold a source byte of a sector: they are one location with it (R236, R281). -/
def State.kin (s : State) (core : Nat) (e : MapEntry) (sec : Nat) : List (Nat × Sector × MapEntry) :=
  let mine := (s.sources e sec).map Prod.snd
  (s.core core).sectors.filterMap fun p =>
    if p.1 = sec then none
    else
      match (s.core core).entries.get? p.2.entry with
      | some k => if (s.sources k p.1).any fun b => mine.contains b.2 then some (p.1, p.2, k) else none
      | none => none

/-- The other sectors of the core give up what the sector is about to read or write. -/
def State.recallKin (s : State) (core : Nat) (e : MapEntry) (sec : Nat) (write : Bool) : State :=
  s.recallSectors core write (s.kin core e sec)

/-- A write into a sector would take a pinned byte from another entry of the core (R266). -/
def State.kinPinned (s : State) (core off : Nat) : Bool :=
  match (s.core core).entryAt off with
  | none => false
  | some (_, e) => (s.kin core e (off / 16)).any fun p => s.pinned core (16 * p.1)

/-- Ownership of the source lines of a sector (R235). False: it waits. -/
def State.ownSources (s : State) (core : Nat) (e : MapEntry) (sec : Nat) : State × Bool :=
  s.obtainAll (s.sourceLines e sec) ⟨core, 1⟩ (if e.rw then .partialOwn else .read)

/-- A fill of a sector (R231, R235): the source bytes stand in the banks, zeros past the last source byte. -/
def State.fillSector (s : State) (core sec entry : Nat) (e : MapEntry) : Got Unit :=
  match s.sourceFault e sec true e.rw with
  | some t => .trap (s.setSector core sec none 0) t
  | none =>
    match s.ownSources core e sec with
    | (s, false) => .wait s
    | (s, true) =>
      let s := (s.recallKin core e sec false).dropSector core sec
      match s.sourcePoison e sec with
      | some t => .trap s t
      | none =>
      let s := (s.sources e sec).foldl (fun s p =>
        match s.place? (s.ctxDev e.ctx) p.2.1 p.2.2 with
        | none => s
        | some a => s.modCore core fun c => c.stashPut e.ctx (16 * sec + p.1) (s.mem.get a)) s
      .ok (s.setSector core sec (some .clean) entry) ()

/-- The state of a sector; none is INV, or scratch. -/
def State.sectorState (s : State) (core sec : Nat) : Option SecState :=
  ((s.core core).sectors.get? sec).map fun x => x.st

/-- The columns of Table 7.9 for an item's load and store: what must hold of the sector before the bytes are read
or written. -/
def State.touch (s : State) (core off : Nat) (w : Want) : Got Unit :=
  let sec := off / 16
  let s := if s.sectorState core sec = some .wb then s.writebackDone core sec else s
  match (s.core core).entryAt off with
  | none => .ok s ()
  | some (m, e) =>
    let s := s.modCore core fun c => { c with entries := c.entries.modify m fun e => { e with lastUse := s.cycle } }
    match s.sectorState core sec with
    | some .clean | some .dirty =>
      if !w.wr then .ok s ()
      else
        (match s.ownSources core e sec with
         | (s, false) => .wait s
         | (s, true) => .ok ((s.recallKin core e sec true).setSector core sec (some .dirty) m) ())
    | _ =>
      if w.wr && decide (w.n = 16) then
        match s.sourceFault e sec false true with
        | some t => .trap s t
        | none =>
          match s.ownSources core e sec with
          | (s, false) => .wait s
          | (s, true) => .ok (((s.recallKin core e sec true).dropSector core sec).setSector core sec (some .dirty) m) ()
      else
        match s.fillSector core sec m e with
        | .ok s _ => .ok (if w.wr then (s.recallKin core e sec true).setSector core sec (some .dirty) m else s) ()
        | .trap s t => .trap s t
        | .wait s => .wait s

/-! ## Accumulator tiles -/

/-- Tiles of the group of an MMA (Table 8.9). -/
def tileCount (shape : MShape) (f64 : Bool) : Nat :=
  let n := match shape with
    | .m64n64 => 1
    | .m128n64 => 2
    | .m128n128 => 4
  if f64 then 2 * n else n

/-- The tiles that an MMA writes. -/
def Mma.tiles (m : Mma) : List Nat := (List.range (tileCount m.shape (m.la.fmt == 3))).map fun i => m.tile + i

/-- The tiles that an ACC move reads or writes. -/
def AccOp.tiles : AccOp → List Nat
  | .zero ts => ts
  | .mov _ t _ tile _ _ => if t = .f64 then [tile, tile + 1] else [tile]
  | .ld _ wide _ _ tile _ _ => if wide then [tile, tile + 1] else [tile]
  | .st _ wide _ tile _ _ => if wide then [tile, tile + 1] else [tile]

/-- The core's numbers of tiles of a team (R262). -/
def Team.coreTiles (t : Team) (tiles : List Nat) : List Nat := tiles.filterMap fun n => t.accTiles[n]?

/-- An MMA that issued before order `upto` waits for its place in the queue; its hold has the mask of its tiles. -/
def Team.tileHeld (t : Team) (tile upto : Nat) : Bool :=
  t.waves.any fun w => w.2.subs.any fun k =>
    (k.2.hold.map fun h => h.kind == .mma && decide (h.order < upto) && h.value.getLsbD tile).getD false

/-- An operation of the team that issued before order `upto` still works on the tile (R269, R270). -/
def Team.tileBusy (t : Team) (tile upto : Nat) : Bool :=
  t.tileHeld tile upto ||
  (t.mmas.any fun m => decide (m.1 < upto) && m.2.tiles.contains tile) ||
  (t.moves.any fun m => decide (m.1 < upto) && m.2.op.tiles.contains tile)

/-! ## Banks and the move cursor (R341, R342, R398) -/

/-- The physical place of a logical bank and row in a structure of `cells` rows per bank (R341, R342). -/
def BankMap.place (m : BankMap) (banks cells b r : Nat) : Nat × Nat :=
  let onSpare := fun x => m.spareFor == some x
  let dead := m.dead.filter fun x => !onSpare x && decide (x < banks)
  let live := (List.range banks).filter fun x => !dead.contains x
  let w := dead.length * cells / banks
  let t := cells - w
  let phys (x : Nat) : Nat := if onSpare x then banks else x
  if dead.contains b then
    let q := dead.idxOf b * t + r
    (phys ((live[q / w]?).getD 0), t + q % w)
  else (phys b, r)

/-- The bank map of a structure of a core. -/
def Core.bankMap (c : Core) (st : Struct) : BankMap :=
  match st with
  | .pool => c.pool
  | .stash => c.stashMap
  | .acc => c.accMap
  | .l1 | .icache | .l2 | .hbm => {}

/-- Rows of each logical bank that are live under a map (R342). -/
def BankMap.rows (m : BankMap) (banks cells : Nat) : Nat :=
  cells - (m.dead.filter fun x => m.spareFor != some x && decide (x < banks)).length * cells / banks

/-- The logical bank and row of a 16-byte unit (R316, Table 10.9). -/
def unitCell (st : Struct) (u : Nat) : Nat × Nat :=
  match st with
  | .stash => (u / 2 % 32, u / 64)
  | .acc => ((u / 16 % 64 + u / 1024) % 16, 4 * (u / 1024) + u / 16 % 64 / 16)
  | .pool | .l1 | .icache | .l2 | .hbm => (0, 0)

/-- The physical bank and row of a unit under a map. -/
def BankMap.unitPlace (m : BankMap) (st : Struct) (u : Nat) : Nat × Nat :=
  let c := unitCell st u
  match st with
  | .stash => m.place 32 1024 c.1 c.2
  | .acc => m.place 16 128 c.1 c.2
  | .pool | .l1 | .icache | .l2 | .hbm => c

/-- The units that a change of the map moves, ascending: those that stay live and whose place changes (R342). -/
def movedUnits (st : Struct) (m m' : BankMap) : List Nat :=
  let moves (n rows : Nat) : List Nat := (List.range n).filter fun u =>
    decide ((unitCell st u).2 < rows) && m.unitPlace st u != m'.unitPlace st u
  match st with
  | .stash => moves 65536 (m'.rows 32 1024)
  | .acc => moves 32768 (m'.rows 16 128)
  | .pool | .l1 | .icache | .l2 | .hbm => []

/-- The unit at the move cursor of a structure, while a vent of it moves units (R398). -/
def Core.movingUnit (c : Core) (st : Struct) : Option Nat :=
  (c.vents.find? fun v => v.started && v.b.st == st).bind fun v => (movedUnits st v.old (c.bankMap st))[v.cursor]?

/-- The place of a unit: its new one below the move cursor, its old one above it (R398). -/
def Core.unitPlace (c : Core) (st : Struct) (u : Nat) : Nat × Nat :=
  match c.vents.find? fun v => v.started && v.b.st == st with
  | none => (c.bankMap st).unitPlace st u
  | some v =>
    match (movedUnits st v.old (c.bankMap st))[v.cursor]? with
    | some at_ => if u < at_ then (c.bankMap st).unitPlace st u else v.old.unitPlace st u
    | none => (c.bankMap st).unitPlace st u

/-- Tiles of a core, one of which holds the unit at the move cursor: an access to them waits (R398). -/
def Core.tilesMoving (c : Core) (tiles : List Nat) : Bool :=
  ((c.movingUnit .acc).map fun u => tiles.contains (u / 1024)).getD false

/-- A Barnos link carries traffic. -/
def State.barnosUp (s : State) (j : Nat) : Bool := (s.link (4 + j)).st != .failed && (s.fdie (j / 6)).inService

/-- The links in service of a peer's route entry, ascending (R416, R417). -/
def State.peerLinks (s : State) (dev peer : Nat) : List Nat :=
  let e := ((s.dev dev).routes.get? peer).getD 0
  if toBit (e / 2 ^ 24) then (List.range 24).filter fun j => toBit (e / 2 ^ j) && s.barnosUp j else []

/-- The Barnos link that requests for a line of a peer take (R417). -/
def State.peerLink (s : State) (dev peer va : Nat) : Option Nat :=
  let l := s.peerLinks dev peer
  l[Nat.xor (va / 64 % 2 ^ 16) peer % l.length]?

/-- A peer outside the package that no link reaches (R419). -/
def State.peerGone (s : State) (ctx peer va : Nat) : Bool :=
  (s.peerDev (s.ctxDev ctx) peer).isNone && (s.peerLink (s.ctxDev ctx) peer va).isNone

/-- The link to a peer outside the package is asleep or waking (R408). -/
def State.peerAsleep (s : State) (ctx peer va : Nat) : Bool :=
  (s.peerDev (s.ctxDev ctx) peer).isNone &&
  ((s.peerLink (s.ctxDev ctx) peer va).map fun j => (s.link (4 + j)).st != .active).getD false

/-! ## The access itself -/

/-- What must happen before the bytes are read or written, and row 6 of Table 7.4. A request to a peer waits while its link is
asleep or waking (R408), and a peer that no link reaches is not present (R419). -/
def State.prepare (s : State) (x : Accessor) (w : Want) (ea : Nat) (d : Dest) : Got Unit :=
  match d with
  | .stash core off =>
    if (w.wr && (s.pinned core off || s.kinPinned core off)) || (s.core core).movingUnit .stash == some (off / 16) then .wait s
    else
      (match (if w.wr then s.keepUndo core off else (s, true)) with
       | (s, false) => .wait s
       | (s, true) =>
         match s.touch core off w with
         | .ok s _ =>
           if w.rd && (s.core core).stashPoison.contains (off / 16) then .trap s { cause := cPoison, addr := ea }
           else .ok s ()
         | r => r)
  | .acc t off =>
    if ((s.teams.get? t).map fun tm => tm.tileBusy (off / 0x4000) x.upto ||
        (((s.core tm.core).movingUnit .acc).map fun u =>
          (tm.accTiles[off / 0x4000]?).map (fun n => 1024 * n + off % 0x4000 / 16) == some u).getD false).getD false then .wait s
    else .ok s ()
  | .mem l place =>
    let need : Need := if w.home || l.dev != s.ctxDev x.ctx then (if w.wr then .homeWrite else .homeRead)
      else if w.wr then .own else .read
    (match s.obtain l ⟨x.core, x.kind⟩ need with
     | (s, false) => .wait s
     | (s, true) =>
       let s := if x.kind = 0 && (need == .read || need == .own) then s.cacheData x.core l (sectorBit ea) w.wr else s
       if w.rd && s.poison.contains (place / 16) then .trap s { cause := cPoison, addr := ea } else .ok s ())
  | .remote peer va =>
    if s.peerGone x.ctx peer va then .trap s { cause := cPageFault, addr := ea }
    else if !x.again || s.peerAsleep x.ctx peer va then .wait s
    else if Config.peerRefuses s.fresh peer va then .trap s { cause := cProtection, addr := ea }
    else .ok s ()
  | .door _ => .ok s ()

/-! ## Accesses of the launch unit, the service unit and the engines' counters -/

/-- An access of a unit of the device in the space of a context, performed at the home: the state and the place. -/
def State.unit (s : State) (ctx : Nat) (w : Want) (ea : Nat) : Except Trap (State × Nat) :=
  match s.resolve { ctx := ctx, core := 768 } w ea with
  | .error t => .error t
  | .ok (.mem l place) =>
    if w.rd && s.poison.contains (place / 16) then .error { cause := cPoison, addr := ea }
    else .ok (s.force l w.wr, place)
  | .ok _ => .error { cause := cProtection, addr := ea }

/-- An access of a unit of the device to a line waits: for a purge (R340), for the pin on what it would recall (R266), or for
a way of the line's slice. -/
def State.lineBusy (s : State) (l : LineRef) (write : Bool) : Bool :=
  s.purging l || ((s.entry l).holders.any fun p => s.recallWaits l p.1 write) ||
  (match s.homeFill l with
   | some s' => !(s'.entry l).inL2
   | none => false)

/-- An access of a unit of the device to an address of a context waits. -/
def State.unitBusy (s : State) (ctx ea : Nat) (write : Bool) : Bool :=
  match s.resolve { ctx := ctx, core := 768 } { n := 1, rd := !write, wr := write } ea with
  | .ok (.mem l _) => s.lineBusy l write
  | .ok _ | .error _ => false

/-- Some line of a run of bytes waits so. -/
def State.unitsBusy (s : State) (ctx ea n : Nat) (write : Bool) : Bool :=
  (List.range (ceilDiv (ea % 64 + n) 64)).any fun k => s.unitBusy ctx (ea / 64 * 64 + 64 * k) write

/-- A read by a unit of the device. -/
def State.unitRead (s : State) (ctx n ea : Nat) : Except Trap (State × Nat) :=
  match s.unit ctx { n := n, rd := true, wr := false } ea with
  | .error t => .error t
  | .ok (s, a) => .ok (s, s.mem.getN a n)

/-- A write by a unit of the device. -/
def State.unitWrite (s : State) (ctx n ea v : Nat) : Except Trap State :=
  match s.unit ctx { n := n, rd := false, wr := true } ea with
  | .error t => .error t
  | .ok (s, a) => .ok { s with mem := s.mem.putN a n v }

/-- A write whose fault nothing observes. -/
def State.unitPut (s : State) (ctx n ea v : Nat) : State :=
  match s.unitWrite ctx n ea v with
  | .error _ => s
  | .ok s => s

/-- An addition to a 64-bit word, which may stand in peer memory. -/
def State.bumpCounter (s : State) (ctx ea v : Nat) : Except Trap State :=
  match s.resolve { ctx := ctx, core := 768 } { n := 8, rd := true, wr := true } ea with
  | .ok (.remote peer va) =>
    if Config.peerRefuses s.fresh peer va then .error { cause := cProtection, addr := ea } else .ok s.bump
  | _ =>
    match s.unit ctx { n := 8, rd := true, wr := true } ea with
    | .error t => .error t
    | .ok (s, a) => .ok { s with mem := s.mem.putN a 8 (s.mem.getN a 8 + v) }

/-- An addition to a counter; address 0 names no counter (R249). -/
def State.addCounter (s : State) (ctx ea v : Nat) : Except Trap State :=
  if ea = 0 then .ok s else s.bumpCounter ctx ea v

/-- An addition to a counter whose fault nothing observes. -/
def State.countUp (s : State) (ctx ea v : Nat) : State :=
  match s.addCounter ctx ea v with
  | .error _ => s
  | .ok s => s

/-- The codes of Table 11.4. -/
def QState.code : QState → Nat
  | .idle => 0
  | .running => 1
  | .waiting => 2
  | .error => 3
  | .suspended => 4

/-- The head word of a queue (Table 11.3). -/
def Queue.headWord (q : Queue) : Nat := q.head.toNat + q.st.code * 2 ^ 32 + q.err * 2 ^ 40

/-- The place of the command or descriptor of an index in its ring (R345). -/
def Queue.slotVa (q : Queue) (i : BitVec 32) : Nat := q.ring + 64 * (i.toNat % 2 ^ q.n)

/-- A command may start before the earlier ones complete (Table 11.2). -/
def State.concAt (s : State) (q : Queue) (i : BitVec 32) : Bool :=
  match s.unitRead q.ctx 8 (q.slotVa i) with
  | .ok (_, v) => toBit (v / 2 ^ 32)
  | .error _ => true

/-- The state of a queue that is neither refused nor suspended (Table 11.4). -/
def State.qstate (s : State) (q : Queue) : QState :=
  match q.st with
  | .error => .error
  | .suspended => .suspended
  | .idle | .running | .waiting =>
    if q.head = q.tail then .idle
    else if q.xfer.isNone && q.next != q.tail && q.next != q.head && !s.concAt q q.next then .waiting
    else .running

/-- The head word of a queue is rewritten, a release at .SYS; it waits while its line does (R340, R348). -/
def State.writeHead (s : State) (k : Nat) : State :=
  match s.queues.get? k with
  | none => s
  | some q =>
    if s.unitBusy q.ctx q.headVa true then s.modQueue k fun q => { q with owed := true }
    else (s.modQueue k fun q => { q with owed := false }).unitPut q.ctx 16 q.headVa q.headWord

/-- The head words that wait are rewritten. -/
def State.owedHeads (s : State) : State := s.queues.foldl (fun s p => if p.2.owed then s.writeHead p.1 else s) s

/-- A queue changes, and its head word is rewritten when HEAD or QSTATE change (R348). -/
def State.setQueue (s : State) (k : Nat) (f : Queue → Queue) : State :=
  match s.queues.get? k with
  | none => s
  | some q =>
    let q' := f q
    let q' := { q' with st := s.qstate q' }
    let s := s.modQueue k fun _ => q'
    if q.headWord = q'.headWord then s else s.writeHead k

/-- A refused command puts the queue in ERROR (R348). -/
def State.refuseQueue (s : State) (k err : Nat) : State := s.setQueue k fun q => { q with st := .error, err := err }

/-- A doorbell write: the new tail, or a fenced command where it is too far ahead (R345, R349). -/
def State.doorbell (s : State) (k tail : Nat) : State :=
  match s.queues.get? k with
  | none => s
  | some q =>
    let t : BitVec 32 := BitVec.ofNat 32 tail
    if (t - q.head).toNat > 2 ^ q.n then s.refuseQueue k 5 else s.setQueue k fun q => { q with tail := t }

/-- The number that `n` bytes at a destination hold. -/
def State.peek (s : State) (x : Accessor) (d : Dest) (n : Nat) : Nat :=
  match d with
  | .stash core off =>
    let c := s.core core
    leNat ((List.range n).map fun i =>
      if (c.entryAt (off + i)).isSome then c.stashByte (off + i) else c.scratch x.ctx (off + i))
  | .acc t off => ((s.teams.get? t).map fun tm => tm.acc.getN off n).getD 0
  | .mem _ place => s.mem.getN place n
  | .remote peer va => leNat ((List.range n).map fun i => Config.peerByte s.fresh peer (va + i))
  | .door _ => 0

/-- `n` bytes of a number written at a destination (R210). A unit written whole is no longer poisoned (R392);
bytes past the last source byte of an entry are discarded (R231). -/
def State.poke (s : State) (x : Accessor) (d : Dest) (n v : Nat) : State :=
  match d with
  | .stash core off =>
    s.modCore core fun c =>
      let c := (List.range n).foldl (fun c i =>
        let b := BitVec.ofNat 8 (v / 2 ^ (8 * i))
        match c.entryAt (off + i) with
        | some (_, e) => if off + i - e.lo < e.count then c.stashPut e.ctx (off + i) b else c
        | none => c.stashPut x.ctx (off + i) b) c
      if n = 16 then { c with stashPoison := eraseNat c.stashPoison (off / 16) } else c
  | .acc t off =>
    s.modTeam t fun tm => { tm with acc := tm.acc.putN off n v, accLive := insertNat tm.accLive (off / 0x4000) }
  | .mem _ place =>
    { s with
      mem := s.mem.putN place n v
      poison := if n = 16 then eraseNat s.poison (place / 16) else s.poison }
  | .remote _ _ => s
  | .door q => s.doorbell q (v % 2 ^ 32)

/-! ## Engine work of the same item (R292, R304) -/

/-- Linear item index of a lane: x + GX (y + GY z) (R247). -/
def Grid.item (g : Grid) (tm : Team) (w i : Nat) : Nat :=
  let (x, y, z) := g.local_ w i
  (tm.bx * g.tx + x) + g.gx * ((tm.by_ * g.ty + y) + g.gy * (tm.bz * g.tz + z))

/-- What a byte is called: its stash byte, and its canonical global name (R236, R281, R313). -/
structure ByteName where
  stash : Option (Nat × Nat)
  glob : Option (Nat × Nat)
  deriving DecidableEq

/-- The names of the byte at an effective address. -/
def State.nameOf (s : State) (x : Accessor) (ea : Nat) : ByteName :=
  match s.region x ea with
  | .ok (some (.stash core off)) =>
    ⟨some (core, off), match (s.core core).entryAt off with
      | some (_, e) =>
        if off - e.lo < e.count then
          let c := s.canon (s.ctxDev e.ctx) (s.ctxName e.ctx).2 (e.va (off - e.lo))
          some (c.1, c.2.1)
        else none
      | none => none⟩
  | .ok none =>
    let c := s.canon (s.ctxDev x.ctx) (s.ctxName x.ctx).2 ea
    ⟨none, some (c.1, c.2.1)⟩
  | _ => ⟨none, none⟩

/-- A number that the names of one byte share. -/
def ByteName.key (b : ByteName) : Nat :=
  match b.glob, b.stash with
  | some g, _ => 2 ^ 64 * (g.1 + 1) + g.2
  | none, some c => c.1 * 2 ^ 20 + c.2
  | none, none => 2 ^ 100

/-- A run of bytes holds a byte under one of its names. -/
def State.runHas (s : State) (x : Accessor) (b : ByteName) (a n : Nat) : Bool :=
  match s.region x a with
  | .ok (some (.stash core off)) =>
    (b.stash.map fun c => c.1 == core && decide (off ≤ c.2 ∧ c.2 < off + n)).getD false ||
    (match b.glob with
     | none => false
     | some g =>
       (List.range ((off + n - 1) / 16 + 1 - off / 16)).any fun k =>
         let sec := off / 16 + k
         match (s.core core).entryAt (16 * sec) with
         | none => false
         | some (_, e) => (s.sources e sec).any fun q =>
             q.2 == g && decide (off ≤ 16 * sec + q.1 ∧ 16 * sec + q.1 < off + n))
  | .ok none =>
    (match b.glob with
     | none => false
     | some g =>
       let c := s.canon (s.ctxDev x.ctx) (s.ctxName x.ctx).2 a
       g.1 == c.1 && decide (c.2.1 ≤ g.2 ∧ g.2 < c.2.1 + n))
  | _ => false

/-- A run of bytes that an engine still has to read or write for an item, by address and length. -/
def AccOp.runs (o : AccOp) : List (Nat × Nat) :=
  match o with
  | .mov _ t _ _ off pitch => (List.range 64).map fun r => (windowBase + off + r * pitch, 8 * t.width)
  | .zero _ | .ld _ _ _ _ _ _ _ | .st _ _ _ _ _ _ => []

/-- The runs of engine work that the team's items issued before an order (R304): copies, transfers and moves of
accumulator data. -/
def State.workOf (s : State) (t : Nat) (items : List Nat) (upto : Nat) : List (Nat × Nat) :=
  match s.teams.get? t with
  | none => []
  | some tm =>
    (tm.copies.flatMap fun c => (c.2.moves.filter fun m => decide (m.ord < upto) && items.contains m.item).flatMap fun m =>
      (m.dst, m.len) :: (match m.src with
        | .addr a => [(a, m.len)]
        | .fill _ => [])) ++
    (s.engines.flatMap fun e => (e.2.filter fun q =>
        q.2.team == some t && decide (q.2.ord < upto ∧ q.2.off < q.2.len) && q.2.items.any items.contains).flatMap fun q =>
      [(q.2.src + q.2.off, q.2.len - q.2.off), (q.2.dst + q.2.off, q.2.len - q.2.off)]) ++
    (tm.moves.filter fun m => decide (m.1 < upto) && m.2.items.any items.contains).flatMap fun m => m.2.op.runs

/-- Accesses of engines that items issued earlier are still to be performed: a release by the items waits for them
(R292, R305). -/
def State.owes (s : State) (t : Nat) (items : List Nat) (upto : Nat) : Bool := !(s.workOf t items upto).isEmpty

/-- An engine still has to read or write a byte of an access, for an item that issued its work earlier (R304). -/
def State.workHolds (s : State) (x : Accessor) (ea n : Nat) : Bool :=
  match x.team with
  | none => false
  | some t =>
    match s.workOf t x.items x.upto with
    | [] => false
    | work => (List.range n).any fun i =>
        let b := s.nameOf x (ea + i)
        work.any fun r => s.runHas x b r.1 r.2

/-- An access made ready: its destination, when every row of Table 7.4 is passed and no engine work of its item is in the
way. -/
def State.ready (s : State) (x : Accessor) (w : Want) (ea : Nat) : Got Dest :=
  match s.resolve x w ea with
  | .error t => .trap s t
  | .ok d =>
    if s.workHolds x ea w.n then .wait s
    else
    match s.prepare x w ea d with
    | .ok s _ => .ok s d
    | .trap s t => .trap s t
    | .wait s => .wait s

/-- A load of `n` bytes. -/
def State.load (s : State) (x : Accessor) (n : Nat) (ea : Nat) : Got Nat :=
  match s.ready x { n := n, rd := true, wr := false } ea with
  | .ok s d => .ok s (s.peek x d n)
  | .trap s t => .trap s t
  | .wait s => .wait s

/-- Two runs of bytes meet. -/
def runsMeet (a n b m : Nat) : Bool := decide (a < b + m ∧ b < a + n)

/-! ## Bank conflicts (R316, R318, R342) -/

/-- Cycles that an item access of some stash offsets takes: the most distinct rows in one physical bank. -/
def Core.conflict (c : Core) (offs : List Nat) : Nat :=
  let rows := (offs.map fun o => c.unitPlace .stash (o / 16)).eraseDups
  rows.foldl (fun m p => max m ((rows.filter fun q => q.1 == p.1).length)) 0

/-- BANKCONF grows by the cycles beyond the first, and saturates (R60, R318): an access takes the cycles of the bank, of
any stash, that it keeps longest. -/
def State.countConflict (s : State) (t : Nat) (offs : List (Nat × Nat)) : State :=
  let n := ((offs.map Prod.fst).eraseDups.foldl (fun m c =>
    max m ((s.core c).conflict ((offs.filter fun p => p.1 == c).map Prod.snd))) 0) - 1
  s.modTeam t fun tm => { tm with bankconf := BitVec.ofNat 64 (min (tm.bankconf.toNat + n) (2 ^ 64 - 1)) }

end Sys2Proof.Machine
end

