-- ==== Sys2Proof/Machine/Memory.lean ====
section
/-!
DEFINITION. Loads, stores, atomics, prefetch and cache control (R205 to R219), in teams and in spans (R29 to R31,
R213).
-/
namespace Sys2Proof.Machine
open Sys2Proof

/-! ## Lanes of a sub-wave -/

/-- The effective address of lane `i`: base from source `b`, offset from source `o` or a constant (R205). -/
def Ex.ea (e : Ex) (u : Use) (b : Nat) (o : Option Nat) (k : Nat) (i : Nat) : Nat :=
  (e.src u i b + (match o with
    | some o => e.src u i o
    | none => k)) % 2 ^ 64

/-- The place of an instruction in its team's engine order (R269, R304): that of its first issue. -/
def Ex.order (e : Ex) : Nat := (e.sub.hold.map fun h => h.order).getD e.team.seq

/-- Lane `i` as an accessor. -/
def State.accessor (s : State) (e : Ex) (i : Nat) : Accessor :=
  { ctx := e.team.ctx, core := e.team.core, team := some e.t
    items := [((s.grids.get? e.team.grid).map fun g => g.item e.team e.w i).getD 0]
    again := e.sub.hold.isSome
    upto := e.order }

/-- The items of some lanes, by linear index. -/
def State.itemsOf (s : State) (e : Ex) (lanes : List Nat) : List Nat :=
  match s.grids.get? e.team.grid with
  | none => []
  | some g => lanes.map fun i => g.item e.team e.w i

/-- A release by some lanes waits for accesses that engines still have to perform for their items (R292). -/
def State.releaseWaits (s : State) (e : Ex) (lanes : List Nat) : Bool := s.owes e.t (s.itemsOf e lanes) e.order

/-- The lanes of one instruction as they are tried: the state, the destinations reached, values read, traps, and
whether one waits. -/
structure Sweep where
  s : State
  dests : List (Nat × Dest) := []
  vals : Tbl Nat := []
  traps : LaneTraps := []
  wait : Bool := false
  /-- what earlier lanes of the instruction wrote at a peer, latest first (R216) -/
  sent : List ((Nat × Nat) × Nat) := []

/-- Every lane's access is made ready (Table 7.4). -/
def State.readyAll (s : State) (e : Ex) (w : Want) (ea : Nat → Nat) (lanes : List Nat) : Sweep :=
  lanes.foldl (fun (r : Sweep) i =>
    match r.s.ready (r.s.accessor e i) w (ea i) with
    | .ok s d => { r with s := s, dests := r.dests ++ [(i, d)] }
    | .trap s t => { r with s := s, traps := r.traps ++ [(i, t)] }
    | .wait s => { r with s := s, wait := true }) { s := s }

/-- What the location of a lane holds: at a peer, what an earlier lane of the instruction left there. -/
def Sweep.old (r : Sweep) (s : State) (x : Accessor) (d : Dest) (n : Nat) : Nat :=
  match d with
  | .remote peer va => ((r.sent.find? fun q => q.1 == (peer, va)).map Prod.snd).getD (s.peek x d n)
  | .stash _ _ | .acc _ _ | .mem _ _ | .door _ => s.peek x d n

/-- The access of lane `k` is performed at its destination: `new` gives what it writes, from what the location holds. -/
def Sweep.access (r : Sweep) (s : State) (x : Accessor) (w : Want) (k : Nat) (d : Dest) (new : Nat → Nat → Nat) : Sweep :=
  let old := r.old s x d w.n
  { r with
    s := if w.wr then s.poke x d w.n (new k old) else s
    vals := Tbl.set r.vals k old
    sent := match d with
      | .remote peer va => if w.wr then ((peer, va), new k old) :: r.sent else r.sent
      | .stash _ _ | .acc _ _ | .mem _ _ | .door _ => r.sent }

/-- The accesses that are ready are performed in ascending lane order (R211, R216). -/
def Sweep.perform (r : Sweep) (e : Ex) (w : Want) (ea : Nat → Nat) (new : Nat → Nat → Nat) : Sweep :=
  r.dests.foldl (fun (r : Sweep) p =>
    match r.s.ready (r.s.accessor e p.1) w (ea p.1) with
    | .ok s d => r.access s (r.s.accessor e p.1) w p.1 d new
    | .trap s t => { r with s := s, traps := r.traps ++ [(p.1, t)] }
    | .wait s => { r with s := s, wait := true }) r

/-- The accesses of an instruction's lanes: made ready, and performed once every lane is; where another lane has taken away
what one needs, they are made ready again. -/
def State.accesses (s : State) (e : Ex) (w : Want) (ea : Nat → Nat) (lanes : List Nat) (new : Nat → Nat → Nat) : Sweep :=
  let r := s.readyAll e w ea lanes
  if r.wait then r
  else
    let q := r.perform e w ea new
    if q.wait then { r with wait := true } else q

/-- Offsets that an instruction's lanes reach in the stash of each core (R318, R319). -/
def stashOffsets (l : List (Nat × Dest)) : List (Nat × Nat) :=
  l.filterMap fun p => match p.2 with
    | .stash c off => some (c, off)
    | _ => none

/-- A lane reaches memory beyond its core's stash and tiles. -/
def leaves (core : Nat) (l : List (Nat × Dest)) : Bool :=
  l.any fun p => match p.2 with
    | .mem _ _ | .remote _ _ => true
    | .stash c _ => c != core
    | .acc _ _ | .door _ => false

/-- A write leaves a core with the tag of its die's open phase (R221, R300). -/
def State.tagWrite (s : State) (core : Nat) : State × Option (Nat × Nat) :=
  let d := dieOf core
  let ph := (s.cdie d).phase
  (s.modCdie d fun c => { c with tagged := c.tagged.set ph ((c.tagged.get? ph).getD 0 + 1) }, some (d, ph))

/-- A team's lap becomes unrecoverable (R394). -/
def State.escapeTeam (s : State) (t : Nat) : State :=
  s.modTeam t fun tm => { tm with lap := tm.lap.map fun l => { l with unrecoverable := true } }

/-- An address in the team window. -/
def inWindow (ea : Nat) : Bool := decide (windowBase ≤ ea ∧ ea < windowBase + 0x100000)

/-- The issue of a store or atomic outside the team window is an escape (R394). -/
def State.escapes (s : State) (e : Ex) (lanes : List Nat) (ea : Nat → Nat) : State :=
  if lanes.any fun i => !inWindow (ea i) then s.escapeTeam e.t else s

/-- A hold of the participants for an access that waits. -/
def waitHold (p : Lanes) : Hold := { kind := .access, lanes := p }

/-- A hold for a store or atomic, with whether it reaches the accumulator window (R269). -/
def storeHold (p : Lanes) (run : List Nat) (ea : Nat → Nat) : Hold :=
  { waitHold p with tiles := run.any fun i => decide (accBase ≤ ea i ∧ ea i < accBase + 2 ^ 19) }

/-- A release form first waits for what engines still have to access for its items (R292). -/
def releasing (rel : Bool) (body : Use → State → Ex → Lanes → Issue) (u : Use) (s : State) (e : Ex) (p : Lanes) : Issue :=
  if rel && s.releaseWaits e (lanesIn p) then .hold s (waitHold p) else body u s e p

/-- An order that releases. -/
def releases (o : Ord) : Bool := o == .rel || o == .ar

/-- What a loaded value becomes in its register (R210). -/
def loadExt (t : ITy) (x : Nat) : Nat := if t.width < 32 then writeI t false (readI t x) else x

/-- LD (R210). -/
def ldBody (t : ITy) (o : Option Nat) (k : Nat) (d : RegRef) (u : Use) (s : State) (e : Ex) (p : Lanes) : Issue :=
  let w : Want := { n := t.width / 8, rd := true, wr := false }
  let ea := e.ea u 0 o k
  let run := e.runs u p
  let r := s.accesses e w ea run fun _ x => x
  if r.wait then .hold r.s (waitHold p)
  else
    let s := r.s.countConflict e.t (stashOffsets r.dests)
    .done s
      { traps := e.staleTraps u p ++ r.traps
        regs := [(d, p, fun i => loadExt t ((r.vals.get? i).getD 0))]
        stale := e.staleSets u p } .result none

/-- LDU: one read for the wave; a trap strikes every active lane (R210). -/
def lduBody (t : ITy) (o : Option Nat) (k : Nat) (d : RegRef) (u : Use) (s : State) (e : Ex) (p : Lanes) : Issue :=
  if p = 0 then .done s {} .result none
  else if !(e.staleTraps u p).isEmpty then .done s { traps := e.staleTraps u p } .result none
  else
    let w : Want := { n := t.width / 8, rd := true, wr := false }
    let i := lowLane p
    let ea := e.ea u 0 o k
    let r := s.accesses e w ea [i] fun _ x => x
    if r.wait then .hold r.s (waitHold p)
    else
      let s := r.s.countConflict e.t (stashOffsets r.dests)
      .done s
        { traps := r.traps.flatMap fun q => allLanes p q.2
          regs := [(d, p, fun _ => (r.vals.get? i).getD 0)]
          stale := e.staleSets u p } .result none

/-- ST (R210, R211): data from source `c`. -/
def stBody (t : ITy) (b : Nat) (o : Option Nat) (k : Nat) (c : Nat) (u : Use) (s : State) (e : Ex) (p : Lanes) : Issue :=
  let w : Want := { n := t.width / 8, rd := false, wr := true, plain := true }
  let ea := e.ea u b o k
  let run := e.runs u p
  let s := s.escapes e run ea
  let r := s.accesses e w ea run fun i _ => e.src u i c % 2 ^ t.width
  if r.wait then .hold r.s (storeHold p run ea)
  else
    let s := r.s.countConflict e.t (stashOffsets r.dests)
    let (s, tag) := if leaves e.team.core r.dests then s.tagWrite e.team.core else (s, none)
    .done s { traps := e.staleTraps u p ++ r.traps, stale := e.staleSets u p } .access tag

/-- The scope at or beyond which an atomic is performed at the home (R215). -/
def scopeAtHome : Scope → Bool
  | .sys | .pkg | .fnd | .die => true
  | .core | .team | .wave | .item => false

/-- The operand of an atomic and the new value of a CAS (R214). -/
def atomOperand (op : AtomOp) (t : ITy) (b : Nat) : Nat × Nat :=
  if op = .cas then (b % 2 ^ t.width, b / 2 ^ t.width % 2 ^ t.width) else (b % 2 ^ t.width, 0)

/-- ATOM and RED (R215 to R217): `d` receives the old value. -/
def atomBody (op : AtomOp) (t : ITy) (sc : Scope) (d : Option RegRef) (u : Use) (s : State) (e : Ex) (p : Lanes) :
    Issue :=
  let w : Want := { n := t.width / 8, rd := true, wr := true, home := scopeAtHome sc }
  let ea := e.ea u 0 none 0
  let run := e.runs u p
  if op = .fadd && e.wave.repro then
    .done s
      { traps := e.staleTraps u p ++ run.map fun i =>
          (i, match s.resolve (s.accessor e i) w (ea i) with
            | .error t => t
            | .ok _ => { cause := cRepro, addr := ea i })
        stale := e.staleSets u p } .result none
  else
    let s := s.escapes e run ea
    let r := s.accesses e w ea run fun i old =>
      let q := atomOperand op t (e.src u i 1)
      atomNew op t old q.1 q.2
    if r.wait then .hold r.s (storeHold p run ea)
    else
      let s := r.s.countConflict e.t (stashOffsets r.dests)
      let (s, tag) := if leaves e.team.core r.dests then s.tagWrite e.team.core else (s, none)
      .done s
        { traps := e.staleTraps u p ++ r.traps
          regs := match d with
            | some d => [(d, p, fun i => (r.vals.get? i).getD 0)]
            | none => []
          stale := e.staleSets u p } (if d.isSome then .tracked else .access) tag

/-! ## Spans -/

/-- The accessor of a span on a core. -/
def Span.accessor (sp : Span) : Accessor :=
  { ctx := sp.ctx, core := (match sp.state with
      | .running c _ => c
      | _ => 0) }

/-- Regions whose bytes each team has its own of: a span peels there. -/
def teamRegion (ea : Nat) : Bool := decide (windowBase ≤ ea ∧ ea < 2 ^ 56)

/-- A cause that parks the whole span (R31); any other peels (R32). -/
def spanFault (t : Trap) : Bool := t.cause == cPageFault || t.cause == cProtection || t.cause == cHostGone

/-- What stops a span's access. -/
def spanStop (s : State) (t : Trap) : SpanAct := if spanFault t then .fault s t else .peel

/-- The base and offset of a span's address (R205). -/
def spanEa (src : List (Form × Bool)) (b : Nat) (o : Option Nat) (k : Nat) : Form :=
  let f (j : Nat) : Form := ((src[j]?).map Prod.fst).getD (.u 0)
  let off : Form := match o with
    | some o => f o
    | none => .u (BitVec.ofNat 64 k)
  if (f b).isA || off.isA then Form.zip (· + ·) (f b) off else .u ((f b).base + off.base)

/-- A released source under CTL.STRICTREG. -/
def Span.strictStale (sp : Span) (src : List (Form × Bool)) : Bool := sp.strictReg && src.any fun v => v.2

/-- LD and LDU with a U address (R213, Table 1.4). A 128-bit result stands in four U registers. -/
def ldSpan (t : ITy) (o : Option Nat) (k : Nat) (d : RegRef) (u : Use) (s : State) (sp : Span) : SpanAct :=
  match sp.sources u with
  | none => .peel
  | some src =>
    match spanEa src 0 o k with
    | .a _ _ _ _ => .peel
    | .u a =>
      if sp.strictStale src || teamRegion a.toNat then .peel
      else
        match s.load sp.accessor (t.width / 8) a.toNat with
        | .trap s t => spanStop s t
        | .wait s => .stall s
        | .ok s v =>
          let v := loadExt t v
          let regs : List (RegRef × Form) :=
            if d.n = 4 then (List.range 4).map fun j =>
              ({ d with idx := d.idx + j, n := 1 }, .u (BitVec.ofNat 64 (v / 2 ^ (32 * j) % 2 ^ 32)))
            else [(d, .u (BitVec.ofNat 64 v))]
          .done s { regs := regs, stale := src.any fun v => v.2 } .result none

/-- The 32-bit pieces of a span's store data, or its single form. -/
def Span.data (sp : Span) (r : RegRef) : Option (List (Form × Bool)) :=
  if !r.uni && r.n == 4 then
    (List.range 4).foldr (fun j acc =>
      match sp.get { r with idx := r.idx + j, n := 1 }, acc with
      | some v, some l => some (v :: l)
      | _, _ => none) (some [])
  else (sp.get r).map fun v => [v]

/-- The number that store data holds for the item at an offset from the origin. -/
def dataAt (l : List (Form × Bool)) (dx dy dz : Nat) : Nat :=
  match l with
  | [v] => (v.1.eval dx dy dz).toNat
  | l => l.foldr (fun v acc => (v.1.eval dx dy dz).toNat % 2 ^ 32 + 2 ^ 32 * acc) 0

/-- A block store as it proceeds: the state, the position reached, and what stopped it. -/
structure Block where
  s : State
  pos : Nat
  stop : Option (Option Trap) := none

/-- The block store's items in ascending linear order, from the position that it has reached (R29, R31). -/
def State.blockStore (s : State) (sp : Span) (g : Grid) (n : Nat) (ea : Form) (data : List (Form × Bool)) : Block :=
  let nx := g.width sp.box 0
  let ny := g.width sp.box 1
  let x := sp.accessor
  ((List.range (g.boxItems sp.box)).drop sp.blockPos).foldl (fun (b : Block) i =>
    if b.stop.isSome then b
    else
      let a := (ea.eval (i % nx) (i / nx % ny) (i / (nx * ny))).toNat
      match b.s.ready x { n := n, rd := false, wr := true, plain := true } a with
      | .ok s d => { b with s := s.poke x d n (dataAt data (i % nx) (i / nx % ny) (i / (nx * ny))), pos := i + 1 }
      | .trap s t => { b with s := s, stop := some (some t) }
      | .wait s => { b with s := s, stop := some none }) { s := s, pos := sp.blockPos }

/-- The address of every item of the box is aligned (R29). -/
def alignedForm (g : Grid) (b : Box) (n : Nat) (f : Form) : Bool :=
  f.base.toNat % n == 0 &&
  (List.range 3).all fun d => decide (g.width b d ≤ 1) || (f.coef d).toNat % n == 0

/-- ST in a span (R29): `c` names the data among the operands. -/
def stSpan (t : ITy) (b : Nat) (o : Option Nat) (k : Nat) (c : Nat) (i : Nat) (u : Use) (g : Grid) (s : State)
    (sp : Span) : SpanAct :=
  let n := t.width / 8
  let others := { u with rd := (List.range u.rd.length).filterMap fun j =>
    if j = c then (u.rd[j]?).map fun r => { r with n := 1, uni := true } else u.rd[j]? }
  match sp.sources others, (u.rd[c]?).bind fun r => sp.data r with
  | some src, some data =>
    let src := (List.range src.length).filterMap fun j => if j = c then some (Form.u 0, false) else src[j]?
    let stale := (src ++ data).any fun v => v.2
    if sp.strictReg && stale then .peel
    else
      match spanEa src b o k with
      | .u a =>
        if data.any (fun v => v.1.isA) || teamRegion a.toNat then .peel
        else
          let x := sp.accessor
          match s.ready x { n := n, rd := false, wr := true, plain := true } a.toNat with
          | .trap s t => spanStop s t
          | .wait s => .stall s
          | .ok s d =>
            let s := s.poke x d n (dataAt data 0 0 0 % 2 ^ t.width)
            let (s, tag) := if leaves x.core [(0, d)] then s.tagWrite x.core else (s, none)
            .done s { stale := stale } .access tag
      | f =>
        if f.coef 0 ≠ BitVec.ofNat 64 n || !alignedForm g sp.box n f || teamRegion f.base.toNat then .peel
        else
          let r := s.blockStore sp g n f (data.map fun v => v)
          match r.stop with
          | some none => .stall (r.s.modSpan i fun q => { q with blockPos := r.pos, inBlock := true })
          | some (some t) =>
            if spanFault t then .fault (r.s.modSpan i fun q => { q with blockPos := r.pos, inBlock := true }) t else .peel
          | none =>
            let (s, tag) := r.s.tagWrite sp.accessor.core
            .done s { stale := stale } .access tag
  | _, _ => .peel

/-- The one atomic that stands for a span's items (Table 1.5): none peels, `some none` makes no access. -/
def aggregate (op : AtomOp) (t : ITy) (g : Grid) (b : Box) (f : Form) : Option (Option Nat) :=
  let n := g.boxItems b
  let w (d : Nat) : Nat := g.width b d
  let sum : Nat :=
    let tri (d : Nat) : Nat := w d * (w d - 1) / 2
    n * f.base.toNat + (f.coef 0).toNat * w 1 * w 2 * tri 0 + (f.coef 1).toNat * w 0 * w 2 * tri 1 +
      (f.coef 2).toNat * w 0 * w 1 * tri 2
  let ends := f.corners t w
  match op, f.isA with
  | .add, _ | .sub, _ => some (some sum)
  | .min, false | .max, false | .and, false | .or, false | .exch, false => some (some f.base.toNat)
  | .min, true =>
    if f.inRange t w then some (some (wrap 64 (ends.foldl min (ends.headD 0)))) else none
  | .max, true =>
    if f.inRange t w then some (some (wrap 64 (ends.foldl max (ends.headD 0)))) else none
  | .xor, false => some (if n % 2 = 1 then some f.base.toNat else none)
  | _, _ => none

/-- ATOM and RED in a span (R30). -/
def atomSpan (op : AtomOp) (t : ITy) (sc : Scope) (quiet : Bool) (u : Use) (g : Grid) (s : State) (sp : Span) :
    SpanAct :=
  match sp.sources u with
  | some [a, b] =>
    if !quiet || a.1.isA || sp.strictStale [a, b] || teamRegion a.1.base.toNat then .peel
    else
      let r : SpanVal := { stale := a.2 || b.2 }
      match aggregate op t g sp.box b.1 with
      | none => .peel
      | some none => .done s r .access none
      | some (some v) =>
        let x := sp.accessor
        match s.ready x { n := t.width / 8, rd := true, wr := true, home := scopeAtHome sc } a.1.base.toNat with
        | .trap s t => spanStop s t
        | .wait s => .stall s
        | .ok s d =>
          let old := s.peek x d (t.width / 8)
          let s := s.poke x d (t.width / 8) (atomNew op t old (v % 2 ^ t.width) 0)
          let (s, tag) := if leaves x.core [(0, d)] then s.tagWrite x.core else (s, none)
          .done s r .access tag
  | _ => .peel

/-! ## Prefetch and cache control (R218, R219) -/

/-- One prefetch: nothing that an agent reads changes, and nothing traps. -/
def State.prefetch (s : State) (x : Accessor) (target : Nat) (excl : Bool) (ea : Nat) : State :=
  if target = 2 then
    if inWindow ea then
      match s.region x ea with
      | .ok (some (.stash core off)) =>
        (match (s.core core).entryAt off with
         | some (m, e) =>
           (match e.st with
            | .live _ => if s.sectorState core (off / 16) = none then s.setSector core (off / 16) (some .fill) m else s
            | _ => s)
         | none => s)
      | _ => s
    else s
  else
    match s.resolve x { n := 1, rd := true, wr := excl } ea with
    | .ok (.mem l _) =>
      if l.dev ≠ s.ctxDev x.ctx || ((s.entry l).holders.any fun h => h.1.kind == 2) then s
      else if target = 0 then (s.obtain l ⟨x.core, 0⟩ (if excl then .own else .read)).1
      else (s.homeFill l).getD s
    | _ => s

/-- PREF (R218). -/
def prefBody (target : Nat) (excl : Bool) (o : Option Nat) (k : Nat) (u : Use) (s : State) (e : Ex) (p : Lanes) : Issue :=
  let lanes := (lanesIn p).filter fun i => !e.stale u i
  .done (lanes.foldl (fun s i => s.prefetch (s.accessor e i) target excl (e.ea u 0 o k i)) s)
    { stale := (lanesIn p).any fun i => e.stale u i } .result none

/-- PREF in a span: once with U sources. -/
def prefSpan (target : Nat) (excl : Bool) (o : Option Nat) (k : Nat) (u : Use) (s : State) (sp : Span) : SpanAct :=
  match sp.sources u with
  | none => .peel
  | some src =>
    match spanEa src 0 o k with
    | .u a => .done (s.prefetch sp.accessor target excl a.toNat) { stale := src.any fun v => v.2 } .result none
    | .a _ _ _ _ => .peel

/-- The line holding an address, if it translates to device or host memory. -/
def State.cachedLine (s : State) (x : Accessor) (ea : Nat) : Option LineRef :=
  if ea < apertureBase then
    let c := s.canon (s.ctxDev x.ctx) (s.ctxName x.ctx).2 ea
    (s.place? (s.ctxDev x.ctx) c.1 c.2.1).map fun _ => lineOf (s.ctxDev x.ctx) c.1 c.2.1
  else none

/-- One operation of CCTL on an address (R219). False: a line whose holders have not all answered is waited for. -/
def State.cacheOp (s : State) (x : Accessor) (op ea : Nat) : State × Bool :=
  if op = 1 then ((s.core x.core).l1.foldl (fun s c => s.leaveL1 x.core c.line) s, true)
  else
    match s.cachedLine x ea with
    | none => (s, true)
    | some l =>
      if op = 0 then (s.leaveL1 x.core l, true)
      else
        match s.entry? l with
        | none => (s, true)
        | some e =>
          if s.purging l then (s, false)
          else if e.txn.isSome then ((s.answerAll l).closeTxn l, false)
          else
            let s := s.evict l
            (s, (s.entry? l).isNone)

/-- CCTL (R219). -/
def cctlBody (op : Nat) (b : Bool) (o : Option Nat) (u : Use) (s : State) (e : Ex) (p : Lanes) : Issue :=
  let r := (e.runs u p).foldl (fun (r : State × Bool) i =>
    let q := r.1.cacheOp (s.accessor e i) op (if b then e.ea u 0 o 0 i else 0)
    (q.1, r.2 && q.2)) (s, true)
  if r.2 then .done r.1 { traps := e.staleTraps u p, stale := e.staleSets u p } .access none else .hold r.1 (waitHold p)

/-- CCTL in a span. -/
def cctlSpan (op : Nat) (b : Bool) (o : Option Nat) (u : Use) (s : State) (sp : Span) : SpanAct :=
  match sp.sources u with
  | none => .peel
  | some src =>
    if sp.strictStale src then .peel
    else
      match (if b then spanEa src 0 o 0 else .u 0) with
      | .u a =>
        (match s.cacheOp sp.accessor op a.toNat with
         | (s, true) => .done s { stale := src.any fun v => v.2 } .access none
         | (s, false) => .stall s)
      | .a _ _ _ _ => .peel

/-! ## Meanings -/

/-- Index of the offset register among the sources. -/
def offAt (o : Option USrc) (j : Nat) : Option Nat := o.map fun _ => j

/-- LD (R210). -/
def execLd (x : LdR) (s : State) : Res :=
  issue (.ld x) false false
    (ldBody x.t (offAt x.off 1) 0 (vref x.d x.t.regs))
    (fun u _ _ s sp => ldSpan x.t (offAt x.off 1) 0 (vref x.d x.t.regs) u s sp) s

/-- LD, immediate offset (R209). -/
def execLdI (x : LdI) (s : State) : Res :=
  issue (.ldI x) false false
    (ldBody x.t none (sext24 x.imm) (vref x.d x.t.regs))
    (fun u _ _ s sp => ldSpan x.t none (sext24 x.imm) (vref x.d x.t.regs) u s sp) s

/-- LD, long offset (R209). -/
def execLdL (x : LdL) (s : State) : Res :=
  issue (.ldL x) false false
    (ldBody x.t none x.k.toNat (vref x.d x.t.regs))
    (fun u _ _ s sp => ldSpan x.t none x.k.toNat (vref x.d x.t.regs) u s sp) s

/-- LDU (R210). -/
def execLdu (x : LduR) (s : State) : Res :=
  issue (.ldu x) false false
    (lduBody x.t (offAt x.off 1) 0 (uref x.d))
    (fun u _ _ s sp => ldSpan x.t (offAt x.off 1) 0 (uref x.d) u s sp) s

/-- LDU, immediate offset (R209). -/
def execLduI (x : LduI) (s : State) : Res :=
  issue (.lduI x) false false
    (lduBody x.t none (sext24 x.imm) (uref x.d))
    (fun u _ _ s sp => ldSpan x.t none (sext24 x.imm) (uref x.d) u s sp) s

/-- LDU, long offset (R209). -/
def execLduL (x : LduL) (s : State) : Res :=
  issue (.lduL x) false false
    (lduBody x.t none x.k.toNat (uref x.d))
    (fun u _ _ s sp => ldSpan x.t none x.k.toNat (uref x.d) u s sp) s

/-- ST (R210). -/
def execSt (x : StR) (s : State) : Res :=
  issue (.st x) false false
    (releasing (releases x.ord) (stBody x.t 0 (offAt x.off 2) 0 1))
    (fun u i g s sp => stSpan x.t 0 (offAt x.off 2) 0 1 i u g s sp) s

/-- ST, immediate offset (R209). -/
def execStI (x : StI) (s : State) : Res :=
  issue (.stI x) false false
    (stBody x.t 1 none (sext24 x.imm) 0)
    (fun u i g s sp => stSpan x.t 1 none (sext24 x.imm) 0 i u g s sp) s

/-- ST, long offset (R209). -/
def execStL (x : StL) (s : State) : Res :=
  issue (.stL x) false false
    (stBody x.t 1 none x.k.toNat 0)
    (fun u i g s sp => stSpan x.t 1 none x.k.toNat 0 i u g s sp) s

/-- ATOM (R215). -/
def execAtom (x : Atom) (s : State) : Res :=
  issue (.atom x) false false
    (releasing (releases x.ord) (atomBody x.op x.t x.scope (if x.dlu then none else some (vref x.d x.t.regs))))
    (fun u _ g s sp => atomSpan x.op x.t x.scope x.dlu u g s sp) s

/-- RED (R215). -/
def execRed (x : RedM) (s : State) : Res :=
  issue (.red x) false false
    (releasing (releases x.ord) (atomBody x.op x.t x.scope none))
    (fun u _ g s sp => atomSpan x.op x.t x.scope true u g s sp) s

/-- PREF (R218). -/
def execPref (x : PrefR) (s : State) : Res :=
  issue (.pref x) false false
    (prefBody x.target.val x.excl (offAt x.off 1) 0)
    (fun u _ _ s sp => prefSpan x.target.val x.excl (offAt x.off 1) 0 u s sp) s

/-- PREF, immediate offset (R218). -/
def execPrefI (x : PrefI) (s : State) : Res :=
  issue (.prefI x) false false
    (prefBody 0 false none (sext24 x.imm))
    (fun u _ _ s sp => prefSpan 0 false none (sext24 x.imm) u s sp) s

/-- PREF, long offset (R218). -/
def execPrefL (x : PrefL) (s : State) : Res :=
  issue (.prefL x) false false
    (prefBody 0 false none x.k.toNat)
    (fun u _ _ s sp => prefSpan 0 false none x.k.toNat u s sp) s

/-- CCTL (R219). -/
def execCctl (x : Cctl) (s : State) : Res :=
  issue (.cctl x) false false
    (cctlBody x.op.val x.addr.isSome (offAt x.off 1))
    (fun u _ _ s sp => cctlSpan x.op.val x.addr.isSome (offAt x.off 1) u s sp) s

end Sys2Proof.Machine
end

