-- ==== Sys2Proof/Machine/Sync.lean ====
section
/-!
DEFINITION. Fences, phases and waits (R220 to R223), team barriers and laps (R70, R224, R225), and memory
barriers (R226 to R228).
-/
namespace Sys2Proof.Machine
open Sys2Proof

/-! ## Fences (R220) -/

/-- The stores of a wave that are in flight. -/
def storesOf (fl : Tbl Flight) : List Nat := (fl.filter fun p => !p.2.done && p.2.kind == .access).map Prod.fst

/-- FENCE: a release form waits until the earlier accesses have been performed, those of engines for its items included
(R220, R292). -/
def fenceBody (x : Fence) (_ : Use) (s : State) (e : Ex) (p : Lanes) : Issue :=
  if x.ord != .acq && s.releaseWaits e (lanesIn p) then .hold s { kind := .fence, lanes := p }
  else
  let s := if x.ord = .acq || p = 0 then s
    else (storesOf e.wave.flights).foldl (fun s q => s.finishWave e.t e.w q) s
  .done s {} .access none

/-- FENCE (R220). -/
def execFence (x : Fence) (s : State) : Res :=
  issue (.fence x) false false (fenceBody x)
    (fun _ i _ s sp =>
      .done (if x.ord = .acq then s else (storesOf sp.flights).foldl (fun s q => s.finishSpan i q) s) {} .access none) s

/-! ## Phases (R221, R222, R414) -/

/-- A copy of the team still has writes of one of these items to send (R221, step 1). -/
def State.copyPending (s : State) (e : Ex) (lanes : List Nat) : Bool :=
  e.team.copies.any fun c => c.2.moves.any fun m => (s.itemsOf e lanes).contains m.item

/-- PHCLOSE (R221): the phase closed, once no write of the participants is untagged and a closed phase can be kept
(R414). -/
def phcloseBody (d : RegRef) (_ : Use) (s : State) (e : Ex) (p : Lanes) : Issue :=
  if p = 0 then .done s {} .result none
  else
    let s := s.escapeTeam e.t
    let die := dieOf e.team.core
    let c := s.cdie die
    if s.copyPending e (lanesIn p) || decide (c.phase - c.phdone ≥ 16) then .hold s { kind := .phclose, lanes := p }
    else .done (s.modCdie die fun c => { c with phase := c.phase + 1 }) { regs := [(d, p, fun _ => c.phase)] } .result none

/-- PHCLOSE (R221). -/
def execPhclose (x : Phclose) (s : State) : Res := peelOp (.phclose x) (phcloseBody (x.d.ref 2)) s

/-- PHDONE of a die as another die's mirror shows it (R415). -/
def State.mirror (s : State) (viewer die : Nat) : Nat := (s.mirrors.get? (16 * viewer + die)).getD 0

/-- A compute die in service in a partition device. -/
def State.dieIn (s : State) (dev die : Nat) : Bool :=
  (s.cdie die).inService && (s.fdie (die / 4)).inService && s.devOfFnd (die / 4) == dev

/-- PHWAIT (R222). -/
def phwaitBody (u : Use) (s : State) (e : Ex) (p : Lanes) : Issue :=
  let run := e.runs u p
  let traps := e.staleTraps u p
  match run with
  | [] => .done s { traps := traps, stale := e.staleSets u p } .result none
  | i0 :: _ =>
    let die := e.src u i0 0 % 16
    let dev := s.devOfCore e.team.core
    let late (i : Nat) : Bool := decide (s.mirror (dieOf e.team.core) die < e.src u i 1)
    if s.dieIn dev die then
      if run.any late then .hold s { kind := .phwait, lanes := p }
      else .done s { traps := traps, stale := e.staleSets u p } .result none
    else if e.sub.hold.isSome then
      .done s
        { traps := traps ++ (run.filter fun i => decide ((s.cdie die).phdone < e.src u i 1)).map fun i =>
            (i, { cause := cBarrierBroken, sub := 1 })
          stale := e.staleSets u p } .result none
    else .done s { traps := traps ++ run.map fun i => (i, { cause := cProtection }), stale := e.staleSets u p } .result none

/-- PHWAIT (R222). -/
def execPhwait (x : Phwait) (s : State) : Res := peelOp (.phwait x) phwaitBody s

/-- Lanes that trap while others of their instruction still wait park at once (R37). -/
def Ex.holdOthers (e : Ex) (s : State) (p : Lanes) (traps : LaneTraps) (h : Lanes → Hold) : Issue :=
  let out := lanesOf fun i => traps.any fun q => q.1 == i
  .hold (if traps.isEmpty then s else s.takeTraps e.t e.w e.k traps e.sub.wordPc false) (h (p &&& ~~~out))

/-! ## WAITV (R223) -/

/-- A budget in LTIME ticks; 0 means 2^20. -/
def budget (k : Nat) : Nat := if k = 0 then 2 ^ 20 else k

/-- The end of a held budget, or of a new one. -/
def Ex.deadline (e : Ex) (s : State) (k : Nat) : Nat :=
  (e.sub.hold.bind fun h => h.deadline).getD (s.coreTime e.team.core + budget k)

/-- WAITV reads its place for lane `i` and keeps the value where it is another (R223). -/
def waitvLane (t : ITy) (u : Use) (e : Ex) (r : Sweep) (i : Nat) : Sweep :=
  match r.s.ready { r.s.accessor e i with again := true } { n := t.width / 8, rd := true, wr := false } (e.ea u 0 none 0 i) with
  | .ok s d =>
    let v := s.peek (s.accessor e i) d (t.width / 8)
    { r with
      s := s, dests := r.dests ++ [(i, d)]
      vals := if v = e.src u i 1 % 2 ^ t.width then r.vals else Tbl.set r.vals i v }
  | .trap s q => { r with s := s, traps := r.traps ++ [(i, q)] }
  | .wait s => { r with s := s }

/-- WAITV: each participant is released by another value or by its budget (R223). `aux` of the hold is the mask
of lanes released already. -/
def waitvBody (t : ITy) (u : Use) (s : State) (e : Ex) (p : Lanes) : Issue :=
  let run := e.runs u p
  match run with
  | [] => .done s { traps := e.staleTraps u p, stale := e.staleSets u p } .result none
  | i0 :: _ =>
    let dl := e.deadline s (e.src u i0 2)
    let before : Lanes := BitVec.ofNat 16 ((e.sub.hold.map fun h => h.aux).getD 0)
    let todo := run.filter fun i => !before.getLsbD i
    let r := todo.foldl (waitvLane t u e) { s := s }
    let out := before ||| lanesOf fun i => (r.vals.get? i).isSome || r.traps.any fun q => q.1 == i
    let traps := e.staleTraps u p ++ r.traps
    let s := r.s.countConflict e.t (stashOffsets r.dests)
    if decide (dl ≤ s.coreTime e.team.core) || run.all (fun i => out.getLsbD i) then
      .done s { traps := traps, stale := e.staleSets u p } .result none
    else e.holdOthers s p traps fun m => { kind := .waitv, lanes := m, deadline := some dl, aux := out.toNat }

/-- WAITV (R223). -/
def execWaitv (x : Waitv) (s : State) : Res := peelOp (.waitv x) (waitvBody x.t) s

/-! ## Laps (R70) -/

/-- The checkpoint refers to every slot that is allocated now. -/
def Wave.held (w : Wave) : Wave :=
  { w with
    lapSpilled := false
    vregs := w.vregs.map fun p => (p.1, { p.2 with lap := true })
    uregs := w.uregs.map fun p => (p.1, { p.2 with lap := true }) }

/-- Every flag of every wave of a team is zero. -/
def Team.quiet (t : Team) : Bool := t.waves.all fun w => w.2.flags.all fun n => n == 0

/-- The flags of team barriers fall: the completion of a generation takes effect in the cycle after the last arrival issued,
in which they fall (R224). -/
def Team.settleBars (t : Team) : Team :=
  { t with waves := t.waves.map fun w =>
      (w.1, (w.2.flights.filter fun f => f.2.kind == .barrier).foldl (fun (v : Wave) f => v.finish f.1) w.2) }

/-- A lap begins (R70). -/
def Team.startLap (t : Team) : Team :=
  let ws : Tbl Wave := t.waves.map fun w => (w.1, w.2.held)
  { t with waves := ws, lap := some { waves := ws, layouts := t.layouts, tags := t.tags, bars := t.bars } }

/-- A step in which a barrier of a team completed a generation with all flags zero begins a lap. -/
def State.startLaps (old s : State) : State :=
  { s with teams := s.teams.map fun p =>
      match old.teams.get? p.1 with
      | some t =>
        if t.bars.map Barrier.gen = p.2.bars.map Barrier.gen then p
        else
          let tm := p.2.settleBars
          (p.1, if tm.quiet then tm.startLap else tm)
      | none => p }

/-- A step with the laps that its barrier completions begin. -/
def withLaps (s : State) (r : Res) : Res :=
  match r with
  | .next s' => .next (State.startLaps s s')
  | r => r

/-! ## Team barriers (R224, R225) -/

/-- Lanes of a wave that have arrived in the current generation of a barrier. -/
def Team.arrivedIn (t : Team) (b w : Nat) : Lanes := (((t.bars[b]?).getD {}).arrived.get? w).getD 0

/-- Every expected item has arrived in a barrier's generation. -/
def Team.complete (t : Team) (b : Nat) : Bool :=
  (t.waves.any fun w => w.2.live != 0) && t.waves.all fun w => w.2.live &&& ~~~t.arrivedIn b w.1 == 0

/-- A completed generation gives way to the next. -/
def Team.closeGen (t : Team) (b : Nat) : Team :=
  if t.complete b then { t with bars := listModify t.bars b fun x => { gen := x.gen + 1, arrived := [] } } else t

/-- Every barrier of a team, after lanes have left the expected set (R225). -/
def Team.closeGens (t : Team) : Team :=
  (List.range 4).foldl (fun t b =>
    if ((t.bars[b]?).getD {}).arrived.isEmpty then t else t.closeGen b) t

/-- Lanes of a wave arrive. -/
def Team.arrive (t : Team) (b w : Nat) (m : Lanes) : Team :=
  if m = 0 then t
  else { t with bars := listModify t.bars b fun x => { x with arrived := x.arrived.set w (((x.arrived.get? w).getD 0) ||| m) } }

/-- BAR.ARV: lanes that have arrived already wait for the generation and then arrive in the next (R224). -/
def barArvBody (b : Nat) (_ : Use) (s : State) (e : Ex) (p : Lanes) : Issue :=
  if s.releaseWaits e (lanesIn p) then .hold s { kind := .barArv, lanes := p }
  else
  let again := p &&& e.team.arrivedIn b e.w
  let t := (e.team.arrive b e.w (p &&& ~~~again)).closeGen b
  let left := again &&& t.arrivedIn b e.w
  let t := if left = 0 then (t.arrive b e.w again).closeGen b else t
  let s := s.modTeam e.t fun _ => t
  if left = 0 then .done s {} .barrier none else .hold s { kind := .barArv, lanes := left }

/-- BAR.ARV (R224). -/
def execBarArv (x : BarOp) (s : State) : Res := withLaps s (peelOp (.barArv x) (barArvBody x.bar.val) s)

/-- BAR.WAIT: lanes whose generation has not completed wait (R224). -/
def barWaitBody (b : Nat) (_ : Use) (s : State) (e : Ex) (p : Lanes) : Issue :=
  let left := p &&& e.team.arrivedIn b e.w
  if left = 0 then .done s {} .barrier none else .hold s { kind := .barWait, lanes := left }

/-- BAR.WAIT (R224). -/
def execBarWait (x : BarOp) (s : State) : Res := peelOp (.barWait x) (barWaitBody x.bar.val) s

/-! ## Memory barriers (R226 to R228) -/

/-- EXPECT, GEN, ARRIVED, DIEMASK and BROKEN of a barrier word (Table 7.6). -/
structure BarWord where
  expect : Nat
  gen : Nat
  arrived : Nat
  dies : Nat
  broken : Bool

/-- The fields of a barrier word. -/
def BarWord.of (v : Nat) : BarWord :=
  ⟨v % 2 ^ 32, v / 2 ^ 32 % 2 ^ 32, v / 2 ^ 64 % 2 ^ 32, v / 2 ^ 96 % 2 ^ 16, toBit (v / 2 ^ 112)⟩

/-- A barrier word written back; its reserved bits are zero. -/
def BarWord.word (b : BarWord) : Nat :=
  b.expect % 2 ^ 32 + b.gen % 2 ^ 32 * 2 ^ 32 + b.arrived % 2 ^ 32 * 2 ^ 64 + b.dies % 2 ^ 16 * 2 ^ 96 +
    bit b.broken * 2 ^ 112

/-- `n` arrivals at a word; `waiting` is the mask of dies with waiting lanes (R227). -/
def BarWord.arrive (b : BarWord) (n die waiting : Nat) : BarWord :=
  if b.broken then b
  else if b.expect = 0 then { b with broken := true }
  else
    (List.range n).foldl (fun b _ =>
      if (b.arrived + 1) % 2 ^ 32 = b.expect then
        { b with arrived := 0, gen := (b.gen + 1) % 2 ^ 32, dies := waiting }
      else { b with arrived := (b.arrived + 1) % 2 ^ 32 }) { b with dies := Nat.lor b.dies (2 ^ die) }

/-- What an access to a barrier word does. -/
def barmWant : Want := { n := 16, rd := true, wr := true, home := true }

/-- A barrier word lies in device memory of the partition device (R226). -/
def State.barmPlace (s : State) (x : Accessor) (ea : Nat) : Except Trap (LineRef × Nat) :=
  match s.resolve x barmWant ea with
  | .error t => .error (if ea ≥ apertureBase && ea < 2 ^ 56 && ea % 16 = 0 then { cause := cProtection, addr := ea } else t)
  | .ok (.mem l place) =>
    if l.dev = s.ctxDev x.ctx && place < 2 ^ 70 then .ok (l, place) else .error { cause := cProtection, addr := ea }
  | .ok _ => .error { cause := cProtection, addr := ea }

/-- The barrier word made ready at its home. -/
def State.barmReady (s : State) (x : Accessor) (ea : Nat) : Got Nat :=
  match s.barmPlace x ea with
  | .error t => .trap s t
  | .ok (l, place) =>
    if s.workHolds x ea 16 then .wait s
    else
    match s.obtain l ⟨x.core, 0⟩ .homeWrite with
    | (s, false) => .wait s
    | (s, true) =>
      if s.poison.contains (place / 16) then .trap s { cause := cPoison, addr := ea }
      else .ok { s with barm := insertNat s.barm place } place

/-- The dies that have lanes registered as waiting on a barrier word (R227). -/
def State.barmWaiters (s : State) (place : Nat) : Nat :=
  s.teams.foldl (fun m t =>
    let here := t.2.waves.any fun w => w.2.subs.any fun k =>
      match k.2.hold with
      | none => false
      | some h =>
        h.kind == .barmWait && (lanesIn h.lanes).any fun i =>
          !(BitVec.ofNat 16 (Nat.lor h.aux h.value.toNat) : Lanes).getLsbD i &&
          (match s.barmPlace { ctx := t.2.ctx, core := t.2.core, team := some t.1 }
              (((((h.src.get? i).getD [])[0]?).map Prod.fst).getD 0) with
            | .ok (_, q) => q == place
            | .error _ => false)
    if here then Nat.lor m (2 ^ dieOf t.2.core) else m) 0

/-- The lanes of an instruction with the barrier words they name. -/
def State.barmAll (s : State) (e : Ex) (u : Use) (lanes : List Nat) : Sweep :=
  lanes.foldl (fun (r : Sweep) i =>
    let ea := e.src u i 0 % 2 ^ 64
    match r.s.barmReady (r.s.accessor e i) ea with
    | .ok s place => { r with s := s, vals := Tbl.set r.vals i place }
    | .trap s t => { r with s := s, traps := r.traps ++ [(i, t)] }
    | .wait s => { r with s := s, wait := true }) { s := s }

/-- Every word of `vals` takes the arrivals of the lanes that name it, by lanes of `core` (R227). -/
def State.barmArrive (s : State) (core : Nat) (vals : Tbl Nat) : State :=
  (vals.map Prod.snd).eraseDups.foldl (fun s place =>
    let n := (vals.filter fun q => q.2 == place).length
    let b := (BarWord.of (s.mem.getN place 16)).arrive n (dieOf core) (s.barmWaiters place)
    { s with mem := s.mem.putN place 16 b.word }) s

/-- The die of `core` is entered in every word of `vals` as one with waiting lanes (R228). -/
def State.barmRegister (s : State) (core : Nat) (vals : Tbl Nat) : State :=
  (vals.map Prod.snd).eraseDups.foldl (fun s place =>
    let b := BarWord.of (s.mem.getN place 16)
    { s with mem := s.mem.putN place 16 ({ b with dies := Nat.lor b.dies (2 ^ dieOf core) } : BarWord).word }) s

/-- BARM.ARV (R227). -/
def barmArvBody (u : Use) (s : State) (e : Ex) (p : Lanes) : Issue :=
  let run := e.runs u p
  let s := if run.isEmpty then s else s.escapeTeam e.t
  let r := s.barmAll e u run
  if r.wait then .hold r.s (waitHold p)
  else
    let s := r.s.barmArrive e.team.core r.vals
    let (s, tag) := if r.vals.isEmpty then (s, none) else s.tagWrite e.team.core
    .done s { traps := e.staleTraps u p ++ r.traps, stale := e.staleSets u p } .access tag

/-- BARM.ARV (R227). -/
def execBarmArv (x : BarmArv) (s : State) : Res := peelOp (.barmArv x) (releasing true barmArvBody) s

/-- A 32-bit difference taken as signed is positive (R228). -/
def genPast (gen g : Nat) : Bool :=
  let d := (gen + 2 ^ 32 - g % 2 ^ 32) % 2 ^ 32
  decide (0 < d ∧ d < 2 ^ 31)

/-- BARM.WAIT (R228): a lane for which GEN has passed its generation and BROKEN stands is taken as released by GEN (log 89); of
the hold, `aux` is the mask of lanes released by GEN and `value` that of lanes released by
BROKEN under .STAT; without it such lanes trap at once. -/
def barmWaitBody (stat : Option RegRef) (u : Use) (s : State) (e : Ex) (p : Lanes) : Issue :=
  let run := e.runs u p
  let byGen : Lanes := BitVec.ofNat 16 ((e.sub.hold.map fun h => h.aux).getD 0)
  let byBrk : Lanes := BitVec.ofNat 16 ((e.sub.hold.map fun h => h.value.toNat).getD 0)
  let todo := run.filter fun i => !(byGen ||| byBrk).getLsbD i
  let r := s.barmAll e u todo
  let fresh := (e.sub.hold.map fun h => h.kind != .barmWait).getD true
  if r.wait && fresh then .hold r.s { kind := .access, lanes := p }
  else
    let s := if fresh then r.s.barmRegister e.team.core r.vals else r.s
    let word (i : Nat) : Option BarWord := (r.vals.get? i).map fun place => BarWord.of (s.mem.getN place 16)
    let gen := byGen ||| lanesOf fun i => ((word i).map fun b => genPast b.gen (e.src u i 1)).getD false
    let brk := byBrk ||| lanesOf fun i => !gen.getLsbD i && ((word i).map fun b => b.broken).getD false
    let broken : LaneTraps :=
      if stat.isSome then []
      else (todo.filter fun i => brk.getLsbD i).map fun i => (i, { cause := cBarrierBroken, addr := e.src u i 0 % 2 ^ 64 })
    let traps := r.traps ++ broken
    let gone := lanesOf fun i => traps.any fun q => q.1 == i
    if run.all fun i => (gen ||| brk ||| gone).getLsbD i then
      .done s
        { traps := e.staleTraps u p ++ traps
          regs := match stat with
            | some d => [(d, p, fun i => if gen.getLsbD i then 0 else 1)]
            | none => []
          stale := e.staleSets u p } .result none
    else
      e.holdOthers s p (e.staleTraps u p ++ traps) fun m =>
        { kind := .barmWait, lanes := m, aux := gen.toNat, value := BitVec.ofNat 64 brk.toNat }

/-- BARM.WAIT (R228). -/
def execBarmWait (x : BarmWait) (s : State) : Res :=
  peelOp (.barmWait x) (barmWaitBody (x.stat.map fun d => vref d 1)) s

end Sys2Proof.Machine
end

