-- ==== Sys2Proof/Machine/Stash.lean ====
section
/-!
DEFINITION. Instructions executed once for a sub-wave (R242), pool entries (R93, R105), and the stash map: SMAP and
the operations by key (R230 to R240).
-/
namespace Sys2Proof.Machine
open Sys2Proof

/-! ## Once for a sub-wave (R242) -/

/-- A *once* instruction: its uniform operands by number; REG_STALE strikes every participant (R65). -/
def once (u : Use) (s : State) (e : Ex) (p : Lanes) (k : (Nat → Nat) → LaneRes → Issue) : Issue :=
  if p = 0 then .done s {} .result none
  else
    let i := lowLane p
    if e.wave.strictReg && e.stale u i then .done s { traps := allLanes p { cause := cRegStale } } .result none
    else k (fun j => e.src u i j) { stale := e.stale u i }

/-- The same trap in every participant. -/
def strike (s : State) (p : Lanes) (r : LaneRes) (t : Trap) : Issue :=
  .done s { r with traps := allLanes p t } .result none

/-- One value in every participant, or in the uniform destination. -/
def LaneRes.give (r : LaneRes) (d : RegRef) (p : Lanes) (v : Nat) : LaneRes := { r with regs := [(d, p, fun _ => v)] }

/-- The issuing sub-wave as an accessor, for reads made for all its lanes. -/
def State.accessorOf (s : State) (e : Ex) : Accessor := s.accessor e (lowLane e.sub.mask)

/-! ## Pool entries (R93, R105) -/

/-- A pool entry: the address of its header and its words 1 onwards. -/
structure PoolEntry where
  addr : Nat
  len : Nat
  words : List Nat

/-- Successive 8-byte words read as loads. -/
def State.loadWords (s : State) (x : Accessor) (ea : Nat) : Nat → Got (List Nat)
  | 0 => .ok s []
  | n + 1 =>
    match s.load x 8 ea with
    | .trap s t => .trap s t
    | .wait s => .wait s
    | .ok s v =>
      match State.loadWords s x (ea + 8) n with
      | .ok s l => .ok s (v :: l)
      | r => r

/-- The pool entry of an index, checked under R93 for its kind; `n` words are read, or the entry's length. -/
def State.pool (s : State) (x : Accessor) (va idx kind : Nat) (n : Option Nat) : Got PoolEntry :=
  let bad (s : State) (a : Nat) : Got PoolEntry := .trap s { cause := cIllegal, sub := 1, addr := a }
  match s.load x 4 va with
  | .trap s t => .trap s t
  | .wait s => .wait s
  | .ok s count =>
    if count ≤ idx then bad s va
    else
      match s.load x 4 (va + 8 + 4 * idx) with
      | .trap s t => .trap s t
      | .wait s => .wait s
      | .ok s off =>
        match s.load x 8 (va + off) with
        | .trap s t => .trap s t
        | .wait s => .wait s
        | .ok s h =>
          let len := h / 2 ^ 16 % 2 ^ 16
          if h % 256 ≠ kind ∨ h / 256 % 256 ≠ 0 ∨ h / 2 ^ 32 ≠ 0 then bad s (va + off)
          else
            match s.loadWords x (va + off + 8) (n.getD (len - 1)) with
            | .trap s t => .trap s t
            | .wait s => .wait s
            | .ok s l => .ok s ⟨va + off, len, l⟩

/-- The pool of the issuing team's image. -/
def State.poolOf (s : State) (e : Ex) (idx kind : Nat) (n : Option Nat) : Got PoolEntry :=
  s.pool (s.accessorOf e) (((s.grids.get? e.team.grid).map fun g => g.poolVa).getD 0) idx kind n

/-- What follows a read that may trap every participant or hold them. -/
def Got.andThen {α : Type} (r : Got α) (e : Ex) (p : Lanes) (q : LaneRes) (k : State → α → Issue) : Issue :=
  match r with
  | .trap s t => strike s p q t
  | .wait s => .hold s (waitHold p)
  | .ok s a => k s a

/-- Word `i` of a pool entry's content, from 1. -/
def PoolEntry.word (a : PoolEntry) (i : Nat) : Nat := (a.words[i - 1]?).getD 0

/-! ## SMAP (R230 to R233) -/

/-- A map entry as a template describes it (Table 7.7). -/
def mapOf (t : PoolEntry) (e : Ex) (base key : Nat) (rw retain : Bool) : MapEntry :=
  let w1 := t.word 1
  let w2 := t.word 2
  let w3 := t.word 3
  { st := .live e.t, ctx := e.team.ctx, key := key % 2 ^ 32, base := base, rw := rw, retain := retain
    allocBase := e.team.stashBase
    rstride := w1 % 2 ^ 32, foff := w1 / 2 ^ 32 % 256, fbytes := w1 / 2 ^ 40 % 128
    rpr := w2 % 2 ^ 24, rowstride := w2 / 2 ^ 24
    rows := w3 % 2 ^ 20, fmt := w3 / 2 ^ 60
    lo := e.team.stashBase + w3 / 2 ^ 20 % 2 ^ 20 * 16, size := w3 / 2 ^ 40 % 2 ^ 20 * 16 }

/-- Two entries have the same base, shape and mode in the same stash range. -/
def MapEntry.same (a b : MapEntry) : Bool :=
  a.base == b.base && a.rw == b.rw && a.rstride == b.rstride && a.foff == b.foff && a.fbytes == b.fbytes &&
  a.rpr == b.rpr && a.rowstride == b.rowstride && a.rows == b.rows && a.fmt == b.fmt && a.lo == b.lo &&
  a.size == b.size

/-- Two ranges of stash bytes overlap. -/
def MapEntry.overlaps (a b : MapEntry) : Bool := decide (a.lo < b.lo + b.size ∧ b.lo < a.lo + a.size)

/-- The live entries of a team. -/
def Core.liveOf (c : Core) (t : Nat) : Tbl MapEntry := c.entries.filter fun p => p.2.st == .live t

/-- Checks 2 to 7 of Table 7.8; checks 8 and 9 count only against a new entry. -/
def smapCheck (c : Core) (e : Ex) (m : MapEntry) : Option Trap :=
  let live := c.liveOf e.t
  let key := live.find? fun p => p.2.key == m.key
  if m.fbytes = 0 ∨ 64 < m.fbytes ∨ m.rpr = 0 ∨ m.rows = 0 ∨ m.size = 0 ∨ (9 ≤ m.fmt ∧ m.fmt ≤ 14) then
    some { cause := cMapShape }
  else if m.rw && !((m.rpr == 1 || decide (m.fbytes ≤ m.rstride)) &&
      (m.rows == 1 || decide ((m.rpr - 1) * m.rstride + m.fbytes ≤ m.rowstride))) then
    some { cause := cMapShape, sub := 1 }
  else if m.size ≠ ceilDiv m.count 16 * 16 then some { cause := cMapShape, sub := 2 }
  else if e.team.stashBase + e.team.stashBytes < m.lo + m.size then
    some { cause := cStashRange, addr := windowBase + e.team.stashBytes }
  else if live.any fun p => p.2.key != m.key && p.2.overlaps m then some { cause := cMapShape, sub := 4 }
  else
    match key with
    | some (_, k) => if k.same m && k.retain == m.retain then none else some { cause := cMapShape, sub := 5 }
    | none =>
      if 8 ≤ live.length then some { cause := cMapShape, sub := 3 }
      else if 32 ≤ (c.entries.filter fun p => match p.2.st with
          | .live _ => true
          | .retained | .displaced => false).length then some { cause := cMapShape, sub := 6 }
      else none

/-- The lowest-numbered free entry of a core. -/
def Core.freeEntry? (c : Core) : Option Nat := (List.range 32).find? fun m => (c.entries.get? m).isNone

/-- The least recently used retained entry. -/
def Core.oldestRetained (c : Core) : Option Nat :=
  ((c.entries.filter fun p => p.2.st == .retained).foldl (fun (b : Option (Nat × MapEntry)) p =>
    match b with
    | none => some p
    | some q => if p.2.lastUse < q.2.lastUse then some p else some q) none).map Prod.fst

/-- A new entry in place: retained entries that it overlaps are displaced, its sectors are INV and its scratch
content is dropped (R233, R459). -/
def State.installEntry (s : State) (core n : Nat) (m : MapEntry) : State :=
  let s := ((s.core core).entries.filter fun p => p.2.st == .retained && p.2.overlaps m).foldl
    (fun s p => s.displace core p.1) s
  let s := (List.range (m.size / 16)).foldl (fun s j =>
    let sec := m.lo / 16 + j
    if s.sectorState core sec = some .wb then s else s.dropSector core sec) s
  s.modCore core fun c => { c with entries := c.entries.set n { m with lastUse := s.cycle } }

/-- A SMAP that passes its checks (R233). False: it waits for an entry. -/
def State.resolveMap (s : State) (e : Ex) (m : MapEntry) : State × Bool :=
  let core := e.team.core
  let c := s.core core
  if (c.liveOf e.t).any fun p => p.2.key == m.key then (s, true)
  else
    match c.entries.find? fun p => p.2.st == .retained && p.2.ctx == m.ctx && p.2.key == m.key && p.2.same m with
    | some (n, _) =>
      (s.modCore core fun c => { c with entries := c.entries.modify n fun k =>
        { k with st := .live e.t, retain := m.retain, reused := true, lastUse := s.cycle } }, true)
    | none =>
      match c.freeEntry? with
      | some n => (s.installEntry core n m, true)
      | none =>
        if (e.sub.hold.map fun h => h.kind == HoldKind.smap).getD false && c.entries.any fun p => p.2.st == .displaced then (s, false)
        else
          match c.oldestRetained with
          | none => (s, false)
          | some n =>
            let s := s.displace core n
            match (s.core core).freeEntry? with
            | some n => (s.installEntry core n m, true)
            | none => (s, false)

/-- SMAP (R230 to R233). -/
def smapBody (x : Smap) (u : Use) (s : State) (e : Ex) (p : Lanes) : Issue :=
  once u s e p fun src r =>
    let s := s.escapeTeam e.t
    (s.poolOf e (src 0) 2 (some 3)).andThen e p r fun s t =>
      if t.word 1 / 2 ^ 47 ≠ 0 then strike s p r { cause := cIllegal, sub := 1, addr := t.addr }
      else
        let m := mapOf t e (src 1) (src 2) x.rw x.retain
        match smapCheck (s.core e.team.core) e m with
        | some t => strike s p r t
        | none =>
          match s.resolveMap e m with
          | (s, true) => .done s r .result none
          | (s, false) => .hold s { kind := .smap, lanes := p }

/-- SMAP (R230). -/
def execSmap (x : Smap) (s : State) : Res := peelOp (.smap x) (smapBody x) s

/-! ## Operations by key (R239, R240) -/

/-- The live entry of the issuing team with a key. -/
def State.keyed (s : State) (e : Ex) (key : Nat) : Option (Nat × MapEntry) :=
  ((s.core e.team.core).liveOf e.t).find? fun p => p.2.key == key % 2 ^ 32

/-- An operation on the entry that a key names; a key that names none has no effect. -/
def keyBody (f : State → Nat → Nat → MapEntry → State) (u : Use) (s : State) (e : Ex) (p : Lanes) : Issue :=
  once u s e p fun src r =>
    match s.keyed e (src 0) with
    | none => .done s r .result none
    | some (n, m) => .done (f s e.team.core n m) r (.stash e.team.core n) none

/-- Every INV sector of an entry is filled, without trapping (SFILL). -/
def State.fillEntry (s : State) (core n : Nat) (m : MapEntry) : State :=
  (List.range (m.size / 16)).foldl (fun s j =>
    let sec := m.lo / 16 + j
    let s := if s.sectorState core sec = some .wb then s.writebackDone core sec else s
    if (s.sectorState core sec).isSome then s
    else
      match s.fillSector core sec n m with
      | .ok s _ => s
      | .trap s _ => s
      | .wait s => s.setSector core sec (some .fill) n) s

/-- SUNMAP (R239): the entry is displaced; the lap becomes unrecoverable (R70). -/
def execSunmap (x : KeyOp) (s : State) : Res :=
  peelOp (.sunmap x) (fun u s e p =>
    keyBody (fun s c n _ => s.displace c n) u (if p = 0 then s else s.escapeTeam e.t) e p) s

/-- SFLUSH (R239). -/
def execSflush (x : KeyOp) (s : State) : Res := peelOp (.sflush x) (keyBody fun s c n _ => s.flush c n) s

/-- SFILL (R239). -/
def execSfill (x : KeyOp) (s : State) : Res := peelOp (.sfill x) (keyBody fun s c n m => s.fillEntry c n m) s

/-- SDISCARD (R239). -/
def execSdiscard (x : KeyOp) (s : State) : Res := peelOp (.sdiscard x) (keyBody fun s c n _ => s.discard c n) s

/-- The word of SQUERY (Table 7.11). -/
def squeryWord (c : Core) (n : Nat) (m : MapEntry) : Nat :=
  let count (f : Nat × Sector → Bool) : Nat := (c.sectors.filter f).length
  let valid := count fun p => p.2.entry == n && (p.2.st == .clean || p.2.st == .dirty)
  let dirty := count fun p => p.2.entry == n && p.2.st == .dirty
  let wb := count fun p => p.2.st == .wb && decide (m.lo ≤ 16 * p.1 ∧ 16 * p.1 < m.lo + m.size)
  n + 2 ^ 5 + bit m.rw * 2 ^ 6 + bit m.retain * 2 ^ 7 + bit m.reused * 2 ^ 8 + m.fmt * 2 ^ 9 + valid * 2 ^ 13 +
    dirty * 2 ^ 30 + min wb 131071 * 2 ^ 47

/-- SQUERY (R240). -/
def squeryBody (d : RegRef) (u : Use) (s : State) (e : Ex) (p : Lanes) : Issue :=
  once u s e p fun src r =>
    .done s (r.give d p (match s.keyed e (src 0) with
      | none => 0
      | some (n, m) => squeryWord (s.core e.team.core) n m)) .result none

/-- SQUERY (R240). -/
def execSquery (x : Squery) (s : State) : Res := peelOp (.squery x) (squeryBody (x.d.ref 2)) s

end Sys2Proof.Machine
end

