-- ==== Sys2Proof/Machine/Copy.lean ====
section
/-!
DEFINITION. The copy group (R244 to R258): the rendezvous, validation, data movement (R247, R373), counters and
tags, and the placing of transfer commands (R256, R377).
-/
namespace Sys2Proof.Machine
open Sys2Proof

/-! ## Tags -/

/-- The state of a copy tag. -/
def Team.tag (t : Team) (n : Nat) : TagState := (t.tags[n]?).getD .idle
/-- A tag takes another state. -/
def Team.setTag (t : Team) (n : Nat) (st : TagState) : Team := { t with tags := listSet t.tags n st }

/-- Copies that are BUSY on a core (R373). -/
def State.busyCopies (s : State) (core : Nat) : Nat :=
  s.teams.foldl (fun n p =>
    if p.2.on core then n + (p.2.copies.filter fun c => p.2.tag c.1 == .busy).length else n) 0

/-- A copy on a team's tag that has completed its rendezvous and waits for the engine, with its place in the order of
completion. -/
def Team.queuedCopies (t : Team) : List Nat :=
  t.copies.filterMap fun c => if t.tag c.1 == .opened then c.2.ready else none

/-- A completed rendezvous becomes BUSY when fewer than 16 copies of the core are and none completed before it waits
(R373). -/
def State.startCopy (s : State) (t tag : Nat) : State :=
  match (s.teams.get? t).bind fun tm => (tm.copies.get? tag).map fun c => (tm, c) with
  | none => s
  | some (tm, c) =>
    match c.ready with
    | none => s
    | some r =>
      let first := !(s.teams.any fun p => p.2.on tm.core && p.2.queuedCopies.any fun q => decide (q < r))
      if tm.tag tag == .opened && tm.state == .resident && decide (s.busyCopies tm.core < 16) && first then
        s.modTeam t fun tm => tm.setTag tag .busy
      else s

/-- W distinct waves have arrived; for W = 0 every created wave with a present item that has not exited (R245). -/
def Team.gathered (t : Team) (c : Copy) : Bool :=
  if c.w = 0 then t.waves.all fun w => w.2.live == 0 || c.waves.contains w.1
  else decide (c.w ≤ c.waves.length)

/-- A rendezvous that all its waves have reached is complete, and its copy starts when the engine has room. -/
def State.checkCopy (s : State) (t tag : Nat) : State :=
  match (s.teams.get? t).bind fun tm => (tm.copies.get? tag).map fun c => (tm, c) with
  | none => s
  | some (tm, c) =>
    if c.ready.isNone && tm.tag tag == .opened && tm.gathered c then
      let s := s.modTeam t fun tm => { tm with copies := tm.copies.modify tag fun c => { c with ready := some s.nextId } }
      State.startCopy { s with nextId := s.nextId + 1 } t tag
    else s

/-- Every open rendezvous of a team, after a wave has lost its last item. -/
def State.checkCopies (s : State) (t : Nat) : State :=
  match s.teams.get? t with
  | none => s
  | some tm => tm.copies.foldl (fun s c => s.checkCopy t c.1) s

/-! ## Validation of addresses (R246) -/

/-- A run of bytes that a copy will use: first address, length, alignment, and whether it is written. -/
structure Run where
  ea : Nat
  n : Nat
  align : Nat
  wr : Bool

/-- The addresses at which a run enters the 16-byte units that it meets. -/
def Run.units (r : Run) : List Nat :=
  r.ea :: (List.range (ceilDiv (r.ea % 16 + r.n) 16 - 1)).map fun k => r.ea / 16 * 16 + 16 * (k + 1)

/-- A page that carries SEAL, which no alias takes away, holds the address: .pool (R105, R315). -/
def State.sealed (s : State) (x : Accessor) (ea : Nat) : Bool :=
  let c := s.canon (s.ctxDev x.ctx) (s.ctxName x.ctx).2 ea
  ((s.page? (s.ctxDev x.ctx) c.1 c.2.1).map fun p => toBit (Nat.land p.perm c.2.2 / 8)).getD false

/-- One row of Table 7.4 for a run: 1, 2, 3, or 5 for stash and .pool addresses. -/
def State.rowFault (s : State) (x : Accessor) (row : Nat) (r : Run) : Option Trap :=
  match row with
  | 1 => if 2 ^ 56 < r.ea + r.n then some { cause := cPageFault, addr := max r.ea (2 ^ 56) } else none
  | 2 => if r.ea % r.align ≠ 0 then some { cause := cMisaligned, addr := r.ea } else none
  | 3 =>
    r.units.findSome? fun a =>
      match s.region x a with
      | .error t => some t
      | .ok (some (.acc _ _)) => some { cause := cProtection, addr := a }
      | .ok _ => none
  | _ =>
    if !r.wr then none
    else
      r.units.findSome? fun a =>
        match s.region x a with
        | .ok (some (.stash core off)) =>
          if (((s.core core).entryAt off).map fun e => !e.2.rw).getD false then
            some { cause := cProtection, addr := a }
          else none
        | .ok none => if s.sealed x a then some { cause := cProtection, addr := a } else none
        | _ => none

/-- The first refusal of some runs, row by row. -/
def State.runFault (s : State) (x : Accessor) (rs : List Run) : Option Trap :=
  [1, 2, 3, 5].findSome? fun row => rs.findSome? fun r => s.rowFault x row r

/-- The rules of the address of a counter that is read (R249, R258). -/
def counterRead (ea : Nat) : Option Trap :=
  if ea ≥ 2 ^ 56 then some { cause := cPageFault, addr := ea }
  else if ea % 8 ≠ 0 then some { cause := cMisaligned, addr := ea }
  else if ea ≥ apertureBase then some { cause := cProtection, addr := ea }
  else none

/-- The rules of a counter's address (R249); one that is incremented does not lie in .pool. -/
def State.counterFault (s : State) (x : Accessor) (ea : Nat) : Option Trap :=
  (counterRead ea).or (if s.sealed x ea then some { cause := cProtection, addr := ea } else none)

/-- A value outside its limits (Table 8.1). -/
def badValue (addr : Nat) : Trap := { cause := cIllegal, sub := 3, addr := addr }

/-! ## Slices -/

/-- What validation makes of the slices of an arrival. -/
structure Slices where
  s : State
  moves : List Move := []
  ok : Nat := 0
  traps : LaneTraps := []
  wait : Bool := false

/-- Lane by lane, in ascending order (R376). -/
def eachSlice (s : State) (lanes : List Nat) (f : Nat → Except Trap (List Move)) : Slices :=
  lanes.foldl (fun (r : Slices) i =>
    match f i with
    | .error t => { r with traps := r.traps ++ [(i, t)] }
    | .ok m => { r with moves := r.moves ++ m, ok := r.ok + 1 }) { s := s }

/-- A fault of every slice. -/
def noSlice (s : State) (lanes : List Nat) (t : Trap) : Slices := { s := s, traps := lanes.map fun i => (i, t) }

/-- A run of bytes that a copy moves for an accessor's item. -/
def Accessor.move (x : Accessor) (src : MoveSrc) (dst len : Nat) : Move :=
  { src := src, dst := dst, len := len, item := x.items.headD 0 }

/-- The slice of a CPY (R251). -/
def cpySlice (s : State) (e : Ex) (u : Use) (i : Nat) : Except Trap (List Move) :=
  let x := s.accessor e i
  let src := e.src u i 0 % 2 ^ 64
  let dst := e.src u i 1 % 2 ^ 64
  let len := e.src u i 2 % 2 ^ 32
  if len % 16 ≠ 0 ∨ len < 16 ∨ 1048576 < len then .error (badValue 0)
  else
    match s.runFault x [⟨src, len, 16, false⟩, ⟨dst, len, 16, true⟩] with
    | some t => .error t
    | none => .ok [x.move (.addr src) dst len]

/-! ## Shape records and coordinate programs (R252 to R254) -/

/-- A tensor shape record (Table 8.3). -/
structure Shape where
  addr : Nat
  base : Nat
  esize : Nat
  rank : Nat
  permit : Bool
  fill : Nat
  extents : List Nat
  strides : List Int

/-- Bytes of an element. -/
def Shape.bytes (h : Shape) : Nat := 2 ^ h.esize
/-- The fill element (R252). -/
def Shape.fillBytes (h : Shape) : List Byte :=
  if h.esize = 6 then List.replicate 64 0
  else if h.esize = 3 then natLe 8 (h.fill + 2 ^ 32 * h.fill)
  else natLe h.bytes h.fill
/-- A coordinate is out of range. -/
def Shape.outside (h : Shape) (cs : List Int) : Bool :=
  (List.range h.rank).any fun k =>
    decide ((cs[k]?).getD 0 < 0) || decide (((h.extents[k]?).getD 0 : Int) ≤ (cs[k]?).getD 0)
/-- The address of an element. -/
def Shape.address (h : Shape) (cs : List Int) : Nat :=
  wrap 64 ((List.range h.rank).foldl (fun a k => a + (cs[k]?).getD 0 * (h.strides[k]?).getD 0) (h.base : Int))

/-- The fields of a shape record with their checks (R93, R252). -/
def shapeOf (p : PoolEntry) : Except Trap Shape :=
  let w := p.word 2
  let h : Shape :=
    { addr := p.addr, base := p.word 1, esize := w % 16, rank := w / 16 % 8, permit := toBit (w / 128)
      fill := w / 2 ^ 32
      extents := (List.range 5).map fun k => p.word (3 + k) % 2 ^ 24
      strides := (List.range 5).map fun k =>
        let v : Nat := p.word (3 + k) / 2 ^ 24
        if v < 2 ^ 39 then (v : Int) else (v : Int) - 2 ^ 40 }
  let es := h.bytes
  if w / 256 % 2 ^ 24 ≠ 0 then .error { cause := cIllegal, sub := 1, addr := p.addr }
  else if p.len = 8 && (h.esize ≤ 3 || h.esize == 6) && decide (1 ≤ h.rank ∧ h.rank ≤ 5) && h.base % es == 0 &&
      (h.extents.take h.rank).all (fun n => n != 0) && h.strides.all (fun n => decide (n % (es : Int) = 0)) then
    .ok h
  else .error (badValue p.addr)

/-- OP, K and IMM of a micro-operation (Table 8.4). -/
def opOf (w : Nat) : Nat := w % 256
/-- K. -/
def kOf (w : Nat) : Nat := w / 256 % 8
/-- IMM. -/
def immOf (w : Nat) : Int :=
  let v : Nat := w / 2 ^ 16 % 2 ^ 32
  if v < 2 ^ 31 then (v : Int) else (v : Int) - 2 ^ 32

/-- The words of a program, checked (R253): `at_` is the number of the first word given, `opened` the words of the loops that
are open, innermost first, `ended` whether an END stands before it. Of several loops that are never closed the innermost is
named, and before the want of an END (log 90). -/
def programFault (addr : Nat) : Nat → List Nat → Bool → List Nat → Option Trap
  | _, n :: _, _, [] => some (badValue (addr + 8 * n))
  | _, [], ended, [] => if ended then none else some (badValue addr)
  | at_, opened, ended, w :: r =>
    let here := badValue (addr + 8 * at_)
    if w / 2 ^ 11 % 32 ≠ 0 ∨ w / 2 ^ 48 ≠ 0 then some { cause := cIllegal, sub := 1, addr := addr }
    else if opOf w > 6 ∨ kOf w > 4 then some here
    else if opOf w = 3 then
      if immOf w < 1 ∨ 2 ^ 24 < immOf w ∨ 5 ≤ opened.length then some here
      else programFault addr (at_ + 1) (at_ :: opened) ended r
    else if opOf w = 4 then
      match opened with
      | [] => some here
      | _ :: o => programFault addr (at_ + 1) o ended r
    else if opOf w = 5 ∧ (immOf w < 1 ∨ 4096 < immOf w) then some here
    else programFault addr (at_ + 1) opened (ended || opOf w == 0) r

/-- A run of a coordinate program: the next word, c0 to c4, d, the open loops with the iterations left, the elements
emitted, the pieces moved, and how it ended. -/
structure CoordRun where
  pc : Nat := 0
  c : List Int
  d : Int
  loops : List (Nat × Nat) := []
  count : Nat := 0
  moves : List Move := []
  stop : Option (Option Trap) := none

/-- One micro-operation (Table 8.5); `el` checks an element and gives its piece. -/
def CoordRun.step (r : CoordRun) (h : Shape) (addr : Nat) (ws : List Nat) (el : List Int → Int → Except Trap (List Move)) :
    CoordRun :=
  let w := (ws[r.pc]?).getD 0
  let imm := immOf w
  let k := kOf w
  let next := { r with pc := r.pc + 1 }
  match opOf w with
  | 1 => { next with c := listSet r.c k imm }
  | 2 => { next with c := listModify r.c k (· + imm) }
  | 3 => { next with loops := (r.pc, imm.toNat) :: r.loops }
  | 4 =>
    match r.loops with
    | (p, n) :: o => if n > 1 then { r with pc := p + 1, loops := (p, n - 1) :: o } else { next with loops := o }
    | [] => next
  | 5 =>
    let n := imm.toNat
    if 2 ^ 20 < r.count + n then { r with stop := some (some (badValue (addr + 8 * (r.pc + 1)))) }
    else
      let q := (List.range n).foldl (fun (q : Except Trap (List Move)) (j : Nat) =>
        match q with
        | .error t => .error t
        | .ok l =>
          match el (listModify r.c 0 (· + (j : Int))) (r.d + (j : Int) * h.bytes) with
          | .error t => .error t
          | .ok m => .ok (l ++ m)) (.ok [])
      match q with
      | .error t => { r with stop := some (some t) }
      | .ok l => { next with d := r.d + imm * h.bytes, count := r.count + n, moves := r.moves ++ l }
  | 6 => { next with d := r.d + imm }
  | _ => { r with stop := some none }

/-- A run to its END; no run has more steps than five loops of 2^24 iterations over 16 words. -/
def CoordRun.go (h : Shape) (addr : Nat) (ws : List Nat) (el : List Int → Int → Except Trap (List Move)) :
    Nat → CoordRun → CoordRun
  | 0, r => r
  | n + 1, r => if r.stop.isSome then r else CoordRun.go h addr ws el n (r.step h addr ws el)

/-- One element of a CPYT (R254): `d` is its team-window offset. -/
def cpytElement (s : State) (x : Accessor) (stash : Nat) (h : Shape) (store : Bool) (c : List Int) (d : Int) :
    Except Trap (List Move) :=
  let es := h.bytes
  let win := wrap 64 ((windowBase : Int) + d)
  if d % (es : Int) ≠ 0 then .error { cause := cMisaligned, addr := win }
  else if d < 0 ∨ (stash : Int) < d + es then .error { cause := cStashRange, addr := win }
  else if h.outside c then
    if !h.permit then .error { cause := cCoordBounds, addr := d.toNat }
    else if let some t := s.runFault x [⟨win, es, 1, !store⟩] then .error t
    else .ok (if store then [] else [x.move (.fill h.fillBytes) win es])
  else
    let ea := h.address c
    match s.runFault x [⟨ea, es, 1, store⟩, ⟨win, es, 1, !store⟩] with
    | some t => .error t
    | none => .ok [if store then x.move (.addr win) ea es else x.move (.addr ea) win es]

/-- The slice of a CPYT (R254). -/
def cpytSlice (s : State) (e : Ex) (u : Use) (h : Shape) (p : PoolEntry) (store : Bool) (i : Nat) : Except Trap (List Move) :=
  let x := s.accessor e i
  let a := e.src u i 0
  let c (k : Nat) : Int := if k < h.rank then readI .s32 (a / 2 ^ (32 * k)) else 0
  let r := CoordRun.go h p.addr p.words (cpytElement s x e.team.stashBytes h store) (2 ^ 125)
    { c := (List.range 5).map c, d := ((e.src u i 1 % 2 ^ 32 : Nat) : Int) }
  match r.stop with
  | some (some t) => .error t
  | _ => .ok r.moves

/-- A record of an arrival's rendezvous: the one read before, or the pool's (R376). -/
def State.copyRec (s : State) (e : Ex) (k idx kind : Nat) (n : Option Nat) : Got PoolEntry :=
  match (e.sub.hold.bind fun h => e.team.copies.get? h.aux).bind fun c => c.recs[k]? with
  | some r => .ok s ⟨r.1, r.2.1, r.2.2⟩
  | none => s.poolOf e idx kind n

/-- The rendezvous of an arrival keeps the records that were read for it. -/
def State.keepRecs (s : State) (e : Ex) (l : List PoolEntry) : State :=
  match e.sub.hold with
  | none => s
  | some h => s.modTeam e.t fun tm =>
      { tm with copies := tm.copies.modify h.aux fun c => { c with recs := l.map fun p => (p.addr, p.len, p.words) } }

/-- The slices of a CPYT: shape record, program, and then each slice. -/
def cpytSlices (store : Bool) (s : State) (e : Ex) (u : Use) (lanes : List Nat) (c0 : Nat) : Slices :=
  match s.copyRec e 0 (c0 / 2 ^ 16 % 2 ^ 16) 1 (some 7) with
  | .trap s t => noSlice s lanes t
  | .wait s => { s := s, wait := true }
  | .ok s q =>
    match shapeOf q with
    | .error t => noSlice s lanes t
    | .ok h =>
      match s.copyRec e 1 (c0 % 2 ^ 16) 3 none with
      | .trap s t => noSlice s lanes t
      | .wait s => { s := s, wait := true }
      | .ok s p =>
        if p.len < 2 ∨ 17 < p.len then noSlice s lanes (badValue p.addr)
        else
          match programFault p.addr 1 [] false p.words with
          | some t => noSlice s lanes t
          | none => eachSlice (s.keepRecs e [q, p]) lanes (cpytSlice s e u h p store)

/-! ## Gather and scatter (R255) -/

/-- Row numbers read one after another, each with its address; an index that is out of range stops a copy without
PERMIT, and no later index is read, so its fault does not show (log 91). -/
def readIndices (x : Accessor) (h : Shape) : Nat → Nat → State → Got (List Nat)
  | _, 0, s => .ok s []
  | ea, n + 1, s =>
    match s.load x 4 ea with
    | .trap s t => .trap s t
    | .wait s => .wait s
    | .ok s v =>
      if !h.permit && decide ((h.extents[1]?).getD 0 ≤ v) then .trap s { cause := cCoordBounds, addr := ea }
      else
        match readIndices x h (ea + 4) n s with
        | .ok s l => .ok s (v :: l)
        | r => r

/-- The one slice of a CPYG, or of a CPYS where `store`. -/
def cpygSlices (store : Bool) (s : State) (e : Ex) (u : Use) (lanes : List Nat) (c0 : Nat) : Slices :=
  let i := lanes.headD 0
  let x := s.accessor e i
  let ka := e.src u i 0
  let kb := e.src u i 1
  let n := kb / 2 ^ 16 % 2 ^ 16
  let z := 2 ^ (kb / 2 ^ 32 % 8)
  if ka % 4 ≠ 0 ∨ n = 0 ∨ kb / 2 ^ 35 % 2 ^ 29 ≠ 0 then noSlice s lanes (badValue 0)
  else
    match s.poolOf e (kb % 2 ^ 16) 1 (some 7) with
    | .trap s t => noSlice s lanes t
    | .wait s => { s := s, wait := true }
    | .ok s p =>
      match shapeOf p with
      | .error t => noSlice s lanes t
      | .ok h =>
        let rb := (h.extents[0]?).getD 0 * h.bytes
        if h.rank ≠ 2 ∨ (h.strides[0]?).getD 0 ≠ (h.bytes : Int) ∨ rb < 16 ∨ 4096 < rb ∨ rb % 16 ≠ 0 ∨ rb / 16 < z then
          noSlice s lanes (badValue 0)
        else
          let spot (k q : Nat) : Nat := (windowBase + c0 + k * rb + 16 * Nat.xor q (k % z)) % 2 ^ 64
          match s.runFault x [⟨(windowBase + c0) % 2 ^ 64, n * rb, 16, !store⟩] with
          | some t => noSlice s lanes t
          | none =>
            match readIndices x h ka n s with
            | .trap s t => noSlice s lanes t
            | .wait s => { s := s, wait := true }
            | .ok s rows =>
              let row (v : Nat) : Nat := wrap 64 ((h.base : Int) + (v : Int) * (h.strides[1]?).getD 0)
              let outside (v : Nat) : Bool := decide ((h.extents[1]?).getD 0 ≤ v)
              let fill := ((List.range (16 / min 16 h.bytes)).map fun _ => h.fillBytes.take 16).flatten
              let pieces := (List.range n).flatMap fun r =>
                let v := (rows[r]?).getD 0
                (List.range (rb / 16)).filterMap fun q =>
                  let a := (row v + 16 * q) % 2 ^ 64
                  if outside v then (if store then none else some (x.move (.fill fill) (spot r q) 16))
                  else some (if store then x.move (.addr (spot r q)) a 16 else x.move (.addr a) (spot r q) 16)
              match s.runFault x ((rows.filter fun v => !outside v).map fun v => ⟨row v, rb, 1, store⟩) with
              | some t => noSlice s lanes t
              | none => { s := s, moves := pieces, ok := 1 }

/-! ## Arrivals (R245, R246) -/

/-- A copy instruction: its opcode, tag, W, counter scope and direction, whether its arrival is always a rendezvous
of its own, and its slices. -/
structure CopyForm where
  opc : Nat
  tag : Nat
  w : Nat
  scope : Scope
  store : Bool
  own : Bool
  slices : State → Ex → Use → List Nat → Nat → Slices

/-- The hold of an arrival whose slices are being validated: `aux` is its tag where it has joined a rendezvous, else 64 + its
tag. -/
def checkHold (p : Lanes) (aux : Nat) : Hold := { kind := .copyCheck, lanes := p, aux := aux }

/-- The hold of an arrival that waits for its tag. -/
def tagHold (p : Lanes) (tag : Nat) : Hold := { kind := .copyTag, lanes := p, aux := tag }

/-- Moves in ascending item order, those of one item in the order given (R247). -/
def insertMoves (l : List Move) (m : List Move) : List Move :=
  match m with
  | [] => l
  | q :: _ => (l.filter fun a => decide (a.item ≤ q.item)) ++ m ++ l.filter fun a => decide (q.item < a.item)

/-- The moves of several slices. -/
def addMoves (l m : List Move) : List Move :=
  ((m.map Move.item).eraseDups).foldl (fun l i => insertMoves l (m.filter fun a => a.item == i)) l

/-- A rendezvous that this arrival opens. A counter address that fails its validation (R249) leaves no slice and
names no counter at completion. -/
def CopyForm.opens (f : CopyForm) (s : State) (e : Ex) (w c0 c1 : Nat) : Copy :=
  { opc := f.opc, w := w, scope := f.scope, cvals := [BitVec.ofNat 64 c0, BitVec.ofNat 64 c1]
    counter := if (s.counterFault (s.accessorOf e) c1).isSome then 0 else c1
    store := f.store, waves := [e.w], pc := e.sub.wordPc }

/-- The arrival agrees with an open rendezvous (R245). -/
def CopyForm.matches_ (f : CopyForm) (c : Copy) (c0 c1 : Nat) : Bool :=
  c.opc == f.opc && c.w == f.w && c.scope == f.scope && c.store == f.store &&
  c.cvals == [BitVec.ofNat 64 c0, BitVec.ofNat 64 c1]

/-- The slices of an arrival, with the rules of its counter (R249). -/
def CopyForm.validate (f : CopyForm) (s : State) (e : Ex) (u : Use) (lanes : List Nat) (c0 c1 : Nat) : Slices :=
  match (if c1 = 0 then none else s.counterFault (s.accessorOf e) c1) with
  | some t => noSlice s lanes t
  | none => f.slices s e u lanes c0

/-- The pieces of a move, each within one line of its destination. -/
def Move.lines (m : Move) : List Move :=
  (List.range (ceilDiv (m.dst % 64 + m.len) 64)).map fun k =>
    let a := max m.dst (m.dst / 64 * 64 + 64 * k)
    { m with
      src := match m.src with
        | .addr ea => .addr (ea + (a - m.dst))
        | .fill bs => .fill (bs.drop (a - m.dst))
      dst := a, len := min (m.dst + m.len) (m.dst / 64 * 64 + 64 * (k + 1)) - a }

/-- Validated slices join the copy, whose completion lowers the arrival's flag (R249). They take the arrival's place in the
team's engine order (R304). -/
def State.joinSlices (s : State) (e : Ex) (tag : Nat) (lanes : List Nat) (moves : List Move) : State :=
  s.modTeam e.t fun tm =>
    { tm with
      seq := tm.seq + 1
      copies := tm.copies.modify tag fun c =>
        { c with
          moves := addMoves c.moves ((moves.flatMap Move.lines).map fun m => { m with ord := e.order })
          items := (s.itemsOf e lanes).foldl (fun l i => l.set i e.order) c.items
          flights := match e.sub.hold.bind fun h => h.flight with
            | some q => c.flights ++ [(e.w, q)]
            | none => c.flights } }

/-- An arrival on its tag (R245, R246). -/
def CopyForm.body (f : CopyForm) (u : Use) (s : State) (e : Ex) (p : Lanes) : Issue :=
  let run := e.runs u p
  let done (s : State) (traps : LaneTraps) (kind : FlightKind) : Issue :=
    .done s { traps := e.staleTraps u p ++ traps, stale := e.staleSets u p } kind none
  match run with
  | [] => done s [] .result
  | i0 :: _ =>
    let s := s.escapeTeam e.t
    let c0 := e.src u i0 2 % 2 ^ 64
    let c1 := e.src u i0 2 / 2 ^ 64
    let own := f.own || e.sub.retried
    let free := e.team.tag f.tag == .idle || e.team.tag f.tag == .done
    match e.sub.hold.map fun h => (h.kind, h.aux) with
    | some (HoldKind.copyCheck, aux) =>
      let v := f.validate s e u run c0 c1
      let passed := run.filter fun i => !v.traps.any fun q => q.1 == i
      if v.wait then .hold v.s (checkHold p aux)
      else if aux < 64 then done (v.s.joinSlices e f.tag passed v.moves) v.traps .engine
      else if v.ok = 0 then done v.s v.traps .result
      else if free then
        let s := v.s.modTeam e.t fun tm =>
          { (tm.setTag f.tag .opened) with copies := tm.copies.set f.tag (f.opens v.s e 1 c0 c1) }
        done ((s.joinSlices e f.tag passed v.moves).checkCopy e.t f.tag) v.traps .engine
      else .hold s (tagHold p f.tag)
    | _ =>
      if free then
        if own then .hold s (checkHold p (64 + f.tag))
        else
          let s := s.modTeam e.t fun tm =>
            { (tm.setTag f.tag .opened) with copies := tm.copies.set f.tag (f.opens s e f.w c0 c1) }
          .hold (s.checkCopy e.t f.tag) (checkHold p f.tag)
      else
        match e.team.tag f.tag, e.team.copies.get? f.tag with
        | .opened, some c =>
          if e.sub.retried then .hold s (tagHold p f.tag)
          else if !f.matches_ c c0 c1 then
            done s (run.map fun i => (i, { cause := cIllegal, sub := 2 })) .result
          else
            let s := s.modTeam e.t fun tm =>
              { tm with copies := tm.copies.modify f.tag fun c =>
                  { c with waves := if c.waves.contains e.w then c.waves else c.waves ++ [e.w] } }
            .hold (s.checkCopy e.t f.tag) (checkHold p f.tag)
        | _, _ => .hold s (tagHold p f.tag)

/-- CPY (R251). -/
def cpyForm (x : Cpy) : CopyForm :=
  ⟨0x300, x.d.val, x.w.val, x.scope, false, false, fun s e u l _ => eachSlice s l (cpySlice s e u)⟩

/-- CPYT (R254). -/
def cpytForm (x : Cpyt) : CopyForm := ⟨0x301, x.d.val, x.w.val, x.scope, x.store, false, cpytSlices x.store⟩

/-- CPYG (R255). -/
def cpygForm (x : CpyGS) : CopyForm := ⟨0x302, x.d.val, 1, x.scope, false, true, cpygSlices false⟩

/-- CPYS (R255). -/
def cpysForm (x : CpyGS) : CopyForm := ⟨0x303, x.d.val, 1, x.scope, true, true, cpygSlices true⟩

/-- CPY (R251). -/
def execCpy (x : Cpy) (s : State) : Res := peelOp (.cpy x) (cpyForm x).body s

/-- The shape record that a CPYT names. -/
def State.cpytShape (s : State) (u : Use) (e : Ex) : Got PoolEntry :=
  let lanes := (e.sub.hold.map fun h => h.lanes).getD e.sub.mask
  s.poolOf e (e.src u (lowLane lanes) 2 / 2 ^ 16 % 2 ^ 16) 1 (some 7)

/-- What CPYT reads: RANK registers of coordinates (R254). -/
def cpytNames (s : State) (u : Use) (e : Ex) : Use :=
  let rank := match s.cpytShape u e with
    | .ok _ p => max 1 (p.word 2 / 16 % 8)
    | .trap _ _ | .wait _ => 1
  { u with rd := match u.rd with
      | a :: r => { a with n := rank } :: r
      | [] => [] }

/-- A CPYT that may issue reads RANK from its shape record first: the state as it then stands, while that read waits. -/
def cpytReads (x : Cpyt) (s : State) : Option State :=
  match (Instr.cpyt x).use, s.cur with
  | some u, some (.sub t w k) =>
    match s.ex? t w k with
    | some e =>
      if e.sub.hold.isSome || !e.mayIssue || e.wave.guarded u.hdr e.sub.mask == 0 then none
      else
        match s.cpytShape u e with
        | .wait s => some s
        | .ok _ _ | .trap _ _ => none
    | none => none
  | _, _ => none

/-- CPYT (R254). -/
def execCpyt (x : Cpyt) (s : State) : Res :=
  match cpytReads x s with
  | some s => .next s
  | none => issueNaming (.cpyt x) cpytNames true false (cpytForm x).body (fun _ _ _ _ _ => .peel) s

/-- CPYG (R255). -/
def execCpyg (x : CpyGS) (s : State) : Res := peelOp (.cpyg x) (cpygForm x).body s

/-- CPYS (R255). -/
def execCpys (x : CpyGS) (s : State) : Res := peelOp (.cpys x) (cpysForm x).body s

/-! ## Data movement (R247, R248, R373) -/

/-- An arrival of a tag's rendezvous is still being validated. -/
def Team.checking (t : Team) (tag : Nat) : Bool :=
  t.waves.any fun w => w.2.subs.any fun k =>
    (k.2.hold.map fun h => h.kind == HoldKind.copyCheck && h.aux == tag).getD false

/-- A BUSY copy that the engine may serve: validated, not suspended, on a resident team. -/
def Team.movable (t : Team) (tag : Nat) (c : Copy) : Bool :=
  t.state == .resident && t.tag tag == .busy && c.stopped.isNone && !t.checking tag

/-- The copy is among the 4 earliest that the core's engine may serve (R373). -/
def State.served (s : State) (t tag : Nat) : Bool :=
  match (s.teams.get? t).bind fun tm => (tm.copies.get? tag).map fun c => (tm, c) with
  | none => false
  | some (tm, c) =>
    tm.movable tag c &&
    decide ((s.teams.foldl (fun n p =>
      if p.2.on tm.core then
        n + (p.2.copies.filter fun q => p.2.movable q.1 q.2 && decide (q.2.ready.getD 0 < c.ready.getD 0)).length
      else n) 0) < 4)

/-- The core's copy engine as an accessor for the item of a move, placed in its program order at the arrival (R304). -/
def copyAccessor (t : Nat) (tm : Team) (m : Move) : Accessor :=
  { ctx := tm.ctx, core := tm.core, kind := 2, team := some t, items := [m.item], upto := m.ord }

/-- The place of a destination is poisoned. -/
def Dest.poisoned (s : State) (d : Dest) : Bool :=
  match d with
  | .stash core off => (s.core core).stashPoison.contains (off / 16)
  | .mem _ place => s.poison.contains (place / 16)
  | .acc _ _ | .remote _ _ | .door _ => false

/-- The place of a destination takes poison (R247). -/
def State.poisonDest (s : State) (d : Dest) : State :=
  match d with
  | .stash core off => s.modCore core fun c => { c with stashPoison := insertNat c.stashPoison (off / 16) }
  | .mem _ place => s.poisonAt place
  | .acc _ _ | .remote _ _ | .door _ => s

/-- One byte read by an engine, with its poison, which is no fault (R247, R392). -/
def State.engineByte (s : State) (x : Accessor) (ea : Nat) : Got (Byte × Bool) :=
  match s.resolve x { n := 1, rd := true, wr := false } ea with
  | .error t => .trap s t
  | .ok d =>
    if s.workHolds x ea 1 then .wait s
    else
    match s.prepare x { n := 1, rd := false, wr := false } ea d with
    | .trap s t => .trap s t
    | .wait s => .wait s
    | .ok s _ => .ok s (BitVec.ofNat 8 (s.peek x d 1), d.poisoned s)

/-- Bytes read by an engine; `old` gives those that must be read as they were (R247). -/
def State.engineBytes (x : Accessor) (old : State → Nat → Option (Byte × Bool)) :
    Nat → Nat → State → Got (List (Byte × Bool))
  | _, 0, s => .ok s []
  | ea, n + 1, s =>
    let one : Got (Byte × Bool) := match old s ea with
      | some b => .ok s b
      | none => s.engineByte x ea
    match one with
    | .trap s t => .trap s t
    | .wait s => .wait s
    | .ok s b =>
      match State.engineBytes x old (ea + 1) n s with
      | .ok s l => .ok s (b :: l)
      | r => r

/-- What the pieces of one line write, byte by byte: address, byte and poison; a later piece wins (R247, R254, R255). -/
def State.lineImage (t : Nat) (tm : Team) (c : Copy) : List Move → Tbl (Byte × Bool) → State → Got (Tbl (Byte × Bool))
  | [], img, s => .ok s img
  | m :: r, img, s =>
    let x := copyAccessor t tm m
    if s.workHolds x m.dst m.len then .wait s
    else
      let got : Got (List (Byte × Bool)) := match m.src with
        | .fill bs => .ok s ((List.range m.len).map fun i => ((bs[i]?).getD 0, false))
        | .addr a => State.engineBytes x (fun s ea => c.old.get? (s.nameOf x ea).key) a m.len s
      match got with
      | .trap s t => .trap s t
      | .wait s => .wait s
      | .ok s bs =>
        State.lineImage t tm c r (((List.range m.len).zip bs).foldl (fun (img : Tbl (Byte × Bool)) b => img.set (m.dst + b.1) b.2) img) s

/-- The writes that a line's bytes make: whole 16-byte units, and runs of single bytes of the others. -/
def imageParts (img : Tbl (Byte × Bool)) : List (Nat × List Byte × Bool) :=
  ((img.map fun p => p.1 / 16).eraseDups).flatMap fun k =>
    let bs := img.filter fun p => p.1 / 16 == k
    if bs.length = 16 then [(16 * k, (List.range 16).map fun i => ((img.get? (16 * k + i)).map Prod.fst).getD 0, bs.any fun p => p.2.2)]
    else bs.map fun p => (p.1, [p.2.1], p.2.2)

/-- Every write of a line is made ready. -/
def State.imageReady (x : Accessor) : List (Nat × List Byte × Bool) → State → Got Unit
  | [], s => .ok s ()
  | p :: r, s =>
    match s.ready x { n := p.2.1.length, rd := false, wr := true } p.1 with
    | .ok s _ => State.imageReady x r s
    | .trap s t => .trap s t
    | .wait s => .wait s

/-- The writes of a line: the bytes that they replace, and whether one left the core. -/
def State.imageWrite (x : Accessor) : List (Nat × List Byte × Bool) → Tbl (Byte × Bool) → Bool → State →
    Got (Tbl (Byte × Bool) × Bool)
  | [], old, out, s => .ok s (old, out)
  | p :: r, old, out, s =>
    let n := p.2.1.length
    match s.ready x { n := n, rd := false, wr := true } p.1 with
    | .trap s t => .trap s t
    | .wait s => .wait s
    | .ok s d =>
      let was := s.peek x d n
      let bad := d.poisoned s
      let old := (List.range n).foldl (fun (old : Tbl (Byte × Bool)) i =>
        let k := (s.nameOf x (p.1 + i)).key
        if (old.get? k).isSome then old else old.set k (BitVec.ofNat 8 (was / 2 ^ (8 * i)), bad)) old
      let s := s.poke x d n (leNat p.2.1)
      State.imageWrite x r old (out || leaves x.core [(0, d)]) (if p.2.2 then s.poisonDest d else s)

/-- Two pieces of a copy lie in one line: of the stash, or of memory under its canonical name. -/
def State.lineKey (s : State) (x : Accessor) (m : Move) : Nat :=
  let b := s.nameOf x m.dst
  match b.stash with
  | some c => c.1 * 2 ^ 20 / 64 + c.2 / 64
  | none => b.key / 64

/-- A line leaves an engine (R248, R331): a write-back or a clean notice. -/
def State.releaseEngine (s : State) (h : Holder) : State :=
  (s.dir.filter fun e => (e.holds h).isSome).foldl (fun s e =>
    let d := e.holds h == some .m || e.holds h == some .o
    s.putEntry { (e.remove h) with l2Dirty := if d then 0xF else e.l2Dirty }) s

/-- The writes of a copy that left its core have been performed (R300). -/
def State.untagCopy (s : State) (t tag : Nat) : State :=
  match (s.teams.get? t).bind fun tm => tm.copies.get? tag with
  | none => s
  | some c => (s.untag c.tag).modTeam t fun tm => { tm with copies := tm.copies.modify tag fun c => { c with tag := none } }

/-- The engine writes the line of a copy's next piece: all the bytes that the copy writes there at once (R306), read before
any write of the copy (R247). It then gives the line up (R331). -/
def State.moveUnit (s : State) (t tag : Nat) (tm : Team) (c : Copy) (m : Move) : Got Unit :=
  let x := copyAccessor t tm m
  let mine (q : Move) : Bool := s.lineKey x q == s.lineKey x m
  let w : Accessor := { x with items := [] }
  match State.lineImage t tm c (c.moves.filter mine) [] s with
  | .trap s t => .trap s t
  | .wait s => .wait s
  | .ok s img =>
    match State.imageReady w (imageParts img) s with
    | .trap s t => .trap s t
    | .wait s => .wait s
    | .ok s _ =>
      match State.imageWrite w (imageParts img) c.old false s with
      | .trap _ t => .trap s t
      | .wait _ => .wait s
      | .ok s (old, out) =>
        let s := (s.releaseEngine ⟨tm.core, 2⟩).untagCopy t tag
        let (s, tg) := if out then s.tagWrite tm.core else (s, none)
        .ok (s.modTeam t fun tm => { tm with copies := tm.copies.modify tag fun c =>
          { c with old := old, moves := c.moves.filter fun q => !mine q, moved := c.moved + img.length, tag := tg } }) ()

/-- Accesses that a copy's participants placed before their arrivals are still to be performed by engines (R305). -/
def State.copyOwes (s : State) (t : Nat) (c : Copy) : Bool := c.items.any fun p => s.owes t [p.1] p.2

/-- What the engine does next for a copy: a line, or the completion of its writes and its counter (R249). -/
def State.copyNext (s : State) (t tag : Nat) : Got Bool :=
  match (s.teams.get? t).bind fun tm => (tm.copies.get? tag).map fun c => (tm, c) with
  | none => .wait s
  | some (tm, c) =>
    if !tm.movable tag c then .wait s
    else
      match c.moves with
      | m :: _ =>
        (match s.moveUnit t tag tm c m with
         | .ok s _ => .ok s false
         | .trap s t => .trap s t
         | .wait s => .wait s)
      | [] =>
        if s.copyOwes t c || s.unitBusy tm.ctx c.counter true then .wait s
        else
          match s.addCounter tm.ctx c.counter 1 with
          | .error t => .trap s t
          | .ok s =>
            let s := c.flights.foldl (fun s f => s.finishWave t f.1 f.2) (s.untagCopy t tag)
            .ok (s.modTeam t fun tm => { (tm.setTag tag .done) with copies := tm.copies.del tag }) true

/-- The fields of a record about a team's engine work (Table 13.2). -/
def State.engineRecord (s : State) (kind : Nat) (tm : Team) (pc aux : Nat) (tr : Trap) (what : RecOf) : FaultRec :=
  { dev := s.ctxDev tm.ctx, kind := kind, cause := tr.cause, sub := tr.sub, ctx := tm.ctx
    grid := ((s.grids.get? tm.grid).map fun g => g.num).getD 0, gridKey := tm.grid, team := tm.index
    pc := pc, addr := tr.addr, core := tm.core, aux := aux, what := what }

/-- A fault of data movement suspends the copy, when the record store has room (R248, R388). -/
def State.suspendCopy (s : State) (t tag : Nat) (tr : Trap) : State :=
  match (s.teams.get? t).bind fun tm => (tm.copies.get? tag).map fun c => (tm, c) with
  | none => s
  | some (tm, c) =>
    if !s.recRoom (s.ctxDev tm.ctx) then s
    else
      let s := (s.releaseEngine ⟨tm.core, 2⟩).untagCopy t tag
      let (s, id) := s.addRecord (s.engineRecord 3 tm c.pc (tag + c.moved / 16 * 16 * 2 ^ 16) tr (.copy t tag))
      s.modTeam t fun tm => { tm with copies := tm.copies.modify tag fun c => { c with stopped := some id } }

/-- COPY_START (R373). -/
def execCopyStart (team tag : Nat) (s : State) : Res := .next (s.startCopy team tag)

/-- COPY_UNIT_MOVE (R373). -/
def execCopyUnitMove (team tag : Nat) (s : State) : Res :=
  if !s.served team tag then .next s
  else
    match s.copyNext team tag with
    | .ok s' false => .next s'
    | .wait s' => .next s'
    | .ok _ true => .next s
    | .trap _ _ => .next s

/-- COPY_FAULT (R248). -/
def execCopyFault (team tag : Nat) (s : State) : Res :=
  if !s.served team tag then .next s
  else
    match s.copyNext team tag with
    | .trap s' t => .next (s'.suspendCopy team tag t)
    | _ => .next s

/-! ## Waits on tags and counters (R257, R258) -/

/-- The tags of a mask in some state. -/
def Team.tagsIn (t : Team) (mask : Nat) (f : TagState → Bool) : List Nat :=
  (List.range 64).filter fun n => toBit (mask / 2 ^ n) && f (t.tag n)

/-- TWAIT (R257). -/
def twaitBody (all : Bool) (u : Use) (s : State) (e : Ex) (p : Lanes) : Issue :=
  once u s e p fun src r =>
    let s := s.escapeTeam e.t
    let pending := !(e.team.tagsIn (src 0) fun st => st == .opened || st == .busy).isEmpty
    let ready := !all && !(e.team.tagsIn (src 0) fun st => st == .done).isEmpty
    if pending && !ready then .hold s { kind := .twait, lanes := p } else .done s r .result none

/-- TWAIT (R257). -/
def execTwait (x : Twait) (s : State) : Res := peelOp (.twait x) (twaitBody x.all) s

/-- TFFR (R257). -/
def execTffr (x : Tffr) (s : State) : Res :=
  peelOp (.tffr x) (fun u s e p => once u s e p fun src r =>
    .done (s.escapeTeam e.t)
      (r.give (x.d.ref 2) p ((e.team.tagsIn (src 0) fun st => st == .done).headD 64)) .result none) s

/-- TCLR (R257). -/
def execTclr (x : KOp) (s : State) : Res :=
  peelOp (.tclr x) (fun u s e p => once u s e p fun src r =>
    .done ((s.escapeTeam e.t).modTeam e.t fun tm =>
      (tm.tagsIn (src 0) fun st => st == .done).foldl (fun tm n => tm.setTag n .idle) tm) r .result none) s

/-- CNTWAIT (R258). Address 0 is read as any other: it names no counter only where one is to be incremented (log 92). -/
def cntwaitBody (d : RegRef) (u : Use) (s : State) (e : Ex) (p : Lanes) : Issue :=
  once u s e p fun src r =>
    let s := s.escapeTeam e.t
    let x := { s.accessor e (lowLane p) with again := true }
    match counterRead (src 0) with
    | some t => strike s p r t
    | none =>
      let dl := e.deadline s (src 2)
      match s.load x 8 (src 0) with
      | .trap s t => strike s p r t
      | .wait s => .hold s { kind := .cntwait, lanes := p, deadline := some dl, value := (e.sub.hold.map fun h => h.value).getD 0 }
      | .ok s v =>
        if src 1 ≤ v || decide (dl ≤ s.coreTime e.team.core) then .done s (r.give d p v) .result none
        else .hold s { kind := .cntwait, lanes := p, deadline := some dl, value := BitVec.ofNat 64 v }

/-- CNTWAIT (R258). -/
def execCntwait (x : Cntwait) (s : State) : Res := peelOp (.cntwait x) (cntwaitBody (x.d.ref 2)) s

/-! ## Transfer commands (R256, R377) -/

/-- A transfer descriptor (Table 8.6). -/
structure Descriptor where
  src : Nat
  dst : Nat
  len : Nat
  counter : Nat
  engine : Nat
  fnd : Nat
  any : Bool
  scope : Nat

/-- A run of bytes meets the stash and accumulator regions. -/
def inUpper (a n : Nat) : Bool := decide (apertureBase < a + n ∧ a < 2 ^ 56)

/-- The fields of a descriptor's eight words; none breaks its limits (R256). -/
def State.descriptor (s : State) (dev : Nat) (ws : List Nat) : Option Descriptor :=
  let w (i : Nat) : Nat := (ws[i]?).getD 0
  let ctl := w 4 % 2 ^ 32
  let d : Descriptor :=
    { src := w 0, dst := w 1, len := w 2, counter := w 3, engine := ctl % 4, fnd := ctl / 4 % 4, any := toBit (ctl / 16)
      scope := ctl / 32 % 8 }
  if d.src % 16 = 0 && d.dst % 16 = 0 && d.len % 16 == 0 && decide (16 ≤ d.len ∧ d.len ≤ 2 ^ 40) && d.counter % 8 == 0 &&
      decide (d.scope ≤ 5) && ctl / 256 == 0 && (!d.any || ctl % 16 == 0) && (d.any || s.devOfFnd d.fnd == dev) &&
      w 4 / 2 ^ 32 == 0 && w 5 == 0 && w 6 == 0 && w 7 == 0 &&
      !inUpper d.src d.len && !inUpper d.dst d.len && !(d.counter != 0 && inUpper d.counter 8) then some d
  else none

/-- Commands of a transfer engine, engine e of foundation die f being 4f + e. -/
def State.engine (s : State) (n : Nat) : Tbl Xfer := (s.engines.get? n).getD []

/-- The engine of a descriptor: the one named, or the one with the fewest occupied slots (R377). -/
def State.engineFor (s : State) (dev : Nat) (d : Descriptor) : Option Nat :=
  if !d.any then some (4 * d.fnd + d.engine)
  else
    ((List.range 16).filter fun n => s.devOfFnd (n / 4) == dev && (s.fdie (n / 4)).inService).foldl
      (fun (b : Option Nat) n =>
        match b with
        | none => some n
        | some m => if (s.engine n).length < (s.engine m).length then some n else some m) none

/-- A command enters the lowest free slot of an engine; none when all 256 are occupied. -/
def State.acceptXfer (s : State) (n : Nat) (x : Xfer) : Option State :=
  match (List.range 256).find? fun k => ((s.engine n).get? k).isNone with
  | none => none
  | some k =>
    some { s with engines := s.engines.set n (Tbl.set (s.engine n) k { x with order := s.nextId }), nextId := s.nextId + 1 }

/-- A command as accepted. -/
def Descriptor.xfer (d : Descriptor) (ctx : Nat) : Xfer :=
  { ctx := ctx, src := d.src, dst := d.dst, len := d.len, counter := d.counter
    scope := (Scope.ofCode d.scope).getD .sys, order := 0 }

/-- COPYQ (R256). -/
def copyqBody (u : Use) (s : State) (e : Ex) (p : Lanes) : Issue :=
  once u s e p fun src r =>
    let s := s.escapeTeam e.t
    let ka := src 0
    let wait (s : State) : Issue := .hold s { kind := .copyq, lanes := p }
    if ka % 64 ≠ 0 then strike s p r { cause := cMisaligned, addr := ka }
    else
      match s.loadWords (s.accessorOf e) ka 8 with
      | .trap s t => strike s p r t
      | .wait s => wait s
      | .ok s ws =>
        let dev := s.ctxDev e.team.ctx
        match s.descriptor dev ws with
        | none => strike s p r (badValue ka)
        | some d =>
          match s.engineFor dev d with
          | none => wait s
          | some n =>
            let x : Xfer :=
              { d.xfer e.team.ctx with
                team := some e.t, grid := e.team.grid, items := s.itemsOf e (lanesIn p), ord := e.order }
            match s.acceptXfer n x with
            | none => wait s
            | some s => .done (s.modTeam e.t fun tm => { tm with seq := tm.seq + 1 }) r .result none

/-- COPYQ (R256). -/
def execCopyq (x : KOp) (s : State) : Res := peelOp (.copyq x) copyqBody s

end Sys2Proof.Machine
end

