-- ==== Sys2Proof/Machine/Matrix.lean ====
section
/-!
DEFINITION. The matrix group (R259 to R272): layout records, tiles, MMA with its K-steps (R132 to R135, R366 to
R372), and the moves of accumulator data.
-/
namespace Sys2Proof.Machine
open Sys2Proof

/-! ## Layout records (R260, R261) -/

/-- A layout record of the team. -/
def Team.layout (t : Team) (g : Nat) : Layout := (t.layouts[g]?).getD {}

/-- The record of a layout template, or what refuses it (R93, R260). -/
def layoutOf (p : PoolEntry) (base : Nat) : Except Trap Layout :=
  let dims := (List.range 4).map fun d => p.word (2 + d)
  let l : Layout :=
    { base := base, fmt := p.word 1 % 16, strides := dims.map fun w => w % 2 ^ 32
      extents := dims.map fun w => w / 2 ^ 32 % 2 ^ 16 }
  if p.word 1 / 16 ≠ 0 ∨ (dims.any fun w => w / 2 ^ 48 != 0) then .error { cause := cIllegal, sub := 1, addr := p.addr }
  else if p.len ≠ 6 ∨ !([0, 1, 2, 3, 8].contains l.fmt) ∨ (l.strides.any fun x => x % 64 != 0) ∨ l.extents.contains 0 then
    .error (badValue 0)
  else if base % 64 ≠ 0 then .error { cause := cMisaligned, addr := base }
  else .ok l

/-- GSET (R260). -/
def gsetBody (g : Nat) (u : Use) (s : State) (e : Ex) (p : Lanes) : Issue :=
  once u s e p fun src r =>
    (s.poolOf e (src 0) 4 (some 5)).andThen e p r fun s t =>
      match layoutOf t (src 1) with
      | .error t => strike s p r t
      | .ok l => .done (s.modTeam e.t fun tm => { tm with layouts := listSet tm.layouts g l }) r .result none

/-- GSET (R260). -/
def execGset (x : Gset) (s : State) : Res := peelOp (.gset x) (gsetBody x.g.val) s

/-- GCNT (R261). -/
def execGcnt (x : Gcnt) (s : State) : Res :=
  peelOp (.gcnt x) (fun u s e p => once u s e p fun _ r =>
    .done s (r.give (x.d.ref 2) p (e.team.layout x.g.val).conf.toNat) .result none) s

/-! ## Tiles (R262, R263) -/

/-- A tile number at or above the configured count. -/
def Team.unconfigured (t : Team) (tiles : List Nat) : Bool := tiles.any fun n => decide (t.accCount ≤ n)

/-- The tiles that a move of accumulator data writes. -/
def AccOp.targets (o : AccOp) : List Nat :=
  match o with
  | .zero _ | .st _ _ _ _ _ _ | .mov true _ _ _ _ _ => o.tiles
  | .ld _ _ _ _ _ _ _ | .mov false _ _ _ _ _ => []

/-- An MMA has issued and waits for its place in the queue. -/
def Team.mmaHeld (t : Team) : Bool := t.waves.any fun w => w.2.subs.any fun k => (k.2.hold.map fun h => h.kind == .mma).getD false

/-- A tile is live, or is the target of an MMA or ACC move that has not completed (R262). -/
def Team.tilesUsed (t : Team) : Bool :=
  !t.accLive.isEmpty || !t.mmas.isEmpty || t.mmaHeld || t.moves.any fun m => !m.2.op.targets.isEmpty

/-- ACFG (R262). -/
def acfgBody (discard : Bool) (u : Use) (s : State) (e : Ex) (p : Lanes) : Issue :=
  once u s e p fun src r =>
    let n := src 0 % 64
    let pending := !(e.team.mmas.isEmpty && e.team.moves.isEmpty) || e.team.mmaHeld
    if 32 < n ∨ e.team.accTiles.length < n then strike s p r { cause := cAccBusy, sub := 1 }
    else if !discard && e.team.tilesUsed then strike s p r { cause := cAccBusy }
    else
      let s := s.escapeTeam e.t
      if discard && pending then .hold s { kind := .acfg, lanes := p }
      else .done (s.modTeam e.t fun tm => { tm with accCount := n, accLive := [], acc := [] }) r .result none

/-- ACFG (R262). -/
def execAcfg (x : Acfg) (s : State) : Res := peelOp (.acfg x) (acfgBody x.discard) s

/-- Bytes of a tile. -/
def tileBytes : Nat := 0x4000

/-- Place of element (i, j) of output block `q` of a group in the accumulator store: its tile in the group and its
offset there (R269, Table 8.9). -/
def groupElem (shape : MShape) (f64 : Bool) (q k : Nat) : Nat × Nat :=
  if f64 then (64 * (q / 2) + 32 * (q % 2) + k / 64, k % 64)
  else
    match shape with
    | .m64n64 | .m128n64 => (64 * q + k / 64, k % 64)
    | .m128n128 => (64 * (q / 2) + k / 64, 64 * (q % 2) + k % 64)

/-- Little-endian numbers of `w` bytes in a list of bytes; `n` of them. -/
def numbers (w : Nat) : Nat → List Byte → List Nat
  | 0, _ => []
  | n + 1, l => leNat (l.take w) :: numbers w n (l.drop w)

/-- A tile rewritten, element by element: `f` takes the element's number and its old bits. -/
def Memory.tile (m : Memory) (lo : Nat) (f64 : Bool) (f : Nat → Nat → Nat) : Memory :=
  let w := if f64 then 8 else 4
  let old := numbers w (tileBytes / w) (m.slice lo tileBytes)
  m.splice lo ((old.zipIdx.map fun p => natLe w (f p.2 p.1)).flatten)

/-! ## K-steps (R132 to R134) -/

/-- The plain operand type of a format code; none for blocks. -/
def plainTy : Nat → Option FTy
  | 0 => some .f32
  | 1 => some .f16
  | 2 => some .bf16
  | 3 => some .f64
  | _ => none

/-- The elements of a plain line, ascending K. -/
def lineVals (t : FTy) (line : Nat) : List FVal :=
  (List.range (512 / t.width)).map fun k => fdec t (line / 2 ^ (t.width * k) % 2 ^ t.width)

/-- An infinity among some values. -/
def infOf (l : List FVal) : Option FVal := l.find? fun v => match v with
  | .inf _ => true
  | _ => false

/-- A NaN, or infinities of both signs. -/
def badSum (l : List FVal) : Bool :=
  l.any FVal.isNaN ||
  ((l.any fun v => match v with | .inf n => n | _ => false) && (l.any fun v => match v with | .inf n => !n | _ => false))

/-- One K-step of one output of a plain MMA (R132); `W` is 40 or 110. -/
def plainStep (t : FTy) (W : Nat) (acc : Nat) (ps : List FVal) : Nat :=
  let cv := fdec t acc
  let round (v : FVal) : Nat := (deliver t .rne .inf false 0 v).bits
  if badSum ps || cv.isNaN then canonNaN t
  else
    match infOf ps with
    | some v => round (vadd .rne cv v)
    | none =>
      let live := ps.filterMap fun v => match v with
        | .fin n m e _ => if m = 0 then none else some (n, m, e)
        | _ => none
      if live.isEmpty then round (vadd .rne cv (vsum .rne ps))
      else
        let top := live.foldl (fun (b : Option Int) v =>
          let x : Int := v.2.2 + (bitLen v.2.1 : Int) - 1
          match b with
          | none => some x
          | some y => some (max x y)) none
        let g := top.getD 0 - (W : Int)
        let cut (v : Bool × Nat × Int) : Int × Bool :=
          let x := smant v.1 v.2.1
          if g ≤ v.2.2 then (x * 2 ^ (v.2.2 - g).toNat, false)
          else (x / 2 ^ (g - v.2.2).toNat, decide (x % 2 ^ (g - v.2.2).toNat ≠ 0))
        let sum := live.foldl (fun a v => a + (cut v).1) 0
        let sticky : Int := if live.any fun v => (cut v).2 then 1 else 0
        round (vadd .rne cv (ofSum .rne (4 * sum + sticky) (g - 2)))

/-- The code and scale of a block. -/
def blkCode (b : Nat) : Nat := b % 256
/-- The scale byte of a block. -/
def blkScale (b : Nat) : Nat := b / 256 % 256

/-- The elements of a block without its scale. -/
def blockVals (b : Nat) : List FVal :=
  (List.range ((blkCount (blkCode b)).getD 0)).map fun j => blkVal (blkCode b) (blkElem b (blkCode b) j)

/-- One K-step of one output of a blocked MMA (R133, R134). -/
def blockStep (repro : Bool) (acc a b : Nat) (av bv : List FVal) : Nat :=
  let cv := fdec .f32 acc
  let round (v : FVal) : Nat := (deliver .f32 .rne .inf false 0 v).bits
  if blkCode a = 0 || blkCode b = 0 then
    if repro && acc == 0x80000000 then 0 else acc
  else if blkScale a = 255 || blkScale b = 255 || cv.isNaN then canonNaN .f32
  else
    let ps := List.zipWith vmul av bv
    if badSum ps then canonNaN .f32
    else
      match infOf ps with
      | some v => round (vadd .rne cv v)
      | none =>
        let sum := ps.foldl (vadd .rne) (.fin false 0 0 false)
        round (vadd .rne cv (vscale ((blkScale a : Int) + blkScale b - 254) sum))

/-! ## MMA (R264) -/

/-- The first team-window offset past the end among the lines of some K-steps, in read order. -/
def firstPast (m : Mma) (limit : Nat) : Nat → Nat → Option Nat
  | 0, _ => none
  | n + 1, s =>
    let lines := ((List.range m.shape.rows).map fun r => m.la.line r s) ++ (List.range m.shape.cols).map fun r => m.lb.line r s
    match lines.find? fun o => decide (limit < o + 64) with
    | some o => some o
    | none => firstPast m limit n (s + 1)

/-- The checks of R264 in their order. -/
def mmaCheck (tm : Team) (m : Mma) (la lb : Layout) : Option Trap :=
  let e (l : Layout) (i : Nat) : Nat := (l.extents[i]?).getD 0
  let f64 := la.fmt == 3
  let n := e la 1 * e la 3
  if la.fmt ≠ lb.fmt || (f64 && (m.shape == .m128n128 || m.tile % tileCount m.shape true != 0)) then
    some { cause := cMapShape, sub := 7 }
  else if tm.unconfigured m.tiles then some { cause := cAccBusy, sub := 2 }
  else if e la 0 * e la 2 ≠ m.shape.rows ∨ e lb 0 * e lb 2 ≠ m.shape.cols ∨ e lb 1 * e lb 3 ≠ n ∨ n < 1 ∨ 2 ^ 30 - 1 < n then
    some { cause := cMapShape, sub := 7 }
  else
    (firstPast m tm.stashBytes n 0).map fun o => { cause := cStashRange, addr := (windowBase + o) % 2 ^ 64 }

/-- MMAs in the matrix queue of a core. -/
def State.queuedMmas (s : State) (core : Nat) : Nat :=
  s.teams.foldl (fun n p => if p.2.on core then n + p.2.mmas.length else n) 0

/-- A tile of the core within CAP_ACC that no resident team reserves and no MMA hides (R135). -/
def State.freeTile (s : State) (core : Nat) : Option Nat :=
  (List.range (s.core core).capAcc.amount).find? fun n =>
    !(s.teams.any fun p => p.2.on core && (p.2.accTiles.contains n || p.2.mmas.any fun m => m.2.hidden == some n))

/-- A store to the accumulator window that issued earlier still waits in the team (R269). -/
def Team.storesWaiting (t : Team) (k : Nat) : Bool :=
  t.waves.any fun w => w.2.subs.any fun q => (q.2.hold.map fun h => h.tiles && decide (h.order < k)).getD false

/-- Writes to the team window that engines owe for some items, issued before an order (R307). -/
def Team.windowWrites (t : Team) (items : List Nat) (upto : Nat) : Bool :=
  (t.copies.any fun c => c.2.moves.any fun m => decide (m.ord < upto ∧ apertureBase ≤ m.dst) && items.contains m.item) ||
  t.moves.any fun m => decide (m.1 < upto) && m.2.items.any items.contains && (match m.2.op with
    | .mov false _ _ _ _ _ => true
    | .mov true _ _ _ _ _ | .zero _ | .ld _ _ _ _ _ _ _ | .st _ _ _ _ _ _ => false)

/-- The flight of an instruction that an engine completes: that of its hold, or the next. -/
def Ex.flightNo (e : Ex) : Nat := (e.sub.hold.bind fun h => h.flight).getD e.wave.seq

/-- The layout records that an MMA read at its issue (R260, R264). -/
def Ex.operands (e : Ex) (x : Sys2Proof.Mma) : Layout × Layout :=
  match e.sub.hold with
  | some h => ((h.lays[0]?).getD {}, (h.lays[1]?).getD {})
  | none => (e.team.layout x.ga.val, e.team.layout x.gb.val)

/-- The MMA that an instruction asks for (R264), with a hidden tile for its second chain where one is free (R135). -/
def mmaOf (x : Sys2Proof.Mma) (s : State) (e : Ex) (p : Lanes) : Mma :=
  let la := (e.operands x).1
  let n := (la.extents[1]?).getD 0 * (la.extents[3]?).getD 0
  let hidden := if !e.wave.repro && x.shape == .m64n64 && la.fmt != 3 && decide (4 ≤ n) then
    s.freeTile e.team.core else none
  { tile := x.tile.val, shape := x.shape, z := x.z, la := la, lb := (e.operands x).2, n := n
    prog := { split := hidden.isSome }, hidden := hidden, tag := x.tag.map fun t => t.val
    flight := (e.w, e.flightNo), ga := x.ga.val, gb := x.gb.val, pc := e.sub.wordPc
    items := s.itemsOf e (lanesIn p) }

/-- The tag that an MMA names has a copy or an MMA outstanding. -/
def Team.tagBusy (t : Team) (tag : Option Nat) : Bool :=
  match tag with
  | none => false
  | some n => t.tag n == .opened || t.tag n == .busy

/-- An MMA enters its team's queue at its place in the engine order; its tag becomes BUSY (R264, R265). -/
def Team.enqueueMma (tm : Team) (order : Nat) (m : Mma) : Team :=
  let tm := match m.tag with
    | none => tm
    | some t => tm.setTag t .busy
  { tm with
    mmas := tm.mmas.set order m, seq := max tm.seq (order + 1)
    mprog := if order < tm.lastMma then tm.mprog else m.prog, lastMma := max tm.lastMma order }

/-- The hold of an MMA that has issued: `value` is the mask of its tiles. -/
def mmaHold (p : Lanes) (m : Mma) : Hold :=
  { kind := .mma, lanes := p, lays := [m.la, m.lb], value := m.tiles.foldl (fun v n => v ||| BitVec.ofNat 64 (2 ^ n)) 0 }

/-- MMA (R264). -/
def mmaBody (x : Sys2Proof.Mma) (u : Use) (s : State) (e : Ex) (p : Lanes) : Issue :=
  once u s e p fun _ r =>
    let m := mmaOf x s e p
    match (if e.sub.hold.isSome then none else mmaCheck e.team m m.la m.lb) with
    | some t => strike s p r t
    | none =>
      let s := s.escapeTeam e.t
      if e.team.tagBusy m.tag || decide (16 ≤ s.queuedMmas e.team.core) || e.team.storesWaiting e.order ||
          e.team.windowWrites m.items e.order then .hold s (mmaHold p m)
      else .done (s.modTeam e.t fun tm => tm.enqueueMma e.order m) r .engine none

/-- MMA (R264). -/
def execMma (x : Sys2Proof.Mma) (s : State) : Res := peelOp (.mma x) (mmaBody x) s

/-! ## The matrix engine (R265 to R268, R370) -/

/-- Nothing that issued earlier works on the tiles of an operation (R265, R270). -/
def Team.turn (t : Team) (seq : Nat) (tiles : List Nat) : Bool := tiles.all fun n => !t.tileBusy n seq

/-- K-steps of chain 0: h of R135. -/
def Mma.half (m : Mma) : Nat := if m.prog.split then (m.n + 1) / 2 else m.n

/-- The next K-step of a chain, if one is left. -/
def Mma.nextStep (m : Mma) (chain : Nat) : Option Nat :=
  if chain = 0 then (if m.prog.k0 < m.half then some m.prog.k0 else none)
  else if m.prog.split && decide (m.half + m.prog.k1 < m.n) then some (m.half + m.prog.k1)
  else none

/-- Every chain has committed. -/
def Mma.chainsDone (m : Mma) : Bool := (m.nextStep 0).isNone && (m.nextStep 1).isNone

/-- Four units of a line read by the engine, which consumes them (R267). -/
def State.readLine (s : State) (x : Accessor) (ea : Nat) : Got Nat :=
  let unit (s : State) (k : Nat) : Got Nat := s.load x 16 (ea + 16 * k)
  match unit s 0 with
  | .trap s t => .trap s t
  | .wait s => .wait s
  | .ok s a =>
    match unit s 1 with
    | .trap s t => .trap s t
    | .wait s => .wait s
    | .ok s b =>
      match unit s 2 with
      | .trap s t => .trap s t
      | .wait s => .wait s
      | .ok s c =>
        match unit s 3 with
        | .trap s t => .trap s t
        | .wait s => .wait s
        | .ok s d => .ok s (a + 2 ^ 128 * b + 2 ^ 256 * c + 2 ^ 384 * d)

/-- Lines read in order; a line of blocks is checked as it is read (R120): `cls` is the class so far. -/
def State.readLines (x : Accessor) (blk : Bool) : List Nat → Option Nat → State → Got (List Nat × Option Nat)
  | [], cls, s => .ok s ([], cls)
  | o :: r, cls, s =>
    match s.readLine x (windowBase + o) with
    | .trap s t => .trap s t
    | .wait s => .wait s
    | .ok s l =>
      let bad (sub : Nat) : Got (List Nat × Option Nat) := .trap s { cause := cBlockFormat, sub := sub, addr := windowBase + o }
      let go (cls : Option Nat) : Got (List Nat × Option Nat) :=
        match State.readLines x blk r cls s with
        | .ok s q => .ok s (l :: q.1, q.2)
        | g => g
      if !blk then go cls
      else
        match blkCount (blkCode l) with
        | none => bad 0
        | some 0 => go cls
        | some n =>
          match cls with
          | none => go (some n)
          | some k => if k = n then go cls else bad 1

/-- Conflict cycles of the groups of eight lines (R368). -/
def groupConflicts (c : Core) (base : Nat) : List Nat → Nat → Nat
  | _, 0 => 0
  | l, n + 1 =>
    let g := (l.take 8).flatMap fun o => [base + o, base + o + 32]
    c.conflict g - 1 + groupConflicts c base (l.drop 8) n

/-- A layout record's conflict count grows, and saturates (R261). -/
def Team.addConf (t : Team) (g k : Nat) : Team :=
  { t with layouts := listModify t.layouts g fun l => { l with conf := BitVec.ofNat 64 (min (l.conf.toNat + k) (2 ^ 64 - 1)) } }

/-- The tiles of an MMA after a K-step: `out` gives an output's new bits. -/
def Team.stepTiles (t : Team) (m : Mma) (chain : Nat) (out : Nat → Nat → Nat → Nat) : Team × Memory :=
  let f64 := m.la.fmt == 3
  if chain = 1 then
    (t, m.hiddenData.tile 0 false fun k old => let p := groupElem m.shape false 0 k; out p.1 p.2 old)
  else
    ({ t with
        accLive := m.tiles.foldl insertNat t.accLive
        acc := (List.range m.tiles.length).foldl (fun a q =>
          a.tile ((m.tile + q) * tileBytes) f64 fun k old => let p := groupElem m.shape f64 q k; out p.1 p.2 old) t.acc },
     m.hiddenData)

/-- The tiles set to +0 (R265, R271). -/
def Team.zeroTiles (t : Team) (tiles : List Nat) : Team :=
  { t with
    accLive := tiles.foldl insertNat t.accLive
    acc := t.acc.filter fun c => !tiles.contains (c.1 / tileBytes) }

/-- The next K-step of a chain: read whole, then committed with its record (R265, R267, R272). -/
def State.kstep (s : State) (t seq chain : Nat) : Got Unit :=
  match (s.teams.get? t).bind fun tm => (tm.mmas.get? seq).map fun m => (tm, m) with
  | none => .wait s
  | some (tm, m) =>
    match m.nextStep chain with
    | none => .wait s
    | some step =>
      let blk := m.la.fmt == 8
      let settled := chain = 0 || !blk || m.cls.isSome || decide (m.prog.k0 = m.half)
      if tm.state != .resident || m.stopped.isSome || !tm.turn seq m.tiles || !settled ||
          (s.core tm.core).tilesMoving (m.hidden.toList ++ tm.coreTiles m.tiles) then .wait s
      else
        let x : Accessor := { ctx := tm.ctx, core := tm.core, kind := 2, team := some t, items := m.items, upto := seq }
        let oa := (List.range m.shape.rows).map fun r => m.la.line r step
        let ob := (List.range m.shape.cols).map fun r => m.lb.line r step
        match State.readLines x blk (oa ++ ob) m.cls s with
        | .trap s t => .trap s t
        | .wait s => .wait s
        | .ok s (lines, cls) =>
          let a := lines.take m.shape.rows
          let b := lines.drop m.shape.rows
          let repro := ((s.ctxs.get? tm.ctx).map fun c => c.ctl.getLsbD 3).getD false
          let out : Nat → Nat → Nat → Nat :=
            match plainTy m.la.fmt with
            | some ty =>
              let at_ := if ty = .f64 then FTy.f64 else .f32
              let w := if ty = .f64 then 110 else 40
              let av := a.map (lineVals ty)
              let bv := b.map (lineVals ty)
              fun i j old => plainStep at_ w old (List.zipWith vmul ((av[i]?).getD []) ((bv[j]?).getD []))
            | none =>
              let av := a.map blockVals
              let bv := b.map blockVals
              fun i j old =>
                blockStep repro old ((a[i]?).getD 0) ((b[j]?).getD 0) ((av[i]?).getD []) ((bv[j]?).getD [])
          let core := s.core tm.core
          .ok (s.modTeam t fun tm =>
            let tm := if m.z && !m.started then tm.zeroTiles m.tiles else tm
            let r := tm.stepTiles m chain out
            let tm := r.1
            let prog := if chain = 0 then { m.prog with k0 := m.prog.k0 + 1 } else { m.prog with k1 := m.prog.k1 + 1 }
            let tm := (tm.addConf m.ga (groupConflicts core tm.stashBase oa (m.shape.rows / 8))).addConf m.gb
              (groupConflicts core tm.stashBase ob (m.shape.cols / 8))
            { tm with
              mmas := tm.mmas.set seq { m with prog := prog, hiddenData := r.2, cls := cls, started := true }
              mprog := if tm.lastMma = seq then prog else tm.mprog }) ()

/-- MMA_KSTEP_COMMIT (R265). -/
def execMmaKstepCommit (team seq : Nat) (chain : Fin 2) (s : State) : Res :=
  match s.kstep team seq chain.val with
  | .ok s' _ => .next s'
  | .wait s' => .next s'
  | .trap _ _ => .next s

/-- MPROG (Table 2.6). -/
def Progress.word (p : Progress) : Nat := p.k0 + p.k1 * 2 ^ 30 + bit p.split * 2 ^ 60

/-- A fault stops the MMA with a record; its pins are released (R267). -/
def State.stopMma (s : State) (t seq : Nat) (tr : Trap) : State :=
  match (s.teams.get? t).bind fun tm => (tm.mmas.get? seq).map fun m => (tm, m) with
  | none => s
  | some (tm, m) =>
    if !s.recRoom (s.ctxDev tm.ctx) then s
    else
      let (s, id) := s.addRecord (s.engineRecord 4 tm m.pc m.prog.word tr (.mma t seq))
      s.modTeam t fun tm => { tm with mmas := tm.mmas.modify seq fun m => { m with stopped := some id } }

/-- MMA_FAULT (R267). -/
def execMmaFault (team seq : Nat) (chain : Fin 2) (s : State) : Res :=
  match s.kstep team seq chain.val with
  | .trap s' t => .next (s'.stopMma team seq t)
  | _ => .next s

/-! ## Moves of accumulator data (R270, R271) -/

/-- A move enters the team's engine order. -/
def enqueueMove (op : AccOp) (s : State) (e : Ex) (p : Lanes) (r : LaneRes) : Issue :=
  .done (s.modTeam e.t fun tm =>
    { tm with
      moves := tm.moves.set tm.seq
        { op := op, flight := (e.w, e.flightNo), pc := e.sub.wordPc, items := s.itemsOf e (lanesIn p) }
      seq := tm.seq + 1 }) r .engine none

/-- An operation that names tiles that are not configured traps (R262). -/
def withTiles (tiles : List Nat) (s : State) (e : Ex) (p : Lanes) (r : LaneRes) (k : Unit → Issue) : Issue :=
  if e.team.unconfigured tiles then strike s p r { cause := cAccBusy, sub := 2 } else k ()

/-- Tile, and tile after it for a pair. -/
def tilePair (wide : Bool) (n : Nat) : List Nat := if wide then [n, n + 1] else [n]

/-- ACC.LD (R270). -/
def execAccLd (x : AccLd) (s : State) : Res :=
  peelOp (.accLd x) (fun u s e p =>
    if p = 0 then .done s {} .result none
    else
      let run := lanesOf fun i => (e.runs u p).contains i
      let r : LaneRes := { traps := e.staleTraps u p, stale := e.staleSets u p }
      if run = 0 then .done s r .result none
      else withTiles (tilePair x.wide x.tile.val) s e p r fun _ =>
        let kb := e.src u (lowLane run) 0
        enqueueMove (.ld run x.wide x.d.val e.sub.depth x.tile.val (kb % 64) (kb / 64 % 4)) (s.escapeTeam e.t) e p r) s

/-- ACC.ST (R270). -/
def execAccSt (x : AccSt) (s : State) : Res :=
  peelOp (.accSt x) (fun u s e p =>
    if p = 0 then .done s {} .result none
    else
      let run := lanesOf fun i => (e.runs u p).contains i
      let r : LaneRes := { traps := e.staleTraps u p, stale := e.staleSets u p }
      if run = 0 then .done s r .result none
      else withTiles (tilePair x.wide x.tile.val) s e p r fun _ =>
        let kb := e.src u (lowLane run) 1
        enqueueMove (.st run x.wide (laneList.map fun i => e.src u i 0) x.tile.val (kb % 64) (kb / 64 % 4))
          (s.escapeTeam e.t) e p r) s

/-- ACC.ZERO (R271). -/
def execAccZero (x : AccZero) (s : State) : Res :=
  peelOp (.accZero x) (fun u s e p => once u s e p fun _ r =>
    let tiles := (List.range (tileCount x.shape x.wide)).map fun k => x.tile.val + k
    withTiles tiles s e p r fun _ => enqueueMove (.zero tiles) (s.escapeTeam e.t) e p r) s

/-- The checks of ACC.MOV (R271). TRAPADDR of the stash range is the window address of the first byte past STASH, in the first
row that goes past it (log 93). -/
def accMovCheck (s : State) (tm : Team) (froms : Bool) (t : FTy) (off pitch : Nat) : Option Trap :=
  let n := 8 * t.width
  let rows := (List.range 64).map fun r => off + r * pitch
  match rows.find? fun o => decide (tm.stashBytes < o + n) with
  | some o => some { cause := cStashRange, addr := (windowBase + max o tm.stashBytes) % 2 ^ 64 }
  | none =>
    if off % 16 ≠ 0 ∨ pitch % 16 ≠ 0 ∨ pitch < n then some (badValue 0)
    else if froms then none
    else
      (rows.flatMap fun o => (List.range (n / 16)).map fun k => o + 16 * k).findSome? fun o =>
        if (((s.core tm.core).entryAt (tm.stashBase + o)).map fun e => !e.2.rw).getD false then
          some { cause := cProtection, addr := windowBase + o }
        else none

/-- ACC.MOV (R271). -/
def execAccMov (x : AccMov) (s : State) : Res :=
  peelOp (.accMov x) (fun u s e p => once u s e p fun src r =>
    withTiles (tilePair (x.t == .f64) x.tile.val) s e p r fun _ =>
      match accMovCheck s e.team x.froms x.t (src 0) (src 1 % 2 ^ 16) with
      | some t => strike s p r t
      | none => enqueueMove (.mov x.froms x.t x.rm x.tile.val (src 0) (src 1 % 2 ^ 16)) (s.escapeTeam e.t) e p r) s

/-- Offset in the accumulator store of element (r, j) of a tile or pair (R269). -/
def accOff (wide : Bool) (tile r j : Nat) : Nat :=
  if wide then (tile + r / 32) * tileBytes + 8 * (64 * (r % 32) + j) else tile * tileBytes + 4 * (64 * r + j)

/-- Units of 16 bytes written one after another. -/
def State.writeUnits (x : Accessor) : List (Nat × List Byte) → State → Got Unit
  | [], s => .ok s ()
  | (ea, bs) :: r, s =>
    match s.ready x { n := bs.length, rd := false, wr := true } ea with
    | .ok s d => State.writeUnits x r (s.poke x d bs.length (leNat bs))
    | .trap s t => .trap s t
    | .wait s => .wait s

/-- Units of 16 bytes written once all can be: while one waits none is, and a fault leaves those before it (R271). -/
def State.writeRows (s : State) (x : Accessor) (l : List (Nat × List Byte)) : Got Unit :=
  match State.imageReady x (l.map fun p => (p.1, p.2, false)) s with
  | .wait s => .wait s
  | .ok s' _ | .trap s' _ =>
    match State.writeUnits x l s' with
    | .wait _ => .wait s'
    | g => g

/-- Units of 16 bytes read one after another by an engine that consumes them. -/
def State.readUnits (x : Accessor) : List Nat → State → Got (List Byte)
  | [], s => .ok s []
  | ea :: r, s =>
    match s.load x 16 ea with
    | .trap s t => .trap s t
    | .wait s => .wait s
    | .ok s v =>
      match State.readUnits x r s with
      | .ok s l => .ok s (natLe 16 v ++ l)
      | g => g

/-- A list of bytes in units of 16, with their addresses. -/
def unitsOf (ea : Nat) (bs : List Byte) : List (Nat × List Byte) :=
  (List.range (bs.length / 16)).map fun k => (ea + 16 * k, (bs.drop (16 * k)).take 16)

/-- A move carried out, its flag lowered. -/
def State.runMove (s : State) (t seq : Nat) : Got Unit :=
  match (s.teams.get? t).bind fun tm => (tm.moves.get? seq).map fun m => (tm, m) with
  | none => .wait s
  | some (tm, m) =>
    if tm.state != .resident || m.stopped.isSome || !tm.turn seq m.op.tiles ||
        (s.core tm.core).tilesMoving (tm.coreTiles m.op.tiles) then .wait s
    else
      let x : Accessor := { ctx := tm.ctx, core := tm.core, kind := 2, team := some t, items := m.items, upto := seq }
      let finish (s : State) : Got Unit :=
        .ok ((s.modTeam t fun tm => { tm with moves := tm.moves.del seq }).finishWave t m.flight.1 m.flight.2) ()
      match m.op with
      | .zero tiles => finish (s.modTeam t fun tm => tm.zeroTiles tiles)
      | .ld lanes wide d depth tile r c =>
        let w := if wide then 8 else 4
        finish (s.modWave t m.flight.1 fun wv =>
          wv.wr depth { uni := false, idx := d, n := w / 4, lu := false } (lanes &&& wv.live) fun i =>
            tm.acc.getN (accOff wide tile r (16 * c + i)) w)
      | .st lanes wide vals tile r c =>
        let w := if wide then 8 else 4
        finish (s.modTeam t fun tm =>
          { tm with
            accLive := (tilePair wide tile).foldl insertNat tm.accLive
            acc := (lanesIn lanes).foldl (fun a i => a.putN (accOff wide tile r (16 * c + i)) w ((vals[i]?).getD 0)) tm.acc })
      | .mov froms ty rm tile off pitch =>
        let wide := ty == .f64
        let tt : FTy := if wide then .f64 else .f32
        let es := ty.width / 8
        let rows := List.range 64
        let ea (r : Nat) : Nat := windowBase + off + r * pitch
        if froms then
          match State.readUnits x (rows.flatMap fun r => (List.range (4 * es)).map fun k => ea r + 16 * k) s with
          | .trap s t => .trap s t
          | .wait s => .wait s
          | .ok s bs =>
            let vals := numbers es 4096 bs
            let conv (b : Nat) : Nat := if ty = tt then b else (deliver tt .rne .inf false 0 (fdec ty b)).bits
            let part (q : Nat) : List Nat := if wide then (vals.drop (2048 * q)).take 2048 else vals
            finish (s.modTeam t fun tm =>
              { tm with
                accLive := (tilePair wide tile).foldl insertNat tm.accLive
                acc := (List.range (if wide then 2 else 1)).foldl (fun a q =>
                  a.splice ((tile + q) * tileBytes) ((part q).map fun b => natLe (tt.width / 8) (conv b)).flatten) tm.acc })
        else
          let row (r : Nat) : List Byte :=
            ((numbers (tt.width / 8) 64 (tm.acc.slice (accOff wide tile r 0) (8 * tt.width))).map fun b =>
              natLe es (deliver ty rm .inf false 0 (fdec tt b)).bits).flatten
          match s.writeRows x (rows.flatMap fun r => unitsOf (ea r) (row r)) with
          | .trap s t => .trap s t
          | .wait s => .wait s
          | .ok s _ => finish s

/-- ACC_MOV_FAULT (R271): the move stops with a record of KIND 4. -/
def execAccMovFault (team seq : Nat) (s : State) : Res :=
  match s.runMove team seq with
  | .trap s' tr =>
    (match (s'.teams.get? team).bind fun tm => (tm.moves.get? seq).map fun m => (tm, m) with
     | none => .next s
     | some (tm, m) =>
       if !s'.recRoom (s'.ctxDev tm.ctx) then .next s
       else
         let (s', id) := s'.addRecord (s'.engineRecord 4 tm m.pc 0 tr (.accMove team seq))
         .next (s'.modTeam team fun tm => { tm with moves := tm.moves.modify seq fun m => { m with stopped := some id } }))
  | _ => .next s

/-- MPROG (R272). -/
def execMprog (x : DOp) (s : State) : Res :=
  issue (.mprog x) false false
    (fun u s e p => once u s e p fun _ r => .done s (r.give (x.d.ref 2) p e.team.mprog.word) .result none)
    (fun u _ _ s _ => .done s { regs := u.wr.map fun d => (d, .u 0) } .result none) s

end Sys2Proof.Machine
end

