-- ==== Sys2Proof/Machine/Team.lean ====
section
/-!
DEFINITION. The end of lanes, teams and grids (R41, R44, R164, R166, R396), join records (R162 to R165), and the
saving of a team (R237, R363, R364).
-/
namespace Sys2Proof.Machine
open Sys2Proof

/-! ## Join records (R163, R164) -/

/-- Lanes that wait at a SYNC for a record. -/
def Wave.arrivedAt (w : Wave) (n : Nat) : Lanes :=
  w.subs.foldl (fun m p =>
    if p.2.joins.head? = some n && (p.2.hold.map fun h => h.kind == HoldKind.sync).getD false then m ||| p.2.mask else m) 0

/-- The SYNC at which a sub-wave waits for a record: none where it does not. -/
def SubWave.syncAt (k : SubWave) (n : Nat) : Option Nat :=
  if k.joins.head? = some n && (k.hold.map fun h => h.kind == HoldKind.sync).getD false then some k.wordPc else none

/-- A sub-wave continues after its SYNC. -/
def SubWave.passSync (k : SubWave) : SubWave :=
  let k := k.passed
  match k.clause with
  | none => k
  | some c => k.goto c.finish

/-- Waiting sub-waves of one SYNC become one (R163); those isolated by the debugger continue alone (R38). -/
def Wave.mergeAt (w : Wave) (n pc : Nat) : Wave :=
  let l := w.subs.filter fun p => p.2.syncAt n == some pc && !p.2.single
  match l with
  | [] => w
  | (k, a) :: r =>
    let m := r.foldl (fun m p => m ||| p.2.mask) a.mask
    let age := r.foldl (fun g p => max g p.2.age) a.age
    let subs := w.subs.filter fun p => !(r.any fun q => q.1 == p.1)
    { w with subs := Tbl.set subs k { a.passSync with mask := m, age := age } }

/-- A record whose lanes have all arrived or departed is closed (R163). -/
def Wave.closeJoin (w : Wave) (n : Nat) (j : JoinRec) : Wave :=
  if j.mask &&& ~~~(j.gone ||| w.arrivedAt n) ≠ 0 then w
  else
    let pcs := (w.subs.filterMap fun p => p.2.syncAt n).eraseDups
    let w : Wave := pcs.foldl (fun w pc => w.mergeAt n pc) w
    let w : Wave := { w with subs := w.subs.map fun p => if (p.2.syncAt n).isSome then (p.1, p.2.passSync) else p }
    { w with
      joins := w.joins.del n
      subs := w.subs.map fun p => (p.1, { p.2 with joins := p.2.joins.filter fun x => x != n }) }

/-- Every record that is complete. -/
def Wave.closeJoins (w : Wave) : Wave := w.joins.foldl (fun w j => w.closeJoin j.1 j.2) w

/-- Lanes depart every record, or those opened at a depth (R164). -/
def Wave.depart (w : Wave) (m : Lanes) (depth : Option Nat) : Wave :=
  { w with joins := w.joins.map fun j =>
      (j.1, if depth.isNone || depth == some j.2.depth then { j.2 with gone := j.2.gone ||| m } else j.2) }

/-! ## Lanes that end (R164, R166, R225) -/

/-- Lanes leave their wave: they issue nothing more, they depart their records, and they leave the written masks. -/
def Wave.removeLanes (w : Wave) (m : Lanes) : Wave :=
  let w := (w.dropLanes m).depart m none
  let subs := (w.subs.map fun p =>
    (p.1, { p.2 with
      mask := p.2.mask &&& ~~~m
      hold := p.2.hold.map fun h => { h with lanes := h.lanes &&& ~~~m } })).filter fun p => p.2.mask != 0
  { w with live := w.live &&& ~~~m, subs := subs }.closeJoins

/-- A port held for a sub-wave that is gone, or that stands at a clause boundary again, is released. -/
def State.freePorts (s : State) (core : Nat) : State :=
  let gone (f : Option Focus) : Bool := match f with
    | some (.sub t w k) => ((s.ex? t w k).map fun e => e.sub.clause.isNone || e.sub.park.isSome).getD true
    | some (.span i) => (s.spans.get? i).isNone
    | none => false
  let s := s.modCore core fun c =>
    { c with ports := c.ports.map fun p => if gone p.holder then { p with holder := none } else p }
  match s.cur with
  | some (.sub t w k) => if (s.ex? t w k).isSome then s else { s with cur := none }
  | _ => s

/-- Lanes of a wave end, by EXIT or by a kill. -/
def State.removeLanes (s : State) (t w : Nat) (m : Lanes) : State :=
  match s.teams.get? t with
  | none => s
  | some tm =>
    let s := s.modTeam t fun tm => (tm.modWave w fun wv => wv.removeLanes m).closeGens
    (s.checkCopies t).freePorts tm.core

/-! ## Teams that end (R41, R237) -/

/-- The affinity key of a team (Table 8.11). -/
def Grid.affKey (g : Grid) (team : Nat) : Nat := (g.affb.toNat + g.affs.toNat * team) % 2 ^ 32

/-- The live map entries of a team take their paths at its end (R237): retained, or displaced. -/
def State.endEntries (s : State) (t : Nat) (tm : Team) : State :=
  let key := ((s.grids.get? tm.grid).map fun g => g.affKey tm.index).getD 0
  ((s.core tm.core).liveOf t).foldl (fun s p =>
    if p.2.retain then
      s.modCore tm.core fun c => { c with entries := c.entries.modify p.1 fun m =>
        { m with st := .retained, affKey := key, lastUse := s.cycle } }
    else s.displace tm.core p.1) s

/-- A team leaves its core; what is left is its record. -/
def State.dropTeam (s : State) (t : Nat) (held : Bool) : State :=
  match s.teams.get? t with
  | none => s
  | some tm =>
    let s := if tm.state == .resident then s.endEntries t tm else s
    let s := tm.waves.foldl (fun s w => s.untagAll w.2.flights) s
    let s := tm.copies.foldl (fun s c => s.untag c.2.tag) s
    let kept : Team :=
      { tm with
        state := .held, waves := [], copies := [], mmas := [], moves := [], acc := [], accTiles := [], accCount := 0
        accLive := [], lap := none, stashBytes := 0, savedScratch := [], savedPoison := [], savedEntries := [] }
    let s := { s with teams := if held then s.teams.set t kept else s.teams.del t }
    s.freePorts tm.core

/-- A grid takes a failing status; the first stands (R42). -/
def State.failGrid (s : State) (g status : Nat) : State :=
  s.modGrid g fun g => if g.failing = 0 then { g with failing := status } else g

/-- A copy goes on to its end, or until it waits. -/
def State.drainCopy (t tag : Nat) : Nat → State → State
  | 0, s => s
  | n + 1, s =>
    match s.copyNext t tag with
    | .ok s false => State.drainCopy t tag n s
    | .ok s true | .wait s | .trap s _ => s

/-- The engine work that lanes left behind goes on: their memory effects stand (R166). -/
def State.drainTeam (s : State) (t : Nat) : State :=
  match s.teams.get? t with
  | none => s
  | some tm =>
    let s := tm.copies.foldl (fun s c => State.drainCopy t c.1 (c.2.moves.length + 1) (s.startCopy t c.1)) s
    tm.moves.foldl (fun s m => match s.runMove t m.1 with
      | .ok s _ | .wait s | .trap s _ => s) s

/-- Engine work of a team that still has bytes to write in memory. -/
def Team.working (t : Team) : Bool :=
  (t.copies.any fun c => c.2.ready.isSome) || t.moves.any fun m => match m.2.op with
    | .mov false _ _ _ _ _ => true
    | .mov true _ _ _ _ _ | .zero _ | .ld _ _ _ _ _ _ _ | .st _ _ _ _ _ _ => false

/-- A team leaves its grid's count of teams: it has retired, or has been killed (R42). -/
def State.countTeam (s : State) (tm : Team) (killed : Bool) : State :=
  let now := s.devTime (s.ctxDev tm.ctx)
  s.modGrid tm.grid fun g =>
    if killed then { g with abandoned := g.abandoned + 1 } else { g with retired := g.retired + 1, progressTick := now }

/-- A team without live lanes retires, or is held while it has live child grids (R41). What its lanes left to the engines is
done first (R166, R309). -/
def State.endTeam (s : State) (t : Nat) : State :=
  let s := s.drainTeam t
  match s.teams.get? t with
  | none => s
  | some tm =>
    if tm.state != .held && tm.working then s
    else if tm.children ≠ 0 then (if tm.state == .held then s else s.dropTeam t true)
    else (s.dropTeam t false).countTeam tm false

/-- A team that may retire: no live lane, and every flag zero (R166). -/
def Team.over (t : Team) : Bool :=
  match t.state with
  | .held => t.children == 0
  | .resident | .swapped _ => (t.waves.all fun w => w.2.live == 0) && t.quiet

/-- Every team that may retire does. -/
def State.sweep (s : State) : State :=
  s.teams.foldl (fun s p => if p.2.over then s.endTeam p.1 else s) s

/-- A step with the retirements that it allows. -/
def withSweep (r : Res) : Res :=
  match r with
  | .next s => .next s.sweep
  | r => r

/-! ## Engine work that ends -/

/-- COPY_COMPLETE (R249). -/
def execCopyComplete (team tag : Nat) (s : State) : Res :=
  withSweep (match s.copyNext team tag with
  | .ok s' true => .next s'
  | _ => .next s)

/-- MMA_COMPLETE (R265): the chains are added, the flag falls and the tag becomes DONE, once what the items issued earlier has
been performed: the completion is a release (R307). -/
def execMmaComplete (team seq : Nat) (s : State) : Res :=
  withSweep (match (s.teams.get? team).bind fun tm => (tm.mmas.get? seq).map fun m => (tm, m) with
  | none => .next s
  | some (tm, m) =>
    if tm.state != .resident || !m.chainsDone || m.stopped.isSome || s.owes team m.items seq then .next s
    else
      let add (k c0 : Nat) : Nat :=
        (fAdd ⟨.f32, .rne, false, .none⟩ c0 (m.hiddenData.getN (4 * k) 4)).bits
      let s := s.modTeam team fun tm =>
        let tm := if m.prog.split then { tm with acc := tm.acc.tile (m.tile * tileBytes) false add } else tm
        let tm := match m.tag with
          | none => tm
          | some t => tm.setTag t .done
        { tm with mmas := tm.mmas.del seq }
      .next (s.finishWave team m.flight.1 m.flight.2))

/-- ACC_MOVE_DONE (R271). -/
def execAccMoveDone (team seq : Nat) (s : State) : Res :=
  withSweep (match s.runMove team seq with
  | .ok s' _ => .next s'
  | .wait s' => .next s'
  | .trap _ _ => .next s)

/-! ## Kills -/

/-- Lanes are killed (R164, R389): a team that loses its last lanes so makes its grid KILLED. -/
def State.killLanes (s : State) (t w : Nat) (m : Lanes) : State :=
  let s := s.removeLanes t w m
  match s.teams.get? t with
  | none => s
  | some tm => if tm.waves.all fun w => w.2.live == 0 then s.failGrid tm.grid 4 else s

/-- The record of a team that was killed or that failed (Table 13.2). -/
def State.teamRecord (s : State) (tm : Team) (cause sub : Nat) : State :=
  s.raiseRecord (s.engineRecord 6 tm 0 0 { cause := cause, sub := sub } .team)

/-- A team is killed with everything in it, whatever grids it has launched (R42); `status` is what its grid will report. A held
team stays until they complete (R44). -/
def State.killTeam (s : State) (t status : Nat) : State :=
  match s.teams.get? t with
  | none => s
  | some tm =>
    if tm.state == .held then s
    else
      ((s.dropTeam t false).countTeam tm true).failGrid tm.grid status

/-- A grid fails: resident and swapped-out teams are killed, teams not yet started are abandoned, and none is placed or taken
any more (R44). -/
def State.abandonGrid (s : State) (g status : Nat) : State :=
  let s := s.failGrid g status
  let s := s.teams.foldl (fun s p => if p.2.grid = g then s.killTeam p.1 status else s) s
  let lost := (s.cursors.foldl (fun n p => if p.2.span.grid = g then n + (p.2.span.box.count - p.2.pos - p.2.early.length) else n) 0) +
    s.spans.foldl (fun n p => if p.2.grid = g then n + p.2.box.count else n) 0
  let mine := s.spans.filter fun p => p.2.grid == g
  let s := mine.foldl (fun s p => s.dropSlot p.1) s
  let s := { s with
    spans := s.spans.filter fun p => p.2.grid != g
    cursors := s.cursors.filter fun p => p.2.span.grid != g
    cur := match s.cur with
      | some (.span i) => if mine.any fun p => p.1 == i then none else s.cur
      | c => c }
  s.modGrid g fun g => { g with abandoned := g.abandoned + lost, stopped := true }

/-- No core of the device meets a grid's floors: it fails with CAPACITY (R44, R399). -/
def State.capacityFail (s : State) (g : Nat) (tm : Team) : State :=
  if ((s.grids.get? g).map fun x => x.stopped).getD true then s
  else (s.teamRecord tm cCapacity 1).abandonGrid g 2

/-! ## Saving a team (R237, R268, R363, R364) -/

/-- The sub-wave stands before the first instruction of a clause. -/
def SubWave.atStart (k : SubWave) : Bool :=
  match k.clause with
  | none => true
  | some c => (c.slots.head?.map fun x => x.ix) == some k.slot

/-- A wave that has stopped: every sub-wave stands at a clause boundary, waits, or is parked (R363). -/
def Wave.stopped (w : Wave) : Bool :=
  w.subs.all fun p => p.2.atStart && !p.2.started || p.2.hold.isSome || p.2.park.isSome

/-- Results in flight of a wave that end before a swap: those that no engine completes. -/
def Wave.pendingResults (w : Wave) : List Nat :=
  (w.flights.filter fun f => !f.2.done && (match f.2.kind with
    | .engine => false
    | _ => true)).map Prod.fst

/-- A budget as the ticks that remain, or again as a time (R223). -/
def SubWave.shiftBudget (k : SubWave) (now : Nat) (save : Bool) : SubWave :=
  { k with hold := k.hold.map fun h =>
      { h with deadline := h.deadline.map fun d => if save then d - now else d + now } }

/-- The scratch bytes of a team's allocation, by offset in it. -/
def State.scratchOf (s : State) (tm : Team) : Memory :=
  let c := s.core tm.core
  Memory.listFrom 0 ((List.range tm.stashBytes).map fun i =>
    if (c.entryAt (tm.stashBase + i)).isSome then 0 else c.scratch tm.ctx (tm.stashBase + i))

/-- The sectors of a team's allocation that carry poison as scratch, by their numbers in it. -/
def State.scratchPoison (s : State) (tm : Team) : List Nat :=
  let c := s.core tm.core
  (List.range (tm.stashBytes / 16)).filter fun k =>
    c.stashPoison.contains (tm.stashBase / 16 + k) && (c.entryAt (tm.stashBase + 16 * k)).isNone

/-- A stopped team is saved and leaves its core (R364). -/
def State.swapOut (s : State) (t : Nat) : State :=
  match s.teams.get? t with
  | none => s
  | some tm =>
    if tm.state != .resident ||
        !(tm.waves.all fun w => (w.2.stopped || !s.coreUp tm.core) && w.2.pendingResults.isEmpty) then s
    else
      let now := s.coreTime tm.core
      let scratch := s.scratchOf tm
      let poison := s.scratchPoison tm
      let live := (s.core tm.core).liveOf t
      let s := live.foldl (fun s p =>
        let s := (s.flush tm.core p.1).discard tm.core p.1
        s.modCore tm.core fun c => { c with entries := c.entries.del p.1 }) s
      let s := s.releaseEngine ⟨tm.core, 2⟩
      let s := tm.copies.foldl (fun s c => s.untagCopy t c.1) s
      let s := s.modTeam t fun tm =>
        { tm with
          state := .swapped now, stopping := false, lap := none, accTiles := []
          savedScratch := scratch, savedPoison := poison
          savedEntries := live.map fun p => { p.2 with lo := p.2.lo - tm.stashBase }
          mmas := tm.mmas.map fun m => (m.1, { m.2 with hidden := none })
          waves := tm.waves.map fun w =>
            (w.1, { w.2 with
              lapSpilled := false
              subs := w.2.subs.map fun k => (k.1, { k.2.shiftBudget now true with started := false })
              vregs := w.2.vregs.map fun r => (r.1, { r.2 with lap := false })
              uregs := w.2.uregs.map fun r => (r.1, { r.2 with lap := false }) }) }
      s.freePorts tm.core

/-- TEAM_SWAP_OUT (R364): a team that is to leave its core and has stopped is saved. -/
def execTeamSwapOut (team : Nat) (s : State) : Res :=
  match s.teams.get? team with
  | none => .next s
  | some tm => .next (if tm.stopping then s.swapOut team else s)

end Sys2Proof.Machine
end

