-- ==== Sys2Proof/Machine/Control.lean ====
section
/-!
DEFINITION. Code memory and clause boundaries (R80, R81), control transfer (R158 to R161), join records (R162 to
R164), EXIT, YIELD, traps, SJOIN and MAT (R166 to R170), and how parked lanes go on (R278, Table 13.3).
-/
namespace Sys2Proof.Machine
open Sys2Proof

/-! ## Code memory -/

/-- A word of code, or why it cannot be read with one of the permissions `need`. -/
def State.codeRead (s : State) (need ctx va : Nat) : Except Trap Nat :=
  let dev := s.ctxDev ctx
  let c := s.canon dev (s.ctxName ctx).2 va
  match s.page? dev c.1 c.2.1 with
  | none => .error { cause := cPageFault, addr := va }
  | some p =>
    if Nat.land (Nat.land p.perm c.2.2) need = 0 then .error { cause := cPageFault, sub := 2, addr := va }
    else if p.revoked then .error { cause := cHostGone, addr := va }
    else
      match s.place? dev c.1 c.2.1 with
      | none => .error { cause := cProtection, addr := va }
      | some a => if s.poison.contains (a / 16) then .error { cause := cPoison, addr := va } else .ok (s.mem.getN a 8)

/-- A word of code, or why it cannot be fetched (R81). -/
def State.codeWord (s : State) (ctx va : Nat) : Except Trap Nat := s.codeRead 4 ctx va

/-- Whether an address is a clause boundary, walking from the boundary `pos` (R80); past a clause whose header
cannot be read, an aligned address is left to its fetch. -/
def State.boundary (s : State) (ctx target stop : Nat) : Nat → Nat → Bool
  | 0, _ => false
  | n + 1, pos =>
    if target = pos then decide (pos < stop)
    else if target < pos || stop ≤ pos then false
    else
      match s.codeWord ctx pos with
      | .ok w => State.boundary s ctx target stop n (pos + clauseBytes w)
      | .error _ => target % 8 == 0 && decide (target < stop)

/-- An address is a clause boundary of the image of a grid (R80). -/
def State.lands (s : State) (g : Option Grid) (target : Nat) : Bool :=
  match g with
  | none => false
  | some g => s.boundary g.ctx target (g.textVa + g.textLen) (g.textLen / 16 + 1) g.textVa

/-! ## Transfers of sub-waves (R158) -/

/-- A sub-wave divides: the first part with lanes keeps its number (R158, R162). -/
def Wave.divide (w : Wave) (k : Nat) (parts : List (Lanes × (SubWave → SubWave))) : Wave :=
  match w.subs.get? k, parts.filter fun p => p.1 != 0 with
  | some sub, (m, f) :: r =>
    let base := sub.passed
    r.foldl (fun w p => { w with subs := w.subs.set w.subs.fresh (p.2 { base with mask := p.1 }) })
      { w with subs := w.subs.set k (f { base with mask := m }) }
  | _, _ => w

/-- The clause boundary after the clause of a sub-wave. -/
def SubWave.after (sub : SubWave) : Nat := (sub.clause.map Clause.finish).getD sub.pc

/-- The kinds of transfer: how the call depth changes, what else refuses it, and what it does to the wave. -/
structure Jump where
  depth : Nat → Nat
  refuse : Nat → Option Trap
  land : Nat → Nat → Lanes → Wave → Wave
  joins : Wave → Nat → List Nat → List Nat

/-- BRA and BRX (R159). -/
def jumpBranch : Jump := ⟨id, fun _ => none, fun _ _ _ w => w, fun _ _ l => l⟩

/-- CALL and CALLX (R160). -/
def jumpCall : Jump :=
  { depth := fun d => d + 1
    refuse := fun d => if d = 63 then some { cause := cStackOverflow } else none
    land := fun d ret m w => (w.closeWindow (d + 1) m).wr (d + 1) (vref 62 2) m fun _ => ret
    joins := fun _ _ l => l }

/-- RET (R161, R164). -/
def jumpRet : Jump :=
  { depth := fun d => d - 1
    refuse := fun d => if d = 0 then some { cause := cStackOverflow, sub := 1 } else none
    land := fun d _ m w => (w.closeWindow d m).depart m (some d)
    joins := fun w d l => l.filter fun n => (w.joins.get? n).map JoinRec.depth != some d }

/-- A transfer in a sub-wave (R158): lanes are checked, grouped by target, and part. -/
def transferBody (target : Ex → Use → Nat → Nat) (j : Jump) (u : Use) (s : State) (e : Ex) (p : Lanes) : Issue :=
  let g := s.grids.get? e.team.grid
  let d := e.sub.depth
  let run := e.runs u p
  let good := run.filter fun i => s.lands g (target e u i)
  let bad := (run.filter fun i => !good.contains i).map fun i => (i, { cause := cBadTarget, addr := target e u i })
  let more := match j.refuse d with
    | some t => good.map fun i => (i, t)
    | none => []
  let lanes := if more.isEmpty then good else []
  let go := lanesOf fun i => lanes.contains i
  let targets := (lanes.map fun i => target e u i).eraseDups
  let traps := e.staleTraps u p ++ bad ++ more
  .jump s { traps := traps, stale := e.staleSets u p } fun s =>
    (s.takeTraps e.t e.w e.k traps e.sub.wordPc false).modWave e.t e.w fun w =>
      let w : Wave := j.land d e.sub.after go w
      let parts : List (Lanes × (SubWave → SubWave)) := targets.map fun a =>
        (lanesOf fun i => go.getLsbD i && target e u i == a,
         fun (sub : SubWave) => SubWave.goto { sub with depth := j.depth d, joins := j.joins w d sub.joins } a)
      let rest : Lanes × (SubWave → SubWave) := (e.sub.mask &&& ~~~p, fun sub => sub.goto e.sub.after)
      (w.divide e.k (parts ++ [rest])).closeJoins

/-- A target relative to the instruction word (R158). -/
def relTarget (imm : BitVec 24) (pc : Nat) : Nat := (pc + 8 * sext24 imm) % 2 ^ 64

/-- The target in source A of a lane. -/
def laneTarget (e : Ex) (u : Use) (i : Nat) : Nat := e.src u i 0

/-- What a transfer does to a span (R159 to R161); none peels. -/
structure SpanJump where
  ok : Span → Bool
  land : Span → Nat → Span

/-- BRA and BRX in a span. -/
def spanBranch : SpanJump := ⟨fun _ => true, fun sp _ => sp⟩
/-- CALL and CALLX in a span (R160). -/
def spanCall : SpanJump :=
  ⟨fun sp => sp.depth != 63, fun sp ret =>
    let sp := sp.closeWindow (sp.depth + 1)
    { sp with depth := sp.depth + 1 }.put (vref 62 2) (.u (BitVec.ofNat 64 ret))⟩
/-- RET in a span (R161). -/
def spanRet : SpanJump :=
  ⟨fun sp => sp.depth != 0, fun sp _ => { sp.closeWindow sp.depth with depth := sp.depth - 1 }⟩

/-- A transfer in a span: an A target, a bad target or a trap peels (R32, R159). The sources are released before the return
address is written (R64). -/
def transferAct (target : Option Nat) (stale : Bool) (j : SpanJump) (u : Use) (i : Nat) (g : Grid) (s : State) (sp : Span) :
    SpanAct :=
  match target with
  | none => .peel
  | some a =>
    let ret := (sp.clause.map Clause.finish).getD sp.pc
    if !s.lands (some g) a || !j.ok sp || decide (1024 < (j.land (sp.lastUse u.rd) ret).words) then .peel
    else .jump s { stale := stale } fun s => s.modSpan i fun q => (j.land q ret).goto a

/-- A transfer to a target in a register, in a span. -/
def regAct (j : SpanJump) (u : Use) (i : Nat) (g : Grid) (s : State) (sp : Span) : SpanAct :=
  match sp.sources u with
  | some [(.u a, stale)] => if stale && sp.strictReg then .peel else transferAct (some a.toNat) stale j u i g s sp
  | _ => .peel

/-- BRA (R158, R159). -/
def execBra (x : Bra) (s : State) : Res :=
  issue (.bra x) false true (transferBody (fun e _ _ => relTarget x.imm e.sub.wordPc) jumpBranch)
    (fun u i g s sp => transferAct (some (relTarget x.imm sp.wordPc)) false spanBranch u i g s sp) s

/-- BRX (R158, R159). -/
def execBrx (x : Brx) (s : State) : Res :=
  issue (.brx x) false true (transferBody laneTarget jumpBranch) (regAct spanBranch) s

/-- CALL (R160). -/
def execCall (x : Bra) (s : State) : Res :=
  issue (.call x) false true (transferBody (fun e _ _ => relTarget x.imm e.sub.wordPc) jumpCall)
    (fun u i g s sp => transferAct (some (relTarget x.imm sp.wordPc)) false spanCall u i g s sp) s

/-- CALLX (R160). -/
def execCallx (x : Brx) (s : State) : Res :=
  issue (.callx x) false true (transferBody laneTarget jumpCall) (regAct spanCall) s

/-- RET (R161). -/
def execRet (x : Ret) (s : State) : Res :=
  issue (.ret x) false true (transferBody laneTarget jumpRet) (regAct spanRet) s

/-! ## Join records (R162, R163) -/

/-- JOINPT (R162). -/
def joinptBody (_ : Use) (s : State) (e : Ex) (_ : Lanes) : Issue :=
  if 16 ≤ e.sub.joins.length then
    .done s { traps := allLanes e.sub.mask { cause := cStackOverflow, sub := 2 } } .result none
  else
    .done (s.modWave e.t e.w fun w =>
      { w with joins := w.joins.set w.joinSeq { mask := e.sub.mask, depth := e.sub.depth }, joinSeq := w.joinSeq + 1 }.modSub
        e.k fun sub => { sub with joins := w.joinSeq :: sub.joins }) {} .result none

/-- JOINPT (R162). -/
def execJoinpt (x : Bare) (s : State) : Res := peelOp (.joinpt x) joinptBody s

/-- SYNC (R163): the lanes arrive, and wait in `hold` until the record closes. -/
def syncBody (_ : Use) (s : State) (e : Ex) (_ : Lanes) : Issue :=
  let h : Hold := { kind := .sync, lanes := e.sub.mask }
  if e.sub.hold.isSome then .hold s h
  else if ((e.sub.joins.head?.bind fun n => e.wave.joins.get? n).map JoinRec.depth) != some e.sub.depth then
    .done s { traps := allLanes e.sub.mask { cause := cStackOverflow, sub := 3 } } .result none
  else
    .jump s {} fun s => s.modWave e.t e.w fun w => (w.modSub e.k fun sub => { sub with hold := some h }).closeJoins

/-- SYNC (R163). -/
def execSync (x : Bare) (s : State) : Res := peelOp (.sync x) syncBody s

/-! ## EXIT and YIELD (R166, R167) -/

/-- EXIT in a team (R166). -/
def exitBody (_ : Use) (s : State) (e : Ex) (p : Lanes) : Issue :=
  .jump s {} fun s =>
    (s.removeLanes e.t e.w p).modWave e.t e.w fun w =>
      w.divide e.k [(e.sub.mask &&& ~~~p, fun sub => sub.goto e.sub.after)]

/-- A span ends: its teams have retired (R41, R166). -/
def State.retireSpan (s : State) (i : Nat) (sp : Span) : State :=
  let now := s.devTime (s.ctxDev sp.ctx)
  let s := (s.dropSlot i).untagAll sp.flights
  let s := { s with spans := s.spans.del i, cur := if s.cur = some (Focus.span i) then none else s.cur }
  (s.modGrid sp.grid fun g => { g with retired := g.retired + sp.box.count, progressTick := now }).checkJoin sp.grid

/-- EXIT (R166). -/
def execExit (x : GBare) (s : State) : Res :=
  withSweep (withLaps s (issue (.exit x) false true exitBody
    (fun _ i _ s sp => if sp.quiet then .jump s {} fun s => s.retireSpan i sp else .stall (s.drainSpan i sp)) s))

/-- The issue port of a wave. -/
def portOf (w : Nat) : Nat := w % 2

/-- YIELD (R167). -/
def yieldBody (_ : Use) (s : State) (e : Ex) (_ : Lanes) : Issue :=
  .done (s.modSub e.t e.w e.k fun sub => { sub with yieldTo := some (s.cycle + 32, portOf e.w) }) {} .result none

/-- YIELD (R167). -/
def execYield (x : Bare) (s : State) : Res := peelOp (.yield x) yieldBody s

/-- YIELD_TIMEOUT (R167): 32 cycles have passed. -/
def execYieldTimeout (team wave sub : Nat) (s : State) : Res :=
  .next (s.modSub team wave sub fun k =>
    match k.yieldTo with
    | some (c, _) => if c ≤ s.cycle then { k with yieldTo := none } else k
    | none => k)

/-! ## Span control (R169, R170) -/

/-- SJOIN in a span (R34, R169): the flag has fallen when the span parks. -/
def sjoinAct (i : Nat) (s : State) (sp : Span) : SpanAct :=
  if !sp.quiet then .stall (s.drainSpan i sp)
  else
    .jump s {} fun s =>
      let s := (s.finishSpan i sp.seq).dropSlot i
      let s := s.modSpan i fun q =>
        { q with
          pc := sp.pc, clause := sp.clause, started := sp.started, slot := sp.slot
          state := .parkedJoin sp.wordPc (s.devTime (s.ctxDev sp.ctx)) }
      ({ s with cur := if s.cur = some (Focus.span i) then none else s.cur }).checkJoin sp.grid

/-- SJOIN (R169). -/
def execSjoin (x : Bare) (s : State) : Res :=
  issue (.sjoin x) false false (fun _ s _ _ => .done s {} .result none) (fun _ i _ s sp => sjoinAct i s sp) s

/-- MAT (R170). -/
def execMat (x : Bare) (s : State) : Res := peelOp (.mat x) (fun _ s _ _ => .done s {} .result none) s

/-! ## TRAP and BRK (R168) -/

/-- A trap that the program raises (R168). -/
def codeTrap (cause : Nat) (imm : BitVec 24) : Trap := { cause := cause, sub := imm.toNat % 256, addr := imm.toNat }

/-- TRAP and BRK in a team (R168). -/
def trapBody (t : Trap) (_ : Use) (s : State) (_ : Ex) (p : Lanes) : Issue := .done s { traps := allLanes p t } .result none

/-- TRAP (R168). -/
def execTrap (x : CodeOp) (s : State) : Res :=
  issue (.trap x) true false (trapBody (codeTrap cSoftware x.imm)) (fun _ _ _ _ _ => .peel) s

/-- BRK (R168). -/
def execBrk (x : CodeOp) (s : State) : Res :=
  issue (.brk x) true false (trapBody (codeTrap cBreakpoint x.imm)) (fun _ _ _ _ _ => .peel) s

/-! ## Parked lanes go on (R278, Table 13.3) -/

/-- The lanes execute the instruction again; a trap at the start of a clause makes them arrive again (R278). -/
def SubWave.retry (sub : SubWave) (p : Park) : SubWave :=
  let sub := { sub with park := none, hold := none, started := false, retried := true, stepping := 0 }
  if p.trap.cause = cStep then
    match sub.stepFrom with
    | some (c, ix) => { sub with clause := some c, pc := c.addr, slot := ix, single := false }
    | none => { sub with single := false }
  else sub

/-- The lanes continue after the instruction; after a step they stand there already (R278, Table 13.3). -/
def SubWave.resume (sub : SubWave) (p : Park) : SubWave :=
  if p.entry then sub.retry p
  else if p.trap.cause = cStep then { sub with park := none, started := false, stepping := 0, single := false }
  else { sub.advance with park := none, started := false }

/-- The interrupted place of a handler, with its trap parked again. -/
def SubWave.leaveHandler (sub : SubWave) (h : Handler) (w : Wave) : SubWave :=
  { sub with
    park := some h.park, handler := none, depth := h.park.depth
    clause := h.clause, pc := h.pc, slot := h.slot, started := false
    joins := sub.joins.filter fun n => ((w.joins.get? n).map fun j => decide (j.depth ≤ h.park.depth)).getD false }

/-- TRAPRET (R278). -/
def trapretBody (mode : RetMode) (_ : Use) (s : State) (e : Ex) (p : Lanes) : Issue :=
  match e.sub.handler with
  | none => .done s { traps := allLanes p { cause := cPrivileged, sub := 1 } } .result none
  | some h =>
    if p = 0 then .done s {} .result none
    else
      .jump s {} fun s =>
        let s := s.modWave e.t e.w fun w =>
          let open_ := (List.range (e.sub.depth - h.park.depth)).map fun i => h.park.depth + 1 + i
          let w := open_.foldl (fun (w : Wave) d => (w.closeWindow d p).depart p (some d)) w
          let w := { w with trapCause := 0, trapPc := 0, trapAddr := 0 }
          let back (sub : SubWave) : SubWave :=
            let sub := sub.leaveHandler h w
            match mode with
            | .resume => sub.resume h.park
            | .retry => sub.retry h.park
            | .kill => sub
            | .host => { sub with park := some { h.park with stage := .pending, forceRec := true } }
          (w.divide e.k [(p, back), (e.sub.mask &&& ~~~p, fun sub => sub.goto e.sub.after)]).closeJoins
        match mode with
        | .resume | .retry => s
        | .kill => s.killLanes e.t e.w p
        | .host => s.deliverTrap e.t e.w e.k

/-- TRAPRET (R278); in a span it traps, and so peels. -/
def execTrapret (x : Trapret) (s : State) : Res :=
  withSweep (withLaps s (peelOp (.trapret x) (trapretBody x.mode) s))

end Sys2Proof.Machine
end

