-- ==== Sys2Proof/Machine/System.lean ====
section
/-!
DEFINITION. The launch of grids (R14, R28, R74, R110, R276), the acceptance of service calls (R274, R422), control
and status registers (R55 to R61, R275), and the system instructions of Table 8.10.
-/
namespace Sys2Proof.Machine
open Sys2Proof

/-! ## Launch records (Table 8.11) -/

/-- Successive 8-byte words read by a unit of the device. -/
def State.unitWords (s : State) (ctx ea : Nat) : Nat → Except Trap (State × List Nat)
  | 0 => .ok (s, [])
  | n + 1 =>
    match s.unitRead ctx 8 ea with
    | .error t => .error t
    | .ok (s, v) =>
      match State.unitWords s ctx (ea + 8) n with
      | .error t => .error t
      | .ok (s, l) => .ok (s, v :: l)

/-- Every word of a clause can be read, for data or for execution. -/
def State.clauseReads (s : State) (ctx pos bytes : Nat) : Bool :=
  (List.range (bytes / 8)).all fun k => (s.codeRead 5 ctx (pos + 8 * k)).isOk

/-- The clause boundaries of a .text section; none where it cannot be read or does not walk exactly to its end (R80, R110). -/
def State.walk (s : State) (ctx stop : Nat) : Nat → Nat → Option (List Nat)
  | 0, pos => if pos = stop then some [] else none
  | n + 1, pos =>
    if pos = stop then some []
    else if stop < pos then none
    else
      match s.codeRead 5 ctx pos with
      | .error _ => none
      | .ok w =>
        if s.clauseReads ctx pos (min (clauseBytes w) (stop - pos)) then
          (State.walk s ctx stop n (pos + clauseBytes w)).map fun l => pos :: l
        else none

/-- Base and length of .text from the image record of a pool (R106). -/
def State.imageOf (s : State) (ctx pool : Nat) : Except Trap (State × Option (Nat × Nat)) :=
  match s.unitWords ctx pool 2 with
  | .error t => .error t
  | .ok (s, h) =>
    let count := (h[0]?).getD 0 % 2 ^ 32
    let off := (h[1]?).getD 0 % 2 ^ 32
    if count = 0 || off % 8 ≠ 0 then .ok (s, none)
    else
      match s.unitWords ctx (pool + off) 5 with
      | .error t => .error t
      | .ok (s, e) =>
        if (e[0]?).getD 0 = 6 + 5 * 2 ^ 16 then .ok (s, some ((e[1]?).getD 0, (e[2]?).getD 0)) else .ok (s, none)

/-- Some bits of a word. -/
def bits (w lo n : Nat) : Nat := w / 2 ^ lo % 2 ^ n

/-- A launch record and kernel header as a grid, or the status that refuses them (R14, R110, R276); `item` marks
LAUNCH, which allows no MSI-X vector. -/
def State.checkLaunch (s : State) (ctx rec : Nat) (ws : List Nat) (item : Bool) : State × Except Nat Grid :=
  let w (i : Nat) : Nat := (ws[i]?).getD 0
  let flags := bits (w 3) 32 32
  let msix := bits (w 8) 0 32
  if flags / 16 ≠ 0 || flags % 8 > 5 || w 4 % 8 ≠ 0 || msix > 2048 || (item && msix ≠ 0) || bits (w 8) 32 32 ≠ 0 ||
      ((ws.drop 10).take 6).any (fun x => x != 0) then (s, .error 3)
  else
    match s.imageOf ctx (w 0) with
    | .error _ => (s, .error 2)
    | .ok (s, none) => (s, .error 2)
    | .ok (s, some (base, len)) =>
      match s.unitWords ctx (w 1) 8 with
      | .error _ => (s, .error 2)
      | .ok (s, hs) =>
        let h (i : Nat) : Nat := (hs[i]?).getD 0
        let entry := bits (h 0) 32 32
        let tx := bits (h 1) 0 16
        let ty := bits (h 1) 16 16
        let tz := bits (h 1) 32 16
        let npar := bits (h 1) 48 8
        let policy := bits (h 1) 56 8
        let reg := bits (h 2) 0 32
        let stf := bits (h 2) 32 32
        let l2 := bits (h 3) 0 32
        let acc := bits (h 3) 32 8
        let stash := bits (h 4) 0 32
        let trap := bits (h 4) 32 32
        let vol := tx * ty * tz
        let bad := npar > 16 || policy > 1 || bits (h 3) 40 24 ≠ 0 || bits (h 5) 32 32 ≠ 0 || h 6 ≠ 0 || h 7 ≠ 0 ||
          vol < 16 || 1024 < vol || vol % 16 ≠ 0 || stash % 16 ≠ 0 || stf < stash || reg < vol / 16 * 64 ||
          8192 < reg || 1048576 < stf || 805306368 < l2 || 32 < acc
        match s.walk ctx (base + len) (len / 16 + 1) base with
        | none => (s, .error 2)
        | some bs =>
          if bad || base % 8 ≠ 0 || !bs.contains (base + entry) || (trap != 0xFFFFFFFF && !bs.contains (base + trap)) then
            (s, .error 2)
          else
            let gx := bits (w 2) 0 32
            let gy := bits (w 2) 32 32
            let gz := bits (w 3) 0 32
            if gx = 0 || gy = 0 || gz = 0 || 2 ^ 48 < gx * gy * gz then (s, .error 1)
            else
              let live := s.grids.filter fun g => !g.2.complete && s.ctxDev g.2.ctx == s.ctxDev ctx
              if 16384 ≤ live.length then (s, .error 4)
              else
                (s, .ok
                  { ctx := ctx, num := 0, record := rec
                    gx := gx, gy := gy, gz := gz, tx := tx, ty := ty, tz := tz
                    params := ((ws.drop 16).take npar).map (BitVec.ofNat 64)
                    textVa := base, textLen := len, poolVa := w 0, entry := base + entry
                    trapBase := if trap = 0xFFFFFFFF then 0 else base + trap
                    policyTeams := policy = 1
                    floorReg := reg, floorStash := stf, floorL2 := l2, floorAcc := acc, stash := stash
                    scope := (Scope.ofCode (flags % 8)).getD .sys, signal := w 4, msix := msix
                    affinity := toBit (flags / 8), affb := BitVec.ofNat 64 (w 6), affs := BitVec.ofNat 64 (w 7) })

/-- The span of a whole grid at its kernel's entry (R17, R73, R74). -/
def Grid.firstSpan (g : Grid) (key : Nat) (c : Ctx) : Span :=
  { grid := key, ctx := g.ctx
    box := { bx0 := 0, bx1 := g.across 0, by0 := 0, by1 := g.across 1, bz0 := 0, bz1 := g.across 2 }
    pc := g.entry
    uregs := (List.range g.params.length).map fun i => (i, Form.u ((g.params[i]?).getD 0))
    ctl := c.ctl, seed := c.seed }

/-- An accepted grid: its number, its record's STATUS and GRID, and its span, or its cursor under the policy TEAMS
(R17, R28). -/
def State.createGrid (s : State) (g : Grid) (depth prio : Nat) (parent queue : Option Nat) : State × Nat :=
  let dev := s.ctxDev g.ctx
  let v := s.dev dev
  let key := s.nextId
  let g := { g with num := v.gridSeq + 1, depth := depth, prio := prio, parent := parent, queue := queue, age := v.gridAge
                    progressTick := (s.fdie (dev * fndsPer s.pkg.mode)).ltime.toNat }
  let sp := g.firstSpan key ((s.ctxs.get? g.ctx).getD { dev := dev, asid := 0 })
  let s := s.modDev dev fun v => { v with gridSeq := v.gridSeq + 1, gridAge := v.gridAge + 1 }
  let s := { s with grids := s.grids.set key g, nextId := key + 2 }
  let s := if g.policyTeams then { s with cursors := s.cursors.set (key + 1) { span := sp, age := key + 1 } }
    else { s with spans := s.spans.set (key + 1) sp }
  ((s.unitPut g.ctx 8 (g.record + 0x28) 0).unitPut g.ctx 8 (g.record + 0x48) g.num, key)

/-! ## Acceptance of service calls (R274, R422, R424) -/

/-- A call from the words of its parameter block, with the code that the unit will carry out. -/
def callOf (dev : Nat) (who : Caller) (block ctx flight : Nat) (ws : List Nat) : Nat × Call :=
  let w (i : Nat) : Nat := (ws[i]?).getD 0
  let item := match who with
    | .item _ _ _ _ => true
    | .host _ _ => false
  let irq := toBit (w 0 / 2 ^ 16)
  (bits (w 0) 0 8,
   { dev := dev, caller := who, block := block, counter := w 1, scope := bits (w 2) 0 8, irq := irq
     vector := bits (w 2) 32 32, ctx := if item then ctx else bits (w 3) 0 32
     args := (ws.drop 8).map (BitVec.ofNat 64), flight := flight
     irqPort := match who with
       | .host p _ => p
       | .item _ _ _ _ => 0
     bad := bits (w 0) 8 8 ≠ 0 || bits (w 0) 17 15 ≠ 0 || (item && irq) || w 1 % 8 ≠ 0 || bits (w 2) 0 8 > 5 ||
       bits (w 2) 8 24 ≠ 0 || (irq && bits (w 2) 32 32 ≥ 2048) || bits (w 3) 32 32 ≠ 0 })

/-- A call enters the unit's queue (R423). -/
def State.acceptCall (s : State) (dev : Nat) (c : Nat × Call) : State :=
  s.modDev dev fun v => { v with calls := v.calls ++ [c] }

/-- The device-callable calls (Table 15.6). -/
def deviceCallable (code : Nat) : Bool := [0x03, 0x0E, 0x0F, 0x23, 0x25, 0x2E].contains code

/-- An aligned run of bytes lies in device memory of the context's partition device, and passes Table 7.4. -/
def State.inDevice (s : State) (x : Accessor) (w : Want) (ea : Nat) : Except Trap Unit :=
  match s.resolve x w ea with
  | .error t => .error (if apertureBase ≤ ea ∧ ea < 2 ^ 56 then { cause := cProtection, addr := ea } else t)
  | .ok (.mem l place) =>
    if l.dev = s.ctxDev x.ctx && place < 2 ^ 70 then .ok () else .error { cause := cProtection, addr := ea }
  | .ok _ => .error { cause := cProtection, addr := ea }

/-- SVC (R274). -/
def svcBody (code : Nat) (u : Use) (s : State) (e : Ex) (p : Lanes) : Issue :=
  once u s e p fun src r =>
    let s := s.escapeTeam e.t
    let ka := src 0
    if ka % 256 ≠ 0 then strike s p r { cause := cMisaligned, addr := ka }
    else
      match s.inDevice (s.accessorOf e) { n := 8, rd := false, wr := true } ka with
      | .error t => strike s p r t
      | .ok _ =>
        if !deviceCallable code then strike s p r { cause := cPrivileged }
        else if s.unitsBusy e.team.ctx ka 256 true then .hold s { kind := .svc, lanes := p }
        else
          match s.unitWords e.team.ctx ka 32 with
          | .error t => strike s p r t
          | .ok (s, ws) =>
            let dev := s.ctxDev e.team.ctx
            let c := callOf dev (.item e.team.ctx e.team.core e.t e.w) ka e.team.ctx e.flightNo ws
            .done (s.acceptCall dev (if c.1 = code then c.1 else 0, c.2)) r .engine none

/-- SVC (R274). -/
def execSvc (x : Svc) (s : State) : Res := peelOp (.svc x) (svcBody x.code.toNat) s

/-! ## Control and status registers (R55 to R62, R275) -/

/-- A capacity register (Table 2.7). -/
def Cap.word (c : Cap) : Nat :=
  c.amount % 2 ^ 32 + c.retired % 64 * 2 ^ 32 + bit c.spareUsed * 2 ^ 38 + c.gen.toNat * 2 ^ 48

/-- TAGRDY: tags with no copy outstanding. -/
def Team.tagrdy (t : Team) : Nat :=
  (List.range 64).foldl (fun m n => if t.tag n == .idle || t.tag n == .done then m + 2 ^ n else m) 0

/-- The value of a register of Table 2.3. -/
def State.csr (s : State) (e : Ex) (ix : Nat) : Nat :=
  let core := e.team.core
  let inH (v : W64) : Nat := if e.sub.handler.isSome then v.toNat else 0
  if ix = 0x000 then e.wave.ctl.toNat
  else if ix = 0x001 then e.wave.tstat.toNat
  else if ix = 0x002 then e.wave.fpflags.toNat
  else if ix = 0x003 then e.wave.seed.toNat
  else if ix = 0x010 then e.team.tagrdy
  else if ix = 0x011 then e.team.bankconf.toNat
  else if ix = 0x012 then e.team.mprog.word
  else if ix = 0x020 then (s.core core).capReg.word
  else if ix = 0x021 then (s.core core).capStash.word
  else if ix = 0x022 then (s.core core).capAcc.word
  else if ix = 0x023 then (s.cdie (dieOf core)).capL2.word
  else if ix = 0x030 then (s.cdie (dieOf core)).phase
  else if ix = 0x031 then s.coreTime core
  else if ix = 0x040 then ((s.grids.get? e.team.grid).map fun g => g.trapBase).getD 0
  else if ix = 0x041 then inH e.wave.trapCause
  else if ix = 0x042 then inH e.wave.trapPc
  else if ix = 0x043 then inH e.wave.trapAddr
  else 0

/-- The flight of the instruction of a sub-wave, or the next. -/
def Ex.ownFlight (e : Ex) : Nat := (e.sub.hold.bind fun h => h.flight).getD e.wave.seq

/-- A hold of an instruction that has not completed: a SYNC and a team barrier's instructions have, though lanes wait there
(R163, R224). -/
def HoldKind.unfinished : HoldKind → Bool
  | .sync | .barArv | .barWait => false
  | .barmWait | .waitv | .phwait | .twait | .cntwait | .lwait | .copyTag | .copyCheck | .copyq | .svc | .mma | .acfg | .smap
  | .phclose | .fence | .access => true

/-- What a CSRR of TSTAT or FPFLAGS still waits for: operations that end of themselves end now (R275). -/
def State.settleFlights (s : State) (e : Ex) : State :=
  (e.wave.flights.filter fun f => decide (f.1 < e.ownFlight) && !f.2.done && f.2.kind.own).foldl
    (fun s f => s.finishWave e.t e.w f.1) s

/-- Earlier instructions of the wave have not completed: in flight, or holding the lanes of another sub-wave (R275). -/
def Wave.unfinished (w : Wave) (e : Ex) : Bool :=
  (w.flights.any fun f => decide (f.1 < e.ownFlight) && !f.2.done) ||
  w.subs.any fun k => k.1 != e.k &&
    (k.2.hold.map fun h => h.kind.unfinished && decide (h.order < e.order)).getD false

/-- CSRR (R275). -/
def csrrBody (ix : Nat) (d : RegRef) (u : Use) (s : State) (e : Ex) (p : Lanes) : Issue :=
  once u s e p fun _ r =>
    let sticky := ix == 0x001 || ix == 0x002
    let s := if sticky then s.settleFlights e else s
    let busy := sticky && ((s.wave? e.t e.w).map fun w => w.unfinished e).getD false
    if busy then .hold s { kind := .access, lanes := p } else .done s (r.give d p (s.csr e ix)) .result none

/-- CSRR (R275). -/
def execCsrr (x : Csrr) (s : State) : Res := peelOp (.csrr x) (csrrBody x.ix.toNat (x.d.ref 2)) s

/-- CTL as a write leaves it (Table 2.4, R57). -/
def ctlWrite (old v : W64) : W64 :=
  let chk := v &&& 6
  let chk := if chk = 0 || chk = 2 then chk else old &&& 6
  (v &&& 0x7F1) ||| chk ||| (old &&& 8)

/-- A write of SEED: key and counter of the participants (R124). -/
def Wave.reseed (w : Wave) (team wave : Nat) (v : W64) (p : Lanes) : Wave :=
  { w with
    seed := v
    keys := laneList.map fun i => if p.getLsbD i then srKey v team wave else (w.keys[i]?).getD 0
    draws := laneList.map fun i => if p.getLsbD i then 0 else (w.draws[i]?).getD 0 }

/-- A register of Table 2.3 written (R55 to R58, R60, R124). -/
def State.csrWrite (s : State) (e : Ex) (ix : Nat) (v : W64) (p : Lanes) : State :=
  let wv (f : Wave → Wave) : State := s.modWave e.t e.w f
  if ix = 0x000 then wv fun w => { w with ctl := ctlWrite w.ctl v }
  else if ix = 0x001 then wv fun w => { w with tstat := w.tstat &&& ~~~v }
  else if ix = 0x002 then wv fun w => { w with fpflags := w.fpflags &&& ~~~v }
  else if ix = 0x003 then (if e.wave.repro then s else wv fun w => w.reseed e.team.index e.w v p)
  else if ix = 0x011 then s.modTeam e.t fun t => { t with bankconf := v }
  else s

/-- CSRW (R275). -/
def execCsrw (x : Csrw) (s : State) : Res :=
  peelOp (.csrw x) (fun u s e p => once u s e p fun src r =>
    .done (s.csrWrite e x.ix.toNat (BitVec.ofNat 64 (src 0)) p) r .result none) s

/-! ## LAUNCH and LWAIT (R276, R277) -/

/-- LAUNCH (R276): a release, which waits for what engines still have to access for its items (R292, R309). -/
def launchBody (d : RegRef) (u : Use) (s : State) (e : Ex) (p : Lanes) : Issue :=
  once u s e p fun src r =>
    let s := s.escapeTeam e.t
    let ka := src 0
    if ka % 256 ≠ 0 then strike s p r { cause := cMisaligned, addr := ka }
    else if s.releaseWaits e (lanesIn p) || s.unitsBusy e.team.ctx ka 256 false || s.unitsBusy e.team.ctx ka 256 true then .hold s (waitHold p)
    else
      match s.inDevice (s.accessorOf e) { n := 8, rd := true, wr := false } ka, s.grids.get? e.team.grid with
      | .error t, _ => strike s p r t
      | .ok _, none => strike s p r { cause := cProtection, addr := ka }
      | .ok _, some parent =>
        if 10 ≤ parent.depth then strike s p r { cause := cDepth, addr := ka }
        else
          match s.unitWords e.team.ctx ka 32 with
          | .error t => strike s p r t
          | .ok (s, ws) =>
            match s.checkLaunch e.team.ctx ka ws true with
            | (s, .error code) => .done s (r.give d p code) .result none
            | (s, .ok g) =>
              -- the record of a grid that is accepted is written (R276)
              match s.inDevice (s.accessorOf e) { n := 8, rd := false, wr := true } ka with
              | .error t => strike s p r t
              | .ok _ =>
              let a := s.createGrid g (parent.depth + 1) parent.prio (some e.t) parent.queue
              .done (a.1.modTeam e.t fun t => { t with children := t.children + 1, childGrids := t.childGrids ++ [a.2] })
                (r.give d p 0) .result none

/-- LAUNCH (R276). -/
def execLaunch (x : Launch) (s : State) : Res := peelOp (.launch x) (launchBody (x.d.ref 2)) s

/-- LWAIT (R277). -/
def lwaitBody (all : Bool) (u : Use) (s : State) (e : Ex) (p : Lanes) : Issue :=
  once u s e p fun src r =>
    let wait (s : State) : Issue := .hold s { kind := .lwait, lanes := p }
    if all then
      if e.team.children = 0 then .done s r .result none else wait s
    else
      match s.load { s.accessor e (lowLane p) with again := true } 8 ((src 0 + 0x28) % 2 ^ 64) with
      | .trap s t => strike s p r t
      | .wait s => wait s
      | .ok s v => if v = 0 then wait s else .done s r .result none

/-- LWAIT (R277). -/
def execLwait (x : Lwait) (s : State) : Res := peelOp (.lwait x) (lwaitBody x.a.isNone) s

/-- NOP (R279). -/
def execNop (x : Bare) (s : State) : Res :=
  issue (.nop x) false false (fun _ s _ _ => .done s {} .result none) (fun _ _ _ s _ => .done s {} .result none) s

end Sys2Proof.Machine
end

