-- ==== Sys2Proof/Machine/Sched.lean ====
section
/-!
DEFINITION. Fetch and decode of clauses (R80, R81, R92), the choice of an issue port (R78, R355 to R357), results
(R138), delivery of traps (R386, R388), the frames of the pools (R66 to R68), and the placement of spans and teams
(R26, R34, R350 to R354).
-/
namespace Sys2Proof.Machine
open Sys2Proof

/-! ## Fetch (R80, R81, R92) -/

/-- Words of code in order, or the first that cannot be fetched. -/
def State.codeWords (s : State) (ctx : Nat) : Nat → Nat → Except Trap (List Nat)
  | _, 0 => .ok []
  | va, n + 1 =>
    match s.codeWord ctx va with
    | .error t => .error t
    | .ok w =>
      match State.codeWords s ctx (va + 8) n with
      | .error t => .error t
      | .ok l => .ok (w :: l)

/-- The clause at an address, or TRAPPC and the trap of its start, in the order of R92. -/
def State.clauseAt (s : State) (g : Grid) (pc : Nat) : Except (Nat × Trap) Clause :=
  let stop := g.textVa + g.textLen
  if pc < g.textVa || stop ≤ pc || pc % 8 ≠ 0 then
    .error (if pc = stop then stop - 8 else pc, { cause := cBadTarget, addr := pc })
  else
    match s.codeWord g.ctx pc with
    | .error t => .error (pc, t)
    | .ok h =>
      match s.codeWords g.ctx (pc + 8) (min ((ClauseHeader.of h).count + 1) ((stop - pc) / 8 - 1)) with
      | .error t => .error (pc, t)
      | .ok ws =>
        match decodeClause pc (stop - pc) (BitVec.ofNat 64 h) (ws.map (BitVec.ofNat 64)) with
        | .ok c => .ok c
        | .error (ix, _) => .error (pc + 8 * ix, { cause := cIllegal })

/-- The lines of a clause, by canonical name. -/
def State.codeLines (s : State) (ctx : Nat) (c : Clause) : List LineRef :=
  let dev := s.ctxDev ctx
  ((List.range (c.hdr.count + 2)).map fun i =>
    let q := s.canon dev (s.ctxName ctx).2 (c.addr + 8 * i)
    lineOf dev q.1 q.2.1).eraseDups

/-- The first slot of a clause that holds an instruction. -/
def firstSlot (c : Clause) : Nat := (c.slots.head?.map fun x => x.ix).getD 0

/-- A sub-wave at a clause boundary fetches its clause, or takes the trap of its start. -/
def State.fetchSub (s : State) (e : Ex) : State :=
  match s.grids.get? e.team.grid with
  | none => s
  | some g =>
    if e.sub.clause.isSome || e.sub.park.isSome || e.sub.hold.isSome || e.team.state != .resident then s
    else
      match s.clauseAt g e.sub.pc with
      | .error (pc, t) => s.takeTraps e.t e.w e.k (allLanes e.sub.mask t) pc true
      | .ok c =>
        match s.obtainCode e.team.core (s.codeLines g.ctx c) with
        | (s, false) => s
        | (s, true) => s.modSub e.t e.w e.k fun k => { k with clause := some c, started := false, slot := firstSlot c }

/-- A span fetches its clause; a trap of its start peels it (R32, R92). -/
def State.fetchSpan (s : State) (i : Nat) (sp : Span) : State :=
  match s.grids.get? sp.grid, sp.state with
  | some g, .running core _ =>
    if sp.clause.isSome then s
    else
      match s.clauseAt g sp.pc with
      | .error _ => s.peelSpan i sp
      | .ok c =>
        match s.obtainCode core (s.codeLines g.ctx c) with
        | (s, false) => s
        | (s, true) => s.modSpan i fun q => { q with clause := some c, started := false, slot := firstSlot c }
  | _, _ => s

/-- CLAUSE_FETCH (R81). -/
def execClauseFetch (who : Focus) (s : State) : Res :=
  match who with
  | .sub t w k => .next (((s.ex? t w k).map fun e => s.fetchSub e).getD s)
  | .span i => .next (((s.spans.get? i).map fun sp => s.fetchSpan i sp).getD s)

/-! ## Ports (R78, R355, R356) -/

/-- Flags of a wait mask are zero. -/
def maskClear (flags : List Nat) (mask : Nat) : Bool :=
  (List.range 12).all fun f => !toBit (mask / 2 ^ f) || flagGet flags f == 0

/-- A sub-wave may start or restart its fetched clause. -/
def Ex.ready (e : Ex) : Bool :=
  e.mayIssue && e.sub.clause.isSome && !e.sub.started && e.sub.hold.isNone && e.sub.yieldTo.isNone &&
  (if e.sub.atStart then !e.team.stopping && !e.wave.haltAsked && maskClear e.wave.flags e.sub.waitMask else true)

/-- A span may start or go on with its fetched clause. -/
def Span.readyAt (sp : Span) : Bool :=
  match sp.clause with
  | none => false
  | some c => !sp.started && (sp.slot != firstSlot c || maskClear sp.flags c.hdr.wait)

/-- A port is held for a started clause that has not ended, trapped or been released (R78). -/
def State.inClause (s : State) (f : Focus) : Bool :=
  match f with
  | .sub t w k =>
    ((s.ex? t w k).map fun e =>
      e.sub.clause.isSome && e.sub.started && e.sub.hold.isNone && e.sub.park.isNone && e.team.state == .resident).getD false
  | .span i =>
    ((s.spans.get? i).map fun sp => sp.clause.isSome && sp.started && (match sp.state with
      | .running _ _ => true
      | _ => false)).getD false

/-- A port of a core. -/
def Core.port (c : Core) (p : Nat) : Port := (c.ports[p]?).getD {}

/-- The port holds no clause. -/
def State.portFree (s : State) (core port : Nat) : Bool :=
  match ((s.core core).port port).holder with
  | none => true
  | some f => !s.inClause f

/-- A candidate for a clause start, with the key of R356, lowest first. -/
structure Cand where
  f : Focus
  key : List Nat

/-- Lists of numbers in dictionary order. -/
def lexLt : List Nat → List Nat → Bool
  | [], [] => false
  | [], _ => true
  | _, [] => false
  | a :: as, b :: bs => decide (a < b) || (a == b && lexLt as bs)

/-- The lowest candidate. -/
def bestCand (l : List Cand) : Option Cand :=
  l.foldl (fun b c => match b with
    | none => some c
    | some d => if lexLt c.key d.key then some c else some d) none

/-- Ready sub-waves of a wave whose stall count has elapsed. -/
def State.readySubs (s : State) (t w : Nat) : List Ex :=
  match s.wave? t w with
  | none => []
  | some wv => wv.subs.filterMap fun k => (s.ex? t w k.1).bind fun e => if e.ready && decide (wv.stallTo ≤ s.cycle) then some e else none

/-- The waves stand at one instruction with every lane active (R39). -/
def State.alike (s : State) (t a b : Nat) : Bool :=
  (s.readySubs t a).any fun x => (s.readySubs t b).any fun y =>
    x.sub.mask == 0xFFFF && y.sub.mask == 0xFFFF && x.sub.pc == y.sub.pc && x.sub.slot == y.sub.slot

/-- The widest gang that a wave can issue in: of four only on a full core, of two only where both quads of the wave's port
work (R39, R355). -/
def State.gangOf (s : State) (core t w : Nat) : Nat :=
  let base := w - w % 4
  let mate := if w / 2 % 2 = 0 then w + 2 else w - 2
  let widest := (s.core core).gangMax (w % 2)
  if 4 ≤ widest && [base, base + 1, base + 2, base + 3].all fun v => s.alike t w v then 4
  else if 2 ≤ widest && s.alike t w mate then 2
  else 1

/-- The sub-wave of a wave that issues: the largest ageing count, then the lowest lane. -/
def chosenSub (l : List Ex) : Option Ex :=
  l.foldl (fun b e => match b with
    | none => some e
    | some d => if lexLt [255 - min e.sub.age 255, lowLane e.sub.mask] [255 - min d.sub.age 255, lowLane d.sub.mask] then
        some e else some d) none

/-- The candidates of a port (R356). -/
def State.candidates (s : State) (core port : Nat) : List Cand :=
  let prio (g : Nat) : Nat := 3 - ((s.grids.get? g).map fun g => g.prio).getD 0
  let old (w : Wave) : List Nat := if 255 ≤ w.age then [0, w.ageFull] else [1, 0]
  let waves := s.teams.flatMap fun p =>
    if p.2.on core then
      p.2.waves.filterMap fun w =>
        if w.1 % 2 = port then
          (chosenSub (s.readySubs p.1 w.1)).map fun e =>
            ({ f := .sub e.t e.w e.k
               key := old w.2 ++ [prio p.2.grid, p.2.order + 1, 4 - s.gangOf core p.1 w.1, w.1] } : Cand)
        else none
    else []
  let spans := s.spans.filterMap fun p =>
    match p.2.state with
    | .running c k =>
      if c = core && k % 2 = port && p.2.readyAt && decide (p.2.stallTo ≤ s.cycle) then
        some ({ f := .span p.1, key := [1, 0, prio p.2.grid, 0, 4, k] } : Cand)
      else none
    | _ => none
  waves ++ spans

/-- Two choices of a port are the same wave, or the same span. -/
def sameWave (f g : Focus) : Bool :=
  match f, g with
  | .sub t w _, .sub t' w' _ => t == t' && w == w'
  | .span i, .span j => i == j
  | _, _ => false

/-- The choice of a port: after a clause with YIELD set, another wave where one is ready (R78, R356). -/
def State.bestOn (s : State) (core port : Nat) : Option Cand :=
  let l := s.candidates core port
  match ((s.core core).port port).avoid with
  | none => bestCand l
  | some f => (bestCand (l.filter fun c => !sameWave c.f f)).or (bestCand l)

/-- The ageing counts of the chosen return to 0 (R43, R356). -/
def State.chosen (s : State) (f : Focus) : State :=
  match f with
  | .sub t w k => s.modWave t w fun wv => ({ wv with age := 0 } : Wave).modSub k fun q => { q with age := 0 }
  | .span _ => s

/-- Cycles pass for a wave: the ageing counts of a candidate and of its ready sub-waves grow, and saturate (R43, R356). -/
def Wave.aged (w : Wave) (cycle n : Nat) (ready : List Nat) : Wave :=
  { w with
    age := min (w.age + n) 255, ageFull := if w.age < 255 && decide (255 ≤ w.age + n) then cycle else w.ageFull
    subs := w.subs.map fun q => (q.1, if ready.contains q.1 then { q.2 with age := min (q.2.age + n) 255 } else q.2) }

/-- Cycles pass for every wave that is a candidate of its port and is not chosen. -/
def State.ageAll (s : State) (n : Nat) : State :=
  s.teams.foldl (fun s' p =>
    if p.2.state == .resident then
      p.2.waves.foldl (fun s' w =>
        match s.readySubs p.1 w.1 with
        | [] => s'
        | l => s'.modWave p.1 w.1 fun wv => wv.aged s.cycle n (l.map fun e => e.k)) s'
    else s') s

/-- A clause start by another wave ends the YIELD of a wave of the core (R167). -/
def State.endYields (s : State) (core port : Nat) (f : Focus) : State :=
  { s with teams := s.teams.map fun p =>
      if p.2.on core then
        (p.1, { p.2 with waves := p.2.waves.map fun w =>
          let other := match f with
            | .sub t v _ => !(t == p.1 && v == w.1)
            | .span _ => false
          if !other then w
          else
            (w.1, { w.2 with subs := w.2.subs.map fun k =>
              (k.1, if (k.2.yieldTo.map Prod.snd) == some port then { k.2 with yieldTo := none } else k.2) }) })
      else p }

/-- The clause that a sub-wave or span has fetched sets YIELD (R78). -/
def State.yieldsAfter (s : State) (f : Focus) : Bool :=
  match f with
  | .sub t w k => ((s.ex? t w k).bind fun e => e.sub.clause.map fun c => c.hdr.yield).getD false
  | .span i => ((s.spans.get? i).bind fun sp => sp.clause.map fun c => c.hdr.yield).getD false

/-- A port starts a clause. -/
def State.startClause (s : State) (core port : Nat) (f : Focus) : State :=
  let hint := if s.yieldsAfter f then some f else none
  let s := s.chosen f
  let s := s.endYields core port f
  let s := match f with
    | .sub t w k => s.modSub t w k fun q => { q with started := true }
    | .span i => s.modSpan i fun q => { q with started := true }
  let s := s.modCore core fun c =>
    { c with ports := listModify c.ports port fun p => { p with holder := some f, starts := p.starts + 1, avoid := hint } }
  { s with cur := some f }

/-- CLAUSE_START (R78, R356): a free port starts the clause of its best candidate. -/
def execClauseStart (core port : Nat) (s : State) : Res :=
  if !(s.coreUp core && s.portFree core port) then .next s
  else
    match s.bestOn core port with
    | none => .next s
    | some c => .next (s.startClause core port c.f)

/-! ## Pools (R66 to R68) -/

/-- A windowed register's key belongs to a depth. -/
def frameOf (key : Nat) : Option Nat := if key < 16 then none else some (key / 64)

/-- Keys of the lap checkpoint whose slots only it still holds (R70). -/
def Team.lapHeld (t : Team) (w : Nat) (wv : Wave) : Nat × Nat :=
  match t.lap.bind fun l => l.waves.get? w with
  | none => (0, 0)
  | some old =>
    ((old.vregs.filter fun p => !((wv.vregs.get? p.1).map fun x => x.lap).getD false).length,
     (old.uregs.filter fun p => !((wv.uregs.get? p.1).map fun x => x.lap).getD false).length)

/-- Vector slots that a wave occupies in the pool. -/
def Team.vslots (t : Team) (w : Nat) (wv : Wave) : Nat :=
  (wv.vregs.filter fun p => !((frameOf p.1).map fun d => wv.spilled.contains d).getD false).length +
    (if wv.lapSpilled then 0 else (t.lapHeld w wv).1)

/-- Uniform slots that a wave occupies. -/
def Team.uslots (t : Team) (w : Nat) (wv : Wave) : Nat :=
  (if wv.uspilled then 0
   else (wv.uregs.filter fun p => !((frameOf p.1).map fun d => wv.spilled.contains d).getD false).length) +
    (if wv.lapSpilled then 0 else (t.lapHeld w wv).2)

/-- Resident teams of a core. -/
def State.onCore (s : State) (core : Nat) : Tbl Team := s.teams.filter fun p => p.2.on core

/-- Vector and uniform slots in use on a core. -/
def State.slotsUsed (s : State) (core : Nat) : Nat × Nat :=
  (s.onCore core).foldl (fun a p => p.2.waves.foldl (fun a w => (a.1 + p.2.vslots w.1 w.2, a.2 + p.2.uslots w.1 w.2)) a) (0, 0)

/-- A depth at which no sub-wave stands. -/
def Wave.idleDepth (w : Wave) (d : Nat) : Bool := !(w.subs.any fun k => k.2.depth == d)

/-- The frames of a wave that a spill may take, in the order of R66; `none` is what only the lap holds. -/
def Team.frames (t : Team) (w : Nat) (wv : Wave) : List (Option Nat) :=
  let ds := ((wv.vregs.map Prod.fst ++ wv.uregs.map Prod.fst).filterMap frameOf).eraseDups
  (if !wv.lapSpilled && t.lapHeld w wv != (0, 0) then [none] else []) ++
    (((List.range 64).filter fun d => ds.contains d && wv.idleDepth d && !wv.spilled.contains d).map some)

/-- A frame goes to the backing store. -/
def Wave.spill (w : Wave) (d : Option Nat) : Wave :=
  match d with
  | none => { w with lapSpilled := true }
  | some d => { w with spilled := insertNat w.spilled d }

/-- Teams of a core in order of admission. -/
def State.byOrder (s : State) (core : Nat) : List (Nat × Team) :=
  ((s.onCore core).foldl (fun (l : List (Nat × Team)) p =>
    (l.filter fun q => q.2.order < p.2.order) ++ [p] ++ (l.filter fun q => !(decide (q.2.order < p.2.order)))) [])

/-- The oldest inactive frame of a core: team, wave and depth. -/
def State.oldestFrame (s : State) (core : Nat) : Option (Nat × Nat × Option Nat) :=
  let pick (lapOnly : Bool) : Option (Nat × Nat × Option Nat) :=
    (s.byOrder core).findSome? fun p => p.2.waves.findSome? fun w =>
      ((p.2.frames w.1 w.2).find? fun d => d.isNone == lapOnly).map fun d => (p.1, w.1, d)
  match pick true with
  | some r => some r
  | none => pick false

/-- A wave none of whose sub-waves is ready to issue. -/
def State.waiting (s : State) (t w : Nat) : Bool := (s.readySubs t w).isEmpty

/-- The youngest waiting wave with a uniform frame in the pool, other than the requesting one (R67). -/
def State.youngestUniform (s : State) (core : Nat) (me : Option (Nat × Nat)) : Option (Nat × Nat) :=
  (s.byOrder core).reverse.findSome? fun p => p.2.waves.reverse.findSome? fun w =>
    let busy := match s.cur with
      | some (.sub t v _) => t == p.1 && v == w.1
      | _ => false
    if !w.2.uspilled && !w.2.uregs.isEmpty && s.waiting p.1 w.1 && !busy && me != some (p.1, w.1) then some (p.1, w.1)
    else none

/-- The core makes room in its pools: frames are spilled oldest first, then uniform frames of waiting waves, and then
the youngest team is to leave; the oldest never is (R66, R67). At most `n` steps. -/
def State.fitPools (core : Nat) (me : Option (Nat × Nat)) : Nat → State → State
  | 0, s => s
  | n + 1, s =>
    let used := s.slotsUsed core
    let overV := decide ((s.core core).capReg.amount < used.1)
    let overU := decide (2048 < used.2)
    if !overV && !overU then s
    else
      match s.oldestFrame core with
      | some (t, w, d) => State.fitPools core me n (s.modWave t w fun wv => wv.spill d)
      | none =>
        match if overU then s.youngestUniform core me else none with
        | some (t, w) => State.fitPools core me n (s.modWave t w fun wv => { wv with uspilled := true })
        | none =>
          match (s.byOrder core).drop 1 |>.reverse with
          | p :: r =>
            if (p :: r).any fun q => q.2.stopping then s else s.modTeam p.1 fun tm => { tm with stopping := true }
          | [] => s

/-- The pools of a core after a write or an admission. -/
def State.fit (s : State) (core : Nat) (me : Option (Nat × Nat)) : State := s.fitPools core me 4096

/-- FRAME_REFILL (R66): a spilled frame returns to the pool. -/
def execFrameRefill (team wave depth : Nat) (s : State) : Res :=
  match (s.teams.get? team).bind fun tm => (tm.waves.get? wave).map fun w => (tm, w) with
  | none => .next s
  | some (tm, _) =>
    if tm.state != .resident then .next s
    else
      .next ((s.modWave team wave fun w => { w with spilled := eraseNat w.spilled depth }).fit tm.core (some (team, wave)))

/-- UNIFORM_FRAME_REFILL (R67). -/
def execUniformFrameRefill (team wave : Nat) (s : State) : Res :=
  match s.teams.get? team with
  | none => .next s
  | some tm =>
    if tm.state != .resident then .next s
    else .next ((s.modWave team wave fun w => { w with uspilled := false }).fit tm.core (some (team, wave)))

/-! ## Results (R138) -/

/-- The core of an owner, and the wave that it is. -/
def State.ownerCore (s : State) (o : Owner) : Option (Nat × Option (Nat × Nat)) :=
  match o with
  | .wave t w => (s.teams.get? t).map fun tm => (tm.core, some (t, w))
  | .span i => (s.spans.get? i).bind fun sp => match sp.state with
    | .running c _ => some (c, none)
    | _ => none

/-- A flight of an owner. -/
def State.flight? (s : State) (o : Owner) (seq : Nat) : Option Flight :=
  match o with
  | .wave t w => (s.wave? t w).bind fun wv => wv.flights.get? seq
  | .span i => (s.spans.get? i).bind fun sp => sp.flights.get? seq

/-- The state with the pools of an owner's core in order. -/
def State.fitOwner (s : State) (o : Owner) : State :=
  match s.ownerCore o with
  | some (c, me) => s.fit c me
  | none => s

/-- Cycles from issue to the write of a result (R138). -/
def latCycles : Lat → Nat
  | .fixed n => n
  | .tracked | .none => 1

/-- RESULT_WRITE (R138): the flag falls L cycles after issue, or in the cycle after it. -/
def execResultWrite (who : Owner) (seq : Nat) (s : State) : Res :=
  match s.flight? who seq with
  | none => .next s
  | some f =>
    if (f.kind = .result || f.kind = .barrier) && !f.done && decide (f.cycle + latCycles f.lat ≤ s.cycle) then
      .next ((s.finishOwner who seq).sweep.fitOwner who)
    else .next s

/-- No sector of an entry is being filled or written back. -/
def State.entryQuiet (s : State) (core n : Nat) : Bool :=
  !((s.core core).sectors.any fun p => p.2.entry == n && (p.2.st == .fill || p.2.st == .wb))

/-- The pending ACC.LD of a flight. -/
def Team.loadMove (t : Team) (w seq : Nat) : Option Nat :=
  (t.moves.find? fun m => m.2.flight == (w, seq)).map Prod.fst

/-- TRACKED_COMPLETE (R138). -/
def execTrackedComplete (who : Owner) (seq : Nat) (s : State) : Res :=
  match s.flight? who seq with
  | none => .next s
  | some f =>
    if f.done then .next s
    else
      match f.kind with
      | .tracked =>
        let move := match who with
          | .wave t w => (s.teams.get? t).bind fun tm => (tm.loadMove w seq).map fun m => (t, m)
          | .span _ => none
        (match move with
         | none => .next ((s.finishOwner who seq).sweep.fitOwner who)
         | some (t, m) =>
           match s.runMove t m with
           | .ok s' _ => .next (s'.sweep.fitOwner who)
           | .wait s' => .next s'
           | .trap _ _ => .next s)
      | .stash core n => .next (if s.entryQuiet core n then (s.finishOwner who seq).sweep else s)
      | .result | .access | .engine | .barrier => .next s

/-- A store, atomic or fence has been performed (R287). -/
def execAccessPerformed (who : Owner) (seq : Nat) (s : State) : Res :=
  match s.flight? who seq with
  | none => .next s
  | some f => .next (if f.kind = .access && !f.done then (s.finishOwner who seq).sweep else s)

/-! ## Delivery of traps (R386, R388) -/

/-- Where a parked sub-wave's trap goes: true for the handler. -/
def State.forHandler (s : State) (e : Ex) : Bool :=
  match e.sub.park with
  | none => false
  | some p => parkToHandler (((s.grids.get? e.team.grid).map fun g => g.trapBase).getD 0) p

/-- Parked sub-waves of a wave that wait for the handler are entered in cause order (R385, R386). -/
def State.handlerTurn (s : State) (e : Ex) : Bool :=
  let cause (k : SubWave) : Nat := (k.park.map fun p => p.trap.cause).getD 0
  !(e.wave.subs.any fun q =>
    q.1 != e.k && (q.2.park.map fun p => p.stage == .pending).getD false &&
    s.forHandler { e with k := q.1, sub := q.2 } && decide (cause q.2 < cause e.sub))

/-- HANDLER_ENTRY (R386). -/
def execHandlerEntry (team wave sub : Nat) (s : State) : Res :=
  match s.ex? team wave sub with
  | none => .next s
  | some e => .next (if s.forHandler e && s.handlerTurn e then s.deliverTrap team wave sub else s)

/-- FAULT_RECORD (R388). -/
def execFaultRecord (team wave sub : Nat) (s : State) : Res :=
  match s.ex? team wave sub with
  | none => .next s
  | some e => .next (if s.forHandler e then s else s.deliverTrap team wave sub)

/-! ## Spans (R34, R350, R351) -/

/-- Work of a context is placed: it is not suspended, reset or being pre-empted. -/
def State.placing (s : State) (ctx : Nat) : Bool :=
  ((s.ctxs.get? ctx).map fun c => c.st == .running && c.preempt.isNone).getD false

/-- Cores of a partition device. -/
def State.coresOf (s : State) (dev : Nat) : List Nat :=
  let n := fndsPer s.pkg.mode
  (List.range (192 * n)).map fun i => 192 * n * dev + i

/-- Records of 4 KiB that a span or cursor fills: one, and its extensions (R350). -/
def Span.records (sp : Span) : Nat := if sp.words ≤ 480 then 1 else if sp.words ≤ 992 then 2 else 3

/-- Records that a foundation die caches. -/
def State.recordsAt (s : State) (f : Nat) : Nat :=
  (s.spans.foldl (fun n p => if p.2.cached = some f then n + p.2.records else n) 0) +
  s.cursors.foldl (fun n p => if p.2.span.cached = some f then n + p.2.span.records else n) 0

/-- A record that a full cache can write back: a cursor's, or that of a span without a slot; the oldest. -/
def State.evictRecord (s : State) (f : Nat) : Option State :=
  let l := (s.spans.filter fun p => p.2.cached == some f && (match p.2.state with
      | .ready | .parkedJoin _ _ | .saved => true
      | .running _ _ | .parkedFault _ _ _ _ => false)).map Prod.fst ++
    (s.cursors.filter fun p => p.2.span.cached == some f).map Prod.fst
  match l with
  | [] => none
  | a :: r =>
    let i := r.foldl min a
    some { s with
      spans := s.spans.modify i fun q => { q with cached := none }
      cursors := s.cursors.modify i fun q => { q with span := { q.span with cached := none } } }

/-- Room for some records in a cache of 1,024; none where nothing of it can be written back. -/
def State.recordRoomFor (f n : Nat) : Nat → State → Option State
  | 0, s => if s.recordsAt f + n ≤ 1024 then some s else none
  | k + 1, s =>
    if s.recordsAt f + n ≤ 1024 then some s
    else
      match s.evictRecord f with
      | some s => State.recordRoomFor f n k s
      | none => none

/-- SPAN_RECORD_FETCH (R350): a span's record enters the cache of a foundation die of its device, and a full cache writes
back its oldest records. The die is the one that caches the fewest (log 48). -/
def execSpanRecordFetch (span : Nat) (s : State) : Res :=
  match s.spans.get? span with
  | none => .next s
  | some sp =>
    if sp.cached.isSome then .next s
    else
      let n := fndsPer s.pkg.mode
      let dies := ((List.range n).map fun i => n * s.ctxDev sp.ctx + i).filter fun f => (s.fdie f).inService
      match dies with
      | [] => .next s
      | d :: r =>
        let f := r.foldl (fun b f => if s.recordsAt f < s.recordsAt b then f else b) d
        match State.recordRoomFor f sp.records 1024 s with
        | none => .next s
        | some s => .next (s.modSpan span fun q => { q with cached := some f })

/-- The lowest free span slot of a core. -/
def Core.freeSlot (c : Core) : Option Nat := (List.range 4).find? fun k => ((c.slots[k]?).getD none).isNone

/-- SPAN_SLOT_GRANT (R351). -/
def execSpanSlotGrant (span : Nat) (s : State) : Res :=
  match s.spans.get? span with
  | none => .next s
  | some sp =>
    match sp.state, sp.cached with
    | .ready, some f =>
      if !s.placing sp.ctx then .next s
      else
        let able := (s.coresOf (s.ctxDev sp.ctx)).filter fun c => s.coreUp c && ((s.core c).freeSlot).isSome
        let near := able.filter fun c => fndOf c == f
        let from_ := if near.isEmpty then able else near
        let load (c : Nat) : Nat := ((s.core c).slots.filter fun x => x.isSome).length
        (match from_ with
         | [] => .next s
         | c :: r =>
           let c := r.foldl (fun b c => if load c < load b then c else b) c
           match (s.core c).freeSlot with
           | none => .next s
           | some k =>
             let s := s.modCore c fun q => { q with slots := listSet q.slots k (some span) }
             .next (s.modSpan span fun q => { q with state := .running c k, started := false }))
    | _, _ => .next s

/-- SJOIN_TIMEOUT (R34): 256 ticks after a span parked, the spans parked there merge and those whose time has passed
are released. -/
def execSjoinTimeout (span : Nat) (s : State) : Res :=
  match s.spans.get? span with
  | none => .next s
  | some sp =>
    match sp.state with
    | .parkedJoin pc since =>
      let now := s.devTime (s.ctxDev sp.ctx)
      if now < since + 256 then .next s
      else
        let s := State.mergeAll (s.joined sp.grid pc).length sp.grid pc s
        .next { s with spans := s.spans.map fun p =>
          match p.2.state with
          | .parkedJoin q t =>
            (p.1, if p.2.grid == sp.grid && q == pc && decide (t + 256 ≤ now) then { p.2.advance with state := .ready } else p.2)
          | _ => p }
    | _ => .next s

/-! ## Placement of teams (R352 to R354) -/

/-- What a team needs of a core. -/
structure Needs where
  ctx : Nat
  g : Grid
  slots : Nat
  waves : Nat
  tiles : Nat
  entries : Nat

/-- The floors of a grid are within the capacity of a core (Table 11.5, R399). -/
def State.meetsFloors (s : State) (g : Grid) (core : Nat) : Bool :=
  let c := s.core core
  s.coreUp core && s.devOfCore core == s.ctxDev g.ctx && decide (g.floorReg ≤ c.capReg.amount) &&
  decide (g.floorStash ≤ c.capStash.amount) && decide (g.floorAcc ≤ c.capAcc.amount) &&
  decide (g.floorL2 ≤ (s.cdie (dieOf core)).capL2.amount)

/-- Slots left in the pools after every inactive frame is spilled (R68). -/
def State.freeSlots (s : State) (core : Nat) : Nat × Nat :=
  let used := (s.onCore core).foldl (fun n p => p.2.waves.foldl (fun n w =>
    n + (w.2.vregs.filter fun r => match frameOf r.1 with
      | none => true
      | some d => !w.2.idleDepth d && !w.2.spilled.contains d).length) n) 0
  ((s.core core).capReg.amount - used, 2048 - (s.slotsUsed core).2)

/-- Tiles of a core that nothing reserves. -/
def State.freeTiles (s : State) (core : Nat) : List Nat :=
  (List.range (s.core core).capAcc.amount).filter fun n =>
    !((s.onCore core).any fun p => p.2.accTiles.contains n || p.2.mmas.any fun m => m.2.hidden == some n)

/-- A range of stash bytes meets no allocation. -/
def State.rangeFree (s : State) (core lo n : Nat) : Bool :=
  decide (lo % 1024 = 0 ∧ lo + n ≤ (s.core core).capStash.amount) &&
  !((s.onCore core).any fun p => runsMeet p.2.stashBase p.2.stashBytes lo n)

/-- Retained entries of a core under a range. -/
def State.retainedIn (s : State) (core lo n : Nat) : Tbl MapEntry :=
  (s.core core).entries.filter fun p => p.2.st == .retained && runsMeet p.2.lo p.2.size lo n

/-- The stash range that a team takes on a core (R354); `want` is the base of an affinity placement. -/
def State.stashRange (s : State) (core n : Nat) (want : Option Nat) : Option Nat :=
  if n = 0 then some 0
  else
    match want.filter fun lo => s.rangeFree core lo n with
    | some lo => some lo
    | none =>
      let l := ((List.range 1024).map fun i => 1024 * i).filter fun lo => s.rangeFree core lo n
      match l.find? fun lo => (s.retainedIn core lo n).isEmpty with
      | some lo => some lo
      | none =>
        let last (lo : Nat) : Nat := (s.retainedIn core lo n).foldl (fun m p => max m p.2.lastUse) 0
        match l with
        | [] => none
        | lo :: r => some (r.foldl (fun b lo => if last lo < last b then lo else b) lo)

/-- Contexts with resident work on a core. -/
def State.ctxsOn (s : State) (core : Nat) : List Nat :=
  (((s.onCore core).map fun p => p.2.ctx) ++ (s.spans.filterMap fun p => match p.2.state with
    | .running k _ => if k = core then some p.2.ctx else none
    | .parkedFault k _ _ _ => if k = core then some p.2.ctx else none
    | .ready | .parkedJoin _ _ | .saved => none)).eraseDups

/-- A core can admit a team at this instant (Table 11.5). -/
def State.admits (s : State) (q : Needs) (core : Nat) : Bool :=
  let free := s.freeSlots core
  let on := s.onCore core
  let c := s.core core
  let ctxs := s.ctxsOn core
  s.meetsFloors q.g core && decide (q.slots ≤ free.1) && decide (64 ≤ free.2) &&
  (s.stashRange core q.g.stash none).isSome && decide (q.tiles ≤ (s.freeTiles core).length) &&
  decide (q.entries ≤ 32 - (c.entries.filter fun p => p.2.st != .retained).length) &&
  decide (on.length < 32) && decide (on.foldl (fun n p => n + p.2.waves.length) q.waves ≤ 128) &&
  (ctxs.contains q.ctx || decide (ctxs.length < 4))

/-- The retained entry of an affinity placement: its core and allocation base (R233, R354). -/
def State.affine (s : State) (q : Needs) (team : Nat) : Option (Nat × Nat) :=
  if !q.g.affinity then none
  else
    (s.coresOf (s.ctxDev q.ctx)).findSome? fun c =>
      ((s.core c).entries.find? fun p => p.2.st == .retained && p.2.ctx == q.ctx && p.2.affKey == q.g.affKey team).map
        fun p => (c, p.2.allocBase)

/-- The core with the fewest resident waves, ties from the starting point on (R354). -/
def State.leastLoaded (s : State) (q : Needs) : Option Nat :=
  let l := s.coresOf (s.ctxDev q.ctx)
  let k := (s.dev (s.ctxDev q.ctx)).placePtr % l.length
  let able := (l.drop k ++ l.take k).filter fun c => s.admits q c
  let load (c : Nat) : Nat := (s.onCore c).foldl (fun n p => n + p.2.waves.length) 0
  match able with
  | [] => none
  | c :: r => some (r.foldl (fun b c => if load c < load b then c else b) c)

/-- Where a team goes: a core and stash base, or a wait for the core of its affinity key (R354). `keep`: the base is
that of a retained entry by affinity, and the entries of the range stay (R446). -/
inductive Place where
  | at_ (core base : Nat) (keep : Bool)
  | wait
  | none

/-- The choice of R354; `patient` says that the affinity wait has not ended. -/
def State.place (s : State) (q : Needs) (team : Nat) (patient : Bool) : Place :=
  let rest : Place := match s.leastLoaded q with
    | some c => ((s.stashRange c q.g.stash none).map fun b => Place.at_ c b false).getD .none
    | none => .none
  match s.affine q team with
  | none => rest
  | some (c, base) =>
    if s.admits q c then ((s.stashRange c q.g.stash (some base)).map fun b => Place.at_ c b (b == base)).getD .none
    else if patient then .wait else rest

/-- A stash range is taken: retained entries there are displaced, and its sectors hold scratch (R354, R459), or they
stay (R446). -/
def State.takeRange (s : State) (core lo n : Nat) (keep : Bool) : State :=
  if keep then s else (s.retainedIn core lo n).foldl (fun s p => s.displace core p.1) s

/-- A grid with a team that no core of its device will ever hold fails (R44, R399). -/
def State.hopeless (s : State) (g : Grid) : Bool := !((s.coresOf (s.ctxDev g.ctx)).any fun c => s.meetsFloors g c)

/-- The next team of a cursor: its position in the box. -/
def Cursor.next (c : Cursor) : Option Nat :=
  (List.range (c.early.length + 1)).findSome? fun i =>
    if c.early.contains (c.pos + i) then none
    else if c.pos + i < c.span.box.count then some (c.pos + i) else none

/-- A cursor after the team at a position is taken. -/
def Cursor.taken (c : Cursor) (pos : Nat) : Cursor :=
  if pos = c.pos then
    let k := ((List.range (c.early.length + 1)).find? fun i => !c.early.contains (pos + 1 + i)).getD 0
    { c with pos := pos + 1 + k, early := c.early.filter fun x => decide (pos + 1 + k ≤ x), affUntil := none }
  else { c with early := insertNat c.early pos, affUntil := none }

/-- What the team at a position of a cursor's box needs; it has the waves that hold a present item (R16). -/
def Cursor.needs (c : Cursor) (g : Grid) (pos : Nat) : Needs :=
  let (bx, by_, bz) := c.span.box.at_ pos
  { ctx := g.ctx, g := g, slots := g.waveCount * 64, tiles := g.floorAcc, entries := 0
    waves := ((List.range g.waveCount).filter fun w => g.present bx by_ bz w != 0).length }

/-- The team at a position is taken from a cursor onto a core (R26). -/
def State.admitNew (s : State) (cid : Nat) (c : Cursor) (g : Grid) (pos core base : Nat) (keep : Bool) : State :=
  let dev := s.ctxDev g.ctx
  let s := s.takeRange core base g.stash keep
  let tiles := (s.freeTiles core).take g.floorAcc
  let t := s.nextId
  let tm := c.span.team g cid pos core (s.dev dev).orderSeq base tiles (s.coreTime core)
  let c' := c.taken pos
  let s := s.modDev dev fun v => { v with orderSeq := v.orderSeq + 1, placePtr := v.placePtr + 1 }
  let s := { s with
    teams := s.teams.set t tm, nextId := t + 1
    cursors := if c'.pos < c.span.box.count then s.cursors.set cid c' else s.cursors.del cid }
  (s.modGrid c.span.grid fun g => { g with progressTick := s.devTime dev }).fit core none

/-- CURSOR_TAKE (R26, R353, R354); CAPACITY where no core meets the floors (R44). -/
def execCursorTake (cursor : Nat) (s : State) : Res :=
  match (s.cursors.get? cursor).bind fun c => (s.grids.get? c.span.grid).bind fun g => c.next.map fun p => (c, g, p) with
  | none => .next s
  | some (c, g, pos) =>
    if !s.placing g.ctx || g.stopped then .next s
    else if s.hopeless g then
      let (bx, by_, bz) := c.span.box.at_ pos
      let tm : Team := { ctx := g.ctx, grid := c.span.grid, index := g.linear bx by_ bz, bx := bx, by_ := by_, bz := bz
                         core := 0xFFFF, waves := [] }
      .next (s.capacityFail c.span.grid tm)
    else
      let now := s.devTime (s.ctxDev g.ctx)
      let (bx, by_, bz) := c.span.box.at_ pos
      let patient := (c.affUntil.map fun d => decide (now < d)).getD true
      match s.place (c.needs g pos) (g.linear bx by_ bz) patient with
      | .at_ core base keep => .next (s.admitNew cursor c g pos core base keep)
      | .wait =>
        .next { s with cursors := s.cursors.set cursor { c with affUntil := some (c.affUntil.getD (now + 32)) } }
      | .none => .next s

/-- AFFINITY_TIMEOUT (R354): after 32 ticks the team is placed like any other. -/
def execAffinityTimeout (cursor : Nat) (s : State) : Res :=
  match (s.cursors.get? cursor).bind fun c => c.affUntil.map fun d => (c, d) with
  | none => .next s
  | some (c, d) =>
    match s.grids.get? c.span.grid with
    | none => .next s
    | some g => if d ≤ s.devTime (s.ctxDev g.ctx) then execCursorTake cursor s else .next s

/-- Live slots of a swapped-out team. -/
def Team.liveSlots (t : Team) : Nat := t.waves.foldl (fun n w => n + w.2.vregs.length) 0

/-- MMAs that run as two chains and so keep a hidden tile (R135, R268). -/
def Team.hiddenCount (t : Team) : Nat := (t.mmas.filter fun m => m.2.prog.split).length

/-- What a returning team needs (R68, R268, R237). -/
def Team.needs (t : Team) (g : Grid) : Needs :=
  { ctx := t.ctx, g := g, slots := t.liveSlots + 8 * t.waves.length, waves := t.waves.length
    tiles := g.floorAcc + t.hiddenCount, entries := t.savedEntries.length }

/-- The write-backs of an entry end now. -/
def State.settleEntry (s : State) (core entry : Nat) : State :=
  ((s.core core).sectors.filter fun p => p.2.entry == entry && p.2.st == .wb).foldl (fun s p => s.writebackDone core p.1) s

/-- The lowest-numbered free entries of a core receive the entries of a returning team, their sectors INV (R237). Where none
is free, the least recently used retained entry is displaced and its write-backs end first. -/
def State.restoreEntries (s : State) (t core base : Nat) (l : List MapEntry) : State :=
  l.foldl (fun s m =>
    let s := match (s.core core).freeEntry?, (s.core core).oldestRetained with
      | none, some n => (s.displace core n).settleEntry core n
      | _, _ => s
    match (s.core core).freeEntry? with
    | none => s
    | some n => s.installEntry core n { m with st := .live t, lo := m.lo + base, allocBase := base, reused := false }) s

/-- The scratch bytes of a returning team stand at its new base, and nothing else does (R459, R364): old data on its way to
memory is written back first (R238), and sectors that carried poison carry it again (R312). -/
def State.restoreScratch (s : State) (tm : Team) (core base : Nat) : State :=
  let n := tm.stashBytes
  let s := ((s.core core).sectors.filter fun p => p.2.st == .wb && runsMeet (16 * p.1) 16 base n).foldl
    (fun s p => s.writebackDone core p.1) s
  s.modCore core fun c =>
    let free (o : Nat) : Bool := (c.entryAt o).isNone
    let mine (o : Nat) : Bool := decide (base ≤ o ∧ o < base + n) && free o
    let c := { c with
      stash := c.stash.filter fun p => !mine p.1
      stashPoison := (c.stashPoison.filter fun k => !mine (16 * k)) }
    let c := (tm.savedScratch.filter fun b => free (base + b.1)).foldl (fun c b => c.stashPut tm.ctx (base + b.1) b.2) c
    { c with stashPoison := tm.savedPoison.foldl (fun l k => insertNat l (base / 16 + k)) c.stashPoison }

/-- No retained entry that an affinity placement would keep lies over scratch bytes of a returning team: else it is displaced
(log 94). -/
def State.keepsRange (s : State) (tm : Team) (core base : Nat) : Bool :=
  !(s.retainedIn core base tm.stashBytes).any fun p =>
    (tm.savedScratch.any fun b => decide (p.2.lo ≤ base + b.1 ∧ base + b.1 < p.2.lo + p.2.size)) ||
    tm.savedPoison.any fun k => decide (p.2.lo ≤ base + 16 * k ∧ base + 16 * k < p.2.lo + p.2.size)

/-- A swapped-out team returns to a core (R237, R268, R364). -/
def State.readmit (s : State) (t : Nat) (tm : Team) (g : Grid) (core base : Nat) (keep : Bool) : State :=
  let dev := s.ctxDev tm.ctx
  let s := s.takeRange core base g.stash (keep && s.keepsRange tm core base)
  let free := s.freeTiles core
  let now := s.coreTime core
  let split := (tm.mmas.filter fun m => m.2.prog.split).map Prod.fst
  let hid := free.drop g.floorAcc
  let tm : Team := { tm with
    state := .resident, core := core, affUntil := none, order := (s.dev dev).orderSeq, admitTick := now, stashBase := base
    accTiles := free.take g.floorAcc
    mmas := tm.mmas.map fun m =>
      (m.1, if m.2.prog.split then { m.2 with hidden := hid[split.idxOf m.1]? } else m.2)
    waves := tm.waves.map fun w =>
      (w.1, { w.2 with subs := w.2.subs.map fun k => (k.1, k.2.shiftBudget now false) })
    copies := tm.copies.map fun c => (c.1, { c.2 with ready := c.2.ready.map fun r => r + s.nextId }) }
  let s := { s with nextId := 2 * s.nextId }
  let s := s.modDev dev fun v => { v with orderSeq := v.orderSeq + 1, placePtr := v.placePtr + 1 }
  let s := s.modTeam t fun _ => { tm with savedScratch := [], savedPoison := [], savedEntries := [] }
  let s := s.restoreScratch tm core base
  let s := s.restoreEntries t core base tm.savedEntries
  (s.modGrid tm.grid fun g => { g with progressTick := s.devTime dev }).fit core none

/-- The affinity wait of a returning team has not begun, or has not ended (R354). -/
def Team.patient (t : Team) (now : Nat) : Bool := (t.affUntil.map fun d => decide (now < d)).getD true

/-- TEAM_ADMIT (R353, R354, R364): a swapped-out team returns. -/
def execTeamAdmit (team : Nat) (s : State) : Res :=
  match (s.teams.get? team).bind fun tm => (s.grids.get? tm.grid).map fun g => (tm, g) with
  | none => .next s
  | some (tm, g) =>
    match tm.state with
    | .swapped _ =>
      if !s.placing tm.ctx || g.stopped then .next s
      else if s.hopeless g then .next (s.capacityFail tm.grid tm)
      else
        (match s.place (tm.needs g) tm.index (tm.patient (s.devTime (s.ctxDev tm.ctx))) with
         | .at_ core base keep => .next (s.readmit team tm g core base keep)
         | .wait => .next (s.modTeam team fun tm =>
             { tm with affUntil := some (tm.affUntil.getD (s.devTime (s.ctxDev tm.ctx) + 32)) })
         | .none => .next s)
    | .resident | .held => .next s

end Sys2Proof.Machine
end

