-- ==== Sys2Proof/Machine/Reliab.lean ====
section
/-!
DEFINITION. Soft errors and their counters (R391, R392, R438), PIPE_ERROR and lap rollback (R97, R393 to R396), bank
maps, venting and capacity (R71, R339, R341 to R343, R397 to R400).
-/
namespace Sys2Proof.Machine
open Sys2Proof

/-! ## Units and their counters -/

/-- The structure codes of BANK_RETIRE (Table 15.6). -/
def structCode : Struct → Nat
  | .pool => 0
  | .stash => 1
  | .acc => 2
  | .l1 => 3
  | .icache => 4
  | .l2 => 5
  | .hbm => 6

/-- The foundation die of a bank's unit: a core, an L2 slice or a stack. -/
def bankFnd (b : BankRef) : Nat :=
  match b.st with
  | .pool | .stash | .acc | .l1 | .icache => fndOf b.unit
  | .l2 => b.unit / 256
  | .hbm => b.unit / 4

/-- A log entry about a bank (Table 15.10). -/
def bankLog (type : Nat) (b : BankRef) : LogEntry :=
  { logOf type with
    unit := structCode b.st, number := if b.st = .hbm then b.unit * 32 + b.bank else b.unit
    bank := if b.st = .hbm then 0 else b.bank }

/-- The counters of a bank. -/
def State.bankErr (s : State) (b : BankRef) : BankErr := (s.pkg.banks.find? fun e => e.b == b).getD { b := b }

/-- The counters of a bank replaced. -/
def State.putBank (s : State) (e : BankErr) : State :=
  { s with pkg := { s.pkg with banks := (s.pkg.banks.filter fun x => x.b != e.b) ++ [e] } }

/-! ## Retired units -/

/-- The number of a structure's spare bank (R397). -/
def spareOf (st : Struct) : Nat := if st = .acc then 16 else 32

/-- A bank, way, slice or channel is retired already. -/
def State.retired (s : State) (b : BankRef) : Bool :=
  match b.st with
  | .pool | .stash | .acc => ((s.core b.unit).bankMap b.st).dead.contains b.bank
  | .l1 => (s.core b.unit).l1Dead.contains b.bank
  | .icache => (s.core b.unit).icDead.contains b.bank
  | .l2 => s.pkg.deadSlices.contains b.unit
  | .hbm => s.pkg.deadChannels.contains (b.unit, b.bank)

/-- Vents of the unit that a bank belongs to. -/
def State.ventsOf (s : State) (b : BankRef) : List Vent :=
  match b.st with
  | .l2 | .hbm => s.pkg.l2Vents
  | _ => (s.core b.unit).vents

/-- The vents changed. -/
def State.modVents (s : State) (b : BankRef) (f : List Vent → List Vent) : State :=
  match b.st with
  | .l2 | .hbm => { s with pkg := { s.pkg with l2Vents := f s.pkg.l2Vents } }
  | _ => s.modCore b.unit fun c => { c with vents := f c.vents }

/-- A vent is triggered; it waits in order of trigger (R397). -/
def State.requestVent (s : State) (b : BankRef) : State :=
  if s.retired b || (s.ventsOf b).any (fun v => v.b == b) then s else s.modVents b fun l => l ++ [{ b := b }]

/-! ## Lap rollback (R394 to R396) -/

/-- A sector state from its undo code. -/
def secOfCode : Nat → SecState
  | 0 => .fill
  | 1 => .clean
  | 2 => .dirty
  | _ => .wb

/-- A sector of the undo area copied back (R396). -/
def State.restoreSector (s : State) (ctx core sec : Nat) (u : Undo) : State :=
  let s := s.modCore core fun c =>
    (List.range 16).foldl (fun c i => c.stashPut ctx (16 * sec + i) ((u.bytes[i]?).getD 0)) c
  match u.state, (s.core core).entryAt (16 * sec) with
  | some k, some (n, _) => s.setSector core sec (some (secOfCode k)) n
  | none, some _ => s.setSector core sec none 0
  | _, none => s

/-- The team goes back to its lap checkpoint (R396). -/
def State.rollback (s : State) (t : Nat) (tm : Team) (l : Lap) : State :=
  let s := tm.waves.foldl (fun s w => (storesOf w.2.flights).foldl (fun s q => s.finishWave t w.1 q) s) s
  let s := l.undo.foldl (fun s u => s.restoreSector tm.ctx tm.core u.1 u.2) s
  let s := s.modTeam t fun tm =>
    { tm with
      waves := l.waves, layouts := l.layouts, tags := l.tags, bars := l.bars
      lap := some { l with undo := [], pending := [], errors := l.errors + 1 } }
  let s := s.modCore tm.core fun c => { c with rollbacks := c.rollbacks + 1 }
  let s := s.logEvent (fndOf tm.core)
    { logOf 5 with unit := 9, number := dieOf tm.core, ctx := tm.ctx, detail := (s.core tm.core).rollbacks.toNat % 2 ^ 32 }
  let s := { s with cur := match s.cur with
    | some (.sub t' _ _) => if t' = t then none else s.cur
    | c => c }
  s.freePorts tm.core

/-- A team is killed with a record of KIND 6 (R396). -/
def State.killRecorded (s : State) (t : Nat) (tm : Team) (cause sub : Nat) : State :=
  ((s.teamRecord tm cause sub).killTeam t 4).sweep

/-- UNDO_WRITE_COMPLETE (R395). -/
def execUndoWriteComplete (team sector : Nat) (s : State) : Res :=
  .next (s.modTeam team fun tm =>
    { tm with lap := tm.lap.map fun l => { l with pending := eraseNat l.pending sector } })

/-! ## Capacity (R44, R399, R400) -/

/-- Work of a grid that still has to be placed or to stay placed. -/
def State.unplaced (s : State) (g : Nat) : Option Team :=
  match s.teams.find? fun p => p.2.grid == g && p.2.state != .held with
  | some p => some p.2
  | none =>
    match s.cursors.find? fun p => p.2.span.grid == g, s.spans.find? fun p => p.2.grid == g with
    | some c, _ => some { ctx := c.2.span.ctx, grid := g, index := 0, bx := 0, by_ := 0, bz := 0, core := 0xFFFF, waves := [] }
    | none, some p => some { ctx := p.2.ctx, grid := g, index := 0, bx := 0, by_ := 0, bz := 0, core := 0xFFFF, waves := [] }
    | none, none => none

/-- GRID_CAPACITY_FAIL (R44): grids none of whose cores meets their floors fail. -/
def State.failHopeless (s : State) : State :=
  s.grids.foldl (fun s p =>
    match s.unplaced p.1 with
    | some tm => if !p.2.complete && p.2.failing == 0 && s.hopeless p.2 then s.capacityFail p.1 tm else s
    | none => s) s

/-- CAPACITY of the resident teams of a core after an AMOUNT has fallen (R399): they are to be swapped out. -/
def State.capacitySwap (s : State) (core : Nat) : State :=
  let c := s.core core
  let hit (tm : Team) : Bool :=
    ((s.grids.get? tm.grid).map fun g =>
      decide (c.capReg.amount < g.floorReg) || decide (c.capStash.amount < g.floorStash) ||
      decide (c.capAcc.amount < g.floorAcc)).getD false ||
    decide (c.capStash.amount < tm.stashBase + tm.stashBytes) || (tm.accTiles.any fun n => decide (c.capAcc.amount ≤ n)) ||
    tm.mmas.any fun m => (m.2.hidden.map fun n => decide (c.capAcc.amount ≤ n)).getD false
  let s : State := { s with teams := s.teams.map fun p =>
    (p.1, if p.2.on core && hit p.2 then { p.2 with stopping := true } else p.2) }
  let s := (c.entries.filter fun p => p.2.st == .retained && decide (c.capStash.amount < p.2.lo + p.2.size)).foldl
    (fun s p => s.displace core p.1) s
  (s.fit core none).failHopeless

/-- The lines of a core's caches leave them, dirty sectors by a write-back (R320, R331). -/
def State.emptyCaches (s : State) (core : Nat) : State :=
  let s := (s.core core).ic.foldl (fun s x => s.leaveIc core x.line) s
  (s.core core).l1.foldl (fun s x => s.leaveL1 core x.line) s

/-- A core leaves service (R400): its teams are to be placed elsewhere, its spans give up their slots, its retained
entries are written back and dropped, and its caches write back their lines and hold none. -/
def State.removeCore (s : State) (core : Nat) : State :=
  let s := (s.emptyCaches core).modCore core fun c => { c with inService := false, ports := [{}, {}] }
  let s := ((s.core core).entries.filter fun p => p.2.st == .retained).foldl (fun s p =>
    let s := (s.flush core p.1).discard core p.1
    s.modCore core fun c => { c with entries := c.entries.del p.1 }) s
  let s : State := { s with
    teams := s.teams.map fun p => (p.1, if p.2.on core then { p.2 with stopping := true } else p.2)
    spans := s.spans.map fun p => (p.1, match p.2.state with
      | .running c _ => if c = core then { p.2 with state := .ready, started := false } else p.2
      | .parkedFault c _ r t => if c = core then { p.2 with state := .parkedFault 768 0 r t } else p.2
      | _ => p.2)
    dir := s.dir.map fun e =>
      if (e.holds ⟨core, 2⟩).isNone then e
      else { (e.remove ⟨core, 2⟩) with
        l2Dirty := if e.holds ⟨core, 2⟩ = some .m then 0xF else e.l2Dirty, l2Valid := e.l2Valid }
    cur := match s.cur with
      | some (.sub t _ _) => if ((s.teams.get? t).map fun tm => tm.core == core).getD false then none else s.cur
      | some (.span i) => if ((s.spans.get? i).map fun sp => match sp.state with
          | .running c _ => c == core
          | _ => false).getD false then none else s.cur
      | none => none }
  (s.modCore core fun c => { c with slots := [none, none, none, none] }).failHopeless

/-! ## PIPE_ERROR (R97, R393, R396, R400) -/

/-- A quad is lost (R400): one of those that still work, chosen freely (log 102); a core without a quad leaves
service. -/
def State.loseQuad (s : State) (core : Nat) : State :=
  let live := (List.range 4).filter fun q => !(s.core core).deadQuads.contains q
  match live with
  | [] => s
  | [q] => (s.modCore core fun c => { c with deadQuads := c.deadQuads ++ [q] }).removeCore core
  | q :: r =>
    let lost := ((q :: r)[Config.freeNat s.fresh % (r.length + 1)]?).getD q
    (s.modCore core fun c => { c with deadQuads := c.deadQuads ++ [lost] }).bump

/-- PIPE_ERROR (R393, R396); `site` is the bank in which the error arose, none for a quad. -/
def State.pipeError (s : State) (t sub : Nat) (site : Option BankRef) : State :=
  match s.teams.get? t with
  | none => s
  | some tm =>
    if tm.state != .resident then s
    else
      match tm.lap with
      | none => s.killRecorded t tm cPipeError sub
      | some l =>
        if l.unrecoverable then s.killRecorded t tm cPipeError sub
        else if 2 ≤ l.errors then
          let s := s.killRecorded t tm cPipeError sub
          match site with
          | some b => s.requestVent b
          | none => s.loseQuad tm.core
        else s.rollback t tm l

/-- PIPE_ERROR (R393). -/
def execPipeError (team sub : Nat) (site : Option BankRef) (s : State) : Res := .next (s.pipeError team sub site)

/-- SCOREBOARD_MISMATCH (R97): the squashed instructions issue again with the effects that they had; a second mismatch
on the reissue of the same instruction, known by its wave's clock (log 103), raises PIPE_ERROR, subcode 1. -/
def execScoreboardMismatch (team wave : Nat) (again : Bool) (s : State) : Res :=
  match s.teams.get? team with
  | none => .next s
  | some tm =>
    match tm.waves.get? wave with
    | none => .next s
    | some w =>
      if tm.state != .resident then .next s
      else
        let at_ := (team, wave, w.clock)
        let twice := again && (s.core tm.core).mismatchAt.contains at_
        let s := s.modCore tm.core fun c =>
          let others := c.mismatchAt.filter fun m => (m.1, m.2.1) != (team, wave)
          { c with mismatches := c.mismatches + 1, mismatchAt := others ++ (if twice then [] else [at_]) }
        .next (if twice then s.pipeError team 1 none else s)

/-! ## Bank maps (R341, R342) -/

/-- A capacity register after a retirement; `loss` is 0 where the spare takes the place (R61, R62). -/
def Cap.fall (c : Cap) (loss : Nat) (spare : Bool) : Cap :=
  { amount := c.amount - loss, retired := c.retired + 1, spareUsed := c.spareUsed || spare, gen := c.gen + 1 }

/-- A bank map after the retirement of a physical bank, whether the spare took its place, and whether cells are lost
(R341). `n` is the number of logical banks. -/
def BankMap.retire (m : BankMap) (n b : Nat) : BankMap × Bool × Bool :=
  if b = n then
    match m.spareFor with
    | some x => ({ dead := (m.dead.filter fun y => y != x) ++ [x, b], spareBad := true, spareFor := none }, false, true)
    | none => ({ m with dead := m.dead ++ [b], spareBad := true }, false, false)
  else if !m.spareBad && m.spareFor.isNone then ({ m with dead := m.dead ++ [b], spareFor := some b }, true, false)
  else ({ m with dead := m.dead ++ [b] }, false, true)

/-- 16-byte units that a vent moves. Which slots of a pool bank are live is open: slots have no stated
place (log 98). -/
def State.unitsToMove (s : State) (core : Nat) (st : Struct) (old : BankMap) : Nat :=
  match st with
  | .pool => 4 * (Config.freeNat s.fresh % (min 256 (s.slotsUsed core).1 + 1))
  | .stash | .acc => (movedUnits st old ((s.core core).bankMap st)).length
  | .l1 | .icache | .l2 | .hbm => 0

/-- The spare is about to receive cells, or is found faulty: laps in progress become unrecoverable and the undo area
moves to device memory (R395). -/
def State.takeSpare (s : State) (core : Nat) : State :=
  if (s.core core).undoInMemory then s
  else
    let s := s.modCore core fun c => { c with undoInMemory := true }
    { s with teams := s.teams.map fun p =>
      (p.1, if p.2.on core then { p.2 with lap := p.2.lap.map fun l => { l with unrecoverable := true } } else p.2) }

/-- The capacity register of a structure replaced. -/
def Core.modCap (c : Core) (st : Struct) (f : Cap → Cap) : Core :=
  match st with
  | .pool => { c with capReg := f c.capReg }
  | .stash => { c with capStash := f c.capStash }
  | .acc => { c with capAcc := f c.capAcc }
  | .l1 | .icache | .l2 | .hbm => c

/-- The bank map of a structure replaced. -/
def Core.setMap (c : Core) (st : Struct) (m : BankMap) : Core :=
  match st with
  | .pool => { c with pool := m }
  | .stash => { c with stashMap := m }
  | .acc => { c with accMap := m }
  | .l1 | .icache | .l2 | .hbm => c

/-- Capacity lost with a bank (Table 2.8). -/
def bankLoss (st : Struct) : Nat :=
  match st with
  | .pool => 256
  | .stash => 32768
  | .acc => 2
  | .l2 => 12582912
  | .l1 | .icache | .hbm => 0

/-- The capacity register of a structure of a core. -/
def Core.cap (c : Core) (st : Struct) : Cap :=
  match st with
  | .pool => c.capReg
  | .stash => c.capStash
  | .acc => c.capAcc
  | .l1 | .icache | .l2 | .hbm => { amount := 0 }

/-! ## Venting (R397, R398) -/

/-- A vent has begun, from a bank map and a capacity register: its moves are counted. -/
def State.markStarted (s : State) (b : BankRef) (total : Nat) (cap : Cap) (old : BankMap := {}) : State :=
  s.modVents b fun l => l.map fun v =>
    if v.b = b then { v with started := true, total := total, cap := cap, old := old } else v

/-- The record does not hold a vent that has not ended: the map and the register before it stand (R397, R456). -/
def Core.unvent (c : Core) (v : Vent) : Core :=
  if !v.started then c
  else
    match v.b.st with
    | .l1 => { c with l1Dead := c.l1Dead.filter fun w => w != v.b.bank }
    | .icache => { c with icDead := c.icDead.filter fun w => w != v.b.bank }
    | _ => (c.setMap v.b.st v.old).modCap v.b.st fun _ => v.cap

/-- What a record written now says of a core. -/
def Core.cfg (c : Core) : CoreCfg :=
  let c := c.vents.foldl Core.unvent c
  { capReg := c.capReg, capStash := c.capStash, capAcc := c.capAcc, pool := c.pool, stashMap := c.stashMap
    accMap := c.accMap, l1Dead := c.l1Dead, icDead := c.icDead }

/-- A new record is written as the older copy, with the next generation (R456). -/
def State.writeRecord (s : State) : State :=
  let p := s.pkg
  let venting (b : BankRef) : Bool := p.l2Vents.any fun v => v.started && v.b == b
  let new : CfgRecord :=
    { gen := p.record.gen + 1, cores := s.cores.map fun k => (k.1, k.2.cfg)
      slices := p.deadSlices.filter fun x => !venting ⟨.l2, x, 0⟩
      channels := p.deadChannels.filter fun x => !venting ⟨.hbm, x.1, x.2⟩
      minTrusted := p.trusted.minSvn, minPolicy := p.policy.minSvn }
  { s with pkg := { p with record := new, olderRecord := p.record } }

/-- A vent has ended (VENT_COMPLETE, R397): the new bank map stands, and goes into the record. Each of its moves took 1 to 8 cycles
(R398, log 99). -/
def State.ventDone (s : State) (b : BankRef) : State :=
  let total := (((s.ventsOf b).find? fun v => v.b == b).map fun v => v.total).getD 0
  let cycles := if total = 0 then 0 else total + Config.freeNat s.fresh % (7 * total + 1)
  ((s.modVents b fun l => l.filter fun v => v.b != b).writeRecord.logEvent (bankFnd b) { bankLog 4 b with detail := cycles }).bump

/-- A vent whose moves are all made ends. -/
def State.ventCheck (s : State) (b : BankRef) : State :=
  match (s.ventsOf b).find? fun v => v.b == b with
  | some v => if v.started && decide (v.total ≤ v.cursor) then s.ventDone b else s
  | none => s

/-- Slices under the compute die of a slice that are in service. -/
def State.slicesLeft (s : State) (die : Nat) : List Nat :=
  ((List.range 64).map fun j => 64 * die + j).filter fun x => !s.pkg.deadSlices.contains x

/-- A vent of a bank of a core starts: AMOUNT falls first (R62, R397); a way of a cache is written back and removed
(R341). -/
def State.startCoreVent (s : State) (b : BankRef) : State :=
  let c := s.core b.unit
  match b.st with
  | .l1 | .icache =>
    let l1 := if b.st = .l1 then c.l1Dead ++ [b.bank] else c.l1Dead
    let ic := if b.st = .icache then c.icDead ++ [b.bank] else c.icDead
    let gone (x : CacheLine) : Bool := x.way == b.bank
    let s := if b.st = .l1 then (c.l1.filter gone).foldl (fun s x => s.leaveL1 b.unit x.line) s
      else (c.ic.filter gone).foldl (fun s x => s.leaveIc b.unit x.line) s
    let s := s.modCore b.unit fun c => { c with l1Dead := l1, icDead := ic }
    let s := (s.logEvent (bankFnd b) (bankLog 3 b)).markStarted b 0 { amount := 0 }
    let s := if 12 < l1.length || 6 < ic.length then s.removeCore b.unit else s
    s.ventDone b
  | _ =>
    let n := spareOf b.st
    let old := c.bankMap b.st
    let (m, spare, lost) := old.retire n b.bank
    let s := if b.st = .stash && (spare || b.bank = n) then s.takeSpare b.unit else s
    let s := s.modCore b.unit fun c =>
      (c.setMap b.st m).modCap b.st fun k => k.fall (if lost then bankLoss b.st else 0) spare
    let s := s.logEvent (bankFnd b) { bankLog 3 b with detail := ((s.core b.unit).cap b.st).amount }
    let total := if b.bank = n && !lost then 0 else s.unitsToMove b.unit b.st old
    ((((s.bump).markStarted b total (c.cap b.st) old).capacitySwap b.unit)).ventCheck b

/-- HOMETAB entries of a device that name a slice, ascending (R343). -/
def State.entriesOf (s : State) (slice : Nat) : List (Nat × Nat) :=
  (List.range s.devCount).flatMap fun d => ((List.range 1024).filter fun i => s.hometab d i == slice).map fun i => (d, i)

/-- A frame of 64 KiB uses a retired channel (R407), or a stack of a lost foundation die (R413). -/
def State.frameDead (s : State) (dev frame : Nat) : Bool :=
  (List.range 16).any fun k =>
    let p := interleave s.pkg.mode dev (frame * 65536 + k * 4096)
    s.pkg.deadChannels.contains (p.1, p.2.1) || !(s.fdie (p.1 / 4)).inService

/-- The device memory under a page. -/
def Page.frames (p : Page) : Option (Nat × Nat) :=
  match p.target with
  | .hbm dpa => some (dpa / 65536, p.size / 65536)
  | _ => none

/-- A frame lies under a page of the device, in memory that MEM_ALLOC provided, or in a context's backing store (R69). -/
def State.frameUsed (s : State) (dev frame : Nat) : Bool :=
  s.ctxs.any fun c => c.2.dev == dev &&
    ((c.2.pages.any fun p => (p.frames.map fun f => decide (f.1 ≤ frame ∧ frame < f.1 + f.2)).getD false) ||
     (c.2.allocs.any fun a => a.2 == frame * 65536) || c.2.frames.contains frame)

/-- An HBM channel's vent ends when nothing of the package lies on a frame that it makes unavailable (R397, R407). -/
def State.channelClear (s : State) : Bool :=
  !(s.ctxs.any fun c => (c.2.frames.any fun f => s.frameDead c.2.dev f) || c.2.pages.any fun p =>
    (p.frames.map fun f => (List.range f.2).any fun i => s.frameDead c.2.dev (f.1 + i)).getD false)

/-- The vents of HBM channels that no page waits for end. -/
def State.hbmCheck (s : State) : State :=
  if !s.channelClear then s
  else
    (s.pkg.l2Vents.filter fun v => v.started && v.b.st == .hbm).foldl (fun s v => s.ventDone v.b) s

/-- VENT_START (R397): the oldest waiting vent of its structure starts. -/
def execVentStart (b : BankRef) (s : State) : Res :=
  let busy := match b.st with
    | .l2 | .hbm => false
    | _ => (s.ventsOf b).any fun v => v.started && v.b.st == b.st
  match (s.ventsOf b).find? fun v => !v.started && (v.b.st == b.st || v.b == b) with
  | none => .next s
  | some v =>
    if busy || v.started then .next s
    else
      match b.st with
      | .l2 =>
        let die := v.b.unit / 64
        let s := { s with pkg := { s.pkg with deadSlices := s.pkg.deadSlices ++ [v.b.unit] } }
        let was := (s.cdie die).capL2
        let s := s.modCdie die fun d => { d with capL2 := d.capL2.fall (bankLoss .l2) false }
        let s := (s.logEvent (bankFnd v.b) { bankLog 3 v.b with detail := (s.cdie die).capL2.amount }).markStarted v.b
          (s.entriesOf v.b.unit).length was
        let cores := (List.range 48).map fun i => 48 * die + i
        let s := if (s.slicesLeft die).isEmpty then
            cores.foldl (fun s c => s.removeCore c) (s.modCdie die fun d => { d with inService := false })
          else s.failHopeless
        .next (s.ventCheck v.b)
      | .hbm =>
        let s := { s with pkg := { s.pkg with deadChannels := s.pkg.deadChannels ++ [(v.b.unit, v.b.bank)] } }
        .next (((s.logEvent (bankFnd v.b) (bankLog 3 v.b)).markStarted v.b 1 { amount := 0 }).hbmCheck)
      | _ => .next (s.startCoreVent v.b)

/-- VENT_MOVE (R398): the unit at the cursor moves. -/
def execVentMove (b : BankRef) (s : State) : Res :=
  match b.st with
  | .l2 | .hbm => .next s
  | _ =>
    .next ((s.modVents b fun l => l.map fun v =>
      if v.b = b && v.started && v.cursor < v.total then { v with cursor := v.cursor + 1 } else v).ventCheck b)

/-- L2_SLICE_HANDOVER (R343): the next HOMETAB entry of a retiring slice switches to the next in-service slice of the
same compute die. -/
def execL2SliceHandover (slice : Nat) (s : State) : Res :=
  let b : BankRef := ⟨.l2, slice, 0⟩
  if !(s.ventsOf b).any (fun v => v.b == b && v.started) then .next s
  else
    match s.entriesOf slice with
    | [] => .next (s.ventDone b)
    | (d, i) :: _ =>
      let lines := ((s.dir.map fun e => e.line).filter fun l => l.dev == d && homeIndex l == i)
      if lines.any fun l => s.lineBusy l true then .next s
      else
      let s := lines.foldl (fun s l => ((s.force l true).evictHost l).dropLine l) s
      let die := slice / 64
      let left := s.slicesLeft die
      let next := match left.find? fun x => decide (slice < x) with
        | some x => x
        | none => left.headD slice
      let s := s.modDev d fun v => { v with hometab := v.hometab.set i next }
      let s := s.modVents b fun l => l.map fun v => if v.b = b then { v with cursor := v.cursor + 1 } else v
      .next (s.ventCheck b)

/-- Bytes of device memory in 4 KiB granules copied to other places, with their poison (R339). -/
def State.moveGranules (s : State) (dev src dst : Nat) : Nat → State
  | 0 => s
  | n + 1 =>
    let s := State.moveGranules s dev src dst n
    let a := hbmPlace s.pkg.mode dev (src + 4096 * n)
    let b := hbmPlace s.pkg.mode dev (dst + 4096 * n)
    let bad := s.poison.filter fun u => decide (a / 16 ≤ u ∧ u < a / 16 + 256)
    let rest := s.poison.filter fun u => !decide (b / 16 ≤ u ∧ u < b / 16 + 256)
    { s with
      mem := s.mem.splice b (s.mem.slice a 4096)
      poison := bad.foldl (fun l u => insertNat l (u - a / 16 + b / 16)) rest }

/-- A frame of a backing store moves to a free one. -/
def State.moveBacking (s : State) (dev frame target : Nat) : State :=
  if (s.ctxs.any fun c => c.2.dev == dev && c.2.frames.contains frame) && !s.frameUsed dev target && !s.frameDead dev target then
    let s := s.moveGranules dev (frame * 65536) (target * 65536) 16
    { s with ctxs := s.ctxs.map fun c =>
        (c.1, if c.2.dev = dev then { c.2 with frames := c.2.frames.map fun f => if f = frame then target else f } else c.2) }
  else s

/-- HBM_PAGE_MOVE (R339, R407): the page that begins at a frame, or a frame of a backing store, moves to free frames. -/
def execHbmPageMove (dev frame target : Nat) (s : State) : Res :=
  let pages := s.ctxs.flatMap fun c => if c.2.dev = dev then c.2.pages else []
  match (pages.filterMap Page.frames).find? fun f => f.1 == frame with
  | none => .next (s.moveBacking dev frame target).hbmCheck
  | some (_, n) =>
    let free := (List.range n).all fun i => !s.frameUsed dev (target + i) && !s.frameDead dev (target + i)
    let whole := (pages.filterMap Page.frames).all fun f =>
      !(decide (f.1 < frame + n ∧ frame < f.1 + f.2)) || decide (frame ≤ f.1 ∧ f.1 + f.2 ≤ frame + n)
    if !free || !whole then .next s
    else
      let s := s.moveGranules dev (frame * 65536) (target * 65536) (16 * n)
      let s : State := { s with ctxs := s.ctxs.map fun c =>
        (c.1, if c.2.dev = dev then
          { c.2 with
            pages := c.2.pages.map (fun p => match p.target with
            | .hbm dpa =>
              if frame * 65536 ≤ dpa ∧ dpa < (frame + n) * 65536 then
                { p with target := .hbm (dpa - frame * 65536 + target * 65536) }
              else p
            | _ => p)
            allocs := c.2.allocs.map fun a =>
              if frame * 65536 ≤ a.2 ∧ a.2 < (frame + n) * 65536 then (a.1, a.2 - frame * 65536 + target * 65536) else a }
        else c.2) }
      .next s.hbmCheck

/-! ## Corrected and uncorrectable errors (R391, R392, R397, R438) -/

/-- CORRECTED_ERROR (R391, R397, R438): counted, logged or gathered in a window, and 16 within 2^30 ticks vent the
bank. -/
def State.corrected (s : State) (b : BankRef) (addr : Nat) : State :=
  let now := (s.fdie (bankFnd b)).ltime.toNat
  let e := s.bankErr b
  let recent := (e.recent.filter fun t => decide (now < t + 2 ^ 30)) ++ [now]
  let e := { e with corrected := e.corrected + 1, recent := recent }
  let entry : LogEntry := { bankLog 1 b with addr := addr, detail := e.corrected % 2 ^ 32 }
  let s :=
    if s.pkg.policyRunning then
      s.putBank { e with window := some (match e.window with
        | some (t, n) => (t, n + 1)
        | none => (now, 1)) }
    else (s.putBank e).logEvent (bankFnd b) entry
  if 16 ≤ recent.length then s.requestVent b else s

/-- CORRECTED_ERROR (R391). -/
def execCorrectedError (b : BankRef) (addr : Nat) (s : State) : Res := .next (s.corrected b addr)

/-- ERR_LOG_WINDOW_CLOSE (R438): the corrected errors of one bank in one second become one entry. -/
def execErrLogWindowClose (b : BankRef) (s : State) : Res :=
  let e := s.bankErr b
  match e.window with
  | none => .next s
  | some (t, n) =>
    if (s.fdie (bankFnd b)).ltime.toNat < t + 100000000 then .next s
    else
      .next ((s.putBank { e with window := none }).logEvent (bankFnd b)
        { bankLog 1 b with count := n, detail := e.corrected % 2 ^ 32 })

/-- A response that rolls a team back, and its code: 3 where the team was killed instead. -/
def State.rolled (s : State) (t : Nat) (s' : State) : State × Nat :=
  (s', if (s.teams.get? t).isSome && (s'.teams.get? t).isNone then 3 else 1)

/-- What an uncorrectable error destroys, by site, and the response of Table 13.4 as the log codes it. -/
def State.destroy (s : State) (b : BankRef) (site : ErrSite) : State × Nat :=
  match site with
  | .team t => s.rolled t (s.pipeError t 2 (some b))
  | .uniform t =>
    (match s.teams.get? t with
     | some tm => s.rolled t ((s.pipeError t 2 none).removeCore tm.core)
     | none => (s, 1))
  | .sector core sec =>
    let kept := match s.allocAt core (16 * sec) with
      | some (t, tm) => (tm.lap.bind fun l => if l.unrecoverable then none else l.undo.get? sec).map fun _ => t
      | none => none
    (match s.sectorState core sec, kept with
     | some .clean, _ => (s.dropSector core sec, 0)
     | _, some t => s.rolled t (s.pipeError t 2 (some b))
     | _, none => (s.modCore core fun c => { c with stashPoison := insertNat c.stashPoison sec }, 2))
  | .undo t => (s.escapeTeam t, 1)
  | .tiles t =>
    (match s.teams.get? t with
     | some tm => (s.killRecorded t tm cPoison 1, 3)
     | none => (s, 3))
  | .clean => (s, 0)
  | .unit16 place => (s.poisonAt place, 2)
  | .translation unit asid va =>
    ({ s with tlb := s.tlb.modify unit fun l => l.filter fun e =>
        !(e.1 == asid && decide (e.2.1 ≤ va ∧ va < e.2.1 + e.2.2)) }, 0)
  | .directory slice => (s.requestVent ⟨.l2, slice, 0⟩, 4)

/-- UNCORRECTED_ERROR (R391, R397): the response of the structure, a log entry, and the bank is vented. -/
def execUncorrectedError (b : BankRef) (site : ErrSite) (s : State) : Res :=
  let r := s.destroy b site
  let e := r.1.bankErr b
  match site with
  | .uniform _ => .next (r.1.logEvent (bankFnd b) { logOf 2 with detail := r.2 })
  | _ => .next (((r.1.putBank { e with uncorrected := e.uncorrected + 1 }).logEvent (bankFnd b)
    { bankLog 2 b with detail := r.2 }).requestVent b)

/-- PATROL_SCRUB (R391): a line of an L2 slice is read; 1 found a corrected error, 2 an uncorrectable one. -/
def execPatrolScrub (b : BankRef) (place : Nat) (found : Fin 3) (s : State) : Res :=
  if found = 0 then .next s
  else if found = 1 then .next (s.corrected b 0)
  else execUncorrectedError b (.unit16 place) s

end Sys2Proof.Machine
end

