-- ==== Sys2Proof/Machine/Homes.lean ====
section
/-!
DEFINITION. Steps of the homes and of the holders of lines (R319, R331 to R333), of stash sectors (R235, R238), of
translation (R336, R337), and of the host ports' coherence (R334, R335).
-/
namespace Sys2Proof.Machine
open Sys2Proof

/-! ## Sectors (R235, R238) -/

/-- A fill in progress is tried again; `ok` selects the outcome that the step is about. -/
def State.fillStep (s : State) (core sector : Nat) (ok : Bool) : State :=
  match (s.core core).sectors.get? sector with
  | none => s
  | some sc =>
    match sc.st, (s.core core).entries.get? sc.entry with
    | .fill, some e =>
      (match s.fillSector core sector sc.entry e with
       | .ok s' _ => if ok then s' else s
       | .trap s' _ => if ok then s else s'
       | .wait s' => s')
    | _, _ => s

/-- SECTOR_FILL_COMPLETE (R235). -/
def execSectorFillComplete (core sector : Nat) (s : State) : Res := .next (s.fillStep core sector true)

/-- SECTOR_FILL_FAULT (R235). -/
def execSectorFillFault (core sector : Nat) (s : State) : Res := .next (s.fillStep core sector false)

/-- SECTOR_WRITEBACK_COMPLETE (R238). -/
def execSectorWritebackComplete (core sector : Nat) (s : State) : Res :=
  .next (if s.sectorState core sector = some .wb then s.writebackDone core sector else s)

/-! ## Requests (R331 to R333) -/

/-- An agent of Table 10.2 that may hold a line of a device. -/
def State.agentOk (s : State) (dev : Nat) (h : Holder) : Bool :=
  if h.agent < 768 then s.coreUp h.agent && s.devOfCore h.agent == dev && decide (h.kind ≤ 2)
  else if h.agent < 784 then h.kind == 2 && s.devOfFnd ((h.agent - 768) / 4) == dev
  else h.kind == 3 && decide (h.agent < 786) && ((s.ports[h.agent - 784]?).getD {}).up

/-- A request reaches the home: its transaction opens, or it waits for the line's transaction to end; a line that is not in
the slice waits for its fill (R332). A request of an agent of the device for a line that is being purged is not taken
yet (R340). -/
def State.request (s : State) (l : LineRef) (who : Option Holder) (write partialOwn : Bool) : State :=
  let q : Req := { src := who, who := who, write := write, partialOwn := partialOwn, at_ := s.cycle }
  if s.purging l then s
  else if (s.entry l).txn.isSome then s.putEntry ((s.entry l).enqueue q)
  else (s.openReq l q).closeTxn l

/-- GETS (R331). -/
def execGets (line : LineRef) (who : Holder) (s : State) : Res :=
  .next (if s.agentOk line.dev who && ((s.entry line).holds who).isNone then s.request line (some who) false false else s)

/-- A request for sole ownership by an agent that does not have it. -/
def State.requestOwn (s : State) (l : LineRef) (who : Holder) : State :=
  if s.agentOk l.dev who && who.kind != 1 && !(s.entry l).meets who .own then s.request l (some who) true false else s

/-- GETM (R331). -/
def execGetm (line : LineRef) (who : Holder) (s : State) : Res := .next (s.requestOwn line who)

/-- UPGRADE (R331); from an agent that the entry no longer names it is carried out as a GetM (R333). -/
def execUpgrade (line : LineRef) (who : Holder) (s : State) : Res := .next (s.requestOwn line who)

/-- GETP (R330). -/
def execGetp (line : LineRef) (who : Holder) (s : State) : Res :=
  .next (if s.agentOk line.dev who && who.kind == 1 && !(s.entry line).meets who .partialOwn then
    s.request line (some who) true true else s)

/-- A holder that keeps bytes of the line in its stash, or a host port, does not give the line up of itself. -/
def State.givesUp (s : State) (l : LineRef) (h : Holder) : Bool :=
  h.kind != 3 && (h.kind != 1 || (s.sectorsOf h.agent l).isEmpty)

/-- WRITE_BACK (R331, R332): applied on arrival. -/
def execWriteBack (line : LineRef) (who : Holder) (s : State) : Res :=
  let e := s.entry line
  .next (match e.holds who with
    | some .m | some .o | some .p =>
      if !s.givesUp line who then s
      else if who.kind = 0 then s.leaveL1 who.agent line
      else s.putEntry { (e.remove who) with l2Dirty := 0xF }
    | some .s | some .e | none => s)

/-- CLEAN_NOTICE (R331, R332): applied on arrival. -/
def execCleanNotice (line : LineRef) (who : Holder) (s : State) : Res :=
  let e := s.entry line
  .next (match e.holds who with
    | some .s | some .e =>
      if !s.givesUp line who then s
      else if who.kind = 0 then ((s.leaveL1 who.agent line).leaveIc who.agent line)
      else s.putEntry (e.remove who)
    | some .m | some .o | some .p | none => s)

/-- UNCACHED_ACCESS (R331). -/
def execUncachedAccess (line : LineRef) (write : Bool) (s : State) : Res := .next (s.request line none write false)

/-- A target of the open transaction that has still to acknowledge. -/
def State.awaits (s : State) (l : LineRef) (h : Holder) (write : Bool) : Bool :=
  match (s.entry l).txn with
  | none => false
  | some t => t.req.write == write && t.acks.contains h

/-- RECALL_FOR_READ (R331): a holder answers from its own state; a host port answers by its response. -/
def execRecallForRead (line : LineRef) (who : Holder) (s : State) : Res :=
  .next (if s.awaits line who false && who.kind != 3 then s.recallAt line who false else s)

/-- RECALL_FOR_WRITE (R331). -/
def execRecallForWrite (line : LineRef) (who : Holder) (s : State) : Res :=
  .next (if s.awaits line who true && who.kind != 3 then s.recallAt line who true else s)

/-- STASH_RECALL (R319): the stash answers for its sectors of the line, once no pin holds them (R266). -/
def execStashRecall (core : Nat) (line : LineRef) (write : Bool) (s : State) : Res :=
  .next (if (s.awaits line ⟨core, 1⟩ write || ((s.entry line).coarse && s.awaits line ⟨core, 0⟩ write)) &&
      !s.recallWaits line ⟨core, 1⟩ write then s.recallStash core line write else s)

/-- What a target holds against the transaction: any copy for a write, ownership for a read. -/
def DirEntry.stillHolds (e : DirEntry) (h : Holder) (write : Bool) : Bool :=
  e.holders.any fun p =>
    (p.1 == h || (e.coarse && decide (h.agent < 768) && p.1.agent == h.agent)) &&
    (write || p.2 == .e || p.2 == .m || p.2 == .p)

/-- RECALL_ACK (R328, R333): one acknowledgement of a target that has answered is counted; the last one ends the
transaction. -/
def execRecallAck (line : LineRef) (who : Holder) (s : State) : Res :=
  let e := s.entry line
  .next (match e.txn with
    | none => s
    | some t =>
      if t.acks.contains who && who.kind != 3 && !e.stillHolds who t.req.write then (s.ack line who).closeTxn line else s)

/-! ## Fills and translation (R335 to R337) -/

/-- HOME_FILL_COMPLETE (R336): the line of an open transaction stands in the slice. -/
def execHomeFillComplete (line : LineRef) (s : State) : Res :=
  .next (if (s.entry line).txn.isSome then ((s.homeFill line).getD s).closeTxn line else s)

/-- TRANSLATION_WALK (R336): the translation of a page is cached by the unit that serves the line's home. -/
def execTranslationWalk (dev asid va : Nat) (s : State) : Res :=
  .next (match s.page? dev asid va with
    | none => s
    | some p => s.cacheWalk (unitOf (s.homeOf (lineOf dev asid va))) asid p)

/-- TRANSLATION_FAULT (R337): a fill without a translation ends; the home keeps no line and no transaction. -/
def execTranslationFault (line : LineRef) (s : State) : Res :=
  let e := s.entry line
  .next (if e.txn.isSome && !e.inL2 && (s.homeFill line).isNone then s.dropLine line else s)

/-! ## Device memory under a host (R334, R337) -/

/-- The reverse entry of a byte of device memory: the canonical line of the page mapped there. -/
def State.reverse (s : State) (dev dpa : Nat) : Option LineRef :=
  s.ctxs.findSome? fun c =>
    if c.2.dev = dev then
      c.2.pages.findSome? fun p => match p.target with
        | .hbm base => if base ≤ dpa ∧ dpa < base + p.size then some (lineOf dev c.2.asid (p.va + (dpa - base))) else none
        | _ => none
    else none

/-- A host port as a holder. -/
def portHolder (port : Nat) : Holder := ⟨784 + port, 3⟩

/-- A host's request for a line: it waits while the line is purged (R340) or has a transaction (R332). -/
def State.hostReq (s : State) (dpa : Nat) (l : LineRef) (q : Req) : State :=
  if s.purging l then s.modDev l.dev fun v => { v with hostWait := v.hostWait ++ [(dpa, q)] }
  else
    let s := (s.answerAll l).closeTxn l
    if (s.entry l).txn.isSome then s.putEntry ((s.entry l).enqueue q)
    else
      match s.homeFill l with
      | none => s
      | some s => ((s.openReq l q).answerAll l).closeTxn l

/-- A host's request for a line of device memory; what no page names is accessed in place. -/
def State.hostRequest (s : State) (dev port dpa : Nat) (q : Req) : State :=
  let a := dpa / 64 * 64
  if !((s.ports[port]?).getD {}).up then s
  else
    match s.reverse dev a, q.data with
    | some l, _ => s.hostReq a l { q with src := some (portHolder port), at_ := s.cycle }
    | none, some bs => s.putLine (hbmPlace s.pkg.mode dev a) bs
    | none, none => s.sendLine port (a / 64) (hbmPlace s.pkg.mode dev a)

/-- MEMRD_SNPDATA (R334). -/
def execMemrdSnpdata (dev port dpa : Nat) (s : State) : Res :=
  .next (s.hostRequest dev port dpa { src := none, who := some (portHolder port), write := false })

/-- MEMRD_SNPINV (R334). -/
def execMemrdSnpinv (dev port dpa : Nat) (s : State) : Res :=
  .next (s.hostRequest dev port dpa { src := none, who := some (portHolder port), write := true })

/-- MEMRD_NO_SNOOP (R334). -/
def execMemrdNoSnoop (dev port dpa : Nat) (s : State) : Res :=
  .next (s.hostRequest dev port dpa { src := none, who := none, write := false })

/-- MEMWR (R334): every holder is recalled for write, then the host's bytes are merged. -/
def execMemwr (dev port dpa : Nat) (data : List Byte) (s : State) : Res :=
  .next (s.hostRequest dev port dpa { src := none, who := none, write := true, data := some data })

/-- BIRSPI (R334): a host port's acknowledgement of an invalidation. -/
def execBirspi (line : LineRef) (port : Nat) (s : State) : Res :=
  .next (if s.awaits line (portHolder port) true then
    ((s.recallAt line (portHolder port) true).ack line (portHolder port)).closeTxn line else s)

/-- BISNPDATA_RESPONSE (R334): a host port's answer with the bytes of a line that it had dirty. -/
def execBisnpdataResponse (line : LineRef) (port : Nat) (data : Option (List Byte)) (s : State) : Res :=
  let h := portHolder port
  .next (match (s.entry line).txn with
    | none => s
    | some t =>
      if !t.acks.contains h then s
      else
        let s := match data, (s.entry line).holds h, s.place? line.dev line.asid (64 * line.line) with
          | some bs, some .e, some a | some bs, some .m, some a => s.putLine a bs
          | _, _, _ => s
        ((s.recallAt line h t.req.write).ack line h).closeTxn line)

/-! ## Host memory under the device (R335) -/

/-- The lines of a device that a port's table names for a host physical address. -/
def State.snooped (s : State) (dev port hpa : Nat) : List LineRef :=
  (((s.ports[port]?).getD {}).lines.filter fun q => q.1 == hpa / 64 && q.2.dev == dev).map Prod.snd

/-- A host's snoop of the lines that the device holds. -/
def State.hostSnoop (s : State) (dev port hpa snoop : Nat) : State :=
  (s.snooped dev port hpa).foldl (fun s l =>
    s.hostReq hpa l { src := some (portHolder port), who := none, write := snoop == 1, snoop := snoop, at_ := s.cycle }) s

/-- The host requests that waited for a purge go on (R340). -/
def State.hostResume (s : State) (dev : Nat) : State :=
  let l := (s.dev dev).hostWait
  let s := s.modDev dev fun v => { v with hostWait := [] }
  let s := (s.dir.filter fun e => e.line.dev == dev && e.txn.isNone && !e.queue.isEmpty).foldl (fun s e => s.closeTxn e.line) s
  l.foldl (fun s p =>
    match p.2.src with
    | some h => if p.2.snoop = 0 then s.hostRequest dev (h.agent - 784) p.1 p.2 else s.hostSnoop dev (h.agent - 784) p.1 p.2.snoop
    | none => s) s

/-- H2D_SNPINV (R335): every internal holder is recalled for write, dirty data is returned, and the line leaves the
slice. -/
def execH2dSnpinv (dev port hpa : Nat) (s : State) : Res := .next (s.hostSnoop dev port hpa 1)

/-- H2D_SNPDATA (R335): the owner is recalled for read, and the line is left S toward the host. -/
def execH2dSnpdata (dev port hpa : Nat) (s : State) : Res := .next (s.hostSnoop dev port hpa 2)

/-- H2D_SNPCUR (R335): the current bytes are returned and no state changes. -/
def execH2dSnpcur (dev port hpa : Nat) (s : State) : Res :=
  .next ((s.snooped dev port hpa).foldl (fun s l =>
    let now := (s.entry l).holders.foldl (fun (s : State) p => if p.2 = .p then s.recallStash p.1.agent l false else s) s
    let bytes := now.mem.bytes (hostPlace port (hpa / 64 * 64)) 64
    { s with ports := listModify s.ports port fun p => { p with sent := some (hpa / 64, bytes) } }) s)

end Sys2Proof.Machine
end

