-- ==== Sys2Proof/Machine/Queues.lean ====
section
/-!
DEFINITION. Hardware queues (R345 to R349), the completion of grids (R41, R42), and transfer rings and engines
(R377 to R380).
-/
namespace Sys2Proof.Machine
open Sys2Proof

/-! ## Queue commands (R346 to R348) -/

/-- A command slot (Table 11.2). -/
structure Command where
  op : Nat
  flags : Nat
  arg0 : Nat
  arg1 : Nat
  scope : Nat
  rest : Bool

/-- The fields of a command slot; `rest` marks a reserved byte that is not zero. -/
def commandOf (ws : List Nat) : Command :=
  let w (i : Nat) : Nat := (ws[i]?).getD 0
  { op := bits (w 0) 0 32, flags := bits (w 0) 32 32, arg0 := w 1, arg1 := w 2, scope := bits (w 3) 0 32
    rest := bits (w 3) 32 32 ≠ 0 || (ws.drop 4).any fun x => x != 0 }

/-- ERR of a command that its slot alone refuses (Table 11.3), 0 for none; of several, a fenced OP comes before a reserved
field, and that before a misaligned address (log 95). ARG0 of a NOP has no meaning and is not reserved (log 95). -/
def Command.err (c : Command) : Nat :=
  if c.op = 0 || 4 < c.op then 5
  else if 1 < c.flags || 5 < c.scope || c.rest || ((c.op == 1 || c.op == 4) && c.arg1 != 0) then 6
  else if (c.op == 1 && c.arg0 % 256 != 0) || ((c.op == 2 || c.op == 3) && c.arg0 % 8 != 0) then 8
  else 0

/-- A queue reads its next command: it is neither refused nor suspended, and a command stands before the tail. -/
def Queue.reading (q : Queue) : Bool :=
  q.st != .error && q.st != .suspended && q.next != q.tail

/-- A command's start: the index of the next command moves on. -/
def State.startCmd (s : State) (k : Nat) (c : Option QCmd) : State :=
  s.setQueue k fun q => { q with next := q.next + 1, live := q.live ++ c.toList }

/-- HEAD after the completed commands at it. -/
def Queue.advance : Nat → Queue → Queue
  | 0, q => q
  | n + 1, q =>
    if q.done.contains q.head then
      Queue.advance n { q with head := q.head + 1, done := q.done.filter fun i => i != q.head }
    else q

/-- A command completes (R347). -/
def State.cmdDone (s : State) (k : Nat) (i : BitVec 32) : State :=
  s.setQueue k fun q =>
    Queue.advance (q.done.length + 1) { q with live := q.live.filter fun c => c.index != i, done := q.done ++ [i] }

/-- A command that starts and completes at once. -/
def State.cmdOnce (s : State) (k : Nat) (i : BitVec 32) : State := (s.startCmd k none).cmdDone k i

/-- The next command of a queue, when it may start and its slot does not wait: the queue, the command, or the ERR of a
slot that cannot be read (R347). -/
def State.nextCmd (s : State) (k : Nat) : Option (Queue × Except Nat (State × Command)) :=
  match s.queues.get? k with
  | none => none
  | some q =>
    if q.xfer.isSome || !q.reading || s.unitsBusy q.ctx (q.slotVa q.next) 64 false then none
    else
      match s.unitWords q.ctx (q.slotVa q.next) 8 with
      | .error _ => some (q, .error 7)
      | .ok (s', ws) =>
        let c := commandOf ws
        if !toBit c.flags && q.head != q.next then none else some (q, .ok (s', c))

/-- What a queue's next command does, where it is of the kind that the step is about. -/
def State.runCmd (s : State) (k op : Nat) (f : State → Queue → Command → State) : State :=
  match s.nextCmd k with
  | some (q, .ok (s', c)) => if c.op = op && c.err = 0 then f s' q c else s
  | _ => s

/-- QUEUE_LAUNCH (R347): the grid is accepted, or its refusal puts the queue in ERROR. -/
def execQueueLaunch (queue : Nat) (s : State) : Res :=
  .next (s.runCmd queue 1 fun s q c =>
    if s.unitsBusy q.ctx c.arg0 256 false || s.unitsBusy q.ctx c.arg0 256 true then s
    else
    match s.unitWords q.ctx c.arg0 32 with
    | .error _ => s.refuseQueue queue 7
    | .ok (s, ws) =>
      match s.checkLaunch q.ctx c.arg0 ws false with
      | (s, .error code) => s.refuseQueue queue code
      | (s, .ok g) =>
        let a := s.createGrid g 0 q.prio none (some queue)
        a.1.startCmd queue (some { index := q.next, op := 1, grid := some a.2, scope := (Scope.ofCode c.scope).getD .sys }))

/-- A read of a counter by the launch unit; the counter may stand in peer memory (R347). -/
def State.readCounter (s : State) (ctx ea : Nat) : Except Trap (State × Nat) :=
  let x : Accessor := { ctx := ctx, core := 768 }
  match s.resolve x { n := 8, rd := true, wr := false } ea with
  | .ok (.remote peer va) =>
    if Config.peerRefuses s.fresh peer va then .error { cause := cProtection, addr := ea }
    else .ok (s.bump, s.peek x (.remote peer va) 8)
  | _ => s.unitRead ctx 8 ea

/-- WAITCNT (R347): its first read completes it, or it waits. -/
def execWaitcnt (queue : Nat) (s : State) : Res :=
  .next (s.runCmd queue 2 fun s q c =>
    if s.unitBusy q.ctx c.arg0 false then s
    else
    match s.readCounter q.ctx c.arg0 with
    | .error _ => s.refuseQueue queue 7
    | .ok (s, v) =>
      if c.arg1 ≤ v then s.cmdOnce queue q.next
      else
        s.startCmd queue (some
          { index := q.next, op := 2, addr := c.arg0, value := BitVec.ofNat 64 c.arg1, scope := (Scope.ofCode c.scope).getD .sys }))

/-- WAITCNT_RELEASE (R347, R348): a waiting WAITCNT reads its counter again; a fault refuses it. -/
def execWaitcntRelease (queue index : Nat) (s : State) : Res :=
  let i : BitVec 32 := BitVec.ofNat 32 index
  .next (match (s.queues.get? queue).bind fun q =>
      (q.live.find? fun c => c.index == i && c.op == 2 && q.refused != some i).map fun c => (q, c) with
    | none => s
    | some (q, c) =>
      if s.unitBusy q.ctx c.addr false then s
      else
      match s.readCounter q.ctx c.addr with
      | .error _ =>
        (s.setQueue queue fun q => { q with refused := some i }).refuseQueue queue 7
      | .ok (s', v) => if c.value.toNat ≤ v then s'.cmdDone queue i else s')

/-- SIGNAL (R347, R348). -/
def execSignal (queue : Nat) (s : State) : Res :=
  .next (s.runCmd queue 3 fun s q c =>
    if s.unitBusy q.ctx c.arg0 true then s
    else
    match s.bumpCounter q.ctx c.arg0 c.arg1 with
    | .ok s => s.cmdOnce queue q.next
    | .error _ => s.refuseQueue queue 7)

/-- QUEUE_NOP (R347). -/
def execQueueNop (queue : Nat) (s : State) : Res := .next (s.runCmd queue 4 fun s q _ => s.cmdOnce queue q.next)

/-- QUEUE_COMMAND_FENCED (R348): a slot that cannot be read, a fenced OP, a reserved field or a misaligned address. -/
def execQueueCommandFenced (queue : Nat) (s : State) : Res :=
  .next (match s.nextCmd queue with
    | some (_, .error e) => s.refuseQueue queue e
    | some (_, .ok (s', c)) => if c.err = 0 then s else s'.refuseQueue queue c.err
    | none => s)

/-- DOORBELL_WRITE (R345). -/
def execDoorbellWrite (queue tail : Nat) (s : State) : Res := .next (s.doorbell queue tail)

/-! ## The completion of a grid (R41, R42) -/

/-- Teams of a grid. -/
def Grid.teamCount (g : Grid) : Nat := g.across 0 * g.across 1 * g.across 2

/-- The function of a context: 0 the physical one, n + 1 its virtual function n. -/
def State.ctxFunc (s : State) (ctx : Nat) : Nat := (((s.ctxs.get? ctx).bind fun c => c.vf).map fun n => n + 1).getD 0

/-- Every team of a grid has retired, been killed or been abandoned, and the transfer commands that its items placed
have ended (R42, R451). -/
def State.gridOver (s : State) (k : Nat) (g : Grid) : Bool :=
  !g.complete && decide (g.teamCount ≤ g.retired + g.abandoned) &&
  !(s.teams.any fun p => p.2.grid == k) && !(s.spans.any fun p => p.2.grid == k) && !(s.cursors.any fun p => p.2.span.grid == k) &&
  !(s.engines.any fun n => n.2.any fun x => x.2.team.isSome && x.2.grid == k)

/-- The completion of a grid: STATUS, the signal counter, the vector, the parent team and the queue command, in this
order. -/
def State.finishGrid (s : State) (k : Nat) (g : Grid) : State :=
  let s := s.unitPut g.ctx 8 (g.record + 0x28) (if g.failing = 0 then 1 else g.failing)
  let s := s.countUp g.ctx g.signal 1
  let s := if g.msix = 0 then s else s.raiseMsix (s.ctxDev g.ctx) (s.ctxFunc g.ctx) (g.msix - 1)
  let s := s.modGrid k fun g => { g with complete := true }
  let s := match g.parent with
    | none => s
    | some t => s.modTeam t fun tm =>
        { tm with children := tm.children - 1, childGrids := tm.childGrids.filter fun x => x != k }
  let s := match g.queue.bind fun q => ((s.queues.get? q).bind fun u => u.live.find? fun c => c.grid == some k).map fun c => (q, c) with
    | none => s
    | some (q, c) => s.cmdDone q c.index
  s.sweep

/-- GRID_COMPLETE (R42). -/
def execGridComplete (grid : Nat) (s : State) : Res :=
  .next (match s.grids.get? grid with
    | none => s
    | some g =>
      if s.unitBusy g.ctx (g.record + 0x28) true || (g.signal != 0 && s.unitBusy g.ctx g.signal true) then s
      else if s.gridOver grid g then s.finishGrid grid g else s)

/-! ## Transfer rings and engines (R377 to R380) -/

/-- ERR of a descriptor that breaks a limit: a misaligned address, or another field (Table 11.3). -/
def descriptorErr (ws : List Nat) : Nat :=
  let w (i : Nat) : Nat := (ws[i]?).getD 0
  if w 0 % 16 ≠ 0 || w 1 % 16 ≠ 0 || w 3 % 8 ≠ 0 then 8 else 6

/-- The ring from which an engine takes its next descriptor: in rotation from the one after that served last (R377). -/
def State.nextRing (s : State) (n : Nat) : Option Nat :=
  let l := (s.queues.filter fun q => q.2.xfer == some n && q.2.reading).map Prod.fst
  match s.ringLast.get? n with
  | none => l.head?
  | some k => (l.find? fun q => decide (k < q)).or l.head?

/-- TRANSFER_ACCEPT (R377): the engine takes the next descriptor of a ring, or the ring goes to ERROR. -/
def execTransferAccept (queue : Nat) (s : State) : Res :=
  .next (match s.queues.get? queue with
    | none => s
    | some q =>
      match q.xfer with
      | none => s
      | some n =>
        if s.nextRing n ≠ some queue || !(s.fdie (n / 4)).inService || s.unitsBusy q.ctx (q.slotVa q.next) 64 false then s
        else
          match s.unitWords q.ctx (q.slotVa q.next) 8 with
          | .error _ => s.refuseQueue queue 7
          | .ok (s', ws) =>
            match s'.descriptor (s'.ctxDev q.ctx) ws with
            | none => s'.refuseQueue queue (descriptorErr ws)
            | some d =>
              match s'.acceptXfer n { d.xfer q.ctx with queue := some queue } with
              | none => s
              | some s' =>
                ({ s' with ringLast := s'.ringLast.set n queue } : State).setQueue queue fun q =>
                  { q with next := q.next + 1, head := q.head + 1 })

/-- A command that its engine may run: not suspended by a fault, nor with its context. -/
def Xfer.able (x : Xfer) : Bool := x.faultRec.isNone && !x.held

/-- A command is among the four that its engine runs (R378). -/
def State.engineRuns (s : State) (n slot : Nat) : Option Xfer :=
  match (s.engine n).get? slot with
  | none => none
  | some x =>
    if x.able && (s.fdie (n / 4)).inService &&
        decide (((s.engine n).filter fun p => p.2.able && decide (p.2.order < x.order)).length < 4) then some x
    else none

/-- A transfer engine as an accessor. -/
def Xfer.accessor (x : Xfer) (n : Nat) : Accessor := { ctx := x.ctx, core := 768 + n, kind := 2, host := x.team.isNone }

/-- A command of an engine changes. -/
def State.modXfer (s : State) (n slot : Nat) (f : Xfer → Xfer) : State :=
  { s with engines := s.engines.set n ((s.engine n).modify slot f) }

/-- The units of a command up to the end of a line of its destination, at most four. -/
def Xfer.burst (x : Xfer) : Nat := min ((64 - (x.dst + x.off) % 64) / 16) ((x.len - x.off) / 16)

/-- The bytes of `k` units of a command from an offset, read in turn, as the writes that they make; poison moves with them
(R247, R380). A trap comes with the units before it. -/
def State.xferImage (a : Accessor) (x : Xfer) : Nat → Nat → State → State × List (Nat × List Byte × Bool) × Option (Option Trap)
  | 0, _, s => (s, [], none)
  | k + 1, off, s =>
    match State.engineBytes a (fun _ _ => none) (x.src + off) 16 s with
    | .trap s t => (s, [], some (some t))
    | .wait s => (s, [], some none)
    | .ok s b =>
      let r := State.xferImage a x k (off + 16) s
      (r.1, (x.dst + off, b.map Prod.fst, b.any Prod.snd) :: r.2.1, r.2.2)

/-- The units at the front of a list whose destination takes them: a trap comes with those before it. -/
def State.xferReady (a : Accessor) : List (Nat × List Byte × Bool) → State →
    State × List (Nat × List Byte × Bool) × Option (Option Trap)
  | [], s => (s, [], none)
  | p :: r, s =>
    match s.ready a { n := 16, rd := false, wr := true } p.1 with
    | .trap s t => (s, [], some (some t))
    | .wait s => (s, [], some none)
    | .ok s _ =>
      let q := State.xferReady a r s
      (q.1, p :: q.2.1, q.2.2)

/-- A command moves the units of one line of its destination at once (R306, R378), or those before a fault; while one waits
none moves. The sources of the line are read before it is written (log 101). -/
def State.moveXfer (s : State) (n slot : Nat) (x : Xfer) : Got Unit :=
  let a := x.accessor n
  let (s, img, stop) := State.xferImage a x x.burst x.off s
  let (s, img, stop) := match State.xferReady a img s with
    | (s, l, none) => (s, l, stop)
    | (s, l, some t) => (s, l, some t)
  match img, stop with
  | _, some none => .wait s
  | [], some (some t) => .trap s t
  | img, _ =>
    match State.imageWrite a img [] false s with
    | .trap s t => .trap s t
    | .wait _ => .wait s
    | .ok s _ =>
      .ok ((s.modXfer n slot fun x => { x with off := x.off + 16 * img.length, running := true }).releaseEngine ⟨768 + n, 2⟩) ()

/-- TRANSFER_BURST (R378): a line of a running command is written, and goes back to its home. -/
def execTransferBurst (engine slot : Nat) (s : State) : Res :=
  .next (match s.engineRuns engine slot with
    | none => s
    | some x =>
      if x.len ≤ x.off then s
      else
        match s.moveXfer engine slot x with
        | .ok s _ => s
        | .trap _ _ => s
        | .wait s => s)

/-- The record of a suspended command (R380, Table 13.2). -/
def State.xferRecord (s : State) (n slot : Nat) (x : Xfer) (t : Trap) : FaultRec :=
  { dev := s.ctxDev x.ctx, kind := 5, cause := t.cause, sub := t.sub, ctx := x.ctx
    grid := if x.team.isSome then ((s.grids.get? x.grid).map fun g => g.num).getD 0 else 0
    gridKey := if x.team.isSome then x.grid else 0
    team := ((x.team.bind fun k => s.teams.get? k).map fun tm => tm.index).getD 0
    addr := t.addr, src := x.src, dst := x.dst, len := x.len, off := x.off, what := .xfer n slot }

/-- A fault suspends a command at its progress offset, when the record store has room (R380, R388). -/
def State.suspendXfer (s : State) (n slot : Nat) (x : Xfer) (t : Trap) : State :=
  if !s.recRoom (s.ctxDev x.ctx) then s
  else
    let (s, id) := (s.releaseEngine ⟨768 + n, 2⟩).addRecord (s.xferRecord n slot x t)
    s.modXfer n slot fun x => { x with faultRec := some id, running := false }

/-- Engine work that the items of a COPYQ placed before it is still to be performed (R305). -/
def State.xferOwes (s : State) (x : Xfer) : Bool := (x.team.map fun t => s.owes t x.items x.ord).getD false

/-- TRANSFER_COMPLETE (R379): the counter, and the slot. -/
def execTransferComplete (engine slot : Nat) (s : State) : Res :=
  .next (match s.engineRuns engine slot with
    | none => s
    | some x =>
      if x.off < x.len || s.xferOwes x || (x.counter != 0 && s.unitBusy x.ctx x.counter true) then s
      else
        match s.addCounter x.ctx x.counter 1 with
        | .error _ => s
        | .ok s => { s with engines := s.engines.set engine ((s.engine engine).del slot) })

/-- TRANSFER_FAULT (R380): the next unit, or the counter of a command whose bytes are all written, faults. -/
def execTransferFault (engine slot : Nat) (s : State) : Res :=
  .next (match s.engineRuns engine slot with
    | none => s
    | some x =>
      if x.off < x.len then
        match s.moveXfer engine slot x with
        | .trap s' t => s'.suspendXfer engine slot x t
        | _ => s
      else
        match s.addCounter x.ctx x.counter 1 with
        | .error t => s.suspendXfer engine slot x t
        | .ok _ => s)

end Sys2Proof.Machine
end

