-- ==== Sys2Proof/Machine/Waits.lean ====
section
/-!
DEFINITION. Steps of held instructions (R222, R223, R246, R258), of the phases (R414, R415), of halts and single steps
(R401, R402), and of pre-emption, accounting and rotation (R359 to R364).
-/
namespace Sys2Proof.Machine
open Sys2Proof

/-! ## Held instructions -/

/-- The instruction at which a sub-wave stands. -/
def SubWave.instr (k : SubWave) : Option Instr :=
  (k.clause.bind fun c => c.slots.find? fun x => x.ix == k.slot).map fun x => x.ins

/-- A step made with a sub-wave as the one that issues; afterwards the one that issued before does so again. -/
def withSub (t w k : Nat) (f : State → Res) (s : State) : Res :=
  match f { s with cur := some (.sub t w k) } with
  | .next s' =>
    .next { s' with cur := match s.cur with
      | some (.sub t' w' k') => if (s'.ex? t' w' k').isSome then s.cur else none
      | some (.span i) => if (s'.spans.get? i).isSome then s.cur else none
      | none => none }
  | r => r

/-- A held instruction of some kind goes on. -/
def goOn (kind : HoldKind) (run : Instr → Option (State → Res)) (t w k : Nat) (s : State) : Res :=
  match s.ex? t w k with
  | none => .next s
  | some e =>
    if (e.sub.hold.map fun h => h.kind == kind).getD false then
      match e.sub.instr.bind run with
      | some f => withSub t w k f s
      | none => .next s
    else .next s

/-- The budget of a held instruction has passed. -/
def State.expired (s : State) (t w k : Nat) : Bool :=
  ((s.ex? t w k).bind fun e => e.sub.hold.bind fun h => h.deadline.map fun d =>
    decide (d ≤ s.coreTime e.team.core)).getD false

/-- WAITV, if the instruction is one. -/
def runWaitv (i : Instr) : Option (State → Res) :=
  match i with
  | .waitv x => some (execWaitv x)
  | _ => none

/-- CNTWAIT, if the instruction is one. -/
def runCntwait (i : Instr) : Option (State → Res) :=
  match i with
  | .cntwait x => some (execCntwait x)
  | _ => none

/-- PHWAIT, if the instruction is one. -/
def runPhwait (i : Instr) : Option (State → Res) :=
  match i with
  | .phwait x => some (execPhwait x)
  | _ => none

/-- A collective copy, if the instruction is one. -/
def runCopy (i : Instr) : Option (State → Res) :=
  match i with
  | .cpy x => some (execCpy x)
  | .cpyt x => some (execCpyt x)
  | .cpyg x => some (execCpyg x)
  | .cpys x => some (execCpys x)
  | _ => none

/-- WAITV_RELEASE (R223): the locations are read again. -/
def execWaitvRelease (team wave sub : Nat) (s : State) : Res := goOn .waitv runWaitv team wave sub s

/-- WAITV_TIMEOUT (R223). -/
def execWaitvTimeout (team wave sub : Nat) (s : State) : Res :=
  if s.expired team wave sub then goOn .waitv runWaitv team wave sub s else .next s

/-- CNTWAIT_RELEASE (R258): the counter is read again. -/
def execCntwaitRelease (team wave sub : Nat) (s : State) : Res := goOn .cntwait runCntwait team wave sub s

/-- CNTWAIT_TIMEOUT (R258). -/
def execCntwaitTimeout (team wave sub : Nat) (s : State) : Res :=
  if s.expired team wave sub then goOn .cntwait runCntwait team wave sub s else .next s

/-- COPY_VALIDATED (R246): the slices of an arrival are checked. -/
def execCopyValidated (team wave sub : Nat) (s : State) : Res :=
  match goOn .copyCheck runCopy team wave sub s with
  | .next s' => goOn .copyTag runCopy team wave sub s'
  | r => r

/-! ## Phases (R301, R302, R414, R415) -/

/-- PHDONE_ADVANCE (R414): every write tagged with the next closed phase or a lower one has been performed. -/
def execPhdoneAdvance (die : Nat) (s : State) : Res :=
  let c := s.cdie die
  .next (if c.inService && decide (c.phdone + 1 < c.phase) && !(c.tagged.any fun p => decide (p.1 ≤ c.phdone + 1) && p.2 != 0)
    then s.modCdie die fun c => { c with phdone := c.phdone + 1 } else s)

/-- Sub-waves of the cores of a compute die that wait in PHWAIT. -/
def State.phWaiters (s : State) (die : Nat) : List (Nat × Nat × Nat) :=
  s.teams.flatMap fun t =>
    if t.2.state == .resident && dieOf t.2.core == die then
      t.2.waves.flatMap fun w => w.2.subs.filterMap fun k =>
        if (k.2.hold.map fun h => h.kind == HoldKind.phwait).getD false then some (t.1, w.1, k.1) else none
    else []

/-- The lanes that wait in PHWAIT on a die look at the mirror again (R302). -/
def State.phRelease (s : State) (die : Nat) : State :=
  (s.phWaiters die).foldl (fun s q =>
    match goOn .phwait runPhwait q.1 q.2.1 q.2.2 s with
    | .next s' => s'
    | _ => s) s

/-- PHDONE_MIRROR_UPDATE (R415): a die's mirror of another die's PHDONE, and the lanes that it releases. -/
def execPhdoneMirrorUpdate (viewer die : Nat) (s : State) : Res :=
  .next (if s.dieIn (s.devOfFnd (viewer / 4)) die && (s.cdie viewer).inService && decide (viewer < 16 ∧ die < 16) then
    ({ s with mirrors := s.mirrors.set (16 * viewer + die) (s.cdie die).phdone } : State).phRelease viewer
  else s)

/-! ## Halts and steps (R401, R402) -/

/-- DEBUG_HALT_STOP (R401): a wave that is to halt has stopped, and its instructions in flight have completed. -/
def execDebugHaltStop (team wave : Nat) (s : State) : Res :=
  match s.wave? team wave with
  | none => .next s
  | some w =>
    .next (if w.haltAsked && w.stopped && w.pendingResults.isEmpty then
      s.modWave team wave fun w => { w with halted := true, haltAsked := false } else s)

/-- The word of the instruction that a step issued. -/
def SubWave.steppedPc (k : SubWave) : Nat :=
  match k.stepFrom with
  | some (c, ix) => c.addr + 8 * (ix + 1)
  | none => k.wordPc

/-- One lane of a sub-wave alone (R38), and the number of its sub-wave. A held instruction keeps both. -/
def Wave.isolate (w : Wave) (k : Nat) (sub : SubWave) (lane : Nat) : Wave × Nat :=
  let m : Lanes := 1#16 <<< lane
  if sub.mask = m then (w.modSub k fun q => { q with single := true }, k)
  else
    let k' := w.subs.fresh
    let part (q : SubWave) (m : Lanes) : SubWave :=
      { q with mask := m, hold := q.hold.map fun h => { h with lanes := h.lanes &&& m } }
    let w := w.modSub k fun q => part q (q.mask &&& ~~~m)
    ({ w with subs := w.subs.set k' { (part sub m) with single := true, started := false, stepLanes := 0 } }, k')

/-- The lanes that a step named pass their instruction: each stands alone and is to raise STEP (R38, R402). -/
def Wave.stepApart (w : Wave) (k : Nat) (sub : SubWave) : Wave :=
  (lanesIn (sub.stepLanes &&& sub.mask)).foldl (fun w i =>
    match w.subs.get? k with
    | none => w
    | some q =>
      let r := w.isolate k q i
      r.1.modSub r.2 fun q => { q with stepping := 2 }) (w.modSub k fun q => { q with stepLanes := 0 })

/-- STEP (R402): the lanes have passed their instruction and park with STEP. -/
def execStep (team wave sub : Nat) (s : State) : Res :=
  match s.ex? team wave sub with
  | none => .next s
  | some e =>
    if e.sub.stepLanes != 0 && e.sub.hold.isNone && e.sub.park.isNone then
      .next (s.modWave team wave fun w => w.stepApart sub e.sub)
    else if e.sub.stepping = 2 && e.sub.park.isNone then
      .next ((s.takeTraps team wave sub (allLanes e.sub.mask { cause := cStep }) e.sub.steppedPc false).releasePort
        e.team.core (.sub team wave sub))
    else .next s

/-! ## Stopping teams (R361 to R363) -/

/-- A team is to stop and leave its core. -/
def State.stopTeam (s : State) (t : Nat) : State := s.modTeam t fun tm => { tm with stopping := true }

/-- A wave of the team is halted or about to be, so that rotation and slice expiry wait (R365). -/
def Team.debugged (t : Team) : Bool := t.waves.any fun w => w.2.halted || w.2.haltAsked || w.2.subs.any fun k => k.2.stepping != 0

/-- Resident teams of a context. -/
def State.residentOf (s : State) (ctx : Nat) : List (Nat × Team) :=
  s.teams.filter fun p => p.2.ctx == ctx && p.2.state == .resident

/-! ## Accounting (R358 to R360) -/

/-- The charge of some arithmetic cycles: 12 twelfths a cycle on each in-service core, split among the contexts on it. -/
def State.charge (s : State) (cycles : Nat) : State :=
  let cores := ((s.teams.filter fun p => p.2.state == .resident).map fun p => p.2.core) ++
    (s.spans.filterMap fun p => match p.2.state with
      | .running k _ => some k
      | .parkedFault k _ _ _ => some k
      | .ready | .parkedJoin _ _ | .saved => none)
  cores.eraseDups.foldl (fun s c =>
    let l := s.ctxsOn c
    if !s.coreUp c || l.isEmpty then s
    else
      let part := 12 * cycles / l.length
      let s := l.foldl (fun s x => s.modCtx x fun k =>
        { k with charged := k.charged + part, chargedTotal := k.chargedTotal + part }) s
      s.modCore c fun k => { k with charged := k.charged + cycles }) s

/-- A context has a team that waits for a core. -/
def State.hasPlaceable (s : State) (ctx : Nat) : Bool :=
  s.placing ctx &&
  ((s.teams.any fun p => p.2.ctx == ctx && (match p.2.state with
    | .swapped _ => true
    | .resident | .held => false)) ||
   s.cursors.any fun p => p.2.span.ctx == ctx && ((s.grids.get? p.2.span.grid).map fun g => !g.stopped).getD false)

/-- A context has runnable work (R359). -/
def State.runnable (s : State) (ctx : Nat) : Bool :=
  !(s.residentOf ctx).isEmpty || (s.spans.any fun p => p.2.ctx == ctx) || s.hasPlaceable ctx ||
  s.teams.any fun p => p.2.ctx == ctx && (match p.2.state with
    | .swapped _ => true
    | .resident | .held => false)

/-- An integer within ±2^48. -/
def limit48 (d : Int) : Int := max (-(2 ^ 48)) (min (2 ^ 48) d)

/-- A context has a team that waits and that no core can admit. -/
def State.someStuck (s : State) (ctx : Nat) : Bool :=
  let cores := s.coresOf (s.ctxDev ctx)
  s.placing ctx &&
  ((s.teams.any fun p => p.2.ctx == ctx && (match p.2.state with
    | .swapped _ => ((s.grids.get? p.2.grid).map fun g => !cores.any fun c => s.admits (p.2.needs g) c).getD false
    | .resident | .held => false)) ||
  s.cursors.any fun p => p.2.span.ctx == ctx &&
    ((s.grids.get? p.2.span.grid).bind fun g => p.2.next.map fun pos =>
      !g.stopped && !cores.any fun c => s.admits (p.2.needs g pos) c).getD false)

/-- A context has resident work: a team on a core, or a span in a slot (R359). -/
def State.residentWork (s : State) (ctx : Nat) : Bool :=
  !(s.residentOf ctx).isEmpty || s.spans.any fun p => p.2.ctx == ctx && (match p.2.state with
    | .running _ _ | .parkedFault _ _ _ _ => true
    | .ready | .parkedJoin _ _ | .saved => false)

/-- The core that holds the most teams of a context, the lowest first. -/
def State.busiest (s : State) (ctx : Nat) : Option Nat :=
  let l := (s.residentOf ctx).map fun p => p.2.core
  l.foldl (fun (b : Option Nat) c =>
    match b with
    | none => some c
    | some d =>
      let n := (l.filter fun x => x == c).length
      let m := (l.filter fun x => x == d).length
      if m < n || (m == n && decide (c < d)) then some c else some d) none

/-- SLICE_EXPIRY (R360): the youngest team, on its busiest core, of the resident context of least deficit is to leave,
where a weighted context with a team that no core can admit lies more than a round of one core above it. -/
def State.sliceExpiry (s : State) (dev : Nat) : State :=
  let mine := s.ctxs.filter fun c => c.2.dev == dev
  let resident := mine.filter fun c => s.residentWork c.1
  let least := resident.foldl (fun (b : Option (Nat × Ctx)) c =>
    match b with
    | none => some c
    | some d => if c.2.deficit < d.2.deficit then some c else some d) none
  match least with
  | none => s
  | some (b, cb) =>
    if mine.any fun a => a.2.weight != 0 && s.someStuck a.1 && decide (cb.deficit < a.2.deficit - 147456) then
      match s.busiest b with
      | none => s
      | some core =>
        let l := (s.byOrder core).filter fun p => p.2.ctx == b && !p.2.debugged
        match l.reverse with
        | p :: _ => s.stopTeam p.1
        | [] => s
    else s

/-- ACCOUNTING_ROUND (R359): every 1,024 ticks deficits are credited and charged. -/
def execAccountingRound (dev : Nat) (s : State) : Res :=
  let now := s.devTime dev
  if now < (s.dev dev).roundStart + 1024 || s.devCount ≤ dev then .next s
  else
    let mine := s.ctxs.filter fun c => c.2.dev == dev
    let run := mine.filter fun c => s.runnable c.1
    let total := mine.foldl (fun n c => n + c.2.charged) 0
    let weights := run.foldl (fun n c => n + c.2.weight) 0
    let s := mine.foldl (fun s c =>
      s.modCtx c.1 fun k =>
        let credit := if weights = 0 then 0 else total * k.weight / weights
        { k with
          charged := 0
          deficit := if run.any fun r => r.1 == c.1 then limit48 (k.deficit + (credit : Int) - (k.charged : Int)) else 0 }) s
    .next ((s.modDev dev fun v => { v with roundStart := v.roundStart + 1024 }).sliceExpiry dev)

/-! ## Relay rotation (R361) -/

/-- The team's waves all stand in one of the waits of R361. -/
def Team.blocked (t : Team) : Bool :=
  t.waves.all fun w => w.2.subs.all fun k => match k.2.hold with
    | some h => [HoldKind.waitv, .barWait, .barmWait, .twait, .lwait].contains h.kind
    | none => false

/-- LTIME at which the last wave of a blocked team was held. -/
def Team.blockedSince (t : Team) : Nat :=
  t.waves.foldl (fun n w => w.2.subs.foldl (fun n k => max n ((k.2.hold.map fun h => h.since).getD 0)) n) 0

/-- Either trigger of relay rotation holds for a grid. -/
def State.rotates (s : State) (k : Nat) (g : Grid) : Bool :=
  let now := s.devTime (s.ctxDev g.ctx)
  let quantum := ((s.ctxs.get? g.ctx).map fun c => c.quantum).getD 100000
  decide (g.rotateTick + quantum ≤ now) &&
  ((s.teams.any fun p => p.2.grid == k && (match p.2.state with
    | .swapped since => decide (since + quantum ≤ s.coreTime p.2.core)
    | .resident | .held => false)) ||
  (decide (g.progressTick + quantum ≤ now) && ((s.cursors.any fun p => p.2.span.grid == k) || s.spans.any fun p => p.2.grid == k)))

/-- The team of a grid that rotation takes on a core. -/
def State.rotated (s : State) (k core quantum : Nat) : Option Nat :=
  let l := (s.byOrder core).filter fun p =>
    p.2.grid == k && decide (p.2.admitTick + quantum ≤ s.coreTime core) && !p.2.stopping && !p.2.debugged
  let held := (l.filter fun p => p.2.blocked).foldl (fun (b : Option (Nat × Team)) p =>
    match b with
    | none => some p
    | some q => if p.2.blockedSince < q.2.blockedSince then some p else some q) none
  (held.or l.head?).map Prod.fst

/-- RELAY_ROTATION (R361): one team of the grid on each core that holds its teams is to leave. -/
def execRelayRotation (grid : Nat) (s : State) : Res :=
  match s.grids.get? grid with
  | none => .next s
  | some g =>
    if !s.rotates grid g || !s.placing g.ctx then .next s
    else
      let quantum := ((s.ctxs.get? g.ctx).map fun c => c.quantum).getD 100000
      let cores := ((s.teams.filter fun p => p.2.grid == grid && p.2.state == .resident).map fun p => p.2.core).eraseDups
      let s := cores.foldl (fun s c => match s.rotated grid c quantum with
        | some t => s.stopTeam t
        | none => s) s
      .next (s.modGrid grid fun g => { g with rotateTick := s.devTime (s.ctxDev g.ctx) })

end Sys2Proof.Machine
end

