-- ==== Sys2Proof/Machine/Preempt.lean ====
section
/-!
DEFINITION. Pre-emption of a context, and its return (R349, R362, R382).
-/
namespace Sys2Proof.Machine
open Sys2Proof

/-- A time from now on the LTIME of each foundation die. -/
def State.endsIn (s : State) (ticks : Nat) : List Nat := s.fdies.map fun f => f.ltime.toNat + ticks

/-- A time has come on the LTIME of a core's foundation die. -/
def State.passed (s : State) (ends : List Nat) (core : Nat) : Bool := decide ((ends[fndOf core]?).getD 0 ≤ s.coreTime core)

/-- A span is saved to its record and leaves its slot; one that a fault holds stays so (R351, R362). -/
def Span.saved (sp : Span) : Span :=
  match sp.state with
  | .running _ _ | .ready => { sp with state := .saved, started := false }
  | .parkedFault _ _ r t => { sp with state := .parkedFault 768 0 r t, started := false }
  | .parkedJoin _ _ | .saved => sp

/-- Every span of a context leaves its slot. -/
def State.saveSpans (s : State) (ctx : Nat) : State :=
  let mine := s.spans.filter fun p => p.2.ctx == ctx
  let s := mine.foldl (fun s p => (s.dropSlot p.1).modSpan p.1 Span.saved) s
  { s with cur := match s.cur with
    | some (.span i) => if mine.any fun p => p.1 == i then none else s.cur
    | c => c }

/-- The queues of a context enter SUSPENDED; one in ERROR stays there, unless a restart of the host begins (R348, R349, R362,
R429). -/
def State.suspendQueues (s : State) (ctx : Nat) (warm : Bool) : State :=
  (s.queues.filter fun q => q.2.ctx == ctx).foldl (fun s q =>
    s.setQueue q.1 fun q =>
      if q.st = .error && !warm then q else { q with st := .suspended, err := 0, refused := none }) s

/-- The transfer commands of a context stop at their progress offsets, or go on (R382). -/
def State.holdXfers (s : State) (ctx : Nat) (on : Bool) : State :=
  let hit := (s.engines.filter fun e => e.2.any fun x => x.2.ctx == ctx).map Prod.fst
  let s := if on then hit.foldl (fun s n => s.releaseEngine ⟨768 + n, 2⟩) s else s
  { s with engines := s.engines.map fun e =>
      (e.1, e.2.map fun x => (x.1, if x.2.ctx = ctx then { x.2 with held := on, running := x.2.running && !on } else x.2)) }

/-- Pre-emption begins: DRAIN (R362). -/
def State.preempt (s : State) (ctx drain swap : Nat) (warm : Bool) : State :=
  let ends := s.endsIn drain
  let s := s.modCtx ctx fun c => { c with st := .suspending, preempt := some (.drain ends swap), warm := warm }
  ((s.suspendQueues ctx warm).saveSpans ctx).holdXfers ctx true

/-- A cause that is not fenced (R384), for a record whose cause the manual leaves open. -/
def State.openCause (s : State) : Nat := 1 + Config.freeNat s.fresh % 26

/-- The record that names a context whose pre-emption has ended (R362); its cause is open. -/
def State.preemptRecord (s : State) (ctx : Nat) : State :=
  let dev := s.ctxDev ctx
  (s.raiseRecord
    { dev := dev, kind := 6, cause := s.openCause, sub := 0, ctx := ctx, grid := 0, gridKey := 0, team := 0
      what := .team }).bump

/-- DRAIN or SWAP has ended with every team off its core: the context is suspended. -/
def State.preemptDone (s : State) (ctx : Nat) : State :=
  (s.modCtx ctx fun c => { c with st := .suspended, preempt := none }).preemptRecord ctx

/-- PREEMPT_DRAIN_END (R362): no team of the context is resident. -/
def execPreemptDrainEnd (ctx : Nat) (s : State) : Res :=
  .next (match (s.ctxs.get? ctx).bind fun c => c.preempt with
    | some _ => if (s.residentOf ctx).isEmpty then s.preemptDone ctx else s
    | none => s)

/-- PREEMPT_DRAIN_DEADLINE (R362): SWAP begins, and every remaining team is to stop. -/
def execPreemptDrainDeadline (ctx : Nat) (s : State) : Res :=
  .next (match (s.ctxs.get? ctx).bind fun c => c.preempt with
    | some (.drain ends swap) =>
      let l := s.residentOf ctx
      if l.any fun p => s.passed ends p.2.core then
        let s := l.foldl (fun s p => s.stopTeam p.1) s
        let ends := s.endsIn swap
        s.modCtx ctx fun c => { c with preempt := some (.swap ends) }
      else s
    | some (.swap _) | none => s)

/-- The transfer commands of a context end without their counters (Table 12.2). -/
def State.killXfers (s : State) (ctx : Nat) : State :=
  { s with engines := s.engines.map fun e => (e.1, e.2.filter fun x => x.2.ctx != ctx) }

/-- Every grid of a context fails with a status (R44, R362). -/
def State.failGrids (s : State) (ctx status : Nat) : State :=
  s.grids.foldl (fun s g => if g.2.ctx = ctx && !g.2.complete then s.abandonGrid g.1 status else s) s

/-- The RESET phase (R362): grids complete with a status, transfers end, and the context is marked reset. -/
def State.resetCtx (s : State) (ctx status : Nat) : State :=
  let s := (s.failGrids ctx status).killXfers ctx
  s.modCtx ctx fun c => { c with st := .reset, preempt := none }

/-- PREEMPT_SWAP_DEADLINE (R362): RESET. -/
def execPreemptSwapDeadline (ctx : Nat) (s : State) : Res :=
  .next (match (s.ctxs.get? ctx).bind fun c => c.preempt with
    | some (.swap ends) =>
      if (s.residentOf ctx).any fun p => s.passed ends p.2.core then (s.resetCtx ctx 4).preemptRecord ctx else s
    | some (.drain _ _) | none => s)

/-- A suspended context returns: queues RUNNING, spans ready, transfers in rotation (R349, R362, R382). -/
def State.resumeCtx (s : State) (ctx : Nat) : State :=
  let s := s.modCtx ctx fun c => { c with st := .running, warm := false }
  let s : State := { s with spans := s.spans.map fun p =>
    (p.1, if p.2.ctx = ctx && p.2.state == .saved then { p.2 with state := .ready } else p.2) }
  let s := s.holdXfers ctx false
  (s.queues.filter fun q => q.2.ctx == ctx && q.2.st == .suspended).foldl (fun s q =>
    s.setQueue q.1 fun q => { q with st := .running }) s

end Sys2Proof.Machine
end

