-- ==== Sys2Proof/Machine/Calls.lean ====
section
/-!
DEFINITION. Service calls: the caller's addressing (R422), acceptance (R421, R423), the checks that come first (R424,
R427, R434), and completion (R423).
-/
namespace Sys2Proof

/-- An argument word. -/
def Call.arg (c : Call) (i : Nat) : Nat := ((c.args[i]?).map fun w => w.toNat).getD 0

end Sys2Proof

namespace Sys2Proof.Machine
open Sys2Proof

/-! ## Caller addressing (R420, R422) -/

/-- The memory behind a place is lost with its foundation die (R413). -/
def State.lostPlace (s : State) (a : Nat) : Bool := decide (a < 2 ^ 40) && !(s.fdie (a / 2 ^ 38)).inService

/-- Bytes of device memory of a partition device (Table 14.1). -/
def State.devBytes (s : State) : Nat := 2 ^ 40 / s.devCount

/-- The device and device address that a host physical address names, if it lies in an HDM range. -/
def State.hdm (s : State) (port addr : Nat) : Option (Nat × Nat) :=
  (List.range s.devCount).findSome? fun d =>
    let b := Config.hdmBase port d
    if b ≤ addr ∧ addr < b + s.devBytes then some (d, addr - b) else none

/-- A byte read at a host's address. Memory of the host that the device does not hold is what the host holds then. -/
def State.hostGet (s : State) (port addr : Nat) : Except Trap (State × Byte) :=
  match s.hdm port addr with
  | some (d, dpa) =>
    let a := hbmPlace s.pkg.mode d dpa
    if s.poison.contains (a / 16) || s.lostPlace a then .error { cause := cPoison, addr := addr }
    else
      let s := match s.reverse d dpa with
        | some l => s.force l false
        | none => s
      .ok (s, s.mem.get a)
  | none =>
    let a := hostPlace port addr
    if ((s.ports[port]?).getD {}).lines.any fun q => q.1 == addr / 64 then .ok (s, s.mem.get a)
    else
      let s : State := { s with mem := s.mem.put a (Config.hostByte s.fresh a) }
      .ok (s.bump, s.mem.get a)

/-- A byte written at a host's address. -/
def State.hostPut (s : State) (port addr : Nat) (b : Byte) : State :=
  match s.hdm port addr with
  | some (d, dpa) =>
    let s := match s.reverse d dpa with
      | some l => s.force l true
      | none => s
    { s with mem := s.mem.put (hbmPlace s.pkg.mode d dpa) b }
  | none =>
    let ls := ((((s.ports[port]?).getD {}).lines.filter fun q => q.1 == addr / 64).map Prod.snd)
    let s := ls.foldl (fun s l => ((s.force l true).hostLine l false).leaveSlice l) s
    { s with mem := s.mem.put (hostPlace port addr) b }

/-- A byte read in the caller's addressing. -/
def State.callerGet (s : State) (who : Caller) (addr : Nat) : Except Trap (State × Byte) :=
  match who with
  | .host port _ => s.hostGet port addr
  | .item ctx _ _ _ =>
    match s.unitRead ctx 1 addr with
    | .error t => .error t
    | .ok (s, v) => .ok (s, BitVec.ofNat 8 v)

/-- Bytes read in the caller's addressing. -/
def State.callerRead (who : Caller) : Nat → Nat → State → Except Trap (State × List Byte)
  | _, 0, s => .ok (s, [])
  | addr, n + 1, s =>
    match s.callerGet who addr with
    | .error t => .error t
    | .ok (s, b) =>
      match State.callerRead who (addr + 1) n s with
      | .error t => .error t
      | .ok (s, l) => .ok (s, b :: l)

/-- Bytes written in the caller's addressing; a write that fails is lost. -/
def State.callerWrite (s : State) (who : Caller) (addr : Nat) (bs : List Byte) : State :=
  (bs.foldl (fun (r : State × Nat) b =>
    (match who with
     | .host port _ => r.1.hostPut port r.2 b
     | .item ctx _ _ _ => r.1.unitPut ctx 1 r.2 b.toNat, r.2 + 1)) (s, addr)).1

/-- The first failure among the bytes of a range (R461). -/
def State.callerFault (s : State) (who : Caller) (wr : Bool) (addr n : Nat) : Option Trap :=
  (List.range n).findSome? fun i =>
    let a := addr + i
    match who with
    | .host port _ =>
      (match s.hdm port a with
       | some (d, dpa) =>
         if s.lostPlace (hbmPlace s.pkg.mode d dpa) || (!wr && s.poison.contains (hbmPlace s.pkg.mode d dpa / 16)) then some { cause := cPoison, addr := a } else none
       | none => none)
    | .item ctx _ _ _ =>
      (match s.unit ctx { n := 1, rd := !wr, wr := wr } a with
       | .error t => some t
       | .ok _ => none)

/-- Some line of a range waits: for a purge (R340), or for a pin on what an access would recall (R266). -/
def State.callerBusy (s : State) (who : Caller) (addr n : Nat) (wr : Bool) : Bool :=
  match who with
  | .item ctx _ _ _ => s.unitsBusy ctx addr n wr
  | .host port _ => (List.range (ceilDiv (addr % 64 + n) 64)).any fun k =>
      match (s.hdm port (addr / 64 * 64 + 64 * k)).bind fun p => s.reverse p.1 p.2 with
      | some l => s.lineBusy l wr
      | none => false

/-- The 8-byte words of some bytes. -/
def wordsOf (bs : List Byte) : List Nat := (List.range (bs.length / 8)).map fun i => leNat ((bs.drop (8 * i)).take 8)

/-! ## Acceptance (R421, R423) -/

/-- The number of a function of a device on a port: 0 the physical one, 1 to 16 a virtual one. -/
def funcKey (dev vf : Nat) : Nat := 32 * dev + vf

/-- A function's registers. -/
def HostPort.func (p : HostPort) (k : Nat) : Func := (p.funcs.get? k).getD {}

/-- A function's registers change. -/
def State.modFunc (s : State) (port k : Nat) (f : Func → Func) : State :=
  { s with ports := listModify s.ports port fun p => { p with funcs := p.funcs.set k (f (p.func k)) } }

/-- A host submits a call (R421, R423). -/
def State.submit (s : State) (dev port vf addr : Nat) : State :=
  let p := (s.ports[port]?).getD {}
  let k := funcKey dev vf
  let block := addr / 256 * 256
  if !p.up || 2 ≤ port || 16 < vf || s.devCount ≤ dev then s
  else if 64 ≤ (p.func k).outst then s.modFunc port k fun f => { f with dropped := true }
  else
    match State.callerRead (.host port vf) block 256 s with
    | .error t =>
      s.logEvent s.pkg.svcDie { logOf 8 with unit := 12, number := port, addr := block, detail := port + vf * 2 ^ 8 + t.cause * 2 ^ 16 }
    | .ok (s, bs) =>
      (s.modFunc port k fun f => { f with outst := f.outst + 1 }).acceptCall dev
        (callOf dev (.host port vf) block 0 0 (wordsOf bs))

/-- SVCDB_WRITE (R421, R423). What is written before the service unit has started is read when it starts (R458). -/
def execSvcdbWrite (dev port vf addr : Nat) (s : State) : Res :=
  .next (if s.pkg.heldReset ≠ 0 then { s with pkg := { s.pkg with early := s.pkg.early ++ [(dev, port, vf, addr)] } }
    else s.submit dev port vf addr)

/-- DROPPED_CLEAR (R421). -/
def execDroppedClear (dev port vf : Nat) (s : State) : Res :=
  .next (s.modFunc port (funcKey dev vf) fun f => { f with dropped := false })

/-! ## Completion (R423) -/

/-- The completion counter in the caller's addressing. -/
def State.callCounter (s : State) (c : Call) : State :=
  if c.counter = 0 then s
  else
    match c.caller with
    | .item ctx _ _ _ => s.countUp ctx c.counter 1
    | .host _ _ =>
      match State.callerRead c.caller c.counter 8 s with
      | .error _ => s
      | .ok (s, bs) => s.callerWrite c.caller c.counter (natLe 8 (leNat bs + 1))

/-- A call's completion waits for the lines of its block and of its counter. -/
def State.answerBusy (s : State) (c : Call) : Bool :=
  s.callerBusy c.caller c.block 256 true || (c.counter != 0 && s.callerBusy c.caller c.counter 8 true)

/-- A call completes: RESULT, STATUS, the counter, the vector, and the caller's count or flag. -/
def State.answer (s : State) (c : Call) (status : Nat) (res : List Nat) : State :=
  let s := s.callerWrite c.caller (c.block + 0x20) (res.flatMap fun v => natLe 8 v)
  let s := s.callerWrite c.caller (c.block + 4) (natLe 4 status)
  let s := s.callCounter c
  match c.caller with
  | .host port vf =>
    let s := if !c.irq then s
      else if (s.dev c.dev).lastPort = some c.irqPort then s.raiseMsix c.dev vf c.vector
      else { s with msix := s.msix ++ [⟨c.irqPort, vf, c.vector⟩] }
    s.modFunc port (funcKey c.dev vf) fun f => { f with outst := f.outst - 1 }
  | .item _ _ t w => (s.finishWave t w c.flight).sweep

/-! ## The checks that come first (R423, R424, R427, R434) -/

/-! Status codes (Table 15.5). -/
/-- OK. -/
def stOk : Nat := 0
/-- BAD_CALL. -/
def stBadCall : Nat := 1
/-- BAD_PARAM. -/
def stBadParam : Nat := 2
/-- NO_CONTEXT. -/
def stNoContext : Nat := 3
/-- NOT_HOLDER. -/
def stNotHolder : Nat := 4
/-- NO_RESOURCE. -/
def stNoResource : Nat := 5
/-- BUSY. -/
def stBusy : Nat := 6
/-- ALIAS_REQUIRED. -/
def stAlias : Nat := 7
/-- STALE_RECORD. -/
def stStale : Nat := 8
/-- PREEMPT_RESET. -/
def stPreemptReset : Nat := 9
/-- CONTEXTS_LIVE. -/
def stContextsLive : Nat := 10
/-- ROUTE_INVALID. -/
def stRouteInvalid : Nat := 11
/-- LAUNCH_REFUSED. -/
def stLaunchRefused : Nat := 13
/-- SIG_INVALID. -/
def stSigInvalid : Nat := 14
/-- FW_RECOVERY. -/
def stRecovery : Nat := 15
/-- HOST_GONE. -/
def stHostGone : Nat := 16
/-- DEBUG_HELD. -/
def stDebugHeld : Nat := 17

/-- Calls that act on the context that the block names. -/
def namesCtx (code : Nat) : Bool :=
  [0x02, 0x03, 0x06, 0x07, 0x08, 0x09, 0x0A, 0x0B, 0x0C, 0x0D, 0x0E, 0x0F, 0x10, 0x11, 0x12, 0x13, 0x14, 0x15, 0x16, 0x17,
   0x1B, 0x1C, 0x1E, 0x1F, 0x20, 0x21].contains code

/-- Calls that release the unit while they wait (R423). -/
def freesUnit (code : Nat) : Bool := [0x1B, 0x14, 0x11, 0x24, 0x27, 0x2C, 0x18].contains code

/-- Calls answered in recovery (R434); `resume` marks RESYNC with another action than 0. -/
def inRecovery (code : Nat) (resume : Bool) : Bool := code == 0x2C || code == 0x2D || code == 0x25 || (code == 0x30 && !resume)

/-- A port holds the baton of a device. -/
def Dev.heldBy (v : Dev) (port : Nat) : Bool := v.baton == .held port

/-- The caller's right to make a call (R427). -/
def State.mayCall (s : State) (code : Nat) (c : Call) : Bool :=
  match c.caller with
  | .item _ _ _ _ => true
  | .host port _ =>
    let v := s.dev c.dev
    [0x05, 0x03, 0x23, 0x25, 0x2E, 0x2B, 0x2A].contains code || v.heldBy port ||
    (code == 0x30 && (c.arg 1 == 0 || v.baton == .gone)) ||
    (code == 0x28 && v.baton == .opened && v.lastPort == some port)

/-- The context that a call names exists in the device, and the caller reaches it (R421). -/
def State.reaches (s : State) (c : Call) (ctx : Nat) : Bool :=
  match s.ctxs.get? ctx with
  | none => false
  | some x =>
    x.dev == c.dev &&
    (match c.caller with
     | .host _ 0 => true
     | .host _ (n + 1) => x.vf == some n
     | .item k _ _ _ => k == ctx)

/-- What a call's own part answers: it completes, it waits, or it cannot begin yet since a line that it names waits. -/
inductive Reply where
  | done (s : State) (status : Nat) (res : List Nat)
  | wait (s : State)
  | later

/-- A call leaves the unit's lists. -/
def State.dropCall (s : State) (k : Nat × Call) : State :=
  s.modDev k.2.dev fun v => { v with calls := v.calls.erase k, waiting := v.waiting.erase k }

/-- A call may start or go on: it waits already, or it is the oldest and nothing holds it back (R423). A call that
the unit has not listed stands for one that has just been accepted. -/
def State.startable (s : State) (k : Nat × Call) : Bool :=
  let v := s.dev k.2.dev
  (s.fdie s.pkg.svcDie).inService &&
  (v.waiting.contains k || !v.calls.contains k ||
  (v.calls.head? == some k &&
   !(v.waiting.any fun w => !freesUnit w.1 || (namesCtx w.1 && namesCtx k.1 && w.2.ctx == k.2.ctx))))

/-- A service call: the checks of R424 in their order, then its own part; `argc` is the number of its argument words. It does
nothing while a line that its completion writes waits. -/
def serve (code argc : Nat) (c : Call) (body : Bool → State → Reply) (s : State) : Res :=
  let k := (code, c)
  let again := (s.dev c.dev).waiting.contains k
  let fail (st : Nat) : Res := .next (if s.answerBusy c then s else (s.dropCall k).answer c st [])
  if !s.startable k then .next s
  else if !again && s.pkg.recovery && !inRecovery code (c.arg 1 != 0) then fail stRecovery
  else if !again && (c.bad || (c.args.drop argc).any fun x => x != 0) then fail stBadParam
  else if !again && !s.mayCall code c then fail stNotHolder
  else if !again && namesCtx code && !s.reaches c c.ctx then fail stNoContext
  else
    match body again s with
    | .done s' st res => .next (if s'.answerBusy c then s else (s'.dropCall k).answer c st res)
    | .wait s =>
      .next (if again then s else (s.dropCall k).modDev c.dev fun v => { v with waiting := v.waiting ++ [k] })
    | .later => .next s

/-- A refused access to a buffer (R461). -/
def refusedAccess (s : State) (t : Trap) : Reply := .done s stBadParam [t.cause, t.addr]

/-- A call's buffer: where every byte can be accessed and no line of it waits, `k` goes on. -/
def withBuffer (c : Call) (wr : Bool) (addr n : Nat) (s : State) (k : State → Reply) : Reply :=
  match s.callerFault c.caller wr addr n with
  | some t => refusedAccess s t
  | none => if s.callerBusy c.caller addr n wr then .later else k s

/-- The bytes of a call's buffer. -/
def readBuffer (c : Call) (addr n : Nat) (s : State) (k : State → List Byte → Reply) : Reply :=
  if s.callerBusy c.caller addr n false then .later
  else
    match State.callerRead c.caller addr n s with
    | .error t => refusedAccess s t
    | .ok (s, bs) => k s bs

/-- A call whose code is fenced completes with BAD_CALL, once it is the oldest. -/
def State.rejectFenced (s : State) (dev : Nat) : State :=
  match (s.dev dev).calls with
  | k :: _ =>
    if (k.1 = 0 || 0x30 < k.1) && s.startable k && !s.answerBusy k.2 then
      (s.dropCall k).answer k.2 (if s.pkg.recovery then stRecovery else stBadCall) []
    else s
  | [] => s

end Sys2Proof.Machine
end

