-- ==== Sys2Proof/Machine/Contexts.lean ====
section
/-!
DEFINITION. Service calls on partitions, contexts, queues and launches (R344, R345, R358, R362, R405, R416, R425).
-/
namespace Sys2Proof.Machine
open Sys2Proof

/-- A call that completes with a status and no results. -/
def ended (s : State) (status : Nat) : Reply := .done s status []

/-! ## Ranges of lines (R340) -/

/-- The lines that the homes of a device hold in a range of an address space. -/
def State.linesIn (s : State) (dev asid lo len : Nat) : List LineRef :=
  (s.dir.map fun e => e.line).filter fun l =>
    l.dev == dev && l.asid == asid && decide (lo < 64 * l.line + 64 ∧ 64 * l.line < lo + len)

/-- Every holder of the lines of a range gives them up, and the lines leave their slices. -/
def State.forceRange (s : State) (dev asid lo len : Nat) : State :=
  (s.linesIn dev asid lo len).foldl (fun s l => ((s.force l true).evictHost l).leaveSlice l) s

/-! ## Partitions (R405, R416) -/

/-- A route table is refused (R416). -/
def routesBad (mode dev own : Nat) (table : List Nat) : Bool :=
  let fnds := fndsPer mode
  table.zipIdx.any fun p =>
    let links := bits p.1 0 24
    let valid := toBit (p.1 / 2 ^ 24)
    bits p.1 25 7 ≠ 0 || (valid && (links = 0 || p.2 = own ||
      (List.range 24).any fun j => toBit (links / 2 ^ j) && (j / 6) / fnds != dev))

/-- The entries of a table that are not zero, by destination. -/
def routesOf (table : List Nat) : Tbl Nat := (table.zipIdx.filter fun p => p.1 != 0).map fun p => (p.2, p.1)

/-- 32-bit words of some bytes. -/
def words32 (bs : List Byte) : List Nat := (List.range (bs.length / 4)).map fun i => leNat ((bs.drop (4 * i)).take 4)

/-- HOMETAB of a device in a new mode: entries of Table 10.1 that name a retired slice go to the slice that took them
(R323, R343). -/
def State.rehome (s : State) (mode dev : Nat) : Tbl Nat :=
  let first (i : Nat) : Nat := if mode = 0 then i else if mode = 1 then 512 * dev + i % 512 else 256 * dev + i % 256
  (List.range 1024).filterMap fun i =>
    let x := first i
    if s.pkg.deadSlices.contains x then
      let left := s.slicesLeft (x / 64)
      (match left.find? fun y => decide (x < y) with
       | some y => some (i, y)
       | none => left.head?.map fun y => (i, y))
    else none

/-- The route tables that PART_SET names, one per device; the first that cannot be read ends it (R461). -/
def State.readTables (who : Caller) : List Nat → State → Except Trap (State × List (List Nat))
  | [], s => .ok (s, [])
  | a :: r, s =>
    match State.callerRead who a 16384 s with
    | .error t => .error t
    | .ok (s, bs) =>
      match State.readTables who r s with
      | .error t => .error t
      | .ok (s, l) => .ok (s, words32 bs :: l)

/-- PART_SET (R405, R416). -/
def execPartSet (c : Call) (s : State) : Res :=
  let mode := c.arg 0
  let n := 4 / fndsPer mode
  serve 0x04 (2 + n) c (fun again s =>
    if again then
      (if s.ctxs.all fun x => x.2.preempt.isNone then ended s stContextsLive else .wait s)
    else if 2 < mode || c.arg 1 / 2 ^ (12 * n) ≠ 0 then ended s stBadParam
    else if (List.range n).any fun d => s.callerBusy c.caller (c.arg (2 + d)) 16384 false then .later
    else
      match State.readTables c.caller ((List.range n).map fun d => c.arg (2 + d)) s with
      | .error t => refusedAccess s t
      | .ok (s, tables) =>
        let own (d : Nat) : Nat := bits (c.arg 1) (12 * d) 12
        let table (d : Nat) : List Nat := (tables[d]?).getD []
        if (List.range n).any fun d => routesBad mode d (own d) (table d) then ended s stRouteInvalid
        else if s.ctxs.isEmpty then
          let fresh := mode != s.pkg.mode
          let s : State := { s with
            pkg := { s.pkg with mode := mode }
            dir := if fresh then [] else s.dir
            cores := if fresh then s.cores.map fun c => (c.1, { c.2 with l1 := [], ic := [] }) else s.cores
            tlb := if fresh then [] else s.tlb }
          ended ((List.range n).foldl (fun s d =>
            let home := s.rehome mode d
            s.modDev d fun v => { v with
              barnos := own d, routes := routesOf (table d), placePtr := 0
              hometab := if fresh then home else v.hometab
              remap := if fresh then [] else v.remap }) s) stOk
        else
          .wait (s.ctxs.foldl (fun s x =>
            if x.2.st = .running then s.preempt x.1 200000 200000 false else s) s)) s

/-- PART_QUERY (R425). -/
def execPartQuery (c : Call) (s : State) : Res :=
  serve 0x05 0 c (fun _ s => .done s stOk [s.pkg.mode, c.dev, (s.dev c.dev).barnos]) s

/-! ## Contexts (R56, R69, R425) -/

/-- A run of frames is free for a page. -/
def State.framesFree (s : State) (dev frame n : Nat) : Bool :=
  decide ((frame + n) * 65536 ≤ s.devBytes ∧ frame % n = 0) &&
  (List.range n).all fun i => !s.frameUsed dev (frame + i) && !s.frameDead dev (frame + i)

/-- The lowest free frames for a page, from `n * k` on. -/
def State.lowestFrames (s : State) (dev n : Nat) : Nat → Nat → Option Nat
  | 0, _ => none
  | fuel + 1, k => if s.framesFree dev (n * k) n then some (n * k) else State.lowestFrames s dev n fuel (k + 1)

/-- The frames that the unit takes for a page: its own choice where they are free. -/
def State.takeFrames (s : State) (dev n : Nat) : Option Nat :=
  let x := Config.chooseFrame s.fresh
  if s.framesFree dev x n then some x else s.lowestFrames dev n (s.devBytes / 65536 / n) 0

/-- Frames are reserved for a context's backing store (R69); none when memory runs out. -/
def State.reserveFrames (ctx dev : Nat) : Nat → State → Option State
  | 0, s => some s
  | n + 1, s =>
    match s.takeFrames dev 1 with
    | none => none
    | some f => State.reserveFrames ctx dev n (s.bump.modCtx ctx fun x => { x with frames := x.frames ++ [f] })

/-- CTX_CREATE (R425). The REPRO flag sets CTL.REPRO of the context (R136). -/
def execCtxCreate (c : Call) (s : State) : Res :=
  serve 0x01 5 c (fun _ s =>
    let ctl := c.arg 0
    let fl := c.arg 2
    let vf := bits fl 8 8
    let vec := c.arg 4
    if 2 ^ 11 ≤ ctl || 1 < bits ctl 1 2 || fl / 2 ^ 16 ≠ 0 || bits fl 2 6 ≠ 0 || 16 < vf || 2 ^ 16 ≤ c.arg 3 || 2048 < vec then
      ended s stBadParam
    else
      let need := (Config.backingBytes s.fresh).toNat
      let s := s.bump
      match (List.range 64).find? fun k => (s.ctxs.get? (64 * c.dev + k)).isNone with
      | none => ended s stNoResource
      | some k =>
        let x : Ctx :=
          { dev := c.dev, asid := c.arg 3
            ctl := BitVec.ofNat 64 (ctl / 16 * 16 + ctl % 8 + 8 * (fl % 2))
            seed := BitVec.ofNat 64 (c.arg 1), inside := toBit (fl / 2)
            vf := if vf = 0 then none else some (vf - 1)
            faultVec := if vec = 0 then none else some (vec - 1)
            backing := need }
        match State.reserveFrames (64 * c.dev + k) c.dev (ceilDiv need 65536) { s with ctxs := s.ctxs.set (64 * c.dev + k) x } with
        | none => ended s stNoResource
        | some s => .done s stOk [64 * c.dev + k, need]) s

/-- The retained entries of a context on a core end, and its write-backs with them (R237, R238). -/
def State.endRetained (s : State) (ctx core : Nat) : State :=
  let mine := (s.core core).entries.filter fun p => p.2.ctx == ctx
  mine.foldl (fun s p =>
    let s := (s.flush core p.1).displace core p.1
    ((s.core core).sectors.filter fun q => q.2.entry == p.1 && q.2.st == .wb).foldl (fun s q => s.writebackDone core q.1) s) s

/-- The grids of a context complete at once, children before parents. -/
def State.finishGrids (s : State) (ctx : Nat) : State :=
  (s.grids.filter fun g => g.2.ctx == ctx).reverse.foldl (fun s p =>
    match s.grids.get? p.1 with
    | none => s
    | some g => if g.complete then s else s.finishGrid p.1 g) s

/-- The records of a context leave the store. -/
def State.dropRecords (s : State) (dev : Nat) (f : FaultRec → Bool) : State :=
  s.modDev dev fun v => { v with records := v.records.filter fun r => !f r.2 }

/-- A context ends: its grids are killed, its retained entries displaced, its queues freed, and its space unmapped. -/
def State.destroyCtx (s : State) (ctx : Nat) (x : Ctx) : State :=
  let s := ((s.failGrids ctx 4).killXfers ctx).finishGrids ctx
  let s := (s.cores.map Prod.fst).foldl (fun s k => s.endRetained ctx k) s
  let s := x.pages.foldl (fun s p => s.forceRange x.dev x.asid p.va p.size) s
  let s := s.dropRecords x.dev fun r => r.ctx == ctx && (r.gridKey != 0 || r.kind == 5)
  let s := s.modDev x.dev fun v => { v with
    remap := v.remap.filter fun a => a.asid != x.asid
    exports := v.exports.filter fun w => w.ctx != ctx
    imports := v.imports.filter fun w => w.ctx != ctx }
  let s : State := { s with
    cores := s.cores.map fun k => (k.1, { k.2 with stash := k.2.stash.filter fun b => b.2.ctx != ctx })
    queues := s.queues.filter fun q => q.2.ctx != ctx
    grids := s.grids.filter fun g => g.2.ctx != ctx
    teams := s.teams.filter fun t => t.2.ctx != ctx
    ctxs := s.ctxs.del ctx }
  (s.dropTlb x.dev x.asid 0 (2 ^ 64)).hbmCheck

/-- CTX_DESTROY (R425). -/
def execCtxDestroy (c : Call) (s : State) : Res :=
  serve 0x02 0 c (fun _ s =>
    match s.ctxs.get? c.ctx with
    | none => ended s stNoContext
    | some x => ended (s.destroyCtx c.ctx x) stOk) s

/-- The state of a context as CTX_QUERY codes it. -/
def CtxState.code : CtxState → Nat
  | .running => 0
  | .suspending => 1
  | .suspended => 2
  | .reset => 3

/-- Live grids of a context. -/
def State.liveGrids (s : State) (ctx : Nat) : Nat := (s.grids.filter fun g => g.2.ctx == ctx && !g.2.complete).length

/-- A signed number as a 64-bit word. -/
def intWord (z : Int) : Nat := (BitVec.ofInt 64 z).toNat

/-- CTX_QUERY (R425). -/
def execCtxQuery (c : Call) (s : State) : Res :=
  serve 0x03 0 c (fun _ s =>
    match s.ctxs.get? c.ctx with
    | none => ended s stNoContext
    | some x => .done s stOk [x.st.code, s.liveGrids c.ctx, (s.residentOf c.ctx).length, intWord x.deficit]) s

/-- A deadline argument in ticks: 0 selects 2 ms (R362). -/
def deadlineTicks (us : Nat) : Nat := if us = 0 then 200000 else 100 * us

/-- CTX_SUSPEND (R362). -/
def execCtxSuspend (c : Call) (s : State) : Res :=
  serve 0x1B 2 c (fun again s =>
    match (s.ctxs.get? c.ctx).map fun x => x.st with
    | none => ended s stNoContext
    | some st =>
      if again then
        match st with
        | .suspended => ended s stOk
        | .reset => ended s stPreemptReset
        | .running | .suspending => .wait s
      else if 1000000 < c.arg 0 || 1000000 < c.arg 1 then ended s stBadParam
      else if st ≠ .running then ended s stBusy
      else .wait (s.preempt c.ctx (deadlineTicks (c.arg 0)) (deadlineTicks (c.arg 1)) false)) s

/-- CTX_RESUME (R362). -/
def execCtxResume (c : Call) (s : State) : Res :=
  serve 0x1C 0 c (fun _ s =>
    if (s.ctxs.get? c.ctx).map (fun x => x.st) = some .suspended then ended (s.resumeCtx c.ctx) stOk
    else ended s stBusy) s

/-- SHARE_SET (R358). -/
def execShareSet (c : Call) (s : State) : Res :=
  serve 0x0B 2 c (fun _ s =>
    if 255 < c.arg 0 || c.arg 1 < 64 || 65535 < c.arg 1 then ended s stBadParam
    else ended (s.modCtx c.ctx fun x => { x with weight := c.arg 0, quantum := 100 * c.arg 1 }) stOk) s

/-! ## Queues (R344, R345) -/

/-- Hardware queues of a device (Table 11.1). -/
def queueLimit (mode : Nat) : Nat := if mode = 0 then 256 else if mode = 1 then 128 else 64

/-- The doorbell page of a context. -/
def doorPage : Page := { va := doorBase, size := 65536, target := .doorbell, perm := 2 }

/-- QUEUE_CREATE (R344, R345, R377). -/
def execQueueCreate (c : Call) (s : State) : Res :=
  serve 0x06 5 c (fun _ s =>
    let ring := c.arg 0
    let n := c.arg 1
    let kind := c.arg 4
    let engine := 4 * bits kind 4 2 + bits kind 1 3
    let isRing := toBit kind
    if n < 4 || 16 < n || ring % (64 * 2 ^ n) ≠ 0 || 2 ^ 56 ≤ ring || c.arg 2 % 16 ≠ 0 || 2 ^ 56 ≤ c.arg 2 || 3 < c.arg 3 ||
        64 ≤ kind || (!isRing && kind ≠ 0) || (isRing && (3 < bits kind 1 3 || s.devOfFnd (bits kind 4 2) ≠ c.dev)) then
      ended s stBadParam
    else
      match (List.range (queueLimit s.pkg.mode)).find? fun k => (s.queues.get? (256 * c.dev + k)).isNone with
      | none => ended s stNoResource
      | some k =>
        if isRing && decide (8 ≤ (s.queues.filter fun q => q.2.xfer == some engine).length) then ended s stNoResource
        else
          let running := (s.ctxs.get? c.ctx).map (fun x => x.st) == some .running
          let q : Queue :=
            { ctx := c.ctx, ring := ring, n := n, headVa := c.arg 2, prio := c.arg 3
              xfer := if isRing then some engine else none
              st := if running then .idle else .suspended }
          let s := s.modCtx c.ctx fun x =>
            if x.pages.any fun p => p.va == doorBase then x else { x with pages := x.pages ++ [doorPage] }
          let s : State := { s with queues := s.queues.set (256 * c.dev + k) q }
          .done (s.writeHead (256 * c.dev + k)) stOk [k, 0x1000 + 8 * k, doorBase + 8 * k]) s

/-- The queue that a call's first argument names, where it is one of the context. -/
def State.queueArg (s : State) (c : Call) : Option (Nat × Queue) :=
  if 256 ≤ c.arg 0 then none
  else
    match s.queues.get? (256 * c.dev + c.arg 0) with
    | none => none
    | some q => if q.ctx = c.ctx then some (256 * c.dev + c.arg 0, q) else none

/-- QUEUE_DESTROY (R425): accepted grids and transfers run on. -/
def execQueueDestroy (c : Call) (s : State) : Res :=
  serve 0x07 1 c (fun _ s =>
    match s.queueArg c with
    | none => ended s stBadParam
    | some (k, _) =>
      ended { s with
        queues := s.queues.del k
        grids := s.grids.map fun g => (g.1, if g.2.queue = some k then { g.2 with queue := none } else g.2) } stOk) s

/-- QUEUE_BIND_PRIORITY (R344). -/
def execQueueBindPriority (c : Call) (s : State) : Res :=
  serve 0x08 2 c (fun _ s =>
    match s.queueArg c with
    | none => ended s stBadParam
    | some (k, _) => if 3 < c.arg 1 then ended s stBadParam
      else ended (s.modQueue k fun q => { q with prio := c.arg 1 }) stOk) s

/-! ## Launches (R276) -/

/-- LAUNCH_GRID (R276, R461); the call names no priority, so the grid's is open. -/
def execLaunchGrid (c : Call) (s : State) : Res :=
  serve 0x09 1 c (fun _ s =>
    let rec_ := c.arg 0
    if rec_ % 256 ≠ 0 then ended s stBadParam
    else if s.unitsBusy c.ctx rec_ 256 false || s.unitsBusy c.ctx rec_ 256 true then .later
    else
      match s.unitWords c.ctx rec_ 32 with
      | .error t => refusedAccess s t
      | .ok (s, ws) =>
        match s.checkLaunch c.ctx rec_ ws false with
        | (s, .error code) => .done s stLaunchRefused [code]
        | (s, .ok g) =>
          -- the record of a grid that is accepted is written (R276)
          match s.unit c.ctx { n := 8, rd := false, wr := true } (rec_ + 0x28) with
          | .error t => refusedAccess s t
          | .ok _ => ended (s.createGrid g 0 (Config.freeNat s.fresh % 4) none none).1.bump stOk) s

/-- The refused command of a queue in ERROR is passed, and the queue returns to RUNNING (R345, R348). -/
def State.passRefused (s : State) (k : Nat) (q : Queue) : State :=
  let running := (s.ctxs.get? q.ctx).map (fun x => x.st) == some .running
  let back (q : Queue) : Queue := { q with st := if running then .running else .suspended, err := 0, refused := none }
  match q.refused with
  | some i => (s.setQueue k back).cmdDone k i
  | none =>
    let pending := q.next != q.tail && (q.err != 5 ||
      (match (s.modQueue k fun q => { q with st := .running }).nextCmd k with
       | some (_, .ok (_, cmd)) => cmd.err != 0
       | _ => q.xfer.isNone))
    if !pending then s.setQueue k back
    else if q.xfer.isSome then s.setQueue k fun q => { back q with next := q.next + 1, head := q.head + 1 }
    else
      let i := q.next
      (s.setQueue k fun q => { back q with next := q.next + 1 }).cmdDone k i

/-- LAUNCH_CANCEL (R425). -/
def execLaunchCancel (c : Call) (s : State) : Res :=
  serve 0x0A 2 c (fun _ s =>
    match s.queueArg c with
    | none => ended s stBadParam
    | some (k, q) =>
      if c.arg 1 = 0 then
        (if q.st = .error then ended (s.passRefused k q) stOk else ended s stBusy)
      else
        match s.grids.find? fun g => g.2.ctx == c.ctx && g.2.num == c.arg 1 && g.2.queue == some k && !g.2.complete with
        | none => ended s stBadParam
        | some (g, _) => ended (s.abandonGrid g 4) stOk) s

end Sys2Proof.Machine
end

