-- ==== Sys2Proof/Machine/FaultCalls.lean ====
section
/-!
DEFINITION. Service calls on fault records: FAULT_FETCH, FAULT_RESOLVE and FAULT_ABORT (R31, R388, R389).
-/
namespace Sys2Proof.Machine
open Sys2Proof

/-- The 128 bytes of a fault record (Table 13.2). -/
def FaultRec.bytes (r : FaultRec) (id : Nat) : List Byte :=
  natLe 8 id ++ natLe 1 r.kind ++ natLe 1 r.cause ++ natLe 1 r.sub ++ natLe 1 0 ++ natLe 4 r.ctx ++ natLe 8 r.grid ++
  natLe 8 r.team ++ natLe 8 r.pc ++ natLe 8 r.addr ++ natLe 2 r.core ++ natLe 1 r.wave ++ natLe 1 r.depth ++
  natLe 2 r.lanes ++ natLe 2 0 ++ natLe 8 r.aux ++ natLe 8 r.src ++ natLe 8 r.dst ++ natLe 8 r.len ++ natLe 8 r.off ++
  natLe 32 0

/-- A caller may learn of a context: a virtual function only of those bound to it (R421). -/
def State.mayName (s : State) (c : Call) (ctx : Nat) : Bool :=
  match c.caller with
  | .host _ 0 => true
  | .host _ (n + 1) => ((s.ctxs.get? ctx).map fun x => x.vf == some n).getD false
  | .item k _ _ _ => k == ctx

/-- FAULT_FETCH (R388, R461): the oldest records first. -/
def execFaultFetch (c : Call) (s : State) : Res :=
  serve 0x18 2 c (fun _ s =>
    let l := ((s.dev c.dev).records.filter fun p => s.mayName c p.2.ctx).take (c.arg 1)
    withBuffer c true (c.arg 0) (128 * l.length) s fun s =>
      .done (s.callerWrite c.caller (c.arg 0) (l.flatMap fun p => p.2.bytes p.1)) stOk [l.length]) s

/-- Records that waited for room enter the store. -/
def State.recordHeld (dev : Nat) : Nat → State → State
  | 0, s => s
  | n + 1, s =>
    match (s.dev dev).recHeld with
    | [] => s
    | r :: l =>
      if s.recRoom dev then State.recordHeld dev n ((s.modDev dev fun v => { v with recHeld := l }).addRecord r).1 else s

/-- Spans whose records waited for room get them (R388). -/
def State.recordSpans (s : State) : State :=
  let s := (List.range s.devCount).foldl (fun s d => State.recordHeld d (s.dev d).recHeld.length s) s
  s.spans.foldl (fun s p =>
    match p.2.state, s.grids.get? p.2.grid with
    | .parkedFault core slot none t, some g =>
      if s.recRoom (s.ctxDev p.2.ctx) then
        let a := s.addRecord (spanRecord (s.ctxDev p.2.ctx) g p.1 p.2 core t)
        a.1.modSpan p.1 fun sp => { sp with state := .parkedFault core slot (some a.2) t }
      else s
    | _, _ => s) s

/-- A record leaves the store. -/
def State.freeRecord (s : State) (dev id : Nat) : State :=
  s.modDev dev fun v => { v with records := v.records.del id }

/-- The parked sub-wave that a record names. -/
def State.parkedOf (s : State) (t w k id : Nat) : Option (SubWave × Park) :=
  match s.ex? t w k with
  | none => none
  | some e =>
    match e.sub.park with
    | some p => if p.stage = .recorded id then some (e.sub, p) else none
    | none => none

/-- Resume, retry or kill a parked sub-wave (Table 13.3). -/
def State.resolveSub (s : State) (t w k action : Nat) (sub : SubWave) (p : Park) : State :=
  if action = 0 then s.modSub t w k fun q => q.resume p
  else if action = 1 then s.modSub t w k fun q => q.retry p
  else (s.killLanes t w sub.mask).sweep

/-- A parked span goes on at once or, without a slot, when it gets one. -/
def Span.goOn (sp : Span) (core slot : Nat) (running : Bool) : Span :=
  { sp with
    started := false
    state := if core < 768 then .running core slot else if running then .ready else .saved }

/-- A span is killed: every team of its box is lost (R31). -/
def State.killSpan (s : State) (i : Nat) (sp : Span) : State :=
  let s := (s.dropSlot i).untagAll sp.flights
  let s : State := { s with
    spans := s.spans.del i
    cur := if s.cur = some (Focus.span i) then none else s.cur }
  let s := (s.modGrid sp.grid fun g => { g with abandoned := g.abandoned + sp.box.count }).failGrid sp.grid 4
  s.checkJoin sp.grid

/-- Resume, retry or kill a parked span (R31). A resumed block store goes on from its first item not performed; a span
that faulted at a fetch fetches again. -/
def State.resolveSpan (s : State) (i action : Nat) (sp : Span) (core slot : Nat) : State :=
  let running := ((s.ctxs.get? sp.ctx).map fun x => x.st == .running).getD false
  if action = 0 then
    s.modSpan i fun sp => (if sp.inBlock then sp else sp.advance).goOn core slot running
  else if action = 1 then s.modSpan i fun sp => { (sp.goOn core slot running) with blockPos := 0, inBlock := false }
  else s.killSpan i sp

/-- A team is killed by a resolution. -/
def State.resolveTeam (s : State) (t action : Nat) (on : State → State) : State :=
  if action = 2 then (s.killTeam t 4).sweep else on s

/-- What a resolution does to the object of a record; none: the object is gone (R389). -/
def State.resolve? (s : State) (id action : Nat) (r : FaultRec) : Option State :=
  match r.what with
  | .sub t w k | .debug t w k => (s.parkedOf t w k id).map fun q => s.resolveSub t w k action q.1 q.2
  | .span i =>
    (match s.spans.get? i with
     | none => none
     | some sp =>
       match sp.state with
       | .parkedFault core slot rid _ => if rid = some id then some (s.resolveSpan i action sp core slot) else none
       | _ => none)
  | .copy t tag =>
    if ((s.teams.get? t).bind fun tm => tm.copies.get? tag).any fun q => q.stopped == some id then
      some (s.resolveTeam t action fun s =>
        s.modTeam t fun tm => { tm with copies := tm.copies.modify tag fun q => { q with stopped := none } })
    else none
  | .mma t seq =>
    if ((s.teams.get? t).bind fun tm => tm.mmas.get? seq).any fun m => m.stopped == some id then
      some (s.resolveTeam t action fun s =>
        s.modTeam t fun tm => { tm with mmas := tm.mmas.modify seq fun m => { m with stopped := none } })
    else none
  | .accMove t seq =>
    if ((s.teams.get? t).bind fun tm => tm.moves.get? seq).any fun m => m.stopped == some id then
      some (s.resolveTeam t action fun s =>
        s.modTeam t fun tm => { tm with moves := tm.moves.modify seq fun m => { m with stopped := none } })
    else none
  | .xfer n slot =>
    if ((s.engine n).get? slot).any fun x => x.faultRec == some id then
      some (if action = 2 then { s with engines := s.engines.set n ((s.engine n).del slot) }
        else s.modXfer n slot fun x => { x with faultRec := none })
    else none
  | .team =>
    if r.gridKey = 0 then some s
    else if (s.grids.get? r.gridKey).any fun g => !g.complete then some s
    else none

/-- FAULT_RESOLVE (R389). -/
def execFaultResolve (c : Call) (s : State) : Res :=
  serve 0x19 2 c (fun _ s =>
    match (s.dev c.dev).records.get? (c.arg 0) with
    | none => ended s stBadParam
    | some r =>
      if 2 < c.arg 1 then ended s stBadParam
      else if !s.mayName c r.ctx then ended s stNoContext
      else
        let s := s.freeRecord c.dev (c.arg 0)
        match s.resolve? (c.arg 0) (c.arg 1) r with
        | some s => ended s.recordSpans stOk
        | none => ended s.recordSpans stStale) s

/-- FAULT_ABORT (R389). -/
def execFaultAbort (c : Call) (s : State) : Res :=
  serve 0x1A 1 c (fun _ s =>
    match (s.dev c.dev).records.get? (c.arg 0) with
    | none => ended s stBadParam
    | some r =>
      if !s.mayName c r.ctx then ended s stNoContext
      else if r.gridKey = 0 then ended s stBadParam
      else if !((s.grids.get? r.gridKey).any fun g => !g.complete) then
        ended (s.freeRecord c.dev (c.arg 0)).recordSpans stStale
      else
        let s := (s.abandonGrid r.gridKey 4).dropRecords c.dev fun q => q.gridKey == r.gridKey
        let s : State := { s with engines := s.engines.map fun e =>
          (e.1, e.2.filter fun x => !(x.2.faultRec.isSome && x.2.team.isSome && x.2.grid == r.gridKey)) }
        ended s.sweep.recordSpans stOk) s

end Sys2Proof.Machine
end

