-- ==== Sys2Proof/Machine/Debug.lean ====
section
/-!
DEFINITION. The debugger's calls: halts and steps (R33, R38, R401, R402), and state (R440).
-/
namespace Sys2Proof.Machine
open Sys2Proof

/-! ## Attachment -/

/-- DBG_ATTACH (R425). -/
def execDbgAttach (c : Call) (s : State) : Res :=
  serve 0x1D 0 c (fun _ s =>
    let v := s.dev c.dev
    if v.debugger.isSome then ended s stDebugHeld
    else
      let h := v.handleSeq + 1
      .done (s.modDev c.dev fun v => { v with debugger := some h, handleSeq := h }) stOk [h]) s

/-- Every wave of a device resumes (R425); one-lane sub-waves rejoin their waves (R38). -/
def State.resumeWaves (s : State) (dev : Nat) : State :=
  { s with teams := s.teams.map fun p =>
      if s.ctxDev p.2.ctx = dev then
        (p.1, { p.2 with waves := p.2.waves.map fun w =>
          (w.1, { w.2 with
            halted := false, haltAsked := false
            subs := w.2.subs.map fun k => (k.1, { k.2 with single := false, stepLanes := 0, stepping := if k.2.stepping = 1 then 0 else k.2.stepping }) }) })
      else p }

/-- The status that refuses a debug handle: another debugger is attached, or none is. -/
def State.handleErr (s : State) (c : Call) : Option Nat :=
  match (s.dev c.dev).debugger with
  | none => some stBadParam
  | some h => if h = c.arg 0 then none else some stDebugHeld

/-- DBG_DETACH (R425). -/
def execDbgDetach (c : Call) (s : State) : Res :=
  serve 0x22 1 c (fun _ s =>
    match s.handleErr c with
    | some e => ended s e
    | none => ended ((s.modDev c.dev fun v => { v with debugger := none }).resumeWaves c.dev) stOk) s

/-! ## Targets (R33) -/

/-- What a search for a team finds. -/
inductive Found where
  | team (s : State) (t : Nat)
  | wait (s : State)
  | missing

/-- A span becomes a cursor once its flags are zero: its operations in flight complete. -/
def State.peelNow (i : Nat) : Nat → State → State
  | 0, s => s
  | n + 1, s =>
    match s.spans.get? i with
    | none => s
    | some sp => State.peelNow i n (s.peelSpan i sp)

/-- A team is taken from a cursor out of order, where it can be placed (R33). -/
def State.takeEarly (s : State) (cid : Nat) (c : Cursor) (g : Grid) (team pos : Nat) : Found :=
  if !s.placing g.ctx then .wait s
  else
    match s.place (c.needs g pos) team false with
    | .at_ core base keep => .team (s.admitNew cid c g pos core base keep) s.nextId
    | .wait | .none => .wait s

/-- The team of a grid with a number; a team that is still in a span or a cursor is taken and expanded (R33). -/
def State.findTeam (s : State) (gk : Nat) (g : Grid) (team : Nat) : Found :=
  match s.teams.find? fun p => p.2.grid == gk && p.2.index == team && p.2.state != .held with
  | some p => .team s p.1
  | none =>
    let bx := team % g.across 0
    let by_ := team / g.across 0 % g.across 1
    let bz := team / (g.across 0 * g.across 1)
    let inCursor (s : State) : Option (Nat × Cursor) := s.cursors.find? fun p =>
      p.2.span.grid == gk && p.2.span.box.mem bx by_ bz &&
      decide (p.2.pos ≤ p.2.span.box.posOf bx by_ bz) && !p.2.early.contains (p.2.span.box.posOf bx by_ bz)
    match inCursor s with
    | some (k, q) => s.takeEarly k q g team (q.span.box.posOf bx by_ bz)
    | none =>
      match s.spans.find? fun p => p.2.grid == gk && p.2.box.mem bx by_ bz with
      | none => .missing
      | some (i, sp) =>
        let s := State.peelNow i (sp.flights.length + 2) s
        match inCursor s with
        | some (k, q) => s.takeEarly k q g team (q.span.box.posOf bx by_ bz)
        | none => .wait s

/-- The live grid of a context with a number. -/
def State.gridNamed (s : State) (ctx num : Nat) : Option (Nat × Grid) :=
  s.grids.find? fun g => g.2.ctx == ctx && g.2.num == num && !g.2.complete

/-- Waves of a team are to halt. -/
def State.askHalt (s : State) (t : Nat) (f : Nat → Bool) : State :=
  let ask (w : Nat × Wave) : Nat × Wave := if f w.1 && !w.2.halted then (w.1, { w.2 with haltAsked := true }) else w
  s.modTeam t fun tm => { tm with waves := tm.waves.map ask }

/-- DBG_HALT (R401). -/
def execDbgHalt (c : Call) (s : State) : Res :=
  serve 0x1E 5 c (fun _ s =>
    let kind := c.arg 1
    match s.handleErr c with
    | some e => ended s e
    | none =>
      if 3 < kind || (kind = 0 && c.arg 2 ≠ 0) || (kind ≤ 1 && c.arg 3 ≠ 0) || (kind ≤ 2 && c.arg 4 ≠ 0) then ended s stBadParam
      else if kind = 0 then
        ended ((s.teams.filter fun p => p.2.ctx == c.ctx).foldl (fun s p => s.askHalt p.1 fun _ => true) s) stOk
      else
        match s.gridNamed c.ctx (c.arg 2) with
        | none => ended s stBadParam
        | some (gk, g) =>
          if kind = 1 then
            ended ((s.teams.filter fun p => p.2.grid == gk).foldl (fun s p => s.askHalt p.1 fun _ => true) s) stOk
          else if g.teamCount ≤ c.arg 3 || 16 * g.waveCount ≤ c.arg 4 then ended s stBadParam
          else
            match s.findTeam gk g (c.arg 3) with
            | .missing => ended s stBadParam
            | .wait s => .wait s
            | .team s t => ended (s.askHalt t fun w => kind == 2 || w == c.arg 4 / 16) stOk) s

/-- A collective operation holds its lanes as one: they pass it together. -/
def HoldKind.collective : HoldKind → Bool
  | .copyTag | .copyCheck | .copyq | .svc | .mma | .acfg | .smap | .phclose => true
  | .sync | .barArv | .barWait | .barmWait | .waitv | .phwait | .twait | .cntwait | .lwait | .fence | .access => false

/-- A lane is to make one step (R38, R402): it stands alone at once or, where a collective instruction holds it with others,
when they pass it. -/
def Wave.stepLane (w : Wave) (k : Nat) (sub : SubWave) (lane : Nat) : Wave :=
  let m : Lanes := 1#16 <<< lane
  if sub.mask != m && (sub.hold.map fun h => h.kind.collective && h.lanes &&& m != 0).getD false then
    w.modSub k fun q => { q with stepLanes := q.stepLanes ||| m }
  else
    let r := w.isolate k sub lane
    r.1.modSub r.2 fun q => { q with stepping := 1 }

/-- DBG_STEP (R402): BUSY for a lane that is parked. -/
def execDbgStep (c : Call) (s : State) : Res :=
  serve 0x1F 5 c (fun _ s =>
    let kind := c.arg 1
    let w := if kind = 3 then c.arg 4 / 16 else c.arg 4
    let lane := c.arg 4 % 16
    match s.handleErr c with
    | some e => ended s e
    | none =>
      if kind ≠ 3 && kind ≠ 4 then ended s stBadParam
      else
        match s.gridNamed c.ctx (c.arg 2) with
        | none => ended s stBadParam
        | some (gk, g) =>
          if g.teamCount ≤ c.arg 3 || g.waveCount ≤ w then ended s stBadParam
          else
            match s.findTeam gk g (c.arg 3) with
            | .missing => ended s stBadParam
            | .wait s => .wait s
            | .team s t =>
              match s.wave? t w with
              | none => ended s stBadParam
              | some wv =>
                if kind = 4 then
                  (if wv.subs.isEmpty then ended s stBadParam
                   else if wv.subs.all fun k => k.2.park.isSome then ended s stBusy
                   else
                     ended (s.modWave t w fun wv =>
                       let one (k : Nat × SubWave) : Nat × SubWave :=
                         (k.1, if k.2.park.isSome then k.2 else { k.2 with stepping := 1 })
                       { wv with subs := wv.subs.map one }) stOk)
                else
                  match wv.subs.find? fun k => k.2.mask.getLsbD lane with
                  | none => ended s stBadParam
                  | some (k, sub) =>
                    if sub.park.isSome then ended s stBusy
                    else ended (s.modWave t w fun wv => wv.stepLane k sub lane) stOk) s

/-! ## Layouts (Table 14 of R440) -/

/-- Sixteen-bit masks of p0 to p7. -/
def Wave.predBytes (w : Wave) : List Byte := (List.range 8).flatMap fun p => natLe 2 (w.pget p).toNat

/-- The predicates from their masks; p7 keeps its value. -/
def Wave.setPreds (w : Wave) (bs : List Byte) : Wave :=
  (List.range 7).foldl (fun (w : Wave) p => w.pput p 0xFFFF (BitVec.ofNat 16 (leNat ((bs.drop (2 * p)).take 2)))) w

/-- The sub-wave entry of Table 15.14. -/
def SubWave.entry (k : SubWave) : List Byte :=
  let rid := match k.park.map fun p => p.stage with
    | some (.recorded n) => n
    | _ => 0
  natLe 8 ((k.park.map fun p => p.pc).getD k.wordPc) ++ natLe 2 k.mask.toNat ++ natLe 1 k.depth ++ natLe 1 k.age ++
  natLe 1 k.joins.length ++ natLe 1 ((k.park.map fun p => p.trap.cause).getD 0) ++ natLe 2 0 ++ natLe 8 rid ++ natLe 8 0

/-- Selector 0: the state of a wave. -/
def waveBytes (tm : Team) (w : Wave) : List Byte :=
  let swapped := tm.state != .resident
  let status := bit w.halted + 2 * bit swapped + 4 * bit w.inHandler + 2 ^ 8 * w.subs.length +
    2 ^ 16 * (if swapped then 0xFFFF else tm.core)
  let entries := (w.subs.take 16).flatMap fun k => k.2.entry
  natLe 8 status ++ (w.flags.flatMap fun n => natLe 1 n) ++ natLe 12 0 ++
  ([w.ctl, w.tstat, w.fpflags, w.seed, w.trapCause, w.trapPc, w.trapAddr].flatMap fun v => natLe 8 v.toNat) ++ natLe 8 0 ++
  entries ++ List.replicate (512 - entries.length) 0 ++ w.predBytes ++ natLe 16 0

/-- A field of some bytes. -/
def fieldAt (bs : List Byte) (o n : Nat) : Nat := leNat ((bs.drop o).take n)

/-- A sub-wave from its entry: PC, lanes and depth. -/
def SubWave.fromEntry (k : SubWave) (bs : List Byte) : SubWave :=
  let pc := fieldAt bs 0 8
  let k := { k with mask := BitVec.ofNat 16 (fieldAt bs 8 2), depth := fieldAt bs 10 1 }
  if pc = (k.park.map fun p => p.pc).getD k.wordPc then k else k.goto pc

/-- Some bytes are zero: a reserved field (R7). -/
def zeroAt (bs : List Byte) (o n : Nat) : Bool := ((bs.drop o).take n).all fun b => b == 0

/-- Selector 0 written: none where a reserved field is not zero, the lanes are not shared out as they were, or a depth is out
of range. -/
def Wave.fromBytes (w : Wave) (team n : Nat) (bs : List Byte) : Option Wave :=
  let subs := w.subs.zipIdx.map fun p => (p.1.1, p.1.2.fromEntry ((bs.drop (0x60 + 32 * p.2)).take 32))
  let all (l : Tbl SubWave) : Lanes := l.foldl (fun m p => m ||| p.2.mask) 0
  let count := subs.foldl (fun n p => n + laneCount p.2.mask) 0
  let clear := zeroAt bs 0x14 12 && zeroAt bs 0x58 8 && zeroAt bs 0x270 16 &&
    (List.range 16).all fun n => zeroAt bs (0x60 + 32 * n + 14) 2 && zeroAt bs (0x60 + 32 * n + 24) 8
  if !clear || all subs ≠ all w.subs || count ≠ laneCount (all subs) || subs.any fun p => decide (63 < p.2.depth) then none
  else
    let seed := BitVec.ofNat 64 (fieldAt bs 0x38 8)
    let w := { w with
      subs := subs.filter fun p => p.2.mask != 0
      ctl := ctlWrite w.ctl (BitVec.ofNat 64 (fieldAt bs 0x20 8))
      tstat := BitVec.ofNat 64 (fieldAt bs 0x28 8 % 4)
      fpflags := BitVec.ofNat 64 (fieldAt bs 0x30 8 % 32) }
    let w := if seed = w.seed then w else w.reseed team n seed w.live
    some (w.setPreds (bs.drop 0x260))

/-- A layout record (Table 15.14). -/
def Layout.bytes (l : Layout) : List Byte :=
  natLe 8 l.base ++ natLe 8 l.fmt ++
  ((List.range 4).flatMap fun d => natLe 8 ((l.strides[d]?).getD 0 + 2 ^ 32 * (l.extents[d]?).getD 0)) ++ natLe 8 l.conf.toNat

/-- A layout record from its bytes, under the rules of R260. -/
def layoutFrom (bs : List Byte) : Option Layout :=
  let f (i : Nat) : Nat := fieldAt bs (8 * i) 8
  let strides := (List.range 4).map fun d => bits (f (2 + d)) 0 32
  let extents := (List.range 4).map fun d => bits (f (2 + d)) 32 16
  if f 0 % 64 ≠ 0 || !([0, 1, 2, 3, 8].contains (f 1)) || strides.any (fun x => x % 64 != 0) || extents.any (fun x => x == 0) ||
      (List.range 4).any (fun d => bits (f (2 + d)) 48 16 != 0) then none
  else some { base := f 0, fmt := f 1, strides := strides, extents := extents, conf := BitVec.ofNat 64 (f 6) }

/-- State codes of a copy tag. -/
def TagState.code : TagState → Nat
  | .idle => 0
  | .opened => 1
  | .busy => 2
  | .done => 3

/-- Shape codes (Table 8.7). -/
def MShape.code : MShape → Nat
  | .m64n64 => 0
  | .m128n64 => 1
  | .m128n128 => 2

/-- A matrix queue entry: the n-th of the team's MMAs in issue order. -/
def Team.mmaBytes (tm : Team) (n : Nat) : List Byte :=
  match tm.mmas[n]? with
  | none => natLe 32 0
  | some (_, m) =>
    natLe 8 m.prog.word ++ natLe 1 m.tile ++ natLe 1 (MShape.code m.shape) ++ natLe 1 m.ga ++ natLe 1 m.gb ++
    natLe 1 (if m.stopped.isSome then 3 else if m.started then 2 else 1) ++ natLe 19 0

/-- A copy tag. -/
def Team.tagBytes (tm : Team) (n : Nat) : List Byte :=
  let q := tm.copies.get? n
  natLe 4 (TagState.code (tm.tag n)) ++ natLe 4 ((q.map fun q => q.waves.length).getD 0) ++
  natLe 8 ((q.map fun q => q.moved / 16 * 16).getD 0)

/-- A holder as a pointer of a directory entry (Table 10.3). -/
def holderWord (h : Holder) : Nat := h.agent % 1024 + 1024 * (h.kind % 4)

/-- A directory entry (Table 10.3); its holders fill the pointers from PTR0 upward (log 97). -/
def DirEntry.bytes (e : DirEntry) : List Byte :=
  let owner := e.holders.zipIdx.find? fun p => p.1.2 != .s
  natLe 16 (
    if e.coarse then
      2 + 4 * e.hstate + 2 ^ 5 * bit owner.isSome + 2 ^ 6 * (owner.map fun p => holderWord p.1.1).getD 0 +
      2 ^ 18 * (e.groups.foldl (fun n g => n + 2 ^ g) 0) + 2 ^ 114 * bit e.hostBit + 2 ^ 115 * bit e.engineBit
    else if e.holders.isEmpty then 0
    else
      1 + 4 * e.hstate + 2 ^ 5 * (2 ^ e.holders.length - 1) + 2 ^ 9 * (owner.map fun p => p.2).getD 0 +
      e.holders.zipIdx.foldl (fun n p => n + 2 ^ (12 + 12 * p.2) * holderWord p.1.1) 0)

/-! ## Reads and writes (R440) -/

/-- A debug target record (Table 15.13). -/
structure Target1 where
  grid : Nat
  team : Nat
  wave : Nat
  cls : Nat
  index : Nat
  depth : Nat
  rest : Nat
  addr : Nat

/-- The fields of a target record. -/
def target1 (bs : List Byte) : Target1 :=
  { grid := fieldAt bs 0 8, team := fieldAt bs 8 8, wave := fieldAt bs 16 1, cls := fieldAt bs 17 1, index := fieldAt bs 18 2
    depth := fieldAt bs 20 1, rest := fieldAt bs 21 3, addr := fieldAt bs 24 8 }

/-- The indices of Table 2.3. -/
def csrListed (ix : Nat) : Bool :=
  [0x000, 0x001, 0x002, 0x003, 0x010, 0x011, 0x012, 0x020, 0x021, 0x022, 0x023, 0x030, 0x031, 0x040, 0x041, 0x042, 0x043].contains ix

/-- A target record that names an object of its class. -/
def Target1.ok (t : Target1) (sel : Nat) (tm : Team) : Bool :=
  t.rest == 0 && t.addr == 0 &&
  (if sel = 0 then t.cls == 0 && t.index == 0 && t.depth == 0
   else if t.cls ≤ 1 then decide (t.index < 64 ∧ t.depth < 64) && (decide (16 ≤ t.index) || t.depth == 0)
   else
    t.depth == 0 &&
    (if t.cls ≤ 3 then t.index == 0
     else if t.cls = 4 then csrListed t.index
     else if t.cls = 5 then decide (t.index < 16)
     else if t.cls = 6 then decide (t.index < tm.accCount)
     else if t.cls = 7 then decide (t.index < 64)
     else t.cls == 8))

/-- The sub-wave through whose eyes a control register is read: one in the handler first. -/
def State.eyes (s : State) (t w : Nat) (tm : Team) (wv : Wave) : Ex :=
  match (wv.subs.find? fun k => k.2.handler.isSome).or wv.subs.head? with
  | some (k, sub) => (s.ex? t w k).getD ⟨t, w, k, tm, wv, sub⟩
  | none => ⟨t, w, 0, tm, wv, { pc := 0, mask := 0 }⟩

/-- What selectors 0 and 1 read (Table 15.14). -/
def State.debugBytes (s : State) (sel : Nat) (r : Target1) (t : Nat) (tm : Team) (wv : Wave) : List Byte :=
  if sel = 0 then waveBytes tm wv
  else if r.cls = 0 then
    let sl := (wv.vregs.get? (regKey r.index r.depth)).getD {}
    (laneList.flatMap fun i => natLe 4 (if sl.mask.getLsbD i then ((sl.vals[i]?).getD 0).toNat else 0)) ++
      natLe 2 sl.mask.toNat ++ natLe 6 0
  else if r.cls = 1 then
    let sl := (wv.uregs.get? (regKey r.index r.depth)).getD {}
    natLe 8 sl.val.toNat ++ natLe 8 (bit (sl.mask != 0))
  else if r.cls = 2 then wv.predBytes
  else if r.cls = 3 then (wv.flags.flatMap fun n => natLe 1 n) ++ natLe 4 0
  else if r.cls = 4 then natLe 8 (s.csr (s.eyes t r.wave tm wv) r.index)
  else if r.cls = 5 then ((tm.layouts[r.index]?).getD {}).bytes
  else if r.cls = 6 then tm.acc.slice (0x4000 * r.index) 16384
  else if r.cls = 7 then tm.tagBytes r.index
  else tm.mmaBytes r.index

/-- The reserved fields of a record of selector 1 are zero (R7, Table 15.14). -/
def reservedClear (cls : Nat) (bs : List Byte) : Bool :=
  if cls = 0 then zeroAt bs 66 6
  else if cls = 1 then zeroAt bs 9 7 && decide (fieldAt bs 8 1 < 2)
  else if cls = 3 then zeroAt bs 12 4
  else true

/-- What selectors 0 and 1 write: none where the record's values break a rule. -/
def State.debugWrite (s : State) (sel : Nat) (r : Target1) (t : Nat) (tm : Team) (wv : Wave) (bs : List Byte) : Option State :=
  let key := regKey r.index r.depth
  if sel = 0 then (wv.fromBytes tm.index r.wave bs).map fun w => s.modWave t r.wave fun _ => w
  else if !reservedClear r.cls bs then none
  else if r.cls = 0 then
    let m : Lanes := BitVec.ofNat 16 (fieldAt bs 64 2)
    let sl : VSlot := { mask := m, vals := laneList.map fun i => BitVec.ofNat 32 (fieldAt bs (4 * i) 4) }
    some (s.modWave t r.wave fun w => { w with vregs := if m = 0 then w.vregs.del key else w.vregs.set key sl })
  else if r.cls = 1 then
    some (s.modWave t r.wave fun w =>
      if fieldAt bs 8 1 % 2 = 0 then { w with uregs := w.uregs.del key }
      else w.uput r.depth r.index (BitVec.ofNat 64 (fieldAt bs 0 8)))
  else if r.cls = 2 then some (s.modWave t r.wave fun w => w.setPreds bs)
  else if r.cls = 4 then some (s.csrWrite (s.eyes t r.wave tm wv) r.index (BitVec.ofNat 64 (fieldAt bs 0 8)) wv.live)
  else if r.cls = 5 then
    (layoutFrom bs).map fun l => s.modTeam t fun tm => { tm with layouts := listSet tm.layouts r.index l }
  else if r.cls = 6 then
    some (s.modTeam t fun tm =>
      { tm with acc := tm.acc.splice (0x4000 * r.index) (bs.take 16384), accLive := insertNat tm.accLive r.index })
  else some s

/-- The size of a record (Table 15.14). -/
def debugSize (sel cls bytes : Nat) : Nat :=
  if sel = 0 then 640
  else if sel = 2 then bytes
  else if sel = 3 then 16
  else if cls = 0 then 72
  else if cls ≤ 3 then 16
  else if cls = 4 then 8
  else if cls = 5 then 56
  else if cls = 6 then 16384
  else if cls = 7 then 16
  else 32

/-- Bytes of a context's memory as the service unit reads them, up to the first that it may not (R440). -/
def State.debugRead (ctx : Nat) : Nat → Nat → State → State × List Byte
  | _, 0, s => (s, [])
  | a, n + 1, s =>
    match s.unitRead ctx 1 a with
    | .error _ => (s, [])
    | .ok (s, v) =>
      let r := State.debugRead ctx (a + 1) n s
      (r.1, BitVec.ofNat 8 v :: r.2)

/-- Bytes of a context's memory as the service unit writes them: how many reached memory. -/
def State.debugPut (ctx : Nat) : Nat → List Byte → State → State × Nat
  | _, [], s => (s, 0)
  | a, b :: l, s =>
    match s.unitWrite ctx 1 a b.toNat with
    | .error _ => (s, 0)
    | .ok s =>
      let r := State.debugPut ctx (a + 1) l s
      (r.1, r.2 + 1)

/-- DBG_READ_STATE and DBG_WRITE_STATE (R440, R461). -/
def debugState (c : Call) (wr : Bool) (s : State) : Reply :=
  let sel := c.arg 1
  let buf := c.arg 3
  let n := c.arg 4
  match s.handleErr c with
  | some e => ended s e
  | none =>
    if 3 < sel || (wr && sel = 3) then ended s stBadParam
    else
      readBuffer c (c.arg 2) 32 s fun s tb =>
        let r := target1 tb
        let size := debugSize sel r.cls n
        if n < size || 8 < r.cls || (2 ≤ sel && (r.cls ≠ 0 || r.index ≠ 0 || r.depth ≠ 0 || r.rest ≠ 0)) then ended s stBadParam
        else
          withBuffer c (!wr) buf size s fun s =>
            let data : Except Trap (State × List Byte) := if wr then State.callerRead c.caller buf size s else .ok (s, [])
            match data with
            | .error t => refusedAccess s t
            | .ok (s, bs) =>
              if sel = 2 then
                (if s.unitsBusy c.ctx r.addr n wr then .later
                 else if wr then
                  let q := State.debugPut c.ctx r.addr bs s
                  .done q.1 stOk [q.2]
                 else
                  let q := State.debugRead c.ctx r.addr n s
                  .done (q.1.callerWrite c.caller buf q.2) stOk [q.2.length])
              else if sel = 3 then
                let name := s.ctxName c.ctx
                .done (s.callerWrite c.caller buf (s.entry (lineOf name.1 name.2 r.addr)).bytes) stOk [16]
              else
                match (s.gridNamed c.ctx r.grid).bind fun g => s.teams.find? fun p => p.2.grid == g.1 && p.2.index == r.team with
                | none => ended s stBadParam
                | some (t, tm) =>
                  match tm.waves.get? r.wave with
                  | none => ended s stBadParam
                  | some wv =>
                    if !r.ok sel tm then ended s stBadParam
                    else if !wv.halted then ended s stBusy
                    else if wr then
                      match s.debugWrite sel r t tm wv bs with
                      | none => ended s stBadParam
                      | some s => .done s stOk [size]
                    else .done (s.callerWrite c.caller buf (s.debugBytes sel r t tm wv)) stOk [size]

/-- DBG_READ_STATE (R440). -/
def execDbgReadState (c : Call) (s : State) : Res := serve 0x20 5 c (fun _ s => debugState c false s) s

/-- DBG_WRITE_STATE (R440); the call has no results. -/
def execDbgWriteState (c : Call) (s : State) : Res :=
  serve 0x21 5 c (fun _ s => match debugState c true s with
    | .done s 0 _ => ended s stOk
    | r => r) s

end Sys2Proof.Machine
end

