-- ==== Sys2Proof/Machine/Dies.lean ====
section
/-!
DEFINITION. Package links (R408 to R410), health and the loss of dies (R411 to R413, R229), peer devices (R417 to R419),
and the host links with the baton (R426, R428, R429).
-/
namespace Sys2Proof.Machine
open Sys2Proof

/-! ## Peers that become unreachable (R419) -/

/-- LTIME of the die that holds the active service unit (R426, R431). -/
def State.svcTime (s : State) : Nat := (s.fdie s.pkg.svcDie).ltime.toNat

/-- A peer's route entry has a link in service (R417). -/
def State.routed (s : State) (dev peer : Nat) : Bool := !(s.peerLinks dev peer).isEmpty

/-- An access to a peer through a window may have been in flight: its entry in the error log and the record of the
window's context (R419). Whether one was is open. -/
def State.inDoubt (s : State) (dev : Nat) (w : PeerWin) : State :=
  if Config.freeNat s.fresh % 2 = 0 then s.bump
  else
    let s := s.logEvent s.pkg.svcDie
      { logOf 10 with addr := w.va + Config.freeNat (s.fresh + 1) % w.len, ctx := w.ctx, detail := w.peer }
    ((s.raiseRecord { dev := dev, kind := 6, cause := cPoison, sub := 0, ctx := w.ctx, grid := 0, gridKey := 0, team := 0
                      what := .team })).bump.bump

/-- A peer becomes unreachable: its import windows are revoked (R419). -/
def State.losePeer (s : State) (dev peer : Nat) : State :=
  let wins := (s.dev dev).imports.filter fun w => w.peer == peer
  let s := wins.foldl (fun s w => s.inDoubt dev w) s
  let s := s.modDev dev fun v => { v with imports := v.imports.filter fun w => w.peer != peer }
  let s := wins.foldl (fun s w => s.dropTlb dev (s.ctxName w.ctx).2 w.va w.len) s
  let other (p : Page) : Bool := match p.target with
    | .peer q _ => q != peer
    | _ => true
  { s with ctxs := s.ctxs.map fun x =>
      if x.2.dev = dev then (x.1, { x.2 with pages := x.2.pages.filter other }) else x }

/-- Peers that no link reaches any more become unreachable. -/
def State.checkPeers (s : State) : State :=
  (List.range s.devCount).foldl (fun s d =>
    (((s.dev d).imports.map fun w => w.peer).eraseDups.filter fun p => (s.peerDev d p).isNone && !s.routed d p).foldl
      (fun s p => s.losePeer d p) s) s

/-- Windows into a device of this package that is lost. -/
def State.loseImports (s : State) (dev : Nat) : State :=
  (List.range s.devCount).foldl (fun s d => if d = dev then s else s.losePeer d (s.dev dev).barnos) s

/-! ## Loss of a compute die (R412, R229) -/

/-- An agent of a compute die. -/
def onDie (d : Nat) (h : Holder) : Bool := decide (48 * d ≤ h.agent ∧ h.agent < 48 * d + 48)

/-- Barrier words whose DIEMASK holds the die are broken (R229). -/
def State.breakWords (s : State) (d : Nat) : State :=
  s.barm.foldl (fun s place =>
    let b := BarWord.of (s.mem.getN place 16)
    if toBit (b.dies / 2 ^ d) then { s with mem := s.mem.putN place 16 ({ b with broken := true } : BarWord).word } else s) s

/-- BARM.WAIT, if the instruction is one. -/
def runBarmWait (i : Instr) : Option (State → Res) :=
  match i with
  | .barmWait x => some (execBarmWait x)
  | _ => none

/-- A held instruction goes on, as a state. -/
def State.again (kind : HoldKind) (run : Instr → Option (State → Res)) (s : State) (q : Nat × Nat × Nat) : State :=
  match goOn kind run q.1 q.2.1 q.2.2 s with
  | .next s' => s'
  | _ => s

/-- Sub-waves of resident teams held in a kind of wait. -/
def State.heldIn (s : State) (kind : HoldKind) : List (Nat × Nat × Nat) :=
  s.teams.flatMap fun t =>
    if t.2.state == .resident then
      t.2.waves.flatMap fun w => w.2.subs.filterMap fun k =>
        if (k.2.hold.map fun h => h.kind == kind).getD false then some (t.1, w.1, k.1) else none
    else []

/-- The units of a line that hold the selected bytes of a core's entries (R412). -/
def State.selectedUnits (s : State) (core : Nat) (l : LineRef) : List Nat :=
  ((s.sectorsOf core l).flatMap fun p => (s.sources p.2.2 p.1).filterMap fun b =>
    if lineOf l.dev b.2.1 b.2.2 = l then (s.place? l.dev b.2.1 b.2.2).map fun a => a / 16 else none).eraseDups

/-- A line loses the agents of a die (R412): poison for what they owned. -/
def State.loseHolders (s : State) (d : Nat) (e : DirEntry) : State :=
  let place := s.place? e.line.dev e.line.asid (64 * e.line.line)
  let units := e.holders.flatMap fun p =>
    if !onDie d p.1 then []
    else
      match p.2, place with
      | .m, some a | .o, some a => [a / 16, a / 16 + 1, a / 16 + 2, a / 16 + 3]
      | .p, _ => s.selectedUnits p.1.agent e.line
      | _, _ => []
  let s : State := { s with poison := units.foldl insertNat s.poison }
  let group (g : Nat) : Bool := !decide (6 * d ≤ g ∧ g < 6 * d + 6)
  let left : DirEntry := { e with
    holders := e.holders.filter fun p => !onDie d p.1, groups := e.groups.filter group
    txn := e.txn.map fun t => { t with req := { t.req with who := t.req.who.filter fun h => !onDie d h } }
    queue := e.queue.filter fun q => !((q.src.map fun h => onDie d h).getD false) }
  s.putEntry (if left.holders.isEmpty then left.bare else left)

/-- The grids with a resident team, span slot or held team on a die (R412). -/
def State.gridsOn (s : State) (d : Nat) : List Nat :=
  ((s.teams.filterMap fun t => match t.2.state with
    | .resident | .held => if dieOf t.2.core = d then some t.2.grid else none
    | .swapped _ => none) ++
   s.spans.filterMap fun p => match p.2.state with
    | .running c _ | .parkedFault c _ _ _ => if c < 768 ∧ dieOf c = d then some p.2.grid else none
    | .ready | .parkedJoin _ _ | .saved => none).eraseDups

/-- A grid fails with the die, and a record says so (R412); its cause is open. -/
def State.loseGrid (s : State) (k : Nat) : State :=
  match s.grids.get? k with
  | none => s
  | some g =>
    if g.complete then s
    else
      let dev := s.ctxDev g.ctx
      let s := (s.raiseRecord { dev := dev, kind := 6, cause := s.openCause, sub := 0, ctx := g.ctx, grid := g.num, gridKey := k, team := 0
                                what := .team }).bump
      (s.abandonGrid k 3).sweep

/-- A compute die is dead: the steps of Table 14.3. -/
def State.loseCompute (s : State) (d : Nat) : State :=
  let s := s.modCdie d fun c => { c with inService := false }
  let s := s.dir.foldl (fun s e => match e.txn with
    | none => s
    | some t => (t.acks.filter (onDie d)).foldl (fun s h => s.ack e.line h) s) s
  let s := s.dir.foldl (fun s e => s.loseHolders d e) s
  let s := s.dir.foldl (fun s e => s.closeTxn e.line) s
  let grids := s.gridsOn d
  let s := (List.range 48).foldl (fun s i =>
    if (s.cores.get? (48 * d + i)).isSome then
      s.modCore (48 * d + i) fun c => { c with entries := [], sectors := [], stash := [], stashPoison := [], l1 := [], ic := [] }
    else s) s
  let s := s.breakWords d
  let s := grids.foldl (fun s k => s.loseGrid k) s
  let s := (s.heldIn .barmWait).foldl (State.again .barmWait runBarmWait) s
  (s.heldIn .phwait).foldl (State.again .phwait runPhwait) s

/-! ## Loss of a foundation die (R413, R431) -/

/-- The mirror takes over the service unit; periods start again in full on its die (R431). -/
def State.takeOver (s : State) : State :=
  let s : State := { s with pkg := { s.pkg with svcDie := 2 } }
  { s with devs := s.devs.map fun v => { v with leaseStart := s.svcTime } }

/-- A foundation die is dead or isolated. -/
def State.loseFoundation (s : State) (f : Nat) : State :=
  let s := s.modFdie f fun d => { d with inService := false }
  let s := (List.range 4).foldl (fun s i =>
    if (s.cdie (4 * f + i)).inService then s.loseCompute (4 * f + i) else s) s
  let dev := s.devOfFnd f
  let s := (s.ctxs.filter fun x => x.2.dev == dev).foldl (fun s x => s.resetCtx x.1 3) s
  let s : State := { s with
    dir := s.dir.filter fun e => s.homeOf e.line / 256 != f
    mem := s.mem.filter fun b => !decide (2 ^ 38 * f ≤ b.1 ∧ b.1 < 2 ^ 38 * (f + 1))
    poison := s.poison.filter fun u => !decide (2 ^ 34 * f ≤ u ∧ u < 2 ^ 34 * (f + 1))
    engines := s.engines.filter fun e => e.1 / 4 != f }
  let s := if s.pkg.svcDie = f then s.takeOver else s
  (s.loseImports dev).checkPeers

/-- A die is declared dead for a reason of Table 15.11: once, and until package reset. -/
def State.declareDead (s : State) (die : DieRef) (why : Nat) : State :=
  match die with
  | .compute d =>
    if !(s.cdie d).inService || 16 ≤ d then s
    else (s.logEvent (d / 4) { logOf 7 with unit := 9, number := d, detail := why }).loseCompute d
  | .foundation f =>
    if !(s.fdie f).inService || 4 ≤ f then s
    else (s.logEvent s.pkg.svcDie { logOf 7 with unit := 10, number := f, detail := why }).loseFoundation f

/-- LTIME of the monitor of a die (R411). -/
def State.monitorTime (s : State) (die : DieRef) : Nat :=
  match die with
  | .compute d => (s.fdie (d / 4)).ltime.toNat
  | .foundation _ => s.svcTime

/-- HEARTBEAT (R411): the monitor hears a die in service. -/
def execHeartbeat (die : DieRef) (s : State) : Res :=
  let t := s.monitorTime die
  .next (match die with
    | .compute d => if (s.cdie d).inService && decide (d < 16) then s.modCdie d fun c => { c with heartbeat := t } else s
    | .foundation f => if (s.fdie f).inService then s.modFdie f fun c => { c with heartbeat := t } else s)

/-- HEARTBEAT_TIMEOUT (R411). -/
def execHeartbeatTimeout (die : DieRef) (s : State) : Res :=
  let last := match die with
    | .compute d => (s.cdie d).heartbeat
    | .foundation f => (s.fdie f).heartbeat
  .next (if last + 3000 ≤ s.monitorTime die then s.declareDead die 0 else s)

/-! ## Links (R408, R409) -/

/-- The foundation die whose LTIME counts for a link. -/
def linkFnd (l : Nat) : Nat := if l < 4 then (if l = 3 then 2 else if l = 2 then 1 else 0) else (l - 4) / 6

/-- LTIME for a link. -/
def State.linkTime (s : State) (l : Nat) : Nat := (s.fdie (linkFnd l)).ltime.toNat

/-- State codes of a link (Table 15.11). -/
def LinkState.code : LinkState → Nat
  | .active => 0
  | .sleep => 1
  | .waking => 2
  | .slow => 3
  | .failed => 4

/-- A link takes another state; the change enters the error log (R437). -/
def State.linkTo (s : State) (l : Nat) (st : LinkState) : State :=
  let e : LogEntry := if l < 4 then { logOf 6 with unit := 7, number := l } else { logOf 6 with unit := 8, number := l - 4 }
  (s.modLink l fun k => { k with st := st }).logEvent (linkFnd l) { e with detail := st.code }

/-- The two UCIe links of a foundation die (R403). -/
def linksOf (f : Nat) : Nat × Nat := if f = 0 then (0, 1) else if f = 1 then (0, 2) else if f = 2 then (1, 3) else (2, 3)

/-- A foundation die whose UCIe links have both failed is lost (R409). -/
def State.checkIsolated (s : State) : State :=
  (List.range 4).foldl (fun s f =>
    if (s.link (linksOf f).1).st = .failed ∧ (s.link (linksOf f).2).st = .failed then s.declareDead (.foundation f) 2 else s) s

/-- The link over which the flits of a failed link are sent again: another link of the route of R403, or another Barnos
link in service. -/
def State.otherLink (s : State) (l : Nat) : Option Nat :=
  if l < 4 then [3 - l, 0, 1, 2, 3].find? fun k => k != l && (s.link k).st != .failed
  else ((List.range 24).map fun j => 4 + j).find? fun k => k != l && s.barnosUp (k - 4)

/-- A link fails: its unacknowledged flits are sent again elsewhere, and what it alone reached is lost (R409, R419). -/
def State.failLink (s : State) (l : Nat) : State :=
  let held := (s.link l).unacked.filter fun q => !(s.link l).accepted.contains q
  let s := (s.linkTo l .failed).modLink l fun k => { k with unacked := [] }
  let s := match s.otherLink l with
    | none => s
    | some k => s.modLink k fun x => { x with unacked := x.unacked ++ held }
  s.checkIsolated.checkPeers

/-- A link of the package. -/
def linkOk (l : Nat) : Bool := decide (l < 28)

/-- LINK_IDLE_SLEEP (R408): idle for 2,000 ticks. -/
def execLinkIdleSleep (link : Nat) (s : State) : Res :=
  let k := s.link link
  .next (if linkOk link && k.st == .active && k.unacked.isEmpty && decide (k.lastUse + 2000 ≤ s.linkTime link) then
    s.linkTo link .sleep else s)

/-- LINK_WAKE (R408): a request or recall is due on a sleeping link. -/
def execLinkWake (link : Nat) (s : State) : Res :=
  .next (if linkOk link && (s.link link).st == .sleep then
    (s.linkTo link .waking).modLink link fun k => { k with since := s.linkTime link } else s)

/-- LINK_WAKE_COMPLETE (R408). -/
def execLinkWakeComplete (link : Nat) (s : State) : Res :=
  let k := s.link link
  .next (if linkOk link && (k.st == .waking || k.st == .slow) then
    (s.linkTo link .active).modLink link fun k => { k with lastUse := s.linkTime link } else s)

/-- LINK_SLOW (R408): 5,000 ticks from the wake's start. -/
def execLinkSlow (link : Nat) (s : State) : Res :=
  let k := s.link link
  .next (if linkOk link && k.st == .waking && decide (k.since + 5000 ≤ s.linkTime link) then
    (s.linkTo link .slow).modLink link fun k => { k with slowCount := k.slowCount + 1 } else s)

/-- LINK_WAKE_FAIL (R408): 200,000 ticks from the wake's start. -/
def execLinkWakeFail (link : Nat) (s : State) : Res :=
  let k := s.link link
  .next (if linkOk link && k.st == .slow && decide (k.since + 200000 ≤ s.linkTime link) then s.failLink link else s)

/-- LINK_RETRY_FAIL (R408): 16 consecutive retries of one flit. -/
def execLinkRetryFail (link : Nat) (s : State) : Res :=
  let k := s.link link
  .next (if linkOk link && k.st == .active && decide (16 ≤ k.retries) then s.failLink link else s)

/-- FLIT_RECEIVE (R409): a flit arrives; one whose number was accepted before is discarded; the far end acknowledges. -/
def execFlitReceive (link seq : Nat) (s : State) : Res :=
  .next (if linkOk link && (s.link link).st == .active then
    s.modLink link fun k => { k with
      lastUse := s.linkTime link, retries := 0
      unacked := k.unacked.filter fun q => q != seq
      accepted := insertNat k.accepted seq }
  else s)

/-- FLIT_RETRY (R408, R409): the flit on the link is sent again and stays unacknowledged. -/
def execFlitRetry (link : Nat) (s : State) : Res :=
  .next (if linkOk link && (s.link link).st == .active then
    s.modLink link fun k => { k with
      lastUse := s.linkTime link, retries := k.retries + 1
      unacked := if k.unacked.isEmpty then [k.accepted.foldl (fun m q => max m (q + 1)) 0] else k.unacked }
  else s)

/-! ## Requests of peers (R418, R429) -/

/-- The byte of an exporting context's space that a peer reaches. -/
def State.peerByteAt (s : State) (dev : Nat) (w : PeerWin) (va : Nat) : Option (LineRef × Nat) :=
  let q := s.canon dev (s.ctxName w.ctx).2 va
  (s.place? dev q.1 q.2.1).map fun a => (lineOf dev q.1 q.2.1, a)

/-- The bytes of a peer's range, or none where it is refused. -/
def State.peerRange (s : State) (dev peer va n : Nat) (wr : Bool) : Option (List (LineRef × Nat)) :=
  (List.range n).mapM fun i =>
    match s.exported dev peer (va + i) (!wr) wr with
    | none => none
    | some w => s.peerByteAt dev w (va + i)

/-- The device answers a peer. -/
def State.peerAnswer (s : State) (dev peer : Nat) (bs : List Byte) : State :=
  s.modDev dev fun v => { v with peerSent := some (peer, bs) }

/-- A request of a peer for bytes of memory: it waits while a line of them is purged or pinned (R266, R340), and then is
performed at their homes (R215, R311). -/
def State.peerAccess (s : State) (dev peer va n : Nat) (wr : Bool) (op : PeerOp) (f : State → List Nat → State) : State :=
  match s.peerRange dev peer va n wr with
  | none => s
  | some l =>
    let lines := (l.map Prod.fst).eraseDups
    if lines.any fun x => s.lineBusy x wr then s.modDev dev fun v => { v with peerWait := v.peerWait ++ [(peer, op)] }
    else f (lines.foldl (fun s x => s.force x wr) s) (l.map Prod.snd)

/-- What a peer's request does (R418). Outside every export it is refused and has no effect; the doorbell of a suspended
queue refuses the write (R429). -/
def State.peerRequest (s : State) (dev peer : Nat) (op : PeerOp) : State :=
  match op with
  | .read va n => s.peerAccess dev peer va n false op fun s l => s.peerAnswer dev peer (l.map s.mem.get)
  | .write va data => s.peerAccess dev peer va data.length true op fun s l =>
      { s with mem := (l.zip data).foldl (fun m p => m.put p.1 p.2) s.mem }
  | .atomic va aop t b =>
    let n := t.width / 8
    if va % n ≠ 0 then s
    else s.peerAccess dev peer va n true op fun s l =>
      let old := leNat (l.map s.mem.get)
      let q := atomOperand aop t b
      let s : State := { s with mem := (l.zip (natLe n (atomNew aop t old q.1 q.2))).foldl (fun m p => m.put p.1 p.2) s.mem }
      s.peerAnswer dev peer (natLe n old)
  | .doorbell queue tail =>
    match s.queues.get? queue, s.exported dev peer (doorBase + 8 * (queue % 256)) false true with
    | some q, some w => if queue / 256 = dev && q.ctx = w.ctx && q.st != .suspended then s.doorbell queue tail else s
    | _, _ => s

/-- PEER_REQUEST (R418). -/
def execPeerRequest (dev peer : Nat) (op : PeerOp) (s : State) : Res := .next (s.peerRequest dev peer op)

/-- The requests of peers that waited go on. -/
def State.peerResume (s : State) (dev : Nat) : State :=
  let l := (s.dev dev).peerWait
  l.foldl (fun s p => s.peerRequest dev p.1 p.2) (s.modDev dev fun v => { v with peerWait := [] })

/-- PEER_TIMEOUT (R419). -/
def execPeerTimeout (dev peer : Nat) (s : State) : Res :=
  .next (if (s.dev dev).imports.any fun w => w.peer == peer then s.losePeer dev peer else s)

/-! ## The baton (R426, R428, R429) -/

/-- A message or call of the old port on the new one. -/
def moveCalls (old new : Nat) (l : List (Nat × Call)) : List (Nat × Call) :=
  l.map fun k => (k.1, if k.2.irqPort = old then { k.2 with irqPort := new } else k.2)

/-- The held messages of a device are delivered on its holder's port, in order. -/
def State.deliverHeld (s : State) (dev port : Nat) : State :=
  let l := (s.dev dev).heldMsix.map fun m => { m with port := port }
  ({ s with msix := s.msix ++ l } : State).modDev dev fun v => { v with heldMsix := [] }

/-- HOLDER_CHANGE (R428): everything of the device moves to the new holder's port in one step. -/
def State.holderChange (s : State) (dev port : Nat) : State :=
  let old := (s.dev dev).lastPort
  let s := s.modDev dev fun v => { v with
    baton := .held port, lastPort := some port, bgen := v.bgen + 1, leaseStart := s.svcTime
    calls := match old with
      | some p => moveCalls p port v.calls
      | none => v.calls
    waiting := match old with
      | some p => moveCalls p port v.waiting
      | none => v.waiting }
  s.deliverHeld dev port

/-- The baton becomes OPEN at a tick; the takeover window starts. -/
def State.openBaton (s : State) (dev now : Nat) : State :=
  s.modDev dev fun v => { v with baton := .opened, leaseStart := now }

/-- HOST_LINK_DOWN (R426): the batons that the port holds become OPEN, and no acknowledgement of the port is awaited. -/
def execHostLinkDown (port : Nat) (s : State) : Res :=
  if 2 ≤ port || !((s.ports[port]?).getD {}).up then .next s
  else
    let s : State := { s with ports := listModify s.ports port fun p => { p with up := false } }
    let s := s.dir.foldl (fun s e =>
      let e := e.remove (portHolder port)
      ((s.putEntry e).ack e.line (portHolder port)).closeTxn e.line) s
    .next ((List.range s.devCount).foldl (fun s d => if (s.dev d).baton = .held port then s.openBaton d s.svcTime else s) s)

/-- HOST_LINK_UP. -/
def execHostLinkUp (port : Nat) (s : State) : Res :=
  .next { s with ports := listModify s.ports port fun p => { p with up := true } }

/-- LEASE_PERIOD_EXPIRY (R426). -/
def execLeasePeriodExpiry (dev : Nat) (s : State) : Res :=
  let v := s.dev dev
  .next (match v.baton with
    | .held _ => if decide (dev < s.devCount) && decide (v.leaseStart + v.period ≤ s.svcTime) then
        s.openBaton dev (v.leaseStart + v.period)
      else s
    | .opened | .gone => s)

/-- The lines of a host's memory that the device holds dirty. -/
def State.dirtyHostLines (s : State) (dev port : Nat) : List LineRef :=
  (s.dir.filter fun e => e.line.dev == dev &&
    decide (e.cxl = .m) &&
    (match s.target? dev e.line.asid (64 * e.line.line) with
     | some (.host p _) => p == port
     | _ => false)).map fun e => e.line

/-- Translations to a port's memory are revoked, or restored. -/
def State.revoke (s : State) (dev port : Nat) (on : Bool) : State :=
  let one (p : Page) : Page := match p.target with
    | .host q _ => if q = port then { p with revoked := on } else p
    | _ => p
  { s with ctxs := s.ctxs.map fun x => if x.2.dev = dev then (x.1, { x.2 with pages := x.2.pages.map one }) else x }

/-- WARM_RESTART (R429). -/
def State.warmRestart (s : State) (dev port : Nat) : State :=
  let s := (s.ctxs.filter fun x => x.2.dev == dev).foldl (fun s x => s.suspendQueues x.1 true) s
  let s := (s.ctxs.filter fun x => x.2.dev == dev && x.2.st == .running).foldl (fun s x => s.preempt x.1 200000 200000 true) s
  let s := s.modDev dev fun v => { v with
    baton := .gone, lostPort := some port, heldLines := s.dirtyHostLines dev port
    msixLost := v.msixLost + v.heldMsix.length, heldMsix := [] }
  s.revoke dev port true

/-- TAKEOVER_WINDOW_EXPIRY (R426, R429). -/
def execTakeoverWindowExpiry (dev : Nat) (s : State) : Res :=
  let v := s.dev dev
  .next (match v.baton, v.lastPort with
    | .opened, some p =>
      if decide (dev < s.devCount) && decide (v.leaseStart + v.window ≤ s.svcTime) then s.warmRestart dev p else s
    | _, _ => s)

end Sys2Proof.Machine
end

