-- ==== Sys2Proof/Machine/Admin.lean ====
section
/-!
DEFINITION. Service calls on the device itself: capacity (R441), banks (R397), the error log (R437, R438), dies (R411),
the lease (R426 to R430), attestation (R436), firmware (R432 to R435), telemetry (R439) and the power cap (R455).
-/
namespace Sys2Proof.Machine
open Sys2Proof

/-! ## Capacity and banks -/

/-- Cores of a device that are in service. -/
def State.upCores (s : State) (dev : Nat) : List Nat := (s.coresOf dev).filter s.coreUp

/-- Device memory that MEM_ALLOC and MAP can place (R407): each retired channel takes 1/32 of the frames, once. -/
def State.freeMemory (s : State) (dev : Nat) : Nat :=
  let n := stackBits s.pkg.mode
  let fnds := (List.range (fndsPer s.pkg.mode)).map fun i => dev * fndsPer s.pkg.mode + i
  if fnds.any fun f => !(s.fdie f).inService then 0
  else
    let mine := s.pkg.deadChannels.filter fun p => p.1 / 2 ^ n == dev
    let lost := (mine.map fun p => Nat.xor p.2 (p.1 % 2 ^ n) % 32).eraseDups.length
    s.devBytes - s.devBytes / 32 * lost

/-- L2 slices of a device that are in service. -/
def State.upSlices (s : State) (dev : Nat) : Nat :=
  let per := 256 * fndsPer s.pkg.mode
  ((List.range per).filter fun i =>
    !s.pkg.deadSlices.contains (per * dev + i) && (s.fdie ((per * dev + i) / 256)).inService).length

/-- CAP_QUERY (R441). -/
def execCapQuery (c : Call) (s : State) : Res :=
  serve 0x23 1 c (fun _ s =>
    let core := c.arg 0
    if core = 0xFFFF then
      let l := s.upCores c.dev
      let sum (f : Core → Cap) : Nat := l.foldl (fun n k => n + (f (s.core k)).amount) 0
      .done s stOk
        [s.freeMemory c.dev, sum Core.capReg, sum Core.capStash, l.length + 2 ^ 16 * sum Core.capAcc + 2 ^ 32 * s.upSlices c.dev]
    else if 768 ≤ core || s.devOfCore core ≠ c.dev then ended s stBadParam
    else
      let k := s.core core
      .done s stOk [k.capReg.word, k.capStash.word, k.capAcc.word, (s.cdie (dieOf core)).capL2.word]) s

/-- The bank that BANK_RETIRE names (R397); none out of range. -/
def State.bankNamed (s : State) (c : Call) : Option BankRef :=
  let u := c.arg 1
  let b := c.arg 2
  let core (st : Struct) (n : Nat) : Option BankRef :=
    if u < 768 ∧ s.devOfCore u = c.dev ∧ b ≤ n then some ⟨st, u, b⟩ else none
  match c.arg 0 with
  | 0 => core .pool 32
  | 1 => core .stash 32
  | 2 => core .acc 16
  | 3 => core .l1 15
  | 4 => core .icache 7
  | 5 => if u < 1024 ∧ s.devOfFnd (u / 256) = c.dev ∧ b = 0 then some ⟨.l2, u, 0⟩ else none
  | 6 => if u < 16 ∧ s.devOfFnd (u / 4) = c.dev ∧ b < 32 then some ⟨.hbm, u, b⟩ else none
  | _ => none

/-- BANK_RETIRE (R397): it completes when the bank's vent has ended. -/
def execBankRetire (c : Call) (s : State) : Res :=
  serve 0x24 3 c (fun again s =>
    match s.bankNamed c with
    | none => ended s stBadParam
    | some b =>
      if again then (if (s.ventsOf b).any fun v => v.b == b then .wait s else ended s stOk)
      else if s.retired b then ended s stBusy
      else .wait (s.requestVent b)) s

/-! ## The error log (R437, R438) -/

/-- The 64 bytes of a log entry (Table 15.10). -/
def LogEntry.bytes (e : LogEntry) : List Byte :=
  natLe 8 e.seq ++ natLe 8 (e.time % 2 ^ 62 + 2 ^ 62 * e.fnd) ++ natLe 2 e.type ++ natLe 1 e.unit ++ natLe 1 0 ++
  natLe 4 e.number ++ natLe 4 e.bank ++ natLe 4 e.count ++ natLe 8 e.addr ++ natLe 4 e.ctx ++ natLe 4 e.detail ++ natLe 16 0

/-- Entries that a caller receives (R438): every one on the physical function. -/
def State.sees (s : State) (c : Call) (e : LogEntry) : Bool := e.ctx == 0xFFFFFFFF || s.mayName c e.ctx

/-- ERR_LOG_READ (R438, R461). -/
def execErrLogRead (c : Call) (s : State) : Res :=
  serve 0x25 3 c (fun _ s =>
    let first := c.arg 2
    let l := (s.pkg.log.filter fun e => decide (first ≤ e.seq) && s.sees c e).take (c.arg 1)
    withBuffer c true (c.arg 0) (64 * l.length) s fun s =>
      let next := match l.getLast? with
        | some e => e.seq + 1
        | none => max first ((s.pkg.log.head?.map fun e => e.seq).getD s.pkg.logSeq)
      .done (s.callerWrite c.caller (c.arg 0) (l.flatMap LogEntry.bytes)) stOk [l.length, next]) s

/-- The device of a bank's unit. -/
def State.bankDev (s : State) (b : BankRef) : Nat := s.devOfFnd (bankFnd b)

/-- ERR_CLEAR (R438). -/
def execErrClear (c : Call) (s : State) : Res :=
  serve 0x26 1 c (fun _ s =>
    let all := c.arg 0 == 2 ^ 64 - 1
    let sel (n : Nat) : Bool := all || c.arg 0 == n
    if !all && 4 < c.arg 0 then ended s stBadParam
    else
      let bank (e : BankErr) : BankErr :=
        if s.bankDev e.b ≠ c.dev then e
        else { e with corrected := if sel 0 then 0 else e.corrected, uncorrected := if sel 1 then 0 else e.uncorrected }
      let core (k : Core) : Core :=
        { k with
          rollbacks := if sel 2 then 0 else k.rollbacks
          undersized := if sel 3 then 0 else k.undersized
          mismatches := if sel 3 then 0 else k.mismatches }
      let link (l : Nat) (k : Link) : Link := if sel 4 && s.devOfFnd (linkFnd l) == c.dev then { k with slowCount := 0 } else k
      ended { s with
        pkg := { s.pkg with banks := s.pkg.banks.map bank }
        cores := s.cores.map fun k => (k.1, if s.devOfCore k.1 = c.dev then core k.2 else k.2)
        links := s.links.mapAll link } stOk) s

/-- DIE_QUARANTINE (R411): 0 to 15 names a compute die, 16 to 19 a foundation die. -/
def execDieQuarantine (c : Call) (s : State) : Res :=
  serve 0x27 1 c (fun _ s =>
    let n := c.arg 0
    if 20 ≤ n then ended s stBadParam
    else
      let die : DieRef := if n < 16 then .compute n else .foundation (n - 16)
      if s.devOfFnd (if n < 16 then n / 4 else n - 16) ≠ c.dev then ended s stBadParam
      else ended (s.declareDead die 1) stOk) s

/-! ## The lease (R426 to R428) -/

/-- The port of a host's call. -/
def hostPort (c : Call) : Nat :=
  match c.caller with
  | .host p _ => p
  | .item _ _ _ _ => 0

/-- Ticks until the period or window of the baton ends. -/
def State.leaseLeft (s : State) (dev : Nat) : Nat :=
  let v := s.dev dev
  match v.baton with
  | .held _ => v.leaseStart + v.period - s.svcTime
  | .opened => v.leaseStart + v.window - s.svcTime
  | .gone => 0

/-- The tick after which the baton of a device is GONE (R426). -/
def Dev.lapse (v : Dev) : Nat :=
  match v.baton with
  | .held _ => v.leaseStart + v.period + v.window
  | .opened => v.leaseStart + v.window
  | .gone => 0

/-- LEASE_RENEW (R426, R427). A renewal on the tick at which the period or the window ends still counts; later the baton
has lapsed (R5). -/
def execLeaseRenew (c : Call) (s : State) : Res :=
  serve 0x28 2 c (fun _ s =>
    let port := hostPort c
    if (s.dev c.dev).lapse < s.svcTime then ended s stNotHolder
    else
      let s := s.modDev c.dev fun v => { v with
        baton := .held port, leaseStart := s.svcTime
        period := if c.arg 0 = 0 then v.period else c.arg 0
        window := if c.arg 1 = 0 then v.window else c.arg 1 }
      let s := s.deliverHeld c.dev port
      .done s stOk [s.leaseLeft c.dev]) s

/-- LEASE_RELEASE (R426). -/
def execLeaseRelease (c : Call) (s : State) : Res :=
  serve 0x29 0 c (fun _ s => ended (s.openBaton c.dev s.svcTime) stOk) s

/-- The queues that a lost host left SUSPENDED leave that state, once there is a host (R349, log 104). -/
def State.wakeQueues (s : State) (dev : Nat) : State :=
  (s.queues.filter fun q => q.2.st == .suspended &&
    ((s.ctxs.get? q.2.ctx).map fun x => x.dev == dev && x.warm).getD false).foldl (fun s q =>
      s.setQueue q.1 fun q => { q with st := .running }) s

/-- LEASE_TAKEOVER (R426 to R428). -/
def execLeaseTakeover (c : Call) (s : State) : Res :=
  serve 0x2A 0 c (fun _ s =>
    let take (s : State) : Reply :=
      let s := s.holderChange c.dev (hostPort c)
      .done s stOk [(s.dev c.dev).bgen.toNat]
    match (s.dev c.dev).baton with
    | .held _ => ended s stNotHolder
    | .opened => take s
    | .gone => take (s.wakeQueues c.dev)) s

/-! ## RESYNC (R430, Table 15.7) -/

/-- Bytes to a length. -/
def padTo (n : Nat) (bs : List Byte) : List Byte := (bs ++ List.replicate (n - bs.length) 0).take n

/-- Compute dies of a device. -/
def State.diesOf (s : State) (dev : Nat) : List Nat :=
  (List.range 16).filter fun d => s.devOfFnd (d / 4) == dev

/-- BSTATE of a baton as a port sees it (Table 15.2), with its holder. -/
def Baton.code (b : Baton) (port : Nat) : Nat :=
  match b with
  | .held p => if p = port then 0 else 1
  | .opened => 2
  | .gone => 3

/-- What a host reads of a function's registers at an offset of BAR0 (R6, R421, Table 15.2): the write-only SVCDB reads
zero. -/
def State.readBar (s : State) (dev port vf off : Nat) : Nat :=
  let f := ((s.ports[port]?).getD {}).func (funcKey dev vf)
  match off with
  | 0x0008 => f.outst + 2 ^ 7 * bit f.dropped
  | 0x0010 => Baton.code (s.dev dev).baton port + 2 ^ 32 * ((s.dev dev).bgen.toNat % 2 ^ 32)
  | _ => 0

/-- The summary of Table 15.7. -/
def State.summary (s : State) (dev port : Nat) : List Byte :=
  let v := s.dev dev
  let die (d : Nat) : List Byte :=
    let l := ((List.range 48).map fun i => 48 * d + i).filter s.coreUp
    let sum (f : Core → Cap) : Nat := l.foldl (fun n k => n + (f (s.core k)).amount) 0
    natLe 8 (l.foldl (fun n k => n + 2 ^ (k % 48)) 0) ++ natLe 8 (sum Core.capReg) ++ natLe 4 (sum Core.capStash) ++
    natLe 4 (sum Core.capAcc) ++ natLe 8 (s.cdie d).capL2.word
  let inDev (d : Nat) : Bool := s.devOfFnd (d / 4) == dev
  let chans (k : Nat) : Nat := (s.pkg.deadChannels.filter fun p => p.1 == k).foldl (fun n p => n + 2 ^ p.2) 0
  let lostQuads (g : Nat) : Nat := (List.range 8).foldl (fun n i => n + (4 - (s.core (8 * g + i)).quads)) 0
  let banks := s.pkg.banks.filter fun e => s.bankDev e.b == dev
  let cores := s.cores.filter fun k => s.devOfCore k.1 == dev
  let grids := (s.grids.filter fun g => !g.2.complete && s.ctxDev g.2.ctx == dev).take 128
  let holder := match v.lastPort with
    | some p => p
    | none => 0xFF
  padTo 64 ([0x52, 0x53, 0x59, 0x4E] ++ natLe 4 0 ++ natLe 1 s.pkg.mode ++ natLe 1 dev ++ natLe 2 v.barnos ++ natLe 4 0 ++
    natLe 8 s.svcTime ++ natLe 4 s.pkg.svcDie ++ natLe 4 s.pkg.svcDie) ++
  padTo 64 (natLe 4 (Baton.code v.baton port) ++ natLe 4 holder ++ natLe 8 v.bgen.toNat ++ natLe 8 v.period ++ natLe 8 v.window ++
    natLe 8 (s.leaseLeft dev) ++ natLe 8 (v.heldMsix.length + v.msixLost)) ++
  ((List.range 16).flatMap fun d => natLe 8 (if inDev d then (s.cdie d).phdone else 0)) ++
  ((List.range 16).flatMap fun d => if inDev d then die d else natLe 32 0) ++
  padTo 256 (((List.range 16).flatMap fun k => natLe 4 (chans k)) ++
    ((List.range 28).flatMap fun l => natLe 1 (s.link l).st.code) ++ natLe 4 0 ++
    ((List.range 96).flatMap fun g => natLe 1 (lostQuads g))) ++
  padTo 256 ([banks.foldl (fun n e => n + e.corrected) 0, banks.foldl (fun n e => n + e.uncorrected) 0,
    cores.foldl (fun n k => n + k.2.rollbacks.toNat) 0, cores.foldl (fun n k => n + k.2.mismatches.toNat) 0,
    cores.foldl (fun n k => n + k.2.undersized.toNat) 0,
    s.links.foldl (fun n k => if s.devOfFnd (linkFnd k.1) = dev then n + k.2.slowCount else n) 0].flatMap (natLe 8)) ++
  padTo 256 (natLe 8 Config.romVersion.toNat ++
    ([s.pkg.trusted, s.pkg.policy].flatMap fun f =>
      natLe 8 ((f.running.map fun i => i.version).getD 0) ++ natLe 8 ((f.running.map fun i => i.svn).getD 0) ++
      natLe 4 f.active ++ natLe 4 (match f.staged with
        | some n => n
        | none => 0xFF))) ++
  padTo 256 (natLe 8 v.records.length ++ ((v.records.take 16).flatMap fun r => natLe 8 r.1) ++
    List.replicate (8 * (16 - v.records.length)) 0 ++ natLe 8 v.heldLines.length) ++
  padTo 2048 ((s.ctxs.filter fun x => x.2.dev == dev).flatMap fun x =>
    padTo 32 (natLe 4 x.1 ++ natLe 4 x.2.st.code ++ natLe 4 holder ++ natLe 4 (s.liveGrids x.1) ++ natLe 8 x.2.weight ++
      natLe 8 (intWord x.2.deficit))) ++
  padTo 4096 ((s.queues.filter fun q => q.1 / 256 == dev).flatMap fun q =>
    natLe 4 q.2.head.toNat ++ natLe 4 q.2.tail.toNat ++ natLe 1 q.2.st.code ++ natLe 1 q.2.err ++ natLe 2 0 ++ natLe 4 q.2.ctx) ++
  padTo 8192 (grids.flatMap fun g =>
    padTo 64 (natLe 8 g.2.num ++ natLe 4 g.2.ctx ++ natLe 4 (g.2.queue.getD 0xFFFFFFFF) ++ natLe 8 g.2.teamCount ++
      natLe 8 g.2.retired ++ natLe 4 g.2.failing ++ natLe 4 g.2.depth)) ++
  List.replicate 256 0

/-- The held lines of a lost host: written back through the new holder's port where it is theirs, else discarded with a
log entry (R430). -/
def State.settleHeld (s : State) (dev port : Nat) : State :=
  let v := s.dev dev
  let s := v.heldLines.foldl (fun s l =>
    match s.target? dev l.asid (64 * l.line) with
    | some (.host p hpa) =>
      if p = port then s.evict l
      else
        let s := (((s.openTxn l none true false).answerAll l).hostLine l false).leaveSlice l
        s.logEvent s.pkg.svcDie { logOf 9 with unit := 12, number := p, addr := hpa, detail := p }
    | _ => s) s
  s.modDev dev fun v => { v with heldLines := [], lostPort := none }

/-- Contexts that a warm restart suspended or is suspending. -/
def State.warmOf (s : State) (dev : Nat) : Tbl Ctx := s.ctxs.filter fun x => x.2.dev == dev && x.2.warm

/-- The last step of RESYNC: the contexts of the warm restart resume, once each is suspended (R430). -/
def resumeWarm (dev : Nat) (s : State) : Reply :=
  let l := s.warmOf dev
  if l.any fun x => x.2.preempt.isSome then .wait s
  else
    ended (l.foldl (fun s x =>
      if x.2.st = .suspended then s.resumeCtx x.1 else s.modCtx x.1 fun x => { x with warm := false }) s) stOk

/-- RESYNC (R430, R461). -/
def execResync (c : Call) (s : State) : Res :=
  serve 0x30 2 c (fun again s =>
    let port := hostPort c
    if again then resumeWarm c.dev s
    else if 1 < c.arg 1 then ended s stBadParam
    else
      withBuffer c true (c.arg 0) 16384 s fun s =>
        if c.arg 1 = 0 then ended (s.callerWrite c.caller (c.arg 0) (s.summary c.dev port)) stOk
        else if (s.dev c.dev).heldLines.any fun l => s.lineBusy l true then .later
        else
          let s := if (s.dev c.dev).baton = .gone then s.holderChange c.dev port else s
          let s := s.callerWrite c.caller (c.arg 0) (s.summary c.dev port)
          resumeWarm c.dev ((s.revoke c.dev port false).settleHeld c.dev port)) s

/-! ## Firmware (R433 to R436) -/

/-- The banks that the configuration record's maps retire (R397, R456). -/
def CfgRecord.banks (r : CfgRecord) : List (Nat × Nat × Nat) :=
  (r.cores.flatMap fun k =>
    (k.2.pool.dead.map fun b => (0, k.1, b)) ++ (k.2.stashMap.dead.map fun b => (1, k.1, b)) ++
    (k.2.accMap.dead.map fun b => (2, k.1, b)) ++ (k.2.l1Dead.map fun b => (3, k.1, b)) ++
    (k.2.icDead.map fun b => (4, k.1, b))) ++
  (r.slices.map fun x => (5, x, 0)) ++ r.channels.map fun p => (6, p.1, p.2)

/-- The attestation quote (Table 15.9). -/
def State.quote (s : State) (dev : Nat) (nonce : List Byte) : List Byte :=
  let hash (f : Option Image) : List Byte := match f with
    | some i => padTo 48 (Config.sha384 i.header)
    | none => natLe 48 0
  let r := s.pkg.record
  let body := padTo 256 (
    [0x4B, 0x47, 0x51, 0x54] ++ natLe 4 0 ++ padTo 48 nonce ++ natLe 8 (s.svcTime % 2 ^ 62 + 2 ^ 62 * s.pkg.svcDie) ++
    natLe 1 s.pkg.mode ++ natLe 1 dev ++ natLe 2 (s.dev dev).barnos ++ natLe 4 Config.romVersion.toNat ++
    hash s.pkg.trusted.running ++ hash (if s.pkg.policyRunning then s.pkg.policy.running else none) ++
    padTo 48 (Config.sha384 (Config.configRecord r.gen.toNat r.banks r.minTrusted r.minPolicy)))
  let digest := Config.sha384 body
  body ++ padTo 384 (Config.signRsa digest) ++ padTo 16224 (Config.signSlh digest)

/-- ATTEST_QUOTE (R436, R461). -/
def execAttestQuote (c : Call) (s : State) : Res :=
  serve 0x2B 2 c (fun _ s =>
    readBuffer c (c.arg 0) 48 s fun s nonce =>
      withBuffer c true (c.arg 1) 16864 s fun s =>
        .done (s.callerWrite c.caller (c.arg 1) (s.quote c.dev nonce)) stOk [16864]) s

/-- The firmware of a kind (Table 15.8). -/
def Package.fw (p : Package) (kind : Nat) : Fw := if kind = 1 then p.trusted else p.policy

/-- The firmware of a kind changed. -/
def State.modFw (s : State) (kind : Nat) (f : Fw → Fw) : State :=
  { s with pkg := if kind = 1 then { s.pkg with trusted := f s.pkg.trusted } else { s.pkg with policy := f s.pkg.policy } }

/-- What an image fails under R433: 0 nothing, else one more than the code of TYPE 14. -/
def imageVerdict (bs : List Byte) (minSvn : Nat) : Nat :=
  let digest := Config.sha384 (bs.take 0x100)
  if Config.sha384 (bs.drop 0x4200) ≠ (bs.drop 0x18).take 48 then 1
  else if !Config.verifyRsa digest ((bs.drop 0x100).take 384) then 2
  else if !Config.verifySlh digest ((bs.drop 0x280).take 16224) then 3
  else if fieldAt bs 0x10 4 < minSvn then 4
  else 0

/-- FW_STAGE (R433, R435, R461): the image is written into the inactive slot of its kind; FW_STAGE_WRITE_DONE ends the
call. A reserved field of the header that is not zero is refused as a value out of limits (R7, Table 15.5). -/
def execFwStage (c : Call) (s : State) : Res :=
  serve 0x2C 2 c (fun again s =>
    if again then .wait s
    else
      let n := c.arg 1
      if n < 0x4200 || 0x4200 + 8388608 < n then ended s stBadParam
      else
        readBuffer c (c.arg 0) n s fun s bs =>
          let kind := fieldAt bs 4 4
          let zero (off len : Nat) : Bool := ((bs.drop off).take len).all fun b => b == 0
          if bs.take 4 ≠ [0x4B, 0x47, 0x46, 0x57] || (kind ≠ 1 && kind ≠ 2) || fieldAt bs 0x14 4 + 0x4200 ≠ n ||
              !zero 0x48 184 || !zero 0x41E0 32 then ended s stBadParam
          else if (s.pkg.fw kind).checking.isSome then ended s stBusy
          else
            let i : Image := { version := fieldAt bs 8 8, svn := fieldAt bs 0x10 4, header := bs.take 0x4200 }
            let s := s.modFw kind fun f => { f with
              slots := listSet f.slots (1 - f.active) none, staged := none
              checking := some (i, imageVerdict bs f.minSvn) }
            .wait { s with pkg := { s.pkg with staging := s.pkg.staging ++ [(c, kind)] } }) s

/-- FW_STAGE_WRITE_DONE (R433, R435): an image that fails is erased. -/
def execFwStageWriteDone (c : Call) (s : State) : Res :=
  match s.pkg.staging.find? fun p => p.1 == c with
  | none => .next s
  | some (_, kind) =>
    if s.answerBusy c then .next s
    else
      let s : State := { s with pkg := { s.pkg with staging := s.pkg.staging.erase (c, kind) } }
      .next (match (s.pkg.fw kind).checking with
        | none => s
        | some (i, verdict) =>
          let slot := 1 - (s.pkg.fw kind).active
          let s := s.modFw kind fun f => { f with checking := none }
          if verdict = 0 then
            ((s.modFw kind fun f => { f with slots := listSet f.slots slot (some i), staged := some slot }).dropCall (0x2C, c)).answer
              c stOk [slot]
          else
            ((s.logEvent s.pkg.svcDie { logOf 14 with unit := 11, addr := slot, detail := verdict - 1 }).dropCall (0x2C, c)).answer
              c stSigInvalid [])

/-- FW_ACTIVATE (R435). -/
def execFwActivate (c : Call) (s : State) : Res :=
  serve 0x2D 1 c (fun _ s =>
    let kind := c.arg 0
    if kind ≠ 1 && kind ≠ 2 then ended s stBadParam
    else
      let f := s.pkg.fw kind
      match f.staged, f.staged.bind fun n => (f.slots[n]?).getD none, s.pkg.staging with
      | some n, some i, [] =>
        let s := (s.modFw kind fun f => { f with
          active := n, staged := none, minSvn := max f.minSvn i.svn, running := if kind = 2 then some i else f.running }).writeRecord
        ended (if kind = 2 then { s with pkg := { s.pkg with policyRunning := true, policyRestarts := [] } } else s) stOk
      | _, _, _ => ended s stBusy) s

/-- POLICY_IMAGE_FAULT (R432): a restart, or the third within a second leaves the pair without the image. -/
def execPolicyImageFault (s : State) : Res :=
  if !s.pkg.policyRunning then .next s
  else
    let now := s.svcTime
    let l := (s.pkg.policyRestarts.filter fun t => decide (now < t + 100000000)) ++ [now]
    let stop := decide (3 ≤ l.length)
    let s : State := { s with pkg := { s.pkg with policyRestarts := l, policyRunning := !stop } }
    .next (s.logEvent s.pkg.svcDie { logOf 11 with unit := 11, detail := bit stop })

/-! ## Telemetry and power (R439, R455) -/

/-- A measurement of the module or a die. -/
def State.measured (s : State) (i : Nat) : Nat := (Config.measure i s.fresh).toNat

/-- The clock at which a compute die runs (R454, R455). -/
def CDie.clock (d : CDie) : Nat := if d.throttled then d.clockMHz / 2 else d.clockMHz

/-- Record 0: the module. -/
def State.tele0 (s : State) (m : Nat → Nat) : List Byte :=
  padTo 128 ([m 0, m 1, m 2, s.pkg.cap, m 3].flatMap (natLe 8) ++ s.fdies.flatMap fun f => natLe 8 f.ltime.toNat)

/-- Record 1: the compute dies. -/
def State.tele1 (s : State) (m : Nat → Nat) : List Byte :=
  (List.range 16).flatMap fun d =>
    let l := ((List.range 48).map fun i => 48 * d + i).filter s.coreUp
    padTo 32 ([(s.cdie d).clock, m (4 + d), (s.cdie d).gate, l.length,
      (l.filter fun k => decide ((s.core k).quads < 4)).length].flatMap (natLe 4))

/-- The counters of record 2 for a core. -/
def coreCounts (k : Core) : List Nat := [k.undersized.toNat, k.mismatches.toNat, k.rollbacks.toNat, k.charged]

/-- The counters of record 2 for every core. -/
def State.allCounts (s : State) : List Nat := (List.range 768).flatMap fun k => coreCounts (s.core k)

/-- Cores of which a caller learns (R439). -/
def State.coreShown (s : State) (c : Call) (core : Nat) : Bool :=
  match c.caller with
  | .host _ 0 => true
  | _ => s.devOfCore core == c.dev

/-- Record 2: the cores. -/
def State.tele2 (s : State) (c : Call) (counts : List Nat) : List Byte :=
  (List.range 3072).flatMap fun i => natLe 8 (if s.coreShown c (i / 4) then (counts[i]?).getD 0 else 0)

/-- Record 3: the context slots of the device; `count` gives the core-cycles charged. -/
def State.tele3 (s : State) (c : Call) (count : Nat → Ctx → Nat) : List Byte :=
  (List.range 64).flatMap fun i =>
    let k := 64 * c.dev + i
    match s.ctxs.get? k with
    | some x =>
      if s.mayName c k then
        natLe 4 k ++ natLe 4 0 ++ natLe 8 (count k x) ++ natLe 8 (intWord x.deficit) ++
        natLe 4 (s.residentOf k).length ++ natLe 4 (s.liveGrids k)
      else natLe 32 0
    | none => natLe 32 0

/-- The record of a selector (R439); the averaged ones need a policy image and a complete window. -/
def State.teleRecord (s : State) (c : Call) (sel : Nat) : List Byte :=
  let shaped := if 128 ≤ sel && s.pkg.policyRunning then s.pkg.teleFree else none
  let m (i : Nat) : Nat := match shaped with
    | some n => (Config.measure (32 + i) n).toNat
    | none => s.measured i
  let word (l : List W64) (i : Nat) : Nat := ((l[i]?).getD 0).toNat
  match sel % 128 with
  | 0 => s.tele0 m
  | 1 => s.tele1 m
  | 2 => s.tele2 c (if shaped.isSome then (List.range 3072).map (word s.pkg.teleCounts) else s.allCounts)
  | _ => s.tele3 c fun k x => if shaped.isSome then word s.pkg.teleCounts (3072 + k) else x.chargedTotal

/-- The size of a record (Table 15.12). -/
def teleSize (sel : Nat) : Nat :=
  match sel % 128 with
  | 0 => 128
  | 1 => 512
  | 2 => 24576
  | _ => 2048

/-- TELEMETRY_READ (R439, R461). -/
def execTelemetryRead (c : Call) (s : State) : Res :=
  serve 0x2E 3 c (fun _ s =>
    let sel := c.arg 0
    let n := teleSize sel
    if !(decide (sel < 4) || decide (128 ≤ sel ∧ sel < 132)) || c.arg 2 < n then ended s stBadParam
    else
      withBuffer c true (c.arg 1) n s fun s =>
        .done (s.callerWrite c.caller (c.arg 1) (s.teleRecord c sel)).bump stOk [n]) s

/-- TELEMETRY_WINDOW (R439): a window of 1,000,000 ticks of foundation die 0 is complete. -/
def execTelemetryWindow (s : State) : Res :=
  let now := (s.fdie 0).ltime.toNat
  if !s.pkg.policyRunning || now < s.pkg.teleStart + 1000000 then .next s
  else
    let ctxs := (List.range 256).map fun i => ((s.ctxs.get? i).map fun x => x.chargedTotal).getD 0
    let raw := (s.allCounts ++ ctxs).map fun n => (BitVec.ofNat 64 n : W64)
    let base (i : Nat) : W64 := (s.pkg.teleBase[i]?).getD 0
    .next { s with
      fresh := s.fresh + 1
      pkg := { s.pkg with
        teleCounts := raw.zipIdx.map fun p => p.1 - base p.2
        teleBase := raw, teleStart := now, teleFree := some s.fresh } }

/-- POWER_CAP_SET (R455). -/
def execPowerCapSet (c : Call) (s : State) : Res :=
  serve 0x2F 1 c (fun _ s =>
    if c.arg 0 < 1200 || 3600 < c.arg 0 then ended s stBadParam
    else ended { s with pkg := { s.pkg with cap := c.arg 0 } } stOk) s

end Sys2Proof.Machine
end

