-- ==== Sys2Proof/Machine/Float.lean ====
section
/-!
DEFINITION. Floating point (R172 to R187): one meaning per instruction over the operations of Flags.lean.
-/
namespace Sys2Proof.Machine
open Sys2Proof

/-- The parameters of a register form: the sources' type, rounding, flush (R130) and sign mode. -/
def fctx (t : FTy) (rm : RM) (ftz : Bool) (sgn : Sgn) (ctl : W64) : FCtx := ⟨t, rm, ftzFor t (ctl.getLsbD 4) ftz, sgn⟩

/-- The parameters of an I-form or L-form (R173). -/
def fctxK (t : FTy) (ctl : W64) : FCtx := fctx t .rne false .none ctl

/-- An I-form constant of group 1 or 2 (R88): FP32 bits [31:8], converted with RNE without flags, or FP64
bits [63:40]. -/
def fimm (t : FTy) (imm : BitVec 24) : Nat :=
  match t with
  | .f64 => imm.toNat * 2 ^ 40
  | .f32 => imm.toNat * 2 ^ 8
  | t => (deliver t .rne .inf false 0 (fdec .f32 (imm.toNat * 2 ^ 8))).bits

/-- A source read as a type: its low bits (R172). -/
def fsrc (t : FTy) (x : Nat) : Nat := low t.width x

/-- FMIN and FMAX with their sign mode and flush (R178). -/
def fMM (c : FCtx) (isMax prop : Bool) (a b : Nat) : FRes := fMinMax c.t isMax prop (c.a a b) (c.s b)

/-- FCMP with its sign mode and flush (R179). -/
def fCmp (c : FCtx) (rel : Rel) (a b : Nat) : LaneOut :=
  let r := fCompare c.t rel (c.a a b) (c.s b)
  { bits := [r.1], fl := r.2 }


/-- FADD (R177). -/
def execFadd (x : FBin) (s : State) : Res :=
  laneOp (.fadd x) .once
    (fun v => .flt (fAdd (fctx x.t x.rm x.ftz x.sgn v.ctl) (fsrc x.t v.a) (fsrc x.t v.b))) s

/-- FADD, immediate (R177). -/
def execFaddI (x : FI) (s : State) : Res :=
  laneOp (.faddI x) .once
    (fun v => .flt (fAdd (fctxK x.t v.ctl) (fsrc x.t v.a) (fimm x.t x.imm))) s

/-- FADD, long constant (R177). -/
def execFaddL (x : FL) (s : State) : Res :=
  laneOp (.faddL x) .once
    (fun v => .flt (fAdd (fctxK x.t v.ctl) (fsrc x.t v.a) (fsrc x.t x.k.toNat))) s

/-- FSUB (R177). -/
def execFsub (x : FBin) (s : State) : Res :=
  laneOp (.fsub x) .once
    (fun v => .flt (fSub (fctx x.t x.rm x.ftz x.sgn v.ctl) (fsrc x.t v.a) (fsrc x.t v.b))) s

/-- FSUB, immediate (R177). -/
def execFsubI (x : FI) (s : State) : Res :=
  laneOp (.fsubI x) .once
    (fun v => .flt (fSub (fctxK x.t v.ctl) (fsrc x.t v.a) (fimm x.t x.imm))) s

/-- FSUB, long constant (R177). -/
def execFsubL (x : FL) (s : State) : Res :=
  laneOp (.fsubL x) .once
    (fun v => .flt (fSub (fctxK x.t v.ctl) (fsrc x.t v.a) (fsrc x.t x.k.toNat))) s

/-- FMUL (R177). -/
def execFmul (x : FBin) (s : State) : Res :=
  laneOp (.fmul x) .once
    (fun v => .flt (fMul (fctx x.t x.rm x.ftz x.sgn v.ctl) (fsrc x.t v.a) (fsrc x.t v.b))) s

/-- FMUL, immediate (R177). -/
def execFmulI (x : FI) (s : State) : Res :=
  laneOp (.fmulI x) .once
    (fun v => .flt (fMul (fctxK x.t v.ctl) (fsrc x.t v.a) (fimm x.t x.imm))) s

/-- FMUL, long constant (R177). -/
def execFmulL (x : FL) (s : State) : Res :=
  laneOp (.fmulL x) .once
    (fun v => .flt (fMul (fctxK x.t v.ctl) (fsrc x.t v.a) (fsrc x.t x.k.toNat))) s

/-- FFMA (R177). -/
def execFfma (x : FTern) (s : State) : Res :=
  laneOp (.ffma x) .once
    (fun v => .flt (fFma (fctx x.t x.rm x.ftz x.sgn v.ctl) (fsrc x.t v.a) (fsrc x.t v.b) (fsrc x.t v.c))) s

/-- FMIN (R178). -/
def execFmin (x : FMM) (s : State) : Res :=
  laneOp (.fmin x) .once
    (fun v => .flt (fMM (fctx x.t .rne x.ftz x.sgn v.ctl) false x.prop (fsrc x.t v.a) (fsrc x.t v.b))) s

/-- FMIN, immediate (R178). -/
def execFminI (x : FI) (s : State) : Res :=
  laneOp (.fminI x) .once
    (fun v => .flt (fMM (fctxK x.t v.ctl) false false (fsrc x.t v.a) (fimm x.t x.imm))) s

/-- FMIN, long constant (R178). -/
def execFminL (x : FL) (s : State) : Res :=
  laneOp (.fminL x) .once
    (fun v => .flt (fMM (fctxK x.t v.ctl) false false (fsrc x.t v.a) (fsrc x.t x.k.toNat))) s

/-- FMAX (R178). -/
def execFmax (x : FMM) (s : State) : Res :=
  laneOp (.fmax x) .once
    (fun v => .flt (fMM (fctx x.t .rne x.ftz x.sgn v.ctl) true x.prop (fsrc x.t v.a) (fsrc x.t v.b))) s

/-- FMAX, immediate (R178). -/
def execFmaxI (x : FI) (s : State) : Res :=
  laneOp (.fmaxI x) .once
    (fun v => .flt (fMM (fctxK x.t v.ctl) true false (fsrc x.t v.a) (fimm x.t x.imm))) s

/-- FMAX, long constant (R178). -/
def execFmaxL (x : FL) (s : State) : Res :=
  laneOp (.fmaxL x) .once
    (fun v => .flt (fMM (fctxK x.t v.ctl) true false (fsrc x.t v.a) (fsrc x.t x.k.toNat))) s

/-- FCMP (R179). -/
def execFcmp (x : FCmp) (s : State) : Res :=
  laneOp (.fcmp x) .once
    (fun v => fCmp (fctx x.t .rne x.ftz x.sgn v.ctl) x.rel (fsrc x.t v.a) (fsrc x.t v.b)) s

/-- FCMP, immediate (R179). -/
def execFcmpI (x : FCmpI) (s : State) : Res :=
  laneOp (.fcmpI x) .once
    (fun v => fCmp (fctxK x.t v.ctl) x.rel (fsrc x.t v.a) (fimm x.t x.imm)) s

/-- FCMP, long constant (R179). -/
def execFcmpL (x : FCmpL) (s : State) : Res :=
  laneOp (.fcmpL x) .once
    (fun v => fCmp (fctxK x.t v.ctl) x.rel (fsrc x.t v.a) (fsrc x.t x.k.toNat)) s

/-- FCLASS (R180). -/
def execFclass (x : FCls) (s : State) : Res :=
  laneOp (.fclass x) .once
    (fun v => .val (fClass x.t (fsrc x.t v.a))) s

/-- FRND (R181). -/
def execFrnd (x : FUn) (s : State) : Res :=
  laneOp (.frnd x) .once
    (fun v => .flt (fRound (fctx x.t x.rm x.ftz x.sgn v.ctl) (fsrc x.t v.a))) s

/-- FSCALE (R182). -/
def execFscale (x : FBin) (s : State) : Res :=
  laneOp (.fscale x) .once
    (fun v => .flt (fScale (fctx x.t x.rm x.ftz x.sgn v.ctl) (fsrc x.t v.a) (readI .s32 v.b))) s

/-- FSCALE, immediate (R182). -/
def execFscaleI (x : FI) (s : State) : Res :=
  laneOp (.fscaleI x) .once
    (fun v => .flt (fScale (fctxK x.t v.ctl) (fsrc x.t v.a) x.imm.toInt)) s

/-- FSCALE, long constant (R182). -/
def execFscaleL (x : FL) (s : State) : Res :=
  laneOp (.fscaleL x) .once
    (fun v => .flt (fScale (fctxK x.t v.ctl) (fsrc x.t v.a) (readI .s32 x.k.toNat))) s

/-- FDIV (R183). -/
def execFdiv (x : FBin) (s : State) : Res :=
  laneOp (.fdiv x) .once
    (fun v => .flt (fDiv (fctx x.t x.rm x.ftz x.sgn v.ctl) (fsrc x.t v.a) (fsrc x.t v.b))) s

/-- FSQRT (R183). -/
def execFsqrt (x : FUn) (s : State) : Res :=
  laneOp (.fsqrt x) .once
    (fun v => .flt (fSqrt (fctx x.t x.rm x.ftz x.sgn v.ctl) (fsrc x.t v.a))) s

/-- FRCP (R183). -/
def execFrcp (x : FUn) (s : State) : Res :=
  laneOp (.frcp x) .once
    (fun v => .flt (fRcp (fctx x.t x.rm x.ftz x.sgn v.ctl) (fsrc x.t v.a))) s

/-- FRSQ (R183). -/
def execFrsq (x : FUn) (s : State) : Res :=
  laneOp (.frsq x) .once
    (fun v => .flt (fRsq (fctx x.t x.rm x.ftz x.sgn v.ctl) (fsrc x.t v.a))) s

/-- FEXP2 (R183). -/
def execFexp2 (x : FUn) (s : State) : Res :=
  laneOp (.fexp2 x) .once
    (fun v => .flt (fExp2 (fctx x.t x.rm x.ftz x.sgn v.ctl) (fsrc x.t v.a))) s

/-- FLOG2 (R183). -/
def execFlog2 (x : FUn) (s : State) : Res :=
  laneOp (.flog2 x) .once
    (fun v => .flt (fLog2 (fctx x.t x.rm x.ftz x.sgn v.ctl) (fsrc x.t v.a))) s

/-- FSINPI (R183). -/
def execFsinpi (x : FUn) (s : State) : Res :=
  laneOp (.fsinpi x) .once
    (fun v => .flt (fSinPi (fctx x.t x.rm x.ftz x.sgn v.ctl) (fsrc x.t v.a))) s

/-- FCOSPI (R183). -/
def execFcospi (x : FUn) (s : State) : Res :=
  laneOp (.fcospi x) .once
    (fun v => .flt (fCosPi (fctx x.t x.rm x.ftz x.sgn v.ctl) (fsrc x.t v.a))) s

/-- FADD on FP64 (R177). -/
def execFaddF64 (x : FBin) (s : State) : Res :=
  laneOp (.faddF64 x) .once
    (fun v => .flt (fAdd (fctx x.t x.rm x.ftz x.sgn v.ctl) (fsrc x.t v.a) (fsrc x.t v.b))) s

/-- FADD on FP64, immediate (R177). -/
def execFaddF64I (x : FI) (s : State) : Res :=
  laneOp (.faddF64I x) .once
    (fun v => .flt (fAdd (fctxK x.t v.ctl) (fsrc x.t v.a) (fimm x.t x.imm))) s

/-- FADD on FP64, long constant (R177). -/
def execFaddF64L (x : FL) (s : State) : Res :=
  laneOp (.faddF64L x) .once
    (fun v => .flt (fAdd (fctxK x.t v.ctl) (fsrc x.t v.a) (fsrc x.t x.k.toNat))) s

/-- FSUB on FP64 (R177). -/
def execFsubF64 (x : FBin) (s : State) : Res :=
  laneOp (.fsubF64 x) .once
    (fun v => .flt (fSub (fctx x.t x.rm x.ftz x.sgn v.ctl) (fsrc x.t v.a) (fsrc x.t v.b))) s

/-- FSUB on FP64, immediate (R177). -/
def execFsubF64I (x : FI) (s : State) : Res :=
  laneOp (.fsubF64I x) .once
    (fun v => .flt (fSub (fctxK x.t v.ctl) (fsrc x.t v.a) (fimm x.t x.imm))) s

/-- FSUB on FP64, long constant (R177). -/
def execFsubF64L (x : FL) (s : State) : Res :=
  laneOp (.fsubF64L x) .once
    (fun v => .flt (fSub (fctxK x.t v.ctl) (fsrc x.t v.a) (fsrc x.t x.k.toNat))) s

/-- FMUL on FP64 (R177). -/
def execFmulF64 (x : FBin) (s : State) : Res :=
  laneOp (.fmulF64 x) .once
    (fun v => .flt (fMul (fctx x.t x.rm x.ftz x.sgn v.ctl) (fsrc x.t v.a) (fsrc x.t v.b))) s

/-- FMUL on FP64, immediate (R177). -/
def execFmulF64I (x : FI) (s : State) : Res :=
  laneOp (.fmulF64I x) .once
    (fun v => .flt (fMul (fctxK x.t v.ctl) (fsrc x.t v.a) (fimm x.t x.imm))) s

/-- FMUL on FP64, long constant (R177). -/
def execFmulF64L (x : FL) (s : State) : Res :=
  laneOp (.fmulF64L x) .once
    (fun v => .flt (fMul (fctxK x.t v.ctl) (fsrc x.t v.a) (fsrc x.t x.k.toNat))) s

/-- FFMA on FP64 (R177). -/
def execFfmaF64 (x : FTern) (s : State) : Res :=
  laneOp (.ffmaF64 x) .once
    (fun v => .flt (fFma (fctx x.t x.rm x.ftz x.sgn v.ctl) (fsrc x.t v.a) (fsrc x.t v.b) (fsrc x.t v.c))) s

/-- FMIN on FP64 (R178). -/
def execFminF64 (x : FMM) (s : State) : Res :=
  laneOp (.fminF64 x) .once
    (fun v => .flt (fMM (fctx x.t .rne x.ftz x.sgn v.ctl) false x.prop (fsrc x.t v.a) (fsrc x.t v.b))) s

/-- FMIN on FP64, immediate (R178). -/
def execFminF64I (x : FI) (s : State) : Res :=
  laneOp (.fminF64I x) .once
    (fun v => .flt (fMM (fctxK x.t v.ctl) false false (fsrc x.t v.a) (fimm x.t x.imm))) s

/-- FMIN on FP64, long constant (R178). -/
def execFminF64L (x : FL) (s : State) : Res :=
  laneOp (.fminF64L x) .once
    (fun v => .flt (fMM (fctxK x.t v.ctl) false false (fsrc x.t v.a) (fsrc x.t x.k.toNat))) s

/-- FMAX on FP64 (R178). -/
def execFmaxF64 (x : FMM) (s : State) : Res :=
  laneOp (.fmaxF64 x) .once
    (fun v => .flt (fMM (fctx x.t .rne x.ftz x.sgn v.ctl) true x.prop (fsrc x.t v.a) (fsrc x.t v.b))) s

/-- FMAX on FP64, immediate (R178). -/
def execFmaxF64I (x : FI) (s : State) : Res :=
  laneOp (.fmaxF64I x) .once
    (fun v => .flt (fMM (fctxK x.t v.ctl) true false (fsrc x.t v.a) (fimm x.t x.imm))) s

/-- FMAX on FP64, long constant (R178). -/
def execFmaxF64L (x : FL) (s : State) : Res :=
  laneOp (.fmaxF64L x) .once
    (fun v => .flt (fMM (fctxK x.t v.ctl) true false (fsrc x.t v.a) (fsrc x.t x.k.toNat))) s

/-- FCMP on FP64 (R179). -/
def execFcmpF64 (x : FCmp) (s : State) : Res :=
  laneOp (.fcmpF64 x) .once
    (fun v => fCmp (fctx x.t .rne x.ftz x.sgn v.ctl) x.rel (fsrc x.t v.a) (fsrc x.t v.b)) s

/-- FCMP on FP64, immediate (R179). -/
def execFcmpF64I (x : FCmpI) (s : State) : Res :=
  laneOp (.fcmpF64I x) .once
    (fun v => fCmp (fctxK x.t v.ctl) x.rel (fsrc x.t v.a) (fimm x.t x.imm)) s

/-- FCMP on FP64, long constant (R179). -/
def execFcmpF64L (x : FCmpL) (s : State) : Res :=
  laneOp (.fcmpF64L x) .once
    (fun v => fCmp (fctxK x.t v.ctl) x.rel (fsrc x.t v.a) (fsrc x.t x.k.toNat)) s

/-- FCLASS on FP64 (R180). -/
def execFclassF64 (x : FCls) (s : State) : Res :=
  laneOp (.fclassF64 x) .once
    (fun v => .val (fClass x.t (fsrc x.t v.a))) s

/-- FRND on FP64 (R181). -/
def execFrndF64 (x : FUn) (s : State) : Res :=
  laneOp (.frndF64 x) .once
    (fun v => .flt (fRound (fctx x.t x.rm x.ftz x.sgn v.ctl) (fsrc x.t v.a))) s

/-- FSCALE on FP64 (R182). -/
def execFscaleF64 (x : FBin) (s : State) : Res :=
  laneOp (.fscaleF64 x) .once
    (fun v => .flt (fScale (fctx x.t x.rm x.ftz x.sgn v.ctl) (fsrc x.t v.a) (readI .s32 v.b))) s

/-- FSCALE on FP64, immediate (R182). -/
def execFscaleF64I (x : FI) (s : State) : Res :=
  laneOp (.fscaleF64I x) .once
    (fun v => .flt (fScale (fctxK x.t v.ctl) (fsrc x.t v.a) x.imm.toInt)) s

/-- FSCALE on FP64, long constant (R182). -/
def execFscaleF64L (x : FL) (s : State) : Res :=
  laneOp (.fscaleF64L x) .once
    (fun v => .flt (fScale (fctxK x.t v.ctl) (fsrc x.t v.a) (readI .s32 x.k.toNat))) s

/-- FDIV on FP64 (R183). -/
def execFdivF64 (x : FBin) (s : State) : Res :=
  laneOp (.fdivF64 x) .once
    (fun v => .flt (fDiv (fctx x.t x.rm x.ftz x.sgn v.ctl) (fsrc x.t v.a) (fsrc x.t v.b))) s

/-- FSQRT on FP64 (R183). -/
def execFsqrtF64 (x : FUn) (s : State) : Res :=
  laneOp (.fsqrtF64 x) .once
    (fun v => .flt (fSqrt (fctx x.t x.rm x.ftz x.sgn v.ctl) (fsrc x.t v.a))) s

/-- FRCP on FP64 (R183). -/
def execFrcpF64 (x : FUn) (s : State) : Res :=
  laneOp (.frcpF64 x) .once
    (fun v => .flt (fRcp (fctx x.t x.rm x.ftz x.sgn v.ctl) (fsrc x.t v.a))) s

/-- HADD2 (R185). -/
def execHadd2 (x : FBin) (s : State) : Res :=
  laneOp (.hadd2 x) .once
    (fun v => .flt (packed2 fun i => fAdd (fctx x.t x.rm x.ftz x.sgn v.ctl) (half16 v.a i) (half16 v.b i))) s

/-- HMUL2 (R185). -/
def execHmul2 (x : FBin) (s : State) : Res :=
  laneOp (.hmul2 x) .once
    (fun v => .flt (packed2 fun i => fMul (fctx x.t x.rm x.ftz x.sgn v.ctl) (half16 v.a i) (half16 v.b i))) s

/-- HFMA2 (R185). -/
def execHfma2 (x : FTern) (s : State) : Res :=
  laneOp (.hfma2 x) .once
    (fun v => .flt (packed2 fun i => fFma (fctx x.t x.rm x.ftz x.sgn v.ctl) (half16 v.a i) (half16 v.b i) (half16 v.c i))) s

/-- DOT2 (R186). -/
def execDot2 (x : Dot2) (s : State) : Res :=
  laneOp (.dot2 x) .once
    (fun v => 
      let ftz := v.ctl.getLsbD 4 || x.ftz
      .flt (fDot x.t x.t 2 x.rm ftz ftz v.a v.b (low 32 v.c))) s

/-- DOT4 (R187). -/
def execDot4 (x : Dot4) (s : State) : Res :=
  laneOp (.dot4 x) .once
    (fun v => .flt (fDot x.ta (x.tb.getD x.ta) 4 x.rm false (v.ctl.getLsbD 4 || x.ftz) v.a v.b (low 32 v.c))) s

end Sys2Proof.Machine
end

