-- ==== Sys2Proof/Machine/Int.lean ====
section
/-!
DEFINITION. Integer arithmetic (R140 to R144): one meaning per instruction, over the operations of
Operands.lean and the common frame of Issue.lean.
-/
namespace Sys2Proof

/-- An I-form constant of group 0 as a raw operand (Table 3.5). -/
def IntI.k (x : IntI) : Nat := x.sz.widen x.imm
/-- An I-form constant of ICMP. -/
def CmpI.k (x : CmpI) : Nat := x.sz.widen x.imm

end Sys2Proof

namespace Sys2Proof.Machine
open Sys2Proof

/-- The types whose instructions may keep an affine shape (R139). -/
def affineTy (t : ITy) : Bool := [ITy.s32, .n32, .s64, .n64, .b32, .b64].contains t

/-- A-preserving rows of two sources (Table 1.4): IADD, ISUB. -/
def affine2 (t : ITy) (sat : Bool) (f : W64 → W64 → W64) : SpanRule :=
  if affineTy t && !sat then
    .affine fun _ _ l => match l with
      | [a, b] => some (Form.zip f (a.readAs t) (b.readAs t))
      | _ => none
  else .once

/-- A-preserving rows of one source and a constant on the right. -/
def affineK (t : ITy) (k : Nat) (f : W64 → W64 → W64) : SpanRule :=
  if affineTy t then
    .affine fun _ _ l => match l with
      | [a] => some (Form.zip f (a.readAs t) (Form.readAs t (.u (BitVec.ofNat 64 k))))
      | _ => none
  else .once

/-- A product of forms, at most one of shape A. -/
def formMul (t : ITy) (a b : Form) : Option Form :=
  match a.readAs t, b.readAs t with
  | .u x, .u y => some (.u (x * y))
  | .u x, f => some (f.scale x)
  | f, .u y => some (f.scale y)
  | _, _ => none

/-- IMUL in a span. -/
def affineMul (t : ITy) (sat : Bool) : SpanRule :=
  if affineTy t && !sat then
    .affine fun _ _ l => match l with
      | [a, b] => formMul t a b
      | _ => none
  else .once

/-- IMUL by a constant in a span. -/
def affineMulK (t : ITy) (k : Nat) : SpanRule :=
  if affineTy t then
    .affine fun _ _ l => match l with
      | [a] => formMul t a (.u (BitVec.ofNat 64 k))
      | _ => none
  else .once

/-- IMAD in a span. -/
def affineMad (t : ITy) (sat : Bool) : SpanRule :=
  if affineTy t && !sat then
    .affine fun _ _ l => match l with
      | [a, b, c] => (formMul t a b).map fun p => Form.zip (· + ·) p (c.readAs t)
      | _ => none
  else .once

/-- ICMP in a span (R22). -/
def cmpAct (t : ITy) (rel : Rel) (k : Option Nat) (u : Use) (g : Grid) (s : State) (sp : Span) : SpanAct :=
  match sp.sources u with
  | none => .peel
  | some src =>
    let forms := src.map Prod.fst ++ (match k with
      | none => []
      | some k => [Form.u (BitVec.ofNat 64 k)])
    let stale := src.any fun v => v.2
    if stale && sp.strictReg || (forms.any (fun f => f.isA) && !affineTy t) then .peel
    else
      match forms, u.pw with
      | [a, b], [pd] =>
        let p :=
          if a.isA || b.isA then formCmp t rel (g.width sp.box) a b
          else some (.u (opCmp t rel a.base.toNat b.base.toNat))
        (match p with
         | none => .peel
         | some p => .done s { preds := [(pd, p)], stale := stale } .result none)
      | _, _ => .peel

/-- ICMP of any form: a lane-wise comparison, and R22 in a span. -/
def cmpOp (i : Instr) (t : ITy) (rel : Rel) (k : Option Nat) (s : State) : Res :=
  issue i false false
    (fun u s e p =>
      .done s (e.wave.lanewise e.sub.depth e.sub.mask p u fun v => .bit (opCmp t rel v.a (k.getD v.b))) .result none)
    (fun u _ g s sp => cmpAct t rel k u g s sp) s


/-- IADD (R140). -/
def execIadd (x : Int2) (s : State) : Res :=
  laneOp (.iadd x) (affine2 x.t x.sat (· + ·))
    (fun v => .val (opAdd x.t x.sat v.a v.b)) s

/-- IADD, immediate (R140). -/
def execIaddI (x : IntI) (s : State) : Res :=
  laneOp (.iaddI x) (affineK x.sz.ty (x.k) (· + ·))
    (fun v => .val (opAdd x.sz.ty false v.a x.k)) s

/-- IADD, long constant (R140). -/
def execIaddL (x : IntL) (s : State) : Res :=
  laneOp (.iaddL x) (affineK x.sz.ty (x.k.toNat) (· + ·))
    (fun v => .val (opAdd x.sz.ty false v.a x.k.toNat)) s

/-- ISUB (R140). -/
def execIsub (x : Int2) (s : State) : Res :=
  laneOp (.isub x) (affine2 x.t x.sat (· - ·))
    (fun v => .val (opSub x.t x.sat v.a v.b)) s

/-- ISUB, immediate (R140). -/
def execIsubI (x : IntI) (s : State) : Res :=
  laneOp (.isubI x) (affineK x.sz.ty (x.k) (· - ·))
    (fun v => .val (opSub x.sz.ty false v.a x.k)) s

/-- ISUB, long constant (R140). -/
def execIsubL (x : IntL) (s : State) : Res :=
  laneOp (.isubL x) (affineK x.sz.ty (x.k.toNat) (· - ·))
    (fun v => .val (opSub x.sz.ty false v.a x.k.toNat)) s

/-- IADDC (R143). -/
def execIaddc (x : Addc) (s : State) : Res :=
  laneOp (.iaddc x) .once
    (fun v => 
      let r := opAddc x.t v.a v.b (v.p 0)
      { vals := [r.1], bits := [r.2] }) s

/-- INEG (R140). -/
def execIneg (x : Int1) (s : State) : Res :=
  laneOp (.ineg x) (if affineTy x.t && !x.sat then .affine fun _ _ l => match l with
      | [a] => some (Form.scale (-1) (a.readAs x.t))
      | _ => none
    else .once)
    (fun v => .val (opNeg x.t x.sat v.a)) s

/-- IABS (R140). -/
def execIabs (x : Int1) (s : State) : Res :=
  laneOp (.iabs x) .once
    (fun v => .val (opAbs x.t x.sat v.a)) s

/-- IMUL (R140). -/
def execImul (x : Int2) (s : State) : Res :=
  laneOp (.imul x) (affineMul x.t x.sat)
    (fun v => .val (opMul x.t x.sat v.a v.b)) s

/-- IMUL, immediate (R140). -/
def execImulI (x : IntI) (s : State) : Res :=
  laneOp (.imulI x) (affineMulK x.sz.ty x.k)
    (fun v => .val (opMul x.sz.ty false v.a x.k)) s

/-- IMUL, long constant (R140). -/
def execImulL (x : IntL) (s : State) : Res :=
  laneOp (.imulL x) (affineMulK x.sz.ty x.k.toNat)
    (fun v => .val (opMul x.sz.ty false v.a x.k.toNat)) s

/-- IMULH (R140). -/
def execImulh (x : Bin) (s : State) : Res :=
  laneOp (.imulh x) .once
    (fun v => .val (opMulh x.t v.a v.b)) s

/-- IMULH, immediate (R140). -/
def execImulhI (x : IntI) (s : State) : Res :=
  laneOp (.imulhI x) .once
    (fun v => .val (opMulh x.sz.ty v.a x.k)) s

/-- IMULH, long constant (R140). -/
def execImulhL (x : IntL) (s : State) : Res :=
  laneOp (.imulhL x) .once
    (fun v => .val (opMulh x.sz.ty v.a x.k.toNat)) s

/-- IMAD (R140). -/
def execImad (x : Int3) (s : State) : Res :=
  laneOp (.imad x) (affineMad x.t x.sat)
    (fun v => .val (opMad x.t x.sat v.a v.b v.c)) s

/-- IMADW (R140). -/
def execImadw (x : Tern) (s : State) : Res :=
  laneOp (.imadw x) .once
    (fun v => .val (opMadw x.t v.a v.b v.c)) s

/-- IDIV (R142). -/
def execIdiv (x : Bin) (s : State) : Res :=
  laneOp (.idiv x) .once
    (fun v => 
      let r := opDivRem x.t false v.a v.b
      { vals := [r.1], divz := r.2 }) s

/-- IDIV, immediate (R142). -/
def execIdivI (x : IntI) (s : State) : Res :=
  laneOp (.idivI x) .once
    (fun v => 
      let r := opDivRem x.sz.ty false v.a x.k
      { vals := [r.1], divz := r.2 }) s

/-- IDIV, long constant (R142). -/
def execIdivL (x : IntL) (s : State) : Res :=
  laneOp (.idivL x) .once
    (fun v => 
      let r := opDivRem x.sz.ty false v.a x.k.toNat
      { vals := [r.1], divz := r.2 }) s

/-- IREM (R142). -/
def execIrem (x : Bin) (s : State) : Res :=
  laneOp (.irem x) .once
    (fun v => 
      let r := opDivRem x.t true v.a v.b
      { vals := [r.1], divz := r.2 }) s

/-- IREM, immediate (R142). -/
def execIremI (x : IntI) (s : State) : Res :=
  laneOp (.iremI x) .once
    (fun v => 
      let r := opDivRem x.sz.ty true v.a x.k
      { vals := [r.1], divz := r.2 }) s

/-- IREM, long constant (R142). -/
def execIremL (x : IntL) (s : State) : Res :=
  laneOp (.iremL x) .once
    (fun v => 
      let r := opDivRem x.sz.ty true v.a x.k.toNat
      { vals := [r.1], divz := r.2 }) s

/-- IMIN (R140). -/
def execImin (x : Bin) (s : State) : Res :=
  laneOp (.imin x) .once
    (fun v => .val (opMin x.t v.a v.b)) s

/-- IMIN, immediate (R140). -/
def execIminI (x : IntI) (s : State) : Res :=
  laneOp (.iminI x) .once
    (fun v => .val (opMin x.sz.ty v.a x.k)) s

/-- IMIN, long constant (R140). -/
def execIminL (x : IntL) (s : State) : Res :=
  laneOp (.iminL x) .once
    (fun v => .val (opMin x.sz.ty v.a x.k.toNat)) s

/-- IMAX (R140). -/
def execImax (x : Bin) (s : State) : Res :=
  laneOp (.imax x) .once
    (fun v => .val (opMax x.t v.a v.b)) s

/-- IMAX, immediate (R140). -/
def execImaxI (x : IntI) (s : State) : Res :=
  laneOp (.imaxI x) .once
    (fun v => .val (opMax x.sz.ty v.a x.k)) s

/-- IMAX, long constant (R140). -/
def execImaxL (x : IntL) (s : State) : Res :=
  laneOp (.imaxL x) .once
    (fun v => .val (opMax x.sz.ty v.a x.k.toNat)) s

/-- ICLAMP (R140). -/
def execIclamp (x : Tern) (s : State) : Res :=
  laneOp (.iclamp x) .once
    (fun v => .val (opClamp x.t v.a v.b v.c)) s

/-- ICMP (R144). -/
def execIcmp (x : Cmp) (s : State) : Res := cmpOp (.icmp x) x.t x.rel none s

/-- ICMP, immediate (R144). -/
def execIcmpI (x : CmpI) (s : State) : Res := cmpOp (.icmpI x) x.sz.ty x.rel (some x.k) s

/-- ICMP, long constant (R144). -/
def execIcmpL (x : CmpL) (s : State) : Res := cmpOp (.icmpL x) x.sz.ty x.rel (some x.k.toNat) s

end Sys2Proof.Machine
end

