-- ==== Sys2Proof/Machine/Lanes.lean ====
section
/-!
DEFINITION. Conversion (R188 to R190), lane operations (R196 to R204) and blocks in registers (R191 to
R195).
-/
namespace Sys2Proof.Machine
open Sys2Proof

/-! ## CVT -/

/-- CVT of one source with the random bits `r` (R190). -/
def cvtLane (x : Cvt) (ctl : W64) (a r : Nat) : LaneOut :=
  let ctlFtz := ctl.getLsbD 4
  let src := match x.ts with
    | .flt t => nval x.ts (ftzFor t ctlFtz x.ftz) a
    | .int _ => nval x.ts false a
  match x.td with
  | .int t =>
    let y := cvtInt t x.rm src
    { vals := [writeI t false y.1], fl := y.2 }
  | .flt t =>
    let o := LaneOut.flt (deliver t x.rm x.ovf (ftzFor t ctlFtz x.ftz) r src)
    { o with draws := if x.rm = .sr then 1 else 0 }

/-- CVT (R190). Under SR it peels a span (R125); a uniform result under SR takes the draw of a participant that
the manual does not name. -/
def execCvt (x : Cvt) (s : State) : Res :=
  issue (.cvt x) (decide (x.rm = .sr)) false
    (fun u s e p =>
      let q := ((lanesIn p)[Config.freeNat s.fresh % laneCount p]?).getD 0
      let f (v : LaneIn) : LaneOut := cvtLane x v.ctl v.a (if x.d.uni then e.wave.draw q 0 else v.draw 0)
      .done s (e.wave.lanewise e.sub.depth e.sub.mask p u f) .result none)
    (fun u _ g s sp => Span.lanewise s sp g u .once fun v => cvtLane x v.ctl v.a 0) s

/-! ## Lane operations -/

/-- LXCH of a segment and mode with a selector per lane: raw and signed (R199). -/
def lxchRes (u : Use) (p : Lanes) (wide : Bool) (mode : XMode) (seg : Nat) (src : Nat → Nat) (sel : Nat → Nat × Int) :
    LaneRes :=
  let pick (i : Nat) : Nat :=
    match lxchLane mode seg i (sel i).1 (sel i).2 with
    | some q => if p.getLsbD q then src q else src i
    | none => src i
  { regs := u.wr.map fun r => (r, p, fun i => low (if wide then 64 else 32) (pick i)) }

/-- LXCH (R199). -/
def execLxch (x : Lxch) (s : State) : Res :=
  groupOp (.lxch x) (fun u _ p v =>
    lxchRes u p x.wide x.mode x.seg.val (fun i => (v i).a) fun i => (low 32 (v i).b, readI .s32 (v i).b)) s

/-- LXCH, immediate selector (R198, R199). -/
def execLxchI (x : LxchI) (s : State) : Res :=
  groupOp (.lxchI x) (fun u _ p v =>
    lxchRes u p x.wide x.mode x.seg.val (fun i => (v i).a) fun _ => (x.sel.toNat, x.sel.toInt)) s

/-- VOTE (R200). -/
def execVote (x : Vote) (s : State) : Res :=
  groupOp (.vote x) (fun u _ p v =>
    let set := lanesOf fun i => p.getLsbD i && (v i).p 0
    let r := match x.mode with
      | .any => set != 0
      | .all => set == p
      | .same => set == 0 || set == p
      | .none => set == 0
    { preds := u.pw.map fun q => (q, p, if r then 0xFFFF else 0) }) s

/-- BALLOT (R200). -/
def execBallot (x : Ballot) (s : State) : Res :=
  groupOp (.ballot x) (fun u _ p v =>
    let set := lanesOf fun i => p.getLsbD i && (v i).p 0
    { regs := u.wr.map fun r => (r, p, fun _ => set.toNat) }) s

/-- A source of REDUX or SCAN as a value of its type. -/
def normN (t : NTy) (a : Nat) : Nat :=
  match t with
  | .int t => writeI t false (readI t a)
  | .flt t => fsrc t a

/-- REDUX over the participants' values: the butterfly of R202. -/
def reduce (op : RedOp) (t : NTy) (ftz : Bool) (x : List (Option Nat)) : Nat × FFlags :=
  let r := [8, 4, 2, 1].foldl (fun (acc : List (Option Nat) × FFlags) d =>
    let y := butterfly (redStep op t ftz) d acc.1
    (y.1, acc.2 ||| y.2)) (x, 0)
  ((r.1.headD none).getD 0, r.2)

/-- REDUX (R202). -/
def execRedux (x : Redux) (s : State) : Res :=
  groupOp (.redux x) (fun u ctl p v =>
    let l := laneList.map fun i => if p.getLsbD i then some (normN x.t (v i).a) else none
    let r := reduce x.op x.t (ctl.getLsbD 4) l
    LaneRes.grouped { regs := u.wr.map fun d => (d, p, fun _ => r.1), fl := r.2 } ctl p false) s

/-- Inclusive results of a fold and the flags of each combination (R203). -/
def foldSteps (f : Nat → Nat → Nat × FFlags) : Nat → List Nat → List (Nat × FFlags)
  | _, [] => []
  | acc, x :: r =>
    let y := f acc x
    y :: foldSteps f y.1 r

/-- SCAN over the participants' values in ascending lane order: a result per position, and the flags of the
results delivered (R203). -/
def scanList (op : RedOp) (t : NTy) (ftz exc : Bool) (x : List Nat) : List Nat × FFlags :=
  match x with
  | [] => ([], 0)
  | a :: r =>
    let rest := foldSteps (redStep op t ftz) a (if exc then r.dropLast else r)
    let vals := a :: rest.map Prod.fst
    let fl := rest.foldl (fun fl y => fl ||| y.2) 0
    if exc then (redIdentity op t :: (if r.isEmpty then [] else vals), fl) else (vals, fl)

/-- SCAN (R203). -/
def execScan (x : ScanOp) (s : State) : Res :=
  groupOp (.scan x) (fun u ctl p v =>
    let ls := lanesIn p
    let r := scanList x.op x.t (ctl.getLsbD 4) x.exc (ls.map fun i => normN x.t (v i).a)
    let val (i : Nat) : Nat := (r.1[ls.idxOf i]?).getD 0
    LaneRes.grouped { regs := u.wr.map fun d => (d, p, val), fl := r.2 } ctl p false) s

/-- MATCH (R204). -/
def execMatchOp (x : MatchOp) (s : State) : Res :=
  groupOp (.matchOp x) (fun u _ p v =>
    let val (i : Nat) : Nat := low (if x.wide then 64 else 32) (v i).a
    let peers (i : Nat) : Nat := (lanesOf fun k => p.getLsbD k && val k == val i).toNat
    let r (i : Nat) : Nat :=
      if x.unif then (if (lanesIn p).all fun k => val k == val (lowLane p) then p.toNat else 0) else peers i
    { regs := u.wr.map fun d => (d, p, r) }) s

/-! ## Blocks -/

/-- AMAX (R194). In a span, a uniform source gives its magnitude (R195). -/
def execAmax (x : Amax) (s : State) : Res :=
  issue (.amax x) false false
    (fun u s e p =>
      .done s (e.wave.together e.sub.depth e.sub.mask p u fun v =>
        let r := opAmax x.t x.prop ((lanesIn p).map fun i => fsrc x.t (v i).a)
        { regs := u.wr.map fun d => (d, p, fun _ => r) }) .tracked none)
    (fun u _ g s sp => Span.lanewise s sp g u .once fun v => .val (opAmax x.t x.prop [fsrc x.t v.a])) s

/-- Registers of the element group that QBLK reads under a format code (R191, R192). -/
def groupRegs (c : Nat) : Nat :=
  match blkCount c with
  | some 62 => 4
  | some 124 => 8
  | _ => 0

/-- What QBLK names: the registers of the group that its format code calls for. -/
def qblkNames (x : Qblk) (u : Use) (e : Ex) : Use :=
  let c := low 8 (e.wave.uget e.sub.depth x.c.idx.val e.sub.mask).1.toNat
  { u with rd := [x.b.ref, x.c.ref, { x.a.ref 8 with n := if x.rm = .sr ∧ c = 4 then 0 else groupRegs c }] }

/-- One block from the elements of the participants (R192): its 64 bytes and the union of flags. -/
def quantBlock (x : Qblk) (ftz : Bool) (c s : Nat) (p : Lanes) (elem draw : Nat → Nat → Nat) : FRes :=
  let n := (blkCount c).getD 0
  (List.range n).foldl (fun (acc : FRes) j =>
    let i := j % 16
    let g := j / 16
    let e := if p.getLsbD i then elem i g else 0
    let r := if s = 255 then fres 0 0
      else quantElem c s x.rm x.ovf (if p.getLsbD i then draw i g else 0) (fdec .f32 (flushSrc .f32 ftz e))
    ⟨acc.bits + r.bits * 2 ^ (16 + blkBits c * j), acc.fl ||| r.fl, acc.ovTrap || r.ovTrap⟩)
    ⟨c + s * 256, 0, false⟩

/-- The block of the participants of QBLK, whose lane inputs are `v` (R192). -/
def qblkBlock (x : Qblk) (e : Ex) (p : Lanes) (v : Nat → LaneIn) : FRes :=
  quantBlock x e.wave.ftz (low 8 (v (lowLane p)).b) (low 8 (v (lowLane p)).a) p (fun i g => low 32 ((v i).c / 2 ^ (32 * g)))
    fun i g => e.wave.draw i g

/-- What QBLK does to its wave (R192). -/
def qblkRes (x : Qblk) (e : Ex) (u : Use) (p : Lanes) (v : Nat → LaneIn) : LaneRes :=
  let c := low 8 (v (lowLane p)).b
  let sc := low 8 (v (lowLane p)).a
  if c = 0 then { regs := u.wr.map fun d => (d, p, fun _ => 0) }
  else if c > 6 then { traps := allLanes p { cause := cBlockFormat } }
  else if x.rm = .sr ∧ c = 4 then { traps := allLanes p { cause := cBlockFormat, sub := 2 } }
  else
    let blk := qblkBlock x e p v
    let count (i : Nat) : Nat := ((List.range ((blkCount c).getD 0)).filter fun j => j % 16 == i).length
    LaneRes.grouped
      { regs := u.wr.map fun d => (d, p, fun i => low 32 (blk.bits / 2 ^ (32 * i)))
        fl := blk.fl
        draws := if x.rm = .sr ∧ sc ≠ 255 then (lanesIn p).map fun i => (i, count i) else [] } e.wave.ctl p blk.ovTrap

/-- QBLK (R192). -/
def execQblk (x : Qblk) (s : State) : Res :=
  issueNaming (.qblk x) (fun _ => qblkNames x) true false
    (fun u s e p => .done s (e.wave.together e.sub.depth e.sub.mask p u (qblkRes x e u p)) .tracked none)
    (fun _ _ _ _ _ => .peel) s

/-- The 64 bytes of a block in a vector register (R191), whatever the mask (R193). -/
def blockOf (w : Wave) (depth r : Nat) : Nat :=
  laneList.foldl (fun acc i => acc + (w.vget depth r i).1.toNat * 2 ^ (32 * i)) 0

/-- The element of QUNPK at slot `j` of the group; a product above the range is infinite in every rounding mode (R193). -/
def unpackElem (rm : RM) (ftz : Bool) (blk j : Nat) : FRes :=
  let c := blk % 256
  let s := blk / 256 % 256
  if c = 0 ∨ (blkCount c).getD 0 ≤ j then fres 0 0
  else if s = 255 then fres (canonNaN .f32) 0
  else
    let r := deliver .f32 rm .inf ftz 0 (vscale ((s : Int) - 127) (blkVal c (blkElem blk c j)))
    if r.fl &&& fOF = 0 then r else { r with bits := infBits .f32 (signOf .f32 r.bits) }

/-- The eight elements that lane `i` receives (R193). -/
def unpackVal (rm : RM) (ftz : Bool) (blk i : Nat) : Nat :=
  (List.range 8).foldl (fun acc g => acc + (unpackElem rm ftz blk (16 * g + i)).bits * 2 ^ (32 * g)) 0

/-- The flags of all elements (R193). -/
def unpackFlags (rm : RM) (ftz : Bool) (blk : Nat) : FFlags :=
  (List.range 128).foldl (fun fl j => fl ||| (unpackElem rm ftz blk j).fl) 0

/-- QUNPK (R193): the source is read in all sixteen lanes. -/
def execQunpk (x : Qunpk) (s : State) : Res :=
  issue (.qunpk x) true false
    (fun u s e p =>
      let w := e.wave
      let gone := laneList.any fun i => (w.vget e.sub.depth x.a.idx.val i).2
      let r : LaneRes :=
        if p = 0 then {}
        else if gone && w.strictReg then { traps := allLanes p { cause := cRegStale } }
        else
          let blk := blockOf w e.sub.depth x.a.idx.val
          if blk % 256 > 6 then { traps := allLanes p { cause := cBlockFormat }, stale := gone }
          else
            LaneRes.grouped
              { regs := u.wr.map fun d => (d, p, unpackVal x.rm w.ftz blk)
                fl := unpackFlags x.rm w.ftz blk
                stale := gone } w.ctl p false
      .done s r .tracked none)
    (fun _ _ _ _ _ => .peel) s

end Sys2Proof.Machine
end

