-- ==== Sys2Proof/Machine/Logic.lean ====
section
/-!
DEFINITION. Logic, shifts and bit fields (R145 to R150), addresses, moves and predicates (R151 to R156),
and SHAPE (R171).
-/
namespace Sys2Proof.Machine
open Sys2Proof

/-- SHL in a span: a value A and a count U (Table 1.4, R146). -/
def affineShl (t : ITy) (k : Option Nat) : SpanRule :=
  if affineTy t then
    .affine fun _ _ l =>
      let go (a b : Form) : Option Form :=
        match b with
        | .u n =>
          let n := shCount n.toNat
          some (if n < t.width then (a.readAs t).scale (BitVec.ofNat 64 (2 ^ n)) else Form.scale 0 a)
        | .a _ _ _ _ => none
      match l, k with
      | [a, b], none => go a b
      | [a], some k => go a (.u (BitVec.ofNat 64 k))
      | _, _ => none
  else .once

/-- LEA in a span: `b` is widened to 64 bits, which an A value of 32 bits admits only where every item's value
lies in the type's range (Table 1.4, R22). -/
def affineLea (t : ITy) (sh : Nat) (k : Option Nat) : SpanRule :=
  .affine fun sp g l =>
    let go (a b : Form) : Option Form :=
      if b.isA && decide (t.width = 32) && !b.inRange t (g.width sp.box) then none
      else some (Form.zip (· + ·) a ((b.readAs t).scale (BitVec.ofNat 64 (2 ^ sh))))
    match l, k with
    | [a, b], none => go a b
    | [a], some k => go a (.u (BitVec.ofNat 64 k))
    | _, _ => none

/-- SEL in a span: the shape of the value selected, by a U predicate (Table 1.4). -/
def affineSel (p : Nat) : SpanRule :=
  .affine fun sp _ l =>
    match sp.pget p, l with
    | .u c, [a, b] => some (if c then a else b)
    | _, _ => none


/-- AND (R145). -/
def execAnd (x : Bin) (s : State) : Res :=
  laneOp (.and x) .once
    (fun v => .val (opAnd x.t v.a v.b)) s

/-- AND, immediate (R145). -/
def execAndI (x : IntI) (s : State) : Res :=
  laneOp (.andI x) .once
    (fun v => .val (opAnd x.sz.bty v.a x.k)) s

/-- AND, long constant (R145). -/
def execAndL (x : IntL) (s : State) : Res :=
  laneOp (.andL x) .once
    (fun v => .val (opAnd x.sz.bty v.a x.k.toNat)) s

/-- OR (R145). -/
def execOr (x : Bin) (s : State) : Res :=
  laneOp (.or x) .once
    (fun v => .val (opOr x.t v.a v.b)) s

/-- OR, immediate (R145). -/
def execOrI (x : IntI) (s : State) : Res :=
  laneOp (.orI x) .once
    (fun v => .val (opOr x.sz.bty v.a x.k)) s

/-- OR, long constant (R145). -/
def execOrL (x : IntL) (s : State) : Res :=
  laneOp (.orL x) .once
    (fun v => .val (opOr x.sz.bty v.a x.k.toNat)) s

/-- XOR (R145). -/
def execXor (x : Bin) (s : State) : Res :=
  laneOp (.xor x) .once
    (fun v => .val (opXor x.t v.a v.b)) s

/-- XOR, immediate (R145). -/
def execXorI (x : IntI) (s : State) : Res :=
  laneOp (.xorI x) .once
    (fun v => .val (opXor x.sz.bty v.a x.k)) s

/-- XOR, long constant (R145). -/
def execXorL (x : IntL) (s : State) : Res :=
  laneOp (.xorL x) .once
    (fun v => .val (opXor x.sz.bty v.a x.k.toNat)) s

/-- NOT (R145). -/
def execNot (x : Un) (s : State) : Res :=
  laneOp (.not x) .once
    (fun v => .val (opNot x.t v.a)) s

/-- LOGT (R147). -/
def execLogt (x : Logt) (s : State) : Res :=
  laneOp (.logt x) .once
    (fun v => .val (opLogt (if x.wide then 64 else 32) x.table.toNat v.a v.b v.c)) s

/-- SHL (R146). -/
def execShl (x : Bin) (s : State) : Res :=
  laneOp (.shl x) (affineShl x.t none)
    (fun v => .val (opShl x.t v.a v.b)) s

/-- SHL, immediate (R146). -/
def execShlI (x : IntI) (s : State) : Res :=
  laneOp (.shlI x) (affineShl x.sz.bty (some x.k))
    (fun v => .val (opShl x.sz.bty v.a x.k)) s

/-- SHL, long constant (R146). -/
def execShlL (x : IntL) (s : State) : Res :=
  laneOp (.shlL x) (affineShl x.sz.bty (some (x.k.toNat)))
    (fun v => .val (opShl x.sz.bty v.a x.k.toNat)) s

/-- SHR (R146). -/
def execShr (x : Bin) (s : State) : Res :=
  laneOp (.shr x) .once
    (fun v => .val (opShr x.t v.a v.b)) s

/-- SHR, immediate (R146). -/
def execShrI (x : IntI) (s : State) : Res :=
  laneOp (.shrI x) .once
    (fun v => .val (opShr x.sz.bty v.a x.k)) s

/-- SHR, long constant (R146). -/
def execShrL (x : IntL) (s : State) : Res :=
  laneOp (.shrL x) .once
    (fun v => .val (opShr x.sz.bty v.a x.k.toNat)) s

/-- SAR (R146). -/
def execSar (x : Bin) (s : State) : Res :=
  laneOp (.sar x) .once
    (fun v => .val (opSar x.t v.a v.b)) s

/-- SAR, immediate (R146). -/
def execSarI (x : IntI) (s : State) : Res :=
  laneOp (.sarI x) .once
    (fun v => .val (opSar x.sz.bty v.a x.k)) s

/-- SAR, long constant (R146). -/
def execSarL (x : IntL) (s : State) : Res :=
  laneOp (.sarL x) .once
    (fun v => .val (opSar x.sz.bty v.a x.k.toNat)) s

/-- ROL (R146). -/
def execRol (x : Bin) (s : State) : Res :=
  laneOp (.rol x) .once
    (fun v => .val (opRol x.t v.a v.b)) s

/-- ROL, immediate (R146). -/
def execRolI (x : IntI) (s : State) : Res :=
  laneOp (.rolI x) .once
    (fun v => .val (opRol x.sz.bty v.a x.k)) s

/-- ROL, long constant (R146). -/
def execRolL (x : IntL) (s : State) : Res :=
  laneOp (.rolL x) .once
    (fun v => .val (opRol x.sz.bty v.a x.k.toNat)) s

/-- FSHL (R146). -/
def execFshl (x : Tern) (s : State) : Res :=
  laneOp (.fshl x) .once
    (fun v => .val (opFshl x.t v.a v.b v.c)) s

/-- POPC (R148). -/
def execPopc (x : Un) (s : State) : Res :=
  laneOp (.popc x) .once
    (fun v => .val (opPopc x.t v.a)) s

/-- CLZ (R148). -/
def execClz (x : Un) (s : State) : Res :=
  laneOp (.clz x) .once
    (fun v => .val (opClz x.t v.a)) s

/-- CTZ (R148). -/
def execCtz (x : Un) (s : State) : Res :=
  laneOp (.ctz x) .once
    (fun v => .val (opCtz x.t v.a)) s

/-- BREV (R145). -/
def execBrev (x : Un) (s : State) : Res :=
  laneOp (.brev x) .once
    (fun v => .val (opBrev x.t v.a)) s

/-- BFX (R149). -/
def execBfx (x : Bin) (s : State) : Res :=
  laneOp (.bfx x) .once
    (fun v => .val (opBfx x.t v.a v.b)) s

/-- BFX, immediate (R149). -/
def execBfxI (x : IntI) (s : State) : Res :=
  laneOp (.bfxI x) .once
    (fun v => .val (opBfx x.sz.ty v.a x.imm.toNat)) s

/-- BFX, long constant (R149). -/
def execBfxL (x : IntL) (s : State) : Res :=
  laneOp (.bfxL x) .once
    (fun v => .val (opBfx x.sz.ty v.a x.k.toNat)) s

/-- BFI (R149). -/
def execBfi (x : Tern) (s : State) : Res :=
  laneOp (.bfi x) .once
    (fun v => .val (opBfi x.t v.a v.b v.c)) s

/-- BYSEL (R150). -/
def execBysel (x : Bysel) (s : State) : Res :=
  laneOp (.bysel x) .once
    (fun v => .val (opBysel v.a v.b v.c)) s

/-- BYSEL, immediate (R150): y4 to y7 read 0. -/
def execByselI (x : ByselI) (s : State) : Res :=
  laneOp (.byselI x) .once
    (fun v => .val (opBysel v.a 0 x.imm.toNat)) s

/-- BYSEL, long constant (R150): y4 to y7 read 0. -/
def execByselL (x : ByselL) (s : State) : Res :=
  laneOp (.byselL x) .once
    (fun v => .val (opBysel v.a 0 x.k.toNat)) s

/-- LEA (R152). -/
def execLea (x : Lea) (s : State) : Res :=
  laneOp (.lea x) (affineLea x.t x.sh.val none)
    (fun v => .val (opLea x.t x.sh.val v.a v.b)) s

/-- LEA, immediate (R152). -/
def execLeaI (x : IntI) (s : State) : Res :=
  laneOp (.leaI x) (affineLea x.sz.ty 0 (some x.k))
    (fun v => .val (opLea x.sz.ty 0 v.a x.k)) s

/-- LEA, long constant (R152). -/
def execLeaL (x : IntL) (s : State) : Res :=
  laneOp (.leaL x) (affineLea x.sz.ty 0 (some x.k.toNat))
    (fun v => .val (opLea x.sz.ty 0 v.a x.k.toNat)) s

/-- MOV (R153). -/
def execMov (x : Un) (s : State) : Res :=
  laneOp (.mov x) (.affine fun _ _ l => l.head?)
    (fun v => .val (low x.t.width v.a)) s

/-- MOVI: MOV, immediate (R153). -/
def execMovi (x : MovI) (s : State) : Res :=
  laneOp (.movi x) .once
    (fun _ => .val (low x.sz.bty.width (x.sz.widen x.imm))) s

/-- MOVL: MOV, long constant (R153). -/
def execMovl (x : MovL) (s : State) : Res :=
  laneOp (.movl x) .once
    (fun _ => .val (low x.sz.bty.width x.k.toNat)) s

/-- SEL (R154). -/
def execSel (x : SelOp) (s : State) : Res :=
  laneOp (.sel x) (affineSel x.p.val)
    (fun v => .val (low x.t.width (if v.p 0 then v.a else v.b))) s

/-- PLOP (R155). -/
def execPlop (x : Plop) (s : State) : Res :=
  laneOp (.plop x) .once
    (fun v => .bit (opPlop x.table.toNat (v.p 0) (v.p 1) (v.p 2))) s
/-- %gang of the issuing wave, at most `widest`: 1, or by the device's choice 2 or 4 where as many waves of the team stand at the
same instruction of the same clause with all sixteen lanes active, the waves that R355 names (R39). -/
def Ex.gang (e : Ex) (widest fresh : Nat) : Nat :=
  let fit (w : Nat) : Bool :=
    match e.team.waves.get? w with
    | none => false
    | some wv =>
      wv.subs.any fun p =>
        p.2.mask == 0xFFFF && p.2.clause == e.sub.clause && p.2.slot == e.sub.slot && p.2.park.isNone
  let mate := if e.w / 2 % 2 = 0 then e.w + 2 else e.w - 2
  let base := e.w - e.w % 4
  let four := decide (4 ≤ widest) && (List.range 4).all fun j => fit (base + j)
  let two := decide (2 ≤ widest) && fit e.w && fit mate
  let c := Config.freeNat fresh % 3
  if four && c = 2 then 4 else if two && c = 1 then 2 else 1

/-- A special register in lane `i` (Table 2.2, R15). -/
def specialReg (g : Grid) (e : Ex) (gang : Nat) (r : SReg) (i : Nat) : Nat :=
  let (x, y, z) := g.local_ e.w i
  match r with
  | .x => e.team.bx * g.tx + x
  | .y => e.team.by_ * g.ty + y
  | .z => e.team.bz * g.tz + z
  | .tx => x
  | .ty => y
  | .tz => z
  | .team => e.team.index
  | .tcount => g.teams
  | .wave => e.w
  | .lane => i
  | .core => e.team.core
  | .die => dieOf e.team.core
  | .fnd => fndOf e.team.core
  | .gang => gang
  | .grid => g.num

/-- Special registers in a span (Table 1.3); none is M. -/
def specialForm (g : Grid) (b : Box) (r : SReg) : Option Form :=
  let ax (d base : Nat) : Form :=
    .a (BitVec.ofNat 64 base) (if d = 0 then 1 else 0) (if d = 1 then 1 else 0) (if d = 2 then 1 else 0)
  let loc (d : Nat) : Option Form :=
    if b.hi d = b.lo d + 1 then some (ax d (g.origin b d - b.lo d * g.teamItems d)) else none
  match r with
  | .x => some (ax 0 (g.origin b 0))
  | .y => some (ax 1 (g.origin b 1))
  | .z => some (ax 2 (g.origin b 2))
  | .tx => loc 0
  | .ty => loc 1
  | .tz => loc 2
  | .team => if b.count = 1 then some (.u (BitVec.ofNat 64 (g.linear b.bx0 b.by0 b.bz0))) else none
  | .tcount => some (.u (BitVec.ofNat 64 g.teams))
  | .grid => some (.u (BitVec.ofNat 64 g.num))
  | .gang => some (.u 0)
  | .wave | .lane | .core | .die | .fnd => none

/-- MOVS (R156): a 32-bit destination keeps bits [31:0] (R54). -/
def execMovs (x : MovS) (s : State) : Res :=
  issue (.movs x) false false
    (fun u s e p =>
      match s.grids.get? e.team.grid with
      | none => .done s {} .result none
      | some g =>
        let gang := e.gang ((s.core e.team.core).gangMax (e.w % 2)) s.fresh
        .done s
          { regs := u.wr.map fun r => (r, p, fun i => low (if x.wide then 64 else 32) (specialReg g e gang x.sr i)) }
          .result none)
    (fun u _ g s sp =>
      match specialForm g sp.box x.sr, u.wr with
      | some f, [d] =>
        let f := match f with
          | .u w => Form.u (if x.wide then w else w &&& 0xFFFFFFFF)
          | f => f
        .done s { regs := [(d, f)] } .result none
      | _, _ => .peel) s

/-- What SHAPE reports of a register in a team (Table 5.6). -/
def shapeInTeam (w : Wave) (depth : Nat) (m : Lanes) (x : ShapeOp) : Nat :=
  match x.sel with
  | .kind =>
    if x.uni then (if (w.uget depth x.idx.val m).2 then 3 else 0)
    else
      let mask := ((w.vregs.get? (regKey x.idx.val depth)).map fun sl => sl.mask).getD 0
      if mask &&& m = 0 then 3 else 2
  | .sx | .sy | .sz => 0

/-- What SHAPE reports in a span. -/
def shapeInSpan (sp : Span) (x : ShapeOp) : W64 :=
  let f := if x.uni then sp.uregs.get? (regKey x.idx.val sp.depth)
    else (sp.vregs.get? (regKey x.idx.val sp.depth)).map fun sl => sl.form
  match x.sel, f with
  | .kind, none => 3
  | .kind, some (.u _) => 0
  | .kind, some (.a _ _ _ _) => 1
  | .sx, some f => f.coef 0
  | .sy, some f => f.coef 1
  | .sz, some f => f.coef 2
  | _, none => 0

/-- SHAPE (R171): every active lane receives the same value; the register is not read. -/
def execShape (x : ShapeOp) (s : State) : Res :=
  issue (.shape x) false false
    (fun u s e p =>
      .done s { regs := u.wr.map fun r => (r, p, fun _ => shapeInTeam e.wave e.sub.depth e.sub.mask x) } .result none)
    (fun u _ _ s sp =>
      match u.wr with
      | [d] => .done s { regs := [(d, .u (shapeInSpan sp x))] } .result none
      | _ => .peel) s

end Sys2Proof.Machine
end

