-- ==== Sys2Proof/Machine/Maps.lean ====
section
/-!
DEFINITION. Service calls on address spaces: ranges, memory, mappings, purges, aliases and peer windows (R282, R315,
R338, R340, R418, R425, R462).
-/
namespace Sys2Proof.Machine
open Sys2Proof

/-! ## Ranges -/

/-- A range of a mapping call: not empty, in multiples of a page size, below the doorbell page (R345, R425). -/
def rangeOk (va len ps : Nat) : Bool := decide (0 < len ∧ va % ps = 0 ∧ len % ps = 0 ∧ va + len ≤ doorBase)

/-- Two ranges meet. -/
def rangesMeet (a n b m : Nat) : Bool := decide (a < b + m ∧ b < a + n)

/-- A page size of R336; 0 names none and stands for 64 KiB (R425). -/
def pageSize (v : Nat) : Option Nat :=
  if v = 0 then some 65536 else if v = 65536 ∨ v = 2097152 ∨ v = 1073741824 then some v else none

/-- Permissions of a mapping call: SEAL with W, and other bits, are refused (R425). -/
def permOk (p : Nat) : Bool := decide (p < 16) && !(toBit (p / 2) && toBit (p / 8))

/-- Some page of a context lies in a range. -/
def Ctx.mapped (x : Ctx) (va len : Nat) : Bool := x.pages.any fun p => rangesMeet p.va p.size va len

/-- A range lies in one that VA_RESERVE gave. -/
def Ctx.reserved (x : Ctx) (va len : Nat) : Bool := x.ranges.any fun r => decide (r.1 ≤ va ∧ va + len ≤ r.1 + r.2)

/-- A page cut at an address. -/
def Page.cut (p : Page) (at_ : Nat) : List Page :=
  if p.va < at_ ∧ at_ < p.va + p.size then
    [{ p with size := at_ - p.va }, { p with va := at_, size := p.va + p.size - at_, target := p.at_ at_ }]
  else [p]

/-- The pages of a context, cut at the ends of a range. -/
def Ctx.cut (x : Ctx) (va len : Nat) : List Page := (x.pages.flatMap fun p => p.cut va).flatMap fun p => p.cut (va + len)

/-- A page lies in a range. -/
def Page.within (p : Page) (va len : Nat) : Bool := decide (va ≤ p.va ∧ p.va + p.size ≤ va + len)

/-- A free address for a fresh range (R462): the unit's own choice where it qualifies. -/
def State.freshVa (s : State) (x : Ctx) (len align : Nat) : Option Nat :=
  let free (v : Nat) : Bool :=
    rangeOk v len 65536 && decide (v % align = 0 ∧ 0 < v) && !x.mapped v len && !(x.ranges.any fun r => rangesMeet r.1 r.2 v len)
  let ends := align :: (x.ranges.map (fun r => r.1 + r.2) ++ x.pages.map fun p => p.va + p.size).map fun e => ceilDiv e align * align
  (Config.chooseVa s.fresh :: ends).find? free

/-- The context of a call. -/
def State.callCtx (s : State) (c : Call) : Ctx := (s.ctxs.get? c.ctx).getD { dev := c.dev, asid := 0 }

/-- VA_RESERVE (R462). -/
def execVaReserve (c : Call) (s : State) : Res :=
  serve 0x0C 3 c (fun _ s =>
    let x := s.callCtx c
    let base := c.arg 0
    let len := c.arg 1
    let align := if c.arg 2 = 0 then 65536 else c.arg 2
    if align % 65536 ≠ 0 || !rangeOk base len 65536 || base % align ≠ 0 then ended s stBadParam
    else if base ≠ 0 then
      (if x.ranges.any fun r => rangesMeet r.1 r.2 base len then ended s stBusy
       else .done (s.modCtx c.ctx fun x => { x with ranges := x.ranges ++ [(base, len)] }) stOk [base])
    else
      match s.freshVa x len align with
      | none => ended s.bump stNoResource
      | some v => .done (s.modCtx c.ctx fun x => { x with ranges := x.ranges ++ [(v, len)] }).bump stOk [v]) s

/-- VA_RELEASE (R425). -/
def execVaRelease (c : Call) (s : State) : Res :=
  serve 0x0D 2 c (fun _ s =>
    let x := s.callCtx c
    let r := (c.arg 0, c.arg 1)
    if !x.ranges.contains r then ended s stBadParam
    else if x.mapped r.1 r.2 then ended s stBusy
    else ended (s.modCtx c.ctx fun x => { x with ranges := x.ranges.erase r }) stOk) s

/-! ## Purges (R340) -/

/-- A line of a range that is being purged: its open transaction goes on, and without one its holders are recalled
for write and the line leaves its slice. Requests that wait for it stay. -/
def State.purgeLine (s : State) (l : LineRef) : State :=
  let s := (s.answerAll l).closeTxn l
  match s.entry? l with
  | none => s
  | some e =>
    if e.txn.isSome then
      (if e.inL2 then s
       else match s.homeFill l with
        | none => s.dropLine l
        | some s => s.closeTxn l)
    else if !e.inL2 then s
    else
      let s := ((s.openTxn l none true false).answerAll l).endTxn l
      if (s.entry l).txn.isNone then (s.evictHost l).leaveSlice l else s

/-- Steps 1 to 3 of RANGE_PURGE; true when no home holds a line of the range any more. -/
def State.purgeRange (s : State) (dev asid va len : Nat) : State × Bool :=
  let r := (asid, va, len)
  let s := s.modDev dev fun v => if v.purging.contains r then v else { v with purging := v.purging ++ [r] }
  let s := (s.linesIn dev asid va len).foldl (fun s l => s.purgeLine l) s
  (s.dropTlb dev asid va len, !(s.dir.any fun e =>
    (e.inL2 || e.txn.isSome) && e.line.dev == dev && e.line.asid == asid && decide (va < 64 * e.line.line + 64 ∧ 64 * e.line.line < va + len)))

/-- Steps 3 and 4: the alias ranges go and the mark is lifted. -/
def State.purged (s : State) (dev asid va len : Nat) : State :=
  s.modDev dev fun v => { v with
    remap := v.remap.filter fun a => !(a.asid == asid && rangesMeet a.base a.len va len)
    purging := v.purging.erase (asid, va, len) }

/-- A call that purges a range: it waits until every line has left, and then `k` completes it and the requests that waited
go on. -/
def purging (dev asid va len : Nat) (s : State) (k : State → Reply) : Reply :=
  let r := s.purgeRange dev asid va len
  if r.2 then
    match k (r.1.purged dev asid va len) with
    | .done s st res => .done ((s.hostResume dev).peerResume dev).owedHeads st res
    | q => q
  else .wait r.1

/-- RANGE_PURGE (R340). -/
def execRangePurge (c : Call) (s : State) : Res :=
  serve 0x14 3 c (fun _ s =>
    let asid := if c.arg 0 = 0 then (s.callCtx c).asid else c.arg 0
    if 2 ^ 16 ≤ asid || !rangeOk (c.arg 1) (c.arg 2) 65536 then ended s stBadParam
    else purging c.dev asid (c.arg 1) (c.arg 2) s fun s => ended s stOk) s

/-! ## Memory (R407, R425, R462) -/

/-- Device memory reads zero (R462). -/
def State.zeroGranules (s : State) (dev dpa : Nat) : Nat → State
  | 0 => s
  | n + 1 =>
    let s := State.zeroGranules s dev dpa n
    let a := hbmPlace s.pkg.mode dev (dpa + 4096 * n)
    { s with
      mem := s.mem.splice a (List.replicate 4096 0)
      poison := s.poison.filter fun u => !decide (a / 16 ≤ u ∧ u < a / 16 + 256) }

/-- `k` pages of an allocation from an address on; none when memory runs out. -/
def State.allocPages (ctx dev ps perm : Nat) : Nat → Nat → State → Option State
  | 0, _, s => some s
  | k + 1, va, s =>
    match s.takeFrames dev (ps / 65536) with
    | none => none
    | some f =>
      let s := (s.zeroGranules dev (65536 * f) (ps / 4096)).bump
      State.allocPages ctx dev ps perm k (va + ps) (s.modCtx ctx fun x => { x with
        pages := x.pages ++ [{ va := va, size := ps, target := .hbm (65536 * f), perm := perm }]
        allocs := x.allocs ++ (List.range (ps / 65536)).map fun i => (va + 65536 * i, 65536 * (f + i)) })

/-- MEM_ALLOC (R462). -/
def execMemAlloc (c : Call) (s : State) : Res :=
  serve 0x0E 4 c (fun _ s =>
    let x := s.callCtx c
    let va := c.arg 0
    let len := c.arg 1
    match pageSize (c.arg 2) with
    | none => ended s stBadParam
    | some ps =>
      if !permOk (c.arg 3) || !rangeOk va len ps || (va ≠ 0 && !x.reserved va len) then ended s stBadParam
      else if va ≠ 0 && x.mapped va len then ended s stBusy
      else
        match if va = 0 then s.freshVa x len ps else some va with
        | none => ended s.bump stNoResource
        | some v =>
          let s := s.bump
          match State.allocPages c.ctx c.dev ps (c.arg 3) (len / ps) v s with
          | none => ended s stNoResource
          | some s =>
            .done (if va = 0 then s.modCtx c.ctx fun x => { x with ranges := x.ranges ++ [(v, len)] } else s) stOk [v]) s

/-- The table entries of a range go (R340). -/
def State.unmapRange (s : State) (ctx va len : Nat) : State :=
  let s := s.modCtx ctx fun x => { x with pages := (x.cut va len).filter fun p => !p.within va len }
  let s := s.modDev (s.ctxDev ctx) fun v => { v with
    imports := v.imports.filter fun w => !(w.ctx == ctx && decide (va ≤ w.va ∧ w.va + w.len ≤ va + len)) }
  s.hbmCheck

/-- UNMAP (R340, R462). -/
def execUnmap (c : Call) (s : State) : Res :=
  serve 0x11 2 c (fun _ s =>
    if !rangeOk (c.arg 0) (c.arg 1) 65536 then ended s stBadParam
    else
      purging c.dev (s.callCtx c).asid (c.arg 0) (c.arg 1) s fun s => ended (s.unmapRange c.ctx (c.arg 0) (c.arg 1)) stOk) s

/-- MEM_FREE (R425): every page of the named range is allocated. -/
def execMemFree (c : Call) (s : State) : Res :=
  serve 0x0F 2 c (fun _ s =>
    let x := s.callCtx c
    let va := c.arg 0
    let len := c.arg 1
    let inside (a : Nat × Nat) : Bool := decide (va ≤ a.1 ∧ a.1 < va + len)
    if !rangeOk va len 65536 || 65536 * (x.allocs.filter inside).length ≠ len then ended s stBadParam
    else
      purging c.dev x.asid va len s fun s =>
        ended ((s.unmapRange c.ctx va len).modCtx c.ctx fun x => { x with allocs := x.allocs.filter fun a => !inside a }) stOk) s

/-- A device physical range is reachable under another name (R282). -/
def State.named (s : State) (dev dpa len : Nat) : Bool :=
  s.ctxs.any fun y => y.2.dev == dev && y.2.pages.any fun p =>
    match p.target with
    | .hbm b => rangesMeet b p.size dpa len
    | _ => false

/-- MAP (R282, R407, R462). -/
def execMap (c : Call) (s : State) : Res :=
  serve 0x10 5 c (fun _ s =>
    let x := s.callCtx c
    let va := c.arg 0
    let dpa := c.arg 1
    let len := c.arg 2
    match pageSize (c.arg 3) with
    | none => ended s stBadParam
    | some ps =>
      if !permOk (c.arg 4) || !rangeOk va len ps || dpa % ps ≠ 0 || s.devBytes < dpa + len || !x.reserved va len then
        ended s stBadParam
      else if x.mapped va len then ended s stBusy
      else if s.named c.dev dpa len then ended s stAlias
      else if (List.range (len / 65536)).any fun i => s.frameDead c.dev (dpa / 65536 + i) then ended s stNoResource
      else
        ended (s.modCtx c.ctx fun x => { x with
          pages := x.pages ++ (List.range (len / ps)).map fun i =>
            { va := va + ps * i, size := ps, target := .hbm (dpa + ps * i), perm := c.arg 4 } }) stOk) s

/-- PROTECT (R338): the pages of the range take the permissions; losing one purges the range first. -/
def execProtect (c : Call) (s : State) : Res :=
  serve 0x12 3 c (fun _ s =>
    let x := s.callCtx c
    let va := c.arg 0
    let len := c.arg 1
    let perm := c.arg 2
    let hit := (x.cut va len).filter fun p => p.within va len
    if !rangeOk va len 65536 || !permOk perm || hit.foldl (fun n p => n + p.size) 0 ≠ len then ended s stBadParam
    else if hit.any fun p => p.revoked then ended s stHostGone
    else
      let give (s : State) : State := s.modCtx c.ctx fun x => { x with
        pages := (x.cut va len).map fun p => if p.within va len then { p with perm := perm } else p }
      if hit.all fun p => Nat.land p.perm perm = p.perm then ended (give s) stOk
      else purging c.dev x.asid va len s fun s => ended (give s) stOk) s

/-! ## Aliases, host memory and peers (R282, R315, R418) -/

/-- ALIAS_REGISTER (R315). -/
def execAliasRegister (c : Call) (s : State) : Res :=
  serve 0x13 5 c (fun _ s =>
    let x := s.callCtx c
    let va := c.arg 0
    let len := c.arg 3
    let l := (s.dev c.dev).remap
    let meets (asid va : Nat) (a b : Nat) : Bool := a == asid && rangesMeet b len va len
    if 2 ^ 16 ≤ c.arg 1 || 15 < c.arg 4 || !rangeOk va len 65536 || !rangeOk (c.arg 2) len 65536 ||
        meets x.asid va (c.arg 1) (c.arg 2) ||
        (l.any fun a => (a.asid == c.arg 1 && rangesMeet a.base a.len (c.arg 2) len) ||
          (a.toAsid == x.asid && rangesMeet a.toBase a.len va len)) then ended s stBadParam
    else if x.mapped va len || l.any (fun a => a.asid == x.asid && rangesMeet a.base a.len va len) then ended s stBusy
    else if 256 ≤ l.length then ended s stNoResource
    else
      ended (s.modDev c.dev fun v => { v with
        remap := v.remap ++ [⟨x.asid, va, len, c.arg 1, c.arg 2, c.arg 4⟩] }) stOk) s

/-- HOST_MAP (R282, R336). -/
def execHostMap (c : Call) (s : State) : Res :=
  serve 0x15 5 c (fun _ s =>
    let va := c.arg 0
    let hpa := c.arg 1
    let len := c.arg 2
    let port := c.arg 3
    let named := s.ctxs.any fun y => y.2.dev == c.dev && y.2.pages.any fun p =>
      match p.target with
      | .host q b => q == port && rangesMeet b p.size hpa len
      | _ => false
    if 1 < port || hpa % 65536 ≠ 0 || 2 ^ 64 < hpa + len || !permOk (c.arg 4) || !rangeOk va len 65536 then ended s stBadParam
    else if (s.callCtx c).mapped va len then ended s stBusy
    else if named then ended s stAlias
    else
      ended (s.modCtx c.ctx fun x => { x with
        pages := x.pages ++ (List.range (len / 65536)).map fun i =>
          { va := va + 65536 * i, size := 65536, target := .host port (hpa + 65536 * i), perm := c.arg 4 } }) stOk) s

/-- PEER_MAP (R418). -/
def execPeerMap (c : Call) (s : State) : Res :=
  serve 0x16 6 c (fun _ s =>
    let peer := c.arg 1
    let va := c.arg 2
    let rva := c.arg 3
    let len := c.arg 4
    let perm := c.arg 5
    let v := s.dev c.dev
    let win (h : Nat) : PeerWin := { handle := h, peer := peer, ctx := c.ctx, va := va, remote := rva, len := len, perm := perm }
    if 1 < c.arg 0 || 4095 < peer || peer = v.barnos || !permOk perm || !rangeOk va len 65536 ||
        (c.arg 0 = 0 && rva ≠ 0) || (c.arg 0 = 1 && !rangeOk rva len 65536) then ended s stBadParam
    else if c.arg 0 = 0 then
      let h := v.handleSeq + 1
      .done (s.modDev c.dev fun v => { v with exports := v.exports ++ [win h], handleSeq := h }) stOk [h]
    else if (s.callCtx c).mapped va len then ended s stBusy
    else
      let s := s.modDev c.dev fun v => { v with imports := v.imports ++ [win 0] }
      ended (s.modCtx c.ctx fun x => { x with
        pages := x.pages ++ (List.range (len / 65536)).map fun i =>
          { va := va + 65536 * i, size := 65536, target := .peer peer (rva + 65536 * i), perm := perm } }) stOk) s

/-- A page of a peer's memory. -/
def Page.isPeer (p : Page) : Bool :=
  match p.target with
  | .peer _ _ => true
  | _ => false

/-- PEER_UNMAP (R418): an export by its handle, or the import windows of a range. -/
def execPeerUnmap (c : Call) (s : State) : Res :=
  serve 0x17 2 c (fun _ s =>
    let a := c.arg 0
    let len := c.arg 1
    if (s.dev c.dev).exports.any fun w => w.handle == a && w.ctx == c.ctx then
      ended (s.modDev c.dev fun v => { v with exports := v.exports.filter fun w => !(w.handle == a && w.ctx == c.ctx) }) stOk
    else if !rangeOk a len 65536 || !(((s.callCtx c).cut a len).any fun p => p.isPeer && p.within a len) then ended s stBadParam
    else
      let s := s.modDev c.dev fun v => { v with
        imports := v.imports.filter fun w => !(w.ctx == c.ctx && decide (a ≤ w.va ∧ w.va + w.len ≤ a + len)) }
      let s := s.dropTlb c.dev (s.callCtx c).asid a len
      ended (s.modCtx c.ctx fun x => { x with
        pages := (x.cut a len).filter fun p => !(p.isPeer && p.within a len) }) stOk) s

end Sys2Proof.Machine
end

