-- ==== Sys2Proof/Machine/Power.lean ====
section
/-!
DEFINITION. Temperature, input power and the power cap (R454, R455), and package reset with bring-up (R434, R437, R456 to
R458, Table 2.9).
-/
namespace Sys2Proof.Machine
open Sys2Proof

/-! ## Package reset (R458, Table 2.9) -/

/-- A capacity register as the configuration record gives it: its generation starts again (Table 2.7). -/
def Cap.loaded (c : Cap) : Cap := { c with gen := 0 }

/-- A core after package reset: its bank maps are those of the configuration record, and its amounts follow them. -/
def CoreCfg.core (c : CoreCfg) : Core :=
  { inService := decide (c.l1Dead.length ≤ 12 ∧ c.icDead.length ≤ 6)
    capReg := c.capReg.loaded, capStash := c.capStash.loaded, capAcc := c.capAcc.loaded
    pool := c.pool, stashMap := c.stashMap, accMap := c.accMap, l1Dead := c.l1Dead, icDead := c.icDead
    undoInMemory := c.stashMap.spareBad || c.stashMap.spareFor.isSome }

/-- Firmware after package reset: the image of the active slot runs, and the record gives the minimum version. -/
def Fw.afterReset (f : Fw) (minSvn : Nat) : Fw :=
  { f with running := (f.slots[f.active]?).getD none, checking := none, minSvn := minSvn }

/-- The package after reset and bring-up (Table 19.1). The flash keeps the error log, the images and the two copies of
the configuration record, of which the one with the higher generation that verifies is used (R456); memory keeps its bytes;
the counters of the model go on. -/
def State.packageReset (s : State) (found : BringUp) : State :=
  let p := s.pkg
  let newest := found.recordOk || !found.olderOk
  let cfg := if newest then p.record else p.olderRecord
  let slices := cfg.slices
  let rec_ := !(found.recordOk || found.olderOk) || !found.trustedOk || !found.identityOk
  let pkg : Package :=
    { trusted := p.trusted.afterReset cfg.minTrusted, policy := p.policy.afterReset cfg.minPolicy
      policyRunning := found.policyOk && !rec_, recovery := rec_
      log := p.log, logSeq := p.logSeq, deadSlices := slices, deadChannels := cfg.channels
      record := cfg, olderRecord := if newest then p.olderRecord else p.record
      svcDie := if found.deadFoundation.contains 0 then 2 else 0
      heldReset := if found.lockstep then 0 else 3
      early := p.early }
  let fdies := (List.range 4).map fun f => ({ inService := !found.deadFoundation.contains f } : FDie)
  let cdies := (List.range 16).filterMap fun d =>
    let up := !(found.deadCompute.contains d || found.deadFoundation.contains (d / 4))
    let left := ((List.range 64).map fun j => 64 * d + j).filter fun x => !slices.contains x
    let up := up && !left.isEmpty
    let lost := 64 - left.length
    let cap : Cap := { amount := 805306368 - lost * bankLoss .l2, retired := lost }
    if up && lost == 0 then none else some (d, ({ inService := up, capL2 := cap } : CDie))
  let s0 : State := { s with pkg := pkg }
  let devs := s.devs.zipIdx.map fun v => ({ hometab := s0.rehome 0 v.2 } : Dev)
  { State.reset with
    fresh := s.fresh, cycle := s.cycle, agenda := s.agenda
    pkg := pkg
    ports := s.ports.map fun q => { up := q.up }
    devs := devs.take 1 ++ List.replicate 3 {}
    fdies := fdies
    cdies := cdies
    cores := cfg.cores.map fun k => (k.1, k.2.core)
    mem := s.mem
    poison := s.poison
    msix := s.msix }

/-- The doorbells written before the service unit started are read (R458, step 6). -/
def State.readEarly (s : State) : State :=
  if s.pkg.heldReset ≠ 0 then s
  else
    let l := s.pkg.early
    let s : State := { s with pkg := { s.pkg with early := [] } }
    l.foldl (fun s w => s.submit w.1 w.2.1 w.2.2.1 w.2.2.2) s

/-- PACKAGE_RESET (R458). -/
def execPackageReset (found : BringUp) (s : State) : Res := .next (s.packageReset found).readEarly

/-! ## Temperature and input (R454) -/

/-- A TYPE 12 entry. -/
def State.logModule (s : State) (detail : Nat) : State :=
  s.logEvent s.pkg.svcDie { logOf 12 with unit := 13, detail := detail }

/-- The package is held in reset for a cause; its cores stop. -/
def State.hold (s : State) (why detail : Nat) : State :=
  if s.pkg.heldReset ≠ 0 then s
  else
    let s := s.logModule detail
    { s with pkg := { s.pkg with heldReset := why }, cur := none }

/-- THERMAL_THROTTLE (R454): a junction reaches 105 °C. -/
def execThermalThrottle (die : Nat) (s : State) : Res :=
  .next (if 16 ≤ die || (s.cdie die).throttled then s
    else
      (s.modCdie die fun d => { d with throttled := true }).logEvent (die / 4) { logOf 12 with unit := 9, number := die })

/-- THERMAL_RECOVER (R454): the junction falls below 95 °C. -/
def execThermalRecover (die : Nat) (s : State) : Res :=
  .next (if (s.cdie die).throttled then s.modCdie die fun d => { d with throttled := false } else s)

/-- THERMAL_SHUTDOWN (R454): a junction reaches 115 °C. -/
def execThermalShutdown (_die : Nat) (s : State) : Res := .next (s.hold 1 1)

/-- THERMAL_RESTART (R454): every junction has stood below 85 °C for 1 s. -/
def execThermalRestart (found : BringUp) (s : State) : Res :=
  .next (if s.pkg.heldReset = 1 then (s.packageReset found).readEarly else s)

/-- INPUT_LOW (R454): 48.0 V up to 50.0 V for 100 µs. -/
def execInputLow (s : State) : Res :=
  .next (if s.pkg.inputLow then s
    else
      let s := s.logModule 2
      { s with pkg := { s.pkg with inputLow := true } })

/-- UNDERVOLTAGE (R454): below 48.0 V for 1 ms. -/
def execUndervoltage (s : State) : Res := .next (s.hold 2 4)

/-- INPUT_HIGH (R454): above 58.0 V up to 60.0 V for 100 µs. -/
def execInputHigh (s : State) : Res :=
  .next (if s.pkg.inputHigh then s
    else
      let s := s.logModule 3
      { s with pkg := { s.pkg with inputHigh := true } })

/-- OVERVOLTAGE (R454): above 60.0 V for 10 µs. -/
def execOvervoltage (s : State) : Res := .next (s.hold 2 4)

/-- INPUT_RECOVER (R454): the input has stood in 50.0 to 58.0 V for 10 ms. -/
def execInputRecover (found : BringUp) (s : State) : Res :=
  .next (if s.pkg.heldReset = 2 then (s.packageReset found).readEarly
    else { s with pkg := { s.pkg with inputLow := false, inputHigh := false } })

/-! ## The power cap (R455) -/

/-- The limit in force: the cap, or 2,400 W while the input is low unless the cap is lower. -/
def Package.limit (p : Package) : Nat := if p.inputLow then min p.cap 2400 else p.cap

/-- Every compute die changes. -/
def State.allDies (s : State) (f : CDie → CDie) : State :=
  (List.range 16).foldl (fun s d => s.modCdie d f) s

/-- Every compute die runs at 300 MHz. -/
def State.slowest (s : State) : Bool := (List.range 16).all fun d => decide ((s.cdie d).clockMHz ≤ 300)

/-- A step of the issue gating of every die, 100 µs or more after the last. -/
def State.gateStep (s : State) (f : Nat → Nat) : State :=
  if (s.pkg.gateAt.map fun t => decide (s.svcTime < t + 10000)).getD false then s
  else
    let s := s.allDies fun d => { d with gate := f d.gate }
    { s with pkg := { s.pkg with gateAt := some s.svcTime } }

/-- POWER_CAP_STEP (R455): one step of the clock or of the issue gating, down while the package draws more than the limit
and up while it draws less. -/
def execPowerCapStep (watts : Nat) (s : State) : Res :=
  .next (if s.pkg.limit < watts then
      (if s.slowest then s.gateStep fun m => max 2 (m - 1)
       else s.allDies fun d => { d with clockMHz := max 300 (d.clockMHz - 25) })
    else if watts < s.pkg.limit then
      (if (List.range 16).any fun d => decide ((s.cdie d).gate < 16) then s.gateStep fun m => min 16 (m + 1)
       else s.allDies fun d => { d with clockMHz := min 1200 (d.clockMHz + 25) })
    else s)

/-- CAP_NOT_MET (R455): an entry every second while 300 MHz and m = 2 do not meet the cap. -/
def execCapNotMet (watts : Nat) (s : State) : Res :=
  let now := s.svcTime
  .next (if s.pkg.limit < watts && s.slowest && (List.range 16).all (fun d => decide ((s.cdie d).gate ≤ 2)) &&
      (s.pkg.capLogged == 0 || decide (s.pkg.capLogged + 100000000 ≤ now)) then
    let s := s.logEvent s.pkg.svcDie { logOf 13 with unit := 13, detail := watts }
    { s with pkg := { s.pkg with capLogged := now } }
  else s)

end Sys2Proof.Machine
end

