-- ==== Sys2Proof/Machine/Dispatch.lean ====
section
/-!
DEFINITION. The dispatch: one arm per row of the opcode table, each a call of its meaning.
-/
namespace Sys2Proof.Machine
open Sys2Proof

/-- What each row of the opcode table does. -/
def exec (i : Instr) (s : State) : Host.Outcome State Fault Refusal :=
  match i with
  | .iadd x => Sys2Proof.Machine.execIadd x s
  | .iaddI x => Sys2Proof.Machine.execIaddI x s
  | .iaddL x => Sys2Proof.Machine.execIaddL x s
  | .isub x => Sys2Proof.Machine.execIsub x s
  | .isubI x => Sys2Proof.Machine.execIsubI x s
  | .isubL x => Sys2Proof.Machine.execIsubL x s
  | .iaddc x => Sys2Proof.Machine.execIaddc x s
  | .ineg x => Sys2Proof.Machine.execIneg x s
  | .iabs x => Sys2Proof.Machine.execIabs x s
  | .imul x => Sys2Proof.Machine.execImul x s
  | .imulI x => Sys2Proof.Machine.execImulI x s
  | .imulL x => Sys2Proof.Machine.execImulL x s
  | .imulh x => Sys2Proof.Machine.execImulh x s
  | .imulhI x => Sys2Proof.Machine.execImulhI x s
  | .imulhL x => Sys2Proof.Machine.execImulhL x s
  | .imad x => Sys2Proof.Machine.execImad x s
  | .imadw x => Sys2Proof.Machine.execImadw x s
  | .idiv x => Sys2Proof.Machine.execIdiv x s
  | .idivI x => Sys2Proof.Machine.execIdivI x s
  | .idivL x => Sys2Proof.Machine.execIdivL x s
  | .irem x => Sys2Proof.Machine.execIrem x s
  | .iremI x => Sys2Proof.Machine.execIremI x s
  | .iremL x => Sys2Proof.Machine.execIremL x s
  | .imin x => Sys2Proof.Machine.execImin x s
  | .iminI x => Sys2Proof.Machine.execIminI x s
  | .iminL x => Sys2Proof.Machine.execIminL x s
  | .imax x => Sys2Proof.Machine.execImax x s
  | .imaxI x => Sys2Proof.Machine.execImaxI x s
  | .imaxL x => Sys2Proof.Machine.execImaxL x s
  | .iclamp x => Sys2Proof.Machine.execIclamp x s
  | .icmp x => Sys2Proof.Machine.execIcmp x s
  | .icmpI x => Sys2Proof.Machine.execIcmpI x s
  | .icmpL x => Sys2Proof.Machine.execIcmpL x s
  | .and x => Sys2Proof.Machine.execAnd x s
  | .andI x => Sys2Proof.Machine.execAndI x s
  | .andL x => Sys2Proof.Machine.execAndL x s
  | .or x => Sys2Proof.Machine.execOr x s
  | .orI x => Sys2Proof.Machine.execOrI x s
  | .orL x => Sys2Proof.Machine.execOrL x s
  | .xor x => Sys2Proof.Machine.execXor x s
  | .xorI x => Sys2Proof.Machine.execXorI x s
  | .xorL x => Sys2Proof.Machine.execXorL x s
  | .not x => Sys2Proof.Machine.execNot x s
  | .logt x => Sys2Proof.Machine.execLogt x s
  | .shl x => Sys2Proof.Machine.execShl x s
  | .shlI x => Sys2Proof.Machine.execShlI x s
  | .shlL x => Sys2Proof.Machine.execShlL x s
  | .shr x => Sys2Proof.Machine.execShr x s
  | .shrI x => Sys2Proof.Machine.execShrI x s
  | .shrL x => Sys2Proof.Machine.execShrL x s
  | .sar x => Sys2Proof.Machine.execSar x s
  | .sarI x => Sys2Proof.Machine.execSarI x s
  | .sarL x => Sys2Proof.Machine.execSarL x s
  | .rol x => Sys2Proof.Machine.execRol x s
  | .rolI x => Sys2Proof.Machine.execRolI x s
  | .rolL x => Sys2Proof.Machine.execRolL x s
  | .fshl x => Sys2Proof.Machine.execFshl x s
  | .popc x => Sys2Proof.Machine.execPopc x s
  | .clz x => Sys2Proof.Machine.execClz x s
  | .ctz x => Sys2Proof.Machine.execCtz x s
  | .brev x => Sys2Proof.Machine.execBrev x s
  | .bfx x => Sys2Proof.Machine.execBfx x s
  | .bfxI x => Sys2Proof.Machine.execBfxI x s
  | .bfxL x => Sys2Proof.Machine.execBfxL x s
  | .bfi x => Sys2Proof.Machine.execBfi x s
  | .bysel x => Sys2Proof.Machine.execBysel x s
  | .byselI x => Sys2Proof.Machine.execByselI x s
  | .byselL x => Sys2Proof.Machine.execByselL x s
  | .lea x => Sys2Proof.Machine.execLea x s
  | .leaI x => Sys2Proof.Machine.execLeaI x s
  | .leaL x => Sys2Proof.Machine.execLeaL x s
  | .mov x => Sys2Proof.Machine.execMov x s
  | .movi x => Sys2Proof.Machine.execMovi x s
  | .movl x => Sys2Proof.Machine.execMovl x s
  | .sel x => Sys2Proof.Machine.execSel x s
  | .plop x => Sys2Proof.Machine.execPlop x s
  | .movs x => Sys2Proof.Machine.execMovs x s
  | .fadd x => Sys2Proof.Machine.execFadd x s
  | .faddI x => Sys2Proof.Machine.execFaddI x s
  | .faddL x => Sys2Proof.Machine.execFaddL x s
  | .fsub x => Sys2Proof.Machine.execFsub x s
  | .fsubI x => Sys2Proof.Machine.execFsubI x s
  | .fsubL x => Sys2Proof.Machine.execFsubL x s
  | .fmul x => Sys2Proof.Machine.execFmul x s
  | .fmulI x => Sys2Proof.Machine.execFmulI x s
  | .fmulL x => Sys2Proof.Machine.execFmulL x s
  | .ffma x => Sys2Proof.Machine.execFfma x s
  | .fmin x => Sys2Proof.Machine.execFmin x s
  | .fminI x => Sys2Proof.Machine.execFminI x s
  | .fminL x => Sys2Proof.Machine.execFminL x s
  | .fmax x => Sys2Proof.Machine.execFmax x s
  | .fmaxI x => Sys2Proof.Machine.execFmaxI x s
  | .fmaxL x => Sys2Proof.Machine.execFmaxL x s
  | .fcmp x => Sys2Proof.Machine.execFcmp x s
  | .fcmpI x => Sys2Proof.Machine.execFcmpI x s
  | .fcmpL x => Sys2Proof.Machine.execFcmpL x s
  | .fclass x => Sys2Proof.Machine.execFclass x s
  | .frnd x => Sys2Proof.Machine.execFrnd x s
  | .fscale x => Sys2Proof.Machine.execFscale x s
  | .fscaleI x => Sys2Proof.Machine.execFscaleI x s
  | .fscaleL x => Sys2Proof.Machine.execFscaleL x s
  | .fdiv x => Sys2Proof.Machine.execFdiv x s
  | .fsqrt x => Sys2Proof.Machine.execFsqrt x s
  | .frcp x => Sys2Proof.Machine.execFrcp x s
  | .frsq x => Sys2Proof.Machine.execFrsq x s
  | .fexp2 x => Sys2Proof.Machine.execFexp2 x s
  | .flog2 x => Sys2Proof.Machine.execFlog2 x s
  | .fsinpi x => Sys2Proof.Machine.execFsinpi x s
  | .fcospi x => Sys2Proof.Machine.execFcospi x s
  | .hadd2 x => Sys2Proof.Machine.execHadd2 x s
  | .hmul2 x => Sys2Proof.Machine.execHmul2 x s
  | .hfma2 x => Sys2Proof.Machine.execHfma2 x s
  | .dot2 x => Sys2Proof.Machine.execDot2 x s
  | .dot4 x => Sys2Proof.Machine.execDot4 x s
  | .faddF64 x => Sys2Proof.Machine.execFaddF64 x s
  | .faddF64I x => Sys2Proof.Machine.execFaddF64I x s
  | .faddF64L x => Sys2Proof.Machine.execFaddF64L x s
  | .fsubF64 x => Sys2Proof.Machine.execFsubF64 x s
  | .fsubF64I x => Sys2Proof.Machine.execFsubF64I x s
  | .fsubF64L x => Sys2Proof.Machine.execFsubF64L x s
  | .fmulF64 x => Sys2Proof.Machine.execFmulF64 x s
  | .fmulF64I x => Sys2Proof.Machine.execFmulF64I x s
  | .fmulF64L x => Sys2Proof.Machine.execFmulF64L x s
  | .ffmaF64 x => Sys2Proof.Machine.execFfmaF64 x s
  | .fminF64 x => Sys2Proof.Machine.execFminF64 x s
  | .fminF64I x => Sys2Proof.Machine.execFminF64I x s
  | .fminF64L x => Sys2Proof.Machine.execFminF64L x s
  | .fmaxF64 x => Sys2Proof.Machine.execFmaxF64 x s
  | .fmaxF64I x => Sys2Proof.Machine.execFmaxF64I x s
  | .fmaxF64L x => Sys2Proof.Machine.execFmaxF64L x s
  | .fcmpF64 x => Sys2Proof.Machine.execFcmpF64 x s
  | .fcmpF64I x => Sys2Proof.Machine.execFcmpF64I x s
  | .fcmpF64L x => Sys2Proof.Machine.execFcmpF64L x s
  | .fclassF64 x => Sys2Proof.Machine.execFclassF64 x s
  | .frndF64 x => Sys2Proof.Machine.execFrndF64 x s
  | .fscaleF64 x => Sys2Proof.Machine.execFscaleF64 x s
  | .fscaleF64I x => Sys2Proof.Machine.execFscaleF64I x s
  | .fscaleF64L x => Sys2Proof.Machine.execFscaleF64L x s
  | .fdivF64 x => Sys2Proof.Machine.execFdivF64 x s
  | .fsqrtF64 x => Sys2Proof.Machine.execFsqrtF64 x s
  | .frcpF64 x => Sys2Proof.Machine.execFrcpF64 x s
  | .cvt x => Sys2Proof.Machine.execCvt x s
  | .lxch x => Sys2Proof.Machine.execLxch x s
  | .lxchI x => Sys2Proof.Machine.execLxchI x s
  | .vote x => Sys2Proof.Machine.execVote x s
  | .ballot x => Sys2Proof.Machine.execBallot x s
  | .redux x => Sys2Proof.Machine.execRedux x s
  | .scan x => Sys2Proof.Machine.execScan x s
  | .matchOp x => Sys2Proof.Machine.execMatchOp x s
  | .qblk x => Sys2Proof.Machine.execQblk x s
  | .qunpk x => Sys2Proof.Machine.execQunpk x s
  | .amax x => Sys2Proof.Machine.execAmax x s
  | .shape x => Sys2Proof.Machine.execShape x s
  | .mat x => Sys2Proof.Machine.execMat x s
  | .ld x => Sys2Proof.Machine.execLd x s
  | .ldI x => Sys2Proof.Machine.execLdI x s
  | .ldL x => Sys2Proof.Machine.execLdL x s
  | .ldu x => Sys2Proof.Machine.execLdu x s
  | .lduI x => Sys2Proof.Machine.execLduI x s
  | .lduL x => Sys2Proof.Machine.execLduL x s
  | .st x => Sys2Proof.Machine.execSt x s
  | .stI x => Sys2Proof.Machine.execStI x s
  | .stL x => Sys2Proof.Machine.execStL x s
  | .atom x => Sys2Proof.Machine.execAtom x s
  | .red x => Sys2Proof.Machine.execRed x s
  | .pref x => Sys2Proof.Machine.execPref x s
  | .prefI x => Sys2Proof.Machine.execPrefI x s
  | .prefL x => Sys2Proof.Machine.execPrefL x s
  | .cctl x => Sys2Proof.Machine.execCctl x s
  | .fence x => Sys2Proof.Machine.execFence x s
  | .phclose x => Sys2Proof.Machine.execPhclose x s
  | .phwait x => Sys2Proof.Machine.execPhwait x s
  | .waitv x => Sys2Proof.Machine.execWaitv x s
  | .barArv x => Sys2Proof.Machine.execBarArv x s
  | .barWait x => Sys2Proof.Machine.execBarWait x s
  | .barmArv x => Sys2Proof.Machine.execBarmArv x s
  | .barmWait x => Sys2Proof.Machine.execBarmWait x s
  | .smap x => Sys2Proof.Machine.execSmap x s
  | .sunmap x => Sys2Proof.Machine.execSunmap x s
  | .sflush x => Sys2Proof.Machine.execSflush x s
  | .sfill x => Sys2Proof.Machine.execSfill x s
  | .sdiscard x => Sys2Proof.Machine.execSdiscard x s
  | .squery x => Sys2Proof.Machine.execSquery x s
  | .cpy x => Sys2Proof.Machine.execCpy x s
  | .cpyt x => Sys2Proof.Machine.execCpyt x s
  | .cpyg x => Sys2Proof.Machine.execCpyg x s
  | .cpys x => Sys2Proof.Machine.execCpys x s
  | .copyq x => Sys2Proof.Machine.execCopyq x s
  | .twait x => Sys2Proof.Machine.execTwait x s
  | .tffr x => Sys2Proof.Machine.execTffr x s
  | .tclr x => Sys2Proof.Machine.execTclr x s
  | .cntwait x => Sys2Proof.Machine.execCntwait x s
  | .gset x => Sys2Proof.Machine.execGset x s
  | .gcnt x => Sys2Proof.Machine.execGcnt x s
  | .acfg x => Sys2Proof.Machine.execAcfg x s
  | .mma x => Sys2Proof.Machine.execMma x s
  | .accLd x => Sys2Proof.Machine.execAccLd x s
  | .accSt x => Sys2Proof.Machine.execAccSt x s
  | .accZero x => Sys2Proof.Machine.execAccZero x s
  | .accMov x => Sys2Proof.Machine.execAccMov x s
  | .mprog x => Sys2Proof.Machine.execMprog x s
  | .bra x => Sys2Proof.Machine.execBra x s
  | .call x => Sys2Proof.Machine.execCall x s
  | .brx x => Sys2Proof.Machine.execBrx x s
  | .callx x => Sys2Proof.Machine.execCallx x s
  | .ret x => Sys2Proof.Machine.execRet x s
  | .joinpt x => Sys2Proof.Machine.execJoinpt x s
  | .sync x => Sys2Proof.Machine.execSync x s
  | .exit x => Sys2Proof.Machine.execExit x s
  | .yield x => Sys2Proof.Machine.execYield x s
  | .sjoin x => Sys2Proof.Machine.execSjoin x s
  | .trap x => Sys2Proof.Machine.execTrap x s
  | .brk x => Sys2Proof.Machine.execBrk x s
  | .svc x => Sys2Proof.Machine.execSvc x s
  | .csrr x => Sys2Proof.Machine.execCsrr x s
  | .csrw x => Sys2Proof.Machine.execCsrw x s
  | .launch x => Sys2Proof.Machine.execLaunch x s
  | .lwait x => Sys2Proof.Machine.execLwait x s
  | .trapret x => Sys2Proof.Machine.execTrapret x s
  | .nop x => Sys2Proof.Machine.execNop x s
  | .clauseStart core port => Sys2Proof.Machine.execClauseStart core port s
  | .clauseFetch who => Sys2Proof.Machine.execClauseFetch who s
  | .resultWrite who seq => Sys2Proof.Machine.execResultWrite who seq s
  | .trackedComplete who seq => Sys2Proof.Machine.execTrackedComplete who seq s
  | .scoreboardMismatch team wave again => Sys2Proof.Machine.execScoreboardMismatch team wave again s
  | .handlerEntry team wave sub => Sys2Proof.Machine.execHandlerEntry team wave sub s
  | .faultRecord team wave sub => Sys2Proof.Machine.execFaultRecord team wave sub s
  | .cursorTake cursor => Sys2Proof.Machine.execCursorTake cursor s
  | .sjoinTimeout span => Sys2Proof.Machine.execSjoinTimeout span s
  | .spanSlotGrant span => Sys2Proof.Machine.execSpanSlotGrant span s
  | .spanRecordFetch span => Sys2Proof.Machine.execSpanRecordFetch span s
  | .teamAdmit team => Sys2Proof.Machine.execTeamAdmit team s
  | .affinityTimeout cursor => Sys2Proof.Machine.execAffinityTimeout cursor s
  | .gridComplete grid => Sys2Proof.Machine.execGridComplete grid s
  | .frameRefill team wave depth => Sys2Proof.Machine.execFrameRefill team wave depth s
  | .uniformFrameRefill team wave => Sys2Proof.Machine.execUniformFrameRefill team wave s
  | .pipeError team sub site => Sys2Proof.Machine.execPipeError team sub site s
  | .correctedError b addr => Sys2Proof.Machine.execCorrectedError b addr s
  | .uncorrectedError b site => Sys2Proof.Machine.execUncorrectedError b site s
  | .patrolScrub b place found => Sys2Proof.Machine.execPatrolScrub b place found s
  | .ventStart b => Sys2Proof.Machine.execVentStart b s
  | .ventMove b => Sys2Proof.Machine.execVentMove b s
  | .l2SliceHandover slice => Sys2Proof.Machine.execL2SliceHandover slice s
  | .hbmPageMove dev frame target => Sys2Proof.Machine.execHbmPageMove dev frame target s
  | .sectorFillComplete core sector => Sys2Proof.Machine.execSectorFillComplete core sector s
  | .sectorFillFault core sector => Sys2Proof.Machine.execSectorFillFault core sector s
  | .sectorWritebackComplete core sector => Sys2Proof.Machine.execSectorWritebackComplete core sector s
  | .stashRecall core line write => Sys2Proof.Machine.execStashRecall core line write s
  | .gets line who => Sys2Proof.Machine.execGets line who s
  | .getm line who => Sys2Proof.Machine.execGetm line who s
  | .upgrade line who => Sys2Proof.Machine.execUpgrade line who s
  | .getp line who => Sys2Proof.Machine.execGetp line who s
  | .writeBack line who => Sys2Proof.Machine.execWriteBack line who s
  | .cleanNotice line who => Sys2Proof.Machine.execCleanNotice line who s
  | .uncachedAccess line write => Sys2Proof.Machine.execUncachedAccess line write s
  | .recallForRead line who => Sys2Proof.Machine.execRecallForRead line who s
  | .recallForWrite line who => Sys2Proof.Machine.execRecallForWrite line who s
  | .recallAck line who => Sys2Proof.Machine.execRecallAck line who s
  | .homeFillComplete line => Sys2Proof.Machine.execHomeFillComplete line s
  | .translationWalk dev asid va => Sys2Proof.Machine.execTranslationWalk dev asid va s
  | .translationFault line => Sys2Proof.Machine.execTranslationFault line s
  | .memrdSnpdata dev port dpa => Sys2Proof.Machine.execMemrdSnpdata dev port dpa s
  | .memrdSnpinv dev port dpa => Sys2Proof.Machine.execMemrdSnpinv dev port dpa s
  | .memrdNoSnoop dev port dpa => Sys2Proof.Machine.execMemrdNoSnoop dev port dpa s
  | .memwr dev port dpa data => Sys2Proof.Machine.execMemwr dev port dpa data s
  | .birspi line port => Sys2Proof.Machine.execBirspi line port s
  | .bisnpdataResponse line port data => Sys2Proof.Machine.execBisnpdataResponse line port data s
  | .h2dSnpinv dev port hpa => Sys2Proof.Machine.execH2dSnpinv dev port hpa s
  | .h2dSnpdata dev port hpa => Sys2Proof.Machine.execH2dSnpdata dev port hpa s
  | .h2dSnpcur dev port hpa => Sys2Proof.Machine.execH2dSnpcur dev port hpa s
  | .copyValidated team wave sub => Sys2Proof.Machine.execCopyValidated team wave sub s
  | .copyStart team tag => Sys2Proof.Machine.execCopyStart team tag s
  | .copyComplete team tag => Sys2Proof.Machine.execCopyComplete team tag s
  | .copyFault team tag => Sys2Proof.Machine.execCopyFault team tag s
  | .mmaKstepCommit team seq chain => Sys2Proof.Machine.execMmaKstepCommit team seq chain s
  | .mmaComplete team seq => Sys2Proof.Machine.execMmaComplete team seq s
  | .mmaFault team seq chain => Sys2Proof.Machine.execMmaFault team seq chain s
  | .accMovFault team seq => Sys2Proof.Machine.execAccMovFault team seq s
  | .waitvRelease team wave sub => Sys2Proof.Machine.execWaitvRelease team wave sub s
  | .waitvTimeout team wave sub => Sys2Proof.Machine.execWaitvTimeout team wave sub s
  | .cntwaitRelease team wave sub => Sys2Proof.Machine.execCntwaitRelease team wave sub s
  | .cntwaitTimeout team wave sub => Sys2Proof.Machine.execCntwaitTimeout team wave sub s
  | .phdoneAdvance die => Sys2Proof.Machine.execPhdoneAdvance die s
  | .phdoneMirrorUpdate viewer die => Sys2Proof.Machine.execPhdoneMirrorUpdate viewer die s
  | .yieldTimeout team wave sub => Sys2Proof.Machine.execYieldTimeout team wave sub s
  | .doorbellWrite queue tail => Sys2Proof.Machine.execDoorbellWrite queue tail s
  | .queueLaunch queue => Sys2Proof.Machine.execQueueLaunch queue s
  | .waitcnt queue => Sys2Proof.Machine.execWaitcnt queue s
  | .waitcntRelease queue index => Sys2Proof.Machine.execWaitcntRelease queue index s
  | .signal queue => Sys2Proof.Machine.execSignal queue s
  | .queueNop queue => Sys2Proof.Machine.execQueueNop queue s
  | .transferAccept queue => Sys2Proof.Machine.execTransferAccept queue s
  | .transferComplete engine slot => Sys2Proof.Machine.execTransferComplete engine slot s
  | .transferFault engine slot => Sys2Proof.Machine.execTransferFault engine slot s
  | .accountingRound dev => Sys2Proof.Machine.execAccountingRound dev s
  | .relayRotation grid => Sys2Proof.Machine.execRelayRotation grid s
  | .teamSwapOut team => Sys2Proof.Machine.execTeamSwapOut team s
  | .preemptDrainEnd ctx => Sys2Proof.Machine.execPreemptDrainEnd ctx s
  | .preemptDrainDeadline ctx => Sys2Proof.Machine.execPreemptDrainDeadline ctx s
  | .preemptSwapDeadline ctx => Sys2Proof.Machine.execPreemptSwapDeadline ctx s
  | .debugHaltStop team wave => Sys2Proof.Machine.execDebugHaltStop team wave s
  | .step team wave sub => Sys2Proof.Machine.execStep team wave sub s
  | .linkIdleSleep link => Sys2Proof.Machine.execLinkIdleSleep link s
  | .linkWake link => Sys2Proof.Machine.execLinkWake link s
  | .linkWakeComplete link => Sys2Proof.Machine.execLinkWakeComplete link s
  | .linkSlow link => Sys2Proof.Machine.execLinkSlow link s
  | .linkWakeFail link => Sys2Proof.Machine.execLinkWakeFail link s
  | .linkRetryFail link => Sys2Proof.Machine.execLinkRetryFail link s
  | .flitReceive link seq => Sys2Proof.Machine.execFlitReceive link seq s
  | .heartbeat die => Sys2Proof.Machine.execHeartbeat die s
  | .heartbeatTimeout die => Sys2Proof.Machine.execHeartbeatTimeout die s
  | .peerRequest dev peer op => Sys2Proof.Machine.execPeerRequest dev peer op s
  | .peerTimeout dev peer => Sys2Proof.Machine.execPeerTimeout dev peer s
  | .hostLinkDown port => Sys2Proof.Machine.execHostLinkDown port s
  | .leasePeriodExpiry dev => Sys2Proof.Machine.execLeasePeriodExpiry dev s
  | .takeoverWindowExpiry dev => Sys2Proof.Machine.execTakeoverWindowExpiry dev s
  | .policyImageFault => Sys2Proof.Machine.execPolicyImageFault s
  | .errLogWindowClose b => Sys2Proof.Machine.execErrLogWindowClose b s
  | .telemetryWindow => Sys2Proof.Machine.execTelemetryWindow s
  | .thermalThrottle die => Sys2Proof.Machine.execThermalThrottle die s
  | .thermalRecover die => Sys2Proof.Machine.execThermalRecover die s
  | .thermalShutdown die => Sys2Proof.Machine.execThermalShutdown die s
  | .thermalRestart found => Sys2Proof.Machine.execThermalRestart found s
  | .inputLow => Sys2Proof.Machine.execInputLow s
  | .undervoltage => Sys2Proof.Machine.execUndervoltage s
  | .inputHigh => Sys2Proof.Machine.execInputHigh s
  | .overvoltage => Sys2Proof.Machine.execOvervoltage s
  | .inputRecover found => Sys2Proof.Machine.execInputRecover found s
  | .powerCapStep watts => Sys2Proof.Machine.execPowerCapStep watts s
  | .capNotMet watts => Sys2Proof.Machine.execCapNotMet watts s
  | .packageReset found => Sys2Proof.Machine.execPackageReset found s
  | .ctxCreate c => Sys2Proof.Machine.execCtxCreate c s
  | .ctxDestroy c => Sys2Proof.Machine.execCtxDestroy c s
  | .ctxQuery c => Sys2Proof.Machine.execCtxQuery c s
  | .partSet c => Sys2Proof.Machine.execPartSet c s
  | .partQuery c => Sys2Proof.Machine.execPartQuery c s
  | .queueCreate c => Sys2Proof.Machine.execQueueCreate c s
  | .queueDestroy c => Sys2Proof.Machine.execQueueDestroy c s
  | .queueBindPriority c => Sys2Proof.Machine.execQueueBindPriority c s
  | .launchGrid c => Sys2Proof.Machine.execLaunchGrid c s
  | .launchCancel c => Sys2Proof.Machine.execLaunchCancel c s
  | .shareSet c => Sys2Proof.Machine.execShareSet c s
  | .vaReserve c => Sys2Proof.Machine.execVaReserve c s
  | .vaRelease c => Sys2Proof.Machine.execVaRelease c s
  | .memAlloc c => Sys2Proof.Machine.execMemAlloc c s
  | .memFree c => Sys2Proof.Machine.execMemFree c s
  | .map c => Sys2Proof.Machine.execMap c s
  | .unmap c => Sys2Proof.Machine.execUnmap c s
  | .protect c => Sys2Proof.Machine.execProtect c s
  | .aliasRegister c => Sys2Proof.Machine.execAliasRegister c s
  | .rangePurge c => Sys2Proof.Machine.execRangePurge c s
  | .hostMap c => Sys2Proof.Machine.execHostMap c s
  | .peerMap c => Sys2Proof.Machine.execPeerMap c s
  | .peerUnmap c => Sys2Proof.Machine.execPeerUnmap c s
  | .faultFetch c => Sys2Proof.Machine.execFaultFetch c s
  | .faultResolve c => Sys2Proof.Machine.execFaultResolve c s
  | .faultAbort c => Sys2Proof.Machine.execFaultAbort c s
  | .ctxSuspend c => Sys2Proof.Machine.execCtxSuspend c s
  | .ctxResume c => Sys2Proof.Machine.execCtxResume c s
  | .dbgAttach c => Sys2Proof.Machine.execDbgAttach c s
  | .dbgHalt c => Sys2Proof.Machine.execDbgHalt c s
  | .dbgStep c => Sys2Proof.Machine.execDbgStep c s
  | .dbgReadState c => Sys2Proof.Machine.execDbgReadState c s
  | .dbgWriteState c => Sys2Proof.Machine.execDbgWriteState c s
  | .dbgDetach c => Sys2Proof.Machine.execDbgDetach c s
  | .capQuery c => Sys2Proof.Machine.execCapQuery c s
  | .bankRetire c => Sys2Proof.Machine.execBankRetire c s
  | .errLogRead c => Sys2Proof.Machine.execErrLogRead c s
  | .errClear c => Sys2Proof.Machine.execErrClear c s
  | .dieQuarantine c => Sys2Proof.Machine.execDieQuarantine c s
  | .leaseRenew c => Sys2Proof.Machine.execLeaseRenew c s
  | .leaseRelease c => Sys2Proof.Machine.execLeaseRelease c s
  | .leaseTakeover c => Sys2Proof.Machine.execLeaseTakeover c s
  | .attestQuote c => Sys2Proof.Machine.execAttestQuote c s
  | .fwStage c => Sys2Proof.Machine.execFwStage c s
  | .fwActivate c => Sys2Proof.Machine.execFwActivate c s
  | .telemetryRead c => Sys2Proof.Machine.execTelemetryRead c s
  | .powerCapSet c => Sys2Proof.Machine.execPowerCapSet c s
  | .resync c => Sys2Proof.Machine.execResync c s
  | .accessPerformed who seq => Sys2Proof.Machine.execAccessPerformed who seq s
  | .accMoveDone team seq => Sys2Proof.Machine.execAccMoveDone team seq s
  | .copyUnitMove team tag => Sys2Proof.Machine.execCopyUnitMove team tag s
  | .transferBurst engine slot => Sys2Proof.Machine.execTransferBurst engine slot s
  | .svcdbWrite dev port vf addr => Sys2Proof.Machine.execSvcdbWrite dev port vf addr s
  | .droppedClear dev port vf => Sys2Proof.Machine.execDroppedClear dev port vf s
  | .queueCommandFenced queue => Sys2Proof.Machine.execQueueCommandFenced queue s
  | .flitRetry link => Sys2Proof.Machine.execFlitRetry link s
  | .hostLinkUp port => Sys2Proof.Machine.execHostLinkUp port s
  | .undoWriteComplete team sector => Sys2Proof.Machine.execUndoWriteComplete team sector s
  | .fwStageWriteDone c => Sys2Proof.Machine.execFwStageWriteDone c s

end Sys2Proof.Machine
end

