-- ==== Sys2Proof/Machine/Auto.lean ====
section
/-!
DEFINITION. What may come next when nothing is chosen: the steps that the units of the package make of themselves. The
manual gives the units no common order, so the step takes any of them by a free value. Only heartbeats, which a die in
service never misses (R411), and the waiting placements (R352) have an order here.
-/
namespace Sys2Proof.Machine
open Sys2Proof

/-- A step that may come next. -/
abbrev Event := State → Res

/-- An event under a condition. -/
def when_ (b : Bool) (f : Event) : List Event := if b then [f] else []

/-! ## Waves and spans -/

/-- The instruction at which a sub-wave or span stands. -/
def State.instrAt (s : State) (f : Focus) : Option Instr :=
  match f with
  | .sub t w k => (s.ex? t w k).bind fun e => e.sub.instr
  | .span i => ((s.spans.get? i).bind fun sp => sp.clause.bind fun c => c.slots.find? fun x => x.ix == sp.slot).map fun x => x.ins

/-- No sub-wave or span is chosen. -/
def unchosen (r : Res) : Res :=
  match r with
  | .next s => .next { s with cur := none }
  | r => r

/-- The clause of a sub-wave or span is fetched, where it stands at a boundary. -/
def State.fetchFor (s : State) (f : Focus) : State :=
  match f with
  | .sub t w k => ((s.ex? t w k).map fun e => if e.sub.clause.isNone && e.mayIssue then s.fetchSub e else s).getD s
  | .span i => ((s.spans.get? i).map fun sp => if sp.clause.isNone then s.fetchSpan i sp else s).getD s

/-- The core and port of a sub-wave or span that may start its clause. -/
def State.portFor (s : State) (f : Focus) : Option (Nat × Nat) :=
  match f with
  | .sub t w k => (s.ex? t w k).bind fun e =>
    if e.ready && decide (e.wave.stallTo ≤ s.cycle) then some (e.team.core, w % 2) else none
  | .span i => (s.spans.get? i).bind fun sp => match sp.state with
    | .running c k => if sp.readyAt && decide (sp.stallTo ≤ s.cycle) then some (c, k % 2) else none
    | _ => none

/-- The clause of a sub-wave or span is started on its port (R78). -/
def State.startFor (s : State) (f : Focus) : State :=
  match s.portFor f with
  | some (c, p) => if s.portFree c p then s.startClause c p f else s
  | none => s

/-- A chosen sub-wave or span that holds its port. -/
def State.begin_ (s : State) (f : Focus) : State :=
  if s.inClause f then s else (s.fetchFor f).startFor f

/-- The chosen sub-wave or span issues its instruction. -/
def runFocus (f : Focus) (s : State) : Res :=
  let s := s.begin_ f
  if s.inClause f then
    match s.instrAt f with
    | some i => unchosen (exec i { s with cur := some f })
    | none => .next { s with cur := none }
  else .next { s with cur := none }

/-- A held instruction looks again (R78). -/
def retryHeld (t w k : Nat) (h : Hold) : List Event :=
  match h.kind with
  | .sync => []
  | .waitv => [execWaitvRelease t w k, execWaitvTimeout t w k]
  | .cntwait => [execCntwaitRelease t w k, execCntwaitTimeout t w k]
  | .copyTag | .copyCheck => [execCopyValidated t w k]
  | kind => [goOn kind (fun i => some (exec i)) t w k]

/-- The steps of operations in flight. -/
def flightEvents (o : Owner) (l : Tbl Flight) : List Event :=
  l.flatMap fun p =>
    if p.2.done then []
    else match p.2.kind with
      | .result | .barrier => [execResultWrite o p.1]
      | .tracked | .stash _ _ => [execTrackedComplete o p.1]
      | .access => [execAccessPerformed o p.1]
      | .engine => []

/-- The steps of a sub-wave. -/
def State.subEvents (s : State) (e : Ex) : List Event :=
  let f : Focus := .sub e.t e.w e.k
  when_ (s.inClause f) (runFocus f) ++
  when_ (e.sub.clause.isNone && e.mayIssue && e.sub.hold.isNone) (execClauseFetch f) ++
  (match e.sub.park with
   | some p => when_ (p.stage == .pending) (if s.forHandler e then execHandlerEntry e.t e.w e.k else execFaultRecord e.t e.w e.k)
   | none => []) ++
  (match e.sub.hold with
   | some h => retryHeld e.t e.w e.k h
   | none => []) ++
  when_ e.sub.yieldTo.isSome (execYieldTimeout e.t e.w e.k) ++
  when_ (e.sub.stepping == 2 || e.sub.stepLanes != 0) (execStep e.t e.w e.k)

/-- The steps of a wave. -/
def State.waveEvents (s : State) (t : Nat) (tm : Team) (w : Nat) (wv : Wave) : List Event :=
  flightEvents (.wave t w) wv.flights ++
  (if tm.state != .resident then []
   else
    (wv.subs.flatMap fun k => ((s.ex? t w k.1).map fun e => s.subEvents e).getD []) ++
    when_ wv.haltAsked (execDebugHaltStop t w) ++
    when_ wv.uspilled (execUniformFrameRefill t w) ++
    ((wv.spilled.filter fun d => !wv.idleDepth d).map fun d => execFrameRefill t w d))

/-- The steps of a team's copies, matrix work and lap. -/
def teamEvents (t : Nat) (tm : Team) : List Event :=
  (tm.copies.flatMap fun c => [execCopyStart t c.1, execCopyUnitMove t c.1, execCopyComplete t c.1, execCopyFault t c.1]) ++
  (tm.mmas.flatMap fun m =>
    [execMmaKstepCommit t m.1 0, execMmaKstepCommit t m.1 1, execMmaFault t m.1 0, execMmaFault t m.1 1, execMmaComplete t m.1]) ++
  (tm.moves.flatMap fun m => [execAccMoveDone t m.1, execAccMovFault t m.1]) ++
  (((tm.lap.map fun l => l.pending).getD []).map fun x => execUndoWriteComplete t x) ++
  when_ tm.stopping (execTeamSwapOut t)

/-- The steps of a span. -/
def State.spanEvents (s : State) (i : Nat) (sp : Span) : List Event :=
  flightEvents (.span i) sp.flights ++
  (match sp.state with
   | .ready => when_ sp.cached.isNone (execSpanRecordFetch i)
   | .running _ _ =>
     when_ (s.inClause (.span i)) (runFocus (.span i)) ++ when_ sp.clause.isNone (execClauseFetch (.span i))
   | .parkedJoin _ _ => [execSjoinTimeout i]
   | .parkedFault _ _ none _ => [fun s' => .next s'.recordSpans]
   | .parkedFault _ _ (some _) _ | .saved => [])

/-- The starts of clauses on the ports of the cores with work. -/
def State.portEvents (s : State) : List Event :=
  let cores := ((s.teams.filter fun p => p.2.state == .resident).map fun p => p.2.core) ++
    (s.spans.filterMap fun p => match p.2.state with
      | .running c _ => some c
      | _ => none)
  cores.eraseDups.flatMap fun c => [0, 1].flatMap fun p =>
    when_ (s.coreUp c && s.portFree c p && !(s.candidates c p).isEmpty) (execClauseStart c p)

/-! ## Placement (R351 to R353, R360) -/

/-- Keys in rising order of a list of numbers each. -/
def insertKey (x : List Nat × Nat) : List (List Nat × Nat) → List (List Nat × Nat)
  | [] => [x]
  | y :: r => if lexLt x.1 y.1 then x :: y :: r else y :: insertKey x r

/-- Objects in the order of their keys. -/
def inOrder (l : List (List Nat × Nat)) : List Nat := (l.foldr insertKey []).map Prod.snd

/-- A placement changes the state of the team: it is admitted, begins its affinity wait, or fails with its grid. -/
def Place.acts (p : Place) (waits : Bool) : Bool :=
  match p with
  | .at_ _ _ _ => true
  | .wait => waits
  | .none => false

/-- The next team of a cursor can be placed. -/
def State.cursorMoves (s : State) (c : Cursor) : Bool :=
  match s.grids.get? c.span.grid with
  | none => false
  | some g =>
    match c.next with
    | none => false
    | some pos =>
      let (bx, by_, bz) := c.span.box.at_ pos
      let patient := (c.affUntil.map fun d => decide (s.devTime (s.ctxDev g.ctx) < d)).getD true
      s.placing g.ctx && !g.stopped &&
      (s.hopeless g || (s.place (c.needs g pos) (g.linear bx by_ bz) patient).acts c.affUntil.isNone)

/-- A swapped-out team can be placed. -/
def State.teamMoves (s : State) (tm : Team) : Bool :=
  match s.grids.get? tm.grid, tm.state with
  | some g, .swapped _ =>
    s.placing tm.ctx && !g.stopped &&
    (s.hopeless g || (s.place (tm.needs g) tm.index (tm.patient (s.devTime (s.ctxDev tm.ctx)))).acts tm.affUntil.isNone)
  | _, _ => false

/-- The first team of a context that can be placed (R352). -/
def State.placeIn (s : State) (ctx : Nat) : List Event :=
  let teams := inOrder (s.teams.filterMap fun p =>
    if p.2.ctx = ctx && s.teamMoves p.2 then some ([p.2.firstOrder.getD p.2.order], p.1) else none)
  let cursors := inOrder (s.cursors.filterMap fun p =>
    match s.grids.get? p.2.span.grid with
    | some g => if g.ctx = ctx && s.cursorMoves p.2 then some ([3 - g.prio, g.age, p.2.age], p.1) else none
    | none => none)
  match teams, cursors with
  | t :: _, _ => [execTeamAdmit t]
  | [], c :: _ => [execCursorTake c]
  | [], [] => []

/-- Contexts of a device with those of weight 0 last, then the largest deficit, then the lowest number (R360). -/
def State.ctxOrder (s : State) (dev : Nat) : List Nat :=
  inOrder (s.ctxs.filterMap fun c =>
    if c.2.dev = dev then some ([if c.2.weight = 0 then 1 else 0, (2 ^ 50 - c.2.deficit).toNat, c.1], c.1) else none)

/-- The placement of a device (R352). -/
def State.placements (s : State) (dev : Nat) : List Event :=
  match ((s.ctxOrder dev).map fun c => s.placeIn c).find? fun l => !l.isEmpty with
  | some l => l
  | none => []

/-- The ready span of highest priority that a slot can be given to (R351). -/
def State.slotGrants (s : State) (dev : Nat) : List Event :=
  let l := inOrder (s.spans.filterMap fun p =>
    if s.ctxDev p.2.ctx = dev && p.2.state == .ready && p.2.cached.isSome && s.placing p.2.ctx then
      some ([3 - ((s.grids.get? p.2.grid).map fun g => g.prio).getD 0, p.1], p.1)
    else none)
  (l.take 1).map fun i => execSpanSlotGrant i

/-! ## Memory and the dies -/

/-- The steps of a core's stash and vents. -/
def coreEvents (n : Nat) (c : Core) : List Event :=
  (c.sectors.flatMap fun p => match p.2.st with
    | .fill => [execSectorFillComplete n p.1, execSectorFillFault n p.1]
    | .wb => [execSectorWritebackComplete n p.1]
    | .clean | .dirty => []) ++
  c.vents.map fun v => if v.started then execVentMove v.b else execVentStart v.b

/-- The frame that a venting channel still holds, and the frames that its bytes go to. -/
def State.pageMove (s : State) : List Event :=
  let held := s.ctxs.flatMap fun c => c.2.pages.filterMap fun p => p.frames.bind fun f =>
    if (List.range f.2).any fun i => s.frameDead c.2.dev (f.1 + i) then some (c.2.dev, f.1, f.2) else none
  held.filterMap fun p => (s.takeFrames p.1 p.2.2).map fun f => execHbmPageMove p.1 p.2.1 f

/-- The steps of slice and channel vents. -/
def State.ventEvents (s : State) : List Event :=
  (s.pkg.l2Vents.map fun v =>
    if !v.started then execVentStart v.b else execL2SliceHandover v.b.unit) ++
  when_ (s.pkg.l2Vents.any fun v => v.started && v.b.st == .hbm) (fun s' => .next s'.hbmCheck) ++
  (if s.pkg.l2Vents.any fun v => v.started && v.b.st == .hbm then s.pageMove else [])

/-- The steps of an open transaction at a home; a host port answers by its own response. -/
def dirEvents (e : DirEntry) : List Event :=
  match e.txn with
  | none => []
  | some t =>
    ((t.acks.filter fun h => h.kind != 3).flatMap fun h =>
      [if t.req.write then execRecallForWrite e.line h else execRecallForRead e.line h, execRecallAck e.line h]) ++
    [execHomeFillComplete e.line, execTranslationFault e.line]

/-- The steps of the phases (R414, R415). -/
def State.phaseEvents (s : State) : List Event :=
  s.cdies.flatMap fun d =>
    when_ (decide (d.2.phdone + 1 < d.2.phase)) (execPhdoneAdvance d.1) ++
    ((List.range 16).filter fun v => (s.mirrors.get? (16 * v + d.1)).getD 0 != d.2.phdone).map fun v =>
      execPhdoneMirrorUpdate v d.1

/-- The steps of a link; its failures come from outside. -/
def linkEvents (n : Nat) (k : Link) : List Event :=
  match k.st with
  | .active => [execLinkIdleSleep n]
  | .sleep => [execLinkWake n]
  | .waking | .slow => [execLinkWakeComplete n]
  | .failed => []

/-- The heartbeat that is due first (R411). -/
def State.beats (s : State) : List Event :=
  let due (d : DieRef) (up : Bool) (last : Nat) : List Event :=
    when_ (up && decide (last + 1000 ≤ s.monitorTime d)) (execHeartbeat d)
  ((List.range 16).flatMap fun d => due (.compute d) (s.cdie d).inService (s.cdie d).heartbeat) ++
  ((List.range 4).flatMap fun f => due (.foundation f) (s.fdie f).inService (s.fdie f).heartbeat)

/-! ## Queues, engines and the unit -/

/-- The next command of a queue or ring (R346, R347, R377). -/
def State.queueEvents (s : State) (k : Nat) (q : Queue) : List Event :=
  (if q.xfer.isSome then when_ q.reading (execTransferAccept k)
   else match s.nextCmd k with
    | none => []
    | some (_, .error _) => [execQueueCommandFenced k]
    | some (_, .ok (_, c)) =>
      if c.err ≠ 0 then [execQueueCommandFenced k]
      else if c.op = 1 then [execQueueLaunch k]
      else if c.op = 2 then [execWaitcnt k]
      else if c.op = 3 then [execSignal k]
      else [execQueueNop k]) ++
  when_ q.owed (fun s' => .next s'.owedHeads) ++
  ((q.live.filter fun c => c.op == 2).map fun c => execWaitcntRelease k c.index.toNat)

/-- The steps of a transfer engine. -/
def engineEvents (n : Nat) (l : Tbl Xfer) : List Event :=
  l.flatMap fun x =>
    [if x.2.off < x.2.len then execTransferBurst n x.1 else execTransferComplete n x.1, execTransferFault n x.1]

/-- The steps of a grid. -/
def State.gridEvents (s : State) (k : Nat) (g : Grid) : List Event :=
  when_ (s.gridOver k g) (execGridComplete k) ++ when_ (!g.complete && s.rotates k g) (execRelayRotation k)

/-- The steps of a pre-emption. -/
def State.ctxEvents (s : State) (k : Nat) (c : Ctx) : List Event :=
  match c.preempt with
  | none => []
  | some _ =>
    if (s.residentOf k).isEmpty then [execPreemptDrainEnd k]
    else [execPreemptDrainDeadline k, execPreemptSwapDeadline k]

/-- A service call by its code (Table 15.3). -/
def callEvent (k : Nat × Call) : List Event :=
  match k.1 with
  | 0x01 => [execCtxCreate k.2]
  | 0x02 => [execCtxDestroy k.2]
  | 0x03 => [execCtxQuery k.2]
  | 0x04 => [execPartSet k.2]
  | 0x05 => [execPartQuery k.2]
  | 0x06 => [execQueueCreate k.2]
  | 0x07 => [execQueueDestroy k.2]
  | 0x08 => [execQueueBindPriority k.2]
  | 0x09 => [execLaunchGrid k.2]
  | 0x0A => [execLaunchCancel k.2]
  | 0x0B => [execShareSet k.2]
  | 0x0C => [execVaReserve k.2]
  | 0x0D => [execVaRelease k.2]
  | 0x0E => [execMemAlloc k.2]
  | 0x0F => [execMemFree k.2]
  | 0x10 => [execMap k.2]
  | 0x11 => [execUnmap k.2]
  | 0x12 => [execProtect k.2]
  | 0x13 => [execAliasRegister k.2]
  | 0x14 => [execRangePurge k.2]
  | 0x15 => [execHostMap k.2]
  | 0x16 => [execPeerMap k.2]
  | 0x17 => [execPeerUnmap k.2]
  | 0x18 => [execFaultFetch k.2]
  | 0x19 => [execFaultResolve k.2]
  | 0x1A => [execFaultAbort k.2]
  | 0x1B => [execCtxSuspend k.2]
  | 0x1C => [execCtxResume k.2]
  | 0x1D => [execDbgAttach k.2]
  | 0x1E => [execDbgHalt k.2]
  | 0x1F => [execDbgStep k.2]
  | 0x20 => [execDbgReadState k.2]
  | 0x21 => [execDbgWriteState k.2]
  | 0x22 => [execDbgDetach k.2]
  | 0x23 => [execCapQuery k.2]
  | 0x24 => [execBankRetire k.2]
  | 0x25 => [execErrLogRead k.2]
  | 0x26 => [execErrClear k.2]
  | 0x27 => [execDieQuarantine k.2]
  | 0x28 => [execLeaseRenew k.2]
  | 0x29 => [execLeaseRelease k.2]
  | 0x2A => [execLeaseTakeover k.2]
  | 0x2B => [execAttestQuote k.2]
  | 0x2C => [execFwStage k.2]
  | 0x2D => [execFwActivate k.2]
  | 0x2E => [execTelemetryRead k.2]
  | 0x2F => [execPowerCapSet k.2]
  | 0x30 => [execResync k.2]
  | _ => []

/-- The steps of the service unit for a device: the oldest call, the calls that wait, the lease and the round. -/
def devEvents (d : Nat) (v : Dev) : List Event :=
  (match v.calls with
   | k :: _ => callEvent k ++ when_ (k.1 == 0 || decide (0x30 < k.1)) (fun s' => .next (s'.rejectFenced d))
   | [] => []) ++
  (v.waiting.flatMap callEvent) ++ when_ (!v.hostWait.isEmpty) (fun s' => .next (s'.hostResume d)) ++
  when_ (!v.peerWait.isEmpty) (fun s' => .next (s'.peerResume d)) ++
  [execAccountingRound d, execLeasePeriodExpiry d, execTakeoverWindowExpiry d]

/-- The steps of the package's log, telemetry and firmware. -/
def State.packageEvents (s : State) : List Event :=
  ((s.pkg.banks.filter fun b => b.window.isSome).map fun b => execErrLogWindowClose b.b) ++
  (s.pkg.staging.map fun p => execFwStageWriteDone p.1) ++ [execTelemetryWindow]

/-! ## The choice -/

/-- Every step that may come next. -/
def State.events (s : State) : List Event :=
  let devs := List.range s.devCount
  (s.teams.flatMap fun p =>
    (p.2.waves.flatMap fun w => s.waveEvents p.1 p.2 w.1 w.2) ++ (if p.2.state == .resident then teamEvents p.1 p.2 else [])) ++
  (s.spans.flatMap fun p => s.spanEvents p.1 p.2) ++ s.portEvents ++
  (devs.flatMap fun d => s.placements d ++ s.slotGrants d) ++
  (s.cores.flatMap fun c => coreEvents c.1 c.2) ++ s.ventEvents ++ (s.dir.flatMap dirEvents) ++ s.phaseEvents ++
  (s.links.flatMap fun k => linkEvents k.1 k.2) ++
  (s.queues.flatMap fun q => s.queueEvents q.1 q.2) ++ (s.engines.flatMap fun e => engineEvents e.1 e.2) ++
  (s.grids.flatMap fun g => s.gridEvents g.1 g.2) ++ (s.ctxs.flatMap fun c => s.ctxEvents c.1 c.2) ++
  (devs.flatMap fun d => devEvents d (s.dev d)) ++ s.packageEvents

/-- A free choice among some steps. -/
def State.pick (s : State) (l : List Event) : Res :=
  match l[Config.freeNat s.fresh % l.length]? with
  | some f => f s
  | none => .next s

/-- The step that the package makes of itself: a heartbeat that is due, or any other. -/
def State.auto (s : State) : Res :=
  match s.beats with
  | f :: _ => f s
  | [] => s.pick s.events

/-! ## Time -/

/-- The time limits of a sub-wave's wait (R167, R223, R258). -/
def SubWave.limits (q : SubWave) (t w k : Nat) : List Event :=
  (match q.hold.map fun h => h.kind with
   | some .waitv => [execWaitvTimeout t w k]
   | some .cntwait => [execCntwaitTimeout t w k]
   | _ => []) ++
  when_ q.yieldTo.isSome (execYieldTimeout t w k)

/-- The durations of the state (R5): each of these events acts only when its time has come. A lease whose end is this very
tick can still be renewed or taken (R426). -/
def State.limits (s : State) : List Event :=
  (s.teams.flatMap fun p => p.2.waves.flatMap fun w => w.2.subs.flatMap fun k => k.2.limits p.1 w.1 k.1) ++
  (s.spans.flatMap fun p => match p.2.state with
    | .parkedJoin _ _ => [execSjoinTimeout p.1]
    | _ => []) ++
  (s.ctxs.flatMap fun c => when_ c.2.preempt.isSome (execPreemptDrainDeadline c.1) ++
    when_ c.2.preempt.isSome (execPreemptSwapDeadline c.1)) ++
  (s.links.flatMap fun l => match l.2.st with
    | .waking => [execLinkSlow l.1]
    | .slow => [execLinkWakeFail l.1]
    | .active | .sleep | .failed => []) ++
  ((s.pkg.banks.filter fun b => b.window.isSome).map fun b => execErrLogWindowClose b.b) ++ [execTelemetryWindow] ++
  (List.range s.devCount).flatMap fun d =>
    let v := s.dev d
    [execAccountingRound d] ++ when_ (decide (v.leaseStart + v.period < s.svcTime)) (execLeasePeriodExpiry d) ++
    when_ (decide (v.leaseStart + v.window < s.svcTime)) (execTakeoverWindowExpiry d)

/-- An event is made, where it gives a next state. -/
def State.made (s : State) (f : Event) : State :=
  match f s with
  | .next s' => s'
  | _ => s

/-- Time passes: cycles of the cores with what the contexts are charged for them (R358) and the ages of the candidates
(R356), and LTIME (R60, R404). A step lasts less than the 1,024 ticks of a round: a heartbeat comes every 1,000 (R411). -/
def State.pass (s : State) : State :=
  let n := 1 + Config.idleCycles s.fresh
  let s := (s.charge n).ageAll n
  { s with
    cycle := s.cycle + n
    fresh := s.fresh + 1
    fdies := s.fdies.zipIdx.map fun p => { p.1 with ltime := p.1.ltime + BitVec.ofNat 64 (Config.ticks p.2 s.fresh % 1024) } }

/-- Time passes, and what is due then happens (R5). -/
def State.tick (s : State) : State :=
  let s := s.pass
  s.limits.foldl State.made s

/-- Time passes after a step. -/
def ticked (r : Res) : Res :=
  match r with
  | .next s => .next s.tick
  | r => r

/-- Events that end a reset held by temperature or supply (R454), and the doorbell that is read after it (R458). -/
def endsHold (i : Instr) : Bool :=
  match i with
  | .thermalRestart _ | .inputRecover _ | .packageReset _ | .svcdbWrite _ _ _ _ => true
  | _ => false

/-- What the state says comes next: an event or input of the agenda, the chosen sub-wave or span, or a step of the
package's own. While the package is held in reset only the end of the reset has an effect. -/
def State.advance (s : State) : Res :=
  match s.agenda with
  | i :: rest =>
    if s.pkg.heldReset ≠ 0 && !endsHold i then .next { s with agenda := rest } else exec i { s with agenda := rest }
  | [] =>
    if s.pkg.heldReset ≠ 0 then .next s
    else
      match s.cur with
      | some f => runFocus f s
      | none => s.auto

/-! ## A program placed from outside -/

/-- Where the code of a placed instruction stands. -/
def codeVa : Nat := 0x100000

/-- The words of a clause that holds one instruction, and its constant when it is an L-form (R75, R89). -/
def clauseWords (w : Nat) : List Nat :=
  let long := match decode (w % 2 ^ 64) (some (BitVec.ofNat 64 (w / 2 ^ 64))) with
    | .ok i => i.constant.isSome
    | .error _ => false
  let hdr : ClauseHeader :=
    { cls := classOf (w % 2 ^ 64 / 2 ^ 54), count := bif long then 1 else 0, wait := 0, yield := false, unif := false, reserved := 0 }
  [hdr.word, w % 2 ^ 64] ++ (bif long then [w / 2 ^ 64 % 2 ^ 64] else [])

/-- The state with one instruction in the code of a grid of one team with one wave of 16 items, which issues next. -/
def State.withCode (s : State) (w : Nat) : State :=
  let g := s.nextId
  let t := g + 1
  let bytes := (clauseWords w).flatMap fun x => natLe 8 x
  let ctx : Ctx := { dev := 0, asid := 0, pages := [{ va := codeVa, size := 65536, target := .hbm 0, perm := 5 }] }
  let grid : Grid :=
    { ctx := 0, num := 1, record := 0, gx := 16, gy := 1, gz := 1, tx := 16, ty := 1, tz := 1, textVa := codeVa
      textLen := bytes.length, poolVa := 0, entry := codeVa }
  let wave : Wave := { present := 0xFFFF, live := 0xFFFF, subs := [(0, { pc := codeVa, mask := 0xFFFF })] }
  let team : Team := { ctx := 0, grid := g, index := 0, bx := 0, by_ := 0, bz := 0, firstOrder := some 0, waves := [(0, wave)] }
  { s with
    cur := some (.sub t 0 0)
    agenda := []
    nextId := t + 1
    ctxs := s.ctxs.set 0 ctx
    grids := s.grids.set g grid
    teams := s.teams.set t team
    mem := s.mem.splice (hbmPlace s.pkg.mode 0 0) bytes }

end Sys2Proof.Machine
end

