-- ==== Sys2Proof/Machine/Step.lean ====
section
/-!
DEFINITION. The step, and the placing of one instruction where the next step fetches it.
-/
namespace Sys2Proof.Machine
open Sys2Proof

/-- One step of the package, and the time that it takes. -/
def step (s : State) : Host.Outcome State Fault Refusal := ticked s.advance

/-- `s` with one instruction as the next that a wave of a team issues: the code that holds it, and the wave. -/
def State.withFetchWord (s : State) (_nbits w : Nat) : State := s.withCode w

end Sys2Proof.Machine
end

