-- ==== Sys2Proof/Safety.lean ====
section
/-!
DEFINITION. The terms in which the claims are stated: a sub-wave that may issue an instruction, what its issue leaves
as it was, what a lane-wise instruction does, the service unit's acceptance of a call, and the properties that every
step keeps.
-/
namespace Sys2Proof.Machine
open Sys2Proof

/-- A property that a step keeps. -/
def Kept (P : State → Prop) : Prop := ∀ s s', P s → step s = .next s' → P s'

/-- `s'` follows from `s` by steps. -/
inductive Leads (s : State) : State → Prop where
  | here : Leads s s
  | next (m s' : State) : Leads s m → step m = .next s' → Leads s s'

/-! ## One instruction issues -/

/-- The sub-wave of `e` issues an instruction with the operands `u` next (R37, R66, R401): it has lanes, all of them live, its
wave has seven predicate registers, no wait holds it (R78), the flag it names has room (R50), and no result that it meets is
still due (R51, R95). -/
structure Runs (s : State) (u : Use) (e : Ex) : Prop where
  cur : s.cur = some (.sub e.t e.w e.k)
  here : s.ex? e.t e.w e.k = some e
  may : e.mayIssue = true
  free : e.sub.hold = none
  lanes : e.sub.mask ≠ 0
  live : e.sub.mask &&& ~~~e.wave.live = 0
  preds : e.wave.preds.length = 7
  room : flagFull e.wave.flags u = false
  due : undersizedBy e.wave.flights u e.sub.depth e.sub.mask e.wave.clock e.sub.waitMask = []

/-- The instruction `i`, whose operands are `u`, issues next. -/
structure Issues (s : State) (i : Instr) (u : Use) (e : Ex) : Prop extends Runs s u e where
  use : i.use = some u

/-- The sub-wave of `e` is held at its instruction with the hold `h` (R78), and its turn has come. -/
structure Resumes (s : State) (e : Ex) (h : Hold) : Prop where
  cur : s.cur = some (.sub e.t e.w e.k)
  here : s.ex? e.t e.w e.k = some e
  may : e.mayIssue = true
  held : e.sub.hold = some h

/-- The participants: the active lanes whose guard is true (R85). -/
def Ex.parts (e : Ex) (u : Use) : Lanes := e.wave.guarded u.hdr e.sub.mask

/-- No participant reads a released register (R65). -/
def Ex.fresh (e : Ex) (u : Use) : Prop := ∀ i ∈ lanesIn (e.parts u), e.wave.staleAt e.sub.depth e.sub.mask u.rd i = false

/-- A register run, read in lane `i` by the sub-wave of `e`, holds the low bits of `v` and is not released. -/
def Wave.shows (w : Wave) (e : Ex) (r : RegRef) (i v : Nat) : Prop :=
  w.rd e.sub.depth e.sub.mask r i = (v % 2 ^ (if r.uni then 64 else 32 * r.n), false)

/-- A register run that the instruction may change: one that it writes, or a source that it uses last (R64). -/
def touches (u : Use) (depth : Nat) (uni : Bool) (key : Nat) : Prop :=
  ∃ r, (r ∈ u.wr ∨ (r ∈ u.rd ∧ r.lu = true)) ∧ r.uni = uni ∧ ∃ j < r.n, regKey (r.idx + j) depth = key

/-- What the issue of an instruction leaves of its own wave: every register that it neither writes nor uses last, every
predicate that it does not write, the control, seed, key and trap registers, and the other sub-waves. -/
structure Wave.Spares (w w' : Wave) (e : Ex) (u : Use) : Prop where
  vregs : ∀ key, ¬ touches u e.sub.depth false key → w'.vregs.get? key = w.vregs.get? key
  uregs : ∀ key, ¬ touches u e.sub.depth true key → w'.uregs.get? key = w.uregs.get? key
  preds : ∀ q, q ∉ u.pw → w'.pget q = w.pget q
  ctl : w'.ctl = w.ctl
  seed : w'.seed = w.seed
  keys : w'.keys = w.keys
  traps : w'.trapCause = w.trapCause ∧ w'.trapPc = w.trapPc ∧ w'.trapAddr = w.trapAddr
  lanes : w'.present = w.present ∧ w'.live = w.live
  joins : w'.joins = w.joins
  others : ∀ k, k ≠ e.k → w'.subs.get? k = w.subs.get? k

/-- What the issue of an instruction leaves of a state of the package, the instruction's own effect made: memory and every
device, every other team, the other waves and the shared state of its own team, and of each core all but its ports. -/
structure State.Spares (s t : State) (e : Ex) : Prop where
  rest : t = { s with teams := t.teams, cores := t.cores }
  cores : ∀ c, ∃ ps, t.core c = { s.core c with ports := ps }
  teams : ∀ k, k ≠ e.t → t.teams.get? k = s.teams.get? k
  team : ∃ tm ws, s.teams.get? e.t = some tm ∧ t.teams.get? e.t = some { tm with waves := ws } ∧
    ∀ k, k ≠ e.w → ws.get? k = tm.waves.get? k

/-- The instruction has issued: the sub-wave stands at its next slot or the next clause (R75), the flag that the
instruction names is one higher (R50), and the stall count has passed (R94). -/
structure Passed (w w' : Wave) (e : Ex) (u : Use) : Prop where
  sub : w'.subs.get? e.k = (w.subs.get? e.k).map SubWave.advance
  flags : w'.flags = flagInc w.flags (u.hdr.flag.map fun f => f.val)
  clock : w'.clock = w.clock + issueCost u

/-- What an instruction gives: a value by lane for its destination register, none where no register is written at issue; a
bit by lane for its destination predicate; floating-point flags, a division by zero, and the draws that it takes. -/
structure Gives where
  val : Option (Nat → Nat) := none
  bit : Nat → Bool := fun _ => false
  fl : FFlags := 0
  divz : Bool := false
  draws : List (Nat × Nat) := []

/-- The issue of an instruction from the state `s`, in which its own effect beyond the wave is made and its wave is `w`: in `t`
its wave is `w'`. Every participant has its result in the destination, the other lanes keep what they had, the sticky words
take the result's flags, and nothing else is changed. A uniform destination holds what the lowest participant computes. -/
structure Issued (u : Use) (e : Ex) (r : Gives) (s t : State) (w w' : Wave) : Prop where
  before : s.wave? e.t e.w = some w
  after : t.wave? e.t e.w = some w'
  regs : ∀ f, r.val = some f → ∀ d ∈ u.wr, ∀ k ∈ lanesIn (e.parts u), w'.shows e d k (f (if d.uni then lowLane (e.parts u) else k))
  idle : ∀ q k, k ∉ lanesIn (e.parts u) → (∀ x ∈ u.rd, x.lu = true → x.uni = false → ¬ (x.idx ≤ q ∧ q < x.idx + x.n)) →
    w'.vget e.sub.depth q k = w.vget e.sub.depth q k
  preds : ∀ q ∈ u.pw, q ≠ 7 → ∀ k ∈ lanesIn (e.parts u), (w'.pget q).getLsbD k = r.bit k
  others : ∀ q k, k ∉ lanesIn (e.parts u) → (w'.pget q).getLsbD k = (w.pget q).getLsbD k
  flags : w'.fpflags = w.fpflags ||| r.fl.setWidth 64
  tstat : w'.tstat = w.tstat ||| (if r.divz then 2 else 0)
  draws : w'.draws = (r.draws.foldl (fun w p => w.drawn p.1 p.2) w).draws
  passed : Passed w w' e u
  wave : Wave.Spares w w' e u
  state : State.Spares s t e

/-- An instruction completes wherever it issues, no participant reads a released register and `ok` holds: its effect beyond
the wave is `g`, and it gives `r`. -/
def EffectLaw (i : Instr) (ok : State → Use → Ex → Prop) (g : State → Use → Ex → State) (r : State → Use → Ex → Gives) : Prop :=
  ∀ (s : State) (u : Use) (e : Ex), Issues s i u e → e.fresh u → ok s u e →
    ∃ t w w', exec i s = .next t ∧ Issued u e (r s u e) (g s u e) t w w'

/-- An instruction that reads and writes registers and predicates alone. -/
def RegLaw (i : Instr) (ok : State → Use → Ex → Prop) (r : State → Use → Ex → Gives) : Prop :=
  EffectLaw i ok (fun s _ _ => s) r

/-- What lane `k` gives to an operation. -/
def Ex.lane (e : Ex) (u : Use) (k : Nat) : LaneIn := e.wave.laneIn e.sub.depth e.sub.mask u k

/-- The state after the lanes of a list have written, one after another: lane `k` writes `f k old` at `d k`. -/
def State.writes (s : State) (e : Ex) (d : Nat → Dest) (n : Nat) (f : Nat → Nat → Nat) (l : List Nat) : State :=
  l.foldl (fun s k => s.poke (s.accessor e k) (d k) n (f k (s.peek (s.accessor e k) (d k) n))) s

/-- The lanes of a list have made their accesses, one after another, lane `k` at `d k`. -/
def State.trail (s : State) (e : Ex) (w : Want) (d : Nat → Dest) (f : Nat → Nat → Nat) (l : List Nat) : Sweep :=
  l.foldl (fun r k => r.access r.s (r.s.accessor e k) w k (d k) f) { s := s }

/-- What lane `k` finds at `d k` once the lanes of `l` have made their accesses: at a peer, what the last of them left there
(R216). -/
def State.found (s : State) (e : Ex) (w : Want) (d : Nat → Dest) (f : Nat → Nat → Nat) (l : List Nat) (k : Nat) : Nat :=
  (s.trail e w d f l).old (s.trail e w d f l).s ((s.trail e w d f l).s.accessor e k) (d k) w.n

/-- The accesses of the lanes `p` at the addresses `ea` all pass Table 7.4 and wait for nothing: lane `k` reaches `d k`. When
all are ready the state is `after []`, and `after l` when the lanes of `l` have made theirs. -/
structure Reached (s : State) (e : Ex) (w : Want) (ea : Nat → Nat) (p : List Nat) (d : Nat → Dest) (after : List Nat → State) : Prop where
  all : s.readyAll e w ea p = { s := after [], dests := p.map fun k => (k, d k) }
  again : ∀ l k, l ++ [k] <+: p → (after l).ready ((after l).accessor e k) w (ea k) = .ok (after l) (d k)

/-- Source `j` as the lowest participant reads it: the operand of an instruction executed once (R242). -/
def Ex.operand (e : Ex) (u : Use) (j : Nat) : Nat := ((e.lane u (lowLane (e.parts u))).src[j]?).getD 0

/-- A lane-wise instruction with the lane function `f` (R85, R138): where no participant traps, each has its own result, and
the sticky flags are the union of the participants'. -/
def LaneLaw (i : Instr) (f : LaneIn → LaneOut) : Prop :=
  RegLaw i (fun _ u e => ∀ k ∈ lanesIn (e.parts u), (f (e.lane u k)).trap e.wave.ctl = none)
    fun _ u e =>
      { val := some fun k => ((f (e.lane u k)).vals[0]?).getD 0
        bit := fun k => ((f (e.lane u k)).bits[0]?).getD false
        fl := (lanesIn (e.parts u)).foldl (fun fl k => fl ||| (f (e.lane u k)).fl) 0
        divz := (lanesIn (e.parts u)).any fun k => (f (e.lane u k)).divz
        draws := (lanesIn (e.parts u)).filterMap fun k =>
          if (f (e.lane u k)).draws = 0 then none else some (k, (f (e.lane u k)).draws) }

/-- Lane `k` of a wave stands at a clause boundary, at a call depth, in one of the sub-waves `subs`, held by nothing. -/
def Stands (subs : Tbl SubWave) (k pc depth : Nat) : Prop :=
  ∃ q sub, subs.get? q = some sub ∧ sub.mask.getLsbD k = true ∧ sub.pc = pc ∧ sub.depth = depth ∧ sub.clause = none ∧
    sub.hold = none

/-- A transfer of control in a wave without join records (R158): wherever `ok` holds and every target is a clause boundary,
each participant goes to its target, at the new call depth, and the other lanes go on after the clause; but for its sub-waves
the wave is what `land` makes of it after the issue, and the other sub-waves stay. -/
def TransferLaw (i : Instr) (target : Ex → Use → Nat → Nat) (depth : Nat → Nat) (ok : Ex → Prop)
    (land : Ex → Lanes → Wave → Wave) : Prop :=
  ∀ (s : State) (u : Use) (e : Ex), Issues s i u e → e.fresh u → ok e → e.wave.joins = [] →
    (∀ k ∈ lanesIn (e.parts u), s.lands (s.grids.get? e.team.grid) (target e u k) = true) →
    ∃ t subs, exec i s = .next t ∧
      t.wave? e.t e.w = some
        { land e (e.parts u) (e.wave.settled e u i.opcode {} .result none s.cycle (e.parts u)) with subs := subs } ∧
      (∀ k ∈ lanesIn (e.parts u), Stands subs k (target e u k) (depth e.sub.depth)) ∧
      (∀ k ∈ lanesIn e.sub.mask, k ∉ lanesIn (e.parts u) → Stands subs k e.sub.after e.sub.depth) ∧
      (∀ q, q ≠ e.k → ∀ b, e.wave.subs.get? q = some b → subs.get? q = some b) ∧ State.Spares s t e

/-! ## Service calls -/

/-- The service unit takes up the call `c`, accepted and not yet begun (R423, R424, R427): its turn has come, no recovery is
on, nothing that must be zero in its block is set, the caller may make it, and it reaches the context that the call acts on. -/
structure Serves (code argc : Nat) (c : Call) (s : State) : Prop where
  turn : s.startable (code, c) = true
  new : (s.dev c.dev).waiting.contains (code, c) = false
  calm : s.pkg.recovery = false
  good : c.bad = false
  zero : ∀ x ∈ c.args.drop argc, x = 0
  may : s.mayCall code c = true
  ctx : namesCtx code = true → s.reaches c c.ctx = true

/-- A call completes with OK (R423, R425): wherever it is taken up, `ok` holds and no line of its block or counter waits for a
purge or a pin (R266, R340), its own effect is `after`, its results are `res`, it leaves the unit's lists, and its block, counter
and vector are written. -/
def CallLaw (i : Instr) (c : Call) (code argc : Nat) (ok : State → Prop) (after : State → State) (res : State → List Nat) : Prop :=
  ∀ s, Serves code argc c s → ok s → (after s).answerBusy c = false →
    exec i s = .next (((after s).dropCall (code, c)).answer c stOk (res s))

/-- A call waits (R423): wherever it is taken up and `ok` holds, it stands among the waiting calls after its effect `after`. -/
def CallWaits (i : Instr) (c : Call) (code argc : Nat) (ok : State → Prop) (after : State → State) : Prop :=
  ∀ s, Serves code argc c s → ok s →
    exec i s = .next (((after s).dropCall (code, c)).modDev c.dev fun v => { v with waiting := v.waiting ++ [(code, c)] })

/-- The checks that come before a call's own part, in their order (R424, R427, R434): the call completes with the status of
the first that fails, and without results. -/
def CallChecks (i : Instr) (c : Call) (code argc : Nat) : Prop :=
  ∀ s, s.startable (code, c) = true → (s.dev c.dev).waiting.contains (code, c) = false → s.answerBusy c = false →
    let fail (status : Nat) : Prop := exec i s = .next ((s.dropCall (code, c)).answer c status [])
    let zero : Prop := ∀ x ∈ c.args.drop argc, x = 0
    let lost : Bool := s.pkg.recovery && !inRecovery code (c.arg 1 != 0)
    (lost = true → fail stRecovery) ∧
    (lost = false → c.bad = true ∨ ¬ zero → fail stBadParam) ∧
    (lost = false → c.bad = false → zero → s.mayCall code c = false → fail stNotHolder) ∧
    (lost = false → c.bad = false → zero → s.mayCall code c = true → namesCtx code = true → s.reaches c c.ctx = false →
      fail stNoContext)

/-! ## Invariants -/

/-- A wave has seven predicate masks, and each of its sub-waves has lanes, all of them live. -/
def Wave.Shaped (w : Wave) : Prop := w.preds.length = 7 ∧ ∀ k ∈ w.subs, k.2.mask ≠ 0 ∧ k.2.mask &&& ~~~w.live = 0

/-- Every wave of a team and of its lap checkpoint is shaped, and every span has seven predicates. -/
def State.Shaped (s : State) : Prop :=
  (∀ t ∈ s.teams, (∀ w ∈ t.2.waves, w.2.Shaped) ∧ ∀ l, t.2.lap = some l → ∀ w ∈ l.waves, w.2.Shaped) ∧
  (∀ p ∈ s.spans, p.2.preds.length = 7) ∧ ∀ c ∈ s.cursors, c.2.span.preds.length = 7

/-- No die's copy of PHDONE is ahead of the die that it mirrors (R301). -/
def State.PhasesBehind (s : State) : Prop :=
  ∀ v < 16, ∀ d < 16, (s.mirrors.get? (16 * v + d)).getD 0 ≤ (s.cdie d).phdone

end Sys2Proof.Machine
end

