-- ==== Sys2Proof/Certificates/Slice0/Obligations.lean ====
section
/-!
DEFINITION. What is stated of the model (OBLIGATIONS.json). Each statement's text says which rules of spec/ it rests on.
-/
open Sys2Proof Sys2Proof.Machine

/-- Without an event in the agenda and out of a hold in reset, the step of a chosen sub-wave or span in a clause is the exec
of the instruction at its slot, and time passes; the instruction of a slot is what the decoder reads from the words of the
code at the slot. An event of the agenda is carried out first. (R75, R78) -/
def Obligations.StepRuns : Prop :=
  (∀ (s : State) (f : Focus) (i : Instr), s.agenda = [] → s.pkg.heldReset = 0 → s.cur = some f → s.inClause f = true → s.instrAt f = some i →
    step s = ticked (unchosen (exec i s))) ∧
  (∀ (s : State) (f : Focus), s.agenda = [] → s.pkg.heldReset = 0 → s.cur = some f → s.inClause f = false →
    let t := (s.fetchFor f).startFor f
    step s = ticked (if t.inClause f then
      match t.instrAt f with
      | some i => unchosen (exec i { t with cur := some f })
      | none => .next { t with cur := none }
    else .next { t with cur := none })) ∧
  (∀ (s : State) (i : Instr) (r : List Instr), s.agenda = i :: r → s.pkg.heldReset = 0 → step s = ticked (exec i { s with agenda := r })) ∧
  (∀ (addr room : Nat) (h : W64) (ws : List W64) (c : Clause), decodeClause addr room h ws = .ok c →
    ∀ x ∈ c.slots, ∃ w, ws[x.ix]? = some w ∧ decode w.toNat ws[x.ix + 1]? = .ok x.ins) ∧
  (∀ (s : State) (g : Grid) (pc : Nat) (c : Clause), s.clauseAt g pc = .ok c →
    ∃ h ws, s.codeWord g.ctx pc = .ok h ∧ s.codeWords g.ctx (pc + 8) (min ((ClauseHeader.of h).count + 1) ((g.textVa + g.textLen - pc) / 8 - 1)) = .ok ws ∧
      decodeClause pc (g.textVa + g.textLen - pc) (BitVec.ofNat 64 h) (ws.map (BitVec.ofNat 64)) = .ok c)

/-- The words that the spec prints beside its examples decode to the instructions that they stand for. (R82, R83, R87, R88)
-/
def Obligations.DecodeWords : Prop :=
  ((decode 0x128FC04000003811 none).toOption = some (.icmpI ⟨⟨3, none, 7, false⟩, .n32, .lt, 1, ⟨false, false, 0⟩, 4⟩)) ∧
  ((decode 0xF003C00000000C20 none).toOption = some (.bra ⟨⟨0, none, 1, true⟩, 8⟩)) ∧
  ((decode 0xE083C02F80003800 none).toOption = some (.ret ⟨⟨0, none, 7, false⟩, ⟨true, 62⟩⟩)) ∧
  ((decode 0x20C3C1006080F810 none).toOption = some (.ffma ⟨⟨0, none, 7, false⟩, .f32, .rz, false, .none, ⟨false, 4⟩, ⟨false, false, 1⟩, ⟨true, false, 2⟩, ⟨false, false, 3⟩⟩)) ∧
  ((decode 0x3083C1410FC03800 none).toOption = some (.fmulI ⟨⟨0, none, 7, false⟩, .f32, ⟨false, 5⟩, ⟨false, false, 4⟩, 0x3F0000⟩)) ∧
  ((decode 0x7003C18140007BA0 none).toOption = some (.lxchI ⟨⟨0, none, 7, false⟩, false, .flip, 3, ⟨false, 6⟩, ⟨false, false, 5⟩, 8⟩)) ∧
  ((decode 0x9000810200003901 none).toOption = some (.ldI ⟨⟨0, some 2, 7, false⟩, .b64, 4, ⟨false, false, 8⟩, 0x40⟩)) ∧
  ((decode 0x8083C00210A17B38 none).toOption = some (.st ⟨⟨0, none, 7, false⟩, .b32, .rel, .die, ⟨false, false, 8⟩, some ⟨false, 2⟩, ⟨true, false, 5⟩⟩)) ∧
  ((decode 0x80C000C1A0403831 none).toOption = some (.atom ⟨⟨0, some 0, 7, false⟩, .add, .n32, .rlx, .die, false, 3, ⟨false, false, 6⟩, ⟨true, false, 1⟩⟩)) ∧
  ((decode 0xA003C00000003B90 none).toOption = some (.fence ⟨⟨0, none, 7, false⟩, .ar, true, .pkg⟩)) ∧
  ((decode 0xA2004032D050B803 none).toOption = some (.smap ⟨⟨0, some 1, 7, false⟩, true, true, ⟨true, 11⟩, ⟨false, 1⟩, ⟨false, 2⟩⟩)) ∧
  ((decode 0xC083C0D0129338C0 none).toOption = some (.cpyg ⟨⟨0, none, 7, false⟩, .die, 3, ⟨false, 0⟩, ⟨false, 10⟩, ⟨false, 12⟩⟩)) ∧
  ((decode 0xC4C0810000814809 none).toOption = some (.mma ⟨⟨0, some 2, 1, false⟩, .m128n64, false, 4, 0, 2, some 5⟩)) ∧
  ((decode 0xE1C3C00000003800 none).toOption = some (.sjoin ⟨0, none⟩))

/-- For every well-formed instruction of code memory, with every operand at every value, the decoder reads the instruction
back from its word and constant; and an instruction that the decoder reads is well formed and encodes to the word. (R82, R83,
R87, R89, R91) -/
def Obligations.EncodeDecode : Prop :=
  (∀ (i : Instr) (w : Nat), i.wf = true → encode i = some w → decode w i.constant = .ok i) ∧
  (∀ (w : Nat) (k : Option W64) (i : Instr), decode w k = .ok i → i.wf = true ∧ encode i = some w)

/-- After package reset nothing is allocated, launched or mapped: no team, span, grid, context, queue, map entry, directory
entry or fault record exists; every compute die has phase 1 and PHDONE 0, every LTIME is 0, the mode is P1, no memory is
listed and nothing is chosen to issue. (R9, R73, R458) -/
def Obligations.ResetState : Prop :=
  State.reset.teams = [] ∧ State.reset.spans = [] ∧ State.reset.grids = [] ∧ State.reset.ctxs = [] ∧ State.reset.queues = [] ∧
    State.reset.dir = [] ∧ State.reset.tlb = [] ∧ State.reset.mem = [] ∧ State.reset.cur = none ∧ State.reset.agenda = [] ∧
    State.reset.pkg.mode = 0 ∧ State.reset.pkg.heldReset = 0 ∧ (∀ k, (State.reset.core k).entries = [] ∧ (State.reset.core k).sectors = []) ∧
    (∀ d, (State.reset.cdie d).phase = 1 ∧ (State.reset.cdie d).phdone = 0) ∧ (∀ f, (State.reset.fdie f).ltime = 0) ∧
    ∀ d, (State.reset.dev d).records = []

/-- The memory after reset has its canonical form, its waves are shaped and no copy of PHDONE is ahead. (R73, R301) -/
def Obligations.ResetInvariants : Prop :=
  (State.reset.mem.wf = true) ∧
  (State.reset.Shaped) ∧
  (State.reset.PhasesBehind)

/-- From every state whose memory is strictly rising by address and lists no byte of value 0, a step leads to such a state,
whichever of the steps of the package it is. (R2, R3) -/
def Obligations.MemoryKept : Prop :=
  Kept fun s => s.mem.wf = true

/-- From every state in which each wave, also of a lap checkpoint, has seven predicates and sub-waves with lanes that are all
live, and each span has seven predicates, a step leads to such a state. (R36, R37, R48, R164) -/
def Obligations.ShapesKept : Prop :=
  Kept State.Shaped

/-- From every state in which no die holds a copy of another die's PHDONE above that PHDONE, a step leads to such a state.
(R301) -/
def Obligations.PhaseCopies : Prop :=
  Kept State.PhasesBehind

/-- Whatever the state, an instruction of code memory with the operands u that is executed for a chosen sub-wave that exists
answers a next state: no operand, mode or trap ends the run. (R75, R85) -/
def Obligations.IssueAnswers : Prop :=
  ∀ (i : Instr) (u : Use) (s : State) (t w k : Nat) (e : Ex), i.use = some u → s.cur = some (.sub t w k) → s.ex? t w k = some e →
    ∃ r, exec i s = .next r

/-- Wherever it issues and no participant traps: every integer instruction of R140 to R144 gives, in each participant, the
exact result of its formula wrapped or saturated to its type; the other lanes keep their values and nothing else of the wave
or the package changes. (R85, R138, R139, R140, R141, R142, R143, R144) -/
def Obligations.IntegerLanes : Prop :=
  (∀ x : Int2, LaneLaw (.iadd x) (fun v => .val (writeI x.t x.sat (readI x.t v.a + readI x.t v.b)))) ∧
  (∀ x : IntI, LaneLaw (.iaddI x) (fun v => .val (writeI x.sz.ty false (readI x.sz.ty v.a + readI x.sz.ty x.k)))) ∧
  (∀ x : IntL, LaneLaw (.iaddL x) (fun v => .val (writeI x.sz.ty false (readI x.sz.ty v.a + readI x.sz.ty x.k.toNat)))) ∧
  (∀ x : Int2, LaneLaw (.isub x) (fun v => .val (writeI x.t x.sat (readI x.t v.a - readI x.t v.b)))) ∧
  (∀ x : IntI, LaneLaw (.isubI x) (fun v => .val (writeI x.sz.ty false (readI x.sz.ty v.a - readI x.sz.ty x.k)))) ∧
  (∀ x : IntL, LaneLaw (.isubL x) (fun v => .val (writeI x.sz.ty false (readI x.sz.ty v.a - readI x.sz.ty x.k.toNat)))) ∧
  (∀ x : Addc, LaneLaw (.iaddc x) (fun v => 
 let r := opAddc x.t v.a v.b (v.p 0)
 { vals := [r.1], bits := [r.2] })) ∧
  (∀ x : Int1, LaneLaw (.ineg x) (fun v => .val (writeI x.t x.sat (0 - readI x.t v.a)))) ∧
  (∀ x : Int1, LaneLaw (.iabs x) (fun v => .val (writeI x.t x.sat ((readI x.t v.a).natAbs : Int)))) ∧
  (∀ x : Int2, LaneLaw (.imul x) (fun v => .val (writeI x.t x.sat (readI x.t v.a * readI x.t v.b)))) ∧
  (∀ x : IntI, LaneLaw (.imulI x) (fun v => .val (writeI x.sz.ty false (readI x.sz.ty v.a * readI x.sz.ty x.k)))) ∧
  (∀ x : IntL, LaneLaw (.imulL x) (fun v => .val (writeI x.sz.ty false (readI x.sz.ty v.a * readI x.sz.ty x.k.toNat)))) ∧
  (∀ x : Bin, LaneLaw (.imulh x) (fun v => .val (writeI x.t false ((readI x.t v.a * readI x.t v.b) / 2 ^ ITy.width x.t)))) ∧
  (∀ x : IntI, LaneLaw (.imulhI x) (fun v => .val (writeI x.sz.ty false ((readI x.sz.ty v.a * readI x.sz.ty x.k) / 2 ^ ITy.width x.sz.ty)))) ∧
  (∀ x : IntL, LaneLaw (.imulhL x) (fun v => .val (writeI x.sz.ty false ((readI x.sz.ty v.a * readI x.sz.ty x.k.toNat) / 2 ^ ITy.width x.sz.ty)))) ∧
  (∀ x : Int3, LaneLaw (.imad x) (fun v => .val (writeI x.t x.sat (readI x.t v.a * readI x.t v.b + readI x.t v.c)))) ∧
  (∀ x : Tern, LaneLaw (.imadw x) (fun v => .val (opMadw x.t v.a v.b v.c))) ∧
  (∀ x : Bin, LaneLaw (.idiv x) (fun v => 
 let r := opDivRem x.t false v.a v.b
 { vals := [r.1], divz := r.2 })) ∧
  (∀ x : IntI, LaneLaw (.idivI x) (fun v => 
 let r := opDivRem x.sz.ty false v.a x.k
 { vals := [r.1], divz := r.2 })) ∧
  (∀ x : IntL, LaneLaw (.idivL x) (fun v => 
 let r := opDivRem x.sz.ty false v.a x.k.toNat
 { vals := [r.1], divz := r.2 })) ∧
  (∀ x : Bin, LaneLaw (.irem x) (fun v => 
 let r := opDivRem x.t true v.a v.b
 { vals := [r.1], divz := r.2 })) ∧
  (∀ x : IntI, LaneLaw (.iremI x) (fun v => 
 let r := opDivRem x.sz.ty true v.a x.k
 { vals := [r.1], divz := r.2 })) ∧
  (∀ x : IntL, LaneLaw (.iremL x) (fun v => 
 let r := opDivRem x.sz.ty true v.a x.k.toNat
 { vals := [r.1], divz := r.2 })) ∧
  (∀ x : Bin, LaneLaw (.imin x) (fun v => .val (writeI x.t false (min (readI x.t v.a) (readI x.t v.b))))) ∧
  (∀ x : IntI, LaneLaw (.iminI x) (fun v => .val (writeI x.sz.ty false (min (readI x.sz.ty v.a) (readI x.sz.ty x.k))))) ∧
  (∀ x : IntL, LaneLaw (.iminL x) (fun v => .val (writeI x.sz.ty false (min (readI x.sz.ty v.a) (readI x.sz.ty x.k.toNat))))) ∧
  (∀ x : Bin, LaneLaw (.imax x) (fun v => .val (writeI x.t false (max (readI x.t v.a) (readI x.t v.b))))) ∧
  (∀ x : IntI, LaneLaw (.imaxI x) (fun v => .val (writeI x.sz.ty false (max (readI x.sz.ty v.a) (readI x.sz.ty x.k))))) ∧
  (∀ x : IntL, LaneLaw (.imaxL x) (fun v => .val (writeI x.sz.ty false (max (readI x.sz.ty v.a) (readI x.sz.ty x.k.toNat))))) ∧
  (∀ x : Tern, LaneLaw (.iclamp x) (fun v => .val (writeI x.t false (min (max (readI x.t v.a) (readI x.t v.b)) (readI x.t v.c))))) ∧
  (∀ x : Cmp, LaneLaw (.icmp x) (fun v => .bit (relI x.rel (readI x.t v.a) (readI x.t v.b)))) ∧
  (∀ x : CmpI, LaneLaw (.icmpI x) (fun v => .bit (relI x.rel (readI x.sz.ty v.a) (readI x.sz.ty x.k)))) ∧
  (∀ x : CmpL, LaneLaw (.icmpL x) (fun v => .bit (relI x.rel (readI x.sz.ty v.a) (readI x.sz.ty x.k.toNat))))

/-- Wherever it issues, an integer arithmetic instruction completes in every participant without a trap and leaves FPFLAGS
and TSTAT as they were; a division does so where no participant divides by zero. (R141) -/
def Obligations.IntegerSilence : Prop :=
  (∀ x : Int2, ∃ (f : State → Use → Ex → Option (Nat → Nat)) (b : State → Use → Ex → Nat → Bool), RegLaw (.iadd x) (fun _ _ _ => True) fun s u e => { val := f s u e, bit := b s u e }) ∧
  (∀ x : IntI, ∃ (f : State → Use → Ex → Option (Nat → Nat)) (b : State → Use → Ex → Nat → Bool), RegLaw (.iaddI x) (fun _ _ _ => True) fun s u e => { val := f s u e, bit := b s u e }) ∧
  (∀ x : IntL, ∃ (f : State → Use → Ex → Option (Nat → Nat)) (b : State → Use → Ex → Nat → Bool), RegLaw (.iaddL x) (fun _ _ _ => True) fun s u e => { val := f s u e, bit := b s u e }) ∧
  (∀ x : Int2, ∃ (f : State → Use → Ex → Option (Nat → Nat)) (b : State → Use → Ex → Nat → Bool), RegLaw (.isub x) (fun _ _ _ => True) fun s u e => { val := f s u e, bit := b s u e }) ∧
  (∀ x : IntI, ∃ (f : State → Use → Ex → Option (Nat → Nat)) (b : State → Use → Ex → Nat → Bool), RegLaw (.isubI x) (fun _ _ _ => True) fun s u e => { val := f s u e, bit := b s u e }) ∧
  (∀ x : IntL, ∃ (f : State → Use → Ex → Option (Nat → Nat)) (b : State → Use → Ex → Nat → Bool), RegLaw (.isubL x) (fun _ _ _ => True) fun s u e => { val := f s u e, bit := b s u e }) ∧
  (∀ x : Addc, ∃ (f : State → Use → Ex → Option (Nat → Nat)) (b : State → Use → Ex → Nat → Bool), RegLaw (.iaddc x) (fun _ _ _ => True) fun s u e => { val := f s u e, bit := b s u e }) ∧
  (∀ x : Int1, ∃ (f : State → Use → Ex → Option (Nat → Nat)) (b : State → Use → Ex → Nat → Bool), RegLaw (.ineg x) (fun _ _ _ => True) fun s u e => { val := f s u e, bit := b s u e }) ∧
  (∀ x : Int1, ∃ (f : State → Use → Ex → Option (Nat → Nat)) (b : State → Use → Ex → Nat → Bool), RegLaw (.iabs x) (fun _ _ _ => True) fun s u e => { val := f s u e, bit := b s u e }) ∧
  (∀ x : Int2, ∃ (f : State → Use → Ex → Option (Nat → Nat)) (b : State → Use → Ex → Nat → Bool), RegLaw (.imul x) (fun _ _ _ => True) fun s u e => { val := f s u e, bit := b s u e }) ∧
  (∀ x : IntI, ∃ (f : State → Use → Ex → Option (Nat → Nat)) (b : State → Use → Ex → Nat → Bool), RegLaw (.imulI x) (fun _ _ _ => True) fun s u e => { val := f s u e, bit := b s u e }) ∧
  (∀ x : IntL, ∃ (f : State → Use → Ex → Option (Nat → Nat)) (b : State → Use → Ex → Nat → Bool), RegLaw (.imulL x) (fun _ _ _ => True) fun s u e => { val := f s u e, bit := b s u e }) ∧
  (∀ x : Bin, ∃ (f : State → Use → Ex → Option (Nat → Nat)) (b : State → Use → Ex → Nat → Bool), RegLaw (.imulh x) (fun _ _ _ => True) fun s u e => { val := f s u e, bit := b s u e }) ∧
  (∀ x : IntI, ∃ (f : State → Use → Ex → Option (Nat → Nat)) (b : State → Use → Ex → Nat → Bool), RegLaw (.imulhI x) (fun _ _ _ => True) fun s u e => { val := f s u e, bit := b s u e }) ∧
  (∀ x : IntL, ∃ (f : State → Use → Ex → Option (Nat → Nat)) (b : State → Use → Ex → Nat → Bool), RegLaw (.imulhL x) (fun _ _ _ => True) fun s u e => { val := f s u e, bit := b s u e }) ∧
  (∀ x : Int3, ∃ (f : State → Use → Ex → Option (Nat → Nat)) (b : State → Use → Ex → Nat → Bool), RegLaw (.imad x) (fun _ _ _ => True) fun s u e => { val := f s u e, bit := b s u e }) ∧
  (∀ x : Tern, ∃ (f : State → Use → Ex → Option (Nat → Nat)) (b : State → Use → Ex → Nat → Bool), RegLaw (.imadw x) (fun _ _ _ => True) fun s u e => { val := f s u e, bit := b s u e }) ∧
  (∀ x : Bin, ∃ (f : State → Use → Ex → Option (Nat → Nat)) (b : State → Use → Ex → Nat → Bool), RegLaw (.idiv x) (fun _ u e => ∀ k ∈ lanesIn (e.parts u), readI x.t ((e.lane u k).b) ≠ 0) fun s u e => { val := f s u e, bit := b s u e }) ∧
  (∀ x : IntI, ∃ (f : State → Use → Ex → Option (Nat → Nat)) (b : State → Use → Ex → Nat → Bool), RegLaw (.idivI x) (fun _ u e => ∀ k ∈ lanesIn (e.parts u), readI x.sz.ty (x.k) ≠ 0) fun s u e => { val := f s u e, bit := b s u e }) ∧
  (∀ x : IntL, ∃ (f : State → Use → Ex → Option (Nat → Nat)) (b : State → Use → Ex → Nat → Bool), RegLaw (.idivL x) (fun _ u e => ∀ k ∈ lanesIn (e.parts u), readI x.sz.ty (x.k.toNat) ≠ 0) fun s u e => { val := f s u e, bit := b s u e }) ∧
  (∀ x : Bin, ∃ (f : State → Use → Ex → Option (Nat → Nat)) (b : State → Use → Ex → Nat → Bool), RegLaw (.irem x) (fun _ u e => ∀ k ∈ lanesIn (e.parts u), readI x.t ((e.lane u k).b) ≠ 0) fun s u e => { val := f s u e, bit := b s u e }) ∧
  (∀ x : IntI, ∃ (f : State → Use → Ex → Option (Nat → Nat)) (b : State → Use → Ex → Nat → Bool), RegLaw (.iremI x) (fun _ u e => ∀ k ∈ lanesIn (e.parts u), readI x.sz.ty (x.k) ≠ 0) fun s u e => { val := f s u e, bit := b s u e }) ∧
  (∀ x : IntL, ∃ (f : State → Use → Ex → Option (Nat → Nat)) (b : State → Use → Ex → Nat → Bool), RegLaw (.iremL x) (fun _ u e => ∀ k ∈ lanesIn (e.parts u), readI x.sz.ty (x.k.toNat) ≠ 0) fun s u e => { val := f s u e, bit := b s u e }) ∧
  (∀ x : Bin, ∃ (f : State → Use → Ex → Option (Nat → Nat)) (b : State → Use → Ex → Nat → Bool), RegLaw (.imin x) (fun _ _ _ => True) fun s u e => { val := f s u e, bit := b s u e }) ∧
  (∀ x : IntI, ∃ (f : State → Use → Ex → Option (Nat → Nat)) (b : State → Use → Ex → Nat → Bool), RegLaw (.iminI x) (fun _ _ _ => True) fun s u e => { val := f s u e, bit := b s u e }) ∧
  (∀ x : IntL, ∃ (f : State → Use → Ex → Option (Nat → Nat)) (b : State → Use → Ex → Nat → Bool), RegLaw (.iminL x) (fun _ _ _ => True) fun s u e => { val := f s u e, bit := b s u e }) ∧
  (∀ x : Bin, ∃ (f : State → Use → Ex → Option (Nat → Nat)) (b : State → Use → Ex → Nat → Bool), RegLaw (.imax x) (fun _ _ _ => True) fun s u e => { val := f s u e, bit := b s u e }) ∧
  (∀ x : IntI, ∃ (f : State → Use → Ex → Option (Nat → Nat)) (b : State → Use → Ex → Nat → Bool), RegLaw (.imaxI x) (fun _ _ _ => True) fun s u e => { val := f s u e, bit := b s u e }) ∧
  (∀ x : IntL, ∃ (f : State → Use → Ex → Option (Nat → Nat)) (b : State → Use → Ex → Nat → Bool), RegLaw (.imaxL x) (fun _ _ _ => True) fun s u e => { val := f s u e, bit := b s u e }) ∧
  (∀ x : Tern, ∃ (f : State → Use → Ex → Option (Nat → Nat)) (b : State → Use → Ex → Nat → Bool), RegLaw (.iclamp x) (fun _ _ _ => True) fun s u e => { val := f s u e, bit := b s u e }) ∧
  (∀ x : Cmp, ∃ (f : State → Use → Ex → Option (Nat → Nat)) (b : State → Use → Ex → Nat → Bool), RegLaw (.icmp x) (fun _ _ _ => True) fun s u e => { val := f s u e, bit := b s u e }) ∧
  (∀ x : CmpI, ∃ (f : State → Use → Ex → Option (Nat → Nat)) (b : State → Use → Ex → Nat → Bool), RegLaw (.icmpI x) (fun _ _ _ => True) fun s u e => { val := f s u e, bit := b s u e }) ∧
  (∀ x : CmpL, ∃ (f : State → Use → Ex → Option (Nat → Nat)) (b : State → Use → Ex → Nat → Bool), RegLaw (.icmpL x) (fun _ _ _ => True) fun s u e => { val := f s u e, bit := b s u e })

/-- For the types of IDIV and IREM: division by zero gives quotient 0 and the dividend as the remainder and is reported; the
least number by -1 gives the least number and 0; else the dividend is the quotient times the divisor plus a remainder that is
smaller than the divisor and has the sign of the dividend. (R142) -/
def Obligations.DivisionLaw : Prop :=
  ∀ t ∈ [ITy.s32, .n32, .s64, .n64, .s16, .n16, .s8, .n8], ∀ a b : Nat,
    let x := readI t a
    let y := readI t b
    let q := readI t (opDivRem t false a b).1
    let r := readI t (opDivRem t true a b).1
    let corner := t.signed = true ∧ x = t.tmin ∧ y = -1
    (opDivRem t false a b).2 = decide (y = 0) ∧ (opDivRem t true a b).2 = decide (y = 0) ∧
    (y = 0 → q = 0 ∧ r = x) ∧ (corner → q = t.tmin ∧ r = 0) ∧
    (y ≠ 0 → ¬ corner → x = q * y + r ∧ r.natAbs < y.natAbs ∧ (0 < r → 0 < x) ∧ (r < 0 → x < 0))

/-- Wherever it issues and no participant traps: every instruction of R145 to R157 that acts lane by lane gives, in each
participant, the value of its operation; the other lanes keep their values and nothing else of the wave or the package
changes. (R85, R138, R145, R146, R147, R148, R149, R150, R151, R152, R153, R154) -/
def Obligations.LogicLanes : Prop :=
  (∀ x : Bin, LaneLaw (.and x) (fun v => .val (opAnd x.t v.a v.b))) ∧
  (∀ x : IntI, LaneLaw (.andI x) (fun v => .val (opAnd x.sz.bty v.a x.k))) ∧
  (∀ x : IntL, LaneLaw (.andL x) (fun v => .val (opAnd x.sz.bty v.a x.k.toNat))) ∧
  (∀ x : Bin, LaneLaw (.or x) (fun v => .val (opOr x.t v.a v.b))) ∧
  (∀ x : IntI, LaneLaw (.orI x) (fun v => .val (opOr x.sz.bty v.a x.k))) ∧
  (∀ x : IntL, LaneLaw (.orL x) (fun v => .val (opOr x.sz.bty v.a x.k.toNat))) ∧
  (∀ x : Bin, LaneLaw (.xor x) (fun v => .val (opXor x.t v.a v.b))) ∧
  (∀ x : IntI, LaneLaw (.xorI x) (fun v => .val (opXor x.sz.bty v.a x.k))) ∧
  (∀ x : IntL, LaneLaw (.xorL x) (fun v => .val (opXor x.sz.bty v.a x.k.toNat))) ∧
  (∀ x : Un, LaneLaw (.not x) (fun v => .val (opNot x.t v.a))) ∧
  (∀ x : Logt, LaneLaw (.logt x) (fun v => .val (opLogt (if x.wide then 64 else 32) x.table.toNat v.a v.b v.c))) ∧
  (∀ x : Bin, LaneLaw (.shl x) (fun v => .val (opShl x.t v.a v.b))) ∧
  (∀ x : IntI, LaneLaw (.shlI x) (fun v => .val (opShl x.sz.bty v.a x.k))) ∧
  (∀ x : IntL, LaneLaw (.shlL x) (fun v => .val (opShl x.sz.bty v.a x.k.toNat))) ∧
  (∀ x : Bin, LaneLaw (.shr x) (fun v => .val (opShr x.t v.a v.b))) ∧
  (∀ x : IntI, LaneLaw (.shrI x) (fun v => .val (opShr x.sz.bty v.a x.k))) ∧
  (∀ x : IntL, LaneLaw (.shrL x) (fun v => .val (opShr x.sz.bty v.a x.k.toNat))) ∧
  (∀ x : Bin, LaneLaw (.sar x) (fun v => .val (opSar x.t v.a v.b))) ∧
  (∀ x : IntI, LaneLaw (.sarI x) (fun v => .val (opSar x.sz.bty v.a x.k))) ∧
  (∀ x : IntL, LaneLaw (.sarL x) (fun v => .val (opSar x.sz.bty v.a x.k.toNat))) ∧
  (∀ x : Bin, LaneLaw (.rol x) (fun v => .val (opRol x.t v.a v.b))) ∧
  (∀ x : IntI, LaneLaw (.rolI x) (fun v => .val (opRol x.sz.bty v.a x.k))) ∧
  (∀ x : IntL, LaneLaw (.rolL x) (fun v => .val (opRol x.sz.bty v.a x.k.toNat))) ∧
  (∀ x : Tern, LaneLaw (.fshl x) (fun v => .val (opFshl x.t v.a v.b v.c))) ∧
  (∀ x : Un, LaneLaw (.popc x) (fun v => .val (opPopc x.t v.a))) ∧
  (∀ x : Un, LaneLaw (.clz x) (fun v => .val (opClz x.t v.a))) ∧
  (∀ x : Un, LaneLaw (.ctz x) (fun v => .val (opCtz x.t v.a))) ∧
  (∀ x : Un, LaneLaw (.brev x) (fun v => .val (opBrev x.t v.a))) ∧
  (∀ x : Bin, LaneLaw (.bfx x) (fun v => .val (opBfx x.t v.a v.b))) ∧
  (∀ x : IntI, LaneLaw (.bfxI x) (fun v => .val (opBfx x.sz.ty v.a x.imm.toNat))) ∧
  (∀ x : IntL, LaneLaw (.bfxL x) (fun v => .val (opBfx x.sz.ty v.a x.k.toNat))) ∧
  (∀ x : Tern, LaneLaw (.bfi x) (fun v => .val (opBfi x.t v.a v.b v.c))) ∧
  (∀ x : Bysel, LaneLaw (.bysel x) (fun v => .val (opBysel v.a v.b v.c))) ∧
  (∀ x : ByselI, LaneLaw (.byselI x) (fun v => .val (opBysel v.a 0 x.imm.toNat))) ∧
  (∀ x : ByselL, LaneLaw (.byselL x) (fun v => .val (opBysel v.a 0 x.k.toNat))) ∧
  (∀ x : Lea, LaneLaw (.lea x) (fun v => .val (opLea x.t x.sh.val v.a v.b))) ∧
  (∀ x : IntI, LaneLaw (.leaI x) (fun v => .val (opLea x.sz.ty 0 v.a x.k))) ∧
  (∀ x : IntL, LaneLaw (.leaL x) (fun v => .val (opLea x.sz.ty 0 v.a x.k.toNat))) ∧
  (∀ x : Un, LaneLaw (.mov x) (fun v => .val (low x.t.width v.a))) ∧
  (∀ x : MovI, LaneLaw (.movi x) (fun _ => .val (low x.sz.bty.width (x.sz.widen x.imm)))) ∧
  (∀ x : MovL, LaneLaw (.movl x) (fun _ => .val (low x.sz.bty.width x.k.toNat))) ∧
  (∀ x : SelOp, LaneLaw (.sel x) (fun v => .val (low x.t.width (if v.p 0 then v.a else v.b)))) ∧
  (∀ x : Plop, LaneLaw (.plop x) (fun v => .bit (opPlop x.table.toNat (v.p 0) (v.p 1) (v.p 2))))

/-- POPC counts the ones of its operand, CLZ the zeros above the highest one and CTZ the zeros below the lowest one; both
give W for zero. Every participant, or a uniform destination, receives the count. (R148) -/
def Obligations.BitCounts : Prop :=
  (∀ x : Un, ∃ f : State → Use → Ex → Nat → Nat, RegLaw (.popc x) (fun _ _ _ => True) (fun s u e => { val := some (f s u e) }) ∧
    ∀ s u e k, f s u e k = ((List.range x.t.width).filter fun i => (e.lane u k).a.testBit i).length) ∧
  (∀ x : Un, ∃ f : State → Use → Ex → Nat → Nat, RegLaw (.clz x) (fun _ _ _ => True) (fun s u e => { val := some (f s u e) }) ∧
    ∀ s u e k, let a := (e.lane u k).a % 2 ^ x.t.width
      (a = 0 → f s u e k = x.t.width) ∧
      (a ≠ 0 → f s u e k < x.t.width ∧ a.testBit (x.t.width - 1 - f s u e k) = true ∧
        ∀ i, x.t.width - 1 - f s u e k < i → a.testBit i = false)) ∧
  (∀ x : Un, ∃ f : State → Use → Ex → Nat → Nat, RegLaw (.ctz x) (fun _ _ _ => True) (fun s u e => { val := some (f s u e) }) ∧
    ∀ s u e k, let a := (e.lane u k).a % 2 ^ x.t.width
      (a = 0 → f s u e k = x.t.width) ∧
      (a ≠ 0 → f s u e k < x.t.width ∧ a.testBit (f s u e k) = true ∧ ∀ i < f s u e k, a.testBit i = false))

/-- Wherever it issues and no participant traps: every floating-point instruction delivers in each participant its operation
rounded as its word says, and raises the sticky flags of all participants; the other lanes keep their values and nothing else
of the wave or the package changes. (R85, R129, R172, R173, R174, R175, R176, R177, R178, R179, R180, R181) -/
def Obligations.FloatLanes : Prop :=
  (∀ x : FBin, LaneLaw (.fadd x) (fun v => .flt (fAdd (fctx x.t x.rm x.ftz x.sgn v.ctl) (fsrc x.t v.a) (fsrc x.t v.b)))) ∧
  (∀ x : FI, LaneLaw (.faddI x) (fun v => .flt (fAdd (fctxK x.t v.ctl) (fsrc x.t v.a) (fimm x.t x.imm)))) ∧
  (∀ x : FL, LaneLaw (.faddL x) (fun v => .flt (fAdd (fctxK x.t v.ctl) (fsrc x.t v.a) (fsrc x.t x.k.toNat)))) ∧
  (∀ x : FBin, LaneLaw (.fsub x) (fun v => .flt (fSub (fctx x.t x.rm x.ftz x.sgn v.ctl) (fsrc x.t v.a) (fsrc x.t v.b)))) ∧
  (∀ x : FI, LaneLaw (.fsubI x) (fun v => .flt (fSub (fctxK x.t v.ctl) (fsrc x.t v.a) (fimm x.t x.imm)))) ∧
  (∀ x : FL, LaneLaw (.fsubL x) (fun v => .flt (fSub (fctxK x.t v.ctl) (fsrc x.t v.a) (fsrc x.t x.k.toNat)))) ∧
  (∀ x : FBin, LaneLaw (.fmul x) (fun v => .flt (fMul (fctx x.t x.rm x.ftz x.sgn v.ctl) (fsrc x.t v.a) (fsrc x.t v.b)))) ∧
  (∀ x : FI, LaneLaw (.fmulI x) (fun v => .flt (fMul (fctxK x.t v.ctl) (fsrc x.t v.a) (fimm x.t x.imm)))) ∧
  (∀ x : FL, LaneLaw (.fmulL x) (fun v => .flt (fMul (fctxK x.t v.ctl) (fsrc x.t v.a) (fsrc x.t x.k.toNat)))) ∧
  (∀ x : FTern, LaneLaw (.ffma x) (fun v => .flt (fFma (fctx x.t x.rm x.ftz x.sgn v.ctl) (fsrc x.t v.a) (fsrc x.t v.b) (fsrc x.t v.c)))) ∧
  (∀ x : FMM, LaneLaw (.fmin x) (fun v => .flt (fMM (fctx x.t .rne x.ftz x.sgn v.ctl) false x.prop (fsrc x.t v.a) (fsrc x.t v.b)))) ∧
  (∀ x : FI, LaneLaw (.fminI x) (fun v => .flt (fMM (fctxK x.t v.ctl) false false (fsrc x.t v.a) (fimm x.t x.imm)))) ∧
  (∀ x : FL, LaneLaw (.fminL x) (fun v => .flt (fMM (fctxK x.t v.ctl) false false (fsrc x.t v.a) (fsrc x.t x.k.toNat)))) ∧
  (∀ x : FMM, LaneLaw (.fmax x) (fun v => .flt (fMM (fctx x.t .rne x.ftz x.sgn v.ctl) true x.prop (fsrc x.t v.a) (fsrc x.t v.b)))) ∧
  (∀ x : FI, LaneLaw (.fmaxI x) (fun v => .flt (fMM (fctxK x.t v.ctl) true false (fsrc x.t v.a) (fimm x.t x.imm)))) ∧
  (∀ x : FL, LaneLaw (.fmaxL x) (fun v => .flt (fMM (fctxK x.t v.ctl) true false (fsrc x.t v.a) (fsrc x.t x.k.toNat)))) ∧
  (∀ x : FCmp, LaneLaw (.fcmp x) (fun v => fCmp (fctx x.t .rne x.ftz x.sgn v.ctl) x.rel (fsrc x.t v.a) (fsrc x.t v.b))) ∧
  (∀ x : FCmpI, LaneLaw (.fcmpI x) (fun v => fCmp (fctxK x.t v.ctl) x.rel (fsrc x.t v.a) (fimm x.t x.imm))) ∧
  (∀ x : FCmpL, LaneLaw (.fcmpL x) (fun v => fCmp (fctxK x.t v.ctl) x.rel (fsrc x.t v.a) (fsrc x.t x.k.toNat))) ∧
  (∀ x : FCls, LaneLaw (.fclass x) (fun v => .val (fClass x.t (fsrc x.t v.a)))) ∧
  (∀ x : FUn, LaneLaw (.frnd x) (fun v => .flt (fRound (fctx x.t x.rm x.ftz x.sgn v.ctl) (fsrc x.t v.a)))) ∧
  (∀ x : FBin, LaneLaw (.fscale x) (fun v => .flt (fScale (fctx x.t x.rm x.ftz x.sgn v.ctl) (fsrc x.t v.a) (readI .s32 v.b)))) ∧
  (∀ x : FI, LaneLaw (.fscaleI x) (fun v => .flt (fScale (fctxK x.t v.ctl) (fsrc x.t v.a) x.imm.toInt))) ∧
  (∀ x : FL, LaneLaw (.fscaleL x) (fun v => .flt (fScale (fctxK x.t v.ctl) (fsrc x.t v.a) (readI .s32 x.k.toNat)))) ∧
  (∀ x : FBin, LaneLaw (.fdiv x) (fun v => .flt (fDiv (fctx x.t x.rm x.ftz x.sgn v.ctl) (fsrc x.t v.a) (fsrc x.t v.b)))) ∧
  (∀ x : FUn, LaneLaw (.fsqrt x) (fun v => .flt (fSqrt (fctx x.t x.rm x.ftz x.sgn v.ctl) (fsrc x.t v.a)))) ∧
  (∀ x : FUn, LaneLaw (.frcp x) (fun v => .flt (fRcp (fctx x.t x.rm x.ftz x.sgn v.ctl) (fsrc x.t v.a)))) ∧
  (∀ x : FUn, LaneLaw (.frsq x) (fun v => .flt (fRsq (fctx x.t x.rm x.ftz x.sgn v.ctl) (fsrc x.t v.a)))) ∧
  (∀ x : FUn, LaneLaw (.fexp2 x) (fun v => .flt (fExp2 (fctx x.t x.rm x.ftz x.sgn v.ctl) (fsrc x.t v.a)))) ∧
  (∀ x : FUn, LaneLaw (.flog2 x) (fun v => .flt (fLog2 (fctx x.t x.rm x.ftz x.sgn v.ctl) (fsrc x.t v.a)))) ∧
  (∀ x : FUn, LaneLaw (.fsinpi x) (fun v => .flt (fSinPi (fctx x.t x.rm x.ftz x.sgn v.ctl) (fsrc x.t v.a)))) ∧
  (∀ x : FUn, LaneLaw (.fcospi x) (fun v => .flt (fCosPi (fctx x.t x.rm x.ftz x.sgn v.ctl) (fsrc x.t v.a))))

/-- Wherever it issues and no participant traps: as the instructions of 16 and 32 bits, on register pairs; the other lanes
keep their values and nothing else of the wave or the package changes. (R85, R129, R182, R183, R184) -/
def Obligations.DoubleLanes : Prop :=
  (∀ x : FBin, LaneLaw (.faddF64 x) (fun v => .flt (fAdd (fctx x.t x.rm x.ftz x.sgn v.ctl) (fsrc x.t v.a) (fsrc x.t v.b)))) ∧
  (∀ x : FI, LaneLaw (.faddF64I x) (fun v => .flt (fAdd (fctxK x.t v.ctl) (fsrc x.t v.a) (fimm x.t x.imm)))) ∧
  (∀ x : FL, LaneLaw (.faddF64L x) (fun v => .flt (fAdd (fctxK x.t v.ctl) (fsrc x.t v.a) (fsrc x.t x.k.toNat)))) ∧
  (∀ x : FBin, LaneLaw (.fsubF64 x) (fun v => .flt (fSub (fctx x.t x.rm x.ftz x.sgn v.ctl) (fsrc x.t v.a) (fsrc x.t v.b)))) ∧
  (∀ x : FI, LaneLaw (.fsubF64I x) (fun v => .flt (fSub (fctxK x.t v.ctl) (fsrc x.t v.a) (fimm x.t x.imm)))) ∧
  (∀ x : FL, LaneLaw (.fsubF64L x) (fun v => .flt (fSub (fctxK x.t v.ctl) (fsrc x.t v.a) (fsrc x.t x.k.toNat)))) ∧
  (∀ x : FBin, LaneLaw (.fmulF64 x) (fun v => .flt (fMul (fctx x.t x.rm x.ftz x.sgn v.ctl) (fsrc x.t v.a) (fsrc x.t v.b)))) ∧
  (∀ x : FI, LaneLaw (.fmulF64I x) (fun v => .flt (fMul (fctxK x.t v.ctl) (fsrc x.t v.a) (fimm x.t x.imm)))) ∧
  (∀ x : FL, LaneLaw (.fmulF64L x) (fun v => .flt (fMul (fctxK x.t v.ctl) (fsrc x.t v.a) (fsrc x.t x.k.toNat)))) ∧
  (∀ x : FTern, LaneLaw (.ffmaF64 x) (fun v => .flt (fFma (fctx x.t x.rm x.ftz x.sgn v.ctl) (fsrc x.t v.a) (fsrc x.t v.b) (fsrc x.t v.c)))) ∧
  (∀ x : FMM, LaneLaw (.fminF64 x) (fun v => .flt (fMM (fctx x.t .rne x.ftz x.sgn v.ctl) false x.prop (fsrc x.t v.a) (fsrc x.t v.b)))) ∧
  (∀ x : FI, LaneLaw (.fminF64I x) (fun v => .flt (fMM (fctxK x.t v.ctl) false false (fsrc x.t v.a) (fimm x.t x.imm)))) ∧
  (∀ x : FL, LaneLaw (.fminF64L x) (fun v => .flt (fMM (fctxK x.t v.ctl) false false (fsrc x.t v.a) (fsrc x.t x.k.toNat)))) ∧
  (∀ x : FMM, LaneLaw (.fmaxF64 x) (fun v => .flt (fMM (fctx x.t .rne x.ftz x.sgn v.ctl) true x.prop (fsrc x.t v.a) (fsrc x.t v.b)))) ∧
  (∀ x : FI, LaneLaw (.fmaxF64I x) (fun v => .flt (fMM (fctxK x.t v.ctl) true false (fsrc x.t v.a) (fimm x.t x.imm)))) ∧
  (∀ x : FL, LaneLaw (.fmaxF64L x) (fun v => .flt (fMM (fctxK x.t v.ctl) true false (fsrc x.t v.a) (fsrc x.t x.k.toNat)))) ∧
  (∀ x : FCmp, LaneLaw (.fcmpF64 x) (fun v => fCmp (fctx x.t .rne x.ftz x.sgn v.ctl) x.rel (fsrc x.t v.a) (fsrc x.t v.b))) ∧
  (∀ x : FCmpI, LaneLaw (.fcmpF64I x) (fun v => fCmp (fctxK x.t v.ctl) x.rel (fsrc x.t v.a) (fimm x.t x.imm))) ∧
  (∀ x : FCmpL, LaneLaw (.fcmpF64L x) (fun v => fCmp (fctxK x.t v.ctl) x.rel (fsrc x.t v.a) (fsrc x.t x.k.toNat))) ∧
  (∀ x : FCls, LaneLaw (.fclassF64 x) (fun v => .val (fClass x.t (fsrc x.t v.a)))) ∧
  (∀ x : FUn, LaneLaw (.frndF64 x) (fun v => .flt (fRound (fctx x.t x.rm x.ftz x.sgn v.ctl) (fsrc x.t v.a)))) ∧
  (∀ x : FBin, LaneLaw (.fscaleF64 x) (fun v => .flt (fScale (fctx x.t x.rm x.ftz x.sgn v.ctl) (fsrc x.t v.a) (readI .s32 v.b)))) ∧
  (∀ x : FI, LaneLaw (.fscaleF64I x) (fun v => .flt (fScale (fctxK x.t v.ctl) (fsrc x.t v.a) x.imm.toInt))) ∧
  (∀ x : FL, LaneLaw (.fscaleF64L x) (fun v => .flt (fScale (fctxK x.t v.ctl) (fsrc x.t v.a) (readI .s32 x.k.toNat)))) ∧
  (∀ x : FBin, LaneLaw (.fdivF64 x) (fun v => .flt (fDiv (fctx x.t x.rm x.ftz x.sgn v.ctl) (fsrc x.t v.a) (fsrc x.t v.b)))) ∧
  (∀ x : FUn, LaneLaw (.fsqrtF64 x) (fun v => .flt (fSqrt (fctx x.t x.rm x.ftz x.sgn v.ctl) (fsrc x.t v.a)))) ∧
  (∀ x : FUn, LaneLaw (.frcpF64 x) (fun v => .flt (fRcp (fctx x.t x.rm x.ftz x.sgn v.ctl) (fsrc x.t v.a))))

/-- Wherever it issues and no participant traps: each participant receives the packed or dot-product result; the other lanes
keep their values and nothing else of the wave or the package changes. (R85, R129, R185, R186, R187) -/
def Obligations.PackedLanes : Prop :=
  (∀ x : FBin, LaneLaw (.hadd2 x) (fun v => .flt (packed2 fun i => fAdd (fctx x.t x.rm x.ftz x.sgn v.ctl) (half16 v.a i) (half16 v.b i)))) ∧
  (∀ x : FBin, LaneLaw (.hmul2 x) (fun v => .flt (packed2 fun i => fMul (fctx x.t x.rm x.ftz x.sgn v.ctl) (half16 v.a i) (half16 v.b i)))) ∧
  (∀ x : FTern, LaneLaw (.hfma2 x) (fun v => .flt (packed2 fun i => fFma (fctx x.t x.rm x.ftz x.sgn v.ctl) (half16 v.a i) (half16 v.b i) (half16 v.c i)))) ∧
  (∀ x : Dot2, LaneLaw (.dot2 x) (fun v => 
 let ftz := v.ctl.getLsbD 4 || x.ftz
 .flt (fDot x.t x.t 2 x.rm ftz ftz v.a v.b (low 32 v.c)))) ∧
  (∀ x : Dot4, LaneLaw (.dot4 x) (fun v => .flt (fDot x.ta (x.tb.getD x.ta) 4 x.rm false (v.ctl.getLsbD 4 || x.ftz) v.a v.b (low 32 v.c))))

/-- Wherever it issues, LXCH, VOTE, BALLOT, REDUX, SCAN, MATCH and AMAX give every participant the value that R194 and R199
to R204 compute from all participants; nothing else changes. (R194, R196, R197, R198, R199, R200, R201, R202, R203, R204) -/
def Obligations.LaneExchange : Prop :=
  (∀ x : Lxch, RegLaw (.lxch x) (fun _ _ _ => True) fun _ u e =>
    { val := some fun k => low (if x.wide then 64 else 32)
        (match lxchLane x.mode x.seg.val k (low 32 (e.lane u k).b) (readI .s32 (e.lane u k).b) with
         | some q => if (e.parts u).getLsbD q then (e.lane u q).a else (e.lane u k).a
         | none => (e.lane u k).a) }) ∧
  (∀ x: LxchI, RegLaw (.lxchI x) (fun _ _ _ => True) fun _ u e =>
    { val := some fun k => low (if x.wide then 64 else 32)
        (match lxchLane x.mode x.seg.val k x.sel.toNat x.sel.toInt with
         | some q => if (e.parts u).getLsbD q then (e.lane u q).a else (e.lane u k).a
         | none => (e.lane u k).a) }) ∧
  (∀ x: Vote, RegLaw (.vote x) (fun _ _ _ => True) fun _ u e =>
    let l := lanesIn (e.parts u)
    { bit := fun _ => match x.mode with
        | .any => l.any fun k => (e.lane u k).p 0
        | .all => l.all fun k => (e.lane u k).p 0
        | .same => (l.all fun k => (e.lane u k).p 0) || l.all fun k => !(e.lane u k).p 0
        | .none => l.all fun k => !(e.lane u k).p 0 }) ∧
  (∀ x: Ballot, RegLaw (.ballot x) (fun _ _ _ => True) fun _ u e =>
    { val := some fun _ => (lanesOf fun k => (e.parts u).getLsbD k && (e.lane u k).p 0).toNat }) ∧
  (∀ x: Redux, RegLaw (.redux x)
    (fun _ u e => e.parts u ≠ 0 →
      (reduce x.op x.t e.wave.ftz (laneList.map fun k => if (e.parts u).getLsbD k then some (normN x.t (e.lane u k).a) else none)).2 &&&
        ctlEnables e.wave.ctl = 0)
    fun _ u e =>
      let y := reduce x.op x.t e.wave.ftz (laneList.map fun k => if (e.parts u).getLsbD k then some (normN x.t (e.lane u k).a) else none)
      { val := some fun _ => y.1, fl := if e.parts u = 0 then 0 else y.2 }) ∧
  (∀ x: ScanOp, RegLaw (.scan x)
    (fun _ u e => (scanList x.op x.t e.wave.ftz x.exc ((lanesIn (e.parts u)).map fun k => normN x.t (e.lane u k).a)).2 &&&
      ctlEnables e.wave.ctl = 0)
    fun _ u e =>
      let y := scanList x.op x.t e.wave.ftz x.exc ((lanesIn (e.parts u)).map fun k => normN x.t (e.lane u k).a)
      { val := some fun k => (y.1[(lanesIn (e.parts u)).idxOf k]?).getD 0, fl := y.2 }) ∧
  (∀ x: MatchOp, RegLaw (.matchOp x) (fun _ _ _ => True) fun _ u e =>
    let v (k : Nat) : Nat := low (if x.wide then 64 else 32) (e.lane u k).a
    { val := some fun k =>
        if x.unif then (if (lanesIn (e.parts u)).all fun q => v q == v (lowLane (e.parts u)) then (e.parts u).toNat else 0)
        else (lanesOf fun q => (e.parts u).getLsbD q && v q == v k).toNat }) ∧
  (∀ x: Amax, RegLaw (.amax x) (fun _ _ _ => True) fun _ u e =>
    { val := some fun _ => opAmax x.t x.prop ((lanesIn (e.parts u)).map fun k => fsrc x.t (e.lane u k).a) })

/-- QBLK gives the registers of its block to the participants: zeros under format code 0, and under codes 1 to 6 the block
that R192 makes of the elements of the participants, with the union of their flags. (R191, R192) -/
def Obligations.BlockQuantize : Prop :=
  (∀ (x : Qblk) (v : Use) (s : State) (e : Ex), (Instr.qblk x).use = some v →
    let u := qblkNames x v e
    let c := low 8 (e.lane u (lowLane (e.parts u))).b
    let sc := low 8 (e.lane u (lowLane (e.parts u))).a
    Runs s u e → e.fresh u → e.parts u ≠ 0 → c = 0 →
    ∃ t w', exec (.qblk x) s = .next t ∧ Issued u e { val := some fun _ => 0 } s t e.wave w') ∧
  (∀ (x : Qblk) (v : Use) (s : State) (e : Ex), (Instr.qblk x).use = some v →
    let u := qblkNames x v e
    let c := low 8 (e.lane u (lowLane (e.parts u))).b
    let sc := low 8 (e.lane u (lowLane (e.parts u))).a
    Runs s u e → e.fresh u → e.parts u ≠ 0 → 1 ≤ c → c ≤ 6 → ¬ (x.rm = .sr ∧ c = 4) →
    let blk := qblkBlock x e (e.parts u) (e.lane u)
    blk.fl &&& ctlEnables e.wave.ctl = 0 → blk.ovTrap = false →
    ∃ t w', exec (.qblk x) s = .next t ∧ Issued u e
      { val := some fun i => low 32 (blk.bits / 2 ^ (32 * i))
        fl := blk.fl
        draws := if x.rm = .sr ∧ sc ≠ 255 then
            (lanesIn (e.parts u)).map fun i => (i, ((List.range ((blkCount c).getD 0)).filter fun j => j % 16 == i).length)
          else [] } s t e.wave w')

/-- MOVS gives each participant the special register, SHAPE the shape code, CVT the converted value (under SR with a uniform
destination, by the draw of a participant that the manual does not name: the model takes a free value, log entry 15), and
QUNPK the eight elements of a block that its sixteen lanes hold; nothing else changes. (R156, R171, R188, R189, R190, R191,
R193) -/
def Obligations.MoveSpecial : Prop :=
  (∀ (x : MovS) (g : Grid), RegLaw (.movs x) (fun s _ e => s.grids.get? e.team.grid = some g) fun s _ e => { val := some fun k => low (if x.wide then 64 else 32) (specialReg g e (e.gang ((s.core e.team.core).gangMax (e.w % 2)) s.fresh) x.sr k) }) ∧
  (∀ x : ShapeOp, RegLaw (.shape x) (fun _ _ _ => True) fun _ _ e => { val := some fun _ => shapeInTeam e.wave e.sub.depth e.sub.mask x }) ∧
  (∀ x : Cvt, ¬ (x.rm = .sr ∧ x.d.uni = true) → LaneLaw (.cvt x) fun v => cvtLane x v.ctl v.a (v.draw 0)) ∧
  (∀ (x : Cvt) (s : State) (u : Use) (e : Ex), x.rm = .sr → x.d.uni = true → Issues s (.cvt x) u e → e.fresh u → e.parts u ≠ 0 →
    (∀ q ∈ lanesIn (e.parts u), ∀ k ∈ lanesIn (e.parts u),
      (cvtLane x e.wave.ctl (e.lane u k).a ((e.lane u q).draw 0)).trap e.wave.ctl = none) →
    ∃ q ∈ lanesIn (e.parts u), ∃ t w', exec (.cvt x) s = .next t ∧ t.wave? e.t e.w = some w' ∧
      (∀ k ∈ lanesIn (e.parts u), w'.shows e (x.d.ref x.td.regs) k
        (((cvtLane x e.wave.ctl (e.lane u (lowLane (e.parts u))).a ((e.lane u q).draw 0)).vals[0]?).getD 0)) ∧
      Passed e.wave w' e u ∧ Wave.Spares e.wave w' e u ∧ State.Spares s t e) ∧
  (∀ x : Qunpk, RegLaw (.qunpk x)
    (fun _ u e => e.parts u ≠ 0 ∧ (laneList.all fun i => !(e.wave.vget e.sub.depth x.a.idx.val i).2) = true ∧
      blockOf e.wave e.sub.depth x.a.idx.val % 256 ≤ 6 ∧
      unpackFlags x.rm e.wave.ftz (blockOf e.wave e.sub.depth x.a.idx.val) &&& ctlEnables e.wave.ctl = 0)
    fun _ _ e =>
      { val := some (unpackVal x.rm e.wave.ftz (blockOf e.wave e.sub.depth x.a.idx.val))
        fl := unpackFlags x.rm e.wave.ftz (blockOf e.wave e.sub.depth x.a.idx.val) })

/-- In a team NOP, MAT and SJOIN change nothing but their place, their flag and the wave clock. (R169, R170, R279) -/
def Obligations.NoEffect : Prop :=
  (∀ x : Bare, RegLaw (.nop x) (fun _ _ _ => True) fun _ _ _ => {}) ∧
  (∀ x : Bare, RegLaw (.mat x) (fun _ _ _ => True) fun _ _ _ => {}) ∧
  (∀ x : Bare, RegLaw (.sjoin x) (fun _ _ _ => True) fun _ _ _ => {})

/-- Predicate 7 of every wave reads true in every lane and a write to it leaves the wave as it was; a write of another
predicate changes the named lanes of that predicate and nothing else. (R48) -/
def Obligations.PredicateSeven : Prop :=
  (∀ (w : Wave) (k : Nat), k < 16 → (w.pget 7).getLsbD k = true) ∧
  (∀ (w : Wave) (m v : Lanes), w.pput 7 m v = w) ∧
  (∀ (w : Wave) (q : Nat) (m v : Lanes), q < 7 → w.preds.length = 7 →
    (∀ k, ((w.pput q m v).pget q).getLsbD k = if m.getLsbD k then v.getLsbD k else (w.pget q).getLsbD k) ∧
    (∀ p, p ≠ q → (w.pput q m v).pget p = w.pget p) ∧ w.pput q m v = { w with preds := (w.pput q m v).preds })

/-- Where the accesses of all participants pass Table 7.4 and wait for nothing, LD gives every participant the bytes at its
address, extended as its type says, and LDU gives the bytes at the address of the lowest participant; the conflict cycles of
the stash are counted and nothing else is changed. (R205, R209, R210) -/
def Obligations.Loads : Prop :=
  (∀ (x : LdR) (d : Nat → Dest) (s' : State), EffectLaw (.ld x)
    (fun s u e => Reached s e { n := x.t.width / 8, rd := true, wr := false } (e.ea u 0 (offAt x.off 1) 0) (lanesIn (e.parts u)) d fun _ => s')
    (fun _ u e => s'.countConflict e.t (stashOffsets ((lanesIn (e.parts u)).map fun k => (k, d k))))
    fun _ u e => { val := some fun k => loadExt x.t (s'.peek (s'.accessor e k) (d k) (x.t.width / 8)) }) ∧
  (∀ (x : LdI) (d : Nat → Dest) (s' : State), EffectLaw (.ldI x)
    (fun s u e => Reached s e { n := x.t.width / 8, rd := true, wr := false } (e.ea u 0 none (sext24 x.imm)) (lanesIn (e.parts u)) d fun _ => s')
    (fun _ u e => s'.countConflict e.t (stashOffsets ((lanesIn (e.parts u)).map fun k => (k, d k))))
    fun _ u e => { val := some fun k => loadExt x.t (s'.peek (s'.accessor e k) (d k) (x.t.width / 8)) }) ∧
  (∀ (x : LdL) (d : Nat → Dest) (s' : State), EffectLaw (.ldL x)
    (fun s u e => Reached s e { n := x.t.width / 8, rd := true, wr := false } (e.ea u 0 none x.k.toNat) (lanesIn (e.parts u)) d fun _ => s')
    (fun _ u e => s'.countConflict e.t (stashOffsets ((lanesIn (e.parts u)).map fun k => (k, d k))))
    fun _ u e => { val := some fun k => loadExt x.t (s'.peek (s'.accessor e k) (d k) (x.t.width / 8)) }) ∧
  (∀ (x : LduR) (d : Nat → Dest) (s' : State), EffectLaw (.ldu x)
    (fun s u e => e.parts u ≠ 0 ∧ Reached s e { n := x.t.width / 8, rd := true, wr := false } (e.ea u 0 (offAt x.off 1) 0) [lowLane (e.parts u)] d fun _ => s')
    (fun _ u e => s'.countConflict e.t (stashOffsets ([lowLane (e.parts u)].map fun k => (k, d k))))
    fun _ u e => { val := some fun _ => s'.peek (s'.accessor e (lowLane (e.parts u))) (d (lowLane (e.parts u))) (x.t.width / 8) }) ∧
  (∀ (x : LduI) (d : Nat → Dest) (s' : State), EffectLaw (.lduI x)
    (fun s u e => e.parts u ≠ 0 ∧ Reached s e { n := x.t.width / 8, rd := true, wr := false } (e.ea u 0 none (sext24 x.imm)) [lowLane (e.parts u)] d fun _ => s')
    (fun _ u e => s'.countConflict e.t (stashOffsets ([lowLane (e.parts u)].map fun k => (k, d k))))
    fun _ u e => { val := some fun _ => s'.peek (s'.accessor e (lowLane (e.parts u))) (d (lowLane (e.parts u))) (x.t.width / 8) }) ∧
  (∀ (x : LduL) (d : Nat → Dest) (s' : State), EffectLaw (.lduL x)
    (fun s u e => e.parts u ≠ 0 ∧ Reached s e { n := x.t.width / 8, rd := true, wr := false } (e.ea u 0 none x.k.toNat) [lowLane (e.parts u)] d fun _ => s')
    (fun _ u e => s'.countConflict e.t (stashOffsets ([lowLane (e.parts u)].map fun k => (k, d k))))
    fun _ u e => { val := some fun _ => s'.peek (s'.accessor e (lowLane (e.parts u))) (d (lowLane (e.parts u))) (x.t.width / 8) })

/-- Where the accesses of all participants pass Table 7.4 and wait for nothing, and no engine has an access of theirs left to
perform before a release form, ST writes the low bytes of each participant's data at its address, in lane order; conflict
cycles are counted, a store that leaves the core takes the tag of the open phase, and nothing else is changed. (R205, R209,
R210, R211, R221) -/
def Obligations.Stores : Prop :=
  (∀ (x : StR) (d : Nat → Dest) (s' : State), EffectLaw (.st x)
    (fun s u e => (releases x.ord && s.releaseWaits e (lanesIn (e.parts u))) = false ∧ Reached (s.escapes e (lanesIn (e.parts u)) (e.ea u 0 (offAt x.off 2) 0)) e { n := x.t.width / 8, rd := false, wr := true, plain := true } (e.ea u 0 (offAt x.off 2) 0) (lanesIn (e.parts u)) d
      (s'.writes e d (x.t.width / 8) (fun k _ => ((e.lane u k).src[1]?).getD 0 % 2 ^ x.t.width)))
    (fun _ u e =>
      let l := (lanesIn (e.parts u)).map fun k => (k, d k)
      let t := (s'.writes e d (x.t.width / 8) (fun k _ => ((e.lane u k).src[1]?).getD 0 % 2 ^ x.t.width) (lanesIn (e.parts u))).countConflict e.t (stashOffsets l)
      if leaves e.team.core l then (t.tagWrite e.team.core).1 else t)
    fun _ _ _ => {}) ∧
  (∀ (x : StI) (d : Nat → Dest) (s' : State), EffectLaw (.stI x)
    (fun s u e => Reached (s.escapes e (lanesIn (e.parts u)) (e.ea u 1 none (sext24 x.imm))) e { n := x.t.width / 8, rd := false, wr := true, plain := true } (e.ea u 1 none (sext24 x.imm)) (lanesIn (e.parts u)) d
      (s'.writes e d (x.t.width / 8) (fun k _ => ((e.lane u k).src[0]?).getD 0 % 2 ^ x.t.width)))
    (fun _ u e =>
      let l := (lanesIn (e.parts u)).map fun k => (k, d k)
      let t := (s'.writes e d (x.t.width / 8) (fun k _ => ((e.lane u k).src[0]?).getD 0 % 2 ^ x.t.width) (lanesIn (e.parts u))).countConflict e.t (stashOffsets l)
      if leaves e.team.core l then (t.tagWrite e.team.core).1 else t)
    fun _ _ _ => {}) ∧
  (∀ (x : StL) (d : Nat → Dest) (s' : State), EffectLaw (.stL x)
    (fun s u e => Reached (s.escapes e (lanesIn (e.parts u)) (e.ea u 1 none x.k.toNat)) e { n := x.t.width / 8, rd := false, wr := true, plain := true } (e.ea u 1 none x.k.toNat) (lanesIn (e.parts u)) d
      (s'.writes e d (x.t.width / 8) (fun k _ => ((e.lane u k).src[0]?).getD 0 % 2 ^ x.t.width)))
    (fun _ u e =>
      let l := (lanesIn (e.parts u)).map fun k => (k, d k)
      let t := (s'.writes e d (x.t.width / 8) (fun k _ => ((e.lane u k).src[0]?).getD 0 % 2 ^ x.t.width) (lanesIn (e.parts u))).countConflict e.t (stashOffsets l)
      if leaves e.team.core l then (t.tagWrite e.team.core).1 else t)
    fun _ _ _ => {})

/-- The destination of an access is the one that its address resolves to; the writes of an instruction change no byte of
memory, of a stash or of the tiles of a team but those at the destinations of its lanes; and a read of the place just written
gives the value written. (R205, R210, R211) -/
def Obligations.StoreFrame : Prop :=
  (∀ (s : State) (e : Ex) (d : Nat → Dest) (n : Nat) (f : Nat → Nat → Nat) (l : List Nat) (a : Nat), s.mem.wf = true →
    (∀ k ∈ l, ∀ q, d k ≠ .door q) → (∀ k ∈ l, ∀ line place, d k = .mem line place → ¬ (place ≤ a ∧ a < place + n)) →
    (s.writes e d n f l).mem.get a = s.mem.get a) ∧
  (∀ (s : State) (e : Ex) (d : Nat → Dest) (n : Nat) (f : Nat → Nat → Nat) (l : List Nat) (core off : Nat),
    (∀ k ∈ l, ∀ q, d k ≠ .door q) → (∀ k ∈ l, ∀ o, d k = .stash core o → ¬ (o ≤ off ∧ off < o + n)) →
    ((s.writes e d n f l).core core).stash.get? off = (s.core core).stash.get? off) ∧
  (∀ (s : State) (e : Ex) (d : Nat → Dest) (n : Nat) (f : Nat → Nat → Nat) (l : List Nat) (t a : Nat) (tm : Team),
    s.teams.get? t = some tm → tm.acc.wf = true → (∀ k ∈ l, ∀ q, d k ≠ .door q) →
    (∀ k ∈ l, ∀ o, d k = .acc t o → ¬ (o ≤ a ∧ a < o + n)) →
    ∃ tm', (s.writes e d n f l).teams.get? t = some tm' ∧ tm'.acc.get a = tm.acc.get a) ∧
  (∀ (s s' : State) (x : Accessor) (w : Want) (ea : Nat) (d : Dest), s.ready x w ea = .ok s' d → s.resolve x w ea = .ok d) ∧
  (∀ (s : State) (x : Accessor) (line : LineRef) (place n v : Nat), s.mem.wf = true →
    (s.poke x (.mem line place) n v).peek x (.mem line place) n = v % 256 ^ n)

/-- Where the accesses of all participants pass Table 7.4 and wait for nothing, no engine has an access of theirs left to
perform before a release form, and no FADD issues under REPRO, ATOM and RED make the operation of each participant on the
value that its location then holds, in lane order; ATOM gives each the value that it found, unless it discards it; conflict
cycles are counted, an operation that leaves the core takes the tag of the open phase, and nothing else is changed. (R214,
R215, R216, R217) -/
def Obligations.Atomics : Prop :=
  (∀ (x : Atom) (d : Nat → Dest) (s' : State), EffectLaw (.atom x)
    (fun s u e => (releases x.ord && s.releaseWaits e (lanesIn (e.parts u))) = false ∧ (x.op = .fadd && e.wave.repro) = false ∧
      Reached (s.escapes e (lanesIn (e.parts u)) (e.ea u 0 none 0)) e { n := x.t.width / 8, rd := true, wr := true, home := scopeAtHome x.scope } (e.ea u 0 none 0) (lanesIn (e.parts u)) d
      (s'.writes e d (x.t.width / 8) (fun k old => atomNew x.op x.t old (atomOperand x.op x.t (((e.lane u k).src[1]?).getD 0)).1
        (atomOperand x.op x.t (((e.lane u k).src[1]?).getD 0)).2)))
    (fun _ u e =>
      let l := (lanesIn (e.parts u)).map fun k => (k, d k)
      let t := (s'.writes e d (x.t.width / 8) (fun k old => atomNew x.op x.t old (atomOperand x.op x.t (((e.lane u k).src[1]?).getD 0)).1
        (atomOperand x.op x.t (((e.lane u k).src[1]?).getD 0)).2) (lanesIn (e.parts u))).countConflict e.t (stashOffsets l)
      if leaves e.team.core l then (t.tagWrite e.team.core).1 else t)
    fun _ u e => 
      { val := if x.dlu then none else some fun k =>
          s'.found e { n := x.t.width / 8, rd := true, wr := true, home := scopeAtHome x.scope } d (fun k old => atomNew x.op x.t old (atomOperand x.op x.t (((e.lane u k).src[1]?).getD 0)).1
        (atomOperand x.op x.t (((e.lane u k).src[1]?).getD 0)).2) ((lanesIn (e.parts u)).filter fun j => decide (j < k)) k }) ∧
  (∀ (x : RedM) (d : Nat → Dest) (s' : State), EffectLaw (.red x)
    (fun s u e => (releases x.ord && s.releaseWaits e (lanesIn (e.parts u))) = false ∧ (x.op = .fadd && e.wave.repro) = false ∧
      Reached (s.escapes e (lanesIn (e.parts u)) (e.ea u 0 none 0)) e { n := x.t.width / 8, rd := true, wr := true, home := scopeAtHome x.scope } (e.ea u 0 none 0) (lanesIn (e.parts u)) d
      (s'.writes e d (x.t.width / 8) (fun k old => atomNew x.op x.t old (atomOperand x.op x.t (((e.lane u k).src[1]?).getD 0)).1
        (atomOperand x.op x.t (((e.lane u k).src[1]?).getD 0)).2)))
    (fun _ u e =>
      let l := (lanesIn (e.parts u)).map fun k => (k, d k)
      let t := (s'.writes e d (x.t.width / 8) (fun k old => atomNew x.op x.t old (atomOperand x.op x.t (((e.lane u k).src[1]?).getD 0)).1
        (atomOperand x.op x.t (((e.lane u k).src[1]?).getD 0)).2) (lanesIn (e.parts u))).countConflict e.t (stashOffsets l)
      if leaves e.team.core l then (t.tagWrite e.team.core).1 else t)
    fun _ u e => {})

/-- Wherever it issues, PREF completes and acts lane by lane on the caches, the directory and the sectors of the stash: it
writes no register, sets no flag and traps no lane; CCTL completes as well, lane by lane, once every holder of the lines that
it writes back has answered and no purge stands over them. (R218, R219) -/
def Obligations.PrefetchControl : Prop :=
  (∀ x : PrefR, EffectLaw (.pref x) (fun _ _ _ => True)
    (fun s u e => (lanesIn (e.parts u)).foldl (fun s k => s.prefetch (s.accessor e k) x.target.val x.excl (e.ea u 0 (offAt x.off 1) 0 k)) s) fun _ _ _ => {}) ∧
  (∀ x : PrefI, EffectLaw (.prefI x) (fun _ _ _ => True)
    (fun s u e => (lanesIn (e.parts u)).foldl (fun s k => s.prefetch (s.accessor e k) 0 false (e.ea u 0 none (sext24 x.imm) k)) s) fun _ _ _ => {}) ∧
  (∀ x : PrefL, EffectLaw (.prefL x) (fun _ _ _ => True)
    (fun s u e => (lanesIn (e.parts u)).foldl (fun s k => s.prefetch (s.accessor e k) 0 false (e.ea u 0 none x.k.toNat k)) s) fun _ _ _ => {}) ∧
  (∀ x : Cctl, EffectLaw (.cctl x)
    (fun s u e => ((lanesIn (e.parts u)).foldl (fun (r : State × Bool) k =>
      let q := r.1.cacheOp (s.accessor e k) x.op.val (if x.addr.isSome then e.ea u 0 (offAt x.off 1) 0 k else 0)
      (q.1, r.2 && q.2)) (s, true)).2 = true)
    (fun s u e => ((lanesIn (e.parts u)).foldl (fun (r : State × Bool) k =>
      let q := r.1.cacheOp (s.accessor e k) x.op.val (if x.addr.isSome then e.ea u 0 (offAt x.off 1) 0 k else 0)
      (q.1, r.2 && q.2)) (s, true)).1) fun _ _ _ => {})

/-- FENCE completes, a release form once the earlier stores of its wave have been performed and no engine has an access of
its items left to perform; JOINPT pushes a record of the sub-wave and its depth on the join stack where it holds fewer than
16; YIELD gives the port away for 32 cycles. (R162, R167, R220, R292) -/
def Obligations.FenceJoinYield : Prop :=
  (∀ x : Fence, EffectLaw (.fence x)
    (fun s u e => (x.ord != .acq && s.releaseWaits e (lanesIn (e.parts u))) = false)
    (fun s u e => if x.ord = .acq ∨ e.parts u = 0 then s
      else (storesOf e.wave.flights).foldl (fun s q => s.finishWave e.t e.w q) s)
    fun s u e => {}) ∧
  (∀ x : Bare, EffectLaw (.joinpt x)
    (fun s u e => e.sub.joins.length < 16)
    (fun s u e => s.modWave e.t e.w fun w =>
      { w with joins := w.joins.set w.joinSeq { mask := e.sub.mask, depth := e.sub.depth }, joinSeq := w.joinSeq + 1 }.modSub e.k
        fun sub => { sub with joins := w.joinSeq :: sub.joins })
    fun s u e => {}) ∧
  (∀ x : Bare, EffectLaw (.yield x)
    (fun s u e => True)
    (fun s u e => s.modSub e.t e.w e.k fun sub => { sub with yieldTo := some (s.cycle + 32, portOf e.w) })
    fun s u e => {})

/-- BARM.ARV whose barrier words are all reached, when no engine has an access of its items left to perform, makes its
participants arrive at their words; BARM.WAIT whose participants all find a later generation enters its die in their words
and completes, giving 0 under .STAT. (R226, R227, R228) -/
def Obligations.MemoryBarriers : Prop :=
  (∀ x : BarmArv, EffectLaw (.barmArv x)
    (fun s u e => e.parts u ≠ 0 ∧ s.releaseWaits e (lanesIn (e.parts u)) = false ∧ ((s.escapeTeam e.t).barmAll e u (lanesIn (e.parts u))).wait = false ∧ ((s.escapeTeam e.t).barmAll e u (lanesIn (e.parts u))).traps = [])
    (fun s u e => let r := (s.escapeTeam e.t).barmAll e u (lanesIn (e.parts u))
      let t := r.s.barmArrive e.team.core r.vals
      if r.vals.isEmpty then t else (t.tagWrite e.team.core).1)
    fun s u e => {}) ∧
  (∀ x : BarmWait, EffectLaw (.barmWait x)
    (fun s u e => (s.barmAll e u (lanesIn (e.parts u))).wait = false ∧ (s.barmAll e u (lanesIn (e.parts u))).traps = [] ∧
      (let r := s.barmAll e u (lanesIn (e.parts u))
       let t := r.s.barmRegister e.team.core r.vals
       ∀ k ∈ lanesIn (e.parts u), ∃ place, r.vals.get? k = some place ∧
         genPast (BarWord.of (t.mem.getN place 16)).gen (((e.lane u k).src[1]?).getD 0) = true))
    (fun s u e => let r := s.barmAll e u (lanesIn (e.parts u)); r.s.barmRegister e.team.core r.vals)
    fun _ _ _ => { val := x.stat.map fun _ _ => 0 })

/-- PHCLOSE gives the open phase and opens the next; PHWAIT completes where the die mirror has reached every value, WAITV
where every participant reads another value, its conflict cycles counted, BAR.WAIT where no participant is in the current
generation, and BAR.ARV, with no access of its items left to an engine, makes its participants arrive and closes a complete
generation. (R70, R221, R222, R223, R224, R414) -/
def Obligations.BarrierWaits : Prop :=
  (∀ x : Phclose, EffectLaw (.phclose x)
    (fun s u e => e.parts u ≠ 0 ∧ (s.escapeTeam e.t).copyPending e (lanesIn (e.parts u)) = false ∧
      (s.cdie (dieOf e.team.core)).phase - (s.cdie (dieOf e.team.core)).phdone < 16)
    (fun s u e => (s.escapeTeam e.t).modCdie (dieOf e.team.core) fun c => { c with phase := (s.cdie (dieOf e.team.core)).phase + 1 })
    fun s u e => { val := some fun _ => (s.cdie (dieOf e.team.core)).phase }) ∧
  (∀ x : Phwait, EffectLaw (.phwait x)
    (fun s u e => ∀ k ∈ lanesIn (e.parts u),
      s.dieIn (s.devOfCore e.team.core) (e.operand u 0 % 16) = true ∧
      ((e.lane u k).src[1]?).getD 0 ≤ s.mirror (dieOf e.team.core) (e.operand u 0 % 16))
    (fun s u e => s)
    fun s u e => {}) ∧
  (∀ (x : Waitv) (d : Nat → Dest), EffectLaw (.waitv x)
    (fun s u e => ∀ k ∈ lanesIn (e.parts u),
      s.ready { s.accessor e k with again := true } { n := x.t.width / 8, rd := true, wr := false } (e.ea u 0 none 0 k) = .ok s (d k) ∧
      s.peek (s.accessor e k) (d k) (x.t.width / 8) ≠ ((e.lane u k).src[1]?).getD 0 % 2 ^ x.t.width)
    (fun s u e => s.countConflict e.t (stashOffsets ((lanesIn (e.parts u)).map fun k => (k, d k))))
    fun s u e => {}) ∧
  (∀ x : BarOp, EffectLaw (.barWait x)
    (fun s u e => e.parts u &&& e.team.arrivedIn x.bar.val e.w = 0)
    (fun s u e => s)
    fun s u e => {}) ∧
  (∀ (x : BarOp) (s : State) (u : Use) (e : Ex), Issues s (.barArv x) u e → s.releaseWaits e (lanesIn (e.parts u)) = false →
    e.parts u &&& e.team.arrivedIn x.bar.val e.w = 0 →
    ∃ t w', exec (.barArv x) s = .next (State.startLaps s t) ∧
      Issued u e {} (s.modTeam e.t fun _ => (e.team.arrive x.bar.val e.w (e.parts u)).closeGen x.bar.val) t e.wave w')

/-- SMAP, where its template and the checks of Table 7.8 pass and it need not wait, resolves its entry; SUNMAP displaces,
SFLUSH flushes, SFILL fills and SDISCARD discards the live entry of the team that the key names, and a key that names none
has no effect. (R230, R231, R233, R239, R240) -/
def Obligations.StashMaps : Prop :=
  (∀ (x : Smap) (p : PoolEntry) (t t' : State), EffectLaw (.smap x)
    (fun s u e => e.parts u ≠ 0 ∧ (s.escapeTeam e.t).poolOf e (e.operand u 0) 2 (some 3) = .ok t p ∧ p.word 1 < 2 ^ 47 ∧
      smapCheck (t.core e.team.core) e (mapOf p e (e.operand u 1) (e.operand u 2) x.rw x.retain) = none ∧
      t.resolveMap e (mapOf p e (e.operand u 1) (e.operand u 2) x.rw x.retain) = (t', true))
    (fun s u e => t')
    fun s u e => {}) ∧
  (∀ (x : KeyOp) (n : Nat) (m : MapEntry), EffectLaw (.sunmap x)
    (fun s u e => e.parts u ≠ 0 ∧ s.keyed e (e.operand u 0) = some (n, m))
    (fun s u e => (s.escapeTeam e.t).displace e.team.core n)
    fun s u e => {}) ∧
  (∀ x : KeyOp, EffectLaw (.sunmap x)
    (fun s u e => e.parts u ≠ 0 ∧ s.keyed e (e.operand u 0) = none)
    (fun s u e => (s.escapeTeam e.t))
    fun s u e => {}) ∧
  (∀ (x : KeyOp) (n : Nat) (m : MapEntry), EffectLaw (.sflush x)
    (fun s u e => e.parts u ≠ 0 ∧ s.keyed e (e.operand u 0) = some (n, m))
    (fun s u e => s.flush e.team.core n)
    fun s u e => {}) ∧
  (∀ x : KeyOp, EffectLaw (.sflush x)
    (fun s u e => e.parts u ≠ 0 ∧ s.keyed e (e.operand u 0) = none)
    (fun s u e => s)
    fun s u e => {}) ∧
  (∀ (x : KeyOp) (n : Nat) (m : MapEntry), EffectLaw (.sfill x)
    (fun s u e => e.parts u ≠ 0 ∧ s.keyed e (e.operand u 0) = some (n, m))
    (fun s u e => s.fillEntry e.team.core n m)
    fun s u e => {}) ∧
  (∀ x : KeyOp, EffectLaw (.sfill x)
    (fun s u e => e.parts u ≠ 0 ∧ s.keyed e (e.operand u 0) = none)
    (fun s u e => s)
    fun s u e => {}) ∧
  (∀ (x : KeyOp) (n : Nat) (m : MapEntry), EffectLaw (.sdiscard x)
    (fun s u e => e.parts u ≠ 0 ∧ s.keyed e (e.operand u 0) = some (n, m))
    (fun s u e => s.discard e.team.core n)
    fun s u e => {}) ∧
  (∀ x : KeyOp, EffectLaw (.sdiscard x)
    (fun s u e => e.parts u ≠ 0 ∧ s.keyed e (e.operand u 0) = none)
    (fun s u e => s)
    fun s u e => {})

/-- COPYQ with an aligned descriptor that is valid enters its transfer in the engine that serves it, for its participants,
and takes the next place in the engine order of its team. (R256) -/
def Obligations.CopyQueue : Prop :=
  ∀ (x : KOp) (t t' : State) (ws : List Nat) (d : Descriptor) (n : Nat), EffectLaw (.copyq x)
    (fun s u e => e.parts u ≠ 0 ∧ e.operand u 0 % 64 = 0 ∧
      (s.escapeTeam e.t).loadWords ((s.escapeTeam e.t).accessorOf e) (e.operand u 0) 8 = .ok t ws ∧
      t.descriptor (t.ctxDev e.team.ctx) ws = some d ∧ t.engineFor (t.ctxDev e.team.ctx) d = some n ∧
      t.acceptXfer n
        { d.xfer e.team.ctx with
          team := some e.t, grid := e.team.grid, items := t.itemsOf e (lanesIn (e.parts u)), ord := e.team.seq } = some t')
    (fun s u e => t'.modTeam e.t fun tm => { tm with seq := tm.seq + 1 })
    fun s u e => {}

/-- CPY and CPYT on an IDLE or DONE tag open a rendezvous, the tag becomes OPEN, and their lanes are held while their slices
are validated; CPYG and CPYS are held likewise before they open theirs; a held arrival on a rendezvous (a hold below 64) or
one that opens its own (64 or above) whose validation refuses nothing joins its slices to the copy and completes its issue.
(R245, R246, R249, R251, R254, R255) -/
def Obligations.CopyArrivals : Prop :=
  (∀ (x : Cpy) (s : State) (u : Use) (e : Ex), Issues s (Instr.cpy x) u e → e.fresh u → e.parts u ≠ 0 → e.sub.retried = false →
    (e.team.tag x.d.val = .idle ∨ e.team.tag x.d.val = .done) →
    let c0 := e.operand u 2 % 2 ^ 64
    let c1 := e.operand u 2 / 2 ^ 64
    exec (Instr.cpy x) s = .next (((((s.escapeTeam e.t).modTeam e.t fun tm =>
      { (tm.setTag x.d.val .opened) with
        copies := tm.copies.set x.d.val ((cpyForm x).opens (s.escapeTeam e.t) e x.w.val c0 c1) }).checkCopy e.t x.d.val).holdOn e u
          (Instr.cpy x).opcode (checkHold (e.parts u) x.d.val)))) ∧
  (∀ (x : Cpyt) (v : Use) (s : State) (e : Ex), (Instr.cpyt x).use = some v → let u := cpytNames s v e; Runs s u e → (∀ t, s.cpytShape v e ≠ .wait t) → e.fresh u → e.parts u ≠ 0 → e.sub.retried = false →
    (e.team.tag x.d.val = .idle ∨ e.team.tag x.d.val = .done) →
    let c0 := e.operand u 2 % 2 ^ 64
    let c1 := e.operand u 2 / 2 ^ 64
    exec (Instr.cpyt x) s = .next (((((s.escapeTeam e.t).modTeam e.t fun tm =>
      { (tm.setTag x.d.val .opened) with
        copies := tm.copies.set x.d.val ((cpytForm x).opens (s.escapeTeam e.t) e x.w.val c0 c1) }).checkCopy e.t x.d.val).holdOn e u
          (Instr.cpyt x).opcode (checkHold (e.parts u) x.d.val)))) ∧
  (∀ (x : CpyGS) (s : State) (u : Use) (e : Ex), Issues s (Instr.cpyg x) u e → e.fresh u → e.parts u ≠ 0 →
    (e.team.tag x.d.val = .idle ∨ e.team.tag x.d.val = .done) →
    exec (Instr.cpyg x) s = .next ((s.escapeTeam e.t).holdOn e u (Instr.cpyg x).opcode (checkHold (e.parts u) (64 + x.d.val)))) ∧
  (∀ (x : CpyGS) (s : State) (u : Use) (e : Ex), Issues s (Instr.cpys x) u e → e.fresh u → e.parts u ≠ 0 →
    (e.team.tag x.d.val = .idle ∨ e.team.tag x.d.val = .done) →
    exec (Instr.cpys x) s = .next ((s.escapeTeam e.t).holdOn e u (Instr.cpys x).opcode (checkHold (e.parts u) (64 + x.d.val)))) ∧
  (∀ (x : Cpy) (v : Use) (s : State) (e : Ex) (h : Hold), (Instr.cpy x).use = some v → Resumes s e h → h.kind = .copyCheck →
    lanesIn h.lanes ≠ [] → (∀ i ∈ lanesIn h.lanes, e.stale v i = false) → h.aux < 64 →
    let s0 := s.escapeTeam e.t
    let c0 := e.src v (lowLane h.lanes) 2 % 2 ^ 64
    let c1 := e.src v (lowLane h.lanes) 2 / 2 ^ 64
    let q := (cpyForm x).validate s0 e v (lanesIn h.lanes) c0 c1
    q.wait = false → q.traps = [] → 
    exec (Instr.cpy x) s = .next ((q.s.joinSlices e x.d.val (lanesIn h.lanes) q.moves).settle e v (Instr.cpy x).opcode {} .engine none h.lanes)) ∧
  (∀ (x : Cpyt) (v : Use) (s : State) (e : Ex) (h : Hold), (Instr.cpyt x).use = some v → let u := cpytNames s v e; Resumes s e h → h.kind = .copyCheck →
    lanesIn h.lanes ≠ [] → (∀ i ∈ lanesIn h.lanes, e.stale u i = false) → h.aux < 64 →
    let s0 := s.escapeTeam e.t
    let c0 := e.src u (lowLane h.lanes) 2 % 2 ^ 64
    let c1 := e.src u (lowLane h.lanes) 2 / 2 ^ 64
    let q := (cpytForm x).validate s0 e u (lanesIn h.lanes) c0 c1
    q.wait = false → q.traps = [] → 
    exec (Instr.cpyt x) s = .next ((q.s.joinSlices e x.d.val (lanesIn h.lanes) q.moves).settle e u (Instr.cpyt x).opcode {} .engine none h.lanes)) ∧
  (∀ (x : CpyGS) (v : Use) (s : State) (e : Ex) (h : Hold), (Instr.cpyg x).use = some v → Resumes s e h → h.kind = .copyCheck →
    lanesIn h.lanes ≠ [] → (∀ i ∈ lanesIn h.lanes, e.stale v i = false) → 64 ≤ h.aux → (e.team.tag x.d.val = .idle ∨ e.team.tag x.d.val = .done) →
    let s0 := s.escapeTeam e.t
    let c0 := e.src v (lowLane h.lanes) 2 % 2 ^ 64
    let c1 := e.src v (lowLane h.lanes) 2 / 2 ^ 64
    let q := (cpygForm x).validate s0 e v (lanesIn h.lanes) c0 c1
    q.wait = false → q.traps = [] → q.ok ≠ 0 →
    exec (Instr.cpyg x) s = .next (((State.joinSlices (q.s.modTeam e.t fun tm =>
      { (tm.setTag x.d.val .opened) with copies := tm.copies.set x.d.val ((cpygForm x).opens q.s e 1 c0 c1) })
        e x.d.val (lanesIn h.lanes) q.moves).checkCopy e.t x.d.val).settle e v (Instr.cpyg x).opcode {} .engine none h.lanes)) ∧
  (∀ (x : CpyGS) (v : Use) (s : State) (e : Ex) (h : Hold), (Instr.cpys x).use = some v → Resumes s e h → h.kind = .copyCheck →
    lanesIn h.lanes ≠ [] → (∀ i ∈ lanesIn h.lanes, e.stale v i = false) → 64 ≤ h.aux → (e.team.tag x.d.val = .idle ∨ e.team.tag x.d.val = .done) →
    let s0 := s.escapeTeam e.t
    let c0 := e.src v (lowLane h.lanes) 2 % 2 ^ 64
    let c1 := e.src v (lowLane h.lanes) 2 / 2 ^ 64
    let q := (cpysForm x).validate s0 e v (lanesIn h.lanes) c0 c1
    q.wait = false → q.traps = [] → q.ok ≠ 0 →
    exec (Instr.cpys x) s = .next (((State.joinSlices (q.s.modTeam e.t fun tm =>
      { (tm.setTag x.d.val .opened) with copies := tm.copies.set x.d.val ((cpysForm x).opens q.s e 1 c0 c1) })
        e x.d.val (lanesIn h.lanes) q.moves).checkCopy e.t x.d.val).settle e v (Instr.cpys x).opcode {} .engine none h.lanes))

/-- TWAIT completes where no selected tag is OPEN or BUSY, or without .ALL where one is DONE; TCLR makes the selected DONE
tags IDLE; LWAIT completes without live child grids, or where the STATUS word of the launch record is not 0; CNTWAIT gives
the counter where it has reached the value. (R242, R257, R258, R277) -/
def Obligations.TagWaits : Prop :=
  (∀ x : Twait, EffectLaw (.twait x)
    (fun s u e => e.parts u ≠ 0 ∧ ((∀ n < 64, toBit (e.operand u 0 / 2 ^ n) = true → e.team.tag n ≠ .opened ∧ e.team.tag n ≠ .busy) ∨
      (x.all = false ∧ ∃ n < 64, toBit (e.operand u 0 / 2 ^ n) = true ∧ e.team.tag n = .done)))
    (fun s u e => s.escapeTeam e.t)
    fun s u e => {}) ∧
  (∀ x : KOp, EffectLaw (.tclr x)
    (fun s u e => e.parts u ≠ 0)
    (fun s u e => (s.escapeTeam e.t).modTeam e.t fun tm =>
      (tm.tagsIn (e.operand u 0) fun st => st == .done).foldl (fun tm n => tm.setTag n .idle) tm)
    fun s u e => {}) ∧
  (∀ x : Lwait, EffectLaw (.lwait x)
    (fun s u e => e.parts u ≠ 0 ∧ x.a = none ∧ e.team.children = 0)
    (fun s u e => s)
    fun s u e => {}) ∧
  (∀ (x : Lwait) (t : State) (v : Nat), EffectLaw (.lwait x)
    (fun s u e => e.parts u ≠ 0 ∧ x.a.isSome = true ∧
      s.load { s.accessor e (lowLane (e.parts u)) with again := true } 8 ((e.operand u 0 + 0x28) % 2 ^ 64) = .ok t v ∧ v ≠ 0)
    (fun s u e => t)
    fun s u e => {}) ∧
  (∀ (x : Cntwait) (t : State) (v : Nat), EffectLaw (.cntwait x)
    (fun s u e => e.parts u ≠ 0 ∧
      counterRead (e.operand u 0) = none ∧
      (s.escapeTeam e.t).load { s.accessor e (lowLane (e.parts u)) with again := true } 8 (e.operand u 0) = .ok t v ∧ e.operand u 1 ≤ v)
    (fun s u e => t)
    fun s u e => { val := some fun _ => v })

/-- GSET sets a layout record from its template; ACFG sets the tile count where no tile is live or a target, ACFG.DISCARD
where no matrix work is pending; MMA, where its checks pass and nothing makes it wait, enters its team queue with its tag
BUSY; ACC.LD, ACC.ST, ACC.ZERO and ACC.MOV on configured tiles enter the engine order of the team. (R260, R262, R264, R265,
R270, R271) -/
def Obligations.MatrixIssue : Prop :=
  (∀ (x : Gset) (t : State) (p : PoolEntry) (l : Layout), EffectLaw (.gset x)
    (fun s u e => e.parts u ≠ 0 ∧ s.poolOf e (e.operand u 0) 4 (some 5) = .ok t p ∧
      layoutOf p (e.operand u 1) = .ok l)
    (fun s u e => t.modTeam e.t fun tm => { tm with layouts := listSet tm.layouts x.g.val l })
    fun s u e => {}) ∧
  (∀ x : Acfg, EffectLaw (.acfg x)
    (fun s u e => e.parts u ≠ 0 ∧ e.operand u 0 % 64 ≤ 32 ∧ e.operand u 0 % 64 ≤ e.team.accTiles.length ∧ (x.discard = false → e.team.tilesUsed = false) ∧
      (x.discard = true → e.team.mmas = [] ∧ e.team.moves = [] ∧ e.team.mmaHeld = false))
    (fun s u e => (s.escapeTeam e.t).modTeam e.t fun tm => { tm with accCount := e.operand u 0 % 64, accLive := [], acc := [] })
    fun s u e => {}) ∧
  (∀ x : Sys2Proof.Mma, EffectLaw (.mma x)
    (fun s u e => e.parts u ≠ 0 ∧ (let m := mmaOf x s e (e.parts u)
      mmaCheck e.team m m.la m.lb = none ∧ e.team.tagBusy m.tag = false ∧ s.queuedMmas e.team.core < 16 ∧
        e.team.storesWaiting e.team.seq = false ∧ e.team.windowWrites m.items e.team.seq = false))
    (fun s u e => (s.escapeTeam e.t).modTeam e.t fun tm => tm.enqueueMma e.team.seq (mmaOf x s e (e.parts u)))
    fun s u e => {}) ∧
  (∀ x : AccLd, EffectLaw (.accLd x)
    (fun s u e => e.parts u ≠ 0 ∧ e.team.unconfigured (tilePair x.wide x.tile.val) = false)
    (fun s u e => (s.escapeTeam e.t).modTeam e.t fun tm =>
      { tm with moves := tm.moves.set tm.seq { op := .ld (e.parts u) x.wide x.d.val e.sub.depth x.tile.val (e.operand u 0 % 64) (e.operand u 0 / 64 % 4), flight := (e.w, e.flightNo), pc := e.sub.wordPc, items := s.itemsOf e (lanesIn (e.parts u)) }, seq := tm.seq + 1 })
    fun s u e => {}) ∧
  (∀ x : AccSt, EffectLaw (.accSt x)
    (fun s u e => e.parts u ≠ 0 ∧ e.team.unconfigured (tilePair x.wide x.tile.val) = false)
    (fun s u e => (s.escapeTeam e.t).modTeam e.t fun tm =>
      { tm with moves := tm.moves.set tm.seq { op := .st (e.parts u) x.wide (laneList.map fun i => ((e.lane u i).src[0]?).getD 0) x.tile.val (e.operand u 1 % 64) (e.operand u 1 / 64 % 4), flight := (e.w, e.flightNo), pc := e.sub.wordPc, items := s.itemsOf e (lanesIn (e.parts u)) }, seq := tm.seq + 1 })
    fun s u e => {}) ∧
  (∀ x : AccZero, EffectLaw (.accZero x)
    (fun s u e => e.parts u ≠ 0 ∧ e.team.unconfigured ((List.range (tileCount x.shape x.wide)).map fun k => x.tile.val + k) = false)
    (fun s u e => (s.escapeTeam e.t).modTeam e.t fun tm =>
      { tm with moves := tm.moves.set tm.seq { op := .zero ((List.range (tileCount x.shape x.wide)).map fun k => x.tile.val + k), flight := (e.w, e.flightNo), pc := e.sub.wordPc, items := s.itemsOf e (lanesIn (e.parts u)) }, seq := tm.seq + 1 })
    fun s u e => {}) ∧
  (∀ x : AccMov, EffectLaw (.accMov x)
    (fun s u e => e.parts u ≠ 0 ∧ e.team.unconfigured (tilePair (x.t == .f64) x.tile.val) = false ∧
      accMovCheck s e.team x.froms x.t (e.operand u 0) (e.operand u 1 % 2 ^ 16) = none)
    (fun s u e => (s.escapeTeam e.t).modTeam e.t fun tm =>
      { tm with moves := tm.moves.set tm.seq { op := .mov x.froms x.t x.rm x.tile.val (e.operand u 0) (e.operand u 1 % 2 ^ 16), flight := (e.w, e.flightNo), pc := e.sub.wordPc, items := s.itemsOf e (lanesIn (e.parts u)) }, seq := tm.seq + 1 })
    fun s u e => {})

/-- MPROG, GCNT, SQUERY, TFFR and CSRR give every participant one value: the team progress word, the conflict count, the word
of Table 7.11, the lowest DONE tag of the mask or 64, and the register of Table 2.3 (TSTAT and FPFLAGS once the earlier
instructions of the wave have completed). (R240, R242, R257, R261, R266, R275) -/
def Obligations.ReadsOnce : Prop :=
  (∀ x : DOp, RegLaw (.mprog x) (fun _ u e => e.parts u ≠ 0) fun _ _ e => { val := some fun _ => e.team.mprog.word }) ∧
  (∀ x : Gcnt, RegLaw (.gcnt x) (fun _ u e => e.parts u ≠ 0) fun _ _ e => { val := some fun _ => (e.team.layout x.g.val).conf.toNat }) ∧
  (∀ x : Squery, RegLaw (.squery x) (fun _ u e => e.parts u ≠ 0) fun s u e =>
    { val := some fun _ => match s.keyed e (e.operand u 0) with
        | none => 0
        | some (n, m) => squeryWord (s.core e.team.core) n m }) ∧
  (∀ x : Tffr, EffectLaw (.tffr x) (fun _ u e => e.parts u ≠ 0) (fun s _ e => s.escapeTeam e.t) fun _ u e =>
    { val := some fun _ => ((List.range 64).find? fun n => toBit (e.operand u 0 / 2 ^ n) && e.team.tag n == .done).getD 64 }) ∧
  (∀ x : Csrr, RegLaw (.csrr x) (fun _ u e => e.parts u ≠ 0 ∧ (x.ix.toNat = 1 ∨ x.ix.toNat = 2 → e.wave.unfinished e = false))
    fun s _ e => { val := some fun _ => s.csr e x.ix.toNat })

/-- CSRW writes CTL as Table 2.4 says, clears the bits of TSTAT and of FPFLAGS that are 1 in its operand, sets SEED with the
keys and draw counters of the participants unless REPRO is 1, sets BANKCONF, and leaves every other register as it was. (R55,
R56, R57, R58, R124, R275) -/
def Obligations.RegisterWrites : Prop :=
  (∀ x : Csrw, EffectLaw (.csrw x)
    (fun s u e => e.parts u ≠ 0 ∧ x.ix.toNat = 0)
    (fun s u e => s.modWave e.t e.w fun w => { w with ctl := ctlWrite w.ctl (BitVec.ofNat 64 (e.operand u 0)) })
    fun s u e => {}) ∧
  (∀ x : Csrw, EffectLaw (.csrw x)
    (fun s u e => e.parts u ≠ 0 ∧ x.ix.toNat = 1)
    (fun s u e => s.modWave e.t e.w fun w => { w with tstat := w.tstat &&& ~~~BitVec.ofNat 64 (e.operand u 0) })
    fun s u e => {}) ∧
  (∀ x : Csrw, EffectLaw (.csrw x)
    (fun s u e => e.parts u ≠ 0 ∧ x.ix.toNat = 2)
    (fun s u e => s.modWave e.t e.w fun w => { w with fpflags := w.fpflags &&& ~~~BitVec.ofNat 64 (e.operand u 0) })
    fun s u e => {}) ∧
  (∀ x : Csrw, EffectLaw (.csrw x)
    (fun s u e => e.parts u ≠ 0 ∧ x.ix.toNat = 3)
    (fun s u e => if e.wave.repro then s
      else s.modWave e.t e.w fun w => w.reseed e.team.index e.w (BitVec.ofNat 64 (e.operand u 0)) (e.parts u))
    fun s u e => {}) ∧
  (∀ x : Csrw, EffectLaw (.csrw x)
    (fun s u e => e.parts u ≠ 0 ∧ x.ix.toNat = 0x11)
    (fun s u e => s.modTeam e.t fun t => { t with bankconf := BitVec.ofNat 64 (e.operand u 0) })
    fun s u e => {}) ∧
  (∀ x : Csrw, EffectLaw (.csrw x)
    (fun s u e => e.parts u ≠ 0 ∧ x.ix.toNat ∉ [0, 1, 2, 3, 0x11])
    (fun s u e => s)
    fun s u e => {})

/-- Outside a handler CSRR of TRAPCAUSE, TRAPPC and TRAPADDR gives zero; inside a handler it gives what the entry has set.
(R59) -/
def Obligations.TrapRegisters : Prop :=
  (∀ x : Csrr, EffectLaw (.csrr x)
    (fun _ u e => e.parts u ≠ 0 ∧ (x.ix.toNat = 0x041 ∨ x.ix.toNat = 0x042 ∨ x.ix.toNat = 0x043) ∧ e.sub.handler = none)
    (fun s _ _ => s) fun _ _ _ => { val := some fun _ => 0 }) ∧
  (∀ x : Csrr, EffectLaw (.csrr x)
    (fun _ u e => e.parts u ≠ 0 ∧ (x.ix.toNat = 0x041 ∨ x.ix.toNat = 0x042 ∨ x.ix.toNat = 0x043) ∧ e.sub.handler.isSome = true)
    (fun s _ _ => s) fun _ _ e => { val := some fun _ =>
      (if x.ix.toNat = 0x041 then e.wave.trapCause else if x.ix.toNat = 0x042 then e.wave.trapPc else e.wave.trapAddr).toNat })

/-- SVC with an aligned, writable parameter block in device memory that no line makes wait and a device-callable code puts
its call in the queue of the service unit; LAUNCH, with no access of its items left to an engine, gives the status that
refuses its record, or creates the child grid and gives 0. (R14, R110, R274, R276) -/
def Obligations.LaunchAndService : Prop :=
  (∀ (x : Svc) (t : State) (ws : List Nat), EffectLaw (.svc x)
    (fun s u e => e.parts u ≠ 0 ∧ e.operand u 0 % 256 = 0 ∧
      (s.escapeTeam e.t).inDevice ((s.escapeTeam e.t).accessorOf e) { n := 8, rd := false, wr := true } (e.operand u 0) = .ok () ∧
      deviceCallable x.code.toNat = true ∧ (s.escapeTeam e.t).unitsBusy e.team.ctx (e.operand u 0) 256 true = false ∧
      (s.escapeTeam e.t).unitWords e.team.ctx (e.operand u 0) 32 = .ok (t, ws))
    (fun s u e => t.acceptCall (t.ctxDev e.team.ctx)
      (let c := callOf (t.ctxDev e.team.ctx) (.item e.team.ctx e.team.core e.t e.w) (e.operand u 0) e.team.ctx e.flightNo ws
       (if c.1 = x.code.toNat then c.1 else 0, c.2)))
    fun s u e => {}) ∧
  (∀ (x : Launch) (t : State) (ws : List Nat) (parent : Grid) (code : Nat), EffectLaw (.launch x)
    (fun s u e => e.parts u ≠ 0 ∧ e.operand u 0 % 256 = 0 ∧
      (s.escapeTeam e.t).inDevice ((s.escapeTeam e.t).accessorOf e) { n := 8, rd := true, wr := false } (e.operand u 0) = .ok () ∧
      ((s.escapeTeam e.t).releaseWaits e (lanesIn (e.parts u)) || (s.escapeTeam e.t).unitsBusy e.team.ctx (e.operand u 0) 256 false ||
        (s.escapeTeam e.t).unitsBusy e.team.ctx (e.operand u 0) 256 true) = false ∧
      s.grids.get? e.team.grid = some parent ∧ parent.depth < 10 ∧
      (s.escapeTeam e.t).unitWords e.team.ctx (e.operand u 0) 32 = .ok (t, ws) ∧
      (t.checkLaunch e.team.ctx (e.operand u 0) ws true).2 = .error code)
    (fun s u e => (t.checkLaunch e.team.ctx (e.operand u 0) ws true).1)
    fun s u e => { val := some fun _ => code }) ∧
  (∀ (x : Launch) (t : State) (ws : List Nat) (parent g : Grid), EffectLaw (.launch x)
    (fun s u e => e.parts u ≠ 0 ∧ e.operand u 0 % 256 = 0 ∧
      (s.escapeTeam e.t).inDevice ((s.escapeTeam e.t).accessorOf e) { n := 8, rd := true, wr := false } (e.operand u 0) = .ok () ∧
      ((s.escapeTeam e.t).releaseWaits e (lanesIn (e.parts u)) || (s.escapeTeam e.t).unitsBusy e.team.ctx (e.operand u 0) 256 false ||
        (s.escapeTeam e.t).unitsBusy e.team.ctx (e.operand u 0) 256 true) = false ∧
      s.grids.get? e.team.grid = some parent ∧ parent.depth < 10 ∧
      (s.escapeTeam e.t).unitWords e.team.ctx (e.operand u 0) 32 = .ok (t, ws) ∧
      (t.checkLaunch e.team.ctx (e.operand u 0) ws true).2 = .ok g ∧
      (let t' := (t.checkLaunch e.team.ctx (e.operand u 0) ws true).1
       t'.inDevice (t'.accessorOf e) { n := 8, rd := false, wr := true } (e.operand u 0) = .ok ()))
    (fun s u e => let a := (t.checkLaunch e.team.ctx (e.operand u 0) ws true).1.createGrid g (parent.depth + 1) parent.prio (some e.t) parent.queue
      a.1.modTeam e.t fun t => { t with children := t.children + 1, childGrids := t.childGrids ++ [a.2] })
    fun s u e => { val := some fun _ => 0 })

/-- Where every target is a clause boundary, each participant of a transfer goes to its target and the other lanes go on
after the clause; a call below depth 63 opens the window of the next depth with the return address in r62 and r63, and RET
above depth 0 closes the window of its depth. (R158, R159, R160, R161) -/
def Obligations.Transfers : Prop :=
  (∀ x : Bra, TransferLaw (.bra x) (fun e _ _ => relTarget x.imm e.sub.wordPc) (id) (fun _ => True)
    (fun _ _ w => w)) ∧
  (∀ x : Brx, TransferLaw (.brx x) (laneTarget) (id) (fun _ => True)
    (fun _ _ w => w)) ∧
  (∀ x : Bra, TransferLaw (.call x) (fun e _ _ => relTarget x.imm e.sub.wordPc) (fun d => d + 1) (fun e => e.sub.depth ≠ 63)
    (fun e m w => (w.closeWindow (e.sub.depth + 1) m).wr (e.sub.depth + 1) (vref 62 2) m fun _ => e.sub.after)) ∧
  (∀ x : Brx, TransferLaw (.callx x) (laneTarget) (fun d => d + 1) (fun e => e.sub.depth ≠ 63)
    (fun e m w => (w.closeWindow (e.sub.depth + 1) m).wr (e.sub.depth + 1) (vref 62 2) m fun _ => e.sub.after)) ∧
  (∀ x : Ret, TransferLaw (.ret x) (laneTarget) (fun d => d - 1) (fun e => e.sub.depth ≠ 0)
    (fun e m w => (w.closeWindow e.sub.depth m).depart m (some e.sub.depth)))

/-- EXIT ends its participants and the others go on after the clause; SYNC whose innermost join record has its depth arrives
at it; TRAPRET in a handler closes the windows of the handler, clears the trap registers and takes its participants back as
its mode says; TRAP and BRK raise their traps in their participants. (R163, R166, R168, R278) -/
def Obligations.ExitSyncTraps : Prop :=
  (∀ (x : GBare) (s : State) (u : Use) (e : Ex), Issues s (.exit x) u e →
    let w := fun (w : Wave) => w.settled e u (Instr.exit x).opcode {} .result none s.cycle (e.parts u)
    exec (.exit x) s = .next (State.sweep (State.startLaps s
      (((State.removeLanes (s.modWave e.t e.w w) e.t e.w (e.parts u)).modWave e.t e.w fun w =>
        w.divide e.k [(e.sub.mask &&& ~~~e.parts u, fun sub => sub.goto e.sub.after)]).releasePort e.team.core (.sub e.t e.w e.k))))) ∧
  (∀ (x : Bare) (s : State) (u : Use) (e : Ex) (n : Nat) (j : JoinRec), Issues s (.sync x) u e → e.sub.joins.head? = some n →
    e.wave.joins.get? n = some j → j.depth = e.sub.depth →
    exec (.sync x) s = .next (((s.modWave e.t e.w fun w => w.settled e u (Instr.sync x).opcode {} .result none s.cycle (e.parts u)).modWave e.t e.w
      fun w => (w.modSub e.k fun sub => { sub with hold := some { kind := .sync, lanes := e.sub.mask } }).closeJoins).releasePort
        e.team.core (.sub e.t e.w e.k))) ∧
  (∀ (x : Trapret) (s : State) (u : Use) (e : Ex) (q : Handler), Issues s (.trapret x) u e → e.sub.handler = some q → e.parts u ≠ 0 →
    let back (w : Wave) (sub : SubWave) : SubWave :=
      match x.mode with
      | .resume => (sub.leaveHandler q w).resume q.park
      | .retry => (sub.leaveHandler q w).retry q.park
      | .kill => sub.leaveHandler q w
      | .host => { sub.leaveHandler q w with park := some { q.park with stage := .pending, forceRec := true } }
    let shut (w : Wave) : Wave :=
      { ((List.range (e.sub.depth - q.park.depth)).map fun i => q.park.depth + 1 + i).foldl
          (fun (w : Wave) d => (w.closeWindow d (e.parts u)).depart (e.parts u) (some d)) w with
        trapCause := 0, trapPc := 0, trapAddr := 0 }
    let t := (s.modWave e.t e.w fun w => w.settled e u (Instr.trapret x).opcode {} .result none s.cycle (e.parts u)).modWave e.t e.w
      fun w => ((shut w).divide e.k [(e.parts u, back (shut w)), (e.sub.mask &&& ~~~e.parts u, fun sub => sub.goto e.sub.after)]).closeJoins
    exec (.trapret x) s = .next (State.sweep (State.startLaps s
      ((match x.mode with
        | .resume | .retry => t
        | .kill => t.killLanes e.t e.w (e.parts u)
        | .host => t.deliverTrap e.t e.w e.k).releasePort e.team.core (.sub e.t e.w e.k))))) ∧
  (∀ (x : CodeOp) (s : State) (u : Use) (e : Ex), Issues s (.trap x) u e →
    exec (.trap x) s = .next (s.settle e u (Instr.trap x).opcode
      { traps := allLanes (e.parts u) { cause := cSoftware, sub := x.imm.toNat % 256, addr := x.imm.toNat } } .result none (e.parts u))) ∧
  (∀ (x : CodeOp) (s : State) (u : Use) (e : Ex), Issues s (.brk x) u e →
    exec (.brk x) s = .next (s.settle e u (Instr.brk x).opcode
      { traps := allLanes (e.parts u) { cause := cBreakpoint, sub := x.imm.toNat % 256, addr := x.imm.toNat } } .result none (e.parts u)))

/-- Of a sub-wave, the lanes that raise a trap become a parked sub-wave of their own at the faulting word, with the trap
pending, and the other lanes keep their sub-wave as it was; when all lanes raise it, the sub-wave itself parks. (R37) -/
def Obligations.TrapParks : Prop :=
  (∀ (w : Wave) (k pc : Nat) (m : Lanes) (tr : Trap) (entry : Bool) (sub : SubWave), w.subs.get? k = some sub → sub.mask &&& ~~~m ≠ 0 →
    let r := w.parkGroup k m tr pc entry
    r.2 ≠ k ∧ r.1.subs.get? k = some { sub with mask := sub.mask &&& ~~~m } ∧
    (∃ q p, r.1.subs.get? r.2 = some q ∧ q.mask = m ∧ q.pc = sub.pc ∧ q.slot = sub.slot ∧ q.hold = none ∧ q.park = some p ∧ p.trap = tr ∧
      p.pc = pc ∧ p.depth = sub.depth ∧ p.stage = .pending) ∧
    (∀ q b, q ≠ k → w.subs.get? q = some b → r.1.subs.get? q = some b) ∧ r.1 = { w with subs := r.1.subs }) ∧
  (∀ (w : Wave) (k pc : Nat) (m : Lanes) (tr : Trap) (entry : Bool) (sub : SubWave), w.subs.get? k = some sub → sub.mask &&& ~~~m = 0 →
    let r := w.parkGroup k m tr pc entry
    r.2 = k ∧ (∃ q p, r.1.subs.get? k = some q ∧ q.mask = sub.mask ∧ q.pc = sub.pc ∧ q.park = some p ∧ p.trap = tr ∧ p.pc = pc ∧
      p.depth = sub.depth ∧ p.stage = .pending) ∧
    (∀ q, q ≠ k → r.1.subs.get? q = w.subs.get? q) ∧ r.1 = { w with subs := r.1.subs })

/-- A parked sub-wave whose cause has route H enters the handler where TRAPBASE is not zero, its depth is below 63 and no
other sub-wave of the wave is in it: TRAPCAUSE, TRAPPC and TRAPADDR are set, the window of the next depth is opened with
every register released, and the sub-wave continues at TRAPBASE; everything else of the package stays. Where another sub-wave
is in the handler it stays parked. (R386) -/
def Obligations.HandlerEntry : Prop :=
  (∀ (s : State) (t w k : Nat) (e : Ex) (p : Park) (g : Grid), s.ex? t w k = some e → e.sub.park = some p → p.stage = .pending → s.grids.get? e.team.grid = some g →
    routeH p.trap.cause = true → p.forceRec = false → g.trapBase ≠ 0 → p.depth < 63 → e.wave.inHandler = false →
    ∃ w' sub, s.deliverTrap t w k = s.modWave t w (fun _ => w') ∧ w'.subs.get? k = some sub ∧
      w'.trapCause = BitVec.ofNat 64 (p.trap.cause + p.trap.sub * 2 ^ 8 + e.sub.mask.toNat * 2 ^ 16 + p.depth * 2 ^ 32) ∧
      w'.trapPc = BitVec.ofNat 64 p.pc ∧ w'.trapAddr = BitVec.ofNat 64 p.trap.addr ∧
      sub.pc = g.trapBase ∧ sub.clause = none ∧ sub.depth = e.sub.depth + 1 ∧ sub.park = none ∧ sub.mask = e.sub.mask ∧
      sub.handler.isSome = true ∧
      (∀ q, 16 ≤ q → q < 64 → (∀ sl, w'.vregs.get? (64 * (e.sub.depth + 1) + q) = some sl → sl.mask &&& e.sub.mask = 0) ∧
        ∀ sl, w'.uregs.get? (64 * (e.sub.depth + 1) + q) = some sl → sl.mask &&& e.sub.mask = 0) ∧
      (∀ q, q ≠ k → w'.subs.get? q = e.wave.subs.get? q) ∧ w'.preds = e.wave.preds ∧ w'.ctl = e.wave.ctl ∧
      w'.flags = e.wave.flags ∧ w'.live = e.wave.live) ∧
  (∀ (s : State) (t w k : Nat) (e : Ex) (p : Park) (g : Grid), s.ex? t w k = some e → e.sub.park = some p → p.stage = .pending → s.grids.get? e.team.grid = some g →
    routeH p.trap.cause = true → p.forceRec = false → g.trapBase ≠ 0 → p.depth < 63 → e.wave.inHandler = true → s.deliverTrap t w k = s)

/-- A trap without a handler, of route F, or at depth 63, makes a record with the fields of Table 13.2 where the store has
room, and the sub-wave stays parked with the number of the record; with a full store the trap is held. (R388) -/
def Obligations.HostRecord : Prop :=
  (∀ (s : State) (t w k : Nat) (e : Ex) (p : Park) (g : Grid) (c : Ctx), s.ex? t w k = some e → e.sub.park = some p → p.stage = .pending → s.grids.get? e.team.grid = some g →
    s.ctxs.get? e.team.ctx = some c → c.dev < s.devs.length → parkToHandler g.trapBase p = false → s.recRoom c.dev = true →
    ∃ (r : FaultRec) (u : State), s.deliverTrap t w k = u.modSub t w k (fun sub => { sub with park := some { p with stage := .recorded ((s.dev c.dev).recSeq + 1) } }) ∧
      (u.dev c.dev).records.get? ((s.dev c.dev).recSeq + 1) = some r ∧ u.teams = s.teams ∧ u.mem = s.mem ∧
      r.kind = (if p.trap.cause = cStep then 7 else 1) ∧ r.cause = p.trap.cause ∧ r.sub = p.trap.sub ∧ r.ctx = e.team.ctx ∧ r.grid = g.num ∧
      r.team = e.team.index ∧ r.pc = p.pc ∧ r.addr = p.trap.addr ∧ r.core = e.team.core ∧ r.wave = w ∧ r.depth = p.depth ∧
      r.lanes = e.sub.mask.toNat) ∧
  (∀ (s : State) (t w k : Nat) (e : Ex) (p : Park) (g : Grid) (c : Ctx), s.ex? t w k = some e → e.sub.park = some p → p.stage = .pending → s.grids.get? e.team.grid = some g →
    s.ctxs.get? e.team.ctx = some c → parkToHandler g.trapBase p = false → s.recRoom c.dev = false → s.deliverTrap t w k = s)

/-- Each of these calls, where it is taken up, its arguments are legal and no line of its block, tables, counter or buffers
makes it wait, completes with OK, but for the last two cases. CTX_CREATE gives the lowest free name of its device and the
size of the backing store that it takes (a free value, log entry 60), and completes with NO_RESOURCE where the store does not
fit; CTX_DESTROY ends the context; CTX_QUERY gives its state, its live grids, its resident teams and its deficit; PART_SET,
with no context left, sets the mode, the numbers and the routes of the devices; PART_QUERY gives mode, device and number;
SHARE_SET sets weight and quantum; CTX_RESUME resumes a suspended context; CTX_SUSPEND of a running one begins its preemption
and waits. (R423, R425, R405, R416, R358, R362) -/
def Obligations.ContextCalls : Prop :=
  (∀ (c : Call) (k : Nat) (s : State), Serves 0x01 5 c s → c.arg 0 < 2 ^ 11 ∧ bits (c.arg 0) 1 2 ≤ 1 ∧ c.arg 2 / 2 ^ 16 = 0 ∧
      bits (c.arg 2) 2 6 = 0 ∧ bits (c.arg 2) 8 8 ≤ 16 ∧ c.arg 3 < 2 ^ 16 ∧ c.arg 4 ≤ 2048 ∧
      ((List.range 64).find? fun k => (s.ctxs.get? (64 * c.dev + k)).isNone) = some k →
    let x : Ctx := {
      dev := c.dev, asid := c.arg 3, seed := BitVec.ofNat 64 (c.arg 1), inside := toBit (c.arg 2 / 2)
      ctl := BitVec.ofNat 64 (c.arg 0 / 16 * 16 + c.arg 0 % 8 + 8 * (c.arg 2 % 2))
      vf := if bits (c.arg 2) 8 8 = 0 then none else some (bits (c.arg 2) 8 8 - 1)
      faultVec := if c.arg 4 = 0 then none else some (c.arg 4 - 1)
      backing := (Config.backingBytes s.fresh).toNat }
    let made := State.reserveFrames (64 * c.dev + k) c.dev (ceilDiv x.backing 65536) { s.bump with ctxs := s.ctxs.set (64 * c.dev + k) x }
    (∀ t, made = some t → t.answerBusy c = false →
      exec (.ctxCreate c) s = .next ((t.dropCall (0x01, c)).answer c stOk [64 * c.dev + k, x.backing])) ∧
    (made = none → s.bump.answerBusy c = false →
      exec (.ctxCreate c) s = .next ((s.bump.dropCall (0x01, c)).answer c stNoResource []))) ∧
  (∀ (c : Call) (x : Ctx), CallLaw (.ctxDestroy c) c 0x02 0
    (fun s => s.ctxs.get? c.ctx = some x)
    (fun s => s.destroyCtx c.ctx x)
    (fun _ => [])) ∧
  (∀ (c : Call) (x : Ctx), CallLaw (.ctxQuery c) c 0x03 0
    (fun s => s.ctxs.get? c.ctx = some x)
    (fun s => s)
    (fun s => [x.st.code, s.liveGrids c.ctx, (s.residentOf c.ctx).length, intWord x.deficit])) ∧
  (∀ (c : Call) (t : State) (tables : List (List Nat)), CallLaw (.partSet c) c 0x04 (2 + 4 / fndsPer (c.arg 0))
    (fun s => c.arg 0 ≤ 2 ∧ c.arg 1 / 2 ^ (12 * (4 / fndsPer (c.arg 0))) = 0 ∧
      ((List.range (4 / fndsPer (c.arg 0))).any fun d => s.callerBusy c.caller (c.arg (2 + d)) 16384 false) = false ∧
      State.readTables c.caller ((List.range (4 / fndsPer (c.arg 0))).map fun d => c.arg (2 + d)) s = .ok (t, tables) ∧
      ((List.range (4 / fndsPer (c.arg 0))).any fun d => routesBad (c.arg 0) d (bits (c.arg 1) (12 * d) 12) ((tables[d]?).getD [])) = false ∧
      t.ctxs = [])
    (fun _ =>
      let fresh := c.arg 0 != t.pkg.mode
      let u : State := { t with
        pkg := { t.pkg with mode := c.arg 0 }, dir := if fresh then [] else t.dir
        cores := if fresh then t.cores.map fun c => (c.1, { c.2 with l1 := [], ic := [] }) else t.cores, tlb := if fresh then [] else t.tlb }
      (List.range (4 / fndsPer (c.arg 0))).foldl (fun s d => s.modDev d fun v => { v with
        barnos := bits (c.arg 1) (12 * d) 12, routes := routesOf ((tables[d]?).getD []), placePtr := 0
        hometab := if fresh then s.rehome (c.arg 0) d else v.hometab
        remap := if fresh then [] else v.remap }) u)
    (fun _ => [])) ∧
  (∀ (c : Call), CallLaw (.partQuery c) c 0x05 0
    (fun _ => True)
    (fun s => s)
    (fun s => [s.pkg.mode, c.dev, (s.dev c.dev).barnos])) ∧
  (∀ (c : Call), CallLaw (.shareSet c) c 0x0B 2
    (fun _ => c.arg 0 ≤ 255 ∧ 64 ≤ c.arg 1 ∧ c.arg 1 ≤ 65535)
    (fun s => s.modCtx c.ctx fun x => { x with weight := c.arg 0, quantum := 100 * c.arg 1 })
    (fun _ => [])) ∧
  (∀ (c : Call), CallWaits (.ctxSuspend c) c 0x1B 2
    (fun s => c.arg 0 ≤ 1000000 ∧ c.arg 1 ≤ 1000000 ∧ (s.ctxs.get? c.ctx).map (fun x => x.st) = some .running)
    (fun s => s.preempt c.ctx (deadlineTicks (c.arg 0)) (deadlineTicks (c.arg 1)) false)) ∧
  (∀ (c : Call), CallLaw (.ctxResume c) c 0x1C 0
    (fun s => (s.ctxs.get? c.ctx).map (fun x => x.st) = some .suspended)
    (fun s => s.resumeCtx c.ctx)
    (fun _ => []))

/-- QUEUE_CREATE of a command queue, QUEUE_DESTROY, QUEUE_BIND_PRIORITY, LAUNCH_GRID and LAUNCH_CANCEL, taken up with legal
arguments and with no line of their blocks, counters and buffers making them wait, complete with OK and the effect and
results that R425 gives. The priority of a grid that LAUNCH_GRID starts is a free value. (R423, R425, R344, R345, R276) -/
def Obligations.QueueCalls : Prop :=
  (∀ (c : Call) (k : Nat), CallLaw (.queueCreate c) c 0x06 5
    (fun s => 4 ≤ c.arg 1 ∧ c.arg 1 ≤ 16 ∧ c.arg 0 % (64 * 2 ^ c.arg 1) = 0 ∧ c.arg 0 < 2 ^ 56 ∧ c.arg 2 % 16 = 0 ∧ c.arg 2 < 2 ^ 56 ∧
      c.arg 3 ≤ 3 ∧ c.arg 4 = 0 ∧
      ((List.range (queueLimit s.pkg.mode)).find? fun k => (s.queues.get? (256 * c.dev + k)).isNone) = some k)
    (fun s =>
      let running := (s.ctxs.get? c.ctx).map (fun x => x.st) == some .running
      let s : State := s.modCtx c.ctx fun x => if x.pages.any fun p => p.va == doorBase then x else { x with pages := x.pages ++ [doorPage] }
      let q : Queue :=
        { ctx := c.ctx, ring := c.arg 0, n := c.arg 1, headVa := c.arg 2, prio := c.arg 3, xfer := none
          st := if running then .idle else .suspended }
      ({ s with queues := s.queues.set (256 * c.dev + k) q } : State).writeHead (256 * c.dev + k))
    (fun _ => [k, 0x1000 + 8 * k, doorBase + 8 * k])) ∧
  (∀ (c : Call) (k : Nat) (q : Queue), CallLaw (.queueDestroy c) c 0x07 1
    (fun s => s.queueArg c = some (k, q))
    (fun s => { s with
        queues := s.queues.del k
        grids := s.grids.map fun g => (g.1, if g.2.queue = some k then { g.2 with queue := none } else g.2) })
    (fun _ => [])) ∧
  (∀ (c : Call) (k : Nat) (q : Queue), CallLaw (.queueBindPriority c) c 0x08 2
    (fun s => s.queueArg c = some (k, q) ∧ c.arg 1 ≤ 3)
    (fun s => s.modQueue k fun q => { q with prio := c.arg 1 })
    (fun _ => [])) ∧
  (∀ (c : Call) (t t' : State) (ws : List Nat) (g : Grid), CallLaw (.launchGrid c) c 0x09 1
    (fun s => c.arg 0 % 256 = 0 ∧ s.unitsBusy c.ctx (c.arg 0) 256 false = false ∧ s.unitsBusy c.ctx (c.arg 0) 256 true = false ∧
      s.unitWords c.ctx (c.arg 0) 32 = .ok (t, ws) ∧ t.checkLaunch c.ctx (c.arg 0) ws false = (t', .ok g) ∧
      (∃ r, t'.unit c.ctx { n := 8, rd := false, wr := true } (c.arg 0 + 0x28) = .ok r))
    (fun _ => (t'.createGrid g 0 (Config.freeNat t'.fresh % 4) none none).1.bump)
    (fun _ => [])) ∧
  (∀ (c : Call) (k : Nat) (q : Queue), CallLaw (.launchCancel c) c 0x0A 2
    (fun s => s.queueArg c = some (k, q) ∧ c.arg 1 = 0 ∧ q.st = .error)
    (fun s => s.passRefused k q)
    (fun _ => [])) ∧
  (∀ (c : Call) (k : Nat) (q : Queue) (n : Nat) (g : Grid), CallLaw (.launchCancel c) c 0x0A 2
    (fun s => s.queueArg c = some (k, q) ∧ c.arg 1 ≠ 0 ∧
      (s.grids.find? fun g => g.2.ctx == c.ctx && g.2.num == c.arg 1 && g.2.queue == some k && !g.2.complete) = some (n, g))
    (fun s => s.abandonGrid n 4)
    (fun _ => []))

/-- VA_RESERVE, VA_RELEASE, MEM_ALLOC, MEM_FREE, UNMAP, PROTECT that takes no permission away, ALIAS_REGISTER, RANGE_PURGE,
HOST_MAP, PEER_MAP and PEER_UNMAP, taken up with legal arguments and with no line of their blocks, counters and buffers
making them wait, complete with OK and the effect and results that R425 gives; a purge that has not ended leaves the call
waiting. (R423, R425, R338, R340, R418, R462) -/
def Obligations.MemoryCalls : Prop :=
  (∀ (c : Call), CallLaw (.vaReserve c) c 0x0C 3
    (fun s => c.arg 0 ≠ 0 ∧ c.arg 0 % (if c.arg 2 = 0 then 65536 else c.arg 2) = 0 ∧ c.arg 2 % 65536 = 0 ∧ rangeOk (c.arg 0) (c.arg 1) 65536 = true ∧
      ((s.callCtx c).ranges.any fun r => rangesMeet r.1 r.2 (c.arg 0) (c.arg 1)) = false)
    (fun s => s.modCtx c.ctx fun x => { x with ranges := x.ranges ++ [(c.arg 0, c.arg 1)] })
    (fun _ => [c.arg 0])) ∧
  (∀ (c : Call) (v : Nat), CallLaw (.vaReserve c) c 0x0C 3
    (fun s => c.arg 0 = 0 ∧ c.arg 2 % 65536 = 0 ∧ rangeOk 0 (c.arg 1) 65536 = true ∧
      (s.freshVa (s.callCtx c) (c.arg 1) (if c.arg 2 = 0 then 65536 else c.arg 2)) = some v)
    (fun s => (s.modCtx c.ctx fun x => { x with ranges := x.ranges ++ [(v, c.arg 1)] }).bump)
    (fun _ => [v])) ∧
  (∀ (c : Call), CallLaw (.vaRelease c) c 0x0D 2
    (fun s => (s.callCtx c).ranges.contains (c.arg 0, c.arg 1) = true ∧ (s.callCtx c).mapped (c.arg 0) (c.arg 1) = false)
    (fun s => s.modCtx c.ctx fun x => { x with ranges := x.ranges.erase (c.arg 0, c.arg 1) })
    (fun _ => [])) ∧
  (∀ (c : Call) (ps : Nat) (t : State), CallLaw (.memAlloc c) c 0x0E 4
    (fun s => pageSize (c.arg 2) = some ps ∧ permOk (c.arg 3) = true ∧ rangeOk (c.arg 0) (c.arg 1) ps = true ∧ c.arg 0 ≠ 0 ∧
      (s.callCtx c).reserved (c.arg 0) (c.arg 1) = true ∧ (s.callCtx c).mapped (c.arg 0) (c.arg 1) = false ∧
      State.allocPages c.ctx c.dev ps (c.arg 3) (c.arg 1 / ps) (c.arg 0) s.bump = some t)
    (fun _ => t)
    (fun _ => [c.arg 0])) ∧
  (∀ (c : Call) (ps v : Nat) (t : State), CallLaw (.memAlloc c) c 0x0E 4
    (fun s => pageSize (c.arg 2) = some ps ∧ permOk (c.arg 3) = true ∧ rangeOk 0 (c.arg 1) ps = true ∧ c.arg 0 = 0 ∧
      s.freshVa (s.callCtx c) (c.arg 1) ps = some v ∧ State.allocPages c.ctx c.dev ps (c.arg 3) (c.arg 1 / ps) v s.bump = some t)
    (fun _ => t.modCtx c.ctx fun x => { x with ranges := x.ranges ++ [(v, c.arg 1)] })
    (fun _ => [v])) ∧
  (∀ (c : Call) (t : State), CallLaw (.memFree c) c 0x0F 2
    (fun s => rangeOk (c.arg 0) (c.arg 1) 65536 = true ∧
      65536 * ((s.callCtx c).allocs.filter fun a => decide (c.arg 0 ≤ a.1 ∧ a.1 < c.arg 0 + c.arg 1)).length = c.arg 1 ∧
      s.purgeRange c.dev (s.callCtx c).asid (c.arg 0) (c.arg 1) = (t, true))
    (fun s => (((((t.purged c.dev (s.callCtx c).asid (c.arg 0) (c.arg 1)).unmapRange c.ctx (c.arg 0) (c.arg 1)).modCtx c.ctx fun x =>
      { x with allocs := x.allocs.filter fun a => !decide (c.arg 0 ≤ a.1 ∧ a.1 < c.arg 0 + c.arg 1) }).hostResume c.dev).peerResume c.dev).owedHeads)
    (fun _ => [])) ∧
  (∀ (c : Call) (t : State), CallLaw (.unmap c) c 0x11 2
    (fun s => rangeOk (c.arg 0) (c.arg 1) 65536 = true ∧ s.purgeRange c.dev (s.callCtx c).asid (c.arg 0) (c.arg 1) = (t, true))
    (fun s => ((((t.purged c.dev (s.callCtx c).asid (c.arg 0) (c.arg 1)).unmapRange c.ctx (c.arg 0) (c.arg 1)).hostResume c.dev).peerResume c.dev).owedHeads)
    (fun _ => [])) ∧
  (∀ (c : Call) (t : State), CallWaits (.unmap c) c 0x11 2
    (fun s => rangeOk (c.arg 0) (c.arg 1) 65536 = true ∧ s.purgeRange c.dev (s.callCtx c).asid (c.arg 0) (c.arg 1) = (t, false))
    (fun _ => t)) ∧
  (∀ (c : Call), CallLaw (.protect c) c 0x12 3
    (fun s => rangeOk (c.arg 0) (c.arg 1) 65536 = true ∧ permOk (c.arg 2) = true ∧
      (let hit := ((s.callCtx c).cut (c.arg 0) (c.arg 1)).filter fun p => p.within (c.arg 0) (c.arg 1)
       hit.foldl (fun n p => n + p.size) 0 = c.arg 1 ∧ (hit.any fun p => p.revoked) = false ∧
       (hit.all fun p => Nat.land p.perm (c.arg 2) = p.perm) = true))
    (fun s => s.modCtx c.ctx fun x => { x with
        pages := (x.cut (c.arg 0) (c.arg 1)).map fun p => if p.within (c.arg 0) (c.arg 1) then { p with perm := c.arg 2 } else p })
    (fun _ => [])) ∧
  (∀ (c : Call), CallLaw (.aliasRegister c) c 0x13 5
    (fun s => c.arg 1 < 2 ^ 16 ∧ c.arg 4 ≤ 15 ∧ rangeOk (c.arg 0) (c.arg 3) 65536 = true ∧ rangeOk (c.arg 2) (c.arg 3) 65536 = true ∧
      ¬ ((s.callCtx c).asid = c.arg 1 ∧ rangesMeet (c.arg 2) (c.arg 3) (c.arg 0) (c.arg 3) = true) ∧
      (∀ a ∈ (s.dev c.dev).remap,
        ¬ (a.asid = c.arg 1 ∧ rangesMeet a.base a.len (c.arg 2) (c.arg 3) = true) ∧
        ¬ (a.toAsid = (s.callCtx c).asid ∧ rangesMeet a.toBase a.len (c.arg 0) (c.arg 3) = true) ∧
        ¬ (a.asid = (s.callCtx c).asid ∧ rangesMeet a.base a.len (c.arg 0) (c.arg 3) = true)) ∧
      (s.callCtx c).mapped (c.arg 0) (c.arg 3) = false ∧ (s.dev c.dev).remap.length < 256)
    (fun s => s.modDev c.dev fun v => { v with remap := v.remap ++ [⟨(s.callCtx c).asid, c.arg 0, c.arg 3, c.arg 1, c.arg 2, c.arg 4⟩] })
    (fun _ => [])) ∧
  (∀ (c : Call) (t : State), CallLaw (.rangePurge c) c 0x14 3
    (fun s => (let asid := if c.arg 0 = 0 then (s.callCtx c).asid else c.arg 0
      asid < 2 ^ 16 ∧ rangeOk (c.arg 1) (c.arg 2) 65536 = true ∧ s.purgeRange c.dev asid (c.arg 1) (c.arg 2) = (t, true)))
    (fun s => (((t.purged c.dev (if c.arg 0 = 0 then (s.callCtx c).asid else c.arg 0) (c.arg 1) (c.arg 2)).hostResume c.dev).peerResume c.dev).owedHeads)
    (fun _ => [])) ∧
  (∀ (c : Call), CallLaw (.hostMap c) c 0x15 5
    (fun s => c.arg 3 ≤ 1 ∧ c.arg 1 % 65536 = 0 ∧ c.arg 1 + c.arg 2 ≤ 2 ^ 64 ∧ permOk (c.arg 4) = true ∧ rangeOk (c.arg 0) (c.arg 2) 65536 = true ∧
      (s.callCtx c).mapped (c.arg 0) (c.arg 2) = false ∧
      (∀ y ∈ s.ctxs, y.2.dev = c.dev → ∀ p ∈ y.2.pages, ∀ b, p.target = .host (c.arg 3) b →
        rangesMeet b p.size (c.arg 1) (c.arg 2) = false))
    (fun s => s.modCtx c.ctx fun x => { x with pages := x.pages ++ (List.range (c.arg 2 / 65536)).map fun i =>
      { va := c.arg 0 + 65536 * i, size := 65536, target := .host (c.arg 3) (c.arg 1 + 65536 * i), perm := c.arg 4 } })
    (fun _ => [])) ∧
  (∀ (c : Call), CallLaw (.peerMap c) c 0x16 6
    (fun s => c.arg 0 = 0 ∧ c.arg 3 = 0 ∧ c.arg 1 ≤ 4095 ∧ c.arg 1 ≠ (s.dev c.dev).barnos ∧ permOk (c.arg 5) = true ∧ rangeOk (c.arg 2) (c.arg 4) 65536 = true)
    (fun s => s.modDev c.dev fun v => { v with handleSeq := (s.dev c.dev).handleSeq + 1, exports := v.exports ++ [{ handle := (s.dev c.dev).handleSeq + 1, peer := c.arg 1, ctx := c.ctx, va := c.arg 2, remote := c.arg 3, len := c.arg 4, perm := c.arg 5 }] })
    (fun s => [(s.dev c.dev).handleSeq + 1])) ∧
  (∀ (c : Call), CallLaw (.peerMap c) c 0x16 6
    (fun s => c.arg 0 = 1 ∧ rangeOk (c.arg 3) (c.arg 4) 65536 = true ∧ c.arg 1 ≤ 4095 ∧ c.arg 1 ≠ (s.dev c.dev).barnos ∧ permOk (c.arg 5) = true ∧ rangeOk (c.arg 2) (c.arg 4) 65536 = true ∧ (s.callCtx c).mapped (c.arg 2) (c.arg 4) = false)
    (fun s => (s.modDev c.dev fun v => { v with imports := v.imports ++ [{ handle := 0, peer := c.arg 1, ctx := c.ctx, va := c.arg 2, remote := c.arg 3, len := c.arg 4, perm := c.arg 5 }] }).modCtx c.ctx fun x =>
      { x with pages := x.pages ++ (List.range (c.arg 4 / 65536)).map fun i =>
          { va := c.arg 2 + 65536 * i, size := 65536, target := .peer (c.arg 1) (c.arg 3 + 65536 * i), perm := c.arg 5 } })
    (fun _ => [])) ∧
  (∀ (c : Call), CallLaw (.peerUnmap c) c 0x17 2
    (fun s => ((s.dev c.dev).exports.any fun w => w.handle == c.arg 0 && w.ctx == c.ctx) = true)
    (fun s => s.modDev c.dev fun v => { v with exports := v.exports.filter fun w => !(w.handle == c.arg 0 && w.ctx == c.ctx) })
    (fun _ => [])) ∧
  (∀ (c : Call), CallLaw (.peerUnmap c) c 0x17 2
    (fun s => ((s.dev c.dev).exports.any fun w => w.handle == c.arg 0 && w.ctx == c.ctx) = false ∧ rangeOk (c.arg 0) (c.arg 1) 65536 = true ∧
      (((s.callCtx c).cut (c.arg 0) (c.arg 1)).any fun p => p.isPeer && p.within (c.arg 0) (c.arg 1)) = true)
    (fun s =>
      let t : State := s.modDev c.dev fun v => { v with
        imports := v.imports.filter fun w => !(w.ctx == c.ctx && decide (c.arg 0 ≤ w.va ∧ w.va + w.len ≤ c.arg 0 + c.arg 1)) }
      let t : State := t.dropTlb c.dev (s.callCtx c).asid (c.arg 0) (c.arg 1)
      t.modCtx c.ctx fun x => { x with
        pages := (x.cut (c.arg 0) (c.arg 1)).filter fun p => !(p.isPeer && p.within (c.arg 0) (c.arg 1)) })
    (fun _ => []))

/-- FAULT_FETCH, FAULT_RESOLVE, FAULT_ABORT, DBG_ATTACH, DBG_HALT of a context, a grid, a team or a wave, DBG_STEP of a wave,
DBG_READ_STATE and DBG_WRITE_STATE of registers, and DBG_DETACH, taken up with legal arguments and with no line of their
blocks, counters and buffers making them wait, complete with OK and the effect and results of their rules. (R388, R389, R401,
R402, R425, R440) -/
def Obligations.FaultAndDebugCalls : Prop :=
  (∀ (c : Call), CallLaw (.faultFetch c) c 0x18 2
    (fun s => s.callerFault c.caller true (c.arg 0)
      (128 * (((s.dev c.dev).records.filter fun p => s.mayName c p.2.ctx).take (c.arg 1)).length) = none ∧
      s.callerBusy c.caller (c.arg 0) (128 * (((s.dev c.dev).records.filter fun p => s.mayName c p.2.ctx).take (c.arg 1)).length) true = false)
    (fun s => s.callerWrite c.caller (c.arg 0) ((((s.dev c.dev).records.filter fun p => s.mayName c p.2.ctx).take (c.arg 1)).flatMap fun p => p.2.bytes p.1))
    (fun s => [(((s.dev c.dev).records.filter fun p => s.mayName c p.2.ctx).take (c.arg 1)).length])) ∧
  (∀ (c : Call) (r : FaultRec) (t : State), CallLaw (.faultResolve c) c 0x19 2
    (fun s => (s.dev c.dev).records.get? (c.arg 0) = some r ∧ c.arg 1 ≤ 2 ∧ s.mayName c r.ctx = true ∧ (s.freeRecord c.dev (c.arg 0)).resolve? (c.arg 0) (c.arg 1) r = some t)
    (fun _ => t.recordSpans)
    (fun _ => [])) ∧
  (∀ (c : Call) (r : FaultRec), CallLaw (.faultAbort c) c 0x1A 1
    (fun s => (s.dev c.dev).records.get? (c.arg 0) = some r ∧ s.mayName c r.ctx = true ∧ r.gridKey ≠ 0 ∧ ((s.grids.get? r.gridKey).any fun g => !g.complete) = true)
    (fun s =>
      let t := (s.abandonGrid r.gridKey 4).dropRecords c.dev fun q => q.gridKey == r.gridKey
      let t : State := { t with engines := t.engines.map fun e =>
        (e.1, e.2.filter fun x => !(x.2.faultRec.isSome && x.2.team.isSome && x.2.grid == r.gridKey)) }
      t.sweep.recordSpans)
    (fun _ => [])) ∧
  (∀ (c : Call), CallLaw (.dbgAttach c) c 0x1D 0
    (fun s => (s.dev c.dev).debugger = none)
    (fun s => s.modDev c.dev fun v => { v with debugger := some ((s.dev c.dev).handleSeq + 1), handleSeq := (s.dev c.dev).handleSeq + 1 })
    (fun s => [(s.dev c.dev).handleSeq + 1])) ∧
  (∀ (c : Call), CallLaw (.dbgHalt c) c 0x1E 5
    (fun s => s.handleErr c = none ∧ c.arg 1 = 0 ∧ c.arg 2 = 0 ∧ c.arg 3 = 0 ∧ c.arg 4 = 0)
    (fun s => (s.teams.filter fun p => p.2.ctx == c.ctx).foldl (fun s p => s.askHalt p.1 fun _ => true) s)
    (fun _ => [])) ∧
  (∀ (c : Call) (gk : Nat) (g : Grid), CallLaw (.dbgHalt c) c 0x1E 5
    (fun s => s.handleErr c = none ∧ c.arg 1 = 1 ∧ c.arg 3 = 0 ∧ c.arg 4 = 0 ∧ s.gridNamed c.ctx (c.arg 2) = some (gk, g))
    (fun s => (s.teams.filter fun p => p.2.grid == gk).foldl (fun s p => s.askHalt p.1 fun _ => true) s)
    (fun _ => [])) ∧
  (∀ (c : Call) (gk : Nat) (g : Grid) (u : State) (t : Nat), CallLaw (.dbgHalt c) c 0x1E 5
    (fun s => s.handleErr c = none ∧ (c.arg 1 = 2 ∧ c.arg 4 = 0 ∨ c.arg 1 = 3) ∧ s.gridNamed c.ctx (c.arg 2) = some (gk, g) ∧
      c.arg 3 < g.teamCount ∧ c.arg 4 < 16 * g.waveCount ∧ s.findTeam gk g (c.arg 3) = .team u t)
    (fun _ => u.askHalt t fun w => c.arg 1 == 2 || w == c.arg 4 / 16)
    (fun _ => [])) ∧
  (∀ (c : Call) (gk : Nat) (g : Grid) (u : State) (t : Nat) (wv : Wave), CallLaw (.dbgStep c) c 0x1F 5
    (fun s => s.handleErr c = none ∧ c.arg 1 = 4 ∧ s.gridNamed c.ctx (c.arg 2) = some (gk, g) ∧ c.arg 3 < g.teamCount ∧ c.arg 4 < g.waveCount ∧
      s.findTeam gk g (c.arg 3) = .team u t ∧ u.wave? t (c.arg 4) = some wv ∧ (∃ k ∈ wv.subs, k.2.park.isSome = false))
    (fun _ => u.modWave t (c.arg 4) fun wv =>
      { wv with subs := wv.subs.map fun k => (k.1, if k.2.park.isSome then k.2 else { k.2 with stepping := 1 }) })
    (fun _ => [])) ∧
  (∀ (c : Call) (u : State) (tb : List Byte) (t : Nat) (tm : Team) (wv : Wave), CallLaw (.dbgReadState c) c 0x20 5
    (fun s => s.handleErr c = none ∧ c.arg 1 < 2 ∧ s.callerBusy c.caller (c.arg 2) 32 false = false ∧ State.callerRead c.caller (c.arg 2) 32 s = .ok (u, tb) ∧
      (let r := target1 tb
       debugSize (c.arg 1) r.cls (c.arg 4) ≤ c.arg 4 ∧ r.cls ≤ 8 ∧ u.callerFault c.caller true (c.arg 3) (debugSize (c.arg 1) r.cls (c.arg 4)) = none ∧
       u.callerBusy c.caller (c.arg 3) (debugSize (c.arg 1) r.cls (c.arg 4)) true = false ∧
       ((u.gridNamed c.ctx r.grid).bind fun g => u.teams.find? fun p => p.2.grid == g.1 && p.2.index == r.team) = some (t, tm) ∧
       tm.waves.get? r.wave = some wv ∧ r.ok (c.arg 1) tm = true ∧ wv.halted = true))
    (fun _ => u.callerWrite c.caller (c.arg 3) (u.debugBytes (c.arg 1) (target1 tb) t tm wv))
    (fun _ => [debugSize (c.arg 1) (target1 tb).cls (c.arg 4)])) ∧
  (∀ (c : Call) (u u' v : State) (tb bs : List Byte) (t : Nat) (tm : Team) (wv : Wave), CallLaw (.dbgWriteState c) c 0x21 5
    (fun s => s.handleErr c = none ∧ c.arg 1 < 2 ∧ s.callerBusy c.caller (c.arg 2) 32 false = false ∧ State.callerRead c.caller (c.arg 2) 32 s = .ok (u, tb) ∧
      (let r := target1 tb
       debugSize (c.arg 1) r.cls (c.arg 4) ≤ c.arg 4 ∧ r.cls ≤ 8 ∧ u.callerFault c.caller false (c.arg 3) (debugSize (c.arg 1) r.cls (c.arg 4)) = none ∧
       u.callerBusy c.caller (c.arg 3) (debugSize (c.arg 1) r.cls (c.arg 4)) false = false ∧
       State.callerRead c.caller (c.arg 3) (debugSize (c.arg 1) r.cls (c.arg 4)) u = .ok (u', bs) ∧
       ((u'.gridNamed c.ctx r.grid).bind fun g => u'.teams.find? fun p => p.2.grid == g.1 && p.2.index == r.team) = some (t, tm) ∧
       tm.waves.get? r.wave = some wv ∧ r.ok (c.arg 1) tm = true ∧ wv.halted = true ∧ u'.debugWrite (c.arg 1) r t tm wv bs = some v))
    (fun _ => v)
    (fun _ => [])) ∧
  (∀ (c : Call), CallLaw (.dbgDetach c) c 0x22 1
    (fun s => s.handleErr c = none)
    (fun s => (s.modDev c.dev fun v => { v with debugger := none }).resumeWaves c.dev)
    (fun _ => []))

/-- CAP_QUERY of a core, ERR_LOG_READ, ERR_CLEAR of everything, DIE_QUARANTINE, LEASE_RENEW, LEASE_RELEASE, LEASE_TAKEOVER,
ATTEST_QUOTE, FW_ACTIVATE, TELEMETRY_READ, POWER_CAP_SET and RESYNC with action 0, taken up with legal arguments and with no
line of their blocks, counters and buffers making them wait, complete with OK and the effect and results of their rules;
BANK_RETIRE and FW_STAGE wait for the vent and for the check of the image. (R397, R411, R426, R430, R433, R435, R436, R438,
R439, R441, R455) -/
def Obligations.AdminCalls : Prop :=
  (∀ (c : Call), CallLaw (.capQuery c) c 0x23 1
    (fun s => c.arg 0 ≠ 0xFFFF ∧ c.arg 0 < 768 ∧ s.devOfCore (c.arg 0) = c.dev)
    (fun s => s)
    (fun s => [(s.core (c.arg 0)).capReg.word, (s.core (c.arg 0)).capStash.word, (s.core (c.arg 0)).capAcc.word,
      (s.cdie (dieOf (c.arg 0))).capL2.word])) ∧
  (∀ (c : Call) (b : BankRef), CallWaits (.bankRetire c) c 0x24 3
    (fun s => s.bankNamed c = some b ∧ s.retired b = false)
    (fun s => s.requestVent b)) ∧
  (∀ (c : Call), CallLaw (.errLogRead c) c 0x25 3
    (fun s => s.callerFault c.caller true (c.arg 0) (64 * ((s.pkg.log.filter fun e => decide (c.arg 2 ≤ e.seq) && s.sees c e).take (c.arg 1)).length) = none ∧
      s.callerBusy c.caller (c.arg 0) (64 * ((s.pkg.log.filter fun e => decide (c.arg 2 ≤ e.seq) && s.sees c e).take (c.arg 1)).length) true = false)
    (fun s => s.callerWrite c.caller (c.arg 0) (((s.pkg.log.filter fun e => decide (c.arg 2 ≤ e.seq) && s.sees c e).take (c.arg 1)).flatMap LogEntry.bytes))
    (fun s => [((s.pkg.log.filter fun e => decide (c.arg 2 ≤ e.seq) && s.sees c e).take (c.arg 1)).length, match ((s.pkg.log.filter fun e => decide (c.arg 2 ≤ e.seq) && s.sees c e).take (c.arg 1)).getLast? with
      | some e => e.seq + 1
      | none => max (c.arg 2) ((s.pkg.log.head?.map fun e => e.seq).getD s.pkg.logSeq)])) ∧
  (∀ (c : Call), CallLaw (.errClear c) c 0x26 1
    (fun _ => c.arg 0 = 2 ^ 64 - 1)
    (fun s =>
      let bank (e : BankErr) : BankErr := if s.bankDev e.b ≠ c.dev then e else { e with corrected := 0, uncorrected := 0 }
      let core (k : Core) : Core := { k with rollbacks := 0, undersized := 0, mismatches := 0 }
      let link (l : Nat) (k : Link) : Link := if s.devOfFnd (linkFnd l) == c.dev then { k with slowCount := 0 } else k
      { s with
        pkg := { s.pkg with banks := s.pkg.banks.map bank }
        cores := s.cores.map fun k => (k.1, if s.devOfCore k.1 = c.dev then core k.2 else k.2)
        links := s.links.mapAll link })
    (fun _ => [])) ∧
  (∀ (c : Call), CallLaw (.dieQuarantine c) c 0x27 1
    (fun s => c.arg 0 < 16 ∧ s.devOfFnd (c.arg 0 / 4) = c.dev)
    (fun s => s.declareDead (.compute (c.arg 0)) 1)
    (fun _ => [])) ∧
  (∀ (c : Call), CallLaw (.dieQuarantine c) c 0x27 1
    (fun s => 16 ≤ c.arg 0 ∧ c.arg 0 < 20 ∧ s.devOfFnd (c.arg 0 - 16) = c.dev)
    (fun s => s.declareDead (.foundation (c.arg 0 - 16)) 1)
    (fun _ => [])) ∧
  (∀ (c : Call), CallLaw (.leaseRenew c) c 0x28 2
    (fun s => s.svcTime ≤ (s.dev c.dev).lapse)
    (fun s => (s.modDev c.dev fun v => { v with
      baton := .held (hostPort c), leaseStart := s.svcTime
      period := if c.arg 0 = 0 then v.period else c.arg 0
      window := if c.arg 1 = 0 then v.window else c.arg 1 }).deliverHeld c.dev (hostPort c))
    (fun s => [((s.modDev c.dev fun v => { v with
      baton := .held (hostPort c), leaseStart := s.svcTime
      period := if c.arg 0 = 0 then v.period else c.arg 0
      window := if c.arg 1 = 0 then v.window else c.arg 1 }).deliverHeld c.dev (hostPort c)).leaseLeft c.dev])) ∧
  (∀ (c : Call), CallLaw (.leaseRelease c) c 0x29 0
    (fun _ => True)
    (fun s => s.openBaton c.dev s.svcTime)
    (fun _ => [])) ∧
  (∀ (c : Call), CallLaw (.leaseTakeover c) c 0x2A 0
    (fun s => (s.dev c.dev).baton = .opened)
    (fun s => s.holderChange c.dev (hostPort c))
    (fun s => [((s.holderChange c.dev (hostPort c)).dev c.dev).bgen.toNat])) ∧
  (∀ (c : Call), CallLaw (.leaseTakeover c) c 0x2A 0
    (fun s => (s.dev c.dev).baton = .gone)
    (fun s => (s.wakeQueues c.dev).holderChange c.dev (hostPort c))
    (fun s => [(((s.wakeQueues c.dev).holderChange c.dev (hostPort c)).dev c.dev).bgen.toNat])) ∧
  (∀ (c : Call) (t : State) (nonce : List Byte), CallLaw (.attestQuote c) c 0x2B 2
    (fun s => s.callerBusy c.caller (c.arg 0) 48 false = false ∧ State.callerRead c.caller (c.arg 0) 48 s = .ok (t, nonce) ∧
      t.callerFault c.caller true (c.arg 1) 16864 = none ∧ t.callerBusy c.caller (c.arg 1) 16864 true = false)
    (fun _ => t.callerWrite c.caller (c.arg 1) (t.quote c.dev nonce))
    (fun _ => [16864])) ∧
  (∀ (c : Call) (t : State) (bs : List Byte), CallWaits (.fwStage c) c 0x2C 2
    (fun s => 0x4200 ≤ c.arg 1 ∧ c.arg 1 ≤ 0x4200 + 8388608 ∧ s.callerBusy c.caller (c.arg 0) (c.arg 1) false = false ∧
      State.callerRead c.caller (c.arg 0) (c.arg 1) s = .ok (t, bs) ∧
      bs.take 4 = [0x4B, 0x47, 0x46, 0x57] ∧ (fieldAt bs 4 4 = 1 ∨ fieldAt bs 4 4 = 2) ∧ fieldAt bs 0x14 4 + 0x4200 = c.arg 1 ∧
      (((bs.drop 0x48).take 184).all fun b => b == 0) = true ∧ (((bs.drop 0x41E0).take 32).all fun b => b == 0) = true ∧
      (t.pkg.fw (fieldAt bs 4 4)).checking = none)
    (fun _ =>
      let i : Image := { version := fieldAt bs 8 8, svn := fieldAt bs 0x10 4, header := bs.take 0x4200 }
      let u : State := t.modFw (fieldAt bs 4 4) fun f => { f with
        slots := listSet f.slots (1 - f.active) none, staged := none, checking := some (i, imageVerdict bs f.minSvn) }
      { u with pkg := { u.pkg with staging := u.pkg.staging ++ [(c, fieldAt bs 4 4)] } })) ∧
  (∀ (c : Call) (n : Nat) (i : Image), CallLaw (.fwActivate c) c 0x2D 1
    (fun s => (c.arg 0 = 1 ∨ c.arg 0 = 2) ∧ (s.pkg.fw (c.arg 0)).staged = some n ∧ ((s.pkg.fw (c.arg 0)).slots[n]?).getD none = some i ∧
      s.pkg.staging = [])
    (fun s =>
      let t : State := (s.modFw (c.arg 0) fun f => { f with
        active := n, staged := none, minSvn := max f.minSvn i.svn, running := if c.arg 0 = 2 then some i else f.running }).writeRecord
      if c.arg 0 = 2 then { t with pkg := { t.pkg with policyRunning := true, policyRestarts := [] } } else t)
    (fun _ => [])) ∧
  (∀ (c : Call), CallLaw (.telemetryRead c) c 0x2E 3
    (fun s => (c.arg 0 < 4 ∨ 128 ≤ c.arg 0 ∧ c.arg 0 < 132) ∧ teleSize (c.arg 0) ≤ c.arg 2 ∧
      s.callerFault c.caller true (c.arg 1) (teleSize (c.arg 0)) = none ∧ s.callerBusy c.caller (c.arg 1) (teleSize (c.arg 0)) true = false)
    (fun s => (s.callerWrite c.caller (c.arg 1) (s.teleRecord c (c.arg 0))).bump)
    (fun _ => [teleSize (c.arg 0)])) ∧
  (∀ (c : Call), CallLaw (.powerCapSet c) c 0x2F 1
    (fun _ => 1200 ≤ c.arg 0 ∧ c.arg 0 ≤ 3600)
    (fun s => { s with pkg := { s.pkg with cap := c.arg 0 } })
    (fun _ => [])) ∧
  (∀ (c : Call), CallLaw (.resync c) c 0x30 2
    (fun s => c.arg 1 = 0 ∧ s.callerFault c.caller true (c.arg 0) 16384 = none ∧ s.callerBusy c.caller (c.arg 0) 16384 true = false)
    (fun s => s.callerWrite c.caller (c.arg 0) (s.summary c.dev (hostPort c)))
    (fun _ => []))

/-- Every call of Table 15.3 completes with RECOVERY in recovery (but for those answered there), else with BAD_PARAM where a
field that must be zero is set, else with NOT_HOLDER where the caller may not make it, else with NO_CONTEXT where it acts on
a context that the caller does not reach. (R424, R427, R434) -/
def Obligations.ServiceChecks : Prop :=
  (∀ c : Call, CallChecks (.ctxCreate c) c 0x01 5) ∧
  (∀ c : Call, CallChecks (.ctxDestroy c) c 0x02 0) ∧
  (∀ c : Call, CallChecks (.ctxQuery c) c 0x03 0) ∧
  (∀ c : Call, CallChecks (.partSet c) c 0x04 (2 + 4 / fndsPer (c.arg 0))) ∧
  (∀ c : Call, CallChecks (.partQuery c) c 0x05 0) ∧
  (∀ c : Call, CallChecks (.queueCreate c) c 0x06 5) ∧
  (∀ c : Call, CallChecks (.queueDestroy c) c 0x07 1) ∧
  (∀ c : Call, CallChecks (.queueBindPriority c) c 0x08 2) ∧
  (∀ c : Call, CallChecks (.launchGrid c) c 0x09 1) ∧
  (∀ c : Call, CallChecks (.launchCancel c) c 0x0A 2) ∧
  (∀ c : Call, CallChecks (.shareSet c) c 0x0B 2) ∧
  (∀ c : Call, CallChecks (.vaReserve c) c 0x0C 3) ∧
  (∀ c : Call, CallChecks (.vaRelease c) c 0x0D 2) ∧
  (∀ c : Call, CallChecks (.memAlloc c) c 0x0E 4) ∧
  (∀ c : Call, CallChecks (.memFree c) c 0x0F 2) ∧
  (∀ c : Call, CallChecks (.unmap c) c 0x11 2) ∧
  (∀ c : Call, CallChecks (.protect c) c 0x12 3) ∧
  (∀ c : Call, CallChecks (.aliasRegister c) c 0x13 5) ∧
  (∀ c : Call, CallChecks (.rangePurge c) c 0x14 3) ∧
  (∀ c : Call, CallChecks (.hostMap c) c 0x15 5) ∧
  (∀ c : Call, CallChecks (.peerMap c) c 0x16 6) ∧
  (∀ c : Call, CallChecks (.peerUnmap c) c 0x17 2) ∧
  (∀ c : Call, CallChecks (.faultFetch c) c 0x18 2) ∧
  (∀ c : Call, CallChecks (.faultResolve c) c 0x19 2) ∧
  (∀ c : Call, CallChecks (.faultAbort c) c 0x1A 1) ∧
  (∀ c : Call, CallChecks (.ctxSuspend c) c 0x1B 2) ∧
  (∀ c : Call, CallChecks (.ctxResume c) c 0x1C 0) ∧
  (∀ c : Call, CallChecks (.dbgAttach c) c 0x1D 0) ∧
  (∀ c : Call, CallChecks (.dbgHalt c) c 0x1E 5) ∧
  (∀ c : Call, CallChecks (.dbgStep c) c 0x1F 5) ∧
  (∀ c : Call, CallChecks (.dbgReadState c) c 0x20 5) ∧
  (∀ c : Call, CallChecks (.dbgWriteState c) c 0x21 5) ∧
  (∀ c : Call, CallChecks (.dbgDetach c) c 0x22 1) ∧
  (∀ c : Call, CallChecks (.capQuery c) c 0x23 1) ∧
  (∀ c : Call, CallChecks (.bankRetire c) c 0x24 3) ∧
  (∀ c : Call, CallChecks (.errLogRead c) c 0x25 3) ∧
  (∀ c : Call, CallChecks (.errClear c) c 0x26 1) ∧
  (∀ c : Call, CallChecks (.dieQuarantine c) c 0x27 1) ∧
  (∀ c : Call, CallChecks (.leaseRenew c) c 0x28 2) ∧
  (∀ c : Call, CallChecks (.leaseRelease c) c 0x29 0) ∧
  (∀ c : Call, CallChecks (.leaseTakeover c) c 0x2A 0) ∧
  (∀ c : Call, CallChecks (.attestQuote c) c 0x2B 2) ∧
  (∀ c : Call, CallChecks (.fwStage c) c 0x2C 2) ∧
  (∀ c : Call, CallChecks (.fwActivate c) c 0x2D 1) ∧
  (∀ c : Call, CallChecks (.telemetryRead c) c 0x2E 3) ∧
  (∀ c : Call, CallChecks (.powerCapSet c) c 0x2F 1) ∧
  (∀ c : Call, CallChecks (.resync c) c 0x30 2)

/-- CLAUSE_START on a free port of a core in service starts the clause of the candidate that the port chooses. CLAUSE_FETCH
gives a sub-wave of a resident team, or a span in its slot, that stands at a clause boundary the clause at its place once its
core has the lines; a sub-wave whose clause cannot start takes the trap of that start. CURSOR_TAKE admits the next team of a
cursor on the core that the placement chooses, or begins the affinity wait that it asks for; AFFINITY_TIMEOUT, when that wait
has ended, admits the team on the core that the placement then chooses. SJOIN_TIMEOUT, 256 ticks after a span parked, merges
the spans parked at that place and releases those whose time has passed. SPAN_SLOT_GRANT gives a ready span with a cached
record a free slot of the least loaded core, of those at its record where there are any; SPAN_RECORD_FETCH brings its record
to the die that caches the fewest, where room is or can be made. TEAM_ADMIT brings a swapped-out team back where the
placement puts it, or begins its affinity wait. GRID_COMPLETE completes a grid that is over when no line that it writes makes
it wait. FRAME_REFILL and UNIFORM_FRAME_REFILL bring a frame of a wave back into the pool, which then makes room.
YIELD_TIMEOUT ends a yield whose cycles have passed. (R26, R34, R42, R66, R78, R81, R350, R351, R353, R354, R364) -/
def Obligations.SchedulingEvents : Prop :=
  (∀ (core port : Nat) (c : Cand) (s : State), s.coreUp core = true ∧ s.portFree core port = true ∧ s.bestOn core port = some c →
    exec (.clauseStart core port) s = .next (s.startClause core port c.f)) ∧
  (∀ (t w k : Nat) (e : Ex) (g : Grid) (c : Clause) (u : State) (s : State), s.ex? t w k = some e ∧ s.grids.get? e.team.grid = some g ∧ e.team.state = .resident ∧ e.sub.clause = none ∧
    e.sub.park = none ∧ e.sub.hold = none ∧ s.clauseAt g e.sub.pc = .ok c ∧ s.obtainCode e.team.core (s.codeLines g.ctx c) = (u, true) →
    exec (.clauseFetch (.sub t w k)) s = .next (u.modSub e.t e.w e.k fun q => { q with clause := some c, started := false, slot := firstSlot c })) ∧
  (∀ (t w k pc : Nat) (e : Ex) (g : Grid) (r : Trap) (s : State), s.ex? t w k = some e ∧ s.grids.get? e.team.grid = some g ∧ e.team.state = .resident ∧ e.sub.clause = none ∧
    e.sub.park = none ∧ e.sub.hold = none ∧ s.clauseAt g e.sub.pc = .error (pc, r) →
    exec (.clauseFetch (.sub t w k)) s = .next (s.takeTraps e.t e.w e.k (allLanes e.sub.mask r) pc true)) ∧
  (∀ (n core k : Nat) (sp : Span) (g : Grid) (c : Clause) (u : State) (s : State), s.spans.get? n = some sp ∧ s.grids.get? sp.grid = some g ∧ sp.state = .running core k ∧ sp.clause = none ∧
    s.clauseAt g sp.pc = .ok c ∧ s.obtainCode core (s.codeLines g.ctx c) = (u, true) →
    exec (.clauseFetch (.span n)) s = .next (u.modSpan n fun q => { q with clause := some c, started := false, slot := firstSlot c })) ∧
  (∀ (cursor pos core base : Nat) (c : Cursor) (g : Grid) (keep : Bool) (s : State), ((s.cursors.get? cursor).bind fun c => (s.grids.get? c.span.grid).bind fun g => c.next.map fun p => (c, g, p)) = some (c, g, pos) ∧
    s.placing g.ctx = true ∧ g.stopped = false ∧ s.hopeless g = false ∧
    s.place (c.needs g pos) (g.linear (c.span.box.at_ pos).1 (c.span.box.at_ pos).2.1 (c.span.box.at_ pos).2.2)
      ((c.affUntil.map fun d => decide (s.devTime (s.ctxDev g.ctx) < d)).getD true) = .at_ core base keep →
    exec (.cursorTake cursor) s = .next (s.admitNew cursor c g pos core base keep)) ∧
  (∀ (cursor pos : Nat) (c : Cursor) (g : Grid) (s : State), ((s.cursors.get? cursor).bind fun c => (s.grids.get? c.span.grid).bind fun g => c.next.map fun p => (c, g, p)) = some (c, g, pos) ∧
    s.placing g.ctx = true ∧ g.stopped = false ∧ s.hopeless g = false ∧
    s.place (c.needs g pos) (g.linear (c.span.box.at_ pos).1 (c.span.box.at_ pos).2.1 (c.span.box.at_ pos).2.2)
      ((c.affUntil.map fun d => decide (s.devTime (s.ctxDev g.ctx) < d)).getD true) = .wait →
    exec (.cursorTake cursor) s = .next ({ s with cursors := s.cursors.set cursor { c with affUntil := some (c.affUntil.getD (s.devTime (s.ctxDev g.ctx) + 32)) } })) ∧
  (∀ (cursor pos core base d : Nat) (c : Cursor) (g : Grid) (keep : Bool) (s : State), s.cursors.get? cursor = some c ∧ c.affUntil = some d ∧ s.grids.get? c.span.grid = some g ∧
    d ≤ s.devTime (s.ctxDev g.ctx) ∧ c.next = some pos ∧ s.placing g.ctx = true ∧ g.stopped = false ∧ s.hopeless g = false ∧
    s.place (c.needs g pos) (g.linear (c.span.box.at_ pos).1 (c.span.box.at_ pos).2.1 (c.span.box.at_ pos).2.2) false = .at_ core base keep →
    exec (.affinityTimeout cursor) s = .next (s.admitNew cursor c g pos core base keep)) ∧
  (∀ (span pc since : Nat) (sp : Span) (s : State), s.spans.get? span = some sp ∧ sp.state = .parkedJoin pc since ∧ since + 256 ≤ s.devTime (s.ctxDev sp.ctx) →
    exec (.sjoinTimeout span) s = .next (
    let t := State.mergeAll (s.joined sp.grid pc).length sp.grid pc s
    { t with spans := t.spans.map fun p =>
        match p.2.state with
        | .parkedJoin q d =>
          (p.1, if p.2.grid == sp.grid && q == pc && decide (d + 256 ≤ s.devTime (s.ctxDev sp.ctx)) then { p.2.advance with state := .ready } else p.2)
        | _ => p })) ∧
  (∀ (span f c k : Nat) (sp : Span) (r : List Nat) (s : State), s.spans.get? span = some sp ∧ sp.state = .ready ∧ sp.cached = some f ∧ s.placing sp.ctx = true ∧
    (let able := (s.coresOf (s.ctxDev sp.ctx)).filter fun c => s.coreUp c && ((s.core c).freeSlot).isSome
     let near := able.filter fun c => fndOf c == f
     (if near.isEmpty then able else near) = c :: r) ∧
    (let load (c : Nat) : Nat := ((s.core c).slots.filter fun x => x.isSome).length
     (s.core (r.foldl (fun b c => if load c < load b then c else b) c)).freeSlot = some k) →
    exec (.spanSlotGrant span) s = .next (
    let load (c : Nat) : Nat := ((s.core c).slots.filter fun x => x.isSome).length
    let least := r.foldl (fun b c => if load c < load b then c else b) c
    (s.modCore least fun q => { q with slots := listSet q.slots k (some span) }).modSpan span fun q =>
      { q with state := .running least k, started := false })) ∧
  (∀ (span d : Nat) (sp : Span) (r : List Nat) (t : State) (s : State), s.spans.get? span = some sp ∧ sp.cached = none ∧
    (((List.range (fndsPer s.pkg.mode)).map fun i => fndsPer s.pkg.mode * s.ctxDev sp.ctx + i).filter fun f => (s.fdie f).inService) = d :: r ∧
    State.recordRoomFor (r.foldl (fun b f => if s.recordsAt f < s.recordsAt b then f else b) d) sp.records 1024 s = some t →
    exec (.spanRecordFetch span) s = .next (
    t.modSpan span fun q => { q with cached := some (r.foldl (fun b f => if s.recordsAt f < s.recordsAt b then f else b) d) })) ∧
  (∀ (team since core base : Nat) (tm : Team) (g : Grid) (keep : Bool) (s : State), s.teams.get? team = some tm ∧ s.grids.get? tm.grid = some g ∧ tm.state = .swapped since ∧ s.placing tm.ctx = true ∧ g.stopped = false ∧
    s.hopeless g = false ∧ s.place (tm.needs g) tm.index (tm.patient (s.devTime (s.ctxDev tm.ctx))) = .at_ core base keep →
    exec (.teamAdmit team) s = .next (s.readmit team tm g core base keep)) ∧
  (∀ (team since : Nat) (tm : Team) (g : Grid) (s : State), s.teams.get? team = some tm ∧ s.grids.get? tm.grid = some g ∧ tm.state = .swapped since ∧ s.placing tm.ctx = true ∧ g.stopped = false ∧
    s.hopeless g = false ∧ s.place (tm.needs g) tm.index (tm.patient (s.devTime (s.ctxDev tm.ctx))) = .wait →
    exec (.teamAdmit team) s = .next (s.modTeam team fun tm =>
    { tm with affUntil := some (tm.affUntil.getD (s.devTime (s.ctxDev tm.ctx) + 32)) })) ∧
  (∀ (grid : Nat) (g : Grid) (s : State), s.grids.get? grid = some g ∧ s.gridOver grid g = true ∧ s.unitBusy g.ctx (g.record + 0x28) true = false ∧
    (g.signal = 0 ∨ s.unitBusy g.ctx g.signal true = false) →
    exec (.gridComplete grid) s = .next (s.finishGrid grid g)) ∧
  (∀ (team wave depth : Nat) (tm : Team) (w : Wave) (s : State), s.teams.get? team = some tm ∧ tm.waves.get? wave = some w ∧ tm.state = .resident →
    exec (.frameRefill team wave depth) s = .next ((s.modWave team wave fun w => { w with spilled := eraseNat w.spilled depth }).fit tm.core (some (team, wave)))) ∧
  (∀ (team wave : Nat) (tm : Team) (s : State), s.teams.get? team = some tm ∧ tm.state = .resident →
    exec (.uniformFrameRefill team wave) s = .next ((s.modWave team wave fun w => { w with uspilled := false }).fit tm.core (some (team, wave)))) ∧
  (∀ (team wave sub c p : Nat) (e : Ex) (s : State), s.ex? team wave sub = some e ∧ e.sub.yieldTo = some (c, p) ∧ c ≤ s.cycle →
    exec (.yieldTimeout team wave sub) s = .next (s.modSub team wave sub fun k => { k with yieldTo := none }))

/-- ACCOUNTING_ROUND credits each runnable context its share by weight and charges it; RELAY_ROTATION stops one team on each
core; TEAM_SWAP_OUT saves a team that has stopped; the end of a drain, its deadline and the deadline of the swap go on to the
next phase of a preemption. HANDLER_ENTRY delivers the trap of a sub-wave that has a handler and whose turn has come,
FAULT_RECORD that of one without; DEBUG_HALT_STOP halts a wave that was asked to halt and has stopped; STEP parks a sub-wave
that has passed its instruction with cause STEP, and makes each of the lanes that DBG_STEP named and that have passed theirs
stand alone before that. (R359, R361, R362, R364, R386, R388, R401, R402) -/
def Obligations.PreemptionAndTrapEvents : Prop :=
  (∀ (dev : Nat) (s : State), dev < s.devCount ∧ (s.dev dev).roundStart + 1024 ≤ s.devTime dev →
    exec (.accountingRound dev) s = .next (
    let mine := s.ctxs.filter fun c => c.2.dev == dev
    let run := mine.filter fun c => s.runnable c.1
    let total := mine.foldl (fun n c => n + c.2.charged) 0
    let weights := run.foldl (fun n c => n + c.2.weight) 0
    let t := mine.foldl (fun (s : State) c => s.modCtx c.1 fun k =>
      let credit := if weights = 0 then 0 else total * k.weight / weights
      { k with
        charged := 0
        deficit := if run.any fun r => r.1 == c.1 then limit48 (k.deficit + (credit : Int) - (k.charged : Int)) else 0 }) s
    (t.modDev dev fun v => { v with roundStart := v.roundStart + 1024 }).sliceExpiry dev)) ∧
  (∀ (grid : Nat) (g : Grid) (s : State), s.grids.get? grid = some g ∧ s.rotates grid g = true ∧ s.placing g.ctx = true →
    exec (.relayRotation grid) s = .next (
    let quantum := ((s.ctxs.get? g.ctx).map fun c => c.quantum).getD 100000
    let cores := ((s.teams.filter fun p => p.2.grid == grid && p.2.state == .resident).map fun p => p.2.core).eraseDups
    let t := cores.foldl (fun (s : State) c => match s.rotated grid c quantum with
      | some t => s.stopTeam t
      | none => s) s
    t.modGrid grid fun g => { g with rotateTick := t.devTime (t.ctxDev g.ctx) })) ∧
  (∀ (team : Nat) (tm : Team) (s : State), s.teams.get? team = some tm ∧ tm.stopping = true →
    exec (.teamSwapOut team) s = .next (s.swapOut team)) ∧
  (∀ (ctx : Nat) (c : Ctx) (p : Preempt) (s : State), s.ctxs.get? ctx = some c ∧ c.preempt = some p ∧ s.residentOf ctx = [] →
    exec (.preemptDrainEnd ctx) s = .next (s.preemptDone ctx)) ∧
  (∀ (ctx swap : Nat) (c : Ctx) (ends : List Nat) (s : State), s.ctxs.get? ctx = some c ∧ c.preempt = some (.drain ends swap) ∧
    ((s.residentOf ctx).any fun p => s.passed ends p.2.core) = true →
    exec (.preemptDrainDeadline ctx) s = .next (
    let t := (s.residentOf ctx).foldl (fun (s : State) p => s.stopTeam p.1) s
    t.modCtx ctx fun c => { c with preempt := some (.swap (t.endsIn swap)) })) ∧
  (∀ (ctx : Nat) (c : Ctx) (ends : List Nat) (s : State), s.ctxs.get? ctx = some c ∧ c.preempt = some (.swap ends) ∧
    ((s.residentOf ctx).any fun p => s.passed ends p.2.core) = true →
    exec (.preemptSwapDeadline ctx) s = .next ((s.resetCtx ctx 4).preemptRecord ctx)) ∧
  (∀ (t w k : Nat) (e : Ex) (s : State), s.ex? t w k = some e ∧ s.forHandler e = true ∧ s.handlerTurn e = true →
    exec (.handlerEntry t w k) s = .next (s.deliverTrap t w k)) ∧
  (∀ (t w k : Nat) (e : Ex) (s : State), s.ex? t w k = some e ∧ s.forHandler e = false →
    exec (.faultRecord t w k) s = .next (s.deliverTrap t w k)) ∧
  (∀ (t w : Nat) (wv : Wave) (s : State), s.wave? t w = some wv ∧ wv.haltAsked = true ∧ wv.stopped = true ∧ wv.pendingResults = [] →
    exec (.debugHaltStop t w) s = .next (s.modWave t w fun w => { w with halted := true, haltAsked := false })) ∧
  (∀ (t w k : Nat) (e : Ex) (s : State), s.ex? t w k = some e ∧ e.sub.stepLanes = 0 ∧ e.sub.stepping = 2 ∧ e.sub.park = none →
    exec (.step t w k) s = .next (
    (s.takeTraps t w k (allLanes e.sub.mask { cause := cStep }) e.sub.steppedPc false).releasePort e.team.core (.sub t w k))) ∧
  (∀ (t w k : Nat) (e : Ex) (s : State), s.ex? t w k = some e ∧ e.sub.stepLanes ≠ 0 ∧ e.sub.hold = none ∧ e.sub.park = none →
    exec (.step t w k) s = .next (s.modWave t w fun w => w.stepApart k e.sub))

/-- RESULT_WRITE lowers the flag of a result that is due, TRACKED_COMPLETE and ACCESS_PERFORMED that of a tracked instruction
or access. MMA_KSTEP_COMMIT makes the k-step that the MMA is at; MMA_COMPLETE, when its chains are done and no earlier access
of its items is owed, adds the hidden tile of a split MMA, makes its tag DONE and lowers its flag; MMA_FAULT stops an MMA
whose k-step traps. ACC_MOVE_DONE makes the moves of an accumulator move that waits for nothing, ACC_MOV_FAULT stops one that
traps, with a record. COPY_START starts a copy that may start, COPY_UNIT_MOVE moves its next units, COPY_COMPLETE ends it
when all are moved, and COPY_FAULT suspends a copy whose next unit traps. (R138, R249, R248, R265, R267, R271, R287, R373) -/
def Obligations.CompletionEvents : Prop :=
  (∀ (who : Owner) (seq : Nat) (f : Flight) (s : State), s.flight? who seq = some f ∧ f.kind = .result ∧ f.done = false ∧ f.cycle + latCycles f.lat ≤ s.cycle →
    exec (.resultWrite who seq) s = .next ((s.finishOwner who seq).sweep.fitOwner who)) ∧
  (∀ (n seq : Nat) (f : Flight) (s : State), s.flight? (.span n) seq = some f ∧ f.kind = .tracked ∧ f.done = false →
    exec (.trackedComplete (.span n) seq) s = .next ((s.finishOwner (.span n) seq).sweep.fitOwner (.span n))) ∧
  (∀ (t w seq : Nat) (f : Flight) (tm : Team) (s : State), s.flight? (.wave t w) seq = some f ∧ f.kind = .tracked ∧ f.done = false ∧
    s.teams.get? t = some tm ∧ tm.loadMove w seq = none →
    exec (.trackedComplete (.wave t w) seq) s = .next ((s.finishOwner (.wave t w) seq).sweep.fitOwner (.wave t w))) ∧
  (∀ (who : Owner) (seq : Nat) (f : Flight) (s : State), s.flight? who seq = some f ∧ f.kind = .access ∧ f.done = false →
    exec (.accessPerformed who seq) s = .next ((s.finishOwner who seq).sweep)) ∧
  (∀ (team seq : Nat) (chain : Fin 2) (v : Unit) (t : State) (s : State), s.kstep team seq chain.val = .ok t v →
    exec (.mmaKstepCommit team seq chain) s = .next (t)) ∧
  (∀ (team seq : Nat) (tm : Team) (m : Machine.Mma) (s : State), s.teams.get? team = some tm ∧ tm.mmas.get? seq = some m ∧ tm.state = .resident ∧ m.chainsDone = true ∧ m.stopped = none ∧
    s.owes team m.items seq = false →
    exec (.mmaComplete team seq) s = .next (
    let add (k c0 : Nat) : Nat := (fAdd ⟨.f32, .rne, false, .none⟩ c0 (m.hiddenData.getN (4 * k) 4)).bits
    ((s.modTeam team fun tm =>
      let tm := if m.prog.split then { tm with acc := tm.acc.tile (m.tile * tileBytes) false add } else tm
      let tm := match m.tag with
        | none => tm
        | some t => tm.setTag t .done
      { tm with mmas := tm.mmas.del seq }).finishWave team m.flight.1 m.flight.2).sweep)) ∧
  (∀ (team seq : Nat) (chain : Fin 2) (t : State) (x : Trap) (s : State), s.kstep team seq chain.val = .trap t x →
    exec (.mmaFault team seq chain) s = .next (t.stopMma team seq x)) ∧
  (∀ (team seq : Nat) (v : Unit) (t : State) (s : State), s.runMove team seq = .ok t v →
    exec (.accMoveDone team seq) s = .next (t.sweep)) ∧
  (∀ (team seq : Nat) (t : State) (x : Trap) (tm : Team) (m : AccMove) (s : State), s.runMove team seq = .trap t x ∧ t.teams.get? team = some tm ∧ tm.moves.get? seq = some m ∧ t.recRoom (t.ctxDev tm.ctx) = true →
    exec (.accMovFault team seq) s = .next (
    let r := t.addRecord (t.engineRecord 4 tm m.pc 0 x (.accMove team seq))
    r.1.modTeam team fun tm => { tm with moves := tm.moves.modify seq fun m => { m with stopped := some r.2 } })) ∧
  (∀ (team tag : Nat) (s : State),
    exec (.copyStart team tag) s = .next (s.startCopy team tag)) ∧
  (∀ (team tag : Nat) (t : State) (s : State), s.served team tag = true ∧ s.copyNext team tag = .ok t false →
    exec (.copyUnitMove team tag) s = .next (t)) ∧
  (∀ (team tag : Nat) (t : State) (s : State), s.copyNext team tag = .ok t true →
    exec (.copyComplete team tag) s = .next (t.sweep)) ∧
  (∀ (team tag : Nat) (t : State) (x : Trap) (s : State), s.served team tag = true ∧ s.copyNext team tag = .trap t x →
    exec (.copyFault team tag) s = .next (t.suspendCopy team tag x))

/-- WAITV_RELEASE ends a held WAITV when every lane that it still holds reads another value, CNTWAIT_RELEASE a held CNTWAIT
when its counter has reached the value, and WAITV_TIMEOUT and CNTWAIT_TIMEOUT end them when the budget has passed; CNTWAIT
gives the value read last. Each of these, and COPY_VALIDATED for a held arrival of a copy, lets the held instruction go on as
the instruction itself does with its sub-wave as the one that issues, and leaves the one that issues as it was.
PHDONE_ADVANCE raises PHDONE when no write tagged with the phase remains, and PHDONE_MIRROR_UPDATE sets a mirror and releases
the lanes that wait for it. (R223, R246, R258, R414, R415) -/
def Obligations.HeldEvents : Prop :=
  (∀ (x : Waitv) (t w k : Nat) (e : Ex) (h : Hold) (s : State), s.ex? t w k = some e → e.sub.hold = some h → h.kind = .waitv →
    e.sub.instr = some (.waitv x) →
    ∃ r, exec (.waitv x) { s with cur := some (.sub t w k) } = .next r ∧ exec (.waitvRelease t w k) s = .next { r with cur := match s.cur with
        | some (.sub t' w' k') => if (r.ex? t' w' k').isSome then s.cur else none
        | some (.span i) => if (r.spans.get? i).isSome then s.cur else none
        | none => none }) ∧
  (∀ (x : Waitv) (t w k : Nat) (e : Ex) (h : Hold) (s : State), s.ex? t w k = some e → e.sub.hold = some h → h.kind = .waitv →
    e.sub.instr = some (.waitv x) → s.expired t w k = true →
    ∃ r, exec (.waitv x) { s with cur := some (.sub t w k) } = .next r ∧ exec (.waitvTimeout t w k) s = .next { r with cur := match s.cur with
        | some (.sub t' w' k') => if (r.ex? t' w' k').isSome then s.cur else none
        | some (.span i) => if (r.spans.get? i).isSome then s.cur else none
        | none => none }) ∧
  (∀ (x : Cntwait) (t w k : Nat) (e : Ex) (h : Hold) (s : State), s.ex? t w k = some e → e.sub.hold = some h → h.kind = .cntwait →
    e.sub.instr = some (.cntwait x) →
    ∃ r, exec (.cntwait x) { s with cur := some (.sub t w k) } = .next r ∧ exec (.cntwaitRelease t w k) s = .next { r with cur := match s.cur with
        | some (.sub t' w' k') => if (r.ex? t' w' k').isSome then s.cur else none
        | some (.span i) => if (r.spans.get? i).isSome then s.cur else none
        | none => none }) ∧
  (∀ (x : Cntwait) (t w k : Nat) (e : Ex) (h : Hold) (s : State), s.ex? t w k = some e → e.sub.hold = some h → h.kind = .cntwait →
    e.sub.instr = some (.cntwait x) → s.expired t w k = true →
    ∃ r, exec (.cntwait x) { s with cur := some (.sub t w k) } = .next r ∧ exec (.cntwaitTimeout t w k) s = .next { r with cur := match s.cur with
        | some (.sub t' w' k') => if (r.ex? t' w' k').isSome then s.cur else none
        | some (.span i) => if (r.spans.get? i).isSome then s.cur else none
        | none => none }) ∧
  (∀ (x : Waitv) (v : Use) (t w k : Nat) (e : Ex) (h : Hold) (d : Nat → Dest) (s : State), (Instr.waitv x).use = some v → s.ex? t w k = some e → e.mayIssue = true →
    e.sub.hold = some h → h.kind = .waitv → e.sub.instr = some (.waitv x) → h.lanes ≠ 0 →
    let c : State := { s with cur := some (.sub t w k) }
    let todo := (lanesIn h.lanes).filter fun i => !(BitVec.ofNat 16 h.aux : Lanes).getLsbD i
    (∀ i ∈ lanesIn h.lanes, e.stale v i = false) →
    (∀ i ∈ todo, c.ready { c.accessor e i with again := true } { n := x.t.width / 8, rd := true, wr := false } (e.ea v 0 none 0 i) = .ok c (d i)) →
    (∀ i ∈ todo, c.peek (c.accessor e i) (d i) (x.t.width / 8) ≠ e.src v i 1 % 2 ^ x.t.width) →
    let r := (c.countConflict e.t (stashOffsets (todo.map fun i => (i, d i)))).settle e v (Instr.waitv x).opcode {} .result none h.lanes
    exec (.waitvRelease t w k) s = .next { r with cur := match s.cur with
        | some (.sub t' w' k') => if (r.ex? t' w' k').isSome then s.cur else none
        | some (.span i) => if (r.spans.get? i).isSome then s.cur else none
        | none => none }) ∧
  (∀ (x : Waitv) (v : Use) (t w k : Nat) (e : Ex) (h : Hold) (d : Nat → Dest) (s : State), (Instr.waitv x).use = some v → s.ex? t w k = some e → e.mayIssue = true →
    e.sub.hold = some h → h.kind = .waitv → e.sub.instr = some (.waitv x) → h.lanes ≠ 0 →
    let c : State := { s with cur := some (.sub t w k) }
    let todo := (lanesIn h.lanes).filter fun i => !(BitVec.ofNat 16 h.aux : Lanes).getLsbD i
    (∀ i ∈ lanesIn h.lanes, e.stale v i = false) →
    (∀ i ∈ todo, c.ready { c.accessor e i with again := true } { n := x.t.width / 8, rd := true, wr := false } (e.ea v 0 none 0 i) = .ok c (d i)) →
    s.expired t w k = true →
    let r := (c.countConflict e.t (stashOffsets (todo.map fun i => (i, d i)))).settle e v (Instr.waitv x).opcode {} .result none h.lanes
    exec (.waitvTimeout t w k) s = .next { r with cur := match s.cur with
        | some (.sub t' w' k') => if (r.ex? t' w' k').isSome then s.cur else none
        | some (.span i) => if (r.spans.get? i).isSome then s.cur else none
        | none => none }) ∧
  (∀ (x : Cntwait) (v : Use) (t w k : Nat) (e : Ex) (h : Hold) (u : State) (n : Nat) (s : State), (Instr.cntwait x).use = some v → s.ex? t w k = some e → e.mayIssue = true →
    e.sub.hold = some h → h.kind = .cntwait → e.sub.instr = some (.cntwait x) → h.lanes ≠ 0 →
    let c : State := { s with cur := some (.sub t w k) }
    e.stale v (lowLane h.lanes) = false → counterRead (e.src v (lowLane h.lanes) 0) = none →
    (c.escapeTeam e.t).load { c.accessor e (lowLane h.lanes) with again := true } 8 (e.src v (lowLane h.lanes) 0) = .ok u n → e.src v (lowLane h.lanes) 1 ≤ n →
    let r := u.settle e v (Instr.cntwait x).opcode { regs := [(x.d.ref 2, h.lanes, fun _ => n)] } .result none h.lanes
    exec (.cntwaitRelease t w k) s = .next { r with cur := match s.cur with
        | some (.sub t' w' k') => if (r.ex? t' w' k').isSome then s.cur else none
        | some (.span i) => if (r.spans.get? i).isSome then s.cur else none
        | none => none }) ∧
  (∀ (x : Cntwait) (v : Use) (t w k : Nat) (e : Ex) (h : Hold) (u : State) (n : Nat) (s : State), (Instr.cntwait x).use = some v → s.ex? t w k = some e → e.mayIssue = true →
    e.sub.hold = some h → h.kind = .cntwait → e.sub.instr = some (.cntwait x) → h.lanes ≠ 0 →
    let c : State := { s with cur := some (.sub t w k) }
    e.stale v (lowLane h.lanes) = false → counterRead (e.src v (lowLane h.lanes) 0) = none →
    (c.escapeTeam e.t).load { c.accessor e (lowLane h.lanes) with again := true } 8 (e.src v (lowLane h.lanes) 0) = .ok u n → s.expired t w k = true → s.coreTime e.team.core ≤ u.coreTime e.team.core →
    let r := u.settle e v (Instr.cntwait x).opcode { regs := [(x.d.ref 2, h.lanes, fun _ => n)] } .result none h.lanes
    exec (.cntwaitTimeout t w k) s = .next { r with cur := match s.cur with
        | some (.sub t' w' k') => if (r.ex? t' w' k').isSome then s.cur else none
        | some (.span i) => if (r.spans.get? i).isSome then s.cur else none
        | none => none }) ∧
  (∀ (x : Cpy) (t w k : Nat) (e : Ex) (h : Hold) (s : State), s.ex? t w k = some e → e.sub.hold = some h → h.kind = .copyTag →
    e.sub.instr = some (.cpy x) →
    ∃ r, exec (.cpy x) { s with cur := some (.sub t w k) } = .next r ∧ exec (.copyValidated t w k) s = .next { r with cur := match s.cur with
        | some (.sub t' w' k') => if (r.ex? t' w' k').isSome then s.cur else none
        | some (.span i) => if (r.spans.get? i).isSome then s.cur else none
        | none => none }) ∧
  (∀ (x : Cpyt) (t w k : Nat) (e : Ex) (h : Hold) (s : State), s.ex? t w k = some e → e.sub.hold = some h → h.kind = .copyTag →
    e.sub.instr = some (.cpyt x) →
    ∃ r, exec (.cpyt x) { s with cur := some (.sub t w k) } = .next r ∧ exec (.copyValidated t w k) s = .next { r with cur := match s.cur with
        | some (.sub t' w' k') => if (r.ex? t' w' k').isSome then s.cur else none
        | some (.span i) => if (r.spans.get? i).isSome then s.cur else none
        | none => none }) ∧
  (∀ (x : CpyGS) (t w k : Nat) (e : Ex) (h : Hold) (s : State), s.ex? t w k = some e → e.sub.hold = some h → h.kind = .copyTag →
    e.sub.instr = some (.cpyg x) →
    ∃ r, exec (.cpyg x) { s with cur := some (.sub t w k) } = .next r ∧ exec (.copyValidated t w k) s = .next { r with cur := match s.cur with
        | some (.sub t' w' k') => if (r.ex? t' w' k').isSome then s.cur else none
        | some (.span i) => if (r.spans.get? i).isSome then s.cur else none
        | none => none }) ∧
  (∀ (x : CpyGS) (t w k : Nat) (e : Ex) (h : Hold) (s : State), s.ex? t w k = some e → e.sub.hold = some h → h.kind = .copyTag →
    e.sub.instr = some (.cpys x) →
    ∃ r, exec (.cpys x) { s with cur := some (.sub t w k) } = .next r ∧ exec (.copyValidated t w k) s = .next { r with cur := match s.cur with
        | some (.sub t' w' k') => if (r.ex? t' w' k').isSome then s.cur else none
        | some (.span i) => if (r.spans.get? i).isSome then s.cur else none
        | none => none }) ∧
  (∀ (t w k : Nat) (e : Ex) (h : Hold) (s : State) (i : Instr), s.ex? t w k = some e → e.sub.hold = some h → h.kind = .copyCheck →
    e.sub.instr = some i → (∃ x, i = .cpy x) ∨ (∃ x, i = .cpyt x) ∨ (∃ x, i = .cpyg x) ∨ (∃ x, i = .cpys x) →
    ∃ r q, exec i { s with cur := some (.sub t w k) } = .next r ∧ exec (.copyValidated t w k) s = .next q) ∧
  (∀ (die : Nat) (s : State), (s.cdie die).inService = true ∧ (s.cdie die).phdone + 1 < (s.cdie die).phase ∧
    ((s.cdie die).tagged.any fun p => decide (p.1 ≤ (s.cdie die).phdone + 1) && p.2 != 0) = false →
    exec (.phdoneAdvance die) s = .next (s.modCdie die fun c => { c with phdone := c.phdone + 1 })) ∧
  (∀ (viewer die : Nat) (s : State), s.dieIn (s.devOfFnd (viewer / 4)) die = true ∧ (s.cdie viewer).inService = true ∧ viewer < 16 ∧ die < 16 →
    exec (.phdoneMirrorUpdate viewer die) s = .next (({ s with mirrors := s.mirrors.set (16 * viewer + die) (s.cdie die).phdone } : State).phRelease viewer))

/-- SCOREBOARD_MISMATCH counts and keeps the place of the mismatch; one on the reissue at that place raises PIPE_ERROR.
PIPE_ERROR makes the response of the team (lap rollback or its end), CORRECTED_ERROR counts, logs and may vent the bank;
UNCORRECTED_ERROR destroys what its site names, logs and asks for the vent of the bank, a uniform register without a vent;
PATROL_SCRUB does what it finds. VENT_START starts the oldest waiting vent of a bank of a core, of an L2 slice whose die
keeps another, or of a channel; VENT_MOVE moves one unit, L2_SLICE_HANDOVER one entry of HOMETAB whose lines do not wait, or
ends the vent; HBM_PAGE_MOVE moves a page, or a frame of a backing store, to free frames. ERR_LOG_WINDOW_CLOSE writes the
entry of a window that has passed, and UNDO_WRITE_COMPLETE takes its sector off the pending ones. (R97, R391, R393, R395,
R397, R398, R407, R438) -/
def Obligations.ReliabilityEvents : Prop :=
  (∀ (team wave : Nat) (again : Bool) (tm : Team) (w : Wave) (s : State), s.teams.get? team = some tm ∧ tm.waves.get? wave = some w ∧ tm.state = .resident ∧
    (again && (s.core tm.core).mismatchAt.contains (team, wave, w.clock)) = false →
    exec (.scoreboardMismatch team wave again) s = .next (
    s.modCore tm.core fun c => { c with
      mismatches := c.mismatches + 1
      mismatchAt := (c.mismatchAt.filter fun m => (m.1, m.2.1) != (team, wave)) ++ [(team, wave, w.clock)] })) ∧
  (∀ (team wave : Nat) (tm : Team) (w : Wave) (s : State), s.teams.get? team = some tm ∧ tm.waves.get? wave = some w ∧ tm.state = .resident ∧
    (s.core tm.core).mismatchAt.contains (team, wave, w.clock) = true →
    exec (.scoreboardMismatch team wave true) s = .next (
    (s.modCore tm.core fun c => { c with
      mismatches := c.mismatches + 1
      mismatchAt := (c.mismatchAt.filter fun m => (m.1, m.2.1) != (team, wave)) ++ [] }).pipeError team 1 none)) ∧
  (∀ (team sub : Nat) (site : Option BankRef) (s : State),
    exec (.pipeError team sub site) s = .next (s.pipeError team sub site)) ∧
  (∀ (b : BankRef) (addr : Nat) (s : State),
    exec (.correctedError b addr) s = .next (s.corrected b addr)) ∧
  (∀ (b : BankRef) (site : ErrSite) (s : State), (∀ t, site ≠ .uniform t) →
    exec (.uncorrectedError b site) s = .next (
    let r := s.destroy b site
    (((r.1.putBank { r.1.bankErr b with uncorrected := (r.1.bankErr b).uncorrected + 1 }).logEvent (bankFnd b)
      { bankLog 2 b with detail := r.2 }).requestVent b))) ∧
  (∀ (b : BankRef) (t : Nat) (s : State),
    exec (.uncorrectedError b (.uniform t)) s = .next (
    (s.destroy b (.uniform t)).1.logEvent (bankFnd b) { logOf 2 with detail := (s.destroy b (.uniform t)).2 })) ∧
  (∀ (b : BankRef) (place : Nat) (s : State),
    exec (.patrolScrub b place 0) s = .next (s)) ∧
  (∀ (b : BankRef) (place : Nat) (s : State),
    exec (.patrolScrub b place 1) s = .next (s.corrected b 0)) ∧
  (∀ (b : BankRef) (place : Nat) (s : State),
    ∃ t, exec (.uncorrectedError b (.unit16 place)) s = .next t ∧ exec (.patrolScrub b place 2) s = .next t) ∧
  (∀ (b : BankRef) (v : Vent) (s : State), (b.st ≠ .l2 ∧ b.st ≠ .hbm) ∧ ((s.ventsOf b).any fun v => v.started && v.b.st == b.st) = false ∧
    ((s.ventsOf b).find? fun v => !v.started && (v.b.st == b.st || v.b == b)) = some v →
    exec (.ventStart b) s = .next (s.startCoreVent v.b)) ∧
  (∀ (b : BankRef) (v : Vent) (s : State), b.st = .hbm ∧ ((s.ventsOf b).find? fun v => !v.started && (v.b.st == b.st || v.b == b)) = some v →
    exec (.ventStart b) s = .next (
    let t : State := { s with pkg := { s.pkg with deadChannels := s.pkg.deadChannels ++ [(v.b.unit, v.b.bank)] } }
    ((t.logEvent (bankFnd v.b) (bankLog 3 v.b)).markStarted v.b 1 { amount := 0 }).hbmCheck)) ∧
  (∀ (b : BankRef) (s : State), b.st ≠ .l2 ∧ b.st ≠ .hbm →
    exec (.ventMove b) s = .next (
    (s.modVents b fun l => l.map fun v =>
      if v.b = b && v.started && v.cursor < v.total then { v with cursor := v.cursor + 1 } else v).ventCheck b)) ∧
  (∀ (slice : Nat) (s : State), ((s.ventsOf ⟨.l2, slice, 0⟩).any fun v => v.b == ⟨.l2, slice, 0⟩ && v.started) = true ∧ s.entriesOf slice = [] →
    exec (.l2SliceHandover slice) s = .next (s.ventDone ⟨.l2, slice, 0⟩)) ∧
  (∀ (b : BankRef) (v : Vent) (s : State), b.st = .l2 ∧ ((s.ventsOf b).find? fun v => !v.started && (v.b.st == b.st || v.b == b)) = some v ∧
    (({ s with pkg := { s.pkg with deadSlices := s.pkg.deadSlices ++ [v.b.unit] } } : State).slicesLeft (v.b.unit / 64)).isEmpty = false →
    exec (.ventStart b) s = .next (
    let t : State := { s with pkg := { s.pkg with deadSlices := s.pkg.deadSlices ++ [v.b.unit] } }
    let r := t.modCdie (v.b.unit / 64) fun d => { d with capL2 := d.capL2.fall (bankLoss .l2) false }
    (((r.logEvent (bankFnd v.b) { bankLog 3 v.b with detail := (r.cdie (v.b.unit / 64)).capL2.amount }).markStarted v.b
      (r.entriesOf v.b.unit).length (t.cdie (v.b.unit / 64)).capL2).failHopeless).ventCheck v.b)) ∧
  (∀ (slice d i : Nat) (r : List (Nat × Nat)) (s : State), ((s.ventsOf ⟨.l2, slice, 0⟩).any fun v => v.b == ⟨.l2, slice, 0⟩ && v.started) = true ∧ s.entriesOf slice = (d, i) :: r ∧
    (((s.dir.map fun e => e.line).filter fun l => l.dev == d && homeIndex l == i).any fun l => s.lineBusy l true) = false →
    exec (.l2SliceHandover slice) s = .next (
    let lines := (s.dir.map fun e => e.line).filter fun l => l.dev == d && homeIndex l == i
    let t := lines.foldl (fun (s : State) l => ((s.force l true).evictHost l).dropLine l) s
    let left := t.slicesLeft (slice / 64)
    let heir := match left.find? fun x => decide (slice < x) with
      | some x => x
      | none => left.headD slice
    ((t.modDev d fun v => { v with hometab := v.hometab.set i heir }).modVents ⟨.l2, slice, 0⟩ fun l => l.map fun v =>
      if v.b = ⟨.l2, slice, 0⟩ then { v with cursor := v.cursor + 1 } else v).ventCheck ⟨.l2, slice, 0⟩)) ∧
  (∀ (dev frame target : Nat) (s : State), ((((s.ctxs.flatMap fun c => if c.2.dev = dev then c.2.pages else []).filterMap Page.frames).find? fun f => f.1 == frame)) = none ∧
    (s.ctxs.any fun c => c.2.dev == dev && c.2.frames.contains frame) = true ∧ s.frameUsed dev target = false ∧ s.frameDead dev target = false →
    exec (.hbmPageMove dev frame target) s = .next (
    let t := s.moveGranules dev (frame * 65536) (target * 65536) 16
    ({ t with ctxs := t.ctxs.map fun c =>
        (c.1, if c.2.dev = dev then { c.2 with frames := c.2.frames.map fun f => if f = frame then target else f } else c.2) } : State).hbmCheck)) ∧
  (∀ (dev frame target n : Nat) (s : State), (let fs := ((s.ctxs.flatMap fun c => if c.2.dev = dev then c.2.pages else []).filterMap Page.frames)
     (fs.find? fun f => f.1 == frame) = some (frame, n) ∧
     ((List.range n).all fun i => !s.frameUsed dev (target + i) && !s.frameDead dev (target + i)) = true ∧
     (fs.all fun f => !(decide (f.1 < frame + n ∧ frame < f.1 + f.2)) || decide (frame ≤ f.1 ∧ f.1 + f.2 ≤ frame + n)) = true) →
    exec (.hbmPageMove dev frame target) s = .next (
    let moved (dpa : Nat) : Nat :=
      if frame * 65536 ≤ dpa ∧ dpa < (frame + n) * 65536 then dpa - frame * 65536 + target * 65536 else dpa
    let page (p : Page) : Page := match p.target with
      | .hbm dpa => if frame * 65536 ≤ dpa ∧ dpa < (frame + n) * 65536 then { p with target := .hbm (dpa - frame * 65536 + target * 65536) } else p
      | _ => p
    let t := s.moveGranules dev (frame * 65536) (target * 65536) (16 * n)
    ({ t with ctxs := t.ctxs.map fun c => (c.1, if c.2.dev = dev then
        { c.2 with pages := c.2.pages.map page, allocs := c.2.allocs.map fun a => (a.1, moved a.2) } else c.2) } : State).hbmCheck)) ∧
  (∀ (b : BankRef) (t n : Nat) (s : State), (s.bankErr b).window = some (t, n) ∧ t + 100000000 ≤ (s.fdie (bankFnd b)).ltime.toNat →
    exec (.errLogWindowClose b) s = .next (
    (s.putBank { s.bankErr b with window := none }).logEvent (bankFnd b)
      { bankLog 1 b with count := n, detail := (s.bankErr b).corrected % 2 ^ 32 })) ∧
  (∀ (team sector : Nat) (s : State),
    exec (.undoWriteComplete team sector) s = .next (s.modTeam team fun tm =>
    { tm with lap := tm.lap.map fun l => { l with pending := eraseNat l.pending sector } }))

/-- Where the line is not being purged, GETS, GETM, UPGRADE, GETP and UNCACHED_ACCESS open a transaction, which closes when
it awaits nothing, or join the queue of the one that is open; WRITE_BACK and CLEAN_NOTICE remove a holder that gives the line
up at once. RECALL_FOR_READ, RECALL_FOR_WRITE and STASH_RECALL make a holder that is awaited answer, RECALL_ACK counts an
acknowledgement; HOME_FILL_COMPLETE, SECTOR_FILL_COMPLETE and SECTOR_WRITEBACK_COMPLETE end a fill or a write-back,
SECTOR_FILL_FAULT and TRANSLATION_FAULT a fill that faults, and TRANSLATION_WALK puts the page into the unit of the home of
the line. MEMRD_SNPDATA, MEMRD_SNPINV, MEMRD_NO_SNOOP and MEMWR at a port that is up wait while the line is purged, join the
queue of its open transaction, or have the line filled and open a transaction of their own, the first two with the port as
the holder to be, the last for write and with its bytes; memory that no page names is accessed in place. BIRSPI and
BISNPDATA_RESPONSE acknowledge, the latter with the bytes of a line that the port holds E or M. H2D_SNPINV and H2D_SNPDATA
make such a request, for write and for read, of every line that the port table names for the address; H2D_SNPCUR sends the
current bytes and changes nothing else. (R235, R238, R319, R330, R331, R333, R336, R337, R334, R335) -/
def Obligations.HomeAndHostEvents : Prop :=
  (∀ (core sector : Nat) (sc : Sector) (e : MapEntry) (t : State) (s : State), (s.core core).sectors.get? sector = some sc ∧ sc.st = .fill ∧ (s.core core).entries.get? sc.entry = some e ∧
    s.fillSector core sector sc.entry e = .ok t () →
    exec (.sectorFillComplete core sector) s = .next (t)) ∧
  (∀ (core sector : Nat) (sc : Sector) (e : MapEntry) (t : State) (x : Trap) (s : State), (s.core core).sectors.get? sector = some sc ∧ sc.st = .fill ∧ (s.core core).entries.get? sc.entry = some e ∧
    s.fillSector core sector sc.entry e = .trap t x →
    exec (.sectorFillFault core sector) s = .next (t)) ∧
  (∀ (core sector : Nat) (s : State), s.sectorState core sector = some .wb →
    exec (.sectorWritebackComplete core sector) s = .next (s.writebackDone core sector)) ∧
  (∀ (core : Nat) (line : LineRef) (write : Bool) (s : State), (s.awaits line ⟨core, 1⟩ write = true ∨ (s.entry line).coarse = true ∧ s.awaits line ⟨core, 0⟩ write = true) ∧
    s.recallWaits line ⟨core, 1⟩ write = false →
    exec (.stashRecall core line write) s = .next (s.recallStash core line write)) ∧
  (∀ (line : LineRef) (who : Holder) (s : State), s.agentOk line.dev who = true ∧ (s.entry line).holds who = none ∧ s.purging line = false ∧ (s.entry line).txn = none →
    exec (.gets line who) s = .next ((s.openReq line { src := some who, who := some who, write := false, partialOwn := false, at_ := s.cycle }).closeTxn line)) ∧
  (∀ (line : LineRef) (who : Holder) (s : State), s.agentOk line.dev who = true ∧ (s.entry line).holds who = none ∧ s.purging line = false ∧ (s.entry line).txn.isSome = true →
    exec (.gets line who) s = .next (s.putEntry ((s.entry line).enqueue { src := some who, who := some who, write := false, partialOwn := false, at_ := s.cycle }))) ∧
  (∀ (line : LineRef) (who : Holder) (s : State), s.agentOk line.dev who = true ∧ who.kind ≠ 1 ∧ (s.entry line).meets who .own = false ∧ s.purging line = false ∧ (s.entry line).txn = none →
    exec (.getm line who) s = .next ((s.openReq line { src := some who, who := some who, write := true, partialOwn := false, at_ := s.cycle }).closeTxn line)) ∧
  (∀ (line : LineRef) (who : Holder) (s : State), s.agentOk line.dev who = true ∧ who.kind ≠ 1 ∧ (s.entry line).meets who .own = false ∧ s.purging line = false ∧ (s.entry line).txn.isSome = true →
    exec (.getm line who) s = .next (s.putEntry ((s.entry line).enqueue { src := some who, who := some who, write := true, partialOwn := false, at_ := s.cycle }))) ∧
  (∀ (line : LineRef) (who : Holder) (s : State), s.agentOk line.dev who = true ∧ who.kind ≠ 1 ∧ (s.entry line).meets who .own = false ∧ s.purging line = false ∧ (s.entry line).txn = none →
    exec (.upgrade line who) s = .next ((s.openReq line { src := some who, who := some who, write := true, partialOwn := false, at_ := s.cycle }).closeTxn line)) ∧
  (∀ (line : LineRef) (who : Holder) (s : State), s.agentOk line.dev who = true ∧ who.kind ≠ 1 ∧ (s.entry line).meets who .own = false ∧ s.purging line = false ∧ (s.entry line).txn.isSome = true →
    exec (.upgrade line who) s = .next (s.putEntry ((s.entry line).enqueue { src := some who, who := some who, write := true, partialOwn := false, at_ := s.cycle }))) ∧
  (∀ (line : LineRef) (who : Holder) (s : State), s.agentOk line.dev who = true ∧ who.kind = 1 ∧ (s.entry line).meets who .partialOwn = false ∧ s.purging line = false ∧ (s.entry line).txn = none →
    exec (.getp line who) s = .next ((s.openReq line { src := some who, who := some who, write := true, partialOwn := true, at_ := s.cycle }).closeTxn line)) ∧
  (∀ (line : LineRef) (who : Holder) (s : State), s.agentOk line.dev who = true ∧ who.kind = 1 ∧ (s.entry line).meets who .partialOwn = false ∧ s.purging line = false ∧ (s.entry line).txn.isSome = true →
    exec (.getp line who) s = .next (s.putEntry ((s.entry line).enqueue { src := some who, who := some who, write := true, partialOwn := true, at_ := s.cycle }))) ∧
  (∀ (line : LineRef) (write : Bool) (s : State), s.purging line = false ∧ (s.entry line).txn = none →
    exec (.uncachedAccess line write) s = .next ((s.openReq line { src := none, who := none, write := write, partialOwn := false, at_ := s.cycle }).closeTxn line)) ∧
  (∀ (line : LineRef) (write : Bool) (s : State), s.purging line = false ∧ (s.entry line).txn.isSome = true →
    exec (.uncachedAccess line write) s = .next (s.putEntry ((s.entry line).enqueue { src := none, who := none, write := write, partialOwn := false, at_ := s.cycle }))) ∧
  (∀ (line : LineRef) (who : Holder) (st : HState) (s : State), (s.entry line).holds who = some st ∧ (st = .m ∨ st = .o ∨ st = .p) ∧ s.givesUp line who = true →
    exec (.writeBack line who) s = .next (
    if who.kind = 0 then s.leaveL1 who.agent line else s.putEntry { ((s.entry line).remove who) with l2Dirty := 0xF })) ∧
  (∀ (line : LineRef) (who : Holder) (st : HState) (s : State), (s.entry line).holds who = some st ∧ (st = .s ∨ st = .e) ∧ s.givesUp line who = true →
    exec (.cleanNotice line who) s = .next (
    if who.kind = 0 then (s.leaveL1 who.agent line).leaveIc who.agent line else s.putEntry ((s.entry line).remove who))) ∧
  (∀ (line : LineRef) (who : Holder) (s : State), s.awaits line who false = true ∧ who.kind ≠ 3 →
    exec (.recallForRead line who) s = .next (s.recallAt line who false)) ∧
  (∀ (line : LineRef) (who : Holder) (s : State), s.awaits line who true = true ∧ who.kind ≠ 3 →
    exec (.recallForWrite line who) s = .next (s.recallAt line who true)) ∧
  (∀ (line : LineRef) (who : Holder) (t : Txn) (s : State), (s.entry line).txn = some t ∧ t.acks.contains who = true ∧ who.kind ≠ 3 ∧ (s.entry line).stillHolds who t.req.write = false →
    exec (.recallAck line who) s = .next ((s.ack line who).closeTxn line)) ∧
  (∀ (line : LineRef) (t : State) (s : State), (s.entry line).txn.isSome = true ∧ s.homeFill line = some t →
    exec (.homeFillComplete line) s = .next (t.closeTxn line)) ∧
  (∀ (dev asid va : Nat) (p : Page) (s : State), s.page? dev asid va = some p →
    exec (.translationWalk dev asid va) s = .next (s.cacheWalk (unitOf (s.homeOf (lineOf dev asid va))) asid p)) ∧
  (∀ (line : LineRef) (s : State), (s.entry line).txn.isSome = true ∧ (s.entry line).inL2 = false ∧ s.homeFill line = none →
    exec (.translationFault line) s = .next (s.dropLine line)) ∧
  (∀ (dev port dpa : Nat) (l : LineRef) (s : State), ((s.ports[port]?).getD {}).up = true ∧ s.reverse dev (dpa / 64 * 64) = some l ∧ s.purging l = true →
    exec (.memrdSnpdata dev port dpa) s = .next (s.modDev l.dev fun v => { v with hostWait := v.hostWait ++ [(dpa / 64 * 64, { src := some (portHolder port), who := some (portHolder port), write := false, at_ := s.cycle })] })) ∧
  (∀ (dev port dpa : Nat) (l : LineRef) (t : State) (s : State), ((s.ports[port]?).getD {}).up = true ∧ s.reverse dev (dpa / 64 * 64) = some l ∧ s.purging l = false ∧
    (((s.answerAll l).closeTxn l).entry l).txn = none ∧ ((s.answerAll l).closeTxn l).homeFill l = some t →
    exec (.memrdSnpdata dev port dpa) s = .next (((t.openReq l { src := some (portHolder port), who := some (portHolder port), write := false, at_ := s.cycle }).answerAll l).closeTxn l)) ∧
  (∀ (dev port dpa : Nat) (l : LineRef) (s : State), ((s.ports[port]?).getD {}).up = true ∧ s.reverse dev (dpa / 64 * 64) = some l ∧ s.purging l = false ∧
    (((s.answerAll l).closeTxn l).entry l).txn.isSome = true →
    exec (.memrdSnpdata dev port dpa) s = .next (
    let t := (s.answerAll l).closeTxn l
    t.putEntry ((t.entry l).enqueue { src := some (portHolder port), who := some (portHolder port), write := false, at_ := s.cycle }))) ∧
  (∀ (dev port dpa : Nat) (s : State), ((s.ports[port]?).getD {}).up = true ∧ s.reverse dev (dpa / 64 * 64) = none →
    exec (.memrdSnpdata dev port dpa) s = .next (s.sendLine port (dpa / 64 * 64 / 64) (hbmPlace s.pkg.mode dev (dpa / 64 * 64)))) ∧
  (∀ (dev port dpa : Nat) (l : LineRef) (s : State), ((s.ports[port]?).getD {}).up = true ∧ s.reverse dev (dpa / 64 * 64) = some l ∧ s.purging l = true →
    exec (.memrdSnpinv dev port dpa) s = .next (s.modDev l.dev fun v => { v with hostWait := v.hostWait ++ [(dpa / 64 * 64, { src := some (portHolder port), who := some (portHolder port), write := true, at_ := s.cycle })] })) ∧
  (∀ (dev port dpa : Nat) (l : LineRef) (t : State) (s : State), ((s.ports[port]?).getD {}).up = true ∧ s.reverse dev (dpa / 64 * 64) = some l ∧ s.purging l = false ∧
    (((s.answerAll l).closeTxn l).entry l).txn = none ∧ ((s.answerAll l).closeTxn l).homeFill l = some t →
    exec (.memrdSnpinv dev port dpa) s = .next (((t.openReq l { src := some (portHolder port), who := some (portHolder port), write := true, at_ := s.cycle }).answerAll l).closeTxn l)) ∧
  (∀ (dev port dpa : Nat) (l : LineRef) (s : State), ((s.ports[port]?).getD {}).up = true ∧ s.reverse dev (dpa / 64 * 64) = some l ∧ s.purging l = false ∧
    (((s.answerAll l).closeTxn l).entry l).txn.isSome = true →
    exec (.memrdSnpinv dev port dpa) s = .next (
    let t := (s.answerAll l).closeTxn l
    t.putEntry ((t.entry l).enqueue { src := some (portHolder port), who := some (portHolder port), write := true, at_ := s.cycle }))) ∧
  (∀ (dev port dpa : Nat) (s : State), ((s.ports[port]?).getD {}).up = true ∧ s.reverse dev (dpa / 64 * 64) = none →
    exec (.memrdSnpinv dev port dpa) s = .next (s.sendLine port (dpa / 64 * 64 / 64) (hbmPlace s.pkg.mode dev (dpa / 64 * 64)))) ∧
  (∀ (dev port dpa : Nat) (l : LineRef) (s : State), ((s.ports[port]?).getD {}).up = true ∧ s.reverse dev (dpa / 64 * 64) = some l ∧ s.purging l = true →
    exec (.memrdNoSnoop dev port dpa) s = .next (s.modDev l.dev fun v => { v with hostWait := v.hostWait ++ [(dpa / 64 * 64, { src := some (portHolder port), who := none, write := false, at_ := s.cycle })] })) ∧
  (∀ (dev port dpa : Nat) (l : LineRef) (t : State) (s : State), ((s.ports[port]?).getD {}).up = true ∧ s.reverse dev (dpa / 64 * 64) = some l ∧ s.purging l = false ∧
    (((s.answerAll l).closeTxn l).entry l).txn = none ∧ ((s.answerAll l).closeTxn l).homeFill l = some t →
    exec (.memrdNoSnoop dev port dpa) s = .next (((t.openReq l { src := some (portHolder port), who := none, write := false, at_ := s.cycle }).answerAll l).closeTxn l)) ∧
  (∀ (dev port dpa : Nat) (l : LineRef) (s : State), ((s.ports[port]?).getD {}).up = true ∧ s.reverse dev (dpa / 64 * 64) = some l ∧ s.purging l = false ∧
    (((s.answerAll l).closeTxn l).entry l).txn.isSome = true →
    exec (.memrdNoSnoop dev port dpa) s = .next (
    let t := (s.answerAll l).closeTxn l
    t.putEntry ((t.entry l).enqueue { src := some (portHolder port), who := none, write := false, at_ := s.cycle }))) ∧
  (∀ (dev port dpa : Nat) (s : State), ((s.ports[port]?).getD {}).up = true ∧ s.reverse dev (dpa / 64 * 64) = none →
    exec (.memrdNoSnoop dev port dpa) s = .next (s.sendLine port (dpa / 64 * 64 / 64) (hbmPlace s.pkg.mode dev (dpa / 64 * 64)))) ∧
  (∀ (dev port dpa : Nat) (data : List Byte) (l : LineRef) (s : State), ((s.ports[port]?).getD {}).up = true ∧ s.reverse dev (dpa / 64 * 64) = some l ∧ s.purging l = true →
    exec (.memwr dev port dpa data) s = .next (s.modDev l.dev fun v => { v with hostWait := v.hostWait ++ [(dpa / 64 * 64, { src := some (portHolder port), who := none, write := true, at_ := s.cycle, data := some data })] })) ∧
  (∀ (dev port dpa : Nat) (data : List Byte) (l : LineRef) (t : State) (s : State), ((s.ports[port]?).getD {}).up = true ∧ s.reverse dev (dpa / 64 * 64) = some l ∧ s.purging l = false ∧
    (((s.answerAll l).closeTxn l).entry l).txn = none ∧ ((s.answerAll l).closeTxn l).homeFill l = some t →
    exec (.memwr dev port dpa data) s = .next (((t.openReq l { src := some (portHolder port), who := none, write := true, at_ := s.cycle, data := some data }).answerAll l).closeTxn l)) ∧
  (∀ (dev port dpa : Nat) (data : List Byte) (l : LineRef) (s : State), ((s.ports[port]?).getD {}).up = true ∧ s.reverse dev (dpa / 64 * 64) = some l ∧ s.purging l = false ∧
    (((s.answerAll l).closeTxn l).entry l).txn.isSome = true →
    exec (.memwr dev port dpa data) s = .next (
    let t := (s.answerAll l).closeTxn l
    t.putEntry ((t.entry l).enqueue { src := some (portHolder port), who := none, write := true, at_ := s.cycle, data := some data }))) ∧
  (∀ (dev port dpa : Nat) (data : List Byte) (s : State), ((s.ports[port]?).getD {}).up = true ∧ s.reverse dev (dpa / 64 * 64) = none →
    exec (.memwr dev port dpa data) s = .next (s.putLine (hbmPlace s.pkg.mode dev (dpa / 64 * 64)) data)) ∧
  (∀ (line : LineRef) (port : Nat) (s : State), s.awaits line (portHolder port) true = true →
    exec (.birspi line port) s = .next (((s.recallAt line (portHolder port) true).ack line (portHolder port)).closeTxn line)) ∧
  (∀ (line : LineRef) (port : Nat) (t : Txn) (s : State), (s.entry line).txn = some t ∧ t.acks.contains (portHolder port) = true →
    exec (.bisnpdataResponse line port none) s = .next (((s.recallAt line (portHolder port) t.req.write).ack line (portHolder port)).closeTxn line)) ∧
  (∀ (line : LineRef) (port a : Nat) (t : Txn) (bs : List Byte) (s : State), (s.entry line).txn = some t ∧ t.acks.contains (portHolder port) = true ∧
    ((s.entry line).holds (portHolder port) = some .e ∨ (s.entry line).holds (portHolder port) = some .m) ∧
    s.place? line.dev line.asid (64 * line.line) = some a →
    exec (.bisnpdataResponse line port (some bs)) s = .next ((((s.putLine a bs).recallAt line (portHolder port) t.req.write).ack line (portHolder port)).closeTxn line)) ∧
  (∀ (dev port hpa : Nat) (s : State),
    exec (.h2dSnpinv dev port hpa) s = .next ((s.snooped dev port hpa).foldl (fun (t : State) l =>
    t.hostReq hpa l { src := some (portHolder port), who := none, write := true, snoop := 1, at_ := t.cycle }) s)) ∧
  (∀ (dev port hpa : Nat) (s : State),
    exec (.h2dSnpdata dev port hpa) s = .next ((s.snooped dev port hpa).foldl (fun (t : State) l =>
    t.hostReq hpa l { src := some (portHolder port), who := none, write := false, snoop := 2, at_ := t.cycle }) s)) ∧
  (∀ (hpa port snoop : Nat) (l : LineRef) (t u : State), t.purging l = false → (((t.answerAll l).closeTxn l).entry l).txn = none →
    ((t.answerAll l).closeTxn l).homeFill l = some u →
    t.hostReq hpa l { src := some (portHolder port), who := none, write := snoop == 1, snoop := snoop, at_ := t.cycle } =
      ((u.openReq l { src := some (portHolder port), who := none, write := snoop == 1, snoop := snoop, at_ := t.cycle }).answerAll l).closeTxn l) ∧
  (∀ (dev port hpa : Nat) (s : State),
    exec (.h2dSnpcur dev port hpa) s = .next ((s.snooped dev port hpa).foldl (fun (t : State) l =>
    let now := (t.entry l).holders.foldl (fun (u : State) p => if p.2 = .p then u.recallStash p.1.agent l false else u) t
    { t with ports := listModify t.ports port fun p => { p with sent := some (hpa / 64, now.mem.bytes (hostPlace port (hpa / 64 * 64)) 64) } }) s))

/-- A command of OP 1 to 4 that is next, legal and reaches lines that do not make it wait is carried out: QUEUE_LAUNCH
creates the grid or refuses it, WAITCNT completes or waits, SIGNAL adds to its counter, QUEUE_NOP completes;
QUEUE_COMMAND_FENCED puts the queue in ERROR, DOORBELL_WRITE moves its tail. WAITCNT_RELEASE completes a WAITCNT whose
counter has reached the value and refuses one whose counter faults. TRANSFER_ACCEPT takes the next descriptor of the ring
whose turn it is or refuses it, TRANSFER_BURST moves units of a command that runs, TRANSFER_COMPLETE ends one whose bytes are
written, and TRANSFER_FAULT suspends one that faults. (R345, R347, R348, R377, R378, R379, R380) -/
def Obligations.QueueEvents : Prop :=
  (∀ (queue tail : Nat) (s : State),
    exec (.doorbellWrite queue tail) s = .next (s.doorbell queue tail)) ∧
  (∀ (queue : Nat) (q : Queue) (t : State) (c : Command) (t2 t3 : State) (ws : List Nat) (g : Grid) (s : State), s.nextCmd queue = some (q, .ok (t, c)) ∧ c.op = 1 ∧ c.err = 0 ∧ t.unitsBusy q.ctx c.arg0 256 false = false ∧ t.unitsBusy q.ctx c.arg0 256 true = false ∧
    t.unitWords q.ctx c.arg0 32 = .ok (t2, ws) ∧ t2.checkLaunch q.ctx c.arg0 ws false = (t3, .ok g) →
    exec (.queueLaunch queue) s = .next (
    let a := t3.createGrid g 0 q.prio none (some queue)
    a.1.startCmd queue (some { index := q.next, op := 1, grid := some a.2, scope := (Scope.ofCode c.scope).getD .sys }))) ∧
  (∀ (queue : Nat) (q : Queue) (t : State) (c : Command) (t2 t3 : State) (ws : List Nat) (code : Nat) (s : State), s.nextCmd queue = some (q, .ok (t, c)) ∧ c.op = 1 ∧ c.err = 0 ∧ t.unitsBusy q.ctx c.arg0 256 false = false ∧ t.unitsBusy q.ctx c.arg0 256 true = false ∧
    t.unitWords q.ctx c.arg0 32 = .ok (t2, ws) ∧ t2.checkLaunch q.ctx c.arg0 ws false = (t3, .error code) →
    exec (.queueLaunch queue) s = .next (t3.refuseQueue queue code)) ∧
  (∀ (queue : Nat) (q : Queue) (t : State) (c : Command) (t2 : State) (v : Nat) (s : State), s.nextCmd queue = some (q, .ok (t, c)) ∧ c.op = 2 ∧ c.err = 0 ∧ t.unitBusy q.ctx c.arg0 false = false ∧ t.readCounter q.ctx c.arg0 = .ok (t2, v) ∧ c.arg1 ≤ v →
    exec (.waitcnt queue) s = .next (t2.cmdOnce queue q.next)) ∧
  (∀ (queue : Nat) (q : Queue) (t : State) (c : Command) (t2 : State) (v : Nat) (s : State), s.nextCmd queue = some (q, .ok (t, c)) ∧ c.op = 2 ∧ c.err = 0 ∧ t.unitBusy q.ctx c.arg0 false = false ∧ t.readCounter q.ctx c.arg0 = .ok (t2, v) ∧ v < c.arg1 →
    exec (.waitcnt queue) s = .next (
    t2.startCmd queue (some
      { index := q.next, op := 2, addr := c.arg0, value := BitVec.ofNat 64 c.arg1, scope := (Scope.ofCode c.scope).getD .sys }))) ∧
  (∀ (queue index : Nat) (q : Queue) (c : QCmd) (t : State) (v : Nat) (s : State), s.queues.get? queue = some q ∧
    (q.live.find? fun c => c.index == BitVec.ofNat 32 index && c.op == 2 && q.refused != some (BitVec.ofNat 32 index)) = some c ∧
    s.unitBusy q.ctx c.addr false = false ∧ s.readCounter q.ctx c.addr = .ok (t, v) ∧ c.value.toNat ≤ v →
    exec (.waitcntRelease queue index) s = .next (t.cmdDone queue (BitVec.ofNat 32 index))) ∧
  (∀ (queue index : Nat) (q : Queue) (c : QCmd) (x : Trap) (s : State), s.queues.get? queue = some q ∧
    (q.live.find? fun c => c.index == BitVec.ofNat 32 index && c.op == 2 && q.refused != some (BitVec.ofNat 32 index)) = some c ∧
    s.unitBusy q.ctx c.addr false = false ∧ s.readCounter q.ctx c.addr = .error x →
    exec (.waitcntRelease queue index) s = .next ((s.setQueue queue fun q => { q with refused := some (BitVec.ofNat 32 index) }).refuseQueue queue 7)) ∧
  (∀ (queue : Nat) (q : Queue) (t : State) (c : Command) (t2 : State) (s : State), s.nextCmd queue = some (q, .ok (t, c)) ∧ c.op = 3 ∧ c.err = 0 ∧ t.unitBusy q.ctx c.arg0 true = false ∧ t.bumpCounter q.ctx c.arg0 c.arg1 = .ok t2 →
    exec (.signal queue) s = .next (t2.cmdOnce queue q.next)) ∧
  (∀ (queue : Nat) (q : Queue) (t : State) (c : Command) (s : State), s.nextCmd queue = some (q, .ok (t, c)) ∧ c.op = 4 ∧ c.err = 0 →
    exec (.queueNop queue) s = .next (t.cmdOnce queue q.next)) ∧
  (∀ (queue : Nat) (q : Queue) (code : Nat) (s : State), s.nextCmd queue = some (q, .error code) →
    exec (.queueCommandFenced queue) s = .next (s.refuseQueue queue code)) ∧
  (∀ (queue : Nat) (q : Queue) (t : State) (c : Command) (s : State), s.nextCmd queue = some (q, .ok (t, c)) ∧ c.err ≠ 0 →
    exec (.queueCommandFenced queue) s = .next (t.refuseQueue queue c.err)) ∧
  (∀ (queue n : Nat) (q : Queue) (t u : State) (ws : List Nat) (d : Descriptor) (s : State), s.queues.get? queue = some q ∧ q.xfer = some n ∧ s.nextRing n = some queue ∧ (s.fdie (n / 4)).inService = true ∧ s.unitsBusy q.ctx (q.slotVa q.next) 64 false = false ∧
    s.unitWords q.ctx (q.slotVa q.next) 8 = .ok (t, ws) ∧ t.descriptor (t.ctxDev q.ctx) ws = some d ∧
    t.acceptXfer n { d.xfer q.ctx with queue := some queue } = some u →
    exec (.transferAccept queue) s = .next (
    ({ u with ringLast := u.ringLast.set n queue } : State).setQueue queue fun q => { q with next := q.next + 1, head := q.head + 1 })) ∧
  (∀ (queue n : Nat) (q : Queue) (t : State) (ws : List Nat) (s : State), s.queues.get? queue = some q ∧ q.xfer = some n ∧ s.nextRing n = some queue ∧ (s.fdie (n / 4)).inService = true ∧ s.unitsBusy q.ctx (q.slotVa q.next) 64 false = false ∧
    s.unitWords q.ctx (q.slotVa q.next) 8 = .ok (t, ws) ∧ t.descriptor (t.ctxDev q.ctx) ws = none →
    exec (.transferAccept queue) s = .next (t.refuseQueue queue (descriptorErr ws))) ∧
  (∀ (engine slot : Nat) (x : Xfer) (t : State) (v : Unit) (s : State), s.engineRuns engine slot = some x ∧ x.off < x.len ∧ s.moveXfer engine slot x = .ok t v →
    exec (.transferBurst engine slot) s = .next (t)) ∧
  (∀ (engine slot : Nat) (x : Xfer) (t : State) (s : State), s.engineRuns engine slot = some x ∧ x.len ≤ x.off ∧ s.xferOwes x = false ∧
    (x.counter = 0 ∨ s.unitBusy x.ctx x.counter true = false) ∧ s.addCounter x.ctx x.counter 1 = .ok t →
    exec (.transferComplete engine slot) s = .next ({ t with engines := t.engines.set engine ((t.engine engine).del slot) })) ∧
  (∀ (engine slot : Nat) (x : Xfer) (t : State) (f : Trap) (s : State), s.engineRuns engine slot = some x ∧ x.off < x.len ∧ s.moveXfer engine slot x = .trap t f →
    exec (.transferFault engine slot) s = .next (t.suspendXfer engine slot x f)) ∧
  (∀ (engine slot : Nat) (x : Xfer) (f : Trap) (s : State), s.engineRuns engine slot = some x ∧ x.len ≤ x.off ∧ s.addCounter x.ctx x.counter 1 = .error f →
    exec (.transferFault engine slot) s = .next (s.suspendXfer engine slot x f))

/-- A link of the package goes from ACTIVE to SLEEP, WAKING, SLOW and FAILED as R408 says: to SLEEP after 2,000 idle ticks,
to SLOW 5,000 ticks after its wake began, to FAILED after 200,000 ticks or 16 retries of one flit; a received flit is
acknowledged and accepted once, and one sent again stays unacknowledged. A heartbeat of a die in service is heard; 3,000
ticks after the last one the die is declared dead; a read, a write and an atomic operation of a peer inside an export wait
for a line that is purged or pinned or take place and are answered, a doorbell moves the tail of a queue that is not
suspended; a peer that does not answer is lost; a host link that goes down leaves every directory and opens the batons of its
port, and comes up; a lease ends with its period and a takeover window with a warm restart. (R408, R409, R411, R418, R419,
R426, R429) -/
def Obligations.LinkAndDieEvents : Prop :=
  (∀ (link : Nat) (s : State), link < 28 ∧ (s.link link).st = .active ∧ (s.link link).unacked = [] ∧ (s.link link).lastUse + 2000 ≤ s.linkTime link →
    exec (.linkIdleSleep link) s = .next (s.linkTo link .sleep)) ∧
  (∀ (link : Nat) (s : State), link < 28 ∧ (s.link link).st = .sleep →
    exec (.linkWake link) s = .next ((s.linkTo link .waking).modLink link fun k => { k with since := s.linkTime link })) ∧
  (∀ (link : Nat) (s : State), link < 28 ∧ ((s.link link).st = .waking ∨ (s.link link).st = .slow) →
    exec (.linkWakeComplete link) s = .next ((s.linkTo link .active).modLink link fun k => { k with lastUse := s.linkTime link })) ∧
  (∀ (link : Nat) (s : State), link < 28 ∧ (s.link link).st = .waking ∧ (s.link link).since + 5000 ≤ s.linkTime link →
    exec (.linkSlow link) s = .next ((s.linkTo link .slow).modLink link fun k => { k with slowCount := k.slowCount + 1 })) ∧
  (∀ (link : Nat) (s : State), link < 28 ∧ (s.link link).st = .slow ∧ (s.link link).since + 200000 ≤ s.linkTime link →
    exec (.linkWakeFail link) s = .next (s.failLink link)) ∧
  (∀ (link : Nat) (s : State), link < 28 ∧ (s.link link).st = .active ∧ 16 ≤ (s.link link).retries →
    exec (.linkRetryFail link) s = .next (s.failLink link)) ∧
  (∀ (link seq : Nat) (s : State), link < 28 ∧ (s.link link).st = .active →
    exec (.flitReceive link seq) s = .next (s.modLink link fun k => { k with
      lastUse := s.linkTime link, retries := 0
      unacked := k.unacked.filter fun q => q != seq
      accepted := insertNat k.accepted seq })) ∧
  (∀ (link : Nat) (s : State), link < 28 ∧ (s.link link).st = .active →
    exec (.flitRetry link) s = .next (s.modLink link fun k => { k with
      lastUse := s.linkTime link, retries := k.retries + 1
      unacked := if k.unacked.isEmpty then [k.accepted.foldl (fun m q => max m (q + 1)) 0] else k.unacked })) ∧
  (∀ (d : Nat) (s : State), (s.cdie d).inService = true ∧ d < 16 →
    exec (.heartbeat (.compute d)) s = .next (s.modCdie d fun c => { c with heartbeat := s.monitorTime (.compute d) })) ∧
  (∀ (f : Nat) (s : State), (s.fdie f).inService = true →
    exec (.heartbeat (.foundation f)) s = .next (s.modFdie f fun c => { c with heartbeat := s.monitorTime (.foundation f) })) ∧
  (∀ (d : Nat) (s : State), (s.cdie d).heartbeat + 3000 ≤ s.monitorTime (.compute d) →
    exec (.heartbeatTimeout (.compute d)) s = .next (s.declareDead (.compute d) 0)) ∧
  (∀ (f : Nat) (s : State), (s.fdie f).heartbeat + 3000 ≤ s.monitorTime (.foundation f) →
    exec (.heartbeatTimeout (.foundation f)) s = .next (s.declareDead (.foundation f) 0)) ∧
  (∀ (dev peer va : Nat) (n : Nat) (l : List (LineRef × Nat)) (s : State), s.peerRange dev peer va n false = some l ∧ ((l.map Prod.fst).eraseDups.any fun x => s.lineBusy x false) = true →
    exec (.peerRequest dev peer (.read va n)) s = .next (s.modDev dev fun v => { v with peerWait := v.peerWait ++ [(peer, .read va n)] })) ∧
  (∀ (dev peer va : Nat) (n : Nat) (l : List (LineRef × Nat)) (s : State), s.peerRange dev peer va n false = some l ∧ ((l.map Prod.fst).eraseDups.any fun x => s.lineBusy x false) = false →
    exec (.peerRequest dev peer (.read va n)) s = .next (
    let t := (l.map Prod.fst).eraseDups.foldl (fun (s : State) x => s.force x false) s
    t.peerAnswer dev peer ((l.map Prod.snd).map t.mem.get))) ∧
  (∀ (dev peer va : Nat) (data : List Byte) (l : List (LineRef × Nat)) (s : State), s.peerRange dev peer va data.length true = some l ∧ ((l.map Prod.fst).eraseDups.any fun x => s.lineBusy x true) = true →
    exec (.peerRequest dev peer (.write va data)) s = .next (s.modDev dev fun v => { v with peerWait := v.peerWait ++ [(peer, .write va data)] })) ∧
  (∀ (dev peer va : Nat) (data : List Byte) (l : List (LineRef × Nat)) (s : State), s.peerRange dev peer va data.length true = some l ∧ ((l.map Prod.fst).eraseDups.any fun x => s.lineBusy x true) = false →
    exec (.peerRequest dev peer (.write va data)) s = .next (
    let t := (l.map Prod.fst).eraseDups.foldl (fun (s : State) x => s.force x true) s
    { t with mem := ((l.map Prod.snd).zip data).foldl (fun m p => m.put p.1 p.2) t.mem })) ∧
  (∀ (dev peer va : Nat) (aop : AtomOp) (ty : ITy) (b : Nat) (l : List (LineRef × Nat)) (s : State), va % (ty.width / 8) = 0 ∧ s.peerRange dev peer va (ty.width / 8) true = some l ∧ ((l.map Prod.fst).eraseDups.any fun x => s.lineBusy x true) = true →
    exec (.peerRequest dev peer (.atomic va aop ty b)) s = .next (s.modDev dev fun v => { v with peerWait := v.peerWait ++ [(peer, .atomic va aop ty b)] })) ∧
  (∀ (dev peer va : Nat) (aop : AtomOp) (ty : ITy) (b : Nat) (l : List (LineRef × Nat)) (s : State), va % (ty.width / 8) = 0 ∧ s.peerRange dev peer va (ty.width / 8) true = some l ∧ ((l.map Prod.fst).eraseDups.any fun x => s.lineBusy x true) = false →
    exec (.peerRequest dev peer (.atomic va aop ty b)) s = .next (
    let t := (l.map Prod.fst).eraseDups.foldl (fun (s : State) x => s.force x true) s
    let old := leNat ((l.map Prod.snd).map t.mem.get)
    let q := atomOperand aop ty b
    let u : State := { t with mem := ((l.map Prod.snd).zip (natLe (ty.width / 8) (atomNew aop ty old q.1 q.2))).foldl (fun m p => m.put p.1 p.2) t.mem }
    u.peerAnswer dev peer (natLe (ty.width / 8) old))) ∧
  (∀ (dev peer queue tail : Nat) (q : Queue) (w : PeerWin) (s : State), s.queues.get? queue = some q ∧ s.exported dev peer (doorBase + 8 * (queue % 256)) false true = some w ∧
    queue / 256 = dev ∧ q.ctx = w.ctx ∧ q.st ≠ .suspended →
    exec (.peerRequest dev peer (.doorbell queue tail)) s = .next (s.doorbell queue tail)) ∧
  (∀ (dev peer : Nat) (s : State), ((s.dev dev).imports.any fun w => w.peer == peer) = true →
    exec (.peerTimeout dev peer) s = .next (s.losePeer dev peer)) ∧
  (∀ (port : Nat) (s : State), port < 2 ∧ ((s.ports[port]?).getD {}).up = true →
    exec (.hostLinkDown port) s = .next (
    let t : State := { s with ports := listModify s.ports port fun p => { p with up := false } }
    let t := t.dir.foldl (fun (s : State) e => ((s.putEntry (e.remove (portHolder port))).ack (e.remove (portHolder port)).line (portHolder port)).closeTxn (e.remove (portHolder port)).line) t
    (List.range t.devCount).foldl (fun (s : State) d => if (s.dev d).baton = .held port then s.openBaton d s.svcTime else s) t)) ∧
  (∀ (port : Nat) (s : State),
    exec (.hostLinkUp port) s = .next ({ s with ports := listModify s.ports port fun p => { p with up := true } })) ∧
  (∀ (dev port : Nat) (s : State), (s.dev dev).baton = .held port ∧ dev < s.devCount ∧ (s.dev dev).leaseStart + (s.dev dev).period ≤ s.svcTime →
    exec (.leasePeriodExpiry dev) s = .next (s.openBaton dev ((s.dev dev).leaseStart + (s.dev dev).period))) ∧
  (∀ (dev port : Nat) (s : State), (s.dev dev).baton = .opened ∧ (s.dev dev).lastPort = some port ∧ dev < s.devCount ∧
    (s.dev dev).leaseStart + (s.dev dev).window ≤ s.svcTime →
    exec (.takeoverWindowExpiry dev) s = .next (s.warmRestart dev port))

/-- A fault of the policy image is logged and restarts it, the third within a second leaves the pair without it; a telemetry
window holds the change of each counter; a die is throttled with a log entry and recovers; an overheated or badly supplied
package is held in reset with a log entry and, restarted, is as after package reset, with the calls kept from before taken
up; a low or high input is logged once. POWER_CAP_STEP steps the clock by 25 MHz or, 100 microseconds or more after the last
such step, the issue gating by 1, in the direction that the draw asks for; CAP_NOT_MET is logged at most once a second.
(R432, R439, R454, R455, R458) -/
def Obligations.PowerEvents : Prop :=
  (∀ (s : State), s.pkg.policyRunning = true →
    exec .policyImageFault s = .next (
    let l := (s.pkg.policyRestarts.filter fun t => decide (s.svcTime < t + 100000000)) ++ [s.svcTime]
    let t : State := { s with pkg := { s.pkg with policyRestarts := l, policyRunning := !decide (3 ≤ l.length) } }
    t.logEvent t.pkg.svcDie { logOf 11 with unit := 11, detail := bit (decide (3 ≤ l.length)) })) ∧
  (∀ (s : State), s.pkg.policyRunning = true ∧ s.pkg.teleStart + 1000000 ≤ (s.fdie 0).ltime.toNat →
    exec .telemetryWindow s = .next (
    let ctxs := (List.range 256).map fun i => ((s.ctxs.get? i).map fun x => x.chargedTotal).getD 0
    let raw : List W64 := (s.allCounts ++ ctxs).map fun n => BitVec.ofNat 64 n
    { s with
      fresh := s.fresh + 1
      pkg := { s.pkg with
        teleCounts := raw.zipIdx.map fun p => p.1 - (s.pkg.teleBase[p.2]?).getD 0
        teleBase := raw, teleStart := (s.fdie 0).ltime.toNat, teleFree := some s.fresh } })) ∧
  (∀ (die : Nat) (s : State), die < 16 ∧ (s.cdie die).throttled = false →
    exec (.thermalThrottle die) s = .next ((s.modCdie die fun d => { d with throttled := true }).logEvent (die / 4) { logOf 12 with unit := 9, number := die })) ∧
  (∀ (die : Nat) (s : State), (s.cdie die).throttled = true →
    exec (.thermalRecover die) s = .next (s.modCdie die fun d => { d with throttled := false })) ∧
  (∀ (die : Nat) (s : State), s.pkg.heldReset = 0 →
    exec (.thermalShutdown die) s = .next (
    let t := s.logEvent s.pkg.svcDie { logOf 12 with unit := 13, detail := 1 }
    { t with pkg := { t.pkg with heldReset := 1 }, cur := none })) ∧
  (∀ (s : State), s.pkg.heldReset = 0 →
    exec .undervoltage s = .next (
    let t := s.logEvent s.pkg.svcDie { logOf 12 with unit := 13, detail := 4 }
    { t with pkg := { t.pkg with heldReset := 2 }, cur := none })) ∧
  (∀ (s : State), s.pkg.heldReset = 0 →
    exec .overvoltage s = .next (
    let t := s.logEvent s.pkg.svcDie { logOf 12 with unit := 13, detail := 4 }
    { t with pkg := { t.pkg with heldReset := 2 }, cur := none })) ∧
  (∀ (found : BringUp) (s : State), s.pkg.heldReset = 1 →
    exec (.thermalRestart found) s = .next ((s.packageReset found).readEarly)) ∧
  (∀ (s : State), s.pkg.inputLow = false →
    exec .inputLow s = .next (
    let t := s.logEvent s.pkg.svcDie { logOf 12 with unit := 13, detail := 2 }
    { t with pkg := { t.pkg with inputLow := true } })) ∧
  (∀ (s : State), s.pkg.inputHigh = false →
    exec .inputHigh s = .next (
    let t := s.logEvent s.pkg.svcDie { logOf 12 with unit := 13, detail := 3 }
    { t with pkg := { t.pkg with inputHigh := true } })) ∧
  (∀ (found : BringUp) (s : State), s.pkg.heldReset = 2 →
    exec (.inputRecover found) s = .next ((s.packageReset found).readEarly)) ∧
  (∀ (found : BringUp) (s : State), s.pkg.heldReset ≠ 2 →
    exec (.inputRecover found) s = .next ({ s with pkg := { s.pkg with inputLow := false, inputHigh := false } })) ∧
  (∀ (watts : Nat) (s : State), s.pkg.limit < watts ∧ s.slowest = false →
    exec (.powerCapStep watts) s = .next (s.allDies fun d => { d with clockMHz := max 300 (d.clockMHz - 25) })) ∧
  (∀ (watts : Nat) (s : State), s.pkg.limit < watts ∧ s.slowest = true ∧
    (s.pkg.gateAt.map fun t => decide (s.svcTime < t + 10000)).getD false = false →
    exec (.powerCapStep watts) s = .next (
    let t := s.allDies fun d => { d with gate := max 2 (d.gate - 1) }
    { t with pkg := { t.pkg with gateAt := some t.svcTime } })) ∧
  (∀ (watts : Nat) (s : State), watts < s.pkg.limit ∧ ((List.range 16).any fun d => decide ((s.cdie d).gate < 16)) = true ∧ (s.pkg.gateAt.map fun t => decide (s.svcTime < t + 10000)).getD false = false →
    exec (.powerCapStep watts) s = .next (
    let t := s.allDies fun d => { d with gate := min 16 (d.gate + 1) }
    { t with pkg := { t.pkg with gateAt := some t.svcTime } })) ∧
  (∀ (watts : Nat) (s : State), watts < s.pkg.limit ∧ ((List.range 16).any fun d => decide ((s.cdie d).gate < 16)) = false →
    exec (.powerCapStep watts) s = .next (s.allDies fun d => { d with clockMHz := min 1200 (d.clockMHz + 25) })) ∧
  (∀ (watts : Nat) (s : State), s.pkg.limit < watts ∧ s.slowest = true ∧ ((List.range 16).all fun d => decide ((s.cdie d).gate ≤ 2)) = true ∧
    (s.pkg.capLogged = 0 ∨ s.pkg.capLogged + 100000000 ≤ s.svcTime) →
    exec (.capNotMet watts) s = .next (
    let t := s.logEvent s.pkg.svcDie { logOf 13 with unit := 13, detail := watts }
    { t with pkg := { t.pkg with capLogged := s.svcTime } })) ∧
  (∀ (found : BringUp) (s : State),
    exec (.packageReset found) s = .next ((s.packageReset found).readEarly))

/-- SVCDB_WRITE reads the call block and accepts the call, or with 64 calls outstanding sets DROPPED, or in a package held in
reset is kept for the start of the service unit; DROPPED_CLEAR clears it; FW_STAGE_WRITE_DONE, when the answer of its call
need not wait, stages an image that passed its check, and erases and logs one that failed, the call completing with
SIG_INVALID. (R421, R423, R433, R435) -/
def Obligations.ServiceEvents : Prop :=
  (∀ (dev port vf addr : Nat) (s : State), ((s.ports[port]?).getD {}).up = true ∧ port < 2 ∧ vf ≤ 16 ∧ dev < s.devCount ∧ s.pkg.heldReset = 0 ∧
    64 ≤ (((s.ports[port]?).getD {}).func (funcKey dev vf)).outst →
    exec (.svcdbWrite dev port vf addr) s = .next (s.modFunc port (funcKey dev vf) fun f => { f with dropped := true })) ∧
  (∀ (dev port vf addr : Nat) (t : State) (bs : List Byte) (s : State), ((s.ports[port]?).getD {}).up = true ∧ port < 2 ∧ vf ≤ 16 ∧ dev < s.devCount ∧ s.pkg.heldReset = 0 ∧
    (((s.ports[port]?).getD {}).func (funcKey dev vf)).outst < 64 ∧
    State.callerRead (.host port vf) (addr / 256 * 256) 256 s = .ok (t, bs) →
    exec (.svcdbWrite dev port vf addr) s = .next (
    (t.modFunc port (funcKey dev vf) fun f => { f with outst := f.outst + 1 }).acceptCall dev
      (callOf dev (.host port vf) (addr / 256 * 256) 0 0 (wordsOf bs)))) ∧
  (∀ (dev port vf addr : Nat) (s : State), s.pkg.heldReset ≠ 0 →
    exec (.svcdbWrite dev port vf addr) s = .next ({ s with pkg := { s.pkg with early := s.pkg.early ++ [(dev, port, vf, addr)] } })) ∧
  (∀ (dev port vf : Nat) (s : State),
    exec (.droppedClear dev port vf) s = .next (s.modFunc port (funcKey dev vf) fun f => { f with dropped := false })) ∧
  (∀ (c : Call) (kind : Nat) (i : Image) (s : State), (s.pkg.staging.find? fun p => p.1 == c) = some (c, kind) ∧ (s.pkg.fw kind).checking = some (i, 0) ∧ s.answerBusy c = false →
    exec (.fwStageWriteDone c) s = .next (
    let t : State := { s with pkg := { s.pkg with staging := s.pkg.staging.erase (c, kind) } }
    let slot := 1 - (s.pkg.fw kind).active
    let t := (t.modFw kind fun f => { f with checking := none }).modFw kind fun f => { f with slots := listSet f.slots slot (some i), staged := some slot }
    (t.dropCall (0x2C, c)).answer c stOk [slot])) ∧
  (∀ (c : Call) (kind v : Nat) (i : Image) (s : State), (s.pkg.staging.find? fun p => p.1 == c) = some (c, kind) ∧ (s.pkg.fw kind).checking = some (i, v + 1) ∧ s.answerBusy c = false →
    exec (.fwStageWriteDone c) s = .next (
    let t : State := { s with pkg := { s.pkg with staging := s.pkg.staging.erase (c, kind) } }
    let t := t.modFw kind fun f => { f with checking := none }
    let t := t.logEvent t.pkg.svcDie { logOf 14 with unit := 11, addr := 1 - (s.pkg.fw kind).active, detail := v }
    (t.dropCall (0x2C, c)).answer c stSigInvalid []))
end

