-- ==== Sys2Proof/Laws/Tables.lean ====
section
/-!
SUPPORT. What a keyed table and a list answer after an update (Word.lean).
-/
namespace Sys2Proof

@[simp] theorem Tbl.get?_nil {α : Type} (k : Nat) : Tbl.get? ([] : Tbl α) k = none := rfl

@[simp] theorem Tbl.get?_set_self {α : Type} (t : Tbl α) (k : Nat) (a : α) : (Tbl.set t k a).get? k = some a := by
  induction t with
  | nil => simp [Tbl.set, Tbl.get?]
  | cons p r ih =>
    obtain ⟨j, b⟩ := p
    simp only [Tbl.set]
    split
    · simp [Tbl.get?]
    · split
      · simp [Tbl.get?]
      · rename_i h; simp [Tbl.get?, Ne.symm h, ih]

theorem Tbl.get?_set_ne {α : Type} (t : Tbl α) {k j : Nat} (a : α) (h : j ≠ k) : (Tbl.set t k a).get? j = t.get? j := by
  induction t with
  | nil => simp [Tbl.set, Tbl.get?, h.symm]
  | cons p r ih =>
    obtain ⟨i, b⟩ := p
    simp only [Tbl.set]
    split
    · simp [Tbl.get?, h.symm]
    · split
      · rename_i h'; subst h'; simp [Tbl.get?, h.symm]
      · simp [Tbl.get?, ih]

theorem Tbl.get?_del_ne {α : Type} (t : Tbl α) {k j : Nat} (h : j ≠ k) : (Tbl.del t k).get? j = t.get? j := by
  induction t with
  | nil => rfl
  | cons p r ih =>
    obtain ⟨i, b⟩ := p
    simp only [Tbl.del]
    split
    · rename_i h'; subst h'; simp [Tbl.get?, h.symm, ih]
    · simp [Tbl.get?, ih]

@[simp] theorem Tbl.get?_del_self {α : Type} (t : Tbl α) (k : Nat) : (Tbl.del t k).get? k = none := by
  induction t with
  | nil => rfl
  | cons p r ih =>
    obtain ⟨i, b⟩ := p
    simp only [Tbl.del]
    split
    · exact ih
    · rename_i h; simp [Tbl.get?, h, ih]

@[simp] theorem Tbl.get?_modify_self {α : Type} (t : Tbl α) (k : Nat) (f : α → α) :
    (Tbl.modify t k f).get? k = (t.get? k).map f := by
  induction t with
  | nil => rfl
  | cons p r ih =>
    obtain ⟨i, b⟩ := p
    simp only [Tbl.modify]
    split
    · rename_i h; simp [Tbl.get?, h]
    · rename_i h; simp [Tbl.get?, h, ih]

/-- Two changes that agree on the record under a key are one change. -/
theorem Tbl.modify_congr {α : Type} {t : Tbl α} {k : Nat} {a : α} {f g : α → α} (h : t.get? k = some a) (hf : f a = g a) :
    t.modify k f = t.modify k g := by
  induction t with
  | nil => rfl
  | cons p r ih =>
    obtain ⟨i, b⟩ := p
    simp only [Tbl.get?] at h
    simp only [Tbl.modify]
    split
    · rename_i he
      rw [if_pos he, Option.some.injEq] at h
      rw [h, hf]
    · rename_i he
      rw [if_neg he] at h
      rw [ih h]

theorem Tbl.get?_modify_ne {α : Type} (t : Tbl α) {k j : Nat} (f : α → α) (h : j ≠ k) :
    (Tbl.modify t k f).get? j = t.get? j := by
  induction t with
  | nil => rfl
  | cons p r ih =>
    obtain ⟨i, b⟩ := p
    simp only [Tbl.modify]
    split
    · rename_i h'; subst h'; simp [Tbl.get?, h.symm]
    · simp [Tbl.get?, ih]

@[simp] theorem listModify_length {α : Type} (l : List α) (i : Nat) (f : α → α) : (listModify l i f).length = l.length := by
  induction l generalizing i with
  | nil => rfl
  | cons a r ih => cases i <;> simp [listModify, ih]

@[simp] theorem listModify_self {α : Type} (l : List α) (i : Nat) (f : α → α) : (listModify l i f)[i]? = (l[i]?).map f := by
  induction l generalizing i with
  | nil => rfl
  | cons a r ih => cases i <;> simp [listModify, ih]

theorem listModify_ne {α : Type} (l : List α) {i j : Nat} (f : α → α) (h : j ≠ i) : (listModify l i f)[j]? = l[j]? := by
  induction l generalizing i j with
  | nil => rfl
  | cons a r ih =>
    cases i with
    | zero => cases j with
      | zero => exact absurd rfl h
      | succ j => simp [listModify]
    | succ i => cases j with
      | zero => simp [listModify]
      | succ j => simp only [listModify, List.getElem?_cons_succ]; exact ih (by omega)

theorem lanesOf_fold (f : Nat → Bool) (l : List Nat) (m : Lanes) (i : Nat) (hl : ∀ k ∈ l, k < 16) (hi : i < 16) :
    (l.foldl (fun m k => if f k then m ||| (1#16 <<< k) else m) m).getLsbD i = (m.getLsbD i || (l.contains i && f i)) := by
  induction l generalizing m with
  | nil => simp
  | cons k r ih =>
    have hk : k < 16 := hl k (by simp)
    rw [List.foldl_cons, ih _ fun x hx => hl x (by simp [hx])]
    have h1 : (if f k then m ||| (1#16 <<< k) else m).getLsbD i = (m.getLsbD i || (f k && decide (i = k))) := by
      cases hf : f k
      · simp
      · simp only [if_true, BitVec.getLsbD_or, BitVec.getLsbD_shiftLeft, Bool.true_and]
        congr 1
        by_cases h : i = k
        · subst h; simp [hi]
        · by_cases h2 : i < k
          · simp [h2, h]
          · simp [h2, h, BitVec.getLsbD_one]; omega
    rw [h1]
    by_cases h : i = k
    · subst h; cases hf : f i <;> simp
    · simp [h]

theorem lanesOf_bit (f : Nat → Bool) (i : Nat) (h : i < 16) : (lanesOf f).getLsbD i = f i := by
  rw [lanesOf, lanesOf_fold f laneList 0#16 i (by decide) h]
  have : i ∈ laneList := by simp [laneList]; omega
  simp [this]

@[simp] theorem lanesOf_false : lanesOf (fun _ => false) = 0 := by decide

theorem mem_lanesIn (m : Lanes) (i : Nat) : i ∈ lanesIn m ↔ m.getLsbD i = true := by
  simp only [lanesIn, laneList, List.mem_filter, List.mem_cons, List.not_mem_nil, or_false]
  constructor
  · exact fun h => h.2
  · intro h
    refine ⟨?_, h⟩
    have : i < 16 := by
      by_contra hc
      simp [BitVec.getLsbD_of_ge m i (by omega)] at h
    omega

end Sys2Proof
end

