-- ==== Sys2Proof/Laws/State.lean ====
section
/-!
SUPPORT. What every field of State is after each named update: one lemma per field and update, and what the objects
looked up by number are (Machine/Ops.lean).
-/
namespace Sys2Proof.Machine
open Sys2Proof

@[simp] theorem State.modCore_cur (s : State) (c : Nat) (f : Core → Core) : (s.modCore c f).cur = s.cur := rfl
@[simp] theorem State.modCore_agenda (s : State) (c : Nat) (f : Core → Core) : (s.modCore c f).agenda = s.agenda := rfl
@[simp] theorem State.modCore_fresh (s : State) (c : Nat) (f : Core → Core) : (s.modCore c f).fresh = s.fresh := rfl
@[simp] theorem State.modCore_cycle (s : State) (c : Nat) (f : Core → Core) : (s.modCore c f).cycle = s.cycle := rfl
@[simp] theorem State.modCore_pkg (s : State) (c : Nat) (f : Core → Core) : (s.modCore c f).pkg = s.pkg := rfl
@[simp] theorem State.modCore_ports (s : State) (c : Nat) (f : Core → Core) : (s.modCore c f).ports = s.ports := rfl
@[simp] theorem State.modCore_devs (s : State) (c : Nat) (f : Core → Core) : (s.modCore c f).devs = s.devs := rfl
@[simp] theorem State.modCore_fdies (s : State) (c : Nat) (f : Core → Core) : (s.modCore c f).fdies = s.fdies := rfl
@[simp] theorem State.modCore_cdies (s : State) (c : Nat) (f : Core → Core) : (s.modCore c f).cdies = s.cdies := rfl
@[simp] theorem State.modCore_links (s : State) (c : Nat) (f : Core → Core) : (s.modCore c f).links = s.links := rfl
@[simp] theorem State.modCore_ctxs (s : State) (c : Nat) (f : Core → Core) : (s.modCore c f).ctxs = s.ctxs := rfl
@[simp] theorem State.modCore_queues (s : State) (c : Nat) (f : Core → Core) : (s.modCore c f).queues = s.queues := rfl
@[simp] theorem State.modCore_grids (s : State) (c : Nat) (f : Core → Core) : (s.modCore c f).grids = s.grids := rfl
@[simp] theorem State.modCore_spans (s : State) (c : Nat) (f : Core → Core) : (s.modCore c f).spans = s.spans := rfl
@[simp] theorem State.modCore_cursors (s : State) (c : Nat) (f : Core → Core) : (s.modCore c f).cursors = s.cursors := rfl
@[simp] theorem State.modCore_teams (s : State) (c : Nat) (f : Core → Core) : (s.modCore c f).teams = s.teams := rfl
@[simp] theorem State.modCore_engines (s : State) (c : Nat) (f : Core → Core) : (s.modCore c f).engines = s.engines := rfl
@[simp] theorem State.modCore_ringLast (s : State) (c : Nat) (f : Core → Core) : (s.modCore c f).ringLast = s.ringLast := rfl
@[simp] theorem State.modCore_mirrors (s : State) (c : Nat) (f : Core → Core) : (s.modCore c f).mirrors = s.mirrors := rfl
@[simp] theorem State.modCore_dir (s : State) (c : Nat) (f : Core → Core) : (s.modCore c f).dir = s.dir := rfl
@[simp] theorem State.modCore_tlb (s : State) (c : Nat) (f : Core → Core) : (s.modCore c f).tlb = s.tlb := rfl
@[simp] theorem State.modCore_mem (s : State) (c : Nat) (f : Core → Core) : (s.modCore c f).mem = s.mem := rfl
@[simp] theorem State.modCore_poison (s : State) (c : Nat) (f : Core → Core) : (s.modCore c f).poison = s.poison := rfl
@[simp] theorem State.modCore_barm (s : State) (c : Nat) (f : Core → Core) : (s.modCore c f).barm = s.barm := rfl
@[simp] theorem State.modCore_msix (s : State) (c : Nat) (f : Core → Core) : (s.modCore c f).msix = s.msix := rfl
@[simp] theorem State.modCore_nextId (s : State) (c : Nat) (f : Core → Core) : (s.modCore c f).nextId = s.nextId := rfl

@[simp] theorem State.modCdie_cur (s : State) (d : Nat) (f : CDie → CDie) : (s.modCdie d f).cur = s.cur := rfl
@[simp] theorem State.modCdie_agenda (s : State) (d : Nat) (f : CDie → CDie) : (s.modCdie d f).agenda = s.agenda := rfl
@[simp] theorem State.modCdie_fresh (s : State) (d : Nat) (f : CDie → CDie) : (s.modCdie d f).fresh = s.fresh := rfl
@[simp] theorem State.modCdie_cycle (s : State) (d : Nat) (f : CDie → CDie) : (s.modCdie d f).cycle = s.cycle := rfl
@[simp] theorem State.modCdie_pkg (s : State) (d : Nat) (f : CDie → CDie) : (s.modCdie d f).pkg = s.pkg := rfl
@[simp] theorem State.modCdie_ports (s : State) (d : Nat) (f : CDie → CDie) : (s.modCdie d f).ports = s.ports := rfl
@[simp] theorem State.modCdie_devs (s : State) (d : Nat) (f : CDie → CDie) : (s.modCdie d f).devs = s.devs := rfl
@[simp] theorem State.modCdie_fdies (s : State) (d : Nat) (f : CDie → CDie) : (s.modCdie d f).fdies = s.fdies := rfl
@[simp] theorem State.modCdie_links (s : State) (d : Nat) (f : CDie → CDie) : (s.modCdie d f).links = s.links := rfl
@[simp] theorem State.modCdie_cores (s : State) (d : Nat) (f : CDie → CDie) : (s.modCdie d f).cores = s.cores := rfl
@[simp] theorem State.modCdie_ctxs (s : State) (d : Nat) (f : CDie → CDie) : (s.modCdie d f).ctxs = s.ctxs := rfl
@[simp] theorem State.modCdie_queues (s : State) (d : Nat) (f : CDie → CDie) : (s.modCdie d f).queues = s.queues := rfl
@[simp] theorem State.modCdie_grids (s : State) (d : Nat) (f : CDie → CDie) : (s.modCdie d f).grids = s.grids := rfl
@[simp] theorem State.modCdie_spans (s : State) (d : Nat) (f : CDie → CDie) : (s.modCdie d f).spans = s.spans := rfl
@[simp] theorem State.modCdie_cursors (s : State) (d : Nat) (f : CDie → CDie) : (s.modCdie d f).cursors = s.cursors := rfl
@[simp] theorem State.modCdie_teams (s : State) (d : Nat) (f : CDie → CDie) : (s.modCdie d f).teams = s.teams := rfl
@[simp] theorem State.modCdie_engines (s : State) (d : Nat) (f : CDie → CDie) : (s.modCdie d f).engines = s.engines := rfl
@[simp] theorem State.modCdie_ringLast (s : State) (d : Nat) (f : CDie → CDie) : (s.modCdie d f).ringLast = s.ringLast := rfl
@[simp] theorem State.modCdie_mirrors (s : State) (d : Nat) (f : CDie → CDie) : (s.modCdie d f).mirrors = s.mirrors := rfl
@[simp] theorem State.modCdie_dir (s : State) (d : Nat) (f : CDie → CDie) : (s.modCdie d f).dir = s.dir := rfl
@[simp] theorem State.modCdie_tlb (s : State) (d : Nat) (f : CDie → CDie) : (s.modCdie d f).tlb = s.tlb := rfl
@[simp] theorem State.modCdie_mem (s : State) (d : Nat) (f : CDie → CDie) : (s.modCdie d f).mem = s.mem := rfl
@[simp] theorem State.modCdie_poison (s : State) (d : Nat) (f : CDie → CDie) : (s.modCdie d f).poison = s.poison := rfl
@[simp] theorem State.modCdie_barm (s : State) (d : Nat) (f : CDie → CDie) : (s.modCdie d f).barm = s.barm := rfl
@[simp] theorem State.modCdie_msix (s : State) (d : Nat) (f : CDie → CDie) : (s.modCdie d f).msix = s.msix := rfl
@[simp] theorem State.modCdie_nextId (s : State) (d : Nat) (f : CDie → CDie) : (s.modCdie d f).nextId = s.nextId := rfl

@[simp] theorem State.modFdie_cur (s : State) (d : Nat) (f : FDie → FDie) : (s.modFdie d f).cur = s.cur := rfl
@[simp] theorem State.modFdie_agenda (s : State) (d : Nat) (f : FDie → FDie) : (s.modFdie d f).agenda = s.agenda := rfl
@[simp] theorem State.modFdie_fresh (s : State) (d : Nat) (f : FDie → FDie) : (s.modFdie d f).fresh = s.fresh := rfl
@[simp] theorem State.modFdie_cycle (s : State) (d : Nat) (f : FDie → FDie) : (s.modFdie d f).cycle = s.cycle := rfl
@[simp] theorem State.modFdie_pkg (s : State) (d : Nat) (f : FDie → FDie) : (s.modFdie d f).pkg = s.pkg := rfl
@[simp] theorem State.modFdie_ports (s : State) (d : Nat) (f : FDie → FDie) : (s.modFdie d f).ports = s.ports := rfl
@[simp] theorem State.modFdie_devs (s : State) (d : Nat) (f : FDie → FDie) : (s.modFdie d f).devs = s.devs := rfl
@[simp] theorem State.modFdie_cdies (s : State) (d : Nat) (f : FDie → FDie) : (s.modFdie d f).cdies = s.cdies := rfl
@[simp] theorem State.modFdie_links (s : State) (d : Nat) (f : FDie → FDie) : (s.modFdie d f).links = s.links := rfl
@[simp] theorem State.modFdie_cores (s : State) (d : Nat) (f : FDie → FDie) : (s.modFdie d f).cores = s.cores := rfl
@[simp] theorem State.modFdie_ctxs (s : State) (d : Nat) (f : FDie → FDie) : (s.modFdie d f).ctxs = s.ctxs := rfl
@[simp] theorem State.modFdie_queues (s : State) (d : Nat) (f : FDie → FDie) : (s.modFdie d f).queues = s.queues := rfl
@[simp] theorem State.modFdie_grids (s : State) (d : Nat) (f : FDie → FDie) : (s.modFdie d f).grids = s.grids := rfl
@[simp] theorem State.modFdie_spans (s : State) (d : Nat) (f : FDie → FDie) : (s.modFdie d f).spans = s.spans := rfl
@[simp] theorem State.modFdie_cursors (s : State) (d : Nat) (f : FDie → FDie) : (s.modFdie d f).cursors = s.cursors := rfl
@[simp] theorem State.modFdie_teams (s : State) (d : Nat) (f : FDie → FDie) : (s.modFdie d f).teams = s.teams := rfl
@[simp] theorem State.modFdie_engines (s : State) (d : Nat) (f : FDie → FDie) : (s.modFdie d f).engines = s.engines := rfl
@[simp] theorem State.modFdie_ringLast (s : State) (d : Nat) (f : FDie → FDie) : (s.modFdie d f).ringLast = s.ringLast := rfl
@[simp] theorem State.modFdie_mirrors (s : State) (d : Nat) (f : FDie → FDie) : (s.modFdie d f).mirrors = s.mirrors := rfl
@[simp] theorem State.modFdie_dir (s : State) (d : Nat) (f : FDie → FDie) : (s.modFdie d f).dir = s.dir := rfl
@[simp] theorem State.modFdie_tlb (s : State) (d : Nat) (f : FDie → FDie) : (s.modFdie d f).tlb = s.tlb := rfl
@[simp] theorem State.modFdie_mem (s : State) (d : Nat) (f : FDie → FDie) : (s.modFdie d f).mem = s.mem := rfl
@[simp] theorem State.modFdie_poison (s : State) (d : Nat) (f : FDie → FDie) : (s.modFdie d f).poison = s.poison := rfl
@[simp] theorem State.modFdie_barm (s : State) (d : Nat) (f : FDie → FDie) : (s.modFdie d f).barm = s.barm := rfl
@[simp] theorem State.modFdie_msix (s : State) (d : Nat) (f : FDie → FDie) : (s.modFdie d f).msix = s.msix := rfl
@[simp] theorem State.modFdie_nextId (s : State) (d : Nat) (f : FDie → FDie) : (s.modFdie d f).nextId = s.nextId := rfl

@[simp] theorem State.modLink_cur (s : State) (l : Nat) (f : Link → Link) : (s.modLink l f).cur = s.cur := rfl
@[simp] theorem State.modLink_agenda (s : State) (l : Nat) (f : Link → Link) : (s.modLink l f).agenda = s.agenda := rfl
@[simp] theorem State.modLink_fresh (s : State) (l : Nat) (f : Link → Link) : (s.modLink l f).fresh = s.fresh := rfl
@[simp] theorem State.modLink_cycle (s : State) (l : Nat) (f : Link → Link) : (s.modLink l f).cycle = s.cycle := rfl
@[simp] theorem State.modLink_pkg (s : State) (l : Nat) (f : Link → Link) : (s.modLink l f).pkg = s.pkg := rfl
@[simp] theorem State.modLink_ports (s : State) (l : Nat) (f : Link → Link) : (s.modLink l f).ports = s.ports := rfl
@[simp] theorem State.modLink_devs (s : State) (l : Nat) (f : Link → Link) : (s.modLink l f).devs = s.devs := rfl
@[simp] theorem State.modLink_fdies (s : State) (l : Nat) (f : Link → Link) : (s.modLink l f).fdies = s.fdies := rfl
@[simp] theorem State.modLink_cdies (s : State) (l : Nat) (f : Link → Link) : (s.modLink l f).cdies = s.cdies := rfl
@[simp] theorem State.modLink_cores (s : State) (l : Nat) (f : Link → Link) : (s.modLink l f).cores = s.cores := rfl
@[simp] theorem State.modLink_ctxs (s : State) (l : Nat) (f : Link → Link) : (s.modLink l f).ctxs = s.ctxs := rfl
@[simp] theorem State.modLink_queues (s : State) (l : Nat) (f : Link → Link) : (s.modLink l f).queues = s.queues := rfl
@[simp] theorem State.modLink_grids (s : State) (l : Nat) (f : Link → Link) : (s.modLink l f).grids = s.grids := rfl
@[simp] theorem State.modLink_spans (s : State) (l : Nat) (f : Link → Link) : (s.modLink l f).spans = s.spans := rfl
@[simp] theorem State.modLink_cursors (s : State) (l : Nat) (f : Link → Link) : (s.modLink l f).cursors = s.cursors := rfl
@[simp] theorem State.modLink_teams (s : State) (l : Nat) (f : Link → Link) : (s.modLink l f).teams = s.teams := rfl
@[simp] theorem State.modLink_engines (s : State) (l : Nat) (f : Link → Link) : (s.modLink l f).engines = s.engines := rfl
@[simp] theorem State.modLink_ringLast (s : State) (l : Nat) (f : Link → Link) : (s.modLink l f).ringLast = s.ringLast := rfl
@[simp] theorem State.modLink_mirrors (s : State) (l : Nat) (f : Link → Link) : (s.modLink l f).mirrors = s.mirrors := rfl
@[simp] theorem State.modLink_dir (s : State) (l : Nat) (f : Link → Link) : (s.modLink l f).dir = s.dir := rfl
@[simp] theorem State.modLink_tlb (s : State) (l : Nat) (f : Link → Link) : (s.modLink l f).tlb = s.tlb := rfl
@[simp] theorem State.modLink_mem (s : State) (l : Nat) (f : Link → Link) : (s.modLink l f).mem = s.mem := rfl
@[simp] theorem State.modLink_poison (s : State) (l : Nat) (f : Link → Link) : (s.modLink l f).poison = s.poison := rfl
@[simp] theorem State.modLink_barm (s : State) (l : Nat) (f : Link → Link) : (s.modLink l f).barm = s.barm := rfl
@[simp] theorem State.modLink_msix (s : State) (l : Nat) (f : Link → Link) : (s.modLink l f).msix = s.msix := rfl
@[simp] theorem State.modLink_nextId (s : State) (l : Nat) (f : Link → Link) : (s.modLink l f).nextId = s.nextId := rfl

@[simp] theorem State.modDev_cur (s : State) (d : Nat) (f : Dev → Dev) : (s.modDev d f).cur = s.cur := rfl
@[simp] theorem State.modDev_agenda (s : State) (d : Nat) (f : Dev → Dev) : (s.modDev d f).agenda = s.agenda := rfl
@[simp] theorem State.modDev_fresh (s : State) (d : Nat) (f : Dev → Dev) : (s.modDev d f).fresh = s.fresh := rfl
@[simp] theorem State.modDev_cycle (s : State) (d : Nat) (f : Dev → Dev) : (s.modDev d f).cycle = s.cycle := rfl
@[simp] theorem State.modDev_pkg (s : State) (d : Nat) (f : Dev → Dev) : (s.modDev d f).pkg = s.pkg := rfl
@[simp] theorem State.modDev_ports (s : State) (d : Nat) (f : Dev → Dev) : (s.modDev d f).ports = s.ports := rfl
@[simp] theorem State.modDev_fdies (s : State) (d : Nat) (f : Dev → Dev) : (s.modDev d f).fdies = s.fdies := rfl
@[simp] theorem State.modDev_cdies (s : State) (d : Nat) (f : Dev → Dev) : (s.modDev d f).cdies = s.cdies := rfl
@[simp] theorem State.modDev_links (s : State) (d : Nat) (f : Dev → Dev) : (s.modDev d f).links = s.links := rfl
@[simp] theorem State.modDev_cores (s : State) (d : Nat) (f : Dev → Dev) : (s.modDev d f).cores = s.cores := rfl
@[simp] theorem State.modDev_ctxs (s : State) (d : Nat) (f : Dev → Dev) : (s.modDev d f).ctxs = s.ctxs := rfl
@[simp] theorem State.modDev_queues (s : State) (d : Nat) (f : Dev → Dev) : (s.modDev d f).queues = s.queues := rfl
@[simp] theorem State.modDev_grids (s : State) (d : Nat) (f : Dev → Dev) : (s.modDev d f).grids = s.grids := rfl
@[simp] theorem State.modDev_spans (s : State) (d : Nat) (f : Dev → Dev) : (s.modDev d f).spans = s.spans := rfl
@[simp] theorem State.modDev_cursors (s : State) (d : Nat) (f : Dev → Dev) : (s.modDev d f).cursors = s.cursors := rfl
@[simp] theorem State.modDev_teams (s : State) (d : Nat) (f : Dev → Dev) : (s.modDev d f).teams = s.teams := rfl
@[simp] theorem State.modDev_engines (s : State) (d : Nat) (f : Dev → Dev) : (s.modDev d f).engines = s.engines := rfl
@[simp] theorem State.modDev_ringLast (s : State) (d : Nat) (f : Dev → Dev) : (s.modDev d f).ringLast = s.ringLast := rfl
@[simp] theorem State.modDev_mirrors (s : State) (d : Nat) (f : Dev → Dev) : (s.modDev d f).mirrors = s.mirrors := rfl
@[simp] theorem State.modDev_dir (s : State) (d : Nat) (f : Dev → Dev) : (s.modDev d f).dir = s.dir := rfl
@[simp] theorem State.modDev_tlb (s : State) (d : Nat) (f : Dev → Dev) : (s.modDev d f).tlb = s.tlb := rfl
@[simp] theorem State.modDev_mem (s : State) (d : Nat) (f : Dev → Dev) : (s.modDev d f).mem = s.mem := rfl
@[simp] theorem State.modDev_poison (s : State) (d : Nat) (f : Dev → Dev) : (s.modDev d f).poison = s.poison := rfl
@[simp] theorem State.modDev_barm (s : State) (d : Nat) (f : Dev → Dev) : (s.modDev d f).barm = s.barm := rfl
@[simp] theorem State.modDev_msix (s : State) (d : Nat) (f : Dev → Dev) : (s.modDev d f).msix = s.msix := rfl
@[simp] theorem State.modDev_nextId (s : State) (d : Nat) (f : Dev → Dev) : (s.modDev d f).nextId = s.nextId := rfl

@[simp] theorem State.modCtx_cur (s : State) (c : Nat) (f : Ctx → Ctx) : (s.modCtx c f).cur = s.cur := rfl
@[simp] theorem State.modCtx_agenda (s : State) (c : Nat) (f : Ctx → Ctx) : (s.modCtx c f).agenda = s.agenda := rfl
@[simp] theorem State.modCtx_fresh (s : State) (c : Nat) (f : Ctx → Ctx) : (s.modCtx c f).fresh = s.fresh := rfl
@[simp] theorem State.modCtx_cycle (s : State) (c : Nat) (f : Ctx → Ctx) : (s.modCtx c f).cycle = s.cycle := rfl
@[simp] theorem State.modCtx_pkg (s : State) (c : Nat) (f : Ctx → Ctx) : (s.modCtx c f).pkg = s.pkg := rfl
@[simp] theorem State.modCtx_ports (s : State) (c : Nat) (f : Ctx → Ctx) : (s.modCtx c f).ports = s.ports := rfl
@[simp] theorem State.modCtx_devs (s : State) (c : Nat) (f : Ctx → Ctx) : (s.modCtx c f).devs = s.devs := rfl
@[simp] theorem State.modCtx_fdies (s : State) (c : Nat) (f : Ctx → Ctx) : (s.modCtx c f).fdies = s.fdies := rfl
@[simp] theorem State.modCtx_cdies (s : State) (c : Nat) (f : Ctx → Ctx) : (s.modCtx c f).cdies = s.cdies := rfl
@[simp] theorem State.modCtx_links (s : State) (c : Nat) (f : Ctx → Ctx) : (s.modCtx c f).links = s.links := rfl
@[simp] theorem State.modCtx_cores (s : State) (c : Nat) (f : Ctx → Ctx) : (s.modCtx c f).cores = s.cores := rfl
@[simp] theorem State.modCtx_queues (s : State) (c : Nat) (f : Ctx → Ctx) : (s.modCtx c f).queues = s.queues := rfl
@[simp] theorem State.modCtx_grids (s : State) (c : Nat) (f : Ctx → Ctx) : (s.modCtx c f).grids = s.grids := rfl
@[simp] theorem State.modCtx_spans (s : State) (c : Nat) (f : Ctx → Ctx) : (s.modCtx c f).spans = s.spans := rfl
@[simp] theorem State.modCtx_cursors (s : State) (c : Nat) (f : Ctx → Ctx) : (s.modCtx c f).cursors = s.cursors := rfl
@[simp] theorem State.modCtx_teams (s : State) (c : Nat) (f : Ctx → Ctx) : (s.modCtx c f).teams = s.teams := rfl
@[simp] theorem State.modCtx_engines (s : State) (c : Nat) (f : Ctx → Ctx) : (s.modCtx c f).engines = s.engines := rfl
@[simp] theorem State.modCtx_ringLast (s : State) (c : Nat) (f : Ctx → Ctx) : (s.modCtx c f).ringLast = s.ringLast := rfl
@[simp] theorem State.modCtx_mirrors (s : State) (c : Nat) (f : Ctx → Ctx) : (s.modCtx c f).mirrors = s.mirrors := rfl
@[simp] theorem State.modCtx_dir (s : State) (c : Nat) (f : Ctx → Ctx) : (s.modCtx c f).dir = s.dir := rfl
@[simp] theorem State.modCtx_tlb (s : State) (c : Nat) (f : Ctx → Ctx) : (s.modCtx c f).tlb = s.tlb := rfl
@[simp] theorem State.modCtx_mem (s : State) (c : Nat) (f : Ctx → Ctx) : (s.modCtx c f).mem = s.mem := rfl
@[simp] theorem State.modCtx_poison (s : State) (c : Nat) (f : Ctx → Ctx) : (s.modCtx c f).poison = s.poison := rfl
@[simp] theorem State.modCtx_barm (s : State) (c : Nat) (f : Ctx → Ctx) : (s.modCtx c f).barm = s.barm := rfl
@[simp] theorem State.modCtx_msix (s : State) (c : Nat) (f : Ctx → Ctx) : (s.modCtx c f).msix = s.msix := rfl
@[simp] theorem State.modCtx_nextId (s : State) (c : Nat) (f : Ctx → Ctx) : (s.modCtx c f).nextId = s.nextId := rfl

@[simp] theorem State.modGrid_cur (s : State) (g : Nat) (f : Grid → Grid) : (s.modGrid g f).cur = s.cur := rfl
@[simp] theorem State.modGrid_agenda (s : State) (g : Nat) (f : Grid → Grid) : (s.modGrid g f).agenda = s.agenda := rfl
@[simp] theorem State.modGrid_fresh (s : State) (g : Nat) (f : Grid → Grid) : (s.modGrid g f).fresh = s.fresh := rfl
@[simp] theorem State.modGrid_cycle (s : State) (g : Nat) (f : Grid → Grid) : (s.modGrid g f).cycle = s.cycle := rfl
@[simp] theorem State.modGrid_pkg (s : State) (g : Nat) (f : Grid → Grid) : (s.modGrid g f).pkg = s.pkg := rfl
@[simp] theorem State.modGrid_ports (s : State) (g : Nat) (f : Grid → Grid) : (s.modGrid g f).ports = s.ports := rfl
@[simp] theorem State.modGrid_devs (s : State) (g : Nat) (f : Grid → Grid) : (s.modGrid g f).devs = s.devs := rfl
@[simp] theorem State.modGrid_fdies (s : State) (g : Nat) (f : Grid → Grid) : (s.modGrid g f).fdies = s.fdies := rfl
@[simp] theorem State.modGrid_cdies (s : State) (g : Nat) (f : Grid → Grid) : (s.modGrid g f).cdies = s.cdies := rfl
@[simp] theorem State.modGrid_links (s : State) (g : Nat) (f : Grid → Grid) : (s.modGrid g f).links = s.links := rfl
@[simp] theorem State.modGrid_cores (s : State) (g : Nat) (f : Grid → Grid) : (s.modGrid g f).cores = s.cores := rfl
@[simp] theorem State.modGrid_ctxs (s : State) (g : Nat) (f : Grid → Grid) : (s.modGrid g f).ctxs = s.ctxs := rfl
@[simp] theorem State.modGrid_queues (s : State) (g : Nat) (f : Grid → Grid) : (s.modGrid g f).queues = s.queues := rfl
@[simp] theorem State.modGrid_spans (s : State) (g : Nat) (f : Grid → Grid) : (s.modGrid g f).spans = s.spans := rfl
@[simp] theorem State.modGrid_cursors (s : State) (g : Nat) (f : Grid → Grid) : (s.modGrid g f).cursors = s.cursors := rfl
@[simp] theorem State.modGrid_teams (s : State) (g : Nat) (f : Grid → Grid) : (s.modGrid g f).teams = s.teams := rfl
@[simp] theorem State.modGrid_engines (s : State) (g : Nat) (f : Grid → Grid) : (s.modGrid g f).engines = s.engines := rfl
@[simp] theorem State.modGrid_ringLast (s : State) (g : Nat) (f : Grid → Grid) : (s.modGrid g f).ringLast = s.ringLast := rfl
@[simp] theorem State.modGrid_mirrors (s : State) (g : Nat) (f : Grid → Grid) : (s.modGrid g f).mirrors = s.mirrors := rfl
@[simp] theorem State.modGrid_dir (s : State) (g : Nat) (f : Grid → Grid) : (s.modGrid g f).dir = s.dir := rfl
@[simp] theorem State.modGrid_tlb (s : State) (g : Nat) (f : Grid → Grid) : (s.modGrid g f).tlb = s.tlb := rfl
@[simp] theorem State.modGrid_mem (s : State) (g : Nat) (f : Grid → Grid) : (s.modGrid g f).mem = s.mem := rfl
@[simp] theorem State.modGrid_poison (s : State) (g : Nat) (f : Grid → Grid) : (s.modGrid g f).poison = s.poison := rfl
@[simp] theorem State.modGrid_barm (s : State) (g : Nat) (f : Grid → Grid) : (s.modGrid g f).barm = s.barm := rfl
@[simp] theorem State.modGrid_msix (s : State) (g : Nat) (f : Grid → Grid) : (s.modGrid g f).msix = s.msix := rfl
@[simp] theorem State.modGrid_nextId (s : State) (g : Nat) (f : Grid → Grid) : (s.modGrid g f).nextId = s.nextId := rfl

@[simp] theorem State.modTeam_cur (s : State) (t : Nat) (f : Team → Team) : (s.modTeam t f).cur = s.cur := rfl
@[simp] theorem State.modTeam_agenda (s : State) (t : Nat) (f : Team → Team) : (s.modTeam t f).agenda = s.agenda := rfl
@[simp] theorem State.modTeam_fresh (s : State) (t : Nat) (f : Team → Team) : (s.modTeam t f).fresh = s.fresh := rfl
@[simp] theorem State.modTeam_cycle (s : State) (t : Nat) (f : Team → Team) : (s.modTeam t f).cycle = s.cycle := rfl
@[simp] theorem State.modTeam_pkg (s : State) (t : Nat) (f : Team → Team) : (s.modTeam t f).pkg = s.pkg := rfl
@[simp] theorem State.modTeam_ports (s : State) (t : Nat) (f : Team → Team) : (s.modTeam t f).ports = s.ports := rfl
@[simp] theorem State.modTeam_devs (s : State) (t : Nat) (f : Team → Team) : (s.modTeam t f).devs = s.devs := rfl
@[simp] theorem State.modTeam_fdies (s : State) (t : Nat) (f : Team → Team) : (s.modTeam t f).fdies = s.fdies := rfl
@[simp] theorem State.modTeam_cdies (s : State) (t : Nat) (f : Team → Team) : (s.modTeam t f).cdies = s.cdies := rfl
@[simp] theorem State.modTeam_links (s : State) (t : Nat) (f : Team → Team) : (s.modTeam t f).links = s.links := rfl
@[simp] theorem State.modTeam_cores (s : State) (t : Nat) (f : Team → Team) : (s.modTeam t f).cores = s.cores := rfl
@[simp] theorem State.modTeam_ctxs (s : State) (t : Nat) (f : Team → Team) : (s.modTeam t f).ctxs = s.ctxs := rfl
@[simp] theorem State.modTeam_queues (s : State) (t : Nat) (f : Team → Team) : (s.modTeam t f).queues = s.queues := rfl
@[simp] theorem State.modTeam_grids (s : State) (t : Nat) (f : Team → Team) : (s.modTeam t f).grids = s.grids := rfl
@[simp] theorem State.modTeam_spans (s : State) (t : Nat) (f : Team → Team) : (s.modTeam t f).spans = s.spans := rfl
@[simp] theorem State.modTeam_cursors (s : State) (t : Nat) (f : Team → Team) : (s.modTeam t f).cursors = s.cursors := rfl
@[simp] theorem State.modTeam_engines (s : State) (t : Nat) (f : Team → Team) : (s.modTeam t f).engines = s.engines := rfl
@[simp] theorem State.modTeam_ringLast (s : State) (t : Nat) (f : Team → Team) : (s.modTeam t f).ringLast = s.ringLast := rfl
@[simp] theorem State.modTeam_mirrors (s : State) (t : Nat) (f : Team → Team) : (s.modTeam t f).mirrors = s.mirrors := rfl
@[simp] theorem State.modTeam_dir (s : State) (t : Nat) (f : Team → Team) : (s.modTeam t f).dir = s.dir := rfl
@[simp] theorem State.modTeam_tlb (s : State) (t : Nat) (f : Team → Team) : (s.modTeam t f).tlb = s.tlb := rfl
@[simp] theorem State.modTeam_mem (s : State) (t : Nat) (f : Team → Team) : (s.modTeam t f).mem = s.mem := rfl
@[simp] theorem State.modTeam_poison (s : State) (t : Nat) (f : Team → Team) : (s.modTeam t f).poison = s.poison := rfl
@[simp] theorem State.modTeam_barm (s : State) (t : Nat) (f : Team → Team) : (s.modTeam t f).barm = s.barm := rfl
@[simp] theorem State.modTeam_msix (s : State) (t : Nat) (f : Team → Team) : (s.modTeam t f).msix = s.msix := rfl
@[simp] theorem State.modTeam_nextId (s : State) (t : Nat) (f : Team → Team) : (s.modTeam t f).nextId = s.nextId := rfl

@[simp] theorem State.modSpan_cur (s : State) (i : Nat) (f : Span → Span) : (s.modSpan i f).cur = s.cur := rfl
@[simp] theorem State.modSpan_agenda (s : State) (i : Nat) (f : Span → Span) : (s.modSpan i f).agenda = s.agenda := rfl
@[simp] theorem State.modSpan_fresh (s : State) (i : Nat) (f : Span → Span) : (s.modSpan i f).fresh = s.fresh := rfl
@[simp] theorem State.modSpan_cycle (s : State) (i : Nat) (f : Span → Span) : (s.modSpan i f).cycle = s.cycle := rfl
@[simp] theorem State.modSpan_pkg (s : State) (i : Nat) (f : Span → Span) : (s.modSpan i f).pkg = s.pkg := rfl
@[simp] theorem State.modSpan_ports (s : State) (i : Nat) (f : Span → Span) : (s.modSpan i f).ports = s.ports := rfl
@[simp] theorem State.modSpan_devs (s : State) (i : Nat) (f : Span → Span) : (s.modSpan i f).devs = s.devs := rfl
@[simp] theorem State.modSpan_fdies (s : State) (i : Nat) (f : Span → Span) : (s.modSpan i f).fdies = s.fdies := rfl
@[simp] theorem State.modSpan_cdies (s : State) (i : Nat) (f : Span → Span) : (s.modSpan i f).cdies = s.cdies := rfl
@[simp] theorem State.modSpan_links (s : State) (i : Nat) (f : Span → Span) : (s.modSpan i f).links = s.links := rfl
@[simp] theorem State.modSpan_cores (s : State) (i : Nat) (f : Span → Span) : (s.modSpan i f).cores = s.cores := rfl
@[simp] theorem State.modSpan_ctxs (s : State) (i : Nat) (f : Span → Span) : (s.modSpan i f).ctxs = s.ctxs := rfl
@[simp] theorem State.modSpan_queues (s : State) (i : Nat) (f : Span → Span) : (s.modSpan i f).queues = s.queues := rfl
@[simp] theorem State.modSpan_grids (s : State) (i : Nat) (f : Span → Span) : (s.modSpan i f).grids = s.grids := rfl
@[simp] theorem State.modSpan_cursors (s : State) (i : Nat) (f : Span → Span) : (s.modSpan i f).cursors = s.cursors := rfl
@[simp] theorem State.modSpan_teams (s : State) (i : Nat) (f : Span → Span) : (s.modSpan i f).teams = s.teams := rfl
@[simp] theorem State.modSpan_engines (s : State) (i : Nat) (f : Span → Span) : (s.modSpan i f).engines = s.engines := rfl
@[simp] theorem State.modSpan_ringLast (s : State) (i : Nat) (f : Span → Span) : (s.modSpan i f).ringLast = s.ringLast := rfl
@[simp] theorem State.modSpan_mirrors (s : State) (i : Nat) (f : Span → Span) : (s.modSpan i f).mirrors = s.mirrors := rfl
@[simp] theorem State.modSpan_dir (s : State) (i : Nat) (f : Span → Span) : (s.modSpan i f).dir = s.dir := rfl
@[simp] theorem State.modSpan_tlb (s : State) (i : Nat) (f : Span → Span) : (s.modSpan i f).tlb = s.tlb := rfl
@[simp] theorem State.modSpan_mem (s : State) (i : Nat) (f : Span → Span) : (s.modSpan i f).mem = s.mem := rfl
@[simp] theorem State.modSpan_poison (s : State) (i : Nat) (f : Span → Span) : (s.modSpan i f).poison = s.poison := rfl
@[simp] theorem State.modSpan_barm (s : State) (i : Nat) (f : Span → Span) : (s.modSpan i f).barm = s.barm := rfl
@[simp] theorem State.modSpan_msix (s : State) (i : Nat) (f : Span → Span) : (s.modSpan i f).msix = s.msix := rfl
@[simp] theorem State.modSpan_nextId (s : State) (i : Nat) (f : Span → Span) : (s.modSpan i f).nextId = s.nextId := rfl

@[simp] theorem State.modQueue_cur (s : State) (q : Nat) (f : Queue → Queue) : (s.modQueue q f).cur = s.cur := rfl
@[simp] theorem State.modQueue_agenda (s : State) (q : Nat) (f : Queue → Queue) : (s.modQueue q f).agenda = s.agenda := rfl
@[simp] theorem State.modQueue_fresh (s : State) (q : Nat) (f : Queue → Queue) : (s.modQueue q f).fresh = s.fresh := rfl
@[simp] theorem State.modQueue_cycle (s : State) (q : Nat) (f : Queue → Queue) : (s.modQueue q f).cycle = s.cycle := rfl
@[simp] theorem State.modQueue_pkg (s : State) (q : Nat) (f : Queue → Queue) : (s.modQueue q f).pkg = s.pkg := rfl
@[simp] theorem State.modQueue_ports (s : State) (q : Nat) (f : Queue → Queue) : (s.modQueue q f).ports = s.ports := rfl
@[simp] theorem State.modQueue_devs (s : State) (q : Nat) (f : Queue → Queue) : (s.modQueue q f).devs = s.devs := rfl
@[simp] theorem State.modQueue_fdies (s : State) (q : Nat) (f : Queue → Queue) : (s.modQueue q f).fdies = s.fdies := rfl
@[simp] theorem State.modQueue_cdies (s : State) (q : Nat) (f : Queue → Queue) : (s.modQueue q f).cdies = s.cdies := rfl
@[simp] theorem State.modQueue_links (s : State) (q : Nat) (f : Queue → Queue) : (s.modQueue q f).links = s.links := rfl
@[simp] theorem State.modQueue_cores (s : State) (q : Nat) (f : Queue → Queue) : (s.modQueue q f).cores = s.cores := rfl
@[simp] theorem State.modQueue_ctxs (s : State) (q : Nat) (f : Queue → Queue) : (s.modQueue q f).ctxs = s.ctxs := rfl
@[simp] theorem State.modQueue_grids (s : State) (q : Nat) (f : Queue → Queue) : (s.modQueue q f).grids = s.grids := rfl
@[simp] theorem State.modQueue_spans (s : State) (q : Nat) (f : Queue → Queue) : (s.modQueue q f).spans = s.spans := rfl
@[simp] theorem State.modQueue_cursors (s : State) (q : Nat) (f : Queue → Queue) : (s.modQueue q f).cursors = s.cursors := rfl
@[simp] theorem State.modQueue_teams (s : State) (q : Nat) (f : Queue → Queue) : (s.modQueue q f).teams = s.teams := rfl
@[simp] theorem State.modQueue_engines (s : State) (q : Nat) (f : Queue → Queue) : (s.modQueue q f).engines = s.engines := rfl
@[simp] theorem State.modQueue_ringLast (s : State) (q : Nat) (f : Queue → Queue) : (s.modQueue q f).ringLast = s.ringLast := rfl
@[simp] theorem State.modQueue_mirrors (s : State) (q : Nat) (f : Queue → Queue) : (s.modQueue q f).mirrors = s.mirrors := rfl
@[simp] theorem State.modQueue_dir (s : State) (q : Nat) (f : Queue → Queue) : (s.modQueue q f).dir = s.dir := rfl
@[simp] theorem State.modQueue_tlb (s : State) (q : Nat) (f : Queue → Queue) : (s.modQueue q f).tlb = s.tlb := rfl
@[simp] theorem State.modQueue_mem (s : State) (q : Nat) (f : Queue → Queue) : (s.modQueue q f).mem = s.mem := rfl
@[simp] theorem State.modQueue_poison (s : State) (q : Nat) (f : Queue → Queue) : (s.modQueue q f).poison = s.poison := rfl
@[simp] theorem State.modQueue_barm (s : State) (q : Nat) (f : Queue → Queue) : (s.modQueue q f).barm = s.barm := rfl
@[simp] theorem State.modQueue_msix (s : State) (q : Nat) (f : Queue → Queue) : (s.modQueue q f).msix = s.msix := rfl
@[simp] theorem State.modQueue_nextId (s : State) (q : Nat) (f : Queue → Queue) : (s.modQueue q f).nextId = s.nextId := rfl

@[simp] theorem State.modWave_cur (s : State) (t w : Nat) (f : Wave → Wave) : (s.modWave t w f).cur = s.cur := rfl
@[simp] theorem State.modWave_agenda (s : State) (t w : Nat) (f : Wave → Wave) : (s.modWave t w f).agenda = s.agenda := rfl
@[simp] theorem State.modWave_fresh (s : State) (t w : Nat) (f : Wave → Wave) : (s.modWave t w f).fresh = s.fresh := rfl
@[simp] theorem State.modWave_cycle (s : State) (t w : Nat) (f : Wave → Wave) : (s.modWave t w f).cycle = s.cycle := rfl
@[simp] theorem State.modWave_pkg (s : State) (t w : Nat) (f : Wave → Wave) : (s.modWave t w f).pkg = s.pkg := rfl
@[simp] theorem State.modWave_ports (s : State) (t w : Nat) (f : Wave → Wave) : (s.modWave t w f).ports = s.ports := rfl
@[simp] theorem State.modWave_devs (s : State) (t w : Nat) (f : Wave → Wave) : (s.modWave t w f).devs = s.devs := rfl
@[simp] theorem State.modWave_fdies (s : State) (t w : Nat) (f : Wave → Wave) : (s.modWave t w f).fdies = s.fdies := rfl
@[simp] theorem State.modWave_cdies (s : State) (t w : Nat) (f : Wave → Wave) : (s.modWave t w f).cdies = s.cdies := rfl
@[simp] theorem State.modWave_links (s : State) (t w : Nat) (f : Wave → Wave) : (s.modWave t w f).links = s.links := rfl
@[simp] theorem State.modWave_cores (s : State) (t w : Nat) (f : Wave → Wave) : (s.modWave t w f).cores = s.cores := rfl
@[simp] theorem State.modWave_ctxs (s : State) (t w : Nat) (f : Wave → Wave) : (s.modWave t w f).ctxs = s.ctxs := rfl
@[simp] theorem State.modWave_queues (s : State) (t w : Nat) (f : Wave → Wave) : (s.modWave t w f).queues = s.queues := rfl
@[simp] theorem State.modWave_grids (s : State) (t w : Nat) (f : Wave → Wave) : (s.modWave t w f).grids = s.grids := rfl
@[simp] theorem State.modWave_spans (s : State) (t w : Nat) (f : Wave → Wave) : (s.modWave t w f).spans = s.spans := rfl
@[simp] theorem State.modWave_cursors (s : State) (t w : Nat) (f : Wave → Wave) : (s.modWave t w f).cursors = s.cursors := rfl
@[simp] theorem State.modWave_engines (s : State) (t w : Nat) (f : Wave → Wave) : (s.modWave t w f).engines = s.engines := rfl
@[simp] theorem State.modWave_ringLast (s : State) (t w : Nat) (f : Wave → Wave) : (s.modWave t w f).ringLast = s.ringLast := rfl
@[simp] theorem State.modWave_mirrors (s : State) (t w : Nat) (f : Wave → Wave) : (s.modWave t w f).mirrors = s.mirrors := rfl
@[simp] theorem State.modWave_dir (s : State) (t w : Nat) (f : Wave → Wave) : (s.modWave t w f).dir = s.dir := rfl
@[simp] theorem State.modWave_tlb (s : State) (t w : Nat) (f : Wave → Wave) : (s.modWave t w f).tlb = s.tlb := rfl
@[simp] theorem State.modWave_mem (s : State) (t w : Nat) (f : Wave → Wave) : (s.modWave t w f).mem = s.mem := rfl
@[simp] theorem State.modWave_poison (s : State) (t w : Nat) (f : Wave → Wave) : (s.modWave t w f).poison = s.poison := rfl
@[simp] theorem State.modWave_barm (s : State) (t w : Nat) (f : Wave → Wave) : (s.modWave t w f).barm = s.barm := rfl
@[simp] theorem State.modWave_msix (s : State) (t w : Nat) (f : Wave → Wave) : (s.modWave t w f).msix = s.msix := rfl
@[simp] theorem State.modWave_nextId (s : State) (t w : Nat) (f : Wave → Wave) : (s.modWave t w f).nextId = s.nextId := rfl

@[simp] theorem State.modSub_cur (s : State) (t w k : Nat) (f : SubWave → SubWave) : (s.modSub t w k f).cur = s.cur := rfl
@[simp] theorem State.modSub_agenda (s : State) (t w k : Nat) (f : SubWave → SubWave) : (s.modSub t w k f).agenda = s.agenda := rfl
@[simp] theorem State.modSub_fresh (s : State) (t w k : Nat) (f : SubWave → SubWave) : (s.modSub t w k f).fresh = s.fresh := rfl
@[simp] theorem State.modSub_cycle (s : State) (t w k : Nat) (f : SubWave → SubWave) : (s.modSub t w k f).cycle = s.cycle := rfl
@[simp] theorem State.modSub_pkg (s : State) (t w k : Nat) (f : SubWave → SubWave) : (s.modSub t w k f).pkg = s.pkg := rfl
@[simp] theorem State.modSub_ports (s : State) (t w k : Nat) (f : SubWave → SubWave) : (s.modSub t w k f).ports = s.ports := rfl
@[simp] theorem State.modSub_devs (s : State) (t w k : Nat) (f : SubWave → SubWave) : (s.modSub t w k f).devs = s.devs := rfl
@[simp] theorem State.modSub_fdies (s : State) (t w k : Nat) (f : SubWave → SubWave) : (s.modSub t w k f).fdies = s.fdies := rfl
@[simp] theorem State.modSub_cdies (s : State) (t w k : Nat) (f : SubWave → SubWave) : (s.modSub t w k f).cdies = s.cdies := rfl
@[simp] theorem State.modSub_links (s : State) (t w k : Nat) (f : SubWave → SubWave) : (s.modSub t w k f).links = s.links := rfl
@[simp] theorem State.modSub_cores (s : State) (t w k : Nat) (f : SubWave → SubWave) : (s.modSub t w k f).cores = s.cores := rfl
@[simp] theorem State.modSub_ctxs (s : State) (t w k : Nat) (f : SubWave → SubWave) : (s.modSub t w k f).ctxs = s.ctxs := rfl
@[simp] theorem State.modSub_queues (s : State) (t w k : Nat) (f : SubWave → SubWave) : (s.modSub t w k f).queues = s.queues := rfl
@[simp] theorem State.modSub_grids (s : State) (t w k : Nat) (f : SubWave → SubWave) : (s.modSub t w k f).grids = s.grids := rfl
@[simp] theorem State.modSub_spans (s : State) (t w k : Nat) (f : SubWave → SubWave) : (s.modSub t w k f).spans = s.spans := rfl
@[simp] theorem State.modSub_cursors (s : State) (t w k : Nat) (f : SubWave → SubWave) : (s.modSub t w k f).cursors = s.cursors := rfl
@[simp] theorem State.modSub_engines (s : State) (t w k : Nat) (f : SubWave → SubWave) : (s.modSub t w k f).engines = s.engines := rfl
@[simp] theorem State.modSub_ringLast (s : State) (t w k : Nat) (f : SubWave → SubWave) : (s.modSub t w k f).ringLast = s.ringLast := rfl
@[simp] theorem State.modSub_mirrors (s : State) (t w k : Nat) (f : SubWave → SubWave) : (s.modSub t w k f).mirrors = s.mirrors := rfl
@[simp] theorem State.modSub_dir (s : State) (t w k : Nat) (f : SubWave → SubWave) : (s.modSub t w k f).dir = s.dir := rfl
@[simp] theorem State.modSub_tlb (s : State) (t w k : Nat) (f : SubWave → SubWave) : (s.modSub t w k f).tlb = s.tlb := rfl
@[simp] theorem State.modSub_mem (s : State) (t w k : Nat) (f : SubWave → SubWave) : (s.modSub t w k f).mem = s.mem := rfl
@[simp] theorem State.modSub_poison (s : State) (t w k : Nat) (f : SubWave → SubWave) : (s.modSub t w k f).poison = s.poison := rfl
@[simp] theorem State.modSub_barm (s : State) (t w k : Nat) (f : SubWave → SubWave) : (s.modSub t w k f).barm = s.barm := rfl
@[simp] theorem State.modSub_msix (s : State) (t w k : Nat) (f : SubWave → SubWave) : (s.modSub t w k f).msix = s.msix := rfl
@[simp] theorem State.modSub_nextId (s : State) (t w k : Nat) (f : SubWave → SubWave) : (s.modSub t w k f).nextId = s.nextId := rfl

@[simp] theorem State.bump_cur (s : State) : (s.bump).cur = s.cur := rfl
@[simp] theorem State.bump_agenda (s : State) : (s.bump).agenda = s.agenda := rfl
@[simp] theorem State.bump_cycle (s : State) : (s.bump).cycle = s.cycle := rfl
@[simp] theorem State.bump_pkg (s : State) : (s.bump).pkg = s.pkg := rfl
@[simp] theorem State.bump_ports (s : State) : (s.bump).ports = s.ports := rfl
@[simp] theorem State.bump_devs (s : State) : (s.bump).devs = s.devs := rfl
@[simp] theorem State.bump_fdies (s : State) : (s.bump).fdies = s.fdies := rfl
@[simp] theorem State.bump_cdies (s : State) : (s.bump).cdies = s.cdies := rfl
@[simp] theorem State.bump_links (s : State) : (s.bump).links = s.links := rfl
@[simp] theorem State.bump_cores (s : State) : (s.bump).cores = s.cores := rfl
@[simp] theorem State.bump_ctxs (s : State) : (s.bump).ctxs = s.ctxs := rfl
@[simp] theorem State.bump_queues (s : State) : (s.bump).queues = s.queues := rfl
@[simp] theorem State.bump_grids (s : State) : (s.bump).grids = s.grids := rfl
@[simp] theorem State.bump_spans (s : State) : (s.bump).spans = s.spans := rfl
@[simp] theorem State.bump_cursors (s : State) : (s.bump).cursors = s.cursors := rfl
@[simp] theorem State.bump_teams (s : State) : (s.bump).teams = s.teams := rfl
@[simp] theorem State.bump_engines (s : State) : (s.bump).engines = s.engines := rfl
@[simp] theorem State.bump_ringLast (s : State) : (s.bump).ringLast = s.ringLast := rfl
@[simp] theorem State.bump_mirrors (s : State) : (s.bump).mirrors = s.mirrors := rfl
@[simp] theorem State.bump_dir (s : State) : (s.bump).dir = s.dir := rfl
@[simp] theorem State.bump_tlb (s : State) : (s.bump).tlb = s.tlb := rfl
@[simp] theorem State.bump_mem (s : State) : (s.bump).mem = s.mem := rfl
@[simp] theorem State.bump_poison (s : State) : (s.bump).poison = s.poison := rfl
@[simp] theorem State.bump_barm (s : State) : (s.bump).barm = s.barm := rfl
@[simp] theorem State.bump_msix (s : State) : (s.bump).msix = s.msix := rfl
@[simp] theorem State.bump_nextId (s : State) : (s.bump).nextId = s.nextId := rfl

@[simp] theorem State.releasePort_cur (s : State) (c : Nat) (f : Focus) : (s.releasePort c f).cur = s.cur := rfl
@[simp] theorem State.releasePort_agenda (s : State) (c : Nat) (f : Focus) : (s.releasePort c f).agenda = s.agenda := rfl
@[simp] theorem State.releasePort_fresh (s : State) (c : Nat) (f : Focus) : (s.releasePort c f).fresh = s.fresh := rfl
@[simp] theorem State.releasePort_cycle (s : State) (c : Nat) (f : Focus) : (s.releasePort c f).cycle = s.cycle := rfl
@[simp] theorem State.releasePort_pkg (s : State) (c : Nat) (f : Focus) : (s.releasePort c f).pkg = s.pkg := rfl
@[simp] theorem State.releasePort_ports (s : State) (c : Nat) (f : Focus) : (s.releasePort c f).ports = s.ports := rfl
@[simp] theorem State.releasePort_devs (s : State) (c : Nat) (f : Focus) : (s.releasePort c f).devs = s.devs := rfl
@[simp] theorem State.releasePort_fdies (s : State) (c : Nat) (f : Focus) : (s.releasePort c f).fdies = s.fdies := rfl
@[simp] theorem State.releasePort_cdies (s : State) (c : Nat) (f : Focus) : (s.releasePort c f).cdies = s.cdies := rfl
@[simp] theorem State.releasePort_links (s : State) (c : Nat) (f : Focus) : (s.releasePort c f).links = s.links := rfl
@[simp] theorem State.releasePort_ctxs (s : State) (c : Nat) (f : Focus) : (s.releasePort c f).ctxs = s.ctxs := rfl
@[simp] theorem State.releasePort_queues (s : State) (c : Nat) (f : Focus) : (s.releasePort c f).queues = s.queues := rfl
@[simp] theorem State.releasePort_grids (s : State) (c : Nat) (f : Focus) : (s.releasePort c f).grids = s.grids := rfl
@[simp] theorem State.releasePort_spans (s : State) (c : Nat) (f : Focus) : (s.releasePort c f).spans = s.spans := rfl
@[simp] theorem State.releasePort_cursors (s : State) (c : Nat) (f : Focus) : (s.releasePort c f).cursors = s.cursors := rfl
@[simp] theorem State.releasePort_teams (s : State) (c : Nat) (f : Focus) : (s.releasePort c f).teams = s.teams := rfl
@[simp] theorem State.releasePort_engines (s : State) (c : Nat) (f : Focus) : (s.releasePort c f).engines = s.engines := rfl
@[simp] theorem State.releasePort_ringLast (s : State) (c : Nat) (f : Focus) : (s.releasePort c f).ringLast = s.ringLast := rfl
@[simp] theorem State.releasePort_mirrors (s : State) (c : Nat) (f : Focus) : (s.releasePort c f).mirrors = s.mirrors := rfl
@[simp] theorem State.releasePort_dir (s : State) (c : Nat) (f : Focus) : (s.releasePort c f).dir = s.dir := rfl
@[simp] theorem State.releasePort_tlb (s : State) (c : Nat) (f : Focus) : (s.releasePort c f).tlb = s.tlb := rfl
@[simp] theorem State.releasePort_mem (s : State) (c : Nat) (f : Focus) : (s.releasePort c f).mem = s.mem := rfl
@[simp] theorem State.releasePort_poison (s : State) (c : Nat) (f : Focus) : (s.releasePort c f).poison = s.poison := rfl
@[simp] theorem State.releasePort_barm (s : State) (c : Nat) (f : Focus) : (s.releasePort c f).barm = s.barm := rfl
@[simp] theorem State.releasePort_msix (s : State) (c : Nat) (f : Focus) : (s.releasePort c f).msix = s.msix := rfl
@[simp] theorem State.releasePort_nextId (s : State) (c : Nat) (f : Focus) : (s.releasePort c f).nextId = s.nextId := rfl

@[simp] theorem State.core_modCore_self (s : State) (c : Nat) (f : Core → Core) : (s.modCore c f).core c = f (s.core c) := by
  simp [State.core, State.modCore]

theorem State.core_modCore_ne (s : State) {c d : Nat} (f : Core → Core) (h : d ≠ c) : (s.modCore c f).core d = s.core d := by
  simp [State.core, State.modCore, Tbl.get?_set_ne _ _ h]

@[simp] theorem State.cdie_modCdie_self (s : State) (d : Nat) (f : CDie → CDie) : (s.modCdie d f).cdie d = f (s.cdie d) := by
  simp [State.cdie, State.modCdie]

theorem State.cdie_modCdie_ne (s : State) {c d : Nat} (f : CDie → CDie) (h : d ≠ c) : (s.modCdie c f).cdie d = s.cdie d := by
  simp [State.cdie, State.modCdie, Tbl.get?_set_ne _ _ h]

@[simp] theorem State.link_modLink_self (s : State) (l : Nat) (f : Link → Link) : (s.modLink l f).link l = f (s.link l) := by
  simp [State.link, State.modLink]

theorem State.link_modLink_ne (s : State) {c d : Nat} (f : Link → Link) (h : d ≠ c) : (s.modLink c f).link d = s.link d := by
  simp [State.link, State.modLink, Tbl.get?_set_ne _ _ h]

@[simp] theorem State.teams_modTeam_self (s : State) (t : Nat) (f : Team → Team) :
    (s.modTeam t f).teams.get? t = (s.teams.get? t).map f := by
  simp [State.modTeam]

theorem State.teams_modTeam_ne (s : State) {t k : Nat} (f : Team → Team) (h : k ≠ t) :
    (s.modTeam t f).teams.get? k = s.teams.get? k := by
  simp [State.modTeam, Tbl.get?_modify_ne _ _ h]

theorem State.teams_modWave_ne (s : State) {t k : Nat} (w : Nat) (f : Wave → Wave) (h : k ≠ t) :
    (s.modWave t w f).teams.get? k = s.teams.get? k := State.teams_modTeam_ne s _ h

@[simp] theorem State.wave?_modWave_self (s : State) (t w : Nat) (f : Wave → Wave) :
    (s.modWave t w f).wave? t w = (s.wave? t w).map f := by
  simp only [State.wave?, State.modWave, State.teams_modTeam_self]
  cases s.teams.get? t <;> simp [Team.modWave]

@[simp] theorem State.wave?_releasePort (s : State) (c : Nat) (f : Focus) (t w : Nat) :
    (s.releasePort c f).wave? t w = s.wave? t w := rfl

theorem State.core_releasePort (s : State) (c : Nat) (f : Focus) (d : Nat) :
    ∃ ps, (s.releasePort c f).core d = { s.core d with ports := ps } := by
  by_cases h : d = c
  · subst h
    exact ⟨(s.core d).ports.map fun p => if p.holder = some f then { p with holder := none } else p, by
      rw [State.releasePort, State.core_modCore_self]⟩
  · exact ⟨(s.core d).ports, by rw [State.releasePort, State.core_modCore_ne _ _ h]⟩

/-- A log entry changes the log and the number of the next entry alone. -/
theorem State.logEvent_pkg (s : State) (fnd : Nat) (e : LogEntry) :
    ∃ l k, (s.logEvent fnd e).pkg = { s.pkg with log := l, logSeq := k } := ⟨_, _, rfl⟩

theorem State.logEvent_deadSlices (s : State) (fnd : Nat) (e : LogEntry) :
    (s.logEvent fnd e).pkg.deadSlices = s.pkg.deadSlices := by
  obtain ⟨l, k, h⟩ := s.logEvent_pkg fnd e
  rw [h]

end Sys2Proof.Machine
end

