-- ==== Sys2Proof/Laws/Registers.lean ====
section
/-!
SUPPORT. What the writes, reads and releases of registers and predicates do (Machine/Ops.lean, Machine/Issue.lean),
each operation said once.
-/
namespace Sys2Proof.Machine
open Sys2Proof

theorem regKey_inj {a b d : Nat} (h : regKey a d = regKey b d) : a = b := by
  unfold regKey at h
  split at h <;> split at h <;> omega

/-- Two waves that differ at most in their register slots. -/
def Wave.RegsOnly (w w' : Wave) : Prop := w' = { w with vregs := w'.vregs, uregs := w'.uregs }

theorem Wave.RegsOnly.refl (w : Wave) : Wave.RegsOnly w w := rfl

theorem Wave.RegsOnly.trans {a b c : Wave} (h : Wave.RegsOnly a b) (g : Wave.RegsOnly b c) : Wave.RegsOnly a c := by
  unfold Wave.RegsOnly at *
  rw [g, h]

theorem Wave.RegsOnly.foldl {α : Type} (f : Wave → α → Wave) (h : ∀ w x, Wave.RegsOnly w (f w x)) (l : List α) (w : Wave) :
    Wave.RegsOnly w (l.foldl f w) := by
  induction l generalizing w with
  | nil => rfl
  | cons x r ih => exact (h w x).trans (ih _)

theorem Wave.vput_only (w : Wave) (d r : Nat) (m : Lanes) (f : Nat → W32) : Wave.RegsOnly w (w.vput d r m f) := by
  unfold Wave.vput; split <;> rfl

theorem Wave.uput_only (w : Wave) (d r : Nat) (v : W64) : Wave.RegsOnly w (w.uput d r v) := rfl

theorem Wave.vrel_only (w : Wave) (key : Nat) (m : Lanes) : Wave.RegsOnly w (w.vrel key m) := by
  unfold Wave.vrel; split <;> rfl

theorem Wave.urel_only (w : Wave) (key : Nat) (m : Lanes) : Wave.RegsOnly w (w.urel key m) := by
  unfold Wave.urel; split <;> rfl

theorem Wave.wr_only (w : Wave) (d : Nat) (r : RegRef) (m : Lanes) (f : Nat → Nat) : Wave.RegsOnly w (w.wr d r m f) := by
  unfold Wave.wr
  split
  · split
    · rfl
    · exact w.uput_only _ _ _
  · exact Wave.RegsOnly.foldl _ (fun w _ => w.vput_only _ _ _ _) _ _

theorem Wave.lastUse_only (w : Wave) (d : Nat) (rs : List RegRef) (m : Lanes) : Wave.RegsOnly w (w.lastUse d rs m) := by
  unfold Wave.lastUse
  refine Wave.RegsOnly.foldl _ (fun w r => ?_) _ _
  split
  · refine Wave.RegsOnly.foldl _ (fun w j => ?_) _ _
    split
    · exact w.urel_only _ _
    · exact w.vrel_only _ _
  · rfl

/-! ## What a slot holds afterwards -/

theorem Wave.vput_vregs_ne (w : Wave) (d r : Nat) (m : Lanes) (f : Nat → W32) {key : Nat} (h : regKey r d ≠ key) :
    (w.vput d r m f).vregs.get? key = w.vregs.get? key := by
  unfold Wave.vput
  split
  · rfl
  · exact Tbl.get?_set_ne _ _ (Ne.symm h)

@[simp] theorem Wave.vput_uregs (w : Wave) (d r : Nat) (m : Lanes) (f : Nat → W32) : (w.vput d r m f).uregs = w.uregs := by
  unfold Wave.vput; split <;> rfl

theorem Wave.vput_self (w : Wave) (d r : Nat) (m : Lanes) (f : Nat → W32) {i : Nat} (h : m.getLsbD i = true) :
    (w.vput d r m f).vget d r i = (f i, false) := by
  have hi : i < 16 := by
    by_contra hc
    simp [BitVec.getLsbD_of_ge m i (by omega)] at h
  have hm : m ≠ 0 := by rintro rfl; simp at h
  unfold Wave.vput Wave.vget
  simp only [hm, if_false, Tbl.get?_set_self, BitVec.getLsbD_or, h, Bool.or_true, if_true]
  congr 1
  interval_cases i <;> simp [laneList, h]

theorem Wave.vput_vget_ne (w : Wave) (d r q : Nat) (m : Lanes) (f : Nat → W32) (i : Nat) (h : q ≠ r) :
    (w.vput d r m f).vget d q i = w.vget d q i := by
  have hk : regKey r d ≠ regKey q d := fun e => h (regKey_inj e).symm
  simp only [Wave.vget, Wave.vput_vregs_ne w d r m f hk]

theorem Wave.vrel_vregs_ne (w : Wave) (k : Nat) (m : Lanes) {key : Nat} (h : key ≠ k) :
    (w.vrel k m).vregs.get? key = w.vregs.get? key := by
  unfold Wave.vrel
  split
  · rfl
  · simp only; split
    · exact Tbl.get?_del_ne _ h
    · exact Tbl.get?_set_ne _ _ h

/-- A released register holds none of the lanes. -/
theorem Wave.vrel_self (w : Wave) (k : Nat) (m : Lanes) (sl : VSlot) (h : (w.vrel k m).vregs.get? k = some sl) :
    sl.mask &&& m = 0 := by
  unfold Wave.vrel at h
  split at h
  · rename_i h0; rw [h0] at h; cases h
  · simp only at h
    split at h
    · rw [Tbl.get?_del_self] at h; cases h
    · rw [Tbl.get?_set_self] at h; cases h
      simp [BitVec.and_assoc]

@[simp] theorem Wave.vrel_uregs (w : Wave) (k : Nat) (m : Lanes) : (w.vrel k m).uregs = w.uregs := by
  unfold Wave.vrel; split <;> rfl

theorem Wave.urel_uregs_ne (w : Wave) (k : Nat) (m : Lanes) {key : Nat} (h : key ≠ k) :
    (w.urel k m).uregs.get? key = w.uregs.get? key := by
  unfold Wave.urel
  split
  · rfl
  · simp only; split
    · exact Tbl.get?_del_ne _ h
    · exact Tbl.get?_set_ne _ _ h

/-- A released register holds none of the lanes. -/
theorem Wave.urel_self (w : Wave) (k : Nat) (m : Lanes) (sl : USlot) (h : (w.urel k m).uregs.get? k = some sl) :
    sl.mask &&& m = 0 := by
  unfold Wave.urel at h
  split at h
  · rename_i h0; rw [h0] at h; cases h
  · simp only at h
    split at h
    · rw [Tbl.get?_del_self] at h; cases h
    · rw [Tbl.get?_set_self] at h; cases h
      simp [BitVec.and_assoc]

@[simp] theorem Wave.urel_vregs (w : Wave) (k : Nat) (m : Lanes) : (w.urel k m).vregs = w.vregs := by
  unfold Wave.urel; split <;> rfl

/-- A fold of updates keeps what each of them keeps. -/
theorem foldl_keeps {α β γ : Type} (f : α → β → α) (g : α → γ) (l : List β) (a : α) (h : ∀ a, ∀ x ∈ l, g (f a x) = g a) :
    g (l.foldl f a) = g a := by
  induction l generalizing a with
  | nil => rfl
  | cons x r ih =>
    rw [List.foldl_cons, ih _ fun a y hy => h a y (by simp [hy]), h a x (by simp)]

theorem Wave.lastUse_vregs (w : Wave) (d : Nat) (rs : List RegRef) (m : Lanes) {key : Nat}
    (h : ∀ r ∈ rs, r.lu = true → r.uni = false → ∀ j < r.n, regKey (r.idx + j) d ≠ key) :
    (w.lastUse d rs m).vregs.get? key = w.vregs.get? key := by
  unfold Wave.lastUse
  refine foldl_keeps _ (fun w => w.vregs.get? key) rs w fun w r hr => ?_
  split
  · rename_i hl
    refine foldl_keeps _ (fun w : Wave => w.vregs.get? key) _ w fun w j hj => ?_
    split
    · simp
    · rename_i hu
      exact Wave.vrel_vregs_ne _ _ _ (Ne.symm (h r hr hl (by simpa using hu) j (by simpa using hj)))
  · rfl

theorem Wave.lastUse_uregs (w : Wave) (d : Nat) (rs : List RegRef) (m : Lanes) {key : Nat}
    (h : ∀ r ∈ rs, r.lu = true → r.uni = true → ∀ j < r.n, regKey (r.idx + j) d ≠ key) :
    (w.lastUse d rs m).uregs.get? key = w.uregs.get? key := by
  unfold Wave.lastUse
  refine foldl_keeps _ (fun w => w.uregs.get? key) rs w fun w r hr => ?_
  split
  · rename_i hl
    refine foldl_keeps _ (fun w : Wave => w.uregs.get? key) _ w fun w j hj => ?_
    split
    · rename_i hu
      exact Wave.urel_uregs_ne _ _ _ (Ne.symm (h r hr hl hu j (by simpa using hj)))
    · simp
  · rfl

theorem Wave.wr_vregs (w : Wave) (d : Nat) (r : RegRef) (m : Lanes) (f : Nat → Nat) {key : Nat}
    (h : r.uni = false → ∀ j < r.n, regKey (r.idx + j) d ≠ key) :
    (w.wr d r m f).vregs.get? key = w.vregs.get? key := by
  unfold Wave.wr
  split
  · split <;> rfl
  · rename_i hu
    exact foldl_keeps _ (fun w : Wave => w.vregs.get? key) _ w fun w j hj =>
      Wave.vput_vregs_ne _ _ _ _ _ (h (by simpa using hu) j (by simpa using hj))

theorem Wave.wr_uregs (w : Wave) (d : Nat) (r : RegRef) (m : Lanes) (f : Nat → Nat) {key : Nat}
    (h : r.uni = true → ∀ j < r.n, regKey (r.idx + j) d ≠ key) (h1 : r.uni = true → r.n = 1) :
    (w.wr d r m f).uregs.get? key = w.uregs.get? key := by
  unfold Wave.wr
  split
  · rename_i hu
    split
    · rfl
    · exact Tbl.get?_set_ne _ _ (Ne.symm (by simpa using h hu 0 (by simp [h1 hu])))
  · exact foldl_keeps _ (fun w : Wave => w.uregs.get? key) _ w fun w j _ => by simp

/-- The pieces of a number, put together again. -/
theorem digits_fold (x n k : Nat) :
    (List.range' k n).foldr (fun j acc => x / 2 ^ (32 * j) % 2 ^ 32 + 2 ^ 32 * acc) 0 = x / 2 ^ (32 * k) % 2 ^ (32 * n) := by
  induction n generalizing k with
  | zero => simp [Nat.mod_one]
  | succ n ih =>
    rw [List.range'_succ, List.foldr_cons, ih (k + 1)]
    have h1 : (2:Nat) ^ (32 * (n + 1)) = 2 ^ 32 * 2 ^ (32 * n) := by rw [Nat.mul_succ, Nat.pow_add, Nat.mul_comm]
    have h2 : (2:Nat) ^ (32 * (k + 1)) = 2 ^ (32 * k) * 2 ^ 32 := by rw [Nat.mul_succ, Nat.pow_add]
    rw [h1, h2, Nat.mod_mul, Nat.div_div_eq_div_mul]

theorem Wave.rd_of (w : Wave) (d : Nat) (m : Lanes) (r : RegRef) (i x : Nat) (hu : r.uni = false)
    (h : ∀ j < r.n, w.vget d (r.idx + j) i = (BitVec.ofNat 32 (x / 2 ^ (32 * j)), false)) :
    w.rd d m r i = (x % 2 ^ (32 * r.n), false) := by
  unfold Wave.rd
  simp only [hu, Bool.false_eq_true, if_false]
  have key : ∀ l : List Nat, (∀ j ∈ l, j < r.n) →
      l.foldr (fun j (acc : Nat × Bool) =>
        let v := w.vget d (r.idx + j) i
        (v.1.toNat + 2 ^ 32 * acc.1, v.2 || acc.2)) (0, false) =
      (l.foldr (fun j acc => x / 2 ^ (32 * j) % 2 ^ 32 + 2 ^ 32 * acc) 0, false) := by
    intro l hl
    induction l with
    | nil => rfl
    | cons j t ih =>
      rw [List.foldr_cons, ih fun k hk => hl k (by simp [hk]), List.foldr_cons]
      simp [h j (hl j (by simp))]
  rw [key _ (by simp), List.range_eq_range', digits_fold]
  simp

theorem Wave.wr_shows (w : Wave) (d : Nat) (m p : Lanes) (r : RegRef) (f : Nat → Nat) (i : Nat)
    (hi : p.getLsbD i = true) (h1 : r.uni = true → r.n = 1) (hm : m ≠ 0) (hl : m &&& ~~~w.live = 0) :
    (w.wr d r p f).rd d m r i =
      (f (if r.uni then lowLane p else i) % 2 ^ (if r.uni then 64 else 32 * r.n), false) := by
  have hp : p ≠ 0 := by rintro rfl; simp at hi
  cases hu : r.uni
  · have : ∀ n, ∀ j < n, ((List.range n).foldl (fun w j => w.vput d (r.idx + j) p fun i => BitVec.ofNat 32 (f i / 2 ^ (32 * j))) w).vget
        d (r.idx + j) i = (BitVec.ofNat 32 (f i / 2 ^ (32 * j)), false) := by
      intro n
      induction n with
      | zero => intro j hj; omega
      | succ n ih =>
        intro j hj
        rw [List.range_succ, List.foldl_append, List.foldl_cons, List.foldl_nil]
        by_cases hjn : j = n
        · subst hjn; exact Wave.vput_self _ _ _ _ _ hi
        · rw [Wave.vput_vget_ne _ _ _ _ _ _ _ (by omega)]
          exact ih j (by omega)
    simp only [Bool.false_eq_true, if_false]
    refine Wave.rd_of _ d m r i (f i) hu fun j hj => ?_
    unfold Wave.wr
    simp only [hu, Bool.false_eq_true, if_false]
    exact this r.n j hj
  · simp only [if_true]
    have hn := h1 hu
    unfold Wave.wr Wave.rd
    simp only [hu, if_true, hp, if_false, hn]
    have hml : w.live &&& m ≠ 0 := by
      intro h0
      apply hm
      have : m = (m &&& ~~~w.live) ||| (w.live &&& m) := by
        ext i hi
        simp only [BitVec.getElem_or, BitVec.getElem_and, BitVec.getElem_not]
        cases m[i] <;> cases w.live[i] <;> rfl
      rw [this, hl, h0]; rfl
    have hml' : ¬ w.live &&& m = 0#16 := hml
    simp [Wave.uget, Wave.uput, hml']

/-! ## Predicates -/

theorem Wave.pput_self (w : Wave) (q : Nat) (m v : Lanes) (i : Nat) (hq : q ≠ 7) (hl : q < w.preds.length)
    (h : m.getLsbD i = true) : ((w.pput q m v).pget q).getLsbD i = v.getLsbD i := by
  have hi : i < 16 := by
    by_contra hc
    simp [BitVec.getLsbD_of_ge m i (by omega)] at h
  have h' : m[i] = true := by rw [← BitVec.getLsbD_eq_getElem hi]; exact h
  have : (listModify w.preds q fun old => (old &&& ~~~m) ||| (v &&& m))[q]? = some ((w.preds[q] &&& ~~~m) ||| (v &&& m)) := by
    rw [listModify_self, List.getElem?_eq_getElem hl, Option.map_some]
  simp only [Wave.pput, Wave.pget, hq, if_false, this, Option.getD_some]
  simp [hi, h']

theorem Wave.pput_off (w : Wave) (q : Nat) (m v : Lanes) (i : Nat) (h : m.getLsbD i = false) :
    ((w.pput q m v).pget q).getLsbD i = (w.pget q).getLsbD i := by
  unfold Wave.pput Wave.pget
  by_cases hq : q = 7
  · simp [hq]
  · by_cases hi : i < 16
    · cases hg : w.preds[q]? with
      | none => simp [hq, hg]
      | some x =>
        have h' : m[i] = false := by rw [← BitVec.getLsbD_eq_getElem hi]; exact h
        simp [hq, hg, hi, h']
    · simp [BitVec.getLsbD_of_ge _ i (by omega : 16 ≤ i)]

theorem Wave.pput_ne (w : Wave) (q r : Nat) (m v : Lanes) (h : r ≠ q) : (w.pput q m v).pget r = w.pget r := by
  unfold Wave.pput Wave.pget
  split
  · rfl
  · split
    · rfl
    · simp [listModify_ne _ _ h]

end Sys2Proof.Machine
end

