-- ==== Sys2Proof/Laws/Issue.lean ====
section
/-!
SUPPORT. What the issue of an instruction does to its wave and to the state (Machine/Issue.lean): where no lane traps,
the wave takes the instruction's results, the sub-wave passes on, and at most a port is released.
-/
namespace Sys2Proof.Machine
open Sys2Proof

theorem LaneRes.trapMask_nil (r : LaneRes) (h : r.traps = []) : r.trapMask = 0 := by
  simp [LaneRes.trapMask, h]

theorem State.takeTraps_nil (s : State) (t w k pc : Nat) (b : Bool) : s.takeTraps t w k [] pc b = s := rfl

theorem Lanes.and_not_zero (p : Lanes) : p &&& ~~~(0 : Lanes) = p := by
  rw [show ~~~(0 : Lanes) = BitVec.allOnes 16 by decide, BitVec.and_allOnes]

/-- The wave at the end of an issue that was not held and traps no lane. -/
theorem Wave.settled_eq (w : Wave) (e : Ex) (u : Use) (opc : Nat) (r : LaneRes) (kind : FlightKind)
    (tag : Option (Nat × Nat)) (cycle : Nat) (p : Lanes) (hh : e.sub.hold = none) (hr : r.traps = []) :
    w.settled e u opc r kind tag cycle p =
      let w := w.commit e.sub.depth e.sub.mask u r
      let w := if needsFlight u (latOf opc) kind then
          w.launchFlight (flightOf u opc w.clock cycle e.sub.depth p kind tag)
        else w
      { w with clock := w.clock + issueCost u, stallTo := cycle + issueCost u } := by
  have hb : (!(p == 0 && p != 0)) = true := by cases h : p == 0 <;> simp_all
  unfold Wave.settled
  simp only [hh, r.trapMask_nil hr, Lanes.and_not_zero, Option.bind_none, hb, Bool.and_true, Option.isSome_none, Bool.false_eq_true, if_false]

theorem State.yieldPort_or (s : State) (e : Ex) :
    s.yieldPort e = s ∨ s.yieldPort e = s.releasePort e.team.core (.sub e.t e.w e.k) := by
  unfold State.yieldPort
  split
  · exact Or.inr rfl
  · split
    · exact Or.inr rfl
    · exact Or.inl rfl

/-- The end of an issue that traps no lane. -/
theorem State.settle_eq (s : State) (e : Ex) (u : Use) (opc : Nat) (r : LaneRes) (kind : FlightKind)
    (tag : Option (Nat × Nat)) (p : Lanes) (hr : r.traps = []) (hm : e.sub.mask ≠ 0) :
    s.settle e u opc r kind tag p =
      ((s.modWave e.t e.w fun w => w.settled e u opc r kind tag s.cycle p).modSub e.t e.w e.k SubWave.advance).yieldPort e := by
  have hm' : ¬ (e.sub.mask &&& ~~~(0 : Lanes) = 0) := by rw [Lanes.and_not_zero]; exact hm
  unfold State.settle
  simp only [hr, r.trapMask_nil hr, hm', if_false, State.takeTraps_nil]

end Sys2Proof.Machine
end

