-- ==== Sys2Proof/Laws/Uses.lean ====
section
/-!
SUPPORT. What an instruction of code memory names (`Instr.use`): at most one destination run and one destination predicate.
-/
namespace Sys2Proof.Machine
open Sys2Proof

/-- A use of operands with at most one destination run, one register where it is uniform, and one predicate. -/
structure SingleUse (u : Use) : Prop where
  wr : u.wr.length ≤ 1
  pw : u.pw.length ≤ 1
  uni : ∀ r ∈ u.wr, r.uni = true → r.n = 1
  pred : ∀ q ∈ u.pw, q < 8

theorem dst_uni (d : Dst) (n : Nat) (h : (d.ref n).uni = true) : (d.ref n).n = 1 := by
  unfold Dst.ref at *
  split <;> simp_all

theorem SingleUse.of (h : Hdr) (rd wr : List RegRef) (pr pw : List Nat) (h1 : wr = [] ∨ ∃ r, wr = [r] ∧ (r.uni = true → r.n = 1))
    (h2 : pw = [] ∨ ∃ q, pw = [q] ∧ q < 8) : SingleUse { hdr := h, rd := rd, wr := wr, pr := pr, pw := pw } := by
  refine ⟨?_, ?_, ?_, ?_⟩
  · rcases h1 with rfl | ⟨r, rfl, -⟩ <;> simp
  · rcases h2 with rfl | ⟨q, rfl, -⟩ <;> simp
  · intro r hr
    rcases h1 with rfl | ⟨r', rfl, h⟩
    · simp at hr
    · obtain rfl := List.mem_singleton.1 hr
      exact h
  · intro q hq
    rcases h2 with rfl | ⟨q', rfl, h⟩
    · simp at hq
    · obtain rfl := List.mem_singleton.1 hq
      exact h

theorem optVref_single (o : Option (Fin 64)) : optVref o = [] ∨ ∃ r, optVref o = [r] ∧ (r.uni = true → r.n = 1) := by
  cases o
  · exact Or.inl rfl
  · exact Or.inr ⟨_, rfl, fun h => by cases h⟩

/-- Every instruction names its operands so. -/
theorem use_single (i : Instr) (u : Use) (h : i.use = some u) : SingleUse u := by
  have v : ∀ d n, ∃ r, [vref d n] = [r] ∧ (r.uni = true → r.n = 1) := fun d n => ⟨_, rfl, fun h => by cases h⟩
  have w : ∀ (d : Dst) n, ∃ r, [d.ref n] = [r] ∧ (r.uni = true → r.n = 1) := fun d n => ⟨_, rfl, dst_uni d n⟩
  have x : ∀ d, ∃ r, [uref d] = [r] ∧ (r.uni = true → r.n = 1) := fun d => ⟨_, rfl, fun _ => rfl⟩
  have q : ∀ p : Fin 8, ∃ r, [p.val] = [r] ∧ r < 8 := fun p => ⟨_, rfl, p.isLt⟩
  cases i <;> first
    | exact absurd (show none = some u from h) (by simp)
    | (obtain rfl := Option.some.inj h
       first
         | exact SingleUse.of _ _ _ _ _ (Or.inr (w _ _)) (Or.inl rfl)
         | exact SingleUse.of _ _ _ _ _ (Or.inl rfl) (Or.inl rfl)
         | exact SingleUse.of _ _ _ _ _ (Or.inr (v _ _)) (Or.inl rfl)
         | exact SingleUse.of _ _ _ _ _ (Or.inr (x _)) (Or.inl rfl)
         | exact SingleUse.of _ _ _ _ _ (Or.inl rfl) (Or.inr (q _))
         | exact SingleUse.of _ _ _ _ _ (Or.inr (w _ _)) (Or.inr (q _))
         | exact SingleUse.of _ _ _ _ _ (optVref_single _) (Or.inl rfl)
         | (refine SingleUse.of _ _ _ _ _ ?_ (Or.inl rfl)
            split
            · exact Or.inl rfl
            · exact Or.inr (v _ _)))

end Sys2Proof.Machine
end

