-- ==== Sys2Proof/Laws/Lanewise.lean ====
section
/-!
SUPPORT. What a lane-wise instruction does (Machine/Issue.lean): the law of Safety.lean for every operation that acts lane
by lane, said once.
-/
namespace Sys2Proof.Machine
open Sys2Proof

/-! ## The wave's own effects -/

/-- A reflexive and transitive relation holds along a fold of updates that keep it. -/
theorem foldl_rel {α β : Type} (R : α → α → Prop) (refl : ∀ a, R a a) (trans : ∀ a b c, R a b → R b c → R a c)
    (f : α → β → α) (l : List β) (a : α) (h : ∀ a x, R a (f a x)) : R a (l.foldl f a) := by
  induction l generalizing a with
  | nil => exact refl a
  | cons x t ih => exact trans a (f a x) _ (h a x) (ih (f a x))

/-- Two waves that differ at most in registers, predicates, draws and the sticky words. -/
structure Wave.DataOnly (w w' : Wave) : Prop where
  present : w'.present = w.present
  live : w'.live = w.live
  subs : w'.subs = w.subs
  flags : w'.flags = w.flags
  ctl : w'.ctl = w.ctl
  seed : w'.seed = w.seed
  keys : w'.keys = w.keys
  cause : w'.trapCause = w.trapCause
  pc : w'.trapPc = w.trapPc
  addr : w'.trapAddr = w.trapAddr
  clock : w'.clock = w.clock
  flights : w'.flights = w.flights
  seq : w'.seq = w.seq
  joins : w'.joins = w.joins

theorem Wave.DataOnly.refl (w : Wave) : Wave.DataOnly w w := ⟨rfl, rfl, rfl, rfl, rfl, rfl, rfl, rfl, rfl, rfl, rfl, rfl, rfl, rfl⟩

theorem Wave.DataOnly.trans (a b c : Wave) (h : Wave.DataOnly a b) (g : Wave.DataOnly b c) : Wave.DataOnly a c := by
  constructor <;> first
    | rw [g.present, h.present] | rw [g.live, h.live] | rw [g.subs, h.subs] | rw [g.flags, h.flags] | rw [g.ctl, h.ctl]
    | rw [g.seed, h.seed] | rw [g.keys, h.keys] | rw [g.cause, h.cause] | rw [g.pc, h.pc] | rw [g.addr, h.addr]
    | rw [g.clock, h.clock] | rw [g.flights, h.flights] | rw [g.seq, h.seq] | rw [g.joins, h.joins]

theorem Wave.RegsOnly.data {w w' : Wave} (h : Wave.RegsOnly w w') : Wave.DataOnly w w' := by
  unfold Wave.RegsOnly at h
  constructor <;> rw [h]

theorem Wave.pput_data (w : Wave) (q : Nat) (m v : Lanes) : Wave.DataOnly w (w.pput q m v) := by
  unfold Wave.pput; split <;> constructor <;> rfl

theorem Wave.commit_data (w : Wave) (d : Nat) (m : Lanes) (u : Use) (r : LaneRes) : Wave.DataOnly w (w.commit d m u r) := by
  have fold : ∀ {β : Type} (f : Wave → β → Wave) (l : List β) (a : Wave), (∀ a x, Wave.DataOnly a (f a x)) →
      Wave.DataOnly a (l.foldl f a) := fun f l a => foldl_rel _ Wave.DataOnly.refl Wave.DataOnly.trans f l a
  have trans := Wave.DataOnly.trans
  unfold Wave.commit
  have h1 := (w.lastUse_only d u.rd (m &&& ~~~r.trapMask)).data
  have h2 : ∀ a, _ := fun a => fold (fun w (p : RegRef × Lanes × (Nat → Nat)) => w.wr d p.1 (p.2.1 &&& ~~~r.trapMask) p.2.2)
    r.regs a fun a x => (a.wr_only _ _ _ _).data
  have h3 : ∀ a, _ := fun a => fold (fun w (p : Nat × Lanes × Lanes) => w.pput p.1 (p.2.1 &&& ~~~r.trapMask) p.2.2) r.preds a
    fun a x => a.pput_data _ _ _
  have h4 : ∀ a, _ := fun a => fold (fun w (p : Nat × Nat) => w.drawn p.1 p.2) r.draws a fun a x => by constructor <;> rfl
  refine trans _ _ _ h1 (trans _ _ _ (h2 _) (trans _ _ _ (h3 _) (trans _ _ _ (h4 _) ?_)))
  dsimp only
  split <;> split <;> constructor <;> rfl

/-- Registers and predicates after `commit` of an issue without traps that writes at most one register run and one
predicate. -/
theorem Wave.commit_regs (w : Wave) (d : Nat) (m : Lanes) (u : Use) (r : LaneRes) (hr : r.traps = []) :
    (w.commit d m u r).vregs = ((r.regs.foldl (fun w p => w.wr d p.1 p.2.1 p.2.2) (w.lastUse d u.rd m))).vregs ∧
    (w.commit d m u r).uregs = ((r.regs.foldl (fun w p => w.wr d p.1 p.2.1 p.2.2) (w.lastUse d u.rd m))).uregs ∧
    (w.commit d m u r).preds = (r.preds.foldl (fun w p => w.pput p.1 p.2.1 p.2.2)
      (r.regs.foldl (fun w p => w.wr d p.1 p.2.1 p.2.2) (w.lastUse d u.rd m))).preds := by
  have e1 : ∀ {β : Type} (g : Wave → β) (f : Wave → Nat × Lanes × Lanes → Wave) (l : List (Nat × Lanes × Lanes)) (a : Wave),
      (∀ a x, g (f a x) = g a) → g (l.foldl f a) = g a := fun g f l a h => foldl_keeps f g l a fun a x _ => h a x
  have e2 : ∀ {β : Type} (g : Wave → β) (l : List (Nat × Nat)) (a : Wave),
      (∀ a i n, g (Wave.drawn a i n) = g a) → g (l.foldl (fun w p => w.drawn p.1 p.2) a) = g a :=
    fun g l a h => foldl_keeps _ g l a fun a x _ => h a x.1 x.2
  have pv : ∀ (a : Wave) q v x, (a.pput q v x).vregs = a.vregs := by intro a q v x; unfold Wave.pput; split <;> rfl
  have pu : ∀ (a : Wave) q v x, (a.pput q v x).uregs = a.uregs := by intro a q v x; unfold Wave.pput; split <;> rfl
  unfold Wave.commit
  simp only [r.trapMask_nil hr, Lanes.and_not_zero]
  refine ⟨?_, ?_, ?_⟩
  · split <;> split <;>
      (simp only [Wave.setStale, Wave.setDivz, Wave.raise]
       rw [e2 Wave.vregs _ _ fun _ _ _ => rfl, e1 Wave.vregs _ _ _ fun a x => pv a _ _ _])
  · split <;> split <;>
      (simp only [Wave.setStale, Wave.setDivz, Wave.raise]
       rw [e2 Wave.uregs _ _ fun _ _ _ => rfl, e1 Wave.uregs _ _ _ fun a x => pu a _ _ _])
  · split <;> split <;>
      (simp only [Wave.setStale, Wave.setDivz, Wave.raise]
       rw [e2 Wave.preds _ _ fun _ _ _ => rfl])

theorem Wave.commit_flags (w : Wave) (d : Nat) (m : Lanes) (u : Use) (r : LaneRes) :
    (w.commit d m u r).fpflags = w.fpflags ||| r.fl.setWidth 64 := by
  have hl := w.lastUse_only d u.rd (m &&& ~~~r.trapMask)
  have h : (r.draws.foldl (fun w p => w.drawn p.1 p.2) (r.preds.foldl (fun w p => w.pput p.1 (p.2.1 &&& ~~~r.trapMask) p.2.2)
      (r.regs.foldl (fun w p => w.wr d p.1 (p.2.1 &&& ~~~r.trapMask) p.2.2) (w.lastUse d u.rd (m &&& ~~~r.trapMask))))).fpflags =
      w.fpflags := by
    rw [foldl_keeps _ Wave.fpflags r.draws _ fun a x _ => show (a.drawn x.1 x.2).fpflags = a.fpflags from rfl,
      foldl_keeps _ Wave.fpflags r.preds _ fun a x _ => by unfold Wave.pput; split <;> rfl,
      foldl_keeps _ Wave.fpflags r.regs _ fun a x _ => by rw [a.wr_only d x.1 _ x.2.2], hl]
  unfold Wave.commit
  split <;> split <;> simp only [Wave.setStale, Wave.setDivz, Wave.raise, h]

theorem Wave.commit_tstat (w : Wave) (d : Nat) (m : Lanes) (u : Use) (r : LaneRes) (hs : r.stale = false) :
    (w.commit d m u r).tstat = w.tstat ||| (if r.divz then 2 else 0) := by
  have hl := w.lastUse_only d u.rd (m &&& ~~~r.trapMask)
  have h : (r.draws.foldl (fun w p => w.drawn p.1 p.2) (r.preds.foldl (fun w p => w.pput p.1 (p.2.1 &&& ~~~r.trapMask) p.2.2)
      (r.regs.foldl (fun w p => w.wr d p.1 (p.2.1 &&& ~~~r.trapMask) p.2.2) (w.lastUse d u.rd (m &&& ~~~r.trapMask))))).tstat =
      w.tstat := by
    rw [foldl_keeps _ Wave.tstat r.draws _ fun a x _ => show (a.drawn x.1 x.2).tstat = a.tstat from rfl,
      foldl_keeps _ Wave.tstat r.preds _ fun a x _ => by unfold Wave.pput; split <;> rfl,
      foldl_keeps _ Wave.tstat r.regs _ fun a x _ => by rw [a.wr_only d x.1 _ x.2.2], hl]
  unfold Wave.commit
  cases hd : r.divz <;> simp [hs, Wave.setDivz, Wave.raise, h]

theorem Wave.commit_draws (w : Wave) (d : Nat) (m : Lanes) (u : Use) (r : LaneRes) :
    (w.commit d m u r).draws = (r.draws.foldl (fun w p => w.drawn p.1 p.2) w).draws := by
  have hl := w.lastUse_only d u.rd (m &&& ~~~r.trapMask)
  have h : (r.preds.foldl (fun w p => w.pput p.1 (p.2.1 &&& ~~~r.trapMask) p.2.2)
      (r.regs.foldl (fun w p => w.wr d p.1 (p.2.1 &&& ~~~r.trapMask) p.2.2) (w.lastUse d u.rd (m &&& ~~~r.trapMask)))).draws =
      w.draws := by
    rw [foldl_keeps _ Wave.draws r.preds _ fun a x _ => by unfold Wave.pput; split <;> rfl,
      foldl_keeps _ Wave.draws r.regs _ fun a x _ => by rw [a.wr_only d x.1 _ x.2.2], hl]
  have key : ∀ (l : List (Nat × Nat)) (a b : Wave), a.draws = b.draws →
      (l.foldl (fun w p => w.drawn p.1 p.2) a).draws = (l.foldl (fun w p => w.drawn p.1 p.2) b).draws := by
    intro l
    induction l with
    | nil => exact fun a b h => h
    | cons x t ih => exact fun a b h => ih _ _ (by simp only [Wave.drawn, h])
  unfold Wave.commit
  split <;> split <;> simp only [Wave.setStale, Wave.setDivz, Wave.raise] <;> exact key _ _ _ h

/-! ## The issue of an instruction -/

/-- Two changes that agree on the sub-wave found are one change. -/
theorem State.modSub_congr {s : State} {t w k : Nat} {e : Ex} {f g : SubWave → SubWave} (h : s.ex? t w k = some e)
    (hf : f e.sub = g e.sub) : s.modSub t w k f = s.modSub t w k g := by
  unfold State.ex? at h
  split at h
  · cases h
  · rename_i tm htm
    split at h
    · cases h
    · rename_i wv hwv
      split at h
      · cases h
      · rename_i sw hsw
        cases h
        unfold State.modSub State.modWave State.modTeam Team.modWave Wave.modSub
        rw [Tbl.modify_congr htm]
        rw [Tbl.modify_congr hwv]
        rw [Tbl.modify_congr hsw hf]

theorem State.ex?_spec {s : State} {t w k : Nat} {e : Ex} (h : s.ex? t w k = some e) :
    e.t = t ∧ e.w = w ∧ e.k = k ∧ s.teams.get? t = some e.team ∧ e.team.waves.get? w = some e.wave ∧
      e.wave.subs.get? k = some e.sub := by
  unfold State.ex? at h
  cases h1 : s.teams.get? t with
  | none => simp [h1] at h
  | some tm =>
    cases h2 : tm.waves.get? w with
    | none => simp [h1, h2] at h
    | some wv =>
      cases h3 : wv.subs.get? k with
      | none => simp [h1, h2, h3] at h
      | some sb =>
        simp only [h1, h2, h3, Option.some.injEq] at h
        subst h
        exact ⟨rfl, rfl, rfl, rfl, h2, h3⟩

theorem Runs.team {s : State} {u : Use} {e : Ex} (h : Runs s u e) : s.teams.get? e.t = some e.team :=
  (State.ex?_spec h.here).2.2.2.1

theorem Runs.wave {s : State} {u : Use} {e : Ex} (h : Runs s u e) : e.team.waves.get? e.w = some e.wave :=
  (State.ex?_spec h.here).2.2.2.2.1

theorem Runs.sub {s : State} {u : Use} {e : Ex} (h : Runs s u e) : e.wave.subs.get? e.k = some e.sub :=
  (State.ex?_spec h.here).2.2.2.2.2

/-- An instruction issues: its meaning's answer is carried out. -/
theorem issueNaming_eq {i : Instr} {names : State → Use → Ex → Use} {always branch : Bool}
    {body : Use → State → Ex → Lanes → Issue} {act : Use → Nat → Grid → State → Span → SpanAct} {s : State} {u : Use} {e : Ex}
    {v : Use} (h : Runs s u e) (hu : i.use = some v) (hn : names s v e = u) :
    issueNaming i names always branch body act s = .next ((body u s e (e.parts u)).conclude e u i.opcode (e.parts u)) := by
  unfold issueNaming
  simp only [hu, h.cur, h.here, hn]
  unfold State.issueSub
  simp only [h.may, h.free, h.room, h.due, Bool.not_true, Bool.false_eq_true, if_false, List.isEmpty_nil, if_true]
  rfl

theorem issue_eq {i : Instr} {always branch : Bool}
    {body : Use → State → Ex → Lanes → Issue} {act : Use → Nat → Grid → State → Span → SpanAct} {s : State} {u : Use} {e : Ex}
    (h : Issues s i u e) :
    issue i always branch body act s = .next ((body u s e (e.parts u)).conclude e u i.opcode (e.parts u)) :=
  issueNaming_eq h.toRuns h.use rfl

/-- A held instruction goes on. -/
theorem resume_eq {i : Instr} {names : State → Use → Ex → Use} {always branch : Bool}
    {body : Use → State → Ex → Lanes → Issue} {act : Use → Nat → Grid → State → Span → SpanAct} {s : State} {v : Use} {e : Ex} {q : Hold}
    (h : Resumes s e q) (hu : i.use = some v) :
    issueNaming i names always branch body act s =
      .next ((body (names s v e) s e q.lanes).conclude e (names s v e) i.opcode q.lanes) := by
  unfold issueNaming
  simp only [hu, h.cur, h.here]
  unfold State.issueSub
  simp only [h.may, h.held, Bool.not_true, Bool.false_eq_true, if_false]

theorem State.wave?_modTeam (s : State) (t : Nat) (f : Team → Team) (h : ∀ tm, (f tm).waves = tm.waves) (a b : Nat) :
    (s.modTeam t f).wave? a b = s.wave? a b := by
  unfold State.wave?
  by_cases hk : a = t
  · subst hk
    rw [State.teams_modTeam_self]
    cases s.teams.get? a <;> simp [h]
  · rw [State.teams_modTeam_ne _ _ hk]

theorem State.wave?_escapeTeam (s : State) (t a b : Nat) : (s.escapeTeam t).wave? a b = s.wave? a b :=
  s.wave?_modTeam t (fun tm => { tm with lap := tm.lap.map fun l => { l with unrecoverable := true } }) (fun _ => rfl) a b

theorem Runs.wave? {s : State} {u : Use} {e : Ex} (h : Runs s u e) : s.wave? e.t e.w = some e.wave := by
  simp [State.wave?, h.team, h.wave]

/-- The wave, the scoreboard and the place of the sub-wave after an issue that traps no lane. -/
theorem State.settle_wave {s : State} {u : Use} {e : Ex} {opc : Nat} (h : Runs s u e) (s' : State) (w0 : Wave)
    (hw : s'.wave? e.t e.w = some w0) (r : LaneRes) (kind : FlightKind) (tag : Option (Nat × Nat)) (p : Lanes)
    (hr : r.traps = []) :
    ∃ w', (s'.settle e u opc r kind tag p).wave? e.t e.w = some w' ∧ Passed w0 w' e u ∧
      (∀ k, k ≠ e.k → w'.subs.get? k = w0.subs.get? k) ∧
      (let c := w0.commit e.sub.depth e.sub.mask u r
       w'.vregs = c.vregs ∧ w'.uregs = c.uregs ∧ w'.preds = c.preds ∧ w'.ctl = c.ctl ∧ w'.seed = c.seed ∧ w'.keys = c.keys ∧
       w'.trapCause = c.trapCause ∧ w'.trapPc = c.trapPc ∧ w'.trapAddr = c.trapAddr ∧ w'.present = c.present ∧ w'.live = c.live ∧
       w'.joins = c.joins ∧ w'.fpflags = c.fpflags ∧ w'.tstat = c.tstat ∧ w'.draws = c.draws) := by
  have hc := w0.commit_data e.sub.depth e.sub.mask u r
  have hse := Wave.settled_eq w0 e u opc r kind tag s'.cycle p h.free hr
  rw [State.settle_eq s' e u opc r kind tag p hr h.lanes]
  have hy : ∀ x : State, (x.yieldPort e).wave? e.t e.w = x.wave? e.t e.w := by
    intro x
    rcases x.yieldPort_or e with q | q <;> rw [q]
    rfl
  rw [hy]
  have e1 : ((s'.modWave e.t e.w fun w => w.settled e u opc r kind tag s'.cycle p).modSub e.t e.w e.k SubWave.advance).wave?
      e.t e.w = some ((w0.settled e u opc r kind tag s'.cycle p).modSub e.k SubWave.advance) := by
    unfold State.modSub
    rw [State.wave?_modWave_self, State.wave?_modWave_self, hw]
    rfl
  refine ⟨_, e1, ?_, ?_, ?_⟩
  · rw [hse]
    constructor
    · simp only [Wave.modSub]
      split <;> simp [Wave.launchFlight, hc.subs, Tbl.get?_modify_self]
    · simp only [Wave.modSub]
      split
      · simp [Wave.launchFlight, hc.flags, flightOf]
      · rename_i hn
        have : u.hdr.flag = none := by
          unfold needsFlight at hn
          cases hf : u.hdr.flag <;> simp_all
        simp [hc.flags, this, flagInc]
    · simp only [Wave.modSub]
      split <;> simp [Wave.launchFlight, hc.clock]
  · intro k hk
    rw [hse]
    simp only [Wave.modSub]
    split <;> simp [Wave.launchFlight, hc.subs, Tbl.get?_modify_ne _ _ hk]
  · rw [hse]
    simp only [Wave.modSub]
    split <;> simp [Wave.launchFlight]

/-- What an issue that traps no lane leaves of the package. -/
theorem State.settle_spares {s : State} {u : Use} {e : Ex} {opc : Nat} (h : Runs s u e) (s' : State) (w0 : Wave)
    (hw : s'.wave? e.t e.w = some w0) (r : LaneRes) (kind : FlightKind)
    (tag : Option (Nat × Nat)) (p : Lanes) (hr : r.traps = []) : State.Spares s' (s'.settle e u opc r kind tag p) e := by
  rw [State.settle_eq s' e u opc r kind tag p hr h.lanes]
  obtain ⟨tm, htm, hwv⟩ : ∃ tm, s'.teams.get? e.t = some tm ∧ tm.waves.get? e.w = some w0 := by
    unfold State.wave? at hw
    cases ht : s'.teams.get? e.t with
    | none => simp [ht] at hw
    | some tm => exact ⟨tm, rfl, by simpa [ht] using hw⟩
  have hs : State.Spares s' ((s'.modWave e.t e.w fun w => w.settled e u opc r kind tag s'.cycle p).modSub e.t e.w e.k
      SubWave.advance) e := by
    refine ⟨rfl, fun c => ⟨(s'.core c).ports, rfl⟩, fun k hk => ?_, ?_⟩
    · rw [State.modSub, State.teams_modWave_ne _ _ _ hk, State.teams_modWave_ne _ _ _ hk]
    · refine ⟨tm, (tm.waves.modify e.w fun w => w.settled e u opc r kind tag s'.cycle p).modify e.w
        fun wv => wv.modSub e.k SubWave.advance, htm, ?_, fun k hk => ?_⟩
      · simp only [State.modSub, State.modWave, State.teams_modTeam_self, htm, Option.map_some, Team.modWave]
      · rw [Tbl.get?_modify_ne _ _ hk, Tbl.get?_modify_ne _ _ hk]
  rcases State.yieldPort_or _ e with q | q <;> rw [q]
  · exact hs
  · refine ⟨rfl, fun c => ?_, hs.teams, hs.team⟩
    obtain ⟨ps, hps⟩ := State.core_releasePort ((s'.modWave e.t e.w fun w => w.settled e u opc r kind tag s'.cycle p).modSub
      e.t e.w e.k SubWave.advance) e.team.core (.sub e.t e.w e.k) c
    exact ⟨ps, hps⟩

theorem Wave.vput_idle (w : Wave) (d r q : Nat) (m : Lanes) (f : Nat → W32) (i : Nat) (h : i ∉ lanesIn m) :
    (w.vput d r m f).vget d q i = w.vget d q i := by
  by_cases hq : q = r
  · subst hq
    have hi : m.getLsbD i = false := by
      have := (mem_lanesIn m i).not.1 h
      simpa using this
    unfold Wave.vput
    split
    · rfl
    · simp only [Wave.vget, Tbl.get?_set_self, BitVec.getLsbD_or, hi, Bool.or_false]
      cases hg : w.vregs.get? (regKey q d) with
      | none => simp
      | some sl =>
        simp only [Option.getD_some]
        by_cases hm : sl.mask.getLsbD i = true
        · have h16 : i < 16 := by
            by_contra hc
            simp [BitVec.getLsbD_of_ge _ i (by omega : 16 ≤ i)] at hm
          have hl : ∀ (g : Nat → W32), ((laneList.map g)[i]?).getD 0 = g i := by
            intro g
            interval_cases i <;> rfl
          simp only [hm, if_true, hl, hi, Bool.false_eq_true, if_false]
        · simp [hm]
  · exact Wave.vput_vget_ne _ _ _ _ _ _ _ hq

theorem Wave.wr_idle (w : Wave) (d : Nat) (r : RegRef) (m : Lanes) (f : Nat → Nat) (q i : Nat) (h : i ∉ lanesIn m) :
    (w.wr d r m f).vget d q i = w.vget d q i := by
  unfold Wave.wr
  split
  · split <;> rfl
  · exact foldl_keeps _ (fun w : Wave => w.vget d q i) _ w fun w j _ => Wave.vput_idle _ _ _ _ _ _ _ h

/-- Everything that an issue without traps does. -/
theorem State.settle_issued {s : State} {u : Use} {e : Ex} {opc : Nat} (h : Runs s u e) (s' : State) (w0 : Wave)
    (hw : s'.wave? e.t e.w = some w0) (hlive : w0.live = e.wave.live) (hlen : w0.preds.length = 7)
    (r : LaneRes) (kind : FlightKind) (tag : Option (Nat × Nat)) (hr : r.traps = []) (hst : r.stale = false) (hs : SingleUse u)
    (val : Option (Nat → Nat)) (B : Lanes)
    (hregs : (∃ F, val = some F ∧ r.regs = u.wr.map fun d => (d, e.parts u, F)) ∨ (val = none ∧ r.regs = []) ∨
      (e.parts u = 0 ∧ r.regs = []))
    (hpreds : (r.preds = u.pw.map fun q => (q, e.parts u, B)) ∨ (e.parts u = 0 ∧ r.preds = [])) (g : Gives)
    (hg : g.val = val) (hb : ∀ k ∈ lanesIn (e.parts u), g.bit k = B.getLsbD k) (hf : g.fl = r.fl) (hd : g.divz = r.divz)
    (hdr : g.draws = r.draws) :
    ∃ w', Issued u e g s' (s'.settle e u opc r kind tag (e.parts u)) w0 w' := by
  obtain ⟨w', hw', hpass, hoth, hv, huu, hpr, hctl, hseed, hkeys, hc1, hc2, hc3, hpres, hlv, hjoin, hfp, hts, hdw⟩ :=
    State.settle_wave h s' w0 hw r kind tag (e.parts u) hr
  obtain ⟨cv, cu, cp⟩ := w0.commit_regs e.sub.depth e.sub.mask u r hr
  have hc := w0.commit_data e.sub.depth e.sub.mask u r
  rw [cv] at hv; rw [cu] at huu; rw [cp] at hpr
  have hl0 := w0.lastUse_only e.sub.depth u.rd e.sub.mask
  have hlive0 : (w0.lastUse e.sub.depth u.rd e.sub.mask).live = w0.live := by rw [hl0]
  have hpreds0 : (w0.lastUse e.sub.depth u.rd e.sub.mask).preds = w0.preds := by rw [hl0]
  have hpreds1 : (r.regs.foldl (fun w p => w.wr e.sub.depth p.1 p.2.1 p.2.2) (w0.lastUse e.sub.depth u.rd e.sub.mask)).preds =
      w0.preds := by
    rw [foldl_keeps _ Wave.preds r.regs _ fun a x _ => by rw [a.wr_only e.sub.depth x.1 x.2.1 x.2.2], hpreds0]
  have hrm : ∀ x ∈ r.regs, x.1 ∈ u.wr ∧ x.2.1 = e.parts u := by
    intro x hx
    rcases hregs with ⟨F, -, he⟩ | ⟨-, he⟩ | ⟨-, he⟩
    · rw [he] at hx
      obtain ⟨d, hd, rfl⟩ := List.mem_map.1 hx
      exact ⟨hd, rfl⟩
    · simp [he] at hx
    · simp [he] at hx
  have hpm : ∀ x ∈ r.preds, x.1 ∈ u.pw ∧ x.2 = (e.parts u, B) := by
    intro x hx
    rcases hpreds with he | ⟨-, he⟩
    · rw [he] at hx
      obtain ⟨d, hd, rfl⟩ := List.mem_map.1 hx
      exact ⟨hd, rfl⟩
    · simp [he] at hx
  have hq : ∀ q, w'.pget q = (r.preds.foldl (fun w p => w.pput p.1 p.2.1 p.2.2) (r.regs.foldl (fun w p => w.wr e.sub.depth p.1 p.2.1
      p.2.2) (w0.lastUse e.sub.depth u.rd e.sub.mask))).pget q := by intro q; simp only [Wave.pget, hpr]
  have hq0 : ∀ q, w0.pget q = (r.regs.foldl (fun w p => w.wr e.sub.depth p.1 p.2.1 p.2.2)
      (w0.lastUse e.sub.depth u.rd e.sub.mask)).pget q := by intro q; simp only [Wave.pget, hpreds1]
  have hrd : ∀ (a b : Wave) (x : RegRef) k, a.vregs = b.vregs → a.uregs = b.uregs →
      a.rd e.sub.depth e.sub.mask x k = b.rd e.sub.depth e.sub.mask x k := by
    intro a b x k ha hb
    simp only [Wave.rd, Wave.vget, Wave.uget, ha, hb]
  have nilp : ∀ k, e.parts u = 0 → k ∈ lanesIn (e.parts u) → False := by
    intro k h0 hk
    rw [h0, mem_lanesIn] at hk
    simp at hk
  refine ⟨w', hw, hw', ?_, ?_, ?_, ?_, ?_, ?_, ?_, hpass, ?_, State.settle_spares h s' w0 hw r kind tag (e.parts u) hr⟩
  · intro f hf d hd k hk
    rcases hregs with ⟨F, hF, he⟩ | ⟨he, -⟩ | ⟨h0, -⟩
    · obtain rfl : F = f := by rw [hg, hF] at hf; exact Option.some.inj hf
      have h1 := hs.wr
      match hwr : u.wr, h1 with
      | [], _ => simp [hwr] at hd
      | [y], _ =>
        rw [hwr] at hd
        simp only [List.mem_singleton] at hd
        subst hd
        rw [he, hwr] at hv huu
        simp only [List.map_cons, List.map_nil, List.foldl_cons, List.foldl_nil] at hv huu
        unfold Wave.shows
        rw [hrd w' _ d k hv huu]
        refine Wave.wr_shows _ _ _ _ _ _ _ ((mem_lanesIn _ _).1 hk) (hs.uni d (by simp [hwr])) h.lanes ?_
        rw [hlive0, hlive]
        exact h.live
      | _ :: _ :: _, h1 => simp at h1
    · rw [hg, he] at hf; simp at hf
    · exact (nilp k h0 hk).elim
  · intro q k hk hx
    have hkm : ∀ x ∈ r.regs, k ∉ lanesIn x.2.1 := fun x hx => by rw [(hrm x hx).2]; exact hk
    have e1 : w'.vget e.sub.depth q k = (r.regs.foldl (fun w p => w.wr e.sub.depth p.1 p.2.1 p.2.2)
        (w0.lastUse e.sub.depth u.rd e.sub.mask)).vget e.sub.depth q k := by simp only [Wave.vget, hv]
    rw [e1, foldl_keeps _ (fun a : Wave => a.vget e.sub.depth q k) r.regs _ fun a x hx => Wave.wr_idle _ _ _ _ _ _ _ (hkm x hx)]
    have : (w0.lastUse e.sub.depth u.rd e.sub.mask).vregs.get? (regKey q e.sub.depth) = w0.vregs.get? (regKey q e.sub.depth) :=
      Wave.lastUse_vregs _ _ _ _ fun x hxm hlu huni j hj hkey => hx x hxm hlu huni (by
        have := regKey_inj hkey
        omega)
    simp only [Wave.vget, this]
  · intro q hqm hq7 k hk
    rcases hpreds with he | ⟨h0, -⟩
    · have h1 := hs.pw
      match hpw : u.pw, h1 with
      | [], _ => simp [hpw] at hqm
      | [y], _ =>
        rw [hpw] at hqm
        simp only [List.mem_singleton] at hqm
        subst hqm
        rw [hq, he, hpw]
        simp only [List.map_cons, List.map_nil, List.foldl_cons, List.foldl_nil]
        rw [Wave.pput_self _ _ _ _ _ hq7 (by rw [hpreds1, hlen]; have := hs.pred q (by simp [hpw]); omega) ((mem_lanesIn _ _).1 hk),
          hb k hk]
      | _ :: _ :: _, h1 => simp at h1
    · exact (nilp k h0 hk).elim
  · intro q k hk
    rw [hq, hq0]
    refine foldl_keeps _ (fun a : Wave => (a.pget q).getLsbD k) r.preds _ fun a x hx => ?_
    by_cases hxq : x.1 = q
    · have hm := (hpm x hx).2
      have hk' : (x.2.1).getLsbD k = false := by
        rw [hm]
        have := (mem_lanesIn (e.parts u) k).not.1 hk
        simpa using this
      subst hxq
      exact Wave.pput_off _ _ _ _ _ hk'
    · rw [Wave.pput_ne _ _ _ _ _ (Ne.symm hxq)]
  · rw [hfp, hf]; exact w0.commit_flags e.sub.depth e.sub.mask u r
  · rw [hts, hd]; exact w0.commit_tstat e.sub.depth e.sub.mask u r hst
  · rw [hdw, hdr]; exact w0.commit_draws e.sub.depth e.sub.mask u r
  · refine ⟨fun key hk => ?_, fun key hk => ?_, fun q hqn => ?_, by rw [hctl, hc.ctl], by rw [hseed, hc.seed], by rw [hkeys, hc.keys],
      ⟨by rw [hc1, hc.cause], by rw [hc2, hc.pc], by rw [hc3, hc.addr]⟩, ⟨by rw [hpres, hc.present], by rw [hlv, hc.live]⟩,
      by rw [hjoin, hc.joins], hoth⟩
    · rw [hv, foldl_keeps _ (fun a : Wave => a.vregs.get? key) r.regs _ fun a x hx =>
        Wave.wr_vregs _ _ _ _ _ fun hux j hj hkey => hk ⟨x.1, Or.inl (hrm x hx).1, hux, j, hj, hkey⟩]
      exact Wave.lastUse_vregs _ _ _ _ fun x hx hlu hux j hj hkey => hk ⟨x, Or.inr ⟨hx, hlu⟩, hux, j, hj, hkey⟩
    · rw [huu, foldl_keeps _ (fun a : Wave => a.uregs.get? key) r.regs _ fun a x hx =>
        Wave.wr_uregs _ _ _ _ _ (fun hux j hj hkey => hk ⟨x.1, Or.inl (hrm x hx).1, hux, j, hj, hkey⟩) (hs.uni _ (hrm x hx).1)]
      exact Wave.lastUse_uregs _ _ _ _ fun x hx hlu hux j hj hkey => hk ⟨x, Or.inr ⟨hx, hlu⟩, hux, j, hj, hkey⟩
    · rw [hq, hq0]
      refine foldl_keeps _ (fun a : Wave => a.pget q) r.preds _ fun a x hx => ?_
      exact Wave.pput_ne _ _ _ _ _ fun hxq => hqn (hxq ▸ (hpm x hx).1)

/-! ## Laws of one effect -/

/-- A law holds once the meaning's answer is known. -/
theorem effect_law {i : Instr} {ok : State → Use → Ex → Prop} {g : State → Use → Ex → State} {r : State → Use → Ex → Gives}
    (hx : ∀ s u e, Issues s i u e → e.fresh u → ok s u e → ∃ (w0 : Wave) (q : LaneRes) (kind : FlightKind)
      (tag : Option (Nat × Nat)) (B : Lanes),
      exec i s = .next ((g s u e).settle e u i.opcode q kind tag (e.parts u)) ∧
      (g s u e).wave? e.t e.w = some w0 ∧ w0.live = e.wave.live ∧ w0.preds.length = 7 ∧ q.traps = [] ∧ q.stale = false ∧
      ((∃ F, (r s u e).val = some F ∧ q.regs = u.wr.map fun d => (d, e.parts u, F)) ∨ ((r s u e).val = none ∧ q.regs = []) ∨
        (e.parts u = 0 ∧ q.regs = [])) ∧
      ((q.preds = u.pw.map fun x => (x, e.parts u, B)) ∨ (e.parts u = 0 ∧ q.preds = [])) ∧
      (∀ k ∈ lanesIn (e.parts u), (r s u e).bit k = B.getLsbD k) ∧ (r s u e).fl = q.fl ∧ (r s u e).divz = q.divz ∧
      (r s u e).draws = q.draws) : EffectLaw i ok g r := by
  intro s u e h hf ho
  obtain ⟨w0, q, kind, tag, B, he, hw, hl, hp, ht, hst, hregs, hpreds, hb, hfl, hdz, hdr⟩ := hx s u e h hf ho
  obtain ⟨w', hi⟩ := State.settle_issued h.toRuns (g s u e) w0 hw hl hp q kind tag ht hst (use_single i u h.use) _ B hregs hpreds (r s u e)
    rfl hb hfl hdz hdr
  exact ⟨_, w0, w', he, hi⟩

/-- What an answer of a meaning must be for the law of its instruction: no trap, no released read, and the destinations that
the result names. -/
structure Answers (u : Use) (e : Ex) (g : Gives) (q : LaneRes) : Prop where
  traps : q.traps = []
  stale : q.stale = false
  regs : (∃ f, g.val = some f ∧ q.regs = u.wr.map fun d => (d, e.parts u, f)) ∨ (g.val = none ∧ q.regs = []) ∨
    (e.parts u = 0 ∧ q.regs = [])
  preds : (∃ b, q.preds = u.pw.map (fun x => (x, e.parts u, b)) ∧ ∀ k ∈ lanesIn (e.parts u), g.bit k = b.getLsbD k) ∨
    ((e.parts u = 0 ∨ u.pw = []) ∧ q.preds = [])
  fl : g.fl = q.fl
  divz : g.divz = q.divz
  draws : g.draws = q.draws

/-- The law of an instruction whose meaning answers at once, with an effect beyond the wave. -/
theorem done_law {i : Instr} {always branch : Bool} {body : Use → State → Ex → Lanes → Issue}
    {act : Use → Nat → Grid → State → Span → SpanAct} {ok : State → Use → Ex → Prop} {g : State → Use → Ex → State}
    {r : State → Use → Ex → Gives} (hx : ∀ s, exec i s = issue i always branch body act s)
    (hb : ∀ s u e, Issues s i u e → e.fresh u → ok s u e → ∃ (w0 : Wave) (q : LaneRes) (kind : FlightKind)
      (tag : Option (Nat × Nat)), body u s e (e.parts u) = .done (g s u e) q kind tag ∧ (g s u e).wave? e.t e.w = some w0 ∧
      w0.live = e.wave.live ∧ w0.preds.length = 7 ∧ Answers u e (r s u e) q) : EffectLaw i ok g r := by
  refine effect_law fun s u e h hf ho => ?_
  obtain ⟨w0, q, kind, tag, hd, hw, hl, hp, a⟩ := hb s u e h hf ho
  rcases a.preds with ⟨b, hpr, hbit⟩ | ⟨h0, hpr⟩
  · exact ⟨w0, q, kind, tag, b, by rw [hx, issue_eq h, hd]; rfl, hw, hl, hp, a.traps, a.stale, a.regs, Or.inl hpr, hbit, a.fl, a.divz, a.draws⟩
  · refine ⟨w0, q, kind, tag, lanesOf fun k => (r s u e).bit k, by rw [hx, issue_eq h, hd]; rfl, hw, hl, hp, a.traps, a.stale, a.regs,
      ?_, fun k hk => ?_, a.fl, a.divz, a.draws⟩
    · rcases h0 with h0 | h0
      · exact Or.inr ⟨h0, hpr⟩
      · exact Or.inl (by simp [h0, hpr])
    · have hk16 : k < 16 := by
        have := (mem_lanesIn _ _).1 hk
        by_contra hc
        simp [BitVec.getLsbD_of_ge _ k (by omega : 16 ≤ k)] at this
      exact (lanesOf_bit _ _ hk16).symm

/-- The results agree in the participants, and else are equal. -/
def Gives.agree (p : Lanes) (a b : Gives) : Prop :=
  { a with val := b.val } = b ∧
    ((a.val = none ∧ b.val = none) ∨ ∃ f f', a.val = some f ∧ b.val = some f' ∧ ∀ k ∈ lanesIn p, f k = f' k)

theorem Issued.congr {u : Use} {e : Ex} {a b : Gives} {s t : State} {w w' : Wave} (h : Issued u e a s t w w')
    (hab : a.agree (e.parts u) b) : Issued u e b s t w w' := by
  obtain ⟨h2, hab⟩ := hab
  refine ⟨h.before, h.after, ?_, h.idle, ?_, h.others, ?_, ?_, ?_, h.passed, h.wave, h.state⟩
  · intro g hg d hd k hkm
    obtain ⟨-, hb⟩ | ⟨f, f', ha, hb, hk⟩ := hab
    · rw [hb] at hg; cases hg
    obtain rfl : f' = g := by rw [hb] at hg; exact Option.some.inj hg
    rw [← hk]
    · exact h.regs f ha d hd k hkm
    · split
      · unfold lowLane
        cases hl : lanesIn (e.parts u) with
        | nil => rw [hl] at hkm; simp at hkm
        | cons x r => simp
      · exact hkm
  · rw [← h2]; exact h.preds
  · rw [← h2]; exact h.flags
  · rw [← h2]; exact h.tstat
  · rw [← h2]; exact h.draws

/-- The law of an instruction whose answer agrees with the law's result in the participants. -/
theorem done_law_on {i : Instr} {always branch : Bool} {body : Use → State → Ex → Lanes → Issue}
    {act : Use → Nat → Grid → State → Span → SpanAct} {ok : State → Use → Ex → Prop} {g : State → Use → Ex → State}
    {r : State → Use → Ex → Gives} (hx : ∀ s, exec i s = issue i always branch body act s)
    (hb : ∀ s u e, Issues s i u e → e.fresh u → ok s u e → ∃ (w0 : Wave) (q : LaneRes) (kind : FlightKind)
      (tag : Option (Nat × Nat)) (r' : Gives), body u s e (e.parts u) = .done (g s u e) q kind tag ∧
      (g s u e).wave? e.t e.w = some w0 ∧ w0.live = e.wave.live ∧ w0.preds.length = 7 ∧ Answers u e r' q ∧
      r'.agree (e.parts u) (r s u e)) : EffectLaw i ok g r := by
  intro s u e h hf ho
  obtain ⟨w0, q, kind, tag, r', hd, hw, hl, hp, ha, hr⟩ := hb s u e h hf ho
  have law : EffectLaw i (fun s₁ u₁ e₁ => s₁ = s ∧ u₁ = u ∧ e₁ = e) g fun _ _ _ => r' :=
    done_law hx fun s₁ u₁ e₁ _ _ he => by
      obtain ⟨rfl, rfl, rfl⟩ := he
      exact ⟨w0, q, kind, tag, hd, hw, hl, hp, ha⟩
  obtain ⟨t, w, w', h1, h2⟩ := law s u e h hf ⟨rfl, rfl, rfl⟩
  exact ⟨t, w, w', h1, h2.congr hr⟩

/-- The same for an instruction that touches registers and predicates alone. -/
theorem reg_law {i : Instr} {always branch : Bool} {body : Use → State → Ex → Lanes → Issue}
    {act : Use → Nat → Grid → State → Span → SpanAct} {ok : State → Use → Ex → Prop}
    {r : State → Use → Ex → Gives} (hx : ∀ s, exec i s = issue i always branch body act s)
    (hb : ∀ s u e, Issues s i u e → e.fresh u → ok s u e → ∃ (q : LaneRes) (kind : FlightKind)
      (tag : Option (Nat × Nat)), body u s e (e.parts u) = .done s q kind tag ∧ Answers u e (r s u e) q) : RegLaw i ok r :=
  done_law hx fun s u e h hf ho => by
    obtain ⟨q, kind, tag, hd, a⟩ := hb s u e h hf ho
    exact ⟨e.wave, q, kind, tag, hd, h.wave?, rfl, h.preds, a⟩

/-! ## Lane-wise instructions -/

theorem Wave.staleTraps_fresh (w : Wave) (d : Nat) (m p : Lanes) (rs : List RegRef)
    (h : ∀ i ∈ lanesIn p, w.staleAt d m rs i = false) : w.staleTraps d m p rs = [] := by
  unfold Wave.staleTraps
  split
  · simp only [List.map_eq_nil_iff, List.filter_eq_nil_iff]
    intro i hi
    simp [h i hi]
  · rfl

theorem Wave.staleSets_fresh (w : Wave) (d : Nat) (m p : Lanes) (rs : List RegRef)
    (h : ∀ i ∈ lanesIn p, w.staleAt d m rs i = false) : w.staleSets d m p rs = false := by
  unfold Wave.staleSets
  simp only [Bool.and_eq_false_imp, Bool.not_eq_true', List.any_eq_false]
  intro _ i hi
  simp [h i hi]

/-- The law of a lane-wise instruction whose meaning is the operation `f` in each participant. -/
theorem lanewise_law {i : Instr} {f : LaneIn → LaneOut}
    (hx : ∀ s u e, Issues s i u e → exec i s = .next
      (s.settle e u i.opcode (e.wave.lanewise e.sub.depth e.sub.mask (e.parts u) u f) .result none (e.parts u))) : LaneLaw i f := by
  refine effect_law fun s u e h hfresh htrap => ?_
  have hsg := use_single i u h.use
  have hst := Wave.staleTraps_fresh e.wave e.sub.depth e.sub.mask (e.parts u) u.rd hfresh
  have hrun : ((lanesIn (e.parts u)).filter fun i => !([] : LaneTraps).any fun q => q.1 == i) = lanesIn (e.parts u) := by
    simp
  refine ⟨e.wave, e.wave.lanewise e.sub.depth e.sub.mask (e.parts u) u f, .result, none,
    lanesOf fun k => (((f (e.lane u k)).bits[0]?).getD false), hx s u e h, h.wave?, rfl, h.preds, ?_,
    Wave.staleSets_fresh _ _ _ _ _ hfresh, Or.inl ⟨_, rfl, ?_⟩, Or.inl ?_, ?_, ?_, ?_, ?_⟩
  · simp only [Wave.lanewise, hst, hrun, List.nil_append, List.filterMap_eq_nil_iff]
    intro k hk
    have := htrap k hk
    unfold Ex.lane at this
    simp [this]
  · have hl := hsg.wr
    rcases hwr : u.wr with _ | ⟨d, _ | ⟨d', l⟩⟩
    · simp [Wave.lanewise, hwr]
    · simp [Wave.lanewise, hwr, Ex.lane]
    · simp [hwr] at hl
  · have hl := hsg.pw
    rcases hpw : u.pw with _ | ⟨d, _ | ⟨d', l⟩⟩
    · simp [Wave.lanewise, hpw]
    · simp [Wave.lanewise, hpw, Ex.lane]
    · simp [hpw] at hl
  · intro k hk
    have hk16 : k < 16 := by
      have := (mem_lanesIn _ _).1 hk
      by_contra hc
      simp [BitVec.getLsbD_of_ge _ k (by omega : 16 ≤ k)] at this
    exact (lanesOf_bit _ _ hk16).symm
  · simp only [Wave.lanewise, hst, hrun, Ex.lane]
  · simp only [Wave.lanewise, hst, hrun, Ex.lane]
  · simp only [Wave.lanewise, hst, hrun, Ex.lane]
    rfl

/-- The law of an instruction that is `laneOp` of `f`. -/
theorem laneOp_law {i : Instr} {rule : SpanRule} {f : LaneIn → LaneOut} (hx : ∀ s, exec i s = laneOp i rule f s) : LaneLaw i f :=
  lanewise_law fun s u e h => by rw [hx, laneOp, issue_eq h]; rfl

/-! ## Group operations, and instructions executed once -/

theorem lanesOf_ne (p : Lanes) (f : Nat → Bool) : (lanesOf (fun i => p.getLsbD i && f i) != 0) = (lanesIn p).any f := by
  rw [Bool.eq_iff_iff]
  rw [bne_iff_ne, List.any_eq_true]
  constructor
  · intro h
    by_contra hc
    apply h
    apply BitVec.eq_of_getLsbD_eq
    intro i hi
    rw [lanesOf_bit _ _ hi]
    rw [show (0 : Lanes).getLsbD i = false by simp, Bool.and_eq_false_iff]
    by_cases hp : p.getLsbD i = true
    · right
      by_contra hf
      exact hc ⟨i, (mem_lanesIn _ _).2 hp, by simpa using hf⟩
    · left; simpa using hp
  · rintro ⟨k, hk, hf⟩ h
    have hp := (mem_lanesIn _ _).1 hk
    have hk16 : k < 16 := by
      by_contra hc
      simp [BitVec.getLsbD_of_ge _ k (by omega : 16 ≤ k)] at hp
    have := lanesOf_bit (fun i => p.getLsbD i && f i) k hk16
    rw [h] at this
    simp [hp, hf] at this

theorem lanesOf_all (p : Lanes) (f : Nat → Bool) : (lanesOf (fun i => p.getLsbD i && f i) == p) = (lanesIn p).all f := by
  rw [Bool.eq_iff_iff]
  rw [beq_iff_eq, List.all_eq_true]
  constructor
  · intro h k hk
    have hp := (mem_lanesIn _ _).1 hk
    have hk16 : k < 16 := by
      by_contra hc
      simp [BitVec.getLsbD_of_ge _ k (by omega : 16 ≤ k)] at hp
    have := lanesOf_bit (fun i => p.getLsbD i && f i) k hk16
    rw [h] at this
    simpa [hp] using this
  · intro h
    apply BitVec.eq_of_getLsbD_eq
    intro i hi
    rw [lanesOf_bit _ _ hi]
    by_cases hp : p.getLsbD i = true
    · simp [hp, h i ((mem_lanesIn _ _).2 hp)]
    · simp [hp]

theorem Wave.together_eq (w : Wave) (d : Nat) (m p : Lanes) (u : Use) (f : (Nat → LaneIn) → LaneRes)
    (h : ∀ i ∈ lanesIn p, w.staleAt d m u.rd i = false) :
    w.together d m p u f = if p = 0 then {} else { f (w.laneIn d m u) with stale := false } := by
  unfold Wave.together
  rw [w.staleTraps_fresh d m p u.rd h, w.staleSets_fresh d m p u.rd h]
  rfl

/-- The law of a group operation (R196, R197). -/
theorem together_law {i : Instr} {always branch : Bool} {kind : FlightKind} {f : Use → W64 → Lanes → (Nat → LaneIn) → LaneRes}
    {act : Use → Nat → Grid → State → Span → SpanAct} {ok : State → Use → Ex → Prop} {r : State → Use → Ex → Gives}
    (hx : ∀ s, exec i s = issue i always branch (fun u s e p =>
      .done s (e.wave.together e.sub.depth e.sub.mask p u (f u e.wave.ctl p)) kind none) act s)
    (h0 : ∀ s u e, ok s u e → e.parts u = 0 → (r s u e).fl = 0 ∧ (r s u e).divz = false ∧ (r s u e).draws = [])
    (hb : ∀ s u e, Issues s i u e → ok s u e → e.parts u ≠ 0 →
      Answers u e (r s u e) { f u e.wave.ctl (e.parts u) (e.lane u) with stale := false }) : RegLaw i ok r := by
  refine reg_law hx fun s u e h hf ho => ⟨_, _, _, rfl, ?_⟩
  rw [Wave.together_eq _ _ _ _ _ _ hf]
  by_cases hp : e.parts u = 0
  · obtain ⟨a, b, c⟩ := h0 s u e ho hp
    simp only [hp, if_true]
    exact ⟨rfl, rfl, Or.inr (Or.inr ⟨hp, rfl⟩), Or.inr ⟨Or.inl hp, rfl⟩, a, b, c⟩
  · simp only [hp, if_false]
    exact hb s u e h ho hp

theorem group_law {i : Instr} {f : Use → W64 → Lanes → (Nat → LaneIn) → LaneRes} {ok : State → Use → Ex → Prop}
    {r : State → Use → Ex → Gives} (hx : ∀ s, exec i s = groupOp i f s)
    (h0 : ∀ s u e, ok s u e → e.parts u = 0 → (r s u e).fl = 0 ∧ (r s u e).divz = false ∧ (r s u e).draws = [])
    (hb : ∀ s u e, Issues s i u e → ok s u e → e.parts u ≠ 0 →
      Answers u e (r s u e) { f u e.wave.ctl (e.parts u) (e.lane u) with stale := false }) : RegLaw i ok r :=
  together_law (f := f) hx h0 hb

theorem mem_lowLane (p : Lanes) (h : p ≠ 0) : lowLane p ∈ lanesIn p := by
  unfold lowLane
  cases hl : lanesIn p with
  | nil =>
    exfalso
    apply h
    ext i hi
    have : i ∉ lanesIn p := by simp [hl]
    rw [mem_lanesIn] at this
    rw [← BitVec.getLsbD_eq_getElem hi]
    simpa using this
  | cons a r => simp

theorem Runs.src_eq {s : State} {u : Use} {e : Ex} (h : Runs s u e) (k j : Nat) :
    e.src u k j = ((e.lane u k).src[j]?).getD 0 := by
  unfold Ex.src Ex.srcs Ex.lane Wave.laneIn
  rw [h.free]
  simp

/-- An instruction executed once for its sub-wave (R242), with its operands those of the lowest participant. -/
theorem once_eq {s : State} {i : Instr} {u : Use} {e : Ex} (h : Issues s i u e) (hf : e.fresh u) (hp : e.parts u ≠ 0) (s' : State)
    (k : (Nat → Nat) → LaneRes → Issue) :
    once u s' e (e.parts u) k = k (e.operand u) {} := by
  have hst : e.stale u (lowLane (e.parts u)) = false := by
    have := hf _ (mem_lowLane _ hp)
    unfold Ex.stale Ex.srcs
    rw [h.free]
    exact this
  unfold once
  simp only [hp, if_false, hst, Bool.and_false, Bool.false_eq_true]
  congr 1
  funext j
  exact h.src_eq _ j

theorem Runs.runs_eq {s : State} {u : Use} {e : Ex} (h : Runs s u e) (hf : e.fresh u) :
    e.runs u (e.parts u) = lanesIn (e.parts u) := by
  unfold Ex.runs
  rw [List.filter_eq_self]
  intro k hk
  have := hf k hk
  unfold Ex.stale Ex.srcs
  rw [h.free]
  unfold Wave.staleAt at this
  simp [this]

theorem Runs.staleTraps_eq {s : State} {u : Use} {e : Ex} (h : Runs s u e) (hf : e.fresh u) :
    e.staleTraps u (e.parts u) = [] := by
  unfold Ex.staleTraps
  rw [List.map_eq_nil_iff, List.filter_eq_nil_iff]
  intro k hk
  have := hf k hk
  unfold Ex.stale Ex.srcs
  rw [h.free]
  unfold Wave.staleAt at this
  simp [this]

theorem Runs.staleSets_eq {s : State} {u : Use} {e : Ex} (h : Runs s u e) (hf : e.fresh u) :
    e.staleSets u (e.parts u) = false := by
  unfold Ex.staleSets
  rw [Bool.and_eq_false_iff]
  refine Or.inr (List.any_eq_false.2 fun k hk => ?_)
  have := hf k hk
  unfold Ex.stale Ex.srcs
  rw [h.free]
  unfold Wave.staleAt at this
  simp [this]

/-- The law of an instruction executed once (R242), where some lane participates. -/
theorem once_law {i : Instr} {always branch : Bool} {k : Use → State → Ex → Lanes → (Nat → Nat) → LaneRes → Issue}
    {act : Use → Nat → Grid → State → Span → SpanAct} {ok : State → Use → Ex → Prop} {g : State → Use → Ex → State}
    {r : State → Use → Ex → Gives}
    (hx : ∀ s, exec i s = issue i always branch (fun u s e p => once u s e p (k u s e p)) act s)
    (ho : ∀ s u e, ok s u e → e.parts u ≠ 0)
    (hb : ∀ s u e, Issues s i u e → ok s u e → ∃ (w0 : Wave) (q : LaneRes) (kind : FlightKind) (tag : Option (Nat × Nat)),
      k u s e (e.parts u) (e.operand u) {} = .done (g s u e) q kind tag ∧
      (g s u e).wave? e.t e.w = some w0 ∧ w0.live = e.wave.live ∧ w0.preds.length = 7 ∧ Answers u e (r s u e) q) :
    EffectLaw i ok g r :=
  done_law hx fun s u e h hf hk => by rw [once_eq h hf (ho s u e hk)]; exact hb s u e h hk

end Sys2Proof.Machine
end

