-- ==== Sys2Proof/Laws/Memory.lean ====
section
/-!
SUPPORT. Memory (Machine/Ops.lean): what a store leaves to be read, that every operation keeps the canonical form, and that
equal contents in that form are equal data.
-/
namespace Sys2Proof.Machine
open Sys2Proof

/-- The canonical form with every address at or above a bound. -/
def Memory.from_ (lo : Nat) : Memory → Prop
  | [] => True
  | (x, y) :: r => lo ≤ x ∧ y ≠ 0 ∧ Memory.from_ (x + 1) r

theorem Memory.from_mono {a b : Nat} (m : Memory) (h : a ≤ b) (hm : m.from_ b) : m.from_ a := by
  cases m with
  | nil => trivial
  | cons p r => exact ⟨by have := hm.1; omega, hm.2⟩

theorem Memory.wf_iff (m : Memory) : m.wf = true ↔ m.from_ 0 := by
  have key : ∀ (m : Memory) (x : Nat) (y : Byte), Memory.wf ((x, y) :: m) = true ↔ y ≠ 0 ∧ m.from_ (x + 1) := by
    intro m
    induction m with
    | nil => intro x y; simp [Memory.wf, Memory.from_]
    | cons p r ih =>
      obtain ⟨x', y'⟩ := p
      intro x y
      simp only [Memory.wf, Bool.and_eq_true, decide_eq_true_eq, bne_iff_ne, ne_eq, ih, Memory.from_]
      constructor
      · rintro ⟨⟨h1, h2⟩, h3, h4⟩; exact ⟨h2, by omega, h3, h4⟩
      · rintro ⟨h2, h1, h3, h4⟩; exact ⟨⟨by omega, h2⟩, h3, h4⟩
  cases m with
  | nil => simp [Memory.wf, Memory.from_]
  | cons p r => obtain ⟨x, y⟩ := p; rw [key]; simp [Memory.from_]

theorem Memory.put_from (m : Memory) (lo a : Nat) (b : Byte) (h : m.from_ lo) (ha : lo ≤ a) : (m.put a b).from_ lo := by
  induction m generalizing lo with
  | nil =>
    unfold Memory.put
    split
    · trivial
    · rename_i hb; exact ⟨ha, hb, trivial⟩
  | cons p r ih =>
    obtain ⟨x, y⟩ := p
    obtain ⟨h1, h2, h3⟩ := h
    unfold Memory.put
    split
    · split
      · exact ⟨h1, h2, h3⟩
      · rename_i hb; exact ⟨ha, hb, by omega, h2, h3⟩
    · split
      · split
        · exact Memory.from_mono r (by omega) h3
        · rename_i hx hb; subst hx; exact ⟨ha, hb, h3⟩
      · exact ⟨h1, h2, ih (x + 1) h3 (by omega)⟩

/-- A store keeps the canonical form. -/
theorem Memory.put_wf (m : Memory) (a : Nat) (b : Byte) (h : m.wf = true) : (m.put a b).wf = true :=
  (Memory.wf_iff _).2 (Memory.put_from m 0 a b ((Memory.wf_iff m).1 h) (Nat.zero_le a))

theorem Memory.putN_wf (m : Memory) (a n v : Nat) (h : m.wf = true) : (m.putN a n v).wf = true := by
  induction n generalizing m a v with
  | zero => exact h
  | succ n ih => exact ih _ _ _ (Memory.put_wf m a _ h)

theorem Memory.get_below (m : Memory) (lo a : Nat) (h : m.from_ lo) (ha : a < lo) : m.get a = 0 := by
  induction m generalizing lo with
  | nil => rfl
  | cons p r ih =>
    obtain ⟨x, y⟩ := p
    obtain ⟨h1, _, h3⟩ := h
    unfold Memory.get
    rw [if_neg (by omega)]
    exact ih (x + 1) h3 (by omega)

/-- What a byte reads after a store: the byte stored, or as before. -/
theorem Memory.get_put_from (m : Memory) (lo a c : Nat) (b : Byte) (h : m.from_ lo) :
    (m.put a b).get c = if c = a then b else m.get c := by
  induction m generalizing lo with
  | nil =>
    unfold Memory.put
    by_cases hb : b = 0
    · simp only [hb, if_true, Memory.get]; split <;> rfl
    · simp only [hb, if_false, Memory.get, eq_comm]
  | cons p r ih =>
    obtain ⟨x, y⟩ := p
    obtain ⟨h1, h2, h3⟩ := h
    unfold Memory.put
    by_cases hax : a < x
    · by_cases hb : b = 0
      · simp only [hax, if_true, hb]
        split
        · rename_i hc; subst hc
          unfold Memory.get
          rw [if_neg (by omega)]
          exact Memory.get_below r (x + 1) c h3 (by omega)
        · rfl
      · simp only [hax, if_true, hb, if_false, Memory.get, eq_comm]
    · by_cases hax' : a = x
      · subst hax'
        by_cases hb : b = 0
        · simp only [Nat.lt_irrefl, if_false, if_true, hb]
          split
          · rename_i hc; subst hc
            exact Memory.get_below r (c + 1) c h3 (by omega)
          · rename_i hc
            simp only [Memory.get, if_neg (Ne.symm hc)]
        · simp only [Nat.lt_irrefl, if_false, if_true, hb, Memory.get]
          by_cases hc : a = c
          · simp [hc]
          · simp [hc, Ne.symm hc]
      · simp only [hax, hax', if_false, Memory.get]
        by_cases hc : x = c
        · subst hc; simp [Ne.symm hax']
        · simp only [hc, if_false]
          exact ih (x + 1) h3

theorem Memory.get_put (m : Memory) (a c : Nat) (b : Byte) (h : m.wf = true) :
    (m.put a b).get c = if c = a then b else m.get c :=
  Memory.get_put_from m 0 a c b ((Memory.wf_iff m).1 h)

theorem Memory.get_putN (m : Memory) (a n v c : Nat) (h : m.wf = true) :
    (m.putN a n v).get c = if a ≤ c ∧ c < a + n then BitVec.ofNat 8 (v / 256 ^ (c - a)) else m.get c := by
  induction n generalizing m a v with
  | zero => simp only [Memory.putN]; rw [if_neg (by omega)]
  | succ n ih =>
    simp only [Memory.putN]
    rw [ih _ _ _ (Memory.put_wf m a _ h), Memory.get_put m a c _ h]
    by_cases h1 : a + 1 ≤ c ∧ c < a + 1 + n
    · rw [if_pos h1, if_pos (by omega), Nat.div_div_eq_div_mul]
      congr 2
      rw [show c - a = (c - (a + 1)) + 1 by omega, Nat.pow_succ, Nat.mul_comm]
    · rw [if_neg h1]
      by_cases hc : c = a
      · subst hc; rw [if_pos rfl, if_pos (by omega)]; simp
      · rw [if_neg hc, if_neg (by omega)]

/-- A read of what has just been stored (R3). -/
theorem Memory.getN_putN (m : Memory) (a n v : Nat) (h : m.wf = true) : (m.putN a n v).getN a n = v % 256 ^ n := by
  have key : ∀ k j (m' : Memory), (∀ i < k, m'.get (a + j + i) = BitVec.ofNat 8 (v / 256 ^ (j + i))) →
      m'.getN (a + j) k = v / 256 ^ j % 256 ^ k := by
    intro k
    induction k with
    | zero => intro j m' _; simp [Memory.getN, Nat.mod_one]
    | succ k ih =>
      intro j m' hm
      simp only [Memory.getN]
      rw [show a + j + 1 = a + (j + 1) by omega, ih (j + 1) m' fun i hi => by
        have := hm (i + 1) (by omega)
        rw [show a + (j + 1) + i = a + j + (i + 1) by omega, this]
        congr 3; omega]
      have h0 := hm 0 (by omega)
      simp only [Nat.add_zero] at h0
      rw [h0, BitVec.toNat_ofNat, Nat.pow_succ 256 k, Nat.mul_comm (256 ^ k) 256, Nat.mod_mul, Nat.div_div_eq_div_mul,
        Nat.pow_succ 256 j]
  have := key n 0 (m.putN a n v) fun i hi => by
    rw [Nat.add_zero, Memory.get_putN m a n v _ h, if_pos (by omega)]
    congr 3; omega
  simpa using this

/-- Two memories in the canonical form that read alike are equal. -/
theorem Memory.ext_from (m m' : Memory) (lo : Nat) (h : m.from_ lo) (h' : m'.from_ lo) (he : ∀ a, m.get a = m'.get a) : m = m' := by
  induction m generalizing lo m' with
  | nil =>
    cases m' with
    | nil => rfl
    | cons p r =>
      obtain ⟨x, y⟩ := p
      have := he x
      simp only [Memory.get, if_true] at this
      exact absurd this.symm h'.2.1
  | cons p r ih =>
    obtain ⟨x, y⟩ := p
    obtain ⟨h1, h2, h3⟩ := h
    cases m' with
    | nil =>
      have := he x
      simp only [Memory.get, if_true] at this
      exact absurd this h2
    | cons p' r' =>
      obtain ⟨x', y'⟩ := p'
      obtain ⟨h1', h2', h3'⟩ := h'
      have hx : x = x' := by
        rcases Nat.lt_trichotomy x x' with hl | he' | hl
        · have := he x
          simp only [Memory.get, if_true, if_neg (by omega : ¬ x' = x)] at this
          rw [Memory.get_below r' (x' + 1) x h3' (by omega)] at this
          exact absurd this h2
        · exact he'
        · have := he x'
          simp only [Memory.get, if_true, if_neg (by omega : ¬ x = x')] at this
          rw [Memory.get_below r (x + 1) x' h3 (by omega)] at this
          exact absurd this.symm h2'
      subst hx
      have hy : y = y' := by have := he x; simpa [Memory.get] using this
      subst hy
      rw [ih r' (x + 1) h3 h3' fun a => ?_]
      by_cases ha : a ≤ x
      · rw [Memory.get_below r (x + 1) a h3 (by omega), Memory.get_below r' (x + 1) a h3' (by omega)]
      · have := he a
        simpa only [Memory.get, if_neg (by omega : ¬ x = a)] using this

/-! ## Runs of bytes -/

theorem Memory.filter_from (m : Memory) (p : Host.Cell → Bool) (lo : Nat) (h : m.from_ lo) : Memory.from_ lo (m.filter p) := by
  induction m generalizing lo with
  | nil => trivial
  | cons q r ih =>
    obtain ⟨x, y⟩ := q
    obtain ⟨h1, h2, h3⟩ := h
    rw [List.filter_cons]
    split
    · exact ⟨h1, h2, ih (x + 1) h3⟩
    · exact ih lo (Memory.from_mono r (by omega) h3)

theorem Memory.append_from (m r : Memory) (lo hi : Nat) (h : m.from_ lo) (hm : ∀ c ∈ m, c.1 < hi) (hr : r.from_ hi) (hl : lo ≤ hi) :
    Memory.from_ lo (m ++ r) := by
  induction m generalizing lo with
  | nil => exact Memory.from_mono r hl hr
  | cons q t ih =>
    obtain ⟨x, y⟩ := q
    obtain ⟨h1, h2, h3⟩ := h
    have hx := hm (x, y) (by simp)
    exact ⟨h1, h2, ih (x + 1) h3 (fun c hc => hm c (by simp [hc])) (by simpa using hx)⟩

theorem Memory.listFrom_from (a : Nat) (bs : List Byte) : (Memory.listFrom a bs).from_ a := by
  induction bs generalizing a with
  | nil => trivial
  | cons b r ih =>
    unfold Memory.listFrom
    split
    · exact Memory.from_mono _ (by omega) (ih (a + 1))
    · rename_i hb; exact ⟨Nat.le_refl a, hb, ih (a + 1)⟩

theorem Memory.listFrom_lt (a : Nat) (bs : List Byte) : ∀ c ∈ Memory.listFrom a bs, c.1 < a + bs.length := by
  induction bs generalizing a with
  | nil => simp [Memory.listFrom]
  | cons b r ih =>
    intro c hc
    unfold Memory.listFrom at hc
    have := ih (a + 1) c
    split at hc
    · have := this hc; simp only [List.length_cons]; omega
    · rcases List.mem_cons.1 hc with rfl | hc
      · simp
      · have := this hc; simp only [List.length_cons]; omega

theorem Memory.above_from (m : Memory) (lo b : Nat) (h : m.from_ lo) : Memory.from_ b (m.filter fun c => decide (b ≤ c.1)) := by
  induction m generalizing lo with
  | nil => trivial
  | cons q r ih =>
    obtain ⟨x, y⟩ := q
    obtain ⟨h1, h2, h3⟩ := h
    rw [List.filter_cons]
    split
    · rename_i hb; exact ⟨by simpa using hb, h2, Memory.filter_from r _ (x + 1) h3⟩
    · exact ih (x + 1) h3

/-- A run of bytes stored keeps the canonical form. -/
theorem Memory.splice_wf (m : Memory) (a : Nat) (bs : List Byte) (h : m.wf = true) : (m.splice a bs).wf = true := by
  have h0 := (Memory.wf_iff m).1 h
  rw [Memory.wf_iff]
  unfold Memory.splice
  refine Memory.append_from _ _ 0 (a + bs.length) (Memory.append_from _ _ 0 a (Memory.filter_from m _ 0 h0) ?_
    (Memory.listFrom_from a bs) (Nat.zero_le a)) ?_ (Memory.above_from m 0 _ h0) (Nat.zero_le _)
  · intro c hc; simpa using (List.mem_filter.1 hc).2
  · intro c hc
    rcases List.mem_append.1 hc with hc | hc
    · have := (List.mem_filter.1 hc).2
      simp only [decide_eq_true_eq] at this
      omega
    · exact Memory.listFrom_lt a bs c hc

theorem Memory.filter_wf (m : Memory) (p : Host.Cell → Bool) (h : m.wf = true) : Memory.wf (m.filter p) = true :=
  (Memory.wf_iff _).2 (Memory.filter_from m p 0 ((Memory.wf_iff m).1 h))

end Sys2Proof.Machine
end

