-- ==== Sys2Proof/Laws/Calm.lean ====
section
/-!
SUPPORT. What the memory system may change while it makes an access ready or carries it out (Machine/Home.lean,
Machine/Access.lean, Machine/Stash.lean): never a wave, a span, a grid or a context, and memory keeps its canonical form.
-/
namespace Sys2Proof.Machine
open Sys2Proof

/-- `s'` has the waves, spans, grids and contexts of `s`, and memory in its canonical form where `s` had. -/
structure State.Calm (s s' : State) : Prop where
  waves : ∀ t, (s'.teams.get? t).map Team.waves = (s.teams.get? t).map Team.waves
  mem : s.mem.wf = true → s'.mem.wf = true
  spans : s'.spans = s.spans
  grids : s'.grids = s.grids
  ctxs : s'.ctxs = s.ctxs

theorem State.Calm.refl (s : State) : State.Calm s s := ⟨fun _ => rfl, id, rfl, rfl, rfl⟩

theorem State.Calm.trans {a b c : State} (h : State.Calm a b) (g : State.Calm b c) : State.Calm a c :=
  ⟨fun t => (g.waves t).trans (h.waves t), fun w => g.mem (h.mem w), g.spans.trans h.spans, g.grids.trans h.grids,
    g.ctxs.trans h.ctxs⟩

theorem State.Calm.foldl {β : Type} {a : State} (f : State → β → State) (h : ∀ s x, State.Calm s (f s x)) (l : List β) (s : State)
    (hs : State.Calm a s) : State.Calm a (l.foldl f s) :=
  hs.trans (foldl_rel State.Calm State.Calm.refl (fun _ _ _ => State.Calm.trans) f l s h)

theorem State.Calm.wave? {s s' : State} (h : State.Calm s s') (t w : Nat) : s'.wave? t w = s.wave? t w := by
  have := h.waves t
  unfold State.wave?
  cases h1 : s'.teams.get? t <;> cases h2 : s.teams.get? t <;> simp_all

theorem State.Calm.modTeam (s : State) (t : Nat) (f : Team → Team) (h : ∀ tm, (f tm).waves = tm.waves) : State.Calm s (s.modTeam t f) := by
  refine ⟨fun k => ?_, id, rfl, rfl, rfl⟩
  by_cases hk : k = t
  · subst hk
    rw [State.teams_modTeam_self]
    cases s.teams.get? k <;> simp [h]
  · rw [State.teams_modTeam_ne _ _ hk]

theorem State.modCore_calm (s : State) (c : Nat) (f : Core → Core) : State.Calm s (s.modCore c f) := ⟨fun _ => rfl, id, rfl, rfl, rfl⟩

theorem State.escapeTeam_calm (s : State) (t : Nat) : State.Calm s (s.escapeTeam t) :=
  State.Calm.modTeam s t (fun tm => { tm with lap := tm.lap.map fun l => { l with unrecoverable := true } }) fun _ => rfl

theorem State.escapeSector_calm (s : State) (core sec : Nat) : State.Calm s (s.escapeSector core sec) := by
  refine ⟨fun t => ?_, id, rfl, rfl, rfl⟩
  unfold State.escapeSector
  simp only
  induction s.teams with
  | nil => rfl
  | cons p r ih =>
    obtain ⟨k, tm⟩ := p
    simp only [List.map_cons]
    by_cases hk : k = t
    · subst hk
      cases hl : tm.lap with
      | none => simp [Tbl.get?]
      | some l => dsimp only; split <;> simp [Tbl.get?]
    · cases hl : tm.lap with
      | none => simpa [Tbl.get?, hk] using ih
      | some l => dsimp only; split <;> simpa [Tbl.get?, hk] using ih

theorem State.sectorOut_calm (s : State) (core sec : Nat) (e : MapEntry) : State.Calm s (s.sectorOut core sec e) := by
  unfold State.sectorOut
  refine State.Calm.foldl _ (fun s p => ?_) _ _ (.refl s)
  split
  · exact .refl s
  · split <;> exact ⟨fun _ => rfl, fun h => Memory.put_wf _ _ _ h, rfl, rfl, rfl⟩

theorem State.setSector_calm (s : State) (core sec : Nat) (st : Option SecState) (e : Nat) : State.Calm s (s.setSector core sec st e) :=
  ⟨fun _ => rfl, id, rfl, rfl, rfl⟩

theorem State.dropSector_calm (s : State) (core sec : Nat) : State.Calm s (s.dropSector core sec) := ⟨fun _ => rfl, id, rfl, rfl, rfl⟩

theorem State.unregister_calm (s : State) (core : Nat) (ls : List LineRef) : State.Calm s (s.unregister core ls) := by
  unfold State.unregister
  refine State.Calm.foldl _ (fun s l => ?_) _ _ (.refl s)
  dsimp only
  split
  · exact .refl s
  · exact ⟨fun _ => rfl, id, rfl, rfl, rfl⟩

theorem State.freeEntry_calm (s : State) (core e : Nat) : State.Calm s (s.freeEntry core e) := s.modCore_calm _ _

theorem State.writebackDone_calm (s : State) (core sec : Nat) : State.Calm s (s.writebackDone core sec) := by
  unfold State.writebackDone
  dsimp only
  split
  · exact .refl s
  · split
    · exact s.setSector_calm _ _ _ _
    · rename_i e _
      have h := (s.escapeSector_calm core sec).trans (State.sectorOut_calm _ core sec e)
      split
      · exact h.trans (State.setSector_calm _ _ _ _ _)
      · refine (h.trans ?_).trans ((State.unregister_calm _ _ _).trans (State.freeEntry_calm _ _ _))
        split
        · exact State.dropSector_calm _ _ _
        · exact State.setSector_calm _ _ _ _ _

theorem State.displace_calm (s : State) (core entry : Nat) : State.Calm s (s.displace core entry) := by
  unfold State.displace
  dsimp only
  split
  · exact .refl s
  · refine State.Calm.trans (State.Calm.foldl _ (fun s p => ?_) _ _ (s.modCore_calm core _)) (State.freeEntry_calm _ _ _)
    split
    · exact s.setSector_calm _ _ _ _
    · exact .refl s
    all_goals exact (s.setSector_calm _ _ _ _).trans (State.unregister_calm _ _ _)

theorem State.discard_calm (s : State) (core entry : Nat) : State.Calm s (s.discard core entry) := by
  unfold State.discard
  dsimp only
  split
  · exact .refl s
  · exact State.Calm.foldl _ (fun s _ => (s.dropSector_calm _ _).trans (State.unregister_calm _ _ _)) _ _ (.refl s)

theorem State.flush_calm (s : State) (core entry : Nat) : State.Calm s (s.flush core entry) :=
  State.Calm.foldl _ (fun s _ => s.writebackDone_calm _ _) _ _ (.refl s)

/-! ## Lines and their homes -/

theorem State.putEntry_calm (s : State) (e : DirEntry) : State.Calm s (s.putEntry e) := by
  unfold State.putEntry
  split <;> exact ⟨fun _ => rfl, id, rfl, rfl, rfl⟩

theorem State.dropLine_calm (s : State) (l : LineRef) : State.Calm s (s.dropLine l) := ⟨fun _ => rfl, id, rfl, rfl, rfl⟩

theorem State.bump_calm (s : State) : State.Calm s s.bump := ⟨fun _ => rfl, id, rfl, rfl, rfl⟩

theorem State.recallSectors_calm (s : State) (core : Nat) (w : Bool) (l : List (Nat × Sector × MapEntry)) :
    State.Calm s (s.recallSectors core w l) := by
  unfold State.recallSectors
  refine State.Calm.foldl _ (fun s p => ?_) _ _ (.refl s)
  split
  · exact .refl s
  · split
    · exact s.dropSector_calm _ _
    · exact .refl s
  · have h := (s.escapeSector_calm core p.1).trans (State.sectorOut_calm _ core p.1 p.2.2)
    dsimp only
    split
    · exact h.trans (State.dropSector_calm _ _ _)
    · exact h.trans (State.setSector_calm _ _ _ _ _)
  · exact s.writebackDone_calm _ _

theorem State.recallStash_calm (s : State) (core : Nat) (l : LineRef) (w : Bool) : State.Calm s (s.recallStash core l w) :=
  s.recallSectors_calm _ _ _

theorem State.recallKin_calm (s : State) (core : Nat) (e : MapEntry) (sec : Nat) (w : Bool) : State.Calm s (s.recallKin core e sec w) :=
  s.recallSectors_calm _ _ _

theorem State.recallNow_calm (s : State) (l : LineRef) (h : Holder) (w : Bool) : State.Calm s (s.recallNow l h w) := by
  have hb : ∀ b : Bool, State.Calm s (if b = true then s.recallStash h.agent l w else s) := by
    intro b
    cases b
    · exact .refl s
    · exact s.recallStash_calm _ _ _
  unfold State.recallNow
  dsimp only
  have key : ∀ (s' : State) (e : DirEntry) (b : Bool), State.Calm s s' →
      State.Calm s (if b = true then (s'.putEntry e).modCore h.agent fun c => c.uncache l else s'.putEntry e) := by
    intro s' e b hs
    cases b
    · exact hs.trans (s'.putEntry_calm e)
    · rw [if_pos rfl]
      exact (hs.trans (s'.putEntry_calm e)).trans (State.modCore_calm _ _ _)
  exact key _ _ _ (hb _)

theorem State.recallAt_calm (s : State) (l : LineRef) (h : Holder) (w : Bool) : State.Calm s (s.recallAt l h w) := by
  unfold State.recallAt
  split
  · exact .refl s
  · exact s.recallNow_calm _ _ _

theorem State.leaveL1_calm (s : State) (core : Nat) (l : LineRef) : State.Calm s (s.leaveL1 core l) := by
  unfold State.leaveL1
  split
  · exact .refl s
  · dsimp only
    split <;> exact (s.modCore_calm _ _).trans (State.putEntry_calm _ _)

theorem State.leaveIc_calm (s : State) (core : Nat) (l : LineRef) : State.Calm s (s.leaveIc core l) := by
  unfold State.leaveIc
  dsimp only
  split
  · exact s.modCore_calm _ _
  · split
    · exact s.modCore_calm _ _
    · exact (s.modCore_calm _ _).trans (State.putEntry_calm _ _)

theorem State.cacheData_calm (s : State) (core : Nat) (l : LineRef) (v : BitVec 4) (w : Bool) : State.Calm s (s.cacheData core l v w) := by
  unfold State.cacheData
  split
  · exact s.modCore_calm _ _
  · dsimp only
    refine State.Calm.trans ?_ (State.modCore_calm _ _ _)
    split
    · exact (s.leaveL1_calm _ _).trans (State.bump_calm _)
    · exact .refl s

theorem State.cacheCode_calm (s : State) (core : Nat) (l : LineRef) : State.Calm s (s.cacheCode core l) := by
  unfold State.cacheCode
  split
  · exact .refl s
  · dsimp only
    refine State.Calm.trans ?_ (State.modCore_calm _ _ _)
    split
    · exact (s.leaveIc_calm _ _).trans (State.bump_calm _)
    · exact .refl s

/-! ## Transactions -/

theorem State.openReq_calm (s : State) (l : LineRef) (q : Req) : State.Calm s (s.openReq l q) := s.putEntry_calm _

theorem State.openTxn_calm (s : State) (l : LineRef) (who : Option Holder) (w p : Bool) : State.Calm s (s.openTxn l who w p) :=
  s.openReq_calm _ _

theorem State.putLine_calm (s : State) (a : Nat) (bs : List Byte) : State.Calm s (s.putLine a bs) :=
  ⟨fun _ => rfl, fun h => Memory.splice_wf _ _ _ h, rfl, rfl, rfl⟩

theorem State.sendLine_calm (s : State) (port n a : Nat) : State.Calm s (s.sendLine port n a) := ⟨fun _ => rfl, id, rfl, rfl, rfl⟩

theorem State.hostLine_calm (s : State) (l : LineRef) (b : Bool) : State.Calm s (s.hostLine l b) := by
  unfold State.hostLine
  split
  · exact ⟨fun _ => rfl, id, rfl, rfl, rfl⟩
  · exact .refl s

theorem State.evictHost_calm (s : State) (l : LineRef) : State.Calm s (s.evictHost l) := by
  unfold State.evictHost
  split
  · dsimp only
    refine State.Calm.trans ?_ (State.hostLine_calm _ _ _)
    split
    · exact s.sendLine_calm _ _ _
    · exact .refl s
  · exact .refl s

theorem State.leaveSlice_calm (s : State) (l : LineRef) : State.Calm s (s.leaveSlice l) := by
  unfold State.leaveSlice
  split
  · exact s.dropLine_calm _
  · exact s.putEntry_calm _

theorem State.serveHost_calm (s : State) (l : LineRef) (q : Req) : State.Calm s (s.serveHost l q) := by
  unfold State.serveHost
  split
  · exact s.putLine_calm _ _
  · split
    · exact .refl s
    · exact s.sendLine_calm _ _ _
  · exact .refl s

theorem State.endTxn_calm (s : State) (l : LineRef) : State.Calm s (s.endTxn l) := by
  unfold State.endTxn
  dsimp only
  split
  · split
    · have h := fun t : Txn => (s.serveHost_calm l t.req).trans (State.putEntry_calm _ ((s.entry l).ended t.req))
      split
      · exact ((h _).trans (State.hostLine_calm _ _ _)).trans (State.leaveSlice_calm _ _)
      · exact h _
    · exact .refl s
  · exact .refl s

theorem State.ack_calm (s : State) (l : LineRef) (h : Holder) : State.Calm s (s.ack l h) := by
  unfold State.ack
  dsimp only
  split
  · exact s.putEntry_calm _
  · exact .refl s

theorem State.answerAll_calm (s : State) (l : LineRef) : State.Calm s (s.answerAll l) := by
  unfold State.answerAll
  split
  · exact .refl s
  · refine State.Calm.foldl _ (fun s h => ?_) _ _ (.refl s)
    split
    · exact .refl s
    · exact (s.recallAt_calm _ _ _).trans (State.ack_calm _ _ _)

theorem State.nextReqs_calm (l : LineRef) (n : Nat) (s : State) : State.Calm s (State.nextReqs l n s) := by
  induction n generalizing s with
  | zero => exact .refl s
  | succ n ih =>
    unfold State.nextReqs
    dsimp only
    split
    · exact ((((s.putEntry_calm _).trans (State.openReq_calm _ _ _)).trans (State.answerAll_calm _ _)).trans
        (State.endTxn_calm _ _)).trans (ih _)
    · exact .refl s

theorem State.closeTxn_calm (s : State) (l : LineRef) : State.Calm s (s.closeTxn l) :=
  (s.endTxn_calm l).trans (State.nextReqs_calm _ _ _)

theorem State.obtainHost_calm (s : State) (l : LineRef) : State.Calm s (s.obtainHost l) := by
  unfold State.obtainHost
  split
  · dsimp only
    refine State.Calm.trans (State.Calm.trans (State.Calm.foldl _ (fun s i => ?_) _ _ (.refl s)) (State.hostLine_calm _ _ _)) (State.bump_calm _)
    exact ⟨fun _ => rfl, fun h => Memory.put_wf _ _ _ h, rfl, rfl, rfl⟩
  · exact .refl s

theorem State.evict_calm (s : State) (l : LineRef) : State.Calm s (s.evict l) := by
  have h := (s.openTxn_calm l none true false).trans (State.answerAll_calm _ l)
  unfold State.evict
  dsimp only
  split
  · split
    · exact (h.trans (State.evictHost_calm _ _)).trans (State.leaveSlice_calm _ _)
    · exact h
  · exact h

theorem State.makeRoom_calm (s : State) (l : LineRef) : State.Calm s (s.makeRoom l) := by
  unfold State.makeRoom
  dsimp only
  split
  · exact .refl s
  · split
    · exact .refl s
    · split
      · exact .refl s
      · exact (s.evict_calm _).trans (State.bump_calm _)

theorem State.cacheWalk_calm (s : State) (unit asid : Nat) (p : Page) : State.Calm s (s.cacheWalk unit asid p) := by
  unfold State.cacheWalk
  dsimp only
  split
  · exact .refl s
  · exact ⟨fun _ => rfl, id, rfl, rfl, rfl⟩

theorem State.filled_calm (s : State) (l : LineRef) (p : Page) : State.Calm s (s.filled l p) := by
  unfold State.filled
  split
  · exact s.putEntry_calm _
  · exact .refl s

theorem State.homeFill_calm (s : State) (l : LineRef) (s' : State) (h : s.homeFill l = some s') : State.Calm s s' := by
  unfold State.homeFill at h
  dsimp only at h
  split at h
  · obtain rfl := Option.some.inj h; exact .refl s
  · split at h
    · cases h
    · have hw := fun p => (s.cacheWalk_calm (unitOf (s.homeOf l)) l.asid p).trans (State.makeRoom_calm _ l)
      split at h
      · obtain rfl := Option.some.inj h
        exact (hw _).trans (State.filled_calm _ _ _)
      · obtain rfl := Option.some.inj h
        exact ((hw _).trans (State.obtainHost_calm _ _)).trans (State.filled_calm _ _ _)
      · cases h

theorem State.silent_calm (s : State) (l : LineRef) (h : Holder) (n : Need) : State.Calm s (s.silent l h n) := by
  unfold State.silent
  split
  · exact s.putEntry_calm _
  · exact .refl s

theorem State.obtain_calm (s : State) (l : LineRef) (h : Holder) (n : Need) : State.Calm s (s.obtain l h n).1 := by
  unfold State.obtain
  split
  · exact .refl s
  · have h0 := (s.answerAll_calm l).trans (State.closeTxn_calm _ l)
    dsimp only
    split
    · cases hf : State.homeFill ((s.answerAll l).closeTxn l) l with
      | none => exact h0
      | some s' =>
        have h1 := (h0.trans (State.homeFill_calm _ _ _ hf)).trans (State.closeTxn_calm s' l)
        dsimp only
        split
        · exact h1
        · exact h1.trans (State.putEntry_calm _ _)
    · split
      · exact h0.trans (State.silent_calm _ _ _ _)
      · cases hf : State.homeFill ((s.answerAll l).closeTxn l) l with
        | none => exact h0
        | some s' =>
          exact (h0.trans (State.homeFill_calm _ _ _ hf)).trans
            (((State.openReq_calm _ _ _).trans (State.answerAll_calm _ _)).trans (State.endTxn_calm _ _))

theorem State.obtainAll_calm (s : State) (ls : List LineRef) (h : Holder) (n : Need) : State.Calm s (s.obtainAll ls h n).1 := by
  unfold State.obtainAll
  have key : ∀ (l : List LineRef) (r : State × Bool), State.Calm s r.1 →
      State.Calm s (l.foldl (fun r l => if r.2 then r.1.obtain l h n else r) r).1 := by
    intro l
    induction l with
    | nil => exact fun r hr => hr
    | cons x t ih =>
      intro r hr
      refine ih _ ?_
      dsimp only
      split
      · exact hr.trans (State.obtain_calm _ _ _ _)
      · exact hr
  exact key ls (s, true) (.refl s)

theorem State.hostAnswers_calm (s : State) (l : LineRef) (h : Holder) (w : Bool) : State.Calm s (s.hostAnswers l h w) := by
  have hm : ∀ a, State.Calm s ((List.range 64).foldl (fun (s : State) i =>
      { s with mem := s.mem.put (a + i) (Config.hostByte s.fresh (a + i)) }) s).bump := fun a =>
    State.Calm.trans (State.Calm.foldl (fun (s : State) i => { s with mem := s.mem.put (a + i) (Config.hostByte s.fresh (a + i)) })
      (fun s i => ⟨fun _ => rfl, fun h => Memory.put_wf _ _ _ h, rfl, rfl, rfl⟩) _ _ (.refl s)) (State.bump_calm _)
  unfold State.hostAnswers
  dsimp only
  refine State.Calm.trans ?_ ((State.recallNow_calm _ _ _ _).trans (State.ack_calm _ _ _))
  split
  · exact hm _
  · exact hm _
  · exact .refl s

theorem State.force_calm (s : State) (l : LineRef) (w : Bool) : State.Calm s (s.force l w) := by
  have fin : ∀ s : State, State.Calm s ((match (s.entry l).txn with
      | none => s
      | some t => t.acks.foldl (fun s h => s.hostAnswers l h t.req.write) s).closeTxn l) := by
    intro s
    refine State.Calm.trans ?_ (State.closeTxn_calm _ _)
    split
    · exact .refl s
    · exact State.Calm.foldl _ (fun s h => s.hostAnswers_calm _ _ _) _ _ (.refl s)
  unfold State.force
  dsimp only
  split
  · exact .refl s
  · rename_i s' hs'
    exact ((s.homeFill_calm _ _ hs').trans ((fin _).trans (State.openTxn_calm _ _ _ _ _))).trans (fin _)

/-! ## Accesses -/

/-- What an attempt leaves, whatever it answers. -/
def Got.Calm {α : Type} (s : State) (r : Got α) : Prop :=
  match r with
  | .ok s' _ => State.Calm s s'
  | .trap s' _ => State.Calm s s'
  | .wait s' => State.Calm s s'

theorem State.keepUndo_calm (s : State) (core off : Nat) : State.Calm s (s.keepUndo core off).1 := by
  unfold State.keepUndo
  dsimp only
  split
  · exact .refl s
  · split
    · exact .refl s
    · split
      · exact .refl s
      · split
        · exact .refl s
        · split <;> exact State.Calm.modTeam s _ _ fun _ => rfl

theorem State.ownSources_calm (s : State) (core : Nat) (e : MapEntry) (sec : Nat) : State.Calm s (s.ownSources core e sec).1 :=
  s.obtainAll_calm _ _ _

theorem State.fillSector_calm (s : State) (core sec entry : Nat) (e : MapEntry) : (s.fillSector core sec entry e).Calm s := by
  unfold State.fillSector
  split
  · exact s.setSector_calm _ _ _ _
  · have h := s.ownSources_calm core e sec
    split
    · rename_i s' he; rw [he] at h; exact h
    · rename_i s' he; rw [he] at h
      have h1 := (h.trans (s'.recallKin_calm core e sec false)).trans (State.dropSector_calm _ core sec)
      dsimp only
      split
      · exact h1
      · refine State.Calm.trans (State.Calm.foldl _ (fun s p => ?_) _ _ h1) (State.setSector_calm _ _ _ _ _)
        split
        · exact .refl s
        · exact s.modCore_calm _ _

/-- What follows once the source lines are owned. -/
theorem State.owned_calm {a s : State} (h : State.Calm a s) (core : Nat) (e : MapEntry) (sec : Nat) (f : State → State)
    (hf : ∀ s, State.Calm s (f s)) :
    Got.Calm a (match s.ownSources core e sec with
      | (s, false) => Got.wait s
      | (s, true) => Got.ok (f s) ()) := by
  have own := s.ownSources_calm core e sec
  cases hq : s.ownSources core e sec with
  | mk s2 b =>
    rw [hq] at own
    cases b
    · exact h.trans own
    · exact (h.trans own).trans (hf s2)

theorem State.touch_calm (s : State) (core off : Nat) (w : Want) : (s.touch core off w).Calm s := by
  unfold State.touch
  dsimp only
  have h0 : State.Calm s (if s.sectorState core (off / 16) = some .wb then s.writebackDone core (off / 16) else s) := by
    split
    · exact s.writebackDone_calm _ _
    · exact .refl s
  generalize (if s.sectorState core (off / 16) = some .wb then s.writebackDone core (off / 16) else s) = s0 at *
  split
  · exact h0
  · rename_i m e _
    have h1 := h0.trans (s0.modCore_calm core fun c => { c with entries := c.entries.modify m fun e => { e with lastUse := s0.cycle } })
    generalize (s0.modCore core fun c => { c with entries := c.entries.modify m fun e => { e with lastUse := s0.cycle } }) = s1 at *
    have two := fun f hf => State.owned_calm h1 core e (off / 16) f hf
    have last : Got.Calm s (if (w.wr && decide (w.n = 16)) = true then
        match s1.sourceFault e (off / 16) false true with
        | some t => Got.trap s1 t
        | none =>
          match s1.ownSources core e (off / 16) with
          | (s, false) => Got.wait s
          | (s, true) =>
            Got.ok (((s.recallKin core e (off / 16) true).dropSector core (off / 16)).setSector core (off / 16) (some SecState.dirty) m) ()
      else
        match s1.fillSector core (off / 16) m e with
        | .ok s _ =>
          Got.ok (if w.wr = true then (s.recallKin core e (off / 16) true).setSector core (off / 16) (some SecState.dirty) m else s) ()
        | .trap s t => Got.trap s t
        | .wait s => Got.wait s) := by
      split
      · split
        · exact h1
        · exact two _ fun s2 => ((s2.recallKin_calm _ _ _ _).trans (State.dropSector_calm _ _ _)).trans (State.setSector_calm _ _ _ _ _)
      · have hf := s1.fillSector_calm core (off / 16) m e
        revert hf
        cases s1.fillSector core (off / 16) m e with
        | ok s2 _ =>
          intro hf
          show State.Calm s (if w.wr = true then
            (s2.recallKin core e (off / 16) true).setSector core (off / 16) (some SecState.dirty) m else s2)
          split
          · exact ((h1.trans hf).trans (s2.recallKin_calm _ _ _ _)).trans (State.setSector_calm _ _ _ _ _)
          · exact h1.trans hf
        | trap s2 _ => exact fun hf => h1.trans hf
        | wait s2 => exact fun hf => h1.trans hf
    split
    · split
      · exact h1
      · exact two _ fun s2 => (s2.recallKin_calm _ _ _ _).trans (State.setSector_calm _ _ _ _ _)
    · split
      · exact h1
      · exact two _ fun s2 => (s2.recallKin_calm _ _ _ _).trans (State.setSector_calm _ _ _ _ _)
    · exact last

theorem State.prepare_calm (s : State) (x : Accessor) (w : Want) (ea : Nat) (d : Dest) : (s.prepare x w ea d).Calm s := by
  unfold State.prepare
  split
  · rename_i core off
    split
    · exact .refl s
    · have hk : State.Calm s (if w.wr then s.keepUndo core off else (s, true)).1 := by
        split
        · exact s.keepUndo_calm _ _
        · exact .refl s
      generalize (if w.wr then s.keepUndo core off else (s, true)) = r at *
      obtain ⟨s0, b⟩ := r
      cases b
      · exact hk
      · have ht := s0.touch_calm core off w
        revert ht
        show Got.Calm s0 _ → Got.Calm s (match s0.touch core off w with
          | .ok s _ => if (w.rd && (s.core core).stashPoison.contains (off / 16)) = true then Got.trap s { cause := cPoison, addr := ea } else .ok s ()
          | r => r)
        cases s0.touch core off w with
        | ok s1 _ =>
          intro ht
          show Got.Calm s (if _ then _ else _)
          split <;> exact State.Calm.trans hk ht
        | trap s1 _ => exact fun ht => State.Calm.trans hk ht
        | wait s1 => exact fun ht => State.Calm.trans hk ht
  · split <;> exact .refl s
  · dsimp only
    rename_i l place
    have ho := fun n => s.obtain_calm l ⟨x.core, x.kind⟩ n
    generalize (if (w.home || l.dev != s.ctxDev x.ctx) = true then if w.wr = true then Need.homeWrite else Need.homeRead
      else if w.wr = true then Need.own else Need.read) = need
    have h1 := ho need
    cases hq : s.obtain l ⟨x.core, x.kind⟩ need with
    | mk s2 b =>
      rw [hq] at h1
      cases b
      · exact h1
      · have h2 := h1.trans (State.cacheData_calm s2 x.core l (sectorBit ea) w.wr)
        dsimp only
        repeat' split
        all_goals first | exact h1 | exact h2
  · split
    · exact .refl s
    · split
      · exact .refl s
      · split <;> exact .refl s
  · exact .refl s

theorem State.ready_calm (s : State) (x : Accessor) (w : Want) (ea : Nat) : (s.ready x w ea).Calm s := by
  unfold State.ready
  split
  · exact .refl s
  · rename_i d _
    split
    · exact .refl s
    · have := s.prepare_calm x w ea d
      revert this
      cases s.prepare x w ea d <;> exact id

theorem State.load_calm (s : State) (x : Accessor) (n ea : Nat) : (s.load x n ea).Calm s := by
  unfold State.load
  have := s.ready_calm x { n := n, rd := true, wr := false } ea
  revert this
  cases s.ready x { n := n, rd := true, wr := false } ea <;> exact id

theorem State.loadWords_calm (s : State) (x : Accessor) (ea n : Nat) : (s.loadWords x ea n).Calm s := by
  induction n generalizing s ea with
  | zero => exact .refl s
  | succ n ih =>
    unfold State.loadWords
    have := s.load_calm x 8 ea
    revert this
    cases s.load x 8 ea with
    | ok s1 v =>
      intro h
      show Got.Calm s (match State.loadWords s1 x (ea + 8) n with
        | .ok s l => Got.ok s (v :: l)
        | r => r)
      have h2 := ih s1 (ea + 8)
      revert h2
      cases State.loadWords s1 x (ea + 8) n <;> exact fun h2 => State.Calm.trans h h2
    | trap s1 _ => exact id
    | wait s1 => exact id

theorem State.pool_calm (s : State) (x : Accessor) (va idx kind : Nat) (n : Option Nat) : (s.pool x va idx kind n).Calm s := by
  unfold State.pool
  dsimp only
  have l1 := s.load_calm x 4 va
  revert l1
  cases s.load x 4 va with
  | trap s1 _ => exact id
  | wait s1 => exact id
  | ok s1 v1 =>
    intro h1
    dsimp only
    split
    · exact h1
    · have l2 := s1.load_calm x 4 (va + 8 + 4 * idx)
      revert l2
      cases s1.load x 4 (va + 8 + 4 * idx) with
      | trap s2 _ => exact fun h => State.Calm.trans h1 h
      | wait s2 => exact fun h => State.Calm.trans h1 h
      | ok s2 v2 =>
        intro h2
        have h2 := State.Calm.trans h1 h2
        dsimp only
        have l3 := s2.load_calm x 8 (va + v2)
        revert l3
        cases s2.load x 8 (va + v2) with
        | trap s3 _ => exact fun h => State.Calm.trans h2 h
        | wait s3 => exact fun h => State.Calm.trans h2 h
        | ok s3 v3 =>
          intro h3
          have h3 := State.Calm.trans h2 h3
          dsimp only
          split
          · exact h3
          · have l4 := s3.loadWords_calm x (va + v2 + 8) (n.getD (v3 / 2 ^ 16 % 2 ^ 16 - 1))
            revert l4
            cases s3.loadWords x (va + v2 + 8) (n.getD (v3 / 2 ^ 16 % 2 ^ 16 - 1)) <;> exact fun h => State.Calm.trans h3 h

theorem State.poolOf_calm (s : State) (e : Ex) (idx kind : Nat) (n : Option Nat) : (s.poolOf e idx kind n).Calm s := s.pool_calm _ _ _ _ _

end Sys2Proof.Machine
end

