-- ==== Sys2Proof/Laws/Units.lean ====
section
/-!
SUPPORT. What the reads and writes of the device's units, the launch checks and the operations on map entries may change.
-/
namespace Sys2Proof.Machine
open Sys2Proof

theorem State.unit_calm {s : State} {c ea : Nat} {w : Want} {s' : State} {a : Nat} (h : s.unit c w ea = .ok (s', a)) :
    State.Calm s s' := by
  unfold State.unit at h
  split at h
  · cases h
  · split at h
    · cases h
    · cases h; exact s.force_calm _ _
  · cases h

theorem State.unitRead_calm {s : State} {c n ea : Nat} {s' : State} {v : Nat} (h : s.unitRead c n ea = .ok (s', v)) :
    State.Calm s s' := by
  unfold State.unitRead at h
  split at h
  · cases h
  · rename_i hu
    cases h; exact State.unit_calm hu

theorem State.unitWords_calm (n : Nat) {s : State} {c ea : Nat} {s' : State} {l : List Nat} (h : s.unitWords c ea n = .ok (s', l)) :
    State.Calm s s' := by
  induction n generalizing s ea s' l with
  | zero => cases h; exact .refl _
  | succ n ih =>
    unfold State.unitWords at h
    split at h
    · cases h
    · rename_i h1
      split at h
      · cases h
      · rename_i h2
        cases h
        exact (State.unitRead_calm h1).trans (ih h2)

theorem State.putMem_calm (s : State) (a n v : Nat) : State.Calm s { s with mem := s.mem.putN a n v } :=
  ⟨fun _ => rfl, fun h => Memory.putN_wf _ _ _ _ h, rfl, rfl, rfl⟩

theorem State.unitPut_calm (s : State) (c n ea v : Nat) : State.Calm s (s.unitPut c n ea v) := by
  unfold State.unitPut
  split
  · exact .refl s
  · rename_i h
    unfold State.unitWrite at h
    split at h
    · cases h
    · rename_i hu
      cases h
      exact (State.unit_calm hu).trans (State.putMem_calm _ _ _ _)

theorem State.imageOf_calm {s : State} {c pool : Nat} {s' : State} {r : Option (Nat × Nat)} (h : s.imageOf c pool = .ok (s', r)) :
    State.Calm s s' := by
  unfold State.imageOf at h
  split at h
  · cases h
  · rename_i h1
    dsimp only at h
    split at h
    · cases h; exact State.unitWords_calm _ h1
    · split at h
      · cases h
      · rename_i h2
        have := (State.unitWords_calm _ h1).trans (State.unitWords_calm _ h2)
        split at h <;> (cases h; exact this)

theorem State.checkLaunch_calm (s : State) (c rec : Nat) (ws : List Nat) (b : Bool) : State.Calm s (s.checkLaunch c rec ws b).1 := by
  unfold State.checkLaunch
  dsimp only
  split
  · exact .refl s
  · split
    · exact .refl s
    · rename_i h1; exact State.imageOf_calm h1
    · rename_i h1
      have c1 := State.imageOf_calm h1
      split
      · exact c1
      · rename_i h2
        have c2 := c1.trans (State.unitWords_calm _ h2)
        split
        · exact c2
        · split
          · exact c2
          · split
            · exact c2
            · split <;> exact c2

/-- A new grid: the waves stay, and memory keeps its canonical form. -/
theorem State.createGrid_waves (s : State) (g : Grid) (d p : Nat) (par q : Option Nat) :
    (∀ t, ((s.createGrid g d p par q).1.teams.get? t).map Team.waves = (s.teams.get? t).map Team.waves) ∧
    (s.mem.wf = true → (s.createGrid g d p par q).1.mem.wf = true) := by
  unfold State.createGrid
  dsimp only
  split
  · exact ⟨fun t => ((State.unitPut_calm _ _ _ _ _).trans (State.unitPut_calm _ _ _ _ _)).waves t,
      fun h => ((State.unitPut_calm _ _ _ _ _).trans (State.unitPut_calm _ _ _ _ _)).mem h⟩
  · exact ⟨fun t => ((State.unitPut_calm _ _ _ _ _).trans (State.unitPut_calm _ _ _ _ _)).waves t,
      fun h => ((State.unitPut_calm _ _ _ _ _).trans (State.unitPut_calm _ _ _ _ _)).mem h⟩

/-! ## Map entries -/

theorem State.installEntry_calm (s : State) (core n : Nat) (m : MapEntry) : State.Calm s (s.installEntry core n m) := by
  unfold State.installEntry
  dsimp only
  refine State.Calm.trans ?_ (State.modCore_calm _ _ _)
  refine State.Calm.foldl _ (fun s j => ?_) _ _ (State.Calm.foldl _ (fun s p => s.displace_calm _ _) _ _ (.refl s))
  split
  · exact .refl s
  · exact s.dropSector_calm _ _

theorem State.resolveMap_calm (s : State) (e : Ex) (m : MapEntry) : State.Calm s (s.resolveMap e m).1 := by
  unfold State.resolveMap
  dsimp only
  split
  · exact .refl s
  · split
    · exact ⟨fun _ => rfl, id, rfl, rfl, rfl⟩
    · split
      · exact s.installEntry_calm _ _ _
      · split
        · exact .refl s
        · split
          · exact .refl s
          · split
            · exact (s.displace_calm _ _).trans (State.installEntry_calm _ _ _ _)
            · exact s.displace_calm _ _

theorem State.fillEntry_calm (s : State) (core n : Nat) (m : MapEntry) : State.Calm s (s.fillEntry core n m) := by
  unfold State.fillEntry
  refine State.Calm.foldl _ (fun s j => ?_) _ _ (.refl s)
  have h0 : State.Calm s (if s.sectorState core (m.lo / 16 + j) = some .wb then s.writebackDone core (m.lo / 16 + j) else s) := by
    split
    · exact s.writebackDone_calm _ _
    · exact .refl s
  dsimp only
  generalize (if s.sectorState core (m.lo / 16 + j) = some .wb then s.writebackDone core (m.lo / 16 + j) else s) = s0 at *
  split
  · exact h0
  · have := s0.fillSector_calm core (m.lo / 16 + j) n m
    revert this
    cases s0.fillSector core (m.lo / 16 + j) n m with
    | ok s' _ => exact fun h => State.Calm.trans h0 h
    | trap s' _ => exact fun h => State.Calm.trans h0 h
    | wait s' => exact fun h => (State.Calm.trans h0 h).trans (State.setSector_calm _ _ _ _ _)

end Sys2Proof.Machine
end

