-- ==== Sys2Proof/Laws/Sync.lean ====
section
/-!
SUPPORT. A barrier generation that has closed does not close again, and what the operations on barrier words may change.
-/
namespace Sys2Proof.Machine
open Sys2Proof

theorem listModify_get {α : Type} (l : List α) (n : Nat) (f : α → α) : (listModify l n f)[n]? = (l[n]?).map f := by
  induction l generalizing n with
  | nil => rfl
  | cons a r ih => cases n with
    | zero => rfl
    | succ n => exact ih n

theorem Team.closeGen_closeGen (t : Team) (b : Nat) : (t.closeGen b).closeGen b = t.closeGen b := by
  by_cases hc : t.complete b = true
  · have h1 : t.closeGen b = { t with bars := listModify t.bars b fun x => { gen := x.gen + 1, arrived := [] } } := if_pos hc
    rw [h1]
    refine if_neg fun hd => ?_
    unfold Team.complete at hd
    simp only [Bool.and_eq_true, List.any_eq_true, List.all_eq_true] at hd
    obtain ⟨⟨w, hw, hl⟩, ha⟩ := hd
    have := ha w hw
    have hz : ({ t with bars := listModify t.bars b fun x => { gen := x.gen + 1, arrived := [] } } : Team).arrivedIn b w.1 = 0 := by
      unfold Team.arrivedIn
      simp only [listModify_get]
      cases t.bars[b]? <;> rfl
    rw [hz] at this
    have hn : w.2.live &&& ~~~(0 : Lanes) = w.2.live := by show w.2.live &&& BitVec.allOnes 16 = _; exact BitVec.and_allOnes
    rw [hn] at this
    simp_all
  · have h1 : t.closeGen b = t := if_neg hc
    rw [h1, h1]

theorem State.barmReady_calm (s : State) (x : Accessor) (ea : Nat) : (s.barmReady x ea).Calm s := by
  unfold State.barmReady
  split
  · exact .refl s
  · rename_i l place _
    split
    · exact .refl s
    · have := s.obtain_calm l ⟨x.core, 0⟩ .homeWrite
      revert this
      cases s.obtain l ⟨x.core, 0⟩ .homeWrite with
      | mk s' b =>
        cases b
        · exact id
        · intro h
          dsimp only
          split
          · exact h
          · exact h.trans ⟨fun _ => rfl, id, rfl, rfl, rfl⟩

theorem State.barmAll_calm (s : State) (e : Ex) (u : Use) (l : List Nat) : State.Calm s (s.barmAll e u l).s := by
  have key : ∀ (l : List Nat) (q : Sweep), State.Calm s q.s → State.Calm s (l.foldl (fun (r : Sweep) i =>
      let ea := e.src u i 0 % 2 ^ 64
      match r.s.barmReady (r.s.accessor e i) ea with
      | .ok s place => { r with s := s, vals := Tbl.set r.vals i place }
      | .trap s t => { r with s := s, traps := r.traps ++ [(i, t)] }
      | .wait s => { r with s := s, wait := true }) q).s := by
    intro l
    induction l with
    | nil => exact fun q h => h
    | cons a r ih =>
      intro q h
      refine ih _ ?_
      have := q.s.barmReady_calm (q.s.accessor e a) (e.src u a 0 % 2 ^ 64)
      revert this
      dsimp only
      cases q.s.barmReady (q.s.accessor e a) (e.src u a 0 % 2 ^ 64) <;> exact fun g => State.Calm.trans h g
  exact key l _ (.refl s)

theorem State.barmArrive_calm (s : State) (core : Nat) (v : Tbl Nat) : State.Calm s (s.barmArrive core v) :=
  State.Calm.foldl _ (fun s a => s.putMem_calm a 16 _) _ _ (.refl s)

theorem State.barmRegister_calm (s : State) (core : Nat) (v : Tbl Nat) : State.Calm s (s.barmRegister core v) :=
  State.Calm.foldl _ (fun s a => s.putMem_calm a 16 _) _ _ (.refl s)

theorem State.tagWrite_calm (s : State) (core : Nat) : State.Calm s (s.tagWrite core).1 := ⟨fun _ => rfl, id, rfl, rfl, rfl⟩

end Sys2Proof.Machine
end

