-- ==== Sys2Proof/Laws/Accesses.lean ====
section
/-!
SUPPORT. The lanes of an access, made ready and then performed one after another.
-/
namespace Sys2Proof.Machine
open Sys2Proof

theorem State.readyAll_calm (s : State) (e : Ex) (w : Want) (ea : Nat → Nat) (l : List Nat) : State.Calm s (s.readyAll e w ea l).s := by
  have key : ∀ (l : List Nat) (q : Sweep), State.Calm s q.s → State.Calm s (l.foldl (fun (r : Sweep) i =>
      match r.s.ready (r.s.accessor e i) w (ea i) with
      | .ok s d => { r with s := s, dests := r.dests ++ [(i, d)] }
      | .trap s t => { r with s := s, traps := r.traps ++ [(i, t)] }
      | .wait s => { r with s := s, wait := true }) q).s := by
    intro l
    induction l with
    | nil => exact fun q h => h
    | cons a r ih =>
      intro q h
      refine ih _ ?_
      have := q.s.ready_calm (q.s.accessor e a) w (ea a)
      revert this
      dsimp only
      cases q.s.ready (q.s.accessor e a) w (ea a) <;> exact fun g => State.Calm.trans h g
  exact key l _ (.refl s)

theorem State.bumpCounter_calm {s : State} {c ea v : Nat} {s' : State} (h : s.bumpCounter c ea v = .ok s') : State.Calm s s' := by
  unfold State.bumpCounter at h
  split at h
  · split at h
    · cases h
    · cases h; exact s.bump_calm
  · split at h
    · cases h
    · rename_i hu
      cases h
      exact (State.unit_calm hu).trans (State.putMem_calm _ _ _ _)

theorem State.addCounter_calm {s : State} {c ea v : Nat} {s' : State} (h : s.addCounter c ea v = .ok s') : State.Calm s s' := by
  unfold State.addCounter at h
  split at h
  · cases h; exact .refl s
  · exact State.bumpCounter_calm h

theorem State.countUp_calm (s : State) (c ea v : Nat) : State.Calm s (s.countUp c ea v) := by
  unfold State.countUp
  split
  · exact .refl s
  · rename_i h
    exact State.addCounter_calm h

theorem State.modQueue_calm (s : State) (k : Nat) (f : Queue → Queue) : State.Calm s (s.modQueue k f) :=
  ⟨fun _ => rfl, id, rfl, rfl, rfl⟩

theorem State.writeHead_calm (s : State) (k : Nat) : State.Calm s (s.writeHead k) := by
  unfold State.writeHead
  split
  · exact .refl s
  · split
    · exact s.modQueue_calm _ _
    · exact (s.modQueue_calm _ _).trans (State.unitPut_calm _ _ _ _ _)

theorem State.setQueue_calm (s : State) (k : Nat) (f : Queue → Queue) : State.Calm s (s.setQueue k f) := by
  unfold State.setQueue
  split
  · exact .refl s
  · dsimp only
    split
    · exact s.modQueue_calm _ _
    · exact (s.modQueue_calm _ _).trans (State.writeHead_calm _ _)

theorem State.poke_calm (s : State) (x : Accessor) (d : Dest) (n v : Nat) : State.Calm s (s.poke x d n v) := by
  unfold State.poke
  split
  · exact s.modCore_calm _ _
  · exact State.Calm.modTeam _ _ _ fun _ => rfl
  · exact ⟨fun _ => rfl, fun h => Memory.putN_wf _ _ _ _ h, rfl, rfl, rfl⟩
  · exact .refl s
  · unfold State.doorbell
    split
    · exact .refl s
    · dsimp only
      split
      · exact s.setQueue_calm _ _
      · exact s.setQueue_calm _ _

theorem State.writes_calm (s : State) (e : Ex) (d : Nat → Dest) (n : Nat) (f : Nat → Nat → Nat) (l : List Nat) :
    State.Calm s (s.writes e d n f l) :=
  State.Calm.foldl _ (fun s k => s.poke_calm _ _ _ _) _ _ (.refl s)

theorem State.writes_append (s : State) (e : Ex) (d : Nat → Dest) (n : Nat) (f : Nat → Nat → Nat) (l : List Nat) (k : Nat) :
    s.writes e d n f (l ++ [k]) = (s.writes e d n f l).poke ((s.writes e d n f l).accessor e k) (d k) n
      (f k ((s.writes e d n f l).peek ((s.writes e d n f l).accessor e k) (d k) n)) := by
  simp [State.writes, List.foldl_append]

theorem State.trail_append (s : State) (e : Ex) (w : Want) (d : Nat → Dest) (f : Nat → Nat → Nat) (l : List Nat) (k : Nat) :
    s.trail e w d f (l ++ [k]) =
      (s.trail e w d f l).access (s.trail e w d f l).s ((s.trail e w d f l).s.accessor e k) w k (d k) f := by
  simp [State.trail, List.foldl_append]

/-- A write at a peer leaves nothing in the state, so it is the same write whatever was found there. -/
theorem Sweep.access_s (r : Sweep) (s : State) (x : Accessor) (w : Want) (k : Nat) (d : Dest) (f : Nat → Nat → Nat) :
    (r.access s x w k d f).s = if w.wr then s.poke x d w.n (f k (s.peek x d w.n)) else s := by
  unfold Sweep.access
  cases d <;> rfl

theorem State.trail_writes (s : State) (e : Ex) (w : Want) (hw : w.wr = true) (d : Nat → Dest) (f : Nat → Nat → Nat) (l : List Nat) :
    (s.trail e w d f l).s = s.writes e d w.n f l := by
  induction l using List.reverseRecOn with
  | nil => rfl
  | append_singleton l k ih => rw [State.trail_append, State.writes_append, Sweep.access_s, if_pos hw, ih]

theorem State.trail_reads (s : State) (e : Ex) (w : Want) (hw : w.wr = false) (d : Nat → Dest) (f : Nat → Nat → Nat) (l : List Nat) :
    (s.trail e w d f l).s = s ∧ (s.trail e w d f l).sent = [] := by
  induction l using List.reverseRecOn with
  | nil => exact ⟨rfl, rfl⟩
  | append_singleton l k ih =>
    rw [State.trail_append, Sweep.access_s, hw, if_neg Bool.false_ne_true]
    refine ⟨ih.1, ?_⟩
    unfold Sweep.access
    cases d k <;> simp [hw, ih.2]

/-- A load finds what its location holds. -/
theorem State.found_reads (s : State) (e : Ex) (w : Want) (hw : w.wr = false) (d : Nat → Dest) (f : Nat → Nat → Nat) (l : List Nat) (k : Nat) :
    s.found e w d f l k = s.peek (s.accessor e k) (d k) w.n := by
  obtain ⟨h1, h2⟩ := s.trail_reads e w hw d f l
  unfold State.found Sweep.old
  rw [h1, h2]
  cases d k <;> rfl

theorem lanesIn_nodup (p : Lanes) : (lanesIn p).Nodup := by
  unfold lanesIn
  exact List.Nodup.filter _ (by decide)

/-- The accesses of lanes that all reach their destinations. -/
theorem Reached.accesses {s : State} {e : Ex} {w : Want} {ea : Nat → Nat} {p : List Nat} {d : Nat → Dest} {after : List Nat → State}
    (h : Reached s e w ea p d after) (hnd : p.Nodup) (new : Nat → Nat → Nat)
    (hs : ∀ l, ((after []).trail e w d new l).s = after l) :
    ∃ vals sent, s.accesses e w ea p new =
        { s := after p, dests := p.map fun k => (k, d k), vals := vals, sent := sent } ∧
      ∀ l k, l ++ [k] <+: p → Tbl.get? vals k = some ((after []).found e w d new l k) := by
  have key : ∀ (r : List Nat) (l : List Nat) (q : Sweep), l ++ r = p →
      q.s = after l → q.sent = ((after []).trail e w d new l).sent →
      (∀ a k, a ++ [k] <+: l → q.vals.get? k = some ((after []).found e w d new a k)) →
      ∃ vals sent, (r.map fun k => (k, d k)).foldl (fun (r : Sweep) p =>
        match r.s.ready (r.s.accessor e p.1) w (ea p.1) with
        | .ok s d => r.access s (r.s.accessor e p.1) w p.1 d new
        | .trap s t => { r with s := s, traps := r.traps ++ [(p.1, t)] }
        | .wait s => { r with s := s, wait := true }) q = { q with s := after p, vals := vals, sent := sent } ∧
        ∀ a k, a ++ [k] <+: p → Tbl.get? vals k = some ((after []).found e w d new a k) := by
    intro r
    induction r with
    | nil =>
      intro l q hl hq _ hv
      rw [List.append_nil] at hl
      subst hl
      exact ⟨q.vals, q.sent, by rw [← hq]; rfl, hv⟩
    | cons k r ih =>
      intro l q hl hq ht hv
      have hpre : l ++ [k] <+: p := ⟨r, by rw [List.append_assoc]; exact hl⟩
      have ha := h.again l k hpre
      rw [List.map_cons, List.foldl_cons]
      dsimp only
      rw [hq, ha]
      dsimp only
      have hold : ∀ x, q.old (after l) x (d k) w.n = ((after []).trail e w d new l).old (after l) x (d k) w.n := by
        intro x
        unfold Sweep.old
        rw [ht]
      have hs1 : (q.access (after l) ((after l).accessor e k) w k (d k) new).s = after (l ++ [k]) := by
        rw [← hs (l ++ [k]), State.trail_append, hs, Sweep.access_s, Sweep.access_s]
      have hs2 : (q.access (after l) ((after l).accessor e k) w k (d k) new).sent =
          ((after []).trail e w d new (l ++ [k])).sent := by
        rw [State.trail_append, hs]
        unfold Sweep.access
        dsimp only
        rw [hold, ht]
      obtain ⟨vals, sent, h1, h2⟩ := ih (l ++ [k]) (q.access (after l) ((after l).accessor e k) w k (d k) new)
        (by rw [List.append_assoc]; exact hl) hs1 hs2 (fun a j hj => by
          have hset : (q.access (after l) ((after l).accessor e k) w k (d k) new).vals =
              Tbl.set q.vals k (q.old (after l) ((after l).accessor e k) (d k) w.n) := rfl
          rw [hset]
          rcases List.prefix_concat_iff.1 hj with h5 | h5
          · obtain ⟨h3, h4⟩ := List.append_inj' h5 rfl
            obtain rfl := h3
            obtain rfl : j = k := by simpa using h4
            rw [hold]
            unfold State.found
            rw [hs]
            exact Tbl.get?_set_self _ _ _
          · have hne : j ≠ k := by
              intro hjk
              subst hjk
              have hmem : j ∈ l := h5.subset (List.mem_append_right a (List.mem_singleton.2 rfl))
              rw [← hl] at hnd
              exact (List.nodup_append.1 hnd).2.2 j hmem j (by simp) rfl
            exact (Tbl.get?_set_ne _ _ hne).trans (hv a j h5))
      exact ⟨vals, sent, h1, h2⟩
  obtain ⟨vals, sent, h1, h2⟩ := key p [] { s := after [], dests := p.map fun k => (k, d k) } rfl rfl rfl
    (by intro a k hk; simp at hk)
  refine ⟨vals, sent, ?_, h2⟩
  unfold State.accesses
  rw [h.all]
  exact (congrArg (fun q : Sweep => if q.wait then _ else q) h1).trans (if_neg Bool.false_ne_true)

/-- The lanes before lane `k` are those below it. -/
theorem lanesIn_before (p : Lanes) (k : Nat) (hk : k ∈ lanesIn p) :
    ((lanesIn p).filter fun j => decide (j < k)) ++ [k] <+: lanesIn p := by
  have hs : (lanesIn p).Pairwise (· < ·) := by
    unfold lanesIn
    exact List.Pairwise.filter _ (by decide)
  revert hk hs
  generalize lanesIn p = l
  intro hk hs
  induction l with
  | nil => simp at hk
  | cons a r ih =>
    rcases List.mem_cons.1 hk with rfl | hk
    · have : (List.filter (fun j => decide (j < k)) (k :: r)) = [] := by
        rw [List.filter_eq_nil_iff]
        intro j hj
        rcases List.mem_cons.1 hj with rfl | hj
        · simp
        · have := (List.pairwise_cons.1 hs).1 j hj
          simp; omega
      rw [this]
      exact ⟨r, rfl⟩
    · have hak := (List.pairwise_cons.1 hs).1 k hk
      rw [List.filter_cons_of_pos (by simpa using hak), List.cons_append, List.cons_prefix_cons]
      exact ⟨rfl, ih hk (List.pairwise_cons.1 hs).2⟩

/-- A form that need not release, or has nothing to wait for, acts at once. -/
theorem releasing_free {rel : Bool} (body : Use → State → Ex → Lanes → Issue) {u : Use} {s : State} {e : Ex} {p : Lanes}
    (h : (rel && s.releaseWaits e (lanesIn p)) = false) : releasing rel body u s e p = body u s e p := by
  unfold releasing
  rw [h]
  exact if_neg Bool.false_ne_true

/-! ## Prefetch and cache control -/

theorem State.prefetch_calm (s : State) (x : Accessor) (target : Nat) (b : Bool) (ea : Nat) : State.Calm s (s.prefetch x target b ea) := by
  unfold State.prefetch
  split
  · split
    · split
      · split
        · split
          · split
            · exact State.setSector_calm _ _ _ _ _
            · exact .refl s
          · exact .refl s
        · exact .refl s
      · exact .refl s
    · exact .refl s
  · split
    · split
      · exact .refl s
      · split
        · exact s.obtain_calm _ _ _
        · rename_i l _ _ _ _
          cases h : s.homeFill l with
          | none => exact .refl s
          | some s' => exact s.homeFill_calm _ _ h
    · exact .refl s

theorem State.cacheOp_calm (s : State) (x : Accessor) (op ea : Nat) : State.Calm s (s.cacheOp x op ea).1 := by
  unfold State.cacheOp
  split
  · exact State.Calm.foldl _ (fun s e => s.leaveL1_calm _ _) _ _ (.refl s)
  · split
    · exact .refl s
    · split
      · exact s.leaveL1_calm _ _
      · split
        · exact .refl s
        · split
          · exact .refl s
          · split
            · exact (s.answerAll_calm _).trans (State.closeTxn_calm _ _)
            · exact s.evict_calm _

theorem State.escapes_calm (s : State) (e : Ex) (l : List Nat) (ea : Nat → Nat) : State.Calm s (s.escapes e l ea) := by
  unfold State.escapes
  split
  · exact s.escapeTeam_calm _
  · exact .refl s

theorem State.countConflict_calm (s : State) (t : Nat) (l : List (Nat × Nat)) : State.Calm s (s.countConflict t l) :=
  State.Calm.modTeam _ _ _ fun _ => rfl

end Sys2Proof.Machine
end

