-- ==== Sys2Proof/Laws/Service.lean ====
section
/-!
SUPPORT. What the service unit does with a call that it takes up: the checks that come first, and the completion.
-/
namespace Sys2Proof.Machine
open Sys2Proof

theorem drop_zero {c : Call} {argc : Nat} (h : ∀ x ∈ c.args.drop argc, x = 0) :
    ((c.args.drop argc).any fun x => x != 0) = false := by
  rw [List.any_eq_false]
  intro x hx
  simp [h x hx]

/-- A call that is taken up goes on to its own part. -/
theorem serve_eq {code argc : Nat} {c : Call} {s : State} (h : Serves code argc c s) (body : Bool → State → Reply) :
    serve code argc c body s = match body false s with
      | .done t st res => .next (if t.answerBusy c then s else (t.dropCall (code, c)).answer c st res)
      | .wait t => .next ((t.dropCall (code, c)).modDev c.dev fun v => { v with waiting := v.waiting ++ [(code, c)] })
      | .later => .next s := by
  unfold serve
  simp only [h.turn, h.new, h.calm, h.good, drop_zero h.zero, h.may, Bool.not_true, Bool.not_false, Bool.false_and, Bool.and_false,
    Bool.false_or, Bool.true_and, Bool.false_eq_true, if_false]
  by_cases hn : namesCtx code = true
  · simp only [hn, h.ctx hn, Bool.not_true, Bool.and_false, Bool.false_eq_true, if_false] <;> cases body false s <;> rfl
  · simp only [Bool.not_eq_true] at hn
    simp only [hn, Bool.false_and, Bool.false_eq_true, if_false] <;> cases body false s <;> rfl

theorem serve_done {code argc : Nat} {c : Call} {s t : State} {st : Nat} {res : List Nat} (h : Serves code argc c s)
    {body : Bool → State → Reply} (hb : body false s = .done t st res) (hf : t.answerBusy c = false) :
    serve code argc c body s = .next ((t.dropCall (code, c)).answer c st res) := by
  rw [serve_eq h, hb]; simp only [hf, Bool.false_eq_true, if_false]

theorem serve_wait {code argc : Nat} {c : Call} {s t : State} (h : Serves code argc c s)
    {body : Bool → State → Reply} (hb : body false s = .wait t) :
    serve code argc c body s = .next ((t.dropCall (code, c)).modDev c.dev fun v => { v with waiting := v.waiting ++ [(code, c)] }) := by
  rw [serve_eq h, hb]

/-- A buffer that can be accessed, no line of which waits. -/
theorem withBuffer_ok {c : Call} {wr : Bool} {addr n : Nat} {s : State} (k : State → Reply)
    (h : s.callerFault c.caller wr addr n = none) (hb : s.callerBusy c.caller addr n wr = false) : withBuffer c wr addr n s k = k s := by
  unfold withBuffer
  rw [h]
  exact if_neg (by rw [hb]; exact Bool.false_ne_true)

/-- A buffer that can be read, no line of which waits. -/
theorem readBuffer_ok {c : Call} {addr n : Nat} {s t : State} {bs : List Byte} (k : State → List Byte → Reply)
    (hb : s.callerBusy c.caller addr n false = false) (h : State.callerRead c.caller addr n s = .ok (t, bs)) :
    readBuffer c addr n s k = k t bs := by
  unfold readBuffer
  rw [hb, if_neg Bool.false_ne_true, h]

/-- The law of the first checks. -/
theorem call_checks {i : Instr} {code argc : Nat} {c : Call} {body : Bool → State → Reply}
    (hx : ∀ s, exec i s = serve code argc c body s) : CallChecks i c code argc := by
  intro s h1 h2 h3
  dsimp only
  rw [hx s]
  unfold serve
  simp only [h1, h2, h3, Bool.not_true, Bool.not_false, Bool.true_and, Bool.false_eq_true, if_false]
  refine ⟨fun h => ?_, fun h hb => ?_, fun h hb hz hm => ?_, fun h hb hz hm hn hr => ?_⟩
  · rw [if_pos h]
  · rw [h, if_neg Bool.false_ne_true]
    refine if_pos ?_
    rcases hb with hb | hb
    · rw [hb]; rfl
    · rw [Bool.or_eq_true]
      refine Or.inr (List.any_eq_true.2 ?_)
      by_contra hc
      exact hb fun x hx => by
        by_contra h0
        exact hc ⟨x, hx, by simpa using h0⟩
  · rw [h, if_neg Bool.false_ne_true, hb, drop_zero hz, hm]; rfl
  · rw [h, if_neg Bool.false_ne_true, hb, drop_zero hz, hm, hn, hr]; rfl

end Sys2Proof.Machine
end

