-- ==== Sys2Proof/Laws/Transfers.lean ====
section
/-!
SUPPORT. The division of a sub-wave by a transfer of control (R158).
-/
namespace Sys2Proof.Machine
open Sys2Proof

theorem Wave.closeWindow_only (w : Wave) (d : Nat) (m : Lanes) : Wave.RegsOnly w (w.closeWindow d m) :=
  (Wave.RegsOnly.foldl _ (fun w x => Wave.vrel_only w x m) _ _).trans (Wave.RegsOnly.foldl _ (fun w x => Wave.urel_only w x m) _ _)

/-- After a release of registers in turn, each of them holds none of the lanes. -/
theorem Wave.vrels_self (m : Lanes) (l : List Nat) (w : Wave) (k : Nat) (h : k ∈ l) (hn : l.Nodup) (sl : VSlot)
    (hs : (l.foldl (fun w k => w.vrel k m) w).vregs.get? k = some sl) : sl.mask &&& m = 0 := by
  induction l generalizing w with
  | nil => cases h
  | cons a r ih =>
    rw [List.nodup_cons] at hn
    rw [List.foldl_cons] at hs
    by_cases hr : k ∈ r
    · exact ih _ hr hn.2 hs
    · rcases List.mem_cons.1 h with rfl | h'
      · rw [foldl_keeps (fun w j => w.vrel j m) (fun w => w.vregs.get? k) r _ (fun a x hx =>
          Wave.vrel_vregs_ne a x m (fun (e : k = x) => hr (by rw [e]; exact hx)))] at hs
        exact Wave.vrel_self _ _ _ _ hs
      · exact absurd h' hr

theorem Wave.urels_self (m : Lanes) (l : List Nat) (w : Wave) (k : Nat) (h : k ∈ l) (hn : l.Nodup) (sl : USlot)
    (hs : (l.foldl (fun w k => w.urel k m) w).uregs.get? k = some sl) : sl.mask &&& m = 0 := by
  induction l generalizing w with
  | nil => cases h
  | cons a r ih =>
    rw [List.nodup_cons] at hn
    rw [List.foldl_cons] at hs
    by_cases hr : k ∈ r
    · exact ih _ hr hn.2 hs
    · rcases List.mem_cons.1 h with rfl | h'
      · rw [foldl_keeps (fun w j => w.urel j m) (fun w => w.uregs.get? k) r _ (fun a x hx =>
          Wave.urel_uregs_ne a x m (fun (e : k = x) => hr (by rw [e]; exact hx)))] at hs
        exact Wave.urel_self _ _ _ _ hs
      · exact absurd h' hr

/-- The registers of an opened or closed window hold none of the lanes. -/
theorem Wave.closeWindow_released (w : Wave) (d : Nat) (m : Lanes) (q : Nat) (h1 : 16 ≤ q) (h2 : q < 64) :
    (∀ sl, (w.closeWindow d m).vregs.get? (64 * d + q) = some sl → sl.mask &&& m = 0) ∧
    ∀ sl, (w.closeWindow d m).uregs.get? (64 * d + q) = some sl → sl.mask &&& m = 0 := by
  have hk : 64 * d + q ∈ (List.range 48).map fun i => 64 * d + 16 + i :=
    List.mem_map.2 ⟨q - 16, List.mem_range.2 (by omega), by omega⟩
  have hn : ((List.range 48).map fun i => 64 * d + 16 + i).Nodup :=
    (List.nodup_map_iff (fun a b h => by omega)).2 List.nodup_range
  unfold Wave.closeWindow
  dsimp only
  generalize (List.range 48).map (fun i => 64 * d + 16 + i) = keys at hk hn ⊢
  refine ⟨fun sl hs => ?_, fun sl hs => Wave.urels_self m _ _ _ hk hn sl hs⟩
  rw [foldl_keeps (fun w j => w.urel j m) Wave.vregs _ _ (fun a x _ => Wave.urel_vregs a x m)] at hs
  exact Wave.vrels_self m _ w _ hk hn sl hs

theorem Tbl.lt_fresh {α : Type} (t : Tbl α) (q : Nat) (b : α) (h : t.get? q = some b) : q < t.fresh := by
  have mono : ∀ (l : Tbl α) (m : Nat), m ≤ l.foldl (fun m p => max m (p.1 + 1)) m := by
    intro l
    induction l with
    | nil => exact fun m => le_refl m
    | cons a r ih => exact fun m => le_trans (Nat.le_max_left _ _) (ih _)
  have key : ∀ (l : Tbl α) (m : Nat), Tbl.get? l q = some b → q < l.foldl (fun m p => max m (p.1 + 1)) m := by
    intro l
    induction l with
    | nil => intro m h; cases h
    | cons a r ih =>
      intro m h
      rw [List.foldl_cons]
      by_cases ha : a.1 = q
      · have := mono r (max m (a.1 + 1))
        omega
      · refine ih _ ?_
        obtain ⟨k, v⟩ := a
        simpa [Tbl.get?, ha] using h
  exact key t 0 h

theorem Tbl.get?_fresh {α : Type} (t : Tbl α) : t.get? t.fresh = none := by
  cases h : t.get? t.fresh with
  | none => rfl
  | some b => exact absurd (Tbl.lt_fresh t _ b h) (lt_irrefl _)

/-- The parts of a division beyond the first. -/
theorem Wave.divide_rest (base : SubWave) (r : List (Lanes × (SubWave → SubWave))) (w : Wave) :
    ∃ subs, r.foldl (fun (w : Wave) p => { w with subs := w.subs.set w.subs.fresh (p.2 { base with mask := p.1 }) }) w =
        { w with subs := subs } ∧ (∀ q b, w.subs.get? q = some b → subs.get? q = some b) ∧
      ∀ p ∈ r, ∃ q, subs.get? q = some (p.2 { base with mask := p.1 }) := by
  induction r generalizing w with
  | nil => exact ⟨w.subs, rfl, fun _ _ h => h, by simp⟩
  | cons a r ih =>
    obtain ⟨subs, h1, h2, h3⟩ := ih { w with subs := w.subs.set w.subs.fresh (a.2 { base with mask := a.1 }) }
    refine ⟨subs, h1, fun q b h => h2 q b ?_, fun p hp => ?_⟩
    · have hq : q ≠ w.subs.fresh := fun hq => by rw [hq, Tbl.get?_fresh] at h; cases h
      exact (Tbl.get?_set_ne _ _ hq).trans h
    · rcases List.mem_cons.1 hp with rfl | hp
      · exact ⟨_, h2 _ _ (Tbl.get?_set_self _ _ _)⟩
      · exact h3 p hp

theorem Wave.divide_spec (w : Wave) (k : Nat) (sub : SubWave) (parts : List (Lanes × (SubWave → SubWave)))
    (h : w.subs.get? k = some sub) :
    ∃ subs, w.divide k parts = { w with subs := subs } ∧ (∀ q b, q ≠ k → w.subs.get? q = some b → subs.get? q = some b) ∧
      ∀ p ∈ parts, p.1 ≠ 0 → ∃ q, subs.get? q = some (p.2 { sub.passed with mask := p.1 }) := by
  unfold Wave.divide
  rw [h]
  cases hf : parts.filter fun p => p.1 != 0 with
  | nil =>
    refine ⟨w.subs, rfl, fun _ _ _ h => h, fun p hp hn => ?_⟩
    have := List.filter_eq_nil_iff.1 hf p hp
    exact absurd (by simpa using this) hn
  | cons a r =>
    obtain ⟨subs, h1, h2, h3⟩ := Wave.divide_rest sub.passed r { w with subs := w.subs.set k (a.2 { sub.passed with mask := a.1 }) }
    refine ⟨subs, h1, fun q b hq hb => h2 q b ((Tbl.get?_set_ne _ _ hq).trans hb), fun p hp hn => ?_⟩
    have : p ∈ a :: r := by rw [← hf]; exact List.mem_filter.2 ⟨hp, by simpa using hn⟩
    rcases List.mem_cons.1 this with rfl | hr
    · exact ⟨k, h2 _ _ (Tbl.get?_set_self _ _ _)⟩
    · exact h3 p hr

theorem lanesOf_mem (p : Lanes) : lanesOf (fun i => (lanesIn p).contains i) = p := by
  ext i hi
  rw [← BitVec.getLsbD_eq_getElem, ← BitVec.getLsbD_eq_getElem, lanesOf_bit _ _ hi, Bool.eq_iff_iff, List.contains_iff_mem, mem_lanesIn]

/-- The law of a transfer whose kind keeps the sub-waves and adds no record. -/
theorem transfer_law {i : Instr} {target : Ex → Use → Nat → Nat} {j : Jump} {ok : Ex → Prop}
    {act : Use → Nat → Grid → State → Span → SpanAct}
    (hx : ∀ s, exec i s = issue i false true (transferBody target j) act s)
    (hr : ∀ e, ok e → j.refuse e.sub.depth = none)
    (hl : ∀ d r m w, (j.land d r m w).subs = w.subs ∧ (w.joins = [] → (j.land d r m w).joins = [])) :
    TransferLaw i target j.depth ok fun e m w => j.land e.sub.depth e.sub.after m w := by
  intro s u e h hf hok hj ht
  set p := e.parts u with hp
  have hset := Wave.settled_eq e.wave e u i.opcode {} .result none s.cycle p h.free rfl
  set W := e.wave.settled e u i.opcode {} .result none s.cycle p with hW
  have hd := e.wave.commit_data e.sub.depth e.sub.mask u {}
  have hsubs : W.subs = e.wave.subs := by
    rw [hset]; dsimp only; split <;> exact hd.subs
  have hjoins : W.joins = [] := by
    rw [hset]; dsimp only; split <;> exact hd.joins.trans hj
  set L := j.land e.sub.depth e.sub.after p W with hL
  have hLs : L.subs.get? e.k = some e.sub := by rw [(hl _ _ _ _).1, hsubs]; exact h.sub
  let targets := ((lanesIn p).map fun i => target e u i).eraseDups
  let parts : List (Lanes × (SubWave → SubWave)) := targets.map fun a =>
    (lanesOf fun i => p.getLsbD i && target e u i == a,
     fun (sub : SubWave) => SubWave.goto { sub with depth := j.depth e.sub.depth, joins := j.joins L e.sub.depth sub.joins } a)
  let rest : Lanes × (SubWave → SubWave) := (e.sub.mask &&& ~~~p, fun sub => sub.goto e.sub.after)
  obtain ⟨subs, h1, h2, h3⟩ := Wave.divide_spec L e.k e.sub (parts ++ [rest]) hLs
  have hclose : (L.divide e.k (parts ++ [rest])).closeJoins = L.divide e.k (parts ++ [rest]) := by
    have : (L.divide e.k (parts ++ [rest])).joins = [] := by rw [h1]; exact (hl _ _ _ _).2 hjoins
    unfold Wave.closeJoins
    rw [this]
    rfl
  have hrun := h.runs_eq hf
  have hgood : ((lanesIn p).filter fun i => s.lands (s.grids.get? e.team.grid) (target e u i)) = lanesIn p := by
    rw [List.filter_eq_self]; exact ht
  have hbad : ((lanesIn p).filter fun i => !(lanesIn p).contains i) = [] := by
    rw [List.filter_eq_nil_iff]; intro k hk; simp [hk]
  have hbody : transferBody target j u s e p = .jump s {} fun s =>
      s.modWave e.t e.w fun w =>
        let w : Wave := j.land e.sub.depth e.sub.after p w
        let parts : List (Lanes × (SubWave → SubWave)) := targets.map fun a =>
          (lanesOf fun i => p.getLsbD i && target e u i == a,
           fun (sub : SubWave) => SubWave.goto { sub with depth := j.depth e.sub.depth, joins := j.joins w e.sub.depth sub.joins } a)
        (w.divide e.k (parts ++ [rest])).closeJoins := by
    unfold transferBody
    dsimp only
    rw [hrun, hgood, hbad, hr e hok, h.staleTraps_eq hf, h.staleSets_eq hf]
    simp only [List.map_nil, List.append_nil, List.isEmpty_nil, if_true, lanesOf_mem]
    rfl
  refine ⟨_, subs, ((hx s).trans (issue_eq h)).trans (congrArg (fun b => Host.Outcome.next (Issue.conclude e u i.opcode p b)) hbody),
    ?_, fun k hk => ?_, fun k hk hn => ?_, fun q hq b hb => h2 q b hq ?_, ?_⟩
  · show (State.releasePort _ _ _).wave? e.t e.w = _
    dsimp only
    rw [State.wave?_releasePort, State.wave?_modWave_self, State.wave?_modWave_self, h.wave?]
    show some ((L.divide e.k (parts ++ [rest])).closeJoins) = _
    rw [hclose, h1]
  · have hmem : target e u k ∈ targets := List.mem_eraseDups.2 (List.mem_map.2 ⟨k, hk, rfl⟩)
    have hk16 : k < 16 := by
      have := (mem_lanesIn _ _).1 hk
      by_contra hc
      simp [BitVec.getLsbD_of_ge _ k (by omega : 16 ≤ k)] at this
    have hbit : (lanesOf fun i => p.getLsbD i && target e u i == target e u k).getLsbD k = true := by
      rw [lanesOf_bit _ _ hk16, (mem_lanesIn _ _).1 hk]; simp
    obtain ⟨q, hq⟩ := h3 _ (List.mem_append_left _ (List.mem_map.2 ⟨_, hmem, rfl⟩)) fun h0 => by
      dsimp only at h0
      rw [h0] at hbit
      simp at hbit
    exact ⟨q, _, hq, hbit, rfl, rfl, rfl, rfl⟩
  · have hk16 : k < 16 := by
      have := (mem_lanesIn _ _).1 hk
      by_contra hc
      simp [BitVec.getLsbD_of_ge _ k (by omega : 16 ≤ k)] at this
    have hbit : (e.sub.mask &&& ~~~p).getLsbD k = true := by
      have h4 := (mem_lanesIn _ _).1 hk
      have h5 := (mem_lanesIn p k).not.1 hn
      rw [BitVec.getLsbD_and, BitVec.getLsbD_not, h4, Bool.eq_false_iff.2 h5]
      simp [hk16]
    obtain ⟨q, hq⟩ := h3 rest (List.mem_append_right _ (List.mem_singleton.2 rfl)) fun h0 => by
      rw [show e.sub.mask &&& ~~~p = 0 from h0] at hbit
      simp at hbit
    exact ⟨q, _, hq, hbit, rfl, rfl, rfl, rfl⟩
  · rw [(hl _ _ _ _).1, hsubs]; exact hb
  · refine ⟨rfl, fun c => ?_, fun k hk => ?_, ?_⟩
    · exact State.core_releasePort _ _ _ c
    · show (State.modWave _ _ _ _).teams.get? k = _
      rw [State.teams_modWave_ne _ _ _ hk, State.teams_modWave_ne _ _ _ hk]
    · refine ⟨e.team, (e.team.waves.modify e.w fun w => w.settled e u i.opcode {} .result none s.cycle p).modify e.w fun w =>
        (Wave.divide (j.land e.sub.depth e.sub.after p w) e.k ((targets.map fun a =>
          (lanesOf fun i => p.getLsbD i && target e u i == a,
           fun (sub : SubWave) => SubWave.goto { sub with depth := j.depth e.sub.depth, joins := j.joins (j.land e.sub.depth e.sub.after p w) e.sub.depth sub.joins } a))
          ++ [rest])).closeJoins, h.team, ?_, fun k hk => ?_⟩
      · show (State.modWave _ _ _ _).teams.get? e.t = _
        simp only [State.modWave, State.teams_modTeam_self, h.team, Option.map_some, Team.modWave]
      · rw [Tbl.get?_modify_ne _ _ hk, Tbl.get?_modify_ne _ _ hk]

end Sys2Proof.Machine
end

