-- ==== Sys2Proof/Tests/Slice0.lean ====
section
/-!
SUPPORT. Tests: words of the encoding tables with the instructions that they stand for, terms that are not well formed, states
and operands that meet the hypotheses of every statement (witness_...), and results worked out by hand.
-/
namespace Sys2Proof.Tests
open Sys2Proof Sys2Proof.Machine

set_option Elab.async false

/-- The header of an unguarded instruction without stall and flag: FLAG 15, GUARD 7 (Table 3.2). -/
def h : Hdr := ⟨0, none, 7, false⟩
/-- The same with the flag f0. -/
def f0 : Hdr := ⟨0, some 0, 7, false⟩
/-- A vector source. -/
def v (n : Fin 64) : Src := ⟨false, false, n⟩
/-- A uniform source. -/
def k (n : Fin 64) : Src := ⟨false, true, n⟩
/-- A vector destination. -/
def dv (n : Fin 64) : Dst := ⟨false, n⟩
/-- A uniform destination. -/
def dk (n : Fin 64) : Dst := ⟨true, n⟩
/-- The constant of the L-forms. -/
def c : W64 := 0x0123456789ABCDEF#64

/-- A register-form word of Table 3.2 from OPC, the eight-bit operand fields (class and last-use bits in front of the index)
and MOD, with FLAG 15 and GUARD 7. -/
def rword (opc d a b c m : Nat) : Nat :=
  opc * 2 ^ 54 + 15 * 2 ^ 46 + d * 2 ^ 38 + a * 2 ^ 30 + b * 2 ^ 22 + c * 2 ^ 14 + 7 * 2 ^ 11 + m
/-- An I-form or L-form word of Table 3.4 from OPC, the fields D and A, IMM and SIZE, with FLAG 15 and GUARD 7. -/
def iword (opc d a imm size : Nat) : Nat :=
  opc * 2 ^ 54 + 15 * 2 ^ 46 + d * 2 ^ 38 + a * 2 ^ 30 + imm / 256 * 2 ^ 14 + 7 * 2 ^ 11 + imm % 256 * 4 + size
/-- A word decodes to the instruction. -/
def reads (w : Nat) (c : Option W64) (i : Instr) : Bool :=
  match decode w c with
  | .ok j => j == i
  | .error _ => false

theorem test_decode_integer_1 :
    reads (rword 0x000 0x4 0x1 0x2 0x0 0x11) none (.iadd ⟨h, .n32, true, dv 4, v 1, v 2⟩) = true ∧
    reads (rword 0x001 0x84 0x41 0x42 0x0 0x2) none (.isub ⟨h, .s64, false, dk 4, k 1, k 2⟩) = true ∧
    reads (rword 0x002 0x4 0x1 0x2 0x3 0x21) none (.iaddc ⟨h, .n32, dv 4, v 1, v 2, 3, 2⟩) = true ∧
    reads (rword 0x003 0x4 0x1 0x0 0x0 0x4) none (.ineg ⟨h, .s16, false, dv 4, v 1⟩) = true ∧
    reads (rword 0x004 0x4 0x1 0x0 0x0 0x16) none (.iabs ⟨h, .s8, true, dv 4, v 1⟩) = true ∧
    reads (rword 0x005 0x4 0x86 0x48 0x0 0x3) none (.imul ⟨h, .n64, false, dv 4, ⟨true, false, 6⟩, k 8⟩) = true ∧
    reads (rword 0x006 0x4 0x1 0x2 0x0 0x0) none (.imulh ⟨h, .s32, dv 4, v 1, v 2⟩) = true ∧
    reads (rword 0x007 0x4 0x1 0x2 0x3 0x5) none (.imad ⟨h, .n16, false, dv 4, v 1, v 2, v 3⟩) = true ∧
    reads (rword 0x008 0x4 0x1 0x2 0x6 0x1) none (.imadw ⟨h, .n32, dv 4, v 1, v 2, v 6⟩) = true ∧
    reads (rword 0x009 0x4 0x1 0x2 0x0 0x7) none (.idiv ⟨h, .n8, dv 4, v 1, v 2⟩) = true ∧
    reads (rword 0x00A 0x4 0x1 0x2 0x0 0x0) none (.irem ⟨h, .s32, dv 4, v 1, v 2⟩) = true ∧
    reads (rword 0x00B 0x4 0x1 0x2 0x0 0x1) none (.imin ⟨h, .n32, dv 4, v 1, v 2⟩) = true := by
  decide

theorem test_decode_integer_2 :
    reads (rword 0x00C 0x4 0x6 0x8 0x0 0x2) none (.imax ⟨h, .s64, dv 4, v 6, v 8⟩) = true ∧
    reads (rword 0x00D 0x4 0x1 0x2 0x3 0x1) none (.iclamp ⟨h, .n32, dv 4, v 1, v 2, v 3⟩) = true ∧
    reads (0x038FC08010C03821) none (.icmp ⟨⟨3, none, 7, false⟩, .n32, .lt, 2, v 0, k 3⟩) = true ∧
    reads (rword 0x020 0x4 0x6 0x2 0x0 0x31) none (.lea ⟨h, .n32, 3, dv 4, v 6, v 2⟩) = true ∧
    reads (rword 0x021 0x4 0x46 0x0 0x0 0x9) none (.mov ⟨h, .b64, dv 4, k 6⟩) = true ∧
    reads (rword 0x022 0x4 0x1 0x2 0x5 0x8) none (.sel ⟨h, .b32, dv 4, v 1, v 2, 5⟩) = true ∧
    reads (rword 0x023 0x1 0x2 0x3 0x4 0x80) none (.plop ⟨h, 0x80, 1, 2, 3, 4⟩) = true ∧
    reads (rword 0x024 0x4 0x9 0x0 0x0 0x8) none (.movs ⟨h, false, dv 4, .lane⟩) = true := by
  decide

theorem test_decode_logic_1 :
    reads (rword 0x00F 0x4 0x1 0x2 0x0 0x8) none (.and ⟨h, .b32, dv 4, v 1, v 2⟩) = true ∧
    reads (rword 0x011 0x4 0x1 0x2 0x0 0x8) none (.xor ⟨h, .b32, dv 4, v 1, v 2⟩) = true ∧
    reads (rword 0x014 0x4 0x1 0x2 0x0 0x8) none (.shl ⟨h, .b32, dv 4, v 1, v 2⟩) = true ∧
    reads (rword 0x015 0x4 0x1 0x2 0x0 0x8) none (.shr ⟨h, .b32, dv 4, v 1, v 2⟩) = true ∧
    reads (rword 0x016 0x4 0x1 0x2 0x0 0x8) none (.sar ⟨h, .b32, dv 4, v 1, v 2⟩) = true ∧
    reads (rword 0x017 0x4 0x1 0x2 0x0 0x8) none (.rol ⟨h, .b32, dv 4, v 1, v 2⟩) = true ∧
    reads (rword 0x010 0x4 0x6 0x8 0x0 0x9) none (.or ⟨h, .b64, dv 4, v 6, v 8⟩) = true ∧
    reads (rword 0x012 0x4 0x6 0x0 0x0 0x9) none (.not ⟨h, .b64, dv 4, v 6⟩) = true ∧
    reads (rword 0x013 0x4 0x1 0x2 0x3 0x96) none (.logt ⟨h, false, 0x96, dv 4, v 1, v 2, v 3⟩) = true ∧
    reads (rword 0x018 0x4 0x1 0x2 0x3 0x8) none (.fshl ⟨h, .b32, dv 4, v 1, v 2, v 3⟩) = true ∧
    reads (rword 0x019 0x4 0x1 0x0 0x0 0x8) none (.popc ⟨h, .b32, dv 4, v 1⟩) = true ∧
    reads (rword 0x01A 0x4 0x1 0x0 0x0 0x8) none (.clz ⟨h, .b32, dv 4, v 1⟩) = true := by
  decide

theorem test_decode_logic_2 :
    reads (rword 0x01B 0x4 0x1 0x0 0x0 0x8) none (.ctz ⟨h, .b32, dv 4, v 1⟩) = true ∧
    reads (rword 0x01C 0x4 0x1 0x0 0x0 0x8) none (.brev ⟨h, .b32, dv 4, v 1⟩) = true ∧
    reads (rword 0x01D 0x4 0x1 0x2 0x0 0x1) none (.bfx ⟨h, .n32, dv 4, v 1, v 2⟩) = true ∧
    reads (rword 0x01E 0x4 0x1 0x2 0x3 0x8) none (.bfi ⟨h, .b32, dv 4, v 1, v 2, v 3⟩) = true ∧
    reads (rword 0x01F 0x4 0x1 0x2 0x3 0x8) none (.bysel ⟨h, dv 4, v 1, v 2, v 3⟩) = true := by
  decide

theorem test_decode_immediate_1 :
    reads (iword 0x040 0x4 0x1 0x123456 1) none (.iaddI ⟨h, .n32, dv 4, v 1, 0x123456⟩) = true ∧
    reads (iword 0x041 0x4 0x1 0x123456 1) none (.isubI ⟨h, .n32, dv 4, v 1, 0x123456⟩) = true ∧
    reads (iword 0x042 0x4 0x1 0x123456 1) none (.imulI ⟨h, .n32, dv 4, v 1, 0x123456⟩) = true ∧
    reads (iword 0x043 0x4 0x1 0x123456 1) none (.imulhI ⟨h, .n32, dv 4, v 1, 0x123456⟩) = true ∧
    reads (iword 0x044 0x4 0x1 0x123456 1) none (.idivI ⟨h, .n32, dv 4, v 1, 0x123456⟩) = true ∧
    reads (iword 0x045 0x4 0x1 0x123456 1) none (.iremI ⟨h, .n32, dv 4, v 1, 0x123456⟩) = true ∧
    reads (iword 0x046 0x4 0x1 0x123456 1) none (.iminI ⟨h, .n32, dv 4, v 1, 0x123456⟩) = true ∧
    reads (iword 0x047 0x4 0x1 0x123456 1) none (.imaxI ⟨h, .n32, dv 4, v 1, 0x123456⟩) = true ∧
    reads (iword 0x04E 0x4 0x1 0x123456 0) none (.andI ⟨h, .s32, dv 4, v 1, 0x123456⟩) = true ∧
    reads (iword 0x04F 0x4 0x1 0x123456 0) none (.orI ⟨h, .s32, dv 4, v 1, 0x123456⟩) = true ∧
    reads (iword 0x050 0x4 0x1 0x123456 0) none (.xorI ⟨h, .s32, dv 4, v 1, 0x123456⟩) = true ∧
    reads (iword 0x051 0x4 0x1 0x123456 0) none (.shlI ⟨h, .s32, dv 4, v 1, 0x123456⟩) = true := by
  decide

theorem test_decode_immediate_2 :
    reads (iword 0x052 0x4 0x1 0x123456 0) none (.shrI ⟨h, .s32, dv 4, v 1, 0x123456⟩) = true ∧
    reads (iword 0x053 0x4 0x1 0x123456 0) none (.sarI ⟨h, .s32, dv 4, v 1, 0x123456⟩) = true ∧
    reads (iword 0x054 0x4 0x1 0x123456 0) none (.rolI ⟨h, .s32, dv 4, v 1, 0x123456⟩) = true ∧
    reads (0x128FC04000003811) none (.icmpI ⟨⟨3, none, 7, false⟩, .n32, .lt, 1, v 0, 4⟩) = true ∧
    reads (iword 0x04D 0x3 0x1 0xFFFFFF 0) none (.icmpI ⟨h, .s32, .ge, 3, v 1, 0xFFFFFF⟩) = true ∧
    reads (iword 0x055 0x4 0x1 0x000803 1) none (.bfxI ⟨h, .n32, dv 4, v 1, 0x000803⟩) = true ∧
    reads (iword 0x056 0x4 0x1 0x00ABCD 1) none (.byselI ⟨h, dv 4, v 1, 0xABCD⟩) = true ∧
    reads (iword 0x057 0x4 0x6 0x123456 0) none (.leaI ⟨h, .s32, dv 4, v 6, 0x123456⟩) = true ∧
    reads (iword 0x058 0x84 0x0 0x123456 2) none (.movi ⟨h, .s64, dk 4, 0x123456⟩) = true := by
  decide

theorem test_decode_constant_1 :
    reads (iword 0x060 0x4 0x6 0x000000 2) (some c) (.iaddL ⟨h, .s64, dv 4, v 6, c⟩) = true ∧
    reads (iword 0x061 0x4 0x6 0x000000 2) (some c) (.isubL ⟨h, .s64, dv 4, v 6, c⟩) = true ∧
    reads (iword 0x062 0x4 0x6 0x000000 2) (some c) (.imulL ⟨h, .s64, dv 4, v 6, c⟩) = true ∧
    reads (iword 0x063 0x4 0x6 0x000000 2) (some c) (.imulhL ⟨h, .s64, dv 4, v 6, c⟩) = true ∧
    reads (iword 0x064 0x4 0x6 0x000000 2) (some c) (.idivL ⟨h, .s64, dv 4, v 6, c⟩) = true ∧
    reads (iword 0x065 0x4 0x6 0x000000 2) (some c) (.iremL ⟨h, .s64, dv 4, v 6, c⟩) = true ∧
    reads (iword 0x066 0x4 0x6 0x000000 2) (some c) (.iminL ⟨h, .s64, dv 4, v 6, c⟩) = true ∧
    reads (iword 0x067 0x4 0x6 0x000000 2) (some c) (.imaxL ⟨h, .s64, dv 4, v 6, c⟩) = true ∧
    reads (iword 0x06E 0x4 0x6 0x000000 3) (some c) (.andL ⟨h, .n64, dv 4, v 6, c⟩) = true ∧
    reads (iword 0x06F 0x4 0x6 0x000000 3) (some c) (.orL ⟨h, .n64, dv 4, v 6, c⟩) = true ∧
    reads (iword 0x070 0x4 0x6 0x000000 3) (some c) (.xorL ⟨h, .n64, dv 4, v 6, c⟩) = true ∧
    reads (iword 0x071 0x4 0x6 0x000000 3) (some c) (.shlL ⟨h, .n64, dv 4, v 6, c⟩) = true := by
  decide

theorem test_decode_constant_2 :
    reads (iword 0x072 0x4 0x6 0x000000 3) (some c) (.shrL ⟨h, .n64, dv 4, v 6, c⟩) = true ∧
    reads (iword 0x073 0x4 0x6 0x000000 3) (some c) (.sarL ⟨h, .n64, dv 4, v 6, c⟩) = true ∧
    reads (iword 0x074 0x4 0x6 0x000000 3) (some c) (.rolL ⟨h, .n64, dv 4, v 6, c⟩) = true ∧
    reads (iword 0x069 0x3 0x1 0x000000 0) (some c) (.icmpL ⟨h, .s32, .ne, 3, v 1, c⟩) = true ∧
    reads (iword 0x075 0x4 0x1 0x000000 1) (some c) (.bfxL ⟨h, .n32, dv 4, v 1, c⟩) = true ∧
    reads (iword 0x076 0x4 0x1 0x000000 1) (some c) (.byselL ⟨h, dv 4, v 1, c⟩) = true ∧
    reads (iword 0x077 0x4 0x6 0x000000 3) (some c) (.leaL ⟨h, .n64, dv 4, v 6, c⟩) = true ∧
    reads (iword 0x078 0x84 0x0 0x000000 3) (some c) (.movl ⟨h, .n64, dk 4, c⟩) = true := by
  decide

theorem test_decode_float_1 :
    reads (rword 0x080 0x4 0x1 0x2 0x0 0x190) none (.fadd ⟨h, .f32, .rz, true, .neg, dv 4, v 1, v 2⟩) = true ∧
    reads (rword 0x081 0x4 0x1 0x2 0x0 0x190) none (.fsub ⟨h, .f32, .rz, true, .neg, dv 4, v 1, v 2⟩) = true ∧
    reads (rword 0x082 0x4 0x1 0x2 0x0 0x190) none (.fmul ⟨h, .f32, .rz, true, .neg, dv 4, v 1, v 2⟩) = true ∧
    reads (rword 0x08A 0x4 0x1 0x2 0x0 0x190) none (.fdiv ⟨h, .f32, .rz, true, .neg, dv 4, v 1, v 2⟩) = true ∧
    reads (0x20C3C1006080F810) none (.ffma ⟨h, .f32, .rz, false, .none, dv 4, v 1, ⟨true, false, 2⟩, v 3⟩) = true ∧
    reads (rword 0x084 0x4 0x1 0x2 0x0 0x11) none (.fmin ⟨h, .f16, true, false, .none, dv 4, v 1, v 2⟩) = true ∧
    reads (rword 0x085 0x4 0x1 0x2 0x0 0x202) none (.fmax ⟨h, .bf16, false, false, .abs, dv 4, v 1, v 2⟩) = true ∧
    reads (rword 0x086 0x3 0x1 0x2 0x0 0x361) none (.fcmp ⟨h, .f16, .un, false, .cps, 3, v 1, v 2⟩) = true ∧
    reads (rword 0x087 0x4 0x1 0x0 0x0 0x0) none (.fclass ⟨h, .f32, dv 4, v 1⟩) = true ∧
    reads (rword 0x088 0x4 0x1 0x0 0x0 0x20) none (.frnd ⟨h, .f32, .rup, false, .none, dv 4, v 1⟩) = true ∧
    reads (rword 0x089 0x4 0x1 0x2 0x0 0x30) none (.fscale ⟨h, .f32, .rdn, false, .none, dv 4, v 1, v 2⟩) = true ∧
    reads (rword 0x08B 0x4 0x1 0x0 0x0 0x40) none (.fsqrt ⟨h, .f32, .rna, false, .none, dv 4, v 1⟩) = true := by
  decide

theorem test_decode_float_2 :
    reads (rword 0x08C 0x4 0x1 0x0 0x0 0x40) none (.frcp ⟨h, .f32, .rna, false, .none, dv 4, v 1⟩) = true ∧
    reads (rword 0x08D 0x4 0x1 0x0 0x0 0x102) none (.frsq ⟨h, .bf16, .rne, false, .neg, dv 4, v 1⟩) = true ∧
    reads (rword 0x08E 0x4 0x1 0x0 0x0 0x102) none (.fexp2 ⟨h, .bf16, .rne, false, .neg, dv 4, v 1⟩) = true ∧
    reads (rword 0x08F 0x4 0x1 0x0 0x0 0x102) none (.flog2 ⟨h, .bf16, .rne, false, .neg, dv 4, v 1⟩) = true ∧
    reads (rword 0x090 0x4 0x1 0x0 0x0 0x102) none (.fsinpi ⟨h, .bf16, .rne, false, .neg, dv 4, v 1⟩) = true ∧
    reads (rword 0x091 0x4 0x1 0x0 0x0 0x102) none (.fcospi ⟨h, .bf16, .rne, false, .neg, dv 4, v 1⟩) = true ∧
    reads (rword 0x092 0x4 0x1 0x2 0x0 0x2) none (.hadd2 ⟨h, .bf16, .rne, false, .none, dv 4, v 1, v 2⟩) = true ∧
    reads (rword 0x093 0x4 0x1 0x2 0x0 0x2) none (.hmul2 ⟨h, .bf16, .rne, false, .none, dv 4, v 1, v 2⟩) = true ∧
    reads (rword 0x094 0x4 0x1 0x2 0x3 0x81) none (.hfma2 ⟨h, .f16, .rne, true, .none, dv 4, v 1, v 2, v 3⟩) = true ∧
    reads (rword 0x095 0x4 0x1 0x2 0x3 0x92) none (.dot2 ⟨h, .bf16, .rz, true, dv 4, v 1, v 2, v 3⟩) = true ∧
    reads (rword 0x096 0x4 0x1 0x2 0x3 0x204) none (.dot4 ⟨h, .e4, some .e5, .rne, false, dv 4, v 1, v 2, v 3⟩) = true ∧
    reads (0x3083C1410FC03800) none (.fmulI ⟨h, .f32, dv 5, v 4, 0x3F0000⟩) = true := by
  decide

theorem test_decode_float_3 :
    reads (iword 0x0C0 0x4 0x1 0x3F8000 1) none (.faddI ⟨h, .f16, dv 4, v 1, 0x3F8000⟩) = true ∧
    reads (iword 0x0C1 0x4 0x1 0x3F8000 1) none (.fsubI ⟨h, .f16, dv 4, v 1, 0x3F8000⟩) = true ∧
    reads (iword 0x0C3 0x4 0x1 0x3F8000 1) none (.fminI ⟨h, .f16, dv 4, v 1, 0x3F8000⟩) = true ∧
    reads (iword 0x0C4 0x4 0x1 0x3F8000 1) none (.fmaxI ⟨h, .f16, dv 4, v 1, 0x3F8000⟩) = true ∧
    reads (iword 0x0CB 0x4 0x1 0x3F8000 1) none (.fscaleI ⟨h, .f16, dv 4, v 1, 0x3F8000⟩) = true ∧
    reads (iword 0x0C5 0x3 0x1 0x3F8000 0) none (.fcmpI ⟨h, .f32, .eq, 3, v 1, 0x3F8000⟩) = true := by
  decide

theorem test_decode_floatConstant_1 :
    reads (iword 0x0E0 0x4 0x1 0x000000 2) (some c) (.faddL ⟨h, .bf16, dv 4, v 1, c⟩) = true ∧
    reads (iword 0x0E1 0x4 0x1 0x000000 2) (some c) (.fsubL ⟨h, .bf16, dv 4, v 1, c⟩) = true ∧
    reads (iword 0x0E2 0x4 0x1 0x000000 2) (some c) (.fmulL ⟨h, .bf16, dv 4, v 1, c⟩) = true ∧
    reads (iword 0x0E3 0x4 0x1 0x000000 2) (some c) (.fminL ⟨h, .bf16, dv 4, v 1, c⟩) = true ∧
    reads (iword 0x0E4 0x4 0x1 0x000000 2) (some c) (.fmaxL ⟨h, .bf16, dv 4, v 1, c⟩) = true ∧
    reads (iword 0x0EB 0x4 0x1 0x000000 2) (some c) (.fscaleL ⟨h, .bf16, dv 4, v 1, c⟩) = true ∧
    reads (iword 0x0EA 0x3 0x1 0x000000 0) (some c) (.fcmpL ⟨h, .f32, .ge, 3, v 1, c⟩) = true ∧
    reads (iword 0x160 0x4 0x6 0x000000 0) (some c) (.faddF64L ⟨h, .f64, dv 4, v 6, c⟩) = true ∧
    reads (iword 0x161 0x4 0x6 0x000000 0) (some c) (.fsubF64L ⟨h, .f64, dv 4, v 6, c⟩) = true ∧
    reads (iword 0x162 0x4 0x6 0x000000 0) (some c) (.fmulF64L ⟨h, .f64, dv 4, v 6, c⟩) = true ∧
    reads (iword 0x163 0x4 0x6 0x000000 0) (some c) (.fminF64L ⟨h, .f64, dv 4, v 6, c⟩) = true ∧
    reads (iword 0x164 0x4 0x6 0x000000 0) (some c) (.fmaxF64L ⟨h, .f64, dv 4, v 6, c⟩) = true := by
  decide

theorem test_decode_floatConstant_2 :
    reads (iword 0x168 0x3 0x6 0x000000 0) (some c) (.fcmpF64L ⟨h, .f64, .le, 3, v 6, c⟩) = true ∧
    reads (iword 0x16B 0x4 0x6 0x000000 0) (some c) (.fscaleF64L ⟨h, .f64, dv 4, v 6, c⟩) = true := by
  decide

theorem test_decode_double_1 :
    reads (rword 0x100 0x4 0x6 0x8 0x0 0x313) none (.faddF64 ⟨h, .f64, .rz, false, .cps, dv 4, v 6, v 8⟩) = true ∧
    reads (rword 0x101 0x4 0x6 0x8 0x0 0x313) none (.fsubF64 ⟨h, .f64, .rz, false, .cps, dv 4, v 6, v 8⟩) = true ∧
    reads (rword 0x102 0x4 0x6 0x8 0x0 0x313) none (.fmulF64 ⟨h, .f64, .rz, false, .cps, dv 4, v 6, v 8⟩) = true ∧
    reads (rword 0x10A 0x4 0x6 0x8 0x0 0x313) none (.fdivF64 ⟨h, .f64, .rz, false, .cps, dv 4, v 6, v 8⟩) = true ∧
    reads (rword 0x103 0x4 0x6 0x8 0xa 0x3) none (.ffmaF64 ⟨h, .f64, .rne, false, .none, dv 4, v 6, v 8, v 10⟩) = true ∧
    reads (rword 0x104 0x4 0x6 0x8 0x0 0x3) none (.fminF64 ⟨h, .f64, false, false, .none, dv 4, v 6, v 8⟩) = true ∧
    reads (rword 0x105 0x4 0x6 0x8 0x0 0x13) none (.fmaxF64 ⟨h, .f64, true, false, .none, dv 4, v 6, v 8⟩) = true ∧
    reads (rword 0x106 0x3 0x6 0x8 0x0 0x53) none (.fcmpF64 ⟨h, .f64, .ge, false, .none, 3, v 6, v 8⟩) = true ∧
    reads (rword 0x107 0x4 0x6 0x0 0x0 0x3) none (.fclassF64 ⟨h, .f64, dv 4, v 6⟩) = true ∧
    reads (rword 0x108 0x4 0x6 0x0 0x0 0x3) none (.frndF64 ⟨h, .f64, .rne, false, .none, dv 4, v 6⟩) = true ∧
    reads (rword 0x109 0x4 0x6 0x2 0x0 0x3) none (.fscaleF64 ⟨h, .f64, .rne, false, .none, dv 4, v 6, v 2⟩) = true ∧
    reads (rword 0x10B 0x4 0x6 0x0 0x0 0x23) none (.fsqrtF64 ⟨h, .f64, .rup, false, .none, dv 4, v 6⟩) = true := by
  decide

theorem test_decode_double_2 :
    reads (rword 0x10C 0x4 0x6 0x0 0x0 0x23) none (.frcpF64 ⟨h, .f64, .rup, false, .none, dv 4, v 6⟩) = true ∧
    reads (iword 0x140 0x4 0x6 0x3FF000 0) none (.faddF64I ⟨h, .f64, dv 4, v 6, 0x3FF000⟩) = true ∧
    reads (iword 0x141 0x4 0x6 0x3FF000 0) none (.fsubF64I ⟨h, .f64, dv 4, v 6, 0x3FF000⟩) = true ∧
    reads (iword 0x142 0x4 0x6 0x3FF000 0) none (.fmulF64I ⟨h, .f64, dv 4, v 6, 0x3FF000⟩) = true ∧
    reads (iword 0x143 0x4 0x6 0x3FF000 0) none (.fminF64I ⟨h, .f64, dv 4, v 6, 0x3FF000⟩) = true ∧
    reads (iword 0x144 0x4 0x6 0x3FF000 0) none (.fmaxF64I ⟨h, .f64, dv 4, v 6, 0x3FF000⟩) = true ∧
    reads (iword 0x147 0x3 0x6 0x3FF000 0) none (.fcmpF64I ⟨h, .f64, .lt, 3, v 6, 0x3FF000⟩) = true ∧
    reads (iword 0x14B 0x4 0x6 0x000005 0) none (.fscaleF64I ⟨h, .f64, dv 4, v 6, 5⟩) = true := by
  decide

theorem test_decode_lane_1 :
    reads (rword 0x120 0x4 0x1 0x20 0x0 0x30) none (.cvt ⟨h, .int .s32, .flt .f32, .rz, .inf, true, dv 4, v 1⟩) = true ∧
    reads (rword 0x120 0x4 0x1 0x20 0x0 0x121) none (.cvt ⟨h, .flt .f16, .flt .f32, .rz, .sat, true, dv 4, v 1⟩) = true ∧
    reads (rword 0x180 0x4 0x1 0x2 0x0 0xc8) none (.lxch ⟨h, false, .lane, 3, dv 4, v 1, v 2⟩) = true ∧
    reads (0x7003C18140007BA0) none (.lxchI ⟨h, false, .flip, 3, dv 6, v 5, 8⟩) = true ∧
    reads (rword 0x181 0x1 0x2 0x0 0x0 0x2) none (.vote ⟨h, .same, 1, 2⟩) = true ∧
    reads (rword 0x182 0x4 0x2 0x0 0x0 0x0) none (.ballot ⟨h, dv 4, 2⟩) = true ∧
    reads (rword 0x183 0x4 0x1 0x0 0x0 0x21) none (.redux ⟨h, .max, .int .n32, dv 4, v 1⟩) = true ∧
    reads (rword 0x184 0x4 0x1 0x0 0x0 0x180) none (.scan ⟨h, .fadd, .flt .f32, true, dv 4, v 1⟩) = true ∧
    reads (rword 0x185 0x4 0x1 0x0 0x0 0x18) none (.matchOp ⟨h, false, true, dv 4, v 1⟩) = true ∧
    reads (rword 0x188 0x4 0x8 0x41 0x42 0xd0) none (.qblk ⟨h, .sr, .sat, 4, ⟨false, 8⟩, ⟨false, 1⟩, ⟨false, 2⟩⟩) = true ∧
    reads (rword 0x189 0x8 0x81 0x0 0x0 0x10) none (.qunpk ⟨h, .rz, 8, ⟨true, 1⟩⟩) = true ∧
    reads (rword 0x18A 0x4 0x1 0x0 0x0 0x11) none (.amax ⟨h, true, .f16, dv 4, v 1⟩) = true := by
  decide

theorem test_decode_lane_2 :
    reads (rword 0x190 0x4 0x43 0x0 0x0 0x2) none (.shape ⟨h, .sy, dv 4, true, 3⟩) = true ∧
    reads (rword 0x191 0x0 0x0 0x0 0x0 0x0) none (.mat ⟨0, none⟩) = true := by
  decide

theorem test_decode_memory_1 :
    reads (0x8000005000003898) none (.ld ⟨f0, .b32, .acq, .pkg, 1, k 0, none⟩) = true ∧
    reads (0x9000810200003901) none (.ldI ⟨⟨0, some 2, 7, false⟩, .b64, 4, v 8, 0x40⟩) = true ∧
    reads (iword 0x260 0x4 0x8 0x000000 2) (some c) (.ldL ⟨h, .b128, 4, v 8, c⟩) = true ∧
    reads (rword 0x201 0x84 0x42 0x43 0x0 0x208) none (.ldu ⟨h, .b32, .rlx, .sys, 4, ⟨false, 2⟩, some ⟨false, 3⟩⟩) = true ∧
    reads (iword 0x241 0x84 0x42 0x000008 1) none (.lduI ⟨h, .b64, 4, ⟨false, 2⟩, 8⟩) = true ∧
    reads (iword 0x261 0x84 0x42 0x000000 1) (some c) (.lduL ⟨h, .b64, 4, ⟨false, 2⟩, c⟩) = true ∧
    reads (0x8083C00210A17B38) none (.st ⟨h, .b32, .rel, .die, v 8, some ⟨false, 2⟩, ⟨true, false, 5⟩⟩) = true ∧
    reads (0x8083C01000027918) none (.st ⟨h, .b32, .rel, .pkg, k 0, none, v 9⟩) = true ∧
    reads (iword 0x242 0x5 0x8 0xFFFFFC 0) none (.stI ⟨h, .b32, dv 5, v 8, 0xFFFFFC⟩) = true ∧
    reads (iword 0x262 0x85 0x8 0x000000 0) (some c) (.stL ⟨h, .b32, dk 5, v 8, c⟩) = true ∧
    reads (0x80C000C1A0403831) none (.atom ⟨f0, .add, .n32, .rlx, .die, false, 3, v 6, ⟨true, false, 1⟩⟩) = true ∧
    reads (0x8100401061403831) none (.red ⟨⟨0, some 1, 7, false⟩, .add, .n32, .rlx, .die, k 1, ⟨true, false, 5⟩⟩) = true := by
  decide

theorem test_decode_memory_2 :
    reads (rword 0x205 0x0 0x8 0x0 0x0 0x5) none (.pref ⟨h, 1, true, v 8, none⟩) = true ∧
    reads (iword 0x243 0x0 0x8 0x000040 0) none (.prefI ⟨h, v 8, 0x40⟩) = true ∧
    reads (iword 0x263 0x0 0x8 0x000000 0) (some c) (.prefL ⟨h, v 8, c⟩) = true ∧
    reads (rword 0x206 0x0 0x8 0x42 0x0 0x202) none (.cctl ⟨h, 2, some (v 8), some ⟨false, 2⟩⟩) = true ∧
    reads (0xA003C00000003B90) none (.fence ⟨h, .ar, true, .pkg⟩) = true ∧
    reads (rword 0x281 0x4 0x0 0x0 0x0 0x0) none (.phclose ⟨h, dv 4⟩) = true ∧
    reads (rword 0x282 0x0 0x41 0x6 0x0 0x0) none (.phwait ⟨h, ⟨false, 1⟩, v 6⟩) = true ∧
    reads (rword 0x283 0x0 0x6 0x2 0x43 0x8) none (.waitv ⟨h, .b32, v 6, v 2, ⟨false, 3⟩⟩) = true ∧
    reads (rword 0x284 0x0 0x0 0x0 0x0 0x2) none (.barArv ⟨h, 2⟩) = true ∧
    reads (rword 0x285 0x0 0x0 0x0 0x0 0x3) none (.barWait ⟨h, 3⟩) = true ∧
    reads (rword 0x286 0x0 0x6 0x0 0x0 0x30) none (.barmArv ⟨h, .die, v 6⟩) = true ∧
    reads (rword 0x287 0x4 0x6 0x2 0x0 0x90) none (.barmWait ⟨h, .pkg, some 4, v 6, v 2⟩) = true := by
  decide

theorem test_decode_memory_3 :
    reads (0xA2004032D050B803) none (.smap ⟨⟨0, some 1, 7, false⟩, true, true, ⟨true, 11⟩, ⟨false, 1⟩, ⟨false, 2⟩⟩) = true ∧
    reads (rword 0x289 0x0 0x45 0x0 0x0 0x0) none (.sunmap ⟨h, ⟨false, 5⟩⟩) = true ∧
    reads (rword 0x28A 0x0 0x45 0x0 0x0 0x0) none (.sflush ⟨h, ⟨false, 5⟩⟩) = true ∧
    reads (rword 0x28B 0x0 0x45 0x0 0x0 0x0) none (.sfill ⟨h, ⟨false, 5⟩⟩) = true ∧
    reads (rword 0x28C 0x0 0x45 0x0 0x0 0x0) none (.sdiscard ⟨h, ⟨false, 5⟩⟩) = true ∧
    reads (rword 0x28D 0x84 0x45 0x0 0x0 0x0) none (.squery ⟨h, dk 4, ⟨false, 5⟩⟩) = true := by
  decide

theorem test_decode_engines_1 :
    reads (rword 0x300 0x3 0x6 0x8 0x4a 0x102) none (.cpy ⟨h, 2, .core, 3, v 6, v 8, ⟨false, 10⟩⟩) = true ∧
    reads (0xC043C00789153800) none (.cpyt ⟨h, 0, .sys, false, 0, ⟨false, 30⟩, v 36, ⟨false, 20⟩⟩) = true ∧
    reads (0xC083C0D0129338C0) none (.cpyg ⟨h, .die, 3, ⟨false, 0⟩, ⟨false, 10⟩, ⟨false, 12⟩⟩) = true ∧
    reads (rword 0x303 0x3 0x40 0x4a 0x4c 0x40) none (.cpys ⟨h, .pkg, 3, ⟨false, 0⟩, ⟨false, 10⟩, ⟨false, 12⟩⟩) = true ∧
    reads (0xC103C01280001800) none (.copyq ⟨⟨0, none, 3, false⟩, ⟨false, 10⟩⟩) = true ∧
    reads (rword 0x305 0x0 0x41 0x0 0x0 0x1) none (.twait ⟨h, true, ⟨false, 1⟩⟩) = true ∧
    reads (rword 0x306 0x4 0x41 0x0 0x0 0x0) none (.tffr ⟨h, dv 4, ⟨false, 1⟩⟩) = true ∧
    reads (rword 0x307 0x0 0x41 0x0 0x0 0x0) none (.tclr ⟨h, ⟨false, 1⟩⟩) = true ∧
    reads (0xC200051293D11810) none (.cntwait ⟨⟨0, some 0, 3, false⟩, .pkg, dv 20, ⟨false, 10⟩, ⟨false, 15⟩, ⟨false, 4⟩⟩) = true ∧
    reads (rword 0x310 0x5 0x41 0x42 0x0 0x0) none (.gset ⟨h, 5, ⟨false, 1⟩, ⟨false, 2⟩⟩) = true ∧
    reads (rword 0x311 0x4 0x5 0x0 0x0 0x0) none (.gcnt ⟨h, dv 4, 5⟩) = true ∧
    reads (rword 0x312 0x0 0x41 0x0 0x0 0x1) none (.acfg ⟨h, true, ⟨false, 1⟩⟩) = true := by
  decide

theorem test_decode_engines_2 :
    reads (0xC4C0810000814809) none (.mma ⟨⟨0, some 2, 1, false⟩, .m128n64, false, 4, 0, 2, some 5⟩) = true ∧
    reads (0xC4C3C00000401800) none (.mma ⟨⟨0, none, 3, false⟩, .m64n64, false, 0, 0, 1, none⟩) = true ∧
    reads (rword 0x314 0x4 0x6 0x41 0x0 0x3) none (.accLd ⟨h, true, 4, 6, ⟨false, 1⟩⟩) = true ∧
    reads (rword 0x315 0x6 0x84 0x41 0x0 0x0) none (.accSt ⟨h, false, 6, ⟨true, 4⟩, ⟨false, 1⟩⟩) = true ∧
    reads (rword 0x316 0x4 0x0 0x0 0x0 0x5) none (.accZero ⟨h, .m128n64, true, 4⟩) = true ∧
    reads (rword 0x317 0x6 0x41 0x42 0x0 0x51) none (.accMov ⟨h, true, .f16, .rup, 6, ⟨false, 1⟩, ⟨false, 2⟩⟩) = true ∧
    reads (rword 0x318 0x4 0x0 0x0 0x0 0x0) none (.mprog ⟨h, dv 4⟩) = true := by
  decide

theorem test_decode_control_1 :
    reads (rword 0x380 0x0 0x6 0x0 0x0 0x0) none (.brx ⟨h, v 6⟩) = true ∧
    reads (rword 0x381 0x0 0x46 0x0 0x0 0x0) none (.callx ⟨h, k 6⟩) = true ∧
    reads (0xE083C02F80003800) none (.ret ⟨h, ⟨true, 62⟩⟩) = true ∧
    reads (rword 0x383 0x0 0x0 0x0 0x0 0x0) none (.joinpt ⟨0, none⟩) = true ∧
    reads (rword 0x384 0x0 0x0 0x0 0x0 0x0) none (.sync ⟨0, none⟩) = true ∧
    reads (rword 0x385 0x0 0x0 0x0 0x0 0x0) none (.exit ⟨h⟩) = true ∧
    reads (rword 0x386 0x0 0x0 0x0 0x0 0x0) none (.yield ⟨0, none⟩) = true ∧
    reads (0xE1C3C00000003800) none (.sjoin ⟨0, none⟩) = true ∧
    reads (0xF003C00000000C20) none (.bra ⟨⟨0, none, 1, true⟩, 8⟩) = true ∧
    reads (0xF003C0003FFFFBE4) none (.bra ⟨h, 0xFFFFF9⟩) = true ∧
    reads (iword 0x3C1 0x0 0x0 0x000009 0) none (.call ⟨h, 9⟩) = true ∧
    reads (iword 0x3C2 0x0 0x0 0x123456 0) none (.trap ⟨h, 0x123456⟩) = true := by
  decide

theorem test_decode_control_2 :
    reads (iword 0x3C3 0x0 0x0 0x123456 0) none (.brk ⟨h, 0x123456⟩) = true ∧
    reads (iword 0x3C4 0x0 0x41 0x000030 0) none (.svc ⟨h, 0x30, ⟨false, 1⟩⟩) = true ∧
    reads (iword 0x3C5 0x4 0x0 0x000041 0) none (.csrr ⟨h, dv 4, 0x041⟩) = true ∧
    reads (iword 0x3C6 0x0 0x41 0x000001 0) none (.csrw ⟨h, ⟨false, 1⟩, 0x001⟩) = true ∧
    reads (rword 0x390 0x4 0x41 0x0 0x0 0x0) none (.launch ⟨h, dv 4, ⟨false, 1⟩⟩) = true ∧
    reads (rword 0x391 0x0 0x0 0x0 0x0 0x1) none (.lwait ⟨h, none⟩) = true ∧
    reads (rword 0x391 0x0 0x41 0x0 0x0 0x0) none (.lwait ⟨h, some ⟨false, 1⟩⟩) = true ∧
    reads (rword 0x392 0x0 0x0 0x0 0x0 0x2) none (.trapret ⟨h, .kill⟩) = true ∧
    reads (rword 0x393 0x0 0x0 0x0 0x0 0x0) none (.nop ⟨0, none⟩) = true := by
  decide

/-! ## A small state in which a sub-wave of one lane issues -/

/-- The clause that the sub-wave stands in. -/
def cl : Clause := ⟨0x100000, ⟨0, 0, 0, false, false, 0⟩, []⟩
/-- One lane at depth 0. -/
def sub1 : SubWave := { pc := 0x100000, mask := 1, clause := some cl, started := true }
/-- Every register is written. The other pairs and k0 to k31 hold the base of the team window, w10 and k48 to k63 the first
address of the data page, w16 to w31 and k32 to k35 hold 0, w14 holds a clause boundary, and k36 to k47 operands for the pool and the data page (see `pool`
and `data`). -/
def wave1 : Wave :=
  { present := 1, live := 1, subs := [(0, sub1)]
    vregs := (List.range 64).map fun r =>
      (r, { mask := 1, vals := laneList.map fun _ =>
        if r = 10 then 0x00110000#32 else if r = 12 then 0xFFFFFFFF#32 else if r = 14 then 0x00100010#32 else if r = 15 then 0#32 else if 16 ≤ r && r < 32 then 0#32 else if r ≠ 11 && r % 2 = 1 then 0x00FF8000#32 else 0#32 })
    uregs := (List.range 64).map fun r =>
      (r, { mask := 1, val := if r < 32 then 0x00FF800000000000#64 else if r < 36 then 0#64 else if r = 36 then 6#64 else if r = 37 then 0x10003#64 else if r = 38 then 0x30004#64
              else if r = 39 then 0#64 else if r = 40 then 8#64
              else if r = 41 then 1#64 else if r = 42 then 0x110800#64 else if r = 43 then 0x110400#64 else if r = 44 then 2#64
              else if r = 46 then 16#64 else if r = 47 then 0#64 else 0x110000#64 }) }
/-- 64 rows of one line. -/
def lay : Layout := { fmt := 0, strides := [64, 0, 0, 0], extents := [64, 1, 1, 1] }
/-- A team of one wave on core 0 with 64 KiB of stash and two accumulator tiles; tag 3 is DONE. -/
def team1 : Team :=
  { ctx := 0, grid := 0, index := 0, bx := 0, by_ := 0, bz := 0, waves := [(0, wave1)], stashBytes := 65536, accTiles := [0, 1]
    accCount := 2, layouts := List.replicate 16 lay, tags := (List.replicate 64 .idle).set 3 .done }
/-- Its grid. -/
def grid1 : Grid :=
  { ctx := 0, num := 1, record := 0, gx := 16, gy := 1, gz := 1, tx := 16, ty := 1, tz := 1, textVa := 0x100000, textLen := 64
    poolVa := 0x101000, entry := 0x100000 }
/-- Its context, with one page of code and one of data, of 64 KiB each. -/
def ctx1 : Ctx := { dev := 0, asid := 0, pages := [{ va := 0x100000, size := 65536, target := .hbm 0, perm := 5 }, { va := 0x110000, size := 65536, target := .hbm 65536, perm := 3 }] }
/-- A live map entry of the team with key 1. -/
def ent : MapEntry :=
  { st := .live 0, ctx := 0, key := 1, base := 0x110000, rw := true, retain := false, rstride := 64, foff := 0, fbytes := 8
    rpr := 2, rowstride := 4096, rows := 1, fmt := 0, lo := 0x800, size := 16 }
/-- A pool with the image record, a map template (Table 7.7), a layout template, a shape record of one row of four 4-byte
elements (Table 8.3), and a coordinate program that emits four elements (Table 8.4). -/
def pool : List Nat :=
  [5, 0x20 + 0x48 * 2 ^ 32, 0x68 + 0x98 * 2 ^ 32, 0xD8, 0x00050006, 0x100000, 64, 0, 0,
   0x00040002, 0x0000081000000040, 0x0000001000000010, 0xF000200004000004,
   0x00060004, 0, 64 + 64 * 2 ^ 32, 2 ^ 32, 2 ^ 32, 2 ^ 32,
   0x00080001, 0x110700, 0x22, 4 + 4 * 2 ^ 24, 1 + 64 * 2 ^ 24, 0, 0, 0, 0x00030003, 0x40005, 0]
/-- At 0x110400 a copy descriptor of 16 bytes, at 0x110800 a launch record, with STATUS 1, for one team of 16 lanes, whose kernel header is at
0x110C00. -/
def data : Nat → List Nat
  | 0 => [0x110500, 0x110600, 16]
  | 1 => [0x101000, 0x110C00, 1 + 2 ^ 32, 1, 0, 1]
  | _ => [0, 16 + 2 ^ 16 + 2 ^ 32, 64, 0, 0xFFFFFFFF * 2 ^ 32]
/-- A memory with words from an address of the device. -/
def put (m : Memory) (a : Nat) (ws : List Nat) : Memory := m.splice (hbmPlace 0 0 a) (ws.flatMap (natLe 8))
/-- The package with this team alone. -/
def st : State :=
  { State.reset with
    cur := some (.sub 0 0 0), ctxs := [(0, ctx1)], grids := [(0, grid1)], teams := [(0, team1)], cores := State.reset.cores.set 0 { State.reset.core 0 with entries := [(0, ent)] }
    mem := put (put (put (put [] 0x1000 pool) 0x10400 (data 0)) 0x10800 (data 1)) 0x10C00 (data 2) }
/-- The sub-wave. -/
def ex1 : Ex := ⟨0, 0, 0, team1, wave1, sub1⟩

/-- Every instruction of code memory without a flag can issue in `st`. -/
theorem witness_issues (i : Instr) (u : Use) (hu : i.use = some u) (hf : u.hdr.flag = none) : Issues st i u ex1 :=
  { cur := rfl, here := rfl, may := rfl, free := rfl, lanes := by decide, live := by decide, preds := rfl
    room := by unfold flagFull; rw [hf]
    due := rfl, use := hu }

/-- What an instruction names. -/
def U (i : Instr) : Use := i.use.getD ⟨h, [], [], [], []⟩
/-- An instruction of code memory without a flag that reads no released register of the wave. -/
def issuable (i : Instr) : Bool :=
  i.use.isSome && (U i).hdr.flag.isNone && (lanesIn (ex1.parts (U i))).all fun l => !wave1.staleAt 0 1 (U i).rd l

theorem issuable_spec {i : Instr} (hi : issuable i = true) : Issues st i (U i) ex1 ∧ ex1.fresh (U i) := by
  simp only [issuable, Bool.and_eq_true, Option.isNone_iff_eq_none, List.all_eq_true, Bool.not_eq_true'] at hi
  refine ⟨witness_issues i _ ?_ hi.1.2, hi.2⟩
  obtain ⟨u, hu⟩ := Option.isSome_iff_exists.1 hi.1.1
  rw [U, hu]; rfl

/-- An access of one lane that succeeds at once, and again. -/
theorem reached_one (s s' : State) (d : Dest) (w : Want) (ea : Nat → Nat) (after : List Nat → State) (h0 : after [] = s')
    (hr : s.ready (s.accessor ex1 0) w (ea 0) = .ok s' d)
    (hr' : s'.ready (s'.accessor ex1 0) w (ea 0) = .ok s' d) : Reached s ex1 w ea [0] (fun _ => d) after :=
  { all := by
      simp only [State.readyAll, List.foldl_cons, List.foldl_nil, hr, h0]
      rfl
    again := fun l k hl => by
      have h1 := List.IsPrefix.length_le hl
      have : l = [] := by cases l with
        | nil => rfl
        | cons a r => simp at h1
      subst this
      have : k = 0 := by
        obtain ⟨t, ht⟩ := hl
        simp only [List.nil_append, List.cons_append] at ht
        exact (List.cons.inj ht).1
      subst this
      rw [h0]; exact hr' }

/-! ## Witnesses: states and operands that meet the hypotheses of the statements -/

theorem witness_IntegerLanes :
    (Issues st (.iadd ⟨h, .n32, true, dv 4, v 1, v 2⟩) (U (.iadd ⟨h, .n32, true, dv 4, v 1, v 2⟩)) ex1 ∧
      ex1.fresh (U (.iadd ⟨h, .n32, true, dv 4, v 1, v 2⟩))) ∧
    -- a division: the divisor of the only lane is not zero
    issuable (.idiv ⟨h, .s32, dv 4, v 2, v 1⟩) = true ∧
    readI .s32 (ex1.lane (U (.idiv ⟨h, .s32, dv 4, v 2, v 1⟩)) 0).b ≠ 0 ∧
    ([.isub ⟨h, .s64, false, dk 4, k 1, k 2⟩, .iaddc ⟨h, .n32, dv 4, v 1, v 2, 7, 7⟩, .ineg ⟨h, .s16, false, dv 4, v 1⟩,
      .iabs ⟨h, .s8, true, dv 4, v 1⟩, .imul ⟨h, .n64, false, dv 62, v 62, k 63⟩, .imad ⟨h, .n16, false, dv 0, v 0, v 63, v 3⟩,
      .icmp ⟨h, .n32, .lt, 7, v 0, k 3⟩, .iaddI ⟨h, .n32, dv 4, v 1, 0xFFFFFF⟩, .imaxL ⟨h, .s64, dv 4, v 6, c⟩].all issuable) =
      true := by
  exact ⟨issuable_spec (by decide), by decide, by decide, by decide⟩

theorem witness_LogicLanes :
    ([.and ⟨h, .b32, dv 4, v 1, v 2⟩, .not ⟨h, .b64, dv 4, v 6⟩, .logt ⟨h, true, 0x96, dv 4, v 0, v 2, v 62⟩,
      .shl ⟨h, .b32, dv 4, v 1, v 2⟩, .fshl ⟨h, .b64, dv 4, v 6, v 8, v 1⟩, .popc ⟨h, .b64, dk 4, k 1⟩, .bfx ⟨h, .s32, dv 4, v 1, v 2⟩,
      .bysel ⟨h, dv 4, v 1, v 2, v 3⟩, .lea ⟨h, .n32, 7, dv 4, v 6, v 2⟩, .mov ⟨h, .b64, dv 4, k 6⟩,
      .sel ⟨h, .b32, dv 4, v 1, v 2, 7⟩, .plop ⟨h, 0x80, 7, 0, 6, 7⟩, .movi ⟨h, .s64, dk 4, 0x123456⟩, .movl ⟨h, .n64, dk 4, c⟩,
      .shrI ⟨h, .n64, dv 4, v 6, 63⟩, .xorL ⟨h, .n64, dv 4, v 6, c⟩].all issuable) = true := by
  decide

/-- With every trap enable of CTL 0, a result that overflows under no .TRAP policy raises nothing. -/
theorem no_trap (o : LaneOut) (h1 : o.ovTrap = false) (h2 : o.other = none) : o.trap wave1.ctl = none := by
  have hc : ctlEnables wave1.ctl = 0 := by decide
  have hd : wave1.ctl.getLsbD 10 = false := by decide
  simp [LaneOut.trap, h1, h2, hc]
  exact fun _ => hd

theorem witness_FloatLanes :
    ([.fadd ⟨h, .f32, .rz, true, .neg, dv 4, v 1, v 2⟩, .ffma ⟨h, .f16, .rne, false, .none, dv 4, v 1, v 2, v 3⟩,
      .fmin ⟨h, .bf16, true, false, .none, dv 4, v 1, v 2⟩, .fcmp ⟨h, .f32, .un, false, .cps, 6, v 1, v 2⟩,
      .fsqrt ⟨h, .f32, .rne, false, .abs, dk 4, k 1⟩, .faddI ⟨h, .f32, dv 4, v 2, 0x3F8000⟩, .fmulL ⟨h, .f16, dv 4, v 1, c⟩].all
      issuable) = true ∧
    (LaneOut.flt (fAdd (fctx .f32 .rz true .neg 0) 0 0x3F800000)).trap wave1.ctl = none := by
  exact ⟨by decide, no_trap _ (by decide) rfl⟩

theorem witness_DoubleLanes :
    ([.faddF64 ⟨h, .f64, .rz, false, .cps, dv 4, v 6, v 8⟩, .ffmaF64 ⟨h, .f64, .rne, false, .none, dk 4, k 6, k 8, k 10⟩,
      .fcmpF64 ⟨h, .f64, .ge, false, .none, 3, v 6, v 62⟩, .fscaleF64I ⟨h, .f64, dv 4, v 6, 5⟩, .fdivF64 ⟨h, .f64, .rne, false, .none, dv 4, v 6, v 8⟩].all
      issuable) = true ∧
    (LaneOut.flt (fAdd (fctx .f64 .rz false .cps 0) 0 0x3FF0000000000000)).trap wave1.ctl = none := by
  exact ⟨by decide, no_trap _ (by decide +kernel) rfl⟩

theorem witness_PackedLanes :
    ([.hadd2 ⟨h, .bf16, .rne, false, .none, dv 4, v 1, v 2⟩, .hfma2 ⟨h, .f16, .rne, true, .none, dv 4, v 1, v 2, v 3⟩,
      .dot2 ⟨h, .bf16, .rz, true, dv 4, v 1, v 2, v 3⟩, .dot4 ⟨h, .e4, some .e5, .rne, false, dv 4, v 1, v 2, v 3⟩].all issuable) =
      true ∧
    (LaneOut.flt (packed2 fun i => fAdd (fctx .f16 .rne false .none 0) (half16 0x3C003C00 i) (half16 0 i))).trap wave1.ctl = none := by
  exact ⟨by decide, no_trap _ (by decide) rfl⟩

/-- IntegerSilence, BitCounts: integer operations issue; a division where the divisor is not zero. -/
theorem witness_IntegerSilence :
    ([.iadd ⟨h, .s32, true, dv 4, v 1, v 2⟩, .idiv ⟨h, .s32, dv 4, v 2, v 1⟩, .iremI ⟨h, .n32, dv 4, v 1, 1⟩, .popc ⟨h, .b32, dv 4, v 1⟩,
      .clz ⟨h, .b64, dv 4, v 6⟩, .ctz ⟨h, .b32, dk 4, k 40⟩].all issuable) = true ∧
    (∀ q ∈ lanesIn (ex1.parts (U (.idiv ⟨h, .s32, dv 4, v 2, v 1⟩))),
      readI .s32 (ex1.lane (U (.idiv ⟨h, .s32, dv 4, v 2, v 1⟩)) q).b ≠ 0) ∧
    (∀ q ∈ lanesIn (ex1.parts (U (.iremI ⟨h, .n32, dv 4, v 1, 1⟩))), readI .n32 ((1 : BitVec 24).toNat) ≠ 0) := by
  decide

/-- DivisionLaw: the three cases, and their meeting points: zero by zero, the least number by -1, -1 by the least number. -/
theorem witness_DivisionLaw :
    readI .s32 0 = 0 ∧ (ITy.signed .s32 = true ∧ readI .s32 0x80000000 = ITy.tmin .s32 ∧ readI .s32 0xFFFFFFFF = -1) ∧
    (readI .s32 0x80000000 ≠ 0 ∧ ¬ (ITy.signed .s32 = true ∧ readI .s32 0xFFFFFFFF = ITy.tmin .s32 ∧ readI .s32 0x80000000 = -1)) ∧
    ¬ ITy.signed .n32 = true := by
  decide

theorem witness_LaneExchange :
    ([.lxch ⟨h, false, .lane, 3, dv 4, v 1, v 2⟩, .lxchI ⟨h, true, .slide, 0, dv 4, v 6, 16⟩, .vote ⟨h, .same, 1, 7⟩, .ballot ⟨h, dk 4, 2⟩,
      .redux ⟨h, .max, .int .n32, dk 4, v 1⟩, .redux ⟨h, .fadd, .flt .f32, dv 4, v 2⟩, .scan ⟨h, .add, .int .s64, true, dv 4, v 6⟩,
      .matchOp ⟨h, false, true, dv 4, v 1⟩, .amax ⟨h, true, .f16, dv 4, v 1⟩].all issuable) = true ∧
    ctlEnables wave1.ctl = 0 := by
  decide

theorem witness_MoveSpecial :
    ([.movs ⟨h, false, dv 4, .lane⟩, .movs ⟨h, true, dk 4, .grid⟩, .shape ⟨h, .sz, dk 4, true, 63⟩,
      .cvt ⟨h, .flt .f16, .flt .f32, .rz, .sat, true, dv 4, v 1⟩, .cvt ⟨h, .flt .bf16, .flt .f32, .sr, .inf, false, dk 4, k 1⟩,
      .qunpk ⟨h, .rz, 8, ⟨true, 2⟩⟩].all issuable) = true ∧
    st.grids.get? ex1.team.grid = some grid1 ∧ ex1.parts (U (.cvt ⟨h, .flt .bf16, .flt .f32, .sr, .inf, false, dk 4, k 1⟩)) ≠ 0 ∧
    ctlEnables wave1.ctl = 0 ∧
    (cvtLane ⟨h, .flt .bf16, .flt .f32, .sr, .inf, false, dk 4, k 1⟩ wave1.ctl 0
      ((ex1.lane (U (.cvt ⟨h, .flt .bf16, .flt .f32, .sr, .inf, false, dk 4, k 1⟩)) 0).draw 0)).trap wave1.ctl = none := by
  refine ⟨by decide, rfl, by decide, by decide, no_trap _ ?_ ?_⟩ <;> rfl

theorem witness_NoEffect : ([.nop ⟨0, none⟩, .mat ⟨15, none⟩, .sjoin ⟨0, none⟩].all issuable) = true := by decide

/-- PredicateSeven: the lowest and the highest predicate that a write changes, and the lanes at both ends. -/
theorem witness_PredicateSeven : (0 < 7 ∧ 6 < 7) ∧ wave1.preds.length = 7 ∧ (0 < 16 ∧ 15 < 16) := by decide

theorem witness_PrefetchControl :
    ([.pref ⟨h, 2, true, v 8, some ⟨false, 40⟩⟩, .prefI ⟨h, v 8, 0x40⟩, .prefL ⟨h, v 8, c⟩, .cctl ⟨h, 1, none, none⟩,
      .cctl ⟨h, 2, some (v 8), some ⟨false, 40⟩⟩].all issuable) = true ∧
    (∀ x ∈ ([⟨h, 1, none, none⟩, ⟨h, 2, some (v 8), some ⟨false, 40⟩⟩] : List Cctl),
      ((lanesIn (ex1.parts (U (.cctl x)))).foldl (fun (r : State × Bool) k =>
        let q := r.1.cacheOp (st.accessor ex1 k) x.op.val (if x.addr.isSome then ex1.ea (U (.cctl x)) 0 (offAt x.off 1) 0 k else 0)
        (q.1, r.2 && q.2)) (st, true)).2 = true) := by
  decide +kernel

theorem witness_FenceJoinYield :
    ([.fence ⟨h, .ar, true, .pkg⟩, .fence ⟨h, .acq, false, .wave⟩, .joinpt ⟨0, none⟩, .yield ⟨0, none⟩].all issuable) = true ∧
    ex1.sub.joins.length < 16 := by
  decide

/-- The 4 bytes at the base of the team window, and the 16 of the largest access. -/
theorem witness_Loads :
    (issuable (.ldI ⟨h, .b32, 4, v 8, 0⟩) = true ∧
      Reached st ex1 { n := 4, rd := true, wr := false } (ex1.ea (U (.ldI ⟨h, .b32, 4, v 8, 0⟩)) 0 none (sext24 0))
        (lanesIn (ex1.parts (U (.ldI ⟨h, .b32, 4, v 8, 0⟩)))) (fun _ => .stash 0 0) fun _ => st) ∧
    (issuable (.ld ⟨h, .b128, .acq, .pkg, 4, v 8, none⟩) = true ∧
      Reached st ex1 { n := 16, rd := true, wr := false } (ex1.ea (U (.ld ⟨h, .b128, .acq, .pkg, 4, v 8, none⟩)) 0 none 0)
        (lanesIn (ex1.parts (U (.ld ⟨h, .b128, .acq, .pkg, 4, v 8, none⟩)))) (fun _ => .stash 0 0) fun _ => st) ∧
    (issuable (.lduI ⟨h, .b64, 4, ⟨false, 2⟩, 0⟩) = true ∧ ex1.parts (U (.lduI ⟨h, .b64, 4, ⟨false, 2⟩, 0⟩)) ≠ 0 ∧
      Reached st ex1 { n := 8, rd := true, wr := false } (ex1.ea (U (.lduI ⟨h, .b64, 4, ⟨false, 2⟩, 0⟩)) 0 none (sext24 0))
        [lowLane (ex1.parts (U (.lduI ⟨h, .b64, 4, ⟨false, 2⟩, 0⟩)))] (fun _ => .stash 0 0) fun _ => st) :=
  ⟨⟨by decide, reached_one st st (.stash 0 0) _ _ _ rfl (by rfl) (by rfl)⟩, ⟨by decide, reached_one st st (.stash 0 0) _ _ _ rfl (by rfl) (by rfl)⟩,
    by decide, by decide, reached_one st st (.stash 0 0) _ _ _ rfl (by rfl) (by rfl)⟩

theorem witness_Stores :
    (issuable (.stI ⟨h, .b32, dv 3, v 8, 0x10⟩) = true ∧
      Reached (st.escapes ex1 (lanesIn (ex1.parts (U (.stI ⟨h, .b32, dv 3, v 8, 0x10⟩)))) (ex1.ea (U (.stI ⟨h, .b32, dv 3, v 8, 0x10⟩)) 1 none (sext24 0x10)))
        ex1 { n := 4, rd := false, wr := true, plain := true } (ex1.ea (U (.stI ⟨h, .b32, dv 3, v 8, 0x10⟩)) 1 none (sext24 0x10))
        (lanesIn (ex1.parts (U (.stI ⟨h, .b32, dv 3, v 8, 0x10⟩)))) (fun _ => .stash 0 0x10)
        (st.writes ex1 (fun _ => .stash 0 0x10) 4 (fun k _ => ((ex1.lane (U (.stI ⟨h, .b32, dv 3, v 8, 0x10⟩)) k).src[0]?).getD 0 % 2 ^ 32))) ∧
    (issuable (.st ⟨h, .b128, .rel, .pkg, v 8, none, v 4⟩) = true ∧ st.releaseWaits ex1 (lanesIn (ex1.parts (U (.st ⟨h, .b128, .rel, .pkg, v 8, none, v 4⟩)))) = false ∧
      Reached (st.escapes ex1 (lanesIn (ex1.parts (U (.st ⟨h, .b128, .rel, .pkg, v 8, none, v 4⟩)))) (ex1.ea (U (.st ⟨h, .b128, .rel, .pkg, v 8, none, v 4⟩)) 0 none 0))
        ex1 { n := 16, rd := false, wr := true, plain := true } (ex1.ea (U (.st ⟨h, .b128, .rel, .pkg, v 8, none, v 4⟩)) 0 none 0)
        (lanesIn (ex1.parts (U (.st ⟨h, .b128, .rel, .pkg, v 8, none, v 4⟩)))) (fun _ => .stash 0 0)
        (st.writes ex1 (fun _ => .stash 0 0) 16 (fun k _ => ((ex1.lane (U (.st ⟨h, .b128, .rel, .pkg, v 8, none, v 4⟩)) k).src[1]?).getD 0 % 2 ^ 128))) :=
  ⟨⟨by decide, reached_one _ st _ _ _ _ rfl (by rfl) (by rfl)⟩,
    ⟨by decide, by decide, reached_one _ st _ _ _ _ rfl (by rfl) (by rfl)⟩⟩

/-- StoreFrame: a canonical memory and tile store, the last byte in front of a store and the first behind it, and an access that
resolves. -/
theorem witness_StoreFrame :
    st.mem.wf = true ∧ team1.acc.wf = true ∧ st.teams.get? 0 = some team1 ∧
    (∀ q, Dest.mem ⟨0, 0, 1⟩ 64 ≠ .door q) ∧ ¬ (64 ≤ 63 ∧ 63 < 64 + 4) ∧ ¬ (64 ≤ 68 ∧ 68 < 64 + 4) ∧ (64 ≤ 67 ∧ 67 < 64 + 4) ∧
    st.ready (st.accessor ex1 0) { n := 4, rd := true, wr := false } (ex1.ea (U (.ldI ⟨h, .b32, 4, v 8, 0⟩)) 0 none 0 0) =
      .ok st (.stash 0 0) :=
  ⟨by decide, by decide, rfl, nofun, by decide, by decide, by decide, by rfl⟩

theorem witness_Atomics :
    (issuable (.atom ⟨h, .add, .n32, .acq, .pkg, false, 4, v 8, v 1⟩) = true ∧
      Reached (st.escapes ex1 (lanesIn (ex1.parts (U (.atom ⟨h, .add, .n32, .acq, .pkg, false, 4, v 8, v 1⟩)))) (ex1.ea (U (.atom ⟨h, .add, .n32, .acq, .pkg, false, 4, v 8, v 1⟩)) 0 none 0))
        ex1 { n := 4, rd := true, wr := true, home := scopeAtHome .pkg } (ex1.ea (U (.atom ⟨h, .add, .n32, .acq, .pkg, false, 4, v 8, v 1⟩)) 0 none 0)
        (lanesIn (ex1.parts (U (.atom ⟨h, .add, .n32, .acq, .pkg, false, 4, v 8, v 1⟩)))) (fun _ => .stash 0 0)
        (st.writes ex1 (fun _ => .stash 0 0) 4 (fun k old => atomNew .add .n32 old
          (atomOperand .add .n32 (((ex1.lane (U (.atom ⟨h, .add, .n32, .acq, .pkg, false, 4, v 8, v 1⟩)) k).src[1]?).getD 0)).1
          (atomOperand .add .n32 (((ex1.lane (U (.atom ⟨h, .add, .n32, .acq, .pkg, false, 4, v 8, v 1⟩)) k).src[1]?).getD 0)).2))) ∧
    (AtomOp.max = .fadd && ex1.wave.repro) = false ∧ (AtomOp.fadd = .fadd && ex1.wave.repro) = false ∧
    (issuable (.red ⟨h, .fadd, .b32, .ar, .die, v 8, v 1⟩) = true ∧
      (releases .ar && st.releaseWaits ex1 (lanesIn (ex1.parts (U (.red ⟨h, .fadd, .b32, .ar, .die, v 8, v 1⟩))))) = false) :=
  ⟨⟨by decide, reached_one _ st _ _ _ _ rfl (by rfl) (by rfl)⟩, by decide, by decide, by decide, by decide⟩

/-- The instruction that a barrier word in the mapped page serves. -/
def arv : Instr := .barmArv ⟨h, .pkg, v 10⟩
/-- A wait there for a generation before the current one, with STAT. -/
def bwait : Instr := .barmWait ⟨h, .pkg, some 4, v 10, v 12⟩
theorem witness_MemoryBarriers :
    (issuable arv = true ∧ ex1.parts (U arv) ≠ 0 ∧ st.releaseWaits ex1 (lanesIn (ex1.parts (U arv))) = false ∧
      ((st.escapeTeam 0).barmAll ex1 (U arv) (lanesIn (ex1.parts (U arv)))).wait = false ∧
      ((st.escapeTeam 0).barmAll ex1 (U arv) (lanesIn (ex1.parts (U arv)))).traps = []) ∧
    (issuable bwait = true ∧ (st.barmAll ex1 (U bwait) (lanesIn (ex1.parts (U bwait)))).wait = false ∧
      (st.barmAll ex1 (U bwait) (lanesIn (ex1.parts (U bwait)))).traps = [] ∧
      (let r := st.barmAll ex1 (U bwait) (lanesIn (ex1.parts (U bwait)))
       let t := r.s.barmRegister 0 r.vals
       ∀ k ∈ lanesIn (ex1.parts (U bwait)), ∃ place, r.vals.get? k = some place ∧
         genPast (BarWord.of (t.mem.getN place 16)).gen (((ex1.lane (U bwait) k).src[1]?).getD 0) = true)) :=
  ⟨⟨by decide, by decide, by decide, by rfl, by rfl⟩, by decide, by rfl, by rfl, fun k hk => by
    have h0 : k = 0 := by
      have : lanesIn (ex1.parts (U bwait)) = [0] := by decide
      simpa [this] using hk
    subst h0
    exact ⟨68719476736, by rfl, by decide +kernel⟩⟩

/-- BarrierWaits: PHCLOSE with the open phase 1 and PHDONE 0, PHWAIT at 0, WAITV on a value that differs, BAR in no generation. -/
theorem witness_BarrierWaits :
    (issuable (.phclose ⟨h, dk 4⟩) = true ∧ ex1.parts (U (.phclose ⟨h, dk 4⟩)) ≠ 0 ∧
      (st.escapeTeam 0).copyPending ex1 (lanesIn (ex1.parts (U (.phclose ⟨h, dk 4⟩)))) = false ∧
      (st.cdie (dieOf 0)).phase - (st.cdie (dieOf 0)).phdone < 16) ∧
    (issuable (.phwait ⟨h, ⟨false, 33⟩, ⟨false, true, 32⟩⟩) = true ∧ ∀ k ∈ lanesIn (ex1.parts (U (.phwait ⟨h, ⟨false, 33⟩, ⟨false, true, 32⟩⟩))),
      st.dieIn (st.devOfCore 0) (ex1.operand (U (.phwait ⟨h, ⟨false, 33⟩, ⟨false, true, 32⟩⟩)) 0 % 16) = true ∧
      ((ex1.lane (U (.phwait ⟨h, ⟨false, 33⟩, ⟨false, true, 32⟩⟩)) k).src[1]?).getD 0 ≤ st.mirror (dieOf 0) (ex1.operand (U (.phwait ⟨h, ⟨false, 33⟩, ⟨false, true, 32⟩⟩)) 0 % 16)) ∧
    (issuable (.waitv ⟨h, .n32, v 8, v 12, ⟨false, 32⟩⟩) = true ∧ ∀ k ∈ lanesIn (ex1.parts (U (.waitv ⟨h, .n32, v 8, v 12, ⟨false, 32⟩⟩))),
      st.ready { st.accessor ex1 k with again := true } { n := 4, rd := true, wr := false } (ex1.ea (U (.waitv ⟨h, .n32, v 8, v 12, ⟨false, 32⟩⟩)) 0 none 0 k) = .ok st (.stash 0 0) ∧
        st.peek (st.accessor ex1 k) (.stash 0 0) 4 ≠ ((ex1.lane (U (.waitv ⟨h, .n32, v 8, v 12, ⟨false, 32⟩⟩)) k).src[1]?).getD 0 % 2 ^ 32) ∧
    ([.barWait ⟨h, 0⟩, .barArv ⟨h, 3⟩].all issuable) = true ∧
    st.releaseWaits ex1 (lanesIn (ex1.parts (U (.barArv ⟨h, 3⟩)))) = false ∧
    ex1.parts (U (.barWait ⟨h, 0⟩)) &&& ex1.team.arrivedIn 0 0 = 0 ∧ ex1.parts (U (.barArv ⟨h, 3⟩)) &&& ex1.team.arrivedIn 3 0 = 0 := by
  refine ⟨⟨by decide, by decide, by rfl, by decide⟩, ⟨by decide, by decide⟩, ⟨by decide, fun k hk => ?_⟩, by decide, by decide, by rfl, by rfl⟩
  have h0 : k = 0 := by
    have : lanesIn (ex1.parts (U (.waitv ⟨h, .n32, v 8, v 12, ⟨false, 32⟩⟩))) = [0] := by decide
    simpa [this] using hk
  subst h0
  exact ⟨by rfl, by decide⟩

/-- An attempt that succeeds with a result of a kind. -/
def gotOk {α : Type} (r : Got α) (P : State → α → Bool) : Bool :=
  match r with
  | .ok s a => P s a
  | _ => false
theorem of_gotOk {α : Type} {r : Got α} {P : State → α → Bool} (h : gotOk r P = true) : ∃ t a, r = .ok t a ∧ P t a = true := by
  cases r with
  | ok s a => exact ⟨s, a, rfl, h⟩
  | _ => cases h
/-- A result of a kind. -/
def excOk {ε α : Type} (r : Except ε α) (P : α → Bool) : Bool :=
  match r with
  | .ok a => P a
  | .error _ => false
theorem of_excOk {ε α : Type} {r : Except ε α} {P : α → Bool} (h : excOk r P = true) : ∃ a, r = .ok a ∧ P a = true := by
  cases r with
  | ok a => exact ⟨a, rfl, h⟩
  | error _ => cases h
/-- A uniform source. -/
def n (i : Fin 64) : USrc := ⟨false, i⟩
/-- An instruction can issue, and has a participant. -/
def acts (i : Instr) : Bool := issuable i && decide (ex1.parts (U i) ≠ 0)

/-- The map template of the pool, in both modes; a key of the team and one of no entry. -/
def smap1 : Instr := .smap ⟨h, true, true, n 41, n 45, n 32⟩
theorem witness_StashMaps :
    (acts smap1 = true ∧ ∃ t p, (st.escapeTeam 0).poolOf ex1 (ex1.operand (U smap1) 0) 2 (some 3) = .ok t p ∧ p.word 1 < 2 ^ 47 ∧
      smapCheck (t.core 0) ex1 (mapOf p ex1 (ex1.operand (U smap1) 1) (ex1.operand (U smap1) 2) true true) = none ∧
      ∃ t', t.resolveMap ex1 (mapOf p ex1 (ex1.operand (U smap1) 1) (ex1.operand (U smap1) 2) true true) = (t', true)) ∧
    ([.sunmap ⟨h, n 41⟩, .sflush ⟨h, n 41⟩, .sfill ⟨h, n 41⟩, .sdiscard ⟨h, n 41⟩, .sunmap ⟨h, n 32⟩, .sflush ⟨h, n 32⟩,
      .sfill ⟨h, n 32⟩, .sdiscard ⟨h, n 32⟩].all acts) = true ∧
    st.keyed ex1 (ex1.operand (U (.sunmap ⟨h, n 41⟩)) 0) = some (0, ent) ∧ st.keyed ex1 (ex1.operand (U (.sunmap ⟨h, n 32⟩)) 0) = none := by
  refine ⟨⟨by decide, ?_⟩, by decide, by rfl, by rfl⟩
  obtain ⟨t, p, h1, h2⟩ := of_gotOk (P := fun t p => p.word 1 < 2 ^ 47 &&
    ((smapCheck (t.core 0) ex1 (mapOf p ex1 (ex1.operand (U smap1) 1) (ex1.operand (U smap1) 2) true true)).isNone &&
    (t.resolveMap ex1 (mapOf p ex1 (ex1.operand (U smap1) 1) (ex1.operand (U smap1) 2) true true)).2))
    (show gotOk ((st.escapeTeam 0).poolOf ex1 (ex1.operand (U smap1) 0) 2 (some 3)) _ = true by decide +kernel)
  simp only [Bool.and_eq_true, decide_eq_true_eq, Option.isNone_iff_eq_none] at h2
  exact ⟨t, p, h1, h2.1, h2.2.1, _, Prod.ext rfl h2.2.2⟩

/-- The descriptor of the data page. -/
def copyq1 : Instr := .copyq ⟨h, n 43⟩
theorem witness_CopyQueue :
    acts copyq1 = true ∧ ex1.operand (U copyq1) 0 % 64 = 0 ∧
    ∃ t ws d k t', (st.escapeTeam 0).loadWords ((st.escapeTeam 0).accessorOf ex1) (ex1.operand (U copyq1) 0) 8 = .ok t ws ∧
      t.descriptor (t.ctxDev 0) ws = some d ∧ t.engineFor (t.ctxDev 0) d = some k ∧
      t.acceptXfer k { d.xfer 0 with
        team := some 0, grid := 0, items := t.itemsOf ex1 (lanesIn (ex1.parts (U copyq1))), ord := ex1.team.seq } = some t' := by
  refine ⟨by decide, by decide, ?_⟩
  obtain ⟨t, ws, h1, h2⟩ := of_gotOk (P := fun t ws => ((t.descriptor (t.ctxDev 0) ws).bind fun d => (t.engineFor (t.ctxDev 0) d).bind fun k =>
      t.acceptXfer k { d.xfer 0 with
        team := some 0, grid := 0, items := t.itemsOf ex1 (lanesIn (ex1.parts (U copyq1))), ord := ex1.team.seq }).isSome)
    (show gotOk ((st.escapeTeam 0).loadWords ((st.escapeTeam 0).accessorOf ex1) (ex1.operand (U copyq1) 0) 8) _ = true by decide +kernel)
  obtain ⟨t', h3⟩ := Option.isSome_iff_exists.1 h2
  obtain ⟨d, h4, h5⟩ := Option.bind_eq_some_iff.1 h3
  obtain ⟨k, h6, h7⟩ := Option.bind_eq_some_iff.1 h5
  exact ⟨t, ws, d, k, t', h1, h4, h6, h7⟩

/-- TagWaits: no tag selected, and the DONE tag 3; a word of a launch record that is not zero at the end of it. -/
theorem witness_TagWaits :
    ([.twait ⟨h, true, n 32⟩, .twait ⟨h, false, n 40⟩, .tclr ⟨h, n 40⟩, .lwait ⟨h, none⟩, .lwait ⟨h, some (n 42)⟩, .cntwait ⟨h, .pkg, dk 4, n 42, n 32, n 33⟩].all acts) = true ∧
    (∀ q < 64, toBit (ex1.operand (U (.twait ⟨h, true, n 32⟩)) 0 / 2 ^ q) = true → ex1.team.tag q ≠ .opened ∧ ex1.team.tag q ≠ .busy) ∧
    (∃ q, q < 64 ∧ toBit (ex1.operand (U (.twait ⟨h, false, n 40⟩)) 0 / 2 ^ q) = true ∧ ex1.team.tag q = .done) ∧ ex1.team.children = 0 ∧
    (∃ t x, st.load { st.accessor ex1 0 with again := true } 8 ((ex1.operand (U (.lwait ⟨h, some (n 42)⟩)) 0 + 0x28) % 2 ^ 64) = .ok t x ∧ x ≠ 0) ∧
    counterRead (ex1.operand (U (.cntwait ⟨h, .pkg, dk 4, n 42, n 32, n 33⟩)) 0) = none ∧
    (∃ t x, (st.escapeTeam 0).load { st.accessor ex1 0 with again := true } 8 (ex1.operand (U (.cntwait ⟨h, .pkg, dk 4, n 42, n 32, n 33⟩)) 0) = .ok t x ∧
      ex1.operand (U (.cntwait ⟨h, .pkg, dk 4, n 42, n 32, n 33⟩)) 1 ≤ x) := by
  refine ⟨by decide, by decide, ⟨3, by decide⟩, rfl, ?_, by rfl, ?_⟩
  · obtain ⟨t, x, h1, h2⟩ := of_gotOk (P := fun _ x => decide (x ≠ 0))
      (show gotOk (st.load { st.accessor ex1 0 with again := true } 8 ((ex1.operand (U (.lwait ⟨h, some (n 42)⟩)) 0 + 0x28) % 2 ^ 64)) _ = true by decide +kernel)
    exact ⟨t, x, h1, by simpa using h2⟩
  · obtain ⟨t, x, h1, h2⟩ := of_gotOk (P := fun _ x => decide (ex1.operand (U (.cntwait ⟨h, .pkg, dk 4, n 42, n 32, n 33⟩)) 1 ≤ x))
      (show gotOk ((st.escapeTeam 0).load { st.accessor ex1 0 with again := true } 8 (ex1.operand (U (.cntwait ⟨h, .pkg, dk 4, n 42, n 32, n 33⟩)) 0)) _ = true by decide +kernel)
    exact ⟨t, x, h1, by simpa using h2⟩

/-- The layout template of the pool, at an aligned base; a configured group of two tiles. -/
def gset1 : Instr := .gset ⟨h, 15, n 44, n 45⟩
/-- An MMA that fits. -/
def mma1 : Mma := ⟨h, .m64n64, false, 0, 0, 15, some 5⟩
theorem witness_MatrixIssue :
    (acts gset1 = true ∧ ∃ t p l, st.poolOf ex1 (ex1.operand (U gset1) 0) 4 (some 5) = .ok t p ∧ layoutOf p (ex1.operand (U gset1) 1) = .ok l) ∧
    ([.acfg ⟨h, true, n 44⟩, .acfg ⟨h, false, n 32⟩, .mma mma1, .accLd ⟨h, true, 4, 0, n 32⟩, .accSt ⟨h, false, 1, ⟨false, 4⟩, n 32⟩,
      .accZero ⟨h, .m128n64, false, 0⟩, .accMov ⟨h, true, .f32, .rne, 0, n 32, n 43⟩, .accMov ⟨h, false, .f32, .rne, 1, n 32, n 43⟩].all acts) = true ∧
    (ex1.operand (U (.acfg ⟨h, true, n 44⟩)) 0 % 64 = 2 ∧ 2 ≤ 32 ∧ 2 ≤ ex1.team.accTiles.length) ∧ ex1.team.mmas = [] ∧ ex1.team.moves = [] ∧
    ex1.team.tilesUsed = false ∧ ex1.team.mmaHeld = false ∧
    (let m := mmaOf mma1 st ex1 (ex1.parts (U (.mma mma1)));
      mmaCheck ex1.team m m.la m.lb = none ∧ ex1.team.tagBusy m.tag = false ∧ st.queuedMmas 0 < 16 ∧
        ex1.team.storesWaiting ex1.team.seq = false ∧ ex1.team.windowWrites m.items ex1.team.seq = false) ∧
    ex1.team.unconfigured (tilePair true 0) = false ∧ ex1.team.unconfigured (tilePair false 1) = false ∧
    ex1.team.unconfigured ((List.range (tileCount .m128n64 false)).map fun k => 0 + k) = false ∧
    (∀ b, accMovCheck st ex1.team b .f32 (ex1.operand (U (.accMov ⟨h, b, .f32, .rne, 0, n 32, n 43⟩)) 0)
      (ex1.operand (U (.accMov ⟨h, b, .f32, .rne, 0, n 32, n 43⟩)) 1 % 2 ^ 16) = none) := by
  refine ⟨⟨by decide, ?_⟩, by decide, by decide, rfl, rfl, rfl, rfl, ⟨by decide +kernel, rfl, by decide +kernel, by decide +kernel, by decide +kernel⟩, by decide, by decide, by decide,
    fun b => by cases b <;> decide +kernel⟩
  obtain ⟨t, p, h1, h2⟩ := of_gotOk (P := fun _ p => excOk (layoutOf p (ex1.operand (U gset1) 1)) fun _ => true)
    (show gotOk (st.poolOf ex1 (ex1.operand (U gset1) 0) 4 (some 5)) _ = true by decide +kernel)
  obtain ⟨l, h3, -⟩ := of_excOk h2
  exact ⟨t, p, l, h1, h3⟩

/-- ReadsOnce and RegisterWrites: every register that CSRW or CSRR names issues. -/
theorem witness_ReadsOnce :
    ([.mprog ⟨h, dk 4⟩, .gcnt ⟨h, dk 4, 15⟩, .squery ⟨h, dk 4, n 41⟩, .squery ⟨h, dk 4, n 32⟩, .tffr ⟨h, dk 4, n 40⟩, .tffr ⟨h, dk 4, n 32⟩, .csrr ⟨h, dk 4, 1⟩,
      .csrr ⟨h, dk 4, 2⟩, .csrr ⟨h, dk 4, 0x30⟩].all acts) = true ∧ ex1.wave.unfinished ex1 = false := by
  decide

theorem witness_RegisterWrites :
    ([.csrw ⟨h, n 41, 0⟩, .csrw ⟨h, n 41, 1⟩, .csrw ⟨h, n 41, 2⟩, .csrw ⟨h, n 41, 3⟩, .csrw ⟨h, n 41, 0x11⟩, .csrw ⟨h, n 41, 0x30⟩].all acts) = true ∧
    (0x30#12).toNat ∉ [0, 1, 2, 3, 0x11] := by
  decide

/-- TrapRegisters: the least and the greatest of the three registers, outside a handler. -/
theorem witness_TrapRegisters :
    ([.csrr ⟨h, dk 4, 0x41⟩, .csrr ⟨h, dk 4, 0x43⟩].all acts) = true ∧ (0x41#12).toNat = 0x041 ∧ (0x43#12).toNat = 0x043 ∧
    ex1.sub.handler = none := by
  decide

/-- A parameter block and a launch record of zeros, which is refused, and the launch record of the data page. -/
def svc1 : Instr := .svc ⟨h, 0x2E, n 45⟩
def launch0 : Instr := .launch ⟨h, dk 4, n 45⟩
def launch1 : Instr := .launch ⟨h, dk 4, n 42⟩
theorem witness_LaunchAndService :
    (([svc1, launch0, launch1].all acts) = true) ∧
    (ex1.operand (U svc1) 0 % 256 = 0 ∧ (st.escapeTeam 0).inDevice ((st.escapeTeam 0).accessorOf ex1) { n := 8, rd := false, wr := true } (ex1.operand (U svc1) 0) = .ok () ∧
      deviceCallable (0x2E#8).toNat = true ∧ (st.escapeTeam 0).unitsBusy 0 (ex1.operand (U svc1) 0) 256 true = false ∧ ∃ t ws, (st.escapeTeam 0).unitWords 0 (ex1.operand (U svc1) 0) 32 = .ok (t, ws)) ∧
    st.grids.get? 0 = some grid1 ∧ grid1.depth < 10 ∧
    (ex1.operand (U launch0) 0 % 256 = 0 ∧ (st.escapeTeam 0).inDevice ((st.escapeTeam 0).accessorOf ex1) { n := 8, rd := true, wr := false } (ex1.operand (U launch0) 0) = .ok () ∧
      ((st.escapeTeam 0).releaseWaits ex1 (lanesIn (ex1.parts (U launch0))) || (st.escapeTeam 0).unitsBusy 0 (ex1.operand (U launch0) 0) 256 false ||
        (st.escapeTeam 0).unitsBusy 0 (ex1.operand (U launch0) 0) 256 true) = false ∧
      ∃ t ws code, (st.escapeTeam 0).unitWords 0 (ex1.operand (U launch0) 0) 32 = .ok (t, ws) ∧ (t.checkLaunch 0 (ex1.operand (U launch0) 0) ws true).2 = .error code) ∧
    (ex1.operand (U launch1) 0 % 256 = 0 ∧ (st.escapeTeam 0).inDevice ((st.escapeTeam 0).accessorOf ex1) { n := 8, rd := true, wr := false } (ex1.operand (U launch1) 0) = .ok () ∧
      ((st.escapeTeam 0).releaseWaits ex1 (lanesIn (ex1.parts (U launch1))) || (st.escapeTeam 0).unitsBusy 0 (ex1.operand (U launch1) 0) 256 false ||
        (st.escapeTeam 0).unitsBusy 0 (ex1.operand (U launch1) 0) 256 true) = false ∧
      ∃ t ws g, (st.escapeTeam 0).unitWords 0 (ex1.operand (U launch1) 0) 32 = .ok (t, ws) ∧ (t.checkLaunch 0 (ex1.operand (U launch1) 0) ws true).2 = .ok g ∧
        (let t' := (t.checkLaunch 0 (ex1.operand (U launch1) 0) ws true).1
         t'.inDevice (t'.accessorOf ex1) { n := 8, rd := false, wr := true } (ex1.operand (U launch1) 0) = .ok ())) := by
  refine ⟨by decide, ⟨by decide, by rfl, by decide, by decide +kernel, ?_⟩, rfl, by decide, ⟨by decide, by rfl, by decide +kernel, ?_⟩, ⟨by decide, by rfl, by decide +kernel, ?_⟩⟩
  · obtain ⟨⟨t, ws⟩, h1, -⟩ := of_excOk (P := fun _ => true)
      (show excOk ((st.escapeTeam 0).unitWords 0 (ex1.operand (U svc1) 0) 32) _ = true by decide +kernel)
    exact ⟨t, ws, h1⟩
  · obtain ⟨⟨t, ws⟩, h1, h2⟩ := of_excOk (P := fun r => !excOk (r.1.checkLaunch 0 (ex1.operand (U launch0) 0) r.2 true).2 fun _ => true)
      (show excOk ((st.escapeTeam 0).unitWords 0 (ex1.operand (U launch0) 0) 32) _ = true by decide +kernel)
    cases h3 : (t.checkLaunch 0 (ex1.operand (U launch0) 0) ws true).2 with
    | error c => exact ⟨t, ws, c, h1, h3⟩
    | ok g => simp [h3, excOk] at h2
  · obtain ⟨⟨t, ws⟩, h1, h2⟩ := of_excOk (P := fun r => let q := r.1.checkLaunch 0 (ex1.operand (U launch1) 0) r.2 true
        excOk q.2 (fun _ => true) && excOk (q.1.inDevice (q.1.accessorOf ex1) { n := 8, rd := false, wr := true } (ex1.operand (U launch1) 0)) fun _ => true)
      (show excOk ((st.escapeTeam 0).unitWords 0 (ex1.operand (U launch1) 0) 32) _ = true by decide +kernel)
    simp only [Bool.and_eq_true] at h2
    obtain ⟨g, h3, -⟩ := of_excOk h2.1
    obtain ⟨_, h4, -⟩ := of_excOk h2.2
    exact ⟨t, ws, g, h1, h3, h4⟩

/-- The state after an instruction, with the sub-wave chosen again. -/
def after (i : Instr) (s : State) : State :=
  match exec i s with
  | .next t => { t with cur := some (.sub 0 0 0) }
  | _ => s
/-- The sub-wave in it. -/
def exOf (s : State) : Ex := (s.ex? 0 0 0).getD ex1
/-- Its hold. -/
def holdOf (s : State) : Hold := (exOf s).sub.hold.getD { kind := .sync, lanes := 0 }
/-- The sub-wave is held at its instruction and its turn has come. -/
def resumable (s : State) : Bool :=
  s.cur == some (.sub 0 0 0) && (s.ex? 0 0 0).isSome && (exOf s).mayIssue && (exOf s).sub.hold.isSome && decide ((exOf s).t = 0) &&
    decide ((exOf s).w = 0) && decide ((exOf s).k = 0)
theorem resumable_spec {s : State} (h : resumable s = true) : Resumes s (exOf s) (holdOf s) := by
  simp only [resumable, Bool.and_eq_true, beq_iff_eq, decide_eq_true_eq] at h
  obtain ⟨⟨⟨⟨⟨⟨h1, h2⟩, h3⟩, h4⟩, h5⟩, h6⟩, h7⟩ := h
  obtain ⟨e, he⟩ := Option.isSome_iff_exists.1 h2
  obtain ⟨q, hq⟩ := Option.isSome_iff_exists.1 h4
  refine ⟨by rw [h5, h6, h7]; exact h1, ?_, h3, by rw [holdOf, hq]; rfl⟩
  rw [h5, h6, h7, exOf, he]; rfl

/-- 16 bytes to the team window; one row of the shape record to it and from it; an arrival for each. -/
def cpy1 : Cpy := ⟨h, 1, .pkg, 5, ⟨false, true, 45⟩, v 8, n 46⟩
def cpyt1 : Cpyt := ⟨h, 1, .pkg, true, 63, ⟨false, 16⟩, v 18, n 38⟩
def cpyg1 : CpyGS := ⟨h, .pkg, 5, n 45, n 37, n 32⟩
/-- The held arrival of an instruction that names `u` is validated without a refusal. -/
def passes (i : Instr) (f : CopyForm) (u : State → Ex → Use) : Bool :=
  let s := after i st
  let e := exOf s
  let v := f.validate (s.escapeTeam 0) e (u s e) (lanesIn (holdOf s).lanes) (e.src (u s e) (lowLane (holdOf s).lanes) 2 % 2 ^ 64)
    (e.src (u s e) (lowLane (holdOf s).lanes) 2 / 2 ^ 64)
  resumable s && (holdOf s).kind == .copyCheck && !(lanesIn (holdOf s).lanes).isEmpty && (lanesIn (holdOf s).lanes).all (fun l => !e.stale (u s e) l) &&
    !e.sub.retried && !v.wait && v.traps.isEmpty && decide (v.ok ≠ 0)
/-- CopyArrivals: tags 5 and 63 are IDLE, tag 3 DONE; each instruction issues and is held, and its arrival passes. -/
theorem witness_CopyArrivals :
    ([.cpy cpy1, .cpyt cpyt1, .cpyg cpyg1, .cpys cpyg1].all acts) = true ∧ ex1.sub.retried = false ∧
    (ex1.team.tag 5 = .idle ∧ ex1.team.tag 63 = .idle ∧ ex1.team.tag 3 = .done) ∧
    (∀ t, st.cpytShape (U (.cpyt cpyt1)) ex1 ≠ .wait t) ∧ Runs st (cpytNames st (U (.cpyt cpyt1)) ex1) ex1 ∧ ex1.fresh (cpytNames st (U (.cpyt cpyt1)) ex1) ∧ ex1.parts (cpytNames st (U (.cpyt cpyt1)) ex1) ≠ 0 ∧
    passes (.cpy cpy1) (cpyForm cpy1) (fun _ _ => U (.cpy cpy1)) = true ∧
    passes (.cpyt cpyt1) (cpytForm cpyt1) (fun s e => cpytNames s (U (.cpyt cpyt1)) e) = true ∧
    passes (.cpyg cpyg1) (cpygForm cpyg1) (fun _ _ => U (.cpyg cpyg1)) = true ∧
    passes (.cpys cpyg1) (cpysForm cpyg1) (fun _ _ => U (.cpys cpyg1)) = true ∧
    ((exOf (after (.cpyg cpyg1) st)).team.tag 5 = .idle ∧ (exOf (after (.cpys cpyg1) st)).team.tag 5 = .idle) := by
  refine ⟨by decide, rfl, by decide, ?_, ⟨rfl, rfl, rfl, rfl, by decide, by decide, rfl, by rfl, by rfl⟩, by unfold Ex.fresh; decide +kernel, by decide +kernel, ?_⟩
  · obtain ⟨t, a, h1, -⟩ := of_gotOk (P := fun _ _ => true) (show gotOk (st.cpytShape (U (.cpyt cpyt1)) ex1) _ = true by decide +kernel)
    intro q hq
    rw [h1] at hq; cases hq
  · decide +kernel

/-- A state with another wave and another sub-wave in it. -/
def wave2 (sub : SubWave) (more : Tbl SubWave) (joins : Tbl JoinRec) : Wave := { wave1 with subs := (0, sub) :: more, joins := joins }
def ex2 (sub : SubWave) (more : Tbl SubWave) (joins : Tbl JoinRec) : Ex :=
  ⟨0, 0, 0, { team1 with waves := [(0, wave2 sub more joins)] }, wave2 sub more joins, sub⟩
def st2 (sub : SubWave) (more : Tbl SubWave) (joins : Tbl JoinRec) : State :=
  { st with teams := [(0, { team1 with waves := [(0, wave2 sub more joins)] })] }
/-- The state with another image of the grid. -/
def stTrap (base : Nat) (sub : SubWave) (more : Tbl SubWave) : State :=
  { st2 sub more [] with grids := [(0, { grid1 with trapBase := base })] }
/-- An instruction without a flag issues in it from a sub-wave that may issue. -/
theorem witness_issues2 (i : Instr) (sub : SubWave) (joins : Tbl JoinRec) (hi : i.use.isSome = true) (hf : (U i).hdr.flag = none)
    (h1 : (ex2 sub [] joins).mayIssue = true) (h2 : sub.hold = none) (h3 : sub.mask = 1)
    (h4 : undersizedBy [] (U i) sub.depth sub.mask 0 sub.waitMask = []) : Issues (st2 sub [] joins) i (U i) (ex2 sub [] joins) :=
  { cur := rfl, here := rfl, may := h1, free := h2, lanes := by simp [ex2, h3]
    live := by simp [ex2, wave2, wave1, h3], preds := rfl
    room := by unfold flagFull; rw [hf]
    due := h4
    use := by
      obtain ⟨u, hu⟩ := Option.isSome_iff_exists.1 hi
      rw [U, hu]; rfl }
/-- The sub-wave at depth 1. -/
def deep : SubWave := { sub1 with depth := 1 }

/-- Transfers: to the first and the last clause boundary of the section, at depths 0 and 1. -/
theorem witness_Transfers :
    ([.bra ⟨h, 0xFFFFFF⟩, .bra ⟨h, 5⟩, .brx ⟨h, v 14⟩, .call ⟨h, 1⟩, .callx ⟨h, v 14⟩].all issuable) = true ∧ ex1.wave.joins = [] ∧ ex1.sub.depth ≠ 63 ∧
    (∀ t ∈ [0x100000, 0x100010, 0x100030], st.lands (some grid1) t = true) ∧ st.lands (some grid1) 0x100040 = false ∧
    (relTarget 0xFFFFFF ex1.sub.wordPc = 0x100000 ∧ relTarget 1 ex1.sub.wordPc = 0x100010 ∧ relTarget 5 ex1.sub.wordPc = 0x100030 ∧
      laneTarget ex1 (U (.brx ⟨h, v 14⟩)) 0 = 0x100010) ∧
    (Issues (st2 deep [] []) (.ret ⟨h, ⟨false, 14⟩⟩) (U (.ret ⟨h, ⟨false, 14⟩⟩)) (ex2 deep [] []) ∧
      (ex2 deep [] []).sub.depth ≠ 0 ∧ laneTarget (ex2 deep [] []) (U (.ret ⟨h, ⟨false, 14⟩⟩)) 0 = 0x100010) := by
  refine ⟨by decide, rfl, by decide, by decide +kernel, by decide +kernel, by decide, ?_⟩
  exact ⟨witness_issues2 _ deep [] rfl rfl (by decide) rfl rfl (by decide), by decide, by decide⟩

/-- A trap of the software kind at the sub-wave's clause. -/
def park1 : Park := { trap := { cause := cSoftware, sub := 7, addr := 7 }, pc := 0x100008, depth := 0 }
/-- The sub-wave in a handler at depth 1. -/
def handling : SubWave := { deep with handler := some ⟨park1, some cl, 0x100000, 0⟩ }
/-- The sub-wave with a join record. -/
def joined : SubWave := { sub1 with joins := [0] }
theorem witness_ExitSyncTraps :
    ([.exit ⟨h⟩, .trap ⟨h, 0xFFFFFF⟩, .brk ⟨h, 0⟩].all issuable) = true ∧
    (Issues (st2 joined [] [(0, { mask := 1, depth := 0 })]) (.sync ⟨0, none⟩) (U (.sync ⟨0, none⟩)) (ex2 joined [] [(0, { mask := 1, depth := 0 })]) ∧
      joined.joins.head? = some 0 ∧ (wave2 joined [] [(0, { mask := 1, depth := 0 })]).joins.get? 0 = some { mask := 1, depth := 0 } ∧
      0 = joined.depth) ∧
    (∀ m, Issues (st2 handling [] []) (.trapret ⟨h, m⟩) (U (.trapret ⟨h, m⟩)) (ex2 handling [] []) ∧
      handling.handler = some ⟨park1, some cl, 0x100000, 0⟩ ∧ (ex2 handling [] []).parts (U (.trapret ⟨h, m⟩)) ≠ 0) := by
  refine ⟨by decide, ⟨witness_issues2 _ joined _ rfl rfl (by decide) rfl rfl (by decide), rfl, rfl, rfl⟩, fun m => ?_⟩
  exact ⟨witness_issues2 _ handling _ (by cases m <;> rfl) (by cases m <;> rfl) (by decide) rfl rfl (by cases m <;> decide), rfl,
    by cases m <;> decide⟩

/-- TrapParks: two lanes of which one traps, and one of which it traps. -/
theorem witness_TrapParks :
    ({ wave1 with subs := [(0, { sub1 with mask := 3 })] }.subs.get? 0 = some { sub1 with mask := 3 } ∧ (3 : Lanes) &&& ~~~(1 : Lanes) ≠ 0) ∧
    (wave1.subs.get? 0 = some sub1 ∧ sub1.mask &&& ~~~(1 : Lanes) = 0) := by
  decide

/-- The sub-wave with its trap pending. -/
def parked : SubWave := { sub1 with park := some park1 }
/-- At the greatest depth from which a handler is entered. -/
def parked62 : SubWave := { sub1 with depth := 62, park := some { park1 with depth := 62 } }
theorem witness_HandlerEntry :
    (∀ sub ∈ [parked, parked62], ∃ e p g, (stTrap 0x100010 sub []).ex? 0 0 0 = some e ∧ e.sub.park = some p ∧ p.stage = .pending ∧
      (stTrap 0x100010 sub []).grids.get? e.team.grid = some g ∧ routeH p.trap.cause = true ∧ p.forceRec = false ∧ g.trapBase ≠ 0 ∧ p.depth < 63 ∧
      e.wave.inHandler = false) ∧
    (∃ e p g, (stTrap 0x100010 parked [(1, { handling with mask := 2 })]).ex? 0 0 0 = some e ∧ e.sub.park = some p ∧ p.stage = .pending ∧
      (stTrap 0x100010 parked [(1, { handling with mask := 2 })]).grids.get? e.team.grid = some g ∧ routeH p.trap.cause = true ∧ p.forceRec = false ∧
      g.trapBase ≠ 0 ∧ p.depth < 63 ∧ e.wave.inHandler = true) := by
  refine ⟨fun sub hs => ?_, ⟨ex2 parked [(1, { handling with mask := 2 })] [], park1, { grid1 with trapBase := 0x100010 }, rfl, rfl, rfl, rfl, by decide, rfl, by decide, by decide, by decide⟩⟩
  simp only [List.mem_cons, List.not_mem_nil, or_false] at hs
  rcases hs with rfl | rfl
  · exact ⟨ex2 parked [] [], park1, { grid1 with trapBase := 0x100010 }, rfl, rfl, rfl, rfl, by decide, rfl, by decide, by decide, by decide⟩
  · exact ⟨ex2 parked62 [] [], { park1 with depth := 62 }, { grid1 with trapBase := 0x100010 }, rfl, rfl, rfl, rfl, by decide, rfl, by decide, by decide, by decide⟩

/-- A fault record. -/
def rec1 : FaultRec := { dev := 0, kind := 1, cause := cSoftware, sub := 7, ctx := 0, grid := 1, gridKey := 0, team := 0, what := .sub 0 0 0 }
/-- The state with a full record store. -/
def stFull : State := (stTrap 0 parked []).modDev 0 fun v => { v with records := List.replicate 4096 (0, rec1) }
/-- HostRecord: without a handler, at depth 63 with one, and with a full store. -/
theorem witness_HostRecord :
    (∃ e p g, (stTrap 0 parked []).ex? 0 0 0 = some e ∧ e.sub.park = some p ∧ p.stage = .pending ∧ (stTrap 0 parked []).grids.get? e.team.grid = some g ∧
      (stTrap 0 parked []).ctxs.get? e.team.ctx = some ctx1 ∧ ctx1.dev < (stTrap 0 parked []).devs.length ∧ parkToHandler g.trapBase p = false ∧
      (stTrap 0 parked []).recRoom ctx1.dev = true) ∧
    parkToHandler 0x100010 { park1 with depth := 63 } = false ∧
    (∃ e p g, stFull.ex? 0 0 0 = some e ∧ e.sub.park = some p ∧ p.stage = .pending ∧ stFull.grids.get? e.team.grid = some g ∧
      stFull.ctxs.get? e.team.ctx = some ctx1 ∧ parkToHandler g.trapBase p = false ∧ stFull.recRoom ctx1.dev = false) := by
  refine ⟨⟨ex2 parked [] [], park1, { grid1 with trapBase := 0 }, rfl, rfl, rfl, rfl, rfl, by decide, by decide, by decide⟩, by decide,
    ex2 parked [] [], park1, { grid1 with trapBase := 0 }, rfl, rfl, rfl, rfl, rfl, by decide, ?_⟩
  exact decide_eq_false (by decide +kernel)

/-- BlockQuantize: code 0, and the least and the greatest code of a block. -/
theorem witness_BlockQuantize :
    (∀ c ∈ ([33, 41, 36] : List (Fin 64)),
      let x : Qblk := ⟨h, .rz, .inf, 0, ⟨false, 16⟩, n 32, n c⟩
      let u := qblkNames x (U (.qblk x)) ex1
      Runs st u ex1 ∧ ex1.fresh u ∧ ex1.parts u ≠ 0 ∧ low 8 (ex1.lane u 0).b = (if c = 33 then 0 else if c = 41 then 1 else 6) ∧
      ¬ (x.rm = .sr ∧ c = 4) ∧ ((qblkBlock x ex1 (ex1.parts u) (ex1.lane u)).fl &&& ctlEnables ex1.wave.ctl = 0 ∨ c = 33) ∧
      ((qblkBlock x ex1 (ex1.parts u) (ex1.lane u)).ovTrap = false ∨ c = 33)) := by
  intro c hc
  simp only [List.mem_cons, List.not_mem_nil, or_false] at hc
  rcases hc with rfl | rfl | rfl <;>
    exact ⟨⟨rfl, rfl, rfl, rfl, by decide, by decide, rfl, by rfl, by rfl⟩, by unfold Ex.fresh; decide, by decide, by decide, by decide, by decide +kernel, by decide +kernel⟩

/-! ## Service calls -/

/-- A call of port 0 and the physical function on context 0. -/
def hc (args : List W64) : Call :=
  { dev := 0, caller := .host 0 0, block := 0, counter := 0, scope := 0, irq := false, vector := 0, ctx := 0, args := args
    flight := 0, bad := false, irqPort := 0 }
/-- The state with this call first in the unit's queue, the baton held at port 0, and a debugger with handle 7. -/
def sv (s : State) (code : Nat) (c : Call) : State :=
  s.modDev 0 fun v => { v with calls := [(code, c)], baton := .held 0, debugger := some 7 }
/-- What `Serves` asks, computed. -/
def serves (code argc : Nat) (c : Call) (s : State) : Bool :=
  s.startable (code, c) && !(s.dev c.dev).waiting.contains (code, c) && !s.pkg.recovery && !c.bad &&
    ((c.args.drop argc).all fun x => x == 0) && s.mayCall code c && (!namesCtx code || s.reaches c c.ctx)
theorem serves_spec {code argc : Nat} {c : Call} {s : State} (h : serves code argc c s = true) : Serves code argc c s := by
  simp only [serves, Bool.and_eq_true, Bool.or_eq_true, Bool.not_eq_true', List.all_eq_true, beq_iff_eq] at h
  obtain ⟨⟨⟨⟨⟨⟨h1, h2⟩, h3⟩, h4⟩, h5⟩, h6⟩, h7⟩ := h
  exact ⟨h1, h2, h3, h4, h5, h6, fun hn => by simpa [hn] using h7⟩

/-- Every place of device memory is there. -/
theorem none_lost {s : State} (h : s.fdies = State.reset.fdies) (a : Nat) : s.lostPlace a = false := by
  unfold State.lostPlace State.fdie
  rw [h]
  have : ∀ q : Nat, ((State.reset.fdies[q]?).getD ({} : FDie)).inService = true := by
    intro q
    match q with
    | 0 | 1 | 2 | 3 => rfl
    | n + 4 => rfl
  rw [this]; simp
/-- A host's buffer takes no fault where no die is lost and nothing is poisoned. -/
theorem buffer_ok {s : State} (h : s.fdies = State.reset.fdies) (hp : s.poison = []) (p v a n : Nat) (wr : Bool) :
    s.callerFault (.host p v) wr a n = none := by
  unfold State.callerFault
  rw [List.findSome?_eq_none_iff]
  intro i _
  dsimp only
  split
  · simp [none_lost h, hp]
  · rfl

/-- The state with a run of host bytes from an address, whose 300 lines the device holds. -/
def hostSt (s : State) (b : Nat) (bs : List Byte) : State :=
  { s with mem := Memory.listFrom (hostPlace 0 (64 * b)) bs
           ports := [{ lines := (List.range 300).map fun i => (b + i, ⟨0, 0, 0⟩) }, {}] }
/-- The 300 lines from line `b` on lie outside every range of device memory. -/
def apart (b : Nat) : Prop := 64 * b < 2 ^ 64 ∧ ∀ (s : State) (i : Nat), i < 19200 → s.pkg.mode = 0 → s.hdm 0 (64 * b + i) = none
theorem apart_at (b : Nat) (h : 64 * b < 2 ^ 64) (hd : ∀ i < 19200, ¬ (Config.hdmBase 0 0 ≤ 64 * b + i ∧ 64 * b + i < Config.hdmBase 0 0 + 2 ^ 40 / (4 / fndsPer 0))) :
    apart b := by
  refine ⟨h, fun s i hi hm => ?_⟩
  unfold State.hdm State.devBytes State.devCount
  rw [hm, List.findSome?_eq_none_iff]
  intro x hx
  have : x = 0 := by simpa [fndsPer] using hx
  subst this
  exact if_neg (hd i hi)
theorem apart_some : ∃ b, apart b := by
  have hD : 2 ^ 40 / (4 / fndsPer 0) ≤ 2 ^ 41 := by decide
  generalize hd : 2 ^ 40 / (4 / fndsPer 0) = d at hD
  by_cases hc : Config.hdmBase 0 0 < 2 ^ 63
  · refine ⟨(Config.hdmBase 0 0 + d) / 64 + 1, apart_at _ ?_ ?_⟩
    · have : ∀ x d : Nat, x < 2 ^ 63 → d ≤ 2 ^ 41 → 64 * ((x + d) / 64 + 1) < 2 ^ 64 := by intros; omega
      exact this _ _ hc hD
    · intro i _
      rw [hd]
      have : ∀ x d i : Nat, ¬ (x ≤ 64 * ((x + d) / 64 + 1) + i ∧ 64 * ((x + d) / 64 + 1) + i < x + d) := by intros; omega
      exact this _ _ _
  · refine ⟨0, apart_at _ (by decide) ?_⟩
    intro i hi
    have : ∀ x i y : Nat, ¬ x < 2 ^ 63 → i < 19200 → ¬ (x ≤ 64 * 0 + i ∧ 64 * 0 + i < y) := by intros; omega
    exact this _ _ _ hc hi
theorem listFrom_get (bs : List Byte) (p i : Nat) : (Memory.listFrom p bs).get (p + i) = (bs[i]?).getD 0 := by
  induction bs generalizing p i with
  | nil => rfl
  | cons b r ih =>
    unfold Memory.listFrom
    cases i with
    | zero =>
      split
      · rename_i hb
        rw [Memory.get_below _ (p + 1) _ (Memory.listFrom_from (p + 1) r) (by omega)]
        simp [hb]
      · simp [Memory.get]
    | succ i =>
      have h1 := ih (p + 1) i
      rw [show p + 1 + i = p + (i + 1) by omega] at h1
      split
      · simpa using h1
      · rw [Memory.get, if_neg (by omega)]; simpa using h1
theorem hostGet_held {s : State} {b : Nat} (hb : apart b) (bs : List Byte) (hm : s.pkg.mode = 0) (i : Nat) (hi : i < 19200) :
    (hostSt s b bs).hostGet 0 (64 * b + i) = .ok (hostSt s b bs, (bs[i]?).getD 0) := by
  unfold State.hostGet
  rw [hb.2 (hostSt s b bs) i hi hm]
  have h2 : ((((hostSt s b bs).ports[0]?).getD ({} : HostPort)).lines.any fun q => q.1 == (64 * b + i) / 64) = true := by
    simp only [hostSt, List.getElem?_cons_zero, Option.getD_some, List.any_map, List.any_eq_true, List.mem_range]
    refine ⟨i / 64, by omega, ?_⟩
    simp only [Function.comp, beq_iff_eq]
    omega
  rw [if_pos h2]
  have : hostPlace 0 (64 * b + i) = hostPlace 0 (64 * b) + i := (Nat.add_assoc _ _ _).symm
  rw [this]
  exact congrArg (fun x => Except.ok (hostSt s b bs, x)) (listFrom_get bs _ i)
/-- A read within the run gives its bytes and changes nothing. -/
theorem read_within {s : State} {b : Nat} (hb : apart b) (bs : List Byte) (hm : s.pkg.mode = 0) (n : Nat) : ∀ i, i + n ≤ 19200 →
    State.callerRead (.host 0 0) (64 * b + i) n (hostSt s b bs) = .ok (hostSt s b bs, (List.range n).map fun j => (bs[i + j]?).getD 0) := by
  induction n with
  | zero => intros; rfl
  | succ n ih =>
    intro i hi
    unfold State.callerRead State.callerGet
    dsimp only
    rw [hostGet_held hb bs hm i (by omega)]
    dsimp only
    rw [show 64 * b + i + 1 = 64 * b + (i + 1) from Nat.add_assoc _ _ _, ih (i + 1) (by omega)]
    simp only [List.range_succ_eq_map, List.map_cons, List.map_map, Nat.add_zero]
    congr 3
    apply List.map_congr_left
    intro j _
    simp only [Function.comp]
    rw [show i + 1 + j = i + (j + 1) by omega]
/-- A read of the run gives its bytes and changes nothing. -/
theorem read_held {s : State} {b : Nat} (hb : apart b) (bs : List Byte) (hm : s.pkg.mode = 0) (n : Nat) (hn : n ≤ 19200) :
    State.callerRead (.host 0 0) (64 * b) n (hostSt s b bs) = .ok (hostSt s b bs, (List.range n).map fun i => (bs[i]?).getD 0) := by
  have h0 := read_within hb bs hm n 0 (by omega)
  simp only [Nat.zero_add, Nat.add_zero] at h0
  exact h0
/-- The state with the baton held at port 0 and a debugger with handle 7; a call that it does not list has just been accepted. -/
def sv0 (s : State) : State := s.modDev 0 fun v => { v with baton := .held 0, debugger := some 7 }
theorem held_arg {b : Nat} (hb : apart b) : (BitVec.ofNat 64 (64 * b)).toNat = 64 * b := by
  rw [BitVec.toNat_ofNat]
  exact Nat.mod_eq_of_lt hb.1
theorem zeros_le (n : Nat) : leNat (List.replicate n 0) = 0 := by
  induction n with
  | zero => rfl
  | succ n ih => rw [List.replicate_succ, leNat, ih]; rfl
theorem words_zero (m : Nat) : words32 ((List.range (4 * m)).map fun i => (([] : List Byte)[i]?).getD 0) = List.replicate m 0 := by
  have h : ((List.range (4 * m)).map fun i => (([] : List Byte)[i]?).getD 0) = List.replicate (4 * m) (0 : Byte) := by simp [List.map_const']
  rw [h, words32]
  simp only [List.length_replicate, List.drop_replicate, List.take_replicate, zeros_le]
  rw [List.map_const']
  simp
/-- An address that is free is found. -/
theorem fresh_some {s : State} {x : Ctx} {len align : Nat} (v : Nat)
    (hv : v ∈ align :: (x.ranges.map (fun r => r.1 + r.2) ++ x.pages.map fun p => p.va + p.size).map fun e => ceilDiv e align * align)
    (hf : (rangeOk v len 65536 && decide (v % align = 0 ∧ 0 < v) && !x.mapped v len && !(x.ranges.any fun r => rangesMeet r.1 r.2 v len)) = true) :
    ∃ v, s.freshVa x len align = some v := by
  rw [← Option.isSome_iff_exists, State.freshVa, List.find?_isSome]
  exact ⟨v, List.mem_cons_of_mem _ hv, hf⟩
/-- One page of 64 KiB is found where frame 2 is free. -/
theorem alloc_some (s : State) (perm va : Nat) (h : (s.bump.lowestFrames 0 1 (s.bump.devBytes / 65536 / 1) 0).isSome = true) :
    ∃ t, State.allocPages 0 0 65536 perm (0x10000 / 65536) va s.bump = some t := by
  change ∃ t, State.allocPages 0 0 65536 perm 1 va s.bump = some t
  unfold State.allocPages
  have hs : ∃ f, s.bump.takeFrames 0 (65536 / 65536) = some f := by
    unfold State.takeFrames
    dsimp only
    split
    · exact ⟨_, rfl⟩
    · exact Option.isSome_iff_exists.1 h
  obtain ⟨f, hf⟩ := hs
  rw [hf]
  exact ⟨_, rfl⟩

/-- The homes hold few lines, none of which anything else holds, and no range is being purged. -/
def calm (s : State) : Bool := decide (s.dir.length < 24) && (s.dir.all fun e => e.holders.isEmpty) && s.devs.all fun v => v.purging.isEmpty
theorem calm_iff {s : State} : calm s = true ↔ (s.dir.length < 24 ∧ ∀ e ∈ s.dir, e.holders = []) ∧ ∀ v ∈ s.devs, v.purging = [] := by
  simp [calm]
theorem filled_in {s : State} (h : s.dir.length < 24) (l : LineRef) (p : Page) : ((s.filled l p).entry l).inL2 = true := by
  have h1 : s.hasWay l = true := by
    have := List.length_filter_le (fun e : DirEntry => e.inL2 && s.homeOf e.line == s.homeOf l) s.dir
    simp only [State.hasWay, Bool.or_eq_true, decide_eq_true_eq]
    omega
  have h2 : (s.entry l).line = l := by
    unfold State.entry
    cases he : s.entry? l with
    | none => rfl
    | some e => simpa using List.find?_some he
  rw [State.filled, if_pos h1]
  generalize hx : ({ (s.entry l) with inL2 := true, perm := p.perm, l2Valid := 0xF } : DirEntry) = x
  have h3 : x.line = l := by rw [← hx]; exact h2
  have h4 : x.inL2 = true := by rw [← hx]
  unfold State.putEntry
  rw [h3]
  have h5 : ∀ d : List DirEntry, (d.find? fun e => e.line == l).isSome = true → (d.map fun e => if e.line = l then x else e).find? (fun e => e.line == l) = some x := by
    intro d
    induction d with
    | nil => intro h; cases h
    | cons a r ih =>
      intro h
      by_cases ha : a.line = l
      · simp [ha, h3]
      · simp only [List.map_cons, if_neg ha]
        rw [List.find?_cons_of_neg (by simpa using ha)] at h ⊢
        exact ih h
  split
  · rename_i hs
    simp only [State.entry, State.entry?, h5 _ hs, Option.getD_some, h4]
  · rename_i hs
    have h6 : s.dir.find? (fun e => e.line == l) = none := by simpa [State.entry?] using hs
    simp [State.entry, State.entry?, List.find?_append, h6, h3, h4]
theorem cacheWalk_dir (s : State) (u a : Nat) (p : Page) : (s.cacheWalk u a p).dir = s.dir := by
  unfold State.cacheWalk; dsimp only; split <;> rfl
theorem makeRoom_calm {s : State} (h : s.dir.length < 24) (l : LineRef) : s.makeRoom l = s := by
  have := List.length_filter_le (fun e : DirEntry => e.inL2 && s.homeOf e.line == s.homeOf l) s.dir
  unfold State.makeRoom
  dsimp only
  rw [if_pos (by omega)]
theorem hostLine_dir (s : State) (l : LineRef) (b : Bool) : (s.hostLine l b).dir = s.dir := by
  unfold State.hostLine; split <;> rfl
theorem hostBytes_dir (a : Nat → Nat) : ∀ (r : List Nat) (s : State),
    (r.foldl (fun (s : State) i => { s with mem := s.mem.put (a i) (Config.hostByte s.fresh (a i)) }) s).dir = s.dir
  | [], _ => rfl
  | _ :: r, _ => hostBytes_dir a r _
theorem obtainHost_dir (s : State) (l : LineRef) : (s.obtainHost l).dir = s.dir := by
  unfold State.obtainHost
  split
  · exact (hostLine_dir ..).trans (hostBytes_dir _ _ s)
  · rfl
/-- Nothing waits at the homes of a calm state. -/
theorem lineBusy_calm {s : State} (h : calm s = true) (l : LineRef) (w : Bool) : s.lineBusy l w = false := by
  obtain ⟨⟨h1, h0⟩, h2⟩ := calm_iff.1 h
  have hp : (s.dev l.dev).purging = [] := by
    unfold State.dev
    cases hd : s.devs[l.dev]? with
    | none => rfl
    | some v => exact h2 v (List.mem_of_getElem? hd)
  have h3 : (s.entry l).holders = [] := by
    unfold State.entry
    cases he : s.entry? l with
    | none => rfl
    | some e => exact h0 e (List.mem_of_find?_eq_some he)
  unfold State.lineBusy State.purging
  rw [hp, h3]
  simp only [List.any_nil, Bool.or_self, Bool.false_or]
  have hf : ∀ t, s.homeFill l = some t → (t.entry l).inL2 = true := by
    intro t ht
    unfold State.homeFill at ht
    dsimp only at ht
    have hw (u a : Nat) (p : Page) : ((s.cacheWalk u a p).makeRoom l).dir = s.dir := by
      have : (s.cacheWalk u a p).dir = s.dir := cacheWalk_dir ..
      rw [makeRoom_calm (by rw [this]; exact h1), this]
    split at ht
    · rename_i hi; injection ht with ht; exact ht ▸ hi
    · split at ht
      · cases ht
      · split at ht
        · injection ht with ht; exact ht ▸ filled_in (by rw [hw]; exact h1) _ _
        · injection ht with ht; exact ht ▸ filled_in (by rw [obtainHost_dir, hw]; exact h1) _ _
        · cases ht
  cases hh : s.homeFill l with
  | none => rfl
  | some t => simp [hf t hh]
theorem callerBusy_calm {s : State} (h : calm s = true) (p v a n : Nat) (w : Bool) : s.callerBusy (.host p v) a n w = false := by
  unfold State.callerBusy
  rw [List.any_eq_false]
  intro k _
  split <;> simp [lineBusy_calm h]
/-- A host's call does not wait to be answered. -/
theorem answer_calm {s : State} {c : Call} (p v : Nat) (hc : c.caller = .host p v) (h : calm s = true) : s.answerBusy c = false := by
  unfold State.answerBusy
  rw [hc, callerBusy_calm h, callerBusy_calm h]; simp
/-- A calm state whose homes hold no line, and whose contexts map nothing. -/
def bare (s : State) : Bool := (calm s && s.dir.isEmpty) && s.ctxs.all fun c => c.2.pages.isEmpty
theorem bare_of {s t : State} (h : bare s = true) (h1 : t.dir = s.dir) (h2 : t.devs = s.devs) (h3 : t.ctxs = s.ctxs) : bare t = true := by
  unfold bare calm at h ⊢
  rw [h1, h2, h3]; exact h
theorem bare_calm {s : State} (h : bare s = true) : calm s = true := by
  simp only [bare, Bool.and_eq_true] at h; exact h.1.1
theorem bare_dir {s : State} (h : bare s = true) : s.dir = [] := by
  simp only [bare, Bool.and_eq_true, List.isEmpty_iff] at h; exact h.1.2
theorem bare_page {s : State} (h : bare s = true) (d a v : Nat) : s.page? d a v = none := by
  simp only [bare, Bool.and_eq_true, List.all_eq_true, List.isEmpty_iff] at h
  rw [State.page?, List.findSome?_eq_none_iff]
  intro c hc
  split
  · rw [h.2 c hc]; rfl
  · rfl
theorem bare_force {s : State} (h : bare s = true) (l : LineRef) (w : Bool) : s.force l w = s := by
  have h1 := bare_dir h
  have : s.homeFill l = none := by
    unfold State.homeFill
    simp [State.entry, State.entry?, h1, bare_page h]
  simp [State.force, this]
theorem bare_drop {s : State} (h : bare s = true) (l : LineRef) : bare (((s.force l true).hostLine l false).leaveSlice l) = true := by
  have h1 := bare_dir h
  rw [bare_force h]
  have h2 : s.hostLine l false = s := by simp [State.hostLine, State.target?, bare_page h]
  rw [h2]
  have h3 : s.leaveSlice l = s.dropLine l := by simp [State.leaveSlice, State.entry, State.entry?, h1]
  rw [h3]
  exact bare_of h (by simp [State.dropLine, h1]) rfl rfl
theorem bare_put {s : State} (h : bare s = true) (p a : Nat) (b : Byte) : bare (s.hostPut p a b) = true := by
  unfold State.hostPut
  split
  · split
    · rw [bare_force h]; exact bare_of h rfl rfl rfl
    · exact bare_of h rfl rfl rfl
  · refine bare_of (s := List.foldl _ s _) ?_ rfl rfl rfl
    rename_i hh; clear hh
    generalize (List.map Prod.snd _) = ls
    induction ls generalizing s with
    | nil => exact h
    | cons l r ih => exact ih (bare_drop h l)
theorem bare_write {s : State} (h : bare s = true) (p v a : Nat) (bs : List Byte) : bare (s.callerWrite (.host p v) a bs) = true := by
  unfold State.callerWrite
  induction bs generalizing s a with
  | nil => exact h
  | cons b r ih => exact ih (bare_put h p a b) (a + 1)
/-- The call that writes results into a host's buffer does not wait to be answered. -/
theorem answer_bare {s : State} {c : Call} (p v : Nat) (hc : c.caller = .host p v) (h : bare s = true) (a : Nat) (bs : List Byte) :
    (s.callerWrite c.caller a bs).answerBusy c = false := by
  rw [hc]; exact answer_calm p v hc (bare_calm (bare_write h p v a bs))
theorem answer_bare_bump {s : State} {c : Call} (p v : Nat) (hc : c.caller = .host p v) (h : bare s = true) (a : Nat) (bs : List Byte) :
    (s.callerWrite c.caller a bs).bump.answerBusy c = false := by
  rw [hc]; exact answer_calm p v hc (bare_calm (bare_of (bare_write h p v a bs) rfl rfl rfl))
/-- Frames of a calm state are taken and zeroed without a line. -/
theorem reserve_calm (x d : Nat) : ∀ (n : Nat) {s t : State}, calm s = true → State.reserveFrames x d n s = some t → calm t = true
  | 0, s, t, h, ht => by
    injection ht with ht; exact ht ▸ h
  | n + 1, s, t, h, ht => by
    unfold State.reserveFrames at ht
    split at ht
    · cases ht
    · exact reserve_calm x d n (by exact h) ht
theorem zero_calm (d a n : Nat) {s : State} (h : calm s = true) : calm (s.zeroGranules d a n) = true := by
  induction n with
  | zero => exact h
  | succ n ih => exact ih
theorem alloc_calm (x d ps pm : Nat) : ∀ (n v : Nat) {s t : State}, calm s = true → State.allocPages x d ps pm n v s = some t → calm t = true
  | 0, _, s, t, h, ht => by
    injection ht with ht; exact ht ▸ h
  | n + 1, v, s, t, h, ht => by
    unfold State.allocPages at ht
    split at ht
    · cases ht
    · exact alloc_calm x d ps pm n _ (by exact zero_calm _ _ _ h) ht
theorem modDev_calm {s : State} (d : Nat) (f : Dev → Dev) (hf : ∀ v, (f v).purging = v.purging) (h : calm s = true) : calm (s.modDev d f) = true := by
  have key : ∀ (l : List Dev) (d : Nat), (∀ v ∈ l, v.purging = []) → ∀ v ∈ listModify l d f, v.purging = [] := by
    intro l
    induction l with
    | nil => intro d _ v hv; cases hv
    | cons a r ih =>
      intro d hl v hv
      cases d with
      | zero =>
        rcases List.mem_cons.1 hv with rfl | hv
        · rw [hf]; exact hl a (List.mem_cons_self ..)
        · exact hl v (List.mem_cons_of_mem _ hv)
      | succ d =>
        rcases List.mem_cons.1 hv with rfl | hv
        · exact hl _ (List.mem_cons_self ..)
        · exact ih d (fun v hv => hl v (List.mem_cons_of_mem _ hv)) v hv
  rw [calm_iff] at h ⊢
  exact ⟨h.1, key s.devs d h.2⟩
theorem modDevs_calm (g : State → Nat → Dev → Dev) (hg : ∀ s d v, (g s d v).purging = v.purging) :
    ∀ (l : List Nat) {s : State}, calm s = true → calm (l.foldl (fun s d => s.modDev d (g s d)) s) = true
  | [], _, h => h
  | d :: r, s, h => modDevs_calm g hg r (modDev_calm d (g s d) (hg s d) h)

/-- An idle queue. -/
def queue1 : Queue := { ctx := 0, ring := 0x100000, n := 10, headVa := 0x110010, prio := 0 }
/-- A firmware image. -/
def image1 : Image := { version := 1, svn := 1, header := [] }
/-- The sub-wave parked with record 1, of the grid 1 whose key is given. -/
def stRec (k : Nat) : State :=
  let tm : Team := { team1 with grid := k, waves := [(0, wave2 { sub1 with park := some { park1 with stage := .recorded 1 } } [] [])] }
  { st with grids := [(k, grid1)], teams := [(0, tm)] }.modDev 0 fun v => { v with records := [(1, { rec1 with gridKey := k })], recSeq := 1 }
/-- The state with its wave halted, and a context that maps nothing. -/
def stHalt : State := { st with ctxs := [(0, { ctx1 with pages := [] })], teams := [(0, { team1 with waves := [(0, { wave1 with halted := true })] })] }
/-- The first line of the data page, which its home recalls from host port 0. -/
def busy : DirEntry := { line := ⟨0, 0, 0x4400⟩, txn := some { req := { src := none, who := none, write := true }, acks := [⟨784, 3⟩] } }

theorem witness_ContextCalls :
    (∃ (c : Call) (k : Nat) (s : State), Serves 0x01 5 c s ∧ c.arg 0 < 2 ^ 11 ∧ bits (c.arg 0) 1 2 ≤ 1 ∧ c.arg 2 / 2 ^ 16 = 0 ∧
      bits (c.arg 2) 2 6 = 0 ∧ bits (c.arg 2) 8 8 ≤ 16 ∧ c.arg 3 < 2 ^ 16 ∧ c.arg 4 ≤ 2048 ∧
      ((List.range 64).find? fun k => (s.ctxs.get? (64 * c.dev + k)).isNone) = some k ∧
      (let x : Ctx := {
         dev := c.dev, asid := c.arg 3, seed := BitVec.ofNat 64 (c.arg 1), inside := toBit (c.arg 2 / 2)
         ctl := BitVec.ofNat 64 (c.arg 0 / 16 * 16 + c.arg 0 % 8 + 8 * (c.arg 2 % 2))
         vf := if bits (c.arg 2) 8 8 = 0 then none else some (bits (c.arg 2) 8 8 - 1)
         faultVec := if c.arg 4 = 0 then none else some (c.arg 4 - 1)
         backing := (Config.backingBytes s.fresh).toNat }
       let made := State.reserveFrames (64 * c.dev + k) c.dev (ceilDiv x.backing 65536) { s.bump with ctxs := s.ctxs.set (64 * c.dev + k) x }
       (∃ t, made = some t ∧ t.answerBusy c = false) ∨ made = none ∧ s.bump.answerBusy c = false)) ∧
    (∃ (c : Call) (x : Ctx) (s : State), Serves 0x02 0 c s ∧ (s.ctxs.get? c.ctx = some x) ∧
      ((fun s => s.destroyCtx c.ctx x : State → State) s).answerBusy c = false) ∧
    (∃ (c : Call) (x : Ctx) (s : State), Serves 0x03 0 c s ∧ (s.ctxs.get? c.ctx = some x) ∧
      ((fun s => s : State → State) s).answerBusy c = false) ∧
    (∃ (c : Call) (t : State) (tables : List (List Nat)) (s : State), Serves 0x04 (2 + 4 / fndsPer (c.arg 0)) c s ∧ (c.arg 0 ≤ 2 ∧ c.arg 1 / 2 ^ (12 * (4 / fndsPer (c.arg 0))) = 0 ∧
      ((List.range (4 / fndsPer (c.arg 0))).any fun d => s.callerBusy c.caller (c.arg (2 + d)) 16384 false) = false ∧
      State.readTables c.caller ((List.range (4 / fndsPer (c.arg 0))).map fun d => c.arg (2 + d)) s = .ok (t, tables) ∧
      ((List.range (4 / fndsPer (c.arg 0))).any fun d => routesBad (c.arg 0) d (bits (c.arg 1) (12 * d) 12) ((tables[d]?).getD [])) = false ∧
      t.ctxs = []) ∧
      ((fun _ =>
      let fresh := c.arg 0 != t.pkg.mode
      let u : State := { t with
        pkg := { t.pkg with mode := c.arg 0 }, dir := if fresh then [] else t.dir
        cores := if fresh then t.cores.map fun c => (c.1, { c.2 with l1 := [], ic := [] }) else t.cores, tlb := if fresh then [] else t.tlb }
      (List.range (4 / fndsPer (c.arg 0))).foldl (fun s d => s.modDev d fun v => { v with
        barnos := bits (c.arg 1) (12 * d) 12, routes := routesOf ((tables[d]?).getD []), placePtr := 0
        hometab := if fresh then s.rehome (c.arg 0) d else v.hometab
        remap := if fresh then [] else v.remap }) u : State → State) s).answerBusy c = false) ∧
    (∃ (c : Call) (s : State), Serves 0x05 0 c s ∧
      ((fun s => s : State → State) s).answerBusy c = false) ∧
    (∃ (c : Call) (s : State), Serves 0x0B 2 c s ∧ (c.arg 0 ≤ 255 ∧ 64 ≤ c.arg 1 ∧ c.arg 1 ≤ 65535) ∧
      ((fun s => s.modCtx c.ctx fun x => { x with weight := c.arg 0, quantum := 100 * c.arg 1 } : State → State) s).answerBusy c = false) ∧
    (∃ (c : Call) (s : State), Serves 0x1B 2 c s ∧ (c.arg 0 ≤ 1000000 ∧ c.arg 1 ≤ 1000000 ∧ (s.ctxs.get? c.ctx).map (fun x => x.st) = some .running)) ∧
    (∃ (c : Call) (s : State), Serves 0x1C 0 c s ∧ ((s.ctxs.get? c.ctx).map (fun x => x.st) = some .suspended) ∧
      ((fun s => s.resumeCtx c.ctx : State → State) s).answerBusy c = false) :=
  ⟨by
    refine ⟨hc [0x7FB, 0, 0x1003, 0xFFFF, 2048], 1, sv st 1 (hc [0x7FB, 0, 0x1003, 0xFFFF, 2048]), serves_spec (by decide +kernel), by decide +kernel,
      by decide +kernel, by decide +kernel, by decide +kernel, by decide +kernel, by decide +kernel, by decide +kernel, by decide +kernel, ?_⟩
    dsimp only
    generalize hm : State.reserveFrames _ _ _ _ = made
    cases made with
    | none => exact Or.inr ⟨rfl, answer_calm 0 0 rfl (by decide +kernel)⟩
    | some t => exact Or.inl ⟨t, rfl, answer_calm 0 0 rfl (reserve_calm _ _ _ (by decide +kernel) hm)⟩,
    ⟨(hc []), ctx1, (sv st 0x02 (hc [])), serves_spec (by decide +kernel), rfl, answer_calm 0 0 rfl (by decide +kernel)⟩,
    ⟨(hc []), ctx1, (sv st 0x03 (hc [])), serves_spec (by decide +kernel), rfl, answer_calm 0 0 rfl (by decide +kernel)⟩,
    by
    obtain ⟨b, hb⟩ := apart_some
    generalize hw : BitVec.ofNat 64 (64 * b) = w
    have hx : w.toNat = 64 * b := by rw [← hw]; exact held_arg hb
    have h0 : (hc [0, 0xFFF, w]).arg 0 = 0 := rfl
    have h1 : (hc [0, 0xFFF, w]).arg 1 = 0xFFF := rfl
    have hz : calm (hostSt (sv0 State.reset) b []) = true := by rfl
    refine ⟨hc [0, 0xFFF, w], hostSt (sv0 State.reset) b [], [List.replicate 4096 0], hostSt (sv0 State.reset) b [], ?_, ⟨?_, ?_, ?_, ?_, ?_, rfl⟩, ?_⟩
    · rw [h0]; exact serves_spec (by rfl)
    · rw [h0]; decide
    · rw [h0, h1]; decide
    · exact List.any_eq_false.2 fun d _ => by rw [show (hc [0, 0xFFF, w]).caller = .host 0 0 from rfl, callerBusy_calm hz]; exact Bool.false_ne_true
    · rw [h0]
      change State.readTables (.host 0 0) [w.toNat] _ = _
      rw [hx]
      simp only [State.readTables, read_held hb [] (show (sv0 State.reset).pkg.mode = 0 from rfl) 16384 (by decide)]
      rw [words_zero 4096]
    · rw [h0, h1]; decide +kernel
    · refine answer_calm 0 0 rfl ?_
      dsimp only
      refine modDevs_calm (fun s d v => { v with
        barnos := _, routes := _, placePtr := _, hometab := if (_ : Bool) = true then s.rehome _ d else v.hometab, remap := if (_ : Bool) = true then [] else v.remap }) (fun _ _ _ => rfl) _ ?_
      split <;> rfl,
    ⟨(hc []), (sv st 0x05 (hc [])), serves_spec (by decide +kernel), answer_calm 0 0 rfl (by decide +kernel)⟩,
    ⟨(hc [255, 64]), (sv st 0x0B (hc [255, 64])), serves_spec (by decide +kernel), by decide +kernel, answer_calm 0 0 rfl (by decide +kernel)⟩,
    ⟨(hc [1000000, 0]), (sv st 0x1B (hc [1000000, 0])), serves_spec (by decide +kernel), by decide +kernel⟩,
    ⟨(hc []), (sv (st.modCtx 0 fun x => { x with st := .suspended }) 0x1C (hc [])), serves_spec (by decide +kernel), by decide +kernel, answer_calm 0 0 rfl (by decide +kernel)⟩⟩

theorem witness_QueueCalls :
    (∃ (c : Call) (k : Nat) (s : State), Serves 0x06 5 c s ∧ (4 ≤ c.arg 1 ∧ c.arg 1 ≤ 16 ∧ c.arg 0 % (64 * 2 ^ c.arg 1) = 0 ∧ c.arg 0 < 2 ^ 56 ∧ c.arg 2 % 16 = 0 ∧ c.arg 2 < 2 ^ 56 ∧
      c.arg 3 ≤ 3 ∧ c.arg 4 = 0 ∧
      ((List.range (queueLimit s.pkg.mode)).find? fun k => (s.queues.get? (256 * c.dev + k)).isNone) = some k) ∧
      ((fun s =>
      let running := (s.ctxs.get? c.ctx).map (fun x => x.st) == some .running
      let s : State := s.modCtx c.ctx fun x => if x.pages.any fun p => p.va == doorBase then x else { x with pages := x.pages ++ [doorPage] }
      let q : Queue :=
        { ctx := c.ctx, ring := c.arg 0, n := c.arg 1, headVa := c.arg 2, prio := c.arg 3, xfer := none
          st := if running then .idle else .suspended }
      ({ s with queues := s.queues.set (256 * c.dev + k) q } : State).writeHead (256 * c.dev + k) : State → State) s).answerBusy c = false) ∧
    (∃ (c : Call) (k : Nat) (q : Queue) (s : State), Serves 0x07 1 c s ∧ (s.queueArg c = some (k, q)) ∧
      ((fun s => { s with
        queues := s.queues.del k
        grids := s.grids.map fun g => (g.1, if g.2.queue = some k then { g.2 with queue := none } else g.2) } : State → State) s).answerBusy c = false) ∧
    (∃ (c : Call) (k : Nat) (q : Queue) (s : State), Serves 0x08 2 c s ∧ (s.queueArg c = some (k, q) ∧ c.arg 1 ≤ 3) ∧
      ((fun s => s.modQueue k fun q => { q with prio := c.arg 1 } : State → State) s).answerBusy c = false) ∧
    (∃ (c : Call) (t t' : State) (ws : List Nat) (g : Grid) (s : State), Serves 0x09 1 c s ∧ (c.arg 0 % 256 = 0 ∧ s.unitsBusy c.ctx (c.arg 0) 256 false = false ∧ s.unitsBusy c.ctx (c.arg 0) 256 true = false ∧
      s.unitWords c.ctx (c.arg 0) 32 = .ok (t, ws) ∧ t.checkLaunch c.ctx (c.arg 0) ws false = (t', .ok g) ∧
      (∃ r, t'.unit c.ctx { n := 8, rd := false, wr := true } (c.arg 0 + 0x28) = .ok r)) ∧
      ((fun _ => (t'.createGrid g 0 (Config.freeNat t'.fresh % 4) none none).1.bump : State → State) s).answerBusy c = false) ∧
    (∃ (c : Call) (k : Nat) (q : Queue) (s : State), Serves 0x0A 2 c s ∧ (s.queueArg c = some (k, q) ∧ c.arg 1 = 0 ∧ q.st = .error) ∧
      ((fun s => s.passRefused k q : State → State) s).answerBusy c = false) ∧
    (∃ (c : Call) (k : Nat) (q : Queue) (n : Nat) (g : Grid) (s : State), Serves 0x0A 2 c s ∧ (s.queueArg c = some (k, q) ∧ c.arg 1 ≠ 0 ∧
      (s.grids.find? fun g => g.2.ctx == c.ctx && g.2.num == c.arg 1 && g.2.queue == some k && !g.2.complete) = some (n, g)) ∧
      ((fun s => s.abandonGrid n 4 : State → State) s).answerBusy c = false) :=
  ⟨⟨(hc [0x100000, 10, 0x110010, 3, 0]), 0, (sv st 0x06 (hc [0x100000, 10, 0x110010, 3, 0])), serves_spec (by decide +kernel), by decide +kernel, answer_calm 0 0 rfl (by decide +kernel)⟩,
    ⟨(hc [0]), 0, queue1, (sv { st with queues := [(0, queue1)] } 0x07 (hc [0])), serves_spec (by decide +kernel), rfl, answer_calm 0 0 rfl (by decide +kernel)⟩,
    ⟨(hc [0, 3]), 0, queue1, (sv { st with queues := [(0, queue1)] } 0x08 (hc [0, 3])), serves_spec (by decide +kernel), by decide +kernel, answer_calm 0 0 rfl (by decide +kernel)⟩,
    by
    obtain ⟨⟨t, ws⟩, h1, h2⟩ := of_excOk (P := fun r => let q := r.1.checkLaunch 0 0x110800 r.2 false
        excOk q.2 (fun g => calm (q.1.createGrid g 0 (Config.freeNat q.1.fresh % 4) none none).1.bump) &&
        excOk (q.1.unit 0 { n := 8, rd := false, wr := true } (0x110800 + 0x28)) fun _ => true)
      (show excOk ((sv st 9 (hc [0x110800])).unitWords 0 0x110800 32) _ = true by decide +kernel)
    simp only [Bool.and_eq_true] at h2
    obtain ⟨g, h3, h5⟩ := of_excOk h2.1
    obtain ⟨r, h4, -⟩ := of_excOk h2.2
    exact ⟨hc [0x110800], t, _, ws, g, sv st 9 (hc [0x110800]), serves_spec (by decide +kernel),
      ⟨by decide +kernel, by decide +kernel, by decide +kernel, h1, Prod.ext rfl h3, ⟨r, h4⟩⟩, answer_calm 0 0 rfl h5⟩,
    ⟨(hc [0, 0]), 0, { queue1 with st := .error }, (sv { st with queues := [(0, { queue1 with st := .error })] } 0x0A (hc [0, 0])), serves_spec (by decide +kernel), by decide +kernel, answer_calm 0 0 rfl (by decide +kernel)⟩,
    ⟨(hc [0, 1]), 0, queue1, 0, { grid1 with queue := some 0 }, (sv { st with queues := [(0, queue1)], grids := [(0, { grid1 with queue := some 0 })] } 0x0A (hc [0, 1])), serves_spec (by decide +kernel), by decide +kernel, answer_calm 0 0 rfl (by decide +kernel)⟩⟩

theorem witness_MemoryCalls :
    (∃ (c : Call) (s : State), Serves 0x0C 3 c s ∧ (c.arg 0 ≠ 0 ∧ c.arg 0 % (if c.arg 2 = 0 then 65536 else c.arg 2) = 0 ∧ c.arg 2 % 65536 = 0 ∧ rangeOk (c.arg 0) (c.arg 1) 65536 = true ∧
      ((s.callCtx c).ranges.any fun r => rangesMeet r.1 r.2 (c.arg 0) (c.arg 1)) = false) ∧
      ((fun s => s.modCtx c.ctx fun x => { x with ranges := x.ranges ++ [(c.arg 0, c.arg 1)] } : State → State) s).answerBusy c = false) ∧
    (∃ (c : Call) (v : Nat) (s : State), Serves 0x0C 3 c s ∧ (c.arg 0 = 0 ∧ c.arg 2 % 65536 = 0 ∧ rangeOk 0 (c.arg 1) 65536 = true ∧
      (s.freshVa (s.callCtx c) (c.arg 1) (if c.arg 2 = 0 then 65536 else c.arg 2)) = some v) ∧
      ((fun s => (s.modCtx c.ctx fun x => { x with ranges := x.ranges ++ [(v, c.arg 1)] }).bump : State → State) s).answerBusy c = false) ∧
    (∃ (c : Call) (s : State), Serves 0x0D 2 c s ∧ ((s.callCtx c).ranges.contains (c.arg 0, c.arg 1) = true ∧ (s.callCtx c).mapped (c.arg 0) (c.arg 1) = false) ∧
      ((fun s => s.modCtx c.ctx fun x => { x with ranges := x.ranges.erase (c.arg 0, c.arg 1) } : State → State) s).answerBusy c = false) ∧
    (∃ (c : Call) (ps : Nat) (t : State) (s : State), Serves 0x0E 4 c s ∧ (pageSize (c.arg 2) = some ps ∧ permOk (c.arg 3) = true ∧ rangeOk (c.arg 0) (c.arg 1) ps = true ∧ c.arg 0 ≠ 0 ∧
      (s.callCtx c).reserved (c.arg 0) (c.arg 1) = true ∧ (s.callCtx c).mapped (c.arg 0) (c.arg 1) = false ∧
      State.allocPages c.ctx c.dev ps (c.arg 3) (c.arg 1 / ps) (c.arg 0) s.bump = some t) ∧
      ((fun _ => t : State → State) s).answerBusy c = false) ∧
    (∃ (c : Call) (ps v : Nat) (t : State) (s : State), Serves 0x0E 4 c s ∧ (pageSize (c.arg 2) = some ps ∧ permOk (c.arg 3) = true ∧ rangeOk 0 (c.arg 1) ps = true ∧ c.arg 0 = 0 ∧
      s.freshVa (s.callCtx c) (c.arg 1) ps = some v ∧ State.allocPages c.ctx c.dev ps (c.arg 3) (c.arg 1 / ps) v s.bump = some t) ∧
      ((fun _ => t.modCtx c.ctx fun x => { x with ranges := x.ranges ++ [(v, c.arg 1)] } : State → State) s).answerBusy c = false) ∧
    (∃ (c : Call) (t : State) (s : State), Serves 0x0F 2 c s ∧ (rangeOk (c.arg 0) (c.arg 1) 65536 = true ∧
      65536 * ((s.callCtx c).allocs.filter fun a => decide (c.arg 0 ≤ a.1 ∧ a.1 < c.arg 0 + c.arg 1)).length = c.arg 1 ∧
      s.purgeRange c.dev (s.callCtx c).asid (c.arg 0) (c.arg 1) = (t, true)) ∧
      ((fun s => (((((t.purged c.dev (s.callCtx c).asid (c.arg 0) (c.arg 1)).unmapRange c.ctx (c.arg 0) (c.arg 1)).modCtx c.ctx fun x =>
      { x with allocs := x.allocs.filter fun a => !decide (c.arg 0 ≤ a.1 ∧ a.1 < c.arg 0 + c.arg 1) }).hostResume c.dev).peerResume c.dev).owedHeads : State → State) s).answerBusy c = false) ∧
    (∃ (c : Call) (t : State) (s : State), Serves 0x11 2 c s ∧ (rangeOk (c.arg 0) (c.arg 1) 65536 = true ∧ s.purgeRange c.dev (s.callCtx c).asid (c.arg 0) (c.arg 1) = (t, true)) ∧
      ((fun s => ((((t.purged c.dev (s.callCtx c).asid (c.arg 0) (c.arg 1)).unmapRange c.ctx (c.arg 0) (c.arg 1)).hostResume c.dev).peerResume c.dev).owedHeads : State → State) s).answerBusy c = false) ∧
    (∃ (c : Call) (t : State) (s : State), Serves 0x11 2 c s ∧ (rangeOk (c.arg 0) (c.arg 1) 65536 = true ∧ s.purgeRange c.dev (s.callCtx c).asid (c.arg 0) (c.arg 1) = (t, false))) ∧
    (∃ (c : Call) (s : State), Serves 0x12 3 c s ∧ (rangeOk (c.arg 0) (c.arg 1) 65536 = true ∧ permOk (c.arg 2) = true ∧
      (let hit := ((s.callCtx c).cut (c.arg 0) (c.arg 1)).filter fun p => p.within (c.arg 0) (c.arg 1)
       hit.foldl (fun n p => n + p.size) 0 = c.arg 1 ∧ (hit.any fun p => p.revoked) = false ∧
       (hit.all fun p => Nat.land p.perm (c.arg 2) = p.perm) = true)) ∧
      ((fun s => s.modCtx c.ctx fun x => { x with
        pages := (x.cut (c.arg 0) (c.arg 1)).map fun p => if p.within (c.arg 0) (c.arg 1) then { p with perm := c.arg 2 } else p } : State → State) s).answerBusy c = false) ∧
    (∃ (c : Call) (s : State), Serves 0x13 5 c s ∧ (c.arg 1 < 2 ^ 16 ∧ c.arg 4 ≤ 15 ∧ rangeOk (c.arg 0) (c.arg 3) 65536 = true ∧ rangeOk (c.arg 2) (c.arg 3) 65536 = true ∧
      ¬ ((s.callCtx c).asid = c.arg 1 ∧ rangesMeet (c.arg 2) (c.arg 3) (c.arg 0) (c.arg 3) = true) ∧
      (∀ a ∈ (s.dev c.dev).remap,
        ¬ (a.asid = c.arg 1 ∧ rangesMeet a.base a.len (c.arg 2) (c.arg 3) = true) ∧
        ¬ (a.toAsid = (s.callCtx c).asid ∧ rangesMeet a.toBase a.len (c.arg 0) (c.arg 3) = true) ∧
        ¬ (a.asid = (s.callCtx c).asid ∧ rangesMeet a.base a.len (c.arg 0) (c.arg 3) = true)) ∧
      (s.callCtx c).mapped (c.arg 0) (c.arg 3) = false ∧ (s.dev c.dev).remap.length < 256) ∧
      ((fun s => s.modDev c.dev fun v => { v with remap := v.remap ++ [⟨(s.callCtx c).asid, c.arg 0, c.arg 3, c.arg 1, c.arg 2, c.arg 4⟩] } : State → State) s).answerBusy c = false) ∧
    (∃ (c : Call) (t : State) (s : State), Serves 0x14 3 c s ∧ ((let asid := if c.arg 0 = 0 then (s.callCtx c).asid else c.arg 0
      asid < 2 ^ 16 ∧ rangeOk (c.arg 1) (c.arg 2) 65536 = true ∧ s.purgeRange c.dev asid (c.arg 1) (c.arg 2) = (t, true))) ∧
      ((fun s => (((t.purged c.dev (if c.arg 0 = 0 then (s.callCtx c).asid else c.arg 0) (c.arg 1) (c.arg 2)).hostResume c.dev).peerResume c.dev).owedHeads : State → State) s).answerBusy c = false) ∧
    (∃ (c : Call) (s : State), Serves 0x15 5 c s ∧ (c.arg 3 ≤ 1 ∧ c.arg 1 % 65536 = 0 ∧ c.arg 1 + c.arg 2 ≤ 2 ^ 64 ∧ permOk (c.arg 4) = true ∧ rangeOk (c.arg 0) (c.arg 2) 65536 = true ∧
      (s.callCtx c).mapped (c.arg 0) (c.arg 2) = false ∧
      (∀ y ∈ s.ctxs, y.2.dev = c.dev → ∀ p ∈ y.2.pages, ∀ b, p.target = .host (c.arg 3) b →
        rangesMeet b p.size (c.arg 1) (c.arg 2) = false)) ∧
      ((fun s => s.modCtx c.ctx fun x => { x with pages := x.pages ++ (List.range (c.arg 2 / 65536)).map fun i =>
      { va := c.arg 0 + 65536 * i, size := 65536, target := .host (c.arg 3) (c.arg 1 + 65536 * i), perm := c.arg 4 } } : State → State) s).answerBusy c = false) ∧
    (∃ (c : Call) (s : State), Serves 0x16 6 c s ∧ (c.arg 0 = 0 ∧ c.arg 3 = 0 ∧ c.arg 1 ≤ 4095 ∧ c.arg 1 ≠ (s.dev c.dev).barnos ∧ permOk (c.arg 5) = true ∧ rangeOk (c.arg 2) (c.arg 4) 65536 = true) ∧
      ((fun s => s.modDev c.dev fun v => { v with handleSeq := (s.dev c.dev).handleSeq + 1, exports := v.exports ++ [{ handle := (s.dev c.dev).handleSeq + 1, peer := c.arg 1, ctx := c.ctx, va := c.arg 2, remote := c.arg 3, len := c.arg 4, perm := c.arg 5 }] } : State → State) s).answerBusy c = false) ∧
    (∃ (c : Call) (s : State), Serves 0x16 6 c s ∧ (c.arg 0 = 1 ∧ rangeOk (c.arg 3) (c.arg 4) 65536 = true ∧ c.arg 1 ≤ 4095 ∧ c.arg 1 ≠ (s.dev c.dev).barnos ∧ permOk (c.arg 5) = true ∧ rangeOk (c.arg 2) (c.arg 4) 65536 = true ∧ (s.callCtx c).mapped (c.arg 2) (c.arg 4) = false) ∧
      ((fun s => (s.modDev c.dev fun v => { v with imports := v.imports ++ [{ handle := 0, peer := c.arg 1, ctx := c.ctx, va := c.arg 2, remote := c.arg 3, len := c.arg 4, perm := c.arg 5 }] }).modCtx c.ctx fun x =>
      { x with pages := x.pages ++ (List.range (c.arg 4 / 65536)).map fun i =>
          { va := c.arg 2 + 65536 * i, size := 65536, target := .peer (c.arg 1) (c.arg 3 + 65536 * i), perm := c.arg 5 } } : State → State) s).answerBusy c = false) ∧
    (∃ (c : Call) (s : State), Serves 0x17 2 c s ∧ (((s.dev c.dev).exports.any fun w => w.handle == c.arg 0 && w.ctx == c.ctx) = true) ∧
      ((fun s => s.modDev c.dev fun v => { v with exports := v.exports.filter fun w => !(w.handle == c.arg 0 && w.ctx == c.ctx) } : State → State) s).answerBusy c = false) ∧
    (∃ (c : Call) (s : State), Serves 0x17 2 c s ∧ (((s.dev c.dev).exports.any fun w => w.handle == c.arg 0 && w.ctx == c.ctx) = false ∧ rangeOk (c.arg 0) (c.arg 1) 65536 = true ∧
      (((s.callCtx c).cut (c.arg 0) (c.arg 1)).any fun p => p.isPeer && p.within (c.arg 0) (c.arg 1)) = true) ∧
      ((fun s =>
      let t : State := s.modDev c.dev fun v => { v with
        imports := v.imports.filter fun w => !(w.ctx == c.ctx && decide (c.arg 0 ≤ w.va ∧ w.va + w.len ≤ c.arg 0 + c.arg 1)) }
      let t : State := t.dropTlb c.dev (s.callCtx c).asid (c.arg 0) (c.arg 1)
      t.modCtx c.ctx fun x => { x with
        pages := (x.cut (c.arg 0) (c.arg 1)).filter fun p => !(p.isPeer && p.within (c.arg 0) (c.arg 1)) } : State → State) s).answerBusy c = false) :=
  ⟨⟨(hc [0x1000000, 0x10000, 0]), (sv st 0x0C (hc [0x1000000, 0x10000, 0])), serves_spec (by decide +kernel), by decide +kernel, answer_calm 0 0 rfl (by decide +kernel)⟩,
    by
    obtain ⟨v, hv⟩ := fresh_some (s := sv st 0x0C (hc [0, 0x10000, 0])) (x := ctx1) (len := 0x10000) (align := 65536) 65536
      (List.mem_cons_self ..) (by decide +kernel)
    exact ⟨hc [0, 0x10000, 0], v, sv st 0x0C (hc [0, 0x10000, 0]), serves_spec (by decide +kernel), ⟨rfl, rfl, by decide +kernel, hv⟩,
      answer_calm 0 0 rfl (by rfl)⟩,
    ⟨(hc [0x1000000, 0x10000]), (sv (st.modCtx 0 fun x => { x with ranges := [(0x1000000, 0x10000)] }) 0x0D (hc [0x1000000, 0x10000])), serves_spec (by decide +kernel), by decide +kernel, answer_calm 0 0 rfl (by decide +kernel)⟩,
    by
    obtain ⟨t, ht⟩ := alloc_some (sv (st.modCtx 0 fun x => { x with ranges := [(0x1000000, 0x10000)] }) 0x0E (hc [0x1000000, 0x10000, 0, 7])) 7 0x1000000 (by decide +kernel)
    exact ⟨hc [0x1000000, 0x10000, 0, 7], 65536, t, sv (st.modCtx 0 fun x => { x with ranges := [(0x1000000, 0x10000)] }) 0x0E (hc [0x1000000, 0x10000, 0, 7]),
      serves_spec (by decide +kernel), ⟨rfl, by decide +kernel, by decide +kernel, by decide +kernel, by decide +kernel, by decide +kernel, ht⟩,
      answer_calm 0 0 rfl (alloc_calm _ _ _ _ _ _ (by decide +kernel) ht)⟩,
    by
    obtain ⟨v, hv⟩ := fresh_some (s := sv st 0x0E (hc [0, 0x10000, 65536, 13])) (x := ctx1) (len := 0x10000) (align := 65536) 65536
      (List.mem_cons_self ..) (by decide +kernel)
    obtain ⟨t, ht⟩ := alloc_some (sv st 0x0E (hc [0, 0x10000, 65536, 13])) 13 v (by decide +kernel)
    exact ⟨hc [0, 0x10000, 65536, 13], 65536, v, t, sv st 0x0E (hc [0, 0x10000, 65536, 13]), serves_spec (by decide +kernel), ⟨rfl, by decide +kernel,
      by decide +kernel, rfl, hv, ht⟩, answer_calm 0 0 rfl (by have h := alloc_calm _ _ _ _ _ _ (by decide +kernel) ht; exact h)⟩,
    ⟨(hc [0x110000, 0x10000]), _, (sv (st.modCtx 0 fun x => { x with allocs := [(0x110000, 65536)] }) 0x0F (hc [0x110000, 0x10000])), serves_spec (by decide +kernel), ⟨by decide +kernel, by decide +kernel, Prod.ext rfl (by decide +kernel)⟩, answer_calm 0 0 rfl (by decide +kernel)⟩,
    ⟨(hc [0x110000, 0x10000]), _, (sv st 0x11 (hc [0x110000, 0x10000])), serves_spec (by decide +kernel), ⟨by decide +kernel, Prod.ext rfl (by decide +kernel)⟩, answer_calm 0 0 rfl (by decide +kernel)⟩,
    ⟨hc [0x110000, 0x10000], _, sv { st with dir := [busy] } 0x11 (hc [0x110000, 0x10000]), serves_spec (by decide +kernel), by decide +kernel,
      Prod.ext rfl (by decide +kernel)⟩,
    ⟨(hc [0x110000, 0x10000, 7]), (sv st 0x12 (hc [0x110000, 0x10000, 7])), serves_spec (by decide +kernel), by decide +kernel, answer_calm 0 0 rfl (by decide +kernel)⟩,
    ⟨(hc [0x1000000, 1, 0x2000000, 0x10000, 15]), (sv st 0x13 (hc [0x1000000, 1, 0x2000000, 0x10000, 15])), serves_spec (by decide +kernel), by decide +kernel, answer_calm 0 0 rfl (by decide +kernel)⟩,
    ⟨(hc [0xFFFF, 0x110000, 0x10000]), _, (sv st 0x14 (hc [0xFFFF, 0x110000, 0x10000])), serves_spec (by decide +kernel), ⟨by decide +kernel, by decide +kernel, Prod.ext rfl (by decide +kernel)⟩, answer_calm 0 0 rfl (by decide +kernel)⟩,
    ⟨(hc [0x1000000, 0x10000, 0x10000, 1, 3]), (sv st 0x15 (hc [0x1000000, 0x10000, 0x10000, 1, 3])), serves_spec (by decide +kernel), (by
      refine ⟨by decide +kernel, by decide +kernel, by decide +kernel, by decide +kernel, by decide +kernel, by decide +kernel, ?_⟩
      intro y hy _ p hp b hb
      have h1 : y = (0, ctx1) := by simpa [sv, State.modDev, st] using hy
      subst h1
      have h2 : p = { va := 0x100000, size := 65536, target := .hbm 0, perm := 5 } ∨ p = { va := 0x110000, size := 65536, target := .hbm 65536, perm := 3 } := by
        simpa [ctx1] using hp
      rcases h2 with rfl | rfl <;> cases hb), answer_calm 0 0 rfl (by decide +kernel)⟩,
    ⟨(hc [0, 4095, 0x110000, 0, 0x10000, 3]), (sv st 0x16 (hc [0, 4095, 0x110000, 0, 0x10000, 3])), serves_spec (by decide +kernel), by decide +kernel, answer_calm 0 0 rfl (by decide +kernel)⟩,
    ⟨(hc [1, 4095, 0x1000000, 0x10000, 0x10000, 3]), (sv st 0x16 (hc [1, 4095, 0x1000000, 0x10000, 0x10000, 3])), serves_spec (by decide +kernel), by decide +kernel, answer_calm 0 0 rfl (by decide +kernel)⟩,
    ⟨(hc [9, 0]), (sv (st.modDev 0 fun v => { v with exports := [{ handle := 9, peer := 1, ctx := 0, va := 0x110000, remote := 0, len := 0x10000, perm := 3 }] }) 0x17 (hc [9, 0])), serves_spec (by decide +kernel), by decide +kernel, answer_calm 0 0 rfl (by decide +kernel)⟩,
    ⟨(hc [0x1000000, 0x10000]), (sv (st.modCtx 0 fun x => { x with pages := x.pages ++ [{ va := 0x1000000, size := 65536, target := .peer 1 0x20000, perm := 3 }] }) 0x17 (hc [0x1000000, 0x10000])), serves_spec (by decide +kernel), by decide +kernel, answer_calm 0 0 rfl (by decide +kernel)⟩⟩

theorem witness_FaultAndDebugCalls :
    (∃ (c : Call) (s : State), Serves 0x18 2 c s ∧ (s.callerFault c.caller true (c.arg 0)
      (128 * (((s.dev c.dev).records.filter fun p => s.mayName c p.2.ctx).take (c.arg 1)).length) = none ∧
      s.callerBusy c.caller (c.arg 0) (128 * (((s.dev c.dev).records.filter fun p => s.mayName c p.2.ctx).take (c.arg 1)).length) true = false) ∧
      ((fun s => s.callerWrite c.caller (c.arg 0) ((((s.dev c.dev).records.filter fun p => s.mayName c p.2.ctx).take (c.arg 1)).flatMap fun p => p.2.bytes p.1) : State → State) s).answerBusy c = false) ∧
    (∃ (c : Call) (r : FaultRec) (t : State) (s : State), Serves 0x19 2 c s ∧ ((s.dev c.dev).records.get? (c.arg 0) = some r ∧ c.arg 1 ≤ 2 ∧ s.mayName c r.ctx = true ∧ (s.freeRecord c.dev (c.arg 0)).resolve? (c.arg 0) (c.arg 1) r = some t) ∧
      ((fun _ => t.recordSpans : State → State) s).answerBusy c = false) ∧
    (∃ (c : Call) (r : FaultRec) (s : State), Serves 0x1A 1 c s ∧ ((s.dev c.dev).records.get? (c.arg 0) = some r ∧ s.mayName c r.ctx = true ∧ r.gridKey ≠ 0 ∧ ((s.grids.get? r.gridKey).any fun g => !g.complete) = true) ∧
      ((fun s =>
      let t := (s.abandonGrid r.gridKey 4).dropRecords c.dev fun q => q.gridKey == r.gridKey
      let t : State := { t with engines := t.engines.map fun e =>
        (e.1, e.2.filter fun x => !(x.2.faultRec.isSome && x.2.team.isSome && x.2.grid == r.gridKey)) }
      t.sweep.recordSpans : State → State) s).answerBusy c = false) ∧
    (∃ (c : Call) (s : State), Serves 0x1D 0 c s ∧ ((s.dev c.dev).debugger = none) ∧
      ((fun s => s.modDev c.dev fun v => { v with debugger := some ((s.dev c.dev).handleSeq + 1), handleSeq := (s.dev c.dev).handleSeq + 1 } : State → State) s).answerBusy c = false) ∧
    (∃ (c : Call) (s : State), Serves 0x1E 5 c s ∧ (s.handleErr c = none ∧ c.arg 1 = 0 ∧ c.arg 2 = 0 ∧ c.arg 3 = 0 ∧ c.arg 4 = 0) ∧
      ((fun s => (s.teams.filter fun p => p.2.ctx == c.ctx).foldl (fun s p => s.askHalt p.1 fun _ => true) s : State → State) s).answerBusy c = false) ∧
    (∃ (c : Call) (gk : Nat) (g : Grid) (s : State), Serves 0x1E 5 c s ∧ (s.handleErr c = none ∧ c.arg 1 = 1 ∧ c.arg 3 = 0 ∧ c.arg 4 = 0 ∧ s.gridNamed c.ctx (c.arg 2) = some (gk, g)) ∧
      ((fun s => (s.teams.filter fun p => p.2.grid == gk).foldl (fun s p => s.askHalt p.1 fun _ => true) s : State → State) s).answerBusy c = false) ∧
    (∃ (c : Call) (gk : Nat) (g : Grid) (u : State) (t : Nat) (s : State), Serves 0x1E 5 c s ∧ (s.handleErr c = none ∧ (c.arg 1 = 2 ∧ c.arg 4 = 0 ∨ c.arg 1 = 3) ∧ s.gridNamed c.ctx (c.arg 2) = some (gk, g) ∧
      c.arg 3 < g.teamCount ∧ c.arg 4 < 16 * g.waveCount ∧ s.findTeam gk g (c.arg 3) = .team u t) ∧
      ((fun _ => u.askHalt t fun w => c.arg 1 == 2 || w == c.arg 4 / 16 : State → State) s).answerBusy c = false) ∧
    (∃ (c : Call) (gk : Nat) (g : Grid) (u : State) (t : Nat) (wv : Wave) (s : State), Serves 0x1F 5 c s ∧ (s.handleErr c = none ∧ c.arg 1 = 4 ∧ s.gridNamed c.ctx (c.arg 2) = some (gk, g) ∧ c.arg 3 < g.teamCount ∧ c.arg 4 < g.waveCount ∧
      s.findTeam gk g (c.arg 3) = .team u t ∧ u.wave? t (c.arg 4) = some wv ∧ (∃ k ∈ wv.subs, k.2.park.isSome = false)) ∧
      ((fun _ => u.modWave t (c.arg 4) fun wv =>
      { wv with subs := wv.subs.map fun k => (k.1, if k.2.park.isSome then k.2 else { k.2 with stepping := 1 }) } : State → State) s).answerBusy c = false) ∧
    (∃ (c : Call) (u : State) (tb : List Byte) (t : Nat) (tm : Team) (wv : Wave) (s : State), Serves 0x20 5 c s ∧ (s.handleErr c = none ∧ c.arg 1 < 2 ∧ s.callerBusy c.caller (c.arg 2) 32 false = false ∧ State.callerRead c.caller (c.arg 2) 32 s = .ok (u, tb) ∧
      (let r := target1 tb
       debugSize (c.arg 1) r.cls (c.arg 4) ≤ c.arg 4 ∧ r.cls ≤ 8 ∧ u.callerFault c.caller true (c.arg 3) (debugSize (c.arg 1) r.cls (c.arg 4)) = none ∧
       u.callerBusy c.caller (c.arg 3) (debugSize (c.arg 1) r.cls (c.arg 4)) true = false ∧
       ((u.gridNamed c.ctx r.grid).bind fun g => u.teams.find? fun p => p.2.grid == g.1 && p.2.index == r.team) = some (t, tm) ∧
       tm.waves.get? r.wave = some wv ∧ r.ok (c.arg 1) tm = true ∧ wv.halted = true)) ∧
      ((fun _ => u.callerWrite c.caller (c.arg 3) (u.debugBytes (c.arg 1) (target1 tb) t tm wv) : State → State) s).answerBusy c = false) ∧
    (∃ (c : Call) (u u' v : State) (tb bs : List Byte) (t : Nat) (tm : Team) (wv : Wave) (s : State), Serves 0x21 5 c s ∧ (s.handleErr c = none ∧ c.arg 1 < 2 ∧ s.callerBusy c.caller (c.arg 2) 32 false = false ∧ State.callerRead c.caller (c.arg 2) 32 s = .ok (u, tb) ∧
      (let r := target1 tb
       debugSize (c.arg 1) r.cls (c.arg 4) ≤ c.arg 4 ∧ r.cls ≤ 8 ∧ u.callerFault c.caller false (c.arg 3) (debugSize (c.arg 1) r.cls (c.arg 4)) = none ∧
       u.callerBusy c.caller (c.arg 3) (debugSize (c.arg 1) r.cls (c.arg 4)) false = false ∧
       State.callerRead c.caller (c.arg 3) (debugSize (c.arg 1) r.cls (c.arg 4)) u = .ok (u', bs) ∧
       ((u'.gridNamed c.ctx r.grid).bind fun g => u'.teams.find? fun p => p.2.grid == g.1 && p.2.index == r.team) = some (t, tm) ∧
       tm.waves.get? r.wave = some wv ∧ r.ok (c.arg 1) tm = true ∧ wv.halted = true ∧ u'.debugWrite (c.arg 1) r t tm wv bs = some v)) ∧
      ((fun _ => v : State → State) s).answerBusy c = false) ∧
    (∃ (c : Call) (s : State), Serves 0x22 1 c s ∧ (s.handleErr c = none) ∧
      ((fun s => (s.modDev c.dev fun v => { v with debugger := none }).resumeWaves c.dev : State → State) s).answerBusy c = false) :=
  ⟨⟨(hc [0, 1]), (sv st 0x18 (hc [0, 1])), serves_spec (by decide +kernel), ⟨buffer_ok rfl rfl 0 0 _ _ _, callerBusy_calm (by decide +kernel) ..⟩, answer_calm 0 0 rfl (by decide +kernel)⟩,
    ⟨(hc [1, 2]), rec1, _, (sv (stRec 0) 0x19 (hc [1, 2])), serves_spec (by decide +kernel), ⟨rfl, by decide +kernel, by decide +kernel, rfl⟩, answer_calm 0 0 rfl (by decide +kernel)⟩,
    ⟨(hc [1]), { rec1 with gridKey := 3 }, (sv (stRec 3) 0x1A (hc [1])), serves_spec (by decide +kernel), ⟨rfl, by decide +kernel, by decide +kernel, by decide +kernel⟩, answer_calm 0 0 rfl (by decide +kernel)⟩,
    ⟨(hc []), ((sv st 0x1D (hc [])).modDev 0 fun v => { v with debugger := none }), serves_spec (by decide +kernel), rfl, answer_calm 0 0 rfl (by decide +kernel)⟩,
    ⟨(hc [7, 0, 0, 0, 0]), (sv st 0x1E (hc [7, 0, 0, 0, 0])), serves_spec (by decide +kernel), by decide +kernel, answer_calm 0 0 rfl (by decide +kernel)⟩,
    ⟨(hc [7, 1, 1, 0, 0]), 0, grid1, (sv st 0x1E (hc [7, 1, 1, 0, 0])), serves_spec (by decide +kernel), by decide +kernel, answer_calm 0 0 rfl (by decide +kernel)⟩,
    ⟨(hc [7, 3, 1, 0, 15]), 0, grid1, _, 0, (sv st 0x1E (hc [7, 3, 1, 0, 15])), serves_spec (by decide +kernel), ⟨by decide +kernel, by decide +kernel, rfl, by decide +kernel, by decide +kernel, rfl⟩, answer_calm 0 0 rfl (by decide +kernel)⟩,
    ⟨(hc [7, 4, 1, 0, 0]), 0, grid1, _, 0, wave1, (sv st 0x1F (hc [7, 4, 1, 0, 0])), serves_spec (by decide +kernel), ⟨by decide +kernel, by decide +kernel, rfl, by decide +kernel, by decide +kernel, rfl, rfl, (0, sub1), by decide +kernel, rfl⟩, answer_calm 0 0 rfl (by decide +kernel)⟩,
    by
    obtain ⟨b, hb⟩ := apart_some
    have ha : (hc [7, 1, BitVec.ofNat 64 (64 * b), 0, 72]).arg 2 = 64 * b := held_arg hb
    have hz : bare (hostSt (sv0 stHalt) b [1]) = true := by rfl
    refine ⟨hc [7, 1, BitVec.ofNat 64 (64 * b), 0, 72], hostSt (sv0 stHalt) b [1], (List.range 32).map fun i => (([1] : List Byte)[i]?).getD 0,
      0, _, { wave1 with halted := true }, hostSt (sv0 stHalt) b [1], serves_spec (by rfl), ⟨by rfl, by show (1 : Nat) < 2; decide,
        callerBusy_calm (bare_calm hz) .., ?_, ?_, ?_, ?_, callerBusy_calm (bare_calm hz) .., by rfl, by rfl, by rfl, rfl⟩, answer_bare 0 0 rfl hz _ _⟩
    · rw [ha]; exact read_held hb [1] rfl 32 (by decide)
    · show debugSize 1 0 72 ≤ 72; decide
    · show (0 : Nat) ≤ 8; decide
    · exact buffer_ok rfl rfl 0 0 _ _ _,
    by
    obtain ⟨b, hb⟩ := apart_some
    have ha : (hc [7, 1, BitVec.ofNat 64 (64 * b), BitVec.ofNat 64 (64 * b), 72]).arg 2 = 64 * b := held_arg hb
    have ha' : (hc [7, 1, BitVec.ofNat 64 (64 * b), BitVec.ofNat 64 (64 * b), 72]).arg 3 = 64 * b := held_arg hb
    have hz : bare (hostSt (sv0 stHalt) b [1]) = true := by rfl
    refine ⟨hc [7, 1, BitVec.ofNat 64 (64 * b), BitVec.ofNat 64 (64 * b), 72], hostSt (sv0 stHalt) b [1], hostSt (sv0 stHalt) b [1], _,
      (List.range 32).map fun i => (([1] : List Byte)[i]?).getD 0, (List.range 72).map fun i => (([1] : List Byte)[i]?).getD 0,
      0, _, { wave1 with halted := true }, hostSt (sv0 stHalt) b [1], serves_spec (by rfl), ⟨by rfl, by show (1 : Nat) < 2; decide,
      callerBusy_calm (bare_calm hz) .., ?_, ?_, ?_, ?_, callerBusy_calm (bare_calm hz) .., ?_,
      by rfl, by rfl, by rfl, rfl, by rfl⟩, answer_calm 0 0 rfl (by rfl)⟩
    · rw [ha]; exact read_held hb [1] rfl 32 (by decide)
    · show debugSize 1 0 72 ≤ 72; decide
    · show (0 : Nat) ≤ 8; decide
    · exact buffer_ok rfl rfl 0 0 _ _ _
    · rw [ha']; exact read_held hb [1] rfl 72 (by decide),
    ⟨(hc [7]), (sv st 0x22 (hc [7])), serves_spec (by decide +kernel), rfl, answer_calm 0 0 rfl (by decide +kernel)⟩⟩

theorem witness_AdminCalls :
    (∃ (c : Call) (s : State), Serves 0x23 1 c s ∧ (c.arg 0 ≠ 0xFFFF ∧ c.arg 0 < 768 ∧ s.devOfCore (c.arg 0) = c.dev) ∧
      ((fun s => s : State → State) s).answerBusy c = false) ∧
    (∃ (c : Call) (b : BankRef) (s : State), Serves 0x24 3 c s ∧ (s.bankNamed c = some b ∧ s.retired b = false)) ∧
    (∃ (c : Call) (s : State), Serves 0x25 3 c s ∧ (s.callerFault c.caller true (c.arg 0) (64 * ((s.pkg.log.filter fun e => decide (c.arg 2 ≤ e.seq) && s.sees c e).take (c.arg 1)).length) = none ∧
      s.callerBusy c.caller (c.arg 0) (64 * ((s.pkg.log.filter fun e => decide (c.arg 2 ≤ e.seq) && s.sees c e).take (c.arg 1)).length) true = false) ∧
      ((fun s => s.callerWrite c.caller (c.arg 0) (((s.pkg.log.filter fun e => decide (c.arg 2 ≤ e.seq) && s.sees c e).take (c.arg 1)).flatMap LogEntry.bytes) : State → State) s).answerBusy c = false) ∧
    (∃ (c : Call) (s : State), Serves 0x26 1 c s ∧ (c.arg 0 = 2 ^ 64 - 1) ∧
      ((fun s =>
      let bank (e : BankErr) : BankErr := if s.bankDev e.b ≠ c.dev then e else { e with corrected := 0, uncorrected := 0 }
      let core (k : Core) : Core := { k with rollbacks := 0, undersized := 0, mismatches := 0 }
      let link (l : Nat) (k : Link) : Link := if s.devOfFnd (linkFnd l) == c.dev then { k with slowCount := 0 } else k
      { s with
        pkg := { s.pkg with banks := s.pkg.banks.map bank }
        cores := s.cores.map fun k => (k.1, if s.devOfCore k.1 = c.dev then core k.2 else k.2)
        links := s.links.mapAll link } : State → State) s).answerBusy c = false) ∧
    (∃ (c : Call) (s : State), Serves 0x27 1 c s ∧ (c.arg 0 < 16 ∧ s.devOfFnd (c.arg 0 / 4) = c.dev) ∧
      ((fun s => s.declareDead (.compute (c.arg 0)) 1 : State → State) s).answerBusy c = false) ∧
    (∃ (c : Call) (s : State), Serves 0x27 1 c s ∧ (16 ≤ c.arg 0 ∧ c.arg 0 < 20 ∧ s.devOfFnd (c.arg 0 - 16) = c.dev) ∧
      ((fun s => s.declareDead (.foundation (c.arg 0 - 16)) 1 : State → State) s).answerBusy c = false) ∧
    (∃ (c : Call) (s : State), Serves 0x28 2 c s ∧ (s.svcTime ≤ (s.dev c.dev).lapse) ∧
      ((fun s => (s.modDev c.dev fun v => { v with
      baton := .held (hostPort c), leaseStart := s.svcTime
      period := if c.arg 0 = 0 then v.period else c.arg 0
      window := if c.arg 1 = 0 then v.window else c.arg 1 }).deliverHeld c.dev (hostPort c) : State → State) s).answerBusy c = false) ∧
    (∃ (c : Call) (s : State), Serves 0x29 0 c s ∧
      ((fun s => s.openBaton c.dev s.svcTime : State → State) s).answerBusy c = false) ∧
    (∃ (c : Call) (s : State), Serves 0x2A 0 c s ∧ ((s.dev c.dev).baton = .opened) ∧
      ((fun s => s.holderChange c.dev (hostPort c) : State → State) s).answerBusy c = false) ∧
    (∃ (c : Call) (s : State), Serves 0x2A 0 c s ∧ ((s.dev c.dev).baton = .gone) ∧
      ((fun s => (s.wakeQueues c.dev).holderChange c.dev (hostPort c) : State → State) s).answerBusy c = false) ∧
    (∃ (c : Call) (t : State) (nonce : List Byte) (s : State), Serves 0x2B 2 c s ∧ (s.callerBusy c.caller (c.arg 0) 48 false = false ∧ State.callerRead c.caller (c.arg 0) 48 s = .ok (t, nonce) ∧
      t.callerFault c.caller true (c.arg 1) 16864 = none ∧ t.callerBusy c.caller (c.arg 1) 16864 true = false) ∧
      ((fun _ => t.callerWrite c.caller (c.arg 1) (t.quote c.dev nonce) : State → State) s).answerBusy c = false) ∧
    (∃ (c : Call) (t : State) (bs : List Byte) (s : State), Serves 0x2C 2 c s ∧ (0x4200 ≤ c.arg 1 ∧ c.arg 1 ≤ 0x4200 + 8388608 ∧ s.callerBusy c.caller (c.arg 0) (c.arg 1) false = false ∧
      State.callerRead c.caller (c.arg 0) (c.arg 1) s = .ok (t, bs) ∧
      bs.take 4 = [0x4B, 0x47, 0x46, 0x57] ∧ (fieldAt bs 4 4 = 1 ∨ fieldAt bs 4 4 = 2) ∧ fieldAt bs 0x14 4 + 0x4200 = c.arg 1 ∧
      (((bs.drop 0x48).take 184).all fun b => b == 0) = true ∧ (((bs.drop 0x41E0).take 32).all fun b => b == 0) = true ∧
      (t.pkg.fw (fieldAt bs 4 4)).checking = none)) ∧
    (∃ (c : Call) (n : Nat) (i : Image) (s : State), Serves 0x2D 1 c s ∧ ((c.arg 0 = 1 ∨ c.arg 0 = 2) ∧ (s.pkg.fw (c.arg 0)).staged = some n ∧ ((s.pkg.fw (c.arg 0)).slots[n]?).getD none = some i ∧
      s.pkg.staging = []) ∧
      ((fun s =>
      let t : State := (s.modFw (c.arg 0) fun f => { f with
        active := n, staged := none, minSvn := max f.minSvn i.svn, running := if c.arg 0 = 2 then some i else f.running }).writeRecord
      if c.arg 0 = 2 then { t with pkg := { t.pkg with policyRunning := true, policyRestarts := [] } } else t : State → State) s).answerBusy c = false) ∧
    (∃ (c : Call) (s : State), Serves 0x2E 3 c s ∧ ((c.arg 0 < 4 ∨ 128 ≤ c.arg 0 ∧ c.arg 0 < 132) ∧ teleSize (c.arg 0) ≤ c.arg 2 ∧
      s.callerFault c.caller true (c.arg 1) (teleSize (c.arg 0)) = none ∧ s.callerBusy c.caller (c.arg 1) (teleSize (c.arg 0)) true = false) ∧
      ((fun s => (s.callerWrite c.caller (c.arg 1) (s.teleRecord c (c.arg 0))).bump : State → State) s).answerBusy c = false) ∧
    (∃ (c : Call) (s : State), Serves 0x2F 1 c s ∧ (1200 ≤ c.arg 0 ∧ c.arg 0 ≤ 3600) ∧
      ((fun s => { s with pkg := { s.pkg with cap := c.arg 0 } } : State → State) s).answerBusy c = false) ∧
    (∃ (c : Call) (s : State), Serves 0x30 2 c s ∧ (c.arg 1 = 0 ∧ s.callerFault c.caller true (c.arg 0) 16384 = none ∧ s.callerBusy c.caller (c.arg 0) 16384 true = false) ∧
      ((fun s => s.callerWrite c.caller (c.arg 0) (s.summary c.dev (hostPort c)) : State → State) s).answerBusy c = false) :=
  ⟨⟨(hc [767]), (sv st 0x23 (hc [767])), serves_spec (by decide +kernel), by decide +kernel, answer_calm 0 0 rfl (by decide +kernel)⟩,
    ⟨(hc [0, 767, 32]), ⟨.pool, 767, 32⟩, (sv st 0x24 (hc [0, 767, 32])), serves_spec (by decide +kernel), by decide +kernel⟩,
    ⟨(hc [0, 1, 0]), (sv st 0x25 (hc [0, 1, 0])), serves_spec (by decide +kernel), ⟨buffer_ok rfl rfl 0 0 _ _ _, callerBusy_calm (by decide +kernel) ..⟩, answer_calm 0 0 rfl (by decide +kernel)⟩,
    ⟨(hc [0xFFFFFFFFFFFFFFFF]), (sv st 0x26 (hc [0xFFFFFFFFFFFFFFFF])), serves_spec (by decide +kernel), by decide +kernel, answer_calm 0 0 rfl (by decide +kernel)⟩,
    ⟨(hc [15]), (sv st 0x27 (hc [15])), serves_spec (by decide +kernel), by decide +kernel, answer_calm 0 0 rfl (by decide +kernel)⟩,
    ⟨(hc [19]), (sv st 0x27 (hc [19])), serves_spec (by decide +kernel), by decide +kernel, answer_calm 0 0 rfl (by decide +kernel)⟩,
    ⟨(hc [0, 0]), (sv st 0x28 (hc [0, 0])), serves_spec (by decide +kernel), by decide +kernel, answer_calm 0 0 rfl (by decide +kernel)⟩,
    ⟨(hc []), (sv st 0x29 (hc [])), serves_spec (by decide +kernel), answer_calm 0 0 rfl (by decide +kernel)⟩,
    ⟨(hc []), ((sv st 0x2A (hc [])).modDev 0 fun v => { v with baton := .opened }), serves_spec (by decide +kernel), rfl, answer_calm 0 0 rfl (by decide +kernel)⟩,
    ⟨(hc []), ((sv st 0x2A (hc [])).modDev 0 fun v => { v with baton := .gone }), serves_spec (by decide +kernel), rfl, answer_calm 0 0 rfl (by decide +kernel)⟩,
    by
    obtain ⟨b, hb⟩ := apart_some
    have ha : (hc [BitVec.ofNat 64 (64 * b), 0]).arg 0 = 64 * b := held_arg hb
    have hz : bare (hostSt (sv0 stHalt) b [7]) = true := by rfl
    refine ⟨hc [BitVec.ofNat 64 (64 * b), 0], hostSt (sv0 stHalt) b [7], (List.range 48).map fun i => (([7] : List Byte)[i]?).getD 0, hostSt (sv0 stHalt) b [7],
      serves_spec (by rfl), ⟨callerBusy_calm (bare_calm hz) .., ?_, buffer_ok rfl rfl 0 0 _ _ _, callerBusy_calm (bare_calm hz) ..⟩, answer_bare 0 0 rfl hz _ _⟩
    rw [ha]; exact read_held hb [7] rfl 48 (by decide),
    by
    obtain ⟨b, hb⟩ := apart_some
    have ha : (hc [BitVec.ofNat 64 (64 * b), 0x4200]).arg 0 = 64 * b := held_arg hb
    have ha' : (hc [BitVec.ofNat 64 (64 * b), 0x4200]).arg 1 = 0x4200 := rfl
    have hf : fieldAt ((List.range 0x4200).map fun i => (([0x4B, 0x47, 0x46, 0x57, 1] : List Byte)[i]?).getD 0) 4 4 = 1 := by decide +kernel
    have hz : bare (hostSt (sv0 stHalt) b [0x4B, 0x47, 0x46, 0x57, 1]) = true := by rfl
    refine ⟨hc [BitVec.ofNat 64 (64 * b), 0x4200], hostSt (sv0 stHalt) b [0x4B, 0x47, 0x46, 0x57, 1], (List.range 0x4200).map fun i => (([0x4B, 0x47, 0x46, 0x57, 1] : List Byte)[i]?).getD 0,
      hostSt (sv0 stHalt) b [0x4B, 0x47, 0x46, 0x57, 1], serves_spec (by rfl), ?_, ?_, callerBusy_calm (bare_calm hz) .., ?_, by decide +kernel, Or.inl hf, ?_, by decide +kernel, by decide +kernel, ?_⟩
    · rw [ha']
    · rw [ha']; decide
    · rw [ha, ha']; exact read_held hb _ rfl 0x4200 (by decide)
    · rw [ha']; decide +kernel
    · rw [hf]; rfl,
    ⟨(hc [2]), 1, image1, (sv (st.modFw 2 fun f => { f with staged := some 1, slots := [none, some image1] }) 0x2D (hc [2])), serves_spec (by decide +kernel), ⟨Or.inr rfl, rfl, rfl, rfl⟩, answer_calm 0 0 rfl (by decide +kernel)⟩,
    ⟨(hc [131, 0, 2048]), (sv stHalt 0x2E (hc [131, 0, 2048])), serves_spec (by decide +kernel), ⟨by decide +kernel, by decide +kernel, buffer_ok rfl rfl 0 0 _ _ _, callerBusy_calm (by decide +kernel) ..⟩, answer_bare_bump 0 0 rfl (by decide +kernel) _ _⟩,
    ⟨(hc [3600]), (sv st 0x2F (hc [3600])), serves_spec (by decide +kernel), by decide +kernel, answer_calm 0 0 rfl (by decide +kernel)⟩,
    ⟨(hc [0, 0]), (sv stHalt 0x30 (hc [0, 0])), serves_spec (by decide +kernel), ⟨rfl, buffer_ok rfl rfl 0 0 _ _ _, callerBusy_calm (by decide +kernel) ..⟩, answer_bare 0 0 rfl (by decide +kernel) _ _⟩⟩

/-! ## Events -/

/-- A clause of one SYNC-free instruction in the code page: a header of class 0 and IADD.N32 v4 = v1 + v2 with saturation. -/
def stCode : State := { st with mem := put st.mem 0 [0, rword 0x000 4 1 2 0 0x11] }

/-- The state with every LTIME at a time. -/
def late (n : Nat) : State := { st with fdies := List.replicate 4 { ltime := BitVec.ofNat 64 n } }
/-- A span of the whole grid. -/
def span1 : Span := { grid := 0, ctx := 0, box := ⟨0, 1, 0, 1, 0, 1⟩, pc := 0x100000 }
/-- A cursor over it. -/
def cursor1 : Cursor := { span := span1, age := 1 }
/-- The sub-wave at a clause boundary. -/
def idle1 : SubWave := { pc := 0x100000, mask := 1 }
/-- The state in mode P4 with a cursor over a grid. -/
def stCur (c : Cursor) (g : Grid) : State := { st with pkg := { st.pkg with mode := 2 }, cursors := [(0, c)], grids := [(0, g)], teams := [] }
/-- A team is placed there. -/
def isAt (p : Place) (core base : Nat) (keep : Bool) : Bool :=
  match p with
  | .at_ c b k => c == core && b == base && k == keep
  | _ => false
theorem isAt_spec {p : Place} {core base : Nat} {keep : Bool} (h : isAt p core base keep = true) : p = .at_ core base keep := by
  cases p with
  | at_ c b k => simp only [isAt, Bool.and_eq_true, beq_iff_eq] at h; rw [h.1.1, h.1.2, h.2]
  | _ => cases h
/-- A team waits for its core. -/
def isWait (p : Place) : Bool :=
  match p with
  | .wait => true
  | _ => false
theorem isWait_spec {p : Place} (h : isWait p = true) : p = .wait := by cases p <;> first | rfl | cases h
/-- A core without registers that holds a retained entry of context 0. -/
def fullCore : Core := { capReg := { amount := 0 }, entries := [(0, { ent with st := .retained })] }

/-- An attempt that traps. -/
def gotTrap {α : Type} (r : Got α) (P : State → Trap → Bool) : Bool :=
  match r with
  | .trap s a => P s a
  | _ => false
theorem of_gotTrap {α : Type} {r : Got α} {P : State → Trap → Bool} (h : gotTrap r P = true) : ∃ t x, r = .trap t x ∧ P t x = true := by
  cases r with
  | trap s a => exact ⟨s, a, rfl, h⟩
  | _ => cases h
/-- An MMA of one K-step in a queue, with its first operands in the team window. -/
def queued (p : Progress) : Machine.Mma := { (mmaOf mma1 st ex1 1) with prog := p }
def stM (p : Progress) : State := { st with teams := [(0, { team1 with mmas := [(0, queued p)], seq := 1 })] }
/-- A move between a tile and the first 64 KiB of the team window. -/
def stMove (froms : Bool) : State :=
  { st with teams := [(0, { team1 with seq := 1, moves := [(0, { op := .mov froms .f32 .rne 0 0 1024, flight := (0, 0), pc := 0x100008, items := [] })] })] }
/-- The state with a map entry at the start of the team window whose memory is not mapped. -/
def unmapped (s : State) : State := { s with cores := s.cores.set 0 { s.core 0 with entries := [(0, { ent with lo := 0, base := 0x5000000 })] } }
/-- A copy of 16 bytes on tag 5 that is served, with what is still to be moved. -/
def stCopy (l : List Move) : State :=
  { st with teams := [(0, { team1 with
    tags := team1.tags.set 5 .busy
    copies := [(5, { opc := 0x300, w := 1, scope := .pkg, cvals := [16, 0], counter := 0, waves := [0], ready := some 1, moves := l })] })] }
/-- 16 bytes from the data page to the team window. -/
def move1 : Move := ⟨.addr 0x110000, windowBase, 16, 0, 0⟩
/-- A flight of a kind. -/
def flight1 (k : FlightKind) : Flight :=
  { born := 0, cycle := 0, lat := .fixed 4, kind := k, lanes := 1, depth := 0, regs := [], preds := [], flag := some 0 }
/-- The wave with one flight. -/
def stFly (k : FlightKind) : State :=
  { st with cycle := 256, teams := [(0, { team1 with waves := [(0, { wave1 with flights := [(0, flight1 k)] })] })] }
/-- The sub-wave held at an instruction. -/
def heldAt (i : Instr) (k : HoldKind) : SubWave :=
  { sub1 with clause := some { cl with slots := [⟨0, i⟩] }, hold := some { kind := k, lanes := 1, aux := 5, deadline := some 0 } }
def stHeld (i : Instr) (k : HoldKind) : State := st2 (heldAt i k) [] []
/-- Held with no lane released yet. -/
def heldFrom (i : Instr) (k : HoldKind) : SubWave := { heldAt i k with hold := some { kind := k, lanes := 1, aux := 0, deadline := some 0, src := [(0, (ex1.lane (U i) 0).src.map fun x => (x, false))] } }
def wv1 : Waitv := ⟨h, .n32, v 8, v 12, ⟨false, 32⟩⟩
def cw1 : Cntwait := ⟨h, .pkg, dk 4, n 42, n 32, n 33⟩

/-- The state with a sector of core 0 under a map entry. -/
def stSec (x : SecState) (e : MapEntry) : State :=
  { st with cores := st.cores.set 0 { st.core 0 with entries := [(0, e)], sectors := [(128, { st := x, entry := 0 })] } }
/-- A vent of core 0's register pool, of slice 5 and of channel 2 of stack 1. -/
def ventP : Vent := { b := ⟨.pool, 0, 3⟩ }
def ventL : Vent := { b := ⟨.l2, 5, 0⟩, started := true, total := 2 }
def ventH : Vent := { b := ⟨.hbm, 1, 2⟩ }
/-- The state with the vents of the package. -/
def stVents (l : List Vent) : State := { st with pkg := { st.pkg with l2Vents := l } }
/-- The state with the directory entry of the data page's first line. -/
def stDir (e : DirEntry) : State := { st with dir := [e] }
def line0 : LineRef := ⟨0, 0, 0x4400⟩
/-- Host port 0 holds the line in E and its home recalls it. -/
def heldE : DirEntry := { busy with holders := [(⟨784, 3⟩, .e)] }
/-- The home recalls the line from core 1. -/
def recalls (write : Bool) (hs : List (Holder × HState)) : DirEntry :=
  { line := line0, holders := hs, txn := some { req := { src := none, who := none, write := write }, acks := [⟨1, 0⟩] } }
/-- A queue whose ring is at 0x114000, with one command, of the given words. -/
def ringQ : Queue := { queue1 with ring := 0x114000, tail := 1 }
def stCmd (q : Queue) (ws : List Nat) : State := { st with queues := [(0, q)], mem := put st.mem 0x14000 ws }
/-- The next command meets a test. -/
def nexts (s : State) (P : Queue → State → Command → Bool) : Bool :=
  match s.nextCmd 0 with
  | some (q, .ok (t, c)) => P q t c
  | _ => false
theorem of_nexts {s : State} {P : Queue → State → Command → Bool} (h : nexts s P = true) :
    ∃ q t c, s.nextCmd 0 = some (q, .ok (t, c)) ∧ P q t c = true := by
  unfold nexts at h
  split at h
  · rename_i q t c h1; exact ⟨q, t, c, h1, h⟩
  · cases h
/-- A read succeeds and meets a test. -/
def oks {α β : Type} (r : Except α β) (P : β → Bool) : Bool :=
  match r with
  | .ok b => P b
  | .error _ => false
theorem of_oks {α β : Type} {r : Except α β} {P : β → Bool} (h : oks r P = true) : ∃ b, r = .ok b ∧ P b = true := by
  cases r with
  | ok b => exact ⟨b, rfl, h⟩
  | error _ => cases h
/-- It fails. -/
def errs {α β : Type} (r : Except α β) : Bool :=
  match r with
  | .ok _ => false
  | .error _ => true
theorem of_errs {α β : Type} {r : Except α β} (h : errs r = true) : ∃ e, r = .error e := by
  cases r with
  | ok b => cases h
  | error e => exact ⟨e, rfl⟩
/-- A command that moves 16 bytes in the data page, at an offset. -/
def xfer1 (off : Nat) : Xfer :=
  { ctx := 0, src := 0x110000, dst := 0x110100, len := 16, counter := 0x110600, scope := .pkg, order := 0, off := off }
def stX (x : Xfer) : State := { st with engines := [(0, [(0, x)])] }
/-- The state with a link of the package. -/
def stLink (k : Link) (t : Nat) : State := { late t with links := [(0, k)] }
/-- Device 0 exports the data page and the doorbell of queue 0 to peer 1. -/
def stExp : State :=
  ({ st with queues := [(0, queue1)] } : State).modDev 0 fun v => { v with
    exports := [{ handle := 9, peer := 1, ctx := 0, va := 0x110000, remote := 0, len := 0x10000, perm := 3 },
                { handle := 8, peer := 1, ctx := 0, va := doorBase, remote := 0, len := 0x10000, perm := 3 }] }
/-- The state with a part of the package replaced. -/
def stP (f : Package → Package) (s : State) : State := { s with pkg := f s.pkg }
/-- A pre-emption with FW_STAGE of an image that passes or fails. -/
def stStage (v : Nat) : State :=
  (stP (fun p => { p with staging := [(hc [], 0)] }) st).modFw 0 fun f => { f with checking := some (image1, v) }

theorem witness_SchedulingEvents :
    (∃ (core port : Nat) (c : Cand) (s : State), s.coreUp core = true ∧ s.portFree core port = true ∧ s.bestOn core port = some c) ∧
    (∃ (t w k : Nat) (e : Ex) (g : Grid) (c : Clause) (u : State) (s : State), s.ex? t w k = some e ∧ s.grids.get? e.team.grid = some g ∧ e.team.state = .resident ∧ e.sub.clause = none ∧
    e.sub.park = none ∧ e.sub.hold = none ∧ s.clauseAt g e.sub.pc = .ok c ∧ s.obtainCode e.team.core (s.codeLines g.ctx c) = (u, true)) ∧
    (∃ (t w k pc : Nat) (e : Ex) (g : Grid) (r : Trap) (s : State), s.ex? t w k = some e ∧ s.grids.get? e.team.grid = some g ∧ e.team.state = .resident ∧ e.sub.clause = none ∧
    e.sub.park = none ∧ e.sub.hold = none ∧ s.clauseAt g e.sub.pc = .error (pc, r)) ∧
    (∃ (n core k : Nat) (sp : Span) (g : Grid) (c : Clause) (u : State) (s : State), s.spans.get? n = some sp ∧ s.grids.get? sp.grid = some g ∧ sp.state = .running core k ∧ sp.clause = none ∧
    s.clauseAt g sp.pc = .ok c ∧ s.obtainCode core (s.codeLines g.ctx c) = (u, true)) ∧
    (∃ (cursor pos core base : Nat) (c : Cursor) (g : Grid) (keep : Bool) (s : State), ((s.cursors.get? cursor).bind fun c => (s.grids.get? c.span.grid).bind fun g => c.next.map fun p => (c, g, p)) = some (c, g, pos) ∧
    s.placing g.ctx = true ∧ g.stopped = false ∧ s.hopeless g = false ∧
    s.place (c.needs g pos) (g.linear (c.span.box.at_ pos).1 (c.span.box.at_ pos).2.1 (c.span.box.at_ pos).2.2)
      ((c.affUntil.map fun d => decide (s.devTime (s.ctxDev g.ctx) < d)).getD true) = .at_ core base keep) ∧
    (∃ (cursor pos : Nat) (c : Cursor) (g : Grid) (s : State), ((s.cursors.get? cursor).bind fun c => (s.grids.get? c.span.grid).bind fun g => c.next.map fun p => (c, g, p)) = some (c, g, pos) ∧
    s.placing g.ctx = true ∧ g.stopped = false ∧ s.hopeless g = false ∧
    s.place (c.needs g pos) (g.linear (c.span.box.at_ pos).1 (c.span.box.at_ pos).2.1 (c.span.box.at_ pos).2.2)
      ((c.affUntil.map fun d => decide (s.devTime (s.ctxDev g.ctx) < d)).getD true) = .wait) ∧
    (∃ (cursor pos core base d : Nat) (c : Cursor) (g : Grid) (keep : Bool) (s : State), s.cursors.get? cursor = some c ∧ c.affUntil = some d ∧ s.grids.get? c.span.grid = some g ∧
    d ≤ s.devTime (s.ctxDev g.ctx) ∧ c.next = some pos ∧ s.placing g.ctx = true ∧ g.stopped = false ∧ s.hopeless g = false ∧
    s.place (c.needs g pos) (g.linear (c.span.box.at_ pos).1 (c.span.box.at_ pos).2.1 (c.span.box.at_ pos).2.2) false = .at_ core base keep) ∧
    (∃ (span pc since : Nat) (sp : Span) (s : State), s.spans.get? span = some sp ∧ sp.state = .parkedJoin pc since ∧ since + 256 ≤ s.devTime (s.ctxDev sp.ctx)) ∧
    (∃ (span f c k : Nat) (sp : Span) (r : List Nat) (s : State), s.spans.get? span = some sp ∧ sp.state = .ready ∧ sp.cached = some f ∧ s.placing sp.ctx = true ∧
    (let able := (s.coresOf (s.ctxDev sp.ctx)).filter fun c => s.coreUp c && ((s.core c).freeSlot).isSome
     let near := able.filter fun c => fndOf c == f
     (if near.isEmpty then able else near) = c :: r) ∧
    (let load (c : Nat) : Nat := ((s.core c).slots.filter fun x => x.isSome).length
     (s.core (r.foldl (fun b c => if load c < load b then c else b) c)).freeSlot = some k)) ∧
    (∃ (span d : Nat) (sp : Span) (r : List Nat) (t : State) (s : State), s.spans.get? span = some sp ∧ sp.cached = none ∧
    (((List.range (fndsPer s.pkg.mode)).map fun i => fndsPer s.pkg.mode * s.ctxDev sp.ctx + i).filter fun f => (s.fdie f).inService) = d :: r ∧
    State.recordRoomFor (r.foldl (fun b f => if s.recordsAt f < s.recordsAt b then f else b) d) sp.records 1024 s = some t) ∧
    (∃ (team since core base : Nat) (tm : Team) (g : Grid) (keep : Bool) (s : State), s.teams.get? team = some tm ∧ s.grids.get? tm.grid = some g ∧ tm.state = .swapped since ∧ s.placing tm.ctx = true ∧ g.stopped = false ∧
    s.hopeless g = false ∧ s.place (tm.needs g) tm.index (tm.patient (s.devTime (s.ctxDev tm.ctx))) = .at_ core base keep) ∧
    (∃ (team since : Nat) (tm : Team) (g : Grid) (s : State), s.teams.get? team = some tm ∧ s.grids.get? tm.grid = some g ∧ tm.state = .swapped since ∧ s.placing tm.ctx = true ∧ g.stopped = false ∧
    s.hopeless g = false ∧ s.place (tm.needs g) tm.index (tm.patient (s.devTime (s.ctxDev tm.ctx))) = .wait) ∧
    (∃ (grid : Nat) (g : Grid) (s : State), s.grids.get? grid = some g ∧ s.gridOver grid g = true ∧ s.unitBusy g.ctx (g.record + 0x28) true = false ∧
    (g.signal = 0 ∨ s.unitBusy g.ctx g.signal true = false)) ∧
    (∃ (team wave depth : Nat) (tm : Team) (w : Wave) (s : State), s.teams.get? team = some tm ∧ tm.waves.get? wave = some w ∧ tm.state = .resident) ∧
    (∃ (team wave : Nat) (tm : Team) (s : State), s.teams.get? team = some tm ∧ tm.state = .resident) ∧
    (∃ (team wave sub c p : Nat) (e : Ex) (s : State), s.ex? team wave sub = some e ∧ e.sub.yieldTo = some (c, p) ∧ c ≤ s.cycle) :=
  ⟨⟨0, 0, _, st2 { sub1 with started := false } [] [], ⟨by decide +kernel, by decide +kernel, (Option.some_get (by decide +kernel)).symm⟩⟩,
    (by
    obtain ⟨c, h1, h2⟩ := of_excOk (P := fun c => (({ stCode with teams := [(0, { team1 with waves := [(0, wave2 idle1 [] [])] })] } : State).obtainCode 0 (({ stCode with teams := [(0, { team1 with waves := [(0, wave2 idle1 [] [])] })] } : State).codeLines 0 c)).2)
      (show excOk (({ stCode with teams := [(0, { team1 with waves := [(0, wave2 idle1 [] [])] })] } : State).clauseAt grid1 0x100000) _ = true by decide +kernel)
    exact ⟨0, 0, 0, _, grid1, c, _, { stCode with teams := [(0, { team1 with waves := [(0, wave2 idle1 [] [])] })] }, rfl, rfl, rfl, rfl, rfl, rfl, h1, Prod.ext rfl h2⟩),
    (⟨0, 0, 0, 0x100038, ex2 { idle1 with pc := 0x100040 } [] [], grid1, { cause := cBadTarget, addr := 0x100040 }, st2 { idle1 with pc := 0x100040 } [] [], rfl, rfl, rfl, rfl, rfl, rfl, by rfl⟩),
    (by
    obtain ⟨c, h1, h2⟩ := of_excOk (P := fun c => (({ stCode with spans := [(0, { span1 with state := .running 0 0 })] } : State).obtainCode 0 (({ stCode with spans := [(0, { span1 with state := .running 0 0 })] } : State).codeLines 0 c)).2)
      (show excOk (({ stCode with spans := [(0, { span1 with state := .running 0 0 })] } : State).clauseAt grid1 0x100000) _ = true by decide +kernel)
    exact ⟨0, 0, 0, _, grid1, c, _, { stCode with spans := [(0, { span1 with state := .running 0 0 })] }, rfl, rfl, rfl, rfl, h1, Prod.ext rfl h2⟩),
    ⟨0, 0, 0, 0, cursor1, grid1, false, stCur cursor1 grid1, ⟨rfl, by decide +kernel, by decide +kernel, by decide +kernel, isAt_spec (by decide +kernel)⟩⟩,
    ⟨0, 0, cursor1, { grid1 with affinity := true }, { stCur cursor1 { grid1 with affinity := true } with cores := [(0, fullCore)] }, ⟨rfl, by decide +kernel, by decide +kernel, by decide +kernel, isWait_spec (by decide +kernel)⟩⟩,
    ⟨0, 0, 0, 0, 0, { cursor1 with affUntil := some 0 }, grid1, false, stCur { cursor1 with affUntil := some 0 } grid1, ⟨rfl, rfl, rfl, by decide +kernel, rfl, by decide +kernel, by decide +kernel, by decide +kernel, isAt_spec (by decide +kernel)⟩⟩,
    ⟨0, 0x100000, 0, { span1 with state := .parkedJoin 0x100000 0 }, { late 256 with spans := [(0, { span1 with state := .parkedJoin 0x100000 0 })] }, by decide +kernel⟩,
    ⟨0, 0, 0, 0, { span1 with cached := some 0 }, (List.range 191).map fun i => i + 1, { stCur cursor1 grid1 with spans := [(0, { span1 with cached := some 0 })] }, by decide +kernel⟩,
    ⟨0, 0, span1, [1, 2, 3], _, { st with spans := [(0, span1)] }, ⟨rfl, rfl, by decide +kernel, (Option.some_get (by decide +kernel)).symm⟩⟩,
    ⟨0, 0, 0, 0, { team1 with state := .swapped 0 }, grid1, false, { stCur cursor1 grid1 with teams := [(0, { team1 with state := .swapped 0 })] }, ⟨rfl, rfl, rfl, by decide +kernel, by decide +kernel, by decide +kernel, isAt_spec (by decide +kernel)⟩⟩,
    ⟨0, 0, { team1 with state := .swapped 0 }, { grid1 with affinity := true }, { stCur cursor1 { grid1 with affinity := true } with cores := [(0, fullCore)], teams := [(0, { team1 with state := .swapped 0 })] }, ⟨rfl, rfl, rfl, by decide +kernel, by decide +kernel, by decide +kernel, isWait_spec (by decide +kernel)⟩⟩,
    ⟨0, { grid1 with retired := 1, gx := 1 }, { st with grids := [(0, { grid1 with retired := 1, gx := 1 })], teams := [] }, by decide +kernel⟩,
    ⟨0, 0, 63, team1, wave1, st, ⟨rfl, rfl, rfl⟩⟩,
    ⟨0, 0, team1, st, ⟨rfl, rfl⟩⟩,
    ⟨0, 0, 0, 32, 0, ex2 { sub1 with yieldTo := some (32, 0) } [] [], { st2 { sub1 with yieldTo := some (32, 0) } [] [] with cycle := 32 }, ⟨rfl, rfl, by decide⟩⟩⟩

theorem witness_PreemptionAndTrapEvents :
    (∃ (dev : Nat) (s : State), dev < s.devCount ∧ (s.dev dev).roundStart + 1024 ≤ s.devTime dev) ∧
    (∃ (grid : Nat) (g : Grid) (s : State), s.grids.get? grid = some g ∧ s.rotates grid g = true ∧ s.placing g.ctx = true) ∧
    (∃ (team : Nat) (tm : Team) (s : State), s.teams.get? team = some tm ∧ tm.stopping = true) ∧
    (∃ (ctx : Nat) (c : Ctx) (p : Preempt) (s : State), s.ctxs.get? ctx = some c ∧ c.preempt = some p ∧ s.residentOf ctx = []) ∧
    (∃ (ctx swap : Nat) (c : Ctx) (ends : List Nat) (s : State), s.ctxs.get? ctx = some c ∧ c.preempt = some (.drain ends swap) ∧
    ((s.residentOf ctx).any fun p => s.passed ends p.2.core) = true) ∧
    (∃ (ctx : Nat) (c : Ctx) (ends : List Nat) (s : State), s.ctxs.get? ctx = some c ∧ c.preempt = some (.swap ends) ∧
    ((s.residentOf ctx).any fun p => s.passed ends p.2.core) = true) ∧
    (∃ (t w k : Nat) (e : Ex) (s : State), s.ex? t w k = some e ∧ s.forHandler e = true ∧ s.handlerTurn e = true) ∧
    (∃ (t w k : Nat) (e : Ex) (s : State), s.ex? t w k = some e ∧ s.forHandler e = false) ∧
    (∃ (t w : Nat) (wv : Wave) (s : State), s.wave? t w = some wv ∧ wv.haltAsked = true ∧ wv.stopped = true ∧ wv.pendingResults = []) ∧
    (∃ (t w k : Nat) (e : Ex) (s : State), s.ex? t w k = some e ∧ e.sub.stepLanes = 0 ∧ e.sub.stepping = 2 ∧ e.sub.park = none) ∧
    (∃ (t w k : Nat) (e : Ex) (s : State), s.ex? t w k = some e ∧ e.sub.stepLanes ≠ 0 ∧ e.sub.hold = none ∧ e.sub.park = none) :=
  ⟨⟨0, late 1024, by decide +kernel⟩,
    ⟨0, grid1, { late 100000 with cursors := [(0, cursor1)] }, by decide +kernel⟩,
    ⟨0, { team1 with stopping := true }, { st with teams := [(0, { team1 with stopping := true })] }, by decide +kernel⟩,
    ⟨0, { ctx1 with preempt := some (.drain [] 0) }, .drain [] 0, { st with teams := [], ctxs := [(0, { ctx1 with preempt := some (.drain [] 0) })] }, by decide +kernel⟩,
    ⟨0, 0, { ctx1 with preempt := some (.drain [9, 0, 0, 0] 0) }, [9, 0, 0, 0], { late 9 with ctxs := [(0, { ctx1 with preempt := some (.drain [9, 0, 0, 0] 0) })] }, by decide +kernel⟩,
    ⟨0, { ctx1 with preempt := some (.swap [9, 0, 0, 0]) }, [9, 0, 0, 0], { late 9 with ctxs := [(0, { ctx1 with preempt := some (.swap [9, 0, 0, 0]) })] }, by decide +kernel⟩,
    ⟨0, 0, 0, ex2 parked [] [], stTrap 0x100010 parked [], ⟨rfl, by decide +kernel, by decide +kernel⟩⟩,
    ⟨0, 0, 0, ex2 parked [] [], stTrap 0 parked [], ⟨rfl, by decide +kernel⟩⟩,
    ⟨0, 0, { wave2 idle1 [] [] with haltAsked := true }, { st with teams := [(0, { team1 with waves := [(0, { wave2 idle1 [] [] with haltAsked := true })] })] }, by decide +kernel⟩,
    ⟨0, 0, 0, ex2 { sub1 with stepping := 2 } [] [], st2 { sub1 with stepping := 2 } [] [], ⟨rfl, rfl, rfl, rfl⟩⟩,
    ⟨0, 0, 0, ex2 { sub1 with mask := 3, stepLanes := 1 } [] [], st2 { sub1 with mask := 3, stepLanes := 1 } [] [], ⟨rfl, by decide, rfl, rfl⟩⟩⟩

theorem witness_CompletionEvents :
    (∃ (who : Owner) (seq : Nat) (f : Flight) (s : State), s.flight? who seq = some f ∧ f.kind = .result ∧ f.done = false ∧ f.cycle + latCycles f.lat ≤ s.cycle) ∧
    (∃ (n seq : Nat) (f : Flight) (s : State), s.flight? (.span n) seq = some f ∧ f.kind = .tracked ∧ f.done = false) ∧
    (∃ (t w seq : Nat) (f : Flight) (tm : Team) (s : State), s.flight? (.wave t w) seq = some f ∧ f.kind = .tracked ∧ f.done = false ∧
    s.teams.get? t = some tm ∧ tm.loadMove w seq = none) ∧
    (∃ (who : Owner) (seq : Nat) (f : Flight) (s : State), s.flight? who seq = some f ∧ f.kind = .access ∧ f.done = false) ∧
    (∃ (team seq : Nat) (chain : Fin 2) (v : Unit) (t : State) (s : State), s.kstep team seq chain.val = .ok t v) ∧
    (∃ (team seq : Nat) (tm : Team) (m : Machine.Mma) (s : State), s.teams.get? team = some tm ∧ tm.mmas.get? seq = some m ∧ tm.state = .resident ∧ m.chainsDone = true ∧ m.stopped = none ∧
    s.owes team m.items seq = false) ∧
    (∃ (team seq : Nat) (chain : Fin 2) (t : State) (x : Trap) (s : State), s.kstep team seq chain.val = .trap t x) ∧
    (∃ (team seq : Nat) (v : Unit) (t : State) (s : State), s.runMove team seq = .ok t v) ∧
    (∃ (team seq : Nat) (t : State) (x : Trap) (tm : Team) (m : AccMove) (s : State), s.runMove team seq = .trap t x ∧ t.teams.get? team = some tm ∧
      tm.moves.get? seq = some m ∧ t.recRoom (t.ctxDev tm.ctx) = true) ∧
    (∃ (team tag : Nat) (t : State) (s : State), s.served team tag = true ∧ s.copyNext team tag = .ok t false) ∧
    (∃ (team tag : Nat) (t : State) (s : State), s.copyNext team tag = .ok t true) ∧
    (∃ (team tag : Nat) (t : State) (x : Trap) (s : State), s.served team tag = true ∧ s.copyNext team tag = .trap t x) :=
  ⟨⟨.wave 0 0, 0, flight1 .result, stFly .result, by decide +kernel⟩,
    ⟨0, 0, flight1 .tracked, { st with spans := [(0, { span1 with flights := [(0, flight1 .tracked)] })] }, by decide +kernel⟩,
    ⟨0, 0, 0, flight1 .tracked, { team1 with waves := [(0, { wave1 with flights := [(0, flight1 .tracked)] })] }, stFly .tracked, ⟨rfl, rfl, rfl, rfl, rfl⟩⟩,
    ⟨.wave 0 0, 0, flight1 .access, stFly .access, by decide +kernel⟩,
    (by
    obtain ⟨t, v, h1, -⟩ := of_gotOk (show gotOk ((stM {}).kstep 0 0 0) (fun _ _ => true) = true by decide +kernel)
    exact ⟨0, 0, 0, v, t, _, h1⟩),
    ⟨0, 0, { team1 with mmas := [(0, queued { k0 := 1 })], seq := 1 }, queued { k0 := 1 }, stM { k0 := 1 }, ⟨rfl, rfl, rfl, by decide +kernel, rfl, by decide +kernel⟩⟩,
    (by
    obtain ⟨t, x, h1, -⟩ := of_gotTrap (show gotTrap ((unmapped (stM {})).kstep 0 0 0) (fun _ _ => true) = true by decide +kernel)
    exact ⟨0, 0, 0, t, x, _, h1⟩),
    (by
    obtain ⟨t, v, h1, -⟩ := of_gotOk (show gotOk ((stMove true).runMove 0 0) (fun _ _ => true) = true by decide +kernel)
    exact ⟨0, 0, v, t, _, h1⟩),
    (by
    obtain ⟨t, x, h1, h2⟩ := of_gotTrap (P := fun t _ => ((t.teams.get? 0).bind fun tm => tm.moves.get? 0 |>.map fun _ => t.recRoom (t.ctxDev tm.ctx)) == some true)
      (show gotTrap ((unmapped (stMove true)).runMove 0 0) _ = true by decide +kernel)
    rw [beq_iff_eq] at h2
    obtain ⟨tm, h3, h4⟩ := Option.bind_eq_some_iff.1 h2
    obtain ⟨m, h5, h6⟩ := Option.map_eq_some_iff.1 h4
    exact ⟨0, 0, t, x, tm, m, _, h1, h3, h5, h6⟩),
    (by
    obtain ⟨t, b, h1, h2⟩ := of_gotOk (P := fun _ b => !b) (show gotOk ((stCopy [move1]).copyNext 0 5) _ = true by decide +kernel)
    cases b with
    | false => exact ⟨0, 5, t, stCopy [move1], by decide +kernel, h1⟩
    | true => cases h2),
    (by
    obtain ⟨t, b, h1, h2⟩ := of_gotOk (P := fun _ b => b) (show gotOk ((stCopy []).copyNext 0 5) _ = true by decide +kernel)
    cases b with
    | true => exact ⟨0, 5, t, stCopy [], h1⟩
    | false => cases h2),
    (by
    obtain ⟨t, x, h1, -⟩ := of_gotTrap (show gotTrap (({ stCopy [move1] with ctxs := [(0, { ctx1 with pages := [] })] } : State).copyNext 0 5) (fun _ _ => true) = true by decide +kernel)
    exact ⟨0, 5, t, x, { stCopy [move1] with ctxs := [(0, { ctx1 with pages := [] })] }, by decide +kernel, h1⟩)⟩

theorem witness_HeldEvents :
    (∃ (x : Waitv) (t w k : Nat) (e : Ex) (h : Hold) (s : State), s.ex? t w k = some e ∧ e.sub.hold = some h ∧ h.kind = .waitv ∧ e.sub.instr = some (.waitv x)) ∧
    (∃ (x : Waitv) (t w k : Nat) (e : Ex) (h : Hold) (s : State), s.ex? t w k = some e ∧ e.sub.hold = some h ∧ h.kind = .waitv ∧ e.sub.instr = some (.waitv x) ∧ s.expired t w k = true) ∧
    (∃ (x : Cntwait) (t w k : Nat) (e : Ex) (h : Hold) (s : State), s.ex? t w k = some e ∧ e.sub.hold = some h ∧ h.kind = .cntwait ∧ e.sub.instr = some (.cntwait x)) ∧
    (∃ (x : Cntwait) (t w k : Nat) (e : Ex) (h : Hold) (s : State), s.ex? t w k = some e ∧ e.sub.hold = some h ∧ h.kind = .cntwait ∧ e.sub.instr = some (.cntwait x) ∧ s.expired t w k = true) ∧
    (∃ (x : Waitv) (v : Use) (t w k : Nat) (e : Ex) (h : Hold) (d : Nat → Dest) (s : State), (Instr.waitv x).use = some v ∧
      s.ex? t w k = some e ∧
      e.mayIssue = true ∧
      e.sub.hold = some h ∧
      h.kind = .waitv ∧
      e.sub.instr = some (.waitv x) ∧
      h.lanes ≠ 0 ∧
      let c : State := { s with cur := some (.sub t w k) }
    let todo := (lanesIn h.lanes).filter fun i => !(BitVec.ofNat 16 h.aux : Lanes).getLsbD i
    (∀ i ∈ lanesIn h.lanes, e.stale v i = false) ∧
      (∀ i ∈ todo, c.ready { c.accessor e i with again := true } { n := x.t.width / 8, rd := true, wr := false } (e.ea v 0 none 0 i) = .ok c (d i)) ∧
      (∀ i ∈ todo, c.peek (c.accessor e i) (d i) (x.t.width / 8) ≠ e.src v i 1 % 2 ^ x.t.width)) ∧
    (∃ (x : Waitv) (v : Use) (t w k : Nat) (e : Ex) (h : Hold) (d : Nat → Dest) (s : State), (Instr.waitv x).use = some v ∧
      s.ex? t w k = some e ∧
      e.mayIssue = true ∧
      e.sub.hold = some h ∧
      h.kind = .waitv ∧
      e.sub.instr = some (.waitv x) ∧
      h.lanes ≠ 0 ∧
      let c : State := { s with cur := some (.sub t w k) }
    let todo := (lanesIn h.lanes).filter fun i => !(BitVec.ofNat 16 h.aux : Lanes).getLsbD i
    (∀ i ∈ lanesIn h.lanes, e.stale v i = false) ∧
      (∀ i ∈ todo, c.ready { c.accessor e i with again := true } { n := x.t.width / 8, rd := true, wr := false } (e.ea v 0 none 0 i) = .ok c (d i)) ∧
      s.expired t w k = true) ∧
    (∃ (x : Cntwait) (v : Use) (t w k : Nat) (e : Ex) (h : Hold) (u : State) (n : Nat) (s : State), (Instr.cntwait x).use = some v ∧
      s.ex? t w k = some e ∧
      e.mayIssue = true ∧
      e.sub.hold = some h ∧
      h.kind = .cntwait ∧
      e.sub.instr = some (.cntwait x) ∧
      h.lanes ≠ 0 ∧
      let c : State := { s with cur := some (.sub t w k) }
    e.stale v (lowLane h.lanes) = false ∧
      counterRead (e.src v (lowLane h.lanes) 0) = none ∧
      (c.escapeTeam e.t).load { c.accessor e (lowLane h.lanes) with again := true } 8 (e.src v (lowLane h.lanes) 0) = .ok u n ∧
      e.src v (lowLane h.lanes) 1 ≤ n) ∧
    (∃ (x : Cntwait) (v : Use) (t w k : Nat) (e : Ex) (h : Hold) (u : State) (n : Nat) (s : State), (Instr.cntwait x).use = some v ∧
      s.ex? t w k = some e ∧
      e.mayIssue = true ∧
      e.sub.hold = some h ∧
      h.kind = .cntwait ∧
      e.sub.instr = some (.cntwait x) ∧
      h.lanes ≠ 0 ∧
      let c : State := { s with cur := some (.sub t w k) }
    e.stale v (lowLane h.lanes) = false ∧
      counterRead (e.src v (lowLane h.lanes) 0) = none ∧
      (c.escapeTeam e.t).load { c.accessor e (lowLane h.lanes) with again := true } 8 (e.src v (lowLane h.lanes) 0) = .ok u n ∧
      s.expired t w k = true ∧
      s.coreTime e.team.core ≤ u.coreTime e.team.core) ∧
    (∃ (x : Cpy) (t w k : Nat) (e : Ex) (h : Hold) (s : State), s.ex? t w k = some e ∧ e.sub.hold = some h ∧ h.kind = .copyTag ∧ e.sub.instr = some (.cpy x)) ∧
    (∃ (x : Cpyt) (t w k : Nat) (e : Ex) (h : Hold) (s : State), s.ex? t w k = some e ∧ e.sub.hold = some h ∧ h.kind = .copyTag ∧ e.sub.instr = some (.cpyt x)) ∧
    (∃ (x : CpyGS) (t w k : Nat) (e : Ex) (h : Hold) (s : State), s.ex? t w k = some e ∧ e.sub.hold = some h ∧ h.kind = .copyTag ∧ e.sub.instr = some (.cpyg x)) ∧
    (∃ (x : CpyGS) (t w k : Nat) (e : Ex) (h : Hold) (s : State), s.ex? t w k = some e ∧ e.sub.hold = some h ∧ h.kind = .copyTag ∧ e.sub.instr = some (.cpys x)) ∧
    (∃ (t w k : Nat) (e : Ex) (h : Hold) (s : State) (i : Instr), s.ex? t w k = some e ∧ e.sub.hold = some h ∧ h.kind = .copyCheck ∧ e.sub.instr = some i ∧ ((∃ x, i = .cpy x) ∨ (∃ x, i = .cpyt x) ∨ (∃ x, i = .cpyg x) ∨ (∃ x, i = .cpys x))) ∧
    (∃ (die : Nat) (s : State), (s.cdie die).inService = true ∧ (s.cdie die).phdone + 1 < (s.cdie die).phase ∧
    ((s.cdie die).tagged.any fun p => decide (p.1 ≤ (s.cdie die).phdone + 1) && p.2 != 0) = false) ∧
    (∃ (viewer die : Nat) (s : State), s.dieIn (s.devOfFnd (viewer / 4)) die = true ∧ (s.cdie viewer).inService = true ∧ viewer < 16 ∧ die < 16) :=
  ⟨⟨wv1, 0, 0, 0, ex2 (heldAt (.waitv wv1) .waitv) [] [], _, stHeld (.waitv wv1) .waitv, ⟨rfl, rfl, rfl, rfl⟩⟩,
    ⟨wv1, 0, 0, 0, ex2 (heldAt (.waitv wv1) .waitv) [] [], _, stHeld (.waitv wv1) .waitv, ⟨rfl, rfl, rfl, rfl, by decide +kernel⟩⟩,
    ⟨cw1, 0, 0, 0, ex2 (heldAt (.cntwait cw1) .cntwait) [] [], _, stHeld (.cntwait cw1) .cntwait, ⟨rfl, rfl, rfl, rfl⟩⟩,
    ⟨cw1, 0, 0, 0, ex2 (heldAt (.cntwait cw1) .cntwait) [] [], _, stHeld (.cntwait cw1) .cntwait, ⟨rfl, rfl, rfl, rfl, by decide +kernel⟩⟩,
    (by
    have hd : ∀ i ∈ (lanesIn (1 : Lanes)).filter (fun i => !(BitVec.ofNat 16 0 : Lanes).getLsbD i), i = 0 := by decide
    refine ⟨wv1, U (.waitv wv1), 0, 0, 0, ex2 (heldFrom (.waitv wv1) .waitv) [] [], _, fun _ => .stash 0 0, st2 (heldFrom (.waitv wv1) .waitv) [] [],
      rfl, rfl, rfl, rfl, rfl, rfl, by decide, by decide, fun i h => ?_, fun _ h => by rw [hd _ h]; decide⟩
    rw [hd i h]; rfl),
    (by
    have hd : ∀ i ∈ (lanesIn (1 : Lanes)).filter (fun i => !(BitVec.ofNat 16 0 : Lanes).getLsbD i), i = 0 := by decide
    refine ⟨wv1, U (.waitv wv1), 0, 0, 0, ex2 (heldFrom (.waitv wv1) .waitv) [] [], _, fun _ => .stash 0 0, st2 (heldFrom (.waitv wv1) .waitv) [] [],
      rfl, rfl, rfl, rfl, rfl, rfl, by decide, by decide, fun i h => ?_, by decide +kernel⟩
    rw [hd i h]; rfl),
    (by
    obtain ⟨t, n, h1, h2⟩ := of_gotOk (P := fun t n => decide (0 ≤ n))
      (show gotOk (({ st2 (heldFrom (.cntwait cw1) .cntwait) [] [] with cur := some (.sub 0 0 0) } : State).escapeTeam 0 |>.load
        { ({ st2 (heldFrom (.cntwait cw1) .cntwait) [] [] with cur := some (.sub 0 0 0) } : State).accessor (ex2 (heldFrom (.cntwait cw1) .cntwait) [] []) 0 with again := true } 8
        ((ex2 (heldFrom (.cntwait cw1) .cntwait) [] []).src (U (.cntwait cw1)) 0 0)) _ = true by decide +kernel)
    exact ⟨cw1, U (.cntwait cw1), 0, 0, 0, ex2 (heldFrom (.cntwait cw1) .cntwait) [] [], _, t, n, st2 (heldFrom (.cntwait cw1) .cntwait) [] [],
      rfl, rfl, rfl, rfl, rfl, rfl, by decide, by decide, by decide, h1, of_decide_eq_true h2⟩),
    (by
    obtain ⟨t, n, h1, h2⟩ := of_gotOk (P := fun t n => decide ((st2 (heldFrom (.cntwait cw1) .cntwait) [] []).coreTime 0 ≤ t.coreTime 0))
      (show gotOk (({ st2 (heldFrom (.cntwait cw1) .cntwait) [] [] with cur := some (.sub 0 0 0) } : State).escapeTeam 0 |>.load
        { ({ st2 (heldFrom (.cntwait cw1) .cntwait) [] [] with cur := some (.sub 0 0 0) } : State).accessor (ex2 (heldFrom (.cntwait cw1) .cntwait) [] []) 0 with again := true } 8
        ((ex2 (heldFrom (.cntwait cw1) .cntwait) [] []).src (U (.cntwait cw1)) 0 0)) _ = true by decide +kernel)
    exact ⟨cw1, U (.cntwait cw1), 0, 0, 0, ex2 (heldFrom (.cntwait cw1) .cntwait) [] [], _, t, n, st2 (heldFrom (.cntwait cw1) .cntwait) [] [],
      rfl, rfl, rfl, rfl, rfl, rfl, by decide, by decide, by decide, h1, by decide +kernel, of_decide_eq_true h2⟩),
    ⟨cpy1, 0, 0, 0, ex2 (heldAt (.cpy cpy1) .copyTag) [] [], _, stHeld (.cpy cpy1) .copyTag, ⟨rfl, rfl, rfl, rfl⟩⟩,
    ⟨cpyt1, 0, 0, 0, ex2 (heldAt (.cpyt cpyt1) .copyTag) [] [], _, stHeld (.cpyt cpyt1) .copyTag, ⟨rfl, rfl, rfl, rfl⟩⟩,
    ⟨cpyg1, 0, 0, 0, ex2 (heldAt (.cpyg cpyg1) .copyTag) [] [], _, stHeld (.cpyg cpyg1) .copyTag, ⟨rfl, rfl, rfl, rfl⟩⟩,
    ⟨cpyg1, 0, 0, 0, ex2 (heldAt (.cpys cpyg1) .copyTag) [] [], _, stHeld (.cpys cpyg1) .copyTag, ⟨rfl, rfl, rfl, rfl⟩⟩,
    ⟨0, 0, 0, ex2 (heldAt (.cpyt cpyt1) .copyCheck) [] [], _, stHeld (.cpyt cpyt1) .copyCheck, .cpyt cpyt1, ⟨rfl, rfl, rfl, rfl, Or.inr (Or.inl ⟨cpyt1, rfl⟩)⟩⟩,
    ⟨0, { st with cdies := [(0, { phase := 2 })] }, by decide +kernel⟩,
    ⟨15, 0, st, by decide +kernel⟩⟩

theorem witness_ReliabilityEvents :
    (∃ (team wave : Nat) (again : Bool) (tm : Team) (w : Wave) (s : State), s.teams.get? team = some tm ∧ tm.waves.get? wave = some w ∧ tm.state = .resident ∧
    (again && (s.core tm.core).mismatchAt.contains (team, wave, w.clock)) = false) ∧
    (∃ (team wave : Nat) (tm : Team) (w : Wave) (s : State), s.teams.get? team = some tm ∧ tm.waves.get? wave = some w ∧ tm.state = .resident ∧
    (s.core tm.core).mismatchAt.contains (team, wave, w.clock) = true) ∧
    (∃ (b : BankRef) (site : ErrSite) (s : State), (∀ t, site ≠ .uniform t)) ∧
    (∃ (b : BankRef) (v : Vent) (s : State), (b.st ≠ .l2 ∧ b.st ≠ .hbm) ∧ ((s.ventsOf b).any fun v => v.started && v.b.st == b.st) = false ∧
    ((s.ventsOf b).find? fun v => !v.started && (v.b.st == b.st || v.b == b)) = some v) ∧
    (∃ (b : BankRef) (v : Vent) (s : State), b.st = .hbm ∧ ((s.ventsOf b).find? fun v => !v.started && (v.b.st == b.st || v.b == b)) = some v) ∧
    (∃ (b : BankRef) (s : State), b.st ≠ .l2 ∧ b.st ≠ .hbm) ∧
    (∃ (slice : Nat) (s : State), ((s.ventsOf ⟨.l2, slice, 0⟩).any fun v => v.b == ⟨.l2, slice, 0⟩ && v.started) = true ∧ s.entriesOf slice = []) ∧
    (∃ (b : BankRef) (v : Vent) (s : State), b.st = .l2 ∧ ((s.ventsOf b).find? fun v => !v.started && (v.b.st == b.st || v.b == b)) = some v ∧
    (({ s with pkg := { s.pkg with deadSlices := s.pkg.deadSlices ++ [v.b.unit] } } : State).slicesLeft (v.b.unit / 64)).isEmpty = false) ∧
    (∃ (slice d i : Nat) (r : List (Nat × Nat)) (s : State), ((s.ventsOf ⟨.l2, slice, 0⟩).any fun v => v.b == ⟨.l2, slice, 0⟩ && v.started) = true ∧ s.entriesOf slice = (d, i) :: r ∧
    (((s.dir.map fun e => e.line).filter fun l => l.dev == d && homeIndex l == i).any fun l => s.lineBusy l true) = false) ∧
    (∃ (dev frame target : Nat) (s : State), ((((s.ctxs.flatMap fun c => if c.2.dev = dev then c.2.pages else []).filterMap Page.frames).find? fun f => f.1 == frame)) = none ∧
    (s.ctxs.any fun c => c.2.dev == dev && c.2.frames.contains frame) = true ∧ s.frameUsed dev target = false ∧ s.frameDead dev target = false) ∧
    (∃ (dev frame target n : Nat) (s : State), (let fs := ((s.ctxs.flatMap fun c => if c.2.dev = dev then c.2.pages else []).filterMap Page.frames)
     (fs.find? fun f => f.1 == frame) = some (frame, n) ∧
     ((List.range n).all fun i => !s.frameUsed dev (target + i) && !s.frameDead dev (target + i)) = true ∧
     (fs.all fun f => !(decide (f.1 < frame + n ∧ frame < f.1 + f.2)) || decide (frame ≤ f.1 ∧ f.1 + f.2 ≤ frame + n)) = true)) ∧
    (∃ (b : BankRef) (t n : Nat) (s : State), (s.bankErr b).window = some (t, n) ∧ t + 100000000 ≤ (s.fdie (bankFnd b)).ltime.toNat) :=
  ⟨⟨0, 0, true, team1, wave1, st, ⟨rfl, rfl, rfl, by decide +kernel⟩⟩,
    ⟨0, 0, team1, wave1, { st with cores := st.cores.set 0 { st.core 0 with mismatchAt := [(0, 0, 0)] } }, ⟨rfl, rfl, rfl, by decide +kernel⟩⟩,
    ⟨⟨.pool, 0, 3⟩, .unit16 0, st, nofun⟩,
    ⟨⟨.pool, 0, 3⟩, ventP, { st with cores := st.cores.set 0 { st.core 0 with vents := [ventP] } }, by decide +kernel⟩,
    ⟨⟨.hbm, 1, 2⟩, ventH, stVents [ventH], by decide +kernel⟩,
    ⟨⟨.pool, 0, 3⟩, st, by decide +kernel⟩,
    ⟨5, { stVents [ventL] with devs := [{ hometab := [(5, 6)] }] }, by decide +kernel⟩,
    ⟨⟨.l2, 5, 0⟩, { b := ⟨.l2, 5, 0⟩ }, stVents [{ b := ⟨.l2, 5, 0⟩ }], by decide +kernel⟩,
    ⟨5, 0, 5, [], stVents [ventL], by decide +kernel⟩,
    ⟨0, 7, 9, st.modCtx 0 fun x => { x with frames := [7] }, by decide +kernel⟩,
    ⟨0, 1, 7, 1, st, by decide +kernel⟩,
    ⟨⟨.pool, 0, 3⟩, 0, 1, stP (fun p => { p with banks := [{ b := ⟨.pool, 0, 3⟩, window := some (0, 1) }] }) (late 100000000), by decide +kernel⟩⟩

theorem witness_HomeAndHostEvents :
    (∃ (core sector : Nat) (sc : Sector) (e : MapEntry) (t : State) (s : State), (s.core core).sectors.get? sector = some sc ∧ sc.st = .fill ∧
      (s.core core).entries.get? sc.entry = some e ∧ s.fillSector core sector sc.entry e = .ok t ()) ∧
    (∃ (core sector : Nat) (sc : Sector) (e : MapEntry) (t : State) (x : Trap) (s : State), (s.core core).sectors.get? sector = some sc ∧ sc.st = .fill ∧
      (s.core core).entries.get? sc.entry = some e ∧ s.fillSector core sector sc.entry e = .trap t x) ∧
    (∃ (core sector : Nat) (s : State), s.sectorState core sector = some .wb) ∧
    (∃ (core : Nat) (line : LineRef) (write : Bool) (s : State), (s.awaits line ⟨core, 1⟩ write = true ∨ (s.entry line).coarse = true ∧ s.awaits line ⟨core, 0⟩ write = true) ∧
    s.recallWaits line ⟨core, 1⟩ write = false) ∧
    (∃ (line : LineRef) (who : Holder) (s : State), s.agentOk line.dev who = true ∧ (s.entry line).holds who = none ∧ s.purging line = false ∧ (s.entry line).txn = none) ∧
    (∃ (line : LineRef) (who : Holder) (s : State), s.agentOk line.dev who = true ∧ (s.entry line).holds who = none ∧ s.purging line = false ∧ (s.entry line).txn.isSome = true) ∧
    (∃ (line : LineRef) (who : Holder) (s : State), s.agentOk line.dev who = true ∧ who.kind ≠ 1 ∧ (s.entry line).meets who .own = false ∧ s.purging line = false ∧ (s.entry line).txn = none) ∧
    (∃ (line : LineRef) (who : Holder) (s : State), s.agentOk line.dev who = true ∧ who.kind ≠ 1 ∧ (s.entry line).meets who .own = false ∧ s.purging line = false ∧ (s.entry line).txn.isSome = true) ∧
    (∃ (line : LineRef) (who : Holder) (s : State), s.agentOk line.dev who = true ∧ who.kind ≠ 1 ∧ (s.entry line).meets who .own = false ∧ s.purging line = false ∧ (s.entry line).txn = none) ∧
    (∃ (line : LineRef) (who : Holder) (s : State), s.agentOk line.dev who = true ∧ who.kind ≠ 1 ∧ (s.entry line).meets who .own = false ∧ s.purging line = false ∧ (s.entry line).txn.isSome = true) ∧
    (∃ (line : LineRef) (who : Holder) (s : State), s.agentOk line.dev who = true ∧ who.kind = 1 ∧ (s.entry line).meets who .partialOwn = false ∧ s.purging line = false ∧ (s.entry line).txn = none) ∧
    (∃ (line : LineRef) (who : Holder) (s : State), s.agentOk line.dev who = true ∧ who.kind = 1 ∧ (s.entry line).meets who .partialOwn = false ∧ s.purging line = false ∧ (s.entry line).txn.isSome = true) ∧
    (∃ (line : LineRef) (write : Bool) (s : State), s.purging line = false ∧ (s.entry line).txn = none) ∧
    (∃ (line : LineRef) (write : Bool) (s : State), s.purging line = false ∧ (s.entry line).txn.isSome = true) ∧
    (∃ (line : LineRef) (who : Holder) (st : HState) (s : State), (s.entry line).holds who = some st ∧ (st = .m ∨ st = .o ∨ st = .p) ∧ s.givesUp line who = true) ∧
    (∃ (line : LineRef) (who : Holder) (st : HState) (s : State), (s.entry line).holds who = some st ∧ (st = .s ∨ st = .e) ∧ s.givesUp line who = true) ∧
    (∃ (line : LineRef) (who : Holder) (s : State), s.awaits line who false = true ∧ who.kind ≠ 3) ∧
    (∃ (line : LineRef) (who : Holder) (s : State), s.awaits line who true = true ∧ who.kind ≠ 3) ∧
    (∃ (line : LineRef) (who : Holder) (t : Txn) (s : State), (s.entry line).txn = some t ∧ t.acks.contains who = true ∧ who.kind ≠ 3 ∧ (s.entry line).stillHolds who t.req.write = false) ∧
    (∃ (line : LineRef) (t : State) (s : State), (s.entry line).txn.isSome = true ∧ s.homeFill line = some t) ∧
    (∃ (dev asid va : Nat) (p : Page) (s : State), s.page? dev asid va = some p) ∧
    (∃ (line : LineRef) (s : State), (s.entry line).txn.isSome = true ∧ (s.entry line).inL2 = false ∧ s.homeFill line = none) ∧
    (∃ (dev port dpa : Nat) (l : LineRef) (s : State), ((s.ports[port]?).getD {}).up = true ∧ s.reverse dev (dpa / 64 * 64) = some l ∧ s.purging l = true) ∧
    (∃ (dev port dpa : Nat) (l : LineRef) (t : State) (s : State), ((s.ports[port]?).getD {}).up = true ∧ s.reverse dev (dpa / 64 * 64) = some l ∧ s.purging l = false ∧
    (((s.answerAll l).closeTxn l).entry l).txn = none ∧ ((s.answerAll l).closeTxn l).homeFill l = some t) ∧
    (∃ (dev port dpa : Nat) (l : LineRef) (s : State), ((s.ports[port]?).getD {}).up = true ∧ s.reverse dev (dpa / 64 * 64) = some l ∧ s.purging l = false ∧
    (((s.answerAll l).closeTxn l).entry l).txn.isSome = true) ∧
    (∃ (dev port dpa : Nat) (s : State), ((s.ports[port]?).getD {}).up = true ∧ s.reverse dev (dpa / 64 * 64) = none) ∧
    (∃ (dev port dpa : Nat) (l : LineRef) (s : State), ((s.ports[port]?).getD {}).up = true ∧ s.reverse dev (dpa / 64 * 64) = some l ∧ s.purging l = true) ∧
    (∃ (dev port dpa : Nat) (l : LineRef) (t : State) (s : State), ((s.ports[port]?).getD {}).up = true ∧ s.reverse dev (dpa / 64 * 64) = some l ∧ s.purging l = false ∧
    (((s.answerAll l).closeTxn l).entry l).txn = none ∧ ((s.answerAll l).closeTxn l).homeFill l = some t) ∧
    (∃ (dev port dpa : Nat) (l : LineRef) (s : State), ((s.ports[port]?).getD {}).up = true ∧ s.reverse dev (dpa / 64 * 64) = some l ∧ s.purging l = false ∧
    (((s.answerAll l).closeTxn l).entry l).txn.isSome = true) ∧
    (∃ (dev port dpa : Nat) (s : State), ((s.ports[port]?).getD {}).up = true ∧ s.reverse dev (dpa / 64 * 64) = none) ∧
    (∃ (dev port dpa : Nat) (l : LineRef) (s : State), ((s.ports[port]?).getD {}).up = true ∧ s.reverse dev (dpa / 64 * 64) = some l ∧ s.purging l = true) ∧
    (∃ (dev port dpa : Nat) (l : LineRef) (t : State) (s : State), ((s.ports[port]?).getD {}).up = true ∧ s.reverse dev (dpa / 64 * 64) = some l ∧ s.purging l = false ∧
    (((s.answerAll l).closeTxn l).entry l).txn = none ∧ ((s.answerAll l).closeTxn l).homeFill l = some t) ∧
    (∃ (dev port dpa : Nat) (l : LineRef) (s : State), ((s.ports[port]?).getD {}).up = true ∧ s.reverse dev (dpa / 64 * 64) = some l ∧ s.purging l = false ∧
    (((s.answerAll l).closeTxn l).entry l).txn.isSome = true) ∧
    (∃ (dev port dpa : Nat) (s : State), ((s.ports[port]?).getD {}).up = true ∧ s.reverse dev (dpa / 64 * 64) = none) ∧
    (∃ (dev port dpa : Nat) (data : List Byte) (l : LineRef) (s : State), ((s.ports[port]?).getD {}).up = true ∧ s.reverse dev (dpa / 64 * 64) = some l ∧ s.purging l = true) ∧
    (∃ (dev port dpa : Nat) (data : List Byte) (l : LineRef) (t : State) (s : State), ((s.ports[port]?).getD {}).up = true ∧ s.reverse dev (dpa / 64 * 64) = some l ∧ s.purging l = false ∧
    (((s.answerAll l).closeTxn l).entry l).txn = none ∧ ((s.answerAll l).closeTxn l).homeFill l = some t) ∧
    (∃ (dev port dpa : Nat) (data : List Byte) (l : LineRef) (s : State), ((s.ports[port]?).getD {}).up = true ∧ s.reverse dev (dpa / 64 * 64) = some l ∧ s.purging l = false ∧
    (((s.answerAll l).closeTxn l).entry l).txn.isSome = true) ∧
    (∃ (dev port dpa : Nat) (data : List Byte) (s : State), ((s.ports[port]?).getD {}).up = true ∧ s.reverse dev (dpa / 64 * 64) = none) ∧
    (∃ (line : LineRef) (port : Nat) (s : State), s.awaits line (portHolder port) true = true) ∧
    (∃ (line : LineRef) (port : Nat) (t : Txn) (s : State), (s.entry line).txn = some t ∧ t.acks.contains (portHolder port) = true) ∧
    (∃ (line : LineRef) (port a : Nat) (t : Txn) (bs : List Byte) (s : State), (s.entry line).txn = some t ∧ t.acks.contains (portHolder port) = true ∧
    ((s.entry line).holds (portHolder port) = some .e ∨ (s.entry line).holds (portHolder port) = some .m) ∧
    s.place? line.dev line.asid (64 * line.line) = some a) ∧
    (∃ (hpa port snoop : Nat) (l : LineRef) (t u : State), t.purging l = false ∧ (((t.answerAll l).closeTxn l).entry l).txn = none ∧ ((t.answerAll l).closeTxn l).homeFill l = some u) :=
  ⟨(by
    obtain ⟨t, b, h1, -⟩ := of_gotOk (show gotOk ((stSec .fill ent).fillSector 0 128 0 ent) (fun _ _ => true) = true by decide +kernel)
    exact ⟨0, 128, { st := .fill, entry := 0 }, ent, t, stSec .fill ent, by decide +kernel, rfl, by decide +kernel, h1⟩),
    (by
    obtain ⟨t, x, h1, -⟩ := of_gotTrap (show gotTrap ((stSec .fill { ent with base := 0x5000000 }).fillSector 0 128 0 { ent with base := 0x5000000 }) (fun _ _ => true) = true by decide +kernel)
    exact ⟨0, 128, { st := .fill, entry := 0 }, { ent with base := 0x5000000 }, t, x, stSec .fill { ent with base := 0x5000000 }, by decide +kernel, rfl, by decide +kernel, h1⟩),
    ⟨0, 128, stSec .wb ent, by decide +kernel⟩,
    ⟨1, line0, true, stDir { line := line0, txn := some { req := { src := none, who := none, write := true }, acks := [⟨1, 1⟩] } }, by decide +kernel⟩,
    ⟨line0, ⟨1, 0⟩, st, by decide +kernel⟩,
    ⟨line0, ⟨1, 0⟩, stDir { line := line0, txn := some { req := { src := none, who := none, write := true }, acks := [⟨2, 0⟩] } }, by decide +kernel⟩,
    ⟨line0, ⟨1, 0⟩, st, by decide +kernel⟩,
    ⟨line0, ⟨1, 0⟩, stDir { line := line0, txn := some { req := { src := none, who := none, write := true }, acks := [⟨2, 0⟩] } }, by decide +kernel⟩,
    ⟨line0, ⟨1, 0⟩, st, by decide +kernel⟩,
    ⟨line0, ⟨1, 0⟩, stDir { line := line0, txn := some { req := { src := none, who := none, write := true }, acks := [⟨2, 0⟩] } }, by decide +kernel⟩,
    ⟨line0, ⟨1, 1⟩, st, by decide +kernel⟩,
    ⟨line0, ⟨1, 1⟩, stDir { line := line0, txn := some { req := { src := none, who := none, write := true }, acks := [⟨2, 0⟩] } }, by decide +kernel⟩,
    ⟨line0, false, st, by decide +kernel⟩,
    ⟨line0, true, stDir { line := line0, txn := some { req := { src := none, who := none, write := true }, acks := [⟨2, 0⟩] } }, by decide +kernel⟩,
    ⟨line0, ⟨768, 2⟩, .m, stDir { line := line0, holders := [(⟨768, 2⟩, .m)] }, by decide +kernel⟩,
    ⟨line0, ⟨768, 2⟩, .s, stDir { line := line0, holders := [(⟨768, 2⟩, .s)] }, by decide +kernel⟩,
    ⟨line0, ⟨1, 0⟩, stDir (recalls false []), by decide +kernel⟩,
    ⟨line0, ⟨1, 0⟩, stDir (recalls true []), by decide +kernel⟩,
    ⟨line0, ⟨1, 0⟩, { req := { src := none, who := none, write := true }, acks := [⟨1, 0⟩] }, stDir (recalls true []), by decide +kernel⟩,
    ⟨line0, _, stDir { line := line0, txn := some { req := { src := none, who := none, write := true }, acks := [⟨2, 0⟩] } }, ⟨by decide +kernel, (Option.some_get (by decide +kernel)).symm⟩⟩,
    ⟨0, 0, 0x110000, _, st, (Option.some_get (by decide +kernel)).symm⟩,
    ⟨⟨0, 0, 0x4000000⟩, stDir { line := ⟨0, 0, 0x4000000⟩, inL2 := false, txn := some { req := { src := none, who := none, write := true } } }, ⟨by decide +kernel, by decide +kernel, Option.isNone_iff_eq_none.1 (by decide +kernel)⟩⟩,
    ⟨0, 0, 65536, line0, st.modDev 0 fun v => { v with purging := [(0, 0x110000, 0x10000)] }, by decide +kernel⟩,
    ⟨0, 0, 65536, line0, _, st, ⟨by decide +kernel, by decide +kernel, by decide +kernel, by decide +kernel, (Option.some_get (by decide +kernel)).symm⟩⟩,
    ⟨0, 0, 65536, line0, stDir busy, by decide +kernel⟩,
    ⟨0, 0, 2 ^ 30, st, by decide +kernel⟩,
    ⟨0, 0, 65536, line0, st.modDev 0 fun v => { v with purging := [(0, 0x110000, 0x10000)] }, by decide +kernel⟩,
    ⟨0, 0, 65536, line0, _, st, ⟨by decide +kernel, by decide +kernel, by decide +kernel, by decide +kernel, (Option.some_get (by decide +kernel)).symm⟩⟩,
    ⟨0, 0, 65536, line0, stDir busy, by decide +kernel⟩,
    ⟨0, 0, 2 ^ 30, st, by decide +kernel⟩,
    ⟨0, 0, 65536, line0, st.modDev 0 fun v => { v with purging := [(0, 0x110000, 0x10000)] }, by decide +kernel⟩,
    ⟨0, 0, 65536, line0, _, st, ⟨by decide +kernel, by decide +kernel, by decide +kernel, by decide +kernel, (Option.some_get (by decide +kernel)).symm⟩⟩,
    ⟨0, 0, 65536, line0, stDir busy, by decide +kernel⟩,
    ⟨0, 0, 2 ^ 30, st, by decide +kernel⟩,
    ⟨0, 0, 65536, [7], line0, st.modDev 0 fun v => { v with purging := [(0, 0x110000, 0x10000)] }, by decide +kernel⟩,
    ⟨0, 0, 65536, [7], line0, _, st, ⟨by decide +kernel, by decide +kernel, by decide +kernel, by decide +kernel, (Option.some_get (by decide +kernel)).symm⟩⟩,
    ⟨0, 0, 65536, [7], line0, stDir busy, by decide +kernel⟩,
    ⟨0, 0, 2 ^ 30, [7], st, by decide +kernel⟩,
    ⟨line0, 0, stDir busy, by decide +kernel⟩,
    ⟨line0, 0, { req := { src := none, who := none, write := true }, acks := [⟨784, 3⟩] }, stDir busy, by decide +kernel⟩,
    ⟨line0, 0, hbmPlace 0 0 65536, { req := { src := none, who := none, write := true }, acks := [⟨784, 3⟩] }, [], stDir heldE, by decide +kernel⟩,
    ⟨0, 0, 1, line0, st, _, ⟨by decide +kernel, by decide +kernel, (Option.some_get (by decide +kernel)).symm⟩⟩⟩

theorem witness_QueueEvents :
    (∃ (queue : Nat) (q : Queue) (t : State) (c : Command) (t2 t3 : State) (ws : List Nat) (g : Grid) (s : State), s.nextCmd queue = some (q, .ok (t, c)) ∧ c.op = 1 ∧ c.err = 0 ∧ t.unitsBusy q.ctx c.arg0 256 false = false ∧ t.unitsBusy q.ctx c.arg0 256 true = false ∧
    t.unitWords q.ctx c.arg0 32 = .ok (t2, ws) ∧ t2.checkLaunch q.ctx c.arg0 ws false = (t3, .ok g)) :=
  (by
    obtain ⟨q, t, c, h1, h2⟩ := of_nexts (P := fun q t c => c.op == 1 && (c.err == 0 && (!t.unitsBusy q.ctx c.arg0 256 false && (!t.unitsBusy q.ctx c.arg0 256 true &&
        oks (t.unitWords q.ctx c.arg0 32) fun x => let q := x.1.checkLaunch q.ctx c.arg0 x.2 false; oks q.2 fun _ => true))))
      (show nexts (stCmd ringQ [1, 0x110800]) _ = true by decide +kernel)
    simp only [Bool.and_eq_true, beq_iff_eq, Bool.not_eq_true'] at h2
    obtain ⟨h3, h4, h5, h6, h7⟩ := h2
    obtain ⟨x, h10, h8⟩ := of_oks h7
    obtain ⟨g, h9, -⟩ := of_oks h8
    exact ⟨0, q, t, c, x.1, (x.1.checkLaunch q.ctx c.arg0 x.2 false).1, x.2, g, _, h1, h3, h4, h5, h6, h10, Prod.ext rfl h9⟩)

theorem witness_QueueEvents_2 :
    (∃ (queue : Nat) (q : Queue) (t : State) (c : Command) (t2 t3 : State) (ws : List Nat) (code : Nat) (s : State), s.nextCmd queue = some (q, .ok (t, c)) ∧ c.op = 1 ∧ c.err = 0 ∧ t.unitsBusy q.ctx c.arg0 256 false = false ∧ t.unitsBusy q.ctx c.arg0 256 true = false ∧
    t.unitWords q.ctx c.arg0 32 = .ok (t2, ws) ∧ t2.checkLaunch q.ctx c.arg0 ws false = (t3, .error code)) :=
  (by
    obtain ⟨q, t, c, h1, h2⟩ := of_nexts (P := fun q t c => c.op == 1 && (c.err == 0 && (!t.unitsBusy q.ctx c.arg0 256 false && (!t.unitsBusy q.ctx c.arg0 256 true &&
        oks (t.unitWords q.ctx c.arg0 32) fun x => let q := x.1.checkLaunch q.ctx c.arg0 x.2 false; errs q.2))))
      (show nexts (stCmd ringQ [1, 0x110000]) _ = true by decide +kernel)
    simp only [Bool.and_eq_true, beq_iff_eq, Bool.not_eq_true'] at h2
    obtain ⟨h3, h4, h5, h6, h7⟩ := h2
    obtain ⟨x, h10, h8⟩ := of_oks h7
    obtain ⟨g, h9⟩ := of_errs h8
    exact ⟨0, q, t, c, x.1, (x.1.checkLaunch q.ctx c.arg0 x.2 false).1, x.2, g, _, h1, h3, h4, h5, h6, h10, Prod.ext rfl h9⟩)

theorem witness_QueueEvents_3 :
    (∃ (queue : Nat) (q : Queue) (t : State) (c : Command) (t2 : State) (v : Nat) (s : State), s.nextCmd queue = some (q, .ok (t, c)) ∧ c.op = 2 ∧ c.err = 0 ∧ t.unitBusy q.ctx c.arg0 false = false ∧ t.readCounter q.ctx c.arg0 = .ok (t2, v) ∧ c.arg1 ≤ v) ∧
    (∃ (queue : Nat) (q : Queue) (t : State) (c : Command) (t2 : State) (v : Nat) (s : State), s.nextCmd queue = some (q, .ok (t, c)) ∧ c.op = 2 ∧ c.err = 0 ∧ t.unitBusy q.ctx c.arg0 false = false ∧ t.readCounter q.ctx c.arg0 = .ok (t2, v) ∧ v < c.arg1) ∧
    (∃ (queue index : Nat) (q : Queue) (c : QCmd) (t : State) (v : Nat) (s : State), s.queues.get? queue = some q ∧
    (q.live.find? fun c => c.index == BitVec.ofNat 32 index && c.op == 2 && q.refused != some (BitVec.ofNat 32 index)) = some c ∧
    s.unitBusy q.ctx c.addr false = false ∧ s.readCounter q.ctx c.addr = .ok (t, v) ∧ c.value.toNat ≤ v) :=
  ⟨(by
    obtain ⟨q, t, c, h1, h2⟩ := of_nexts (P := fun q t c => c.op == 2 && (c.err == 0 && (!t.unitBusy q.ctx c.arg0 false && oks (t.readCounter q.ctx c.arg0) fun x => decide (c.arg1 ≤ x.2))))
      (show nexts (stCmd ringQ [2, 0x110600, 0]) _ = true by decide +kernel)
    simp only [Bool.and_eq_true, beq_iff_eq, Bool.not_eq_true'] at h2
    obtain ⟨h3, h4, h5, h6⟩ := h2
    obtain ⟨x, h7, h8⟩ := of_oks h6
    exact ⟨0, q, t, c, x.1, x.2, _, h1, h3, h4, h5, h7, of_decide_eq_true h8⟩),
    (by
    obtain ⟨q, t, c, h1, h2⟩ := of_nexts (P := fun q t c => c.op == 2 && (c.err == 0 && (!t.unitBusy q.ctx c.arg0 false && oks (t.readCounter q.ctx c.arg0) fun x => decide (x.2 < c.arg1))))
      (show nexts (stCmd ringQ [2, 0x110600, 5]) _ = true by decide +kernel)
    simp only [Bool.and_eq_true, beq_iff_eq, Bool.not_eq_true'] at h2
    obtain ⟨h3, h4, h5, h6⟩ := h2
    obtain ⟨x, h7, h8⟩ := of_oks h6
    exact ⟨0, q, t, c, x.1, x.2, _, h1, h3, h4, h5, h7, of_decide_eq_true h8⟩),
    (by
    obtain ⟨x, h1, h2⟩ := of_oks (P := fun x => decide ((0 : W64).toNat ≤ x.2))
      (show oks ((stCmd { ringQ with live := [{ index := 0, op := 2, addr := 0x110600 }] } []).readCounter 0 0x110600) _ = true by decide +kernel)
    exact ⟨0, 0, { ringQ with live := [{ index := 0, op := 2, addr := 0x110600 }] }, { index := 0, op := 2, addr := 0x110600 }, x.1, x.2, stCmd { ringQ with live := [{ index := 0, op := 2, addr := 0x110600 }] } [], rfl, rfl, by decide +kernel, h1, of_decide_eq_true h2⟩)⟩

theorem witness_QueueEvents_4 :
    (∃ (queue index : Nat) (q : Queue) (c : QCmd) (x : Trap) (s : State), s.queues.get? queue = some q ∧
    (q.live.find? fun c => c.index == BitVec.ofNat 32 index && c.op == 2 && q.refused != some (BitVec.ofNat 32 index)) = some c ∧
    s.unitBusy q.ctx c.addr false = false ∧ s.readCounter q.ctx c.addr = .error x) ∧
    (∃ (queue : Nat) (q : Queue) (t : State) (c : Command) (t2 : State) (s : State), s.nextCmd queue = some (q, .ok (t, c)) ∧ c.op = 3 ∧ c.err = 0 ∧ t.unitBusy q.ctx c.arg0 true = false ∧ t.bumpCounter q.ctx c.arg0 c.arg1 = .ok t2) ∧
    (∃ (queue : Nat) (q : Queue) (t : State) (c : Command) (s : State), s.nextCmd queue = some (q, .ok (t, c)) ∧ c.op = 4 ∧ c.err = 0) ∧
    (∃ (queue : Nat) (q : Queue) (code : Nat) (s : State), s.nextCmd queue = some (q, .error code)) ∧
    (∃ (queue : Nat) (q : Queue) (t : State) (c : Command) (s : State), s.nextCmd queue = some (q, .ok (t, c)) ∧ c.err ≠ 0) ∧
    (∃ (queue n : Nat) (q : Queue) (t u : State) (ws : List Nat) (d : Descriptor) (s : State), s.queues.get? queue = some q ∧ q.xfer = some n ∧ s.nextRing n = some queue ∧ (s.fdie (n / 4)).inService = true ∧ s.unitsBusy q.ctx (q.slotVa q.next) 64 false = false ∧
    s.unitWords q.ctx (q.slotVa q.next) 8 = .ok (t, ws) ∧ t.descriptor (t.ctxDev q.ctx) ws = some d ∧
    t.acceptXfer n { d.xfer q.ctx with queue := some queue } = some u) ∧
    (∃ (queue n : Nat) (q : Queue) (t : State) (ws : List Nat) (s : State), s.queues.get? queue = some q ∧ q.xfer = some n ∧ s.nextRing n = some queue ∧ (s.fdie (n / 4)).inService = true ∧ s.unitsBusy q.ctx (q.slotVa q.next) 64 false = false ∧
    s.unitWords q.ctx (q.slotVa q.next) 8 = .ok (t, ws) ∧ t.descriptor (t.ctxDev q.ctx) ws = none) ∧
    (∃ (engine slot : Nat) (x : Xfer) (t : State) (v : Unit) (s : State), s.engineRuns engine slot = some x ∧ x.off < x.len ∧ s.moveXfer engine slot x = .ok t v) ∧
    (∃ (engine slot : Nat) (x : Xfer) (t : State) (s : State), s.engineRuns engine slot = some x ∧ x.len ≤ x.off ∧ s.xferOwes x = false ∧
    (x.counter = 0 ∨ s.unitBusy x.ctx x.counter true = false) ∧ s.addCounter x.ctx x.counter 1 = .ok t) ∧
    (∃ (engine slot : Nat) (x : Xfer) (t : State) (f : Trap) (s : State), s.engineRuns engine slot = some x ∧ x.off < x.len ∧ s.moveXfer engine slot x = .trap t f) ∧
    (∃ (engine slot : Nat) (x : Xfer) (f : Trap) (s : State), s.engineRuns engine slot = some x ∧ x.len ≤ x.off ∧ s.addCounter x.ctx x.counter 1 = .error f) :=
  ⟨(by
    obtain ⟨x, h1⟩ := of_errs (show errs ((stCmd { ringQ with live := [{ index := 0, op := 2, addr := 0x5000000 }] } []).readCounter 0 0x5000000) = true by decide +kernel)
    exact ⟨0, 0, { ringQ with live := [{ index := 0, op := 2, addr := 0x5000000 }] }, { index := 0, op := 2, addr := 0x5000000 }, x, stCmd { ringQ with live := [{ index := 0, op := 2, addr := 0x5000000 }] } [], rfl, rfl, by decide +kernel, h1⟩),
    (by
    obtain ⟨q, t, c, h1, h2⟩ := of_nexts (P := fun q t c => c.op == 3 && (c.err == 0 && (!t.unitBusy q.ctx c.arg0 true && oks (t.bumpCounter q.ctx c.arg0 c.arg1) fun _ => true)))
      (show nexts (stCmd ringQ [3, 0x110600, 1]) _ = true by decide +kernel)
    simp only [Bool.and_eq_true, beq_iff_eq, Bool.not_eq_true'] at h2
    obtain ⟨h3, h4, h5, h6⟩ := h2
    obtain ⟨x, h7, -⟩ := of_oks h6
    exact ⟨0, q, t, c, x, _, h1, h3, h4, h5, h7⟩),
    (by
    obtain ⟨q, t, c, h1, h2⟩ := of_nexts (P := fun q t c => c.op == 4 && c.err == 0) (show nexts (stCmd ringQ [4]) _ = true by decide +kernel)
    simp only [Bool.and_eq_true, beq_iff_eq] at h2
    exact ⟨0, q, t, c, _, h1, h2.1, h2.2⟩),
    (⟨0, { ringQ with ring := 0x5000000 }, 7, stCmd { ringQ with ring := 0x5000000 } [], by rfl⟩),
    (by
    obtain ⟨q, t, c, h1, h2⟩ := of_nexts (P := fun q t c => c.err != 0) (show nexts (stCmd ringQ [9]) _ = true by decide +kernel)
    exact ⟨0, q, t, c, _, h1, bne_iff_ne.1 h2⟩),
    (by
    obtain ⟨x, h1, h2⟩ := of_oks (P := fun x => ((x.1.descriptor (x.1.ctxDev 0) x.2).bind fun d => x.1.acceptXfer 0 { d.xfer 0 with queue := some 0 }).isSome)
      (show oks ((stCmd { ringQ with xfer := some 0 } [0x110000, 0x110100, 16, 0, 0]).unitWords 0 0x114000 8) _ = true by decide +kernel)
    obtain ⟨u, h3⟩ := Option.isSome_iff_exists.1 h2
    obtain ⟨d, h4, h5⟩ := Option.bind_eq_some_iff.1 h3
    exact ⟨0, 0, { ringQ with xfer := some 0 }, x.1, u, x.2, d, stCmd { ringQ with xfer := some 0 } [0x110000, 0x110100, 16, 0, 0], rfl, rfl, by decide +kernel, by decide +kernel, by decide +kernel, h1, h4, h5⟩),
    (by
    obtain ⟨x, h1, h2⟩ := of_oks (P := fun x => (x.1.descriptor (x.1.ctxDev 0) x.2).isNone)
      (show oks ((stCmd { ringQ with xfer := some 0 } []).unitWords 0 0x114000 8) _ = true by decide +kernel)
    exact ⟨0, 0, { ringQ with xfer := some 0 }, x.1, x.2, stCmd { ringQ with xfer := some 0 } [], rfl, rfl, by decide +kernel, by decide +kernel, by decide +kernel, h1, Option.isNone_iff_eq_none.1 h2⟩),
    (by
    obtain ⟨t, v, h1, -⟩ := of_gotOk (show gotOk ((stX (xfer1 0)).moveXfer 0 0 (xfer1 0)) (fun _ _ => true) = true by decide +kernel)
    exact ⟨0, 0, xfer1 0, t, v, stX (xfer1 0), by decide +kernel, by decide, h1⟩),
    (by
    obtain ⟨t, h1, -⟩ := of_oks (show oks ((stX (xfer1 16)).addCounter 0 0x110600 1) (fun _ => true) = true by decide +kernel)
    exact ⟨0, 0, xfer1 16, t, stX (xfer1 16), by decide +kernel, by decide, by decide +kernel, Or.inr (by decide +kernel), h1⟩),
    (by
    obtain ⟨t, f, h1, -⟩ := of_gotTrap (show gotTrap ((stX { xfer1 0 with src := 0x5000000 }).moveXfer 0 0 { xfer1 0 with src := 0x5000000 }) (fun _ _ => true) = true by decide +kernel)
    exact ⟨0, 0, { xfer1 0 with src := 0x5000000 }, t, f, stX { xfer1 0 with src := 0x5000000 }, by decide +kernel, by decide, h1⟩),
    (by
    obtain ⟨f, h1⟩ := of_errs (show errs ((stX { xfer1 16 with counter := 0x5000000 }).addCounter 0 0x5000000 1) = true by decide +kernel)
    exact ⟨0, 0, { xfer1 16 with counter := 0x5000000 }, f, stX { xfer1 16 with counter := 0x5000000 }, by decide +kernel, by decide, h1⟩)⟩

theorem witness_LinkAndDieEvents :
    (∃ (link : Nat) (s : State), link < 28 ∧ (s.link link).st = .active ∧ (s.link link).unacked = [] ∧ (s.link link).lastUse + 2000 ≤ s.linkTime link) ∧
    (∃ (link : Nat) (s : State), link < 28 ∧ (s.link link).st = .sleep) ∧
    (∃ (link : Nat) (s : State), link < 28 ∧ ((s.link link).st = .waking ∨ (s.link link).st = .slow)) ∧
    (∃ (link : Nat) (s : State), link < 28 ∧ (s.link link).st = .waking ∧ (s.link link).since + 5000 ≤ s.linkTime link) ∧
    (∃ (link : Nat) (s : State), link < 28 ∧ (s.link link).st = .slow ∧ (s.link link).since + 200000 ≤ s.linkTime link) ∧
    (∃ (link : Nat) (s : State), link < 28 ∧ (s.link link).st = .active ∧ 16 ≤ (s.link link).retries) ∧
    (∃ (link seq : Nat) (s : State), link < 28 ∧ (s.link link).st = .active) ∧
    (∃ (link : Nat) (s : State), link < 28 ∧ (s.link link).st = .active) ∧
    (∃ (d : Nat) (s : State), (s.cdie d).inService = true ∧ d < 16) ∧
    (∃ (f : Nat) (s : State), (s.fdie f).inService = true) ∧
    (∃ (d : Nat) (s : State), (s.cdie d).heartbeat + 3000 ≤ s.monitorTime (.compute d)) ∧
    (∃ (f : Nat) (s : State), (s.fdie f).heartbeat + 3000 ≤ s.monitorTime (.foundation f)) ∧
    (∃ (dev peer va : Nat) (n : Nat) (l : List (LineRef × Nat)) (s : State), s.peerRange dev peer va n false = some l ∧ ((l.map Prod.fst).eraseDups.any fun x => s.lineBusy x false) = true) ∧
    (∃ (dev peer va : Nat) (n : Nat) (l : List (LineRef × Nat)) (s : State), s.peerRange dev peer va n false = some l ∧ ((l.map Prod.fst).eraseDups.any fun x => s.lineBusy x false) = false) ∧
    (∃ (dev peer va : Nat) (data : List Byte) (l : List (LineRef × Nat)) (s : State), s.peerRange dev peer va data.length true = some l ∧ ((l.map Prod.fst).eraseDups.any fun x => s.lineBusy x true) = true) ∧
    (∃ (dev peer va : Nat) (data : List Byte) (l : List (LineRef × Nat)) (s : State), s.peerRange dev peer va data.length true = some l ∧ ((l.map Prod.fst).eraseDups.any fun x => s.lineBusy x true) = false) ∧
    (∃ (dev peer va : Nat) (aop : AtomOp) (ty : ITy) (b : Nat) (l : List (LineRef × Nat)) (s : State), va % (ty.width / 8) = 0 ∧ s.peerRange dev peer va (ty.width / 8) true = some l ∧ ((l.map Prod.fst).eraseDups.any fun x => s.lineBusy x true) = true) ∧
    (∃ (dev peer va : Nat) (aop : AtomOp) (ty : ITy) (b : Nat) (l : List (LineRef × Nat)) (s : State), va % (ty.width / 8) = 0 ∧ s.peerRange dev peer va (ty.width / 8) true = some l ∧ ((l.map Prod.fst).eraseDups.any fun x => s.lineBusy x true) = false) ∧
    (∃ (dev peer queue tail : Nat) (q : Queue) (w : PeerWin) (s : State), s.queues.get? queue = some q ∧ s.exported dev peer (doorBase + 8 * (queue % 256)) false true = some w ∧
    queue / 256 = dev ∧ q.ctx = w.ctx ∧ q.st ≠ .suspended) ∧
    (∃ (dev peer : Nat) (s : State), ((s.dev dev).imports.any fun w => w.peer == peer) = true) ∧
    (∃ (port : Nat) (s : State), port < 2 ∧ ((s.ports[port]?).getD {}).up = true) ∧
    (∃ (dev port : Nat) (s : State), (s.dev dev).baton = .held port ∧ dev < s.devCount ∧ (s.dev dev).leaseStart + (s.dev dev).period ≤ s.svcTime) ∧
    (∃ (dev port : Nat) (s : State), (s.dev dev).baton = .opened ∧ (s.dev dev).lastPort = some port ∧ dev < s.devCount ∧
    (s.dev dev).leaseStart + (s.dev dev).window ≤ s.svcTime) :=
  ⟨⟨0, stLink {} 2000, by decide +kernel⟩,
    ⟨0, stLink { st := .sleep } 0, by decide +kernel⟩,
    ⟨0, stLink { st := .waking } 0, by decide +kernel⟩,
    ⟨0, stLink { st := .waking } 5000, by decide +kernel⟩,
    ⟨0, stLink { st := .slow } 200000, by decide +kernel⟩,
    ⟨0, stLink { retries := 16 } 0, by decide +kernel⟩,
    ⟨0, 3, st, by decide +kernel⟩,
    ⟨0, st, by decide +kernel⟩,
    ⟨15, st, by decide +kernel⟩,
    ⟨0, st, by decide +kernel⟩,
    ⟨0, late 3000, by decide +kernel⟩,
    ⟨0, late 3000, by decide +kernel⟩,
    ⟨0, 1, 0x110000, 1, [(line0, hbmPlace 0 0 65536)], stExp.modDev 0 fun v => { v with purging := [(0, 0x110000, 0x10000)] }, by decide +kernel⟩,
    ⟨0, 1, 0x110000, 1, [(line0, hbmPlace 0 0 65536)], stExp, by decide +kernel⟩,
    ⟨0, 1, 0x110000, [7], [(line0, hbmPlace 0 0 65536)], stExp.modDev 0 fun v => { v with purging := [(0, 0x110000, 0x10000)] }, by decide +kernel⟩,
    ⟨0, 1, 0x110000, [7], [(line0, hbmPlace 0 0 65536)], stExp, by decide +kernel⟩,
    ⟨0, 1, 0x110000, .add, .n32, 1, (List.range 4).map fun i => (line0, hbmPlace 0 0 65536 + i), stExp.modDev 0 fun v => { v with purging := [(0, 0x110000, 0x10000)] }, by decide +kernel⟩,
    ⟨0, 1, 0x110000, .add, .n32, 1, (List.range 4).map fun i => (line0, hbmPlace 0 0 65536 + i), stExp, by decide +kernel⟩,
    ⟨0, 1, 0, 3, queue1, { handle := 8, peer := 1, ctx := 0, va := doorBase, remote := 0, len := 0x10000, perm := 3 }, stExp, by decide +kernel⟩,
    ⟨0, 1, st.modDev 0 fun v => { v with imports := [{ handle := 9, peer := 1, ctx := 0, va := 0x1000000, remote := 0, len := 0x10000, perm := 3 }] }, by decide +kernel⟩,
    ⟨0, st, by decide +kernel⟩,
    ⟨0, 0, (late 25000000).modDev 0 fun v => { v with baton := .held 0 }, by decide +kernel⟩,
    ⟨0, 0, (late 25000000).modDev 0 fun v => { v with lastPort := some 0 }, by decide +kernel⟩⟩

theorem witness_PowerEvents :
    (∃ (s : State), s.pkg.policyRunning = true) ∧
    (∃ (s : State), s.pkg.policyRunning = true ∧ s.pkg.teleStart + 1000000 ≤ (s.fdie 0).ltime.toNat) ∧
    (∃ (die : Nat) (s : State), die < 16 ∧ (s.cdie die).throttled = false) ∧
    (∃ (die : Nat) (s : State), (s.cdie die).throttled = true) ∧
    (∃ (die : Nat) (s : State), s.pkg.heldReset = 0) ∧
    (∃ (s : State), s.pkg.heldReset = 0) ∧
    (∃ (s : State), s.pkg.heldReset = 0) ∧
    (∃ (found : BringUp) (s : State), s.pkg.heldReset = 1) ∧
    (∃ (s : State), s.pkg.inputLow = false) ∧
    (∃ (s : State), s.pkg.inputHigh = false) ∧
    (∃ (found : BringUp) (s : State), s.pkg.heldReset = 2) ∧
    (∃ (found : BringUp) (s : State), s.pkg.heldReset ≠ 2) ∧
    (∃ (watts : Nat) (s : State), s.pkg.limit < watts ∧ s.slowest = false) ∧
    (∃ (watts : Nat) (s : State), s.pkg.limit < watts ∧ s.slowest = true ∧
    (s.pkg.gateAt.map fun t => decide (s.svcTime < t + 10000)).getD false = false) ∧
    (∃ (watts : Nat) (s : State), watts < s.pkg.limit ∧ ((List.range 16).any fun d => decide ((s.cdie d).gate < 16)) = true ∧ (s.pkg.gateAt.map fun t => decide (s.svcTime < t + 10000)).getD false = false) ∧
    (∃ (watts : Nat) (s : State), watts < s.pkg.limit ∧ ((List.range 16).any fun d => decide ((s.cdie d).gate < 16)) = false) ∧
    (∃ (watts : Nat) (s : State), s.pkg.limit < watts ∧ s.slowest = true ∧ ((List.range 16).all fun d => decide ((s.cdie d).gate ≤ 2)) = true ∧
    (s.pkg.capLogged = 0 ∨ s.pkg.capLogged + 100000000 ≤ s.svcTime)) :=
  ⟨⟨st, by decide +kernel⟩,
    ⟨late 1000000, by decide +kernel⟩,
    ⟨15, st, by decide +kernel⟩,
    ⟨0, { st with cdies := [(0, { throttled := true })] }, by decide +kernel⟩,
    ⟨0, st, by decide +kernel⟩,
    ⟨st, by decide +kernel⟩,
    ⟨st, by decide +kernel⟩,
    ⟨{ lockstep := true, recordOk := true, trustedOk := true, identityOk := true, policyOk := true, deadCompute := [], deadFoundation := [] }, stP (fun p => { p with heldReset := 1 }) st, by decide +kernel⟩,
    ⟨st, by decide +kernel⟩,
    ⟨st, by decide +kernel⟩,
    ⟨{ lockstep := true, recordOk := true, trustedOk := true, identityOk := true, policyOk := true, deadCompute := [], deadFoundation := [] }, stP (fun p => { p with heldReset := 2 }) st, by decide +kernel⟩,
    ⟨{ lockstep := true, recordOk := true, trustedOk := true, identityOk := true, policyOk := true, deadCompute := [], deadFoundation := [] }, st, by decide +kernel⟩,
    ⟨4000, st, by decide +kernel⟩,
    ⟨4000, { st with cdies := (List.range 16).map fun d => (d, ({ clockMHz := 300, gate := 2 } : CDie)) }, by decide +kernel⟩,
    ⟨100, { st with cdies := (List.range 16).map fun d => (d, ({ clockMHz := 300, gate := 2 } : CDie)) }, by decide +kernel⟩,
    ⟨100, st, by decide +kernel⟩,
    ⟨4000, { st with cdies := (List.range 16).map fun d => (d, ({ clockMHz := 300, gate := 2 } : CDie)) }, ⟨by decide +kernel, by decide +kernel, by decide +kernel, Or.inl rfl⟩⟩⟩

theorem witness_ServiceEvents :
    (∃ (dev port vf addr : Nat) (s : State), ((s.ports[port]?).getD {}).up = true ∧ port < 2 ∧ vf ≤ 16 ∧ dev < s.devCount ∧ s.pkg.heldReset = 0 ∧
    64 ≤ (((s.ports[port]?).getD {}).func (funcKey dev vf)).outst) ∧
    (∃ (dev port vf addr : Nat) (t : State) (bs : List Byte) (s : State), ((s.ports[port]?).getD {}).up = true ∧ port < 2 ∧ vf ≤ 16 ∧
      dev < s.devCount ∧ s.pkg.heldReset = 0 ∧ (((s.ports[port]?).getD {}).func (funcKey dev vf)).outst < 64 ∧
      State.callerRead (.host port vf) (addr / 256 * 256) 256 s = .ok (t, bs)) ∧
    (∃ (dev port vf addr : Nat) (s : State), s.pkg.heldReset ≠ 0) ∧
    (∃ (c : Call) (kind : Nat) (i : Image) (s : State), (s.pkg.staging.find? fun p => p.1 == c) = some (c, kind) ∧ (s.pkg.fw kind).checking = some (i, 0) ∧ s.answerBusy c = false) ∧
    (∃ (c : Call) (kind v : Nat) (i : Image) (s : State), (s.pkg.staging.find? fun p => p.1 == c) = some (c, kind) ∧ (s.pkg.fw kind).checking = some (i, v + 1) ∧ s.answerBusy c = false) :=
  ⟨⟨0, 0, 0, 0, { st with ports := [{ funcs := [(funcKey 0 0, { outst := 64 })] }, {}] }, by decide +kernel⟩,
    (by
    obtain ⟨b, hb⟩ := apart_some
    have h := read_within (s := st) hb [] rfl 256 ((64 * b + 255) / 256 * 256 - 64 * b) (by omega)
    rw [show 64 * b + ((64 * b + 255) / 256 * 256 - 64 * b) = (64 * b + 255) / 256 * 256 by omega] at h
    exact ⟨0, 0, 0, 64 * b + 255, _, _, hostSt st b [], rfl, by decide, by decide, (by decide : 0 < st.devCount), rfl, (by decide : 0 < 64), h⟩),
    ⟨0, 0, 0, 0, stP (fun p => { p with heldReset := 1 }) st, by decide +kernel⟩,
    ⟨hc [], 0, image1, stStage 0, ⟨by decide +kernel, by decide +kernel, answer_calm 0 0 rfl (by decide +kernel)⟩⟩,
    ⟨hc [], 0, 2, image1, stStage 3, ⟨by decide +kernel, by decide +kernel, answer_calm 0 0 rfl (by decide +kernel)⟩⟩⟩

/-! ## The step, decoding, and the invariants -/

/-- Some instruction is decoded from a clause. -/
def decodesTo (r : Except (Nat × DecodeError) Clause) : Bool :=
  match r with
  | .ok c => !c.slots.isEmpty
  | .error _ => false
theorem of_decodesTo {r : Except (Nat × DecodeError) Clause} (h : decodesTo r = true) : ∃ c, r = .ok c ∧ ∃ x, x ∈ c.slots := by
  cases r with
  | error e => cases h
  | ok c =>
    refine ⟨c, rfl, ?_⟩
    cases hc : c.slots with
    | nil => simp [decodesTo, hc] at h
    | cons x r => exact ⟨x, List.mem_cons_self ..⟩

theorem witness_StepRuns :
    (∃ (s : State) (f : Focus) (i : Instr), s.agenda = [] ∧ s.pkg.heldReset = 0 ∧ s.cur = some f ∧ s.inClause f = true ∧ s.instrAt f = some i) ∧
    (∃ (s : State) (f : Focus), s.agenda = [] ∧ s.pkg.heldReset = 0 ∧ s.cur = some f ∧ s.inClause f = false ∧
      let t := (s.fetchFor f).startFor f
      t.inClause f = true ∧ (t.instrAt f).isSome = true) ∧
    (∃ (s : State) (i : Instr) (r : List Instr), s.agenda = i :: r ∧ s.pkg.heldReset = 0) ∧
    (∃ (addr room : Nat) (w : W64) (ws : List W64) (c : Clause), decodeClause addr room w ws = .ok c ∧ ∃ x, x ∈ c.slots) ∧
    (∃ (s : State) (g : Grid) (pc : Nat) (c : Clause), s.clauseAt g pc = .ok c ∧ ∃ x, x ∈ c.slots) := by
  refine ⟨⟨st2 { sub1 with clause := some { cl with slots := [⟨0, .nop ⟨0, none⟩⟩] } } [] [], .sub 0 0 0, .nop ⟨0, none⟩, rfl, rfl, rfl, by decide +kernel, by decide +kernel⟩,
    ⟨{ stCode with teams := [(0, { team1 with waves := [(0, wave2 idle1 [] [])] })] }, .sub 0 0 0, rfl, rfl, rfl, by decide +kernel, by decide +kernel⟩,
    ⟨{ st with agenda := [.nop ⟨0, none⟩] }, .nop ⟨0, none⟩, [], rfl, rfl⟩, ?_, ?_⟩
  · obtain ⟨c, h1, h2⟩ := of_decodesTo (show decodesTo (decodeClause 0x100000 64 0 [BitVec.ofNat 64 (rword 0x000 4 1 2 0 0x11)]) = true by decide +kernel)
    exact ⟨_, _, _, _, c, h1, h2⟩
  · obtain ⟨c, h1, h2⟩ := of_oks (P := fun c => !c.slots.isEmpty) (show oks (stCode.clauseAt grid1 0x100000) _ = true by decide +kernel)
    refine ⟨_, _, _, c, h1, ?_⟩
    cases hc : c.slots with
    | nil => simp [hc] at h2
    | cons x r => exact ⟨x, List.mem_cons_self ..⟩

/-- An R-form, a form with a 24-bit constant and one with a trailing constant, each with the word that the tables give it. -/
theorem witness_EncodeDecode :
    (∃ (i : Instr) (w : Nat), i.wf = true ∧ encode i = some w) ∧
    (∃ (w : Nat) (k : Option W64) (i : Instr), decode w k = .ok i) ∧
    (let i : Instr := .iaddI ⟨h, .n32, dv 4, v 1, 0xFFFFFF⟩
     i.wf = true ∧ (encode i).isSome = true) ∧
    (let i : Instr := .imaxL ⟨h, .s64, dv 4, v 6, c⟩
     i.wf = true ∧ (encode i).isSome = true) := by
  refine ⟨⟨.nop ⟨0, none⟩, _, by decide, rfl⟩, ⟨rword 0x000 4 1 2 0 0x11, none, ?_⟩, by decide, by decide⟩
  have hd : (match decode (rword 0x000 4 1 2 0 0x11) none with
    | .ok _ => true
    | .error _ => false) = true := by decide
  split at hd
  · rename_i i hi; exact ⟨i, hi⟩
  · cases hd

/-- `step` answers a next state. -/
def steps (s : State) : Bool :=
  match step s with
  | .next _ => true
  | _ => false
theorem of_steps {s : State} (hs : steps s = true) : ∃ t, step s = .next t := by
  unfold steps at hs
  split at hs
  · rename_i t ht; exact ⟨t, ht⟩
  · cases hs
theorem shaped_st : st.Shaped := by
  refine ⟨fun t ht => ?_, fun p hp => (by cases hp), fun p hp => (by cases hp)⟩
  rw [List.mem_singleton.1 ht]
  refine ⟨fun w hw => ?_, fun l hl => by cases hl⟩
  rw [List.mem_singleton.1 hw]
  refine ⟨rfl, fun k hk => ?_⟩
  rw [List.mem_singleton.1 hk]
  decide
theorem witness_MemoryKept : st.mem ≠ [] ∧ st.mem.wf = true ∧ ∃ t, step st = .next t :=
  ⟨by decide +kernel, by decide +kernel, of_steps (by decide +kernel)⟩
theorem witness_ShapesKept : st.Shaped ∧ ∃ t, step st = .next t := ⟨shaped_st, of_steps (by decide +kernel)⟩
theorem witness_PhaseCopies : st.PhasesBehind ∧ ∃ t, step st = .next t := by
  refine ⟨?_, of_steps (by decide +kernel)⟩
  intro p _ d _
  exact Nat.zero_le _
theorem witness_IssueAnswers :
    ∃ (i : Instr) (u : Use) (s : State) (t w k : Nat) (e : Ex), i.use = some u ∧ s.cur = some (.sub t w k) ∧ s.ex? t w k = some e :=
  ⟨.nop ⟨0, none⟩, _, st, 0, 0, 0, ex1, rfl, rfl, rfl⟩
theorem witness_BitCounts :
    ([.popc ⟨h, .b64, dv 4, v 6⟩, .clz ⟨h, .b32, dk 4, k 1⟩, .ctz ⟨h, .b64, dv 4, k 1⟩].all issuable) = true ∧
    (ex1.lane (U (.clz ⟨h, .b32, dv 4, v 20⟩)) 0).a % 2 ^ 32 = 0 ∧ (ex1.lane (U (.clz ⟨h, .b32, dv 4, v 12⟩)) 0).a % 2 ^ 32 ≠ 0 := by
  decide

/-- A call begins: it is its turn and it does not wait. -/
def Begins (code : Nat) (c : Call) (s : State) : Prop :=
  s.startable (code, c) = true ∧ (s.dev c.dev).waiting.contains (code, c) = false ∧ s.answerBusy c = false
theorem begins_of {s : State} {code : Nat} {c : Call} (hf : (s.fdie s.pkg.svcDie).inService = true) (h1 : (s.dev c.dev).calls = [(code, c)])
    (h2 : (s.dev c.dev).waiting = []) (hc : c.caller = .host 0 0) (h3 : calm s = true) : Begins code c s := by
  refine ⟨?_, by rw [h2]; rfl, answer_calm 0 0 hc h3⟩
  simp [State.startable, hf, h1, h2]
/-- A call that names no context of the device. -/
def noCtx : Call := { hc [] with ctx := 77 }
/-- The same state with the baton OPEN. -/
def svOpen (code : Nat) (c : Call) : State := (sv st code c).modDev 0 fun v => { v with baton := .opened }
/-- ServiceChecks: every call meets each of its checks, where it has that one. -/
theorem witness_ServiceChecks :
    -- in recovery
    (∀ code, Begins code (hc []) (stP (fun p => { p with recovery := true }) (sv st code (hc [])))) ∧
    ((List.range 0x31).filter fun n => inRecovery n ((hc []).arg 1 != 0)) = [0x25, 0x2C, 0x2D, 0x30] ∧
    -- a bad block, and a word past the arguments that is not zero
    (∀ code, Begins code { hc [] with bad := true } (sv st code { hc [] with bad := true })) ∧
    (∀ code, Begins code (hc (List.replicate 16 1)) (sv st code (hc (List.replicate 16 1)))) ∧
    (∃ x ∈ (hc (List.replicate 16 1)).args.drop 8, x ≠ 0) ∧
    -- no holder of the baton
    (∀ code, Begins code (hc []) (svOpen code (hc []))) ∧
    ((List.range 0x31).filter fun n => n != 0 && (svOpen 0 (hc [])).mayCall n (hc [])) = [0x03, 0x05, 0x23, 0x25, 0x2A, 0x2B, 0x2E, 0x30] ∧
    -- no such context
    (∀ code, Begins code noCtx (sv st code noCtx) ∧ (sv st code noCtx).mayCall code noCtx = true ∧ (sv st code noCtx).reaches noCtx 77 = false) ∧
    namesCtx 0x02 = true := by
  refine ⟨fun _ => begins_of rfl rfl rfl rfl rfl, by decide +kernel, fun _ => begins_of rfl rfl rfl rfl rfl, fun _ => begins_of rfl rfl rfl rfl rfl,
    ⟨1, by decide +kernel, by decide⟩, fun _ => begins_of rfl rfl rfl rfl rfl, by decide +kernel, fun code => ⟨begins_of rfl rfl rfl rfl rfl, ?_, rfl⟩, by decide⟩
  have : ((sv st code noCtx).dev 0).heldBy 0 = true := rfl
  change (_ || ((sv st code noCtx).dev 0).heldBy 0 || _ || _) = true
  rw [this, Bool.or_true]; rfl

/-! ## Terms that are not well formed, one for each check of Table 3.8 -/

/-- The check refuses every term of the list. -/
def refused (l : List Instr) : Bool := l.all fun i => !i.wf

/-- A type that the instruction does not take (Tables 5.1, 6.1, 6.7, 7.3, 7.5; R140, R185, R187, R209, R214). -/
theorem test_illFormed_type :
    refused [.iadd ⟨h, .b32, false, dv 4, v 1, v 2⟩, .iaddc ⟨h, .s32, dv 4, v 1, v 2, 3, 2⟩, .iabs ⟨h, .n32, false, dv 4, v 1⟩,
      .imulh ⟨h, .s16, dv 4, v 1, v 2⟩, .or ⟨h, .b16, dv 4, v 6, v 8⟩, .fadd ⟨h, .f64, .rne, false, .none, dv 4, v 6, v 8⟩,
      .faddF64 ⟨h, .f32, .rne, false, .none, dv 4, v 6, v 8⟩, .hadd2 ⟨h, .f32, .rne, false, .none, dv 4, v 1, v 2⟩,
      .dot4 ⟨h, .f16, none, .rne, false, dv 4, v 1, v 2, v 3⟩, .dot4 ⟨h, .e4, some .f32, .rne, false, dv 4, v 1, v 2, v 3⟩,
      .cvt ⟨h, .int .s32, .int .n32, .rz, .inf, true, dv 4, v 1⟩, .cvt ⟨h, .flt .blk, .flt .f32, .rz, .inf, true, dv 4, v 1⟩,
      .redux ⟨h, .and, .int .n32, dv 4, v 1⟩, .redux ⟨h, .fadd, .int .n32, dv 4, v 1⟩, .amax ⟨h, true, .e4, dv 4, v 1⟩] = true ∧
    refused [.ld ⟨f0, .b16, .rlx, .pkg, 1, k 0, none⟩, .st ⟨h, .s32, .rlx, .die, v 8, none, v 5⟩, .ldI ⟨f0, .s32, 4, v 8, 0x40⟩,
      .ldu ⟨h, .b128, .rlx, .sys, 4, ⟨false, 2⟩, none⟩, .atom ⟨f0, .inc, .s32, .rlx, .die, false, 3, v 6, v 1⟩,
      .red ⟨f0, .add, .b32, .rlx, .die, k 1, v 5⟩, .waitv ⟨h, .n32, v 6, v 2, ⟨false, 3⟩⟩,
      .accMov ⟨h, true, .e4, .rne, 6, ⟨false, 1⟩, ⟨false, 2⟩⟩] = true := by
  decide

/-- A vector operand whose register does not start a pair, a quad or a group of eight (R45, R209, R191), and a tile that does
not start its group (R263). -/
theorem test_illFormed_alignment :
    refused [.iadd ⟨h, .n64, false, dv 5, v 6, v 8⟩, .iadd ⟨h, .n64, false, dv 4, v 7, v 8⟩, .imad ⟨h, .s64, false, dv 4, v 6, v 8, v 9⟩,
      .imadw ⟨h, .n32, dv 4, v 1, v 2, v 3⟩, .leaI ⟨h, .s32, dv 4, v 7, 1⟩, .fclassF64 ⟨h, .f64, dv 4, v 7⟩, .lxch ⟨h, true, .lane, 3, dv 5, v 6, v 2⟩,
      .qblk ⟨h, .rne, .sat, 4, ⟨false, 4⟩, ⟨false, 1⟩, ⟨false, 2⟩⟩, .qunpk ⟨h, .rz, 12, ⟨true, 1⟩⟩, .ld ⟨f0, .b128, .rlx, .pkg, 2, k 0, none⟩,
      .ld ⟨f0, .b32, .rlx, .pkg, 2, v 1, none⟩, .atom ⟨f0, .cas, .b64, .rlx, .die, false, 4, v 6, v 2⟩, .phclose ⟨h, dv 5⟩, .brx ⟨h, v 5⟩,
      .ret ⟨h, ⟨false, 5⟩⟩, .csrr ⟨h, dv 5, 0x041⟩] = true ∧
    refused [.mma ⟨h, .m128n64, false, 3, 0, 1, none⟩, .mma ⟨h, .m128n128, false, 2, 0, 1, none⟩, .accLd ⟨h, true, 4, 3, ⟨false, 1⟩⟩,
      .accSt ⟨h, true, 6, ⟨false, 3⟩, ⟨false, 1⟩⟩, .accZero ⟨h, .m128n128, true, 4⟩, .accZero ⟨h, .m64n64, true, 1⟩,
      .accMov ⟨h, true, .f64, .rne, 5, ⟨false, 1⟩, ⟨false, 2⟩⟩, .cpy ⟨h, 2, .core, 3, v 6, v 8, ⟨false, 63⟩⟩,
      .cpyt ⟨h, 0, .sys, false, 0, ⟨false, 60⟩, v 36, ⟨false, 20⟩⟩] = true := by
  decide

/-- A uniform destination with a vector source, with a guard, or of an instruction that takes none (R84). -/
theorem test_illFormed_uniform :
    refused [.iadd ⟨h, .n32, false, dk 4, k 1, v 2⟩, .iadd ⟨⟨0, none, 1, false⟩, .n32, false, dk 4, k 1, k 2⟩,
      .iadd ⟨⟨0, none, 7, true⟩, .n32, false, dk 4, k 1, k 2⟩, .movs ⟨h, false, dk 4, .lane⟩, .scan ⟨h, .fadd, .flt .f32, true, dk 4, k 1⟩,
      .ballot ⟨⟨0, none, 1, false⟩, dk 4, 2⟩, .ldu ⟨⟨0, none, 1, false⟩, .b32, .rlx, .sys, 4, ⟨false, 2⟩, none⟩,
      .st ⟨h, .b128, .rlx, .die, v 8, none, k 4⟩, .atom ⟨f0, .cas, .b32, .rlx, .die, false, 3, v 6, k 2⟩,
      .squery ⟨⟨0, none, 1, false⟩, dk 4, ⟨false, 5⟩⟩] = true := by
  decide

/-- A modifier that the instruction does not take: a relation, a constant past its field, .FTZ with .BF16, a rounding mode, a
sign modifier, an order, a scope, a call code, a register that Table 2.3 does not list. -/
theorem test_illFormed_modifier :
    refused [.icmp ⟨h, .n32, .un, 3, v 0, k 3⟩, .icmpI ⟨h, .n32, .un, 3, v 1, 4⟩, .bfxI ⟨h, .n32, dv 4, v 1, 0x010000⟩,
      .byselI ⟨h, dv 4, v 1, 0x100000⟩, .fadd ⟨h, .bf16, .rne, true, .none, dv 4, v 1, v 2⟩, .fadd ⟨h, .f32, .sr, false, .none, dv 4, v 1, v 2⟩,
      .fsqrt ⟨h, .f32, .rne, false, .cps, dv 4, v 1⟩, .fexp2 ⟨h, .f32, .rz, false, .none, dv 4, v 1⟩, .faddF64 ⟨h, .f64, .rne, true, .none, dv 4, v 6, v 8⟩,
      .cvt ⟨h, .int .s32, .flt .f32, .rz, .sat, true, dv 4, v 1⟩, .cvt ⟨h, .flt .f32, .flt .f16, .sr, .inf, true, dv 4, v 1⟩,
      .qunpk ⟨h, .sr, 8, ⟨true, 1⟩⟩] = true ∧
    refused [.ld ⟨f0, .b32, .rel, .pkg, 1, k 0, none⟩, .st ⟨h, .b32, .acq, .die, v 8, none, v 5⟩, .red ⟨f0, .exch, .b32, .rlx, .die, k 1, v 5⟩,
      .red ⟨f0, .add, .n32, .acq, .die, k 1, v 5⟩, .cctl ⟨h, 1, some (v 8), none⟩, .cctl ⟨h, 2, none, none⟩, .fence ⟨h, .ar, false, .item⟩,
      .fence ⟨h, .rlx, false, .pkg⟩, .fence ⟨h, .acq, true, .pkg⟩, .barmArv ⟨h, .core, v 6⟩, .cpyg ⟨h, .wave, 3, ⟨false, 0⟩, ⟨false, 10⟩, ⟨false, 12⟩⟩,
      .svc ⟨h, 0, ⟨false, 1⟩⟩, .svc ⟨h, 0x31, ⟨false, 1⟩⟩, .csrr ⟨h, dv 4, 0x004⟩, .csrw ⟨h, ⟨false, 1⟩, 0x044⟩, .gridComplete 0] = true := by
  decide

/-- The decoder names what it refuses: an opcode that no row has, a bit of an unused field, an ill-formed word, an L-form
without its constant; and of a clause its class, its reserved bits, its end and an instruction of another class. -/
def refuses (w : Nat) (c : Option W64) (e : DecodeError) : Bool :=
  match decode w c with
  | .ok _ => false
  | .error x => x == e
def clauseRefuses (room : Nat) (hd : ClauseHeader) (ws : List Nat) (n : Nat) (e : DecodeError) : Bool :=
  match decodeClause 0 room (BitVec.ofNat 64 hd.word) (ws.map (BitVec.ofNat 64)) with
  | .ok _ => false
  | .error x => x == (n, e)
theorem test_decode_refuses :
    refuses (rword 0x3FF 0 0 0 0 0) none .fencedOpcode = true ∧ refuses (rword 0x000 4 1 2 1 0x1) none .reservedBits = true ∧
    refuses (rword 0x000 4 1 2 0 0x8) none .illFormed = true ∧ refuses (iword 0x060 4 6 0 2) none .missingConstant = true := by
  decide
theorem test_clause_refuses :
    clauseRefuses 64 ⟨8, 0, 0, false, false, 0⟩ [rword 0x000 4 1 2 0 1] 0 .headerClass = true ∧
    clauseRefuses 64 ⟨0, 0, 0, false, false, 1⟩ [rword 0x000 4 1 2 0 1] 0 .headerReserved = true ∧
    clauseRefuses 8 ⟨0, 0, 0, false, false, 0⟩ [rword 0x000 4 1 2 0 1] 0 .headerEnd = true ∧
    clauseRefuses 64 ⟨0, 0, 0, false, true, 0⟩ [rword 0x000 4 1 2 0 1] 0 .headerUnif = true ∧
    clauseRefuses 64 ⟨1, 0, 0, false, false, 0⟩ [rword 0x000 4 1 2 0 1] 1 .wrongClass = true ∧
    clauseRefuses 64 ⟨7, 1, 0, false, false, 0⟩ [rword 0x385 0 0 0 0 0, rword 0x393 0 0 0 0 0] 1 .notLast = true := by
  decide

/-! ## Results worked out by hand -/

/-- Lane 0 of v4 after one instruction on the wave of `st`, whose v10 holds 0x110000, v12 0xFFFFFFFF and v8 0. -/
def v4After (i : Instr) : Option W32 :=
  ((((after i st).wave? 0 0).bind fun w => w.vregs.get? 4).bind fun x => x.vals[0]?)
theorem test_iadd_wraps : v4After (.iadd ⟨h, .n32, false, dv 4, v 12, v 10⟩) = some 0x0010FFFF#32 := by decide +kernel
theorem test_iadd_saturates : v4After (.iadd ⟨h, .n32, true, dv 4, v 12, v 10⟩) = some 0xFFFFFFFF#32 := by decide +kernel
theorem test_isub_borrows : v4After (.isub ⟨h, .s32, false, dv 4, v 8, v 10⟩) = some 0xFFEF0000#32 := by decide +kernel
theorem test_imulh_signed : v4After (.imulh ⟨h, .s32, dv 4, v 12, v 10⟩) = some 0xFFFFFFFF#32 := by decide +kernel
theorem test_imulh_unsigned : v4After (.imulh ⟨h, .n32, dv 4, v 12, v 10⟩) = some 0x0010FFFF#32 := by decide +kernel
theorem test_idiv_signed : v4After (.idiv ⟨h, .s32, dv 4, v 10, v 12⟩) = some 0xFFEF0000#32 := by decide +kernel
theorem test_imin_signed : v4After (.imin ⟨h, .s32, dv 4, v 10, v 12⟩) = some 0xFFFFFFFF#32 := by decide +kernel
theorem test_imin_unsigned : v4After (.imin ⟨h, .n32, dv 4, v 10, v 12⟩) = some 0x00110000#32 := by decide +kernel
theorem test_sar_sign : v4After (.sarI ⟨h, .s32, dv 4, v 12, 4⟩) = some 0xFFFFFFFF#32 := by decide +kernel
theorem test_popc : v4After (.popc ⟨h, .b32, dv 4, v 12⟩) = some 32#32 := by decide +kernel
theorem test_clz : v4After (.clz ⟨h, .b32, dv 4, v 10⟩) = some 11#32 := by decide +kernel
/-- 1,114,112 is 1.0625 times 2 to the power 20. -/
theorem test_cvt : v4After (.cvt ⟨h, .flt .f32, .int .s32, .rne, .inf, false, dv 4, v 10⟩) = some 0x49880000#32 := by decide +kernel
/-- 1.5 + 0: the constant's top 24 bits. -/
theorem test_fadd_constant : v4After (.faddI ⟨h, .f32, dv 4, v 8, 0x3FC000⟩) = some 0x3FC00000#32 := by decide +kernel
/-- The write-only SVCDB reads zero, and the baton of a device is OPEN after package reset (Table 15.2, R426). -/
theorem test_readBar : State.reset.readBar 0 0 0 0 = 0 ∧ State.reset.readBar 0 0 0 0x10 = 2 := by decide +kernel

end Sys2Proof.Tests
end

