-- ==== Sys2Proof/Proofs/Reset.lean ====
section
/-!
SUPPORT. The state after package reset (R9, R73, R458).
-/
namespace Sys2Proof.Machine
open Sys2Proof

theorem State.reset_fdie (f : Nat) : State.reset.fdie f = {} :=
  List.getElem?_getD_replicate_default_eq (d := ({} : FDie)) 4 f

theorem State.reset_dev (d : Nat) : State.reset.dev d = {} :=
  List.getElem?_getD_replicate_default_eq (d := ({} : Dev)) 4 d

/-- Settles O4: the tables of `State.reset` are empty, and what is read of a core, die or device that they do not list is
that of its default (R9, R73, R458; log 1, 4, 6, 76). -/
theorem resetState : Obligations.ResetState :=
  ⟨rfl, rfl, rfl, rfl, rfl, rfl, rfl, rfl, rfl, rfl, rfl, rfl, fun _ => ⟨rfl, rfl⟩, fun _ => ⟨rfl, rfl⟩,
    fun f => by rw [State.reset_fdie], fun d => by rw [State.reset_dev]⟩

end Sys2Proof.Machine
end

