-- ==== Sys2Proof/Proofs/MemoryRules.lean ====
section
/-!
SUPPORT. The canonical form of memory, strictly rising by address with no byte of value 0 listed (log 1), as a property of what a
step, an attempt, a meaning or a reply answers, and the rules for folds and conditions.
-/
namespace Sys2Proof.Machine
open Sys2Proof

/-- Where a step answers a next state, its memory is in the canonical form. -/
def Res.MemWf (r : Res) : Prop :=
  match r with
  | .next s => s.mem.wf
  | .fault _ | .refused _ => True

/-- An attempt leaves memory in the canonical form, whatever it answers. -/
def Got.MemWf {α : Type} (r : Got α) : Prop :=
  match r with
  | .ok s _ | .trap s _ | .wait s => s.mem.wf

/-- The states in an answer of a meaning have memory in the canonical form, and a transfer of control keeps it. -/
def Issue.MemWf (a : Issue) : Prop :=
  match a with
  | .done s _ _ _ | .hold s _ => s.mem.wf
  | .jump s _ f => s.mem.wf ∧ ∀ t : State, t.mem.wf → (f t).mem.wf

/-- The states in an act of a span have memory in the canonical form, and a transfer of control keeps it. -/
def SpanAct.MemWf (a : SpanAct) : Prop :=
  match a with
  | .peel | .split _ => True
  | .done s _ _ _ | .stall s | .fault s _ => s.mem.wf
  | .jump s _ f => s.mem.wf ∧ ∀ t : State, t.mem.wf → (f t).mem.wf

/-- The state in a reply to a service call has memory in the canonical form. -/
def Reply.MemWf (a : Reply) : Prop :=
  match a with
  | .done s _ _ | .wait s => s.mem.wf
  | .later => True

/-- A step that keeps memory in the canonical form. -/
def MemStep (f : State → Res) : Prop := ∀ s : State, s.mem.wf → Res.MemWf (f s)

@[simp] theorem Res.memWf_next (s : State) : Res.MemWf (.next s) = (s.mem.wf = true) := rfl
@[simp] theorem Res.memWf_fault (r : Fault) : Res.MemWf (.fault r) = True := rfl
@[simp] theorem Res.memWf_refused (r : Refusal) : Res.MemWf (.refused r) = True := rfl
@[simp] theorem Got.memWf_ok {α : Type} (s : State) (a : α) : (Got.ok s a).MemWf = (s.mem.wf = true) := rfl
@[simp] theorem Got.memWf_trap {α : Type} (s : State) (t : Trap) : (Got.trap s t : Got α).MemWf = (s.mem.wf = true) := rfl
@[simp] theorem Got.memWf_wait {α : Type} (s : State) : (Got.wait s : Got α).MemWf = (s.mem.wf = true) := rfl
@[simp] theorem Issue.memWf_done (s : State) (r k t) : (Issue.done s r k t).MemWf = (s.mem.wf = true) := rfl
@[simp] theorem Issue.memWf_hold (s : State) (h) : (Issue.hold s h).MemWf = (s.mem.wf = true) := rfl
@[simp] theorem Issue.memWf_jump (s : State) (r f) : (Issue.jump s r f).MemWf =
    (s.mem.wf = true ∧ ∀ t : State, t.mem.wf → (f t).mem.wf) := rfl
@[simp] theorem SpanAct.memWf_peel : SpanAct.peel.MemWf = True := rfl
@[simp] theorem SpanAct.memWf_split (p) : (SpanAct.split p).MemWf = True := rfl
@[simp] theorem SpanAct.memWf_done (s : State) (r k t) : (SpanAct.done s r k t).MemWf = (s.mem.wf = true) := rfl
@[simp] theorem SpanAct.memWf_stall (s : State) : (SpanAct.stall s).MemWf = (s.mem.wf = true) := rfl
@[simp] theorem SpanAct.memWf_fault (s : State) (t) : (SpanAct.fault s t).MemWf = (s.mem.wf = true) := rfl
@[simp] theorem SpanAct.memWf_jump (s : State) (r f) : (SpanAct.jump s r f).MemWf =
    (s.mem.wf = true ∧ ∀ t : State, t.mem.wf → (f t).mem.wf) := rfl
@[simp] theorem Reply.memWf_done (s : State) (a r) : (Reply.done s a r).MemWf = (s.mem.wf = true) := rfl
@[simp] theorem Reply.memWf_wait (s : State) : (Reply.wait s).MemWf = (s.mem.wf = true) := rfl
@[simp] theorem Reply.memWf_later : Reply.later.MemWf = True := rfl

theorem Got.Calm.memWf {α : Type} {s : State} {r : Got α} (hr : r.Calm s) (hm : s.mem.wf) : r.MemWf := by
  cases r <;> exact State.Calm.mem hr hm

theorem Got.MemWf.of_ok {α : Type} {r : Got α} (hr : r.MemWf) {s : State} {a : α} (h : r = .ok s a) : s.mem.wf = true := by
  rwa [h] at hr
theorem Got.MemWf.of_trap {α : Type} {r : Got α} (hr : r.MemWf) {s : State} {t : Trap} (h : r = .trap s t) :
    s.mem.wf = true := by
  rwa [h] at hr
theorem Got.MemWf.of_wait {α : Type} {r : Got α} (hr : r.MemWf) {s : State} (h : r = .wait s) : s.mem.wf = true := by
  rwa [h] at hr

@[simp] theorem foldl_mem {β : Type} {f : State → β → State} (hf : ∀ s x, (f s x).mem = s.mem) (l : List β) (s : State) :
    (l.foldl f s).mem = s.mem := by
  induction l generalizing s with
  | nil => rfl
  | cons x r ih => exact (ih _).trans (hf s x)

theorem foldl_wf {β : Type} {f : State → β → State} (hf : ∀ (s : State) x, s.mem.wf → (f s x).mem.wf) (l : List β)
    {s : State} (h : s.mem.wf) : (l.foldl f s).mem.wf := by
  induction l generalizing s with
  | nil => exact h
  | cons x r ih => exact ih (hf s x h)

@[simp] theorem State.mem_ite (c : Prop) [Decidable c] (s t : State) : (if c then s else t).mem = if c then s.mem else t.mem :=
  apply_ite State.mem c s t
@[simp] theorem Memory.wf_ite (c : Prop) [Decidable c] (m n : Memory) : (if c then m else n).wf = if c then m.wf else n.wf :=
  apply_ite Memory.wf c m n

theorem foldl_put_wf {m : Memory} (h : m.wf) (l : List (Nat × Byte)) : (l.foldl (fun m p => Memory.put m p.1 p.2) m).wf = true :=
  List.foldlRecOn (motive := fun m : Memory => m.wf = true) l _ h fun m h _ _ => Memory.put_wf m _ _ h

end Sys2Proof.Machine
end

