-- ==== Sys2Proof/Proofs/MemoryHomes.lean ====
section
/-!
SUPPORT. Records, stashes, homes and spans: what leaves memory as it is (`_mem`), and what keeps its
canonical form (`_wf`).
-/
namespace Sys2Proof.Machine
open Sys2Proof

@[simp] theorem State.raiseMsix_mem (s : State) (d vf vector) : (State.raiseMsix s d vf vector).mem = s.mem := by
  unfold State.raiseMsix
  split <;> simp

@[simp] theorem State.logEvent_mem (s : State) (fnd e) : (State.logEvent s fnd e).mem = s.mem := by simp [State.logEvent]

@[simp] theorem State.addRecord_mem (s : State) (r) : (State.addRecord s r).1.mem = s.mem := by
  unfold State.addRecord
  dsimp only
  repeat' split
  all_goals simp

@[simp] theorem State.raiseRecord_mem (s : State) (r) : (State.raiseRecord s r).mem = s.mem := by simp [State.raiseRecord]

@[simp] theorem State.deliverTrap_mem (s : State) (t w k) : (State.deliverTrap s t w k).mem = s.mem := by
  unfold State.deliverTrap
  repeat' split
  all_goals simp

@[simp] theorem State.takeTraps_mem (s : State) (t w k tr pc entry) : (State.takeTraps s t w k tr pc entry).mem = s.mem := by
  refine foldl_mem (fun s x => ?_) _ _
  split <;> simp

@[simp] theorem State.untag_mem (s : State) (tag) : (State.untag s tag).mem = s.mem := by
  unfold State.untag
  split <;> simp

@[simp] theorem State.untagAll_mem (s : State) (fl) : (State.untagAll s fl).mem = s.mem := by simp [State.untagAll]

@[simp] theorem State.finishWave_mem (s : State) (t w seq) : (State.finishWave s t w seq).mem = s.mem := by
  unfold State.finishWave
  split <;> simp

@[simp] theorem State.finishSpan_mem (s : State) (i seq) : (State.finishSpan s i seq).mem = s.mem := by
  unfold State.finishSpan
  split <;> simp

@[simp] theorem State.finishOwner_mem (s : State) (o seq) : (State.finishOwner s o seq).mem = s.mem := by
  unfold State.finishOwner
  split <;> simp

@[simp] theorem State.poisonAt_mem (s : State) (place) : (State.poisonAt s place).mem = s.mem := by rfl

@[simp] theorem State.setSector_mem (s : State) (core sec st entry) : (State.setSector s core sec st entry).mem = s.mem := by
  rfl

@[simp] theorem State.dropSector_mem (s : State) (core sec) : (State.dropSector s core sec).mem = s.mem := by rfl

@[simp] theorem State.unregister_mem (s : State) (core ls) : (State.unregister s core ls).mem = s.mem := by
  simp [State.unregister]

@[simp] theorem State.freeEntry_mem (s : State) (core entry) : (State.freeEntry s core entry).mem = s.mem := by rfl

@[simp] theorem State.writebackDone_wf {s : State} (hm : s.mem.wf) {core sec} :
    (State.writebackDone s core sec).mem.wf = true :=
  (State.writebackDone_calm s core sec).mem hm

@[simp] theorem State.displace_mem (s : State) (core entry) : (State.displace s core entry).mem = s.mem := by
  unfold State.displace
  dsimp only
  split
  · rfl
  · refine (State.freeEntry_mem _ _ _).trans ((foldl_mem (fun s p => ?_) _ _).trans (State.modCore_mem _ _ _))
    split <;> simp

@[simp] theorem State.discard_mem (s : State) (core entry) : (State.discard s core entry).mem = s.mem := by
  unfold State.discard
  dsimp only
  repeat' split
  all_goals simp

@[simp] theorem State.flush_wf {s : State} (hm : s.mem.wf) {core entry} : (State.flush s core entry).mem.wf = true :=
  (State.flush_calm s core entry).mem hm

@[simp] theorem State.putEntry_mem (s : State) (e) : (State.putEntry s e).mem = s.mem := by simp [State.putEntry]

@[simp] theorem State.dropLine_mem (s : State) (l) : (State.dropLine s l).mem = s.mem := by rfl

@[simp] theorem State.recallStash_wf {s : State} (hm : s.mem.wf) {core l write} :
    (State.recallStash s core l write).mem.wf = true :=
  (State.recallStash_calm s core l write).mem hm

@[simp] theorem State.recallAt_wf {s : State} (hm : s.mem.wf) {l h write} : (State.recallAt s l h write).mem.wf = true :=
  (State.recallAt_calm s l h write).mem hm

@[simp] theorem State.leaveL1_mem (s : State) (core l) : (State.leaveL1 s core l).mem = s.mem := by
  unfold State.leaveL1
  split <;> simp

@[simp] theorem State.leaveIc_mem (s : State) (core l) : (State.leaveIc s core l).mem = s.mem := by
  unfold State.leaveIc
  dsimp only
  split
  · rfl
  · split <;> simp

@[simp] theorem State.cacheCode_mem (s : State) (core l) : (State.cacheCode s core l).mem = s.mem := by
  unfold State.cacheCode
  repeat' split
  all_goals simp

@[simp] theorem State.openReq_mem (s : State) (l q) : (State.openReq s l q).mem = s.mem := by simp [State.openReq]

@[simp] theorem State.openTxn_mem (s : State) (l who write partialOwn) :
    (State.openTxn s l who write partialOwn).mem = s.mem := by
  simp [State.openTxn]

@[simp] theorem State.putLine_wf {s : State} (hm : s.mem.wf) {place data} : (State.putLine s place data).mem.wf = true :=
  (State.putLine_calm s place data).mem hm

@[simp] theorem State.sendLine_mem (s : State) (port n place) : (State.sendLine s port n place).mem = s.mem := by rfl

@[simp] theorem State.hostLine_mem (s : State) (l held) : (State.hostLine s l held).mem = s.mem := by
  unfold State.hostLine
  split <;> simp

@[simp] theorem State.evictHost_mem (s : State) (l) : (State.evictHost s l).mem = s.mem := by
  unfold State.evictHost
  split <;> simp

@[simp] theorem State.leaveSlice_mem (s : State) (l) : (State.leaveSlice s l).mem = s.mem := by
  unfold State.leaveSlice
  split <;> simp

@[simp] theorem State.endTxn_wf {s : State} (hm : s.mem.wf) {l} : (State.endTxn s l).mem.wf = true :=
  (State.endTxn_calm s l).mem hm

@[simp] theorem State.ack_mem (s : State) (l h) : (State.ack s l h).mem = s.mem := by
  unfold State.ack
  dsimp only
  repeat' split
  all_goals simp

@[simp] theorem State.answerAll_wf {s : State} (hm : s.mem.wf) {l} : (State.answerAll s l).mem.wf = true :=
  (State.answerAll_calm s l).mem hm

@[simp] theorem State.closeTxn_wf {s : State} (hm : s.mem.wf) {l} : (State.closeTxn s l).mem.wf = true :=
  (State.closeTxn_calm s l).mem hm

@[simp] theorem State.evict_wf {s : State} (hm : s.mem.wf) {l} : (State.evict s l).mem.wf = true :=
  (State.evict_calm s l).mem hm

@[simp] theorem State.cacheWalk_mem (s : State) (unit asid p) : (State.cacheWalk s unit asid p).mem = s.mem := by
  simp [State.cacheWalk]

@[simp] theorem State.dropTlb_mem (s : State) (dev asid va len) : (State.dropTlb s dev asid va len).mem = s.mem := by rfl

theorem State.homeFill_wf {s : State} (hm : s.mem.wf) {l} : ∀ t ∈ State.homeFill s l, t.mem.wf = true :=
  fun _ hx => (State.homeFill_calm s l _ hx).mem hm

@[simp] theorem State.obtain_wf {s : State} (hm : s.mem.wf) {l who n} : (State.obtain s l who n).1.mem.wf = true :=
  (State.obtain_calm s l who n).mem hm

@[simp] theorem State.force_wf {s : State} (hm : s.mem.wf) {l write} : (State.force s l write).mem.wf = true :=
  (State.force_calm s l write).mem hm

@[simp] theorem State.obtainCode_wf {s : State} (hm : s.mem.wf) {core ls} : (s.obtainCode core ls).1.mem.wf = true := by
  refine List.foldlRecOn (motive := fun r : State × Bool => r.1.mem.wf = true) ls _ hm fun r hr l _ => ?_
  have ho := State.obtain_wf hr (l := l) (who := ⟨core, 0⟩) (n := .read)
  split
  · split <;> simp_all
  · exact hr

@[simp] theorem State.dropSlot_mem (s : State) (i) : (State.dropSlot s i).mem = s.mem := by
  unfold State.dropSlot
  split <;> simp

theorem State.mergeOnce_mem (s : State) (g pc : Nat) : ∀ t ∈ s.mergeOnce g pc, t.mem = s.mem := by
  intro t ht
  unfold State.mergeOnce at ht
  split at ht
  · cases ht
  · obtain ⟨a, ha⟩ := List.exists_of_findSome?_eq_some ht
    obtain ⟨b, hb⟩ := List.exists_of_findSome?_eq_some ha.2
    have := hb.2
    split at this
    · cases this
    · obtain ⟨m, -, rfl⟩ := Option.map_eq_some_iff.1 this
      rfl

@[simp] theorem State.mergeAll_mem (s : State) (n g pc) : (State.mergeAll n g pc s).mem = s.mem := by
  induction n generalizing s with
  | zero => rfl
  | succ k ih =>
    unfold State.mergeAll
    split
    · rfl
    · rename_i t ht
      exact (ih _).trans (State.mergeOnce_mem s g pc t ht)

@[simp] theorem State.releaseJoin_mem (s : State) (g pc) : (State.releaseJoin s g pc).mem = s.mem := by
  simp [State.releaseJoin]

@[simp] theorem State.checkJoin_mem (s : State) (g) : (State.checkJoin s g).mem = s.mem := by
  unfold State.checkJoin
  repeat' split
  all_goals simp

@[simp] theorem State.drainSpan_mem (s : State) (i sp) : (State.drainSpan s i sp).mem = s.mem := by
  unfold State.drainSpan
  split <;> simp

@[simp] theorem State.holdCut_mem (s : State) (i sp) : (State.holdCut s i sp).mem = s.mem := by simp [State.holdCut]

@[simp] theorem State.parkSpan_mem (s : State) (i sp core slot t) : (State.parkSpan s i sp core slot t).mem = s.mem := by
  unfold State.parkSpan
  dsimp only
  repeat' split
  all_goals simp

@[simp] theorem State.toCursor_mem (s : State) (i sp) : (State.toCursor s i sp).mem = s.mem := by simp [State.toCursor]

@[simp] theorem State.peelSpan_mem (s : State) (i sp) : (State.peelSpan s i sp).mem = s.mem := by simp [State.peelSpan]

@[simp] theorem State.splitSpan_mem (s : State) (i sp p) : (State.splitSpan s i sp p).mem = s.mem := by
  unfold State.splitSpan
  repeat' split
  all_goals simp

end Sys2Proof.Machine
end

