-- ==== Sys2Proof/Proofs/MemoryIssue.lean ====
section
/-!
SUPPORT. The issue of an instruction: what leaves memory as it is (`_mem`), and what keeps its
canonical form (`_wf`).
-/
namespace Sys2Proof.Machine
open Sys2Proof

@[simp] theorem State.coverStall_mem (s : State) (e seqs) : (State.coverStall s e seqs).mem = s.mem := by
  simp [State.coverStall]

@[simp] theorem State.yieldPort_mem (s : State) (e) : (State.yieldPort s e).mem = s.mem := by
  unfold State.yieldPort
  split <;> simp

@[simp] theorem State.settle_mem (s : State) (e u opc r kind tag p) : (State.settle s e u opc r kind tag p).mem = s.mem := by
  simp [State.settle]

theorem State.depart_wf {s : State} {f : State → State} (hm : s.mem.wf) (hf : ∀ t : State, t.mem.wf → (f t).mem.wf)
    {e u opc r p} : (s.depart e u opc r f p).mem.wf = true := by
  unfold State.depart
  simpa using hf _ (by simpa using hm)

@[simp] theorem State.holdOn_mem (s : State) (e u opc h) : (State.holdOn s e u opc h).mem = s.mem := by
  unfold State.holdOn
  split <;> simp

theorem Issue.conclude_wf {a : Issue} (ha : a.MemWf) {e u opc p} : (a.conclude e u opc p).mem.wf = true := by
  cases a with
  | done s r kind tag => simpa [Issue.conclude] using ha
  | jump s r f => exact State.depart_wf ha.1 ha.2
  | hold s h => simpa [Issue.conclude] using ha

theorem State.issueSub_wf {s : State} {body : State → Ex → Lanes → Issue} (hm : s.mem.wf)
    (hb : ∀ (s : State) (e : Ex) (p : Lanes), s.mem.wf → (body s e p).MemWf) {e u opc} :
    (s.issueSub e u opc body).mem.wf = true := by
  unfold State.issueSub
  split
  · exact hm
  · split
    · exact Issue.conclude_wf (hb _ _ _ hm)
    · dsimp only
      split
      · exact hm
      · split
        · exact Issue.conclude_wf (hb _ _ _ hm)
        · split
          · simpa using hm
          · split
            · simpa using hm
            · split
              · simpa using hm
              · exact Issue.conclude_wf (hb _ _ _ (by simpa using hm))

@[simp] theorem State.settleSpan_mem (s : State) (i sp u opc r kind tag) :
    (State.settleSpan s i sp u opc r kind tag).mem = s.mem := by
  rfl

@[simp] theorem Span.lanewise_wf {s : State} (hm : s.mem.wf) {sp g u rule f} : (Span.lanewise s sp g u rule f).MemWf := by
  unfold Span.lanewise
  repeat' split
  all_goals simp [hm]

@[simp] theorem State.coverSpan_mem (s : State) (i core seqs) : (State.coverSpan s i core seqs).mem = s.mem := by
  simp [State.coverSpan]

theorem State.issueSpan_wf {s : State} {act : State → Span → SpanAct} (hm : s.mem.wf)
    (ha : ∀ (s : State) (sp : Span), s.mem.wf → (act s sp).MemWf) {i sp core u opc always branch} :
    (s.issueSpan i sp core u opc always branch act).mem.wf = true := by
  unfold State.issueSpan
  split
  · simpa using hm
  · split
    · exact hm
    · split
      · split <;> simpa using hm
      · split
        · simpa using hm
        · extract_lets under t sp'
          have ht : t.mem.wf = true := by simp only [t]; split <;> simpa using hm
          have h := ha t sp' ht
          split
          · simpa using hm
          · split <;> rename_i heq <;> rw [heq] at h
            · simpa using ht
            · simpa using ht
            · split
              · simpa using ht
              · simpa using h
            · exact h.2 _ (by simpa using h.1)
            · exact h
            · split
              · split <;> simpa using h
              · simpa using h

/-- An instruction keeps the canonical form of memory when its meaning for a sub-wave and its act for a span do. -/
theorem issueNaming_wf {s : State} {body : Use → State → Ex → Lanes → Issue}
    {act : Use → Nat → Grid → State → Span → SpanAct} (hm : s.mem.wf)
    (hb : ∀ (u : Use) (s : State) (e : Ex) (p : Lanes), s.mem.wf → (body u s e p).MemWf)
    (ha : ∀ (u : Use) (n : Nat) (g : Grid) (s : State) (sp : Span), s.mem.wf → (act u n g s sp).MemWf)
    {i names always branch} : Res.MemWf (issueNaming i names always branch body act s) := by
  unfold issueNaming
  split
  · split
    · trivial
    · exact State.issueSub_wf hm fun s e p h => hb _ s e p h
  · split
    · trivial
    · split
      · trivial
      · exact State.issueSpan_wf hm fun s sp h => ha _ _ _ s sp h
  · trivial
  · trivial

theorem issue_wf {s : State} {body : Use → State → Ex → Lanes → Issue}
    {act : Use → Nat → Grid → State → Span → SpanAct} (hm : s.mem.wf)
    (hb : ∀ (u : Use) (s : State) (e : Ex) (p : Lanes), s.mem.wf → (body u s e p).MemWf)
    (ha : ∀ (u : Use) (n : Nat) (g : Grid) (s : State) (sp : Span), s.mem.wf → (act u n g s sp).MemWf) {i always branch} :
    Res.MemWf (issue i always branch body act s) :=
  issueNaming_wf hm hb ha

theorem laneOp_wf {s : State} (hm : s.mem.wf) {i rule f} : Res.MemWf (laneOp i rule f s) := by
  refine issue_wf hm ?_ ?_
  · exact fun _ _ _ _ h => h
  · exact fun _ _ _ _ _ h => Span.lanewise_wf h

theorem groupOp_wf {s : State} (hm : s.mem.wf) {i f} : Res.MemWf (groupOp i f s) := by
  refine issue_wf hm ?_ ?_
  · exact fun _ _ _ _ h => h
  · exact fun _ _ _ _ _ _ => trivial

theorem peelOp_wf {s : State} {body : Use → State → Ex → Lanes → Issue} (hm : s.mem.wf)
    (hb : ∀ (u : Use) (s : State) (e : Ex) (p : Lanes), s.mem.wf → (body u s e p).MemWf) {i} :
    Res.MemWf (peelOp i body s) := by
  refine issue_wf hm hb ?_
  exact fun _ _ _ _ _ _ => trivial

end Sys2Proof.Machine
end

