-- ==== Sys2Proof/Proofs/MemoryAccess.lean ====
section
/-!
SUPPORT. Accesses to memory and the instructions that make them: what leaves memory as it is (`_mem`), and what keeps its
canonical form (`_wf`).
-/
namespace Sys2Proof.Machine
open Sys2Proof

@[simp] theorem State.fillSector_wf {s : State} (hm : s.mem.wf) {core sec entry e} :
    (State.fillSector s core sec entry e).MemWf :=
  (State.fillSector_calm s core sec entry e).memWf hm

@[simp] theorem State.prepare_wf {s : State} (hm : s.mem.wf) {x w ea d} : (State.prepare s x w ea d).MemWf :=
  (State.prepare_calm s x w ea d).memWf hm

theorem State.unitRead_wf {s : State} (hm : s.mem.wf) {ctx n ea} :
    ∀ t a, State.unitRead s ctx n ea = .ok (t, a) → t.mem.wf = true :=
  fun _ _ hx => (State.unitRead_calm hx).mem hm

theorem State.unitWrite_wf {s t : State} (hm : s.mem.wf) {c n ea v} (h : s.unitWrite c n ea v = .ok t) : t.mem.wf = true := by
  unfold State.unitWrite at h
  split at h
  · cases h
  · rename_i hu
    cases h
    exact Memory.putN_wf _ _ _ _ ((State.unit_calm hu).mem hm)

@[simp] theorem State.unitPut_wf {s : State} (hm : s.mem.wf) {ctx n ea v} : (State.unitPut s ctx n ea v).mem.wf = true :=
  (State.unitPut_calm s ctx n ea v).mem hm

theorem State.bumpCounter_wf {s : State} (hm : s.mem.wf) {ctx ea v} :
    ∀ t, State.bumpCounter s ctx ea v = .ok t → t.mem.wf = true :=
  fun _ hx => (State.bumpCounter_calm hx).mem hm

theorem State.addCounter_wf {s : State} (hm : s.mem.wf) {ctx ea v} :
    ∀ t, State.addCounter s ctx ea v = .ok t → t.mem.wf = true :=
  fun _ hx => (State.addCounter_calm hx).mem hm

@[simp] theorem State.countUp_wf {s : State} (hm : s.mem.wf) {ctx ea v} : (State.countUp s ctx ea v).mem.wf = true :=
  (State.countUp_calm s ctx ea v).mem hm

@[simp] theorem State.writeHead_wf {s : State} (hm : s.mem.wf) {k} : (State.writeHead s k).mem.wf = true :=
  (State.writeHead_calm s k).mem hm

@[simp] theorem State.owedHeads_wf {s : State} (hm : s.mem.wf) : (State.owedHeads s).mem.wf = true :=
  foldl_wf (fun s _ h => by simp [h]) _ hm

@[simp] theorem State.setQueue_wf {s : State} (hm : s.mem.wf) {k f} : (State.setQueue s k f).mem.wf = true :=
  (State.setQueue_calm s k f).mem hm

@[simp] theorem State.refuseQueue_wf {s : State} (hm : s.mem.wf) {k err} : (State.refuseQueue s k err).mem.wf = true := by
  simp [State.refuseQueue, hm]

@[simp] theorem State.doorbell_wf {s : State} (hm : s.mem.wf) {k tail} : (State.doorbell s k tail).mem.wf = true := by
  unfold State.doorbell
  split <;> simp [hm]

@[simp] theorem State.poke_wf {s : State} (hm : s.mem.wf) {x d n v} : (State.poke s x d n v).mem.wf = true :=
  (State.poke_calm s x d n v).mem hm

@[simp] theorem State.ready_wf {s : State} (hm : s.mem.wf) {x w ea} : (State.ready s x w ea).MemWf :=
  (State.ready_calm s x w ea).memWf hm

@[simp] theorem State.load_wf {s : State} (hm : s.mem.wf) {x n ea} : (State.load s x n ea).MemWf :=
  (State.load_calm s x n ea).memWf hm

@[simp] theorem State.countConflict_mem (s : State) (t offs) : (State.countConflict s t offs).mem = s.mem := by rfl

@[simp] theorem State.readyAll_wf {s : State} (hm : s.mem.wf) {e w ea lanes} :
    (State.readyAll s e w ea lanes).s.mem.wf = true :=
  (State.readyAll_calm s e w ea lanes).mem hm

@[simp] theorem Sweep.access_wf {r : Sweep} {s : State} (hm : s.mem.wf) {x w k d new} :
    (r.access s x w k d new).s.mem.wf = true := by
  rw [Sweep.access_s]
  split <;> simp [hm]

@[simp] theorem Sweep.perform_wf {r : Sweep} (hm : r.s.mem.wf) {e w ea new} : (r.perform e w ea new).s.mem.wf = true := by
  refine List.foldlRecOn (motive := fun r : Sweep => r.s.mem.wf = true) r.dests _ hm fun r h p _ => ?_
  split <;> rename_i heq
  · exact Sweep.access_wf ((State.ready_wf h).of_ok heq)
  · exact (State.ready_wf h).of_trap heq
  · exact (State.ready_wf h).of_wait heq

@[simp] theorem State.accesses_wf {s : State} (hm : s.mem.wf) {e w ea lanes new} :
    (State.accesses s e w ea lanes new).s.mem.wf = true := by
  unfold State.accesses
  dsimp only
  repeat' split
  all_goals simp [hm]

@[simp] theorem State.tagWrite_mem (s : State) (core) : (State.tagWrite s core).1.mem = s.mem := by rfl

@[simp] theorem State.escapeTeam_mem (s : State) (t) : (State.escapeTeam s t).mem = s.mem := by rfl

@[simp] theorem State.escapes_mem (s : State) (e lanes ea) : (State.escapes s e lanes ea).mem = s.mem := by
  simp [State.escapes]

theorem releasing_wf {rel : Bool} {body : Use → State → Ex → Lanes → Issue} {u : Use} {s : State} {e : Ex} {p : Lanes}
    (hm : s.mem.wf) (hb : (body u s e p).MemWf) : (releasing rel body u s e p).MemWf := by
  unfold releasing
  split
  · exact hm
  · exact hb

@[simp] theorem ldBody_wf {s : State} (hm : s.mem.wf) {t o k d u e p} : (ldBody t o k d u s e p).MemWf := by
  unfold ldBody
  dsimp only
  repeat' split
  all_goals simp [hm]

@[simp] theorem lduBody_wf {s : State} (hm : s.mem.wf) {t o k d u e p} : (lduBody t o k d u s e p).MemWf := by
  unfold lduBody
  dsimp only
  repeat' split
  all_goals simp [hm]

@[simp] theorem stBody_wf {s : State} (hm : s.mem.wf) {t b o k c u e p} : (stBody t b o k c u s e p).MemWf := by
  unfold stBody
  dsimp only
  repeat' split
  all_goals simp [hm]

@[simp] theorem atomBody_wf {s : State} (hm : s.mem.wf) {op t sc d u e p} : (atomBody op t sc d u s e p).MemWf := by
  unfold atomBody
  dsimp only
  repeat' split
  all_goals simp [hm]

@[simp] theorem spanStop_wf {s : State} (hm : s.mem.wf) {t} : (spanStop s t).MemWf := by
  unfold spanStop
  split <;> simp [hm]

@[simp] theorem ldSpan_wf {s : State} (hm : s.mem.wf) {t o k d u sp} : (ldSpan t o k d u s sp).MemWf := by
  unfold ldSpan
  split
  · trivial
  · split
    · trivial
    · split
      · trivial
      · split <;> rename_i heq
        · exact spanStop_wf ((State.load_wf hm).of_trap heq)
        · exact (State.load_wf hm).of_wait heq
        · exact (State.load_wf hm).of_ok heq

@[simp] theorem State.blockStore_wf {s : State} (hm : s.mem.wf) {sp g n ea data} :
    (s.blockStore sp g n ea data).s.mem.wf = true := by
  refine List.foldlRecOn (motive := fun b : Block => b.s.mem.wf = true) _ _ hm fun b h i _ => ?_
  split
  · exact h
  · dsimp only
    split <;> rename_i heq
    · exact State.poke_wf ((State.ready_wf h).of_ok heq)
    · exact (State.ready_wf h).of_trap heq
    · exact (State.ready_wf h).of_wait heq

@[simp] theorem stSpan_wf {s : State} (hm : s.mem.wf) {t b o k c i u g sp} : (stSpan t b o k c i u g s sp).MemWf := by
  unfold stSpan
  dsimp only
  split
  · split
    · trivial
    · split
      · split
        · trivial
        · split <;> rename_i heq
          · exact spanStop_wf ((State.ready_wf hm).of_trap heq)
          · exact (State.ready_wf hm).of_wait heq
          · have h := (State.ready_wf hm).of_ok heq
            split <;> simp [h]
      · split
        · trivial
        · split
          · simp [hm]
          · split
            · simp [hm]
            · trivial
          · simp [hm]
  · trivial

@[simp] theorem atomSpan_wf {s : State} (hm : s.mem.wf) {op t sc quiet u g sp} : (atomSpan op t sc quiet u g s sp).MemWf := by
  unfold atomSpan
  split
  · split
    · trivial
    · dsimp only
      split
      · trivial
      · exact hm
      · split <;> rename_i heq
        · exact spanStop_wf ((State.ready_wf hm).of_trap heq)
        · exact (State.ready_wf hm).of_wait heq
        · have h := (State.ready_wf hm).of_ok heq
          split <;> simp [h]
  · trivial

@[simp] theorem State.prefetch_wf {s : State} (hm : s.mem.wf) {x target excl ea} :
    (State.prefetch s x target excl ea).mem.wf = true :=
  (State.prefetch_calm s x target excl ea).mem hm

@[simp] theorem prefBody_wf {s : State} (hm : s.mem.wf) {target excl o k u e p} : (prefBody target excl o k u s e p).MemWf :=
  foldl_wf (fun s i h => by simp [h]) _ hm

@[simp] theorem prefSpan_wf {s : State} (hm : s.mem.wf) {target excl o k u sp} : (prefSpan target excl o k u s sp).MemWf := by
  unfold prefSpan
  repeat' split
  all_goals simp [hm]

@[simp] theorem State.cacheOp_wf {s : State} (hm : s.mem.wf) {x op ea} : (State.cacheOp s x op ea).1.mem.wf = true :=
  (State.cacheOp_calm s x op ea).mem hm

theorem cctlBody_wf {s : State} (hm : s.mem.wf) {op b o u e p} : (cctlBody op b o u s e p).MemWf := by
  unfold cctlBody
  extract_lets r
  have hr : r.1.mem.wf = true :=
    List.foldlRecOn (motive := fun r : State × Bool => r.1.mem.wf = true) _ _ hm fun r h i _ => State.cacheOp_wf h
  split <;> exact hr

@[simp] theorem cctlSpan_wf {s : State} (hm : s.mem.wf) {op b o u sp} : (cctlSpan op b o u s sp).MemWf := by
  unfold cctlSpan
  split
  · trivial
  · split
    · trivial
    · split
      · rename_i a _
        have h := State.cacheOp_wf hm (x := sp.accessor) (op := op) (ea := a.toNat)
        split <;> rename_i heq <;> rw [heq] at h <;> exact h
      · trivial

@[simp] theorem execLd_wf {s : State} (hm : s.mem.wf) {x} : Res.MemWf (execLd x s) :=
  issue_wf hm (fun _ _ _ _ h => by simp [h]) fun _ _ _ _ _ h => by simp [h]

@[simp] theorem execLdI_wf {s : State} (hm : s.mem.wf) {x} : Res.MemWf (execLdI x s) :=
  issue_wf hm (fun _ _ _ _ h => by simp [h]) fun _ _ _ _ _ h => by simp [h]

@[simp] theorem execLdL_wf {s : State} (hm : s.mem.wf) {x} : Res.MemWf (execLdL x s) :=
  issue_wf hm (fun _ _ _ _ h => by simp [h]) fun _ _ _ _ _ h => by simp [h]

@[simp] theorem execLdu_wf {s : State} (hm : s.mem.wf) {x} : Res.MemWf (execLdu x s) :=
  issue_wf hm (fun _ _ _ _ h => by simp [h]) fun _ _ _ _ _ h => by simp [h]

@[simp] theorem execLduI_wf {s : State} (hm : s.mem.wf) {x} : Res.MemWf (execLduI x s) :=
  issue_wf hm (fun _ _ _ _ h => by simp [h]) fun _ _ _ _ _ h => by simp [h]

@[simp] theorem execLduL_wf {s : State} (hm : s.mem.wf) {x} : Res.MemWf (execLduL x s) :=
  issue_wf hm (fun _ _ _ _ h => by simp [h]) fun _ _ _ _ _ h => by simp [h]

@[simp] theorem execSt_wf {s : State} (hm : s.mem.wf) {x} : Res.MemWf (execSt x s) :=
  issue_wf hm (fun _ _ _ _ h => releasing_wf h (stBody_wf h)) fun _ _ _ _ _ h => stSpan_wf h

@[simp] theorem execStI_wf {s : State} (hm : s.mem.wf) {x} : Res.MemWf (execStI x s) :=
  issue_wf hm (fun _ _ _ _ h => by simp [h]) fun _ _ _ _ _ h => by simp [h]

@[simp] theorem execStL_wf {s : State} (hm : s.mem.wf) {x} : Res.MemWf (execStL x s) :=
  issue_wf hm (fun _ _ _ _ h => by simp [h]) fun _ _ _ _ _ h => by simp [h]

@[simp] theorem execAtom_wf {s : State} (hm : s.mem.wf) {x} : Res.MemWf (execAtom x s) :=
  issue_wf hm (fun _ _ _ _ h => releasing_wf h (atomBody_wf h)) fun _ _ _ _ _ h => atomSpan_wf h

@[simp] theorem execRed_wf {s : State} (hm : s.mem.wf) {x} : Res.MemWf (execRed x s) :=
  issue_wf hm (fun _ _ _ _ h => releasing_wf h (atomBody_wf h)) fun _ _ _ _ _ h => atomSpan_wf h

@[simp] theorem execPref_wf {s : State} (hm : s.mem.wf) {x} : Res.MemWf (execPref x s) :=
  issue_wf hm (fun _ _ _ _ h => by simp [h]) fun _ _ _ _ _ h => by simp [h]

@[simp] theorem execPrefI_wf {s : State} (hm : s.mem.wf) {x} : Res.MemWf (execPrefI x s) :=
  issue_wf hm (fun _ _ _ _ h => by simp [h]) fun _ _ _ _ _ h => by simp [h]

@[simp] theorem execPrefL_wf {s : State} (hm : s.mem.wf) {x} : Res.MemWf (execPrefL x s) :=
  issue_wf hm (fun _ _ _ _ h => by simp [h]) fun _ _ _ _ _ h => by simp [h]

@[simp] theorem execCctl_wf {s : State} (hm : s.mem.wf) {x} : Res.MemWf (execCctl x s) :=
  issue_wf hm (fun _ _ _ _ h => cctlBody_wf h) fun _ _ _ _ _ h => cctlSpan_wf h

end Sys2Proof.Machine
end

