-- ==== Sys2Proof/Proofs/MemorySync.lean ====
section
/-!
SUPPORT. Barriers, waits and stash maps: what leaves memory as it is (`_mem`), and what keeps its
canonical form (`_wf`).
-/
namespace Sys2Proof.Machine
open Sys2Proof

@[simp] theorem fenceBody_wf {s : State} (hm : s.mem.wf) {x u e p} : (fenceBody x u s e p).MemWf := by
  unfold fenceBody
  split <;> simp [hm]

@[simp] theorem execFence_wf {s : State} (hm : s.mem.wf) {x} : Res.MemWf (execFence x s) := by
  refine issue_wf hm ?_ ?_
  · exact fun _ _ _ _ h => fenceBody_wf h
  · intro _ i _ s sp h
    show (if x.ord = .acq then s else (storesOf sp.flights).foldl (fun s q => s.finishSpan i q) s).mem.wf = true
    split
    · exact h
    · simpa using h

@[simp] theorem phcloseBody_wf {s : State} (hm : s.mem.wf) {d u e p} : (phcloseBody d u s e p).MemWf := by
  unfold phcloseBody
  dsimp only
  repeat' split
  all_goals simp [hm]

@[simp] theorem execPhclose_wf {s : State} (hm : s.mem.wf) {x} : Res.MemWf (execPhclose x s) :=
  peelOp_wf hm fun _ _ _ _ h => by simp [h]

@[simp] theorem phwaitBody_wf {s : State} (hm : s.mem.wf) {u e p} : (phwaitBody u s e p).MemWf := by
  unfold phwaitBody
  dsimp only
  repeat' split
  all_goals simp [hm]

@[simp] theorem execPhwait_wf {s : State} (hm : s.mem.wf) {x} : Res.MemWf (execPhwait x s) :=
  peelOp_wf hm fun _ _ _ _ h => by simp [h]

@[simp] theorem Ex.holdOthers_wf {s : State} (hm : s.mem.wf) {e p traps h} : (Ex.holdOthers e s p traps h).MemWf := by
  simp [Ex.holdOthers, hm]

@[simp] theorem waitvLane_wf {r : Sweep} (hm : r.s.mem.wf) {t u e i} : (waitvLane t u e r i).s.mem.wf = true := by
  unfold waitvLane
  split <;> rename_i heq
  · exact (State.ready_wf hm).of_ok heq
  · exact (State.ready_wf hm).of_trap heq
  · exact (State.ready_wf hm).of_wait heq

@[simp] theorem waitvBody_wf {s : State} (hm : s.mem.wf) {t u e p} : (waitvBody t u s e p).MemWf := by
  unfold waitvBody
  dsimp only
  split
  · exact hm
  · have h := List.foldlRecOn (motive := fun r : Sweep => r.s.mem.wf = true)
      ((e.runs u p).filter fun i => !(BitVec.ofNat 16 ((e.sub.hold.map fun h => h.aux).getD 0)).getLsbD i) (waitvLane t u e)
      (b := { s := s }) hm fun r h i _ => waitvLane_wf h
    split
    · simpa using h
    · exact Ex.holdOthers_wf (by simpa using h)

@[simp] theorem execWaitv_wf {s : State} (hm : s.mem.wf) {x} : Res.MemWf (execWaitv x s) :=
  peelOp_wf hm fun _ _ _ _ h => by simp [h]

theorem withLaps_wf {s : State} {r : Res} (hr : r.MemWf) : Res.MemWf (withLaps s r) := by
  unfold withLaps
  split
  · exact hr
  · exact hr

@[simp] theorem barArvBody_wf {s : State} (hm : s.mem.wf) {b u e p} : (barArvBody b u s e p).MemWf := by
  unfold barArvBody
  dsimp only
  repeat' split
  all_goals simp [hm]

@[simp] theorem execBarArv_wf {s : State} (hm : s.mem.wf) {x} : Res.MemWf (execBarArv x s) :=
  withLaps_wf (peelOp_wf hm fun _ _ _ _ h => barArvBody_wf h)

@[simp] theorem barWaitBody_wf {s : State} (hm : s.mem.wf) {b u e p} : (barWaitBody b u s e p).MemWf := by
  unfold barWaitBody
  dsimp only
  repeat' split
  all_goals simp [hm]

@[simp] theorem execBarWait_wf {s : State} (hm : s.mem.wf) {x} : Res.MemWf (execBarWait x s) :=
  peelOp_wf hm fun _ _ _ _ h => by simp [h]

@[simp] theorem State.barmAll_wf {s : State} (hm : s.mem.wf) {e u lanes} : (State.barmAll s e u lanes).s.mem.wf = true :=
  (State.barmAll_calm s e u lanes).mem hm

@[simp] theorem State.barmArrive_wf {s : State} (hm : s.mem.wf) {core vals} : (State.barmArrive s core vals).mem.wf = true :=
  (State.barmArrive_calm s core vals).mem hm

@[simp] theorem State.barmRegister_wf {s : State} (hm : s.mem.wf) {core vals} :
    (State.barmRegister s core vals).mem.wf = true :=
  (State.barmRegister_calm s core vals).mem hm

@[simp] theorem barmArvBody_wf {s : State} (hm : s.mem.wf) {u e p} : (barmArvBody u s e p).MemWf := by
  unfold barmArvBody
  dsimp only
  repeat' split
  all_goals simp [hm]

@[simp] theorem execBarmArv_wf {s : State} (hm : s.mem.wf) {x} : Res.MemWf (execBarmArv x s) :=
  peelOp_wf hm fun _ _ _ _ h => releasing_wf h (barmArvBody_wf h)

@[simp] theorem barmWaitBody_wf {s : State} (hm : s.mem.wf) {stat u e p} : (barmWaitBody stat u s e p).MemWf := by
  unfold barmWaitBody
  extract_lets run byGen byBrk todo r fresh t word gen brk broken traps gone
  have hr : r.s.mem.wf = true := State.barmAll_wf hm
  have ht : t.mem.wf = true := by simp only [t]; split <;> simp [hr]
  split
  · exact hr
  · split
    · exact ht
    · exact Ex.holdOthers_wf ht

@[simp] theorem execBarmWait_wf {s : State} (hm : s.mem.wf) {x} : Res.MemWf (execBarmWait x s) :=
  peelOp_wf hm fun _ _ _ _ h => by simp [h]

theorem once_wf {u : Use} {s : State} {e : Ex} {p : Lanes} {k : (Nat → Nat) → LaneRes → Issue} (hm : s.mem.wf)
    (hk : ∀ f r, (k f r).MemWf) : (once u s e p k).MemWf := by
  unfold once
  split
  · exact hm
  · dsimp only
    split
    · exact hm
    · exact hk _ _

@[simp] theorem strike_wf {s : State} (hm : s.mem.wf) {p r t} : (strike s p r t).MemWf := by simp [strike, hm]

@[simp] theorem State.loadWords_wf {s : State} (hm : s.mem.wf) {x ea n} : (State.loadWords s x ea n).MemWf :=
  (State.loadWords_calm s x ea n).memWf hm

@[simp] theorem State.poolOf_wf {s : State} (hm : s.mem.wf) {e idx kind n} : (State.poolOf s e idx kind n).MemWf :=
  (State.poolOf_calm s e idx kind n).memWf hm

theorem Got.andThen_wf {α : Type} {x : Got α} {e : Ex} {p : Lanes} {q : LaneRes} {k : State → α → Issue} (hx : x.MemWf)
    (hk : ∀ (s : State) (a : α), s.mem.wf → (k s a).MemWf) : (x.andThen e p q k).MemWf := by
  cases x with
  | ok s a => exact hk s a hx
  | trap s t => exact strike_wf hx
  | wait s => exact hx

@[simp] theorem State.installEntry_mem (s : State) (core n m) : (State.installEntry s core n m).mem = s.mem := by
  simp [State.installEntry]

@[simp] theorem State.resolveMap_mem (s : State) (e m) : (State.resolveMap s e m).1.mem = s.mem := by
  unfold State.resolveMap
  dsimp only
  repeat' split
  all_goals simp

@[simp] theorem smapBody_wf {s : State} (hm : s.mem.wf) {x u e p} : (smapBody x u s e p).MemWf := by
  unfold smapBody
  refine once_wf hm fun src r => ?_
  dsimp only
  refine Got.andThen_wf (State.poolOf_wf (by simpa using hm)) fun s t h => ?_
  split
  · exact strike_wf h
  · split
    · exact strike_wf h
    · have hr : (s.resolveMap e (mapOf t e (src 1) (src 2) x.rw x.retain)).1.mem.wf = true := by simpa using h
      split <;> rename_i heq <;> rw [heq] at hr <;> exact hr

@[simp] theorem execSmap_wf {s : State} (hm : s.mem.wf) {x} : Res.MemWf (execSmap x s) :=
  peelOp_wf hm fun _ _ _ _ h => by simp [h]

theorem keyBody_wf {f : State → Nat → Nat → MapEntry → State}
    (hf : ∀ (s : State) c n m, s.mem.wf → (f s c n m).mem.wf)
    {u : Use} {s : State} {e : Ex} {p : Lanes} (hm : s.mem.wf) : (keyBody f u s e p).MemWf := by
  unfold keyBody
  refine once_wf hm fun src r => ?_
  split
  · exact hm
  · exact hf _ _ _ _ hm

@[simp] theorem State.fillEntry_wf {s : State} (hm : s.mem.wf) {core n m} : (State.fillEntry s core n m).mem.wf = true :=
  (State.fillEntry_calm s core n m).mem hm

@[simp] theorem execSunmap_wf {s : State} (hm : s.mem.wf) {x} : Res.MemWf (execSunmap x s) := by
  refine peelOp_wf hm fun _ _ _ _ h => keyBody_wf (fun _ _ _ _ h => by simpa using h) ?_
  split
  · exact h
  · simpa using h

@[simp] theorem execSflush_wf {s : State} (hm : s.mem.wf) {x} : Res.MemWf (execSflush x s) :=
  peelOp_wf hm fun _ _ _ _ h => keyBody_wf (fun _ _ _ _ h => State.flush_wf h) h

@[simp] theorem execSfill_wf {s : State} (hm : s.mem.wf) {x} : Res.MemWf (execSfill x s) :=
  peelOp_wf hm fun _ _ _ _ h => keyBody_wf (fun _ _ _ _ h => State.fillEntry_wf h) h

@[simp] theorem execSdiscard_wf {s : State} (hm : s.mem.wf) {x} : Res.MemWf (execSdiscard x s) :=
  peelOp_wf hm fun _ _ _ _ h => keyBody_wf (fun _ _ _ _ h => by simpa using h) h

@[simp] theorem squeryBody_wf {s : State} (hm : s.mem.wf) {d u e p} : (squeryBody d u s e p).MemWf :=
  once_wf hm fun _ _ => hm

@[simp] theorem execSquery_wf {s : State} (hm : s.mem.wf) {x} : Res.MemWf (execSquery x s) :=
  peelOp_wf hm fun _ _ _ _ h => by simp [h]

end Sys2Proof.Machine
end

