-- ==== Sys2Proof/Proofs/MemoryCopy.lean ====
section
/-!
SUPPORT. Copies: what leaves memory as it is (`_mem`), and what keeps its
canonical form (`_wf`).
-/
namespace Sys2Proof.Machine
open Sys2Proof

@[simp] theorem State.startCopy_mem (s : State) (t tag) : (State.startCopy s t tag).mem = s.mem := by
  unfold State.startCopy
  repeat' split
  all_goals simp

@[simp] theorem State.checkCopy_mem (s : State) (t tag) : (State.checkCopy s t tag).mem = s.mem := by
  unfold State.checkCopy
  split <;> simp

@[simp] theorem State.checkCopies_mem (s : State) (t) : (State.checkCopies s t).mem = s.mem := by
  unfold State.checkCopies
  split <;> simp

@[simp] theorem eachSlice_mem (s : State) (lanes f) : (eachSlice s lanes f).s.mem = s.mem := by
  refine List.foldlRecOn (motive := fun r : Slices => r.s.mem = s.mem) lanes _ rfl fun r h i _ => ?_
  split <;> exact h

@[simp] theorem noSlice_mem (s : State) (lanes t) : (noSlice s lanes t).s.mem = s.mem := rfl

@[simp] theorem State.copyRec_wf {s : State} (hm : s.mem.wf) {e k idx kind n} : (State.copyRec s e k idx kind n).MemWf := by
  unfold State.copyRec
  split <;> simp [hm]

@[simp] theorem State.keepRecs_mem (s : State) (e l) : (State.keepRecs s e l).mem = s.mem := by
  unfold State.keepRecs
  split <;> simp

@[simp] theorem cpytSlices_wf {s : State} (hm : s.mem.wf) {store e u lanes c0} :
    (cpytSlices store s e u lanes c0).s.mem.wf = true := by
  unfold cpytSlices
  split <;> rename_i heq
  · simpa using (State.copyRec_wf hm).of_trap heq
  · exact (State.copyRec_wf hm).of_wait heq
  · have h := (State.copyRec_wf hm).of_ok heq
    split
    · simpa using h
    · split <;> rename_i heq
      · simpa using (State.copyRec_wf h).of_trap heq
      · exact (State.copyRec_wf h).of_wait heq
      · have h := (State.copyRec_wf h).of_ok heq
        split
        · simpa using h
        · split <;> simpa using h

@[simp] theorem readIndices_wf {s : State} (hm : s.mem.wf) {x h ea n} : (readIndices x h ea n s).MemWf := by
  induction n generalizing ea s with
  | zero => exact hm
  | succ n ih =>
    unfold readIndices
    split <;> rename_i heq
    · exact (State.load_wf hm).of_trap heq
    · exact (State.load_wf hm).of_wait heq
    · have h1 := (State.load_wf hm).of_ok heq
      split
      · exact h1
      · split <;> rename_i heq
        · exact (ih h1).of_ok heq
        · exact ih h1

@[simp] theorem cpygSlices_wf {s : State} (hm : s.mem.wf) {store e u lanes c0} :
    (cpygSlices store s e u lanes c0).s.mem.wf = true := by
  unfold cpygSlices
  extract_lets i x ka kb n z
  split
  · simpa using hm
  · split <;> rename_i heq
    · simpa using (State.poolOf_wf hm).of_trap heq
    · exact (State.poolOf_wf hm).of_wait heq
    · have h := (State.poolOf_wf hm).of_ok heq
      split
      · simpa using h
      · extract_lets rb spot
        split
        · simpa using h
        · split
          · simpa using h
          · split <;> rename_i heq
            · simpa using (readIndices_wf h).of_trap heq
            · exact (readIndices_wf h).of_wait heq
            · have h := (readIndices_wf h).of_ok heq
              dsimp only
              split
              · simpa using h
              · exact h

/-- A copy form whose validation of slices keeps the canonical form. -/
def CopyForm.KeepsMem (f : CopyForm) : Prop := ∀ (s : State) e u l n, s.mem.wf → (f.slices s e u l n).s.mem.wf

theorem CopyForm.validate_wf {f : CopyForm} (hf : f.KeepsMem) {s : State} (hm : s.mem.wf) {e u lanes c0 c1} :
    (f.validate s e u lanes c0 c1).s.mem.wf = true := by
  unfold CopyForm.validate
  generalize (if c1 = 0 then none else s.counterFault (s.accessorOf e) c1) = o
  cases o with
  | some t => exact hm
  | none => exact hf _ _ _ _ _ hm

@[simp] theorem State.joinSlices_mem (s : State) (e tag lanes moves) : (State.joinSlices s e tag lanes moves).mem = s.mem := by
  rfl

theorem CopyForm.body_wf {f : CopyForm} (hf : f.KeepsMem) {u : Use} {s : State} {e : Ex} {p : Lanes} (hm : s.mem.wf) :
    (f.body u s e p).MemWf := by
  unfold CopyForm.body
  dsimp only
  split
  · exact hm
  · rename_i i0 _ _
    have ht : (s.escapeTeam e.t).mem.wf = true := by simpa using hm
    have hv := CopyForm.validate_wf hf ht (e := e) (u := u) (lanes := e.runs u p) (c0 := e.src u i0 2 % 2 ^ 64)
      (c1 := e.src u i0 2 / 2 ^ 64)
    split
    · split
      · exact hv
      · split
        · simpa using hv
        · split
          · exact hv
          · split
            · simpa using hv
            · exact ht
    · repeat' split
      all_goals simp [hm]

@[simp] theorem execCpy_wf {s : State} (hm : s.mem.wf) {x} : Res.MemWf (execCpy x s) :=
  peelOp_wf hm fun _ _ _ _ h => CopyForm.body_wf (fun _ _ _ _ _ h => by unfold cpyForm; simpa using h) h

@[simp] theorem State.cpytShape_wf {s : State} (hm : s.mem.wf) {u e} : (State.cpytShape s u e).MemWf := by
  simp [State.cpytShape, hm]

theorem cpytReads_wf {x : Cpyt} {s t : State} (hm : s.mem.wf) (h : cpytReads x s = some t) : t.mem.wf = true := by
  unfold cpytReads at h
  split at h
  · split at h
    · split at h
      · cases h
      · split at h <;> rename_i heq
        · cases h
          exact (State.cpytShape_wf hm).of_wait heq
        · cases h
        · cases h
    · cases h
  · cases h

@[simp] theorem execCpyt_wf {s : State} (hm : s.mem.wf) {x} : Res.MemWf (execCpyt x s) := by
  unfold execCpyt
  split <;> rename_i heq
  · exact cpytReads_wf hm heq
  · refine issueNaming_wf hm ?_ ?_
    · exact fun _ _ _ _ h => CopyForm.body_wf (fun _ _ _ _ _ h => cpytSlices_wf h) h
    · exact fun _ _ _ _ _ _ => trivial

@[simp] theorem execCpyg_wf {s : State} (hm : s.mem.wf) {x} : Res.MemWf (execCpyg x s) :=
  peelOp_wf hm fun _ _ _ _ h => CopyForm.body_wf (fun _ _ _ _ _ h => cpygSlices_wf h) h

@[simp] theorem execCpys_wf {s : State} (hm : s.mem.wf) {x} : Res.MemWf (execCpys x s) :=
  peelOp_wf hm fun _ _ _ _ h => CopyForm.body_wf (fun _ _ _ _ _ h => cpygSlices_wf h) h

@[simp] theorem State.poisonDest_mem (s : State) (d) : (State.poisonDest s d).mem = s.mem := by
  unfold State.poisonDest
  split <;> simp

@[simp] theorem State.engineByte_wf {s : State} (hm : s.mem.wf) {x ea} : (State.engineByte s x ea).MemWf := by
  unfold State.engineByte
  split
  · exact hm
  · split
    · exact hm
    · split <;> rename_i heq
      · exact (State.prepare_wf hm).of_trap heq
      · exact (State.prepare_wf hm).of_wait heq
      · exact (State.prepare_wf hm).of_ok heq

@[simp] theorem State.engineBytes_wf {s : State} (hm : s.mem.wf) {x old ea n} : (State.engineBytes x old ea n s).MemWf := by
  induction n generalizing ea s with
  | zero => exact hm
  | succ n ih =>
    unfold State.engineBytes
    extract_lets one
    have ho : one.MemWf := by
      simp only [one]
      split
      · exact hm
      · exact State.engineByte_wf hm
    clear_value one
    cases one with
    | trap s t => exact ho
    | wait s => exact ho
    | ok s b =>
      dsimp only
      split <;> rename_i heq
      · exact (ih ho).of_ok heq
      · exact ih ho

@[simp] theorem State.lineImage_wf {s : State} (hm : s.mem.wf) {t tm c l img} : (State.lineImage t tm c l img s).MemWf := by
  induction l generalizing img s with
  | nil => exact hm
  | cons m r ih =>
    unfold State.lineImage
    extract_lets x got
    have hg : got.MemWf := by
      simp only [got]
      split
      · exact hm
      · exact State.engineBytes_wf hm
    clear_value got
    split
    · exact hm
    · cases got with
      | trap s t => exact hg
      | wait s => exact hg
      | ok s bs => exact ih hg

@[simp] theorem State.imageReady_wf {s : State} (hm : s.mem.wf) {x l} : (State.imageReady x l s).MemWf := by
  induction l generalizing s with
  | nil => exact hm
  | cons p r ih =>
    unfold State.imageReady
    split <;> rename_i heq
    · exact ih ((State.ready_wf hm).of_ok heq)
    · exact (State.ready_wf hm).of_trap heq
    · exact (State.ready_wf hm).of_wait heq

@[simp] theorem State.imageWrite_wf {s : State} (hm : s.mem.wf) {x l old out} : (State.imageWrite x l old out s).MemWf := by
  induction l generalizing s old out with
  | nil => exact hm
  | cons p r ih =>
    unfold State.imageWrite
    extract_lets n
    split <;> rename_i heq
    · exact (State.ready_wf hm).of_trap heq
    · exact (State.ready_wf hm).of_wait heq
    · extract_lets was bad old' s'
      have h : s'.mem.wf = true := State.poke_wf ((State.ready_wf hm).of_ok heq)
      exact ih (by split <;> simp [h])

@[simp] theorem State.releaseEngine_mem (s : State) (h) : (State.releaseEngine s h).mem = s.mem := by
  simp [State.releaseEngine]

@[simp] theorem State.untagCopy_mem (s : State) (t tag) : (State.untagCopy s t tag).mem = s.mem := by
  unfold State.untagCopy
  split <;> simp

@[simp] theorem State.moveUnit_wf {s : State} (hm : s.mem.wf) {t tag tm c m} : (State.moveUnit s t tag tm c m).MemWf := by
  unfold State.moveUnit
  extract_lets x mine w
  split <;> rename_i heq
  · exact (State.lineImage_wf hm).of_trap heq
  · exact (State.lineImage_wf hm).of_wait heq
  · have h1 := (State.lineImage_wf hm).of_ok heq
    split <;> rename_i heq
    · exact (State.imageReady_wf h1).of_trap heq
    · exact (State.imageReady_wf h1).of_wait heq
    · have h2 := (State.imageReady_wf h1).of_ok heq
      split <;> rename_i heq
      · exact h2
      · exact h2
      · have h3 := (State.imageWrite_wf h2).of_ok heq
        dsimp only
        split <;> simp [h3]

@[simp] theorem State.copyNext_wf {s : State} (hm : s.mem.wf) {t tag} : (State.copyNext s t tag).MemWf := by
  unfold State.copyNext
  split
  · exact hm
  · split
    · exact hm
    · split
      · split <;> rename_i heq
        · exact (State.moveUnit_wf hm).of_ok heq
        · exact (State.moveUnit_wf hm).of_trap heq
        · exact (State.moveUnit_wf hm).of_wait heq
      · split
        · exact hm
        · split <;> rename_i heq
          · exact hm
          · simpa using State.addCounter_wf hm _ heq

@[simp] theorem State.suspendCopy_mem (s : State) (t tag tr) : (State.suspendCopy s t tag tr).mem = s.mem := by
  unfold State.suspendCopy
  split <;> simp

@[simp] theorem execCopyStart_wf {s : State} (hm : s.mem.wf) {team tag} : Res.MemWf (execCopyStart team tag s) := by
  simp [execCopyStart, hm]

@[simp] theorem execCopyUnitMove_wf {s : State} (hm : s.mem.wf) {team tag} : Res.MemWf (execCopyUnitMove team tag s) := by
  unfold execCopyUnitMove
  split
  · exact hm
  · split <;> rename_i heq
    · exact (State.copyNext_wf hm).of_ok heq
    · exact (State.copyNext_wf hm).of_wait heq
    · exact hm
    · exact hm

@[simp] theorem execCopyFault_wf {s : State} (hm : s.mem.wf) {team tag} : Res.MemWf (execCopyFault team tag s) := by
  unfold execCopyFault
  split
  · exact hm
  · split <;> rename_i heq
    · simpa using (State.copyNext_wf hm).of_trap heq
    · exact hm

@[simp] theorem twaitBody_wf {s : State} (hm : s.mem.wf) {all u e p} : (twaitBody all u s e p).MemWf := by
  unfold twaitBody
  refine once_wf hm fun src r => ?_
  dsimp only
  repeat' split
  all_goals simp [hm]

@[simp] theorem execTwait_wf {s : State} (hm : s.mem.wf) {x} : Res.MemWf (execTwait x s) :=
  peelOp_wf hm fun _ _ _ _ h => by simp [h]

@[simp] theorem execTffr_wf {s : State} (hm : s.mem.wf) {x} : Res.MemWf (execTffr x s) :=
  peelOp_wf hm fun _ _ _ _ h => once_wf h fun _ _ => by simp [h]

@[simp] theorem execTclr_wf {s : State} (hm : s.mem.wf) {x} : Res.MemWf (execTclr x s) :=
  peelOp_wf hm fun _ _ _ _ h => once_wf h fun _ _ => by simp [h]

@[simp] theorem cntwaitBody_wf {s : State} (hm : s.mem.wf) {d u e p} : (cntwaitBody d u s e p).MemWf := by
  unfold cntwaitBody
  refine once_wf hm fun src r => ?_
  dsimp only
  have ht : (s.escapeTeam e.t).mem.wf = true := by simpa using hm
  split
  · exact strike_wf ht
  · split <;> rename_i heq
    · exact strike_wf ((State.load_wf ht).of_trap heq)
    · exact (State.load_wf ht).of_wait heq
    · split <;> exact (State.load_wf ht).of_ok heq

@[simp] theorem execCntwait_wf {s : State} (hm : s.mem.wf) {x} : Res.MemWf (execCntwait x s) :=
  peelOp_wf hm fun _ _ _ _ h => by simp [h]

theorem State.acceptXfer_mem {s t : State} {n x} (h : s.acceptXfer n x = some t) : t.mem = s.mem := by
  unfold State.acceptXfer at h
  split at h
  · cases h
  · cases h
    rfl

@[simp] theorem copyqBody_wf {s : State} (hm : s.mem.wf) {u e p} : (copyqBody u s e p).MemWf := by
  unfold copyqBody
  refine once_wf hm fun src r => ?_
  extract_lets t ka wait
  have ht : t.mem.wf = true := by simpa [t] using hm
  split
  · exact strike_wf ht
  · split <;> rename_i heq
    · exact strike_wf ((State.loadWords_wf ht).of_trap heq)
    · exact (State.loadWords_wf ht).of_wait heq
    · have h := (State.loadWords_wf ht).of_ok heq
      extract_lets dev
      split
      · exact strike_wf h
      · split
        · exact h
        · extract_lets y
          split <;> rename_i heq
          · exact h
          · simpa [State.acceptXfer_mem heq] using h

@[simp] theorem execCopyq_wf {s : State} (hm : s.mem.wf) {x} : Res.MemWf (execCopyq x s) :=
  peelOp_wf hm fun _ _ _ _ h => by simp [h]

end Sys2Proof.Machine
end

