-- ==== Sys2Proof/Proofs/MemoryTeam.lean ====
section
/-!
SUPPORT. Matrix work, teams, control transfer and system instructions: what leaves memory as it is (`_mem`), and what keeps its
canonical form (`_wf`).
-/
namespace Sys2Proof.Machine
open Sys2Proof

@[simp] theorem gsetBody_wf {s : State} (hm : s.mem.wf) {g u e p} : (gsetBody g u s e p).MemWf := by
  unfold gsetBody
  refine once_wf hm fun src r => Got.andThen_wf (State.poolOf_wf hm) fun s t h => ?_
  split
  · exact strike_wf h
  · simpa using h

@[simp] theorem execGset_wf {s : State} (hm : s.mem.wf) {x} : Res.MemWf (execGset x s) :=
  peelOp_wf hm fun _ _ _ _ h => by simp [h]

@[simp] theorem execGcnt_wf {s : State} (hm : s.mem.wf) {x} : Res.MemWf (execGcnt x s) :=
  peelOp_wf hm fun _ _ _ _ h => once_wf h fun _ _ => by simp [h]

@[simp] theorem acfgBody_wf {s : State} (hm : s.mem.wf) {discard u e p} : (acfgBody discard u s e p).MemWf := by
  unfold acfgBody
  refine once_wf hm fun src r => ?_
  dsimp only
  repeat' split
  all_goals simp [hm]

@[simp] theorem execAcfg_wf {s : State} (hm : s.mem.wf) {x} : Res.MemWf (execAcfg x s) :=
  peelOp_wf hm fun _ _ _ _ h => by simp [h]

@[simp] theorem mmaBody_wf {s : State} (hm : s.mem.wf) {x u e p} : (mmaBody x u s e p).MemWf := by
  unfold mmaBody
  refine once_wf hm fun src r => ?_
  dsimp only
  repeat' split
  all_goals simp [hm]

@[simp] theorem execMma_wf {s : State} (hm : s.mem.wf) {x} : Res.MemWf (execMma x s) :=
  peelOp_wf hm fun _ _ _ _ h => by simp [h]

@[simp] theorem State.readLine_wf {s : State} (hm : s.mem.wf) {x ea} : (State.readLine s x ea).MemWf := by
  unfold State.readLine
  dsimp only
  split <;> rename_i heq
  · exact (State.load_wf hm).of_trap heq
  · exact (State.load_wf hm).of_wait heq
  · have h0 := (State.load_wf hm).of_ok heq
    split <;> rename_i heq
    · exact (State.load_wf h0).of_trap heq
    · exact (State.load_wf h0).of_wait heq
    · have h1 := (State.load_wf h0).of_ok heq
      split <;> rename_i heq
      · exact (State.load_wf h1).of_trap heq
      · exact (State.load_wf h1).of_wait heq
      · have h2 := (State.load_wf h1).of_ok heq
        split <;> rename_i heq
        · exact (State.load_wf h2).of_trap heq
        · exact (State.load_wf h2).of_wait heq
        · exact (State.load_wf h2).of_ok heq

@[simp] theorem State.readLines_wf {s : State} (hm : s.mem.wf) {x blk l cls} : (State.readLines x blk l cls s).MemWf := by
  induction l generalizing s cls with
  | nil => exact hm
  | cons o r ih =>
    unfold State.readLines
    split <;> rename_i heq
    · exact (State.readLine_wf hm).of_trap heq
    · exact (State.readLine_wf hm).of_wait heq
    · rename_i s l
      have h := (State.readLine_wf hm).of_ok heq
      extract_lets bad go
      have hgo : ∀ c, (go c).MemWf := by
        intro c
        simp only [go]
        split <;> rename_i heq
        · exact (ih h).of_ok heq
        · exact ih h
      split
      · exact hgo _
      · split
        · exact h
        · exact hgo _
        · split
          · exact hgo _
          · split
            · exact hgo _
            · exact h

@[simp] theorem State.kstep_wf {s : State} (hm : s.mem.wf) {t seq chain} : (State.kstep s t seq chain).MemWf := by
  unfold State.kstep
  split
  · exact hm
  · split
    · exact hm
    · dsimp only
      split
      · exact hm
      · split <;> rename_i heq
        · exact (State.readLines_wf hm).of_trap heq
        · exact (State.readLines_wf hm).of_wait heq
        · simpa using (State.readLines_wf hm).of_ok heq

@[simp] theorem execMmaKstepCommit_wf {s : State} (hm : s.mem.wf) {team seq chain} :
    Res.MemWf (execMmaKstepCommit team seq chain s) := by
  unfold execMmaKstepCommit
  split <;> rename_i heq
  · exact (State.kstep_wf hm).of_ok heq
  · exact (State.kstep_wf hm).of_wait heq
  · exact hm

@[simp] theorem State.stopMma_mem (s : State) (t seq tr) : (State.stopMma s t seq tr).mem = s.mem := by
  unfold State.stopMma; split <;> simp

@[simp] theorem execMmaFault_wf {s : State} (hm : s.mem.wf) {team seq chain} : Res.MemWf (execMmaFault team seq chain s) := by
  unfold execMmaFault
  split <;> rename_i heq
  · simpa using (State.kstep_wf hm).of_trap heq
  · exact hm

@[simp] theorem enqueueMove_wf {s : State} (hm : s.mem.wf) {op e p r} : (enqueueMove op s e p r).MemWf := by
  simp [enqueueMove, hm]

theorem withTiles_wf {tiles : List Nat} {s : State} {e : Ex} {p : Lanes} {r : LaneRes} {k : Unit → Issue} (hm : s.mem.wf)
    (hk : (k ()).MemWf) : (withTiles tiles s e p r k).MemWf := by
  unfold withTiles
  split
  · exact strike_wf hm
  · exact hk

@[simp] theorem execAccLd_wf {s : State} (hm : s.mem.wf) {x} : Res.MemWf (execAccLd x s) := by
  refine peelOp_wf hm fun u s e p h => ?_
  dsimp only
  split
  · exact h
  · split
    · exact h
    · exact withTiles_wf h (enqueueMove_wf (by simpa using h))

@[simp] theorem execAccSt_wf {s : State} (hm : s.mem.wf) {x} : Res.MemWf (execAccSt x s) := by
  refine peelOp_wf hm fun u s e p h => ?_
  dsimp only
  split
  · exact h
  · split
    · exact h
    · exact withTiles_wf h (enqueueMove_wf (by simpa using h))

@[simp] theorem execAccZero_wf {s : State} (hm : s.mem.wf) {x} : Res.MemWf (execAccZero x s) :=
  peelOp_wf hm fun u s e p h => once_wf h fun _ r => withTiles_wf h (enqueueMove_wf (by simpa using h))

@[simp] theorem execAccMov_wf {s : State} (hm : s.mem.wf) {x} : Res.MemWf (execAccMov x s) := by
  refine peelOp_wf hm fun u s e p h => once_wf h fun src r => withTiles_wf h ?_
  split
  · exact strike_wf h
  · exact enqueueMove_wf (by simpa using h)

@[simp] theorem State.writeUnits_wf {s : State} (hm : s.mem.wf) {x l} : (State.writeUnits x l s).MemWf := by
  induction l generalizing s with
  | nil => exact hm
  | cons p r ih =>
    unfold State.writeUnits
    split <;> rename_i heq
    · exact ih (State.poke_wf ((State.ready_wf hm).of_ok heq))
    · exact (State.ready_wf hm).of_trap heq
    · exact (State.ready_wf hm).of_wait heq

@[simp] theorem State.writeRows_wf {s : State} (hm : s.mem.wf) {x l} : (State.writeRows s x l).MemWf := by
  unfold State.writeRows
  have hr : (State.imageReady x (l.map fun p => (p.1, p.2, false)) s).MemWf := State.imageReady_wf hm
  split <;> rename_i heq
  · exact hr.of_wait heq
  · have h1 := hr.of_ok heq
    split
    · exact h1
    · exact State.writeUnits_wf h1
  · have h1 := hr.of_trap heq
    split
    · exact h1
    · exact State.writeUnits_wf h1

@[simp] theorem State.readUnits_wf {s : State} (hm : s.mem.wf) {x l} : (State.readUnits x l s).MemWf := by
  induction l generalizing s with
  | nil => exact hm
  | cons ea r ih =>
    unfold State.readUnits
    split <;> rename_i heq
    · exact (State.load_wf hm).of_trap heq
    · exact (State.load_wf hm).of_wait heq
    · have h := (State.load_wf hm).of_ok heq
      split <;> rename_i heq
      · exact (ih h).of_ok heq
      · exact ih h

@[simp] theorem State.runMove_wf {s : State} (hm : s.mem.wf) {t seq} : (State.runMove s t seq).MemWf := by
  unfold State.runMove
  split
  · exact hm
  · split
    · exact hm
    · extract_lets x finish
      have hf : ∀ s : State, s.mem.wf → (finish s).MemWf := fun s h => by simpa [finish] using h
      split
      · exact hf _ hm
      · exact hf _ hm
      · exact hf _ hm
      · dsimp only
        split
        · split <;> rename_i heq
          · exact (State.readUnits_wf hm).of_trap heq
          · exact (State.readUnits_wf hm).of_wait heq
          · exact hf _ (by simpa using (State.readUnits_wf hm).of_ok heq)
        · split <;> rename_i heq
          · exact (State.writeRows_wf hm).of_trap heq
          · exact (State.writeRows_wf hm).of_wait heq
          · exact hf _ ((State.writeRows_wf hm).of_ok heq)

@[simp] theorem execAccMovFault_wf {s : State} (hm : s.mem.wf) {team seq} : Res.MemWf (execAccMovFault team seq s) := by
  unfold execAccMovFault
  split <;> rename_i heq
  · have h := (State.runMove_wf hm).of_trap heq
    split
    · exact hm
    · split
      · exact hm
      · simpa using h
  · exact hm

@[simp] theorem execMprog_wf {s : State} (hm : s.mem.wf) {x} : Res.MemWf (execMprog x s) := by
  refine issue_wf hm ?_ ?_
  · exact fun _ _ _ _ h => once_wf h fun _ _ => h
  · exact fun _ _ _ _ _ h => h

@[simp] theorem State.freePorts_mem (s : State) (core) : (State.freePorts s core).mem = s.mem := by
  unfold State.freePorts
  dsimp only
  repeat' split
  all_goals simp

@[simp] theorem State.removeLanes_mem (s : State) (t w m) : (State.removeLanes s t w m).mem = s.mem := by
  unfold State.removeLanes
  split <;> simp

@[simp] theorem State.endEntries_mem (s : State) (t tm) : (State.endEntries s t tm).mem = s.mem := by
  simp [State.endEntries]

@[simp] theorem State.dropTeam_mem (s : State) (t held) : (State.dropTeam s t held).mem = s.mem := by
  unfold State.dropTeam
  split <;> simp

@[simp] theorem State.failGrid_mem (s : State) (g status) : (State.failGrid s g status).mem = s.mem := by rfl

@[simp] theorem State.drainCopy_wf {s : State} (hm : s.mem.wf) {t tag n} : (State.drainCopy t tag n s).mem.wf = true := by
  induction n generalizing s with
  | zero => exact hm
  | succ n ih =>
    unfold State.drainCopy
    split <;> rename_i heq
    · exact ih ((State.copyNext_wf hm).of_ok heq)
    · exact (State.copyNext_wf hm).of_ok heq
    · exact (State.copyNext_wf hm).of_wait heq
    · exact (State.copyNext_wf hm).of_trap heq

@[simp] theorem State.drainTeam_wf {s : State} (hm : s.mem.wf) {t} : (State.drainTeam s t).mem.wf = true := by
  unfold State.drainTeam
  split
  · exact hm
  · refine foldl_wf (fun s m h => ?_) _ (foldl_wf (fun s c h => State.drainCopy_wf (by simpa using h)) _ hm)
    split <;> rename_i heq
    · exact (State.runMove_wf h).of_ok heq
    · exact (State.runMove_wf h).of_wait heq
    · exact (State.runMove_wf h).of_trap heq

@[simp] theorem State.countTeam_mem (s : State) (tm killed) : (State.countTeam s tm killed).mem = s.mem := by rfl

@[simp] theorem State.endTeam_wf {s : State} (hm : s.mem.wf) {t} : (State.endTeam s t).mem.wf = true := by
  unfold State.endTeam
  dsimp only
  repeat' split
  all_goals simp [hm]

@[simp] theorem State.sweep_wf {s : State} (hm : s.mem.wf) : (State.sweep s).mem.wf = true :=
  foldl_wf (fun s _ h => by simp [h]) _ hm

theorem withSweep_wf {r : Res} (hr : r.MemWf) : Res.MemWf (withSweep r) := by
  unfold withSweep
  split
  · exact State.sweep_wf hr
  · exact hr

@[simp] theorem execCopyComplete_wf {s : State} (hm : s.mem.wf) {team tag} : Res.MemWf (execCopyComplete team tag s) := by
  refine withSweep_wf ?_
  split <;> rename_i heq
  · exact (State.copyNext_wf hm).of_ok heq
  · exact hm

@[simp] theorem execMmaComplete_wf {s : State} (hm : s.mem.wf) {team seq} : Res.MemWf (execMmaComplete team seq s) := by
  refine withSweep_wf ?_
  split
  · exact hm
  · split
    · exact hm
    · simpa using hm

@[simp] theorem execAccMoveDone_wf {s : State} (hm : s.mem.wf) {team seq} : Res.MemWf (execAccMoveDone team seq s) := by
  refine withSweep_wf ?_
  split <;> rename_i heq
  · exact (State.runMove_wf hm).of_ok heq
  · exact (State.runMove_wf hm).of_wait heq
  · exact hm

@[simp] theorem State.killLanes_mem (s : State) (t w m) : (State.killLanes s t w m).mem = s.mem := by
  unfold State.killLanes
  dsimp only
  repeat' split
  all_goals simp

@[simp] theorem State.teamRecord_mem (s : State) (tm cause sub) : (State.teamRecord s tm cause sub).mem = s.mem := by
  simp [State.teamRecord]

@[simp] theorem State.killTeam_mem (s : State) (t status) : (State.killTeam s t status).mem = s.mem := by
  unfold State.killTeam
  split <;> simp

@[simp] theorem State.abandonGrid_mem (s : State) (g status) : (State.abandonGrid s g status).mem = s.mem := by
  simp [State.abandonGrid]

@[simp] theorem State.capacityFail_mem (s : State) (g tm) : (State.capacityFail s g tm).mem = s.mem := by
  simp [State.capacityFail]

@[simp] theorem State.swapOut_wf {s : State} (hm : s.mem.wf) {t} : (State.swapOut s t).mem.wf = true := by
  unfold State.swapOut
  split
  · exact hm
  · split
    · exact hm
    · dsimp only
      rw [State.freePorts_mem, State.modTeam_mem, foldl_mem fun s c => State.untagCopy_mem s _ _, State.releaseEngine_mem]
      exact foldl_wf (fun s p h => by simpa using State.flush_wf h) _ hm

@[simp] theorem execTeamSwapOut_wf {s : State} (hm : s.mem.wf) {team} : Res.MemWf (execTeamSwapOut team s) := by
  unfold execTeamSwapOut
  split <;> simp [hm]

@[simp] theorem transferBody_wf {s : State} (hm : s.mem.wf) {target j u e p} : (transferBody target j u s e p).MemWf := by
  simp [transferBody, hm]

@[simp] theorem transferAct_wf {s : State} (hm : s.mem.wf) {target stale j u i g sp} :
    (transferAct target stale j u i g s sp).MemWf := by
  unfold transferAct
  dsimp only
  repeat' split
  all_goals simp [hm]

@[simp] theorem regAct_wf {s : State} (hm : s.mem.wf) {j u i g sp} : (regAct j u i g s sp).MemWf := by
  unfold regAct
  repeat' split
  all_goals simp [hm]

@[simp] theorem execBra_wf {s : State} (hm : s.mem.wf) {x} : Res.MemWf (execBra x s) :=
  issue_wf hm (fun _ _ _ _ h => by simp [h]) fun _ _ _ _ _ h => by simp [h]

@[simp] theorem execBrx_wf {s : State} (hm : s.mem.wf) {x} : Res.MemWf (execBrx x s) :=
  issue_wf hm (fun _ _ _ _ h => by simp [h]) fun _ _ _ _ _ h => by simp [h]

@[simp] theorem execCall_wf {s : State} (hm : s.mem.wf) {x} : Res.MemWf (execCall x s) :=
  issue_wf hm (fun _ _ _ _ h => by simp [h]) fun _ _ _ _ _ h => by simp [h]

@[simp] theorem execCallx_wf {s : State} (hm : s.mem.wf) {x} : Res.MemWf (execCallx x s) :=
  issue_wf hm (fun _ _ _ _ h => by simp [h]) fun _ _ _ _ _ h => by simp [h]

@[simp] theorem execRet_wf {s : State} (hm : s.mem.wf) {x} : Res.MemWf (execRet x s) :=
  issue_wf hm (fun _ _ _ _ h => by simp [h]) fun _ _ _ _ _ h => by simp [h]

@[simp] theorem joinptBody_wf {s : State} (hm : s.mem.wf) {u e p} : (joinptBody u s e p).MemWf := by
  unfold joinptBody
  split <;> simp [hm]

@[simp] theorem execJoinpt_wf {s : State} (hm : s.mem.wf) {x} : Res.MemWf (execJoinpt x s) :=
  peelOp_wf hm fun _ _ _ _ h => by simp [h]

@[simp] theorem syncBody_wf {s : State} (hm : s.mem.wf) {u e p} : (syncBody u s e p).MemWf := by
  unfold syncBody
  repeat' split
  all_goals simp [hm]

@[simp] theorem execSync_wf {s : State} (hm : s.mem.wf) {x} : Res.MemWf (execSync x s) :=
  peelOp_wf hm fun _ _ _ _ h => by simp [h]

@[simp] theorem exitBody_wf {s : State} (hm : s.mem.wf) {u e p} : (exitBody u s e p).MemWf := by simp [exitBody, hm]

@[simp] theorem State.retireSpan_mem (s : State) (i sp) : (State.retireSpan s i sp).mem = s.mem := by
  simp [State.retireSpan]

@[simp] theorem execExit_wf {s : State} (hm : s.mem.wf) {x} : Res.MemWf (execExit x s) := by
  refine withSweep_wf (withLaps_wf (issue_wf hm ?_ ?_))
  · exact fun _ _ _ _ h => exitBody_wf h
  · intro _ i _ s sp h
    split
    · exact ⟨h, fun t ht => by simpa using ht⟩
    · simpa using h

@[simp] theorem yieldBody_wf {s : State} (hm : s.mem.wf) {u e p} : (yieldBody u s e p).MemWf := by simp [yieldBody, hm]

@[simp] theorem execYield_wf {s : State} (hm : s.mem.wf) {x} : Res.MemWf (execYield x s) :=
  peelOp_wf hm fun _ _ _ _ h => by simp [h]

@[simp] theorem execYieldTimeout_wf {s : State} (hm : s.mem.wf) {team wave sub} :
    Res.MemWf (execYieldTimeout team wave sub s) := by
  simp [execYieldTimeout, hm]

@[simp] theorem sjoinAct_wf {s : State} (hm : s.mem.wf) {i sp} : (sjoinAct i s sp).MemWf := by
  unfold sjoinAct
  split <;> simp [hm]

@[simp] theorem execSjoin_wf {s : State} (hm : s.mem.wf) {x} : Res.MemWf (execSjoin x s) :=
  issue_wf hm (fun _ _ _ _ h => by simp [h]) fun _ _ _ _ _ h => by simp [h]

@[simp] theorem execMat_wf {s : State} (hm : s.mem.wf) {x} : Res.MemWf (execMat x s) :=
  peelOp_wf hm fun _ _ _ _ h => by simp [h]

@[simp] theorem trapBody_wf {s : State} (hm : s.mem.wf) {t u e p} : (trapBody t u s e p).MemWf := by simp [trapBody, hm]

@[simp] theorem execTrap_wf {s : State} (hm : s.mem.wf) {x} : Res.MemWf (execTrap x s) :=
  issue_wf hm (fun _ _ _ _ h => by simp [h]) fun _ _ _ _ _ _ => by simp

@[simp] theorem execBrk_wf {s : State} (hm : s.mem.wf) {x} : Res.MemWf (execBrk x s) :=
  issue_wf hm (fun _ _ _ _ h => by simp [h]) fun _ _ _ _ _ _ => by simp

@[simp] theorem trapretBody_wf {s : State} (hm : s.mem.wf) {mode u e p} : (trapretBody mode u s e p).MemWf := by
  unfold trapretBody
  repeat' split
  all_goals simp [hm]

@[simp] theorem execTrapret_wf {s : State} (hm : s.mem.wf) {x} : Res.MemWf (execTrapret x s) :=
  withSweep_wf (withLaps_wf (peelOp_wf hm fun _ _ _ _ h => trapretBody_wf h))

theorem State.unitWords_wf {s : State} (hm : s.mem.wf) {ctx ea n} :
    ∀ t a, State.unitWords s ctx ea n = .ok (t, a) → t.mem.wf = true :=
  fun _ _ hx => (State.unitWords_calm _ hx).mem hm

@[simp] theorem State.checkLaunch_wf {s : State} (hm : s.mem.wf) {ctx rec ws item} :
    (State.checkLaunch s ctx rec ws item).1.mem.wf = true :=
  (State.checkLaunch_calm s ctx rec ws item).mem hm

@[simp] theorem State.createGrid_wf {s : State} (hm : s.mem.wf) {g depth prio parent queue} :
    (State.createGrid s g depth prio parent queue).1.mem.wf = true := by
  simp [State.createGrid, hm]

@[simp] theorem State.acceptCall_mem (s : State) (dev c) : (State.acceptCall s dev c).mem = s.mem := by rfl

@[simp] theorem svcBody_wf {s : State} (hm : s.mem.wf) {code u e p} : (svcBody code u s e p).MemWf := by
  unfold svcBody
  refine once_wf hm fun src r => ?_
  dsimp only
  have ht : (s.escapeTeam e.t).mem.wf = true := by simpa using hm
  split
  · exact strike_wf ht
  · split
    · exact strike_wf ht
    · split
      · exact strike_wf ht
      · split
        · exact ht
        · split <;> rename_i heq
          · exact strike_wf ht
          · simpa using State.unitWords_wf ht _ _ heq

@[simp] theorem execSvc_wf {s : State} (hm : s.mem.wf) {x} : Res.MemWf (execSvc x s) :=
  peelOp_wf hm fun _ _ _ _ h => by simp [h]

@[simp] theorem State.settleFlights_mem (s : State) (e) : (State.settleFlights s e).mem = s.mem := by
  simp [State.settleFlights]

@[simp] theorem csrrBody_wf {s : State} (hm : s.mem.wf) {ix d u e p} : (csrrBody ix d u s e p).MemWf := by
  unfold csrrBody
  refine once_wf hm fun src r => ?_
  dsimp only
  repeat' split
  all_goals simp [hm]

@[simp] theorem execCsrr_wf {s : State} (hm : s.mem.wf) {x} : Res.MemWf (execCsrr x s) :=
  peelOp_wf hm fun _ _ _ _ h => by simp [h]

@[simp] theorem State.csrWrite_mem (s : State) (e ix v p) : (State.csrWrite s e ix v p).mem = s.mem := by
  simp [State.csrWrite]

@[simp] theorem execCsrw_wf {s : State} (hm : s.mem.wf) {x} : Res.MemWf (execCsrw x s) :=
  peelOp_wf hm fun _ _ _ _ h => once_wf h fun _ _ => by simp [h]

@[simp] theorem launchBody_wf {s : State} (hm : s.mem.wf) {d u e p} : (launchBody d u s e p).MemWf := by
  unfold launchBody
  refine once_wf hm fun src r => ?_
  dsimp only
  have ht : (s.escapeTeam e.t).mem.wf = true := by simpa using hm
  split
  · exact strike_wf ht
  · split
    · exact ht
    · split
      · exact strike_wf ht
      · exact strike_wf ht
      · split
        · exact strike_wf ht
        · split <;> rename_i heq
          · exact strike_wf ht
          · rename_i s1 ws
            have h1 := State.unitWords_wf ht _ _ heq
            have h2 : (s1.checkLaunch e.team.ctx (src 0) ws true).1.mem.wf = true := State.checkLaunch_wf h1
            split <;> rename_i heq <;> rw [heq] at h2
            · exact h2
            · split
              · exact strike_wf h2
              · simpa using State.createGrid_wf h2

@[simp] theorem execLaunch_wf {s : State} (hm : s.mem.wf) {x} : Res.MemWf (execLaunch x s) :=
  peelOp_wf hm fun _ _ _ _ h => by simp [h]

@[simp] theorem lwaitBody_wf {s : State} (hm : s.mem.wf) {all u e p} : (lwaitBody all u s e p).MemWf := by
  unfold lwaitBody
  refine once_wf hm fun src r => ?_
  dsimp only
  split
  · split <;> exact hm
  · split <;> rename_i heq
    · exact strike_wf ((State.load_wf hm).of_trap heq)
    · exact (State.load_wf hm).of_wait heq
    · split <;> exact (State.load_wf hm).of_ok heq

@[simp] theorem execLwait_wf {s : State} (hm : s.mem.wf) {x} : Res.MemWf (execLwait x s) :=
  peelOp_wf hm fun _ _ _ _ h => by simp [h]

@[simp] theorem execNop_wf {s : State} (hm : s.mem.wf) {x} : Res.MemWf (execNop x s) :=
  issue_wf hm (fun _ _ _ _ h => by simp [h]) fun _ _ _ _ _ h => by simp [h]

end Sys2Proof.Machine
end

