-- ==== Sys2Proof/Proofs/MemorySched.lean ====
section
/-!
SUPPORT. Scheduling and reliability: what leaves memory as it is (`_mem`), and what keeps its
canonical form (`_wf`).
-/
namespace Sys2Proof.Machine
open Sys2Proof

@[simp] theorem State.fetchSub_wf {s : State} (hm : s.mem.wf) {e} : (State.fetchSub s e).mem.wf = true := by
  unfold State.fetchSub
  split
  · exact hm
  · rename_i g _
    split
    · exact hm
    · split
      · simpa using hm
      · rename_i c _
        have h : (s.obtainCode e.team.core (s.codeLines g.ctx c)).1.mem.wf = true := State.obtainCode_wf hm
        split <;> rename_i heq <;> rw [heq] at h <;> simpa using h

@[simp] theorem State.fetchSpan_wf {s : State} (hm : s.mem.wf) {i sp} : (State.fetchSpan s i sp).mem.wf = true := by
  unfold State.fetchSpan
  split
  · rename_i g core _ _ _
    split
    · exact hm
    · split
      · simpa using hm
      · rename_i c _
        have h : (s.obtainCode core (s.codeLines g.ctx c)).1.mem.wf = true := State.obtainCode_wf hm
        split <;> rename_i heq <;> rw [heq] at h <;> simpa using h
  · exact hm

@[simp] theorem execClauseFetch_wf {s : State} (hm : s.mem.wf) {who} : Res.MemWf (execClauseFetch who s) := by
  unfold execClauseFetch
  split
  · rename_i t w k
    cases s.ex? t w k with
    | none => exact hm
    | some e => exact State.fetchSub_wf hm
  · rename_i i
    cases s.spans.get? i with
    | none => exact hm
    | some sp => exact State.fetchSpan_wf hm

@[simp] theorem State.chosen_mem (s : State) (f) : (State.chosen s f).mem = s.mem := by
  unfold State.chosen
  split <;> simp

@[simp] theorem State.ageAll_mem (s : State) (n) : (State.ageAll s n).mem = s.mem := by
  unfold State.ageAll
  refine foldl_mem (fun s' p => ?_) _ _
  split
  · refine foldl_mem (fun s' w => ?_) _ _
    split <;> simp
  · rfl

@[simp] theorem State.endYields_mem (s : State) (core port f) : (State.endYields s core port f).mem = s.mem := by rfl

@[simp] theorem State.startClause_mem (s : State) (core port f) : (State.startClause s core port f).mem = s.mem := by
  unfold State.startClause
  repeat' split
  all_goals simp

@[simp] theorem execClauseStart_wf {s : State} (hm : s.mem.wf) {core port} : Res.MemWf (execClauseStart core port s) := by
  unfold execClauseStart
  repeat' split
  all_goals simp [hm]

@[simp] theorem State.fitPools_mem (s : State) (core me n) : (State.fitPools core me n s).mem = s.mem := by
  induction n generalizing s with
  | zero => rfl
  | succ n ih =>
    unfold State.fitPools
    dsimp only
    repeat' split
    all_goals simp [ih]

@[simp] theorem State.fit_mem (s : State) (core me) : (State.fit s core me).mem = s.mem := by simp [State.fit]

@[simp] theorem execFrameRefill_wf {s : State} (hm : s.mem.wf) {team wave depth} :
    Res.MemWf (execFrameRefill team wave depth s) := by
  unfold execFrameRefill
  repeat' split
  all_goals simp [hm]

@[simp] theorem execUniformFrameRefill_wf {s : State} (hm : s.mem.wf) {team wave} :
    Res.MemWf (execUniformFrameRefill team wave s) := by
  unfold execUniformFrameRefill
  repeat' split
  all_goals simp [hm]

@[simp] theorem State.fitOwner_mem (s : State) (o) : (State.fitOwner s o).mem = s.mem := by
  unfold State.fitOwner
  split <;> simp

@[simp] theorem execResultWrite_wf {s : State} (hm : s.mem.wf) {who seq} : Res.MemWf (execResultWrite who seq s) := by
  unfold execResultWrite
  repeat' split
  all_goals simp [hm]

@[simp] theorem execTrackedComplete_wf {s : State} (hm : s.mem.wf) {who seq} : Res.MemWf (execTrackedComplete who seq s) := by
  unfold execTrackedComplete
  split
  · exact hm
  · split
    · exact hm
    · split
      · dsimp only
        split
        · simp [hm]
        · split <;> rename_i heq
          · simpa using State.sweep_wf ((State.runMove_wf hm).of_ok heq)
          · exact (State.runMove_wf hm).of_wait heq
          · exact hm
      all_goals simp [hm]

@[simp] theorem execAccessPerformed_wf {s : State} (hm : s.mem.wf) {who seq} : Res.MemWf (execAccessPerformed who seq s) := by
  unfold execAccessPerformed
  split <;> simp [hm]

@[simp] theorem execHandlerEntry_wf {s : State} (hm : s.mem.wf) {team wave sub} :
    Res.MemWf (execHandlerEntry team wave sub s) := by
  unfold execHandlerEntry
  split <;> simp [hm]

@[simp] theorem execFaultRecord_wf {s : State} (hm : s.mem.wf) {team wave sub} : Res.MemWf (execFaultRecord team wave sub s) := by
  unfold execFaultRecord
  split <;> simp [hm]

theorem State.evictRecord_mem {s t : State} {f} (h : s.evictRecord f = some t) : t.mem = s.mem := by
  unfold State.evictRecord at h
  dsimp only at h
  split at h
  · cases h
  · cases h
    rfl

theorem State.recordRoomFor_mem {s t : State} {f n k} (h : State.recordRoomFor f n k s = some t) : t.mem = s.mem := by
  induction k generalizing s with
  | zero =>
    unfold State.recordRoomFor at h
    split at h <;> cases h
    rfl
  | succ k ih =>
    unfold State.recordRoomFor at h
    split at h
    · cases h
      rfl
    · split at h
      · rename_i hs
        exact (ih h).trans (State.evictRecord_mem hs)
      · cases h

@[simp] theorem execSpanRecordFetch_wf {s : State} (hm : s.mem.wf) {span} : Res.MemWf (execSpanRecordFetch span s) := by
  unfold execSpanRecordFetch
  split
  · exact hm
  · split
    · exact hm
    · dsimp only
      split
      · exact hm
      · split <;> rename_i heq
        · exact hm
        · simpa [State.recordRoomFor_mem heq] using hm

@[simp] theorem execSpanSlotGrant_wf {s : State} (hm : s.mem.wf) {span} : Res.MemWf (execSpanSlotGrant span s) := by
  unfold execSpanSlotGrant
  dsimp only
  repeat' split
  all_goals simp [hm]

@[simp] theorem execSjoinTimeout_wf {s : State} (hm : s.mem.wf) {span} : Res.MemWf (execSjoinTimeout span s) := by
  unfold execSjoinTimeout
  dsimp only
  repeat' split
  all_goals simp [hm]

@[simp] theorem State.takeRange_mem (s : State) (core lo n keep) : (State.takeRange s core lo n keep).mem = s.mem := by
  simp [State.takeRange]

@[simp] theorem State.admitNew_mem (s : State) (cid c g pos core base keep) :
    (State.admitNew s cid c g pos core base keep).mem = s.mem := by
  simp [State.admitNew]

@[simp] theorem execCursorTake_wf {s : State} (hm : s.mem.wf) {cursor} : Res.MemWf (execCursorTake cursor s) := by
  unfold execCursorTake
  dsimp only
  repeat' split
  all_goals simp [hm]

@[simp] theorem execAffinityTimeout_wf {s : State} (hm : s.mem.wf) {cursor} : Res.MemWf (execAffinityTimeout cursor s) := by
  unfold execAffinityTimeout
  repeat' split
  all_goals simp [hm]

@[simp] theorem State.settleEntry_wf {s : State} (hm : s.mem.wf) {core entry} :
    (State.settleEntry s core entry).mem.wf = true :=
  foldl_wf (fun s _ h => by simp [h]) _ hm

@[simp] theorem State.restoreEntries_wf {s : State} (hm : s.mem.wf) {t core base l} :
    (State.restoreEntries s t core base l).mem.wf = true := by
  refine foldl_wf (fun s x h => ?_) _ hm
  dsimp only
  repeat' split
  all_goals simp [h]

@[simp] theorem State.restoreScratch_wf {s : State} (hm : s.mem.wf) {tm core base} :
    (State.restoreScratch s tm core base).mem.wf = true :=
  foldl_wf (fun s _ h => by simp [h]) _ hm

@[simp] theorem State.readmit_wf {s : State} (hm : s.mem.wf) {t tm g core base keep} :
    (State.readmit s t tm g core base keep).mem.wf = true := by
  simp [State.readmit, hm]

@[simp] theorem execTeamAdmit_wf {s : State} (hm : s.mem.wf) {team} : Res.MemWf (execTeamAdmit team s) := by
  unfold execTeamAdmit
  repeat' split
  all_goals simp [hm]

@[simp] theorem State.putBank_mem (s : State) (e) : (State.putBank s e).mem = s.mem := by rfl

@[simp] theorem State.modVents_mem (s : State) (b f) : (State.modVents s b f).mem = s.mem := by
  unfold State.modVents
  split <;> simp

@[simp] theorem State.requestVent_mem (s : State) (b) : (State.requestVent s b).mem = s.mem := by simp [State.requestVent]

@[simp] theorem State.restoreSector_mem (s : State) (ctx core sec u) : (State.restoreSector s ctx core sec u).mem = s.mem := by
  unfold State.restoreSector
  dsimp only
  repeat' split
  all_goals simp

@[simp] theorem State.rollback_mem (s : State) (t tm l) : (State.rollback s t tm l).mem = s.mem := by simp [State.rollback]

@[simp] theorem State.killRecorded_wf {s : State} (hm : s.mem.wf) {t tm cause sub} :
    (State.killRecorded s t tm cause sub).mem.wf = true := by
  simp [State.killRecorded, hm]

@[simp] theorem execUndoWriteComplete_wf {s : State} (hm : s.mem.wf) {team sector} :
    Res.MemWf (execUndoWriteComplete team sector s) := by
  simp [execUndoWriteComplete, hm]

@[simp] theorem State.failHopeless_mem (s : State) : (State.failHopeless s).mem = s.mem := by
  refine foldl_mem (fun s x => ?_) _ _
  split <;> simp

@[simp] theorem State.capacitySwap_mem (s : State) (core) : (State.capacitySwap s core).mem = s.mem := by
  simp [State.capacitySwap]

@[simp] theorem State.emptyCaches_mem (s : State) (core) : (State.emptyCaches s core).mem = s.mem := by
  simp [State.emptyCaches]

@[simp] theorem State.removeCore_wf {s : State} (hm : s.mem.wf) {core} : (State.removeCore s core).mem.wf = true := by
  unfold State.removeCore
  rw [State.failHopeless_mem, State.modCore_mem]
  exact foldl_wf (fun s p h => by simpa using State.flush_wf h) _ (by simpa using hm)

@[simp] theorem State.loseQuad_wf {s : State} (hm : s.mem.wf) {core} : (State.loseQuad s core).mem.wf = true := by
  unfold State.loseQuad
  dsimp only
  repeat' split
  all_goals simp [hm]

@[simp] theorem State.pipeError_wf {s : State} (hm : s.mem.wf) {t sub site} : (State.pipeError s t sub site).mem.wf = true := by
  unfold State.pipeError
  repeat' split
  all_goals simp [hm]

@[simp] theorem execPipeError_wf {s : State} (hm : s.mem.wf) {team sub site} : Res.MemWf (execPipeError team sub site s) := by
  simp [execPipeError, hm]

@[simp] theorem execScoreboardMismatch_wf {s : State} (hm : s.mem.wf) {team wave again} :
    Res.MemWf (execScoreboardMismatch team wave again s) := by
  unfold execScoreboardMismatch
  repeat' split
  all_goals simp [hm]

@[simp] theorem State.takeSpare_mem (s : State) (core) : (State.takeSpare s core).mem = s.mem := by simp [State.takeSpare]

@[simp] theorem State.markStarted_mem (s : State) (b total cap old) : (State.markStarted s b total cap old).mem = s.mem := by
  simp [State.markStarted]

@[simp] theorem State.writeRecord_mem (s : State) : (State.writeRecord s).mem = s.mem := by rfl

@[simp] theorem State.ventDone_mem (s : State) (b) : (State.ventDone s b).mem = s.mem := by simp [State.ventDone]

@[simp] theorem State.ventCheck_mem (s : State) (b) : (State.ventCheck s b).mem = s.mem := by
  unfold State.ventCheck
  split <;> simp

@[simp] theorem State.startCoreVent_wf {s : State} (hm : s.mem.wf) {b} : (State.startCoreVent s b).mem.wf = true := by
  unfold State.startCoreVent
  split <;> simp [hm]

@[simp] theorem State.hbmCheck_mem (s : State) : (State.hbmCheck s).mem = s.mem := by simp [State.hbmCheck]

@[simp] theorem execVentStart_wf {s : State} (hm : s.mem.wf) {b} : Res.MemWf (execVentStart b s) := by
  unfold execVentStart
  extract_lets busy
  split
  · exact hm
  · split
    · exact hm
    · split
      · dsimp only
        rw [Res.memWf_next, State.ventCheck_mem]
        split
        · exact foldl_wf (fun s c h => State.removeCore_wf h) _ (by simpa using hm)
        · simpa using hm
      · simpa using hm
      · exact State.startCoreVent_wf hm

@[simp] theorem execVentMove_wf {s : State} (hm : s.mem.wf) {b} : Res.MemWf (execVentMove b s) := by
  unfold execVentMove
  split <;> simp [hm]

@[simp] theorem execL2SliceHandover_wf {s : State} (hm : s.mem.wf) {slice} : Res.MemWf (execL2SliceHandover slice s) := by
  unfold execL2SliceHandover
  dsimp only
  split
  · exact hm
  · split
    · simpa using hm
    · split
      · exact hm
      · rw [Res.memWf_next, State.ventCheck_mem, State.modVents_mem, State.modDev_mem]
        exact foldl_wf (fun s l h => by simpa using State.force_wf h) _ hm

@[simp] theorem State.moveGranules_wf {s : State} (hm : s.mem.wf) {dev src dst n} :
    (s.moveGranules dev src dst n).mem.wf = true := by
  induction n with
  | zero => exact hm
  | succ n ih => exact Memory.splice_wf _ _ _ ih

@[simp] theorem State.moveBacking_wf {s : State} (hm : s.mem.wf) {dev frame target} :
    (State.moveBacking s dev frame target).mem.wf = true := by
  simp [State.moveBacking, hm]

@[simp] theorem execHbmPageMove_wf {s : State} (hm : s.mem.wf) {dev frame target} :
    Res.MemWf (execHbmPageMove dev frame target s) := by
  unfold execHbmPageMove
  dsimp only
  repeat' split
  all_goals simp [hm]

@[simp] theorem State.corrected_mem (s : State) (b addr) : (State.corrected s b addr).mem = s.mem := by
  simp [State.corrected]

@[simp] theorem execCorrectedError_wf {s : State} (hm : s.mem.wf) {b addr} : Res.MemWf (execCorrectedError b addr s) := by
  simp [execCorrectedError, hm]

@[simp] theorem execErrLogWindowClose_wf {s : State} (hm : s.mem.wf) {b} : Res.MemWf (execErrLogWindowClose b s) := by
  unfold execErrLogWindowClose
  dsimp only
  repeat' split
  all_goals simp [hm]

@[simp] theorem State.rolled_mem (old s : State) (t) : (State.rolled old t s).1.mem = s.mem := by rfl

@[simp] theorem State.destroy_wf {s : State} (hm : s.mem.wf) {b site} : (State.destroy s b site).1.mem.wf = true := by
  unfold State.destroy
  dsimp only
  repeat' split
  all_goals simp [hm]

@[simp] theorem execUncorrectedError_wf {s : State} (hm : s.mem.wf) {b site} : Res.MemWf (execUncorrectedError b site s) := by
  unfold execUncorrectedError
  split <;> simp [hm]

@[simp] theorem execPatrolScrub_wf {s : State} (hm : s.mem.wf) {b place found} : Res.MemWf (execPatrolScrub b place found s) := by
  unfold execPatrolScrub
  repeat' split
  all_goals simp [hm]

end Sys2Proof.Machine
end

