-- ==== Sys2Proof/Proofs/MemoryQueues.lean ====
section
/-!
SUPPORT. Homes, queues and waits: what leaves memory as it is (`_mem`), and what keeps its
canonical form (`_wf`).
-/
namespace Sys2Proof.Machine
open Sys2Proof

@[simp] theorem State.fillStep_wf {s : State} (hm : s.mem.wf) {core sector ok} :
    (State.fillStep s core sector ok).mem.wf = true := by
  unfold State.fillStep
  split
  · exact hm
  · rename_i sc _
    split
    · rename_i e _ _
      have h : (s.fillSector core sector sc.entry e).MemWf := State.fillSector_wf hm
      split <;> rename_i heq
      · split
        · exact h.of_ok heq
        · exact hm
      · split
        · exact hm
        · exact h.of_trap heq
      · exact h.of_wait heq
    · exact hm

@[simp] theorem execSectorFillComplete_wf {s : State} (hm : s.mem.wf) {core sector} :
    Res.MemWf (execSectorFillComplete core sector s) := by
  simp [execSectorFillComplete, hm]

@[simp] theorem execSectorFillFault_wf {s : State} (hm : s.mem.wf) {core sector} :
    Res.MemWf (execSectorFillFault core sector s) := by
  simp [execSectorFillFault, hm]

@[simp] theorem execSectorWritebackComplete_wf {s : State} (hm : s.mem.wf) {core sector} :
    Res.MemWf (execSectorWritebackComplete core sector s) := by
  simp [execSectorWritebackComplete, hm]

@[simp] theorem State.request_wf {s : State} (hm : s.mem.wf) {l who write partialOwn} :
    (State.request s l who write partialOwn).mem.wf = true := by
  simp [State.request, hm]

@[simp] theorem execGets_wf {s : State} (hm : s.mem.wf) {line who} : Res.MemWf (execGets line who s) := by
  simp [execGets, hm]

@[simp] theorem State.requestOwn_wf {s : State} (hm : s.mem.wf) {l who} : (State.requestOwn s l who).mem.wf = true := by
  simp [State.requestOwn, hm]

@[simp] theorem execGetm_wf {s : State} (hm : s.mem.wf) {line who} : Res.MemWf (execGetm line who s) := by
  simp [execGetm, hm]

@[simp] theorem execUpgrade_wf {s : State} (hm : s.mem.wf) {line who} : Res.MemWf (execUpgrade line who s) := by
  simp [execUpgrade, hm]

@[simp] theorem execGetp_wf {s : State} (hm : s.mem.wf) {line who} : Res.MemWf (execGetp line who s) := by
  simp [execGetp, hm]

@[simp] theorem execWriteBack_wf {s : State} (hm : s.mem.wf) {line who} : Res.MemWf (execWriteBack line who s) := by
  unfold execWriteBack
  dsimp only
  repeat' split
  all_goals simp [hm]

@[simp] theorem execCleanNotice_wf {s : State} (hm : s.mem.wf) {line who} : Res.MemWf (execCleanNotice line who s) := by
  unfold execCleanNotice
  dsimp only
  repeat' split
  all_goals simp [hm]

@[simp] theorem execUncachedAccess_wf {s : State} (hm : s.mem.wf) {line write} : Res.MemWf (execUncachedAccess line write s) := by
  simp [execUncachedAccess, hm]

@[simp] theorem execRecallForRead_wf {s : State} (hm : s.mem.wf) {line who} : Res.MemWf (execRecallForRead line who s) := by
  simp [execRecallForRead, hm]

@[simp] theorem execRecallForWrite_wf {s : State} (hm : s.mem.wf) {line who} : Res.MemWf (execRecallForWrite line who s) := by
  simp [execRecallForWrite, hm]

@[simp] theorem execStashRecall_wf {s : State} (hm : s.mem.wf) {core line write} :
    Res.MemWf (execStashRecall core line write s) := by
  simp [execStashRecall, hm]

@[simp] theorem execRecallAck_wf {s : State} (hm : s.mem.wf) {line who} : Res.MemWf (execRecallAck line who s) := by
  unfold execRecallAck
  dsimp only
  repeat' split
  all_goals simp [hm]

@[simp] theorem execHomeFillComplete_wf {s : State} (hm : s.mem.wf) {line} : Res.MemWf (execHomeFillComplete line s) := by
  unfold execHomeFillComplete
  rw [Res.memWf_next]
  split
  · refine State.closeTxn_wf ?_
    cases hf : s.homeFill line with
    | none => exact hm
    | some t => exact State.homeFill_wf hm t hf
  · exact hm

@[simp] theorem execTranslationWalk_wf {s : State} (hm : s.mem.wf) {dev asid va} :
    Res.MemWf (execTranslationWalk dev asid va s) := by
  unfold execTranslationWalk
  split <;> simp [hm]

@[simp] theorem execTranslationFault_wf {s : State} (hm : s.mem.wf) {line} : Res.MemWf (execTranslationFault line s) := by
  simp [execTranslationFault, hm]

@[simp] theorem State.hostReq_wf {s : State} (hm : s.mem.wf) {dpa l q} : (State.hostReq s dpa l q).mem.wf = true := by
  unfold State.hostReq
  split
  · simpa using hm
  · dsimp only
    split
    · simp [hm]
    · split <;> rename_i hf
      · simp [hm]
      · have h := State.homeFill_wf (State.closeTxn_wf (State.answerAll_wf hm)) _ hf
        simp [h]

@[simp] theorem State.hostRequest_wf {s : State} (hm : s.mem.wf) {dev port dpa q} :
    (State.hostRequest s dev port dpa q).mem.wf = true := by
  unfold State.hostRequest
  dsimp only
  repeat' split
  all_goals simp [hm]

@[simp] theorem execMemrdSnpdata_wf {s : State} (hm : s.mem.wf) {dev port dpa} : Res.MemWf (execMemrdSnpdata dev port dpa s) := by
  simp [execMemrdSnpdata, hm]

@[simp] theorem execMemrdSnpinv_wf {s : State} (hm : s.mem.wf) {dev port dpa} : Res.MemWf (execMemrdSnpinv dev port dpa s) := by
  simp [execMemrdSnpinv, hm]

@[simp] theorem execMemrdNoSnoop_wf {s : State} (hm : s.mem.wf) {dev port dpa} : Res.MemWf (execMemrdNoSnoop dev port dpa s) := by
  simp [execMemrdNoSnoop, hm]

@[simp] theorem execMemwr_wf {s : State} (hm : s.mem.wf) {dev port dpa data} : Res.MemWf (execMemwr dev port dpa data s) := by
  simp [execMemwr, hm]

@[simp] theorem execBirspi_wf {s : State} (hm : s.mem.wf) {line port} : Res.MemWf (execBirspi line port s) := by
  simp [execBirspi, hm]

@[simp] theorem execBisnpdataResponse_wf {s : State} (hm : s.mem.wf) {line port data} :
    Res.MemWf (execBisnpdataResponse line port data s) := by
  unfold execBisnpdataResponse
  dsimp only
  rw [Res.memWf_next]
  split
  · exact hm
  · split
    · exact hm
    · refine State.closeTxn_wf ((State.ack_mem _ _ _).symm ▸ State.recallAt_wf ?_)
      split <;> simp [hm]

@[simp] theorem State.hostSnoop_wf {s : State} (hm : s.mem.wf) {dev port hpa snoop} :
    (State.hostSnoop s dev port hpa snoop).mem.wf = true :=
  foldl_wf (fun s _ h => by simp [h]) _ hm

@[simp] theorem State.hostResume_wf {s : State} (hm : s.mem.wf) {dev} : (State.hostResume s dev).mem.wf = true := by
  unfold State.hostResume
  refine foldl_wf (fun s p h => ?_) _ (foldl_wf (fun s e h => State.closeTxn_wf h) _ (by simpa using hm))
  split
  · split <;> simp [h]
  · exact h

@[simp] theorem execH2dSnpinv_wf {s : State} (hm : s.mem.wf) {dev port hpa} : Res.MemWf (execH2dSnpinv dev port hpa s) := by
  simp [execH2dSnpinv, hm]

@[simp] theorem execH2dSnpdata_wf {s : State} (hm : s.mem.wf) {dev port hpa} : Res.MemWf (execH2dSnpdata dev port hpa s) := by
  simp [execH2dSnpdata, hm]

@[simp] theorem execH2dSnpcur_wf {s : State} (hm : s.mem.wf) {dev port hpa} : Res.MemWf (execH2dSnpcur dev port hpa s) := by
  simp [execH2dSnpcur, hm]

@[simp] theorem State.startCmd_wf {s : State} (hm : s.mem.wf) {k c} : (State.startCmd s k c).mem.wf = true := by
  simp [State.startCmd, hm]

@[simp] theorem State.cmdDone_wf {s : State} (hm : s.mem.wf) {k i} : (State.cmdDone s k i).mem.wf = true := by
  simp [State.cmdDone, hm]

@[simp] theorem State.cmdOnce_wf {s : State} (hm : s.mem.wf) {k i} : (State.cmdOnce s k i).mem.wf = true := by
  simp [State.cmdOnce, hm]

theorem State.nextCmd_wf {s t : State} (hm : s.mem.wf) {k q c} (h : s.nextCmd k = some (q, .ok (t, c))) : t.mem.wf = true := by
  unfold State.nextCmd at h
  split at h
  · cases h
  · split at h
    · cases h
    · split at h
      · cases h
      · rename_i hw
        dsimp only at h
        split at h
        · cases h
        · cases h
          exact State.unitWords_wf hm _ _ hw

theorem State.runCmd_wf {s : State} (hm : s.mem.wf) {f : State → Queue → Command → State}
    (hf : ∀ (s : State) q c, s.mem.wf → (f s q c).mem.wf) {k op} : (s.runCmd k op f).mem.wf = true := by
  unfold State.runCmd
  split <;> rename_i heq
  · split
    · exact hf _ _ _ (State.nextCmd_wf hm heq)
    · exact hm
  · exact hm

@[simp] theorem execQueueLaunch_wf {s : State} (hm : s.mem.wf) {queue} : Res.MemWf (execQueueLaunch queue s) := by
  refine State.runCmd_wf hm fun s q c h => ?_
  split
  · exact h
  · split <;> rename_i heq
    · exact State.refuseQueue_wf h
    · rename_i t ws
      have h1 := State.unitWords_wf h _ _ heq
      have h2 : (t.checkLaunch q.ctx c.arg0 ws false).1.mem.wf = true := State.checkLaunch_wf h1
      split <;> rename_i heq <;> rw [heq] at h2
      · exact State.refuseQueue_wf h2
      · exact State.startCmd_wf (State.createGrid_wf h2)

theorem State.readCounter_wf {s : State} (hm : s.mem.wf) {ctx ea} :
    ∀ t a, State.readCounter s ctx ea = .ok (t, a) → t.mem.wf = true := by
  intro t a h
  unfold State.readCounter at h
  dsimp only at h
  split at h
  · split at h
    · cases h
    · cases h
      exact hm
  · exact State.unitRead_wf hm _ _ h

@[simp] theorem execWaitcnt_wf {s : State} (hm : s.mem.wf) {queue} : Res.MemWf (execWaitcnt queue s) := by
  refine State.runCmd_wf hm fun s q c h => ?_
  split
  · exact h
  · split <;> rename_i heq
    · exact State.refuseQueue_wf h
    · have h1 := State.readCounter_wf h _ _ heq
      split
      · exact State.cmdOnce_wf h1
      · exact State.startCmd_wf h1

@[simp] theorem execWaitcntRelease_wf {s : State} (hm : s.mem.wf) {queue index} :
    Res.MemWf (execWaitcntRelease queue index s) := by
  unfold execWaitcntRelease
  dsimp only
  rw [Res.memWf_next]
  split
  · exact hm
  · split
    · exact hm
    · split <;> rename_i heq
      · exact State.refuseQueue_wf (State.setQueue_wf hm)
      · have h1 := State.readCounter_wf hm _ _ heq
        split
        · exact State.cmdDone_wf h1
        · exact h1

@[simp] theorem execSignal_wf {s : State} (hm : s.mem.wf) {queue} : Res.MemWf (execSignal queue s) := by
  refine State.runCmd_wf hm fun s q c h => ?_
  split
  · exact h
  · split <;> rename_i heq
    · exact State.cmdOnce_wf (State.bumpCounter_wf h _ heq)
    · exact State.refuseQueue_wf h

@[simp] theorem execQueueNop_wf {s : State} (hm : s.mem.wf) {queue} : Res.MemWf (execQueueNop queue s) :=
  State.runCmd_wf hm fun _ _ _ h => State.cmdOnce_wf h

@[simp] theorem execQueueCommandFenced_wf {s : State} (hm : s.mem.wf) {queue} : Res.MemWf (execQueueCommandFenced queue s) := by
  unfold execQueueCommandFenced
  rw [Res.memWf_next]
  split <;> rename_i heq
  · exact State.refuseQueue_wf hm
  · split
    · exact hm
    · exact State.refuseQueue_wf (State.nextCmd_wf hm heq)
  · exact hm

@[simp] theorem execDoorbellWrite_wf {s : State} (hm : s.mem.wf) {queue tail} : Res.MemWf (execDoorbellWrite queue tail s) := by
  simp [execDoorbellWrite, hm]

@[simp] theorem State.finishGrid_wf {s : State} (hm : s.mem.wf) {k g} : (State.finishGrid s k g).mem.wf = true := by
  unfold State.finishGrid
  extract_lets s1 s2 s3 s4 s5 s6
  have h2 : s2.mem.wf = true := State.countUp_wf (State.unitPut_wf hm)
  have h5 : s5.mem.wf = true := by
    have h4 : s4.mem.wf = true := by
      simp only [s4, s3]
      split <;> simpa using h2
    simp only [s5]
    split
    · exact h4
    · simpa using h4
  refine State.sweep_wf ?_
  simp only [s6]
  split
  · exact h5
  · exact State.cmdDone_wf h5

@[simp] theorem execGridComplete_wf {s : State} (hm : s.mem.wf) {grid} : Res.MemWf (execGridComplete grid s) := by
  unfold execGridComplete
  split <;> simp [hm]

@[simp] theorem execTransferAccept_wf {s : State} (hm : s.mem.wf) {queue} : Res.MemWf (execTransferAccept queue s) := by
  unfold execTransferAccept
  rw [Res.memWf_next]
  split
  · exact hm
  · split
    · exact hm
    · split
      · exact hm
      · split <;> rename_i heq
        · exact State.refuseQueue_wf hm
        · have h := State.unitWords_wf hm _ _ heq
          split
          · exact State.refuseQueue_wf h
          · split <;> rename_i heq
            · exact hm
            · exact State.setQueue_wf (by simpa [State.acceptXfer_mem heq] using h)

@[simp] theorem State.modXfer_mem (s : State) (n slot f) : (State.modXfer s n slot f).mem = s.mem := by rfl

@[simp] theorem State.xferImage_wf {s : State} (hm : s.mem.wf) {a x k off} : (State.xferImage a x k off s).1.mem.wf = true := by
  induction k generalizing s off with
  | zero => exact hm
  | succ k ih =>
    unfold State.xferImage
    split <;> rename_i heq
    · exact (State.engineBytes_wf hm).of_trap heq
    · exact (State.engineBytes_wf hm).of_wait heq
    · exact ih ((State.engineBytes_wf hm).of_ok heq)

@[simp] theorem State.xferReady_wf {s : State} (hm : s.mem.wf) {a l} : (State.xferReady a l s).1.mem.wf = true := by
  induction l generalizing s with
  | nil => exact hm
  | cons p r ih =>
    unfold State.xferReady
    split <;> rename_i heq
    · exact (State.ready_wf hm).of_trap heq
    · exact (State.ready_wf hm).of_wait heq
    · exact ih ((State.ready_wf hm).of_ok heq)

@[simp] theorem State.moveXfer_wf {s : State} (hm : s.mem.wf) {n slot x} : (State.moveXfer s n slot x).MemWf := by
  unfold State.moveXfer
  dsimp only
  generalize hi : State.xferImage (x.accessor n) x x.burst x.off s = r
  have hr : r.1.mem.wf = true := hi ▸ State.xferImage_wf hm
  obtain ⟨s1, img, stop⟩ := r
  generalize hq : State.xferReady (x.accessor n) img s1 = q
  have h2 : q.1.mem.wf = true := hq ▸ State.xferReady_wf hr
  obtain ⟨s2, l, o⟩ := q
  cases o <;> dsimp only at h2 ⊢
  all_goals
    split
    · exact h2
    · exact h2
    · split <;> rename_i heq
      · exact (State.imageWrite_wf h2).of_trap heq
      · exact h2
      · simpa using (State.imageWrite_wf h2).of_ok heq

@[simp] theorem execTransferBurst_wf {s : State} (hm : s.mem.wf) {engine slot} : Res.MemWf (execTransferBurst engine slot s) := by
  unfold execTransferBurst
  rw [Res.memWf_next]
  split
  · exact hm
  · split
    · exact hm
    · split <;> rename_i heq
      · exact (State.moveXfer_wf hm).of_ok heq
      · exact hm
      · exact (State.moveXfer_wf hm).of_wait heq

@[simp] theorem State.suspendXfer_mem (s : State) (n slot x t) : (State.suspendXfer s n slot x t).mem = s.mem := by
  simp [State.suspendXfer]

@[simp] theorem execTransferComplete_wf {s : State} (hm : s.mem.wf) {engine slot} :
    Res.MemWf (execTransferComplete engine slot s) := by
  unfold execTransferComplete
  rw [Res.memWf_next]
  split
  · exact hm
  · split
    · exact hm
    · split <;> rename_i heq
      · exact hm
      · simpa using State.addCounter_wf hm _ heq

@[simp] theorem execTransferFault_wf {s : State} (hm : s.mem.wf) {engine slot} : Res.MemWf (execTransferFault engine slot s) := by
  unfold execTransferFault
  rw [Res.memWf_next]
  split
  · exact hm
  · split
    · split <;> rename_i heq
      · simpa using (State.moveXfer_wf hm).of_trap heq
      · exact hm
    · split
      · simpa using hm
      · exact hm

theorem withSub_wf {t w k : Nat} {f : State → Res} {s : State} (hm : s.mem.wf) (hf : MemStep f) :
    Res.MemWf (withSub t w k f s) := by
  unfold withSub
  have h := hf { s with cur := some (.sub t w k) } hm
  split
  · rename_i heq
    rw [heq] at h
    exact h
  · exact h

theorem goOn_wf {kind : HoldKind} {run : Instr → Option (State → Res)} {t w k : Nat} {s : State} (hm : s.mem.wf)
    (hr : ∀ i, ∀ f ∈ run i, MemStep f) : Res.MemWf (goOn kind run t w k s) := by
  unfold goOn
  split
  · exact hm
  · split
    · split
      · rename_i f hf
        obtain ⟨i, -, hi⟩ := Option.bind_eq_some_iff.1 hf
        exact withSub_wf hm (hr i f hi)
      · exact hm
    · exact hm

theorem runWaitv_wf (i : Instr) : ∀ f ∈ runWaitv i, MemStep f := by
  intro f hf
  unfold runWaitv at hf
  split at hf <;> cases hf
  exact fun s h => execWaitv_wf h

theorem runCntwait_wf (i : Instr) : ∀ f ∈ runCntwait i, MemStep f := by
  intro f hf
  unfold runCntwait at hf
  split at hf <;> cases hf
  exact fun s h => execCntwait_wf h

theorem runPhwait_wf (i : Instr) : ∀ f ∈ runPhwait i, MemStep f := by
  intro f hf
  unfold runPhwait at hf
  split at hf <;> cases hf
  exact fun s h => execPhwait_wf h

theorem runCopy_wf (i : Instr) : ∀ f ∈ runCopy i, MemStep f := by
  intro f hf
  unfold runCopy at hf
  split at hf <;> cases hf
  · exact fun s h => execCpy_wf h
  · exact fun s h => execCpyt_wf h
  · exact fun s h => execCpyg_wf h
  · exact fun s h => execCpys_wf h

@[simp] theorem execWaitvRelease_wf {s : State} (hm : s.mem.wf) {team wave sub} :
    Res.MemWf (execWaitvRelease team wave sub s) :=
  goOn_wf hm runWaitv_wf

@[simp] theorem execWaitvTimeout_wf {s : State} (hm : s.mem.wf) {team wave sub} :
    Res.MemWf (execWaitvTimeout team wave sub s) := by
  unfold execWaitvTimeout
  split
  · exact goOn_wf hm runWaitv_wf
  · exact hm

@[simp] theorem execCntwaitRelease_wf {s : State} (hm : s.mem.wf) {team wave sub} :
    Res.MemWf (execCntwaitRelease team wave sub s) :=
  goOn_wf hm runCntwait_wf

@[simp] theorem execCntwaitTimeout_wf {s : State} (hm : s.mem.wf) {team wave sub} :
    Res.MemWf (execCntwaitTimeout team wave sub s) := by
  unfold execCntwaitTimeout
  split
  · exact goOn_wf hm runCntwait_wf
  · exact hm

@[simp] theorem execCopyValidated_wf {s : State} (hm : s.mem.wf) {team wave sub} :
    Res.MemWf (execCopyValidated team wave sub s) := by
  unfold execCopyValidated
  have h := goOn_wf (kind := .copyCheck) (t := team) (w := wave) (k := sub) hm runCopy_wf
  split
  · rename_i heq
    rw [heq] at h
    exact goOn_wf h runCopy_wf
  · exact h

@[simp] theorem execPhdoneAdvance_wf {s : State} (hm : s.mem.wf) {die} : Res.MemWf (execPhdoneAdvance die s) := by
  simp [execPhdoneAdvance, hm]

@[simp] theorem State.phRelease_wf {s : State} (hm : s.mem.wf) {die} : (s.phRelease die).mem.wf = true := by
  refine foldl_wf (fun s q h => ?_) _ hm
  have hg := goOn_wf (kind := .phwait) (t := q.1) (w := q.2.1) (k := q.2.2) h runPhwait_wf
  split <;> rename_i heq
  · rw [heq] at hg
    exact hg
  · exact h

@[simp] theorem execPhdoneMirrorUpdate_wf {s : State} (hm : s.mem.wf) {viewer die} :
    Res.MemWf (execPhdoneMirrorUpdate viewer die s) := by
  simp [execPhdoneMirrorUpdate, hm]

@[simp] theorem execDebugHaltStop_wf {s : State} (hm : s.mem.wf) {team wave} : Res.MemWf (execDebugHaltStop team wave s) := by
  unfold execDebugHaltStop
  split <;> simp [hm]

@[simp] theorem execStep_wf {s : State} (hm : s.mem.wf) {team wave sub} : Res.MemWf (execStep team wave sub s) := by
  unfold execStep
  repeat' split
  all_goals simp [hm]

@[simp] theorem State.stopTeam_mem (s : State) (t) : (State.stopTeam s t).mem = s.mem := by rfl

@[simp] theorem State.charge_mem (s : State) (cycles) : (State.charge s cycles).mem = s.mem := by
  unfold State.charge
  refine foldl_mem (fun s c => ?_) _ _
  dsimp only
  split
  · rfl
  · exact (State.modCore_mem _ _ _).trans (foldl_mem (fun s x => State.modCtx_mem _ _ _) _ _)

@[simp] theorem State.sliceExpiry_mem (s : State) (dev) : (State.sliceExpiry s dev).mem = s.mem := by
  unfold State.sliceExpiry
  dsimp only
  repeat' split
  all_goals simp

@[simp] theorem execAccountingRound_wf {s : State} (hm : s.mem.wf) {dev} : Res.MemWf (execAccountingRound dev s) := by
  unfold execAccountingRound
  dsimp only
  split
  · exact hm
  · rw [Res.memWf_next, State.sliceExpiry_mem, State.modDev_mem, foldl_mem fun s c => State.modCtx_mem s _ _]
    exact hm

@[simp] theorem execRelayRotation_wf {s : State} (hm : s.mem.wf) {grid} : Res.MemWf (execRelayRotation grid s) := by
  unfold execRelayRotation
  split
  · exact hm
  · split
    · exact hm
    · refine foldl_wf (fun s c h => ?_) _ hm
      split <;> simpa using h

end Sys2Proof.Machine
end

