-- ==== Sys2Proof/Proofs/MemoryCalls.lean ====
section
/-!
SUPPORT. Pre-emption, service calls, contexts, faults and debugging: what leaves memory as it is (`_mem`), and what keeps its
canonical form (`_wf`).
-/
namespace Sys2Proof.Machine
open Sys2Proof

@[simp] theorem State.saveSpans_mem (s : State) (ctx) : (State.saveSpans s ctx).mem = s.mem := by simp [State.saveSpans]

@[simp] theorem State.suspendQueues_wf {s : State} (hm : s.mem.wf) {ctx warm} :
    (State.suspendQueues s ctx warm).mem.wf = true :=
  foldl_wf (fun s _ h => by simp [h]) _ hm

@[simp] theorem State.holdXfers_mem (s : State) (ctx on) : (State.holdXfers s ctx on).mem = s.mem := by
  simp [State.holdXfers]

@[simp] theorem State.preempt_wf {s : State} (hm : s.mem.wf) {ctx drain swap warm} :
    (State.preempt s ctx drain swap warm).mem.wf = true := by
  simp [State.preempt, hm]

@[simp] theorem State.preemptRecord_mem (s : State) (ctx) : (State.preemptRecord s ctx).mem = s.mem := by
  simp [State.preemptRecord]

@[simp] theorem State.preemptDone_mem (s : State) (ctx) : (State.preemptDone s ctx).mem = s.mem := by
  simp [State.preemptDone]

@[simp] theorem execPreemptDrainEnd_wf {s : State} (hm : s.mem.wf) {ctx} : Res.MemWf (execPreemptDrainEnd ctx s) := by
  unfold execPreemptDrainEnd
  split <;> simp [hm]

@[simp] theorem execPreemptDrainDeadline_wf {s : State} (hm : s.mem.wf) {ctx} : Res.MemWf (execPreemptDrainDeadline ctx s) := by
  unfold execPreemptDrainDeadline
  split <;> simp [hm]

@[simp] theorem State.killXfers_mem (s : State) (ctx) : (State.killXfers s ctx).mem = s.mem := by rfl

@[simp] theorem State.failGrids_mem (s : State) (ctx status) : (State.failGrids s ctx status).mem = s.mem := by
  simp [State.failGrids]

@[simp] theorem State.resetCtx_mem (s : State) (ctx status) : (State.resetCtx s ctx status).mem = s.mem := by
  simp [State.resetCtx]

@[simp] theorem execPreemptSwapDeadline_wf {s : State} (hm : s.mem.wf) {ctx} : Res.MemWf (execPreemptSwapDeadline ctx s) := by
  unfold execPreemptSwapDeadline
  split <;> simp [hm]

@[simp] theorem State.resumeCtx_wf {s : State} (hm : s.mem.wf) {ctx} : (State.resumeCtx s ctx).mem.wf = true :=
  foldl_wf (fun s _ h => by simp [h]) _ hm

theorem State.hostGet_wf {s t : State} (hm : s.mem.wf) {port addr b} (h : s.hostGet port addr = .ok (t, b)) :
    t.mem.wf = true := by
  unfold State.hostGet at h
  split at h
  · dsimp only at h
    split at h
    · cases h
    · cases h
      split <;> simp [hm]
  · dsimp only at h
    split at h
    · cases h
      exact hm
    · cases h
      exact Memory.put_wf _ _ _ hm

@[simp] theorem State.hostPut_wf {s : State} (hm : s.mem.wf) {port addr b} : (State.hostPut s port addr b).mem.wf = true := by
  unfold State.hostPut
  split
  · refine Memory.put_wf _ _ _ ?_
    split <;> simp [hm]
  · exact Memory.put_wf _ _ _ (foldl_wf (fun s l h => by simp [h]) _ hm)

theorem State.callerGet_wf {s t : State} (hm : s.mem.wf) {who addr b} (h : s.callerGet who addr = .ok (t, b)) :
    t.mem.wf = true := by
  unfold State.callerGet at h
  split at h
  · exact State.hostGet_wf hm h
  · split at h
    · cases h
    · rename_i hr
      cases h
      exact State.unitRead_wf hm _ _ hr

theorem State.callerRead_wf {s t : State} (hm : s.mem.wf) {who addr n bs} (h : State.callerRead who addr n s = .ok (t, bs)) :
    t.mem.wf = true := by
  induction n generalizing s addr t bs with
  | zero =>
    cases h
    exact hm
  | succ n ih =>
    unfold State.callerRead at h
    split at h
    · cases h
    · rename_i hb
      split at h
      · cases h
      · rename_i hl
        cases h
        exact ih (State.callerGet_wf hm hb) hl

@[simp] theorem State.callerWrite_wf {s : State} (hm : s.mem.wf) {who addr bs} :
    (State.callerWrite s who addr bs).mem.wf = true := by
  refine List.foldlRecOn (motive := fun r : State × Nat => r.1.mem.wf = true) bs _ hm fun r h b _ => ?_
  dsimp only
  split <;> simp [h]

@[simp] theorem State.modFunc_mem (s : State) (port k f) : (State.modFunc s port k f).mem = s.mem := by rfl

@[simp] theorem State.submit_wf {s : State} (hm : s.mem.wf) {dev port vf addr} :
    (State.submit s dev port vf addr).mem.wf = true := by
  unfold State.submit
  dsimp only
  split
  · exact hm
  · split
    · simpa using hm
    · split <;> rename_i heq
      · simpa using hm
      · simpa using State.callerRead_wf hm heq

@[simp] theorem execSvcdbWrite_wf {s : State} (hm : s.mem.wf) {dev port vf addr} :
    Res.MemWf (execSvcdbWrite dev port vf addr s) := by
  simp [execSvcdbWrite, hm]

@[simp] theorem execDroppedClear_wf {s : State} (hm : s.mem.wf) {dev port vf} : Res.MemWf (execDroppedClear dev port vf s) := by
  simp [execDroppedClear, hm]

@[simp] theorem State.callCounter_wf {s : State} (hm : s.mem.wf) {c} : (s.callCounter c).mem.wf = true := by
  unfold State.callCounter
  split
  · exact hm
  · split
    · simp [hm]
    · split <;> rename_i heq
      · exact hm
      · exact State.callerWrite_wf (State.callerRead_wf hm heq)

@[simp] theorem State.answer_wf {s : State} (hm : s.mem.wf) {c status res} : (State.answer s c status res).mem.wf = true := by
  unfold State.answer
  extract_lets s1 s2 s3
  have h3 : s3.mem.wf = true := State.callCounter_wf (State.callerWrite_wf (State.callerWrite_wf hm))
  split
  · rw [State.modFunc_mem]
    split
    · exact h3
    · split
      · simpa using h3
      · exact h3
  · exact State.sweep_wf (by simpa using h3)

@[simp] theorem State.dropCall_mem (s : State) (k) : (State.dropCall s k).mem = s.mem := by rfl

/-- A service call keeps the canonical form of memory when its meaning does. -/
theorem serve_wf {code argc : Nat} {c : Call} {body : Bool → State → Reply} {s : State} (hm : s.mem.wf)
    (hb : ∀ (again : Bool) (s : State), s.mem.wf → (body again s).MemWf) : Res.MemWf (serve code argc c body s) := by
  unfold serve
  extract_lets k again fail
  have hf : ∀ st, (fail st).MemWf := by
    intro st
    simp only [fail, Res.memWf_next]
    split <;> simp [hm]
  have h := hb again s hm
  split
  · exact hm
  · split
    · exact hf _
    · split
      · exact hf _
      · split
        · exact hf _
        · split
          · exact hf _
          · split <;> rename_i heq <;> rw [heq] at h
            · rw [Res.memWf_next]
              split
              · exact hm
              · exact State.answer_wf (by simpa using h)
            · rw [Res.memWf_next]
              split
              · exact h
              · simpa using h
            · exact hm

@[simp] theorem refusedAccess_wf {s : State} (hm : s.mem.wf) {t} : (refusedAccess s t).MemWf := hm

theorem withBuffer_wf {c : Call} {wr : Bool} {addr n : Nat} {s : State} {k : State → Reply} (hm : s.mem.wf) (hk : (k s).MemWf) :
    (withBuffer c wr addr n s k).MemWf := by
  unfold withBuffer
  split
  · exact refusedAccess_wf hm
  · split
    · trivial
    · exact hk

theorem readBuffer_wf {c : Call} {addr n : Nat} {s : State} {k : State → List Byte → Reply} (hm : s.mem.wf)
    (hk : ∀ (s : State) bs, s.mem.wf → (k s bs).MemWf) : (readBuffer c addr n s k).MemWf := by
  unfold readBuffer
  split
  · trivial
  · split <;> rename_i heq
    · exact refusedAccess_wf hm
    · exact hk _ _ (State.callerRead_wf hm heq)

@[simp] theorem State.rejectFenced_wf {s : State} (hm : s.mem.wf) {dev} : (State.rejectFenced s dev).mem.wf = true := by
  unfold State.rejectFenced
  split <;> simp [hm]

@[simp] theorem ended_wf {s : State} (hm : s.mem.wf) {st} : (ended s st).MemWf := hm

@[simp] theorem State.forceRange_wf {s : State} (hm : s.mem.wf) {dev asid lo len} :
    (State.forceRange s dev asid lo len).mem.wf = true :=
  foldl_wf (fun s _ h => by simp [h]) _ hm

theorem State.readTables_wf {s t : State} (hm : s.mem.wf) {who l r} (h : State.readTables who l s = .ok (t, r)) :
    t.mem.wf = true := by
  induction l generalizing s t r with
  | nil =>
    cases h
    exact hm
  | cons a l ih =>
    unfold State.readTables at h
    split at h
    · cases h
    · rename_i hb
      split at h
      · cases h
      · rename_i hl
        cases h
        exact ih (State.callerRead_wf hm hb) hl

@[simp] theorem execPartSet_wf {s : State} (hm : s.mem.wf) {c} : Res.MemWf (execPartSet c s) := by
  unfold execPartSet
  dsimp only
  refine serve_wf hm fun again s h => ?_
  split
  · split <;> exact h
  · split
    · exact h
    · split
      · trivial
      · split <;> rename_i heq
        · exact h
        · have ht := State.readTables_wf h heq
          split
          · exact ht
          · split
            · refine ended_wf (foldl_wf ?_ _ ?_)
              · exact fun s d h => h
              · exact ht
            · refine foldl_wf (fun s x h => ?_) _ ht
              split <;> simp [h]

@[simp] theorem execPartQuery_wf {s : State} (hm : s.mem.wf) {c} : Res.MemWf (execPartQuery c s) :=
  serve_wf hm fun _ s h => by simp [h]

theorem State.reserveFrames_mem {s t : State} {ctx dev n} (h : State.reserveFrames ctx dev n s = some t) : t.mem = s.mem := by
  induction n generalizing s with
  | zero =>
    cases h
    rfl
  | succ n ih =>
    rw [State.reserveFrames] at h
    split at h
    · cases h
    · rw [ih h]
      rfl

@[simp] theorem execCtxCreate_wf {s : State} (hm : s.mem.wf) {c} : Res.MemWf (execCtxCreate c s) := by
  refine serve_wf hm fun _ s h => ?_
  dsimp only
  split
  · exact h
  · split
    · exact h
    · split <;> rename_i heq
      · exact h
      · simpa [State.reserveFrames_mem heq] using h

@[simp] theorem State.endRetained_wf {s : State} (hm : s.mem.wf) {ctx core} : (State.endRetained s ctx core).mem.wf = true := by
  refine foldl_wf (fun s p h => ?_) _ hm
  refine foldl_wf (fun s q h => State.writebackDone_wf h) _ ?_
  simp [h]

@[simp] theorem State.finishGrids_wf {s : State} (hm : s.mem.wf) {ctx} : (State.finishGrids s ctx).mem.wf = true := by
  refine foldl_wf (fun s x h => ?_) _ hm
  split <;> simp [h]

@[simp] theorem State.dropRecords_mem (s : State) (dev f) : (State.dropRecords s dev f).mem = s.mem := by rfl

@[simp] theorem State.destroyCtx_wf {s : State} (hm : s.mem.wf) {ctx x} : (State.destroyCtx s ctx x).mem.wf = true := by
  unfold State.destroyCtx
  extract_lets s1 s2 s3 s4 s5 s6
  have h1 : s1.mem.wf = true := State.finishGrids_wf (by simpa using hm)
  have h2 : s2.mem.wf = true := foldl_wf (fun s k h => State.endRetained_wf h) _ h1
  have h3 : s3.mem.wf = true := foldl_wf (fun s p h => State.forceRange_wf h) _ h2
  simpa [s6, s5, s4] using h3

@[simp] theorem execCtxDestroy_wf {s : State} (hm : s.mem.wf) {c} : Res.MemWf (execCtxDestroy c s) := by
  refine serve_wf hm fun _ s h => ?_
  split <;> simp [h]

@[simp] theorem execCtxQuery_wf {s : State} (hm : s.mem.wf) {c} : Res.MemWf (execCtxQuery c s) := by
  refine serve_wf hm fun _ s h => ?_
  split <;> simp [h]

@[simp] theorem execCtxSuspend_wf {s : State} (hm : s.mem.wf) {c} : Res.MemWf (execCtxSuspend c s) := by
  refine serve_wf hm fun _ s h => ?_
  repeat' split
  all_goals simp [h]

@[simp] theorem execCtxResume_wf {s : State} (hm : s.mem.wf) {c} : Res.MemWf (execCtxResume c s) := by
  refine serve_wf hm fun _ s h => ?_
  split <;> simp [h]

@[simp] theorem execShareSet_wf {s : State} (hm : s.mem.wf) {c} : Res.MemWf (execShareSet c s) := by
  refine serve_wf hm fun _ s h => ?_
  split <;> simp [h]

@[simp] theorem execQueueCreate_wf {s : State} (hm : s.mem.wf) {c} : Res.MemWf (execQueueCreate c s) := by
  refine serve_wf hm fun _ s h => ?_
  dsimp only
  repeat' split
  all_goals simp [h]

@[simp] theorem execQueueDestroy_wf {s : State} (hm : s.mem.wf) {c} : Res.MemWf (execQueueDestroy c s) := by
  refine serve_wf hm fun _ s h => ?_
  split <;> simp [h]

@[simp] theorem execQueueBindPriority_wf {s : State} (hm : s.mem.wf) {c} : Res.MemWf (execQueueBindPriority c s) := by
  refine serve_wf hm fun _ s h => ?_
  repeat' split
  all_goals simp [h]

@[simp] theorem execLaunchGrid_wf {s : State} (hm : s.mem.wf) {c} : Res.MemWf (execLaunchGrid c s) := by
  refine serve_wf hm fun _ s h => ?_
  dsimp only
  split
  · exact h
  · split
    · trivial
    · split <;> rename_i heq
      · exact h
      · rename_i t ws
        have h1 := State.unitWords_wf h _ _ heq
        have h2 : (t.checkLaunch c.ctx (c.arg 0) ws false).1.mem.wf = true := State.checkLaunch_wf h1
        split <;> rename_i heq <;> rw [heq] at h2
        · exact h2
        · split
          · exact h2
          · exact ended_wf (by simpa using State.createGrid_wf h2)

@[simp] theorem State.passRefused_wf {s : State} (hm : s.mem.wf) {k q} : (State.passRefused s k q).mem.wf = true := by
  unfold State.passRefused
  split <;> simp [hm]

@[simp] theorem execLaunchCancel_wf {s : State} (hm : s.mem.wf) {c} : Res.MemWf (execLaunchCancel c s) := by
  refine serve_wf hm fun _ s h => ?_
  repeat' split
  all_goals simp [h]

@[simp] theorem execFaultFetch_wf {s : State} (hm : s.mem.wf) {c} : Res.MemWf (execFaultFetch c s) :=
  serve_wf hm fun _ _ h => withBuffer_wf h (State.callerWrite_wf h)

@[simp] theorem State.recordHeld_mem (s : State) (dev n) : (State.recordHeld dev n s).mem = s.mem := by
  induction n generalizing s with
  | zero => rfl
  | succ n ih =>
    unfold State.recordHeld
    split
    · rfl
    · split
      · rw [ih, State.addRecord_mem, State.modDev_mem]
      · rfl

@[simp] theorem State.recordSpans_mem (s : State) : (State.recordSpans s).mem = s.mem := by
  unfold State.recordSpans
  refine (foldl_mem (fun s p => ?_) _ _).trans (foldl_mem (fun s d => State.recordHeld_mem _ _ _) _ _)
  split
  · split
    · simp
    · rfl
  · rfl

@[simp] theorem State.freeRecord_mem (s : State) (dev id) : (State.freeRecord s dev id).mem = s.mem := by rfl

@[simp] theorem State.resolveSub_wf {s : State} (hm : s.mem.wf) {t w k action sub p} :
    (State.resolveSub s t w k action sub p).mem.wf = true := by
  simp [State.resolveSub, hm]

@[simp] theorem State.killSpan_mem (s : State) (i sp) : (State.killSpan s i sp).mem = s.mem := by simp [State.killSpan]

@[simp] theorem State.resolveSpan_mem (s : State) (i action sp core slot) :
    (State.resolveSpan s i action sp core slot).mem = s.mem := by
  simp [State.resolveSpan]

theorem State.resolveTeam_wf {s : State} {on : State → State} (hm : s.mem.wf) (ho : (on s).mem.wf) {t action} :
    (s.resolveTeam t action on).mem.wf = true := by
  unfold State.resolveTeam
  split
  · exact State.sweep_wf (by simpa using hm)
  · exact ho

theorem State.resolve?_wf {s t : State} (hm : s.mem.wf) {id action r} (h : s.resolve? id action r = some t) :
    t.mem.wf = true := by
  unfold State.resolve? at h
  split at h
  · obtain ⟨q, -, rfl⟩ := Option.map_eq_some_iff.1 h
    exact State.resolveSub_wf hm
  · obtain ⟨q, -, rfl⟩ := Option.map_eq_some_iff.1 h
    exact State.resolveSub_wf hm
  · split at h
    · cases h
    · split at h
      · split at h
        · cases h
          simpa using hm
        · cases h
      · cases h
  · split at h <;> cases h
    exact State.resolveTeam_wf hm (by simpa using hm)
  · split at h <;> cases h
    exact State.resolveTeam_wf hm (by simpa using hm)
  · split at h <;> cases h
    exact State.resolveTeam_wf hm (by simpa using hm)
  · split at h <;> cases h
    split
    · exact hm
    · simpa using hm
  · split at h
    · cases h
      exact hm
    · split at h <;> cases h
      exact hm

@[simp] theorem execFaultResolve_wf {s : State} (hm : s.mem.wf) {c} : Res.MemWf (execFaultResolve c s) := by
  refine serve_wf hm fun _ s h => ?_
  split
  · exact h
  · split
    · exact h
    · split
      · exact h
      · dsimp only
        split <;> rename_i heq
        · exact ended_wf (by simpa using State.resolve?_wf (by simpa using h) heq)
        · exact ended_wf (by simpa using h)

@[simp] theorem execFaultAbort_wf {s : State} (hm : s.mem.wf) {c} : Res.MemWf (execFaultAbort c s) := by
  refine serve_wf hm fun _ s h => ?_
  repeat' split
  all_goals simp [h]

@[simp] theorem execDbgAttach_wf {s : State} (hm : s.mem.wf) {c} : Res.MemWf (execDbgAttach c s) := by
  refine serve_wf hm fun _ s h => ?_
  dsimp only
  repeat' split
  all_goals simp [h]

@[simp] theorem State.resumeWaves_mem (s : State) (dev) : (State.resumeWaves s dev).mem = s.mem := by rfl

@[simp] theorem execDbgDetach_wf {s : State} (hm : s.mem.wf) {c} : Res.MemWf (execDbgDetach c s) := by
  refine serve_wf hm fun _ s h => ?_
  split <;> simp [h]

@[simp] theorem State.peelNow_mem (s : State) (i n) : (State.peelNow i n s).mem = s.mem := by
  induction n generalizing s with
  | zero => rfl
  | succ n ih =>
    unfold State.peelNow
    split
    · rfl
    · rw [ih, State.peelSpan_mem]

/-- A search for a team that leaves memory as it is. -/
def Found.SameMem (s : State) (f : Found) : Prop :=
  match f with
  | .team t _ | .wait t => t.mem = s.mem
  | .missing => True

theorem State.takeEarly_mem (s : State) (cid c g team pos) : (s.takeEarly cid c g team pos).SameMem s := by
  unfold State.takeEarly
  split
  · rfl
  · split
    · exact State.admitNew_mem _ _ _ _ _ _ _ _
    · rfl
    · rfl

theorem State.findTeam_mem (s : State) (gk g team) : (s.findTeam gk g team).SameMem s := by
  unfold State.findTeam
  split
  · rfl
  · dsimp only
    split
    · exact State.takeEarly_mem _ _ _ _ _ _
    · split
      · trivial
      · rename_i i sp _
        have hp := State.peelNow_mem s i (sp.flights.length + 2)
        split
        · rename_i k q _
          have h := State.takeEarly_mem (State.peelNow i (sp.flights.length + 2) s) k q g team
            (q.span.box.posOf (team % g.across 0) (team / g.across 0 % g.across 1) (team / (g.across 0 * g.across 1)))
          revert h
          unfold Found.SameMem
          split <;> intro h
          · exact h.trans hp
          · exact h.trans hp
          · trivial
        · exact hp

@[simp] theorem State.askHalt_mem (s : State) (t f) : (State.askHalt s t f).mem = s.mem := by rfl

@[simp] theorem execDbgHalt_wf {s : State} (hm : s.mem.wf) {c} : Res.MemWf (execDbgHalt c s) := by
  refine serve_wf hm fun _ s h => ?_
  dsimp only
  split
  · exact h
  · split
    · exact h
    · split
      · exact ended_wf (foldl_wf (fun s p h => by simpa using h) _ h)
      · split
        · exact h
        · rename_i gk g _
          split
          · exact ended_wf (foldl_wf (fun s p h => by simpa using h) _ h)
          · split
            · exact h
            · have hf := s.findTeam_mem gk g (c.arg 3)
              split <;> rename_i heq <;> rw [heq] at hf
              · exact h
              · exact (congrArg Memory.wf hf).trans h
              · exact ended_wf (by simpa using (congrArg Memory.wf hf).trans h)

@[simp] theorem execDbgStep_wf {s : State} (hm : s.mem.wf) {c} : Res.MemWf (execDbgStep c s) := by
  refine serve_wf hm fun _ s h => ?_
  extract_lets kind w lane
  split
  · exact h
  · split
    · exact h
    · split
      · exact h
      · rename_i gk g _
        split
        · exact h
        · have hf := s.findTeam_mem gk g (c.arg 3)
          split <;> rename_i heq <;> rw [heq] at hf
          · exact h
          · exact (congrArg Memory.wf hf).trans h
          · have ht := (congrArg Memory.wf hf).trans h
            repeat' split
            all_goals simp [ht]

theorem State.debugWrite_mem {s s' : State} {sel r t tm wv bs} (h : s.debugWrite sel r t tm wv bs = some s') :
    s'.mem = s.mem := by
  unfold State.debugWrite at h
  dsimp only at h
  split at h
  · obtain ⟨w, -, rfl⟩ := Option.map_eq_some_iff.1 h
    rfl
  · split at h
    · cases h
    · split at h
      · cases h
        rfl
      · split at h
        · cases h
          rfl
        · split at h
          · cases h
            rfl
          · split at h
            · cases h
              exact State.csrWrite_mem _ _ _ _ _
            · split at h
              · obtain ⟨l, -, rfl⟩ := Option.map_eq_some_iff.1 h
                rfl
              · split at h <;> cases h <;> rfl

@[simp] theorem State.debugRead_wf {s : State} (hm : s.mem.wf) {ctx a n} : (State.debugRead ctx a n s).1.mem.wf = true := by
  induction n generalizing s a with
  | zero => exact hm
  | succ n ih =>
    unfold State.debugRead
    split <;> rename_i heq
    · exact hm
    · exact ih (State.unitRead_wf hm _ _ heq)

@[simp] theorem State.debugPut_wf {s : State} (hm : s.mem.wf) {ctx a l} : (State.debugPut ctx a l s).1.mem.wf = true := by
  induction l generalizing s a with
  | nil => exact hm
  | cons b l ih =>
    unfold State.debugPut
    split <;> rename_i heq
    · exact hm
    · exact ih (State.unitWrite_wf hm heq)

@[simp] theorem debugState_wf {s : State} (hm : s.mem.wf) {c wr} : (debugState c wr s).MemWf := by
  unfold debugState
  dsimp only
  split
  · exact hm
  · split
    · exact hm
    · refine readBuffer_wf hm fun s tb h => ?_
      split
      · exact h
      · refine withBuffer_wf h ?_
        have hd : ∀ t bs, (if wr then State.callerRead c.caller (c.arg 3) (debugSize (c.arg 1) (target1 tb).cls (c.arg 4)) s
            else .ok (s, [])) = .ok (t, bs) → t.mem.wf = true := by
          intro t bs hr
          split at hr
          · exact State.callerRead_wf h hr
          · cases hr
            exact h
        split <;> rename_i heq
        · exact h
        · have ht := hd _ _ heq
          split
          · split
            · trivial
            · split
              · exact State.debugPut_wf ht
              · exact State.callerWrite_wf (State.debugRead_wf ht)
          · split
            · exact State.callerWrite_wf ht
            · split
              · exact ht
              · split
                · exact ht
                · split
                  · exact ht
                  · split
                    · exact ht
                    · split
                      · split <;> rename_i heq
                        · exact ht
                        · exact (congrArg Memory.wf (State.debugWrite_mem heq)).trans ht
                      · exact State.callerWrite_wf ht

@[simp] theorem execDbgReadState_wf {s : State} (hm : s.mem.wf) {c} : Res.MemWf (execDbgReadState c s) :=
  serve_wf hm fun _ s h => by simp [h]

@[simp] theorem execDbgWriteState_wf {s : State} (hm : s.mem.wf) {c} : Res.MemWf (execDbgWriteState c s) := by
  refine serve_wf hm fun _ s h => ?_
  have hd : (debugState c true s).MemWf := debugState_wf h
  split <;> rename_i heq
  · rw [heq] at hd
    exact hd
  · exact hd

end Sys2Proof.Machine
end

