-- ==== Sys2Proof/Proofs/MemoryDies.lean ====
section
/-!
SUPPORT. Dies, links and administration: what leaves memory as it is (`_mem`), and what keeps its
canonical form (`_wf`).
-/
namespace Sys2Proof.Machine
open Sys2Proof

@[simp] theorem State.inDoubt_mem (s : State) (dev w) : (State.inDoubt s dev w).mem = s.mem := by simp [State.inDoubt]

@[simp] theorem State.losePeer_mem (s : State) (dev peer) : (State.losePeer s dev peer).mem = s.mem := by
  simp [State.losePeer]

@[simp] theorem State.checkPeers_mem (s : State) : (State.checkPeers s).mem = s.mem := by simp [State.checkPeers]

@[simp] theorem State.loseImports_mem (s : State) (dev) : (State.loseImports s dev).mem = s.mem :=
  foldl_mem (fun s _ => by simp) _ _

@[simp] theorem State.breakWords_wf {s : State} (hm : s.mem.wf) {d} : (State.breakWords s d).mem.wf = true := by
  refine foldl_wf (fun s place h => ?_) _ hm
  dsimp only
  split
  · exact Memory.putN_wf _ _ _ _ h
  · exact h

theorem runBarmWait_wf (i : Instr) : ∀ f ∈ runBarmWait i, MemStep f := by
  intro f hf
  unfold runBarmWait at hf
  split at hf <;> cases hf
  exact fun s h => execBarmWait_wf h

theorem State.again_wf {s : State} (hm : s.mem.wf) {kind : HoldKind} {run : Instr → Option (State → Res)}
    (hr : ∀ i, ∀ f ∈ run i, MemStep f) {q} : (State.again kind run s q).mem.wf = true := by
  unfold State.again
  have h := goOn_wf (kind := kind) (t := q.1) (w := q.2.1) (k := q.2.2) hm hr
  split
  · rename_i heq
    rw [heq] at h
    exact h
  · exact hm

@[simp] theorem State.loseHolders_mem (s : State) (d e) : (State.loseHolders s d e).mem = s.mem := by
  simp [State.loseHolders]

@[simp] theorem State.loseGrid_wf {s : State} (hm : s.mem.wf) {k} : (State.loseGrid s k).mem.wf = true := by
  unfold State.loseGrid
  split <;> simp [hm]

@[simp] theorem State.loseCompute_wf {s : State} (hm : s.mem.wf) {d} : (State.loseCompute s d).mem.wf = true := by
  unfold State.loseCompute
  extract_lets s1 s2 s3 s4 grids s5 s6 s7 s8
  have h2 : s2.mem = s.mem := by
    refine (foldl_mem (fun s e => ?_) _ _).trans (State.modCdie_mem _ _ _)
    split
    · rfl
    · exact foldl_mem (fun s h => State.ack_mem _ _ _) _ _
  have h3 : s3.mem = s.mem := (foldl_mem (fun s e => State.loseHolders_mem _ _ _) _ _).trans h2
  have h4 : s4.mem.wf = true := foldl_wf (fun s e h => State.closeTxn_wf h) _ (by rw [h3]; exact hm)
  have h5 : s5.mem = s4.mem := by
    refine foldl_mem (fun s i => ?_) _ _
    split <;> rfl
  have h6 : s6.mem.wf = true := State.breakWords_wf (by rw [h5]; exact h4)
  have h7 : s7.mem.wf = true := foldl_wf (fun s k h => State.loseGrid_wf h) _ h6
  have h8 : s8.mem.wf = true := foldl_wf (fun s q h => State.again_wf h runBarmWait_wf) _ h7
  exact foldl_wf (fun s q h => State.again_wf h runPhwait_wf) _ h8

@[simp] theorem State.takeOver_mem (s : State) : (State.takeOver s).mem = s.mem := by rfl

@[simp] theorem State.loseFoundation_wf {s : State} (hm : s.mem.wf) {f} : (State.loseFoundation s f).mem.wf = true := by
  unfold State.loseFoundation
  extract_lets s1 s2 dev s3 s4 s5
  have h2 : s2.mem.wf = true := by
    refine foldl_wf (fun s i h => ?_) _ (by simpa [s1] using hm)
    split
    · exact State.loseCompute_wf h
    · exact h
  have h3 : s3.mem = s2.mem := foldl_mem (fun s x => State.resetCtx_mem _ _ _) _ _
  have h4 : s4.mem.wf = true := Memory.filter_wf _ _ (by rw [h3]; exact h2)
  have h5 : s5.mem.wf = true := by
    simp only [s5]
    split <;> simpa using h4
  simpa using h5

@[simp] theorem State.declareDead_wf {s : State} (hm : s.mem.wf) {die why} : (State.declareDead s die why).mem.wf = true := by
  unfold State.declareDead
  split <;> simp [hm]

@[simp] theorem execHeartbeat_wf {s : State} (hm : s.mem.wf) {die} : Res.MemWf (execHeartbeat die s) := by
  unfold execHeartbeat
  split <;> simp [hm]

@[simp] theorem execHeartbeatTimeout_wf {s : State} (hm : s.mem.wf) {die} : Res.MemWf (execHeartbeatTimeout die s) := by
  simp [execHeartbeatTimeout, hm]

@[simp] theorem State.linkTo_mem (s : State) (l st) : (State.linkTo s l st).mem = s.mem := by simp [State.linkTo]

@[simp] theorem State.checkIsolated_wf {s : State} (hm : s.mem.wf) : (State.checkIsolated s).mem.wf = true :=
  foldl_wf (fun s _ h => by simp [h]) _ hm

@[simp] theorem State.failLink_wf {s : State} (hm : s.mem.wf) {l} : (State.failLink s l).mem.wf = true := by
  unfold State.failLink
  dsimp only
  repeat' split
  all_goals simp [hm]

@[simp] theorem execLinkIdleSleep_wf {s : State} (hm : s.mem.wf) {link} : Res.MemWf (execLinkIdleSleep link s) := by
  simp [execLinkIdleSleep, hm]

@[simp] theorem execLinkWake_wf {s : State} (hm : s.mem.wf) {link} : Res.MemWf (execLinkWake link s) := by
  simp [execLinkWake, hm]

@[simp] theorem execLinkWakeComplete_wf {s : State} (hm : s.mem.wf) {link} : Res.MemWf (execLinkWakeComplete link s) := by
  simp [execLinkWakeComplete, hm]

@[simp] theorem execLinkSlow_wf {s : State} (hm : s.mem.wf) {link} : Res.MemWf (execLinkSlow link s) := by
  simp [execLinkSlow, hm]

@[simp] theorem execLinkWakeFail_wf {s : State} (hm : s.mem.wf) {link} : Res.MemWf (execLinkWakeFail link s) := by
  simp [execLinkWakeFail, hm]

@[simp] theorem execLinkRetryFail_wf {s : State} (hm : s.mem.wf) {link} : Res.MemWf (execLinkRetryFail link s) := by
  simp [execLinkRetryFail, hm]

@[simp] theorem execFlitReceive_wf {s : State} (hm : s.mem.wf) {link seq} : Res.MemWf (execFlitReceive link seq s) := by
  simp [execFlitReceive, hm]

@[simp] theorem execFlitRetry_wf {s : State} (hm : s.mem.wf) {link} : Res.MemWf (execFlitRetry link s) := by
  simp [execFlitRetry, hm]

@[simp] theorem State.peerAnswer_mem (s : State) (dev peer bs) : (State.peerAnswer s dev peer bs).mem = s.mem := by rfl

theorem State.peerAccess_wf {s : State} (hm : s.mem.wf) {f : State → List Nat → State}
    (hf : ∀ (s : State) l, s.mem.wf → (f s l).mem.wf)
    {dev peer va n wr op} : (s.peerAccess dev peer va n wr op f).mem.wf = true := by
  unfold State.peerAccess
  split
  · exact hm
  · dsimp only
    split
    · simpa using hm
    · exact hf _ _ (foldl_wf (fun s x h => State.force_wf h) _ hm)

@[simp] theorem State.peerRequest_wf {s : State} (hm : s.mem.wf) {dev peer op} :
    (State.peerRequest s dev peer op).mem.wf = true := by
  unfold State.peerRequest
  split
  · exact State.peerAccess_wf hm fun s l h => by simpa using h
  · exact State.peerAccess_wf hm fun s l h => foldl_put_wf h _
  · dsimp only
    split
    · exact hm
    · refine State.peerAccess_wf hm fun s l h => ?_
      rw [State.peerAnswer_mem]
      exact foldl_put_wf h _
  · split
    · split
      · exact State.doorbell_wf hm
      · exact hm
    · exact hm

@[simp] theorem execPeerRequest_wf {s : State} (hm : s.mem.wf) {dev peer op} : Res.MemWf (execPeerRequest dev peer op s) := by
  simp [execPeerRequest, hm]

@[simp] theorem State.peerResume_wf {s : State} (hm : s.mem.wf) {dev} : (State.peerResume s dev).mem.wf = true :=
  foldl_wf (fun s _ h => by simp [h]) _ hm

@[simp] theorem execPeerTimeout_wf {s : State} (hm : s.mem.wf) {dev peer} : Res.MemWf (execPeerTimeout dev peer s) := by
  simp [execPeerTimeout, hm]

@[simp] theorem State.deliverHeld_mem (s : State) (dev port) : (State.deliverHeld s dev port).mem = s.mem := by rfl

@[simp] theorem State.holderChange_mem (s : State) (dev port) : (State.holderChange s dev port).mem = s.mem := by rfl

@[simp] theorem State.openBaton_mem (s : State) (dev now) : (State.openBaton s dev now).mem = s.mem := by rfl

@[simp] theorem execHostLinkDown_wf {s : State} (hm : s.mem.wf) {port} : Res.MemWf (execHostLinkDown port s) := by
  unfold execHostLinkDown
  split
  · exact hm
  · refine foldl_wf (fun s d h => ?_) _ (foldl_wf (fun s e h => State.closeTxn_wf (by simpa using h)) _ hm)
    split <;> simpa using h

@[simp] theorem execHostLinkUp_wf {s : State} (hm : s.mem.wf) {port} : Res.MemWf (execHostLinkUp port s) := by
  simp [execHostLinkUp, hm]

@[simp] theorem execLeasePeriodExpiry_wf {s : State} (hm : s.mem.wf) {dev} : Res.MemWf (execLeasePeriodExpiry dev s) := by
  unfold execLeasePeriodExpiry
  dsimp only
  repeat' split
  all_goals simp [hm]

@[simp] theorem State.revoke_mem (s : State) (dev port on) : (State.revoke s dev port on).mem = s.mem := by rfl

@[simp] theorem State.warmRestart_wf {s : State} (hm : s.mem.wf) {dev port} : (State.warmRestart s dev port).mem.wf = true := by
  unfold State.warmRestart
  rw [State.revoke_mem, State.modDev_mem]
  exact foldl_wf (fun s x h => State.preempt_wf h) _ (foldl_wf (fun s x h => State.suspendQueues_wf h) _ hm)

@[simp] theorem execTakeoverWindowExpiry_wf {s : State} (hm : s.mem.wf) {dev} : Res.MemWf (execTakeoverWindowExpiry dev s) := by
  unfold execTakeoverWindowExpiry
  dsimp only
  repeat' split
  all_goals simp [hm]

@[simp] theorem execCapQuery_wf {s : State} (hm : s.mem.wf) {c} : Res.MemWf (execCapQuery c s) := by
  refine serve_wf hm fun _ s h => ?_
  dsimp only
  repeat' split
  all_goals simp [h]

@[simp] theorem execBankRetire_wf {s : State} (hm : s.mem.wf) {c} : Res.MemWf (execBankRetire c s) := by
  refine serve_wf hm fun _ s h => ?_
  repeat' split
  all_goals simp [h]

@[simp] theorem execErrLogRead_wf {s : State} (hm : s.mem.wf) {c} : Res.MemWf (execErrLogRead c s) :=
  serve_wf hm fun _ _ h => withBuffer_wf h (State.callerWrite_wf h)

@[simp] theorem execErrClear_wf {s : State} (hm : s.mem.wf) {c} : Res.MemWf (execErrClear c s) := by
  refine serve_wf hm fun _ s h => ?_
  dsimp only
  repeat' split
  all_goals simp [h]

@[simp] theorem execDieQuarantine_wf {s : State} (hm : s.mem.wf) {c} : Res.MemWf (execDieQuarantine c s) := by
  refine serve_wf hm fun _ s h => ?_
  dsimp only
  repeat' split
  all_goals simp [h]

@[simp] theorem execLeaseRenew_wf {s : State} (hm : s.mem.wf) {c} : Res.MemWf (execLeaseRenew c s) := by
  refine serve_wf hm fun _ s h => ?_
  split <;> simp [h]

@[simp] theorem execLeaseRelease_wf {s : State} (hm : s.mem.wf) {c} : Res.MemWf (execLeaseRelease c s) :=
  serve_wf hm fun _ s h => by simp [h]

@[simp] theorem State.wakeQueues_wf {s : State} (hm : s.mem.wf) {dev} : (State.wakeQueues s dev).mem.wf = true :=
  foldl_wf (fun s _ h => by simp [h]) _ hm

@[simp] theorem execLeaseTakeover_wf {s : State} (hm : s.mem.wf) {c} : Res.MemWf (execLeaseTakeover c s) := by
  refine serve_wf hm fun _ s h => ?_
  split <;> simp [h]

@[simp] theorem State.settleHeld_wf {s : State} (hm : s.mem.wf) {dev port} : (State.settleHeld s dev port).mem.wf = true := by
  refine foldl_wf (fun s x h => ?_) _ hm
  split <;> simp [h]

@[simp] theorem resumeWarm_wf {s : State} (hm : s.mem.wf) {dev} : (resumeWarm dev s).MemWf := by
  unfold resumeWarm
  dsimp only
  split
  · exact hm
  · refine ended_wf (foldl_wf (fun s x h => ?_) _ hm)
    split
    · exact State.resumeCtx_wf h
    · simpa using h

@[simp] theorem execResync_wf {s : State} (hm : s.mem.wf) {c} : Res.MemWf (execResync c s) := by
  refine serve_wf hm fun again s h => ?_
  -- variables in place of the size and of the state at the end, which unification would otherwise evaluate
  generalize 16384 = n
  dsimp only
  split
  · exact resumeWarm_wf h
  · split
    · exact h
    · refine withBuffer_wf h ?_
      split
      · exact State.callerWrite_wf h
      · split
        · trivial
        · generalize ht : State.settleHeld _ c.dev (hostPort c) = t
          have h1 : t.mem.wf = true := by
            rw [← ht]
            refine State.settleHeld_wf ?_
            rw [State.revoke_mem]
            refine State.callerWrite_wf ?_
            split <;> simp [h]
          exact resumeWarm_wf h1

@[simp] theorem execAttestQuote_wf {s : State} (hm : s.mem.wf) {c} : Res.MemWf (execAttestQuote c s) := by
  refine serve_wf hm fun _ s h => readBuffer_wf h fun s nonce h => ?_
  -- a variable in place of the size, which unification would otherwise count down
  generalize 16864 = n
  exact withBuffer_wf h (State.callerWrite_wf h)

@[simp] theorem State.modFw_mem (s : State) (kind f) : (State.modFw s kind f).mem = s.mem := by rfl

@[simp] theorem execFwStage_wf {s : State} (hm : s.mem.wf) {c} : Res.MemWf (execFwStage c s) := by
  refine serve_wf hm fun again s h => ?_
  split
  · exact h
  · dsimp only
    split
    · exact h
    · refine readBuffer_wf h fun s bs h => ?_
      split
      · exact h
      · split
        · exact h
        · simpa using h

@[simp] theorem execFwStageWriteDone_wf {s : State} (hm : s.mem.wf) {c} : Res.MemWf (execFwStageWriteDone c s) := by
  unfold execFwStageWriteDone
  dsimp only
  repeat' split
  all_goals simp [hm]

@[simp] theorem execFwActivate_wf {s : State} (hm : s.mem.wf) {c} : Res.MemWf (execFwActivate c s) := by
  refine serve_wf hm fun _ s h => ?_
  dsimp only
  repeat' split
  all_goals simp [h]

@[simp] theorem execPolicyImageFault_wf {s : State} (hm : s.mem.wf) : Res.MemWf (execPolicyImageFault s) := by
  unfold execPolicyImageFault
  split <;> simp [hm]

@[simp] theorem execTelemetryRead_wf {s : State} (hm : s.mem.wf) {c} : Res.MemWf (execTelemetryRead c s) := by
  refine serve_wf hm fun _ s h => ?_
  dsimp only
  split
  · exact h
  · exact withBuffer_wf h (by simp [h])

@[simp] theorem execTelemetryWindow_wf {s : State} (hm : s.mem.wf) : Res.MemWf (execTelemetryWindow s) := by
  unfold execTelemetryWindow
  dsimp only
  repeat' split
  all_goals simp [hm]

@[simp] theorem execPowerCapSet_wf {s : State} (hm : s.mem.wf) {c} : Res.MemWf (execPowerCapSet c s) := by
  refine serve_wf hm fun _ s h => ?_
  split <;> simp [h]

end Sys2Proof.Machine
end

