-- ==== Sys2Proof/Proofs/MemoryMaps.lean ====
section
/-!
SUPPORT. Lane operations, maps and power: what leaves memory as it is (`_mem`), and what keeps its
canonical form (`_wf`).
-/
namespace Sys2Proof.Machine
open Sys2Proof

@[simp] theorem cmpAct_wf {s : State} (hm : s.mem.wf) {t rel k u g sp} : (cmpAct t rel k u g s sp).MemWf := by
  unfold cmpAct
  dsimp only
  repeat' split
  all_goals simp [hm]

@[simp] theorem cmpOp_wf {s : State} (hm : s.mem.wf) {i t rel k} : Res.MemWf (cmpOp i t rel k s) := by
  refine issue_wf hm ?_ ?_
  · exact fun _ _ _ _ h => h
  · exact fun _ _ _ _ _ h => cmpAct_wf h

@[simp] theorem execCvt_wf {s : State} (hm : s.mem.wf) {x} : Res.MemWf (execCvt x s) := by
  refine issue_wf hm ?_ ?_
  · exact fun _ _ _ _ h => h
  · exact fun _ _ _ _ _ h => Span.lanewise_wf h

@[simp] theorem execLxch_wf {s : State} (hm : s.mem.wf) {x} : Res.MemWf (execLxch x s) := groupOp_wf hm

@[simp] theorem execLxchI_wf {s : State} (hm : s.mem.wf) {x} : Res.MemWf (execLxchI x s) := groupOp_wf hm

@[simp] theorem execVote_wf {s : State} (hm : s.mem.wf) {x} : Res.MemWf (execVote x s) := groupOp_wf hm

@[simp] theorem execBallot_wf {s : State} (hm : s.mem.wf) {x} : Res.MemWf (execBallot x s) := groupOp_wf hm

@[simp] theorem execRedux_wf {s : State} (hm : s.mem.wf) {x} : Res.MemWf (execRedux x s) := groupOp_wf hm

@[simp] theorem execScan_wf {s : State} (hm : s.mem.wf) {x} : Res.MemWf (execScan x s) := groupOp_wf hm

@[simp] theorem execMatchOp_wf {s : State} (hm : s.mem.wf) {x} : Res.MemWf (execMatchOp x s) := groupOp_wf hm

@[simp] theorem execAmax_wf {s : State} (hm : s.mem.wf) {x} : Res.MemWf (execAmax x s) := by
  refine issue_wf hm ?_ ?_
  · exact fun _ _ _ _ h => h
  · exact fun _ _ _ _ _ h => Span.lanewise_wf h

@[simp] theorem execQblk_wf {s : State} (hm : s.mem.wf) {x} : Res.MemWf (execQblk x s) := by
  refine issueNaming_wf hm ?_ ?_
  · exact fun _ _ _ _ h => h
  · exact fun _ _ _ _ _ _ => trivial

@[simp] theorem execQunpk_wf {s : State} (hm : s.mem.wf) {x} : Res.MemWf (execQunpk x s) := by
  refine issue_wf hm ?_ ?_
  · exact fun _ _ _ _ h => h
  · exact fun _ _ _ _ _ _ => trivial

@[simp] theorem execMovs_wf {s : State} (hm : s.mem.wf) {x} : Res.MemWf (execMovs x s) := by
  refine issue_wf hm ?_ ?_
  · intro u s e p h
    split <;> exact h
  · intro u n g s sp h
    split
    · exact h
    · trivial

@[simp] theorem execShape_wf {s : State} (hm : s.mem.wf) {x} : Res.MemWf (execShape x s) := by
  refine issue_wf hm ?_ ?_
  · exact fun _ _ _ _ h => h
  · intro u n g s sp h
    split
    · exact h
    · trivial

@[simp] theorem execVaReserve_wf {s : State} (hm : s.mem.wf) {c} : Res.MemWf (execVaReserve c s) := by
  refine serve_wf hm fun _ s h => ?_
  dsimp only
  repeat' split
  all_goals simp [h]

@[simp] theorem execVaRelease_wf {s : State} (hm : s.mem.wf) {c} : Res.MemWf (execVaRelease c s) := by
  refine serve_wf hm fun _ s h => ?_
  dsimp only
  repeat' split
  all_goals simp [h]

@[simp] theorem State.purgeLine_wf {s : State} (hm : s.mem.wf) {l} : (State.purgeLine s l).mem.wf = true := by
  unfold State.purgeLine
  extract_lets s1 s2
  have h1 : s1.mem.wf = true := State.closeTxn_wf (State.answerAll_wf hm)
  split
  · exact h1
  · split
    · split
      · exact h1
      · split <;> rename_i heq
        · simpa using h1
        · exact State.closeTxn_wf (State.homeFill_wf h1 _ heq)
    · split
      · exact h1
      · have h2 : s2.mem.wf = true := State.endTxn_wf (State.answerAll_wf (by simpa using h1))
        split
        · simpa using h2
        · exact h2

@[simp] theorem State.purgeRange_wf {s : State} (hm : s.mem.wf) {dev asid va len} :
    (State.purgeRange s dev asid va len).1.mem.wf = true :=
  foldl_wf (fun _ _ h => State.purgeLine_wf h) _ hm

@[simp] theorem State.purged_mem (s : State) (dev asid va len) : (State.purged s dev asid va len).mem = s.mem := by rfl

theorem purging_wf {dev asid va len : Nat} {s : State} (hm : s.mem.wf) {k : State → Reply}
    (hk : ∀ s : State, s.mem.wf → (k s).MemWf) : (purging dev asid va len s k).MemWf := by
  unfold purging
  extract_lets r
  have hr : r.1.mem.wf = true := State.purgeRange_wf hm
  have h := hk _ (show (r.1.purged dev asid va len).mem.wf = true by simpa using hr)
  split
  · split
    · rename_i heq
      rw [heq] at h
      exact State.owedHeads_wf (State.peerResume_wf (State.hostResume_wf h))
    · exact h
  · exact hr

@[simp] theorem execRangePurge_wf {s : State} (hm : s.mem.wf) {c} : Res.MemWf (execRangePurge c s) := by
  unfold execRangePurge
  refine serve_wf hm fun again s h => ?_
  extract_lets asid
  split
  · exact h
  · exact purging_wf h fun _ h => by simpa [ended] using h

@[simp] theorem State.zeroGranules_wf {s : State} (hm : s.mem.wf) {dev dpa n} :
    (State.zeroGranules s dev dpa n).mem.wf = true := by
  induction n with
  | zero => exact hm
  | succ k ih => exact Memory.splice_wf _ _ _ ih

theorem State.allocPages_wf {ctx dev ps perm k va : Nat} {s t : State} (hm : s.mem.wf)
    (h : State.allocPages ctx dev ps perm k va s = some t) : t.mem.wf = true := by
  induction k generalizing va s with
  | zero =>
    cases h
    exact hm
  | succ k ih =>
    rw [State.allocPages] at h
    split at h
    · cases h
    · refine ih ?_ h
      exact State.zeroGranules_wf hm

@[simp] theorem execMemAlloc_wf {s : State} (hm : s.mem.wf) {c} : Res.MemWf (execMemAlloc c s) := by
  unfold execMemAlloc
  refine serve_wf hm fun again s h => ?_
  dsimp only
  split
  · exact h
  · split
    · exact h
    · split
      · exact h
      · split
        · exact h
        · split <;> rename_i heq
          · exact h
          · have ht := State.allocPages_wf (s := s.bump) h heq
            split <;> exact ht

@[simp] theorem State.unmapRange_mem (s : State) (ctx va len) : (State.unmapRange s ctx va len).mem = s.mem := by
  simp [State.unmapRange]

@[simp] theorem execUnmap_wf {s : State} (hm : s.mem.wf) {c} : Res.MemWf (execUnmap c s) := by
  unfold execUnmap
  refine serve_wf hm fun again s h => ?_
  split
  · exact h
  · exact purging_wf h fun _ h => by simp [ended, h]

@[simp] theorem execMemFree_wf {s : State} (hm : s.mem.wf) {c} : Res.MemWf (execMemFree c s) := by
  unfold execMemFree
  refine serve_wf hm fun again s h => ?_
  dsimp only
  split
  · exact h
  · exact purging_wf h fun _ h => by simp [ended, h]

@[simp] theorem execMap_wf {s : State} (hm : s.mem.wf) {c} : Res.MemWf (execMap c s) := by
  refine serve_wf hm fun _ s h => ?_
  dsimp only
  repeat' split
  all_goals simp [h]

@[simp] theorem execProtect_wf {s : State} (hm : s.mem.wf) {c} : Res.MemWf (execProtect c s) := by
  unfold execProtect
  refine serve_wf hm fun again s h => ?_
  dsimp only
  split
  · exact h
  · split
    · exact h
    · split
      · exact h
      · exact purging_wf h fun _ h => h

@[simp] theorem execAliasRegister_wf {s : State} (hm : s.mem.wf) {c} : Res.MemWf (execAliasRegister c s) := by
  refine serve_wf hm fun _ s h => ?_
  dsimp only
  repeat' split
  all_goals simp [h]

@[simp] theorem execHostMap_wf {s : State} (hm : s.mem.wf) {c} : Res.MemWf (execHostMap c s) := by
  refine serve_wf hm fun _ s h => ?_
  dsimp only
  repeat' split
  all_goals simp [h]

@[simp] theorem execPeerMap_wf {s : State} (hm : s.mem.wf) {c} : Res.MemWf (execPeerMap c s) := by
  refine serve_wf hm fun _ s h => ?_
  dsimp only
  repeat' split
  all_goals simp [h]

@[simp] theorem execPeerUnmap_wf {s : State} (hm : s.mem.wf) {c} : Res.MemWf (execPeerUnmap c s) := by
  refine serve_wf hm fun _ s h => ?_
  dsimp only
  repeat' split
  all_goals simp [h]

@[simp] theorem State.packageReset_mem (s : State) (found) : (State.packageReset s found).mem = s.mem := by rfl

@[simp] theorem State.readEarly_wf {s : State} (hm : s.mem.wf) : s.readEarly.mem.wf = true := by
  unfold State.readEarly
  split
  · exact hm
  · exact foldl_wf (fun s w h => State.submit_wf h) _ hm

@[simp] theorem execPackageReset_wf {s : State} (hm : s.mem.wf) {found} : Res.MemWf (execPackageReset found s) := by
  simp [execPackageReset, hm]

@[simp] theorem State.logModule_mem (s : State) (detail) : (State.logModule s detail).mem = s.mem := by
  simp [State.logModule]

@[simp] theorem State.hold_mem (s : State) (why detail) : (State.hold s why detail).mem = s.mem := by simp [State.hold]

@[simp] theorem execThermalThrottle_wf {s : State} (hm : s.mem.wf) {die} : Res.MemWf (execThermalThrottle die s) := by
  simp [execThermalThrottle, hm]

@[simp] theorem execThermalRecover_wf {s : State} (hm : s.mem.wf) {die} : Res.MemWf (execThermalRecover die s) := by
  simp [execThermalRecover, hm]

@[simp] theorem execThermalShutdown_wf {s : State} (hm : s.mem.wf) {_die} : Res.MemWf (execThermalShutdown _die s) := by
  simp [execThermalShutdown, hm]

@[simp] theorem execThermalRestart_wf {s : State} (hm : s.mem.wf) {found} : Res.MemWf (execThermalRestart found s) := by
  simp [execThermalRestart, hm]

@[simp] theorem execInputLow_wf {s : State} (hm : s.mem.wf) : Res.MemWf (execInputLow s) := by simp [execInputLow, hm]

@[simp] theorem execUndervoltage_wf {s : State} (hm : s.mem.wf) : Res.MemWf (execUndervoltage s) := by
  simp [execUndervoltage, hm]

@[simp] theorem execInputHigh_wf {s : State} (hm : s.mem.wf) : Res.MemWf (execInputHigh s) := by simp [execInputHigh, hm]

@[simp] theorem execOvervoltage_wf {s : State} (hm : s.mem.wf) : Res.MemWf (execOvervoltage s) := by
  simp [execOvervoltage, hm]

@[simp] theorem execInputRecover_wf {s : State} (hm : s.mem.wf) {found} : Res.MemWf (execInputRecover found s) := by
  simp [execInputRecover, hm]

@[simp] theorem State.allDies_mem (s : State) (f) : (State.allDies s f).mem = s.mem :=
  foldl_mem (fun s d => State.modCdie_mem s d f) _ _

@[simp] theorem State.gateStep_mem (s : State) (f) : (State.gateStep s f).mem = s.mem := by simp [State.gateStep]

@[simp] theorem execPowerCapStep_wf {s : State} (hm : s.mem.wf) {watts} : Res.MemWf (execPowerCapStep watts s) := by
  simp [execPowerCapStep, hm]

@[simp] theorem execCapNotMet_wf {s : State} (hm : s.mem.wf) {watts} : Res.MemWf (execCapNotMet watts s) := by
  simp [execCapNotMet, hm]

end Sys2Proof.Machine
end

