-- ==== Sys2Proof/Proofs/MemoryStep.lean ====
section
/-!
SUPPORT. The instructions by their dispatch, the events that the package makes of itself, time, and the step.
-/
namespace Sys2Proof.Machine
open Sys2Proof

/-- Every row of the opcode table keeps the canonical form of memory. -/
theorem exec_wf {s : State} (hm : s.mem.wf) (i : Instr) : Res.MemWf (exec i s) := by
  cases i
  case iadd | iaddI | iaddL | isub | isubI | isubL | iaddc | ineg | iabs | imul | imulI | imulL | imulh | imulhI
      | imulhL | imad | imadw | idiv | idivI | idivL | irem | iremI | iremL | imin | iminI | iminL | imax | imaxI
      | imaxL | iclamp | and | andI | andL | or | orI | orL | xor | xorI | xorL | not | logt | shl | shlI | shlL | shr
      | shrI | shrL | sar | sarI | sarL | rol | rolI | rolL | fshl | popc | clz | ctz | brev | bfx | bfxI | bfxL | bfi
      | bysel | byselI | byselL | lea | leaI | leaL | mov | movi | movl | sel | plop | fadd | faddI | faddL | fsub
      | fsubI | fsubL | fmul | fmulI | fmulL | ffma | fmin | fminI | fminL | fmax | fmaxI | fmaxL | fcmp | fcmpI
      | fcmpL | fclass | frnd | fscale | fscaleI | fscaleL | fdiv | fsqrt | frcp | frsq | fexp2 | flog2 | fsinpi
      | fcospi | hadd2 | hmul2 | hfma2 | dot2 | dot4 | faddF64 | faddF64I | faddF64L | fsubF64 | fsubF64I | fsubF64L
      | fmulF64 | fmulF64I | fmulF64L | ffmaF64 | fminF64 | fminF64I | fminF64L | fmaxF64 | fmaxF64I | fmaxF64L
      | fcmpF64 | fcmpF64I | fcmpF64L | fclassF64 | frndF64 | fscaleF64 | fscaleF64I | fscaleF64L | fdivF64 | fsqrtF64
      | frcpF64 =>
    exact laneOp_wf hm
  case icmp | icmpI | icmpL =>
    exact cmpOp_wf hm
  all_goals simp [exec, hm]

/-- Every event of a list keeps memory in the canonical form. -/
def MemSteps (l : List Event) : Prop := ∀ f ∈ l, MemStep f

@[simp] theorem memSteps_nil : MemSteps [] := by simp [MemSteps]
@[simp] theorem memSteps_cons {f : Event} {l : List Event} : MemSteps (f :: l) ↔ MemStep f ∧ MemSteps l := by simp [MemSteps]
@[simp] theorem memSteps_append {l m : List Event} : MemSteps (l ++ m) ↔ MemSteps l ∧ MemSteps m := List.forall_mem_append
@[simp] theorem memSteps_flatMap {β : Type} {l : List β} {g : β → List Event} :
    MemSteps (l.flatMap g) ↔ ∀ x ∈ l, MemSteps (g x) := by
  simp only [MemSteps, List.mem_flatMap]
  exact ⟨fun h x hx f hf => h f ⟨x, hx, hf⟩, fun h f ⟨x, hx, hf⟩ => h x hx f hf⟩
@[simp] theorem memSteps_map {β : Type} {l : List β} {g : β → Event} : MemSteps (l.map g) ↔ ∀ x ∈ l, MemStep (g x) :=
  List.forall_mem_map

theorem memSteps_when {f : Event} (h : MemStep f) (b : Bool) : MemSteps (when_ b f) := by
  unfold when_
  split
  · simpa using h
  · exact memSteps_nil

/-- A step that answers what a function of the state gives. -/
theorem memStep_next {g : State → State} (h : ∀ s : State, s.mem.wf → (g s).mem.wf) : MemStep fun s => .next (g s) := h

theorem State.fetchFor_wf {s : State} (hm : s.mem.wf) (f : Focus) : (s.fetchFor f).mem.wf = true := by
  cases f with
  | sub t w k =>
    simp only [State.fetchFor]
    cases s.ex? t w k with
    | none => exact hm
    | some e =>
      simp only [Option.map_some, Option.getD_some]
      split
      · exact State.fetchSub_wf hm
      · exact hm
  | span i =>
    simp only [State.fetchFor]
    cases s.spans.get? i with
    | none => exact hm
    | some sp =>
      simp only [Option.map_some, Option.getD_some]
      split
      · exact State.fetchSpan_wf hm
      · exact hm

@[simp] theorem State.startFor_mem (s : State) (f : Focus) : (s.startFor f).mem = s.mem := by
  unfold State.startFor
  split
  · split <;> simp
  · rfl

theorem State.begin_wf {s : State} (hm : s.mem.wf) (f : Focus) : (s.begin_ f).mem.wf = true := by
  unfold State.begin_
  split
  · exact hm
  · simpa using State.fetchFor_wf hm f

theorem unchosen_wf {r : Res} (hr : r.MemWf) : (unchosen r).MemWf := by
  cases r <;> exact hr

theorem runFocus_wf (f : Focus) : MemStep (runFocus f) := by
  intro s hm
  have hb : (s.begin_ f).mem.wf = true := State.begin_wf hm f
  unfold runFocus
  dsimp only
  split
  · split
    · refine unchosen_wf (exec_wf ?_ _)
      exact hb
    · exact hb
  · exact hb

theorem retryHeld_wf (t w k : Nat) (h : Hold) : MemSteps (retryHeld t w k h) := by
  unfold retryHeld
  split
  · simp
  · simp +contextual [MemStep]
  · simp +contextual [MemStep]
  · simp +contextual [MemStep]
  · simp +contextual [MemStep]
  · rw [memSteps_cons]
    refine ⟨fun s hs => goOn_wf hs fun i f hf => ?_, memSteps_nil⟩
    cases hf
    exact fun s hs => exec_wf hs i

theorem flightEvents_wf (o : Owner) (l : Tbl Flight) : MemSteps (flightEvents o l) := by
  rw [flightEvents, memSteps_flatMap]
  intro p _
  split
  · simp
  · split <;> simp +contextual [MemStep]

theorem State.subEvents_wf (s : State) (e : Ex) : MemSteps (s.subEvents e) := by
  simp only [State.subEvents, memSteps_append, and_assoc]
  refine ⟨?_, ?_, ?_, ?_, ?_, ?_⟩
  · exact memSteps_when (runFocus_wf _) _
  · exact memSteps_when (fun _ h => execClauseFetch_wf h) _
  · split
    · refine memSteps_when ?_ _
      split
      · exact fun _ h => execHandlerEntry_wf h
      · exact fun _ h => execFaultRecord_wf h
    · exact memSteps_nil
  · split
    · exact retryHeld_wf _ _ _ _
    · exact memSteps_nil
  · exact memSteps_when (fun _ h => execYieldTimeout_wf h) _
  · exact memSteps_when (fun _ h => execStep_wf h) _

theorem State.waveEvents_wf (s : State) (t : Nat) (tm : Team) (w : Nat) (wv : Wave) : MemSteps (s.waveEvents t tm w wv) := by
  rw [State.waveEvents, memSteps_append]
  refine ⟨flightEvents_wf _ _, ?_⟩
  split
  · exact memSteps_nil
  · simp only [memSteps_append, memSteps_flatMap, memSteps_map, and_assoc]
    refine ⟨fun k _ => ?_, ?_, ?_, ?_⟩
    · cases s.ex? t w k.1 with
      | none => exact memSteps_nil
      | some e => exact s.subEvents_wf e
    · exact memSteps_when (fun _ h => execDebugHaltStop_wf h) _
    · exact memSteps_when (fun _ h => execUniformFrameRefill_wf h) _
    · exact fun _ _ _ h => execFrameRefill_wf h

theorem teamEvents_wf (t : Nat) (tm : Team) : MemSteps (teamEvents t tm) := by
  simp only [teamEvents, memSteps_append, memSteps_flatMap, memSteps_map, and_assoc]
  refine ⟨?_, ?_, ?_, ?_, ?_⟩
  · simp +contextual [MemStep]
  · simp +contextual [MemStep]
  · simp +contextual [MemStep]
  · exact fun _ _ _ h => execUndoWriteComplete_wf h
  · exact memSteps_when (fun _ h => execTeamSwapOut_wf h) _

theorem State.spanEvents_wf (s : State) (i : Nat) (sp : Span) : MemSteps (s.spanEvents i sp) := by
  rw [State.spanEvents, memSteps_append]
  refine ⟨flightEvents_wf _ _, ?_⟩
  split
  · exact memSteps_when (fun _ h => execSpanRecordFetch_wf h) _
  · rw [memSteps_append]
    exact ⟨memSteps_when (runFocus_wf _) _, memSteps_when (fun _ h => execClauseFetch_wf h) _⟩
  · simp +contextual [MemStep]
  · simp +contextual [MemStep]
  · exact memSteps_nil
  · exact memSteps_nil

theorem State.portEvents_wf (s : State) : MemSteps s.portEvents := by
  simp only [State.portEvents, memSteps_flatMap]
  exact fun _ _ _ _ => memSteps_when (fun _ h => execClauseStart_wf h) _

theorem State.placeIn_wf (s : State) (ctx : Nat) : MemSteps (s.placeIn ctx) := by
  unfold State.placeIn
  dsimp only
  split <;> simp +contextual [MemStep]

theorem State.placements_wf (s : State) (dev : Nat) : MemSteps (s.placements dev) := by
  unfold State.placements
  split
  · rename_i heq
    obtain ⟨c, -, rfl⟩ := List.mem_map.1 (List.mem_of_find?_eq_some heq)
    exact s.placeIn_wf c
  · exact memSteps_nil

theorem State.slotGrants_wf (s : State) (dev : Nat) : MemSteps (s.slotGrants dev) := by
  simp only [State.slotGrants, memSteps_map]
  exact fun _ _ _ h => execSpanSlotGrant_wf h

theorem coreEvents_wf (n : Nat) (c : Core) : MemSteps (coreEvents n c) := by
  simp only [coreEvents, memSteps_append, memSteps_flatMap, memSteps_map]
  refine ⟨fun p _ => ?_, fun v _ => ?_⟩
  · split <;> simp +contextual [MemStep]
  · split
    · exact fun _ h => execVentMove_wf h
    · exact fun _ h => execVentStart_wf h

theorem State.pageMove_wf (s : State) : MemSteps s.pageMove := by
  intro f hf
  obtain ⟨p, -, hp⟩ := List.mem_filterMap.1 hf
  obtain ⟨t, -, rfl⟩ := Option.map_eq_some_iff.1 hp
  exact fun _ h => execHbmPageMove_wf h

theorem State.ventEvents_wf (s : State) : MemSteps s.ventEvents := by
  simp only [State.ventEvents, memSteps_append, memSteps_map]
  refine ⟨⟨fun v _ => ?_, ?_⟩, ?_⟩
  · split
    · exact fun _ h => execVentStart_wf h
    · exact fun _ h => execL2SliceHandover_wf h
  · exact memSteps_when (memStep_next fun _ h => by simpa using h) _
  · split
    · exact s.pageMove_wf
    · exact memSteps_nil

theorem dirEvents_wf (e : DirEntry) : MemSteps (dirEvents e) := by
  unfold dirEvents
  split
  · exact memSteps_nil
  · simp only [memSteps_append, memSteps_flatMap]
    refine ⟨fun h _ => ?_, by simp +contextual [MemStep]⟩
    split <;> simp +contextual [MemStep]

theorem State.phaseEvents_wf (s : State) : MemSteps s.phaseEvents := by
  simp only [State.phaseEvents, memSteps_flatMap, memSteps_append, memSteps_map]
  exact fun _ _ => ⟨memSteps_when (fun _ h => execPhdoneAdvance_wf h) _, fun _ _ _ h => execPhdoneMirrorUpdate_wf h⟩

theorem linkEvents_wf (n : Nat) (k : Link) : MemSteps (linkEvents n k) := by
  unfold linkEvents
  split <;> simp +contextual [MemStep]

theorem State.beats_wf (s : State) : MemSteps s.beats := by
  simp only [State.beats, memSteps_append, memSteps_flatMap]
  exact ⟨fun _ _ => memSteps_when (fun _ h => execHeartbeat_wf h) _,
    fun _ _ => memSteps_when (fun _ h => execHeartbeat_wf h) _⟩

theorem State.queueEvents_wf (s : State) (k : Nat) (q : Queue) : MemSteps (s.queueEvents k q) := by
  simp only [State.queueEvents, memSteps_append, memSteps_map]
  refine ⟨⟨?_, ?_⟩, fun _ _ _ h => execWaitcntRelease_wf h⟩
  · split
    · exact memSteps_when (fun _ h => execTransferAccept_wf h) _
    · split
      · exact memSteps_nil
      · simp +contextual [MemStep]
      · repeat' split
        all_goals simp +contextual [MemStep]
  · exact memSteps_when (memStep_next fun _ h => State.owedHeads_wf h) _

theorem engineEvents_wf (n : Nat) (l : Tbl Xfer) : MemSteps (engineEvents n l) := by
  rw [engineEvents, memSteps_flatMap]
  intro x _
  split <;> simp +contextual [MemStep]

theorem State.gridEvents_wf (s : State) (k : Nat) (g : Grid) : MemSteps (s.gridEvents k g) :=
  memSteps_append.2 ⟨memSteps_when (fun _ h => execGridComplete_wf h) _, memSteps_when (fun _ h => execRelayRotation_wf h) _⟩

theorem State.ctxEvents_wf (s : State) (k : Nat) (c : Ctx) : MemSteps (s.ctxEvents k c) := by
  unfold State.ctxEvents
  split
  · exact memSteps_nil
  · split <;> simp +contextual [MemStep]

theorem callEvent_wf (k : Nat × Call) : MemSteps (callEvent k) := by
  unfold callEvent
  split
  all_goals simp +contextual [MemStep]

theorem devEvents_wf (d : Nat) (v : Dev) : MemSteps (devEvents d v) := by
  simp only [devEvents, memSteps_append, memSteps_flatMap, and_assoc]
  refine ⟨?_, fun k _ => callEvent_wf k, ?_, ?_, ?_⟩
  · split
    · rw [memSteps_append]
      exact ⟨callEvent_wf _, memSteps_when (memStep_next fun _ h => State.rejectFenced_wf h) _⟩
    · exact memSteps_nil
  · exact memSteps_when (memStep_next fun _ h => State.hostResume_wf h) _
  · exact memSteps_when (memStep_next fun _ h => State.peerResume_wf h) _
  · simp +contextual [MemStep]

theorem State.packageEvents_wf (s : State) : MemSteps s.packageEvents := by
  simp only [State.packageEvents, memSteps_append, memSteps_map]
  exact ⟨⟨fun _ _ _ h => execErrLogWindowClose_wf h, fun _ _ _ h => execFwStageWriteDone_wf h⟩,
    by simp +contextual [MemStep]⟩

theorem State.events_wf (s : State) : MemSteps s.events := by
  simp only [State.events, memSteps_append, memSteps_flatMap, and_assoc]
  refine ⟨fun p _ => ⟨fun w _ => s.waveEvents_wf _ _ _ _, ?_⟩, fun p _ => s.spanEvents_wf _ _, s.portEvents_wf,
    fun d _ => ⟨s.placements_wf d, s.slotGrants_wf d⟩, fun c _ => coreEvents_wf _ _, s.ventEvents_wf,
    fun e _ => dirEvents_wf e, s.phaseEvents_wf, fun k _ => linkEvents_wf _ _, fun q _ => s.queueEvents_wf _ _,
    fun e _ => engineEvents_wf _ _, fun g _ => s.gridEvents_wf _ _, fun c _ => s.ctxEvents_wf _ _,
    fun d _ => devEvents_wf _ _, s.packageEvents_wf⟩
  split
  · exact teamEvents_wf _ _
  · exact memSteps_nil

theorem State.pick_wf {s : State} (hm : s.mem.wf) {l : List Event} (hl : MemSteps l) : (s.pick l).MemWf := by
  unfold State.pick
  split
  · exact hl _ (List.mem_of_getElem? ‹_›) s hm
  · exact hm

theorem State.auto_wf {s : State} (hm : s.mem.wf) : s.auto.MemWf := by
  have hb := s.beats_wf
  unfold State.auto
  split <;> rename_i heq
  · rw [heq, memSteps_cons] at hb
    exact hb.1 s hm
  · exact State.pick_wf hm s.events_wf

theorem SubWave.limits_wf (q : SubWave) (t w k : Nat) : MemSteps (q.limits t w k) := by
  rw [SubWave.limits, memSteps_append]
  refine ⟨?_, memSteps_when (fun _ h => execYieldTimeout_wf h) _⟩
  split <;> simp +contextual [MemStep]

theorem State.limits_wf (s : State) : MemSteps s.limits := by
  simp only [State.limits, memSteps_append, memSteps_flatMap, memSteps_map, and_assoc]
  refine ⟨fun p _ w _ k _ => k.2.limits_wf _ _ _, fun p _ => ?_, fun c _ => ?_, fun l _ => ?_, ?_, ?_, fun d _ => ?_⟩
  · split <;> simp +contextual [MemStep]
  · exact ⟨memSteps_when (fun _ h => execPreemptDrainDeadline_wf h) _,
      memSteps_when (fun _ h => execPreemptSwapDeadline_wf h) _⟩
  · split <;> simp +contextual [MemStep]
  · exact fun _ _ _ h => execErrLogWindowClose_wf h
  · simp +contextual [MemStep]
  · exact ⟨by simp +contextual [MemStep], memSteps_when (fun _ h => execLeasePeriodExpiry_wf h) _,
      memSteps_when (fun _ h => execTakeoverWindowExpiry_wf h) _⟩

theorem State.made_wf {s : State} (hm : s.mem.wf) {f : Event} (hf : MemStep f) : (s.made f).mem.wf = true := by
  have h := hf s hm
  unfold State.made
  split <;> rename_i heq
  · rwa [heq] at h
  · exact hm

@[simp] theorem State.pass_mem (s : State) : s.pass.mem = s.mem := by
  simp [State.pass]

theorem State.tick_wf {s : State} (hm : s.mem.wf) : s.tick.mem.wf = true := by
  refine List.foldlRecOn (motive := fun s : State => s.mem.wf = true) _ _ ?_
    fun s h f hf => State.made_wf h (State.limits_wf _ f hf)
  simpa using hm

theorem ticked_wf {r : Res} (hr : r.MemWf) : (ticked r).MemWf := by
  cases r with
  | next s => exact State.tick_wf hr
  | fault f => trivial
  | refused f => trivial

theorem State.advance_wf {s : State} (hm : s.mem.wf) : s.advance.MemWf := by
  unfold State.advance
  split
  · split
    · exact hm
    · refine exec_wf ?_ _
      exact hm
  · split
    · exact hm
    · split
      · exact runFocus_wf _ s hm
      · exact State.auto_wf hm

/-- A step of the package keeps the canonical form of memory. -/
theorem step_wf {s : State} (hm : s.mem.wf) : Res.MemWf (step s) := ticked_wf (State.advance_wf hm)

/-- Settles O6: every instruction carried out, event made and time limit reached keeps memory rising and free of listed
bytes of value 0 (log 1). -/
theorem memoryKept : Obligations.MemoryKept := by
  intro s s' hm hs
  have h := step_wf hm
  rwa [hs] at h

end Sys2Proof.Machine
end

