-- ==== Sys2Proof/Proofs/Parking.lean ====
section
/-!
SUPPORT. The lanes of a sub-wave that trap (R37): where they stand afterwards, and a held lane that is not of its sub-wave.
-/
namespace Sys2Proof.Machine
open Sys2Proof

/-! ## Lanes that park -/

/-- The place at which lanes of a sub-wave park with a trap (R37). -/
def SubWave.parkAt (sub : SubWave) (tr : Trap) (pc : Nat) (entry : Bool) : Park :=
  { trap := tr, pc := pc, depth := sub.depth, entry := entry, forceRec := sub.handler.isSome }

/-- Some lanes of a sub-wave park: they are a new sub-wave, and the sub-wave keeps the others. -/
theorem Wave.parkGroup_some {w : Wave} {k : Nat} {sub : SubWave} (hk : w.subs.get? k = some sub) {m : Lanes}
    (hm : sub.mask &&& ~~~m ≠ 0) (tr : Trap) (pc : Nat) (entry : Bool) :
    w.parkGroup k m tr pc entry =
      let l := w.subs.modify k fun sub => { sub with mask := sub.mask &&& ~~~m }
      ({ w with subs := l.set w.subs.fresh { sub with mask := m, park := some (sub.parkAt tr pc entry), hold := none, stepping := 0 } },
        w.subs.fresh) := by
  simp only [Wave.parkGroup, hk, hm, if_false]
  rfl

/-- All lanes of a sub-wave park: the sub-wave itself does. -/
theorem Wave.parkGroup_all {w : Wave} {k : Nat} {sub : SubWave} (hk : w.subs.get? k = some sub) {m : Lanes}
    (hm : sub.mask &&& ~~~m = 0) (tr : Trap) (pc : Nat) (entry : Bool) :
    w.parkGroup k m tr pc entry =
      (w.modSub k fun q => { q with park := some (sub.parkAt tr pc entry), hold := none, stepping := 0 }, k) := by
  simp only [Wave.parkGroup, hk, hm, if_true]
  rfl

theorem Tbl.ne_fresh {α : Type} {t : Tbl α} {q : Nat} {b : α} (h : t.get? q = some b) : q ≠ t.fresh :=
  (Tbl.lt_fresh t q b h).ne

/-- Settles O42: the lanes that trap take a fresh number, which no sub-wave has, so every other sub-wave stays; where all of
them trap, the sub-wave keeps its number. -/
theorem trapParks : Obligations.TrapParks := by
  refine ⟨fun w k pc m tr entry sub hk hm => ?_, fun w k pc m tr entry sub hk hm => ?_⟩
  · rw [Wave.parkGroup_some hk hm]
    refine ⟨(Tbl.ne_fresh hk).symm, ?_, ?_, fun q b hq hb => ?_, rfl⟩
    · refine (Tbl.get?_set_ne _ _ (Tbl.ne_fresh hk)).trans ?_
      rw [Tbl.get?_modify_self, hk]
      rfl
    · exact ⟨_, _, Tbl.get?_set_self _ _ _, rfl, rfl, rfl, rfl, rfl, rfl, rfl, rfl, rfl⟩
    · exact ((Tbl.get?_set_ne _ _ (Tbl.ne_fresh hb)).trans (Tbl.get?_modify_ne _ _ hq)).trans hb
  · rw [Wave.parkGroup_all hk hm]
    have hself := Tbl.get?_modify_self w.subs k fun q =>
      { q with park := some (sub.parkAt tr pc entry), hold := none, stepping := 0 }
    rw [hk] at hself
    exact ⟨rfl, ⟨_, _, hself, rfl, rfl, rfl, rfl, rfl, rfl, rfl⟩, fun q hq => Tbl.get?_modify_ne _ _ hq, rfl⟩

/-! ## A held lane that is not of its sub-wave -/

/-- WAITV of a 32-bit word at the address in w8. -/
def strayWaitv : Waitv := ⟨⟨0, none, 7, false⟩, .n32, ⟨false, false, 8⟩, ⟨false, false, 12⟩, ⟨false, 32⟩⟩

/-- A sub-wave of lane 0 at a WAITV whose hold names lane 1, which is not of the sub-wave. -/
def straySub : SubWave :=
  { pc := 0, mask := 1, clause := some ⟨0, ⟨0, 0, 0, false, false, 0⟩, [⟨0, .waitv strayWaitv⟩]⟩
    hold := some { kind := .waitv, lanes := 2 } }

/-- A wave with lane 0 alone live, and that sub-wave. -/
def strayWave : Wave := { present := 1, live := 1, subs := [(0, straySub)] }

/-- The package after reset with one team of that wave; the events of `next` come next. -/
def strayState (next : List Instr) : State :=
  { State.reset with
    agenda := next
    teams := [(0, { ctx := 0, grid := 0, index := 0, bx := 0, by_ := 0, bz := 0, waves := [(0, strayWave)] })] }

theorem strayState_shaped (next : List Instr) : (strayState next).Shaped := by
  refine ⟨fun t ht => ?_, fun p hp => absurd hp List.not_mem_nil, fun c hc => absurd hc List.not_mem_nil⟩
  rw [List.mem_singleton.1 ht]
  refine ⟨fun w hw => ?_, fun l hl => nomatch hl⟩
  rw [List.mem_singleton.1 hw]
  refine ⟨rfl, fun k hk => ?_⟩
  rw [List.mem_singleton.1 hk]
  decide

/-- Some sub-wave of a team's waves has a lane that is not live. -/
def anyDead (l : Tbl Team) : Bool :=
  l.any fun t => t.2.waves.any fun w => w.2.subs.any fun k => k.2.mask &&& ~~~w.2.live != 0

/-- A team has such a sub-wave, no context is listed, and no port has held a baton: no time limit of a device touches the
teams. -/
structure DeadKept (s : State) : Prop where
  dead : anyDead s.teams = true
  ctxs : s.ctxs = []
  ports : ∀ d, (s.dev d).lastPort = none

/-- A next state in which, time having passed, `DeadKept` holds and no sub-wave, span, link or log window has a time limit. -/
def deadAndCalm (r : Res) : Bool :=
  match r with
  | .next s =>
    anyDead s.pass.teams && s.pass.ctxs.isEmpty && (s.pass.devs.all fun v => v.lastPort.isNone) && s.pass.spans.isEmpty &&
      s.pass.links.isEmpty && s.pass.pkg.banks.isEmpty &&
      (s.pass.teams.flatMap fun p => p.2.waves.flatMap fun w => w.2.subs.flatMap fun k => k.2.limits p.1 w.1 k.1).isEmpty
  | .fault _ | .refused _ => false

theorem not_shaped_of_anyDead {s : State} (h : anyDead s.teams = true) : ¬ s.Shaped := by
  rintro ⟨hteams, -, -⟩
  simp only [anyDead, List.any_eq_true, bne_iff_ne] at h
  obtain ⟨t, ht, w, hw, k, hk, hdead⟩ := h
  exact hdead (((hteams t ht).1 w hw).2 k hk).2

theorem State.dev_lastPort_none {s : State} (h : ∀ v ∈ s.devs, v.lastPort = none) (d : Nat) : (s.dev d).lastPort = none := by
  unfold State.dev
  cases hd : s.devs[d]? with
  | none => rfl
  | some v => exact h v (List.mem_of_getElem? hd)

theorem State.dev_modDev_lastPort {s : State} {f : Dev → Dev} (hf : ∀ v, (f v).lastPort = v.lastPort) (d i : Nat) :
    ((s.modDev d f).dev i).lastPort = (s.dev i).lastPort := by
  unfold State.dev State.modDev
  by_cases hi : i = d
  · subst hi
    rw [listModify_self]
    cases hd : s.devs[i]? with
    | none => rfl
    | some v => exact hf v
  · rw [listModify_ne _ _ hi]

/-- A change of a device that keeps the port that last held its baton. -/
theorem DeadKept.modDev {s : State} (h : DeadKept s) {d : Nat} {f : Dev → Dev} (hf : ∀ v, (f v).lastPort = v.lastPort) :
    DeadKept (s.modDev d f) :=
  ⟨h.dead, h.ctxs, fun i => (State.dev_modDev_lastPort hf d i).trans (h.ports i)⟩

/-- An event gives a next state in which that stays so. -/
def KeepsDead (f : Event) (s : State) : Prop := ∃ t, f s = .next t ∧ DeadKept t

theorem KeepsDead.made {f : Event} {s : State} (h : KeepsDead f s) : DeadKept (s.made f) := by
  obtain ⟨t, hf, ht⟩ := h
  simpa only [State.made, hf] using ht

theorem DeadKept.telemetryWindow {s : State} (h : DeadKept s) : KeepsDead execTelemetryWindow s := by
  unfold KeepsDead execTelemetryWindow
  dsimp only
  split
  · exact ⟨s, rfl, h⟩
  · exact ⟨_, rfl, h.dead, h.ctxs, h.ports⟩

theorem State.sliceExpiry_of_no_ctxs {s : State} (h : s.ctxs = []) (d : Nat) : s.sliceExpiry d = s := by
  simp [State.sliceExpiry, h]

theorem DeadKept.accountingRound {s : State} (h : DeadKept s) (d : Nat) : KeepsDead (execAccountingRound d) s := by
  unfold KeepsDead execAccountingRound
  simp only [h.ctxs, List.filter_nil, List.foldl_nil]
  split
  · exact ⟨s, rfl, h⟩
  · refine ⟨_, rfl, ?_⟩
    rw [State.sliceExpiry_of_no_ctxs (by exact h.ctxs)]
    exact h.modDev fun _ => rfl

theorem DeadKept.leasePeriodExpiry {s : State} (h : DeadKept s) (d : Nat) : KeepsDead (execLeasePeriodExpiry d) s := by
  refine ⟨_, rfl, ?_⟩
  split
  · split
    · exact h.modDev fun _ => rfl
    · exact h
  · exact h
  · exact h

theorem DeadKept.takeoverWindowExpiry {s : State} (h : DeadKept s) (d : Nat) : KeepsDead (execTakeoverWindowExpiry d) s := by
  refine ⟨_, rfl, ?_⟩
  rw [h.ports d]
  cases (s.dev d).baton <;> exact h

theorem anyDead_of_deadAndCalm {r : Res} (h : deadAndCalm r = true) : ∃ s, ticked r = .next s ∧ anyDead s.teams = true := by
  cases r with
  | fault f => cases h
  | refused q => cases h
  | next s =>
    simp only [deadAndCalm, Bool.and_eq_true, List.isEmpty_iff, List.all_eq_true, Option.isNone_iff_eq_none] at h
    obtain ⟨⟨⟨⟨⟨⟨hdead, hctxs⟩, hports⟩, hspans⟩, hlinks⟩, hbanks⟩, hsubs⟩ := h
    refine ⟨s.tick, rfl, ?_⟩
    have hstart : DeadKept s.pass := ⟨hdead, hctxs, State.dev_lastPort_none hports⟩
    refine (List.foldlRecOn (motive := DeadKept) _ _ hstart fun t ht f hf => ?_).dead
    simp only [State.limits, hsubs, hspans, hctxs, hlinks, hbanks, when_, List.flatMap_nil, List.filter_nil, List.map_nil,
      List.nil_append, List.mem_append, List.mem_singleton, List.mem_flatMap, List.mem_range] at hf
    rcases hf with rfl | ⟨d, -, (rfl | hf) | hf⟩
    · exact ht.telemetryWindow.made
    · exact (ht.accountingRound d).made
    · split at hf
      · rw [List.mem_singleton.1 hf]
        exact (ht.leasePeriodExpiry d).made
      · exact absurd hf List.not_mem_nil
    · split at hf
      · rw [List.mem_singleton.1 hf]
        exact (ht.takeoverWindowExpiry d).made
      · exact absurd hf List.not_mem_nil

/-- The lane of the hold that is not of the sub-wave faults at address 0, which no page maps, and splits off parked. -/
theorem advance_strayState : deadAndCalm (strayState [.waitvRelease 0 0 0]).advance = true := by decide +kernel

/-- Refutes O7: nothing ties the lanes of a hold to the lanes of its sub-wave. In `strayState` a sub-wave of lane 0 is held at a
WAITV whose hold names lane 1, which is not live. WAITV_RELEASE reads the place of lane 1 again, at an address that no page maps,
and the lane that traps becomes a parked sub-wave of its own (R37): its lanes are not live after the step. A state in which the
lanes of every hold are lanes of its sub-wave has no such sub-wave. -/
theorem not_shapesKept : ¬ Obligations.ShapesKept := by
  intro h
  obtain ⟨s, hstep, hdead⟩ := anyDead_of_deadAndCalm advance_strayState
  exact not_shaped_of_anyDead hdead (h _ s (strayState_shaped _) hstep)

end Sys2Proof.Machine
end

