-- ==== Sys2Proof/Proofs/Launch.lean ====
section
/-!
SUPPORT. SVC and LAUNCH (R274, R276): what their meanings answer, and that the waves stay.
-/
namespace Sys2Proof.Machine
open Sys2Proof

theorem State.acceptCall_calm (s : State) (d : Nat) (c : Nat × Call) : State.Calm s (s.acceptCall d c) :=
  ⟨fun _ => rfl, id, rfl, rfl, rfl⟩

/-- The waves of every team are as they were. -/
def State.SameWaves (s t : State) : Prop := ∀ k, (t.teams.get? k).map Team.waves = (s.teams.get? k).map Team.waves

theorem State.SameWaves.trans {a b c : State} (h : State.SameWaves a b) (g : State.SameWaves b c) : State.SameWaves a c :=
  fun k => (g k).trans (h k)

/-- Where the waves are as they were, the one that issues is found. -/
theorem Runs.wave_of_sameWaves {s t : State} {u : Use} {e : Ex} (h : Runs s u e) (ht : State.SameWaves s t) :
    t.wave? e.t e.w = some e.wave := by
  refine Eq.trans ?_ h.wave?
  have hk := ht e.t
  unfold State.wave?
  cases h1 : t.teams.get? e.t <;> cases h2 : s.teams.get? e.t <;> simp_all

/-- An answer that writes nothing and raises nothing. -/
theorem answers_nothing {u : Use} {e : Ex} (hpw : u.pw = []) : Answers u e {} {} :=
  ⟨rfl, rfl, Or.inr (Or.inl ⟨rfl, rfl⟩), Or.inr ⟨Or.inr hpw, rfl⟩, rfl, rfl, rfl⟩

/-- An answer that gives one value to its one destination. -/
theorem answers_give {u : Use} {e : Ex} {d : RegRef} (hwr : u.wr = [d]) (hpw : u.pw = []) (v : Nat) :
    Answers u e { val := some fun _ => v } (({} : LaneRes).give d (e.parts u) v) :=
  ⟨rfl, rfl, Or.inl ⟨_, rfl, by rw [hwr]; rfl⟩, Or.inr ⟨Or.inr hpw, rfl⟩, rfl, rfl, rfl⟩

/-- A law of LAUNCH whose meaning gives one value and keeps the waves. -/
theorem launch_law {x : Launch} {ok : State → Use → Ex → Prop} {g : State → Use → Ex → State} {v : Nat}
    (hb : ∀ s u e, Issues s (.launch x) u e → e.fresh u → ok s u e → State.SameWaves s (g s u e) ∧
      launchBody (x.d.ref 2) u s e (e.parts u) =
        .done (g s u e) (({} : LaneRes).give (x.d.ref 2) (e.parts u) v) .result none) :
    EffectLaw (.launch x) ok g fun _ _ _ => { val := some fun _ => v } := by
  refine done_law (fun s => (rfl : exec (.launch x) s = execLaunch x s)) fun s u e h hf ho => ?_
  obtain ⟨hw, hd⟩ := hb s u e h hf ho
  refine ⟨e.wave, _, .result, none, hd, h.wave_of_sameWaves hw, rfl, h.preds, ?_⟩
  cases h.use
  exact answers_give rfl rfl v

/-- LAUNCH once its record is checked: the status that refuses it, or the child grid (R276). -/
def launchChecked (d : RegRef) (e : Ex) (p : Lanes) (ka : Nat) (parent : Grid) (r : State × Except Nat Grid) : Issue :=
  match r.2 with
  | .error code => .done r.1 (({} : LaneRes).give d p code) .result none
  | .ok g =>
    match r.1.inDevice (r.1.accessorOf e) { n := 8, rd := false, wr := true } ka with
    | .error t => strike r.1 p {} t
    | .ok _ =>
      let a := r.1.createGrid g (parent.depth + 1) parent.prio (some e.t) parent.queue
      .done (a.1.modTeam e.t fun t => { t with children := t.children + 1, childGrids := t.childGrids ++ [a.2] })
        (({} : LaneRes).give d p 0) .result none

/-- LAUNCH of an aligned, readable record that nothing makes wait checks the words that it reads. -/
theorem launchBody_eq_launchChecked {i : Instr} {s t : State} {u : Use} {e : Ex} {parent : Grid} {ws : List Nat} (d : RegRef)
    (h : Issues s i u e) (hf : e.fresh u) (hp : e.parts u ≠ 0) (halign : e.operand u 0 % 256 = 0)
    (hdev : (s.escapeTeam e.t).inDevice ((s.escapeTeam e.t).accessorOf e) { n := 8, rd := true, wr := false }
      (e.operand u 0) = .ok ())
    (hfree : ((s.escapeTeam e.t).releaseWaits e (lanesIn (e.parts u)) ||
      (s.escapeTeam e.t).unitsBusy e.team.ctx (e.operand u 0) 256 false ||
      (s.escapeTeam e.t).unitsBusy e.team.ctx (e.operand u 0) 256 true) = false)
    (hgrid : s.grids.get? e.team.grid = some parent) (hdepth : parent.depth < 10)
    (hwords : (s.escapeTeam e.t).unitWords e.team.ctx (e.operand u 0) 32 = .ok (t, ws)) :
    launchBody d u s e (e.parts u) =
      launchChecked d e (e.parts u) (e.operand u 0) parent (t.checkLaunch e.team.ctx (e.operand u 0) ws true) := by
  have hgrid' : (s.escapeTeam e.t).grids.get? e.team.grid = some parent := hgrid
  unfold launchBody
  rw [once_eq h hf hp]
  simp only [halign, hdev, hfree, hgrid', Nat.not_le.2 hdepth, hwords, ne_eq, not_true_eq_false, if_false, Bool.false_eq_true]
  obtain ⟨t', code | g⟩ := t.checkLaunch e.team.ctx (e.operand u 0) ws true
  · rfl
  · rfl

/-- The check of a record keeps the waves. -/
theorem sameWaves_checkLaunch {s t : State} {e : Ex} {c ka n : Nat} {ws : List Nat}
    (hwords : (s.escapeTeam e.t).unitWords c ka n = .ok (t, ws)) : State.SameWaves s (t.checkLaunch c ka ws true).1 :=
  (((State.escapeTeam_calm s e.t).trans (State.unitWords_calm n hwords)).trans (State.checkLaunch_calm t c ka ws true)).waves

/-- Settles O39: each access of the unit and the check of the record keep the waves, so the instruction settles in the wave that
issued it. -/
theorem launchAndService : Obligations.LaunchAndService := by
  refine ⟨fun x t ws => ?_, fun x t ws parent code => launch_law ?_, fun x t ws parent g => launch_law ?_⟩
  · refine done_law (fun s => (rfl : exec (.svc x) s = execSvc x s)) fun s u e h hf => ?_
    rintro ⟨hp, halign, hdev, hcode, hbusy, hwords⟩
    refine ⟨e.wave, {}, .engine, none, ?_, h.wave_of_sameWaves ?_, rfl, h.preds, ?_⟩
    · unfold svcBody
      rw [once_eq h hf hp]
      simp only [halign, hdev, hcode, hbusy, hwords, ne_eq, not_true_eq_false, if_false, Bool.not_true, Bool.false_eq_true]
    · exact (((State.escapeTeam_calm s e.t).trans (State.unitWords_calm _ hwords)).trans (State.acceptCall_calm _ _ _)).waves
    · cases h.use
      exact answers_nothing rfl
  · rintro s u e h hf ⟨hp, halign, hdev, hfree, hgrid, hdepth, hwords, hcheck⟩
    refine ⟨sameWaves_checkLaunch hwords, ?_⟩
    rw [launchBody_eq_launchChecked _ h hf hp halign hdev hfree hgrid hdepth hwords]
    simp only [launchChecked, hcheck]
  · rintro s u e h hf ⟨hp, halign, hdev, hfree, hgrid, hdepth, hwords, hcheck, hwrite⟩
    refine ⟨((sameWaves_checkLaunch hwords).trans (State.createGrid_waves _ g (parent.depth + 1) parent.prio (some e.t)
      parent.queue).1).trans ?_, ?_⟩
    · refine (State.Calm.modTeam _ e.t _ ?_).waves
      exact fun _ => rfl
    · rw [launchBody_eq_launchChecked _ h hf hp halign hdev hfree hgrid hdepth hwords]
      simp only [launchChecked, hcheck, hwrite]

end Sys2Proof.Machine
end

