-- ==== Sys2Proof/Proofs/Scheduling.lean ====
section
/-!
SUPPORT. The events of the scheduler (R26, R34, R42, R66, R78, R81, R350, R351, R353, R354, R364).
-/
namespace Sys2Proof.Machine
open Sys2Proof

/-- Settles O51: each event takes the branch that its premises name; where AFFINITY_TIMEOUT takes the cursor, its wait has ended, so
the placement is asked without patience (R354; the die of the fewest records is log 48). -/
theorem schedulingEvents : Obligations.SchedulingEvents := by
  refine ⟨?_, ?_, ?_, ?_, ?_, ?_, ?_, ?_, ?_, ?_, ?_, ?_, ?_, ?_, ?_, ?_⟩
  · rintro core port c s ⟨hup, hfree, hbest⟩
    simp only [exec, execClauseStart, hup, hfree, hbest, Bool.and_self, Bool.not_true, Bool.false_eq_true, if_false]
  · rintro t w k e g c u s ⟨hex, hgrid, hstate, hclause, hpark, hhold, hat, hcode⟩
    simp [exec, execClauseFetch, hex, State.fetchSub, hgrid, hstate, hclause, hpark, hhold, hat, hcode]
  · rintro t w k pc e g r s ⟨hex, hgrid, hstate, hclause, hpark, hhold, hat⟩
    simp [exec, execClauseFetch, hex, State.fetchSub, hgrid, hstate, hclause, hpark, hhold, hat]
  · rintro n core k sp g c u s ⟨hspan, hgrid, hstate, hclause, hat, hcode⟩
    simp [exec, execClauseFetch, hspan, State.fetchSpan, hgrid, hstate, hclause, hat, hcode]
  · rintro cursor pos core base c g keep s ⟨hnext, hplacing, hstopped, hhopeless, hplace⟩
    simp only [exec, execCursorTake, hnext, hplacing, hstopped, hhopeless, hplace, Bool.not_true, Bool.or_self, Bool.false_eq_true, if_false]
  · rintro cursor pos c g s ⟨hnext, hplacing, hstopped, hhopeless, hplace⟩
    simp only [exec, execCursorTake, hnext, hplacing, hstopped, hhopeless, hplace, Bool.not_true, Bool.or_self, Bool.false_eq_true, if_false]
  · rintro cursor pos core base d c g keep s ⟨hcursor, hd, hgrid, htime, hnext, hplacing, hstopped, hhopeless, hplace⟩
    have hpatient : decide (s.devTime (s.ctxDev g.ctx) < d) = false := decide_eq_false (Nat.not_lt.2 htime)
    simp only [exec, execAffinityTimeout, execCursorTake, hcursor, hd, hgrid, htime, hnext, hplacing, hstopped, hhopeless, hplace,
      hpatient, Option.bind_some, Option.map_some, Option.getD_some, Bool.not_true, Bool.or_self, Bool.false_eq_true, if_false, if_true]
  · rintro span pc since sp s ⟨hspan, hstate, htime⟩
    simp only [exec, execSjoinTimeout, hspan, hstate]
    exact if_neg (Nat.not_lt.2 htime)
  · rintro span f c k sp r s ⟨hspan, hstate, hcached, hplacing, hfrom, hslot⟩
    simp only [exec, execSpanSlotGrant, hspan, hstate, hcached, hplacing, Bool.not_true, Bool.false_eq_true, if_false]
    rw [hfrom]
    simp only [hslot]
  · rintro span d sp r t s ⟨hspan, hcached, hdies, hroom⟩
    simp only [exec, execSpanRecordFetch, hspan, hcached, hdies, hroom, Option.isSome_none, Bool.false_eq_true, if_false]
  · rintro team since core base tm g keep s ⟨hteam, hgrid, hstate, hplacing, hstopped, hhopeless, hplace⟩
    simp only [exec, execTeamAdmit, hteam, hgrid, hstate, hplacing, hstopped, hhopeless, hplace, Option.bind_some, Option.map_some,
      Bool.not_true, Bool.or_self, Bool.false_eq_true, if_false]
  · rintro team since tm g s ⟨hteam, hgrid, hstate, hplacing, hstopped, hhopeless, hplace⟩
    simp only [exec, execTeamAdmit, hteam, hgrid, hstate, hplacing, hstopped, hhopeless, hplace, Option.bind_some, Option.map_some,
      Bool.not_true, Bool.or_self, Bool.false_eq_true, if_false]
  · rintro grid g s ⟨hgrid, hover, hrecord, hsignal⟩
    have hfree : (g.signal != 0 && s.unitBusy g.ctx g.signal true) = false := by
      rcases hsignal with h | h <;> simp [h]
    simp only [exec, execGridComplete, hgrid, hover, hrecord, hfree, Bool.or_self, Bool.false_eq_true, if_false, if_true]
  · rintro team wave depth tm w s ⟨hteam, hwave, hstate⟩
    simp [exec, execFrameRefill, hteam, hwave, hstate]
  · rintro team wave tm s ⟨hteam, hstate⟩
    simp [exec, execUniformFrameRefill, hteam, hstate]
  · rintro team wave sub c p e s ⟨hex, hyield, htime⟩
    obtain ⟨rfl, rfl, rfl, -, -, -⟩ := State.ex?_spec hex
    refine congrArg Host.Outcome.next (State.modSub_congr hex ?_)
    simp only [hyield, htime, if_true]

end Sys2Proof.Machine
end

