-- ==== Sys2Proof/Proofs/MachineState.lean ====
section
/-!
SUPPORT. Reset, predicate 7 (R48) and the control and status registers (R55 to R59, R124, R275).
-/
namespace Sys2Proof.Machine
open Sys2Proof

/-- Settles O5: `State.reset` lists no memory, no wave or span, and no mirror, so a copy of PHDONE reads 0 (R73, R301; log 1). -/
theorem resetInvariants : Obligations.ResetInvariants :=
  ⟨rfl, ⟨fun _ h => (nomatch h), fun _ h => (nomatch h), fun _ h => (nomatch h)⟩, fun _ _ _ _ => Nat.zero_le _⟩

theorem Wave.pget_seven (w : Wave) : w.pget 7 = 0xFFFF := rfl
theorem Wave.pput_seven (w : Wave) (m v : Lanes) : w.pput 7 m v = w := rfl

/-- A write of a predicate changes the predicates alone. -/
theorem Wave.pput_only (w : Wave) (q : Nat) (m v : Lanes) : w.pput q m v = { w with preds := (w.pput q m v).preds } := by
  unfold Wave.pput
  split
  · rfl
  · rfl

/-- Settles O22: p7 is a constant; a write of another predicate gives the named lanes their new bits and keeps the others. -/
theorem predicateSeven : Obligations.PredicateSeven := by
  refine ⟨fun w k hk => ?_, Wave.pput_seven, fun w q m v hq hlen => ⟨fun k => ?_, fun p hp => w.pput_ne q p m v hp, w.pput_only q m v⟩⟩
  · rw [Wave.pget_seven, show (0xFFFF : Lanes) = BitVec.allOnes 16 from rfl, BitVec.getLsbD_allOnes]
    exact decide_eq_true hk
  · split
    · rename_i hm
      exact w.pput_self q m v k (by omega) (by omega) hm
    · rename_i hm
      exact w.pput_off q m v k (by simpa using hm)

/-! ## CSRW (R55 to R58, R124, R275) -/

/-- Whichever register is written, the wave keeps its live lanes and its predicates. -/
theorem State.csrWrite_wave {s : State} {e : Ex} {w : Wave} (h : s.wave? e.t e.w = some w) (ix : Nat) (v : W64) (p : Lanes) :
    ∃ w', (s.csrWrite e ix v p).wave? e.t e.w = some w' ∧ w'.live = w.live ∧ w'.preds = w.preds := by
  have changed (f : Wave → Wave) (hlive : (f w).live = w.live) (hpreds : (f w).preds = w.preds) :
      ∃ w', (s.modWave e.t e.w f).wave? e.t e.w = some w' ∧ w'.live = w.live ∧ w'.preds = w.preds :=
    ⟨f w, by rw [State.wave?_modWave_self, h]; rfl, hlive, hpreds⟩
  unfold State.csrWrite
  split
  · exact changed _ rfl rfl
  split
  · exact changed _ rfl rfl
  split
  · exact changed _ rfl rfl
  split
  · split
    · exact ⟨w, h, rfl, rfl⟩
    · exact changed _ rfl rfl
  split
  · exact ⟨w, (s.wave?_modTeam e.t (fun t => { t with bankconf := v }) (fun _ => rfl) e.t e.w).trans h, rfl, rfl⟩
  · exact ⟨w, h, rfl, rfl⟩

/-- CSRW of a register: its effect is the write of the operand to that register. -/
theorem csrw_law {x : Csrw} {ok : State → Use → Ex → Prop} {g : State → Use → Ex → State}
    (hok : ∀ s u e, ok s u e → e.parts u ≠ 0 ∧
      s.csrWrite e x.ix.toNat (BitVec.ofNat 64 (e.operand u 0)) (e.parts u) = g s u e) :
    EffectLaw (.csrw x) ok g fun _ _ _ => {} := by
  refine done_law (body := fun u s e p => once u s e p fun src r =>
    .done (s.csrWrite e x.ix.toNat (BitVec.ofNat 64 (src 0)) p) r .result none) (fun _ => rfl) fun s u e h hf ho => ?_
  obtain ⟨hparts, hwrite⟩ := hok s u e ho
  obtain ⟨w', hwave, hlive, hpreds⟩ := s.csrWrite_wave h.wave? x.ix.toNat (BitVec.ofNat 64 (e.operand u 0)) (e.parts u)
  refine ⟨w', {}, .result, none, ?_, hwrite ▸ hwave, hlive, hpreds ▸ h.preds, ?_⟩
  · rw [once_eq h hf hparts, hwrite]
  · cases h.use
    exact answers_nothing rfl

/-- Settles O37: each register that has a write is one branch of `State.csrWrite`, and a register that has none is the last. -/
theorem registerWrites : Obligations.RegisterWrites := by
  refine ⟨fun x => ?_, fun x => ?_, fun x => ?_, fun x => ?_, fun x => ?_, fun x => ?_⟩
  · exact csrw_law fun s u e ⟨hparts, hctl⟩ => ⟨hparts, by simp only [State.csrWrite, hctl, if_true]⟩
  · exact csrw_law fun s u e ⟨hparts, htstat⟩ => ⟨hparts, by simp [State.csrWrite, htstat]⟩
  · exact csrw_law fun s u e ⟨hparts, hfpflags⟩ => ⟨hparts, by simp [State.csrWrite, hfpflags]⟩
  · exact csrw_law fun s u e ⟨hparts, hseed⟩ => ⟨hparts, by simp [State.csrWrite, hseed]⟩
  · exact csrw_law fun s u e ⟨hparts, hbankconf⟩ => ⟨hparts, by simp [State.csrWrite, hbankconf]⟩
  · refine csrw_law fun s u e ⟨hparts, hother⟩ => ⟨hparts, ?_⟩
    simp only [List.mem_cons, not_or, List.not_mem_nil, not_false_eq_true, and_true] at hother
    simp [State.csrWrite, hother]

/-! ## The trap registers (R59) -/

theorem State.csr_trap (s : State) (e : Ex) {ix : Nat} (h : ix = 0x041 ∨ ix = 0x042 ∨ ix = 0x043) :
    s.csr e ix = if e.sub.handler.isSome then
      (if ix = 0x041 then e.wave.trapCause else if ix = 0x042 then e.wave.trapPc else e.wave.trapAddr).toNat else 0 := by
  rcases h with rfl | rfl | rfl <;> rfl

/-- CSRR of a register that does not wait for the earlier instructions gives every participant its value. -/
theorem csrr_law {x : Csrr} {ok : State → Use → Ex → Prop} {v : Ex → Nat}
    (hok : ∀ s u e, ok s u e → e.parts u ≠ 0 ∧ (x.ix.toNat ≠ 1 ∧ x.ix.toNat ≠ 2) ∧ s.csr e x.ix.toNat = v e) :
    EffectLaw (.csrr x) ok (fun s _ _ => s) fun _ _ e => { val := some fun _ => v e } := by
  refine done_law (fun s => (rfl : exec (.csrr x) s = execCsrr x s)) fun s u e h hf ho => ?_
  obtain ⟨hparts, ⟨htstat, hfpflags⟩, hval⟩ := hok s u e ho
  refine ⟨e.wave, ({} : LaneRes).give (x.d.ref 2) (e.parts u) (v e), .result, none, ?_, h.wave?, rfl, h.preds, ?_⟩
  · unfold csrrBody
    rw [once_eq h hf hparts]
    simp [htstat, hfpflags, hval]
  · cases h.use
    exact answers_give rfl rfl _

/-- Settles O38: a read of one of the three registers gives its word where the sub-wave is in a handler, and else 0. -/
theorem trapRegisters : Obligations.TrapRegisters := by
  refine ⟨fun x => csrr_law fun s u e ⟨hparts, hix, hout⟩ => ⟨hparts, by omega, ?_⟩,
    fun x => csrr_law fun s u e ⟨hparts, hix, hin⟩ => ⟨hparts, by omega, ?_⟩⟩
  · rw [State.csr_trap s e hix, hout]
    rfl
  · rw [State.csr_trap s e hix, if_pos hin]

end Sys2Proof.Machine
end

