-- ==== Sys2Proof/Proofs/Phases.lean ====
section
/-!
SUPPORT. Phases, value waits and team barriers (R221 to R224, R414): what their meanings answer where they complete at once.
-/
namespace Sys2Proof

theorem Tbl.modify_eq_self {α : Type} {f : α → α} (h : ∀ a, f a = a) (t : Tbl α) (k : Nat) : t.modify k f = t := by
  induction t with
  | nil => rfl
  | cons p r ih =>
    obtain ⟨i, b⟩ := p
    simp only [Tbl.modify, h, ih, ite_self]

/-- Values set under the keys of a list stand under each of them, and what stood in the table before stands in it still. -/
theorem Tbl.isSome_foldl_set {α : Type} (f : Nat → α) {k : Nat} (l : List Nat) (t : Tbl α)
    (h : k ∈ l ∨ (t.get? k).isSome = true) : ((l.foldl (fun t j => t.set j (f j)) t).get? k).isSome = true := by
  induction l generalizing t with
  | nil => simpa using h
  | cons j r ih =>
    refine ih _ ?_
    by_cases hk : k = j
    · subst hk
      simp
    · rw [Tbl.get?_set_ne _ _ hk]
      simpa [hk] using h

end Sys2Proof

namespace Sys2Proof.Machine
open Sys2Proof

/-- An access that reaches no stash counts no conflict. -/
theorem State.countConflict_nil (s : State) (t : Nat) : s.countConflict t [] = s := by
  have same (tm : Team) : { tm with bankconf := BitVec.ofNat 64 (min (tm.bankconf.toNat + 0) (2 ^ 64 - 1)) } = tm := by
    rw [Nat.add_zero, Nat.min_eq_left (by have := tm.bankconf.isLt; omega), BitVec.ofNat_toNat, BitVec.setWidth_eq]
  exact congrArg (fun ts => { s with teams := ts }) (Tbl.modify_eq_self same s.teams t)

/-! ## WAITV (R223) -/

/-- Lane `k` reads at `d k`, with nothing to wait for and nothing changed, another value than the one that it waits on. -/
def WaitvReads (t : ITy) (u : Use) (s : State) (e : Ex) (d : Nat → Dest) (k : Nat) : Prop :=
  s.ready { s.accessor e k with again := true } { n := t.width / 8, rd := true, wr := false } (e.ea u 0 none 0 k) = .ok s (d k) ∧
    s.peek (s.accessor e k) (d k) (t.width / 8) ≠ e.src u k 1 % 2 ^ t.width

/-- Lanes that all read another value keep it, each at its destination, and change nothing. -/
theorem foldl_waitvLane {t : ITy} {u : Use} {s : State} {e : Ex} {d : Nat → Dest} (l : List Nat)
    (h : ∀ k ∈ l, WaitvReads t u s e d k) (r : Sweep) (hr : r.s = s) :
    l.foldl (waitvLane t u e) r =
      { r with
        dests := r.dests ++ l.map fun k => (k, d k)
        vals := l.foldl (fun v k => v.set k (s.peek (s.accessor e k) (d k) (t.width / 8))) r.vals } := by
  induction l generalizing r with
  | nil => simp
  | cons k l ih =>
    subst hr
    obtain ⟨hready, hother⟩ := h k (by simp)
    have hlane : waitvLane t u e r k =
        { r with dests := r.dests ++ [(k, d k)], vals := r.vals.set k (r.s.peek (r.s.accessor e k) (d k) (t.width / 8)) } := by
      unfold waitvLane
      rw [hready]
      simp only [if_neg hother]
    have hstate : (waitvLane t u e r k).s = r.s := by rw [hlane]
    rw [List.foldl_cons, ih (fun j hj => h j (by simp [hj])) _ hstate, hlane]
    simp

/-- Where every participant reads another value, all are released at once (R223). -/
theorem waitvBody_released {i : Instr} {t : ITy} {u : Use} {s : State} {e : Ex} {d : Nat → Dest} (h : Issues s i u e)
    (hf : e.fresh u) (hread : ∀ k ∈ lanesIn (e.parts u), WaitvReads t u s e d k) :
    waitvBody t u s e (e.parts u) =
      .done (s.countConflict e.t (stashOffsets ((lanesIn (e.parts u)).map fun k => (k, d k)))) {} .result none := by
  unfold waitvBody
  simp only [h.runs_eq hf, h.staleTraps_eq hf, h.staleSets_eq hf, h.free]
  cases hl : lanesIn (e.parts u) with
  | nil => exact congrArg (fun s => Issue.done s {} .result none) (s.countConflict_nil e.t).symm
  | cons k0 r =>
    rw [hl] at hread
    have htodo : ((k0 :: r).filter fun i => !(BitVec.ofNat 16 (((none : Option Hold).map fun h => h.aux).getD 0)).getLsbD i) =
        k0 :: r := by
      simp
    simp only [htodo, foldl_waitvLane (k0 :: r) hread { s := s } rfl]
    refine if_pos (Bool.or_eq_true_iff.2 (Or.inr (List.all_eq_true.2 fun k hk => ?_)))
    have hlow : k < 16 := BitVec.lt_of_getLsbD ((mem_lanesIn _ k).1 (hl ▸ hk))
    rw [BitVec.getLsbD_or, lanesOf_bit _ k hlow, Tbl.isSome_foldl_set _ _ _ (Or.inl hk), Bool.true_or, Bool.or_true]

/-! ## Phases (R221, R222, R414) -/

/-- PHWAIT on a die of the device completes where the die mirror has reached the value of every participant. -/
theorem phwaitBody_reached {i : Instr} {u : Use} {s : State} {e : Ex} (h : Issues s i u e) (hf : e.fresh u)
    (hin : ∀ k ∈ lanesIn (e.parts u), s.dieIn (s.devOfCore e.team.core) (e.operand u 0 % 16) = true ∧
      ((e.lane u k).src[1]?).getD 0 ≤ s.mirror (dieOf e.team.core) (e.operand u 0 % 16)) :
    phwaitBody u s e (e.parts u) = .done s {} .result none := by
  unfold phwaitBody
  simp only [h.runs_eq hf, h.staleTraps_eq hf, h.staleSets_eq hf, h.src_eq]
  unfold Ex.operand lowLane at hin
  cases hl : lanesIn (e.parts u) with
  | nil => rfl
  | cons k0 r =>
    simp only [hl, List.headD_cons] at hin
    have hlate : ((k0 :: r).any fun k => decide (s.mirror (dieOf e.team.core) (((e.lane u k0).src[0]?).getD 0 % 16) <
        ((e.lane u k).src[1]?).getD 0)) = false :=
      List.any_eq_false.2 fun k hk => by simpa using (hin k hk).2
    simp only [(hin k0 (by simp)).1, hlate, if_true, Bool.false_eq_true, if_false]

/-- PHCLOSE, with no write of the participants untagged and room for a closed phase, opens the next phase. -/
theorem phcloseBody_closes {d : RegRef} {u : Use} {s : State} {e : Ex} {p : Lanes} (hp : p ≠ 0)
    (hcopy : (s.escapeTeam e.t).copyPending e (lanesIn p) = false)
    (hroom : (s.cdie (dieOf e.team.core)).phase - (s.cdie (dieOf e.team.core)).phdone < 16) :
    phcloseBody d u s e p =
      .done ((s.escapeTeam e.t).modCdie (dieOf e.team.core) fun c => { c with phase := (s.cdie (dieOf e.team.core)).phase + 1 })
        (({} : LaneRes).give d p (s.cdie (dieOf e.team.core)).phase) .result none := by
  have hdie : (s.escapeTeam e.t).cdie (dieOf e.team.core) = s.cdie (dieOf e.team.core) := rfl
  unfold phcloseBody
  simp only [if_neg hp, hcopy, hdie, decide_eq_false (Nat.not_le.2 hroom), Bool.or_self, Bool.false_eq_true, if_false]
  rfl

/-! ## Team barriers (R224) -/

theorem Team.arrive_zero (t : Team) (b w : Nat) : t.arrive b w 0 = t := rfl

/-- BAR.ARV of lanes that have not arrived in the generation, with no access of theirs left to an engine: they arrive. -/
theorem barArvBody_arrives {b : Nat} {u : Use} {s : State} {e : Ex} {p : Lanes} (hfree : s.releaseWaits e (lanesIn p) = false)
    (hnew : p &&& e.team.arrivedIn b e.w = 0) :
    barArvBody b u s e p = .done (s.modTeam e.t fun _ => (e.team.arrive b e.w p).closeGen b) {} .barrier none := by
  have hzero (m : Lanes) : 0 &&& m = 0 := BitVec.zero_and
  unfold barArvBody
  simp only [hfree, hnew, Lanes.and_not_zero, hzero, Team.arrive_zero, Team.closeGen_closeGen, Bool.false_eq_true,
    if_false, if_true]

theorem Team.arrive_waves (t : Team) (b w : Nat) (m : Lanes) : (t.arrive b w m).waves = t.waves := by
  unfold Team.arrive
  split
  · rfl
  · rfl

theorem Team.closeGen_waves (t : Team) (b : Nat) : (t.closeGen b).waves = t.waves := by
  unfold Team.closeGen
  split
  · rfl
  · rfl

/-- An instruction whose meaning answers at once and gives nothing has issued, in the wave that issued it. -/
theorem peelOp_issued {i : Instr} {body : Use → State → Ex → Lanes → Issue} {s t : State} {u : Use} {e : Ex} {kind : FlightKind}
    (h : Issues s i u e) (hpw : u.pw = []) (hbody : body u s e (e.parts u) = .done t {} kind none)
    (hwave : t.wave? e.t e.w = some e.wave) :
    ∃ t' w', peelOp i body s = .next t' ∧ Issued u e {} t t' e.wave w' := by
  obtain ⟨w', hissued⟩ := State.settle_issued (opc := i.opcode) h.toRuns t e.wave hwave rfl h.preds {} kind none rfl rfl
    (use_single i u h.use) none 0 (Or.inr (Or.inl ⟨rfl, rfl⟩)) (Or.inl (by simp [hpw])) {} rfl (fun _ _ => by simp) rfl rfl rfl
  refine ⟨_, w', ?_, hissued⟩
  rw [peelOp, issue_eq h, hbody]
  rfl

/-- The law of an instruction whose meaning answers at once, gives nothing and keeps the wave that issues. -/
theorem quiet_law {i : Instr} {body : Use → State → Ex → Lanes → Issue} {ok : State → Use → Ex → Prop}
    {g : State → Use → Ex → State} (kind : FlightKind) (hx : ∀ s, exec i s = peelOp i body s)
    (hpw : ∀ u, i.use = some u → u.pw = [])
    (hb : ∀ s u e, Issues s i u e → e.fresh u → ok s u e →
      body u s e (e.parts u) = .done (g s u e) {} kind none ∧ (g s u e).wave? e.t e.w = some e.wave) :
    EffectLaw i ok g fun _ _ _ => {} := by
  intro s u e h hf ho
  obtain ⟨hbody, hwave⟩ := hb s u e h hf ho
  obtain ⟨t, w', hnext, hissued⟩ := peelOp_issued h (hpw u h.use) hbody hwave
  exact ⟨t, e.wave, w', (hx s).trans hnext, hissued⟩

/-- Settles O30: each meaning answers at once where nothing holds it; what it changes beyond the wave (the phase of the die and the
lap's mark, R394; the conflict count, R318 and log 31; the barriers of the team) keeps the wave that issues. -/
theorem barrierWaits : Obligations.BarrierWaits := by
  refine ⟨fun x => ?_, fun x => ?_, fun x d => ?_, fun x => ?_, fun x s u e h hfree hnew => ?_⟩
  · refine done_law (fun s => (rfl : exec (.phclose x) s = execPhclose x s)) fun s u e h _ => ?_
    rintro ⟨hparts, hcopy, hroom⟩
    refine ⟨e.wave, _, .result, none, phcloseBody_closes hparts hcopy hroom, ?_, rfl, h.preds, ?_⟩
    · exact (s.wave?_escapeTeam e.t e.t e.w).trans h.wave?
    · cases h.use
      exact answers_give rfl rfl _
  · refine quiet_law (body := phwaitBody) .result (fun _ => rfl) (by rintro _ ⟨⟩; rfl) fun s u e h hf hin => ?_
    exact ⟨phwaitBody_reached h hf hin, h.wave?⟩
  · refine quiet_law (body := waitvBody x.t) .result (fun _ => rfl) (by rintro _ ⟨⟩; rfl) fun s u e h hf hread => ?_
    have hreads : ∀ k ∈ lanesIn (e.parts u), WaitvReads x.t u s e d k := fun k hk => by
      unfold WaitvReads
      rw [h.src_eq]
      exact hread k hk
    exact ⟨waitvBody_released h hf hreads, ((State.countConflict_calm s e.t _).wave? e.t e.w).trans h.wave?⟩
  · refine quiet_law (body := barWaitBody x.bar.val) .barrier (fun _ => rfl) (by rintro _ ⟨⟩; rfl) fun s u e h _ hnew => ?_
    exact ⟨if_pos hnew, h.wave?⟩
  · have hwave : (s.modTeam e.t fun _ => (e.team.arrive x.bar.val e.w (e.parts u)).closeGen x.bar.val).wave? e.t e.w =
        some e.wave := by
      simp [State.wave?, h.team, Team.closeGen_waves, Team.arrive_waves, h.wave]
    have hpw : u.pw = [] := by
      cases h.use
      rfl
    obtain ⟨t, w', hnext, hissued⟩ := peelOp_issued h hpw (barArvBody_arrives hfree hnew) hwave
    exact ⟨t, w', congrArg (withLaps s) hnext, hissued⟩

end Sys2Proof.Machine
end

