-- ==== Sys2Proof/Proofs/WordFields.lean ====
section
/-!
SUPPORT. The fields of an instruction word (R82 to R89, Tables 3.2 to 3.5): each field is read back from the word that holds it.
-/
namespace Sys2Proof

/-! ## Words and their fields -/

/-- The fields of a register form are in the ranges of Table 3.2. -/
structure RWord.Fits (r : RWord) : Prop where
  opc : r.opc < 1024
  stall : r.stall < 16
  flag : r.flag < 16
  d : r.d < 256
  a : r.a < 256
  b : r.b < 256
  c : r.c < 256
  guard : r.guard < 8
  gneg : r.gneg < 2
  mod : r.mod < 1024

/-- The fields of an I-form or L-form are in the ranges of Table 3.4. -/
structure IWord.Fits (r : IWord) : Prop where
  opc : r.opc < 1024
  stall : r.stall < 16
  flag : r.flag < 16
  d : r.d < 256
  a : r.a < 256
  imm : r.imm < 16777216
  guard : r.guard < 8
  gneg : r.gneg < 2
  size : r.size < 4

theorem RWord.word_div {r : RWord} (h : r.Fits) : r.word / 2 ^ 54 = r.opc := by
  obtain ⟨opc, stall, flag, d, a, b, c, guard, gneg, mod⟩ := h
  unfold RWord.word
  omega

theorem RWord.of_word {r : RWord} (h : r.Fits) : RWord.of r.word = r := by
  obtain ⟨opc, stall, flag, d, a, b, c, guard, gneg, mod⟩ := h
  unfold RWord.of RWord.word
  congr 1
  all_goals omega

/-- The register form with the same bits: IMM and SIZE stand where B, C and the modifier stand (Table 3.4). -/
def IWord.toR (r : IWord) : RWord :=
  { opc := r.opc, stall := r.stall, flag := r.flag, d := r.d, a := r.a, b := r.imm / 65536, c := r.imm / 256 % 256
    guard := r.guard, gneg := r.gneg, mod := r.imm % 256 * 4 + r.size }

/-- The I-form with the bits of a register form. -/
def RWord.toI (q : RWord) : IWord :=
  { opc := q.opc, stall := q.stall, flag := q.flag, d := q.d, a := q.a, imm := (q.b * 256 + q.c) * 256 + q.mod / 4
    guard := q.guard, gneg := q.gneg, size := q.mod % 4 }

theorem IWord.toR_word (r : IWord) : r.toR.word = r.word := by
  simp only [IWord.toR, RWord.word, IWord.word]
  omega

theorem IWord.of_eq_toI (w : Nat) : IWord.of w = (RWord.of w).toI := by
  simp only [IWord.of, RWord.of, RWord.toI, IWord.mk.injEq, true_and]
  omega

theorem IWord.toR_fits {r : IWord} (h : r.Fits) : r.toR.Fits := by
  obtain ⟨opc, stall, flag, d, a, imm, guard, gneg, size⟩ := h
  exact ⟨opc, stall, flag, d, a, by simp only [IWord.toR]; omega, by simp only [IWord.toR]; omega, guard, gneg,
    by simp only [IWord.toR]; omega⟩

theorem IWord.toI_toR {r : IWord} (h : r.size < 4) : r.toR.toI = r := by
  unfold IWord.toR RWord.toI
  congr 1
  all_goals dsimp only; omega

theorem IWord.word_div {r : IWord} (h : r.Fits) : r.word / 2 ^ 54 = r.opc := by
  rw [← r.toR_word]
  exact RWord.word_div (IWord.toR_fits h)

theorem IWord.of_word {r : IWord} (h : r.Fits) : IWord.of r.word = r := by
  rw [IWord.of_eq_toI, ← r.toR_word, RWord.of_word (IWord.toR_fits h), IWord.toI_toR h.size]

/-! ## Fields and what they hold -/

theorem bit_lt (b : Bool) : bit b < 2 := by
  cases b
  · exact Nat.zero_lt_two
  · exact Nat.one_lt_two

@[simp] theorem toBit_bit (b : Bool) : toBit (bit b) = b := by
  cases b
  · rfl
  · rfl

theorem encFlag_lt (f : Option (Fin 12)) : encFlag f < 16 := by
  cases f with
  | none => decide
  | some f => simp only [encFlag]; omega

@[simp] theorem decFlag_encFlag (f : Option (Fin 12)) : decFlag (encFlag f) = f := by
  cases f with
  | none => rfl
  | some f => exact dif_pos f.isLt

theorem toBit_eq {n : Nat} {b : Bool} (h : n % 2 = bit b) : toBit n = b := by
  cases b <;> simp [toBit, h, bit]

theorem finOfNat_eq {n v : Nat} [NeZero n] {i : Fin n} (h : v % n = i.val) : Fin.ofNat n v = i := Fin.ext h

theorem finOfNat_val {n : Nat} [NeZero n] (i : Fin n) : Fin.ofNat n i.val = i := finOfNat_eq (Nat.mod_eq_of_lt i.isLt)

theorem Src.enc_lt (s : Src) : s.enc < 256 := by
  have := bit_lt s.lu
  have := bit_lt s.uni
  unfold Src.enc
  omega

@[simp] theorem Src.dec_enc (s : Src) : Src.dec s.enc = s := by
  have := bit_lt s.lu
  have := bit_lt s.uni
  unfold Src.dec Src.enc
  rw [toBit_eq (b := s.lu) (by omega), toBit_eq (b := s.uni) (by omega), finOfNat_eq (i := s.idx) (by omega)]

theorem USrc.enc_lt (s : USrc) : s.enc < 256 := by
  have := bit_lt s.lu
  unfold USrc.enc
  omega

@[simp] theorem USrc.dec_enc (s : USrc) : USrc.dec s.enc = s := by
  have := bit_lt s.lu
  unfold USrc.dec USrc.enc
  rw [toBit_eq (b := s.lu) (by omega), finOfNat_eq (i := s.idx) (by omega)]

theorem VSrc.enc_lt (s : VSrc) : s.enc < 256 := by
  have := bit_lt s.lu
  unfold VSrc.enc
  omega

@[simp] theorem VSrc.dec_enc (s : VSrc) : VSrc.dec s.enc = s := by
  have := bit_lt s.lu
  unfold VSrc.dec VSrc.enc
  rw [toBit_eq (b := s.lu) (by omega), finOfNat_eq (i := s.idx) (by omega)]

theorem Dst.enc_lt (d : Dst) : d.enc < 256 := by
  have := bit_lt d.uni
  unfold Dst.enc
  omega

@[simp] theorem Dst.dec_enc (d : Dst) : Dst.dec d.enc = d := by
  have := bit_lt d.uni
  unfold Dst.dec Dst.enc
  rw [toBit_eq (b := d.uni) (by omega), finOfNat_eq (i := d.idx) (by omega)]

theorem encOff_lt (s : Option USrc) : encOff s < 256 := by
  cases s with
  | none => decide
  | some s => exact s.enc_lt

/-- An offset register under its BOFF bit (R205). -/
@[simp] theorem offset_encOff (s : Option USrc) : (if s.isSome then some (USrc.dec (encOff s)) else none) = s := by
  cases s with
  | none => rfl
  | some s => exact congrArg some s.dec_enc

theorem encIdx_lt (i : Option (Fin 64)) : encIdx i < 64 := by
  cases i with
  | none => decide
  | some i => exact i.isLt

/-- An index under the bit that says that it is there. -/
@[simp] theorem index_encIdx (i : Option (Fin 64)) : (if i.isSome then some (Fin.ofNat 64 (encIdx i)) else none) = i := by
  cases i with
  | none => rfl
  | some i => exact congrArg some (finOfNat_val i)

theorem encOpt_lt (s : Option Src) : encOpt s < 256 := by
  cases s with
  | none => decide
  | some s => exact s.enc_lt

/-- LWAIT's source, none for .ALL. -/
@[simp] theorem unlessNone_encOff (s : Option USrc) : (if s = none then none else some (USrc.dec (encOff s))) = s := by
  cases s with
  | none => rfl
  | some s => exact congrArg some s.dec_enc

/-- CCTL's address, which the operation 1 does not name. -/
theorem address_encOpt {op : Nat} {s : Option Src} (h : s.isSome = (op != 1)) :
    (if op = 1 then none else some (Src.dec (encOpt s))) = s := by
  cases s with
  | none => simpa using h
  | some s => simpa [encOpt] using h

/-- The index below a class bit that stands at its place. -/
theorem finOfNat_add (i : Fin 64) {n : Nat} (h : n % 64 = 0) : Fin.ofNat 64 (n + i.val) = i := finOfNat_eq (by omega)

/-! ## Codes (Tables 3.3 to 7.5) -/

theorem ITy.code_lt (x : ITy) : x.code < 16 := by cases x <;> decide
@[simp] theorem ITy.ofCode_code (x : ITy) : ITy.ofCode x.code = some x := by cases x <;> rfl

theorem FTy.code_lt (x : FTy) : x.code < 16 := by cases x <;> decide
@[simp] theorem FTy.ofCode_code (x : FTy) : FTy.ofCode x.code = some x := by cases x <;> rfl

theorem ISize.code_lt (x : ISize) : x.code < 4 := by cases x <;> decide
@[simp] theorem ISize.ofCode_code (x : ISize) : ISize.ofCode x.code = some x := by cases x <;> rfl

theorem RM.code_lt (x : RM) : x.code < 8 := by cases x <;> decide
@[simp] theorem RM.ofCode_code (x : RM) : RM.ofCode x.code = some x := by cases x <;> rfl

theorem Ovf.code_lt (x : Ovf) : x.code < 4 := by cases x <;> decide
@[simp] theorem Ovf.ofCode_code (x : Ovf) : Ovf.ofCode x.code = some x := by cases x <;> rfl

theorem Sgn.code_lt (x : Sgn) : x.code < 4 := by cases x <;> decide
@[simp] theorem Sgn.ofCode_code (x : Sgn) : Sgn.ofCode x.code = some x := by cases x <;> rfl

theorem Rel.code_lt (x : Rel) : x.code < 8 := by cases x <;> decide
@[simp] theorem Rel.ofCode_code (x : Rel) : Rel.ofCode x.code = some x := by cases x <;> rfl

theorem Scope.code_lt (x : Scope) : x.code < 8 := by cases x <;> decide
@[simp] theorem Scope.ofCode_code (x : Scope) : Scope.ofCode x.code = some x := by cases x <;> rfl

theorem Ord.code_lt (x : Ord) : x.code < 4 := by cases x <;> decide
@[simp] theorem Ord.ofCode_code (x : Ord) : Ord.ofCode x.code = some x := by cases x <;> rfl

theorem SReg.code_lt (r : SReg) : r.code < 16 := by cases r <;> decide
@[simp] theorem SReg.ofCode_code (r : SReg) : SReg.ofCode r.code = some r := by cases r <;> rfl

theorem AtomOp.code_lt (x : AtomOp) : x.code < 16 := by cases x <;> decide
@[simp] theorem AtomOp.ofCode_code (x : AtomOp) : AtomOp.ofCode x.code = some x := by cases x <;> rfl

theorem XMode.code_lt (x : XMode) : x.code < 4 := by cases x <;> decide
@[simp] theorem XMode.ofCode_code (x : XMode) : XMode.ofCode x.code = some x := by cases x <;> rfl

theorem VMode.code_lt (x : VMode) : x.code < 4 := by cases x <;> decide
@[simp] theorem VMode.ofCode_code (x : VMode) : VMode.ofCode x.code = some x := by cases x <;> rfl

theorem MShape.code_lt (x : MShape) : x.code < 4 := by cases x <;> decide
@[simp] theorem MShape.ofCode_code (x : MShape) : MShape.ofCode x.code = some x := by cases x <;> rfl

theorem RetMode.code_lt (x : RetMode) : x.code < 4 := by cases x <;> decide
@[simp] theorem RetMode.ofCode_code (x : RetMode) : RetMode.ofCode x.code = some x := by cases x <;> rfl

theorem ShSel.code_lt (x : ShSel) : x.code < 4 := by cases x <;> decide
@[simp] theorem ShSel.ofCode_code (x : ShSel) : ShSel.ofCode x.code = some x := by cases x <;> rfl

theorem RedOp.code_lt (x : RedOp) : x.code < 16 := by cases x <;> decide
@[simp] theorem RedOp.ofCode_code (x : RedOp) : RedOp.ofCode x.code = some x := by cases x <;> rfl

theorem NTy.code_lt (t : NTy) : t.code < 32 := by
  cases t with
  | int t => exact Nat.add_lt_add_left t.code_lt 16
  | flt t => exact Nat.lt_trans t.code_lt (by decide)

@[simp] theorem NTy.ofCode_code (t : NTy) : NTy.ofCode t.code = some t := by
  cases t with
  | int t => simp [NTy.ofCode, NTy.code]
  | flt t => simp [NTy.ofCode, NTy.code, t.code_lt]

/-- The column that the operation of REDUX or SCAN names is that of its type (R201). -/
theorem redTy_code {op : RedOp} {t : NTy} (h : redOk op t = true) : redTy op (t.code % 16) = some t := by
  cases t with
  | int t =>
    have ht : NTy.code (.int t) % 16 = t.code := (Nat.add_mod_left 16 t.code).trans (Nat.mod_eq_of_lt t.code_lt)
    rw [ht]
    cases op with
    | fadd | fmin | fmax => cases h
    | _ => simp [redTy]
  | flt t =>
    have ht : NTy.code (.flt t) % 16 = t.code := Nat.mod_eq_of_lt t.code_lt
    rw [ht]
    cases op with
    | fadd | fmin | fmax => simp [redTy]
    | _ => cases h

/-- SIZE names the type in the group `g` (Table 3.5). -/
structure FTy.Sized (g : Nat) (t : FTy) : Prop where
  lt : t.size < 4
  ofSize : FTy.ofSize g t.size = some t

theorem FTy.sized_of_half {t : FTy} (h : t.half = true) : FTy.Sized 1 t := by
  cases t with
  | f32 | f16 | bf16 => exact ⟨by decide, rfl⟩
  | _ => cases h

theorem FTy.sized_of_f64 {t : FTy} (h : (t == .f64) = true) : FTy.Sized 2 t := by
  obtain rfl := eq_of_beq h
  exact ⟨by decide, rfl⟩

theorem ITy.accSize_lt (t : ITy) : t.accSize < 4 := by cases t <;> decide

theorem ITy.ofAccSize_accSize {t : ITy} (h : t.accTy = true) : ITy.ofAccSize t.accSize = some t := by
  cases t with
  | b32 | b64 | b128 => rfl
  | _ => cases h

theorem encTb_lt (t : Option FTy) : encTb t < 4 := by
  cases t with
  | none => decide
  | some t => cases t <;> decide

theorem decTb_encTb {t : Option FTy} (h : (t == none || t == some .e4 || t == some .e5) = true) : decTb (encTb t) = some t := by
  simp only [Bool.or_eq_true, beq_iff_eq] at h
  rcases h with (rfl | rfl) | rfl <;> rfl

end Sys2Proof
end

