-- ==== Sys2Proof/Proofs/WordFormats.lean ====
section
/-!
SUPPORT. The operands of every format are read back from its word.
-/
namespace Sys2Proof

/-- The word `w` has the opcode `o`, and `read` reads `x` from it. -/
structure Reads {α : Type} (w o : Nat) (read : Nat → Option α) (x : α) : Prop where
  opc : w / 2 ^ 54 = o
  val : read w = some x

/-- The word of a register form reads as `x`. -/
def RWord.Reads {α : Type} (r : RWord) (o : Nat) (dec : RWord → Option α) (x : α) : Prop :=
  Sys2Proof.Reads r.word o (fun w => dec (RWord.of w)) x

/-- The word of an I-form or L-form reads as `x`. -/
def IWord.Reads {α : Type} (r : IWord) (o : Nat) (dec : IWord → Option α) (x : α) : Prop :=
  Sys2Proof.Reads r.word o (fun w => dec (IWord.of w)) x

theorem RWord.Fits.reads {α : Type} {r : RWord} {dec : RWord → Option α} {x : α} (h : r.Fits) (hd : dec r = some x) :
    r.Reads r.opc dec x :=
  ⟨RWord.word_div h, (congrArg dec (RWord.of_word h)).trans hd⟩

theorem IWord.Fits.reads {α : Type} {r : IWord} {dec : IWord → Option α} {x : α} (h : r.Fits) (hd : dec r = some x) :
    r.Reads r.opc dec x :=
  ⟨IWord.word_div h, (congrArg dec (IWord.of_word h)).trans hd⟩

theorem Hdr.fitsR (h : Hdr) {o d a b c m : Nat} (ho : o < 1024) (hd : d < 256) (ha : a < 256) (hb : b < 256) (hc : c < 256)
    (hm : m < 1024) :
    RWord.Fits { opc := o, stall := h.stall.val, flag := encFlag h.flag, d := d, a := a, b := b, c := c
                 guard := h.guard.val, gneg := bit h.gneg, mod := m } :=
  ⟨ho, h.stall.isLt, encFlag_lt _, hd, ha, hb, hc, h.guard.isLt, bit_lt _, hm⟩

theorem Hdr.fitsI (h : Hdr) {o d a m z : Nat} (ho : o < 1024) (hd : d < 256) (ha : a < 256) (hm : m < 16777216) (hz : z < 4) :
    IWord.Fits { opc := o, stall := h.stall.val, flag := encFlag h.flag, d := d, a := a, imm := m
                 guard := h.guard.val, gneg := bit h.gneg, size := z } :=
  ⟨ho, h.stall.isLt, encFlag_lt _, hd, ha, hm, h.guard.isLt, bit_lt _, hz⟩

@[simp] theorem RWord.hdr_mk (h : Hdr) (o d a b c m : Nat) :
    RWord.hdr { opc := o, stall := h.stall.val, flag := encFlag h.flag, d := d, a := a, b := b, c := c
                guard := h.guard.val, gneg := bit h.gneg, mod := m } = h := by
  simp [RWord.hdr]

@[simp] theorem IWord.hdr_mk (h : Hdr) (o d a m z : Nat) :
    IWord.hdr { opc := o, stall := h.stall.val, flag := encFlag h.flag, d := d, a := a, imm := m
                guard := h.guard.val, gneg := bit h.gneg, size := z } = h := by
  simp [IWord.hdr]

theorem digit_mod {A d q m : Nat} (h : q % m = 0) : (A + d * q) % m = A % m := by
  obtain ⟨c, rfl⟩ := Nat.dvd_of_mod_eq_zero h
  rw [Nat.mul_left_comm, Nat.add_mul_mod_self_left]

theorem digit_div {A d q p : Nat} (hp : 0 < p) (h : q % p = 0) : (A + d * q) / p = A / p + d * (q / p) := by
  obtain ⟨c, rfl⟩ := Nat.dvd_of_mod_eq_zero h
  rw [Nat.mul_left_comm, Nat.add_mul_div_left _ _ hp, Nat.mul_div_cancel_left _ hp]

theorem toBit_digit {A d q : Nat} (h : q % 2 = 0) : toBit (A + d * q) = toBit A := by
  unfold toBit
  rw [digit_mod h]

theorem toBit_wide (b : Bool) : toBit (8 + bit b) = b := toBit_eq (by have := bit_lt b; omega)

theorem toBit_twice (b : Bool) : toBit (bit b * 3) = b := toBit_eq (by have := bit_lt b; omega)

/-! ## The formats -/

section
variable {o : Nat}

theorem encInt1_reads (ho : o < 1024) (x : Int1) : (encInt1 o x).Reads o decInt1 x := by
  have := x.t.code_lt
  have := bit_lt x.sat
  refine RWord.Fits.reads (x.h.fitsR ho x.d.enc_lt x.a.enc_lt (by decide) (by decide) (by omega)) ?_
  simp (disch := omega) [decInt1, encInt1, digit_div, Nat.div_eq_of_lt, Nat.mod_eq_of_lt]

theorem encInt2_reads (ho : o < 1024) (x : Int2) : (encInt2 o x).Reads o decInt2 x := by
  have := x.t.code_lt
  have := bit_lt x.sat
  refine RWord.Fits.reads (x.h.fitsR ho x.d.enc_lt x.a.enc_lt x.b.enc_lt (by decide) (by omega)) ?_
  simp (disch := omega) [decInt2, encInt2, digit_div, Nat.div_eq_of_lt, Nat.mod_eq_of_lt]

theorem encInt3_reads (ho : o < 1024) (x : Int3) : (encInt3 o x).Reads o decInt3 x := by
  have := x.t.code_lt
  have := bit_lt x.sat
  refine RWord.Fits.reads (x.h.fitsR ho x.d.enc_lt x.a.enc_lt x.b.enc_lt x.c.enc_lt (by omega)) ?_
  simp (disch := omega) [decInt3, encInt3, digit_div, Nat.div_eq_of_lt, Nat.mod_eq_of_lt]

theorem encIntI_reads (ho : o < 1024) (x : IntI) : (encIntI o x).Reads o decIntI x := by
  have := x.sz.code_lt
  refine IWord.Fits.reads (x.h.fitsI ho x.d.enc_lt x.a.enc_lt x.imm.isLt x.sz.code_lt) ?_
  simp (disch := omega) [decIntI, encIntI]

theorem encIntL_reads (ho : o < 1024) (x : IntL) : (encIntL o x).Reads o (decIntL · x.k) x := by
  have := x.sz.code_lt
  refine IWord.Fits.reads (x.h.fitsI ho x.d.enc_lt x.a.enc_lt (by decide) x.sz.code_lt) ?_
  simp (disch := omega) [decIntL, encIntL]

theorem encAddc_reads (ho : o < 1024) (x : Addc) : (encAddc o x).Reads o decAddc x := by
  have := x.t.code_lt
  refine RWord.Fits.reads (x.h.fitsR ho x.d.enc_lt x.a.enc_lt x.b.enc_lt (by omega) (by omega)) ?_
  simp (disch := omega) [decAddc, encAddc, digit_div, Nat.div_eq_of_lt, Nat.mod_eq_of_lt]

theorem encUn_reads (ho : o < 1024) (x : Un) : (encUn o x).Reads o decUn x := by
  have := x.t.code_lt
  refine RWord.Fits.reads (x.h.fitsR ho x.d.enc_lt x.a.enc_lt (by decide) (by decide) (by omega)) ?_
  simp (disch := omega) [decUn, encUn, Nat.mod_eq_of_lt]

theorem encBin_reads (ho : o < 1024) (x : Bin) : (encBin o x).Reads o decBin x := by
  have := x.t.code_lt
  refine RWord.Fits.reads (x.h.fitsR ho x.d.enc_lt x.a.enc_lt x.b.enc_lt (by decide) (by omega)) ?_
  simp (disch := omega) [decBin, encBin, Nat.mod_eq_of_lt]

theorem encTern_reads (ho : o < 1024) (x : Tern) : (encTern o x).Reads o decTern x := by
  have := x.t.code_lt
  refine RWord.Fits.reads (x.h.fitsR ho x.d.enc_lt x.a.enc_lt x.b.enc_lt x.c.enc_lt (by omega)) ?_
  simp (disch := omega) [decTern, encTern, Nat.mod_eq_of_lt]

theorem encCmp_reads (ho : o < 1024) (x : Cmp) : (encCmp o x).Reads o decCmp x := by
  have := x.t.code_lt
  have := x.rel.code_lt
  refine RWord.Fits.reads (x.h.fitsR ho (by omega) x.a.enc_lt x.b.enc_lt (by decide) (by omega)) ?_
  simp (disch := omega) [decCmp, encCmp, digit_div, Nat.div_eq_of_lt, Nat.mod_eq_of_lt]

theorem encCmpI_reads (ho : o + 8 ≤ 1024) (x : CmpI) : (encCmpI o x).Reads (o + x.rel.code) (decCmpI o) x := by
  have := x.sz.code_lt
  have := x.rel.code_lt
  refine IWord.Fits.reads (x.h.fitsI (by omega) (by omega) x.a.enc_lt x.imm.isLt x.sz.code_lt) ?_
  simp (disch := omega) [decCmpI, encCmpI, Nat.mod_eq_of_lt]

theorem encCmpL_reads (ho : o + 8 ≤ 1024) (x : CmpL) : (encCmpL o x).Reads (o + x.rel.code) (decCmpL o · x.k) x := by
  have := x.sz.code_lt
  have := x.rel.code_lt
  refine IWord.Fits.reads (x.h.fitsI (by omega) (by omega) x.a.enc_lt (by decide) x.sz.code_lt) ?_
  simp (disch := omega) [decCmpL, encCmpL, Nat.mod_eq_of_lt]

theorem encLogt_reads (ho : o < 1024) (x : Logt) : (encLogt o x).Reads o decLogt x := by
  have := bit_lt x.wide
  refine RWord.Fits.reads (x.h.fitsR ho x.d.enc_lt x.a.enc_lt x.b.enc_lt x.c.enc_lt (by omega)) ?_
  simp (disch := omega) [decLogt, encLogt, digit_div, Nat.div_eq_of_lt, Nat.mod_eq_of_lt]

theorem encBysel_reads (ho : o < 1024) (x : Bysel) : (encBysel o x).Reads o decBysel x := by
  refine RWord.Fits.reads (x.h.fitsR ho x.d.enc_lt x.a.enc_lt x.b.enc_lt x.c.enc_lt (by decide)) ?_
  simp (disch := omega) [decBysel, encBysel, Nat.mod_eq_of_lt]

theorem encByselI_reads (ho : o < 1024) (x : ByselI) : (encByselI o x).Reads o decByselI x := by
  refine IWord.Fits.reads (x.h.fitsI ho x.d.enc_lt x.a.enc_lt x.imm.isLt (by decide)) ?_
  simp (disch := omega) [decByselI, encByselI]

theorem encByselL_reads (ho : o < 1024) (x : ByselL) : (encByselL o x).Reads o (decByselL · x.k) x := by
  refine IWord.Fits.reads (x.h.fitsI ho x.d.enc_lt x.a.enc_lt (by decide) (by decide)) ?_
  simp (disch := omega) [decByselL, encByselL]

theorem encLea_reads (ho : o < 1024) (x : Lea) : (encLea o x).Reads o decLea x := by
  have := x.t.code_lt
  refine RWord.Fits.reads (x.h.fitsR ho x.d.enc_lt x.a.enc_lt x.b.enc_lt (by decide) (by omega)) ?_
  simp (disch := omega) [decLea, encLea, digit_div, Nat.div_eq_of_lt, Nat.mod_eq_of_lt]

theorem encMovI_reads (ho : o < 1024) (x : MovI) : (encMovI o x).Reads o decMovI x := by
  have := x.sz.code_lt
  refine IWord.Fits.reads (x.h.fitsI ho x.d.enc_lt (by decide) x.imm.isLt x.sz.code_lt) ?_
  simp (disch := omega) [decMovI, encMovI]

theorem encMovL_reads (ho : o < 1024) (x : MovL) : (encMovL o x).Reads o (decMovL · x.k) x := by
  have := x.sz.code_lt
  refine IWord.Fits.reads (x.h.fitsI ho x.d.enc_lt (by decide) (by decide) x.sz.code_lt) ?_
  simp (disch := omega) [decMovL, encMovL]

theorem encSelOp_reads (ho : o < 1024) (x : SelOp) : (encSelOp o x).Reads o decSelOp x := by
  have := x.t.code_lt
  refine RWord.Fits.reads (x.h.fitsR ho x.d.enc_lt x.a.enc_lt x.b.enc_lt (by omega) (by omega)) ?_
  simp (disch := omega) [decSelOp, encSelOp, Nat.mod_eq_of_lt]

theorem encPlop_reads (ho : o < 1024) (x : Plop) : (encPlop o x).Reads o decPlop x := by
  refine RWord.Fits.reads (x.h.fitsR ho (by omega) (by omega) (by omega) (by omega) (by omega)) ?_
  simp (disch := omega) [decPlop, encPlop, Nat.mod_eq_of_lt]

theorem encMovS_reads (ho : o < 1024) (x : MovS) : (encMovS o x).Reads o decMovS x := by
  have := x.sr.code_lt
  have := bit_lt x.wide
  refine RWord.Fits.reads (x.h.fitsR ho x.d.enc_lt (by omega) (by decide) (by decide) (by omega)) ?_
  simp (disch := omega) [decMovS, encMovS, toBit_wide]

theorem encFBin_reads (ho : o < 1024) (x : FBin) : (encFBin o x).Reads o decFBin x := by
  have := x.t.code_lt
  have := x.rm.code_lt
  have := x.sgn.code_lt
  have := bit_lt x.ftz
  refine RWord.Fits.reads (x.h.fitsR ho x.d.enc_lt x.a.enc_lt x.b.enc_lt (by decide) (by omega)) ?_
  simp (disch := omega) [decFBin, encFBin, digit_mod, digit_div, Nat.div_eq_of_lt, Nat.mod_eq_of_lt]

theorem encFUn_reads (ho : o < 1024) (x : FUn) : (encFUn o x).Reads o decFUn x := by
  have := x.t.code_lt
  have := x.rm.code_lt
  have := x.sgn.code_lt
  have := bit_lt x.ftz
  refine RWord.Fits.reads (x.h.fitsR ho x.d.enc_lt x.a.enc_lt (by decide) (by decide) (by omega)) ?_
  simp (disch := omega) [decFUn, encFUn, digit_mod, digit_div, Nat.div_eq_of_lt, Nat.mod_eq_of_lt]

theorem encFTern_reads (ho : o < 1024) (x : FTern) : (encFTern o x).Reads o decFTern x := by
  have := x.t.code_lt
  have := x.rm.code_lt
  have := x.sgn.code_lt
  have := bit_lt x.ftz
  refine RWord.Fits.reads (x.h.fitsR ho x.d.enc_lt x.a.enc_lt x.b.enc_lt x.c.enc_lt (by omega)) ?_
  simp (disch := omega) [decFTern, encFTern, digit_mod, digit_div, Nat.div_eq_of_lt, Nat.mod_eq_of_lt]

theorem encFMM_reads (ho : o < 1024) (x : FMM) : (encFMM o x).Reads o decFMM x := by
  have := x.t.code_lt
  have := x.sgn.code_lt
  have := bit_lt x.prop
  have := bit_lt x.ftz
  refine RWord.Fits.reads (x.h.fitsR ho x.d.enc_lt x.a.enc_lt x.b.enc_lt (by decide) (by omega)) ?_
  simp (disch := omega) [decFMM, encFMM, digit_mod, digit_div, Nat.div_eq_of_lt, Nat.mod_eq_of_lt]

theorem encFCmp_reads (ho : o < 1024) (x : FCmp) : (encFCmp o x).Reads o decFCmp x := by
  have := x.t.code_lt
  have := x.rel.code_lt
  have := x.sgn.code_lt
  have := bit_lt x.ftz
  refine RWord.Fits.reads (x.h.fitsR ho (by omega) x.a.enc_lt x.b.enc_lt (by decide) (by omega)) ?_
  simp (disch := omega) [decFCmp, encFCmp, digit_mod, digit_div, Nat.div_eq_of_lt, Nat.mod_eq_of_lt]

theorem encFCls_reads (ho : o < 1024) (x : FCls) : (encFCls o x).Reads o decFCls x := by
  have := x.t.code_lt
  refine RWord.Fits.reads (x.h.fitsR ho x.d.enc_lt x.a.enc_lt (by decide) (by decide) (by omega)) ?_
  simp (disch := omega) [decFCls, encFCls, Nat.mod_eq_of_lt]

theorem encFI_reads (ho : o < 1024) (x : FI) (ht : FTy.Sized (o / 128) x.t) : (encFI o x).Reads o decFI x := by
  refine IWord.Fits.reads (x.h.fitsI ho x.d.enc_lt x.a.enc_lt x.imm.isLt ht.lt) ?_
  simp (disch := omega) [decFI, encFI, ht.ofSize]

theorem encFL_reads (ho : o < 1024) (x : FL) (ht : FTy.Sized (o / 128) x.t) : (encFL o x).Reads o (decFL · x.k) x := by
  refine IWord.Fits.reads (x.h.fitsI ho x.d.enc_lt x.a.enc_lt (by decide) ht.lt) ?_
  simp (disch := omega) [decFL, encFL, ht.ofSize]

theorem encFCmpI_reads (ho : o + 8 ≤ 1024) (x : FCmpI) (ht : FTy.Sized ((o + x.rel.code) / 128) x.t) :
    (encFCmpI o x).Reads (o + x.rel.code) (decFCmpI o) x := by
  have := x.rel.code_lt
  refine IWord.Fits.reads (x.h.fitsI (by omega) (by omega) x.a.enc_lt x.imm.isLt ht.lt) ?_
  simp (disch := omega) [decFCmpI, encFCmpI, Nat.mod_eq_of_lt, ht.ofSize]

theorem encFCmpL_reads (ho : o + 8 ≤ 1024) (x : FCmpL) (ht : FTy.Sized ((o + x.rel.code) / 128) x.t) :
    (encFCmpL o x).Reads (o + x.rel.code) (decFCmpL o · x.k) x := by
  have := x.rel.code_lt
  refine IWord.Fits.reads (x.h.fitsI (by omega) (by omega) x.a.enc_lt (by decide) ht.lt) ?_
  simp (disch := omega) [decFCmpL, encFCmpL, Nat.mod_eq_of_lt, ht.ofSize]

theorem encDot2_reads (ho : o < 1024) (x : Dot2) : (encDot2 o x).Reads o decDot2 x := by
  have := x.t.code_lt
  have := x.rm.code_lt
  have := bit_lt x.ftz
  refine RWord.Fits.reads (x.h.fitsR ho x.d.enc_lt x.a.enc_lt x.b.enc_lt x.c.enc_lt (by omega)) ?_
  simp (disch := omega) [decDot2, encDot2, digit_mod, digit_div, Nat.div_eq_of_lt, Nat.mod_eq_of_lt]

theorem encDot4_reads (ho : o < 1024) (x : Dot4) (ht : (x.tb == none || x.tb == some .e4 || x.tb == some .e5) = true) :
    (encDot4 o x).Reads o decDot4 x := by
  have := x.ta.code_lt
  have := x.rm.code_lt
  have := bit_lt x.ftz
  have := encTb_lt x.tb
  refine RWord.Fits.reads (x.h.fitsR ho x.d.enc_lt x.a.enc_lt x.b.enc_lt x.c.enc_lt (by omega)) ?_
  simp (disch := omega) [decDot4, encDot4, digit_mod, digit_div, Nat.div_eq_of_lt, Nat.mod_eq_of_lt, decTb_encTb ht]

theorem encCvt_reads (ho : o < 1024) (x : Cvt) : (encCvt o x).Reads o decCvt x := by
  have := x.ts.code_lt
  have := bit_lt x.ftz
  have := x.td.code_lt
  have := x.rm.code_lt
  have := x.ovf.code_lt
  refine RWord.Fits.reads (x.h.fitsR ho x.d.enc_lt x.a.enc_lt (by omega) (by decide) (by omega)) ?_
  simp (disch := omega) [decCvt, encCvt, digit_mod, digit_div, Nat.div_eq_of_lt, Nat.mod_eq_of_lt]

theorem encLxch_reads (ho : o < 1024) (x : Lxch) : (encLxch o x).Reads o decLxch x := by
  have := x.mode.code_lt
  have := bit_lt x.wide
  refine RWord.Fits.reads (x.h.fitsR ho x.d.enc_lt x.a.enc_lt x.b.enc_lt (by decide) (by omega)) ?_
  simp (disch := omega) [decLxch, encLxch, digit_div, Nat.div_eq_of_lt, Nat.mod_eq_of_lt, toBit_wide, toBit_digit]

theorem encLxchI_reads (ho : o < 1024) (x : LxchI) : (encLxchI o x).Reads o decLxchI x := by
  have := x.mode.code_lt
  have := bit_lt x.wide
  have sel : BitVec.ofNat 5 (x.sel.toNat + x.mode.code * 32 + x.seg.val * 128 + bit x.wide * 512) = x.sel :=
    BitVec.eq_of_toNat_eq (by rw [BitVec.toNat_ofNat]; omega)
  refine IWord.Fits.reads (x.h.fitsI ho x.d.enc_lt x.a.enc_lt (by omega) (by decide)) ?_
  simp (disch := omega) [decLxchI, encLxchI, digit_mod, digit_div, Nat.div_eq_of_lt, Nat.mod_eq_of_lt, sel]

theorem encVote_reads (ho : o < 1024) (x : Vote) : (encVote o x).Reads o decVote x := by
  have := x.mode.code_lt
  refine RWord.Fits.reads (x.h.fitsR ho (by omega) (by omega) (by decide) (by decide) (by omega)) ?_
  simp (disch := omega) [decVote, encVote, Nat.mod_eq_of_lt]

theorem encBallot_reads (ho : o < 1024) (x : Ballot) : (encBallot o x).Reads o decBallot x := by
  refine RWord.Fits.reads (x.h.fitsR ho x.d.enc_lt (by omega) (by decide) (by decide) (by decide)) ?_
  simp (disch := omega) [decBallot, encBallot]

theorem encRedux_reads (ho : o < 1024) (x : Redux) (ht : redOk x.op x.t = true) : (encRedux o x).Reads o decRedux x := by
  have := x.op.code_lt
  have := x.t.code_lt
  refine RWord.Fits.reads (x.h.fitsR ho x.d.enc_lt x.a.enc_lt (by decide) (by decide) (by omega)) ?_
  simp (disch := omega) [decRedux, encRedux, digit_div, Nat.div_eq_of_lt, Nat.mod_eq_of_lt, redTy_code ht,
    Nat.add_comm (x.op.code * 16)]

theorem encScanOp_reads (ho : o < 1024) (x : ScanOp) (ht : redOk x.op x.t = true) : (encScanOp o x).Reads o decScanOp x := by
  have := x.op.code_lt
  have := x.t.code_lt
  have := bit_lt x.exc
  refine RWord.Fits.reads (x.h.fitsR ho x.d.enc_lt x.a.enc_lt (by decide) (by decide) (by omega)) ?_
  simp (disch := omega) [decScanOp, encScanOp, digit_mod, digit_div, Nat.div_eq_of_lt, Nat.mod_eq_of_lt,
    redTy_code ht, Nat.add_comm (x.op.code * 16)]

theorem encMatchOp_reads (ho : o < 1024) (x : MatchOp) : (encMatchOp o x).Reads o decMatchOp x := by
  have := bit_lt x.wide
  have := bit_lt x.unif
  refine RWord.Fits.reads (x.h.fitsR ho x.d.enc_lt x.a.enc_lt (by decide) (by decide) (by omega)) ?_
  simp (disch := omega) [decMatchOp, encMatchOp, digit_div, Nat.div_eq_of_lt, Nat.mod_eq_of_lt, toBit_wide, toBit_digit]

theorem encQblk_reads (ho : o < 1024) (x : Qblk) : (encQblk o x).Reads o decQblk x := by
  have := x.rm.code_lt
  have := x.ovf.code_lt
  refine RWord.Fits.reads (x.h.fitsR ho (by omega) x.a.enc_lt x.b.enc_lt x.c.enc_lt (by omega)) ?_
  simp (disch := omega) [decQblk, encQblk, digit_div, Nat.div_eq_of_lt, Nat.mod_eq_of_lt]

theorem encQunpk_reads (ho : o < 1024) (x : Qunpk) : (encQunpk o x).Reads o decQunpk x := by
  have := x.rm.code_lt
  refine RWord.Fits.reads (x.h.fitsR ho (by omega) x.a.enc_lt (by decide) (by decide) (by omega)) ?_
  simp (disch := omega) [decQunpk, encQunpk, Nat.mod_eq_of_lt]

theorem encAmax_reads (ho : o < 1024) (x : Amax) : (encAmax o x).Reads o decAmax x := by
  have := x.t.code_lt
  have := bit_lt x.prop
  refine RWord.Fits.reads (x.h.fitsR ho x.d.enc_lt x.a.enc_lt (by decide) (by decide) (by omega)) ?_
  simp (disch := omega) [decAmax, encAmax, digit_div, Nat.div_eq_of_lt, Nat.mod_eq_of_lt]

theorem encShapeOp_reads (ho : o < 1024) (x : ShapeOp) : (encShapeOp o x).Reads o decShapeOp x := by
  have := bit_lt x.uni
  have := x.sel.code_lt
  refine RWord.Fits.reads (x.h.fitsR ho x.d.enc_lt (by omega) (by decide) (by decide) (by omega)) ?_
  simp (disch := omega) [decShapeOp, encShapeOp, Nat.mod_eq_of_lt,
    show (bit x.uni * 64 + x.idx.val) / 64 = bit x.uni by omega, finOfNat_add, -Fin.ofNat_eq_cast]

theorem encBare_reads (ho : o < 1024) (x : Bare) : (encBare o x).Reads o decBare x := by
  refine RWord.Fits.reads (Hdr.fitsR ⟨x.stall, x.flag, 7, false⟩
    ho (by decide) (by decide) (by decide) (by decide) (by decide)) ?_
  simp (disch := omega) [decBare, encBare]

theorem encGBare_reads (ho : o < 1024) (x : GBare) : (encGBare o x).Reads o decGBare x := by
  refine RWord.Fits.reads (x.h.fitsR ho (by decide) (by decide) (by decide) (by decide) (by decide)) ?_
  simp (disch := omega) [decGBare, encGBare]

theorem encLdR_reads (ho : o < 1024) (x : LdR) : (encLdR o x).Reads o decLdR x := by
  have := x.t.code_lt
  have := x.scope.code_lt
  have := x.ord.code_lt
  have := bit_lt x.off.isSome
  refine RWord.Fits.reads (x.h.fitsR ho (by omega) x.a.enc_lt (encOff_lt x.off) (by decide) (by omega)) ?_
  simp (disch := omega) [decLdR, encLdR, digit_mod, digit_div, Nat.div_eq_of_lt, Nat.mod_eq_of_lt]

theorem encLdI_reads (ho : o < 1024) (x : LdI) (ht : x.t.accTy = true) : (encLdI o x).Reads o decLdI x := by
  refine IWord.Fits.reads (x.h.fitsI ho (by omega) x.a.enc_lt x.imm.isLt x.t.accSize_lt) ?_
  simp (disch := omega) [decLdI, encLdI, ITy.ofAccSize_accSize ht]

theorem encLdL_reads (ho : o < 1024) (x : LdL) (ht : x.t.accTy = true) : (encLdL o x).Reads o (decLdL · x.k) x := by
  refine IWord.Fits.reads (x.h.fitsI ho (by omega) x.a.enc_lt (by decide) x.t.accSize_lt) ?_
  simp (disch := omega) [decLdL, encLdL, ITy.ofAccSize_accSize ht]

theorem encLduR_reads (ho : o < 1024) (x : LduR) : (encLduR o x).Reads o decLduR x := by
  have := x.t.code_lt
  have := x.scope.code_lt
  have := x.ord.code_lt
  have := bit_lt x.off.isSome
  refine RWord.Fits.reads (x.h.fitsR ho (by omega) x.a.enc_lt (encOff_lt x.off) (by decide) (by omega)) ?_
  simp (disch := omega) [decLduR, encLduR, digit_mod, digit_div, Nat.div_eq_of_lt, Nat.mod_eq_of_lt, finOfNat_add,
    -Fin.ofNat_eq_cast]

theorem encLduI_reads (ho : o < 1024) (x : LduI) (ht : x.t.accTy = true) : (encLduI o x).Reads o decLduI x := by
  refine IWord.Fits.reads (x.h.fitsI ho (by omega) x.a.enc_lt x.imm.isLt x.t.accSize_lt) ?_
  simp (disch := omega) [decLduI, encLduI, ITy.ofAccSize_accSize ht, finOfNat_add, -Fin.ofNat_eq_cast]

theorem encLduL_reads (ho : o < 1024) (x : LduL) (ht : x.t.accTy = true) : (encLduL o x).Reads o (decLduL · x.k) x := by
  refine IWord.Fits.reads (x.h.fitsI ho (by omega) x.a.enc_lt (by decide) x.t.accSize_lt) ?_
  simp (disch := omega) [decLduL, encLduL, ITy.ofAccSize_accSize ht, finOfNat_add, -Fin.ofNat_eq_cast]

theorem encStR_reads (ho : o < 1024) (x : StR) : (encStR o x).Reads o decStR x := by
  have := x.t.code_lt
  have := x.scope.code_lt
  have := x.ord.code_lt
  have := bit_lt x.off.isSome
  refine RWord.Fits.reads (x.h.fitsR ho (by decide) x.a.enc_lt (encOff_lt x.off) x.c.enc_lt (by omega)) ?_
  simp (disch := omega) [decStR, encStR, digit_mod, digit_div, Nat.div_eq_of_lt, Nat.mod_eq_of_lt]

theorem encStI_reads (ho : o < 1024) (x : StI) (ht : x.t.accTy = true) : (encStI o x).Reads o decStI x := by
  refine IWord.Fits.reads (x.h.fitsI ho x.v.enc_lt x.a.enc_lt x.imm.isLt x.t.accSize_lt) ?_
  simp (disch := omega) [decStI, encStI, ITy.ofAccSize_accSize ht]

theorem encStL_reads (ho : o < 1024) (x : StL) (ht : x.t.accTy = true) : (encStL o x).Reads o (decStL · x.k) x := by
  refine IWord.Fits.reads (x.h.fitsI ho x.v.enc_lt x.a.enc_lt (by decide) x.t.accSize_lt) ?_
  simp (disch := omega) [decStL, encStL, ITy.ofAccSize_accSize ht]

theorem encAtom_reads (ho : o < 1024) (x : Atom) : (encAtom o x).Reads o decAtom x := by
  have := x.op.code_lt
  have := x.t.code_lt
  have := x.scope.code_lt
  have := x.ord.code_lt
  have := bit_lt x.dlu
  refine RWord.Fits.reads (x.h.fitsR ho (by omega) x.a.enc_lt x.b.enc_lt (by omega) (by omega)) ?_
  simp (disch := omega) [decAtom, encAtom, digit_mod, digit_div, Nat.div_eq_of_lt, Nat.mod_eq_of_lt]

theorem encRedM_reads (ho : o < 1024) (x : RedM) : (encRedM o x).Reads o decRedM x := by
  have := x.op.code_lt
  have := x.t.code_lt
  have := x.scope.code_lt
  have := x.ord.code_lt
  refine RWord.Fits.reads (x.h.fitsR ho (by decide) x.a.enc_lt x.b.enc_lt (by omega) (by omega)) ?_
  simp (disch := omega) [decRedM, encRedM, digit_mod, digit_div, Nat.div_eq_of_lt, Nat.mod_eq_of_lt]

theorem encPrefR_reads (ho : o < 1024) (x : PrefR) : (encPrefR o x).Reads o decPrefR x := by
  have := bit_lt x.excl
  have := bit_lt x.off.isSome
  refine RWord.Fits.reads (x.h.fitsR ho (by decide) x.a.enc_lt (encOff_lt x.off) (by decide) (by omega)) ?_
  simp (disch := omega) [decPrefR, encPrefR, digit_mod, digit_div, Nat.div_eq_of_lt, Nat.mod_eq_of_lt]

theorem encPrefI_reads (ho : o < 1024) (x : PrefI) : (encPrefI o x).Reads o decPrefI x := by
  refine IWord.Fits.reads (x.h.fitsI ho (by decide) x.a.enc_lt x.imm.isLt (by decide)) ?_
  simp (disch := omega) [decPrefI, encPrefI]

theorem encPrefL_reads (ho : o < 1024) (x : PrefL) : (encPrefL o x).Reads o (decPrefL · x.k) x := by
  refine IWord.Fits.reads (x.h.fitsI ho (by decide) x.a.enc_lt (by decide) (by decide)) ?_
  simp (disch := omega) [decPrefL, encPrefL]

theorem encCctl_reads (ho : o < 1024) (x : Cctl) (ht : x.addr.isSome = (x.op.val != 1)) : (encCctl o x).Reads o decCctl x := by
  have := bit_lt x.off.isSome
  refine RWord.Fits.reads (x.h.fitsR ho (by decide) (encOpt_lt x.addr) (encOff_lt x.off) (by decide) (by omega)) ?_
  simp (disch := omega) [decCctl, encCctl, digit_mod, digit_div, Nat.div_eq_of_lt, Nat.mod_eq_of_lt, address_encOpt ht]

theorem encFence_reads (ho : o < 1024) (x : Fence) : (encFence o x).Reads o decFence x := by
  have := x.scope.code_lt
  have := x.ord.code_lt
  have := bit_lt x.sc
  refine RWord.Fits.reads (x.h.fitsR ho (by decide) (by decide) (by decide) (by decide) (by omega)) ?_
  simp (disch := omega) [decFence, encFence, digit_mod, digit_div, Nat.div_eq_of_lt, Nat.mod_eq_of_lt]

theorem encPhclose_reads (ho : o < 1024) (x : Phclose) : (encPhclose o x).Reads o decPhclose x := by
  refine RWord.Fits.reads (x.h.fitsR ho x.d.enc_lt (by decide) (by decide) (by decide) (by decide)) ?_
  simp (disch := omega) [decPhclose, encPhclose]

theorem encPhwait_reads (ho : o < 1024) (x : Phwait) : (encPhwait o x).Reads o decPhwait x := by
  refine RWord.Fits.reads (x.h.fitsR ho (by decide) x.a.enc_lt x.b.enc_lt (by decide) (by decide)) ?_
  simp (disch := omega) [decPhwait, encPhwait]

theorem encWaitv_reads (ho : o < 1024) (x : Waitv) : (encWaitv o x).Reads o decWaitv x := by
  have := x.t.code_lt
  refine RWord.Fits.reads (x.h.fitsR ho (by decide) x.a.enc_lt x.b.enc_lt x.c.enc_lt (by omega)) ?_
  simp (disch := omega) [decWaitv, encWaitv, Nat.mod_eq_of_lt]

theorem encBarOp_reads (ho : o < 1024) (x : BarOp) : (encBarOp o x).Reads o decBarOp x := by
  refine RWord.Fits.reads (x.h.fitsR ho (by decide) (by decide) (by decide) (by decide) (by omega)) ?_
  simp (disch := omega) [decBarOp, encBarOp, Nat.mod_eq_of_lt]

theorem encBarmArv_reads (ho : o < 1024) (x : BarmArv) : (encBarmArv o x).Reads o decBarmArv x := by
  have := x.scope.code_lt
  refine RWord.Fits.reads (x.h.fitsR ho (by decide) x.a.enc_lt (by decide) (by decide) (by omega)) ?_
  simp (disch := omega) [decBarmArv, encBarmArv, Nat.mod_eq_of_lt]

theorem encBarmWait_reads (ho : o < 1024) (x : BarmWait) : (encBarmWait o x).Reads o decBarmWait x := by
  have := encIdx_lt x.stat
  have := x.scope.code_lt
  have := bit_lt x.stat.isSome
  refine RWord.Fits.reads (x.h.fitsR ho (by omega) x.a.enc_lt x.b.enc_lt (by decide) (by omega)) ?_
  simp (disch := omega) [decBarmWait, encBarmWait, digit_div, Nat.div_eq_of_lt, Nat.mod_eq_of_lt, -Fin.ofNat_eq_cast]

theorem encSmap_reads (ho : o < 1024) (x : Smap) : (encSmap o x).Reads o decSmap x := by
  have := bit_lt x.rw
  have := bit_lt x.retain
  refine RWord.Fits.reads (x.h.fitsR ho (by decide) x.a.enc_lt x.b.enc_lt x.c.enc_lt (by omega)) ?_
  simp (disch := omega) [decSmap, encSmap, digit_div, Nat.div_eq_of_lt, Nat.mod_eq_of_lt]

theorem encKeyOp_reads (ho : o < 1024) (x : KeyOp) : (encKeyOp o x).Reads o decKeyOp x := by
  refine RWord.Fits.reads (x.h.fitsR ho (by decide) x.a.enc_lt (by decide) (by decide) (by decide)) ?_
  simp (disch := omega) [decKeyOp, encKeyOp]

theorem encSquery_reads (ho : o < 1024) (x : Squery) : (encSquery o x).Reads o decSquery x := by
  refine RWord.Fits.reads (x.h.fitsR ho x.d.enc_lt x.a.enc_lt (by decide) (by decide) (by decide)) ?_
  simp (disch := omega) [decSquery, encSquery]

theorem encCpy_reads (ho : o < 1024) (x : Cpy) : (encCpy o x).Reads o decCpy x := by
  have := x.scope.code_lt
  refine RWord.Fits.reads (x.h.fitsR ho (by omega) x.a.enc_lt x.b.enc_lt x.c.enc_lt (by omega)) ?_
  simp (disch := omega) [decCpy, encCpy, digit_div, Nat.div_eq_of_lt, Nat.mod_eq_of_lt]

theorem encCpyt_reads (ho : o < 1024) (x : Cpyt) : (encCpyt o x).Reads o decCpyt x := by
  have := x.scope.code_lt
  have := bit_lt x.store
  refine RWord.Fits.reads (x.h.fitsR ho (by omega) x.a.enc_lt x.b.enc_lt x.c.enc_lt (by omega)) ?_
  simp (disch := omega) [decCpyt, encCpyt, digit_mod, digit_div, Nat.div_eq_of_lt, Nat.mod_eq_of_lt]

theorem encCpyGS_reads (ho : o < 1024) (x : CpyGS) : (encCpyGS o x).Reads o decCpyGS x := by
  have := x.scope.code_lt
  refine RWord.Fits.reads (x.h.fitsR ho (by omega) x.a.enc_lt x.b.enc_lt x.c.enc_lt (by omega)) ?_
  simp (disch := omega) [decCpyGS, encCpyGS, Nat.mod_eq_of_lt]

theorem encKOp_reads (ho : o < 1024) (x : KOp) : (encKOp o x).Reads o decKOp x := by
  refine RWord.Fits.reads (x.h.fitsR ho (by decide) x.a.enc_lt (by decide) (by decide) (by decide)) ?_
  simp (disch := omega) [decKOp, encKOp]

theorem encTwait_reads (ho : o < 1024) (x : Twait) : (encTwait o x).Reads o decTwait x := by
  have := bit_lt x.all
  refine RWord.Fits.reads (x.h.fitsR ho (by decide) x.a.enc_lt (by decide) (by decide) (by omega)) ?_
  simp (disch := omega) [decTwait, encTwait, Nat.mod_eq_of_lt]

theorem encTffr_reads (ho : o < 1024) (x : Tffr) : (encTffr o x).Reads o decTffr x := by
  refine RWord.Fits.reads (x.h.fitsR ho x.d.enc_lt x.a.enc_lt (by decide) (by decide) (by decide)) ?_
  simp (disch := omega) [decTffr, encTffr]

theorem encCntwait_reads (ho : o < 1024) (x : Cntwait) : (encCntwait o x).Reads o decCntwait x := by
  have := x.scope.code_lt
  refine RWord.Fits.reads (x.h.fitsR ho x.d.enc_lt x.a.enc_lt x.b.enc_lt x.c.enc_lt (by omega)) ?_
  simp (disch := omega) [decCntwait, encCntwait, Nat.mod_eq_of_lt]

theorem encGset_reads (ho : o < 1024) (x : Gset) : (encGset o x).Reads o decGset x := by
  refine RWord.Fits.reads (x.h.fitsR ho (by omega) x.a.enc_lt x.b.enc_lt (by decide) (by decide)) ?_
  simp (disch := omega) [decGset, encGset]

theorem encGcnt_reads (ho : o < 1024) (x : Gcnt) : (encGcnt o x).Reads o decGcnt x := by
  refine RWord.Fits.reads (x.h.fitsR ho x.d.enc_lt (by omega) (by decide) (by decide) (by decide)) ?_
  simp (disch := omega) [decGcnt, encGcnt]

theorem encAcfg_reads (ho : o < 1024) (x : Acfg) : (encAcfg o x).Reads o decAcfg x := by
  have := bit_lt x.discard
  refine RWord.Fits.reads (x.h.fitsR ho (by decide) x.a.enc_lt (by decide) (by decide) (by omega)) ?_
  simp (disch := omega) [decAcfg, encAcfg, Nat.mod_eq_of_lt]

theorem encMma_reads (ho : o < 1024) (x : Mma) : (encMma o x).Reads o decMma x := by
  have := encIdx_lt x.tag
  have := x.shape.code_lt
  have := bit_lt x.z
  have := bit_lt x.tag.isSome
  refine RWord.Fits.reads (x.h.fitsR ho (by omega) (by omega) (by omega) (by omega) (by omega)) ?_
  simp (disch := omega) [decMma, encMma, digit_mod, digit_div, Nat.div_eq_of_lt, Nat.mod_eq_of_lt, -Fin.ofNat_eq_cast]

theorem encAccLd_reads (ho : o < 1024) (x : AccLd) : (encAccLd o x).Reads o decAccLd x := by
  have := bit_lt x.wide
  refine RWord.Fits.reads (x.h.fitsR ho (by omega) (by omega) x.b.enc_lt (by decide) (by omega)) ?_
  simp (disch := omega) [decAccLd, encAccLd, toBit_twice]

theorem encAccSt_reads (ho : o < 1024) (x : AccSt) : (encAccSt o x).Reads o decAccSt x := by
  have := bit_lt x.wide
  refine RWord.Fits.reads (x.h.fitsR ho (by omega) x.a.enc_lt x.b.enc_lt (by decide) (by omega)) ?_
  simp (disch := omega) [decAccSt, encAccSt, toBit_twice]

theorem encAccZero_reads (ho : o < 1024) (x : AccZero) : (encAccZero o x).Reads o decAccZero x := by
  have := x.shape.code_lt
  have := bit_lt x.wide
  refine RWord.Fits.reads (x.h.fitsR ho (by omega) (by decide) (by decide) (by decide) (by omega)) ?_
  simp (disch := omega) [decAccZero, encAccZero, digit_div, Nat.div_eq_of_lt, Nat.mod_eq_of_lt]

theorem encAccMov_reads (ho : o < 1024) (x : AccMov) : (encAccMov o x).Reads o decAccMov x := by
  have := x.t.code_lt
  have := x.rm.code_lt
  have := bit_lt x.froms
  refine RWord.Fits.reads (x.h.fitsR ho (by omega) x.a.enc_lt x.b.enc_lt (by decide) (by omega)) ?_
  simp (disch := omega) [decAccMov, encAccMov, digit_mod, digit_div, Nat.div_eq_of_lt, Nat.mod_eq_of_lt]

theorem encDOp_reads (ho : o < 1024) (x : DOp) : (encDOp o x).Reads o decDOp x := by
  refine RWord.Fits.reads (x.h.fitsR ho x.d.enc_lt (by decide) (by decide) (by decide) (by decide)) ?_
  simp (disch := omega) [decDOp, encDOp]

theorem encBra_reads (ho : o < 1024) (x : Bra) : (encBra o x).Reads o decBra x := by
  refine IWord.Fits.reads (x.h.fitsI ho (by decide) (by decide) x.imm.isLt (by decide)) ?_
  simp (disch := omega) [decBra, encBra]

theorem encBrx_reads (ho : o < 1024) (x : Brx) : (encBrx o x).Reads o decBrx x := by
  refine RWord.Fits.reads (x.h.fitsR ho (by decide) x.a.enc_lt (by decide) (by decide) (by decide)) ?_
  simp (disch := omega) [decBrx, encBrx]

theorem encRet_reads (ho : o < 1024) (x : Ret) : (encRet o x).Reads o decRet x := by
  refine RWord.Fits.reads (x.h.fitsR ho (by decide) x.a.enc_lt (by decide) (by decide) (by decide)) ?_
  simp (disch := omega) [decRet, encRet]

theorem encCodeOp_reads (ho : o < 1024) (x : CodeOp) : (encCodeOp o x).Reads o decCodeOp x := by
  refine IWord.Fits.reads (x.h.fitsI ho (by decide) (by decide) x.imm.isLt (by decide)) ?_
  simp (disch := omega) [decCodeOp, encCodeOp]

theorem encSvc_reads (ho : o < 1024) (x : Svc) : (encSvc o x).Reads o decSvc x := by
  refine IWord.Fits.reads (x.h.fitsI ho (by decide) x.a.enc_lt (by omega) (by decide)) ?_
  simp (disch := omega) [decSvc, encSvc]

theorem encCsrr_reads (ho : o < 1024) (x : Csrr) : (encCsrr o x).Reads o decCsrr x := by
  refine IWord.Fits.reads (x.h.fitsI ho x.d.enc_lt (by decide) (by omega) (by decide)) ?_
  simp (disch := omega) [decCsrr, encCsrr]

theorem encCsrw_reads (ho : o < 1024) (x : Csrw) : (encCsrw o x).Reads o decCsrw x := by
  refine IWord.Fits.reads (x.h.fitsI ho (by decide) x.a.enc_lt (by omega) (by decide)) ?_
  simp (disch := omega) [decCsrw, encCsrw]

theorem encLaunch_reads (ho : o < 1024) (x : Launch) : (encLaunch o x).Reads o decLaunch x := by
  refine RWord.Fits.reads (x.h.fitsR ho x.d.enc_lt x.a.enc_lt (by decide) (by decide) (by decide)) ?_
  simp (disch := omega) [decLaunch, encLaunch]

theorem encLwait_reads (ho : o < 1024) (x : Lwait) : (encLwait o x).Reads o decLwait x := by
  have := bit_lt x.a.isNone
  refine RWord.Fits.reads (x.h.fitsR ho (by decide) (encOff_lt x.a) (by decide) (by decide) (by omega)) ?_
  simp (disch := omega) [decLwait, encLwait]

theorem encTrapret_reads (ho : o < 1024) (x : Trapret) : (encTrapret o x).Reads o decTrapret x := by
  have := x.mode.code_lt
  refine RWord.Fits.reads (x.h.fitsR ho (by decide) (by decide) (by decide) (by decide) (by omega)) ?_
  simp (disch := omega) [decTrapret, encTrapret, Nat.mod_eq_of_lt]

end

end Sys2Proof
end

