-- ==== Sys2Proof/Proofs/Encoding.lean ====
section
/-!
SUPPORT. Parsing the word of a well-formed instruction gives it back, by the format of its operands.
-/
namespace Sys2Proof

/-! ## From an opcode to the fields of its group -/

/-- The fields of a word under the opcode `o` (R90, R91). -/
def parseAt (o w : Nat) (k : Option W64) : Option Instr :=
  match o / 128 with
  | 0 => parse0 o w k
  | 1 => parse1 o w k
  | 2 => parse2 o w k
  | 3 => parse3 o w k
  | 4 => parse4 o w k
  | 5 => parse5 o w k
  | 6 => parse6 o w k
  | 7 => parse7 o w k
  | _ => none

theorem parse_eq_parseAt (w : Nat) (k : Option W64) : parse w k = parseAt (w / 2 ^ 54) w k := rfl

theorem Reads.parse {α : Type} {w₀ w o : Nat} {read : Nat → Option α} {x : α} {f : α → Instr} {k : Option W64}
    (h : Reads w₀ o read x) (he : some w₀ = some w) (hp : ∀ w, parseAt o w k = (read w).map f) :
    parse w k = some (f x) := by
  obtain rfl := Option.some.inj he
  rw [parse_eq_parseAt, h.opc, hp, h.val]
  rfl

/-! ## The comparisons, whose opcode holds the relation -/

section
variable {r : Rel} (hr : r ≠ .un) {w : Nat} {k : W64}
include hr

theorem parseAt_icmpI {k : Option W64} :
    parseAt (0x048 + r.code) w k = (decCmpI 0x048 (IWord.of w)).map .icmpI := by
  cases r with
  | un => exact absurd rfl hr
  | eq | ne | lt | le | gt | ge => rfl

theorem parseAt_icmpL :
    parseAt (0x068 + r.code) w (some k) = (decCmpL 0x068 (IWord.of w) k).map .icmpL := by
  cases r with
  | un => exact absurd rfl hr
  | eq | ne | lt | le | gt | ge => rfl

theorem parseAt_fcmpI {k : Option W64} :
    parseAt (0x0C5 + r.code) w k = (decFCmpI 0x0C5 (IWord.of w)).map .fcmpI := by
  cases r with
  | un => exact absurd rfl hr
  | eq | ne | lt | le | gt | ge => rfl

theorem parseAt_fcmpL :
    parseAt (0x0E5 + r.code) w (some k) = (decFCmpL 0x0E5 (IWord.of w) k).map .fcmpL := by
  cases r with
  | un => exact absurd rfl hr
  | eq | ne | lt | le | gt | ge => rfl

theorem parseAt_fcmpF64I {k : Option W64} :
    parseAt (0x145 + r.code) w k = (decFCmpI 0x145 (IWord.of w)).map .fcmpF64I := by
  cases r with
  | un => exact absurd rfl hr
  | eq | ne | lt | le | gt | ge => rfl

theorem parseAt_fcmpF64L :
    parseAt (0x165 + r.code) w (some k) = (decFCmpL 0x165 (IWord.of w) k).map .fcmpF64L := by
  cases r with
  | un => exact absurd rfl hr
  | eq | ne | lt | le | gt | ge => rfl

end

/-! ## What the decode checks of Table 3.8 give -/

theorem and_left {a b : Bool} (h : (a && b) = true) : a = true := (Bool.and_eq_true_iff.mp h).1

theorem and_right {a b : Bool} (h : (a && b) = true) : b = true := (Bool.and_eq_true_iff.mp h).2

theorem Rel.ne_un {r : Rel} (h : (r != .un) = true) : r ≠ .un := bne_iff_ne.mp h

theorem ITy.accTy_of_word {t : ITy} (h : (t == .b32 || t == .b64) = true) : t.accTy = true := by
  cases t with
  | b32 | b64 => rfl
  | _ => cases h

/-- The relation in the opcode does not reach the bits that give the size. -/
theorem FTy.sized_add_rel {o z : Nat} {t : FTy} (r : Rel) (ho : o % 128 + 8 ≤ 128) (hz : o / 128 = z) (h : FTy.Sized z t) :
    FTy.Sized ((o + r.code) / 128) t := by
  have := r.code_lt
  rwa [show (o + r.code) / 128 = z by omega]

/-! ## The instructions by format -/


/-- The parser reads a well-formed instruction back from its word and its constant. -/
theorem parse_encode {i : Instr} {w : Nat} (hw : i.wf = true) (he : encode i = some w) : parse w i.constant = some i := by
  cases i with
  | iadd x | isub x | imul x =>
    exact (encInt2_reads (by decide) x).parse he fun _ => rfl
  | iaddc x =>
    exact (encAddc_reads (by decide) x).parse he fun _ => rfl
  | ineg x | iabs x =>
    exact (encInt1_reads (by decide) x).parse he fun _ => rfl
  | imulh x | idiv x | irem x | imin x | imax x | and x | or x | xor x | shl x | shr x | sar x | rol x | bfx x =>
    exact (encBin_reads (by decide) x).parse he fun _ => rfl
  | imad x =>
    exact (encInt3_reads (by decide) x).parse he fun _ => rfl
  | imadw x | iclamp x | fshl x | bfi x =>
    exact (encTern_reads (by decide) x).parse he fun _ => rfl
  | icmp x =>
    exact (encCmp_reads (by decide) x).parse he fun _ => rfl
  | not x | popc x | clz x | ctz x | brev x | mov x =>
    exact (encUn_reads (by decide) x).parse he fun _ => rfl
  | logt x =>
    exact (encLogt_reads (by decide) x).parse he fun _ => rfl
  | bysel x =>
    exact (encBysel_reads (by decide) x).parse he fun _ => rfl
  | lea x =>
    exact (encLea_reads (by decide) x).parse he fun _ => rfl
  | sel x =>
    exact (encSelOp_reads (by decide) x).parse he fun _ => rfl
  | plop x =>
    exact (encPlop_reads (by decide) x).parse he fun _ => rfl
  | movs x =>
    exact (encMovS_reads (by decide) x).parse he fun _ => rfl
  | iaddI x | isubI x | imulI x | imulhI x | idivI x | iremI x | iminI x | imaxI x | andI x | orI x | xorI x | shlI x
  | shrI x | sarI x | rolI x | bfxI x | leaI x =>
    exact (encIntI_reads (by decide) x).parse he fun _ => rfl
  | icmpI x =>
    exact (encCmpI_reads (by decide) x).parse he fun _ => parseAt_icmpI (Rel.ne_un (and_left hw))
  | byselI x =>
    exact (encByselI_reads (by decide) x).parse he fun _ => rfl
  | movi x =>
    exact (encMovI_reads (by decide) x).parse he fun _ => rfl
  | iaddL x | isubL x | imulL x | imulhL x | idivL x | iremL x | iminL x | imaxL x | andL x | orL x | xorL x | shlL x
  | shrL x | sarL x | rolL x | bfxL x | leaL x =>
    exact (encIntL_reads (by decide) x).parse he fun _ => rfl
  | icmpL x =>
    exact (encCmpL_reads (by decide) x).parse he fun _ => parseAt_icmpL (Rel.ne_un (and_left hw))
  | byselL x =>
    exact (encByselL_reads (by decide) x).parse he fun _ => rfl
  | movl x =>
    exact (encMovL_reads (by decide) x).parse he fun _ => rfl
  | fadd x | fsub x | fmul x | fscale x | fdiv x | hadd2 x | hmul2 x | faddF64 x | fsubF64 x | fmulF64 x
  | fscaleF64 x | fdivF64 x =>
    exact (encFBin_reads (by decide) x).parse he fun _ => rfl
  | ffma x | hfma2 x | ffmaF64 x =>
    exact (encFTern_reads (by decide) x).parse he fun _ => rfl
  | fmin x | fmax x | fminF64 x | fmaxF64 x =>
    exact (encFMM_reads (by decide) x).parse he fun _ => rfl
  | fcmp x | fcmpF64 x =>
    exact (encFCmp_reads (by decide) x).parse he fun _ => rfl
  | fclass x | fclassF64 x =>
    exact (encFCls_reads (by decide) x).parse he fun _ => rfl
  | frnd x | fsqrt x | frcp x | frsq x | fexp2 x | flog2 x | fsinpi x | fcospi x | frndF64 x | fsqrtF64 x | frcpF64 x =>
    exact (encFUn_reads (by decide) x).parse he fun _ => rfl
  | dot2 x =>
    exact (encDot2_reads (by decide) x).parse he fun _ => rfl
  | dot4 x =>
    exact (encDot4_reads (by decide) x (and_right (and_left (and_left hw)))).parse he fun _ => rfl
  | faddI x | fsubI x | fmulI x | fminI x | fmaxI x | fscaleI x =>
    exact (encFI_reads (by decide) x (FTy.sized_of_half (and_left hw))).parse he fun _ => rfl
  | fcmpI x =>
    have ht := FTy.sized_add_rel (o := 0x0C5) x.rel (by decide) rfl (FTy.sized_of_half (and_left hw))
    exact (encFCmpI_reads (by decide) x ht).parse he fun _ => parseAt_fcmpI (Rel.ne_un (and_right hw))
  | faddL x | fsubL x | fmulL x | fminL x | fmaxL x | fscaleL x =>
    exact (encFL_reads (by decide) x (FTy.sized_of_half (and_left hw))).parse he fun _ => rfl
  | fcmpL x =>
    have ht := FTy.sized_add_rel (o := 0x0E5) x.rel (by decide) rfl (FTy.sized_of_half (and_left hw))
    exact (encFCmpL_reads (by decide) x ht).parse he fun _ => parseAt_fcmpL (Rel.ne_un (and_right hw))
  | cvt x =>
    exact (encCvt_reads (by decide) x).parse he fun _ => rfl
  | faddF64I x | fsubF64I x | fmulF64I x | fminF64I x | fmaxF64I x | fscaleF64I x =>
    exact (encFI_reads (by decide) x (FTy.sized_of_f64 (and_left (and_left (and_left hw))))).parse he fun _ => rfl
  | fcmpF64I x =>
    have ht := FTy.sized_add_rel (o := 0x145) x.rel (by decide) rfl (FTy.sized_of_f64 (and_left (and_left hw)))
    exact (encFCmpI_reads (by decide) x ht).parse he fun _ => parseAt_fcmpF64I (Rel.ne_un (and_right (and_left hw)))
  | faddF64L x | fsubF64L x | fmulF64L x | fminF64L x | fmaxF64L x | fscaleF64L x =>
    exact (encFL_reads (by decide) x (FTy.sized_of_f64 (and_left (and_left (and_left hw))))).parse he fun _ => rfl
  | fcmpF64L x =>
    have ht := FTy.sized_add_rel (o := 0x165) x.rel (by decide) rfl (FTy.sized_of_f64 (and_left (and_left hw)))
    exact (encFCmpL_reads (by decide) x ht).parse he fun _ => parseAt_fcmpF64L (Rel.ne_un (and_right (and_left hw)))
  | lxch x =>
    exact (encLxch_reads (by decide) x).parse he fun _ => rfl
  | vote x =>
    exact (encVote_reads (by decide) x).parse he fun _ => rfl
  | ballot x =>
    exact (encBallot_reads (by decide) x).parse he fun _ => rfl
  | redux x =>
    exact (encRedux_reads (by decide) x (and_left (and_left (and_left hw)))).parse he fun _ => rfl
  | scan x =>
    exact (encScanOp_reads (by decide) x (and_left (and_left (and_left (and_left hw))))).parse he fun _ => rfl
  | matchOp x =>
    exact (encMatchOp_reads (by decide) x).parse he fun _ => rfl
  | qblk x =>
    exact (encQblk_reads (by decide) x).parse he fun _ => rfl
  | qunpk x =>
    exact (encQunpk_reads (by decide) x).parse he fun _ => rfl
  | amax x =>
    exact (encAmax_reads (by decide) x).parse he fun _ => rfl
  | shape x =>
    exact (encShapeOp_reads (by decide) x).parse he fun _ => rfl
  | mat x | joinpt x | sync x | yield x | sjoin x | nop x =>
    exact (encBare_reads (by decide) x).parse he fun _ => rfl
  | lxchI x =>
    exact (encLxchI_reads (by decide) x).parse he fun _ => rfl
  | ld x =>
    exact (encLdR_reads (by decide) x).parse he fun _ => rfl
  | ldu x =>
    exact (encLduR_reads (by decide) x).parse he fun _ => rfl
  | st x =>
    exact (encStR_reads (by decide) x).parse he fun _ => rfl
  | atom x =>
    exact (encAtom_reads (by decide) x).parse he fun _ => rfl
  | red x =>
    exact (encRedM_reads (by decide) x).parse he fun _ => rfl
  | pref x =>
    exact (encPrefR_reads (by decide) x).parse he fun _ => rfl
  | cctl x =>
    exact (encCctl_reads (by decide) x (eq_of_beq (and_left (and_left hw)))).parse he fun _ => rfl
  | ldI x =>
    exact (encLdI_reads (by decide) x (and_left (and_left hw))).parse he fun _ => rfl
  | lduI x =>
    exact (encLduI_reads (by decide) x (ITy.accTy_of_word (and_left hw))).parse he fun _ => rfl
  | stI x =>
    exact (encStI_reads (by decide) x (and_left (and_left (and_left hw)))).parse he fun _ => rfl
  | prefI x =>
    exact (encPrefI_reads (by decide) x).parse he fun _ => rfl
  | ldL x =>
    exact (encLdL_reads (by decide) x (and_left (and_left hw))).parse he fun _ => rfl
  | lduL x =>
    exact (encLduL_reads (by decide) x (ITy.accTy_of_word (and_left hw))).parse he fun _ => rfl
  | stL x =>
    exact (encStL_reads (by decide) x (and_left (and_left (and_left hw)))).parse he fun _ => rfl
  | prefL x =>
    exact (encPrefL_reads (by decide) x).parse he fun _ => rfl
  | fence x =>
    exact (encFence_reads (by decide) x).parse he fun _ => rfl
  | phclose x =>
    exact (encPhclose_reads (by decide) x).parse he fun _ => rfl
  | phwait x =>
    exact (encPhwait_reads (by decide) x).parse he fun _ => rfl
  | waitv x =>
    exact (encWaitv_reads (by decide) x).parse he fun _ => rfl
  | barArv x | barWait x =>
    exact (encBarOp_reads (by decide) x).parse he fun _ => rfl
  | barmArv x =>
    exact (encBarmArv_reads (by decide) x).parse he fun _ => rfl
  | barmWait x =>
    exact (encBarmWait_reads (by decide) x).parse he fun _ => rfl
  | smap x =>
    exact (encSmap_reads (by decide) x).parse he fun _ => rfl
  | sunmap x | sflush x | sfill x | sdiscard x =>
    exact (encKeyOp_reads (by decide) x).parse he fun _ => rfl
  | squery x =>
    exact (encSquery_reads (by decide) x).parse he fun _ => rfl
  | cpy x =>
    exact (encCpy_reads (by decide) x).parse he fun _ => rfl
  | cpyt x =>
    exact (encCpyt_reads (by decide) x).parse he fun _ => rfl
  | cpyg x | cpys x =>
    exact (encCpyGS_reads (by decide) x).parse he fun _ => rfl
  | copyq x | tclr x =>
    exact (encKOp_reads (by decide) x).parse he fun _ => rfl
  | twait x =>
    exact (encTwait_reads (by decide) x).parse he fun _ => rfl
  | tffr x =>
    exact (encTffr_reads (by decide) x).parse he fun _ => rfl
  | cntwait x =>
    exact (encCntwait_reads (by decide) x).parse he fun _ => rfl
  | gset x =>
    exact (encGset_reads (by decide) x).parse he fun _ => rfl
  | gcnt x =>
    exact (encGcnt_reads (by decide) x).parse he fun _ => rfl
  | acfg x =>
    exact (encAcfg_reads (by decide) x).parse he fun _ => rfl
  | mma x =>
    exact (encMma_reads (by decide) x).parse he fun _ => rfl
  | accLd x =>
    exact (encAccLd_reads (by decide) x).parse he fun _ => rfl
  | accSt x =>
    exact (encAccSt_reads (by decide) x).parse he fun _ => rfl
  | accZero x =>
    exact (encAccZero_reads (by decide) x).parse he fun _ => rfl
  | accMov x =>
    exact (encAccMov_reads (by decide) x).parse he fun _ => rfl
  | mprog x =>
    exact (encDOp_reads (by decide) x).parse he fun _ => rfl
  | brx x | callx x =>
    exact (encBrx_reads (by decide) x).parse he fun _ => rfl
  | ret x =>
    exact (encRet_reads (by decide) x).parse he fun _ => rfl
  | exit x =>
    exact (encGBare_reads (by decide) x).parse he fun _ => rfl
  | launch x =>
    exact (encLaunch_reads (by decide) x).parse he fun _ => rfl
  | lwait x =>
    exact (encLwait_reads (by decide) x).parse he fun _ => rfl
  | trapret x =>
    exact (encTrapret_reads (by decide) x).parse he fun _ => rfl
  | bra x | call x =>
    exact (encBra_reads (by decide) x).parse he fun _ => rfl
  | trap x | brk x =>
    exact (encCodeOp_reads (by decide) x).parse he fun _ => rfl
  | svc x =>
    exact (encSvc_reads (by decide) x).parse he fun _ => rfl
  | csrr x =>
    exact (encCsrr_reads (by decide) x).parse he fun _ => rfl
  | csrw x =>
    exact (encCsrw_reads (by decide) x).parse he fun _ => rfl
  | _ => cases he

theorem decode_of_parse {i : Instr} {w : Nat} {k : Option W64} (hp : parse w k = some i) (hw : i.wf = true)
    (he : encode i = some w) : decode w k = .ok i := by
  simp [decode, hp, hw, he]

theorem wf_and_encode_of_decode {i : Instr} {w : Nat} {k : Option W64} (h : decode w k = .ok i) :
    i.wf = true ∧ encode i = some w := by
  unfold decode at h
  split at h
  · split at h <;> cases h
  · split at h
    next hw =>
      split at h
      next he => cases h; exact ⟨hw, he⟩
      next => cases h
    next => cases h

/-- Settles O3: a word keeps every field in its own digits, so each format reads back; the decoder itself checks the
converse. -/
theorem encodeDecode : Obligations.EncodeDecode :=
  ⟨fun _ _ hw he => decode_of_parse (parse_encode hw he) hw he, fun _ _ _ => wf_and_encode_of_decode⟩

end Sys2Proof
end

