-- ==== Sys2Proof/Proofs/LaneFamilies.lean ====
section
/-!
SUPPORT. The instructions that act lane by lane: integer, logic, floating-point and packed (R140 to R187).
-/
namespace Sys2Proof.Machine
open Sys2Proof

/-- The law of an instruction that is `cmpOp` of a relation, on its second operand or on a constant. -/
theorem cmpOp_law {i : Instr} {t : ITy} {rel : Rel} {k : Option Nat} (hx : ∀ s, exec i s = cmpOp i t rel k s) :
    LaneLaw i fun v => .bit (opCmp t rel v.a (k.getD v.b)) :=
  lanewise_law fun s u e h => by rw [hx, cmpOp, issue_eq h]; rfl

/-- Settles O10: IADD to ICLAMP are `laneOp` of their formula; the three forms of ICMP, which stand last, are `cmpOp`. -/
theorem integerLanes : Obligations.IntegerLanes := by
  unfold Obligations.IntegerLanes
  and_intros
  rotate_left 30
  · exact fun x => cmpOp_law (k := none) fun _ => rfl
  · exact fun x => cmpOp_law (k := some x.k) fun _ => rfl
  · exact fun x => cmpOp_law (k := some x.k.toNat) fun _ => rfl
  all_goals exact fun _ => laneOp_law fun _ => rfl

/-- Settles O13: every instruction of R145 to R157 that acts lane by lane is `laneOp` of its operation. -/
theorem logicLanes : Obligations.LogicLanes := by
  unfold Obligations.LogicLanes
  and_intros <;> exact fun _ => laneOp_law fun _ => rfl

/-- Settles O15: every floating-point instruction of 16 and 32 bits is `laneOp` of its operation. -/
theorem floatLanes : Obligations.FloatLanes := by
  unfold Obligations.FloatLanes
  and_intros <;> exact fun _ => laneOp_law fun _ => rfl

/-- Settles O16: every floating-point instruction of 64 bits is `laneOp` of the operation of its shorter form. -/
theorem doubleLanes : Obligations.DoubleLanes := by
  unfold Obligations.DoubleLanes
  and_intros <;> exact fun _ => laneOp_law fun _ => rfl

/-- Settles O17: every packed and dot-product instruction is `laneOp` of its operation. -/
theorem packedLanes : Obligations.PackedLanes := by
  unfold Obligations.PackedLanes
  and_intros <;> exact fun _ => laneOp_law fun _ => rfl

end Sys2Proof.Machine
end

