-- ==== Sys2Proof/Proofs/IssueAnswers.lean ====
section
/-!
SUPPORT. An instruction of code memory issued for a sub-wave answers a next state (R75, R85).
-/
namespace Sys2Proof.Machine
open Sys2Proof

/-- The answer is a next state: no fault and no refusal. -/
def Res.Goes (r : Res) : Prop := ∃ q, r = .next q

theorem withLaps_goes {s : State} {r : Res} (h : r.Goes) : Res.Goes (withLaps s r) := by
  obtain ⟨q, rfl⟩ := h
  exact ⟨_, rfl⟩

theorem withSweep_goes {r : Res} (h : r.Goes) : Res.Goes (withSweep r) := by
  obtain ⟨q, rfl⟩ := h
  exact ⟨_, rfl⟩

section
variable {i : Instr} {u : Use} {s : State} {t w k : Nat} {e : Ex}
variable (hu : i.use = some u) (hc : s.cur = some (.sub t w k)) (he : s.ex? t w k = some e)
include hu hc he

theorem issueNaming_goes {names : State → Use → Ex → Use} {always branch : Bool} {body : Use → State → Ex → Lanes → Issue}
    {act : Use → Nat → Grid → State → Span → SpanAct} : Res.Goes (issueNaming i names always branch body act s) := by
  unfold issueNaming
  simp only [hu, hc, he]
  exact ⟨_, rfl⟩

theorem issue_goes {always branch : Bool} {body : Use → State → Ex → Lanes → Issue}
    {act : Use → Nat → Grid → State → Span → SpanAct} : Res.Goes (issue i always branch body act s) :=
  issueNaming_goes hu hc he

theorem laneOp_goes {rule : SpanRule} {f : LaneIn → LaneOut} : Res.Goes (laneOp i rule f s) := issue_goes hu hc he

theorem cmpOp_goes {ty : ITy} {rel : Rel} {c : Option Nat} : Res.Goes (cmpOp i ty rel c s) := issue_goes hu hc he

theorem groupOp_goes {f : Use → W64 → Lanes → (Nat → LaneIn) → LaneRes} : Res.Goes (groupOp i f s) := issue_goes hu hc he

theorem peelOp_goes {body : Use → State → Ex → Lanes → Issue} : Res.Goes (peelOp i body s) := issue_goes hu hc he

/-- Each row of the opcode table that names operands is one of the shared issue operations; an event names none. -/
theorem exec_goes : Res.Goes (exec i s) := by
  cases i with
  | iadd x | isub x | iaddc x | ineg x | iabs x | imul x | imulh x | imad x | imadw x | idiv x | irem x | imin x
  | imax x | iclamp x | and x | or x | xor x | not x | logt x | shl x | shr x | sar x | rol x | fshl x | popc x
  | clz x | ctz x | brev x | bfx x | bfi x | bysel x | lea x | mov x | sel x | plop x | iaddI x | isubI x | imulI x
  | imulhI x | idivI x | iremI x | iminI x | imaxI x | andI x | orI x | xorI x | shlI x | shrI x | sarI x | rolI x
  | bfxI x | byselI x | leaI x | movi x | iaddL x | isubL x | imulL x | imulhL x | idivL x | iremL x | iminL x
  | imaxL x | andL x | orL x | xorL x | shlL x | shrL x | sarL x | rolL x | bfxL x | byselL x | leaL x | movl x
  | fadd x | fsub x | fmul x | ffma x | fmin x | fmax x | fcmp x | fclass x | frnd x | fscale x | fdiv x | fsqrt x
  | frcp x | frsq x | fexp2 x | flog2 x | fsinpi x | fcospi x | hadd2 x | hmul2 x | hfma2 x | dot2 x | dot4 x
  | faddI x | fsubI x | fmulI x | fminI x | fmaxI x | fcmpI x | fscaleI x | faddL x | fsubL x | fmulL x | fminL x
  | fmaxL x | fcmpL x | fscaleL x | faddF64 x | fsubF64 x | fmulF64 x | ffmaF64 x | fminF64 x | fmaxF64 x | fcmpF64 x
  | fclassF64 x | frndF64 x | fscaleF64 x | fdivF64 x | fsqrtF64 x | frcpF64 x | faddF64I x | fsubF64I x | fmulF64I x
  | fminF64I x | fmaxF64I x | fcmpF64I x | fscaleF64I x | faddF64L x | fsubF64L x | fmulF64L x | fminF64L x
  | fmaxF64L x | fcmpF64L x | fscaleF64L x =>
    exact laneOp_goes hu hc he
  | icmp x | icmpI x | icmpL x =>
    exact cmpOp_goes hu hc he
  | movs x | cvt x | qunpk x | amax x | shape x | ld x | ldu x | st x | atom x | red x | pref x | cctl x | ldI x
  | lduI x | stI x | prefI x | ldL x | lduL x | stL x | prefL x | fence x | mprog x | brx x | callx x | ret x
  | sjoin x | nop x | bra x | call x | trap x | brk x =>
    simp only [exec]
    exact issue_goes hu hc he
  | lxch x | vote x | ballot x | redux x | scan x | matchOp x | lxchI x =>
    simp only [exec]
    exact groupOp_goes hu hc he
  | qblk x =>
    simp only [exec]
    exact issueNaming_goes hu hc he
  | mat x | phclose x | phwait x | waitv x | barWait x | barmArv x | barmWait x | smap x | sunmap x | sflush x
  | sfill x | sdiscard x | squery x | cpy x | cpyg x | cpys x | copyq x | twait x | tffr x | tclr x | cntwait x
  | gset x | gcnt x | acfg x | mma x | accLd x | accSt x | accZero x | accMov x | joinpt x | sync x | yield x
  | launch x | lwait x | svc x | csrr x | csrw x =>
    simp only [exec]
    exact peelOp_goes hu hc he
  | barArv x =>
    simp only [exec]
    exact withLaps_goes (peelOp_goes hu hc he)
  | cpyt x =>
    simp only [exec, execCpyt]
    split
    · exact ⟨_, rfl⟩
    · exact issueNaming_goes hu hc he
  | exit x =>
    simp only [exec]
    exact withSweep_goes (withLaps_goes (issue_goes hu hc he))
  | trapret x =>
    simp only [exec]
    exact withSweep_goes (withLaps_goes (peelOp_goes hu hc he))
  | _ => cases hu

end

/-- Settles O9: every instruction that names operands goes through `issueNaming`, which answers for a sub-wave that exists. -/
theorem issueAnswers : Obligations.IssueAnswers := fun _ _ _ _ _ _ _ hu hc he => exec_goes hu hc he

end Sys2Proof.Machine
end

