-- ==== Sys2Proof/Proofs/StepOfChosen.lean ====
section
/-!
SUPPORT. The step of a chosen sub-wave or span, and the clause that it stands in (R75, R78, R92).
-/
namespace Sys2Proof

/-! ## The slots of a clause -/

/-- The slot holds what the decoder reads from the words `ws`, the first of which is the word of slot `ix`. -/
def Slot.From (ws : List W64) (ix : Nat) (x : Slot) : Prop :=
  ∃ j w, x.ix = ix + j ∧ ws[j]? = some w ∧ decode w.toNat ws[j + 1]? = .ok x.ins

theorem Slot.From.cons {ws : List W64} {ix : Nat} {x : Slot} (v : W64) (h : x.From ws (ix + 1)) : x.From (v :: ws) ix := by
  obtain ⟨j, w, hix, hw, hd⟩ := h
  exact ⟨j + 1, w, by omega, hw, hd⟩

theorem Slot.from_head {w : W64} {ws : List W64} {ix : Nat} {i : Instr} (h : decode w.toNat ws.head? = .ok i) :
    Slot.From (w :: ws) ix ⟨ix, i⟩ :=
  ⟨0, w, rfl, rfl, by rw [List.head?_eq_getElem?] at h; exact h⟩

theorem decodeSlots_from {cls count : Nat} {k : Bool} {ix : Nat} {ws : List W64} {l : List Slot}
    (h : decodeSlots cls count k ix ws = .ok l) : ∀ x ∈ l, x.From ws ix := by
  induction ws generalizing k ix l with
  | nil => cases h; simp
  | cons w rest ih =>
    cases k with
    | true => exact fun x hx => (ih h x hx).cons w
    | false =>
      rw [decodeSlots] at h
      split at h
      · cases h
      next i hi =>
        simp only at h
        split at h
        · cases h
        split at h
        · cases h
        split at h
        · cases h
        cases hr : decodeSlots cls count i.constant.isSome (ix + 1) rest with
        | error e => rw [hr] at h; cases h
        | ok r =>
          rw [hr] at h
          cases h
          exact List.forall_mem_cons.mpr ⟨Slot.from_head hi, fun x hx => (ih hr x hx).cons w⟩

theorem decodeClause_slots {addr room : Nat} {header : W64} {ws : List W64} {c : Clause}
    (h : decodeClause addr room header ws = .ok c) :
    decodeSlots (ClauseHeader.of header.toNat).cls (ClauseHeader.of header.toNat).count false 0 ws = .ok c.slots := by
  unfold decodeClause at h
  simp only at h
  iterate 4 split at h <;> [cases h; skip]
  split at h
  · cases h
  next hl => cases h; exact hl

end Sys2Proof

namespace Sys2Proof.Machine
open Sys2Proof

/-- A clause is decoded from the words of the code at its address (R80, R92). -/
theorem State.clauseAt_decodes {s : State} {g : Grid} {pc : Nat} {c : Clause} (h : s.clauseAt g pc = .ok c) :
    ∃ w ws, s.codeWord g.ctx pc = .ok w ∧
      s.codeWords g.ctx (pc + 8) (min ((ClauseHeader.of w).count + 1) ((g.textVa + g.textLen - pc) / 8 - 1)) = .ok ws ∧
      decodeClause pc (g.textVa + g.textLen - pc) (BitVec.ofNat 64 w) (ws.map (BitVec.ofNat 64)) = .ok c := by
  unfold State.clauseAt at h
  simp only at h
  split at h
  · cases h
  split at h
  · cases h
  next w hw =>
    split at h
    · cases h
    next ws hws =>
      split at h
      next d hd => cases h; exact ⟨w, ws, hw, hws, hd⟩
      next => cases h

/-! ## The step -/

/-- Without an event in the agenda and out of a hold in reset, what is chosen goes on. -/
theorem step_chosen {s : State} {f : Focus} (ha : s.agenda = []) (hr : s.pkg.heldReset = 0) (hc : s.cur = some f) :
    step s = ticked (runFocus f s) := by
  simp [step, State.advance, ha, hr, hc]

theorem step_event {s : State} {i : Instr} {l : List Instr} (ha : s.agenda = i :: l) (hr : s.pkg.heldReset = 0) :
    step s = ticked (exec i { s with agenda := l }) := by
  simp [step, State.advance, ha, hr]

/-- The issue of what is chosen, once its clause has been fetched and started where that may be. -/
def State.runBegun (f : Focus) (s : State) : Res :=
  if s.inClause f then
    match s.instrAt f with
    | some i => unchosen (exec i { s with cur := some f })
    | none => .next { s with cur := none }
  else .next { s with cur := none }

theorem runFocus_eq_runBegun (f : Focus) (s : State) : runFocus f s = (s.begin_ f).runBegun f := rfl

theorem State.begin_inClause {s : State} {f : Focus} (hin : s.inClause f = true) : s.begin_ f = s := if_pos hin

theorem State.begin_boundary {s : State} {f : Focus} (hin : s.inClause f = false) :
    s.begin_ f = (s.fetchFor f).startFor f := if_neg (by simp [hin])

theorem State.runBegun_inClause {s : State} {f : Focus} {i : Instr} (hc : s.cur = some f) (hin : s.inClause f = true)
    (hi : s.instrAt f = some i) : s.runBegun f = unchosen (exec i s) := by
  have hs : { s with cur := some f } = s := by rw [← hc]
  simp only [State.runBegun, hin, hi, if_true, hs]

/-- Settles O1: an event of the agenda comes first; else what is chosen runs the instruction that its clause holds, at once
or after its fetch and start. -/
theorem stepRuns : Obligations.StepRuns := by
  refine ⟨?_, ?_, ?_, ?_, ?_⟩
  · intro s f i ha hr hc hin hi
    rw [step_chosen ha hr hc, runFocus_eq_runBegun, State.begin_inClause hin, State.runBegun_inClause hc hin hi]
  · intro s f ha hr hc hin
    rw [step_chosen ha hr hc, runFocus_eq_runBegun, State.begin_boundary hin]
    rfl
  · exact fun s i l ha hr => step_event ha hr
  · intro addr room h ws c hc x hx
    obtain ⟨j, w, hix, hw, hd⟩ := decodeSlots_from (decodeClause_slots hc) x hx
    obtain rfl : x.ix = j := by omega
    exact ⟨w, hw, hd⟩
  · exact fun s g pc c h => State.clauseAt_decodes h

/-- An instruction that encodes to a printed word is what the decoder reads from it (O3). -/
theorem toOption_decode_of_encode {i : Instr} {w : Nat} (hk : i.constant = none) (hw : i.wf = true) (he : encode i = some w) :
    (decode w none).toOption = some i := by
  rw [← hk, encodeDecode.1 i w hw he]
  rfl

/-- Settles O2: each instruction is well formed, without a constant, and encodes to the printed word. -/
theorem decodeWords : Obligations.DecodeWords := by
  unfold Obligations.DecodeWords
  and_intros <;> exact toOption_decode_of_encode rfl rfl rfl

end Sys2Proof.Machine
end

