-- ==== Sys2Proof/Proofs/Reliability.lean ====
section
/-!
SUPPORT. The events of errors, vents and their logs (R97, R391, R393, R395, R397, R398, R407, R438).
-/
namespace Sys2Proof.Machine
open Sys2Proof

/-- The vent that VENT_START finds has not begun (R397). -/
theorem started_of_find? {l : List Vent} {p : Vent → Bool} {v : Vent} (h : (l.find? fun v => !v.started && p v) = some v) :
    v.started = false := by
  have := List.find?_some h
  simp only [Bool.and_eq_true, Bool.not_eq_true'] at this
  exact this.1

/-- The slices in service follow from the dead ones alone. -/
theorem State.slicesLeft_congr {s t : State} (h : t.pkg.deadSlices = s.pkg.deadSlices) (die : Nat) :
    t.slicesLeft die = s.slicesLeft die := by
  simp only [State.slicesLeft, h]

theorem State.modVents_deadSlices (s : State) (b : BankRef) (f : List Vent → List Vent) :
    (s.modVents b f).pkg.deadSlices = s.pkg.deadSlices := by
  unfold State.modVents
  split <;> rfl

theorem State.markStarted_deadSlices (s : State) (b : BankRef) (n : Nat) (c : Cap) :
    (s.markStarted b n c).pkg.deadSlices = s.pkg.deadSlices := s.modVents_deadSlices b _

/-- A move of the second part of a pair alone is a move of the pair. -/
theorem pair_if_snd (a : Nat × Nat) (p : Prop) [Decidable p] (x : Nat) :
    (a.1, if p then x else a.2) = if p then (a.1, x) else a := by
  split <;> rfl

/-- Settles O55: each event takes the branch that its premises name; a waiting vent has not begun, its start and its log entry
retire no further slice, and a moved page takes its allocations with it. The place of a mismatch is log 103, the vents of pool
banks and their cycles are logs 98 and 99, the vent of cache ways is log 46. -/
theorem reliabilityEvents : Obligations.ReliabilityEvents := by
  refine ⟨?_, ?_, ?_, ?_, ?_, ?_, ?_, ?_, ?_, ?_, ?_, ?_, ?_, ?_, ?_, ?_, ?_, ?_, ?_⟩
  · rintro team wave again tm w s ⟨hteam, hwave, hstate, htwice⟩
    simp only [exec, execScoreboardMismatch, hteam, hwave, hstate, htwice, bne_self_eq_false, Bool.false_eq_true, if_false]
  · rintro team wave tm w s ⟨hteam, hwave, hstate, htwice⟩
    simp only [exec, execScoreboardMismatch, hteam, hwave, hstate, htwice, bne_self_eq_false, Bool.false_eq_true, if_false,
      Bool.and_self, if_true]
  · exact fun team sub site s => rfl
  · exact fun b addr s => rfl
  · intro b site s hsite
    cases site with
    | uniform t => exact absurd rfl (hsite t)
    | _ => rfl
  · exact fun b t s => rfl
  · exact fun b place s => rfl
  · exact fun b place s => rfl
  · exact fun b place s => ⟨_, rfl, rfl⟩
  · rintro ⟨st, unit, bank⟩ v s ⟨⟨hl2, hhbm⟩, hbusy, hfind⟩
    have hidle := started_of_find? hfind
    cases st with
    | l2 => exact absurd rfl hl2
    | hbm => exact absurd rfl hhbm
    | pool | stash | acc | l1 | icache =>
      simp only [exec, execVentStart, hfind, hbusy, hidle, Bool.or_self, Bool.false_eq_true, if_false]
  · rintro ⟨st, unit, bank⟩ v s ⟨rfl, hfind⟩
    simp only [exec, execVentStart, hfind, started_of_find? hfind, Bool.or_self, Bool.false_eq_true, if_false]
  · rintro ⟨st, unit, bank⟩ s ⟨hl2, hhbm⟩
    cases st with
    | l2 => exact absurd rfl hl2
    | hbm => exact absurd rfl hhbm
    | pool | stash | acc | l1 | icache => rfl
  · rintro slice s ⟨hvent, hentries⟩
    simp only [exec, execL2SliceHandover, hvent, hentries, Bool.not_true, Bool.false_eq_true, if_false]
  · rintro ⟨st, unit, bank⟩ v s ⟨rfl, hfind, hleft⟩
    simp only [exec, execVentStart, hfind, started_of_find? hfind, Bool.or_self, Bool.false_eq_true, if_false]
    rw [if_neg]
    rw [State.slicesLeft_congr ((State.markStarted_deadSlices _ _ _ _).trans (State.logEvent_deadSlices _ _ _))]
    exact Bool.eq_false_iff.mp hleft
  · rintro slice d i r s ⟨hvent, hentries, hidle⟩
    simp only [exec, execL2SliceHandover, hvent, hentries, hidle, Bool.not_true, Bool.false_eq_true, if_false] <;> rfl
  · rintro dev frame target s ⟨hpage, hframe, hfree, hlive⟩
    simp only [exec, execHbmPageMove, hpage, State.moveBacking, hframe, hfree, hlive, Bool.not_false, Bool.and_self, if_true]
  · rintro dev frame target n s ⟨hpage, hfree, hwhole⟩
    simp only [exec, execHbmPageMove, hpage, hfree, hwhole, Bool.not_true, Bool.or_self, Bool.false_eq_true, if_false,
      pair_if_snd] <;> rfl
  · rintro b t n s ⟨hwindow, htime⟩
    simp only [exec, execErrLogWindowClose, hwindow, Nat.not_lt.mpr htime, if_false]
  · exact fun team sector s => rfl

end Sys2Proof.Machine
end

