-- ==== Sys2Proof/Proofs/LaneResults.lean ====
section
/-!
SUPPORT. What a lane-wise answer gives, and the lane functions that deliver values and bits alone: integer arithmetic (R141) and
the bit counts (R148).
-/
namespace Sys2Proof.Machine
open Sys2Proof

/-! ## Results without flags, traps and draws -/

/-- The lane delivers values and bits alone: no flag, no trap of its own, no division by zero and no draw. -/
structure LaneOut.Silent (o : LaneOut) : Prop where
  fl : o.fl = 0
  ovTrap : o.ovTrap = false
  divz : o.divz = false
  draws : o.draws = 0
  other : o.other = none

theorem LaneOut.silent_val (x : Nat) : (LaneOut.val x).Silent := ⟨rfl, rfl, rfl, rfl, rfl⟩

theorem LaneOut.silent_bit (b : Bool) : (LaneOut.bit b).Silent := ⟨rfl, rfl, rfl, rfl, rfl⟩

/-- A silent result raises no trap, whatever CTL enables (R126, R129, R142). -/
theorem LaneOut.Silent.trap_eq {o : LaneOut} (h : o.Silent) (ctl : W64) : o.trap ctl = none := by
  simp [LaneOut.trap, h.fl, h.ovTrap, h.divz, h.other]

/-- What the lane function `f` gives over the participants: the result of `LaneLaw` (R85, R138). -/
def laneGives (f : LaneIn → LaneOut) (u : Use) (e : Ex) : Gives :=
  { val := some fun k => ((f (e.lane u k)).vals[0]?).getD 0
    bit := fun k => ((f (e.lane u k)).bits[0]?).getD false
    fl := (lanesIn (e.parts u)).foldl (fun fl k => fl ||| (f (e.lane u k)).fl) 0
    divz := (lanesIn (e.parts u)).any fun k => (f (e.lane u k)).divz
    draws := (lanesIn (e.parts u)).filterMap fun k =>
      if (f (e.lane u k)).draws = 0 then none else some (k, (f (e.lane u k)).draws) }

theorem laneLaw_iff {i : Instr} {f : LaneIn → LaneOut} :
    LaneLaw i f ↔ RegLaw i (fun _ u e => ∀ k ∈ lanesIn (e.parts u), (f (e.lane u k)).trap e.wave.ctl = none)
      fun _ u e => laneGives f u e := Iff.rfl

/-- Silent participants give their values and their bits alone. -/
theorem laneGives_silent {f : LaneIn → LaneOut} {u : Use} {e : Ex}
    (h : ∀ k ∈ lanesIn (e.parts u), (f (e.lane u k)).Silent) :
    laneGives f u e =
      { val := some fun k => ((f (e.lane u k)).vals[0]?).getD 0
        bit := fun k => ((f (e.lane u k)).bits[0]?).getD false } := by
  have hfl : (lanesIn (e.parts u)).foldl (fun fl k => fl ||| (f (e.lane u k)).fl) 0 = 0 :=
    foldl_keeps (fun fl k => fl ||| (f (e.lane u k)).fl) id _ 0 fun fl k hk => by simp [(h k hk).fl]
  have hdivz : ((lanesIn (e.parts u)).any fun k => (f (e.lane u k)).divz) = false :=
    List.any_eq_false.2 fun k hk => by simp [(h k hk).divz]
  have hdraws : ((lanesIn (e.parts u)).filterMap fun k =>
      if (f (e.lane u k)).draws = 0 then none else some (k, (f (e.lane u k)).draws)) = [] :=
    List.filterMap_eq_nil_iff.2 fun k hk => if_pos (h k hk).draws
  rw [laneGives, hfl, hdivz, hdraws]

/-- Where its participants are silent, a lane-wise instruction completes without a trap and leaves the sticky words. -/
theorem LaneLaw.silent {i : Instr} {f : LaneIn → LaneOut} {ok : State → Use → Ex → Prop} (h : LaneLaw i f)
    (hq : ∀ s u e, ok s u e → ∀ k ∈ lanesIn (e.parts u), (f (e.lane u k)).Silent) :
    RegLaw i ok fun _ u e =>
      { val := some fun k => ((f (e.lane u k)).vals[0]?).getD 0
        bit := fun k => ((f (e.lane u k)).bits[0]?).getD false } := by
  intro s u e hi hf ho
  have hk := hq s u e ho
  obtain ⟨t, w, w', hx, hr⟩ := laneLaw_iff.1 h s u e hi hf fun k hm => (hk k hm).trap_eq _
  have hgives : Issued u e (laneGives f u e) s t w w' := hr
  rw [laneGives_silent hk] at hgives
  exact ⟨t, w, w', hx, hgives⟩

/-- An instruction that gives each participant a value, and nothing else, always completes. -/
theorem LaneLaw.gives_val {i : Instr} {g : LaneIn → Nat} (h : LaneLaw i fun v => .val (g v)) :
    RegLaw i (fun _ _ _ => True) fun _ u e => { val := some fun k => g (e.lane u k) } :=
  h.silent fun _ _ _ _ _ _ => LaneOut.silent_val _

/-! ## Integer arithmetic (R141, R142) -/

/-- Wherever `ok` holds the instruction completes without a trap, and leaves FPFLAGS and TSTAT as they were (R141). -/
def CompletesSilently (i : Instr) (ok : State → Use → Ex → Prop) : Prop :=
  ∃ (v : State → Use → Ex → Option (Nat → Nat)) (b : State → Use → Ex → Nat → Bool),
    RegLaw i ok fun s u e => { val := v s u e, bit := b s u e }

theorem laneOp_completesSilently {i : Instr} {rule : SpanRule} {f : LaneIn → LaneOut}
    (hx : ∀ s, exec i s = laneOp i rule f s) (hq : ∀ v, (f v).Silent) : CompletesSilently i fun _ _ _ => True :=
  ⟨_, _, (laneOp_law hx).silent fun _ _ _ _ _ _ => hq _⟩

theorem cmpOp_completesSilently {i : Instr} {t : ITy} {rel : Rel} {k : Option Nat}
    (hx : ∀ s, exec i s = cmpOp i t rel k s) : CompletesSilently i fun _ _ _ => True :=
  ⟨_, _, (cmpOp_law hx).silent fun _ _ _ _ _ _ => LaneOut.silent_bit _⟩

/-- A division or remainder in one lane (R142). -/
def divLane (t : ITy) (rem : Bool) (a b : Nat) : LaneOut :=
  { vals := [(opDivRem t rem a b).1], divz := (opDivRem t rem a b).2 }

/-- A division by a number other than zero reports none. -/
theorem divLane_silent_of_ne {t : ITy} {rem : Bool} {a b : Nat} (h : readI t b ≠ 0) : (divLane t rem a b).Silent :=
  ⟨rfl, rfl, by simp only [divLane, opDivRem, if_neg h], rfl, rfl⟩

/-- A division by `y` of the lane. -/
theorem division_completesSilently {i : Instr} {rule : SpanRule} {t : ITy} {rem : Bool} (y : LaneIn → Nat)
    (hx : ∀ s, exec i s = laneOp i rule (fun v => divLane t rem v.a (y v)) s) :
    CompletesSilently i fun _ u e => ∀ k ∈ lanesIn (e.parts u), readI t (y (e.lane u k)) ≠ 0 :=
  ⟨_, _, (laneOp_law hx).silent fun _ _ _ ho k hk => divLane_silent_of_ne (ho k hk)⟩

/-- Settles O11: the lane function of each instruction delivers values or bits alone; that of the six divisions, which stand first
here, reports a zero divisor besides, and that of the three forms of ICMP, which come next, is a comparison. -/
theorem integerSilence : Obligations.IntegerSilence := by
  unfold Obligations.IntegerSilence
  and_intros
  rotate_left 17
  · exact fun x => division_completesSilently LaneIn.b fun _ => rfl
  · exact fun x => division_completesSilently (fun _ => x.k) fun _ => rfl
  · exact fun x => division_completesSilently (fun _ => x.k.toNat) fun _ => rfl
  · exact fun x => division_completesSilently LaneIn.b fun _ => rfl
  · exact fun x => division_completesSilently (fun _ => x.k) fun _ => rfl
  · exact fun x => division_completesSilently (fun _ => x.k.toNat) fun _ => rfl
  rotate_left 7
  · exact fun x => cmpOp_completesSilently fun _ => rfl
  · exact fun x => cmpOp_completesSilently fun _ => rfl
  · exact fun x => cmpOp_completesSilently fun _ => rfl
  all_goals exact fun x => laneOp_completesSilently (fun _ => rfl) fun _ => ⟨rfl, rfl, rfl, rfl, rfl⟩

/-! ## Bit counts (R148) -/

/-- A fold that counts is the length of a filter. -/
theorem foldl_count {α : Type} (p : α → Bool) (l : List α) (n : Nat) :
    l.foldl (fun n a => if p a then n + 1 else n) n = n + (l.filter p).length := by
  induction l generalizing n with
  | nil => rfl
  | cons a l ih =>
    rw [List.foldl_cons, ih, List.filter_cons]
    split
    · rw [List.length_cons, Nat.add_right_comm, Nat.add_assoc]
    · rfl

theorem toBit_div (a i : Nat) : toBit (a / 2 ^ i) = a.testBit i := by
  rw [Nat.testBit_eq_decide_div_mod_eq, toBit]
  rfl

/-- POPC is the number of the positions that hold a one. -/
theorem opPopc_eq (t : ITy) (a : Nat) : opPopc t a = ((List.range t.width).filter fun i => a.testBit i).length := by
  have hstep : (fun n i => n + a / 2 ^ i % 2) = fun n i => if a.testBit i then n + 1 else n := by
    funext n i
    simp only [← toBit_div, toBit, beq_iff_eq]
    split <;> omega
  rw [opPopc, hstep, foldl_count, Nat.zero_add]

/-- CLZ of a number other than zero points at its highest one. -/
theorem opClz_spec {t : ITy} {a : Nat} (h : a % 2 ^ t.width ≠ 0) :
    opClz t a < t.width ∧ t.width - 1 - opClz t a = (a % 2 ^ t.width).log2 := by
  have hlog : (a % 2 ^ t.width).log2 < t.width := (Nat.log2_lt h).2 (Nat.mod_lt _ (Nat.two_pow_pos _))
  unfold opClz bitLen low
  rw [if_neg h]
  omega

theorem opClz_zero {t : ITy} {a : Nat} (h : a % 2 ^ t.width = 0) : opClz t a = t.width := by
  unfold opClz bitLen low
  rw [if_pos h, Nat.sub_zero]

/-- A bit below the width, read from the whole number. -/
theorem testBit_low {w i a : Nat} (h : i < w) : (a % 2 ^ w).testBit i = a.testBit i := by
  rw [Nat.testBit_mod_two_pow, decide_eq_true h, Bool.true_and]

/-- CTZ of a number other than zero is the place of its lowest one. -/
theorem opCtz_spec {t : ITy} {a : Nat} (h : a % 2 ^ t.width ≠ 0) :
    opCtz t a < t.width ∧ a.testBit (opCtz t a) = true ∧ ∀ i < opCtz t a, a.testBit i = false := by
  simp only [opCtz, toBit_div]
  cases hf : (List.range t.width).find? fun i => a.testBit i with
  | none =>
    obtain ⟨i, hi⟩ := Nat.exists_testBit_of_ne_zero h
    rw [Nat.testBit_mod_two_pow, Bool.and_eq_true, decide_eq_true_eq] at hi
    have := List.find?_range_eq_none.1 hf i hi.1
    simp [hi.2] at this
  | some k =>
    obtain ⟨hk, hmem, hlow⟩ := List.find?_range_eq_some.1 hf
    exact ⟨List.mem_range.1 hmem, hk, fun i hi => by simpa using hlow i hi⟩

theorem opCtz_zero {t : ITy} {a : Nat} (h : a % 2 ^ t.width = 0) : opCtz t a = t.width := by
  have hnone : ((List.range t.width).find? fun i => toBit (a / 2 ^ i)) = none :=
    List.find?_range_eq_none.2 fun i hi => by
      rw [toBit_div, ← testBit_low hi, h, Nat.zero_testBit]
      rfl
  rw [opCtz, hnone, Option.getD_none]

/-- Settles O14: each instruction gives its count, and the count is a number of ones or the place of one. -/
theorem bitCounts : Obligations.BitCounts := by
  refine ⟨fun x => ⟨_, (laneOp_law fun _ => rfl).gives_val, fun s u e k => opPopc_eq x.t _⟩,
    fun x => ⟨_, (laneOp_law fun _ => rfl).gives_val, fun s u e k => ⟨opClz_zero, fun h => ?_⟩⟩,
    fun x => ⟨_, (laneOp_law fun _ => rfl).gives_val, fun s u e k => ⟨opCtz_zero, fun h => ?_⟩⟩⟩
  · obtain ⟨hlt, hlog⟩ := opClz_spec h
    refine ⟨hlt, ?_⟩
    rw [hlog]
    exact ⟨Nat.testBit_log2 h, fun i hi => Nat.testBit_lt_two_pow ((Nat.log2_lt h).1 hi)⟩
  · obtain ⟨hlt, hone, hzero⟩ := opCtz_spec h
    exact ⟨hlt, (testBit_low hlt).trans hone, fun i hi => (testBit_low (by omega)).trans (hzero i hi)⟩

end Sys2Proof.Machine
end

