-- ==== Sys2Proof/Proofs/IntegerDivision.lean ====
section
/-!
SUPPORT. READ and WRITE of integers (R137), and division with a quotient rounded toward zero (R142).
-/
namespace Sys2Proof.Machine
open Sys2Proof

/-! ## READ and WRITE (R137) -/

/-- The integers that a type holds. -/
def Fits (t : ITy) (v : Int) : Prop := t.tmin ≤ v ∧ v ≤ t.tmax

theorem two_pow_width (t : ITy) : 2 ^ t.width = 2 * 2 ^ (t.width - 1) := by
  cases t <;> rfl

/-- The top bit of a pattern of the type's width. -/
theorem toBit_top {w b : Nat} (h : b < 2 * 2 ^ w) : toBit (b / 2 ^ w) = decide (2 ^ w ≤ b) := by
  have hlt : b / 2 ^ w < 2 := Nat.div_lt_of_lt_mul (by rwa [mul_comm])
  have hle : 1 ≤ b / 2 ^ w ↔ 2 ^ w ≤ b := by rw [Nat.le_div_iff_mul_le (Nat.two_pow_pos w), one_mul]
  unfold toBit
  rw [Bool.eq_iff_iff, beq_iff_eq, decide_eq_true_iff, ← hle]
  generalize b / 2 ^ w = q at hlt
  omega

/-- READ gives an integer of the type that agrees with the operand in the type's bits. -/
theorem readI_spec (t : ITy) (x : Nat) : Fits t (readI t x) ∧ readI t x % 2 ^ t.width = (x : Int) % 2 ^ t.width := by
  have hb : x % 2 ^ t.width < 2 * 2 ^ (t.width - 1) := two_pow_width t ▸ Nat.mod_lt _ (Nat.two_pow_pos _)
  have hw : (2 ^ t.width : Int) = 2 * 2 ^ (t.width - 1) := mod_cast two_pow_width t
  have hx : ((x % 2 ^ t.width : Nat) : Int) = (x : Int) % 2 ^ t.width := by push_cast; rfl
  unfold readI
  simp only [toBit_top hb]
  generalize x % 2 ^ t.width = b at hb hx ⊢
  have hb' : (b : Int) < 2 * 2 ^ (t.width - 1) := mod_cast hb
  cases hs : t.signed
  · have hfit : Fits t b := by simp only [Fits, ITy.tmin, ITy.tmax, hs, Bool.false_eq_true, if_false]; omega
    refine ⟨by simpa using hfit, ?_⟩
    simp [hx]
  · by_cases htop : 2 ^ (t.width - 1) ≤ b
    · have htop' : (2 ^ (t.width - 1) : Int) ≤ b := mod_cast htop
      simp only [htop, decide_true, Bool.and_self, if_true, Fits, ITy.tmin, ITy.tmax, hs]
      refine ⟨by omega, ?_⟩
      rw [Int.sub_emod_right, hx, Int.emod_emod]
    · have htop' : (b : Int) < 2 ^ (t.width - 1) := mod_cast Nat.not_le.1 htop
      simp only [htop, decide_false, Bool.and_false, Bool.false_eq_true, if_false, Fits, ITy.tmin, ITy.tmax, hs, if_true]
      exact ⟨by omega, by rw [hx, Int.emod_emod]⟩

/-- A type holds as many integers as there are patterns of its width. -/
theorem tmax_eq (t : ITy) : t.tmax = t.tmin + 2 ^ t.width - 1 := by
  have hw : (2 ^ t.width : Int) = 2 * 2 ^ (t.width - 1) := mod_cast two_pow_width t
  unfold ITy.tmin ITy.tmax
  split <;> omega

/-- Two integers of a type that agree in its bits are equal. -/
theorem Fits.eq_of_emod {t : ITy} {v w : Int} (hv : Fits t v) (hw : Fits t w) (h : v % 2 ^ t.width = w % 2 ^ t.width) :
    v = w := by
  have hdvd : (2 ^ t.width : Int) ∣ v - w := Int.dvd_of_emod_eq_zero (Int.emod_eq_emod_iff_emod_sub_eq_zero.1 h)
  have hlt : |v - w| < 2 ^ t.width := by
    have := tmax_eq t
    unfold Fits at hv hw
    rw [abs_lt]
    omega
  have := Int.eq_zero_of_abs_lt_dvd hdvd hlt
  omega

/-- The pattern that WRITE leaves agrees with the value in the type's bits. -/
theorem writeI_emod {t : ITy} (h : t.width = 64 ∨ t.width ≤ 32) (v : Int) :
    (writeI t false v : Int) % 2 ^ t.width = v % 2 ^ t.width := by
  have hwrap (n : Nat) (v : Int) : (wrap n v : Int) = v % 2 ^ n := Int.toNat_of_nonneg (Int.emod_nonneg _ (by positivity))
  unfold writeI
  simp only [Bool.false_eq_true, if_false]
  split
  · rw [hwrap, Int.emod_emod]
  · have hdvd : (2 ^ t.width : Int) ∣ 2 ^ 32 := pow_dvd_pow 2 (by omega)
    rw [hwrap, Int.emod_emod_of_dvd _ hdvd, (readI_spec t _).2, hwrap, Int.emod_emod]

/-- What is read of a written value: the value of the type that agrees with it. -/
theorem readI_writeI {t : ITy} (h : t.width = 64 ∨ t.width ≤ 32) {v w : Int} (hw : Fits t w)
    (hm : v % 2 ^ t.width = w % 2 ^ t.width) : readI t (writeI t false v) = w :=
  (readI_spec t _).1.eq_of_emod hw (((readI_spec t _).2.trans (writeI_emod h v)).trans hm)

/-! ## Quotient and remainder (R142) -/

/-- A type holds zero and its least number. -/
theorem fits_zero_tmin (t : ITy) : Fits t 0 ∧ Fits t t.tmin := by
  have hp : (0 : Int) < 2 ^ (t.width - 1) := by positivity
  have hw : (2 ^ t.width : Int) = 2 * 2 ^ (t.width - 1) := mod_cast two_pow_width t
  unfold Fits ITy.tmin ITy.tmax
  split <;> omega

/-- The least number of a signed type and its negation agree in the type's bits. -/
theorem neg_tmin_emod {t : ITy} (h : t.signed = true) : -t.tmin % 2 ^ t.width = t.tmin % 2 ^ t.width := by
  have hw : (2 ^ t.width : Int) = 2 * 2 ^ (t.width - 1) := mod_cast two_pow_width t
  rw [Int.emod_eq_emod_iff_emod_sub_eq_zero]
  simp only [ITy.tmin, h, if_true, hw]
  exact Int.emod_eq_zero_of_dvd ⟨1, by ring⟩

/-- A quotient as large as its dividend has a divisor of magnitude 1. -/
theorem natAbs_of_tdiv {x y : Int} (hx : x ≠ 0) (h : (x.tdiv y).natAbs = x.natAbs) : y = 1 ∨ y = -1 := by
  rw [Int.natAbs_tdiv] at h
  have : y.natAbs = 1 := (Nat.div_eq_self.1 h).resolve_left (by omega)
  omega

/-- The quotient of two numbers of a type is one of it, but for the least number by -1. -/
theorem Fits.tdiv {t : ITy} {x y : Int} (hx : Fits t x) (hy : Fits t y) (hc : ¬ (t.signed = true ∧ x = t.tmin ∧ y = -1)) :
    Fits t (x.tdiv y) := by
  have habs := Int.natAbs_tdiv_le_natAbs x y
  have hp : (0 : Int) < 2 ^ (t.width - 1) := by positivity
  unfold Fits ITy.tmin ITy.tmax at *
  cases hs : t.signed
  · simp only [hs, Bool.false_eq_true, if_false] at hx hy ⊢
    have := Int.tdiv_nonneg hx.1 hy.1
    omega
  · simp only [hs, if_true, true_and] at hx hy hc ⊢
    by_contra hout
    have hleast : x = -2 ^ (t.width - 1) ∧ x.tdiv y = 2 ^ (t.width - 1) := by omega
    obtain rfl | rfl := natAbs_of_tdiv (x := x) (y := y) (by omega) (by omega)
    · rw [Int.tdiv_one] at hleast
      omega
    · exact hc ⟨hleast.1, rfl⟩

/-- The remainder has the sign of the dividend. -/
theorem tmod_sign (x y : Int) : (0 < x.tmod y → 0 < x) ∧ (x.tmod y < 0 → x < 0) := by
  constructor
  · intro h
    by_contra hx
    have := Int.tmod_nonneg y (a := -x) (by omega)
    rw [Int.neg_tmod] at this
    omega
  · intro h
    by_contra hx
    have := Int.tmod_nonneg y (a := x) (by omega)
    omega

/-- A remainder of a number of a type is one of it. -/
theorem Fits.tmod {t : ITy} {x : Int} (hx : Fits t x) (y : Int) : Fits t (x.tmod y) := by
  have habs : (x.tmod y).natAbs ≤ x.natAbs := Int.natAbs_tmod x y ▸ Nat.mod_le _ _
  have hsign := tmod_sign x y
  have hzero := (fits_zero_tmin t).1
  unfold Fits at *
  omega

/-- Quotient and remainder of a division by another number than zero, each where the type holds it. -/
theorem readI_opDivRem {t : ITy} (h : t.width = 64 ∨ t.width ≤ 32) {a b : Nat} (hb : readI t b ≠ 0) :
    (¬ (t.signed = true ∧ readI t a = t.tmin ∧ readI t b = -1) →
      readI t (opDivRem t false a b).1 = (readI t a).tdiv (readI t b)) ∧
    readI t (opDivRem t true a b).1 = (readI t a).tmod (readI t b) := by
  have hx := (readI_spec t a).1
  simp only [opDivRem, if_neg hb, Bool.false_eq_true, if_false, if_true]
  exact ⟨fun hc => readI_writeI h (hx.tdiv (readI_spec t b).1 hc) rfl, readI_writeI h (hx.tmod _) rfl⟩

/-- A division by zero gives quotient 0 and the dividend as the remainder. -/
theorem readI_opDivRem_zero {t : ITy} (h : t.width = 64 ∨ t.width ≤ 32) {a b : Nat} (hb : readI t b = 0) :
    readI t (opDivRem t false a b).1 = 0 ∧ readI t (opDivRem t true a b).1 = readI t a := by
  simp only [opDivRem, if_pos hb, Bool.false_eq_true, if_false, if_true]
  exact ⟨readI_writeI h (fits_zero_tmin t).1 rfl, readI_writeI h (readI_spec t a).1 rfl⟩

/-- The least number by -1 wraps to the least number. -/
theorem readI_opDivRem_corner {t : ITy} (h : t.width = 64 ∨ t.width ≤ 32) {a b : Nat} (hs : t.signed = true)
    (ha : readI t a = t.tmin) (hb : readI t b = -1) : readI t (opDivRem t false a b).1 = t.tmin := by
  simp only [opDivRem, ha, hb, Bool.false_eq_true, if_false]
  rw [if_neg (by decide)]
  refine readI_writeI h (fits_zero_tmin t).2 ?_
  rw [Int.tdiv_neg, Int.tdiv_one]
  exact neg_tmin_emod hs

theorem opDivRem_divz (t : ITy) (rem : Bool) (a b : Nat) : (opDivRem t rem a b).2 = decide (readI t b = 0) := by
  by_cases h : readI t b = 0 <;> simp [opDivRem, h]

/-- Settles O12: the division rounds toward zero, and its quotient fits the type but for the least number by -1. -/
theorem divisionLaw : Obligations.DivisionLaw := by
  intro t ht a b
  have hw : t.width = 64 ∨ t.width ≤ 32 := by revert t; decide
  refine ⟨opDivRem_divz t false a b, opDivRem_divz t true a b, readI_opDivRem_zero hw, ?_, ?_⟩
  · rintro ⟨hs, ha, hb⟩
    refine ⟨readI_opDivRem_corner hw hs ha hb, ?_⟩
    rw [(readI_opDivRem hw (by omega)).2, hb, Int.tmod_neg, Int.tmod_one]
  · intro hb hc
    obtain ⟨hq, hr⟩ := readI_opDivRem hw (a := a) hb
    rw [hq hc, hr]
    refine ⟨(Int.tdiv_mul_add_tmod _ _).symm, ?_, tmod_sign _ _⟩
    rw [Int.natAbs_tmod]
    exact Nat.mod_lt _ (by omega)

end Sys2Proof.Machine
end

