-- ==== Sys2Proof/Proofs/Conversions.lean ====
section
/-!
SUPPORT. Special registers, shapes, conversion and unpacking (R156, R171, R188 to R191, R193).
-/
namespace Sys2Proof.Machine
open Sys2Proof

/-- An answer that gives the values `f` to the destinations and raises the flags `fl`. -/
theorem answers_vals {u : Use} {e : Ex} (hpw : u.pw = []) (f : Nat → Nat) (fl : FFlags) :
    Answers u e { val := some f, fl := fl } { regs := u.wr.map fun d => (d, e.parts u, f), fl := fl } :=
  ⟨rfl, rfl, Or.inl ⟨f, rfl, rfl⟩, Or.inr ⟨Or.inr hpw, rfl⟩, rfl, rfl, rfl⟩

/-- The random bits matter under SR alone (R123, R125). -/
theorem roundAt_draw {rm : RM} (h : rm ≠ .sr) (neg : Bool) (m : Nat) (e q : Int) (sticky : Bool) (r r' : Nat) :
    roundAt rm neg m e q sticky r = roundAt rm neg m e q sticky r' := by
  have step (M rem sh : Nat) : stepsAway rm neg M rem sh sticky r = stepsAway rm neg M rem sh sticky r' := by
    cases rm with
    | sr => exact absurd rfl h
    | _ => rfl
  simp only [roundAt, step]

theorem deliver_draw {rm : RM} (h : rm ≠ .sr) (t : FTy) (ovf : Ovf) (ftz : Bool) (v : FVal) (r r' : Nat) :
    deliver t rm ovf ftz r v = deliver t rm ovf ftz r' v := by
  cases v with
  | nan => rfl
  | inf => rfl
  | fin neg m e sticky => simp only [deliver, roundNum, roundAt_draw h neg m _ _ sticky r r']

theorem cvtLane_draw {x : Cvt} (h : x.rm ≠ .sr) (ctl : W64) (a r r' : Nat) : cvtLane x ctl a r = cvtLane x ctl a r' := by
  unfold cvtLane
  cases x.td with
  | int t => rfl
  | flt t => simp only [deliver_draw h _ _ _ _ r r']

/-- Where no participant traps and none reads a released register, a lane-wise answer gives what its lanes compute. -/
theorem lanewise_answers {u : Use} {e : Ex} {f : LaneIn → LaneOut} (hs : SingleUse u) (hfresh : e.fresh u)
    (htrap : ∀ k ∈ lanesIn (e.parts u), (f (e.lane u k)).trap e.wave.ctl = none) :
    Answers u e (laneGives f u e) (e.wave.lanewise e.sub.depth e.sub.mask (e.parts u) u f) := by
  have hstale := Wave.staleTraps_fresh e.wave e.sub.depth e.sub.mask (e.parts u) u.rd hfresh
  have hrun : ((lanesIn (e.parts u)).filter fun i => !([] : LaneTraps).any fun q => q.1 == i) = lanesIn (e.parts u) := by
    simp
  have hbit (k : Nat) (hk : k ∈ lanesIn (e.parts u)) :
      (laneGives f u e).bit k = (lanesOf fun k => ((f (e.lane u k)).bits[0]?).getD false).getLsbD k :=
    (lanesOf_bit _ k (BitVec.lt_of_getLsbD ((mem_lanesIn _ k).1 hk))).symm
  refine ⟨?_, Wave.staleSets_fresh _ _ _ _ _ hfresh, Or.inl ⟨_, rfl, ?_⟩, Or.inl ⟨_, ?_, hbit⟩, ?_, ?_, ?_⟩
  · simp only [Wave.lanewise, hstale, hrun, List.nil_append, List.filterMap_eq_nil_iff, Option.map_eq_none_iff]
    exact htrap
  · match hwr : u.wr, hs.wr with
    | [], _ => simp [Wave.lanewise, hwr]
    | [d], _ => simp [Wave.lanewise, hwr, Ex.lane]
  · match hpw : u.pw, hs.pw with
    | [], _ => simp [Wave.lanewise, hpw]
    | [d], _ => simp [Wave.lanewise, hpw, Ex.lane]
  · simp only [Wave.lanewise, hstale, hrun, laneGives, Ex.lane]
  · simp only [Wave.lanewise, hstale, hrun, laneGives, Ex.lane]
  · simp only [Wave.lanewise, hstale, hrun, laneGives, Ex.lane]
    rfl

/-- The participant whose draw a conversion to a uniform register takes: a free one (log 15). -/
def cvtDrawer (s : State) (p : Lanes) : Nat := ((lanesIn p)[Config.freeNat s.fresh % laneCount p]?).getD 0

/-- A conversion of the wave of `e`, with the draw of lane `q` for a uniform destination. -/
def cvtOf (x : Cvt) (e : Ex) (q : Nat) (v : LaneIn) : LaneOut :=
  cvtLane x v.ctl v.a (if x.d.uni then e.wave.draw q 0 else v.draw 0)

/-- CVT gives in each participant the conversion of its source (R190). -/
theorem cvt_law (x : Cvt) : RegLaw (.cvt x)
    (fun s u e => ∀ k ∈ lanesIn (e.parts u), (cvtOf x e (cvtDrawer s (e.parts u)) (e.lane u k)).trap e.wave.ctl = none)
    fun s u e => laneGives (cvtOf x e (cvtDrawer s (e.parts u))) u e :=
  reg_law (fun s => Eq.refl (execCvt x s)) fun _ u _ h hf ho =>
    ⟨_, .result, none, rfl, lanewise_answers (use_single _ u h.use) hf ho⟩

theorem laneCount_eq (p : Lanes) : laneCount p = (lanesIn p).length := by
  rw [laneCount, foldl_count, Nat.zero_add]
  rfl

theorem cvtDrawer_mem (s : State) {p : Lanes} (h : p ≠ 0) : cvtDrawer s p ∈ lanesIn p := by
  have hpos : 0 < laneCount p := laneCount_eq p ▸ List.length_pos_of_mem (mem_lowLane p h)
  have hlt : Config.freeNat s.fresh % laneCount p < (lanesIn p).length := laneCount_eq p ▸ Nat.mod_lt _ hpos
  rw [cvtDrawer, List.getElem?_eq_getElem hlt]
  exact List.getElem_mem hlt

/-- A conversion to a uniform register takes the draw of lane `q`. -/
theorem cvtOf_uni {x : Cvt} (h : x.d.uni = true) (e : Ex) (q : Nat) (v : LaneIn) :
    cvtOf x e q v = cvtLane x v.ctl v.a (e.wave.draw q 0) := by
  rw [cvtOf, if_pos h]

/-- Any other, and any without SR, depends on no draw of another lane. -/
theorem cvtOf_eq {x : Cvt} (h : ¬ (x.rm = .sr ∧ x.d.uni = true)) (e : Ex) (q : Nat) :
    cvtOf x e q = fun v => cvtLane x v.ctl v.a (v.draw 0) := by
  funext v
  unfold cvtOf
  split
  · rename_i hu
    exact cvtLane_draw (fun hsr => h ⟨hsr, hu⟩) _ _ _ _
  · rfl

theorem cvt_plain_law {x : Cvt} (h : ¬ (x.rm = .sr ∧ x.d.uni = true)) :
    LaneLaw (.cvt x) fun v => cvtLane x v.ctl v.a (v.draw 0) := by
  have law := cvt_law x
  simp only [cvtOf_eq h] at law
  exact law

/-- Settles O20: MOVS, SHAPE and QUNPK answer with values for their destination; CVT is lane-wise in the draws that it takes, and
to a uniform register under SR it takes one of a free participant (log 15). A %gang is of a free width (log 17). -/
theorem moveSpecial : Obligations.MoveSpecial := by
  refine ⟨fun x g => ?_, fun x => ?_, fun x h => cvt_plain_law h, fun x s u e hsr huni h hf hp htrap => ?_, fun x => ?_⟩
  · refine reg_law (fun s => Eq.refl (execMovs x s)) fun s u e h _ hgrid => ?_
    exact ⟨_, .result, none, by rw [hgrid], answers_vals (by cases h.use; rfl) _ 0⟩
  · refine reg_law (fun s => Eq.refl (execShape x s)) fun s u e h _ _ => ?_
    exact ⟨_, .result, none, rfl, answers_vals (by cases h.use; rfl) _ 0⟩
  · have hq := cvtDrawer_mem s hp
    obtain ⟨t, w, w', hnext, hi⟩ := cvt_law x s u e h hf fun k hk => (cvtOf_uni huni e _ _).symm ▸ htrap _ hq k hk
    obtain rfl : e.wave = w := Option.some.inj (h.wave?.symm.trans hi.before)
    refine ⟨_, hq, t, w', hnext, hi.after, fun k hk => ?_, hi.passed, hi.wave, hi.state⟩
    have hd : x.d.ref x.td.regs ∈ u.wr := by
      cases h.use
      exact List.mem_singleton.2 rfl
    have hshows := hi.regs _ rfl _ hd k hk
    rw [if_pos (show (x.d.ref x.td.regs).uni = true from huni), cvtOf_uni huni] at hshows
    exact hshows
  · refine reg_law (fun s => Eq.refl (execQunpk x s)) fun s u e h hf ⟨hparts, hall, hformat, hflags⟩ => ?_
    have hgone : (laneList.any fun i => (e.wave.vget e.sub.depth x.a.idx.val i).2) = false := by
      rw [List.any_eq_false]
      simpa using hall
    refine ⟨_, .tracked, none, congrArg (Issue.done s · .tracked none) ?_, answers_vals (by cases h.use; rfl) _ _⟩
    simp only [if_neg hparts, hgone, Bool.false_and, Bool.false_eq_true, if_false, if_neg (Nat.not_lt.2 hformat),
      LaneRes.grouped, hflags]
    rfl

end Sys2Proof.Machine
end

