-- ==== Sys2Proof/Proofs/Control.lean ====
section
/-!
SUPPORT. Transfers of control, the end and the traps of lanes, and the instructions that change at most their own wave (R158 to
R170, R220, R278, R279).
-/
namespace Sys2Proof.Machine
open Sys2Proof

/-! ## Transfers (R158 to R161) -/

/-- A branch keeps the wave. -/
theorem jumpBranch_land (d r : Nat) (m : Lanes) (w : Wave) :
    (jumpBranch.land d r m w).subs = w.subs ∧ (w.joins = [] → (jumpBranch.land d r m w).joins = []) :=
  ⟨rfl, id⟩

/-- A call changes registers alone. -/
theorem jumpCall_land (d r : Nat) (m : Lanes) (w : Wave) :
    (jumpCall.land d r m w).subs = w.subs ∧ (w.joins = [] → (jumpCall.land d r m w).joins = []) := by
  unfold jumpCall
  dsimp only
  have h := ((w.closeWindow_only (d + 1) m).trans (Wave.wr_only _ (d + 1) (vref 62 2) m fun _ => r)).data
  exact ⟨h.subs, fun hj => h.joins.trans hj⟩

theorem Wave.depart_subs (w : Wave) (m : Lanes) (d : Option Nat) : (w.depart m d).subs = w.subs := rfl

theorem Wave.depart_no_joins {w : Wave} (h : w.joins = []) (m : Lanes) (d : Option Nat) : (w.depart m d).joins = [] := by
  unfold Wave.depart
  rw [h]
  rfl

/-- A return changes registers and the records that stand open. -/
theorem jumpRet_land (d r : Nat) (m : Lanes) (w : Wave) :
    (jumpRet.land d r m w).subs = w.subs ∧ (w.joins = [] → (jumpRet.land d r m w).joins = []) := by
  unfold jumpRet
  dsimp only
  have h := (w.closeWindow_only d m).data
  exact ⟨(Wave.depart_subs _ _ _).trans h.subs, fun hj => Wave.depart_no_joins (h.joins.trans hj) _ _⟩

/-- Settles O40: the five transfers are `transferBody` of a branch, a call or a return, which a call below depth 63 and a return
above depth 0 do not refuse. -/
theorem transfers : Obligations.Transfers := by
  refine ⟨fun x => ?_, fun x => ?_, fun x => ?_, fun x => ?_, fun x => ?_⟩
  · exact transfer_law (j := jumpBranch) (fun _ => rfl) (fun _ _ => rfl) jumpBranch_land
  · exact transfer_law (j := jumpBranch) (fun _ => rfl) (fun _ _ => rfl) jumpBranch_land
  · exact transfer_law (j := jumpCall) (fun _ => rfl) (fun _ h => if_neg h) jumpCall_land
  · exact transfer_law (j := jumpCall) (fun _ => rfl) (fun _ h => if_neg h) jumpCall_land
  · exact transfer_law (j := jumpRet) (fun _ => rfl) (fun _ h => if_neg h) jumpRet_land

/-! ## EXIT, SYNC, TRAPRET, TRAP and BRK (R163, R166, R168, R278) -/

/-- SYNC of a sub-wave whose innermost record has its depth holds it at the record. -/
theorem syncBody_arrives {u : Use} {s : State} {e : Ex} {p : Lanes} {n : Nat} {j : JoinRec} (hfree : e.sub.hold = none)
    (hhead : e.sub.joins.head? = some n) (hget : e.wave.joins.get? n = some j) (hdepth : j.depth = e.sub.depth) :
    syncBody u s e p = .jump s {} fun s => s.modWave e.t e.w fun w =>
      (w.modSub e.k fun sub => { sub with hold := some { kind := .sync, lanes := e.sub.mask } }).closeJoins := by
  unfold syncBody
  simp [hfree, hhead, hget, hdepth]

/-- Settles O41: each instruction issues, and its meaning is the one that the statement writes out. -/
theorem exitSyncTraps : Obligations.ExitSyncTraps := by
  refine ⟨fun x s u e h => ?_, fun x s u e n j h hhead hget hdepth => ?_, fun x s u e q h hhandler hparts => ?_,
    fun x s u e h => issue_eq h, fun x s u e h => issue_eq h⟩
  · exact congrArg (fun r => withSweep (withLaps s r)) (issue_eq h)
  · refine (issue_eq h).trans ?_
    rw [syncBody_arrives h.free hhead hget hdepth]
    rfl
  · refine (congrArg (fun r => withSweep (withLaps s r)) (issue_eq h)).trans ?_
    simp only [trapretBody, hhandler, if_neg hparts]
    cases x.mode <;> rfl

/-! ## NOP, MAT and SJOIN (R169, R170, R279) -/

/-- An instruction whose meaning in a team answers that nothing is done. -/
theorem idle_law {i : Instr} {always branch : Bool} {act : Use → Nat → Grid → State → Span → SpanAct}
    (hx : ∀ s, exec i s = issue i always branch (fun _ s _ _ => .done s {} .result none) act s)
    (hpw : ∀ u, i.use = some u → u.pw = []) : RegLaw i (fun _ _ _ => True) fun _ _ _ => {} :=
  reg_law hx fun _ _ _ h _ _ => ⟨{}, .result, none, rfl, answers_nothing (hpw _ h.use)⟩

/-- Settles O21: the meaning of each of the three answers so. -/
theorem noEffect : Obligations.NoEffect :=
  ⟨fun _ => idle_law (fun _ => rfl) (by rintro _ ⟨⟩; rfl), fun _ => idle_law (fun _ => rfl) (by rintro _ ⟨⟩; rfl),
    fun _ => idle_law (fun _ => rfl) (by rintro _ ⟨⟩; rfl)⟩

/-! ## FENCE, JOINPT and YIELD (R162, R167, R220) -/

theorem State.wave?_untag (s : State) (tag : Option (Nat × Nat)) (t w : Nat) : (s.untag tag).wave? t w = s.wave? t w := by
  cases tag <;> rfl

/-- Flights that complete leave the live lanes and the predicates of their wave. -/
theorem State.wave?_finishWaves {t w : Nat} (l : List Nat) (s : State) {wv : Wave} (h : s.wave? t w = some wv) :
    ∃ wv', (l.foldl (fun s q => s.finishWave t w q) s).wave? t w = some wv' ∧ wv'.live = wv.live ∧ wv'.preds = wv.preds := by
  induction l generalizing s wv with
  | nil => exact ⟨wv, h, rfl, rfl⟩
  | cons q l ih =>
    rw [List.foldl_cons]
    unfold State.finishWave
    rw [h, Option.bind_some]
    cases hq : wv.flights.get? q with
    | none => exact ih s h
    | some f =>
      have hs : (if f.done then s else s.untag f.tag).wave? t w = some wv := by
        split
        · exact h
        · exact (s.wave?_untag f.tag t w).trans h
      obtain ⟨wv', hwave, hlive, hpreds⟩ :=
        ih ((if f.done then s else s.untag f.tag).modWave t w fun wv => wv.finish q) (wv := wv.finish q) (by
          rw [State.wave?_modWave_self, hs]
          rfl)
      exact ⟨wv', hwave, hlive, hpreds⟩

/-- The law of an instruction whose effect is a change of its own wave that keeps live lanes and predicates. -/
theorem modWave_law {i : Instr} {body : Use → State → Ex → Lanes → Issue} {ok : State → Use → Ex → Prop}
    {f : State → Ex → Wave → Wave} (hx : ∀ s, exec i s = peelOp i body s) (hpw : ∀ u, i.use = some u → u.pw = [])
    (hf : ∀ s e w, (f s e w).live = w.live ∧ (f s e w).preds = w.preds)
    (hb : ∀ s u e, ok s u e → body u s e (e.parts u) = .done (s.modWave e.t e.w (f s e)) {} .result none) :
    EffectLaw i ok (fun s _ e => s.modWave e.t e.w (f s e)) fun _ _ _ => {} := by
  refine done_law hx fun s u e h _ ho => ?_
  obtain ⟨hlive, hpreds⟩ := hf s e e.wave
  refine ⟨f s e e.wave, {}, .result, none, hb s u e ho, ?_, hlive, hpreds ▸ h.preds, answers_nothing (hpw u h.use)⟩
  rw [State.wave?_modWave_self, h.wave?]
  rfl

/-- Settles O28: a fence completes the stores of its wave, which keeps live lanes and predicates, and JOINPT and YIELD change their
own wave. -/
theorem fenceJoinYield : Obligations.FenceJoinYield := by
  refine ⟨fun x => ?_, fun x => ?_, fun x => ?_⟩
  · refine done_law (body := fenceBody x) (fun _ => rfl) fun s u e h _ hwait => ?_
    have hwave : ∃ wv, (if x.ord = .acq ∨ e.parts u = 0 then s
        else (storesOf e.wave.flights).foldl (fun s q => s.finishWave e.t e.w q) s).wave? e.t e.w = some wv ∧
        wv.live = e.wave.live ∧ wv.preds = e.wave.preds := by
      split
      · exact ⟨e.wave, h.wave?, rfl, rfl⟩
      · exact State.wave?_finishWaves _ s h.wave?
    obtain ⟨wv, hwave, hlive, hpreds⟩ := hwave
    refine ⟨wv, {}, .access, none, ?_, hwave, hlive, hpreds ▸ h.preds, answers_nothing (by cases h.use; rfl)⟩
    unfold fenceBody
    simp only [hwait, Bool.false_eq_true, if_false, Bool.or_eq_true, decide_eq_true_eq]
  · exact modWave_law (body := joinptBody) (fun _ => rfl) (by rintro _ ⟨⟩; rfl) (fun _ _ _ => ⟨rfl, rfl⟩)
      fun s u e hroom => if_neg (Nat.not_le.2 hroom)
  · exact modWave_law (body := yieldBody) (fun _ => rfl) (by rintro _ ⟨⟩; rfl) (fun _ _ _ => ⟨rfl, rfl⟩) fun _ _ _ _ => rfl

end Sys2Proof.Machine
end

