-- ==== Sys2Proof/Proofs/Completions.lean ====
section
/-!
SUPPORT. The events by which results, accesses, matrix operations, moves and copies complete (R138, R248, R249, R265, R267, R271,
R287, R373).
-/
namespace Sys2Proof.Machine
open Sys2Proof

/-- Settles O53: each event takes the branch of its meaning that its premises name. -/
theorem completionEvents : Obligations.CompletionEvents := by
  refine ⟨?_, ?_, ?_, ?_, ?_, ?_, ?_, ?_, ?_, ?_, ?_, ?_, ?_⟩
  · rintro who seq f s ⟨hflight, hkind, hdone, hdue⟩
    simp only [exec, execResultWrite, hflight, hkind, hdone, hdue, decide_true, Bool.true_or, Bool.not_false, Bool.and_self, if_true]
  · rintro n seq f s ⟨hflight, hkind, hdone⟩
    simp only [exec, execTrackedComplete, hflight, hkind, hdone, Bool.false_eq_true, if_false]
  · rintro t w seq f tm s ⟨hflight, hkind, hdone, hteam, hmove⟩
    simp only [exec, execTrackedComplete, hflight, hkind, hdone, hteam, hmove, Option.bind_some, Option.map_none,
      Bool.false_eq_true, if_false]
  · rintro who seq f s ⟨hflight, hkind, hdone⟩
    simp only [exec, execAccessPerformed, hflight, hkind, hdone, decide_true, Bool.not_false, Bool.and_self, if_true]
  · intro team seq chain v t s hstep
    simp only [exec, execMmaKstepCommit, hstep]
  · rintro team seq tm m s ⟨hteam, hmma, hstate, hchains, hstopped, howes⟩
    simp only [exec, execMmaComplete, hteam, hmma, hstate, hchains, hstopped, howes, Option.bind_some, Option.map_some,
      bne_self_eq_false, Bool.not_true, Option.isSome_none, Bool.or_self, Bool.false_eq_true, if_false]
    rfl
  · intro team seq chain t x s hstep
    simp only [exec, execMmaFault, hstep]
  · intro team seq v t s hmove
    simp only [exec, execAccMoveDone, hmove]
    rfl
  · rintro team seq t x tm m s ⟨hmove, hteam, hget, hroom⟩
    simp only [exec, execAccMovFault, hmove, hteam, hget, hroom, Option.bind_some, Option.map_some, Bool.not_true,
      Bool.false_eq_true, if_false]
  · exact fun team tag s => rfl
  · rintro team tag t s ⟨hserved, hnext⟩
    simp only [exec, execCopyUnitMove, hserved, hnext, Bool.not_true, Bool.false_eq_true, if_false]
  · intro team tag t s hnext
    simp only [exec, execCopyComplete, hnext]
    rfl
  · rintro team tag t x s ⟨hserved, hnext⟩
    simp only [exec, execCopyFault, hserved, hnext, Bool.not_true, Bool.false_eq_true, if_false]

end Sys2Proof.Machine
end

