-- ==== Sys2Proof/Proofs/LaneGroups.lean ====
section
/-!
SUPPORT. The instructions whose result is made of all participants together: exchange, vote, ballot, reduction, scan, match and
magnitude (R194, R196 to R204), and the block of QBLK (R192).
-/
namespace Sys2Proof.Machine
open Sys2Proof

/-! ## Lane operations (R194, R196 to R204) -/

/-- A group result that raises no enabled flag and has no trap of its own traps no lane (R129, R197). -/
theorem LaneRes.grouped_silent {r : LaneRes} {ctl : W64} {b : Bool} (hfl : r.fl &&& ctlEnables ctl = 0) (hov : b = false)
    (p : Lanes) : r.grouped ctl p b = r := by
  have hen : (r.fl &&& ctlEnables ctl) ||| (if b then fOF else 0) = 0 := by
    rw [hfl, hov]
    rfl
  exact if_pos hen

/-- The law of an instruction that gives its destination values made of the inputs of all participants. -/
theorem together_vals_law {i : Instr} {always branch : Bool} {kind : FlightKind}
    {act : Use → Nat → Grid → State → Span → SpanAct} {val : Lanes → (Nat → LaneIn) → Nat → Nat}
    {r : State → Use → Ex → Gives}
    (hx : ∀ s, exec i s = issue i always branch (fun u s e p =>
      .done s (e.wave.together e.sub.depth e.sub.mask p u fun v => { regs := u.wr.map fun d => (d, p, val p v) }) kind none) act s)
    (hpw : ∀ u, i.use = some u → u.pw = [])
    (hr : ∀ s u e, r s u e = { val := some (val (e.parts u) (e.lane u)) }) : RegLaw i (fun _ _ _ => True) r := by
  refine together_law (f := fun u _ p v => { regs := u.wr.map fun d => (d, p, val p v) }) hx ?_ ?_
  · intro s u e _ _
    rw [hr]
    exact ⟨rfl, rfl, rfl⟩
  · intro s u e h _ _
    rw [hr]
    exact answers_vals (hpw u h.use) _ 0

theorem lanesOf_none (p : Lanes) (f : Nat → Bool) :
    (lanesOf (fun i => p.getLsbD i && f i) == 0) = (lanesIn p).all fun i => !f i := by
  rw [← List.not_any_eq_all_not, ← lanesOf_ne, bne, Bool.not_not]

/-- A mask of all lanes or of none holds the same bit in every lane. -/
theorem fill_bit (b : Bool) {k : Nat} (hk : k < 16) : (if b then (0xFFFF : Lanes) else 0).getLsbD k = b := by
  cases b with
  | false => exact BitVec.getLsbD_zero
  | true => exact (BitVec.getLsbD_allOnes (v := 16)).trans (decide_eq_true hk)

/-- A vote is a statement of the participants: ANY that one of them holds the bit, ALL that all do, NONE that none does, and SAME
that all do or none does (R200). -/
theorem vote_law (x : Vote) : RegLaw (.vote x) (fun _ _ _ => True) fun _ u e =>
    { bit := fun _ => match x.mode with
        | .any => (lanesIn (e.parts u)).any fun k => (e.lane u k).p 0
        | .all => (lanesIn (e.parts u)).all fun k => (e.lane u k).p 0
        | .same => ((lanesIn (e.parts u)).all fun k => (e.lane u k).p 0) || (lanesIn (e.parts u)).all fun k => !(e.lane u k).p 0
        | .none => (lanesIn (e.parts u)).all fun k => !(e.lane u k).p 0 } := by
  refine group_law (fun s => Eq.refl (execVote x s)) (fun _ _ _ _ _ => ⟨rfl, rfl, rfl⟩) fun s u e h _ _ => ?_
  refine ⟨rfl, rfl, Or.inr (Or.inl ⟨rfl, by cases h.use; rfl⟩), Or.inl ⟨_, rfl, fun k hk => ?_⟩, rfl, rfl, rfl⟩
  rw [fill_bit _ (BitVec.lt_of_getLsbD ((mem_lanesIn _ k).1 hk))]
  cases x.mode with
  | any => exact (lanesOf_ne _ _).symm
  | all => exact (lanesOf_all _ _).symm
  | same => exact (Bool.or_comm _ _).trans (congrArg₂ or (lanesOf_none _ _) (lanesOf_all _ _)).symm
  | none => exact (lanesOf_none _ _).symm

/-- Settles O18: exchange, ballot, match and magnitude give values made of all participants, and a vote gives a bit; a reduction and
a scan raise the flags of their steps besides, of which none is enabled. Without participants there are no flags. -/
theorem laneExchange : Obligations.LaneExchange := by
  refine ⟨fun x => ?_, fun x => ?_, vote_law, fun x => ?_, fun x => ?_, fun x => ?_, fun x => ?_, fun x => ?_⟩
  · exact together_vals_law (fun s => Eq.refl (execLxch x s)) (by rintro _ ⟨⟩; rfl) fun _ _ _ => rfl
  · exact together_vals_law (fun s => Eq.refl (execLxchI x s)) (by rintro _ ⟨⟩; rfl) fun _ _ _ => rfl
  · exact together_vals_law (fun s => Eq.refl (execBallot x s)) (by rintro _ ⟨⟩; rfl) fun _ _ _ => rfl
  · refine group_law (fun s => Eq.refl (execRedux x s)) (fun _ _ _ _ hp => ⟨if_pos hp, rfl, rfl⟩) fun s u e h hfl hp => ?_
    rw [LaneRes.grouped_silent (hfl hp) rfl]
    simp only [if_neg hp]
    exact answers_vals (by cases h.use; rfl) _ _
  · refine group_law (fun s => Eq.refl (execScan x s)) (fun _ u e _ hp => ?_) fun s u e h hfl hp => ?_
    · rw [hp]
      exact ⟨rfl, rfl, rfl⟩
    · rw [LaneRes.grouped_silent hfl rfl]
      exact answers_vals (by cases h.use; rfl) _ _
  · exact together_vals_law (fun s => Eq.refl (execMatchOp x s)) (by rintro _ ⟨⟩; rfl) fun _ _ _ => rfl
  · exact together_vals_law (fun s => Eq.refl (execAmax x s)) (by rintro _ ⟨⟩; rfl) fun _ _ _ => rfl

/-! ## QBLK (R192) -/

/-- The wave takes the results of an answer that names its destinations, and nothing else changes. -/
theorem Answers.issued {s : State} {u : Use} {e : Ex} {g : Gives} {q : LaneRes} (ha : Answers u e g q) (h : Runs s u e)
    (hs : SingleUse u) (hpw : u.pw = []) (opc : Nat) (kind : FlightKind) (tag : Option (Nat × Nat)) :
    ∃ w', Issued u e g s (s.settle e u opc q kind tag (e.parts u)) e.wave w' := by
  have hpreds : q.preds = [] := by
    obtain ⟨b, hb, -⟩ | ⟨-, hb⟩ := ha.preds
    · rw [hb, hpw, List.map_nil]
    · exact hb
  exact State.settle_issued h s e.wave h.wave? rfl h.preds q kind tag ha.traps ha.stale hs g.val (lanesOf g.bit) ha.regs
    (Or.inl (by rw [hpreds, hpw, List.map_nil])) g rfl
    (fun k hk => (lanesOf_bit _ k (BitVec.lt_of_getLsbD ((mem_lanesIn _ k).1 hk))).symm) ha.fl ha.divz ha.draws

/-- QBLK reads the registers of the group that its format code calls for, and its destinations stand in its word. -/
theorem qblkNames_single {x : Qblk} {v : Use} (hv : (Instr.qblk x).use = some v) (e : Ex) : SingleUse (qblkNames x v e) := by
  obtain ⟨hwr, hpw, huni, hpred⟩ := use_single _ v hv
  exact ⟨hwr, hpw, huni, hpred⟩

/-- QBLK issues with the answer that it makes of its participants (R192). -/
theorem qblk_issued {x : Qblk} {v : Use} {s : State} {e : Ex} {g : Gives} (hv : (Instr.qblk x).use = some v)
    (h : Runs s (qblkNames x v e) e) (hf : e.fresh (qblkNames x v e)) (hp : e.parts (qblkNames x v e) ≠ 0)
    (ha : Answers (qblkNames x v e) e g
      { qblkRes x e (qblkNames x v e) (e.parts (qblkNames x v e)) (e.lane (qblkNames x v e)) with stale := false }) :
    ∃ t w', exec (.qblk x) s = .next t ∧ Issued (qblkNames x v e) e g s t e.wave w' := by
  have hissue := issueNaming_eq (i := .qblk x) (always := true) (branch := false) (names := fun _ => qblkNames x)
    (act := fun _ _ _ _ _ => .peel)
    (body := fun u s e p => .done s (e.wave.together e.sub.depth e.sub.mask p u (qblkRes x e u p)) .tracked none) h hv rfl
  rw [Wave.together_eq _ _ _ _ _ _ hf, if_neg hp] at hissue
  obtain ⟨w', hw⟩ := ha.issued h (qblkNames_single hv e) (by cases hv; rfl) (Instr.qblk x).opcode .tracked none
  exact ⟨_, w', hissue, hw⟩

/-- Settles O19: under code 0 the result is zeros; under the codes 1 to 6 it is the block, which raises no trap. -/
theorem blockQuantize : Obligations.BlockQuantize := by
  refine ⟨fun x v s e hv h hf hp hc => ?_, fun x v s e hv h hf hp hc1 hc6 hsr hfl hov => ?_⟩
  · refine qblk_issued hv h hf hp ?_
    simp only [qblkRes, if_pos hc]
    exact answers_vals (by cases hv; rfl) _ 0
  · refine qblk_issued hv h hf hp ?_
    simp only [qblkRes, if_neg (Nat.ne_of_gt hc1), if_neg (Nat.not_lt.2 hc6), if_neg hsr]
    rw [LaneRes.grouped_silent hfl hov]
    exact ⟨rfl, rfl, Or.inl ⟨_, rfl, rfl⟩, Or.inr ⟨Or.inr (by cases hv; rfl), rfl⟩, rfl, rfl, rfl⟩

end Sys2Proof.Machine
end

