-- ==== Sys2Proof/Proofs/Accesses.lean ====
section
/-!
SUPPORT. Loads, stores and atomics whose accesses all reach their destinations (R205 to R217).
-/
namespace Sys2Proof.Machine
open Sys2Proof

/-! ## Laws of instructions that keep the waves -/

/-- A change that keeps the waves keeps the wave that issues. -/
theorem Runs.wave_of_calm {s t : State} {u : Use} {e : Ex} (h : Runs s u e) (hc : State.Calm s t) :
    t.wave? e.t e.w = some e.wave :=
  (hc.wave? e.t e.w).trans h.wave?

/-- The law of an instruction whose meaning answers at once, keeps the waves and agrees with the law in the participants. -/
theorem calm_law_on {i : Instr} {always branch : Bool} {body : Use → State → Ex → Lanes → Issue}
    {act : Use → Nat → Grid → State → Span → SpanAct} {ok : State → Use → Ex → Prop} {g : State → Use → Ex → State}
    {r : State → Use → Ex → Gives} (hx : ∀ s, exec i s = issue i always branch body act s)
    (hb : ∀ s u e, Issues s i u e → e.fresh u → ok s u e → ∃ q kind tag r', body u s e (e.parts u) = .done (g s u e) q kind tag ∧
      State.Calm s (g s u e) ∧ Answers u e r' q ∧ r'.agree (e.parts u) (r s u e)) : EffectLaw i ok g r :=
  done_law_on hx fun s u e h hf ho => by
    obtain ⟨q, kind, tag, r', hdone, hcalm, hanswers, hagree⟩ := hb s u e h hf ho
    exact ⟨e.wave, q, kind, tag, r', hdone, h.wave_of_calm hcalm, rfl, h.preds, hanswers, hagree⟩

/-- The law of an instruction whose meaning answers at once and keeps the waves. -/
theorem calm_law {i : Instr} {always branch : Bool} {body : Use → State → Ex → Lanes → Issue}
    {act : Use → Nat → Grid → State → Span → SpanAct} {ok : State → Use → Ex → Prop} {g : State → Use → Ex → State}
    {r : State → Use → Ex → Gives} (hx : ∀ s, exec i s = issue i always branch body act s)
    (hb : ∀ s u e, Issues s i u e → e.fresh u → ok s u e → ∃ q kind tag, body u s e (e.parts u) = .done (g s u e) q kind tag ∧
      State.Calm s (g s u e) ∧ Answers u e (r s u e) q) : EffectLaw i ok g r :=
  done_law hx fun s u e h hf ho => by
    obtain ⟨q, kind, tag, hdone, hcalm, hanswers⟩ := hb s u e h hf ho
    exact ⟨e.wave, q, kind, tag, hdone, h.wave_of_calm hcalm, rfl, h.preds, hanswers⟩

/-- Values that are equal in the participants agree. -/
theorem Gives.agree_of_vals {p : Lanes} {f f' : Nat → Nat} (h : ∀ k ∈ lanesIn p, f k = f' k) :
    Gives.agree p { val := some f } { val := some f' } :=
  ⟨rfl, Or.inr ⟨f, f', rfl, rfl, h⟩⟩

/-- An answer that gives the values `f` to its one destination. -/
theorem answers_lanes {u : Use} {e : Ex} {r : RegRef} (hwr : u.wr = [r]) (hpw : u.pw = []) (f : Nat → Nat) :
    Answers u e { val := some f } { regs := [(r, e.parts u, f)] } := by
  have h := answers_vals (u := u) (e := e) hpw f 0
  rwa [hwr] at h

/-! ## Accesses that all reach their destinations -/

section
variable {s s' : State} {e : Ex} {w : Want} {ea : Nat → Nat} {p : List Nat} {d : Nat → Dest} {f : Nat → Nat → Nat}

/-- Making accesses ready keeps the waves. -/
theorem Reached.calm {after : List Nat → State} (h : Reached s e w ea p d after) : State.Calm s (after []) := by
  have hcalm := s.readyAll_calm e w ea p
  rwa [h.all] at hcalm

/-- Reads change nothing, and each lane finds what its location holds. -/
theorem Reached.reads (h : Reached s e w ea p d fun _ => s') (hw : w.wr = false) (hnd : p.Nodup) :
    ∃ vals sent, s.accesses e w ea p f = { s := s', dests := p.map fun k => (k, d k), vals := vals, sent := sent } ∧
      ∀ k ∈ p, Tbl.get? vals k = some (s'.peek (s'.accessor e k) (d k) w.n) := by
  obtain ⟨vals, sent, heq, hvals⟩ := h.accesses hnd f fun l => (s'.trail_reads e w hw d f l).1
  refine ⟨vals, sent, heq, fun k hk => ?_⟩
  obtain ⟨l, r, rfl⟩ := List.append_of_mem hk
  rw [hvals l k ⟨r, by simp⟩, s'.found_reads e w hw]

/-- Writes are made in lane order, and each lane finds what the lanes before it leave. -/
theorem Reached.writes (h : Reached s e w ea p d (s'.writes e d w.n f)) (hw : w.wr = true) (hnd : p.Nodup) :
    ∃ vals sent, s.accesses e w ea p f =
        { s := s'.writes e d w.n f p, dests := p.map fun k => (k, d k), vals := vals, sent := sent } ∧
      ∀ l k, l ++ [k] <+: p → Tbl.get? vals k = some (s'.found e w d f l k) :=
  h.accesses hnd f (s'.trail_writes e w hw d f)

end

/-! ## LD and LDU (R205, R209, R210) -/

/-- LD whose accesses all reach their destinations gives each participant the bytes there. -/
theorem ld_law {i : Instr} {t : ITy} {o : Option Nat} {c : Nat} {r : RegRef} {act : Use → Nat → Grid → State → Span → SpanAct}
    (d : Nat → Dest) (s' : State) (hx : ∀ s, exec i s = issue i false false (ldBody t o c r) act s)
    (huse : ∀ u, i.use = some u → u.wr = [r] ∧ u.pw = []) :
    EffectLaw i
      (fun s u e => Reached s e { n := t.width / 8, rd := true, wr := false } (e.ea u 0 o c) (lanesIn (e.parts u)) d fun _ => s')
      (fun _ u e => s'.countConflict e.t (stashOffsets ((lanesIn (e.parts u)).map fun k => (k, d k))))
      fun _ _ e => { val := some fun k => loadExt t (s'.peek (s'.accessor e k) (d k) (t.width / 8)) } := by
  refine calm_law_on hx fun s u e h hf hreach => ?_
  obtain ⟨hwr, hpw⟩ := huse u h.use
  obtain ⟨vals, sent, heq, hvals⟩ := hreach.reads (f := fun _ x => x) rfl (lanesIn_nodup _)
  refine ⟨_, .result, none, _, ?_, hreach.calm.trans (State.countConflict_calm _ _ _),
    answers_lanes hwr hpw fun k => loadExt t ((vals.get? k).getD 0), Gives.agree_of_vals fun k hk => ?_⟩
  · unfold ldBody
    simp only [h.runs_eq hf, h.staleTraps_eq hf, h.staleSets_eq hf, heq, Bool.false_eq_true, if_false, List.append_nil]
  · rw [hvals k hk, Option.getD_some]

/-- LDU whose access reaches its destination gives the bytes there. -/
theorem ldu_law {i : Instr} {t : ITy} {o : Option Nat} {c : Nat} {r : RegRef} {act : Use → Nat → Grid → State → Span → SpanAct}
    (d : Nat → Dest) (s' : State) (hx : ∀ s, exec i s = issue i false false (lduBody t o c r) act s)
    (huse : ∀ u, i.use = some u → u.wr = [r] ∧ u.pw = []) :
    EffectLaw i
      (fun s u e => e.parts u ≠ 0 ∧
        Reached s e { n := t.width / 8, rd := true, wr := false } (e.ea u 0 o c) [lowLane (e.parts u)] d fun _ => s')
      (fun _ u e => s'.countConflict e.t (stashOffsets ([lowLane (e.parts u)].map fun k => (k, d k))))
      fun _ u e =>
        { val := some fun _ => s'.peek (s'.accessor e (lowLane (e.parts u))) (d (lowLane (e.parts u))) (t.width / 8) } := by
  refine calm_law hx fun s u e h hf ⟨hparts, hreach⟩ => ?_
  obtain ⟨hwr, hpw⟩ := huse u h.use
  obtain ⟨vals, sent, heq, hvals⟩ := hreach.reads (f := fun _ x => x) rfl (List.nodup_singleton _)
  refine ⟨_, .result, none, ?_, hreach.calm.trans (State.countConflict_calm _ _ _), answers_lanes hwr hpw _⟩
  unfold lduBody
  simp only [if_neg hparts, h.staleTraps_eq hf, h.staleSets_eq hf, heq, hvals _ (List.mem_singleton_self _), List.isEmpty_nil,
    Bool.not_true, Bool.false_eq_true, if_false, List.flatMap_nil, Option.getD_some]

/-- Settles O23: the six forms are LD and LDU of an offset from a register, from the word or from the constant. -/
theorem loads : Obligations.Loads :=
  ⟨fun _ d s' => ld_law d s' (fun _ => rfl) (by rintro _ ⟨⟩; exact ⟨rfl, rfl⟩),
    fun _ d s' => ld_law d s' (fun _ => rfl) (by rintro _ ⟨⟩; exact ⟨rfl, rfl⟩),
    fun _ d s' => ld_law d s' (fun _ => rfl) (by rintro _ ⟨⟩; exact ⟨rfl, rfl⟩),
    fun _ d s' => ldu_law d s' (fun _ => rfl) (by rintro _ ⟨⟩; exact ⟨rfl, rfl⟩),
    fun _ d s' => ldu_law d s' (fun _ => rfl) (by rintro _ ⟨⟩; exact ⟨rfl, rfl⟩),
    fun _ d s' => ldu_law d s' (fun _ => rfl) (by rintro _ ⟨⟩; exact ⟨rfl, rfl⟩)⟩

/-! ## ST (R205, R209 to R211, R221) -/

/-- The state after writes at some destinations, counted: the conflict cycles (R318, log 31), and the tag of the open phase on
what leaves the core (R221, R300). -/
def State.accounted (s : State) (e : Ex) (l : List (Nat × Dest)) : State :=
  if leaves e.team.core l then ((s.countConflict e.t (stashOffsets l)).tagWrite e.team.core).1
  else s.countConflict e.t (stashOffsets l)

/-- The counting, with the tag that it hands out. -/
theorem State.accounted_tag (s : State) (e : Ex) (l : List (Nat × Dest)) :
    ∃ tag, (if leaves e.team.core l then (s.countConflict e.t (stashOffsets l)).tagWrite e.team.core
      else (s.countConflict e.t (stashOffsets l), none)) = (s.accounted e l, tag) := by
  unfold State.accounted
  split
  · exact ⟨_, rfl⟩
  · exact ⟨none, rfl⟩

theorem State.accounted_calm (s : State) (e : Ex) (l : List (Nat × Dest)) : State.Calm s (s.accounted e l) := by
  unfold State.accounted
  split
  · exact (s.countConflict_calm _ _).trans (State.tagWrite_calm _ _)
  · exact s.countConflict_calm _ _

/-- Writes at the destinations of lanes, and their counting, keep the waves. -/
theorem State.writes_accounted_calm {s s' : State} {e : Ex} {w : Want} {ea : Nat → Nat} {p : List Nat} {d : Nat → Dest}
    {f : Nat → Nat → Nat} (h : Reached (s.escapes e p ea) e w ea p d (s'.writes e d w.n f)) (l : List (Nat × Dest)) :
    State.Calm s ((s'.writes e d w.n f p).accounted e l) :=
  ((s.escapes_calm e p ea).trans h.calm).trans ((s'.writes_calm e d w.n f p).trans (State.accounted_calm _ e l))

/-- ST whose accesses all reach their destinations, with no engine access left before a release form, writes there. -/
theorem st_law {i : Instr} {rel : Bool} {t : ITy} {b : Nat} {o : Option Nat} {c j : Nat}
    {act : Use → Nat → Grid → State → Span → SpanAct} {ok : State → Use → Ex → Prop} (d : Nat → Dest) (s' : State)
    (hx : ∀ s, exec i s = issue i false false (releasing rel (stBody t b o c j)) act s)
    (hpw : ∀ u, i.use = some u → u.pw = [])
    (hok : ∀ s u e, ok s u e → (rel && s.releaseWaits e (lanesIn (e.parts u))) = false ∧
      Reached (s.escapes e (lanesIn (e.parts u)) (e.ea u b o c)) e { n := t.width / 8, rd := false, wr := true, plain := true }
        (e.ea u b o c) (lanesIn (e.parts u)) d
        (s'.writes e d (t.width / 8) fun k _ => ((e.lane u k).src[j]?).getD 0 % 2 ^ t.width)) :
    EffectLaw i ok
      (fun _ u e => (s'.writes e d (t.width / 8) (fun k _ => ((e.lane u k).src[j]?).getD 0 % 2 ^ t.width)
        (lanesIn (e.parts u))).accounted e ((lanesIn (e.parts u)).map fun k => (k, d k)))
      fun _ _ _ => {} := by
  refine calm_law hx fun s u e h hf ho => ?_
  obtain ⟨hfree, hreach⟩ := hok s u e ho
  obtain ⟨vals, sent, heq, -⟩ := hreach.writes rfl (lanesIn_nodup _)
  obtain ⟨tag, htag⟩ := State.accounted_tag (s'.writes e d (t.width / 8) (fun k _ => ((e.lane u k).src[j]?).getD 0 % 2 ^ t.width)
    (lanesIn (e.parts u))) e ((lanesIn (e.parts u)).map fun k => (k, d k))
  refine ⟨{}, .access, tag, ?_, State.writes_accounted_calm hreach _, answers_nothing (hpw u h.use)⟩
  rw [releasing_free _ hfree]
  unfold stBody
  simp only [h.runs_eq hf, h.staleTraps_eq hf, h.staleSets_eq hf, h.src_eq, heq, htag, Bool.false_eq_true, if_false,
    List.append_nil]

/-- Settles O24: the three forms are ST of an offset from a register, from the word or from the constant, the first of which may
be a release. -/
theorem stores : Obligations.Stores :=
  ⟨fun x d s' => st_law d s' (fun _ => rfl) (by rintro _ ⟨⟩; rfl) fun _ _ _ ho => ho,
    fun x d s' => st_law (rel := false) d s' (fun _ => rfl) (by rintro _ ⟨⟩; rfl) fun _ _ _ ho => ⟨rfl, ho⟩,
    fun x d s' => st_law (rel := false) d s' (fun _ => rfl) (by rintro _ ⟨⟩; rfl) fun _ _ _ ho => ⟨rfl, ho⟩⟩

/-! ## ATOM and RED (R214 to R217) -/

/-- The operation of lane `k` on the value that its location holds. -/
def Ex.atomic (e : Ex) (u : Use) (op : AtomOp) (t : ITy) (k old : Nat) : Nat :=
  atomNew op t old (atomOperand op t (((e.lane u k).src[1]?).getD 0)).1 (atomOperand op t (((e.lane u k).src[1]?).getD 0)).2

/-- ATOM and RED whose accesses all reach their destinations, with no engine access left before a release form and no FADD under
REPRO, make their operations there; the destination, if there is one, takes what each lane found. -/
theorem atom_law {i : Instr} {rel : Bool} {op : AtomOp} {t : ITy} {sc : Scope} {dst : Option RegRef}
    {act : Use → Nat → Grid → State → Span → SpanAct} {r : State → Use → Ex → Gives} (d : Nat → Dest) (s' : State)
    (hx : ∀ s, exec i s = issue i false false (releasing rel (atomBody op t sc dst)) act s)
    (huse : ∀ u, i.use = some u → u.wr = dst.toList ∧ u.pw = [])
    (hr : ∀ s u e, r s u e =
      { val := dst.map fun _ k =>
          s'.found e { n := t.width / 8, rd := true, wr := true, home := scopeAtHome sc } d (e.atomic u op t)
            ((lanesIn (e.parts u)).filter fun j => decide (j < k)) k }) :
    EffectLaw i
      (fun s u e => (rel && s.releaseWaits e (lanesIn (e.parts u))) = false ∧ (op = .fadd && e.wave.repro) = false ∧
        Reached (s.escapes e (lanesIn (e.parts u)) (e.ea u 0 none 0)) e
          { n := t.width / 8, rd := true, wr := true, home := scopeAtHome sc } (e.ea u 0 none 0) (lanesIn (e.parts u)) d
          (s'.writes e d (t.width / 8) (e.atomic u op t)))
      (fun _ u e => (s'.writes e d (t.width / 8) (e.atomic u op t) (lanesIn (e.parts u))).accounted e
        ((lanesIn (e.parts u)).map fun k => (k, d k)))
      r := by
  refine calm_law_on hx fun s u e h hf ⟨hfree, hrepro, hreach⟩ => ?_
  obtain ⟨hwr, hpw⟩ := huse u h.use
  obtain ⟨vals, sent, heq, hvals⟩ := hreach.writes rfl (lanesIn_nodup _)
  obtain ⟨tag, htag⟩ := State.accounted_tag (s'.writes e d (t.width / 8) (e.atomic u op t) (lanesIn (e.parts u))) e
    ((lanesIn (e.parts u)).map fun k => (k, d k))
  have hbody : ∃ kind, atomBody op t sc dst u s e (e.parts u) = .done
      ((s'.writes e d (t.width / 8) (e.atomic u op t) (lanesIn (e.parts u))).accounted e
        ((lanesIn (e.parts u)).map fun k => (k, d k)))
      { regs := dst.toList.map fun q => (q, e.parts u, fun k => (vals.get? k).getD 0) } kind tag := by
    refine ⟨if dst.isSome then .tracked else .access, ?_⟩
    unfold Ex.atomic at heq htag ⊢
    unfold atomBody
    simp only [h.runs_eq hf, h.staleTraps_eq hf, h.staleSets_eq hf, h.src_eq, hrepro, heq, htag, Bool.false_eq_true, if_false,
      List.append_nil]
    cases dst with
    | none => rfl
    | some q => rfl
  obtain ⟨kind, hdone⟩ := hbody
  rw [hr]
  cases dst with
  | none =>
    exact ⟨{}, kind, tag, {}, (releasing_free _ hfree).trans hdone, State.writes_accounted_calm hreach _, answers_nothing hpw,
      rfl, Or.inl ⟨rfl, rfl⟩⟩
  | some q =>
    refine ⟨_, kind, tag, _, (releasing_free _ hfree).trans hdone, State.writes_accounted_calm hreach _, answers_lanes hwr hpw _,
      Gives.agree_of_vals fun k hk => ?_⟩
    rw [hvals _ k (lanesIn_before _ k hk), Option.getD_some]

/-- Settles O26: ATOM has a destination unless it discards what it found, RED has none. -/
theorem atomics : Obligations.Atomics := by
  refine ⟨fun x d s' => atom_law (dst := if x.dlu then none else some (vref x.d x.t.regs)) d s' (fun _ => rfl) ?_ ?_,
    fun x d s' => atom_law (dst := none) d s' (fun _ => rfl) (by rintro _ ⟨⟩; exact ⟨rfl, rfl⟩) fun _ _ _ => rfl⟩
  · rintro _ ⟨⟩
    cases x.dlu <;> exact ⟨rfl, rfl⟩
  · intro s u e
    cases x.dlu <;> rfl

end Sys2Proof.Machine
end

