-- ==== Sys2Proof/Proofs/StoreFrame.lean ====
section
/-!
SUPPORT. What a write at a destination changes of memory, of the stashes and of the tiles (R205, R210, R211).
-/
namespace Sys2Proof.Machine
open Sys2Proof

/-! ## One write -/

theorem Core.stash_stashPut_ne (c : Core) {off o : Nat} (ctx : Nat) (v : Byte) (h : off ≠ o) :
    (c.stashPut ctx o v).stash.get? off = c.stash.get? off := by
  unfold Core.stashPut
  dsimp only
  split
  · exact Tbl.get?_del_ne _ h
  · exact Tbl.get?_set_ne _ _ h

/-- A write of memory changes the bytes at its place alone; any other write but a doorbell's changes none. -/
theorem State.mem_poke {s : State} {d : Dest} {n a : Nat} (x : Accessor) (v : Nat) (hm : s.mem.wf = true) (hdoor : ∀ q, d ≠ .door q)
    (hd : ∀ line place, d = .mem line place → ¬ (place ≤ a ∧ a < place + n)) : (s.poke x d n v).mem.get a = s.mem.get a := by
  cases d with
  | stash core o => rfl
  | acc t o => rfl
  | mem line place => exact (Memory.get_putN _ _ _ _ _ hm).trans (if_neg (hd line place rfl))
  | remote peer va => rfl
  | door q => exact absurd rfl (hdoor q)

/-- A write of a stash changes the bytes at its offset alone; any other write but a doorbell's changes none. -/
theorem State.stash_poke {s : State} {d : Dest} {n core off : Nat} (x : Accessor) (v : Nat) (hdoor : ∀ q, d ≠ .door q)
    (hd : ∀ o, d = .stash core o → ¬ (o ≤ off ∧ off < o + n)) :
    ((s.poke x d n v).core core).stash.get? off = (s.core core).stash.get? off := by
  cases d with
  | stash c o =>
    unfold State.poke
    dsimp only
    by_cases hc : core = c
    · subst hc
      have hne (i : Nat) (hi : i ∈ List.range n) : off ≠ o + i := by
        have hout := hd o rfl
        have hlt := List.mem_range.1 hi
        omega
      rw [State.core_modCore_self]
      refine (apply_ite (fun c : Core => c.stash.get? off) _ _ _).trans ((ite_self _).trans ?_)
      refine foldl_keeps _ (fun c : Core => c.stash.get? off) _ _ fun c i hi => ?_
      split
      · split
        · exact c.stash_stashPut_ne _ _ (hne i hi)
        · rfl
      · exact c.stash_stashPut_ne _ _ (hne i hi)
    · rw [State.core_modCore_ne _ _ hc]
  | acc t o => rfl
  | mem line place => rfl
  | remote peer va => rfl
  | door q => exact absurd rfl (hdoor q)

/-- A write of tiles changes the bytes of its team at its offset alone; any other write but a doorbell's changes none. -/
theorem State.acc_poke {s : State} {d : Dest} {n t a : Nat} {tm : Team} (x : Accessor) (v : Nat) (ht : s.teams.get? t = some tm)
    (hm : tm.acc.wf = true) (hdoor : ∀ q, d ≠ .door q) (hd : ∀ o, d = .acc t o → ¬ (o ≤ a ∧ a < o + n)) :
    ∃ tm', (s.poke x d n v).teams.get? t = some tm' ∧ tm'.acc.wf = true ∧ tm'.acc.get a = tm.acc.get a := by
  cases d with
  | stash c o => exact ⟨tm, ht, hm, rfl⟩
  | acc k o =>
    unfold State.poke
    dsimp only
    by_cases hk : t = k
    · subst hk
      rw [State.teams_modTeam_self, ht]
      exact ⟨_, rfl, Memory.putN_wf _ _ _ _ hm, (Memory.get_putN _ _ _ _ _ hm).trans (if_neg (hd o rfl))⟩
    · rw [State.teams_modTeam_ne _ _ hk]
      exact ⟨tm, ht, hm, rfl⟩
  | mem line place => exact ⟨tm, ht, hm, rfl⟩
  | remote peer va => exact ⟨tm, ht, hm, rfl⟩
  | door q => exact absurd rfl (hdoor q)

/-! ## The destination of an access -/

/-- An access that is ready goes to the destination that its address resolves to. -/
theorem State.resolve_of_ready {s s' : State} {x : Accessor} {w : Want} {ea : Nat} {d : Dest} (h : s.ready x w ea = .ok s' d) :
    s.resolve x w ea = .ok d := by
  unfold State.ready at h
  cases hr : s.resolve x w ea with
  | error t =>
    rw [hr] at h
    cases h
  | ok q =>
    rw [hr] at h
    dsimp only at h
    split at h
    · cases h
    · split at h
      · cases h
        rfl
      · cases h
      · cases h

/-- Settles O25: the writes of the lanes are made one after another, and each changes the bytes at its own destination alone. -/
theorem storeFrame : Obligations.StoreFrame := by
  refine ⟨fun s e d n f l a hm hdoor hd => ?_, fun s e d n f l core off hdoor hd => ?_, fun s e d n f l t a tm ht hm hdoor hd => ?_,
    fun s s' x w ea d h => State.resolve_of_ready h, fun s x line place n v hm => Memory.getN_putN s.mem place n v hm⟩
  · unfold State.writes
    exact (List.foldlRecOn (motive := fun t : State => t.mem.wf = true ∧ t.mem.get a = s.mem.get a) l _ ⟨hm, rfl⟩
      fun t ⟨hwf, hget⟩ k hk => ⟨State.poke_wf hwf, (State.mem_poke _ _ hwf (hdoor k hk) (hd k hk)).trans hget⟩).2
  · exact foldl_keeps _ (fun t : State => (t.core core).stash.get? off) l s fun t k hk =>
      State.stash_poke _ _ (hdoor k hk) (hd k hk)
  · have hkeep : ∃ tm', (s.writes e d n f l).teams.get? t = some tm' ∧ tm'.acc.wf = true ∧ tm'.acc.get a = tm.acc.get a := by
      unfold State.writes
      refine List.foldlRecOn (motive := fun q : State => ∃ tm', q.teams.get? t = some tm' ∧ tm'.acc.wf = true ∧
        tm'.acc.get a = tm.acc.get a) l _ ⟨tm, ht, hm, rfl⟩ fun q ⟨tm', hteam, hwf, hget⟩ k hk => ?_
      obtain ⟨tm'', hteam', hwf', hget'⟩ := State.acc_poke _ _ hteam hwf (hdoor k hk) (hd k hk)
      exact ⟨tm'', hteam', hwf', hget'.trans hget⟩
    obtain ⟨tm', hteam, -, hget⟩ := hkeep
    exact ⟨tm', hteam, hget⟩

end Sys2Proof.Machine
end

