-- ==== Sys2Proof/Proofs/CacheControl.lean ====
section
/-!
SUPPORT. PREF and CCTL (R218, R219), lane by lane.
-/
namespace Sys2Proof.Machine
open Sys2Proof

/-! ## PREF (R218) -/

theorem Runs.stale_eq {s : State} {u : Use} {e : Ex} (h : Runs s u e) (hf : e.fresh u) {k : Nat} (hk : k ∈ lanesIn (e.parts u)) :
    e.stale u k = false := by
  unfold Ex.stale Ex.srcs
  rw [h.free]
  exact hf k hk

/-- PREF acts for its participants one after another. -/
theorem pref_law {i : Instr} {target : Nat} {excl : Bool} {o : Option Nat} {c : Nat}
    {act : Use → Nat → Grid → State → Span → SpanAct}
    (hx : ∀ s, exec i s = issue i false false (prefBody target excl o c) act s) (hpw : ∀ u, i.use = some u → u.pw = []) :
    EffectLaw i (fun _ _ _ => True)
      (fun s u e => (lanesIn (e.parts u)).foldl (fun s k => s.prefetch (s.accessor e k) target excl (e.ea u 0 o c k)) s)
      fun _ _ _ => {} := by
  refine calm_law hx fun s u e h hf _ => ⟨{}, .result, none, ?_, State.Calm.foldl _ (fun s k => s.prefetch_calm _ _ _ _) _ _ (.refl s),
    answers_nothing (hpw u h.use)⟩
  have hall : ((lanesIn (e.parts u)).filter fun k => !e.stale u k) = lanesIn (e.parts u) :=
    List.filter_eq_self.2 fun k hk => by rw [h.stale_eq hf hk, Bool.not_false]
  have hnone : ((lanesIn (e.parts u)).any fun k => e.stale u k) = false :=
    List.any_eq_false.2 fun k hk => by rw [h.stale_eq hf hk]; exact Bool.false_ne_true
  unfold prefBody
  rw [hall, hnone]

/-! ## CCTL (R219) -/

/-- The operations of the lanes of a list keep the waves, whether or not one of them waits. -/
theorem State.cacheOps_calm (s : State) (x : Nat → Accessor) (op : Nat) (ea : Nat → Nat) (l : List Nat) :
    State.Calm s (l.foldl (fun (r : State × Bool) k =>
      let q := r.1.cacheOp (x k) op (ea k)
      (q.1, r.2 && q.2)) (s, true)).1 :=
  List.foldlRecOn (motive := fun r : State × Bool => State.Calm s r.1) l _ (.refl s) fun r h k _ =>
    h.trans (r.1.cacheOp_calm (x k) op (ea k))

/-- Settles O27: each form of PREF is `prefBody`, and CCTL completes where no operation of its lanes waits. -/
theorem prefetchControl : Obligations.PrefetchControl := by
  refine ⟨fun x => pref_law (fun _ => rfl) (by rintro _ ⟨⟩; rfl), fun x => pref_law (fun _ => rfl) (by rintro _ ⟨⟩; rfl),
    fun x => pref_law (fun _ => rfl) (by rintro _ ⟨⟩; rfl), fun x => ?_⟩
  refine calm_law (fun s => (rfl : exec (.cctl x) s = execCctl x s)) fun s u e h hf hall =>
    ⟨{}, .access, none, ?_, State.cacheOps_calm s _ _ _ _, answers_nothing (by cases h.use; rfl)⟩
  unfold cctlBody
  rw [h.runs_eq hf, h.staleTraps_eq hf, h.staleSets_eq hf]
  exact if_pos hall

end Sys2Proof.Machine
end

