-- ==== Sys2Proof/Proofs/MemoryBarriers.lean ====
section
/-!
SUPPORT. BARM.ARV and BARM.WAIT (R226 to R228) that nothing makes wait.
-/
namespace Sys2Proof.Machine
open Sys2Proof

/-! ## BARM.ARV (R227) -/

/-- The words of `vals` with the arrivals of the lanes of `core` that name them; a write of a word takes the tag of the open phase
(R221, R300). -/
def State.barmArrived (s : State) (core : Nat) (vals : Tbl Nat) : State :=
  if vals.isEmpty then s.barmArrive core vals else ((s.barmArrive core vals).tagWrite core).1

/-- The arrivals, with the tag that they hand out. -/
theorem State.barmArrived_tag (s : State) (core : Nat) (vals : Tbl Nat) :
    ∃ tag, (if vals.isEmpty then (s.barmArrive core vals, none) else (s.barmArrive core vals).tagWrite core) =
      (s.barmArrived core vals, tag) := by
  unfold State.barmArrived
  split
  · exact ⟨none, rfl⟩
  · exact ⟨_, rfl⟩

theorem State.barmArrived_calm (s : State) (core : Nat) (vals : Tbl Nat) : State.Calm s (s.barmArrived core vals) := by
  unfold State.barmArrived
  split
  · exact s.barmArrive_calm _ _
  · exact (s.barmArrive_calm _ _).trans (State.tagWrite_calm _ _)

theorem isEmpty_lanesIn {p : Lanes} (h : p ≠ 0) : (lanesIn p).isEmpty = false :=
  List.isEmpty_eq_false_iff_exists_mem.2 ⟨_, mem_lowLane p h⟩

/-- BARM.ARV whose words are all reached makes its participants arrive. -/
theorem barmArv_law (x : BarmArv) : EffectLaw (.barmArv x)
    (fun s u e => e.parts u ≠ 0 ∧ s.releaseWaits e (lanesIn (e.parts u)) = false ∧
      ((s.escapeTeam e.t).barmAll e u (lanesIn (e.parts u))).wait = false ∧
      ((s.escapeTeam e.t).barmAll e u (lanesIn (e.parts u))).traps = [])
    (fun s u e => ((s.escapeTeam e.t).barmAll e u (lanesIn (e.parts u))).s.barmArrived e.team.core
      ((s.escapeTeam e.t).barmAll e u (lanesIn (e.parts u))).vals)
    fun _ _ _ => {} := by
  refine calm_law (fun s => (rfl : exec (.barmArv x) s = execBarmArv x s)) fun s u e h hf ⟨hparts, hfree, hwait, htraps⟩ => ?_
  obtain ⟨tag, htag⟩ := ((s.escapeTeam e.t).barmAll e u (lanesIn (e.parts u))).s.barmArrived_tag e.team.core
    ((s.escapeTeam e.t).barmAll e u (lanesIn (e.parts u))).vals
  refine ⟨{}, .access, tag, ?_, ((s.escapeTeam_calm e.t).trans (State.barmAll_calm _ e u _)).trans
    (State.barmArrived_calm _ _ _), answers_nothing (by cases h.use; rfl)⟩
  rw [releasing_free _ (by rw [hfree, Bool.and_false])]
  unfold barmArvBody
  simp only [h.runs_eq hf, h.staleTraps_eq hf, h.staleSets_eq hf, isEmpty_lanesIn hparts, hwait, htraps, htag,
    Bool.false_eq_true, if_false, List.append_nil]

/-! ## BARM.WAIT (R228) -/

/-- The lanes whose barrier word has a later generation than the one that they wait on. -/
def State.pastLanes (s : State) (vals : Tbl Nat) (g : Nat → Nat) : Lanes :=
  lanesOf fun k => (((vals.get? k).map fun place => BarWord.of (s.mem.getN place 16)).map fun b => genPast b.gen (g k)).getD false

theorem State.pastLanes_bit {s : State} {vals : Tbl Nat} {g : Nat → Nat} {k place : Nat} (hk : k < 16)
    (hplace : vals.get? k = some place) (hpast : genPast (BarWord.of (s.mem.getN place 16)).gen (g k) = true) :
    (s.pastLanes vals g).getLsbD k = true := by
  unfold State.pastLanes
  rw [lanesOf_bit _ k hk, hplace, Option.map_some, Option.map_some, Option.getD_some, hpast]

/-- BARM.WAIT whose participants all find a later generation releases them all by it, giving 0 under .STAT. -/
theorem barmWaitBody_released {i : Instr} {stat : Option RegRef} {u : Use} {s t : State} {e : Ex} {r : Sweep} (h : Issues s i u e)
    (hf : e.fresh u) (hr : s.barmAll e u (lanesIn (e.parts u)) = r) (hwait : r.wait = false) (htraps : r.traps = [])
    (ht : r.s.barmRegister e.team.core r.vals = t)
    (hpast : ∀ k ∈ lanesIn (e.parts u), (t.pastLanes r.vals fun k => ((e.lane u k).src[1]?).getD 0).getLsbD k = true) :
    barmWaitBody stat u s e (e.parts u) = .done t
      { regs := match stat with
          | some d => [(d, e.parts u, fun k =>
              if (t.pastLanes r.vals fun j => ((e.lane u j).src[1]?).getD 0).getLsbD k then 0 else 1)]
          | none => [] } .result none := by
  generalize hgen : (t.pastLanes r.vals fun k => ((e.lane u k).src[1]?).getD 0) = gen at hpast ⊢
  unfold State.pastLanes at hgen
  have hzero : BitVec.ofNat 16 0 = (0 : Lanes) := rfl
  have hor (m : Lanes) : 0 ||| m = m := BitVec.zero_or
  have htodo : ((lanesIn (e.parts u)).filter fun k => !(0 : Lanes).getLsbD k) = lanesIn (e.parts u) :=
    List.filter_eq_self.2 fun k _ => by rw [show (0 : Lanes).getLsbD k = false from BitVec.getLsbD_zero, Bool.not_false]
  have hbroken (b : Nat → Bool) : ((lanesIn (e.parts u)).filter fun k =>
      (lanesOf fun j => !gen.getLsbD j && b j).getLsbD k) = [] :=
    List.filter_eq_nil_iff.2 fun k hk => by
      rw [lanesOf_bit _ k (BitVec.lt_of_getLsbD (hpast k hk)), hpast k hk]
      exact Bool.false_ne_true
  unfold barmWaitBody
  simp only [h.runs_eq hf, h.staleTraps_eq hf, h.staleSets_eq hf, h.src_eq, h.free, Option.map_none, Option.getD_none, hzero, hor,
    htodo, hr, hwait, htraps, Bool.false_and, Bool.false_eq_true, if_false, if_true, ht, hgen,
    hbroken, List.map_nil, ite_self, List.nil_append]
  refine if_pos (List.all_eq_true.2 fun k hk => ?_)
  rw [BitVec.getLsbD_or, BitVec.getLsbD_or, hpast k hk, Bool.true_or, Bool.true_or]

/-- BARM.WAIT whose participants all find a later generation enters its die in their words and goes on. -/
theorem barmWait_law {i : Instr} {stat : Option RegRef} {r : State → Use → Ex → Gives}
    (hx : ∀ s, exec i s = peelOp i (barmWaitBody stat) s) (huse : ∀ u, i.use = some u → u.wr = stat.toList ∧ u.pw = [])
    (hr : ∀ s u e, r s u e = { val := stat.map fun _ _ => 0 }) :
    EffectLaw i
      (fun s u e => (s.barmAll e u (lanesIn (e.parts u))).wait = false ∧ (s.barmAll e u (lanesIn (e.parts u))).traps = [] ∧
        (let r := s.barmAll e u (lanesIn (e.parts u))
         let t := r.s.barmRegister e.team.core r.vals
         ∀ k ∈ lanesIn (e.parts u), ∃ place, r.vals.get? k = some place ∧
           genPast (BarWord.of (t.mem.getN place 16)).gen (((e.lane u k).src[1]?).getD 0) = true))
      (fun s u e => (s.barmAll e u (lanesIn (e.parts u))).s.barmRegister e.team.core
        (s.barmAll e u (lanesIn (e.parts u))).vals)
      r := by
  refine calm_law_on hx fun s u e h hf ⟨hwait, htraps, hpast⟩ => ?_
  obtain ⟨hwr, hpw⟩ := huse u h.use
  generalize hsweep : s.barmAll e u (lanesIn (e.parts u)) = q at hwait htraps hpast ⊢
  have hlater : ∀ k ∈ lanesIn (e.parts u), ((q.s.barmRegister e.team.core q.vals).pastLanes q.vals
      fun k => ((e.lane u k).src[1]?).getD 0).getLsbD k = true := fun k hk => by
    obtain ⟨place, hplace, hgen⟩ := hpast k hk
    exact State.pastLanes_bit (BitVec.lt_of_getLsbD ((mem_lanesIn _ k).1 hk)) hplace hgen
  have hdone := barmWaitBody_released (stat := stat) h hf hsweep hwait htraps rfl hlater
  have hcalm : State.Calm s (q.s.barmRegister e.team.core q.vals) :=
    (hsweep ▸ s.barmAll_calm e u (lanesIn (e.parts u))).trans (State.barmRegister_calm _ _ _)
  rw [hr]
  cases stat with
  | none => exact ⟨{}, .result, none, {}, hdone, hcalm, answers_nothing hpw, rfl, Or.inl ⟨rfl, rfl⟩⟩
  | some d => exact ⟨_, .result, none, _, hdone, hcalm, answers_lanes hwr hpw _, Gives.agree_of_vals fun k hk => if_pos (hlater k hk)⟩

/-- Settles O29: the arrivals of BARM.ARV are counted in the words that its lanes name, and BARM.WAIT goes on where each of its
lanes finds a later generation, be its word broken or not (log 89). -/
theorem memoryBarriers : Obligations.MemoryBarriers := by
  refine ⟨barmArv_law, fun x => barmWait_law (stat := x.stat.map fun d => vref d 1) (fun _ => rfl) ?_ fun _ _ _ => ?_⟩
  · rintro _ ⟨⟩
    cases x.stat <;> exact ⟨rfl, rfl⟩
  · cases x.stat <;> rfl

end Sys2Proof.Machine
end

