-- ==== Sys2Proof/Proofs/StashMaps.lean ====
section
/-!
SUPPORT. SMAP and the operations by key (R230 to R240).
-/
namespace Sys2Proof.Machine
open Sys2Proof

/-- The law of an instruction executed once (R242), after a change `pre`, that keeps the waves. -/
theorem calm_once_law {i : Instr} {body : Use → State → Ex → Lanes → Issue} {pre : State → Ex → Lanes → State}
    {k : Use → State → Ex → Lanes → (Nat → Nat) → LaneRes → Issue} {ok : State → Use → Ex → Prop} {g : State → Use → Ex → State}
    {r : State → Use → Ex → Gives} (hx : ∀ s, exec i s = peelOp i body s)
    (honce : ∀ u s e p, body u s e p = once u (pre s e p) e p (k u s e p))
    (hb : ∀ s u e, Issues s i u e → ok s u e → e.parts u ≠ 0 ∧ ∃ q kind tag,
      k u s e (e.parts u) (e.operand u) {} = .done (g s u e) q kind tag ∧ State.Calm s (g s u e) ∧ Answers u e (r s u e) q) :
    EffectLaw i ok g r :=
  calm_law hx fun s u e h hf ho => by
    obtain ⟨hparts, q, kind, tag, hdone, hcalm, hanswers⟩ := hb s u e h ho
    exact ⟨q, kind, tag, (honce u s e _).trans ((once_eq h hf hparts _ _).trans hdone), hcalm, hanswers⟩

/-! ## SMAP (R230 to R233) -/

/-- SMAP whose template is read and whose checks pass, with an entry to be had, resolves it. -/
theorem smap_law (x : Smap) (p : PoolEntry) (t t' : State) : EffectLaw (.smap x)
    (fun s u e => e.parts u ≠ 0 ∧ (s.escapeTeam e.t).poolOf e (e.operand u 0) 2 (some 3) = .ok t p ∧ p.word 1 < 2 ^ 47 ∧
      smapCheck (t.core e.team.core) e (mapOf p e (e.operand u 1) (e.operand u 2) x.rw x.retain) = none ∧
      t.resolveMap e (mapOf p e (e.operand u 1) (e.operand u 2) x.rw x.retain) = (t', true))
    (fun _ _ _ => t') fun _ _ _ => {} := by
  refine calm_once_law (body := smapBody x) (fun _ => rfl) (fun _ _ _ _ => rfl)
    fun s u e h ⟨hparts, hpool, hword, hcheck, hmap⟩ => ⟨hparts, {}, .result, none, ?_, ?_, answers_nothing (by cases h.use; rfl)⟩
  · have hzero : p.word 1 / 2 ^ 47 = 0 := Nat.div_eq_of_lt hword
    simp only [hpool, Got.andThen, hzero, ne_eq, not_true_eq_false, if_false, hcheck, hmap]
  · have hread := (s.escapeTeam e.t).poolOf_calm e (e.operand u 0) 2 (some 3)
    have hresolve := t.resolveMap_calm e (mapOf p e (e.operand u 1) (e.operand u 2) x.rw x.retain)
    rw [hpool] at hread
    rw [hmap] at hresolve
    exact ((s.escapeTeam_calm e.t).trans hread).trans hresolve

/-! ## Operations by key (R239) -/

/-- What a key names stands in the map entries of the core. -/
theorem State.keyed_of_cores {s t : State} (h : t.cores = s.cores) (e : Ex) (key : Nat) : t.keyed e key = s.keyed e key := by
  unfold State.keyed State.core
  rw [h]

/-- An operation by key, after a change `f0` of the participants that keeps the cores, acts on the entry that the key names; a key
that names none has no effect. -/
theorem key_laws {i : Instr} {pre : State → Ex → Lanes → State} {f0 : State → Ex → State}
    {f : State → Nat → Nat → MapEntry → State} (hx : ∀ s, exec i s = peelOp i (fun u s e p => keyBody f u (pre s e p) e p) s)
    (hpw : ∀ u, i.use = some u → u.pw = []) (hpre : ∀ s e p, p ≠ 0 → pre s e p = f0 s e)
    (hcores : ∀ s e, (f0 s e).cores = s.cores) (hcalm0 : ∀ s e, State.Calm s (f0 s e))
    (hcalm : ∀ s c n m, State.Calm s (f s c n m)) :
    (∀ n m, EffectLaw i (fun s u e => e.parts u ≠ 0 ∧ s.keyed e (e.operand u 0) = some (n, m))
      (fun s _ e => f (f0 s e) e.team.core n m) fun _ _ _ => {}) ∧
    EffectLaw i (fun s u e => e.parts u ≠ 0 ∧ s.keyed e (e.operand u 0) = none) (fun s _ e => f0 s e) fun _ _ _ => {} := by
  refine ⟨fun n m => ?_, ?_⟩
  · refine calm_once_law hx (fun _ _ _ _ => rfl) fun s u e h ⟨hparts, hkey⟩ => ⟨hparts, {}, .stash e.team.core n, none, ?_,
      (hcalm0 s e).trans (hcalm _ _ _ _), answers_nothing (hpw u h.use)⟩
    simp only [hpre s e _ hparts, State.keyed_of_cores (hcores s e), hkey]
  · refine calm_once_law hx (fun _ _ _ _ => rfl) fun s u e h ⟨hparts, hkey⟩ => ⟨hparts, {}, .result, none, ?_, hcalm0 s e,
      answers_nothing (hpw u h.use)⟩
    simp only [hpre s e _ hparts, State.keyed_of_cores (hcores s e), hkey]

/-- SUNMAP marks the lap of its team before it looks for the entry (R70). -/
theorem sunmap_laws (x : KeyOp) :
    (∀ n m, EffectLaw (.sunmap x) (fun s u e => e.parts u ≠ 0 ∧ s.keyed e (e.operand u 0) = some (n, m))
      (fun s _ e => (s.escapeTeam e.t).displace e.team.core n) fun _ _ _ => {}) ∧
    EffectLaw (.sunmap x) (fun s u e => e.parts u ≠ 0 ∧ s.keyed e (e.operand u 0) = none) (fun s _ e => s.escapeTeam e.t)
      fun _ _ _ => {} :=
  key_laws (pre := fun s e p => if p = 0 then s else s.escapeTeam e.t) (f := fun s c n _ => s.displace c n) (fun _ => rfl)
    (by rintro _ ⟨⟩; rfl) (fun _ _ _ hp => if_neg hp) (fun _ _ => rfl) (fun s e => s.escapeTeam_calm e.t)
    fun s c n _ => s.displace_calm c n

/-- An operation by key that changes nothing else. -/
theorem plain_key_laws {i : Instr} {f : State → Nat → Nat → MapEntry → State} (hx : ∀ s, exec i s = peelOp i (keyBody f) s)
    (hpw : ∀ u, i.use = some u → u.pw = []) (hcalm : ∀ s c n m, State.Calm s (f s c n m)) :
    (∀ n m, EffectLaw i (fun s u e => e.parts u ≠ 0 ∧ s.keyed e (e.operand u 0) = some (n, m))
      (fun s _ e => f s e.team.core n m) fun _ _ _ => {}) ∧
    EffectLaw i (fun s u e => e.parts u ≠ 0 ∧ s.keyed e (e.operand u 0) = none) (fun s _ _ => s) fun _ _ _ => {} :=
  key_laws (pre := fun s _ _ => s) hx hpw (fun _ _ _ _ => rfl) (fun _ _ => rfl) (fun s _ => .refl s) hcalm

/-- Settles O31: SMAP resolves its entry; the four operations by key act on the entry that `State.keyed` finds. -/
theorem stashMaps : Obligations.StashMaps := by
  have hflush (x : KeyOp) := plain_key_laws (i := .sflush x) (fun _ => rfl) (by rintro _ ⟨⟩; rfl) fun s c n _ => s.flush_calm c n
  have hfill (x : KeyOp) := plain_key_laws (i := .sfill x) (fun _ => rfl) (by rintro _ ⟨⟩; rfl) fun s c n m => s.fillEntry_calm c n m
  have hdiscard (x : KeyOp) := plain_key_laws (i := .sdiscard x) (fun _ => rfl) (by rintro _ ⟨⟩; rfl)
    fun s c n _ => s.discard_calm c n
  exact ⟨smap_law, fun x => (sunmap_laws x).1, fun x => (sunmap_laws x).2, fun x => (hflush x).1, fun x => (hflush x).2,
    fun x => (hfill x).1, fun x => (hfill x).2, fun x => (hdiscard x).1, fun x => (hdiscard x).2⟩

end Sys2Proof.Machine
end

