-- ==== Sys2Proof/Proofs/ReadsOnce.lean ====
section
/-!
SUPPORT. MPROG, GCNT, SQUERY, TFFR and CSRR: one value for every participant (R240, R242, R257, R261, R275).
-/
namespace Sys2Proof.Machine
open Sys2Proof

/-- The law of an instruction that is executed once, gives one value to its one destination and keeps the waves. -/
theorem give_law {i : Instr} {always branch : Bool} {body : Use → State → Ex → Lanes → Issue} {d : RegRef}
    {act : Use → Nat → Grid → State → Span → SpanAct} {ok : State → Use → Ex → Prop} {g : State → Use → Ex → State}
    {v : State → Use → Ex → Nat} (hx : ∀ s, exec i s = issue i always branch body act s)
    (huse : ∀ u, i.use = some u → u.wr = [d] ∧ u.pw = []) (hcalm : ∀ s u e, State.Calm s (g s u e))
    (hb : ∀ s u e, Issues s i u e → e.fresh u → ok s u e →
      body u s e (e.parts u) = .done (g s u e) (({} : LaneRes).give d (e.parts u) (v s u e)) .result none) :
    EffectLaw i ok g fun s u e => { val := some fun _ => v s u e } :=
  calm_law hx fun s u e h hf ho => by
    obtain ⟨hwr, hpw⟩ := huse u h.use
    exact ⟨_, .result, none, hb s u e h hf ho, hcalm s u e, answers_give hwr hpw _⟩

/-- A wave without unfinished earlier instructions has no flight that a read of the sticky words would end (R275). -/
theorem State.settleFlights_of_finished {s : State} {e : Ex} (h : e.wave.unfinished e = false) : s.settleFlights e = s := by
  unfold Wave.unfinished at h
  have hnone := List.any_eq_false.1 (Bool.or_eq_false_iff.1 h).1
  have hnil : (e.wave.flights.filter fun f => decide (f.1 < e.ownFlight) && !f.2.done && f.2.kind.own) = [] :=
    List.filter_eq_nil_iff.2 fun f hf => by rw [Bool.eq_false_iff.2 (hnone f hf)]; exact Bool.false_ne_true
  unfold State.settleFlights
  rw [hnil]
  rfl

/-- CSRR gives the register, TSTAT and FPFLAGS once the earlier instructions have completed. -/
theorem csrrBody_gives {ix : Nat} {d : RegRef} {u : Use} {s : State} {e : Ex} {i : Instr} (h : Issues s i u e) (hf : e.fresh u)
    (hparts : e.parts u ≠ 0) (hdone : ix = 1 ∨ ix = 2 → e.wave.unfinished e = false) :
    csrrBody ix d u s e (e.parts u) = .done s (({} : LaneRes).give d (e.parts u) (s.csr e ix)) .result none := by
  unfold csrrBody
  rw [once_eq h hf hparts]
  by_cases hix : ix = 1 ∨ ix = 2
  · have hsticky : (ix == 0x001 || ix == 0x002) = true := by simpa using hix
    simp only [hsticky, if_true, State.settleFlights_of_finished (hdone hix), h.wave?, Option.map_some, Option.getD_some, hdone hix,
      Bool.and_false, Bool.false_eq_true, if_false]
  · have hsticky : (ix == 0x001 || ix == 0x002) = false := by simpa using hix
    simp only [hsticky, Bool.false_and, Bool.false_eq_true, if_false]

/-- The lowest tag of a list of them, or 64. -/
theorem Team.headD_tagsIn (t : Team) (mask : Nat) :
    (t.tagsIn mask fun st => st == .done).headD 64 =
      ((List.range 64).find? fun n => toBit (mask / 2 ^ n) && t.tag n == .done).getD 64 := by
  unfold Team.tagsIn
  rw [List.headD_eq_head?_getD, List.head?_filter]

/-- Settles O36: each of the five is executed once and gives its value to its destination. -/
theorem readsOnce : Obligations.ReadsOnce := by
  refine ⟨fun x => ?_, fun x => ?_, fun x => ?_, fun x => ?_, fun x => ?_⟩
  · exact give_law (fun s => Eq.refl (execMprog x s)) (by rintro _ ⟨⟩; exact ⟨rfl, rfl⟩) (fun s _ _ => .refl s)
      fun s u e h hf hparts => once_eq h hf hparts s _
  · exact give_law (body := fun u s e p => once u s e p fun _ r =>
      .done s (r.give (x.d.ref 2) p (e.team.layout x.g.val).conf.toNat) .result none) (fun _ => rfl)
      (by rintro _ ⟨⟩; exact ⟨rfl, rfl⟩) (fun s _ _ => .refl s) fun s u e h hf hparts => once_eq h hf hparts s _
  · exact give_law (fun s => Eq.refl (execSquery x s)) (by rintro _ ⟨⟩; exact ⟨rfl, rfl⟩) (fun s _ _ => .refl s)
      fun s u e h hf hparts => once_eq h hf hparts s _
  · refine give_law (body := fun u s e p => once u s e p fun src r => .done (s.escapeTeam e.t)
      (r.give (x.d.ref 2) p ((e.team.tagsIn (src 0) fun st => st == .done).headD 64)) .result none) (fun _ => rfl)
      (by rintro _ ⟨⟩; exact ⟨rfl, rfl⟩) (fun s _ e => s.escapeTeam_calm e.t)
      fun s u e h hf hparts => (once_eq h hf hparts s _).trans ?_
    rw [Team.headD_tagsIn]
  · exact give_law (fun s => Eq.refl (execCsrr x s)) (by rintro _ ⟨⟩; exact ⟨rfl, rfl⟩) (fun s _ _ => .refl s)
      fun s u e h hf ⟨hparts, hdone⟩ => csrrBody_gives h hf hparts hdone

end Sys2Proof.Machine
end

