-- ==== Sys2Proof/Proofs/HomeEvents.lean ====
section
/-!
SUPPORT. Requests at the home of a line, the answers of its holders, and the requests of the host ports (R330 to R337).
-/
namespace Sys2Proof.Machine
open Sys2Proof

/-! ## Requests of agents (R330 to R332) -/

section
variable {s : State} {l : LineRef} {who : Option Holder} {w p : Bool}

/-- A request for a line without a transaction opens one. -/
theorem State.request_opens (hpurge : s.purging l = false) (htxn : (s.entry l).txn = none) :
    s.request l who w p =
      (s.openReq l { src := who, who := who, write := w, partialOwn := p, at_ := s.cycle }).closeTxn l := by
  simp only [State.request, hpurge, htxn, Option.isSome_none, Bool.false_eq_true, if_false]

/-- A request for a line with an open transaction joins its queue. -/
theorem State.request_queues (hpurge : s.purging l = false) (htxn : (s.entry l).txn.isSome = true) :
    s.request l who w p =
      s.putEntry ((s.entry l).enqueue { src := who, who := who, write := w, partialOwn := p, at_ := s.cycle }) := by
  simp only [State.request, hpurge, htxn, Bool.false_eq_true, if_false, if_true]

end

section
variable {s : State} {line : LineRef} {who : Holder}

/-- GETS of an agent that holds nothing of the line is a request to read. -/
theorem execGets_requests (hok : s.agentOk line.dev who = true) (hholds : (s.entry line).holds who = none) :
    execGets line who s = .next (s.request line (some who) false false) := by
  simp only [execGets, hok, hholds, Option.isNone_none, Bool.and_self, if_true]

/-- GETM and UPGRADE of an agent that does not own the line are requests to write. -/
theorem State.requestOwn_requests (hok : s.agentOk line.dev who = true) (hkind : who.kind ≠ 1)
    (hmeets : (s.entry line).meets who .own = false) : s.requestOwn line who = s.request line (some who) true false := by
  simp only [State.requestOwn, hok, hmeets, bne_iff_ne.2 hkind, Bool.not_false, Bool.and_self, if_true]

/-- GETP of a stash that does not own its bytes of the line is a request for partial ownership. -/
theorem execGetp_requests (hok : s.agentOk line.dev who = true) (hkind : who.kind = 1)
    (hmeets : (s.entry line).meets who .partialOwn = false) :
    execGetp line who s = .next (s.request line (some who) true true) := by
  simp only [execGetp, hok, hmeets, beq_iff_eq.2 hkind, Bool.not_false, Bool.and_self, if_true]

end

/-! ## Requests of host ports (R334, R335) -/

section
variable {s t : State} {dev port dpa : Nat} {l : LineRef} {q : Req}

/-- A host's request for a line that is being purged waits (R340). -/
theorem State.hostReq_waits {a : Nat} (hpurge : s.purging l = true) :
    s.hostReq a l q = s.modDev l.dev fun v => { v with hostWait := v.hostWait ++ [(a, q)] } :=
  if_pos hpurge

/-- A host's request for a line whose transaction, answered by all that can answer, is still open joins its queue. -/
theorem State.hostReq_queues {a : Nat} (hpurge : s.purging l = false)
    (htxn : (((s.answerAll l).closeTxn l).entry l).txn.isSome = true) :
    s.hostReq a l q = ((s.answerAll l).closeTxn l).putEntry ((((s.answerAll l).closeTxn l).entry l).enqueue q) := by
  simp only [State.hostReq, hpurge, htxn, Bool.false_eq_true, if_false, if_true]

/-- Any other host's request has the line filled and opens a transaction. -/
theorem State.hostReq_opens {a : Nat} (hpurge : s.purging l = false) (htxn : (((s.answerAll l).closeTxn l).entry l).txn = none)
    (hfill : ((s.answerAll l).closeTxn l).homeFill l = some t) :
    s.hostReq a l q = ((t.openReq l q).answerAll l).closeTxn l := by
  simp only [State.hostReq, hpurge, htxn, hfill, Option.isSome_none, Bool.false_eq_true, if_false]

/-- A port that is up asks for the line that the page at the address names. -/
theorem State.hostRequest_mapped (hup : ((s.ports[port]?).getD {}).up = true)
    (hline : s.reverse dev (dpa / 64 * 64) = some l) :
    s.hostRequest dev port dpa q = s.hostReq (dpa / 64 * 64) l { q with src := some (portHolder port), at_ := s.cycle } := by
  simp only [State.hostRequest, hup, hline, Bool.not_true, Bool.false_eq_true, if_false]

/-- A read of memory that no page names is answered in place (log 49). -/
theorem State.hostRequest_unmapped_read (hup : ((s.ports[port]?).getD {}).up = true)
    (hline : s.reverse dev (dpa / 64 * 64) = none) (hdata : q.data = none) :
    s.hostRequest dev port dpa q = s.sendLine port (dpa / 64 * 64 / 64) (hbmPlace s.pkg.mode dev (dpa / 64 * 64)) := by
  simp only [State.hostRequest, hup, hline, hdata, Bool.not_true, Bool.false_eq_true, if_false]

/-- A write of memory that no page names is made in place (log 49). -/
theorem State.hostRequest_unmapped_write {bs : List Byte} (hup : ((s.ports[port]?).getD {}).up = true)
    (hline : s.reverse dev (dpa / 64 * 64) = none) (hdata : q.data = some bs) :
    s.hostRequest dev port dpa q = s.putLine (hbmPlace s.pkg.mode dev (dpa / 64 * 64)) bs := by
  simp only [State.hostRequest, hup, hline, hdata, Bool.not_true, Bool.false_eq_true, if_false]

end

/-! ## Responses of host ports (R334) -/

section
variable {s : State} {line : LineRef} {port : Nat} {t : Txn}

/-- A response without bytes is an acknowledgement of the port. -/
theorem execBisnpdataResponse_clean (htxn : (s.entry line).txn = some t) (hacks : t.acks.contains (portHolder port) = true) :
    execBisnpdataResponse line port none s =
      .next (((s.recallAt line (portHolder port) t.req.write).ack line (portHolder port)).closeTxn line) := by
  unfold execBisnpdataResponse
  simp only [htxn, hacks, Bool.not_true, Bool.false_eq_true, if_false]

/-- A response with the bytes of a line that the port holds E or M puts them in place first. -/
theorem execBisnpdataResponse_dirty {a : Nat} {bs : List Byte} (htxn : (s.entry line).txn = some t)
    (hacks : t.acks.contains (portHolder port) = true)
    (hholds : (s.entry line).holds (portHolder port) = some .e ∨ (s.entry line).holds (portHolder port) = some .m)
    (hplace : s.place? line.dev line.asid (64 * line.line) = some a) :
    execBisnpdataResponse line port (some bs) s =
      .next ((((s.putLine a bs).recallAt line (portHolder port) t.req.write).ack line (portHolder port)).closeTxn line) := by
  unfold execBisnpdataResponse
  simp only [htxn, hacks, Bool.not_true, Bool.false_eq_true, if_false]
  rcases hholds with hholds | hholds
  · rw [hholds, hplace]
  · rw [hholds, hplace]

end

/-! ## The events -/

/-- Settles O56: each event takes the branch of its meaning that its premises name; the four host requests are one request with a
holder to be, a direction and bytes of their own. -/
theorem homeAndHostEvents : Obligations.HomeAndHostEvents := by
  refine ⟨?fillComplete, ?fillFault, ?writebackComplete, ?stashRecall, ?getsOpens, ?getsQueues, ?getmOpens, ?getmQueues,
    ?upgradeOpens, ?upgradeQueues, ?getpOpens, ?getpQueues, ?uncachedOpens, ?uncachedQueues, ?writeBack, ?cleanNotice,
    ?recallRead, ?recallWrite, ?recallAck, ?homeFill, ?walk, ?translationFault,
    ?dataWaits, ?dataOpens, ?dataQueues, ?dataInPlace, ?invWaits, ?invOpens, ?invQueues, ?invInPlace,
    ?readWaits, ?readOpens, ?readQueues, ?readInPlace, ?writeWaits, ?writeOpens, ?writeQueues, ?writeInPlace,
    ?birspi, ?responseClean, ?responseDirty, ?snpinv, ?snpdata, ?snoopOpens, ?snpcur⟩
  case fillComplete =>
    rintro core sector sc e t s ⟨hsector, hst, hentry, hfill⟩
    simp only [exec, execSectorFillComplete, State.fillStep, hsector, hst, hentry, hfill, if_true]
  case fillFault =>
    rintro core sector sc e t x s ⟨hsector, hst, hentry, hfill⟩
    simp only [exec, execSectorFillFault, State.fillStep, hsector, hst, hentry, hfill, Bool.false_eq_true, if_false]
  case writebackComplete => exact fun core sector s hst => congrArg Host.Outcome.next (if_pos hst)
  case stashRecall =>
    rintro core line write s ⟨hawaits, hfree⟩
    have hany : (s.awaits line ⟨core, 1⟩ write || (s.entry line).coarse && s.awaits line ⟨core, 0⟩ write) = true := by
      simpa using hawaits
    simp only [exec, execStashRecall, hany, hfree, Bool.not_false, Bool.and_self, if_true]
  case getsOpens =>
    exact fun line who s ⟨hok, hholds, hpurge, htxn⟩ => (execGets_requests hok hholds).trans
      (congrArg Host.Outcome.next (State.request_opens hpurge htxn))
  case getsQueues =>
    exact fun line who s ⟨hok, hholds, hpurge, htxn⟩ => (execGets_requests hok hholds).trans
      (congrArg Host.Outcome.next (State.request_queues hpurge htxn))
  case getmOpens | upgradeOpens =>
    exact fun line who s ⟨hok, hkind, hmeets, hpurge, htxn⟩ => congrArg Host.Outcome.next
      ((State.requestOwn_requests hok hkind hmeets).trans (State.request_opens hpurge htxn))
  case getmQueues | upgradeQueues =>
    exact fun line who s ⟨hok, hkind, hmeets, hpurge, htxn⟩ => congrArg Host.Outcome.next
      ((State.requestOwn_requests hok hkind hmeets).trans (State.request_queues hpurge htxn))
  case getpOpens =>
    exact fun line who s ⟨hok, hkind, hmeets, hpurge, htxn⟩ => (execGetp_requests hok hkind hmeets).trans
      (congrArg Host.Outcome.next (State.request_opens hpurge htxn))
  case getpQueues =>
    exact fun line who s ⟨hok, hkind, hmeets, hpurge, htxn⟩ => (execGetp_requests hok hkind hmeets).trans
      (congrArg Host.Outcome.next (State.request_queues hpurge htxn))
  case uncachedOpens => exact fun line write s ⟨hpurge, htxn⟩ => congrArg Host.Outcome.next (State.request_opens hpurge htxn)
  case uncachedQueues => exact fun line write s ⟨hpurge, htxn⟩ => congrArg Host.Outcome.next (State.request_queues hpurge htxn)
  case writeBack =>
    rintro line who st s ⟨hholds, hst, hgives⟩
    rcases hst with rfl | rfl | rfl
    all_goals simp only [exec, execWriteBack, hholds, hgives, Bool.not_true, Bool.false_eq_true, if_false]
  case cleanNotice =>
    rintro line who st s ⟨hholds, hst, hgives⟩
    rcases hst with rfl | rfl
    all_goals simp only [exec, execCleanNotice, hholds, hgives, Bool.not_true, Bool.false_eq_true, if_false]
  case recallRead =>
    rintro line who s ⟨hawaits, hkind⟩
    simp only [exec, execRecallForRead, hawaits, bne_iff_ne.2 hkind, Bool.and_self, if_true]
  case recallWrite =>
    rintro line who s ⟨hawaits, hkind⟩
    simp only [exec, execRecallForWrite, hawaits, bne_iff_ne.2 hkind, Bool.and_self, if_true]
  case recallAck =>
    rintro line who t s ⟨htxn, hacks, hkind, hgone⟩
    simp only [exec, execRecallAck, htxn, hacks, bne_iff_ne.2 hkind, hgone, Bool.not_false, Bool.and_self, if_true]
  case homeFill =>
    rintro line t s ⟨htxn, hfill⟩
    simp only [exec, execHomeFillComplete, htxn, hfill, Option.getD_some, if_true]
  case walk =>
    intro dev asid va p s hpage
    simp only [exec, execTranslationWalk, hpage]
  case translationFault =>
    rintro line s ⟨htxn, hslice, hfill⟩
    simp only [exec, execTranslationFault, htxn, hslice, hfill, Option.isNone_none, Bool.not_false, Bool.and_self, if_true]
  case dataWaits | invWaits | readWaits =>
    exact fun dev port dpa l s ⟨hup, hline, hpurge⟩ => congrArg Host.Outcome.next
      ((State.hostRequest_mapped hup hline).trans (State.hostReq_waits hpurge))
  case dataOpens | invOpens | readOpens =>
    exact fun dev port dpa l t s ⟨hup, hline, hpurge, htxn, hfill⟩ => congrArg Host.Outcome.next
      ((State.hostRequest_mapped hup hline).trans (State.hostReq_opens hpurge htxn hfill))
  case dataQueues | invQueues | readQueues =>
    exact fun dev port dpa l s ⟨hup, hline, hpurge, htxn⟩ => congrArg Host.Outcome.next
      ((State.hostRequest_mapped hup hline).trans (State.hostReq_queues hpurge htxn))
  case dataInPlace | invInPlace | readInPlace =>
    exact fun dev port dpa s ⟨hup, hline⟩ => congrArg Host.Outcome.next (State.hostRequest_unmapped_read hup hline rfl)
  case writeWaits =>
    exact fun dev port dpa data l s ⟨hup, hline, hpurge⟩ => congrArg Host.Outcome.next
      ((State.hostRequest_mapped hup hline).trans (State.hostReq_waits hpurge))
  case writeOpens =>
    exact fun dev port dpa data l t s ⟨hup, hline, hpurge, htxn, hfill⟩ => congrArg Host.Outcome.next
      ((State.hostRequest_mapped hup hline).trans (State.hostReq_opens hpurge htxn hfill))
  case writeQueues =>
    exact fun dev port dpa data l s ⟨hup, hline, hpurge, htxn⟩ => congrArg Host.Outcome.next
      ((State.hostRequest_mapped hup hline).trans (State.hostReq_queues hpurge htxn))
  case writeInPlace =>
    exact fun dev port dpa data s ⟨hup, hline⟩ => congrArg Host.Outcome.next (State.hostRequest_unmapped_write hup hline rfl)
  case birspi => exact fun line port s hawaits => congrArg Host.Outcome.next (if_pos hawaits)
  case responseClean => exact fun line port t s ⟨htxn, hacks⟩ => execBisnpdataResponse_clean htxn hacks
  case responseDirty => exact fun line port a t bs s ⟨htxn, hacks, hholds, hplace⟩ =>
    execBisnpdataResponse_dirty htxn hacks hholds hplace
  case snpinv | snpdata => exact fun dev port hpa s => rfl
  case snoopOpens => exact fun hpa port snoop l t u hpurge htxn hfill => State.hostReq_opens hpurge htxn hfill
  case snpcur => exact fun dev port hpa s => rfl

end Sys2Proof.Machine
end

