-- ==== Sys2Proof/Proofs/CopyTags.lean ====
section
/-!
SUPPORT. COPYQ (R256, R377), and the waits on tags, child grids and counters that end at once (R242, R257, R258, R277).
-/
namespace Sys2Proof.Machine
open Sys2Proof

/-- What an attempt that succeeded leaves. -/
theorem Got.Calm.of_ok {α : Type} {s t : State} {r : Got α} {a : α} (hr : r.Calm s) (h : r = .ok t a) : State.Calm s t := by
  rwa [h] at hr

/-- An instruction that is not held takes the next place in the engine order of its team (R304). -/
theorem Runs.order_eq {s : State} {u : Use} {e : Ex} (h : Runs s u e) : e.order = e.team.seq := by
  unfold Ex.order
  rw [h.free]
  rfl

/-- The mark of a lap changes no accessor. -/
@[simp] theorem State.accessor_escapeTeam (s : State) (t : Nat) (e : Ex) (i : Nat) :
    (s.escapeTeam t).accessor e i = s.accessor e i := rfl

/-! ## COPYQ (R256) -/

/-- An engine that takes a command changes its slots alone. -/
theorem State.acceptXfer_calm {s t : State} {n : Nat} {x : Xfer} (h : s.acceptXfer n x = some t) : State.Calm s t := by
  unfold State.acceptXfer at h
  split at h
  · cases h
  · cases h
    exact ⟨fun _ => rfl, id, rfl, rfl, rfl⟩

/-- Settles O32: the descriptor is read and accepted as the premises say, and neither the lap's mark (R394), the reading nor the
engine changes a wave. -/
theorem copyQueue : Obligations.CopyQueue := by
  intro x t t' ws d n
  refine calm_once_law (body := copyqBody) (pre := fun s _ _ => s) (fun _ => rfl) (fun _ _ _ _ => rfl)
    fun s u e h ⟨hparts, halign, hwords, hdesc, hengine, haccept⟩ => ⟨hparts, {}, .result, none, ?_, ?_,
      answers_nothing (by cases h.use; rfl)⟩
  · simp only [halign, hwords, hdesc, hengine, h.order_eq, haccept, ne_eq, not_true_eq_false, if_false]
  · have hread := (s.escapeTeam_calm e.t).trans ((State.loadWords_calm _ _ _ _).of_ok hwords)
    exact (hread.trans (State.acceptXfer_calm haccept)).trans (State.Calm.modTeam _ _ _ fun _ => rfl)

/-! ## TWAIT and TCLR (R257) -/

theorem Team.mem_tagsIn {t : Team} {mask : Nat} {f : TagState → Bool} {n : Nat} :
    n ∈ t.tagsIn mask f ↔ n < 64 ∧ toBit (mask / 2 ^ n) = true ∧ f (t.tag n) = true := by
  simp only [Team.tagsIn, List.mem_filter, List.mem_range, Bool.and_eq_true]

/-- No selected tag is OPEN or BUSY, or one of several is enough and one is DONE: what ends a TWAIT. -/
def Team.tagsReady (t : Team) (mask : Nat) (all : Bool) : Prop :=
  (∀ n < 64, toBit (mask / 2 ^ n) = true → t.tag n ≠ .opened ∧ t.tag n ≠ .busy) ∨
    (all = false ∧ ∃ n < 64, toBit (mask / 2 ^ n) = true ∧ t.tag n = .done)

/-- The test that TWAIT makes. -/
theorem Team.tagsReady.ends {t : Team} {mask : Nat} {all : Bool} (h : t.tagsReady mask all) :
    (!(t.tagsIn mask fun st => st == .opened || st == .busy).isEmpty &&
      !(!all && !(t.tagsIn mask fun st => st == .done).isEmpty)) = false := by
  rcases h with hnone | ⟨rfl, n, hn, hsel, hdone⟩
  · have hnil : (t.tagsIn mask fun st => st == .opened || st == .busy) = [] :=
      List.eq_nil_iff_forall_not_mem.2 fun n hmem => by
        obtain ⟨hn, hsel, hst⟩ := Team.mem_tagsIn.1 hmem
        have hcalm := hnone n hn hsel
        simp [hcalm] at hst
    rw [hnil]
    rfl
  · have hmem : n ∈ t.tagsIn mask fun st => st == .done := Team.mem_tagsIn.2 ⟨hn, hsel, by rw [hdone]; rfl⟩
    rw [List.isEmpty_eq_false_iff_exists_mem.2 ⟨n, hmem⟩]
    exact Bool.and_false _

/-- Tags change apart from the waves. -/
theorem Team.setTags_waves (t : Team) (st : TagState) (l : List Nat) :
    (l.foldl (fun t n => t.setTag n st) t).waves = t.waves :=
  List.foldlRecOn (motive := fun t' : Team => t'.waves = t.waves) l _ rfl fun _ h _ _ => h

/-- Settles O34: each of the waits is executed once and its test holds at its issue; the lap's mark, the tags and the word that is
read leave the waves as they are. -/
theorem tagWaits : Obligations.TagWaits := by
  refine ⟨fun x => ?twait, fun x => ?tclr, fun x => ?children, fun x t v => ?record, fun x t v => ?counter⟩
  case twait =>
    refine calm_once_law (body := twaitBody x.all) (pre := fun s _ _ => s) (fun _ => rfl) (fun _ _ _ _ => rfl)
      fun s u e h ⟨hparts, hready⟩ => ⟨hparts, {}, .result, none, if_neg ?_, s.escapeTeam_calm e.t,
        answers_nothing (by cases h.use; rfl)⟩
    rw [Team.tagsReady.ends hready]
    exact Bool.false_ne_true
  case tclr =>
    refine calm_once_law (pre := fun s _ _ => s) (k := fun _ s e _ src r => .done ((s.escapeTeam e.t).modTeam e.t fun tm =>
      (tm.tagsIn (src 0) fun st => st == .done).foldl (fun tm n => tm.setTag n .idle) tm) r .result none) (fun _ => rfl)
      (fun _ _ _ _ => rfl) fun s u e h hparts => ⟨hparts, {}, .result, none, rfl, ?_, answers_nothing (by cases h.use; rfl)⟩
    exact (s.escapeTeam_calm e.t).trans (State.Calm.modTeam _ _ _ fun tm => tm.setTags_waves .idle _)
  case children =>
    refine calm_once_law (body := lwaitBody x.a.isNone) (pre := fun s _ _ => s) (fun _ => rfl) (fun _ _ _ _ => rfl)
      fun s u e h ⟨hparts, hall, hnone⟩ => ⟨hparts, {}, .result, none, ?_, .refl s, answers_nothing (by cases h.use; rfl)⟩
    simp only [hall, hnone, Option.isNone_none, if_true]
  case record =>
    refine calm_once_law (body := lwaitBody x.a.isNone) (pre := fun s _ _ => s) (fun _ => rfl) (fun _ _ _ _ => rfl)
      fun s u e h ⟨hparts, hrec, hload, hstatus⟩ => ⟨hparts, {}, .result, none, ?_, (State.load_calm _ _ _ _).of_ok hload,
        answers_nothing (by cases h.use; rfl)⟩
    have hsome : x.a.isNone = false := Option.isNone_eq_false_iff.2 hrec
    simp only [hsome, hload, hstatus, Bool.false_eq_true, if_false]
  case counter =>
    refine calm_once_law (body := cntwaitBody (x.d.ref 2)) (pre := fun s _ _ => s) (fun _ => rfl) (fun _ _ _ _ => rfl)
      fun s u e h ⟨hparts, haddr, hload, hreached⟩ => ⟨hparts, _, .result, none, ?_,
        (s.escapeTeam_calm e.t).trans ((State.load_calm _ _ _ _).of_ok hload), answers_give (d := x.d.ref 2) ?_ ?_ v⟩
    · simp only [haddr, State.accessor_escapeTeam, hload, hreached, decide_true, Bool.true_or, if_true]
    all_goals
      cases h.use
      rfl

end Sys2Proof.Machine
end

