-- ==== Sys2Proof/Proofs/CopyArrivals.lean ====
section
/-!
SUPPORT. Arrivals of copy instructions (R245, R246, R249, R251, R254, R255): the first issue, which is held while its slices are
validated, and the held arrival that goes on.
-/
namespace Sys2Proof.Machine
open Sys2Proof

/-! ## Lanes that read no released register -/

section
variable {e : Ex} {u : Use} {p : Lanes} (hs : ∀ i ∈ lanesIn p, e.stale u i = false)
include hs

theorem Ex.runs_of_not_stale : e.runs u p = lanesIn p :=
  List.filter_eq_self.2 fun i hi => by rw [hs i hi, Bool.and_false, Bool.not_false]

theorem Ex.staleTraps_of_not_stale : e.staleTraps u p = [] := by
  unfold Ex.staleTraps
  rw [List.filter_eq_nil_iff.2 fun i hi => by rw [hs i hi, Bool.and_false]; exact Bool.false_ne_true, List.map_nil]

theorem Ex.staleSets_of_not_stale : e.staleSets u p = false := by
  unfold Ex.staleSets
  rw [List.any_eq_false.2 fun i hi => by rw [hs i hi]; exact Bool.false_ne_true, Bool.and_false]

end

theorem lanesIn_eq_lowLane_cons {p : Lanes} (h : lanesIn p ≠ []) : ∃ r, lanesIn p = lowLane p :: r := by
  unfold lowLane
  cases hl : lanesIn p with
  | nil => exact absurd hl h
  | cons i r => exact ⟨r, rfl⟩

theorem lanesIn_ne_nil {p : Lanes} (h : p ≠ 0) : lanesIn p ≠ [] := List.ne_nil_of_mem (mem_lowLane p h)

/-! ## The answers of an arrival -/

/-- A tag on which a new rendezvous may open (R245). -/
def Team.tagFree (t : Team) (n : Nat) : Prop := t.tag n = .idle ∨ t.tag n = .done

theorem Team.tagFree.test {t : Team} {n : Nat} (h : t.tagFree n) : (t.tag n == .idle || t.tag n == .done) = true := by
  rcases h with h | h <;> rw [h] <;> rfl

/-- A rendezvous of `w` waves is open on the tag of an arrival. -/
def CopyForm.opened (f : CopyForm) (s : State) (e : Ex) (w c0 c1 : Nat) : State :=
  s.modTeam e.t fun tm => { (tm.setTag f.tag .opened) with copies := tm.copies.set f.tag (f.opens s e w c0 c1) }

section
variable {f : CopyForm} {s : State} {u : Use} {e : Ex}

/-- The first arrival on a free tag opens its rendezvous. -/
theorem CopyForm.body_opens (h : Runs s u e) (hf : e.fresh u) (hparts : e.parts u ≠ 0) (hown : f.own = false)
    (hretried : e.sub.retried = false) (hfree : e.team.tagFree f.tag) :
    f.body u s e (e.parts u) = .hold
      ((f.opened (s.escapeTeam e.t) e f.w (e.operand u 2 % 2 ^ 64) (e.operand u 2 / 2 ^ 64)).checkCopy e.t f.tag)
      (checkHold (e.parts u) f.tag) := by
  obtain ⟨r, hcons⟩ := lanesIn_eq_lowLane_cons (lanesIn_ne_nil hparts)
  unfold CopyForm.body Ex.operand
  simp only [h.runs_eq hf, hcons, h.src_eq, h.free, hown, hretried, hfree.test, Option.map_none, Bool.or_self,
    Bool.false_eq_true, if_true, if_false]
  rfl

/-- The first arrival of an instruction that is a rendezvous of its own is held before it opens one. -/
theorem CopyForm.body_ownArrival (h : Runs s u e) (hf : e.fresh u) (hparts : e.parts u ≠ 0) (hown : f.own = true)
    (hfree : e.team.tagFree f.tag) :
    f.body u s e (e.parts u) = .hold (s.escapeTeam e.t) (checkHold (e.parts u) (64 + f.tag)) := by
  obtain ⟨r, hcons⟩ := lanesIn_eq_lowLane_cons (lanesIn_ne_nil hparts)
  unfold CopyForm.body
  simp only [h.runs_eq hf, hcons, h.free, hown, hfree.test, Option.map_none, Bool.true_or, if_true]

variable {h : Hold} {q : Slices} (hheld : e.sub.hold = some h) (hkind : h.kind = .copyCheck) (hlanes : lanesIn h.lanes ≠ [])
  (hs : ∀ i ∈ lanesIn h.lanes, e.stale u i = false)
  (hq : f.validate (s.escapeTeam e.t) e u (lanesIn h.lanes) (e.src u (lowLane h.lanes) 2 % 2 ^ 64)
    (e.src u (lowLane h.lanes) 2 / 2 ^ 64) = q) (hwait : q.wait = false) (htraps : q.traps = [])
include hheld hkind hlanes hs hq hwait htraps

/-- A held arrival on a rendezvous, none of whose slices is refused, joins them to the copy. -/
theorem CopyForm.body_joins (haux : h.aux < 64) :
    f.body u s e h.lanes = .done (q.s.joinSlices e f.tag (lanesIn h.lanes) q.moves) {} .engine none := by
  obtain ⟨r, hcons⟩ := lanesIn_eq_lowLane_cons hlanes
  rw [hcons] at hq
  unfold CopyForm.body
  simp only [Ex.runs_of_not_stale hs, Ex.staleTraps_of_not_stale hs, Ex.staleSets_of_not_stale hs, hcons, hheld, Option.map_some,
    hkind, hq, hwait, htraps, haux, if_true, Bool.false_eq_true, if_false, List.any_nil, Bool.not_false, List.filter_true,
    List.append_nil]

/-- A held arrival that is a rendezvous of its own, none of whose slices is refused, opens it on a free tag. -/
theorem CopyForm.body_opensOwn (haux : 64 ≤ h.aux) (hfree : e.team.tagFree f.tag) (hok : q.ok ≠ 0) :
    f.body u s e h.lanes = .done
      (((f.opened q.s e 1 (e.src u (lowLane h.lanes) 2 % 2 ^ 64) (e.src u (lowLane h.lanes) 2 / 2 ^ 64)).joinSlices e f.tag
        (lanesIn h.lanes) q.moves).checkCopy e.t f.tag) {} .engine none := by
  obtain ⟨r, hcons⟩ := lanesIn_eq_lowLane_cons hlanes
  rw [hcons] at hq
  unfold CopyForm.body
  simp only [Ex.runs_of_not_stale hs, Ex.staleTraps_of_not_stale hs, Ex.staleSets_of_not_stale hs, hcons, hheld, Option.map_some,
    hkind, hq, hwait, htraps, Nat.not_lt.2 haux, hok, hfree.test, if_true, Bool.false_eq_true, if_false, List.any_nil,
    Bool.not_false, List.filter_true, List.append_nil]
  rfl

end

/-! ## The instructions -/

/-- CPYT goes on to its arrival where the read of its shape record does not wait, or the arrival has issued before. -/
theorem execCpyt_of_reads {x : Cpyt} {s : State} (h : cpytReads x s = none) :
    execCpyt x s = issueNaming (.cpyt x) cpytNames true false (cpytForm x).body (fun _ _ _ _ _ => .peel) s := by
  unfold execCpyt
  rw [h]

theorem cpytReads_of_runs {x : Cpyt} {v : Use} {s : State} {u : Use} {e : Ex} (hu : (Instr.cpyt x).use = some v) (h : Runs s u e)
    (hshape : ∀ t, s.cpytShape v e ≠ .wait t) : cpytReads x s = none := by
  unfold cpytReads
  simp only [hu, h.cur, h.here]
  split
  · rfl
  · split
    next t ht => exact absurd ht (hshape t)
    next => rfl
    next => rfl

theorem cpytReads_of_held {x : Cpyt} {v : Use} {s : State} {e : Ex} {h : Hold} (hu : (Instr.cpyt x).use = some v)
    (hr : Resumes s e h) : cpytReads x s = none := by
  unfold cpytReads
  simp only [hu, hr.cur, hr.here, hr.held, Option.isSome_some, Bool.true_or, if_true]

/-- What an instruction answers, where its meaning's answer is known. -/
theorem next_of_answer {r : Res} {e : Ex} {u : Use} {opc : Nat} {p : Lanes} {a b : Issue} (hr : r = .next (a.conclude e u opc p))
    (h : a = b) : r = .next (b.conclude e u opc p) := h ▸ hr

/-- Settles O33: the first issues are held with their rendezvous open or still to open; the arrivals that go on join their
slices. CPYT is CPY with the operands that its shape record names, CPYG and CPYS are rendezvous of their own; the lap's mark is
R394. -/
theorem copyArrivals : Obligations.CopyArrivals := by
  refine ⟨?cpy, ?cpyt, ?cpyg, ?cpys, ?cpyHeld, ?cpytHeld, ?cpygHeld, ?cpysHeld⟩
  case cpy =>
    intro x s u e h hf hparts hretried hfree
    exact next_of_answer (issue_eq h) (CopyForm.body_opens (f := cpyForm x) h.toRuns hf hparts rfl hretried hfree)
  case cpyt =>
    intro x v s e hu u h hshape hf hparts hretried hfree
    exact next_of_answer ((execCpyt_of_reads (cpytReads_of_runs hu h hshape)).trans (issueNaming_eq h hu rfl))
      (CopyForm.body_opens (f := cpytForm x) h hf hparts rfl hretried hfree)
  case cpyg =>
    intro x s u e h hf hparts hfree
    exact next_of_answer (issue_eq h) (CopyForm.body_ownArrival (f := cpygForm x) h.toRuns hf hparts rfl hfree)
  case cpys =>
    intro x s u e h hf hparts hfree
    exact next_of_answer (issue_eq h) (CopyForm.body_ownArrival (f := cpysForm x) h.toRuns hf hparts rfl hfree)
  case cpyHeld =>
    intro x v s e h hu hr hkind hlanes hs haux s0 c0 c1 q hwait htraps
    exact next_of_answer (resume_eq (names := fun _ u _ => u) hr hu)
      (CopyForm.body_joins (f := cpyForm x) hr.held hkind hlanes hs rfl hwait htraps haux)
  case cpytHeld =>
    intro x v s e h hu u hr hkind hlanes hs haux s0 c0 c1 q hwait htraps
    exact next_of_answer ((execCpyt_of_reads (cpytReads_of_held hu hr)).trans (resume_eq hr hu))
      (CopyForm.body_joins (f := cpytForm x) hr.held hkind hlanes hs rfl hwait htraps haux)
  case cpygHeld =>
    intro x v s e h hu hr hkind hlanes hs haux hfree s0 c0 c1 q hwait htraps hok
    exact next_of_answer (resume_eq (names := fun _ u _ => u) hr hu)
      (CopyForm.body_opensOwn (f := cpygForm x) hr.held hkind hlanes hs rfl hwait htraps haux hfree hok)
  case cpysHeld =>
    intro x v s e h hu hr hkind hlanes hs haux hfree s0 c0 c1 q hwait htraps hok
    exact next_of_answer (resume_eq (names := fun _ u _ => u) hr hu)
      (CopyForm.body_opensOwn (f := cpysForm x) hr.held hkind hlanes hs rfl hwait htraps haux hfree hok)

end Sys2Proof.Machine
end

