-- ==== Sys2Proof/Proofs/MatrixIssue.lean ====
section
/-!
SUPPORT. The issue of the matrix group (R260, R262, R264, R265, R270, R271).
-/
namespace Sys2Proof.Machine
open Sys2Proof

/-! ## Moves of accumulator data (R270, R271) -/

/-- A move of accumulator data enters the engine order of its team. -/
def Team.queueMove (tm : Team) (m : AccMove) : Team := { tm with moves := tm.moves.set tm.seq m, seq := tm.seq + 1 }

/-- The move that an instruction asks for. -/
def State.moveOf (s : State) (e : Ex) (p : Lanes) (op : AccOp) : AccMove :=
  { op := op, flight := (e.w, e.flightNo), pc := e.sub.wordPc, items := s.itemsOf e (lanesIn p) }

/-- The law of a move of accumulator data whose checks pass: it marks its lap (log 44) and enters the engine order. -/
theorem move_law {i : Instr} {body : Use → State → Ex → Lanes → Issue} {ok : State → Use → Ex → Prop}
    {op : Use → Ex → AccOp} (hx : ∀ s, exec i s = peelOp i body s) (hpw : ∀ u, i.use = some u → u.pw = [])
    (hb : ∀ s u e, Issues s i u e → e.fresh u → ok s u e →
      body u s e (e.parts u) = enqueueMove (op u e) (s.escapeTeam e.t) e (e.parts u) {}) :
    EffectLaw i ok (fun s u e => (s.escapeTeam e.t).modTeam e.t fun tm => tm.queueMove (s.moveOf e (e.parts u) (op u e)))
      fun _ _ _ => {} :=
  calm_law hx fun s u e h hf ho => ⟨{}, .engine, none, hb s u e h hf ho,
    (s.escapeTeam_calm e.t).trans (State.Calm.modTeam _ _ _ fun _ => rfl), answers_nothing (hpw u h.use)⟩

theorem withTiles_configured {tiles : List Nat} {s : State} {e : Ex} {p : Lanes} {r : LaneRes} {k : Unit → Issue}
    (h : e.team.unconfigured tiles = false) : withTiles tiles s e p r k = k () := by
  unfold withTiles
  rw [h]
  exact if_neg Bool.false_ne_true

/-! ## MMA (R264) -/

/-- A fold over a table does not see a change of a record that no step of it sees. -/
theorem Tbl.foldl_modify {α β : Type} {g : β → Nat × α → β} {f : α → α} (h : ∀ b k a, g b (k, f a) = g b (k, a))
    (l : Tbl α) (t : Nat) (b : β) : (l.modify t f).foldl g b = l.foldl g b := by
  induction l generalizing b with
  | nil => rfl
  | cons p r ih =>
    unfold Tbl.modify
    split
    · rw [List.foldl_cons, List.foldl_cons, h]
    · exact ih _

/-- The mark of a lap changes no queue. -/
theorem State.queuedMmas_escapeTeam (s : State) (t core : Nat) : (s.escapeTeam t).queuedMmas core = s.queuedMmas core := by
  refine Tbl.foldl_modify ?_ s.teams t 0
  exact fun _ _ _ => rfl

theorem Team.enqueueMma_waves (t : Team) (order : Nat) (m : Mma) : (t.enqueueMma order m).waves = t.waves := by
  unfold Team.enqueueMma
  split
  · rfl
  · rfl

/-- Settles O35: GSET, ACFG and MMA are executed once and pass their checks; the four moves of accumulator data enter the engine
order. The lap's mark of the moves is log 44, that of ACFG and MMA R70. -/
theorem matrixIssue : Obligations.MatrixIssue := by
  refine ⟨fun x t p l => ?gset, fun x => ?acfg, fun x => ?mma, fun x => ?accLd, fun x => ?accSt, fun x => ?accZero,
    fun x => ?accMov⟩
  case gset =>
    refine calm_once_law (body := gsetBody x.g.val) (pre := fun s _ _ => s) (fun _ => rfl) (fun _ _ _ _ => rfl)
      fun s u e h ⟨hparts, hpool, hlayout⟩ => ⟨hparts, {}, .result, none, ?_,
        ((s.poolOf_calm _ _ _ _).of_ok hpool).trans (State.Calm.modTeam _ _ _ fun _ => rfl),
        answers_nothing (by cases h.use; rfl)⟩
    simp only [hpool, Got.andThen, hlayout]
  case acfg =>
    refine calm_once_law (body := acfgBody x.discard) (pre := fun s _ _ => s) (fun _ => rfl) (fun _ _ _ _ => rfl)
      fun s u e h ⟨hparts, hmax, hcap, hunused, hidle⟩ => ⟨hparts, {}, .result, none, ?_,
        (s.escapeTeam_calm e.t).trans (State.Calm.modTeam _ _ _ fun _ => rfl), answers_nothing (by cases h.use; rfl)⟩
    have hcount : ¬ (32 < e.operand u 0 % 64 ∨ e.team.accTiles.length < e.operand u 0 % 64) := by omega
    cases hd : x.discard with
    | false => simp only [if_neg hcount, hunused hd, Bool.not_false, Bool.and_false, Bool.false_and, Bool.false_eq_true, if_false]
    | true =>
      obtain ⟨hmmas, hmoves, hheld⟩ := hidle hd
      simp only [if_neg hcount, hmmas, hmoves, hheld, List.isEmpty_nil, Bool.and_self, Bool.not_true, Bool.or_self, Bool.and_false,
        Bool.false_and, Bool.false_eq_true, if_false]
  case mma =>
    refine calm_once_law (body := mmaBody x) (pre := fun s _ _ => s) (fun _ => rfl) (fun _ _ _ _ => rfl)
      fun s u e h ⟨hparts, hcheck, htag, hroom, hstores, hwrites⟩ => ⟨hparts, {}, .engine, none, ?_,
        (s.escapeTeam_calm e.t).trans (State.Calm.modTeam _ _ _ fun tm => tm.enqueueMma_waves _ _),
        answers_nothing (by cases h.use; rfl)⟩
    simp only [h.free, hcheck, htag, hstores, hwrites, h.order_eq, State.queuedMmas_escapeTeam,
      decide_eq_false (Nat.not_le.2 hroom), Option.isSome_none, Bool.or_self, Bool.false_eq_true, if_false]
  case accLd =>
    refine move_law (fun s => Eq.refl (execAccLd x s)) (by rintro _ ⟨⟩; rfl)
      fun s u e h hf ⟨hparts, htiles⟩ => ?_
    simp only [h.runs_eq hf, lanesOf_mem, h.staleTraps_eq hf, h.staleSets_eq hf, if_neg hparts, withTiles_configured htiles,
      h.src_eq]
    rfl
  case accSt =>
    refine move_law (fun s => Eq.refl (execAccSt x s)) (by rintro _ ⟨⟩; rfl)
      fun s u e h hf ⟨hparts, htiles⟩ => ?_
    simp only [h.runs_eq hf, lanesOf_mem, h.staleTraps_eq hf, h.staleSets_eq hf, if_neg hparts, withTiles_configured htiles,
      h.src_eq]
    rfl
  case accZero =>
    refine move_law (fun s => Eq.refl (execAccZero x s)) (by rintro _ ⟨⟩; rfl)
      fun s u e h hf ⟨hparts, htiles⟩ => ?_
    rw [once_eq h hf hparts]
    exact withTiles_configured htiles
  case accMov =>
    refine move_law (fun s => Eq.refl (execAccMov x s)) (by rintro _ ⟨⟩; rfl)
      fun s u e h hf ⟨hparts, htiles, hcheck⟩ => ?_
    rw [once_eq h hf hparts, withTiles_configured htiles, hcheck]

end Sys2Proof.Machine
end

