-- ==== Sys2Proof/Proofs/PhaseRules.lean ====
section
/-!
SUPPORT. The phases of the package: the copies of PHDONE that the dies hold and the PHDONE of each die (R301). A lemma `_phases`
says that an operation leaves them as they are, a lemma `_keeps` that what `I` says of them holds of every state that a
step, a meaning or a reply answers. The lemmas of this kind that unfolding proves are proved by the term `(rfl)`: `simp`
uses them as equations and not up to unfolding, so that it closes with them the premise of `foldl_phases`.
-/
namespace Sys2Proof.Machine
open Sys2Proof

/-- What PHDONE mirroring is about (R301): the copies that the dies hold, and the PHDONE of each die. -/
abbrev Phases := Tbl Nat × (Nat → Nat)

/-- The phases of a table of compute dies and a table of copies. -/
def phasesOf (c : Tbl CDie) (m : Tbl Nat) : Phases := (m, fun d => ((c.get? d).getD {}).phdone)

/-- The phases of the package. -/
def State.phases (s : State) : Phases := phasesOf s.cdies s.mirrors

@[simp] theorem State.phases_mk (cur agenda fresh cycle pkg ports devs fdies cdies links cores ctxs queues grids spans
    cursors teams engines ringLast mirrors dir tlb mem poison barm msix nextId) :
    (State.mk cur agenda fresh cycle pkg ports devs fdies cdies links cores ctxs queues grids spans cursors teams engines
      ringLast mirrors dir tlb mem poison barm msix nextId).phases = phasesOf cdies mirrors := (rfl)

@[simp] theorem phasesOf_self (s : State) : phasesOf s.cdies s.mirrors = s.phases := (rfl)

@[simp] theorem State.phases_ite (c : Prop) [Decidable c] (s t : State) :
    (if c then s else t).phases = if c then s.phases else t.phases :=
  apply_ite State.phases c s t

/-- What no step of a fold changes, the fold does not change. -/
theorem foldl_same {α β γ : Type} (π : α → γ) {f : α → β → α} (hf : ∀ a x, π (f a x) = π a) (l : List β) (a : α) :
    π (l.foldl f a) = π a := by
  induction l generalizing a with
  | nil => rfl
  | cons x r ih => exact (ih _).trans (hf a x)

@[simp] theorem foldl_phases {β : Type} {f : State → β → State} (hf : ∀ s x, (f s x).phases = s.phases) (l : List β)
    (s : State) : (l.foldl f s).phases = s.phases :=
  foldl_same State.phases hf l s

/-- A compute die may change in everything but its PHDONE. -/
@[simp] theorem State.modCdie_phases (s : State) (d) (f : CDie → CDie) (h : ∀ c, (f c).phdone = c.phdone) :
    (s.modCdie d f).phases = s.phases := by
  refine Prod.ext rfl (funext fun k => ?_)
  show ((s.modCdie d f).cdie k).phdone = (s.cdie k).phdone
  by_cases hk : k = d
  · rw [hk, s.cdie_modCdie_self, h]
  · rw [s.cdie_modCdie_ne f hk]

/-- The state with which an access answers. -/
def Got.state {α} : Got α → State
  | .ok s _ | .trap s _ | .wait s => s

@[simp] theorem Got.state_ok {α} (s : State) (a : α) : (Got.ok s a).state = s := (rfl)

@[simp] theorem Got.state_trap {α} (s : State) (t) : (Got.trap s t : Got α).state = s := (rfl)

@[simp] theorem Got.state_wait {α} (s : State) : (Got.wait s : Got α).state = s := (rfl)

theorem Got.phases_of {α} {x y : Got α} (h : x = y) : y.state.phases = x.state.phases := by rw [h]

/-- What `I` says of the phases holds of the next state, where there is one. -/
def Res.Keeps (I : Phases → Prop) : Res → Prop
  | .next s => I s.phases
  | _ => True

/-- What `I` says of the phases holds of the state in which an instruction ends or waits, and a jump changes no phase. -/
def Issue.Keeps (I : Phases → Prop) : Issue → Prop
  | .done s _ _ _ | .hold s _ => I s.phases
  | .jump s _ f => I s.phases ∧ ∀ t : State, (f t).phases = t.phases

/-- What `I` says of the phases holds of the state in which a span ends, stalls or faults, and a jump changes no phase. -/
def SpanAct.Keeps (I : Phases → Prop) : SpanAct → Prop
  | .peel | .split _ => True
  | .done s _ _ _ | .stall s | .fault s _ => I s.phases
  | .jump s _ f => I s.phases ∧ ∀ t : State, (f t).phases = t.phases

/-- What `I` says of the phases holds of the state with which a call is answered or waits. -/
def Reply.Keeps (I : Phases → Prop) : Reply → Prop
  | .done s _ _ | .wait s => I s.phases
  | .later => True

variable {I : Phases → Prop}

@[simp] theorem Res.keeps_next (s : State) : Res.Keeps I (.next s) = I s.phases := (rfl)

@[simp] theorem Issue.keeps_done (s : State) (r k t) : (Issue.done s r k t).Keeps I = I s.phases := (rfl)

@[simp] theorem Issue.keeps_hold (s : State) (h) : (Issue.hold s h).Keeps I = I s.phases := (rfl)

@[simp] theorem Issue.keeps_jump (s : State) (r f) :
    (Issue.jump s r f).Keeps I = (I s.phases ∧ ∀ t : State, (f t).phases = t.phases) := (rfl)

@[simp] theorem SpanAct.keeps_peel : SpanAct.peel.Keeps I = True := (rfl)

@[simp] theorem SpanAct.keeps_done (s : State) (r k t) : (SpanAct.done s r k t).Keeps I = I s.phases := (rfl)

@[simp] theorem SpanAct.keeps_stall (s : State) : (SpanAct.stall s).Keeps I = I s.phases := (rfl)

@[simp] theorem SpanAct.keeps_fault (s : State) (t) : (SpanAct.fault s t).Keeps I = I s.phases := (rfl)

@[simp] theorem SpanAct.keeps_jump (s : State) (r f) :
    (SpanAct.jump s r f).Keeps I = (I s.phases ∧ ∀ t : State, (f t).phases = t.phases) := (rfl)

@[simp] theorem Reply.keeps_done (s : State) (a r) : (Reply.done s a r).Keeps I = I s.phases := (rfl)

@[simp] theorem Reply.keeps_wait (s : State) : (Reply.wait s).Keeps I = I s.phases := (rfl)

@[simp] theorem Reply.keeps_later : Reply.later.Keeps I = True := (rfl)

theorem Got.keeps_of {α} {x y : Got α} (h : I x.state.phases) (hx : x = y) : I y.state.phases := hx ▸ h

end Sys2Proof.Machine
end

