-- ==== Sys2Proof/Proofs/PhaseHomes.lean ====
section
/-!
SUPPORT. Devices, records, stashes, caches, the directory and spans: what leaves the phases as they are.
-/
namespace Sys2Proof.Machine
open Sys2Proof

variable {I : Phases → Prop}

@[simp] theorem State.modCore_phases (s : State) (c f) : (State.modCore s c f).phases = s.phases := (rfl)

@[simp] theorem State.modFdie_phases (s : State) (f g) : (State.modFdie s f g).phases = s.phases := (rfl)

@[simp] theorem State.modLink_phases (s : State) (l f) : (State.modLink s l f).phases = s.phases := (rfl)

@[simp] theorem State.modDev_phases (s : State) (d f) : (State.modDev s d f).phases = s.phases := (rfl)

@[simp] theorem State.modCtx_phases (s : State) (c f) : (State.modCtx s c f).phases = s.phases := (rfl)

@[simp] theorem State.modGrid_phases (s : State) (g f) : (State.modGrid s g f).phases = s.phases := (rfl)

@[simp] theorem State.modTeam_phases (s : State) (t f) : (State.modTeam s t f).phases = s.phases := (rfl)

@[simp] theorem State.modSpan_phases (s : State) (i f) : (State.modSpan s i f).phases = s.phases := (rfl)

@[simp] theorem State.modQueue_phases (s : State) (q f) : (State.modQueue s q f).phases = s.phases := (rfl)

@[simp] theorem State.modWave_phases (s : State) (t w f) : (State.modWave s t w f).phases = s.phases := (rfl)

@[simp] theorem State.modSub_phases (s : State) (t w k f) : (State.modSub s t w k f).phases = s.phases := (rfl)

@[simp] theorem State.bump_phases (s : State) : (State.bump s).phases = s.phases := (rfl)

@[simp] theorem State.raiseMsix_phases (s : State) (d vf vector) : (State.raiseMsix s d vf vector).phases = s.phases := by
  unfold State.raiseMsix
  split <;> simp

@[simp] theorem State.logEvent_phases (s : State) (fnd e) : (State.logEvent s fnd e).phases = s.phases := by
  simp [State.logEvent]

@[simp] theorem State.addRecord_phases (s : State) (r) : (State.addRecord s r).1.phases = s.phases := by
  unfold State.addRecord
  dsimp only
  (repeat' split) <;> simp

@[simp] theorem State.raiseRecord_phases (s : State) (r) : (State.raiseRecord s r).phases = s.phases := by
  simp [State.raiseRecord]

@[simp] theorem State.deliverTrap_phases (s : State) (t w k) : (State.deliverTrap s t w k).phases = s.phases := by
  unfold State.deliverTrap
  (repeat' split) <;> simp

@[simp] theorem State.takeTraps_phases (s : State) (t w k tr pc entry) :
    (State.takeTraps s t w k tr pc entry).phases = s.phases := by
  refine foldl_phases (fun s x => ?_) _ _
  (repeat' split) <;> simp

@[simp] theorem State.untag_phases (s : State) (tag) : (State.untag s tag).phases = s.phases := by
  unfold State.untag
  split <;> simp

@[simp] theorem State.untagAll_phases (s : State) (fl) :
    (State.untagAll s fl).phases = s.phases := by simp [State.untagAll]

@[simp] theorem State.finishWave_phases (s : State) (t w seq) : (State.finishWave s t w seq).phases = s.phases := by
  unfold State.finishWave
  split <;> simp

@[simp] theorem State.finishSpan_phases (s : State) (i seq) : (State.finishSpan s i seq).phases = s.phases := by
  unfold State.finishSpan
  split <;> simp

@[simp] theorem State.finishOwner_phases (s : State) (o seq) : (State.finishOwner s o seq).phases = s.phases := by
  unfold State.finishOwner
  split <;> simp

@[simp] theorem State.poisonAt_phases (s : State) (place) : (State.poisonAt s place).phases = s.phases := (rfl)

@[simp] theorem State.sectorOut_phases (s : State) (core sec e) : (State.sectorOut s core sec e).phases = s.phases := by
  refine foldl_phases (fun s x => ?_) _ _
  (repeat' split) <;> simp

@[simp] theorem State.setSector_phases (s : State) (core sec st entry) :
    (State.setSector s core sec st entry).phases = s.phases :=
  (rfl)

@[simp] theorem State.dropSector_phases (s : State) (core sec) : (State.dropSector s core sec).phases = s.phases := (rfl)

@[simp] theorem State.escapeSector_phases (s : State) (core sec) :
    (State.escapeSector s core sec).phases = s.phases := (rfl)

@[simp] theorem State.unregister_phases (s : State) (core ls) : (State.unregister s core ls).phases = s.phases := by
  simp [State.unregister]

@[simp] theorem State.freeEntry_phases (s : State) (core entry) :
    (State.freeEntry s core entry).phases = s.phases := (rfl)

@[simp] theorem State.writebackDone_phases (s : State) (core sec) :
    (State.writebackDone s core sec).phases = s.phases := by
  unfold State.writebackDone
  dsimp only
  (repeat' split) <;> simp

@[simp] theorem State.displace_phases (s : State) (core entry) : (State.displace s core entry).phases = s.phases := by
  unfold State.displace
  dsimp only
  split
  · rfl
  · refine (State.freeEntry_phases _ _ _).trans ((foldl_phases (fun s p => ?_) _ _).trans (State.modCore_phases _ _ _))
    split <;> simp

@[simp] theorem State.discard_phases (s : State) (core entry) : (State.discard s core entry).phases = s.phases := by
  unfold State.discard
  dsimp only
  (repeat' split) <;> simp

@[simp] theorem State.flush_phases (s : State) (core entry) : (State.flush s core entry).phases = s.phases := by
  simp [State.flush]

@[simp] theorem State.putEntry_phases (s : State) (e) : (State.putEntry s e).phases = s.phases := by simp [State.putEntry]

@[simp] theorem State.dropLine_phases (s : State) (l) : (State.dropLine s l).phases = s.phases := (rfl)

@[simp] theorem State.recallSectors_phases (s : State) (core write l) :
    (State.recallSectors s core write l).phases = s.phases := by
  refine foldl_phases (fun s x => ?_) _ _
  (repeat' split) <;> simp

@[simp] theorem State.recallStash_phases (s : State) (core l write) :
    (State.recallStash s core l write).phases = s.phases := by
  simp [State.recallStash]

@[simp] theorem State.recallNow_phases (s : State) (l h0 write) : (State.recallNow s l h0 write).phases = s.phases := by
  simp [State.recallNow]

@[simp] theorem State.recallAt_phases (s : State) (l h0 write) : (State.recallAt s l h0 write).phases = s.phases := by
  simp [State.recallAt]

@[simp] theorem State.leaveL1_phases (s : State) (core l) : (State.leaveL1 s core l).phases = s.phases := by
  unfold State.leaveL1
  split <;> simp

@[simp] theorem State.leaveIc_phases (s : State) (core l) : (State.leaveIc s core l).phases = s.phases := by
  unfold State.leaveIc
  dsimp only
  (repeat' split) <;> simp

@[simp] theorem State.cacheData_phases (s : State) (core l valid wr) :
    (State.cacheData s core l valid wr).phases = s.phases := by
  unfold State.cacheData
  (repeat' split) <;> simp

@[simp] theorem State.cacheCode_phases (s : State) (core l) : (State.cacheCode s core l).phases = s.phases := by
  unfold State.cacheCode
  (repeat' split) <;> simp

@[simp] theorem State.openReq_phases (s : State) (l q) :
    (State.openReq s l q).phases = s.phases := by simp [State.openReq]

@[simp] theorem State.openTxn_phases (s : State) (l who write partialOwn) :
    (State.openTxn s l who write partialOwn).phases = s.phases := by
  simp [State.openTxn]

@[simp] theorem State.putLine_phases (s : State) (place data) : (State.putLine s place data).phases = s.phases := (rfl)

@[simp] theorem State.sendLine_phases (s : State) (port n place) :
    (State.sendLine s port n place).phases = s.phases := (rfl)

@[simp] theorem State.hostLine_phases (s : State) (l held) : (State.hostLine s l held).phases = s.phases := by
  unfold State.hostLine
  split <;> simp

@[simp] theorem State.evictHost_phases (s : State) (l) : (State.evictHost s l).phases = s.phases := by
  unfold State.evictHost
  split <;> simp

@[simp] theorem State.leaveSlice_phases (s : State) (l) : (State.leaveSlice s l).phases = s.phases := by
  unfold State.leaveSlice
  split <;> simp

@[simp] theorem State.serveHost_phases (s : State) (l q) : (State.serveHost s l q).phases = s.phases := by
  unfold State.serveHost
  split <;> simp

@[simp] theorem State.endTxn_phases (s : State) (l) : (State.endTxn s l).phases = s.phases := by
  unfold State.endTxn
  dsimp only
  (repeat' split) <;> simp

@[simp] theorem State.ack_phases (s : State) (l h0) : (State.ack s l h0).phases = s.phases := by
  unfold State.ack
  dsimp only
  (repeat' split) <;> simp

@[simp] theorem State.answerAll_phases (s : State) (l) : (State.answerAll s l).phases = s.phases := by
  unfold State.answerAll
  split <;> simp

@[simp] theorem State.nextReqs_phases (s : State) (l n) : (State.nextReqs l n s).phases = s.phases := by
  induction n generalizing s with
  | zero => rfl
  | succ n ih =>
    unfold State.nextReqs
    dsimp only
    split <;> simp [ih]

@[simp] theorem State.closeTxn_phases (s : State) (l) : (State.closeTxn s l).phases = s.phases := by simp [State.closeTxn]

@[simp] theorem State.obtainHost_phases (s : State) (l) : (State.obtainHost s l).phases = s.phases := by
  unfold State.obtainHost
  split <;> simp

@[simp] theorem State.evict_phases (s : State) (l) : (State.evict s l).phases = s.phases := by
  unfold State.evict
  dsimp only
  (repeat' split) <;> simp

@[simp] theorem State.makeRoom_phases (s : State) (l) : (State.makeRoom s l).phases = s.phases := by
  unfold State.makeRoom
  dsimp only
  (repeat' split) <;> simp

@[simp] theorem State.cacheWalk_phases (s : State) (unit asid p) : (State.cacheWalk s unit asid p).phases = s.phases := by
  simp [State.cacheWalk]

@[simp] theorem State.dropTlb_phases (s : State) (dev asid va len) :
    (State.dropTlb s dev asid va len).phases = s.phases :=
  (rfl)

@[simp] theorem State.filled_phases (s : State) (l p) : (State.filled s l p).phases = s.phases := by simp [State.filled]

theorem State.homeFill_phases (s : State) (l) : ∀ t, State.homeFill s l = some t → t.phases = s.phases := by
  intro t h
  unfold State.homeFill at h
  dsimp only at h
  (repeat' split at h) <;> cases h <;> simp

@[simp] theorem State.getD_homeFill_phases (s : State) (l) : ((s.homeFill l).getD s).phases = s.phases := by
  cases h : s.homeFill l with
  | none => rfl
  | some t => exact State.homeFill_phases s l t h

@[simp] theorem State.silent_phases (s : State) (l who n) : (State.silent s l who n).phases = s.phases := by
  unfold State.silent
  split <;> simp

@[simp] theorem State.obtain_phases (s : State) (l who n) : (State.obtain s l who n).1.phases = s.phases := by
  unfold State.obtain
  dsimp only
  (repeat' split) <;> simp <;> grind [→ State.homeFill_phases, = State.answerAll_phases, = State.closeTxn_phases]

@[simp] theorem State.hostAnswers_phases (s : State) (l h write) : (State.hostAnswers s l h write).phases = s.phases := by
  unfold State.hostAnswers
  dsimp only
  split <;> simp

@[simp] theorem State.force_phases (s : State) (l write) : (State.force s l write).phases = s.phases := by
  unfold State.force
  extract_lets finish
  have hf : ∀ s : State, (finish s).phases = s.phases := fun s => by
    simp only [finish]
    split <;> simp
  split
  · rfl
  · simp [hf, State.homeFill_phases _ _ _ ‹_›]

@[simp] theorem State.obtainAll_phases (s : State) (ls who n) : (State.obtainAll s ls who n).1.phases = s.phases := by
  refine foldl_same (fun r : State × Bool => r.1.phases) (fun r l => ?_) ls (s, true)
  split <;> simp

@[simp] theorem State.obtainCode_phases (s : State) (core ls) : (State.obtainCode s core ls).1.phases = s.phases := by
  refine foldl_same (fun r : State × Bool => r.1.phases) (fun r l => ?_) ls (s, true)
  have ho := State.obtain_phases r.1 l ⟨core, 0⟩ .read
  split
  · split <;> simp_all
  · rfl

@[simp] theorem State.dropSlot_phases (s : State) (i) : (State.dropSlot s i).phases = s.phases := by
  unfold State.dropSlot
  split <;> simp

theorem State.mergeOnce_phases (s : State) (g pc t) (h : s.mergeOnce g pc = some t) : t.phases = s.phases := by
  unfold State.mergeOnce at h
  split at h
  · cases h
  · obtain ⟨a, -, ha⟩ := List.exists_of_findSome?_eq_some h
    obtain ⟨b, -, hb⟩ := List.exists_of_findSome?_eq_some ha
    split at hb
    · cases hb
    · obtain ⟨m, -, rfl⟩ := Option.map_eq_some_iff.1 hb
      rfl

@[simp] theorem State.mergeAll_phases (s : State) (n g pc) : (State.mergeAll n g pc s).phases = s.phases := by
  induction n generalizing s with
  | zero => rfl
  | succ n ih =>
    unfold State.mergeAll
    split
    · rfl
    · exact (ih _).trans (s.mergeOnce_phases g pc _ ‹_›)

@[simp] theorem State.releaseJoin_phases (s : State) (g pc) : (State.releaseJoin s g pc).phases = s.phases := by
  simp [State.releaseJoin]

@[simp] theorem State.checkJoin_phases (s : State) (g) : (State.checkJoin s g).phases = s.phases := by
  unfold State.checkJoin
  (repeat' split) <;> simp

@[simp] theorem State.drainSpan_phases (s : State) (i sp) : (State.drainSpan s i sp).phases = s.phases := by
  unfold State.drainSpan
  split <;> simp

@[simp] theorem State.holdCut_phases (s : State) (i sp) :
    (State.holdCut s i sp).phases = s.phases := by simp [State.holdCut]

@[simp] theorem State.parkSpan_phases (s : State) (i sp core slot t) :
    (State.parkSpan s i sp core slot t).phases = s.phases := by
  unfold State.parkSpan
  dsimp only
  (repeat' split) <;> simp

@[simp] theorem State.toCursor_phases (s : State) (i sp) : (State.toCursor s i sp).phases = s.phases := by
  simp [State.toCursor]

@[simp] theorem State.peelSpan_phases (s : State) (i sp) : (State.peelSpan s i sp).phases = s.phases := by
  simp [State.peelSpan]

@[simp] theorem State.splitSpan_phases (s : State) (i sp p) : (State.splitSpan s i sp p).phases = s.phases := by
  unfold State.splitSpan
  (repeat' split) <;> simp

end Sys2Proof.Machine
end

