-- ==== Sys2Proof/Proofs/PhaseIssue.lean ====
section
/-!
SUPPORT. The issue of an instruction: what leaves the phases as they are (`_phases`), and what keeps what is said of them (`_keeps`).
-/
namespace Sys2Proof.Machine
open Sys2Proof

variable {I : Phases → Prop}

@[simp] theorem State.releasePort_phases (s : State) (core f) : (State.releasePort s core f).phases = s.phases := (rfl)

@[simp] theorem State.coverStall_phases (s : State) (e seqs) : (State.coverStall s e seqs).phases = s.phases := by
  simp [State.coverStall]

@[simp] theorem State.yieldPort_phases (s : State) (e) : (State.yieldPort s e).phases = s.phases := by
  unfold State.yieldPort
  split <;> simp

@[simp] theorem State.settle_phases (s : State) (e u opc r kind tag p) :
    (State.settle s e u opc r kind tag p).phases = s.phases := by
  simp [State.settle]

@[simp] theorem State.depart_phases {f : State → State} (hf : ∀ t, (f t).phases = t.phases) (s : State) (e u opc r p) :
    (s.depart e u opc r f p).phases = s.phases := by
  simp [State.depart, hf]

@[simp] theorem State.holdOn_phases (s : State) (e u opc h0) : (State.holdOn s e u opc h0).phases = s.phases := by
  unfold State.holdOn
  split <;> simp

theorem Issue.conclude_keeps {a : Issue} (h : a.Keeps I) {e u opc p} : I (a.conclude e u opc p).phases := by
  cases a with
  | done s r kind tag => simpa [Issue.conclude] using h
  | jump s r f => simpa [Issue.conclude, h.2] using h.1
  | hold s h0 => simpa [Issue.conclude] using h

theorem State.issueSub_keeps {s : State} {body : State → Ex → Lanes → Issue} (h : I s.phases)
    (hb : ∀ (s : State) (e : Ex) (p : Lanes), I s.phases → (body s e p).Keeps I) {e u opc} :
    I (s.issueSub e u opc body).phases := by
  unfold State.issueSub
  dsimp only
  (repeat' split) <;> first | simpa using h | exact Issue.conclude_keeps (hb _ _ _ (by simpa using h))

@[simp] theorem State.settleSpan_phases (s : State) (i sp u opc r kind tag) :
    (State.settleSpan s i sp u opc r kind tag).phases = s.phases :=
  (rfl)

@[simp] theorem Span.lanewise_keeps {s : State} (h : I s.phases) {sp g u rule f} :
    (Span.lanewise s sp g u rule f).Keeps I := by
  unfold Span.lanewise
  (repeat' split) <;> simp [h]

@[simp] theorem State.coverSpan_phases (s : State) (i core seqs) : (State.coverSpan s i core seqs).phases = s.phases := by
  simp [State.coverSpan]

theorem State.issueSpan_keeps {s : State} {act : State → Span → SpanAct} (h : I s.phases)
    (ha : ∀ (s : State) (sp : Span), I s.phases → (act s sp).Keeps I) {i sp core u opc always branch} :
    I (s.issueSpan i sp core u opc always branch act).phases := by
  unfold State.issueSpan
  split
  · simpa using h
  · split
    · exact h
    · split
      · split <;> simpa using h
      · split
        · simpa using h
        · extract_lets under t sp'
          have ht : I t.phases := by simp only [t]; split <;> simpa using h
          have hk := ha t sp' ht
          clear_value t
          split
          · simpa using h
          · cases hx : act t sp' <;> rw [hx] at hk <;> simp only [SpanAct.Keeps] at hk
            all_goals (repeat' split) <;> simp_all

theorem issueNaming_keeps {s : State} {body : Use → State → Ex → Lanes → Issue}
    {act : Use → Nat → Grid → State → Span → SpanAct} (h : I s.phases)
    (hb : ∀ (u : Use) (s : State) (e : Ex) (p : Lanes), I s.phases → (body u s e p).Keeps I)
    (ha : ∀ (u : Use) (n : Nat) (g : Grid) (s : State) (sp : Span), I s.phases → (act u n g s sp).Keeps I)
    {i names always branch} : Res.Keeps I (issueNaming i names always branch body act s) := by
  unfold issueNaming
  repeat' split
  all_goals first | trivial | exact State.issueSub_keeps h (hb _) | exact State.issueSpan_keeps h (ha _ _ _)

@[simp] theorem issue_keeps {s : State} {body : Use → State → Ex → Lanes → Issue}
    {act : Use → Nat → Grid → State → Span → SpanAct} (h : I s.phases)
    (hb : ∀ (u : Use) (s : State) (e : Ex) (p : Lanes), I s.phases → (body u s e p).Keeps I)
    (ha : ∀ (u : Use) (n : Nat) (g : Grid) (s : State) (sp : Span), I s.phases → (act u n g s sp).Keeps I)
    {i always branch} : Res.Keeps I (issue i always branch body act s) :=
  issueNaming_keeps h hb ha

@[simp] theorem laneOp_keeps {s : State} (h : I s.phases) {i rule f} : Res.Keeps I (laneOp i rule f s) := by
  refine issue_keeps h ?_ ?_
  · exact fun _ _ _ _ h => h
  · exact fun _ _ _ _ _ h => Span.lanewise_keeps h

@[simp] theorem groupOp_keeps {s : State} (h : I s.phases) {i f} : Res.Keeps I (groupOp i f s) := by
  refine issue_keeps h ?_ ?_
  · exact fun _ _ _ _ h => h
  · exact fun _ _ _ _ _ _ => trivial

@[simp] theorem peelOp_keeps {s : State} {body : Use → State → Ex → Lanes → Issue} (h : I s.phases)
    (hb : ∀ (u : Use) (s : State) (e : Ex) (p : Lanes), I s.phases → (body u s e p).Keeps I) {i} :
    Res.Keeps I (peelOp i body s) := by
  refine issue_keeps h hb ?_
  exact fun _ _ _ _ _ _ => trivial

end Sys2Proof.Machine
end

