-- ==== Sys2Proof/Proofs/PhaseAccess.lean ====
section
/-!
SUPPORT. Accesses, barriers, waits and stash maps: what leaves the phases as they are (`_phases`), and what keeps what is said of
them (`_keeps`).
-/
namespace Sys2Proof.Machine
open Sys2Proof

variable {I : Phases → Prop}

@[simp] theorem State.keepUndo_phases (s : State) (core off) : (State.keepUndo s core off).1.phases = s.phases := by
  unfold State.keepUndo
  dsimp only
  (repeat' split) <;> simp

@[simp] theorem State.recallKin_phases (s : State) (core e sec write) :
    (State.recallKin s core e sec write).phases = s.phases := by
  simp [State.recallKin]

@[simp] theorem State.ownSources_phases (s : State) (core e sec) :
    (State.ownSources s core e sec).1.phases = s.phases := by
  simp [State.ownSources]

@[simp] theorem State.fillSector_phases (s : State) (core sec entry e) :
    (State.fillSector s core sec entry e).state.phases = s.phases := by
  unfold State.fillSector
  split
  · simp
  · have ho := s.ownSources_phases core e sec
    split <;> rename_i t heq <;> rw [heq] at ho
    · exact ho
    · dsimp only
      split
      · simpa using ho
      · simp only [Got.state_ok, State.setSector_phases]
        refine (foldl_phases (fun s p => ?_) _ _).trans (by simpa using ho)
        split <;> simp

@[simp] theorem State.touch_phases (s : State) (core off w) : (State.touch s core off w).state.phases = s.phases := by
  unfold State.touch
  (repeat' split) <;> grind [Got.state, !State.ownSources_phases, !State.fillSector_phases, = State.modCore_phases,
    = State.setSector_phases, = State.dropSector_phases, = State.writebackDone_phases, = State.recallKin_phases]

@[simp] theorem State.prepare_phases (s : State) (x w ea d) : (State.prepare s x w ea d).state.phases = s.phases := by
  unfold State.prepare
  (repeat' split) <;> grind [Got.state, !State.obtain_phases, !State.keepUndo_phases, !State.touch_phases,
    = State.cacheData_phases]

theorem State.unit_phases (s : State) (ctx w ea) : ∀ t, State.unit s ctx w ea = .ok t → t.1.phases = s.phases := by
  unfold State.unit
  grind [= State.force_phases]

theorem State.unitRead_phases (s : State) (ctx n ea) :
    ∀ t, State.unitRead s ctx n ea = .ok t → t.1.phases = s.phases := by
  unfold State.unitRead
  grind [→ State.unit_phases]

theorem State.unitWrite_phases (s : State) (ctx n ea v) :
    ∀ t, State.unitWrite s ctx n ea v = .ok t → t.phases = s.phases := by
  unfold State.unitWrite
  grind [phasesOf_self, State.phases_mk, → State.unit_phases]

@[simp] theorem State.unitPut_phases (s : State) (ctx n ea v) : (State.unitPut s ctx n ea v).phases = s.phases := by
  unfold State.unitPut
  (repeat' split) <;> grind [→ State.unitWrite_phases]

theorem State.bumpCounter_phases (s : State) (ctx ea v) :
    ∀ t, State.bumpCounter s ctx ea v = .ok t → t.phases = s.phases := by
  unfold State.bumpCounter
  grind [phasesOf_self, State.phases_mk, → State.unit_phases, = State.bump_phases]

theorem State.addCounter_phases (s : State) (ctx ea v) :
    ∀ t, State.addCounter s ctx ea v = .ok t → t.phases = s.phases := by
  unfold State.addCounter
  grind [→ State.bumpCounter_phases]

@[simp] theorem State.countUp_phases (s : State) (ctx ea v) : (State.countUp s ctx ea v).phases = s.phases := by
  unfold State.countUp
  (repeat' split) <;> grind [→ State.addCounter_phases]

@[simp] theorem State.writeHead_phases (s : State) (k) : (State.writeHead s k).phases = s.phases := by
  unfold State.writeHead
  split <;> simp

@[simp] theorem State.owedHeads_phases (s : State) : (State.owedHeads s).phases = s.phases := by simp [State.owedHeads]

@[simp] theorem State.setQueue_phases (s : State) (k f) : (State.setQueue s k f).phases = s.phases := by
  unfold State.setQueue
  split <;> simp

@[simp] theorem State.refuseQueue_phases (s : State) (k err) : (State.refuseQueue s k err).phases = s.phases := by
  simp [State.refuseQueue]

@[simp] theorem State.doorbell_phases (s : State) (k tail) : (State.doorbell s k tail).phases = s.phases := by
  unfold State.doorbell
  split <;> simp

@[simp] theorem State.poke_phases (s : State) (x d n v) : (State.poke s x d n v).phases = s.phases := by
  unfold State.poke
  split <;> simp

@[simp] theorem State.ready_phases (s : State) (x w ea) : (State.ready s x w ea).state.phases = s.phases := by
  unfold State.ready
  (repeat' split) <;> simp <;> grind [Got.state, !State.prepare_phases]

@[simp] theorem State.load_phases (s : State) (x n ea) : (State.load s x n ea).state.phases = s.phases := by
  unfold State.load
  split <;> rename_i hx <;> simpa using Got.phases_of hx

@[simp] theorem State.countConflict_phases (s : State) (t offs) :
    (State.countConflict s t offs).phases = s.phases := (rfl)

@[simp] theorem State.readyAll_phases (s : State) (e w ea lanes) :
    (State.readyAll s e w ea lanes).s.phases = s.phases := by
  refine foldl_same (fun r : Sweep => r.s.phases) (fun r i => ?_) lanes { s := s }
  split <;> rename_i hx <;> simpa using Got.phases_of hx

@[simp] theorem Sweep.access_phases (s : State) (r x w k d new) : (Sweep.access r s x w k d new).s.phases = s.phases := by
  simp [Sweep.access]

@[simp] theorem Sweep.perform_phases (r : Sweep) (e w ea new) : (r.perform e w ea new).s.phases = r.s.phases := by
  refine foldl_same (fun r : Sweep => r.s.phases) (fun r p => ?_) r.dests r
  split <;> rename_i hx <;> simpa using Got.phases_of hx

@[simp] theorem State.accesses_phases (s : State) (e w ea lanes new) :
    (State.accesses s e w ea lanes new).s.phases = s.phases := by
  unfold State.accesses
  dsimp only
  (repeat' split) <;> simp

@[simp] theorem State.tagWrite_phases (s : State) (core) : (State.tagWrite s core).1.phases = s.phases := by
  simp [State.tagWrite]

@[simp] theorem State.escapeTeam_phases (s : State) (t) : (State.escapeTeam s t).phases = s.phases := (rfl)

@[simp] theorem State.escapes_phases (s : State) (e lanes ea) : (State.escapes s e lanes ea).phases = s.phases := by
  simp [State.escapes]

@[simp] theorem releasing_keeps {body : Use → State → Ex → Lanes → Issue} {s : State} (h : I s.phases)
    (hb : ∀ (u : Use) (s : State) (e : Ex) (p : Lanes), I s.phases → (body u s e p).Keeps I) {rel u e p} :
    (releasing rel body u s e p).Keeps I := by
  unfold releasing
  split
  · exact h
  · exact hb u s e p h

@[simp] theorem ldBody_keeps {s : State} (h : I s.phases) {t o k d u e p} : (ldBody t o k d u s e p).Keeps I := by
  unfold ldBody
  dsimp only
  (repeat' split) <;> simp [h]

@[simp] theorem lduBody_keeps {s : State} (h : I s.phases) {t o k d u e p} : (lduBody t o k d u s e p).Keeps I := by
  unfold lduBody
  dsimp only
  (repeat' split) <;> simp [h]

@[simp] theorem stBody_keeps {s : State} (h : I s.phases) {t b o k c u e p} : (stBody t b o k c u s e p).Keeps I := by
  unfold stBody
  dsimp only
  (repeat' split) <;> simp [h]

@[simp] theorem atomBody_keeps {s : State} (h : I s.phases) {op t sc d u e p} : (atomBody op t sc d u s e p).Keeps I := by
  unfold atomBody
  dsimp only
  (repeat' split) <;> simp [h]

@[simp] theorem spanStop_keeps {s : State} (h : I s.phases) {t} : (spanStop s t).Keeps I := by
  unfold spanStop
  split <;> simp [h]

@[simp] theorem ldSpan_keeps {s : State} (h : I s.phases) {t o k d u sp} : (ldSpan t o k d u s sp).Keeps I := by
  unfold ldSpan
  (repeat' split) <;> grind [Got.state, SpanAct.Keeps, !State.load_phases, !spanStop_keeps]

@[simp] theorem State.blockStore_phases (s : State) (sp g n ea data) :
    (s.blockStore sp g n ea data).s.phases = s.phases := by
  refine foldl_same (fun b : Block => b.s.phases) (fun b i => ?_) _ { s := s, pos := sp.blockPos }
  split
  · rfl
  · dsimp only
    split <;> rename_i hx <;> simpa using Got.phases_of hx

@[simp] theorem stSpan_keeps {s : State} (h : I s.phases) {t b o k c i u g sp} :
    (stSpan t b o k c i u g s sp).Keeps I := by
  unfold stSpan
  dsimp only
  split
  · split
    · trivial
    · split
      · split
        · trivial
        · split <;> rename_i hx <;> have ht : I _ := Got.keeps_of (by simpa using h) hx
          · exact spanStop_keeps ht
          · exact ht
          · split <;> simpa using ht
      · (repeat' split) <;> simp [h]
  · trivial

@[simp] theorem atomSpan_keeps {s : State} (h : I s.phases) {op t sc quiet u g sp} :
    (atomSpan op t sc quiet u g s sp).Keeps I := by
  unfold atomSpan
  (repeat' split) <;> grind [Got.state, SpanAct.Keeps, !State.ready_phases, !State.tagWrite_phases, = State.poke_phases,
    !spanStop_keeps]

@[simp] theorem State.prefetch_phases (s : State) (x target excl ea) :
    (State.prefetch s x target excl ea).phases = s.phases := by
  unfold State.prefetch
  (repeat' split) <;> first | rfl | simp

@[simp] theorem prefBody_keeps {s : State} (h : I s.phases) {target excl o k u e p} :
    (prefBody target excl o k u s e p).Keeps I := by
  simp [prefBody, h]

@[simp] theorem prefSpan_keeps {s : State} (h : I s.phases) {target excl o k u sp} :
    (prefSpan target excl o k u s sp).Keeps I := by
  unfold prefSpan
  (repeat' split) <;> simp [h]

@[simp] theorem State.cacheOp_phases (s : State) (x op ea) : (State.cacheOp s x op ea).1.phases = s.phases := by
  unfold State.cacheOp
  (repeat' split) <;> simp

@[simp] theorem cctlBody_keeps {s : State} (h : I s.phases) {op b o u e p} : (cctlBody op b o u s e p).Keeps I := by
  unfold cctlBody
  extract_lets r
  have hr : r.1.phases = s.phases := foldl_same (fun r : State × Bool => r.1.phases) (fun r i => by simp) _ (s, true)
  split <;> simp [hr, h]

@[simp] theorem cctlSpan_keeps {s : State} (h : I s.phases) {op b o u sp} : (cctlSpan op b o u s sp).Keeps I := by
  unfold cctlSpan
  (repeat' split) <;> simp <;> grind [!State.cacheOp_phases]

@[simp] theorem execLd_keeps {s : State} (h : I s.phases) {x} : Res.Keeps I (execLd x s) :=
  issue_keeps h (fun _ _ _ _ h => by simp [h]) fun _ _ _ _ _ h => by simp [h]

@[simp] theorem execLdI_keeps {s : State} (h : I s.phases) {x} : Res.Keeps I (execLdI x s) :=
  issue_keeps h (fun _ _ _ _ h => by simp [h]) fun _ _ _ _ _ h => by simp [h]

@[simp] theorem execLdL_keeps {s : State} (h : I s.phases) {x} : Res.Keeps I (execLdL x s) :=
  issue_keeps h (fun _ _ _ _ h => by simp [h]) fun _ _ _ _ _ h => by simp [h]

@[simp] theorem execLdu_keeps {s : State} (h : I s.phases) {x} : Res.Keeps I (execLdu x s) :=
  issue_keeps h (fun _ _ _ _ h => by simp [h]) fun _ _ _ _ _ h => by simp [h]

@[simp] theorem execLduI_keeps {s : State} (h : I s.phases) {x} : Res.Keeps I (execLduI x s) :=
  issue_keeps h (fun _ _ _ _ h => by simp [h]) fun _ _ _ _ _ h => by simp [h]

@[simp] theorem execLduL_keeps {s : State} (h : I s.phases) {x} : Res.Keeps I (execLduL x s) :=
  issue_keeps h (fun _ _ _ _ h => by simp [h]) fun _ _ _ _ _ h => by simp [h]

@[simp] theorem execSt_keeps {s : State} (h : I s.phases) {x} : Res.Keeps I (execSt x s) :=
  issue_keeps h (fun _ _ _ _ h => releasing_keeps h fun _ _ _ _ h => stBody_keeps h) fun _ _ _ _ _ h => stSpan_keeps h

@[simp] theorem execStI_keeps {s : State} (h : I s.phases) {x} : Res.Keeps I (execStI x s) :=
  issue_keeps h (fun _ _ _ _ h => by simp [h]) fun _ _ _ _ _ h => by simp [h]

@[simp] theorem execStL_keeps {s : State} (h : I s.phases) {x} : Res.Keeps I (execStL x s) :=
  issue_keeps h (fun _ _ _ _ h => by simp [h]) fun _ _ _ _ _ h => by simp [h]

@[simp] theorem execAtom_keeps {s : State} (h : I s.phases) {x} : Res.Keeps I (execAtom x s) :=
  issue_keeps h (fun _ _ _ _ h => releasing_keeps h fun _ _ _ _ h => atomBody_keeps h) fun _ _ _ _ _ h => atomSpan_keeps h

@[simp] theorem execRed_keeps {s : State} (h : I s.phases) {x} : Res.Keeps I (execRed x s) :=
  issue_keeps h (fun _ _ _ _ h => releasing_keeps h fun _ _ _ _ h => atomBody_keeps h) fun _ _ _ _ _ h => atomSpan_keeps h

@[simp] theorem execPref_keeps {s : State} (h : I s.phases) {x} : Res.Keeps I (execPref x s) :=
  issue_keeps h (fun _ _ _ _ h => by simp [h]) fun _ _ _ _ _ h => by simp [h]

@[simp] theorem execPrefI_keeps {s : State} (h : I s.phases) {x} : Res.Keeps I (execPrefI x s) :=
  issue_keeps h (fun _ _ _ _ h => by simp [h]) fun _ _ _ _ _ h => by simp [h]

@[simp] theorem execPrefL_keeps {s : State} (h : I s.phases) {x} : Res.Keeps I (execPrefL x s) :=
  issue_keeps h (fun _ _ _ _ h => by simp [h]) fun _ _ _ _ _ h => by simp [h]

@[simp] theorem execCctl_keeps {s : State} (h : I s.phases) {x} : Res.Keeps I (execCctl x s) :=
  issue_keeps h (fun _ _ _ _ h => by simp [h]) fun _ _ _ _ _ h => by simp [h]

@[simp] theorem fenceBody_keeps {s : State} (h : I s.phases) {x y1 e p} : (fenceBody x y1 s e p).Keeps I := by
  unfold fenceBody
  split <;> simp [h]

@[simp] theorem execFence_keeps {s : State} (h : I s.phases) {x} : Res.Keeps I (execFence x s) := by
  refine issue_keeps h (fun _ _ _ _ h => by simp [h]) ?_
  intro _ i _ s sp h
  show I (if x.ord = .acq then s else (storesOf sp.flights).foldl (fun s q => s.finishSpan i q) s).phases
  split <;> simpa using h

@[simp] theorem phcloseBody_keeps {s : State} (h : I s.phases) {d y1 e p} : (phcloseBody d y1 s e p).Keeps I := by
  unfold phcloseBody
  dsimp only
  (repeat' split) <;> simp [h]

@[simp] theorem execPhclose_keeps {s : State} (h : I s.phases) {x} : Res.Keeps I (execPhclose x s) :=
  peelOp_keeps h fun _ _ _ _ h => by simp [h]

@[simp] theorem phwaitBody_keeps {s : State} (h : I s.phases) {u e p} : (phwaitBody u s e p).Keeps I := by
  unfold phwaitBody
  dsimp only
  (repeat' split) <;> simp [h]

@[simp] theorem execPhwait_keeps {s : State} (h : I s.phases) {x} : Res.Keeps I (execPhwait x s) :=
  peelOp_keeps h fun _ _ _ _ h => by simp [h]

@[simp] theorem Ex.holdOthers_keeps {s : State} (h : I s.phases) {e p traps h0} :
    (Ex.holdOthers e s p traps h0).Keeps I := by
  simp [Ex.holdOthers, h]

@[simp] theorem waitvLane_phases (r : Sweep) (t u e i) : (waitvLane t u e r i).s.phases = r.s.phases := by
  unfold waitvLane
  split <;> rename_i hx <;> simpa using Got.phases_of hx

@[simp] theorem waitvBody_keeps {s : State} (h : I s.phases) {t u e p} : (waitvBody t u s e p).Keeps I := by
  unfold waitvBody
  dsimp only
  split
  · exact h
  · have hr (l : List Nat) : (l.foldl (waitvLane t u e) { s := s }).s.phases = s.phases :=
      foldl_same (fun r : Sweep => r.s.phases) (fun r i => waitvLane_phases r t u e i) l { s := s }
    split <;> simp [hr, h]

@[simp] theorem execWaitv_keeps {s : State} (h : I s.phases) {x} : Res.Keeps I (execWaitv x s) :=
  peelOp_keeps h fun _ _ _ _ h => by simp [h]

@[simp] theorem withLaps_keeps {s : State} {r : Res} (hr : r.Keeps I) : Res.Keeps I (withLaps s r) := by
  cases r <;> exact hr

@[simp] theorem barArvBody_keeps {s : State} (h : I s.phases) {b y1 e p} : (barArvBody b y1 s e p).Keeps I := by
  unfold barArvBody
  dsimp only
  (repeat' split) <;> simp [h]

@[simp] theorem execBarArv_keeps {s : State} (h : I s.phases) {x} : Res.Keeps I (execBarArv x s) :=
  withLaps_keeps (peelOp_keeps h fun _ _ _ _ h => by simp [h])

@[simp] theorem barWaitBody_keeps {s : State} (h : I s.phases) {b y1 e p} : (barWaitBody b y1 s e p).Keeps I := by
  unfold barWaitBody
  dsimp only
  (repeat' split) <;> simp [h]

@[simp] theorem execBarWait_keeps {s : State} (h : I s.phases) {x} : Res.Keeps I (execBarWait x s) :=
  peelOp_keeps h fun _ _ _ _ h => by simp [h]

@[simp] theorem State.barmReady_phases (s : State) (x ea) : (State.barmReady s x ea).state.phases = s.phases := by
  unfold State.barmReady
  (repeat' split) <;> simp <;> grind [!State.obtain_phases]

@[simp] theorem State.barmAll_phases (s : State) (e u lanes) : (State.barmAll s e u lanes).s.phases = s.phases := by
  refine foldl_same (fun r : Sweep => r.s.phases) (fun r i => ?_) lanes { s := s }
  dsimp only
  split <;> rename_i hx <;> simpa using Got.phases_of hx

@[simp] theorem State.barmArrive_phases (s : State) (core vals) : (State.barmArrive s core vals).phases = s.phases := by
  simp [State.barmArrive]

@[simp] theorem State.barmRegister_phases (s : State) (core vals) :
    (State.barmRegister s core vals).phases = s.phases := by
  simp [State.barmRegister]

@[simp] theorem barmArvBody_keeps {s : State} (h : I s.phases) {u e p} : (barmArvBody u s e p).Keeps I := by
  unfold barmArvBody
  dsimp only
  (repeat' split) <;> simp [h]

@[simp] theorem execBarmArv_keeps {s : State} (h : I s.phases) {x} : Res.Keeps I (execBarmArv x s) :=
  peelOp_keeps h fun _ _ _ _ h => releasing_keeps h fun _ _ _ _ h => barmArvBody_keeps h

@[simp] theorem barmWaitBody_keeps {s : State} (h : I s.phases) {stat u e p} : (barmWaitBody stat u s e p).Keeps I := by
  unfold barmWaitBody
  dsimp only
  (repeat' split) <;> simp [h]

@[simp] theorem execBarmWait_keeps {s : State} (h : I s.phases) {x} : Res.Keeps I (execBarmWait x s) :=
  peelOp_keeps h fun _ _ _ _ h => by simp [h]

@[simp] theorem once_keeps {u : Use} {s : State} {e : Ex} {p : Lanes} {k : (Nat → Nat) → LaneRes → Issue} (h : I s.phases)
    (hk : ∀ f r, (k f r).Keeps I) : (once u s e p k).Keeps I := by
  unfold once
  dsimp only
  (repeat' split) <;> first | exact h | exact hk _ _

@[simp] theorem strike_keeps {s : State} (h : I s.phases) {p r t} : (strike s p r t).Keeps I := h

@[simp] theorem State.loadWords_phases (s : State) (x ea n) : (State.loadWords s x ea n).state.phases = s.phases := by
  induction n generalizing s ea with
  | zero => rfl
  | succ n ih =>
    unfold State.loadWords
    grind [Got.state, !State.load_phases]

@[simp] theorem State.pool_phases (s : State) (x va idx kind n) :
    (State.pool s x va idx kind n).state.phases = s.phases := by
  unfold State.pool
  (repeat' split) <;> simp <;> grind [Got.state, !State.load_phases, !State.loadWords_phases]

@[simp] theorem State.poolOf_phases (s : State) (e idx kind n) :
    (State.poolOf s e idx kind n).state.phases = s.phases := by
  simp [State.poolOf]

@[simp] theorem Got.andThen_keeps {α : Type} {x : Got α} {e : Ex} {p : Lanes} {q : LaneRes} {k : State → α → Issue}
    (h : I x.state.phases) (hk : ∀ (s : State) (a : α), I s.phases → (k s a).Keeps I) : (x.andThen e p q k).Keeps I := by
  cases x with
  | ok s a => exact hk s a h
  | trap s t => exact strike_keeps h
  | wait s => exact h

@[simp] theorem State.installEntry_phases (s : State) (core n m) : (State.installEntry s core n m).phases = s.phases := by
  simp [State.installEntry]

@[simp] theorem State.resolveMap_phases (s : State) (e m) : (State.resolveMap s e m).1.phases = s.phases := by
  unfold State.resolveMap
  dsimp only
  (repeat' split) <;> simp

@[simp] theorem smapBody_keeps {s : State} (h : I s.phases) {x u e p} : (smapBody x u s e p).Keeps I := by
  refine once_keeps h fun src r => Got.andThen_keeps (by simp [h]) fun s t h => ?_
  split
  · exact strike_keeps h
  · dsimp only
    split
    · exact strike_keeps h
    · have hr := s.resolveMap_phases e (mapOf t e (src 1) (src 2) x.rw x.retain)
      split <;> simp_all

@[simp] theorem execSmap_keeps {s : State} (h : I s.phases) {x} : Res.Keeps I (execSmap x s) :=
  peelOp_keeps h fun _ _ _ _ h => by simp [h]

theorem keyBody_keeps {f : State → Nat → Nat → MapEntry → State} (hf : ∀ s c n m, (f s c n m).phases = s.phases)
    {s : State} (h : I s.phases) {u e p} : (keyBody f u s e p).Keeps I := by
  refine once_keeps h fun src r => ?_
  split <;> simp [hf, h]

@[simp] theorem State.fillEntry_phases (s : State) (core n m) : (State.fillEntry s core n m).phases = s.phases := by
  refine foldl_phases (fun s j => ?_) _ _
  dsimp only
  (repeat' split) <;> first | simp; done | rename_i hx; simpa using Got.phases_of hx

@[simp] theorem execSunmap_keeps {s : State} (h : I s.phases) {x} : Res.Keeps I (execSunmap x s) :=
  peelOp_keeps h fun _ s e p h => keyBody_keeps (by simp) (by split <;> simpa using h)

@[simp] theorem execSflush_keeps {s : State} (h : I s.phases) {x} : Res.Keeps I (execSflush x s) :=
  peelOp_keeps h fun _ _ _ _ h => keyBody_keeps (by simp) h

@[simp] theorem execSfill_keeps {s : State} (h : I s.phases) {x} : Res.Keeps I (execSfill x s) :=
  peelOp_keeps h fun _ _ _ _ h => keyBody_keeps (by simp) h

@[simp] theorem execSdiscard_keeps {s : State} (h : I s.phases) {x} : Res.Keeps I (execSdiscard x s) :=
  peelOp_keeps h fun _ _ _ _ h => keyBody_keeps (by simp) h

@[simp] theorem squeryBody_keeps {s : State} (h : I s.phases) {d u e p} : (squeryBody d u s e p).Keeps I :=
  once_keeps h fun _ _ => h

@[simp] theorem execSquery_keeps {s : State} (h : I s.phases) {x} : Res.Keeps I (execSquery x s) :=
  peelOp_keeps h fun _ _ _ _ h => by simp [h]

end Sys2Proof.Machine
end

