-- ==== Sys2Proof/Proofs/PhaseEngines.lean ====
section
/-!
SUPPORT. Copies, the matrix engine, the end of teams, control transfer and system instructions: what leaves the phases as they are
(`_phases`), and what keeps what is said of them (`_keeps`).
-/
namespace Sys2Proof.Machine
open Sys2Proof

variable {I : Phases → Prop}

@[simp] theorem State.startCopy_phases (s : State) (t tag) : (State.startCopy s t tag).phases = s.phases := by
  unfold State.startCopy
  (repeat' split) <;> simp

@[simp] theorem State.checkCopy_phases (s : State) (t tag) : (State.checkCopy s t tag).phases = s.phases := by
  unfold State.checkCopy
  split <;> simp

@[simp] theorem State.checkCopies_phases (s : State) (t) : (State.checkCopies s t).phases = s.phases := by
  unfold State.checkCopies
  split <;> simp

@[simp] theorem eachSlice_phases (s : State) (lanes f) : (eachSlice s lanes f).s.phases = s.phases := by
  refine foldl_same (fun r : Slices => r.s.phases) (fun r i => ?_) lanes { s := s }
  split <;> rfl

@[simp] theorem noSlice_phases (s : State) (lanes t) : (noSlice s lanes t).s.phases = s.phases := (rfl)

@[simp] theorem State.copyRec_phases (s : State) (e k idx kind n) :
    (State.copyRec s e k idx kind n).state.phases = s.phases := by
  unfold State.copyRec
  split <;> simp

@[simp] theorem State.keepRecs_phases (s : State) (e l) : (State.keepRecs s e l).phases = s.phases := by
  unfold State.keepRecs
  split <;> simp

@[simp] theorem cpytSlices_phases (s : State) (store e u lanes c0) :
    (cpytSlices store s e u lanes c0).s.phases = s.phases := by
  unfold cpytSlices
  (repeat' split) <;> simp <;> grind [Got.state, !State.copyRec_phases]

@[simp] theorem readIndices_phases (s : State) (x h0 ea n) : (readIndices x h0 ea n s).state.phases = s.phases := by
  induction n generalizing ea s with
  | zero => rfl
  | succ n ih =>
    unfold readIndices
    grind [Got.state, !State.load_phases]

@[simp] theorem cpygSlices_phases (store) (s : State) (e u lanes c0) :
    (cpygSlices store s e u lanes c0).s.phases = s.phases := by
  unfold cpygSlices
  extract_lets i x ka kb n z
  split
  · rfl
  · have hp := s.poolOf_phases e (kb % 2 ^ 16) 1 (some 7)
    split <;> rename_i hx <;> rw [hx] at hp
    · exact hp
    · exact hp
    · rename_i s1 p
      split
      · exact hp
      · rename_i shape _
        extract_lets rb spot
        split
        · exact hp
        · split
          · exact hp
          · have hr := (readIndices_phases s1 x shape ka n).trans hp
            split <;> rename_i hx <;> rw [hx] at hr
            · exact hr
            · exact hr
            · dsimp only
              split <;> exact hr

/-- A copy form whose validation of slices leaves the phases as they are. -/
def CopyForm.KeepsPhases (f : CopyForm) : Prop := ∀ (s : State) e u l n, (f.slices s e u l n).s.phases = s.phases

theorem CopyForm.validate_phases {f : CopyForm} (hf : f.KeepsPhases) (s : State) (e u lanes c0 c1) :
    (f.validate s e u lanes c0 c1).s.phases = s.phases := by
  unfold CopyForm.validate
  generalize (if c1 = 0 then none else s.counterFault (s.accessorOf e) c1) = o
  cases o with
  | some t => rfl
  | none => exact hf _ _ _ _ _

@[simp] theorem State.joinSlices_phases (s : State) (e tag lanes moves) :
    (State.joinSlices s e tag lanes moves).phases = s.phases :=
  (rfl)

theorem CopyForm.body_keeps {f : CopyForm} (hf : f.KeepsPhases) {s : State} (h : I s.phases) {u e p} :
    (f.body u s e p).Keeps I := by
  unfold CopyForm.body
  dsimp only
  (repeat' split) <;> simp [CopyForm.validate_phases hf, h]

@[simp] theorem execCpy_keeps {s : State} (h : I s.phases) {x} : Res.Keeps I (execCpy x s) :=
  peelOp_keeps h fun _ _ _ _ h => CopyForm.body_keeps (fun _ _ _ _ _ => by unfold cpyForm; simp) h

@[simp] theorem State.cpytShape_phases (s : State) (u e) : (State.cpytShape s u e).state.phases = s.phases := by
  simp [State.cpytShape]

theorem cpytReads_phases (s : State) (x) : ∀ t, cpytReads x s = some t → t.phases = s.phases := by
  unfold cpytReads
  grind [Got.state, !State.cpytShape_phases]

@[simp] theorem execCpyt_keeps {s : State} (h : I s.phases) {x} : Res.Keeps I (execCpyt x s) := by
  unfold execCpyt
  split <;> rename_i heq
  · simpa [cpytReads_phases _ _ _ heq] using h
  · refine issueNaming_keeps h ?_ ?_
    · exact fun _ _ _ _ h => CopyForm.body_keeps (fun _ _ _ _ _ => cpytSlices_phases _ _ _ _ _ _) h
    · exact fun _ _ _ _ _ _ => trivial

@[simp] theorem execCpyg_keeps {s : State} (h : I s.phases) {x} : Res.Keeps I (execCpyg x s) :=
  peelOp_keeps h fun _ _ _ _ h => CopyForm.body_keeps (fun _ _ _ _ _ => cpygSlices_phases _ _ _ _ _ _) h

@[simp] theorem execCpys_keeps {s : State} (h : I s.phases) {x} : Res.Keeps I (execCpys x s) :=
  peelOp_keeps h fun _ _ _ _ h => CopyForm.body_keeps (fun _ _ _ _ _ => cpygSlices_phases _ _ _ _ _ _) h

@[simp] theorem State.poisonDest_phases (s : State) (d) : (State.poisonDest s d).phases = s.phases := by
  unfold State.poisonDest
  split <;> simp

@[simp] theorem State.engineByte_phases (s : State) (x ea) : (State.engineByte s x ea).state.phases = s.phases := by
  unfold State.engineByte
  (repeat' split) <;> simp <;> grind [Got.state, !State.prepare_phases]

@[simp] theorem State.engineBytes_phases (s : State) (x old ea n) :
    (State.engineBytes x old ea n s).state.phases = s.phases := by
  induction n generalizing ea s with
  | zero => rfl
  | succ n ih =>
    unfold State.engineBytes
    grind [Got.state, !State.engineByte_phases]

@[simp] theorem State.lineImage_phases (s : State) (t tm c l img) :
    (State.lineImage t tm c l img s).state.phases = s.phases := by
  induction l generalizing img s with
  | nil => rfl
  | cons m r ih =>
    unfold State.lineImage
    grind [Got.state, !State.engineBytes_phases]

@[simp] theorem State.imageReady_phases (s : State) (x l) : (State.imageReady x l s).state.phases = s.phases := by
  induction l generalizing s with
  | nil => rfl
  | cons p r ih =>
    unfold State.imageReady
    grind [Got.state, !State.ready_phases]

@[simp] theorem State.imageWrite_phases (s : State) (x l old out) :
    (State.imageWrite x l old out s).state.phases = s.phases := by
  induction l generalizing s old out with
  | nil => rfl
  | cons p r ih =>
    unfold State.imageWrite
    grind [Got.state, !State.ready_phases, = State.poke_phases, = State.poisonDest_phases]

@[simp] theorem State.releaseEngine_phases (s : State) (h0) : (State.releaseEngine s h0).phases = s.phases := by
  simp [State.releaseEngine]

@[simp] theorem State.untagCopy_phases (s : State) (t tag) : (State.untagCopy s t tag).phases = s.phases := by
  unfold State.untagCopy
  split <;> simp

@[simp] theorem State.moveUnit_phases (s : State) (t tag tm c m) :
    (State.moveUnit s t tag tm c m).state.phases = s.phases := by
  unfold State.moveUnit
  dsimp only
  (repeat' split) <;> grind [Got.state, !State.tagWrite_phases, !State.lineImage_phases, !State.imageReady_phases,
    !State.imageWrite_phases, = State.modTeam_phases, = State.releaseEngine_phases, = State.untagCopy_phases]

@[simp] theorem State.copyNext_phases (s : State) (t tag) : (State.copyNext s t tag).state.phases = s.phases := by
  unfold State.copyNext
  (repeat' split) <;> simp <;> grind [Got.state, → State.addCounter_phases, !State.moveUnit_phases]

@[simp] theorem State.suspendCopy_phases (s : State) (t tag tr) : (State.suspendCopy s t tag tr).phases = s.phases := by
  unfold State.suspendCopy
  split <;> simp

@[simp] theorem execCopyStart_keeps {s : State} (h : I s.phases) {team tag} : Res.Keeps I (execCopyStart team tag s) := by
  simp [execCopyStart, h]

@[simp] theorem execCopyUnitMove_keeps {s : State} (h : I s.phases) {team tag} :
    Res.Keeps I (execCopyUnitMove team tag s) := by
  unfold execCopyUnitMove
  (repeat' split) <;> simp <;> grind [Got.state, !State.copyNext_phases]

@[simp] theorem execCopyFault_keeps {s : State} (h : I s.phases) {team tag} : Res.Keeps I (execCopyFault team tag s) := by
  unfold execCopyFault
  (repeat' split) <;> simp <;> grind [Got.state, !State.copyNext_phases]

@[simp] theorem twaitBody_keeps {s : State} (h : I s.phases) {all u e p} : (twaitBody all u s e p).Keeps I := by
  refine once_keeps h fun src r => ?_
  dsimp only
  (repeat' split) <;> simp [h]

@[simp] theorem execTwait_keeps {s : State} (h : I s.phases) {x} : Res.Keeps I (execTwait x s) :=
  peelOp_keeps h fun _ _ _ _ h => by simp [h]

@[simp] theorem execTffr_keeps {s : State} (h : I s.phases) {x} : Res.Keeps I (execTffr x s) :=
  peelOp_keeps h fun _ _ _ _ h => once_keeps h fun _ _ => by simp [h]

@[simp] theorem execTclr_keeps {s : State} (h : I s.phases) {x} : Res.Keeps I (execTclr x s) :=
  peelOp_keeps h fun _ _ _ _ h => once_keeps h fun _ _ => by simp [h]

@[simp] theorem cntwaitBody_keeps {s : State} (h : I s.phases) {d u e p} : (cntwaitBody d u s e p).Keeps I := by
  refine once_keeps h fun src r => ?_
  dsimp only
  split
  · simp [h]
  · split <;> rename_i hx <;> have ht : I _ := Got.keeps_of (by simpa using h) hx
    · exact strike_keeps ht
    · exact ht
    · split <;> exact ht

@[simp] theorem execCntwait_keeps {s : State} (h : I s.phases) {x} : Res.Keeps I (execCntwait x s) :=
  peelOp_keeps h fun _ _ _ _ h => by simp [h]

theorem State.acceptXfer_phases (s : State) (n x) : ∀ t, State.acceptXfer s n x = some t → t.phases = s.phases := by
  unfold State.acceptXfer
  grind [phasesOf_self, State.phases_mk]

@[simp] theorem copyqBody_keeps {s : State} (h : I s.phases) {u e p} : (copyqBody u s e p).Keeps I := by
  refine once_keeps h fun src r => ?_
  dsimp only
  (repeat' split) <;> grind [Got.state, Issue.Keeps, strike_keeps, !State.loadWords_phases, = State.escapeTeam_phases,
    = State.modTeam_phases, → State.acceptXfer_phases]

@[simp] theorem execCopyq_keeps {s : State} (h : I s.phases) {x} : Res.Keeps I (execCopyq x s) :=
  peelOp_keeps h fun _ _ _ _ h => by simp [h]

@[simp] theorem gsetBody_keeps {s : State} (h : I s.phases) {g u e p} : (gsetBody g u s e p).Keeps I := by
  refine once_keeps h fun src r => Got.andThen_keeps (by simp [h]) fun s t h => ?_
  split <;> simp [h]

@[simp] theorem execGset_keeps {s : State} (h : I s.phases) {x} : Res.Keeps I (execGset x s) :=
  peelOp_keeps h fun _ _ _ _ h => by simp [h]

@[simp] theorem execGcnt_keeps {s : State} (h : I s.phases) {x} : Res.Keeps I (execGcnt x s) :=
  peelOp_keeps h fun _ _ _ _ h => once_keeps h fun _ _ => by simp [h]

@[simp] theorem acfgBody_keeps {s : State} (h : I s.phases) {discard u e p} : (acfgBody discard u s e p).Keeps I := by
  refine once_keeps h fun src r => ?_
  dsimp only
  (repeat' split) <;> simp [h]

@[simp] theorem execAcfg_keeps {s : State} (h : I s.phases) {x} : Res.Keeps I (execAcfg x s) :=
  peelOp_keeps h fun _ _ _ _ h => by simp [h]

@[simp] theorem mmaBody_keeps {s : State} (h : I s.phases) {x u e p} : (mmaBody x u s e p).Keeps I := by
  refine once_keeps h fun src r => ?_
  dsimp only
  (repeat' split) <;> simp [h]

@[simp] theorem execMma_keeps {s : State} (h : I s.phases) {x} : Res.Keeps I (execMma x s) :=
  peelOp_keeps h fun _ _ _ _ h => by simp [h]

@[simp] theorem State.readLine_phases (s : State) (x ea) : (State.readLine s x ea).state.phases = s.phases := by
  unfold State.readLine
  extract_lets unit
  have hu (s k) : (unit s k).state.phases = s.phases := s.load_phases x 16 _
  clear_value unit
  have h0 := hu s 0
  split <;> rename_i hx <;> rw [hx] at h0
  · exact h0
  · exact h0
  · rename_i s0 a
    have h1 := (hu s0 1).trans h0
    split <;> rename_i hx <;> rw [hx] at h1
    · exact h1
    · exact h1
    · rename_i s1 b
      have h2 := (hu s1 2).trans h1
      split <;> rename_i hx <;> rw [hx] at h2
      · exact h2
      · exact h2
      · rename_i s2 c
        have h3 := (hu s2 3).trans h2
        split <;> rename_i hx <;> rw [hx] at h3 <;> exact h3

@[simp] theorem State.readLines_phases (s : State) (x blk l cls) :
    (State.readLines x blk l cls s).state.phases = s.phases := by
  induction l generalizing s cls with
  | nil => rfl
  | cons o r ih =>
    unfold State.readLines
    dsimp only
    split <;> rename_i hx <;> have ht := Got.phases_of hx <;>
      simp only [Got.state_ok, Got.state_trap, Got.state_wait, State.readLine_phases] at ht
    · exact ht
    · exact ht
    · (repeat' split) <;> grind [Got.state]

@[simp] theorem State.kstep_phases (s : State) (t seq chain) : (State.kstep s t seq chain).state.phases = s.phases := by
  unfold State.kstep
  dsimp only
  split
  · rfl
  · split
    · rfl
    · split
      · rfl
      · split <;> rename_i hx <;> simpa using Got.phases_of hx

@[simp] theorem execMmaKstepCommit_keeps {s : State} (h : I s.phases) {team seq chain} :
    Res.Keeps I (execMmaKstepCommit team seq chain s) := by
  unfold execMmaKstepCommit
  (repeat' split) <;> simp <;> grind [Got.state, !State.kstep_phases]

@[simp] theorem State.stopMma_phases (s : State) (t seq tr) : (State.stopMma s t seq tr).phases = s.phases := by
  unfold State.stopMma
  split <;> simp

@[simp] theorem execMmaFault_keeps {s : State} (h : I s.phases) {team seq chain} :
    Res.Keeps I (execMmaFault team seq chain s) := by
  unfold execMmaFault
  (repeat' split) <;> simp <;> grind [Got.state, !State.kstep_phases]

@[simp] theorem enqueueMove_keeps {s : State} (h : I s.phases) {op e p r} : (enqueueMove op s e p r).Keeps I := h

@[simp] theorem withTiles_keeps {tiles : List Nat} {s : State} {e : Ex} {p : Lanes} {r : LaneRes} {k : Unit → Issue}
    (h : I s.phases) (hk : (k ()).Keeps I) : (withTiles tiles s e p r k).Keeps I := by
  unfold withTiles
  split
  · exact strike_keeps h
  · exact hk

@[simp] theorem execAccLd_keeps {s : State} (h : I s.phases) {x} : Res.Keeps I (execAccLd x s) := by
  refine peelOp_keeps h fun u s e p h => ?_
  dsimp only
  split
  · exact h
  · split
    · exact h
    · exact withTiles_keeps h (enqueueMove_keeps (by simpa using h))

@[simp] theorem execAccSt_keeps {s : State} (h : I s.phases) {x} : Res.Keeps I (execAccSt x s) := by
  refine peelOp_keeps h fun u s e p h => ?_
  dsimp only
  split
  · exact h
  · split
    · exact h
    · exact withTiles_keeps h (enqueueMove_keeps (by simpa using h))

@[simp] theorem execAccZero_keeps {s : State} (h : I s.phases) {x} : Res.Keeps I (execAccZero x s) :=
  peelOp_keeps h fun _ _ _ _ h => once_keeps h fun _ _ => withTiles_keeps h (enqueueMove_keeps (by simpa using h))

@[simp] theorem execAccMov_keeps {s : State} (h : I s.phases) {x} : Res.Keeps I (execAccMov x s) := by
  refine peelOp_keeps h fun u s e p h => once_keeps h fun src r => withTiles_keeps h ?_
  split
  · exact strike_keeps h
  · exact enqueueMove_keeps (by simpa using h)

@[simp] theorem State.writeUnits_phases (s : State) (x l) : (State.writeUnits x l s).state.phases = s.phases := by
  induction l generalizing s with
  | nil => rfl
  | cons p r ih =>
    unfold State.writeUnits
    grind [Got.state, !State.ready_phases, = State.poke_phases]

@[simp] theorem State.writeRows_phases (s : State) (x l) : (State.writeRows s x l).state.phases = s.phases := by
  unfold State.writeRows
  (repeat' split) <;> simp <;> grind [Got.state, !State.imageReady_phases]

@[simp] theorem State.readUnits_phases (s : State) (x l) : (State.readUnits x l s).state.phases = s.phases := by
  induction l generalizing s with
  | nil => rfl
  | cons ea r ih =>
    unfold State.readUnits
    grind [Got.state, !State.load_phases]

@[simp] theorem State.runMove_phases (s : State) (t seq) : (State.runMove s t seq).state.phases = s.phases := by
  unfold State.runMove
  (repeat' split) <;> grind [Got.state, !State.writeRows_phases, !State.readUnits_phases, = State.modTeam_phases,
    = State.modWave_phases, = State.finishWave_phases]

@[simp] theorem execAccMovFault_keeps {s : State} (h : I s.phases) {team seq} :
    Res.Keeps I (execAccMovFault team seq s) := by
  unfold execAccMovFault
  (repeat' split) <;> simp <;> grind [Got.state, !State.addRecord_phases, !State.runMove_phases]

@[simp] theorem execMprog_keeps {s : State} (h : I s.phases) {x} : Res.Keeps I (execMprog x s) :=
  issue_keeps h (fun _ _ _ _ h => once_keeps h fun _ _ => by simp [h]) fun _ _ _ _ _ h => by simp [h]

@[simp] theorem State.freePorts_phases (s : State) (core) : (State.freePorts s core).phases = s.phases := by
  unfold State.freePorts
  dsimp only
  (repeat' split) <;> simp

@[simp] theorem State.removeLanes_phases (s : State) (t w m) : (State.removeLanes s t w m).phases = s.phases := by
  unfold State.removeLanes
  split <;> simp

@[simp] theorem State.endEntries_phases (s : State) (t tm) : (State.endEntries s t tm).phases = s.phases := by
  simp [State.endEntries]

@[simp] theorem State.dropTeam_phases (s : State) (t held) : (State.dropTeam s t held).phases = s.phases := by
  unfold State.dropTeam
  split <;> simp

@[simp] theorem State.failGrid_phases (s : State) (g status) : (State.failGrid s g status).phases = s.phases := (rfl)

@[simp] theorem State.drainCopy_phases (s : State) (t tag n) : (State.drainCopy t tag n s).phases = s.phases := by
  induction n generalizing s with
  | zero => rfl
  | succ n ih =>
    unfold State.drainCopy
    grind [Got.state, !State.copyNext_phases]

@[simp] theorem State.drainTeam_phases (s : State) (t) : (State.drainTeam s t).phases = s.phases := by
  unfold State.drainTeam
  split
  · rfl
  · refine (foldl_phases (fun s m => ?_) _ _).trans (by simp)
    split <;> rename_i hx <;> simpa using Got.phases_of hx

@[simp] theorem State.countTeam_phases (s : State) (tm killed) : (State.countTeam s tm killed).phases = s.phases := (rfl)

@[simp] theorem State.endTeam_phases (s : State) (t) : (State.endTeam s t).phases = s.phases := by
  unfold State.endTeam
  dsimp only
  (repeat' split) <;> simp

@[simp] theorem State.sweep_phases (s : State) : (State.sweep s).phases = s.phases := by simp [State.sweep]

@[simp] theorem withSweep_keeps {r : Res} (hr : r.Keeps I) : (withSweep r).Keeps I := by
  cases r with
  | next s => simpa [withSweep] using hr
  | fault f => trivial
  | refused f => trivial

@[simp] theorem execCopyComplete_keeps {s : State} (h : I s.phases) {team tag} :
    Res.Keeps I (execCopyComplete team tag s) := by
  refine withSweep_keeps ?_
  split
  · rename_i hx
    exact Got.keeps_of (by simpa using h) hx
  · exact h

@[simp] theorem execMmaComplete_keeps {s : State} (h : I s.phases) {team seq} :
    Res.Keeps I (execMmaComplete team seq s) := by
  refine withSweep_keeps ?_
  dsimp only
  (repeat' split) <;> simp [h]

@[simp] theorem execAccMoveDone_keeps {s : State} (h : I s.phases) {team seq} :
    Res.Keeps I (execAccMoveDone team seq s) := by
  refine withSweep_keeps ?_
  split <;> rename_i hx
  · exact Got.keeps_of (by simpa using h) hx
  · exact Got.keeps_of (by simpa using h) hx
  · exact h

@[simp] theorem State.killLanes_phases (s : State) (t w m) : (State.killLanes s t w m).phases = s.phases := by
  unfold State.killLanes
  dsimp only
  (repeat' split) <;> simp

@[simp] theorem State.teamRecord_phases (s : State) (tm cause sub) :
    (State.teamRecord s tm cause sub).phases = s.phases := by
  simp [State.teamRecord]

@[simp] theorem State.killTeam_phases (s : State) (t status) : (State.killTeam s t status).phases = s.phases := by
  unfold State.killTeam
  split <;> simp

@[simp] theorem State.abandonGrid_phases (s : State) (g status) : (State.abandonGrid s g status).phases = s.phases := by
  simp [State.abandonGrid]

@[simp] theorem State.capacityFail_phases (s : State) (g tm) : (State.capacityFail s g tm).phases = s.phases := by
  simp [State.capacityFail]

@[simp] theorem State.swapOut_phases (s : State) (t) : (State.swapOut s t).phases = s.phases := by
  unfold State.swapOut
  split <;> simp

@[simp] theorem execTeamSwapOut_keeps {s : State} (h : I s.phases) {team} : Res.Keeps I (execTeamSwapOut team s) := by
  unfold execTeamSwapOut
  split <;> simp [h]

@[simp] theorem transferBody_keeps {s : State} (h : I s.phases) {target j u e p} :
    (transferBody target j u s e p).Keeps I := by
  simp [transferBody, h]

@[simp] theorem transferAct_keeps {s : State} (h : I s.phases) {target stale j u i g sp} :
    (transferAct target stale j u i g s sp).Keeps I := by
  unfold transferAct
  dsimp only
  (repeat' split) <;> simp [h]

@[simp] theorem regAct_keeps {s : State} (h : I s.phases) {j u i g sp} : (regAct j u i g s sp).Keeps I := by
  unfold regAct
  (repeat' split) <;> simp [h]

@[simp] theorem execBra_keeps {s : State} (h : I s.phases) {x} : Res.Keeps I (execBra x s) :=
  issue_keeps h (fun _ _ _ _ h => by simp [h]) fun _ _ _ _ _ h => by simp [h]

@[simp] theorem execBrx_keeps {s : State} (h : I s.phases) {x} : Res.Keeps I (execBrx x s) :=
  issue_keeps h (fun _ _ _ _ h => by simp [h]) fun _ _ _ _ _ h => by simp [h]

@[simp] theorem execCall_keeps {s : State} (h : I s.phases) {x} : Res.Keeps I (execCall x s) :=
  issue_keeps h (fun _ _ _ _ h => by simp [h]) fun _ _ _ _ _ h => by simp [h]

@[simp] theorem execCallx_keeps {s : State} (h : I s.phases) {x} : Res.Keeps I (execCallx x s) :=
  issue_keeps h (fun _ _ _ _ h => by simp [h]) fun _ _ _ _ _ h => by simp [h]

@[simp] theorem execRet_keeps {s : State} (h : I s.phases) {x} : Res.Keeps I (execRet x s) :=
  issue_keeps h (fun _ _ _ _ h => by simp [h]) fun _ _ _ _ _ h => by simp [h]

@[simp] theorem joinptBody_keeps {s : State} (h : I s.phases) {y0 e y3} : (joinptBody y0 s e y3).Keeps I := by
  unfold joinptBody
  split <;> simp [h]

@[simp] theorem execJoinpt_keeps {s : State} (h : I s.phases) {x} : Res.Keeps I (execJoinpt x s) :=
  peelOp_keeps h fun _ _ _ _ h => by simp [h]

@[simp] theorem syncBody_keeps {s : State} (h : I s.phases) {y0 e y3} : (syncBody y0 s e y3).Keeps I := by
  unfold syncBody
  (repeat' split) <;> simp [h]

@[simp] theorem execSync_keeps {s : State} (h : I s.phases) {x} : Res.Keeps I (execSync x s) :=
  peelOp_keeps h fun _ _ _ _ h => by simp [h]

@[simp] theorem exitBody_keeps {s : State} (h : I s.phases) {y0 e p} :
    (exitBody y0 s e p).Keeps I := by simp [exitBody, h]

@[simp] theorem State.retireSpan_phases (s : State) (i sp) : (State.retireSpan s i sp).phases = s.phases := by
  simp [State.retireSpan]

@[simp] theorem execExit_keeps {s : State} (h : I s.phases) {x} : Res.Keeps I (execExit x s) := by
  refine withSweep_keeps (withLaps_keeps (issue_keeps h (fun _ _ _ _ h => by simp [h]) fun _ i _ s sp h => ?_))
  split <;> simp [h]

@[simp] theorem yieldBody_keeps {s : State} (h : I s.phases) {y0 e y3} : (yieldBody y0 s e y3).Keeps I := h

@[simp] theorem execYield_keeps {s : State} (h : I s.phases) {x} : Res.Keeps I (execYield x s) :=
  peelOp_keeps h fun _ _ _ _ h => by simp [h]

@[simp] theorem execYieldTimeout_keeps {s : State} (h : I s.phases) {team wave sub} :
    Res.Keeps I (execYieldTimeout team wave sub s) :=
  h

@[simp] theorem sjoinAct_keeps {s : State} (h : I s.phases) {i sp} : (sjoinAct i s sp).Keeps I := by
  unfold sjoinAct
  split <;> simp [h]

@[simp] theorem execSjoin_keeps {s : State} (h : I s.phases) {x} : Res.Keeps I (execSjoin x s) :=
  issue_keeps h (fun _ _ _ _ h => by simp [h]) fun _ _ _ _ _ h => by simp [h]

@[simp] theorem execMat_keeps {s : State} (h : I s.phases) {x} : Res.Keeps I (execMat x s) :=
  peelOp_keeps h fun _ _ _ _ h => by simp [h]

@[simp] theorem trapBody_keeps {s : State} (h : I s.phases) {t y1 y3 p} : (trapBody t y1 s y3 p).Keeps I := h

@[simp] theorem execTrap_keeps {s : State} (h : I s.phases) {x} : Res.Keeps I (execTrap x s) :=
  peelOp_keeps h fun _ _ _ _ h => by simp [h]

@[simp] theorem execBrk_keeps {s : State} (h : I s.phases) {x} : Res.Keeps I (execBrk x s) :=
  peelOp_keeps h fun _ _ _ _ h => by simp [h]

@[simp] theorem trapretBody_keeps {s : State} (h : I s.phases) {mode y1 e p} : (trapretBody mode y1 s e p).Keeps I := by
  unfold trapretBody
  (repeat' split) <;> simp [h]

@[simp] theorem execTrapret_keeps {s : State} (h : I s.phases) {x} : Res.Keeps I (execTrapret x s) :=
  withSweep_keeps (withLaps_keeps (peelOp_keeps h fun _ _ _ _ h => by simp [h]))

theorem State.unitWords_phases (s : State) (ctx ea n) :
    ∀ t, State.unitWords s ctx ea n = .ok t → t.1.phases = s.phases := by
  induction n generalizing s ea with
  | zero => rintro _ ⟨⟩; rfl
  | succ n ih =>
    unfold State.unitWords
    grind [→ State.unitRead_phases]

theorem State.imageOf_phases (s : State) (ctx pool) : ∀ t, State.imageOf s ctx pool = .ok t → t.1.phases = s.phases := by
  unfold State.imageOf
  grind [→ State.unitWords_phases]

@[simp] theorem State.checkLaunch_phases (s : State) (ctx rec ws item) :
    (State.checkLaunch s ctx rec ws item).1.phases = s.phases := by
  unfold State.checkLaunch
  simp
  grind [→ State.unitWords_phases, → State.imageOf_phases]

@[simp] theorem State.createGrid_phases (s : State) (g depth prio parent queue) :
    (State.createGrid s g depth prio parent queue).1.phases = s.phases := by
  simp [State.createGrid]

@[simp] theorem State.acceptCall_phases (s : State) (dev c) : (State.acceptCall s dev c).phases = s.phases := (rfl)

@[simp] theorem svcBody_keeps {s : State} (h : I s.phases) {code u e p} : (svcBody code u s e p).Keeps I := by
  refine once_keeps h fun src r => ?_
  dsimp only
  split
  · simp [h]
  · split
    · simp [h]
    · split
      · simp [h]
      · split
        · simp [h]
        · split
          · simp [h]
          · simpa [State.unitWords_phases _ _ _ _ _ ‹_›] using h

@[simp] theorem execSvc_keeps {s : State} (h : I s.phases) {x} : Res.Keeps I (execSvc x s) :=
  peelOp_keeps h fun _ _ _ _ h => by simp [h]

@[simp] theorem State.settleFlights_phases (s : State) (e) : (State.settleFlights s e).phases = s.phases := by
  simp [State.settleFlights]

@[simp] theorem csrrBody_keeps {s : State} (h : I s.phases) {ix d u e p} : (csrrBody ix d u s e p).Keeps I := by
  refine once_keeps h fun src r => ?_
  dsimp only
  (repeat' split) <;> simp [h]

@[simp] theorem execCsrr_keeps {s : State} (h : I s.phases) {x} : Res.Keeps I (execCsrr x s) :=
  peelOp_keeps h fun _ _ _ _ h => by simp [h]

@[simp] theorem State.csrWrite_phases (s : State) (e ix v p) : (State.csrWrite s e ix v p).phases = s.phases := by
  simp [State.csrWrite]

@[simp] theorem execCsrw_keeps {s : State} (h : I s.phases) {x} : Res.Keeps I (execCsrw x s) :=
  peelOp_keeps h fun _ _ _ _ h => once_keeps h fun _ _ => by simp [h]

@[simp] theorem launchBody_keeps {s : State} (h : I s.phases) {d u e p} : (launchBody d u s e p).Keeps I := by
  refine once_keeps h fun src r => ?_
  dsimp only
  (repeat' split) <;> grind [Issue.Keeps, strike_keeps, → State.unitWords_phases, = State.escapeTeam_phases,
    = State.modTeam_phases, !State.checkLaunch_phases, = State.createGrid_phases]

@[simp] theorem execLaunch_keeps {s : State} (h : I s.phases) {x} : Res.Keeps I (execLaunch x s) :=
  peelOp_keeps h fun _ _ _ _ h => by simp [h]

@[simp] theorem lwaitBody_keeps {s : State} (h : I s.phases) {all u e p} : (lwaitBody all u s e p).Keeps I := by
  refine once_keeps h fun src r => ?_
  dsimp only
  split
  · split <;> exact h
  · split <;> rename_i hx <;> have ht : I _ := Got.keeps_of (by simpa using h) hx
    · exact strike_keeps ht
    · exact ht
    · split <;> exact ht

@[simp] theorem execLwait_keeps {s : State} (h : I s.phases) {x} : Res.Keeps I (execLwait x s) :=
  peelOp_keeps h fun _ _ _ _ h => by simp [h]

@[simp] theorem execNop_keeps {s : State} (h : I s.phases) {x} : Res.Keeps I (execNop x s) :=
  issue_keeps h (fun _ _ _ _ h => by simp [h]) fun _ _ _ _ _ h => by simp [h]

end Sys2Proof.Machine
end

