-- ==== Sys2Proof/Proofs/PhaseSched.lean ====
section
/-!
SUPPORT. Scheduling, admission, vents, errors and the requests of homes and hosts: what leaves the phases as they are (`_phases`),
and what keeps what is said of them (`_keeps`).
-/
namespace Sys2Proof.Machine
open Sys2Proof

variable {I : Phases → Prop}

@[simp] theorem State.fetchSub_phases (s : State) (e) : (State.fetchSub s e).phases = s.phases := by
  unfold State.fetchSub
  (repeat' split) <;> grind [!State.obtainCode_phases, = State.modSub_phases, = State.takeTraps_phases]

@[simp] theorem State.fetchSpan_phases (s : State) (i sp) : (State.fetchSpan s i sp).phases = s.phases := by
  unfold State.fetchSpan
  (repeat' split) <;> grind [!State.obtainCode_phases, = State.modSpan_phases, = State.peelSpan_phases]

@[simp] theorem execClauseFetch_keeps {s : State} (h : I s.phases) {who} : Res.Keeps I (execClauseFetch who s) := by
  cases who with
  | sub t w k => cases hx : s.ex? t w k <;> simp [execClauseFetch, hx, h]
  | span i => cases hx : s.spans.get? i <;> simp [execClauseFetch, hx, h]

@[simp] theorem State.chosen_phases (s : State) (f) : (State.chosen s f).phases = s.phases := by
  unfold State.chosen
  split <;> simp

@[simp] theorem State.ageAll_phases (s : State) (n) : (State.ageAll s n).phases = s.phases := by
  refine foldl_phases (fun s' p => ?_) _ _
  split
  · refine foldl_phases (fun s' w => ?_) _ _
    split <;> simp
  · rfl

@[simp] theorem State.endYields_phases (s : State) (core port f) :
    (State.endYields s core port f).phases = s.phases := (rfl)

@[simp] theorem State.startClause_phases (s : State) (core port f) :
    (State.startClause s core port f).phases = s.phases := by
  unfold State.startClause
  (repeat' split) <;> simp

@[simp] theorem execClauseStart_keeps {s : State} (h : I s.phases) {core port} :
    Res.Keeps I (execClauseStart core port s) := by
  unfold execClauseStart
  (repeat' split) <;> simp [h]

@[simp] theorem State.fitPools_phases (s : State) (core me n) : (State.fitPools core me n s).phases = s.phases := by
  induction n generalizing s with
  | zero => rfl
  | succ n ih =>
    unfold State.fitPools
    dsimp only
    (repeat' split) <;> simp [ih]

@[simp] theorem State.fit_phases (s : State) (core me) : (State.fit s core me).phases = s.phases := by simp [State.fit]

@[simp] theorem execFrameRefill_keeps {s : State} (h : I s.phases) {team wave depth} :
    Res.Keeps I (execFrameRefill team wave depth s) := by
  unfold execFrameRefill
  (repeat' split) <;> simp [h]

@[simp] theorem execUniformFrameRefill_keeps {s : State} (h : I s.phases) {team wave} :
    Res.Keeps I (execUniformFrameRefill team wave s) := by
  unfold execUniformFrameRefill
  (repeat' split) <;> simp [h]

@[simp] theorem State.fitOwner_phases (s : State) (o) : (State.fitOwner s o).phases = s.phases := by
  unfold State.fitOwner
  split <;> simp

@[simp] theorem execResultWrite_keeps {s : State} (h : I s.phases) {who seq} :
    Res.Keeps I (execResultWrite who seq s) := by
  unfold execResultWrite
  (repeat' split) <;> simp [h]

@[simp] theorem execTrackedComplete_keeps {s : State} (h : I s.phases) {who seq} :
    Res.Keeps I (execTrackedComplete who seq s) := by
  unfold execTrackedComplete
  (repeat' split) <;> grind [Got.state, Res.Keeps, !State.runMove_phases, = State.finishOwner_phases, = State.sweep_phases,
    = State.fitOwner_phases]

@[simp] theorem execAccessPerformed_keeps {s : State} (h : I s.phases) {who seq} :
    Res.Keeps I (execAccessPerformed who seq s) := by
  unfold execAccessPerformed
  split <;> simp [h]

@[simp] theorem execHandlerEntry_keeps {s : State} (h : I s.phases) {team wave sub} :
    Res.Keeps I (execHandlerEntry team wave sub s) := by
  unfold execHandlerEntry
  split <;> simp [h]

@[simp] theorem execFaultRecord_keeps {s : State} (h : I s.phases) {team wave sub} :
    Res.Keeps I (execFaultRecord team wave sub s) := by
  unfold execFaultRecord
  split <;> simp [h]

theorem State.evictRecord_phases (s : State) (f) : ∀ t, State.evictRecord s f = some t → t.phases = s.phases := by
  unfold State.evictRecord
  grind [phasesOf_self, State.phases_mk]

theorem State.recordRoomFor_phases (s : State) (f n k t) (h : State.recordRoomFor f n k s = some t) :
    t.phases = s.phases := by
  induction k generalizing s with
  | zero =>
    unfold State.recordRoomFor at h
    split at h <;> cases h
    rfl
  | succ k ih =>
    unfold State.recordRoomFor at h
    split at h
    · cases h
      rfl
    · split at h
      · exact (ih _ h).trans (s.evictRecord_phases f _ ‹_›)
      · cases h

@[simp] theorem execSpanRecordFetch_keeps {s : State} (h : I s.phases) {span} :
    Res.Keeps I (execSpanRecordFetch span s) := by
  unfold execSpanRecordFetch
  (repeat' split) <;> grind [Res.Keeps, → State.recordRoomFor_phases, = State.modSpan_phases]

@[simp] theorem execSpanSlotGrant_keeps {s : State} (h : I s.phases) {span} : Res.Keeps I (execSpanSlotGrant span s) := by
  unfold execSpanSlotGrant
  dsimp only
  (repeat' split) <;> simp [h]

@[simp] theorem execSjoinTimeout_keeps {s : State} (h : I s.phases) {span} : Res.Keeps I (execSjoinTimeout span s) := by
  unfold execSjoinTimeout
  dsimp only
  (repeat' split) <;> simp [h]

@[simp] theorem State.takeRange_phases (s : State) (core lo n keep) :
    (State.takeRange s core lo n keep).phases = s.phases := by
  simp [State.takeRange]

@[simp] theorem State.admitNew_phases (s : State) (cid c g pos core base keep) :
    (State.admitNew s cid c g pos core base keep).phases = s.phases := by
  simp [State.admitNew]

@[simp] theorem execCursorTake_keeps {s : State} (h : I s.phases) {cursor} : Res.Keeps I (execCursorTake cursor s) := by
  unfold execCursorTake
  dsimp only
  (repeat' split) <;> simp [h]

@[simp] theorem execAffinityTimeout_keeps {s : State} (h : I s.phases) {cursor} :
    Res.Keeps I (execAffinityTimeout cursor s) := by
  unfold execAffinityTimeout
  (repeat' split) <;> simp [h]

@[simp] theorem State.settleEntry_phases (s : State) (core entry) :
    (State.settleEntry s core entry).phases = s.phases := by
  simp [State.settleEntry]

@[simp] theorem State.restoreEntries_phases (s : State) (t core base l) :
    (State.restoreEntries s t core base l).phases = s.phases := by
  refine foldl_phases (fun s m => ?_) _ _
  dsimp only
  (repeat' split) <;> simp

@[simp] theorem State.restoreScratch_phases (s : State) (tm core base) :
    (State.restoreScratch s tm core base).phases = s.phases := by
  simp [State.restoreScratch]

@[simp] theorem State.readmit_phases (s : State) (t tm g core base keep) :
    (State.readmit s t tm g core base keep).phases = s.phases := by
  simp [State.readmit]

@[simp] theorem execTeamAdmit_keeps {s : State} (h : I s.phases) {team} : Res.Keeps I (execTeamAdmit team s) := by
  unfold execTeamAdmit
  (repeat' split) <;> simp [h]

@[simp] theorem State.putBank_phases (s : State) (e) : (State.putBank s e).phases = s.phases := (rfl)

@[simp] theorem State.modVents_phases (s : State) (b f) : (State.modVents s b f).phases = s.phases := by
  unfold State.modVents
  split <;> simp

@[simp] theorem State.requestVent_phases (s : State) (b) : (State.requestVent s b).phases = s.phases := by
  simp [State.requestVent]

@[simp] theorem State.restoreSector_phases (s : State) (ctx core sec u) :
    (State.restoreSector s ctx core sec u).phases = s.phases := by
  unfold State.restoreSector
  dsimp only
  (repeat' split) <;> simp

@[simp] theorem State.rollback_phases (s : State) (t tm l) : (State.rollback s t tm l).phases = s.phases := by
  simp [State.rollback]

@[simp] theorem State.killRecorded_phases (s : State) (t tm cause sub) :
    (State.killRecorded s t tm cause sub).phases = s.phases := by
  simp [State.killRecorded]

@[simp] theorem execUndoWriteComplete_keeps {s : State} (h : I s.phases) {team sector} :
    Res.Keeps I (execUndoWriteComplete team sector s) :=
  h

@[simp] theorem State.failHopeless_phases (s : State) : (State.failHopeless s).phases = s.phases := by
  refine foldl_phases (fun s x => ?_) _ _
  (repeat' split) <;> simp

@[simp] theorem State.capacitySwap_phases (s : State) (core) : (State.capacitySwap s core).phases = s.phases := by
  simp [State.capacitySwap]

@[simp] theorem State.emptyCaches_phases (s : State) (core) : (State.emptyCaches s core).phases = s.phases := by
  simp [State.emptyCaches]

@[simp] theorem State.removeCore_phases (s : State) (core) : (State.removeCore s core).phases = s.phases := by
  simp [State.removeCore]

@[simp] theorem State.loseQuad_phases (s : State) (core) : (State.loseQuad s core).phases = s.phases := by
  unfold State.loseQuad
  dsimp only
  (repeat' split) <;> simp

@[simp] theorem State.pipeError_phases (s : State) (t sub site) : (State.pipeError s t sub site).phases = s.phases := by
  unfold State.pipeError
  (repeat' split) <;> simp

@[simp] theorem execPipeError_keeps {s : State} (h : I s.phases) {team sub site} :
    Res.Keeps I (execPipeError team sub site s) := by
  simp [execPipeError, h]

@[simp] theorem execScoreboardMismatch_keeps {s : State} (h : I s.phases) {team wave again} :
    Res.Keeps I (execScoreboardMismatch team wave again s) := by
  unfold execScoreboardMismatch
  (repeat' split) <;> simp [h]

@[simp] theorem State.takeSpare_phases (s : State) (core) : (State.takeSpare s core).phases = s.phases := by
  simp [State.takeSpare]

@[simp] theorem State.markStarted_phases (s : State) (b total cap old) :
    (State.markStarted s b total cap old).phases = s.phases := by
  simp [State.markStarted]

@[simp] theorem State.writeRecord_phases (s : State) : (State.writeRecord s).phases = s.phases := (rfl)

@[simp] theorem State.ventDone_phases (s : State) (b) : (State.ventDone s b).phases = s.phases := by simp [State.ventDone]

@[simp] theorem State.ventCheck_phases (s : State) (b) : (State.ventCheck s b).phases = s.phases := by
  unfold State.ventCheck
  split <;> simp

@[simp] theorem State.startCoreVent_phases (s : State) (b) : (State.startCoreVent s b).phases = s.phases := by
  unfold State.startCoreVent
  split <;> simp

@[simp] theorem State.hbmCheck_phases (s : State) : (State.hbmCheck s).phases = s.phases := by simp [State.hbmCheck]

@[simp] theorem execVentStart_keeps {s : State} (h : I s.phases) {b} : Res.Keeps I (execVentStart b s) := by
  unfold execVentStart
  dsimp only
  (repeat' split) <;> simp [h]

@[simp] theorem execVentMove_keeps {s : State} (h : I s.phases) {b} : Res.Keeps I (execVentMove b s) := by
  unfold execVentMove
  split <;> simp [h]

@[simp] theorem execL2SliceHandover_keeps {s : State} (h : I s.phases) {slice} :
    Res.Keeps I (execL2SliceHandover slice s) := by
  unfold execL2SliceHandover
  dsimp only
  (repeat' split) <;> simp [h]

@[simp] theorem State.moveGranules_phases (s : State) (dev src dst n) :
    (State.moveGranules s dev src dst n).phases = s.phases := by
  induction n with
  | zero => rfl
  | succ n ih => simpa [State.moveGranules] using ih

@[simp] theorem State.moveBacking_phases (s : State) (dev frame target) :
    (State.moveBacking s dev frame target).phases = s.phases := by
  simp [State.moveBacking]

@[simp] theorem execHbmPageMove_keeps {s : State} (h : I s.phases) {dev frame target} :
    Res.Keeps I (execHbmPageMove dev frame target s) := by
  unfold execHbmPageMove
  dsimp only
  (repeat' split) <;> simp [h]

@[simp] theorem State.corrected_phases (s : State) (b addr) : (State.corrected s b addr).phases = s.phases := by
  simp [State.corrected]

@[simp] theorem execCorrectedError_keeps {s : State} (h : I s.phases) {b addr} :
    Res.Keeps I (execCorrectedError b addr s) := by
  simp [execCorrectedError, h]

@[simp] theorem execErrLogWindowClose_keeps {s : State} (h : I s.phases) {b} :
    Res.Keeps I (execErrLogWindowClose b s) := by
  unfold execErrLogWindowClose
  dsimp only
  (repeat' split) <;> simp [h]

@[simp] theorem State.rolled_phases (s : State) (t s') : (State.rolled s t s').1.phases = s'.phases := (rfl)

@[simp] theorem State.destroy_phases (s : State) (b site) : (State.destroy s b site).1.phases = s.phases := by
  unfold State.destroy
  dsimp only
  (repeat' split) <;> simp

@[simp] theorem execUncorrectedError_keeps {s : State} (h : I s.phases) {b site} :
    Res.Keeps I (execUncorrectedError b site s) := by
  unfold execUncorrectedError
  split <;> simp [h]

@[simp] theorem execPatrolScrub_keeps {s : State} (h : I s.phases) {b place found} :
    Res.Keeps I (execPatrolScrub b place found s) := by
  unfold execPatrolScrub
  (repeat' split) <;> simp [h]

@[simp] theorem State.fillStep_phases (s : State) (core sector ok) :
    (State.fillStep s core sector ok).phases = s.phases := by
  unfold State.fillStep
  (repeat' split) <;> grind [Got.state, !State.fillSector_phases]

@[simp] theorem execSectorFillComplete_keeps {s : State} (h : I s.phases) {core sector} :
    Res.Keeps I (execSectorFillComplete core sector s) := by
  simp [execSectorFillComplete, h]

@[simp] theorem execSectorFillFault_keeps {s : State} (h : I s.phases) {core sector} :
    Res.Keeps I (execSectorFillFault core sector s) := by
  simp [execSectorFillFault, h]

@[simp] theorem execSectorWritebackComplete_keeps {s : State} (h : I s.phases) {core sector} :
    Res.Keeps I (execSectorWritebackComplete core sector s) := by
  simp [execSectorWritebackComplete, h]

@[simp] theorem State.request_phases (s : State) (l who write partialOwn) :
    (State.request s l who write partialOwn).phases = s.phases := by
  simp [State.request]

@[simp] theorem execGets_keeps {s : State} (h : I s.phases) {line who} : Res.Keeps I (execGets line who s) := by
  simp [execGets, h]

@[simp] theorem State.requestOwn_phases (s : State) (l who) : (State.requestOwn s l who).phases = s.phases := by
  simp [State.requestOwn]

@[simp] theorem execGetm_keeps {s : State} (h : I s.phases) {line who} : Res.Keeps I (execGetm line who s) := by
  simp [execGetm, h]

@[simp] theorem execUpgrade_keeps {s : State} (h : I s.phases) {line who} : Res.Keeps I (execUpgrade line who s) := by
  simp [execUpgrade, h]

@[simp] theorem execGetp_keeps {s : State} (h : I s.phases) {line who} : Res.Keeps I (execGetp line who s) := by
  simp [execGetp, h]

@[simp] theorem execWriteBack_keeps {s : State} (h : I s.phases) {line who} : Res.Keeps I (execWriteBack line who s) := by
  unfold execWriteBack
  dsimp only
  (repeat' split) <;> simp [h]

@[simp] theorem execCleanNotice_keeps {s : State} (h : I s.phases) {line who} :
    Res.Keeps I (execCleanNotice line who s) := by
  unfold execCleanNotice
  dsimp only
  (repeat' split) <;> simp [h]

@[simp] theorem execUncachedAccess_keeps {s : State} (h : I s.phases) {line write} :
    Res.Keeps I (execUncachedAccess line write s) := by
  simp [execUncachedAccess, h]

@[simp] theorem execRecallForRead_keeps {s : State} (h : I s.phases) {line who} :
    Res.Keeps I (execRecallForRead line who s) := by
  simp [execRecallForRead, h]

@[simp] theorem execRecallForWrite_keeps {s : State} (h : I s.phases) {line who} :
    Res.Keeps I (execRecallForWrite line who s) := by
  simp [execRecallForWrite, h]

@[simp] theorem execStashRecall_keeps {s : State} (h : I s.phases) {core line write} :
    Res.Keeps I (execStashRecall core line write s) := by
  simp [execStashRecall, h]

@[simp] theorem execRecallAck_keeps {s : State} (h : I s.phases) {line who} : Res.Keeps I (execRecallAck line who s) := by
  unfold execRecallAck
  dsimp only
  (repeat' split) <;> simp [h]

@[simp] theorem execHomeFillComplete_keeps {s : State} (h : I s.phases) {line} :
    Res.Keeps I (execHomeFillComplete line s) := by
  simp [execHomeFillComplete, h]

@[simp] theorem execTranslationWalk_keeps {s : State} (h : I s.phases) {dev asid va} :
    Res.Keeps I (execTranslationWalk dev asid va s) := by
  unfold execTranslationWalk
  split <;> simp [h]

@[simp] theorem execTranslationFault_keeps {s : State} (h : I s.phases) {line} :
    Res.Keeps I (execTranslationFault line s) := by
  simp [execTranslationFault, h]

@[simp] theorem State.hostReq_phases (s : State) (dpa l q) : (State.hostReq s dpa l q).phases = s.phases := by
  unfold State.hostReq
  (repeat' split) <;> grind [→ State.homeFill_phases, = State.modDev_phases, = State.putEntry_phases,
    = State.openReq_phases, = State.answerAll_phases, = State.closeTxn_phases]

@[simp] theorem State.hostRequest_phases (s : State) (dev port dpa q) :
    (State.hostRequest s dev port dpa q).phases = s.phases := by
  unfold State.hostRequest
  dsimp only
  (repeat' split) <;> simp

@[simp] theorem execMemrdSnpdata_keeps {s : State} (h : I s.phases) {dev port dpa} :
    Res.Keeps I (execMemrdSnpdata dev port dpa s) := by
  simp [execMemrdSnpdata, h]

@[simp] theorem execMemrdSnpinv_keeps {s : State} (h : I s.phases) {dev port dpa} :
    Res.Keeps I (execMemrdSnpinv dev port dpa s) := by
  simp [execMemrdSnpinv, h]

@[simp] theorem execMemrdNoSnoop_keeps {s : State} (h : I s.phases) {dev port dpa} :
    Res.Keeps I (execMemrdNoSnoop dev port dpa s) := by
  simp [execMemrdNoSnoop, h]

@[simp] theorem execMemwr_keeps {s : State} (h : I s.phases) {dev port dpa data} :
    Res.Keeps I (execMemwr dev port dpa data s) := by
  simp [execMemwr, h]

@[simp] theorem execBirspi_keeps {s : State} (h : I s.phases) {line port} : Res.Keeps I (execBirspi line port s) := by
  simp [execBirspi, h]

@[simp] theorem execBisnpdataResponse_keeps {s : State} (h : I s.phases) {line port data} :
    Res.Keeps I (execBisnpdataResponse line port data s) := by
  unfold execBisnpdataResponse
  dsimp only
  rw [Res.keeps_next]
  (repeat' split) <;> simp [h]

@[simp] theorem State.hostSnoop_phases (s : State) (dev port hpa snoop) :
    (State.hostSnoop s dev port hpa snoop).phases = s.phases := by
  simp [State.hostSnoop]

@[simp] theorem State.hostResume_phases (s : State) (dev) : (State.hostResume s dev).phases = s.phases := by
  refine (foldl_phases (fun s p => ?_) _ _).trans (by simp)
  (repeat' split) <;> simp

@[simp] theorem execH2dSnpinv_keeps {s : State} (h : I s.phases) {dev port hpa} :
    Res.Keeps I (execH2dSnpinv dev port hpa s) := by
  simp [execH2dSnpinv, h]

@[simp] theorem execH2dSnpdata_keeps {s : State} (h : I s.phases) {dev port hpa} :
    Res.Keeps I (execH2dSnpdata dev port hpa s) := by
  simp [execH2dSnpdata, h]

@[simp] theorem execH2dSnpcur_keeps {s : State} (h : I s.phases) {dev port hpa} :
    Res.Keeps I (execH2dSnpcur dev port hpa s) := by
  simp [execH2dSnpcur, h]

end Sys2Proof.Machine
end

