-- ==== Sys2Proof/Proofs/PhaseQueues.lean ====
section
/-!
SUPPORT. Queues, transfers, held instructions and preemption: what leaves the phases as they are (`_phases`), and what keeps what is
said of them (`_keeps`).
-/
namespace Sys2Proof.Machine
open Sys2Proof

variable {I : Phases → Prop}

@[simp] theorem State.startCmd_phases (s : State) (k c) : (State.startCmd s k c).phases = s.phases := by
  simp [State.startCmd]

@[simp] theorem State.cmdDone_phases (s : State) (k i) :
    (State.cmdDone s k i).phases = s.phases := by simp [State.cmdDone]

@[simp] theorem State.cmdOnce_phases (s : State) (k i) :
    (State.cmdOnce s k i).phases = s.phases := by simp [State.cmdOnce]

theorem State.nextCmd_phases (s : State) (k q t c) (h : s.nextCmd k = some (q, .ok (t, c))) : t.phases = s.phases := by
  unfold State.nextCmd at h
  split at h
  · cases h
  · split at h
    · cases h
    · split at h
      · cases h
      · dsimp only at h
        split at h
        · cases h
        · cases h
          exact s.unitWords_phases _ _ _ _ ‹_›

@[simp] theorem State.runCmd_phases {f : State → Queue → Command → State} (hf : ∀ s q c, (f s q c).phases = s.phases)
    (s : State) (k op) : (State.runCmd s k op f).phases = s.phases := by
  unfold State.runCmd
  split
  · split
    · exact (hf _ _ _).trans (s.nextCmd_phases _ _ _ _ ‹_›)
    · rfl
  · rfl

@[simp] theorem execQueueLaunch_keeps {s : State} (h : I s.phases) {queue} : Res.Keeps I (execQueueLaunch queue s) := by
  unfold execQueueLaunch
  grind [Res.Keeps, → State.unitWords_phases, !State.checkLaunch_phases, !State.createGrid_phases,
    = State.refuseQueue_phases, = State.startCmd_phases, = State.runCmd_phases]

theorem State.readCounter_phases (s : State) (ctx ea) :
    ∀ t, State.readCounter s ctx ea = .ok t → t.1.phases = s.phases := by
  intro t h
  unfold State.readCounter at h
  dsimp only at h
  split at h
  · split at h <;> cases h
    simp
  · exact s.unitRead_phases _ _ _ _ h

@[simp] theorem execWaitcnt_keeps {s : State} (h : I s.phases) {queue} : Res.Keeps I (execWaitcnt queue s) := by
  unfold execWaitcnt
  grind [Res.Keeps, → State.readCounter_phases, = State.refuseQueue_phases, = State.startCmd_phases,
    = State.cmdOnce_phases, = State.runCmd_phases]

@[simp] theorem execWaitcntRelease_keeps {s : State} (h : I s.phases) {queue index} :
    Res.Keeps I (execWaitcntRelease queue index s) := by
  unfold execWaitcntRelease
  dsimp only
  rw [Res.keeps_next]
  split
  · exact h
  · split
    · exact h
    · split
      · simpa using h
      · have ht := s.readCounter_phases _ _ _ ‹_›
        split <;> simpa [ht] using h

@[simp] theorem execSignal_keeps {s : State} (h : I s.phases) {queue} : Res.Keeps I (execSignal queue s) := by
  unfold execSignal
  grind [Res.Keeps, → State.bumpCounter_phases, = State.refuseQueue_phases, = State.cmdOnce_phases,
    = State.runCmd_phases]

@[simp] theorem execQueueNop_keeps {s : State} (h : I s.phases) {queue} : Res.Keeps I (execQueueNop queue s) := by
  simp [execQueueNop, h]

@[simp] theorem execQueueCommandFenced_keeps {s : State} (h : I s.phases) {queue} :
    Res.Keeps I (execQueueCommandFenced queue s) := by
  unfold execQueueCommandFenced
  rw [Res.keeps_next]
  split
  · simpa using h
  · have ht := s.nextCmd_phases _ _ _ _ ‹_›
    split <;> simpa [ht] using h
  · exact h

@[simp] theorem execDoorbellWrite_keeps {s : State} (h : I s.phases) {queue tail} :
    Res.Keeps I (execDoorbellWrite queue tail s) := by
  simp [execDoorbellWrite, h]

@[simp] theorem State.finishGrid_phases (s : State) (k g) : (State.finishGrid s k g).phases = s.phases := by
  unfold State.finishGrid
  dsimp only
  (repeat' split) <;> simp

@[simp] theorem execGridComplete_keeps {s : State} (h : I s.phases) {grid} : Res.Keeps I (execGridComplete grid s) := by
  unfold execGridComplete
  split <;> simp [h]

@[simp] theorem execTransferAccept_keeps {s : State} (h : I s.phases) {queue} :
    Res.Keeps I (execTransferAccept queue s) := by
  unfold execTransferAccept
  rw [Res.keeps_next]
  (repeat' split) <;> grind [= State.refuseQueue_phases, → State.unitWords_phases, → State.acceptXfer_phases,
    = State.setQueue_phases, State.phases_mk, phasesOf_self]

@[simp] theorem State.modXfer_phases (s : State) (n slot f) : (State.modXfer s n slot f).phases = s.phases := (rfl)

@[simp] theorem State.xferImage_phases (s : State) (a x n off) : (State.xferImage a x n off s).1.phases = s.phases := by
  induction n generalizing s off with
  | zero => rfl
  | succ n ih =>
    unfold State.xferImage
    split <;> rename_i hx <;> simpa [ih] using Got.phases_of hx

@[simp] theorem State.xferReady_phases (s : State) (a l) : (State.xferReady a l s).1.phases = s.phases := by
  induction l generalizing s with
  | nil => rfl
  | cons p r ih =>
    unfold State.xferReady
    split <;> rename_i hx <;> simpa [ih] using Got.phases_of hx

@[simp] theorem State.moveXfer_phases (s : State) (n slot x) : (State.moveXfer s n slot x).state.phases = s.phases := by
  unfold State.moveXfer
  grind [Got.state, !State.imageWrite_phases, !State.xferImage_phases, !State.xferReady_phases,
    = State.releaseEngine_phases, = State.modXfer_phases]

@[simp] theorem execTransferBurst_keeps {s : State} (h : I s.phases) {engine slot} :
    Res.Keeps I (execTransferBurst engine slot s) := by
  unfold execTransferBurst
  (repeat' split) <;> simp <;> grind [Got.state, !State.moveXfer_phases]

@[simp] theorem State.suspendXfer_phases (s : State) (n slot x t) :
    (State.suspendXfer s n slot x t).phases = s.phases := by
  simp [State.suspendXfer]

@[simp] theorem execTransferComplete_keeps {s : State} (h : I s.phases) {engine slot} :
    Res.Keeps I (execTransferComplete engine slot s) := by
  unfold execTransferComplete
  (repeat' split) <;> simp <;> grind [→ State.addCounter_phases]

@[simp] theorem execTransferFault_keeps {s : State} (h : I s.phases) {engine slot} :
    Res.Keeps I (execTransferFault engine slot s) := by
  unfold execTransferFault
  (repeat' split) <;> simp <;> grind [Got.state, !State.moveXfer_phases]

/-- A step that keeps what `I` says of the phases. -/
def PhaseStep (I : Phases → Prop) (f : State → Res) : Prop := ∀ s : State, I s.phases → Res.Keeps I (f s)

theorem withSub_keeps {t w k : Nat} {f : State → Res} {s : State} (h : I s.phases) (hf : PhaseStep I f) :
    Res.Keeps I (withSub t w k f s) := by
  have h1 := hf { s with cur := some (.sub t w k) } h
  unfold withSub
  split <;> rename_i hx
  · rw [hx] at h1
    exact h1
  · exact h1

theorem goOn_keeps {kind : HoldKind} {run : Instr → Option (State → Res)} {t w k : Nat} {s : State} (h : I s.phases)
    (hr : ∀ i f, run i = some f → PhaseStep I f) : Res.Keeps I (goOn kind run t w k s) := by
  unfold goOn
  split
  · exact h
  · split
    · split
      · obtain ⟨i, -, hi⟩ := Option.bind_eq_some_iff.1 ‹_›
        exact withSub_keeps h (hr i _ hi)
      · exact h
    · exact h

/-- The step that a held instruction goes on with leaves the phases as they are. -/
theorem goOn_phases {kind : HoldKind} {run : Instr → Option (State → Res)} {t w k : Nat} {s s' : State}
    (hr : ∀ (I : Phases → Prop) i f, run i = some f → PhaseStep I f) (h : goOn kind run t w k s = .next s') :
    s'.phases = s.phases := by
  have hk : Res.Keeps (· = s.phases) (goOn kind run t w k s) := goOn_keeps rfl (hr _)
  rwa [h] at hk

theorem runWaitv_keeps (i f) (h : runWaitv i = some f) : PhaseStep I f := by
  unfold runWaitv at h
  split at h <;> cases h
  exact fun s h => execWaitv_keeps h

theorem runCntwait_keeps (i f) (h : runCntwait i = some f) : PhaseStep I f := by
  unfold runCntwait at h
  split at h <;> cases h
  exact fun s h => execCntwait_keeps h

theorem runPhwait_keeps (i f) (h : runPhwait i = some f) : PhaseStep I f := by
  unfold runPhwait at h
  split at h <;> cases h
  exact fun s h => execPhwait_keeps h

theorem runCopy_keeps (i f) (h : runCopy i = some f) : PhaseStep I f := by
  unfold runCopy at h
  split at h <;> cases h
  exacts [fun s h => execCpy_keeps h, fun s h => execCpyt_keeps h, fun s h => execCpyg_keeps h,
    fun s h => execCpys_keeps h]

@[simp] theorem execWaitvRelease_keeps {s : State} (h : I s.phases) {team wave sub} :
    Res.Keeps I (execWaitvRelease team wave sub s) :=
  goOn_keeps h runWaitv_keeps

@[simp] theorem execWaitvTimeout_keeps {s : State} (h : I s.phases) {team wave sub} :
    Res.Keeps I (execWaitvTimeout team wave sub s) := by
  unfold execWaitvTimeout
  split
  · exact goOn_keeps h runWaitv_keeps
  · exact h

@[simp] theorem execCntwaitRelease_keeps {s : State} (h : I s.phases) {team wave sub} :
    Res.Keeps I (execCntwaitRelease team wave sub s) :=
  goOn_keeps h runCntwait_keeps

@[simp] theorem execCntwaitTimeout_keeps {s : State} (h : I s.phases) {team wave sub} :
    Res.Keeps I (execCntwaitTimeout team wave sub s) := by
  unfold execCntwaitTimeout
  split
  · exact goOn_keeps h runCntwait_keeps
  · exact h

@[simp] theorem execCopyValidated_keeps {s : State} (h : I s.phases) {team wave sub} :
    Res.Keeps I (execCopyValidated team wave sub s) := by
  have h1 : Res.Keeps I (goOn .copyCheck runCopy team wave sub s) := goOn_keeps h runCopy_keeps
  unfold execCopyValidated
  split <;> rename_i hx
  · rw [hx] at h1
    exact goOn_keeps h1 runCopy_keeps
  · exact h1

@[simp] theorem State.phRelease_phases (s : State) (die) : (State.phRelease s die).phases = s.phases := by
  refine foldl_phases (fun s q => ?_) _ _
  split
  · exact goOn_phases (fun _ => runPhwait_keeps) ‹_›
  · rfl

@[simp] theorem execDebugHaltStop_keeps {s : State} (h : I s.phases) {team wave} :
    Res.Keeps I (execDebugHaltStop team wave s) := by
  unfold execDebugHaltStop
  split <;> simp [h]

@[simp] theorem execStep_keeps {s : State} (h : I s.phases) {team wave sub} : Res.Keeps I (execStep team wave sub s) := by
  unfold execStep
  (repeat' split) <;> simp [h]

@[simp] theorem State.stopTeam_phases (s : State) (t) : (State.stopTeam s t).phases = s.phases := (rfl)

@[simp] theorem State.charge_phases (s : State) (cycles) : (State.charge s cycles).phases = s.phases := by
  simp [State.charge]

@[simp] theorem State.sliceExpiry_phases (s : State) (dev) : (State.sliceExpiry s dev).phases = s.phases := by
  unfold State.sliceExpiry
  dsimp only
  (repeat' split) <;> simp

@[simp] theorem execAccountingRound_keeps {s : State} (h : I s.phases) {dev} :
    Res.Keeps I (execAccountingRound dev s) := by
  unfold execAccountingRound
  dsimp only
  (repeat' split) <;> simp [h]

@[simp] theorem execRelayRotation_keeps {s : State} (h : I s.phases) {grid} : Res.Keeps I (execRelayRotation grid s) := by
  unfold execRelayRotation
  dsimp only
  split
  · exact h
  · split
    · exact h
    · refine Eq.mpr (congrArg I ?_) h
      refine (State.modGrid_phases _ _ _).trans (foldl_phases (fun s c => ?_) _ _)
      split <;> simp

@[simp] theorem State.saveSpans_phases (s : State) (ctx) : (State.saveSpans s ctx).phases = s.phases := by
  simp [State.saveSpans]

@[simp] theorem State.suspendQueues_phases (s : State) (ctx warm) :
    (State.suspendQueues s ctx warm).phases = s.phases := by
  simp [State.suspendQueues]

@[simp] theorem State.holdXfers_phases (s : State) (ctx on) : (State.holdXfers s ctx on).phases = s.phases := by
  simp [State.holdXfers]

@[simp] theorem State.preempt_phases (s : State) (ctx drain swap warm) :
    (State.preempt s ctx drain swap warm).phases = s.phases := by
  simp [State.preempt]

@[simp] theorem State.preemptRecord_phases (s : State) (ctx) : (State.preemptRecord s ctx).phases = s.phases := by
  simp [State.preemptRecord]

@[simp] theorem State.preemptDone_phases (s : State) (ctx) : (State.preemptDone s ctx).phases = s.phases := by
  simp [State.preemptDone]

@[simp] theorem execPreemptDrainEnd_keeps {s : State} (h : I s.phases) {ctx} :
    Res.Keeps I (execPreemptDrainEnd ctx s) := by
  unfold execPreemptDrainEnd
  split <;> simp [h]

@[simp] theorem execPreemptDrainDeadline_keeps {s : State} (h : I s.phases) {ctx} :
    Res.Keeps I (execPreemptDrainDeadline ctx s) := by
  unfold execPreemptDrainDeadline
  split <;> simp [h]

@[simp] theorem State.killXfers_phases (s : State) (ctx) : (State.killXfers s ctx).phases = s.phases := (rfl)

@[simp] theorem State.failGrids_phases (s : State) (ctx status) : (State.failGrids s ctx status).phases = s.phases := by
  simp [State.failGrids]

@[simp] theorem State.resetCtx_phases (s : State) (ctx status) : (State.resetCtx s ctx status).phases = s.phases := by
  simp [State.resetCtx]

@[simp] theorem execPreemptSwapDeadline_keeps {s : State} (h : I s.phases) {ctx} :
    Res.Keeps I (execPreemptSwapDeadline ctx s) := by
  unfold execPreemptSwapDeadline
  split <;> simp [h]

@[simp] theorem State.resumeCtx_phases (s : State) (ctx) : (State.resumeCtx s ctx).phases = s.phases := by
  simp [State.resumeCtx]

end Sys2Proof.Machine
end

