-- ==== Sys2Proof/Proofs/PhaseCalls.lean ====
section
/-!
SUPPORT. Service calls for contexts, launches, faults and debugging: what leaves the phases as they are (`_phases`), and what keeps
what is said of them (`_keeps`).
-/
namespace Sys2Proof.Machine
open Sys2Proof

variable {I : Phases → Prop}

theorem State.hostGet_phases (s : State) (port addr) :
    ∀ t, State.hostGet s port addr = .ok t → t.1.phases = s.phases := by
  unfold State.hostGet
  grind [phasesOf_self, State.phases_mk, = State.bump_phases, = State.force_phases]

@[simp] theorem State.hostPut_phases (s : State) (port addr b) : (State.hostPut s port addr b).phases = s.phases := by
  unfold State.hostPut
  (repeat' split) <;> simp

theorem State.callerGet_phases (s : State) (who addr) :
    ∀ t, State.callerGet s who addr = .ok t → t.1.phases = s.phases := by
  unfold State.callerGet
  grind [→ State.unitRead_phases, → State.hostGet_phases]

theorem State.callerRead_phases (s : State) (who addr n) :
    ∀ t, State.callerRead who addr n s = .ok t → t.1.phases = s.phases := by
  induction n generalizing s addr with
  | zero => rintro _ ⟨⟩; rfl
  | succ n ih =>
    unfold State.callerRead
    grind [→ State.callerGet_phases]

@[simp] theorem State.callerWrite_phases (s : State) (who addr bs) :
    (State.callerWrite s who addr bs).phases = s.phases := by
  refine foldl_same (fun r : State × Nat => r.1.phases) (fun r b => ?_) bs (s, addr)
  dsimp only
  split <;> simp

@[simp] theorem State.modFunc_phases (s : State) (port k f) : (State.modFunc s port k f).phases = s.phases := (rfl)

@[simp] theorem State.submit_phases (s : State) (dev port vf addr) :
    (State.submit s dev port vf addr).phases = s.phases := by
  unfold State.submit
  grind [→ State.callerRead_phases, = State.logEvent_phases, = State.acceptCall_phases,
    = State.modFunc_phases]

@[simp] theorem execSvcdbWrite_keeps {s : State} (h : I s.phases) {dev port vf addr} :
    Res.Keeps I (execSvcdbWrite dev port vf addr s) := by
  simp [execSvcdbWrite, h]

@[simp] theorem execDroppedClear_keeps {s : State} (h : I s.phases) {dev port vf} :
    Res.Keeps I (execDroppedClear dev port vf s) :=
  h

@[simp] theorem State.callCounter_phases (s : State) (c) : (State.callCounter s c).phases = s.phases := by
  unfold State.callCounter
  split
  · rfl
  · split
    · simp
    · split
      · rfl
      · simpa using s.callerRead_phases _ _ _ _ ‹_›

@[simp] theorem State.answer_phases (s : State) (c status res) : (State.answer s c status res).phases = s.phases := by
  unfold State.answer
  split <;> simp

@[simp] theorem State.dropCall_phases (s : State) (k) : (State.dropCall s k).phases = s.phases := (rfl)

theorem serve_keeps {code argc : Nat} {c : Call} {body : Bool → State → Reply} {s : State} (h : I s.phases)
    (hb : ∀ (again : Bool) (s : State), I s.phases → (body again s).Keeps I) :
    Res.Keeps I (serve code argc c body s) := by
  unfold serve
  extract_lets k again fail
  have hf (st) : (fail st).Keeps I := by
    simp only [fail, Res.keeps_next]
    split <;> simpa using h
  have hr := hb again s h
  cases hx : body again s <;> rw [hx] at hr <;> dsimp only <;> (repeat' split) <;>
    first | exact h | exact hf _ | simpa using hr

@[simp] theorem refusedAccess_keeps {s : State} (h : I s.phases) {t} : (refusedAccess s t).Keeps I := h

theorem withBuffer_keeps {c : Call} {wr : Bool} {addr n : Nat} {s : State} {k : State → Reply} (h : I s.phases)
    (hk : (k s).Keeps I) : (withBuffer c wr addr n s k).Keeps I := by
  unfold withBuffer
  split
  · exact refusedAccess_keeps h
  · split
    · trivial
    · exact hk

theorem readBuffer_keeps {c : Call} {addr n : Nat} {s : State} {k : State → List Byte → Reply} (h : I s.phases)
    (hk : ∀ (s : State) bs, I s.phases → (k s bs).Keeps I) : (readBuffer c addr n s k).Keeps I := by
  unfold readBuffer
  split
  · trivial
  · split
    · exact refusedAccess_keeps h
    · exact hk _ _ (by simpa [s.callerRead_phases _ _ _ _ ‹_›] using h)

@[simp] theorem State.rejectFenced_phases (s : State) (dev) : (State.rejectFenced s dev).phases = s.phases := by
  unfold State.rejectFenced
  split <;> simp

@[simp] theorem ended_keeps {s : State} (h : I s.phases) {status} : (ended s status).Keeps I := h

@[simp] theorem State.forceRange_phases (s : State) (dev asid lo len) :
    (State.forceRange s dev asid lo len).phases = s.phases := by
  simp [State.forceRange]

theorem State.readTables_phases (s : State) (who l) : ∀ t, State.readTables who l s = .ok t → t.1.phases = s.phases := by
  induction l generalizing s with
  | nil => rintro _ ⟨⟩; rfl
  | cons a r ih =>
    unfold State.readTables
    grind [→ State.callerRead_phases]

@[simp] theorem execPartSet_keeps {s : State} (h : I s.phases) {c} : Res.Keeps I (execPartSet c s) := by
  unfold execPartSet
  refine serve_keeps h fun again s h => ?_
  split
  · split <;> simp [h]
  · split
    · simp [h]
    · split
      · trivial
      · split
        · simp [h]
        · have ht : I _ := (s.readTables_phases _ _ _ ‹_›).symm ▸ h
          dsimp only at ht ⊢
          split
          · simp [ht]
          · split
            · simp [ht]
            · rw [Reply.keeps_wait, foldl_phases (fun s x => ?_)]
              · exact ht
              · split <;> simp

@[simp] theorem execPartQuery_keeps {s : State} (h : I s.phases) {c} : Res.Keeps I (execPartQuery c s) :=
  serve_keeps h fun _ _ h => by simp [h]

theorem State.reserveFrames_phases (s : State) (ctx dev n) :
    ∀ t, State.reserveFrames ctx dev n s = some t → t.phases = s.phases := by
  induction n generalizing s with
  | zero => rintro _ ⟨⟩; rfl
  | succ n ih =>
    intro t h
    unfold State.reserveFrames at h
    split at h
    · cases h
    · simpa using ih _ _ h

@[simp] theorem execCtxCreate_keeps {s : State} (h : I s.phases) {c} : Res.Keeps I (execCtxCreate c s) := by
  refine serve_keeps h fun _ s h => ?_
  dsimp only
  split
  · simp [h]
  · split
    · simp [h]
    · split
      · simp [h]
      · simpa [State.reserveFrames_phases _ _ _ _ _ ‹_›] using h

@[simp] theorem State.endRetained_phases (s : State) (ctx core) : (State.endRetained s ctx core).phases = s.phases := by
  simp [State.endRetained]

@[simp] theorem State.finishGrids_phases (s : State) (ctx) : (State.finishGrids s ctx).phases = s.phases := by
  refine foldl_phases (fun s x => ?_) _ _
  (repeat' split) <;> simp

@[simp] theorem State.dropRecords_phases (s : State) (dev f) : (State.dropRecords s dev f).phases = s.phases := (rfl)

@[simp] theorem State.destroyCtx_phases (s : State) (ctx x) : (State.destroyCtx s ctx x).phases = s.phases := by
  simp [State.destroyCtx]

@[simp] theorem execCtxDestroy_keeps {s : State} (h : I s.phases) {c} : Res.Keeps I (execCtxDestroy c s) := by
  refine serve_keeps h fun _ s h => ?_
  (repeat' split) <;> simp [h]

@[simp] theorem execCtxQuery_keeps {s : State} (h : I s.phases) {c} : Res.Keeps I (execCtxQuery c s) := by
  refine serve_keeps h fun _ s h => ?_
  (repeat' split) <;> simp [h]

@[simp] theorem execCtxSuspend_keeps {s : State} (h : I s.phases) {c} : Res.Keeps I (execCtxSuspend c s) := by
  refine serve_keeps h fun _ s h => ?_
  (repeat' split) <;> simp [h]

@[simp] theorem execCtxResume_keeps {s : State} (h : I s.phases) {c} : Res.Keeps I (execCtxResume c s) := by
  refine serve_keeps h fun _ s h => ?_
  (repeat' split) <;> simp [h]

@[simp] theorem execShareSet_keeps {s : State} (h : I s.phases) {c} : Res.Keeps I (execShareSet c s) := by
  refine serve_keeps h fun _ s h => ?_
  (repeat' split) <;> simp [h]

@[simp] theorem execQueueCreate_keeps {s : State} (h : I s.phases) {c} : Res.Keeps I (execQueueCreate c s) := by
  refine serve_keeps h fun _ s h => ?_
  dsimp only
  (repeat' split) <;> simp [h]

@[simp] theorem execQueueDestroy_keeps {s : State} (h : I s.phases) {c} : Res.Keeps I (execQueueDestroy c s) := by
  refine serve_keeps h fun _ s h => ?_
  dsimp only
  (repeat' split) <;> simp [h]

@[simp] theorem execQueueBindPriority_keeps {s : State} (h : I s.phases) {c} :
    Res.Keeps I (execQueueBindPriority c s) := by
  refine serve_keeps h fun _ s h => ?_
  (repeat' split) <;> simp [h]

@[simp] theorem execLaunchGrid_keeps {s : State} (h : I s.phases) {c} : Res.Keeps I (execLaunchGrid c s) := by
  refine serve_keeps h fun _ s h => ?_
  dsimp only
  (repeat' split) <;> grind [ended, refusedAccess, Reply.Keeps, → State.unitWords_phases, !State.checkLaunch_phases,
    = State.createGrid_phases, = State.bump_phases]

@[simp] theorem State.passRefused_phases (s : State) (k q) : (State.passRefused s k q).phases = s.phases := by
  unfold State.passRefused
  split <;> simp

@[simp] theorem execLaunchCancel_keeps {s : State} (h : I s.phases) {c} : Res.Keeps I (execLaunchCancel c s) := by
  refine serve_keeps h fun _ s h => ?_
  (repeat' split) <;> simp [h]

@[simp] theorem execFaultFetch_keeps {s : State} (h : I s.phases) {c} : Res.Keeps I (execFaultFetch c s) :=
  serve_keeps h fun _ _ h => withBuffer_keeps h (by simpa using h)

@[simp] theorem State.recordHeld_phases (s : State) (dev n) : (State.recordHeld dev n s).phases = s.phases := by
  induction n generalizing s with
  | zero => rfl
  | succ n ih =>
    unfold State.recordHeld
    (repeat' split) <;> simp [ih]

@[simp] theorem State.recordSpans_phases (s : State) : (State.recordSpans s).phases = s.phases := by
  refine (foldl_phases (fun s p => ?_) _ _).trans (by simp)
  dsimp only
  (repeat' split) <;> simp

@[simp] theorem State.freeRecord_phases (s : State) (dev id) : (State.freeRecord s dev id).phases = s.phases := (rfl)

@[simp] theorem State.resolveSub_phases (s : State) (t w k action sub p) :
    (State.resolveSub s t w k action sub p).phases = s.phases := by
  simp [State.resolveSub]

@[simp] theorem State.killSpan_phases (s : State) (i sp) : (State.killSpan s i sp).phases = s.phases := by
  simp [State.killSpan]

@[simp] theorem State.resolveSpan_phases (s : State) (i action sp core slot) :
    (State.resolveSpan s i action sp core slot).phases = s.phases := by
  simp [State.resolveSpan]

@[simp] theorem State.resolveTeam_phases {f : State → State} (hf : ∀ s, (f s).phases = s.phases) (s : State) (t action) :
    (State.resolveTeam s t action f).phases = s.phases := by
  unfold State.resolveTeam
  split <;> simp [hf]

theorem State.resolve?_phases (s : State) (id action r t) (h : s.resolve? id action r = some t) :
    t.phases = s.phases := by
  unfold State.resolve? at h
  split at h
  · obtain ⟨q, -, rfl⟩ := Option.map_eq_some_iff.1 h
    simp
  · obtain ⟨q, -, rfl⟩ := Option.map_eq_some_iff.1 h
    simp
  · (repeat' split at h) <;> cases h
    simp
  · split at h <;> cases h
    simp
  · split at h <;> cases h
    simp
  · split at h <;> cases h
    simp
  · split at h <;> cases h
    split <;> simp
  · (repeat' split at h) <;> cases h <;> rfl

@[simp] theorem execFaultResolve_keeps {s : State} (h : I s.phases) {c} : Res.Keeps I (execFaultResolve c s) := by
  refine serve_keeps h fun _ s h => ?_
  split
  · simp [h]
  · split
    · simp [h]
    · split
      · simp [h]
      · dsimp only
        split
        · exact ended_keeps (by simpa [State.resolve?_phases _ _ _ _ _ ‹_›] using h)
        · simp [h]

@[simp] theorem execFaultAbort_keeps {s : State} (h : I s.phases) {c} : Res.Keeps I (execFaultAbort c s) := by
  refine serve_keeps h fun _ s h => ?_
  dsimp only
  (repeat' split) <;> simp [h]

@[simp] theorem execDbgAttach_keeps {s : State} (h : I s.phases) {c} : Res.Keeps I (execDbgAttach c s) := by
  refine serve_keeps h fun _ s h => ?_
  dsimp only
  (repeat' split) <;> simp [h]

@[simp] theorem State.resumeWaves_phases (s : State) (dev) : (State.resumeWaves s dev).phases = s.phases := (rfl)

@[simp] theorem execDbgDetach_keeps {s : State} (h : I s.phases) {c} : Res.Keeps I (execDbgDetach c s) := by
  refine serve_keeps h fun _ s h => ?_
  (repeat' split) <;> simp [h]

@[simp] theorem State.peelNow_phases (s : State) (i n) : (State.peelNow i n s).phases = s.phases := by
  induction n generalizing s with
  | zero => rfl
  | succ n ih =>
    unfold State.peelNow
    split <;> simp [ih]

/-- What `I` says of the phases holds of the state in an answer of a search for a team. -/
def Found.Keeps (I : Phases → Prop) : Found → Prop
  | .missing => True
  | .wait s | .team s _ => I s.phases

theorem State.takeEarly_keeps {s : State} (h : I s.phases) {cid c g team pos} :
    (s.takeEarly cid c g team pos).Keeps I := by
  unfold State.takeEarly
  (repeat' split) <;> simpa [Found.Keeps] using h

theorem State.findTeam_keeps {s : State} (h : I s.phases) {gk g team} : (s.findTeam gk g team).Keeps I := by
  unfold State.findTeam
  dsimp only
  (repeat' split) <;>
    first | trivial | exact h | exact State.takeEarly_keeps (by simpa using h) | simpa [Found.Keeps] using h

@[simp] theorem State.askHalt_phases (s : State) (t f) : (State.askHalt s t f).phases = s.phases := (rfl)

@[simp] theorem execDbgHalt_keeps {s : State} (h : I s.phases) {c} : Res.Keeps I (execDbgHalt c s) := by
  refine serve_keeps h fun _ s h => ?_
  extract_lets kind
  split
  · simp [h]
  · split
    · simp [h]
    · split
      · simp [h]
      · split
        · simp [h]
        · split
          · simp [h]
          · split
            · simp [h]
            · rename_i gk g _ _ _
              have hf := State.findTeam_keeps h (gk := gk) (g := g) (team := c.arg 3)
              split <;> simp_all [Found.Keeps]

@[simp] theorem execDbgStep_keeps {s : State} (h : I s.phases) {c} : Res.Keeps I (execDbgStep c s) := by
  refine serve_keeps h fun _ s h => ?_
  extract_lets kind w lane
  split
  · simp [h]
  · split
    · simp [h]
    · split
      · simp [h]
      · split
        · simp [h]
        · rename_i gk g _ _
          have hf := State.findTeam_keeps h (gk := gk) (g := g) (team := c.arg 3)
          split <;> rename_i hx <;> rw [hx] at hf
          · simp [h]
          · exact hf
          · replace hf : I _ := hf
            (repeat' split) <;> simp [hf]

theorem State.debugWrite_phases (s : State) (sel r k tm wv bs t) (h : s.debugWrite sel r k tm wv bs = some t) :
    t.phases = s.phases := by
  unfold State.debugWrite at h
  dsimp only at h
  split at h
  · obtain ⟨w, -, rfl⟩ := Option.map_eq_some_iff.1 h
    simp
  · (repeat' split at h) <;> first | cases h | obtain ⟨l, -, rfl⟩ := Option.map_eq_some_iff.1 h
    all_goals simp

@[simp] theorem State.debugRead_phases (s : State) (ctx a n) : (State.debugRead ctx a n s).1.phases = s.phases := by
  induction n generalizing s a with
  | zero => rfl
  | succ n ih =>
    unfold State.debugRead
    split
    · rfl
    · simpa [ih] using s.unitRead_phases _ _ _ _ ‹_›

@[simp] theorem State.debugPut_phases (s : State) (ctx a l) : (State.debugPut ctx a l s).1.phases = s.phases := by
  induction l generalizing s a with
  | nil => rfl
  | cons b l ih =>
    unfold State.debugPut
    split
    · rfl
    · simpa [ih] using s.unitWrite_phases _ _ _ _ _ ‹_›

@[simp] theorem debugState_keeps {s : State} (h : I s.phases) {c wr} : (debugState c wr s).Keeps I := by
  unfold debugState
  dsimp only
  split
  · simp [h]
  · split
    · simp [h]
    · refine readBuffer_keeps h fun s tb h => ?_
      split
      · simp [h]
      · refine withBuffer_keeps h ?_
        split
        · simp [h]
        · rename_i s1 bs heq
          have h1 : I s1.phases := by
            split at heq
            · exact (s.callerRead_phases _ _ _ _ heq).symm ▸ h
            · cases heq
              exact h
          clear heq
          (repeat' split) <;> try simp [h1]
          simpa [s1.debugWrite_phases _ _ _ _ _ _ _ ‹_›] using h1

@[simp] theorem execDbgReadState_keeps {s : State} (h : I s.phases) {c} : Res.Keeps I (execDbgReadState c s) :=
  serve_keeps h fun _ _ h => by simp [h]

@[simp] theorem execDbgWriteState_keeps {s : State} (h : I s.phases) {c} : Res.Keeps I (execDbgWriteState c s) := by
  refine serve_keeps h fun _ s h => ?_
  have hd := debugState_keeps h (c := c) (wr := true)
  split <;> simp_all

end Sys2Proof.Machine
end

