-- ==== Sys2Proof/Proofs/PhaseDies.lean ====
section
/-!
SUPPORT. The loss of dies, links and peers, and administration: what leaves the phases as they are (`_phases`), and what keeps what
is said of them (`_keeps`).
-/
namespace Sys2Proof.Machine
open Sys2Proof

variable {I : Phases → Prop}

@[simp] theorem State.inDoubt_phases (s : State) (dev w) : (State.inDoubt s dev w).phases = s.phases := by
  simp [State.inDoubt]

@[simp] theorem State.losePeer_phases (s : State) (dev peer) : (State.losePeer s dev peer).phases = s.phases := by
  simp [State.losePeer]

@[simp] theorem State.checkPeers_phases (s : State) : (State.checkPeers s).phases = s.phases := by simp [State.checkPeers]

@[simp] theorem State.loseImports_phases (s : State) (dev) : (State.loseImports s dev).phases = s.phases := by
  simp [State.loseImports]

@[simp] theorem State.breakWords_phases (s : State) (d) : (State.breakWords s d).phases = s.phases := by
  simp [State.breakWords]

theorem runBarmWait_keeps (i f) (h : runBarmWait i = some f) : PhaseStep I f := by
  unfold runBarmWait at h
  split at h <;> cases h
  exact fun s h => execBarmWait_keeps h

theorem State.again_phases {kind : HoldKind} {run : Instr → Option (State → Res)}
    (hr : ∀ (I : Phases → Prop) i f, run i = some f → PhaseStep I f) (s : State) (q) :
    (State.again kind run s q).phases = s.phases := by
  unfold State.again
  split
  · exact goOn_phases hr ‹_›
  · rfl

@[simp] theorem State.loseHolders_phases (s : State) (d e) : (State.loseHolders s d e).phases = s.phases := by
  simp [State.loseHolders]

@[simp] theorem State.loseGrid_phases (s : State) (k) : (State.loseGrid s k).phases = s.phases := by
  unfold State.loseGrid
  split <;> simp

@[simp] theorem State.loseCompute_phases (s : State) (d) : (State.loseCompute s d).phases = s.phases := by
  unfold State.loseCompute
  extract_lets s1 s2 s3 s4 grids s5 s6 s7 s8
  have h2 : s2.phases = s.phases := by
    refine (foldl_phases (fun s e => ?_) _ _).trans (State.modCdie_phases _ _ _ fun _ => rfl)
    split <;> simp
  have h5 : s5.phases = s4.phases := foldl_phases (fun s i => by split <;> simp) _ _
  calc _ = s8.phases := foldl_phases (State.again_phases fun _ => runPhwait_keeps) _ _
    _ = s7.phases := foldl_phases (State.again_phases fun _ => runBarmWait_keeps) _ _
    _ = s5.phases := by simp [s7, s6]
    _ = s.phases := by simp [h5, s4, s3, h2]

@[simp] theorem State.takeOver_phases (s : State) : (State.takeOver s).phases = s.phases := (rfl)

@[simp] theorem State.loseFoundation_phases (s : State) (f) : (State.loseFoundation s f).phases = s.phases := by
  unfold State.loseFoundation
  extract_lets s1 s2 dev s3 s4 s5
  have h2 : s2.phases = s.phases := foldl_phases (fun s i => by split <;> simp) _ _
  have h5 : s5.phases = s4.phases := by
    simp only [s5]
    split <;> simp
  simp [h5, s4, s3, h2]

@[simp] theorem State.declareDead_phases (s : State) (die why) : (State.declareDead s die why).phases = s.phases := by
  unfold State.declareDead
  split <;> simp

@[simp] theorem execHeartbeat_keeps {s : State} (h : I s.phases) {die} : Res.Keeps I (execHeartbeat die s) := by
  unfold execHeartbeat
  split <;> simp [h]

@[simp] theorem execHeartbeatTimeout_keeps {s : State} (h : I s.phases) {die} :
    Res.Keeps I (execHeartbeatTimeout die s) := by
  simp [execHeartbeatTimeout, h]

@[simp] theorem State.linkTo_phases (s : State) (l st) : (State.linkTo s l st).phases = s.phases := by
  simp [State.linkTo]

@[simp] theorem State.checkIsolated_phases (s : State) : (State.checkIsolated s).phases = s.phases :=
  foldl_phases (fun s f => by split <;> simp) _ _

@[simp] theorem State.failLink_phases (s : State) (l) : (State.failLink s l).phases = s.phases := by
  unfold State.failLink
  dsimp only
  (repeat' split) <;> simp

@[simp] theorem execLinkIdleSleep_keeps {s : State} (h : I s.phases) {link} : Res.Keeps I (execLinkIdleSleep link s) := by
  simp [execLinkIdleSleep, h]

@[simp] theorem execLinkWake_keeps {s : State} (h : I s.phases) {link} : Res.Keeps I (execLinkWake link s) := by
  simp [execLinkWake, h]

@[simp] theorem execLinkWakeComplete_keeps {s : State} (h : I s.phases) {link} :
    Res.Keeps I (execLinkWakeComplete link s) := by
  simp [execLinkWakeComplete, h]

@[simp] theorem execLinkSlow_keeps {s : State} (h : I s.phases) {link} : Res.Keeps I (execLinkSlow link s) := by
  simp [execLinkSlow, h]

@[simp] theorem execLinkWakeFail_keeps {s : State} (h : I s.phases) {link} : Res.Keeps I (execLinkWakeFail link s) := by
  simp [execLinkWakeFail, h]

@[simp] theorem execLinkRetryFail_keeps {s : State} (h : I s.phases) {link} : Res.Keeps I (execLinkRetryFail link s) := by
  simp [execLinkRetryFail, h]

@[simp] theorem execFlitReceive_keeps {s : State} (h : I s.phases) {link seq} :
    Res.Keeps I (execFlitReceive link seq s) := by
  simp [execFlitReceive, h]

@[simp] theorem execFlitRetry_keeps {s : State} (h : I s.phases) {link} : Res.Keeps I (execFlitRetry link s) := by
  simp [execFlitRetry, h]

@[simp] theorem State.peerAnswer_phases (s : State) (dev peer bs) : (State.peerAnswer s dev peer bs).phases = s.phases :=
  (rfl)

theorem State.peerAccess_phases {f : State → List Nat → State} (hf : ∀ s l, (f s l).phases = s.phases) (s : State)
    (dev peer va n wr op) : (s.peerAccess dev peer va n wr op f).phases = s.phases := by
  unfold State.peerAccess
  dsimp only
  (repeat' split) <;> simp [hf]

@[simp] theorem State.peerRequest_phases (s : State) (dev peer op) :
    (State.peerRequest s dev peer op).phases = s.phases := by
  unfold State.peerRequest
  dsimp only
  (repeat' split) <;> simp [State.peerAccess_phases]

@[simp] theorem execPeerRequest_keeps {s : State} (h : I s.phases) {dev peer op} :
    Res.Keeps I (execPeerRequest dev peer op s) := by
  simp [execPeerRequest, h]

@[simp] theorem State.peerResume_phases (s : State) (dev) : (State.peerResume s dev).phases = s.phases := by
  simp [State.peerResume]

@[simp] theorem execPeerTimeout_keeps {s : State} (h : I s.phases) {dev peer} :
    Res.Keeps I (execPeerTimeout dev peer s) := by
  simp [execPeerTimeout, h]

@[simp] theorem State.deliverHeld_phases (s : State) (dev port) :
    (State.deliverHeld s dev port).phases = s.phases := (rfl)

@[simp] theorem State.holderChange_phases (s : State) (dev port) :
    (State.holderChange s dev port).phases = s.phases := (rfl)

@[simp] theorem State.openBaton_phases (s : State) (dev now) : (State.openBaton s dev now).phases = s.phases := (rfl)

@[simp] theorem execHostLinkDown_keeps {s : State} (h : I s.phases) {port} : Res.Keeps I (execHostLinkDown port s) := by
  unfold execHostLinkDown
  split <;> simp [h]

@[simp] theorem execHostLinkUp_keeps {s : State} (h : I s.phases) {port} : Res.Keeps I (execHostLinkUp port s) := h

@[simp] theorem execLeasePeriodExpiry_keeps {s : State} (h : I s.phases) {dev} :
    Res.Keeps I (execLeasePeriodExpiry dev s) := by
  unfold execLeasePeriodExpiry
  dsimp only
  (repeat' split) <;> simp [h]

@[simp] theorem State.revoke_phases (s : State) (dev port on) : (State.revoke s dev port on).phases = s.phases := (rfl)

@[simp] theorem State.warmRestart_phases (s : State) (dev port) : (State.warmRestart s dev port).phases = s.phases := by
  simp [State.warmRestart]

@[simp] theorem execTakeoverWindowExpiry_keeps {s : State} (h : I s.phases) {dev} :
    Res.Keeps I (execTakeoverWindowExpiry dev s) := by
  unfold execTakeoverWindowExpiry
  dsimp only
  (repeat' split) <;> simp [h]

@[simp] theorem execCapQuery_keeps {s : State} (h : I s.phases) {c} : Res.Keeps I (execCapQuery c s) := by
  refine serve_keeps h fun _ s h => ?_
  dsimp only
  (repeat' split) <;> simp [h]

@[simp] theorem execBankRetire_keeps {s : State} (h : I s.phases) {c} : Res.Keeps I (execBankRetire c s) := by
  refine serve_keeps h fun _ s h => ?_
  (repeat' split) <;> simp [h]

@[simp] theorem execErrLogRead_keeps {s : State} (h : I s.phases) {c} : Res.Keeps I (execErrLogRead c s) :=
  serve_keeps h fun _ _ h => withBuffer_keeps h (by simpa using h)

@[simp] theorem execErrClear_keeps {s : State} (h : I s.phases) {c} : Res.Keeps I (execErrClear c s) := by
  refine serve_keeps h fun _ s h => ?_
  dsimp only
  (repeat' split) <;> simp [h]

@[simp] theorem execDieQuarantine_keeps {s : State} (h : I s.phases) {c} : Res.Keeps I (execDieQuarantine c s) := by
  refine serve_keeps h fun _ s h => ?_
  dsimp only
  (repeat' split) <;> simp [h]

@[simp] theorem execLeaseRenew_keeps {s : State} (h : I s.phases) {c} : Res.Keeps I (execLeaseRenew c s) := by
  refine serve_keeps h fun _ s h => ?_
  dsimp only
  (repeat' split) <;> simp [h]

@[simp] theorem execLeaseRelease_keeps {s : State} (h : I s.phases) {c} : Res.Keeps I (execLeaseRelease c s) :=
  serve_keeps h fun _ _ h => by simp [h]

@[simp] theorem State.wakeQueues_phases (s : State) (dev) : (State.wakeQueues s dev).phases = s.phases := by
  simp [State.wakeQueues]

@[simp] theorem execLeaseTakeover_keeps {s : State} (h : I s.phases) {c} : Res.Keeps I (execLeaseTakeover c s) := by
  refine serve_keeps h fun _ s h => ?_
  dsimp only
  (repeat' split) <;> simp [h]

@[simp] theorem State.settleHeld_phases (s : State) (dev port) : (State.settleHeld s dev port).phases = s.phases := by
  refine foldl_phases (fun s x => ?_) _ _
  (repeat' split) <;> simp

@[simp] theorem resumeWarm_keeps {s : State} (h : I s.phases) {dev} : (resumeWarm dev s).Keeps I := by
  unfold resumeWarm
  dsimp only
  split
  · exact h
  · refine ended_keeps ?_
    rw [foldl_phases fun s x => by split <;> simp]
    exact h

@[simp] theorem execResync_keeps {s : State} (h : I s.phases) {c} : Res.Keeps I (execResync c s) := by
  refine serve_keeps h fun again s h => ?_
  -- variables in place of the size and of the state at the end, which unification would otherwise evaluate
  generalize 16384 = n
  dsimp only
  split
  · exact resumeWarm_keeps h
  · split
    · exact h
    · refine withBuffer_keeps h ?_
      split
      · exact ended_keeps (by simpa using h)
      · split
        · trivial
        · generalize ht : State.settleHeld _ c.dev (hostPort c) = t
          refine resumeWarm_keeps ?_
          rw [← ht]
          split <;> simpa using h

@[simp] theorem execAttestQuote_keeps {s : State} (h : I s.phases) {c} : Res.Keeps I (execAttestQuote c s) := by
  refine serve_keeps h fun _ s h => readBuffer_keeps h fun s nonce h => ?_
  -- a variable in place of the size, which unification would otherwise count down
  generalize 16864 = n
  exact withBuffer_keeps h (by simpa using h)

@[simp] theorem State.modFw_phases (s : State) (kind f) : (State.modFw s kind f).phases = s.phases := (rfl)

@[simp] theorem execFwStage_keeps {s : State} (h : I s.phases) {c} : Res.Keeps I (execFwStage c s) := by
  refine serve_keeps h fun again s h => ?_
  split
  · exact h
  · dsimp only
    split
    · exact h
    · refine readBuffer_keeps h fun s bs h => ?_
      (repeat' split) <;> simp [h]

@[simp] theorem execFwStageWriteDone_keeps {s : State} (h : I s.phases) {c} : Res.Keeps I (execFwStageWriteDone c s) := by
  unfold execFwStageWriteDone
  dsimp only
  (repeat' split) <;> simp [h]

@[simp] theorem execFwActivate_keeps {s : State} (h : I s.phases) {c} : Res.Keeps I (execFwActivate c s) := by
  refine serve_keeps h fun _ s h => ?_
  dsimp only
  (repeat' split) <;> simp [h]

@[simp] theorem execPolicyImageFault_keeps {s : State} (h : I s.phases) : Res.Keeps I (execPolicyImageFault s) := by
  unfold execPolicyImageFault
  split <;> simp [h]

@[simp] theorem execTelemetryRead_keeps {s : State} (h : I s.phases) {c} : Res.Keeps I (execTelemetryRead c s) := by
  refine serve_keeps h fun _ s h => ?_
  dsimp only
  split
  · exact h
  · exact withBuffer_keeps h (by simpa using h)

@[simp] theorem execTelemetryWindow_keeps {s : State} (h : I s.phases) : Res.Keeps I (execTelemetryWindow s) := by
  unfold execTelemetryWindow
  dsimp only
  (repeat' split) <;> simp [h]

@[simp] theorem execPowerCapSet_keeps {s : State} (h : I s.phases) {c} : Res.Keeps I (execPowerCapSet c s) := by
  refine serve_keeps h fun _ s h => ?_
  dsimp only
  (repeat' split) <;> simp [h]

end Sys2Proof.Machine
end

