-- ==== Sys2Proof/Proofs/PhaseMaps.lean ====
section
/-!
SUPPORT. Lane operations, maps and power: what leaves the phases as they are (`_phases`), and what keeps what is said of them
(`_keeps`).
-/
namespace Sys2Proof.Machine
open Sys2Proof

variable {I : Phases → Prop}

@[simp] theorem cmpAct_keeps {s : State} (h : I s.phases) {t rel k u g sp} : (cmpAct t rel k u g s sp).Keeps I := by
  unfold cmpAct
  dsimp only
  (repeat' split) <;> simp [h]

@[simp] theorem cmpOp_keeps {s : State} (h : I s.phases) {i t rel k} : Res.Keeps I (cmpOp i t rel k s) := by
  refine issue_keeps h ?_ ?_
  · exact fun _ _ _ _ h => h
  · exact fun _ _ _ _ _ h => cmpAct_keeps h

@[simp] theorem execCvt_keeps {s : State} (h : I s.phases) {x} : Res.Keeps I (execCvt x s) := by
  refine issue_keeps h ?_ ?_
  · exact fun _ _ _ _ h => h
  · exact fun _ _ _ _ _ h => Span.lanewise_keeps h

@[simp] theorem execLxch_keeps {s : State} (h : I s.phases) {x} : Res.Keeps I (execLxch x s) := groupOp_keeps h

@[simp] theorem execLxchI_keeps {s : State} (h : I s.phases) {x} : Res.Keeps I (execLxchI x s) := groupOp_keeps h

@[simp] theorem execVote_keeps {s : State} (h : I s.phases) {x} : Res.Keeps I (execVote x s) := groupOp_keeps h

@[simp] theorem execBallot_keeps {s : State} (h : I s.phases) {x} : Res.Keeps I (execBallot x s) := groupOp_keeps h

@[simp] theorem execRedux_keeps {s : State} (h : I s.phases) {x} : Res.Keeps I (execRedux x s) := groupOp_keeps h

@[simp] theorem execScan_keeps {s : State} (h : I s.phases) {x} : Res.Keeps I (execScan x s) := groupOp_keeps h

@[simp] theorem execMatchOp_keeps {s : State} (h : I s.phases) {x} : Res.Keeps I (execMatchOp x s) := groupOp_keeps h

@[simp] theorem execAmax_keeps {s : State} (h : I s.phases) {x} : Res.Keeps I (execAmax x s) := by
  refine issue_keeps h ?_ ?_
  · exact fun _ _ _ _ h => h
  · exact fun _ _ _ _ _ h => Span.lanewise_keeps h

@[simp] theorem execQblk_keeps {s : State} (h : I s.phases) {x} : Res.Keeps I (execQblk x s) := by
  refine issueNaming_keeps h ?_ ?_
  · exact fun _ _ _ _ h => h
  · exact fun _ _ _ _ _ _ => trivial

@[simp] theorem execQunpk_keeps {s : State} (h : I s.phases) {x} : Res.Keeps I (execQunpk x s) := by
  refine peelOp_keeps h ?_
  exact fun _ _ _ _ h => h

@[simp] theorem execMovs_keeps {s : State} (h : I s.phases) {x} : Res.Keeps I (execMovs x s) := by
  refine issue_keeps h ?_ ?_
  · intro u s e p h
    split <;> exact h
  · intro u n g s sp h
    split
    · exact h
    · trivial

@[simp] theorem execShape_keeps {s : State} (h : I s.phases) {x} : Res.Keeps I (execShape x s) := by
  refine issue_keeps h ?_ ?_
  · exact fun _ _ _ _ h => h
  · intro u n g s sp h
    split
    · exact h
    · trivial

@[simp] theorem execVaReserve_keeps {s : State} (h : I s.phases) {c} : Res.Keeps I (execVaReserve c s) := by
  refine serve_keeps h fun _ s h => ?_
  dsimp only
  (repeat' split) <;> simp [h]

@[simp] theorem execVaRelease_keeps {s : State} (h : I s.phases) {c} : Res.Keeps I (execVaRelease c s) := by
  refine serve_keeps h fun _ s h => ?_
  dsimp only
  (repeat' split) <;> simp [h]

@[simp] theorem State.purgeLine_phases (s : State) (l) : (State.purgeLine s l).phases = s.phases := by
  unfold State.purgeLine
  dsimp only
  split
  · simp
  · split
    · split
      · simp
      · split <;> rename_i hx
        · simp
        · simp [State.homeFill_phases _ _ _ hx]
    · (repeat' split) <;> simp

@[simp] theorem State.purgeRange_phases (s : State) (dev asid va len) :
    (State.purgeRange s dev asid va len).1.phases = s.phases :=
  foldl_phases (fun s l => s.purgeLine_phases l) _ _

@[simp] theorem State.purged_phases (s : State) (dev asid va len) : (State.purged s dev asid va len).phases = s.phases :=
  (rfl)

theorem purging_keeps {dev asid va len : Nat} {s : State} (h : I s.phases) {k : State → Reply}
    (hk : ∀ s : State, I s.phases → (k s).Keeps I) : (purging dev asid va len s k).Keeps I := by
  unfold purging
  extract_lets r
  have hr : I r.1.phases := by simpa [r] using h
  have h1 := hk (r.1.purged dev asid va len) (by simpa using hr)
  split
  · split
    · rename_i hx
      rw [hx] at h1
      simpa using h1
    · exact h1
  · exact hr

@[simp] theorem execRangePurge_keeps {s : State} (h : I s.phases) {c} : Res.Keeps I (execRangePurge c s) := by
  refine serve_keeps h fun _ s h => ?_
  extract_lets asid
  split
  · exact h
  · exact purging_keeps h fun _ h => ended_keeps h

@[simp] theorem State.zeroGranules_phases (s : State) (dev dpa n) :
    (State.zeroGranules s dev dpa n).phases = s.phases := by
  induction n with
  | zero => rfl
  | succ n ih => exact ih

theorem State.allocPages_phases (ctx dev ps perm k va) (s : State) :
    ∀ t, State.allocPages ctx dev ps perm k va s = some t → t.phases = s.phases := by
  induction k generalizing va s with
  | zero => rintro _ ⟨⟩; rfl
  | succ k ih =>
    intro t h
    rw [State.allocPages] at h
    split at h
    · cases h
    · simpa using ih _ _ _ h

@[simp] theorem execMemAlloc_keeps {s : State} (h : I s.phases) {c} : Res.Keeps I (execMemAlloc c s) := by
  refine serve_keeps h fun _ s h => ?_
  dsimp only
  split
  · exact h
  · split
    · exact h
    · split
      · exact h
      · split
        · exact h
        · split <;> rename_i hx
          · exact h
          · have ht := State.allocPages_phases _ _ _ _ _ _ _ _ hx
            split <;> simpa [ht] using h

@[simp] theorem State.unmapRange_phases (s : State) (ctx va len) : (State.unmapRange s ctx va len).phases = s.phases := by
  simp [State.unmapRange]

@[simp] theorem execUnmap_keeps {s : State} (h : I s.phases) {c} : Res.Keeps I (execUnmap c s) := by
  refine serve_keeps h fun _ s h => ?_
  split
  · exact h
  · exact purging_keeps h fun _ h => ended_keeps (by simpa using h)

@[simp] theorem execMemFree_keeps {s : State} (h : I s.phases) {c} : Res.Keeps I (execMemFree c s) := by
  refine serve_keeps h fun _ s h => ?_
  dsimp only
  split
  · exact h
  · exact purging_keeps h fun _ h => ended_keeps (by simpa using h)

@[simp] theorem execMap_keeps {s : State} (h : I s.phases) {c} : Res.Keeps I (execMap c s) := by
  refine serve_keeps h fun _ s h => ?_
  dsimp only
  (repeat' split) <;> simp [h]

@[simp] theorem execProtect_keeps {s : State} (h : I s.phases) {c} : Res.Keeps I (execProtect c s) := by
  refine serve_keeps h fun _ s h => ?_
  dsimp only
  split
  · exact h
  · split
    · exact h
    · split
      · exact h
      · exact purging_keeps h fun _ h => h

@[simp] theorem execAliasRegister_keeps {s : State} (h : I s.phases) {c} : Res.Keeps I (execAliasRegister c s) := by
  refine serve_keeps h fun _ s h => ?_
  dsimp only
  (repeat' split) <;> simp [h]

@[simp] theorem execHostMap_keeps {s : State} (h : I s.phases) {c} : Res.Keeps I (execHostMap c s) := by
  refine serve_keeps h fun _ s h => ?_
  dsimp only
  (repeat' split) <;> simp [h]

@[simp] theorem execPeerMap_keeps {s : State} (h : I s.phases) {c} : Res.Keeps I (execPeerMap c s) := by
  refine serve_keeps h fun _ s h => ?_
  dsimp only
  (repeat' split) <;> simp [h]

@[simp] theorem execPeerUnmap_keeps {s : State} (h : I s.phases) {c} : Res.Keeps I (execPeerUnmap c s) := by
  refine serve_keeps h fun _ s h => ?_
  dsimp only
  (repeat' split) <;> simp [h]

@[simp] theorem State.readEarly_phases (s : State) : (State.readEarly s).phases = s.phases := by simp [State.readEarly]

@[simp] theorem State.logModule_phases (s : State) (detail) : (State.logModule s detail).phases = s.phases := by
  simp [State.logModule]

@[simp] theorem State.hold_phases (s : State) (why detail) : (State.hold s why detail).phases = s.phases := by
  simp [State.hold]

@[simp] theorem execThermalThrottle_keeps {s : State} (h : I s.phases) {die} :
    Res.Keeps I (execThermalThrottle die s) := by
  simp [execThermalThrottle, h]

@[simp] theorem execThermalRecover_keeps {s : State} (h : I s.phases) {die} : Res.Keeps I (execThermalRecover die s) := by
  simp [execThermalRecover, h]

@[simp] theorem execThermalShutdown_keeps {s : State} (h : I s.phases) {die} :
    Res.Keeps I (execThermalShutdown die s) := by
  simp [execThermalShutdown, h]

@[simp] theorem execInputLow_keeps {s : State} (h : I s.phases) :
    Res.Keeps I (execInputLow s) := by simp [execInputLow, h]

@[simp] theorem execUndervoltage_keeps {s : State} (h : I s.phases) : Res.Keeps I (execUndervoltage s) := by
  simp [execUndervoltage, h]

@[simp] theorem execInputHigh_keeps {s : State} (h : I s.phases) : Res.Keeps I (execInputHigh s) := by
  simp [execInputHigh, h]

@[simp] theorem execOvervoltage_keeps {s : State} (h : I s.phases) : Res.Keeps I (execOvervoltage s) := by
  simp [execOvervoltage, h]

@[simp] theorem State.allDies_phases (s : State) (f) (hf : ∀ c, (f c).phdone = c.phdone) :
    (State.allDies s f).phases = s.phases :=
  foldl_phases (fun s d => s.modCdie_phases d f hf) _ _

@[simp] theorem State.gateStep_phases (s : State) (f) : (State.gateStep s f).phases = s.phases := by simp [State.gateStep]

@[simp] theorem execPowerCapStep_keeps {s : State} (h : I s.phases) {watts} : Res.Keeps I (execPowerCapStep watts s) := by
  simp [execPowerCapStep, h]

@[simp] theorem execCapNotMet_keeps {s : State} (h : I s.phases) {watts} : Res.Keeps I (execCapNotMet watts s) := by
  simp [execCapNotMet, h]

end Sys2Proof.Machine
end

