-- ==== Sys2Proof/Proofs/PhaseStep.lean ====
section
/-!
SUPPORT. The three kinds of step that do change the phases, the instructions by their dispatch, the events that the package makes of
itself, time, and the step.
-/
namespace Sys2Proof.Machine
open Sys2Proof

/-- No die's copy of another die's PHDONE lies above it: `State.PhasesBehind` as a property of the phases alone. -/
def Behind (p : Phases) : Prop := ∀ v < 16, ∀ d < 16, (p.1.get? (16 * v + d)).getD 0 ≤ p.2 d

theorem State.phasesBehind_iff (s : State) : s.PhasesBehind ↔ Behind s.phases := Iff.rfl

/-- A PHDONE that grows leaves the copies behind it. -/
theorem behind_modCdie {s : State} (h : Behind s.phases) (die : Nat) {f : CDie → CDie}
    (hf : ∀ c, c.phdone ≤ (f c).phdone) : Behind (s.modCdie die f).phases := by
  intro v hv d hd
  refine (h v hv d hd).trans ?_
  by_cases hdie : d = die
  · subst hdie
    exact (hf (s.cdie d)).trans_eq (congrArg CDie.phdone (s.cdie_modCdie_self d f)).symm
  · exact (congrArg CDie.phdone (s.cdie_modCdie_ne f hdie)).ge

/-- A copy of the PHDONE as it stands is not above it. -/
theorem behind_set {s : State} (h : Behind s.phases) (viewer die : Nat) (hdie : die < 16) :
    Behind (phasesOf s.cdies (s.mirrors.set (16 * viewer + die) (s.cdie die).phdone)) := by
  intro v hv d hd
  by_cases hk : 16 * v + d = 16 * viewer + die
  · obtain rfl : d = die := by omega
    simp only [phasesOf, hk, Tbl.get?_set_self, Option.getD_some]
    exact le_rfl
  · simp only [phasesOf, Tbl.get?_set_ne _ _ hk]
    exact h v hv d hd

/-- With no copy there is none ahead. -/
theorem behind_nil (c : Tbl CDie) : Behind (phasesOf c []) := fun _ _ _ _ => Nat.zero_le _

@[simp] theorem execPhdoneAdvance_keeps {s : State} (h : Behind s.phases) {die} :
    Res.Keeps Behind (execPhdoneAdvance die s) := by
  unfold execPhdoneAdvance
  dsimp only
  split
  · exact behind_modCdie h die fun c => Nat.le_succ _
  · exact h

@[simp] theorem execPhdoneMirrorUpdate_keeps {s : State} (h : Behind s.phases) {viewer die} :
    Res.Keeps Behind (execPhdoneMirrorUpdate viewer die s) := by
  unfold execPhdoneMirrorUpdate
  split
  · rename_i hc
    simp only [Bool.and_eq_true, decide_eq_true_eq] at hc
    simpa using behind_set h viewer die hc.2.2
  · exact h

@[simp] theorem State.packageReset_behind (s : State) (found) : Behind (s.packageReset found).phases := behind_nil _

@[simp] theorem execPackageReset_keeps {s : State} {found} : Res.Keeps Behind (execPackageReset found s) := by
  simp [execPackageReset]

@[simp] theorem execThermalRestart_keeps {s : State} (h : Behind s.phases) {found} :
    Res.Keeps Behind (execThermalRestart found s) := by
  unfold execThermalRestart
  split <;> simp [h]

@[simp] theorem execInputRecover_keeps {s : State} (h : Behind s.phases) {found} :
    Res.Keeps Behind (execInputRecover found s) := by
  unfold execInputRecover
  split <;> simp [h]

/-- Every row of the opcode table keeps every copy of a PHDONE at or below it. -/
theorem exec_keeps {s : State} (h : Behind s.phases) (i : Instr) : Res.Keeps Behind (exec i s) := by
  cases i
  case iadd | iaddI | iaddL | isub | isubI | isubL | iaddc | ineg | iabs | imul | imulI | imulL | imulh | imulhI
      | imulhL | imad | imadw | idiv | idivI | idivL | irem | iremI | iremL | imin | iminI | iminL | imax | imaxI
      | imaxL | iclamp | and | andI | andL | or | orI | orL | xor | xorI | xorL | not | logt | shl | shlI | shlL | shr
      | shrI | shrL | sar | sarI | sarL | rol | rolI | rolL | fshl | popc | clz | ctz | brev | bfx | bfxI | bfxL | bfi
      | bysel | byselI | byselL | lea | leaI | leaL | mov | movi | movl | sel | plop | fadd | faddI | faddL | fsub
      | fsubI | fsubL | fmul | fmulI | fmulL | ffma | fmin | fminI | fminL | fmax | fmaxI | fmaxL | fcmp | fcmpI
      | fcmpL | fclass | frnd | fscale | fscaleI | fscaleL | fdiv | fsqrt | frcp | frsq | fexp2 | flog2 | fsinpi
      | fcospi | hadd2 | hmul2 | hfma2 | dot2 | dot4 | faddF64 | faddF64I | faddF64L | fsubF64 | fsubF64I | fsubF64L
      | fmulF64 | fmulF64I | fmulF64L | ffmaF64 | fminF64 | fminF64I | fminF64L | fmaxF64 | fmaxF64I | fmaxF64L
      | fcmpF64 | fcmpF64I | fcmpF64L | fclassF64 | frndF64 | fscaleF64 | fscaleF64I | fscaleF64L | fdivF64 | fsqrtF64
      | frcpF64 =>
    exact laneOp_keeps h
  case icmp | icmpI | icmpL =>
    exact cmpOp_keeps h
  all_goals simp [exec, h]

/-- Every event of a list keeps every copy of a PHDONE at or below it. -/
def PhaseSteps (l : List Event) : Prop := ∀ f ∈ l, PhaseStep Behind f

@[simp] theorem phaseSteps_nil : PhaseSteps [] := by simp [PhaseSteps]

@[simp] theorem phaseSteps_cons {f : Event} {l : List Event} :
    PhaseSteps (f :: l) ↔ PhaseStep Behind f ∧ PhaseSteps l := by simp [PhaseSteps]

@[simp] theorem phaseSteps_append {l m : List Event} :
    PhaseSteps (l ++ m) ↔ PhaseSteps l ∧ PhaseSteps m :=
  List.forall_mem_append

@[simp] theorem phaseSteps_flatMap {β : Type} {l : List β} {g : β → List Event} :
    PhaseSteps (l.flatMap g) ↔ ∀ x ∈ l, PhaseSteps (g x) := by
  simp only [PhaseSteps, List.mem_flatMap]
  exact ⟨fun h x hx f hf => h f ⟨x, hx, hf⟩, fun h f ⟨x, hx, hf⟩ => h x hx f hf⟩

@[simp] theorem phaseSteps_map {β : Type} {l : List β} {g : β → Event} :
    PhaseSteps (l.map g) ↔ ∀ x ∈ l, PhaseStep Behind (g x) :=
  List.forall_mem_map

theorem phaseSteps_when {f : Event} (h : PhaseStep Behind f) (b : Bool) : PhaseSteps (when_ b f) := by
  unfold when_
  split
  · simpa using h
  · exact phaseSteps_nil

/-- A step that answers what a function of the state gives. -/
theorem phaseStep_next {g : State → State} (h : ∀ s : State, Behind s.phases → Behind (g s).phases) :
    PhaseStep Behind fun s => .next (g s) := h

theorem State.fetchFor_keeps {s : State} (h : Behind s.phases) (f : Focus) : Behind (s.fetchFor f).phases := by
  cases f with
  | sub t w k =>
    simp only [State.fetchFor]
    cases s.ex? t w k with
    | none => exact h
    | some e =>
      simp only [Option.map_some, Option.getD_some]
      split
      · simpa using h
      · exact h
  | span i =>
    simp only [State.fetchFor]
    cases s.spans.get? i with
    | none => exact h
    | some sp =>
      simp only [Option.map_some, Option.getD_some]
      split
      · simpa using h
      · exact h

@[simp] theorem State.startFor_phases (s : State) (f : Focus) : (s.startFor f).phases = s.phases := by
  unfold State.startFor
  split
  · split <;> simp
  · rfl

theorem State.begin_keeps {s : State} (h : Behind s.phases) (f : Focus) : Behind (s.begin_ f).phases := by
  unfold State.begin_
  split
  · exact h
  · simpa using State.fetchFor_keeps h f

theorem unchosen_keeps {r : Res} (hr : Res.Keeps Behind r) : Res.Keeps Behind (unchosen r) := by
  cases r <;> exact hr

theorem runFocus_keeps (f : Focus) : PhaseStep Behind (runFocus f) := by
  intro s h
  have hb : Behind (s.begin_ f).phases := State.begin_keeps h f
  unfold runFocus
  dsimp only
  split
  · split
    · refine unchosen_keeps (exec_keeps ?_ _)
      exact hb
    · exact hb
  · exact hb

theorem retryHeld_keeps (t w k : Nat) (h : Hold) : PhaseSteps (retryHeld t w k h) := by
  unfold retryHeld
  split
  · simp
  · simp +contextual [PhaseStep]
  · simp +contextual [PhaseStep]
  · simp +contextual [PhaseStep]
  · simp +contextual [PhaseStep]
  · rw [phaseSteps_cons]
    refine ⟨fun s hs => goOn_keeps hs fun i f hf => ?_, phaseSteps_nil⟩
    cases hf
    exact fun s hs => exec_keeps hs i

theorem flightEvents_keeps (o : Owner) (l : Tbl Flight) : PhaseSteps (flightEvents o l) := by
  rw [flightEvents, phaseSteps_flatMap]
  intro p _
  split
  · simp
  · split <;> simp +contextual [PhaseStep]

theorem State.subEvents_keeps (s : State) (e : Ex) : PhaseSteps (s.subEvents e) := by
  simp only [State.subEvents, phaseSteps_append, and_assoc]
  refine ⟨?_, ?_, ?_, ?_, ?_, ?_⟩
  · exact phaseSteps_when (runFocus_keeps _) _
  · exact phaseSteps_when (fun _ h => execClauseFetch_keeps h) _
  · split
    · refine phaseSteps_when ?_ _
      split
      · exact fun _ h => execHandlerEntry_keeps h
      · exact fun _ h => execFaultRecord_keeps h
    · exact phaseSteps_nil
  · split
    · exact retryHeld_keeps _ _ _ _
    · exact phaseSteps_nil
  · exact phaseSteps_when (fun _ h => execYieldTimeout_keeps h) _
  · exact phaseSteps_when (fun _ h => execStep_keeps h) _

theorem State.waveEvents_keeps (s : State) (t : Nat) (tm : Team) (w : Nat) (wv : Wave) :
    PhaseSteps (s.waveEvents t tm w wv) := by
  rw [State.waveEvents, phaseSteps_append]
  refine ⟨flightEvents_keeps _ _, ?_⟩
  split
  · exact phaseSteps_nil
  · simp only [phaseSteps_append, phaseSteps_flatMap, phaseSteps_map, and_assoc]
    refine ⟨fun k _ => ?_, ?_, ?_, ?_⟩
    · cases s.ex? t w k.1 with
      | none => exact phaseSteps_nil
      | some e => exact s.subEvents_keeps e
    · exact phaseSteps_when (fun _ h => execDebugHaltStop_keeps h) _
    · exact phaseSteps_when (fun _ h => execUniformFrameRefill_keeps h) _
    · exact fun _ _ _ h => execFrameRefill_keeps h

theorem teamEvents_keeps (t : Nat) (tm : Team) : PhaseSteps (teamEvents t tm) := by
  simp only [teamEvents, phaseSteps_append, phaseSteps_flatMap, phaseSteps_map, and_assoc]
  refine ⟨?_, ?_, ?_, ?_, ?_⟩
  · simp +contextual [PhaseStep]
  · simp +contextual [PhaseStep]
  · simp +contextual [PhaseStep]
  · exact fun _ _ _ h => execUndoWriteComplete_keeps h
  · exact phaseSteps_when (fun _ h => execTeamSwapOut_keeps h) _

theorem State.spanEvents_keeps (s : State) (i : Nat) (sp : Span) : PhaseSteps (s.spanEvents i sp) := by
  rw [State.spanEvents, phaseSteps_append]
  refine ⟨flightEvents_keeps _ _, ?_⟩
  split
  · exact phaseSteps_when (fun _ h => execSpanRecordFetch_keeps h) _
  · rw [phaseSteps_append]
    exact ⟨phaseSteps_when (runFocus_keeps _) _, phaseSteps_when (fun _ h => execClauseFetch_keeps h) _⟩
  · simp +contextual [PhaseStep]
  · simp +contextual [PhaseStep]
  · exact phaseSteps_nil
  · exact phaseSteps_nil

theorem State.portEvents_keeps (s : State) : PhaseSteps s.portEvents := by
  simp only [State.portEvents, phaseSteps_flatMap]
  exact fun _ _ _ _ => phaseSteps_when (fun _ h => execClauseStart_keeps h) _

theorem State.placeIn_keeps (s : State) (ctx : Nat) : PhaseSteps (s.placeIn ctx) := by
  unfold State.placeIn
  dsimp only
  split <;> simp +contextual [PhaseStep]

theorem State.placements_keeps (s : State) (dev : Nat) : PhaseSteps (s.placements dev) := by
  unfold State.placements
  split
  · rename_i heq
    obtain ⟨c, -, rfl⟩ := List.mem_map.1 (List.mem_of_find?_eq_some heq)
    exact s.placeIn_keeps c
  · exact phaseSteps_nil

theorem State.slotGrants_keeps (s : State) (dev : Nat) : PhaseSteps (s.slotGrants dev) := by
  simp only [State.slotGrants, phaseSteps_map]
  exact fun _ _ _ h => execSpanSlotGrant_keeps h

theorem coreEvents_keeps (n : Nat) (c : Core) : PhaseSteps (coreEvents n c) := by
  simp only [coreEvents, phaseSteps_append, phaseSteps_flatMap, phaseSteps_map]
  refine ⟨fun p _ => ?_, fun v _ => ?_⟩
  · split <;> simp +contextual [PhaseStep]
  · split
    · exact fun _ h => execVentMove_keeps h
    · exact fun _ h => execVentStart_keeps h

theorem State.pageMove_keeps (s : State) : PhaseSteps s.pageMove := by
  intro f hf
  obtain ⟨p, -, hp⟩ := List.mem_filterMap.1 hf
  obtain ⟨t, -, rfl⟩ := Option.map_eq_some_iff.1 hp
  exact fun _ h => execHbmPageMove_keeps h

theorem State.ventEvents_keeps (s : State) : PhaseSteps s.ventEvents := by
  simp only [State.ventEvents, phaseSteps_append, phaseSteps_map]
  refine ⟨⟨fun v _ => ?_, ?_⟩, ?_⟩
  · split
    · exact fun _ h => execVentStart_keeps h
    · exact fun _ h => execL2SliceHandover_keeps h
  · exact phaseSteps_when (phaseStep_next fun _ h => by simpa using h) _
  · split
    · exact s.pageMove_keeps
    · exact phaseSteps_nil

theorem dirEvents_keeps (e : DirEntry) : PhaseSteps (dirEvents e) := by
  unfold dirEvents
  split
  · exact phaseSteps_nil
  · simp only [phaseSteps_append, phaseSteps_flatMap]
    refine ⟨fun h _ => ?_, by simp +contextual [PhaseStep]⟩
    split <;> simp +contextual [PhaseStep]

theorem State.phaseEvents_keeps (s : State) : PhaseSteps s.phaseEvents := by
  simp only [State.phaseEvents, phaseSteps_flatMap, phaseSteps_append, phaseSteps_map]
  exact fun _ _ => ⟨phaseSteps_when (fun _ h => execPhdoneAdvance_keeps h) _,
    fun _ _ _ h => execPhdoneMirrorUpdate_keeps h⟩

theorem linkEvents_keeps (n : Nat) (k : Link) : PhaseSteps (linkEvents n k) := by
  unfold linkEvents
  split <;> simp +contextual [PhaseStep]

theorem State.beats_keeps (s : State) : PhaseSteps s.beats := by
  simp only [State.beats, phaseSteps_append, phaseSteps_flatMap]
  exact ⟨fun _ _ => phaseSteps_when (fun _ h => execHeartbeat_keeps h) _,
    fun _ _ => phaseSteps_when (fun _ h => execHeartbeat_keeps h) _⟩

theorem State.queueEvents_keeps (s : State) (k : Nat) (q : Queue) : PhaseSteps (s.queueEvents k q) := by
  simp only [State.queueEvents, phaseSteps_append, phaseSteps_map]
  refine ⟨⟨?_, ?_⟩, fun _ _ _ h => execWaitcntRelease_keeps h⟩
  · split
    · exact phaseSteps_when (fun _ h => execTransferAccept_keeps h) _
    · split
      · exact phaseSteps_nil
      · simp +contextual [PhaseStep]
      · repeat' split
        all_goals simp +contextual [PhaseStep]
  · exact phaseSteps_when (phaseStep_next fun _ h => by simpa using h) _

theorem engineEvents_keeps (n : Nat) (l : Tbl Xfer) : PhaseSteps (engineEvents n l) := by
  rw [engineEvents, phaseSteps_flatMap]
  intro x _
  split <;> simp +contextual [PhaseStep]

theorem State.gridEvents_keeps (s : State) (k : Nat) (g : Grid) : PhaseSteps (s.gridEvents k g) :=
  phaseSteps_append.2 ⟨phaseSteps_when (fun _ h => execGridComplete_keeps h) _,
    phaseSteps_when (fun _ h => execRelayRotation_keeps h) _⟩

theorem State.ctxEvents_keeps (s : State) (k : Nat) (c : Ctx) : PhaseSteps (s.ctxEvents k c) := by
  unfold State.ctxEvents
  split
  · exact phaseSteps_nil
  · split <;> simp +contextual [PhaseStep]

theorem callEvent_keeps (k : Nat × Call) : PhaseSteps (callEvent k) := by
  unfold callEvent
  split
  all_goals simp +contextual [PhaseStep]

theorem devEvents_keeps (d : Nat) (v : Dev) : PhaseSteps (devEvents d v) := by
  simp only [devEvents, phaseSteps_append, phaseSteps_flatMap, and_assoc]
  refine ⟨?_, fun k _ => callEvent_keeps k, ?_, ?_, ?_⟩
  · split
    · rw [phaseSteps_append]
      exact ⟨callEvent_keeps _, phaseSteps_when (phaseStep_next fun _ h => by simpa using h) _⟩
    · exact phaseSteps_nil
  · exact phaseSteps_when (phaseStep_next fun _ h => by simpa using h) _
  · exact phaseSteps_when (phaseStep_next fun _ h => by simpa using h) _
  · simp +contextual [PhaseStep]

theorem State.packageEvents_keeps (s : State) : PhaseSteps s.packageEvents := by
  simp only [State.packageEvents, phaseSteps_append, phaseSteps_map]
  exact ⟨⟨fun _ _ _ h => execErrLogWindowClose_keeps h, fun _ _ _ h => execFwStageWriteDone_keeps h⟩,
    by simp +contextual [PhaseStep]⟩

theorem State.events_keeps (s : State) : PhaseSteps s.events := by
  simp only [State.events, phaseSteps_append, phaseSteps_flatMap, and_assoc]
  refine ⟨fun p _ => ⟨fun w _ => s.waveEvents_keeps _ _ _ _, ?_⟩, fun p _ => s.spanEvents_keeps _ _, s.portEvents_keeps,
    fun d _ => ⟨s.placements_keeps d, s.slotGrants_keeps d⟩, fun c _ => coreEvents_keeps _ _, s.ventEvents_keeps,
    fun e _ => dirEvents_keeps e, s.phaseEvents_keeps, fun k _ => linkEvents_keeps _ _, fun q _ => s.queueEvents_keeps _ _,
    fun e _ => engineEvents_keeps _ _, fun g _ => s.gridEvents_keeps _ _, fun c _ => s.ctxEvents_keeps _ _,
    fun d _ => devEvents_keeps _ _, s.packageEvents_keeps⟩
  split
  · exact teamEvents_keeps _ _
  · exact phaseSteps_nil

theorem State.pick_keeps {s : State} (h : Behind s.phases) {l : List Event} (hl : PhaseSteps l) :
    Res.Keeps Behind (s.pick l) := by
  unfold State.pick
  split
  · exact hl _ (List.mem_of_getElem? ‹_›) s h
  · exact h

theorem State.auto_keeps {s : State} (h : Behind s.phases) : Res.Keeps Behind s.auto := by
  have hb := s.beats_keeps
  unfold State.auto
  split <;> rename_i heq
  · rw [heq, phaseSteps_cons] at hb
    exact hb.1 s h
  · exact State.pick_keeps h s.events_keeps

theorem SubWave.limits_keeps (q : SubWave) (t w k : Nat) : PhaseSteps (q.limits t w k) := by
  rw [SubWave.limits, phaseSteps_append]
  refine ⟨?_, phaseSteps_when (fun _ h => execYieldTimeout_keeps h) _⟩
  split <;> simp +contextual [PhaseStep]

theorem State.limits_keeps (s : State) : PhaseSteps s.limits := by
  simp only [State.limits, phaseSteps_append, phaseSteps_flatMap, phaseSteps_map, and_assoc]
  refine ⟨fun p _ w _ k _ => k.2.limits_keeps _ _ _, fun p _ => ?_, fun c _ => ?_, fun l _ => ?_, ?_, ?_, fun d _ => ?_⟩
  · split <;> simp +contextual [PhaseStep]
  · exact ⟨phaseSteps_when (fun _ h => execPreemptDrainDeadline_keeps h) _,
      phaseSteps_when (fun _ h => execPreemptSwapDeadline_keeps h) _⟩
  · split <;> simp +contextual [PhaseStep]
  · exact fun _ _ _ h => execErrLogWindowClose_keeps h
  · simp +contextual [PhaseStep]
  · exact ⟨by simp +contextual [PhaseStep], phaseSteps_when (fun _ h => execLeasePeriodExpiry_keeps h) _,
      phaseSteps_when (fun _ h => execTakeoverWindowExpiry_keeps h) _⟩

theorem State.made_keeps {s : State} (h : Behind s.phases) {f : Event} (hf : PhaseStep Behind f) :
    Behind (s.made f).phases := by
  have h1 := hf s h
  unfold State.made
  split <;> rename_i heq
  · rwa [heq] at h1
  · exact h

@[simp] theorem State.pass_phases (s : State) : s.pass.phases = s.phases := by
  simp [State.pass]

theorem State.tick_keeps {s : State} (h : Behind s.phases) : Behind s.tick.phases := by
  refine List.foldlRecOn (motive := fun s : State => Behind s.phases) _ _ ?_
    fun s h f hf => State.made_keeps h (State.limits_keeps _ f hf)
  simpa using h

theorem ticked_keeps {r : Res} (hr : Res.Keeps Behind r) : Res.Keeps Behind (ticked r) := by
  cases r with
  | next s => exact State.tick_keeps hr
  | fault f => trivial
  | refused f => trivial

theorem State.advance_keeps {s : State} (h : Behind s.phases) : Res.Keeps Behind s.advance := by
  unfold State.advance
  split
  · split
    · exact h
    · refine exec_keeps ?_ _
      exact h
  · split
    · exact h
    · split
      · exact runFocus_keeps _ s h
      · exact State.auto_keeps h

/-- A step of the package keeps every copy of a PHDONE at or below it. -/
theorem step_keeps {s : State} (h : Behind s.phases) : Res.Keeps Behind (step s) := ticked_keeps (State.advance_keeps h)

/-- Settles O8: a PHDONE only grows (PHDONE_ADVANCE), a copy takes the PHDONE as it stands (PHDONE_MIRROR_UPDATE), a
package reset leaves no copy, and nothing else touches the two. -/
theorem phaseCopies : Obligations.PhaseCopies := by
  intro s s' h hs
  rw [State.phasesBehind_iff] at h ⊢
  have h1 := step_keeps h
  rwa [hs] at h1

end Sys2Proof.Machine
end

