-- ==== Sys2Proof/Proofs/Preemption.lean ====
section
/-!
SUPPORT. The events of accounting, preemption, trap delivery and debugging (R359, R361, R362, R364, R386, R388, R401, R402).
-/
namespace Sys2Proof.Machine
open Sys2Proof

/-- Settles O52: each event takes the branch that its premises name. The record that a preemption ends with is log 51, a
deadline missed on the die of any resident team and a drain end that also ends a swap are log 52, the relay quantum counted
from the last rotation is log 55. -/
theorem preemptionAndTrapEvents : Obligations.PreemptionAndTrapEvents := by
  refine ⟨?_, ?_, ?_, ?_, ?_, ?_, ?_, ?_, ?_, ?_, ?_⟩
  · rintro dev s ⟨hdev, hround⟩
    have hdue : ¬ s.devTime dev < (s.dev dev).roundStart + 1024 := Nat.not_lt.mpr hround
    have hknown : ¬ s.devCount ≤ dev := Nat.not_le.mpr hdev
    simp only [exec, execAccountingRound, hdue, hknown, decide_false, Bool.or_self, Bool.false_eq_true, if_false]
  · rintro grid g s ⟨hgrid, hrotates, hplacing⟩
    simp only [exec, execRelayRotation, hgrid, hrotates, hplacing, Bool.not_true, Bool.or_self, Bool.false_eq_true, if_false] <;> rfl
  · rintro team tm s ⟨hteam, hstopping⟩
    simp only [exec, execTeamSwapOut, hteam, hstopping, if_true]
  · rintro ctx c p s ⟨hctx, hpreempt, hresident⟩
    simp only [exec, execPreemptDrainEnd, hctx, hpreempt, hresident, Option.bind_some, List.isEmpty_nil, if_true]
  · rintro ctx swap c ends s ⟨hctx, hpreempt, hpassed⟩
    simp only [exec, execPreemptDrainDeadline, hctx, hpreempt, hpassed, Option.bind_some, if_true]
  · rintro ctx c ends s ⟨hctx, hpreempt, hpassed⟩
    simp only [exec, execPreemptSwapDeadline, hctx, hpreempt, hpassed, Option.bind_some, if_true]
  · rintro t w k e s ⟨hex, hhandler, hturn⟩
    simp only [exec, execHandlerEntry, hex, hhandler, hturn, Bool.and_self, if_true]
  · rintro t w k e s ⟨hex, hhandler⟩
    simp only [exec, execFaultRecord, hex, hhandler, Bool.false_eq_true, if_false]
  · rintro t w wv s ⟨hwave, hasked, hstopped, hpending⟩
    simp only [exec, execDebugHaltStop, hwave, hasked, hstopped, hpending, List.isEmpty_nil, Bool.and_self, if_true]
  · rintro t w k e s ⟨hex, hlanes, hstepping, hpark⟩
    simp only [exec, execStep, hex, hlanes, hstepping, hpark, bne_self_eq_false, Option.isNone_none, decide_true,
      Bool.false_and, Bool.and_self, Bool.false_eq_true, if_false, if_true]
  · rintro t w k e s ⟨hex, hlanes, hhold, hpark⟩
    have hnamed : (e.sub.stepLanes != 0) = true := bne_iff_ne.mpr hlanes
    simp only [exec, execStep, hex, hnamed, hhold, hpark, Option.isNone_none, Bool.and_self, if_true]

end Sys2Proof.Machine
end

