-- ==== Sys2Proof/Proofs/QueueCommands.lean ====
section
/-!
SUPPORT. The commands of the queues and the transfers of the engines (R345, R347, R348, R377 to R380).
-/
namespace Sys2Proof.Machine
open Sys2Proof

/-- A command that is next, legal and of the code asked for is carried out from the state in which it was read (R345). -/
theorem State.runCmd_of_next {s t : State} {queue op : Nat} {q : Queue} {c : Command} (f : State → Queue → Command → State)
    (hnext : s.nextCmd queue = some (q, .ok (t, c))) (hop : c.op = op) (herr : c.err = 0) :
    s.runCmd queue op f = f t q c := by
  simp [State.runCmd, hnext, hop, herr]

/-- A transfer without a completion counter waits for none, and one with a counter does not wait for a free one (R379). -/
theorem counterWaits_false {s : State} {ctx counter : Nat} (h : counter = 0 ∨ s.unitBusy ctx counter true = false) :
    (counter != 0 && s.unitBusy ctx counter true) = false := by
  rcases h with h | h <;> simp [h]

/-- Settles O57: each event takes the branch that its premises name. The ERR codes of a descriptor are log 50, that of a command
that breaks several limits is log 95, the doorbell of a queue is log 64. -/
theorem queueEvents : Obligations.QueueEvents := by
  refine ⟨?_, ?_, ?_, ?_, ?_, ?_, ?_, ?_, ?_, ?_, ?_, ?_, ?_, ?_, ?_, ?_, ?_⟩
  · exact fun queue tail s => rfl
  · rintro queue q t c t2 t3 ws g s ⟨hnext, hop, herr, hread, hwrite, hwords, hcheck⟩
    simp only [exec, execQueueLaunch, State.runCmd_of_next _ hnext hop herr, hread, hwrite, hwords, hcheck, Bool.or_self,
      Bool.false_eq_true, if_false]
  · rintro queue q t c t2 t3 ws code s ⟨hnext, hop, herr, hread, hwrite, hwords, hcheck⟩
    simp only [exec, execQueueLaunch, State.runCmd_of_next _ hnext hop herr, hread, hwrite, hwords, hcheck, Bool.or_self,
      Bool.false_eq_true, if_false]
  · rintro queue q t c t2 v s ⟨hnext, hop, herr, hfree, hcounter, hreached⟩
    simp only [exec, execWaitcnt, State.runCmd_of_next _ hnext hop herr, hfree, hcounter, hreached, Bool.false_eq_true,
      if_false, if_true]
  · rintro queue q t c t2 v s ⟨hnext, hop, herr, hfree, hcounter, hbelow⟩
    simp only [exec, execWaitcnt, State.runCmd_of_next _ hnext hop herr, hfree, hcounter, Nat.not_le.mpr hbelow,
      Bool.false_eq_true, if_false]
  · rintro queue index q c t v s ⟨hqueue, hlive, hfree, hcounter, hreached⟩
    simp only [exec, execWaitcntRelease, hqueue, hlive, hfree, hcounter, hreached, Option.bind_some, Option.map_some,
      Bool.false_eq_true, if_false, if_true]
  · rintro queue index q c x s ⟨hqueue, hlive, hfree, hcounter⟩
    simp only [exec, execWaitcntRelease, hqueue, hlive, hfree, hcounter, Option.bind_some, Option.map_some,
      Bool.false_eq_true, if_false]
  · rintro queue q t c t2 s ⟨hnext, hop, herr, hfree, hbump⟩
    simp only [exec, execSignal, State.runCmd_of_next _ hnext hop herr, hfree, hbump, Bool.false_eq_true, if_false]
  · rintro queue q t c s ⟨hnext, hop, herr⟩
    simp only [exec, execQueueNop, State.runCmd_of_next _ hnext hop herr]
  · intro queue q code s hnext
    simp only [exec, execQueueCommandFenced, hnext]
  · rintro queue q t c s ⟨hnext, herr⟩
    simp only [exec, execQueueCommandFenced, hnext, herr, if_false]
  · rintro queue n q t u ws d s ⟨hqueue, hxfer, hring, hservice, hfree, hwords, hdesc, haccept⟩
    simp only [exec, execTransferAccept, hqueue, hxfer, hring, hservice, hfree, hwords, hdesc, haccept, ne_eq, not_true,
      decide_false, Bool.not_true, Bool.or_self, Bool.false_eq_true, if_false]
  · rintro queue n q t ws s ⟨hqueue, hxfer, hring, hservice, hfree, hwords, hdesc⟩
    simp only [exec, execTransferAccept, hqueue, hxfer, hring, hservice, hfree, hwords, hdesc, ne_eq, not_true,
      decide_false, Bool.not_true, Bool.or_self, Bool.false_eq_true, if_false]
  · rintro engine slot x t v s ⟨hruns, hleft, hmove⟩
    simp only [exec, execTransferBurst, hruns, Nat.not_le.mpr hleft, hmove, if_false]
  · rintro engine slot x t s ⟨hruns, hwritten, howes, hcounter, hadd⟩
    simp only [exec, execTransferComplete, hruns, Nat.not_lt.mpr hwritten, howes, counterWaits_false hcounter, hadd,
      decide_false, Bool.or_self, Bool.false_eq_true, if_false]
  · rintro engine slot x t f s ⟨hruns, hleft, hmove⟩
    simp only [exec, execTransferFault, hruns, hleft, hmove, if_true]
  · rintro engine slot x f s ⟨hruns, hwritten, hadd⟩
    simp only [exec, execTransferFault, hruns, Nat.not_lt.mpr hwritten, hadd, if_false]

end Sys2Proof.Machine
end

