-- ==== Sys2Proof/Proofs/FaultRecords.lean ====
section
/-!
SUPPORT. The host record of a parked sub-wave (R388): what a new record leaves as it was, and where a trap that is not for the
handler goes.
-/
namespace Sys2Proof.Machine
open Sys2Proof

/-! ## A new record -/

/-- A change of a device that keeps a field of it keeps that field of every device. -/
theorem State.dev_modDev_keeps {α : Type} (field : Dev → α) {f : Dev → Dev} (s : State) (d i : Nat)
    (hf : ∀ v, field (f v) = field v) : field ((s.modDev d f).dev i) = field (s.dev i) := by
  unfold State.dev State.modDev
  by_cases hi : i = d
  · subst hi
    rw [listModify_self]
    cases s.devs[i]? with
    | none => rfl
    | some v => exact hf v
  · rw [listModify_ne _ _ hi]

theorem State.dev_modDev_self {s : State} {d : Nat} (h : d < s.devs.length) (f : Dev → Dev) :
    (s.modDev d f).dev d = f (s.dev d) := by
  simp [State.dev, State.modDev, List.getElem?_eq_getElem h]

@[simp] theorem State.raiseMsix_teams (s : State) (d vf vector : Nat) : (s.raiseMsix d vf vector).teams = s.teams := by
  unfold State.raiseMsix
  split <;> rfl

/-- A message changes no record store (R428). -/
@[simp] theorem State.raiseMsix_records (s : State) (d vf vector i : Nat) :
    ((s.raiseMsix d vf vector).dev i).records = (s.dev i).records := by
  unfold State.raiseMsix
  split
  · rfl
  all_goals exact State.dev_modDev_keeps Dev.records s d i fun _ => rfl

/-- A record takes the number after the last one (R388). -/
theorem State.addRecord_snd (s : State) (r : FaultRec) : (s.addRecord r).2 = (s.dev r.dev).recSeq + 1 := by
  unfold State.addRecord
  dsimp only
  split <;> rfl

@[simp] theorem State.addRecord_teams (s : State) (r : FaultRec) : (s.addRecord r).1.teams = s.teams := by
  unfold State.addRecord
  dsimp only
  split
  · rfl
  · exact State.raiseMsix_teams _ _ _ _

/-- A record of a device of the package stands in that device's store under its number (R388). -/
theorem State.addRecord_stored {s : State} {r : FaultRec} (h : r.dev < s.devs.length) :
    ((s.addRecord r).1.dev r.dev).records.get? ((s.dev r.dev).recSeq + 1) = some r := by
  unfold State.addRecord
  dsimp only
  split
  · rw [State.dev_modDev_self h, Tbl.get?_set_self]
  · rw [State.raiseMsix_records, State.dev_modDev_self h, Tbl.get?_set_self]

/-! ## Delivery to the host -/

/-- A pending trap that is not for the handler takes a record where the store has room, and else stays as it is (R388). -/
theorem State.deliverTrap_toHost {s : State} {t w k : Nat} {e : Ex} {p : Park} {g : Grid} {c : Ctx}
    (hex : s.ex? t w k = some e) (hpark : e.sub.park = some p) (hstage : p.stage = .pending)
    (hgrid : s.grids.get? e.team.grid = some g) (hctx : s.ctxs.get? e.team.ctx = some c)
    (hroute : parkToHandler g.trapBase p = false) :
    s.deliverTrap t w k =
      if s.recRoom c.dev then
        (s.addRecord (parkRecord c.dev e.team t w k e.sub p g.num)).1.modSub t w k fun sub =>
          { sub with park := some { p with stage := .recorded ((s.dev c.dev).recSeq + 1) } }
      else s := by
  simp only [State.deliverTrap, hex, hpark, hstage, hgrid, hctx, hroute, State.addRecord_snd, Option.map_some, Option.getD_some,
    ne_eq, not_true, Bool.false_eq_true, if_false]
  rfl

/-- Settles O44: a trap that is not for the handler makes the record of its sub-wave, which is stored under the next number. -/
theorem hostRecord : Obligations.HostRecord := by
  refine ⟨?_, ?_⟩
  · intro s t w k e p g c hex hpark hstage hgrid hctx hdev hroute hroom
    exact ⟨_, _, (State.deliverTrap_toHost hex hpark hstage hgrid hctx hroute).trans (if_pos hroom),
      State.addRecord_stored (r := parkRecord c.dev e.team t w k e.sub p g.num) hdev, State.addRecord_teams _ _,
      State.addRecord_mem _ _, rfl, rfl, rfl, rfl, rfl, rfl, rfl, rfl, rfl, rfl, rfl, rfl⟩
  · intro s t w k e p g c hex hpark hstage hgrid hctx hroute hfull
    exact (State.deliverTrap_toHost hex hpark hstage hgrid hctx hroute).trans (if_neg (Bool.eq_false_iff.mp hfull))

end Sys2Proof.Machine
end

