-- ==== Sys2Proof/Proofs/CallLaws.lean ====
section
/-!
SUPPORT. From a service call's own part to what the call answers (R423): the checks before it and the completion after it, once.
-/
namespace Sys2Proof.Machine
open Sys2Proof

/-- A call whose own part completes with OK. -/
theorem callLaw_of_done {i : Instr} {c : Call} {code argc : Nat} {body : Bool → State → Reply} {ok : State → Prop}
    {after : State → State} {res : State → List Nat} (run : Event) (hexec : ∀ s, exec i s = run s)
    (hserve : ∀ s, run s = serve code argc c body s) (hbody : ∀ s, ok s → body false s = .done (after s) stOk (res s)) :
    CallLaw i c code argc ok after res :=
  fun s hserves hok hfree => ((hexec s).trans (hserve s)).trans (serve_done hserves (hbody s hok) hfree)

/-- A call whose own part waits. -/
theorem callWaits_of_wait {i : Instr} {c : Call} {code argc : Nat} {body : Bool → State → Reply} {ok : State → Prop}
    {after : State → State} (run : Event) (hexec : ∀ s, exec i s = run s) (hserve : ∀ s, run s = serve code argc c body s)
    (hbody : ∀ s, ok s → body false s = .wait (after s)) : CallWaits i c code argc ok after :=
  fun s hserves hok => ((hexec s).trans (hserve s)).trans (serve_wait hserves (hbody s hok))

end Sys2Proof.Machine
end

