-- ==== Sys2Proof/Proofs/DebugCalls.lean ====
section
/-!
SUPPORT. The service calls on fault records and of the debugger (R388, R389, R401, R402, R440).
-/
namespace Sys2Proof.Machine
open Sys2Proof

/-! ## State of a halted wave -/

/-- What a read or write of registers asks of its arguments, its target record and its buffer (R440). -/
structure DebugTarget (c : Call) (wr : Bool) (s u : State) (tb : List Byte) : Prop where
  handle : s.handleErr c = none
  sel : c.arg 1 < 2
  free : s.callerBusy c.caller (c.arg 2) 32 false = false
  target : State.callerRead c.caller (c.arg 2) 32 s = .ok (u, tb)
  size : debugSize (c.arg 1) (target1 tb).cls (c.arg 4) ≤ c.arg 4
  cls : (target1 tb).cls ≤ 8
  fault : u.callerFault c.caller (!wr) (c.arg 3) (debugSize (c.arg 1) (target1 tb).cls (c.arg 4)) = none
  buffer : u.callerBusy c.caller (c.arg 3) (debugSize (c.arg 1) (target1 tb).cls (c.arg 4)) (!wr) = false

/-- The target record names the halted wave `wv` of the team `tm`. -/
structure DebugWave (c : Call) (tb : List Byte) (u : State) (t : Nat) (tm : Team) (wv : Wave) : Prop where
  team : ((u.gridNamed c.ctx (target1 tb).grid).bind fun g =>
    u.teams.find? fun p => p.2.grid == g.1 && p.2.index == (target1 tb).team) = some (t, tm)
  wave : tm.waves.get? (target1 tb).wave = some wv
  ok : (target1 tb).ok (c.arg 1) tm = true
  halted : wv.halted = true

/-- A read or write of a halted wave's registers, its data taken from the buffer: a write gives what it writes, a read fills the
buffer (R440). -/
theorem debugState_of_target {c : Call} {wr : Bool} {s u u' v : State} {tb bs : List Byte} {t : Nat} {tm : Team} {wv : Wave}
    (h : DebugTarget c wr s u tb)
    (hdata : (if wr then State.callerRead c.caller (c.arg 3) (debugSize (c.arg 1) (target1 tb).cls (c.arg 4)) u
      else .ok (u, [])) = .ok (u', bs))
    (hw : DebugWave c tb u' t tm wv)
    (hdone : if wr then u'.debugWrite (c.arg 1) (target1 tb) t tm wv bs = some v
      else u'.callerWrite c.caller (c.arg 3) (u'.debugBytes (c.arg 1) (target1 tb) t tm wv) = v) :
    debugState c wr s = .done v stOk [debugSize (c.arg 1) (target1 tb).cls (c.arg 4)] := by
  obtain ⟨hhandle, hsel, hfree, htarget, hsize, hcls, hfault, hbuffer⟩ := h
  obtain ⟨hteam, hwave, hnames, hhalted⟩ := hw
  have hsmall : ¬ 3 < c.arg 1 := by omega
  have hne2 : c.arg 1 ≠ 2 := by omega
  have hne3 : c.arg 1 ≠ 3 := by omega
  simp only [debugState, hhandle, hsmall, hne2, hne3, readBuffer_ok _ hfree htarget, Nat.not_lt.mpr hsize, Nat.not_lt.mpr hcls,
    Nat.not_le.mpr hsel, decide_false, Bool.or_self, Bool.false_and, Bool.and_false, Bool.false_eq_true, if_false]
  rw [withBuffer_ok _ hfault hbuffer]
  simp only [hdata, hteam, hwave, hnames, hhalted, Bool.not_true, Bool.false_eq_true, if_false]
  cases wr with
  | false => exact congrArg (Reply.done · stOk _) hdone
  | true =>
    have hwrite : u'.debugWrite (c.arg 1) (target1 tb) t tm wv bs = some v := hdone
    simp only [hwrite, if_true]

/-- DBG_STEP does not refuse a wave of which some sub-wave is not parked (R402). -/
theorem subs_of_unparked {l : Tbl SubWave} (h : ∃ k ∈ l, k.2.park.isSome = false) :
    l.isEmpty = false ∧ (l.all fun k => k.2.park.isSome) = false := by
  obtain ⟨k, hk, hpark⟩ := h
  exact ⟨List.isEmpty_eq_false_iff_exists_mem.mpr ⟨k, hk⟩, List.all_eq_false.mpr ⟨k, hk, by simp [hpark]⟩⟩

/-- Settles O48: each call passes its checks, in their order, and completes. A step of a wave steps every sub-wave that is not
parked (log 69). -/
theorem faultAndDebugCalls : Obligations.FaultAndDebugCalls := by
  refine ⟨fun c => ?_, fun c r t => ?_, fun c r => ?_, fun c => ?_, fun c => ?_, fun c gk g => ?_, fun c gk g u t => ?_,
    fun c gk g u t wv => ?_, fun c u tb t tm wv => ?_, fun c u u' v tb bs t tm wv => ?_, fun c => ?_⟩
  · refine callLaw_of_done (execFaultFetch c) (fun _ => rfl) (fun _ => rfl) ?_
    rintro s ⟨hfault, hfree⟩
    exact withBuffer_ok _ hfault hfree
  · refine callLaw_of_done (execFaultResolve c) (fun _ => rfl) (fun _ => rfl) ?_
    rintro s ⟨hrecord, haction, hname, hresolve⟩
    simp only [hrecord, Nat.not_lt.mpr haction, hname, hresolve, ended, Bool.not_true, Bool.false_eq_true, if_false]
  · refine callLaw_of_done (execFaultAbort c) (fun _ => rfl) (fun _ => rfl) ?_
    rintro s ⟨hrecord, hname, hgrid, hlive⟩
    simp only [hrecord, hname, hgrid, hlive, ended, Bool.not_true, Bool.false_eq_true, if_false]
  · refine callLaw_of_done (execDbgAttach c) (fun _ => rfl) (fun _ => rfl) ?_
    intro s hnone
    simp only [hnone, Option.isSome_none, Bool.false_eq_true, if_false]
  · refine callLaw_of_done (execDbgHalt c) (fun _ => rfl) (fun _ => rfl) ?_
    rintro s ⟨hhandle, hkind, hgrid, hteam, hwave⟩
    simp [hhandle, hkind, hgrid, hteam, hwave, ended]
  · refine callLaw_of_done (execDbgHalt c) (fun _ => rfl) (fun _ => rfl) ?_
    rintro s ⟨hhandle, hkind, hteam, hwave, hgrid⟩
    simp [hhandle, hkind, hteam, hwave, hgrid, ended]
  · refine callLaw_of_done (execDbgHalt c) (fun _ => rfl) (fun _ => rfl) ?_
    rintro s ⟨hhandle, ⟨hkind, hwave⟩ | hkind, hgrid, hteam, hitem, hfound⟩
    · have hwaves : g.waveCount ≠ 0 := by omega
      simp [hhandle, hkind, hwave, hgrid, Nat.not_le.mpr hteam, hwaves, hfound, ended]
    · simp [hhandle, hkind, hgrid, Nat.not_le.mpr hteam, Nat.not_le.mpr hitem, hfound, ended]
  · refine callLaw_of_done (execDbgStep c) (fun _ => rfl) (fun _ => rfl) ?_
    rintro s ⟨hhandle, hkind, hgrid, hteam, hwave, hfound, hwv, hunparked⟩
    obtain ⟨hsome, hrun⟩ := subs_of_unparked hunparked
    simp [hhandle, hkind, hgrid, Nat.not_le.mpr hteam, Nat.not_le.mpr hwave, hfound, hwv, hsome, hrun, ended]
  · refine callLaw_of_done (execDbgReadState c) (fun _ => rfl) (fun _ => rfl) ?_
    rintro s ⟨hhandle, hsel, hfree, htarget, hsize, hcls, hfault, hbuffer, hteam, hwave, hnames, hhalted⟩
    exact debugState_of_target ⟨hhandle, hsel, hfree, htarget, hsize, hcls, hfault, hbuffer⟩ rfl
      ⟨hteam, hwave, hnames, hhalted⟩ rfl
  · refine callLaw_of_done (execDbgWriteState c) (fun _ => rfl) (fun _ => rfl) ?_
    rintro s ⟨hhandle, hsel, hfree, htarget, hsize, hcls, hfault, hbuffer, hread, hteam, hwave, hnames, hhalted, hwrite⟩
    have hdone := debugState_of_target (wr := true) ⟨hhandle, hsel, hfree, htarget, hsize, hcls, hfault, hbuffer⟩ hread
      ⟨hteam, hwave, hnames, hhalted⟩ hwrite
    simp only [hdone, stOk, ended]
  · refine callLaw_of_done (execDbgDetach c) (fun _ => rfl) (fun _ => rfl) ?_
    intro s hhandle
    simp only [hhandle, ended]

end Sys2Proof.Machine
end

