-- ==== Sys2Proof/Proofs/AdminCalls.lean ====
section
/-!
SUPPORT. The service calls on the device itself (R397, R411, R426, R430, R433, R435, R436, R438, R439, R441, R455).
-/
namespace Sys2Proof.Machine
open Sys2Proof

/-- The firmware kinds of Table 15.8. -/
theorem kind_known {n : Nat} (h : n = 1 ∨ n = 2) : (decide (n ≠ 1) && decide (n ≠ 2)) = false := by
  rcases h with rfl | rfl <;> rfl

/-- The selectors of Table 15.12. -/
theorem selector_known {n : Nat} (h : n < 4 ∨ 128 ≤ n ∧ n < 132) : (decide (n < 4) || decide (128 ≤ n ∧ n < 132)) = true := by
  simpa using h

/-- Settles O49: each call passes its checks, in their order, and completes or waits. The die codes of DIE_QUARANTINE are log 70,
the next number from an empty log is log 75, the queues that wake at a takeover of a baton that is GONE are log 104, a renewal
on the tick at which the baton would lapse is log 107. -/
theorem adminCalls : Obligations.AdminCalls := by
  refine ⟨fun c => ?_, fun c b => ?_, fun c => ?_, fun c => ?_, fun c => ?_, fun c => ?_, fun c => ?_, fun c => ?_, fun c => ?_,
    fun c => ?_, fun c t nonce => ?_, fun c t bs => ?_, fun c n i => ?_, fun c => ?_, fun c => ?_, fun c => ?_⟩
  · refine callLaw_of_done (execCapQuery c) (fun _ => rfl) (fun _ => rfl) ?_
    rintro s ⟨hone, hcore, hdev⟩
    simp [hone, Nat.not_le.mpr hcore, hdev]
  · refine callWaits_of_wait (execBankRetire c) (fun _ => rfl) (fun _ => rfl) ?_
    rintro s ⟨hbank, hretired⟩
    simp only [hbank, hretired, Bool.false_eq_true, if_false]
  · refine callLaw_of_done (execErrLogRead c) (fun _ => rfl) (fun _ => rfl) ?_
    rintro s ⟨hfault, hfree⟩
    exact withBuffer_ok _ hfault hfree
  · refine callLaw_of_done (execErrClear c) (fun _ => rfl) (fun _ => rfl) ?_
    intro s hall
    simp only [hall, beq_self_eq_true, Bool.not_true, Bool.true_or, Bool.true_and, Bool.false_and, Bool.false_eq_true,
      if_true, if_false, ended]
  · refine callLaw_of_done (execDieQuarantine c) (fun _ => rfl) (fun _ => rfl) ?_
    rintro s ⟨hdie, hdev⟩
    have hknown : ¬ 20 ≤ c.arg 0 := by omega
    simp only [hknown, hdie, hdev, ended, ne_eq, not_true, if_true, if_false]
  · refine callLaw_of_done (execDieQuarantine c) (fun _ => rfl) (fun _ => rfl) ?_
    rintro s ⟨hdie, hknown, hdev⟩
    simp only [Nat.not_lt.mpr hdie, Nat.not_le.mpr hknown, hdev, ended, ne_eq, not_true, if_false]
  · refine callLaw_of_done (execLeaseRenew c) (fun _ => rfl) (fun _ => rfl) ?_
    intro s hlapse
    simp only [Nat.not_lt.mpr hlapse, if_false]
  · exact callLaw_of_done (execLeaseRelease c) (fun _ => rfl) (fun _ => rfl) fun s _ => rfl
  · refine callLaw_of_done (execLeaseTakeover c) (fun _ => rfl) (fun _ => rfl) ?_
    intro s hbaton
    simp only [hbaton]
  · refine callLaw_of_done (execLeaseTakeover c) (fun _ => rfl) (fun _ => rfl) ?_
    intro s hbaton
    simp only [hbaton]
  · refine callLaw_of_done (execAttestQuote c) (fun _ => rfl) (fun _ => rfl) ?_
    rintro s ⟨hfree, hnonce, hfault, hbuffer⟩
    exact (readBuffer_ok _ hfree hnonce).trans (withBuffer_ok _ hfault hbuffer)
  · refine callWaits_of_wait (execFwStage c) (fun _ => rfl) (fun _ => rfl) ?_
    rintro s ⟨hleast, hmost, hfree, hread, hmagic, hkind, hlen, hzero1, hzero2, hidle⟩
    simp only [Nat.not_lt.mpr hleast, Nat.not_lt.mpr hmost, readBuffer_ok _ hfree hread, hmagic, kind_known hkind, hlen, hzero1,
      hzero2, hidle, Option.isSome_none, ne_eq, not_true, decide_false, Bool.or_self, Bool.not_true, Bool.false_eq_true, if_false]
  · refine callLaw_of_done (execFwActivate c) (fun _ => rfl) (fun _ => rfl) ?_
    rintro s ⟨hkind, hstaged, hslot, hidle⟩
    simp only [kind_known hkind, hstaged, hslot, hidle, Option.bind_some, Bool.false_eq_true, if_false, ended]
  · refine callLaw_of_done (execTelemetryRead c) (fun _ => rfl) (fun _ => rfl) ?_
    rintro s ⟨hsel, hsize, hfault, hfree⟩
    simp only [selector_known hsel, Nat.not_lt.mpr hsize, Bool.not_true, Bool.or_self, decide_false, Bool.false_eq_true, if_false]
    exact withBuffer_ok _ hfault hfree
  · refine callLaw_of_done (execPowerCapSet c) (fun _ => rfl) (fun _ => rfl) ?_
    rintro s ⟨hleast, hmost⟩
    simp only [Nat.not_lt.mpr hleast, Nat.not_lt.mpr hmost, decide_false, Bool.or_self, Bool.false_eq_true, if_false, ended]
  · refine callLaw_of_done (execResync c) (fun _ => rfl) (fun _ => rfl) ?_
    rintro s ⟨haction, hfault, hfree⟩
    have hlegal : ¬ 1 < c.arg 1 := by omega
    simp only [hlegal, Bool.false_eq_true, if_false]
    rw [withBuffer_ok _ hfault hfree, if_pos haction]
    rfl

end Sys2Proof.Machine
end

