-- ==== Sys2Proof/Proofs/LinkEvents.lean ====
section
/-!
SUPPORT. The events of the package links, of the monitors of dies, of peer devices, of the host links and of the lease (R408, R409,
R411, R418, R419, R426, R429).
-/
namespace Sys2Proof.Machine
open Sys2Proof

theorem linkOk_of_lt {l : Nat} (h : l < 28) : linkOk l = true := decide_eq_true h

/-! ## Requests of peers (R418) -/

/-- A peer's request waits while a line of its range is purged or pinned (R266, R340). -/
theorem State.peerAccess_waits {s : State} {dev peer va n : Nat} {wr : Bool} {l : List (LineRef × Nat)} (op : PeerOp)
    (f : State → List Nat → State) (hrange : s.peerRange dev peer va n wr = some l)
    (hbusy : ((l.map Prod.fst).eraseDups.any fun x => s.lineBusy x wr) = true) :
    s.peerAccess dev peer va n wr op f = s.modDev dev fun v => { v with peerWait := v.peerWait ++ [(peer, op)] } := by
  simp only [State.peerAccess, hrange, hbusy, if_true]

/-- A peer's request for bytes of which no line waits is performed at their homes (R215, R311). -/
theorem State.peerAccess_performs {s : State} {dev peer va n : Nat} {wr : Bool} {l : List (LineRef × Nat)} (op : PeerOp)
    (f : State → List Nat → State) (hrange : s.peerRange dev peer va n wr = some l)
    (hfree : ((l.map Prod.fst).eraseDups.any fun x => s.lineBusy x wr) = false) :
    s.peerAccess dev peer va n wr op f =
      f ((l.map Prod.fst).eraseDups.foldl (fun (s : State) x => s.force x wr) s) (l.map Prod.snd) := by
  simp only [State.peerAccess, hrange, hfree, Bool.false_eq_true, if_false]

theorem State.peerRequest_read (s : State) (dev peer va n : Nat) :
    s.peerRequest dev peer (.read va n) =
      s.peerAccess dev peer va n false (.read va n) fun s l => s.peerAnswer dev peer (l.map s.mem.get) := rfl

theorem State.peerRequest_write (s : State) (dev peer va : Nat) (data : List Byte) :
    s.peerRequest dev peer (.write va data) =
      s.peerAccess dev peer va data.length true (.write va data) fun s l =>
        { s with mem := (l.zip data).foldl (fun m p => m.put p.1 p.2) s.mem } := rfl

/-- An aligned atomic operation of a peer accesses the bytes of its operand (R214). -/
theorem State.peerRequest_atomic {s : State} {dev peer va : Nat} {aop : AtomOp} {ty : ITy} {b : Nat}
    (haligned : va % (ty.width / 8) = 0) :
    s.peerRequest dev peer (.atomic va aop ty b) =
      s.peerAccess dev peer va (ty.width / 8) true (.atomic va aop ty b) fun s l =>
        let old := leNat (l.map s.mem.get)
        let q := atomOperand aop ty b
        let s : State := { s with mem := (l.zip (natLe (ty.width / 8) (atomNew aop ty old q.1 q.2))).foldl (fun m p => m.put p.1 p.2) s.mem }
        s.peerAnswer dev peer (natLe (ty.width / 8) old) :=
  if_neg (not_not_intro haligned)

/-- Settles O58: each event takes the branch that its premises name. The numbers of the links are log 57, those of the flits log 73,
a peer's request that waits is log 24, and what a host link that goes down drops is log 71. -/
theorem linkAndDieEvents : Obligations.LinkAndDieEvents := by
  refine ⟨?_, ?_, ?_, ?_, ?_, ?_, ?_, ?_, ?_, ?_, ?_, ?_, ?_, ?_, ?_, ?_, ?_, ?_, ?_, ?_, ?_, ?_, ?_, ?_⟩
  · rintro link s ⟨hlink, hactive, hacked, hidle⟩
    simp only [exec, execLinkIdleSleep, linkOk_of_lt hlink, hactive, hacked, hidle, beq_self_eq_true, List.isEmpty_nil,
      decide_true, Bool.and_self, if_true]
  · rintro link s ⟨hlink, hsleep⟩
    simp only [exec, execLinkWake, linkOk_of_lt hlink, hsleep, beq_self_eq_true, Bool.and_self, if_true]
  · rintro link s ⟨hlink, hwaking | hslow⟩
    · simp only [exec, execLinkWakeComplete, linkOk_of_lt hlink, hwaking, beq_self_eq_true, Bool.true_or, Bool.and_self, if_true]
    · simp only [exec, execLinkWakeComplete, linkOk_of_lt hlink, hslow, beq_self_eq_true, Bool.or_true, Bool.and_self, if_true]
  · rintro link s ⟨hlink, hwaking, hpassed⟩
    simp only [exec, execLinkSlow, linkOk_of_lt hlink, hwaking, hpassed, beq_self_eq_true, decide_true, Bool.and_self, if_true]
  · rintro link s ⟨hlink, hslow, hpassed⟩
    simp only [exec, execLinkWakeFail, linkOk_of_lt hlink, hslow, hpassed, beq_self_eq_true, decide_true, Bool.and_self, if_true]
  · rintro link s ⟨hlink, hactive, hretries⟩
    simp only [exec, execLinkRetryFail, linkOk_of_lt hlink, hactive, hretries, beq_self_eq_true, decide_true, Bool.and_self, if_true]
  · rintro link seq s ⟨hlink, hactive⟩
    simp only [exec, execFlitReceive, linkOk_of_lt hlink, hactive, beq_self_eq_true, Bool.and_self, if_true]
  · rintro link s ⟨hlink, hactive⟩
    simp only [exec, execFlitRetry, linkOk_of_lt hlink, hactive, beq_self_eq_true, Bool.and_self, if_true]
  · rintro d s ⟨hservice, hdie⟩
    simp only [exec, execHeartbeat, hservice, hdie, decide_true, Bool.and_self, if_true]
  · intro f s hservice
    simp only [exec, execHeartbeat, hservice, if_true]
  · exact fun d s hpassed => congrArg Host.Outcome.next (if_pos hpassed)
  · exact fun f s hpassed => congrArg Host.Outcome.next (if_pos hpassed)
  · rintro dev peer va n l s ⟨hrange, hbusy⟩
    exact congrArg Host.Outcome.next
      ((State.peerRequest_read _ _ _ _ _).trans (State.peerAccess_waits _ _ hrange hbusy))
  · rintro dev peer va n l s ⟨hrange, hfree⟩
    exact congrArg Host.Outcome.next
      ((State.peerRequest_read _ _ _ _ _).trans (State.peerAccess_performs _ _ hrange hfree))
  · rintro dev peer va data l s ⟨hrange, hbusy⟩
    exact congrArg Host.Outcome.next
      ((State.peerRequest_write _ _ _ _ _).trans (State.peerAccess_waits _ _ hrange hbusy))
  · rintro dev peer va data l s ⟨hrange, hfree⟩
    exact congrArg Host.Outcome.next
      ((State.peerRequest_write _ _ _ _ _).trans (State.peerAccess_performs _ _ hrange hfree))
  · rintro dev peer va aop ty b l s ⟨haligned, hrange, hbusy⟩
    exact congrArg Host.Outcome.next
      ((State.peerRequest_atomic haligned).trans (State.peerAccess_waits _ _ hrange hbusy))
  · rintro dev peer va aop ty b l s ⟨haligned, hrange, hfree⟩
    exact congrArg Host.Outcome.next
      ((State.peerRequest_atomic haligned).trans (State.peerAccess_performs _ _ hrange hfree))
  · rintro dev peer queue tail q w s ⟨hqueue, hexport, hdev, hctx, hrunning⟩
    simp only [exec, execPeerRequest, State.peerRequest, hqueue, hexport, hdev, hctx, bne_iff_ne.mpr hrunning, decide_true,
      Bool.and_self, if_true]
  · intro dev peer s himports
    simp only [exec, execPeerTimeout, himports, if_true]
  · rintro port s ⟨hport, hup⟩
    simp only [exec, execHostLinkDown, Nat.not_le.mpr hport, hup, decide_false, Bool.not_true, Bool.or_self,
      Bool.false_eq_true, if_false]
  · exact fun port s => rfl
  · rintro dev port s ⟨hheld, hdev, hpassed⟩
    simp only [exec, execLeasePeriodExpiry, hheld, hdev, hpassed, decide_true, Bool.and_self, if_true]
  · rintro dev port s ⟨hopened, hport, hdev, hpassed⟩
    simp only [exec, execTakeoverWindowExpiry, hopened, hport, hdev, hpassed, decide_true, Bool.and_self, if_true]

end Sys2Proof.Machine
end

