-- ==== Sys2Proof/Proofs/ContextQueueCalls.lean ====
section
/-!
SUPPORT. The service calls on contexts, partitions, queues and launches (R276, R344, R345, R358, R362, R405, R416, R425).
-/
namespace Sys2Proof.Machine
open Sys2Proof

/-- Settles O45: each call passes its checks, in their order, and completes or waits. The flag REPRO and the lowest free name are
log 59, the backing store is log 60, what PART_SET clears and rehomes is log 61. -/
theorem contextCalls : Obligations.ContextCalls := by
  refine ⟨fun c k s hserves hlegal => ?_, fun c x => ?_, fun c x => ?_, fun c t tables => ?_, fun c => ?_, fun c => ?_, fun c => ?_,
    fun c => ?_⟩
  · obtain ⟨hctl, hround, hflags, hzero, hvf, hasid, hvec, hname⟩ := hlegal
    rw [show exec (.ctxCreate c) s = execCtxCreate c s from rfl, execCtxCreate, serve_eq hserves]
    simp only [Nat.not_le.mpr hctl, Nat.not_lt.mpr hround, hflags, hzero, Nat.not_lt.mpr hvf, Nat.not_le.mpr hasid,
      Nat.not_lt.mpr hvec, State.bump_ctxs, hname, ne_eq, not_true, decide_false, Bool.or_self, Bool.false_eq_true, if_false]
    refine ⟨fun t hmade hfree => ?_, fun hmade hfree => ?_⟩
    · simp only [hmade, hfree, Bool.false_eq_true, if_false]
    · simp only [hmade, ended, hfree, Bool.false_eq_true, if_false]
  · refine callLaw_of_done (execCtxDestroy c) (fun _ => rfl) (fun _ => rfl) ?_
    intro s hctx
    simp only [hctx, ended]
  · refine callLaw_of_done (execCtxQuery c) (fun _ => rfl) (fun _ => rfl) ?_
    intro s hctx
    simp only [hctx]
  · refine callLaw_of_done (execPartSet c) (fun _ => rfl) (fun _ => by unfold execPartSet; rfl) ?_
    rintro s ⟨hmode, hnumbers, hfree, hread, hroutes, hnone⟩
    simp only [Nat.not_lt.mpr hmode, hnumbers, hfree, hread, hroutes, hnone, ended, ne_eq, not_true, decide_false, Bool.or_self,
      List.isEmpty_nil, Bool.false_eq_true, if_false, if_true]
  · exact callLaw_of_done (execPartQuery c) (fun _ => rfl) (fun _ => rfl) fun s _ => rfl
  · refine callLaw_of_done (execShareSet c) (fun _ => rfl) (fun _ => rfl) ?_
    rintro s ⟨hweight, hleast, hmost⟩
    simp only [Nat.not_lt.mpr hweight, Nat.not_lt.mpr hleast, Nat.not_lt.mpr hmost, decide_false, Bool.or_self,
      Bool.false_eq_true, if_false, ended]
  · refine callWaits_of_wait (execCtxSuspend c) (fun _ => rfl) (fun _ => rfl) ?_
    rintro s ⟨hdrain, hswap, hrunning⟩
    simp only [hrunning, Nat.not_lt.mpr hdrain, Nat.not_lt.mpr hswap, ne_eq, not_true, decide_false, Bool.or_self,
      Bool.false_eq_true, if_false]
  · refine callLaw_of_done (execCtxResume c) (fun _ => rfl) (fun _ => rfl) ?_
    intro s hsuspended
    simp only [hsuspended, if_true, ended]

/-- Settles O46: each call passes its checks, in their order, and completes. The lowest free queue is log 62, the free priority of
LAUNCH_GRID log 63. -/
theorem queueCalls : Obligations.QueueCalls := by
  refine ⟨fun c k => ?_, fun c k q => ?_, fun c k q => ?_, fun c t t' ws g => ?_, fun c k q => ?_, fun c k q n g => ?_⟩
  · refine callLaw_of_done (execQueueCreate c) (fun _ => rfl) (fun _ => rfl) ?_
    rintro s ⟨hleast, hmost, hring, hringTop, hhead, hheadTop, hprio, hkind, hindex⟩
    simp only [Nat.not_lt.mpr hleast, Nat.not_lt.mpr hmost, hring, Nat.not_le.mpr hringTop, hhead, Nat.not_le.mpr hheadTop,
      Nat.not_lt.mpr hprio, hkind, hindex, toBit, Nat.zero_mod, Nat.reduceBEq, Nat.reduceLeDiff, ne_eq, not_true, decide_false,
      Bool.or_self, Bool.not_false, Bool.and_false, Bool.false_and, Bool.false_eq_true, if_false]
  · refine callLaw_of_done (execQueueDestroy c) (fun _ => rfl) (fun _ => rfl) ?_
    intro s hqueue
    simp only [hqueue, ended]
  · refine callLaw_of_done (execQueueBindPriority c) (fun _ => rfl) (fun _ => rfl) ?_
    rintro s ⟨hqueue, hprio⟩
    simp only [hqueue, Nat.not_lt.mpr hprio, ended, if_false]
  · refine callLaw_of_done (execLaunchGrid c) (fun _ => rfl) (fun _ => rfl) ?_
    rintro s ⟨haligned, hreadable, hwritable, hwords, hcheck, r, hcounter⟩
    simp only [haligned, hreadable, hwritable, hwords, hcheck, hcounter, ended, ne_eq, not_true, Bool.or_self,
      Bool.false_eq_true, if_false]
  · refine callLaw_of_done (execLaunchCancel c) (fun _ => rfl) (fun _ => rfl) ?_
    rintro s ⟨hqueue, hcommand, herror⟩
    simp only [hqueue, hcommand, herror, if_true, ended]
  · refine callLaw_of_done (execLaunchCancel c) (fun _ => rfl) (fun _ => rfl) ?_
    rintro s ⟨hqueue, hnamed, hgrid⟩
    simp only [hqueue, hnamed, hgrid, if_false, ended]

end Sys2Proof.Machine
end

