-- ==== Sys2Proof/Proofs/MapCalls.lean ====
section
/-!
SUPPORT. The service calls on address spaces: ranges, memory, purges, permissions, aliases, host memory and peers (R282, R315, R338,
R340, R418, R425, R462).
-/
namespace Sys2Proof.Machine
open Sys2Proof

/-! ## Purges (R340) -/

/-- A purge that has ended completes its call, and the requests that waited go on. -/
theorem purging_done {dev asid va len st : Nat} {s t u : State} {res : List Nat} {k : State → Reply}
    (hpurge : s.purgeRange dev asid va len = (t, true)) (hk : k (t.purged dev asid va len) = .done u st res) :
    purging dev asid va len s k = .done ((u.hostResume dev).peerResume dev).owedHeads st res := by
  simp only [purging, hpurge, hk, if_true]

/-- A purge that has not ended leaves its call waiting. -/
theorem purging_wait {dev asid va len : Nat} {s t : State} (k : State → Reply)
    (hpurge : s.purgeRange dev asid va len = (t, false)) : purging dev asid va len s k = .wait t := by
  simp only [purging, hpurge, Bool.false_eq_true, if_false]

/-! ## Checks of the arguments (R315, R418, R425) -/

/-- An alignment of VA_RESERVE, 64 KiB where none is given, is a multiple of 64 KiB. -/
theorem align_granular {a : Nat} (h : a % 65536 = 0) : (if a = 0 then 65536 else a) % 65536 = 0 := by
  split
  · rfl
  · exact h

/-- The test for a meeting of two ranges of one address space fails where the spaces differ or the ranges lie apart (R315). -/
theorem meets_false {a b : Nat} {meet : Bool} (h : ¬ (a = b ∧ meet = true)) : (a == b && meet) = false := by simpa using h

theorem State.callCtx_modDev (s : State) (d : Nat) (f : Dev → Dev) (c : Call) : (s.modDev d f).callCtx c = s.callCtx c := rfl

/-- Settles O47: each call passes its checks, in their order, and completes or waits. The handle that PEER_UNMAP looks for first is
log 66, the free addresses and frames are log 67. -/
theorem memoryCalls : Obligations.MemoryCalls := by
  refine ⟨fun c => ?_, fun c v => ?_, fun c => ?_, fun c ps t => ?_, fun c ps v t => ?_, fun c t => ?_, fun c t => ?_, fun c t => ?_,
    fun c => ?_, fun c => ?_, fun c t => ?_, fun c => ?_, fun c => ?_, fun c => ?_, fun c => ?_, fun c => ?_⟩
  · refine callLaw_of_done (execVaReserve c) (fun _ => rfl) (fun _ => rfl) ?_
    rintro s ⟨hbase, haligned, halign, hrange, hfree⟩
    simp only [align_granular halign, hrange, haligned, hbase, hfree, ne_eq, not_true, not_false_eq_true, decide_false,
      Bool.not_true, Bool.or_self, Bool.false_eq_true, if_false, if_true]
  · refine callLaw_of_done (execVaReserve c) (fun _ => rfl) (fun _ => rfl) ?_
    rintro s ⟨hbase, halign, hrange, hfree⟩
    simp only [align_granular halign, hbase, hrange, hfree, Nat.zero_mod, ne_eq, not_true, decide_false, Bool.not_true,
      Bool.or_self, Bool.false_eq_true, if_false]
  · refine callLaw_of_done (execVaRelease c) (fun _ => rfl) (fun _ => rfl) ?_
    rintro s ⟨hreserved, hunmapped⟩
    simp only [hreserved, hunmapped, Bool.not_true, Bool.false_eq_true, if_false, ended]
  · refine callLaw_of_done (execMemAlloc c) (fun _ => rfl) (fun _ => rfl) ?_
    rintro s ⟨hsize, hperm, hrange, hnamed, hreserved, hunmapped, hpages⟩
    simp only [hsize, hperm, hrange, hnamed, hreserved, hunmapped, hpages, Bool.not_true, Bool.or_self, Bool.and_false,
      Bool.false_eq_true, if_false]
  · refine callLaw_of_done (execMemAlloc c) (fun _ => rfl) (fun _ => rfl) ?_
    rintro s ⟨hsize, hperm, hrange, hbase, hva, hpages⟩
    simp only [hsize, hperm, hbase, hrange, hva, hpages, ne_eq, not_true, decide_false, Bool.not_true, Bool.or_self,
      Bool.false_and, Bool.false_eq_true, if_false, if_true]
  · refine callLaw_of_done (execMemFree c) (fun _ => rfl) (fun _ => rfl) ?_
    rintro s ⟨hrange, hallocated, hpurge⟩
    simp only [hrange, hallocated, ne_eq, not_true, decide_false, Bool.not_true, Bool.or_self, Bool.false_eq_true, if_false]
    exact purging_done hpurge rfl
  · refine callLaw_of_done (execUnmap c) (fun _ => rfl) (fun _ => rfl) ?_
    rintro s ⟨hrange, hpurge⟩
    simp only [hrange, Bool.not_true, Bool.false_eq_true, if_false]
    exact purging_done hpurge rfl
  · refine callWaits_of_wait (execUnmap c) (fun _ => rfl) (fun _ => rfl) ?_
    rintro s ⟨hrange, hpurge⟩
    simp only [hrange, Bool.not_true, Bool.false_eq_true, if_false]
    exact purging_wait _ hpurge
  · refine callLaw_of_done (execProtect c) (fun _ => rfl) (fun _ => rfl) ?_
    rintro s ⟨hrange, hperm, hmapped, hheld, hkept⟩
    simp only [hrange, hperm, hmapped, hheld, hkept, ended, ne_eq, not_true, decide_false, Bool.not_true, Bool.or_self,
      Bool.false_eq_true, if_false, if_true]
  · refine callLaw_of_done (execAliasRegister c) (fun _ => rfl) (fun _ => rfl) ?_
    rintro s ⟨hasid, hmask, hrange, htarget, hself, hothers, hunmapped, hroom⟩
    have hself := meets_false fun h => hself ⟨h.1.symm, h.2⟩
    have hdisjoint : ((s.dev c.dev).remap.any fun a => (a.asid == c.arg 1 && rangesMeet a.base a.len (c.arg 2) (c.arg 3)) ||
        (a.toAsid == (s.callCtx c).asid && rangesMeet a.toBase a.len (c.arg 0) (c.arg 3))) = false :=
      List.any_eq_false.mpr fun a ha => by
        obtain ⟨hchained, htargeted, -⟩ := hothers a ha
        simp only [meets_false hchained, meets_false htargeted, Bool.or_self, Bool.false_eq_true, not_false_eq_true]
    have hunaliased : ((s.dev c.dev).remap.any fun a =>
        a.asid == (s.callCtx c).asid && rangesMeet a.base a.len (c.arg 0) (c.arg 3)) = false :=
      List.any_eq_false.mpr fun a ha => by
        obtain ⟨-, -, hsource⟩ := hothers a ha
        exact Bool.eq_false_iff.mp (meets_false hsource)
    simp only [Nat.not_le.mpr hasid, Nat.not_lt.mpr hmask, hrange, htarget, hself, hdisjoint, hunmapped, hunaliased,
      Nat.not_le.mpr hroom, decide_false, Bool.not_true, Bool.or_self, Bool.false_eq_true, if_false, ended]
  · refine callLaw_of_done (execRangePurge c) (fun _ => rfl) (fun _ => rfl) ?_
    rintro s ⟨hasid, hrange, hpurge⟩
    simp only [Nat.not_le.mpr hasid, hrange, decide_false, Bool.not_true, Bool.or_self, Bool.false_eq_true, if_false]
    exact purging_done hpurge rfl
  · refine callLaw_of_done (execHostMap c) (fun _ => rfl) (fun _ => rfl) ?_
    rintro s ⟨hport, haligned, htop, hperm, hrange, hunmapped, hfree⟩
    simp only [Nat.not_lt.mpr hport, haligned, Nat.not_lt.mpr htop, hperm, hrange, hunmapped, ne_eq, not_true, decide_false,
      Bool.not_true, Bool.or_self, Bool.false_eq_true, if_false, ended]
    refine if_neg ?_
    rw [Bool.not_eq_true, List.any_eq_false]
    intro y hy hnamed
    rw [Bool.and_eq_true, beq_iff_eq, List.any_eq_true] at hnamed
    obtain ⟨hdev, p, hp, hmeets⟩ := hnamed
    split at hmeets
    · next q b htarget =>
      rw [Bool.and_eq_true, beq_iff_eq] at hmeets
      obtain ⟨rfl, hmeets⟩ := hmeets
      exact Bool.eq_false_iff.mp (hfree y hy hdev p hp b htarget) hmeets
    · exact Bool.false_ne_true hmeets
  · refine callLaw_of_done (execPeerMap c) (fun _ => rfl) (fun _ => rfl) ?_
    rintro s ⟨hkind, hremote, hpeer, hother, hperm, hrange⟩
    simp [hkind, hremote, Nat.not_lt.mpr hpeer, hother, hperm, hrange]
  · refine callLaw_of_done (execPeerMap c) (fun _ => rfl) (fun _ => rfl) ?_
    rintro s ⟨hkind, hremote, hpeer, hother, hperm, hrange, hunmapped⟩
    simp [hkind, hremote, Nat.not_lt.mpr hpeer, hother, hperm, hrange, hunmapped, ended]
  · refine callLaw_of_done (execPeerUnmap c) (fun _ => rfl) (fun _ => rfl) ?_
    intro s hexport
    simp only [hexport, if_true, ended]
  · refine callLaw_of_done (execPeerUnmap c) (fun _ => rfl) (fun _ => rfl) ?_
    rintro s ⟨hexport, hrange, hwindow⟩
    simp only [hexport, hrange, hwindow, State.callCtx_modDev, Bool.not_true, Bool.or_self, Bool.false_eq_true, if_false, ended]

end Sys2Proof.Machine
end

