-- ==== Sys2Proof/Proofs/PowerEvents.lean ====
section
/-!
SUPPORT. The events of the policy image, telemetry, temperature, input power, the power cap and package reset (R432, R439, R454,
R455, R458).
-/
namespace Sys2Proof.Machine
open Sys2Proof

/-- A package that runs is held in reset with a log entry, and its cores stop (R454). -/
theorem State.hold_running {s : State} {why detail : Nat} (h : s.pkg.heldReset = 0) :
    s.hold why detail =
      { s.logModule detail with pkg := { (s.logModule detail).pkg with heldReset := why }, cur := none } :=
  if_neg (not_not_intro h)

/-- A gating step that is due changes every die and starts the time to the next one (R455). -/
theorem State.gateStep_due {s : State} (f : Nat → Nat)
    (h : (s.pkg.gateAt.map fun t => decide (s.svcTime < t + 10000)).getD false = false) :
    s.gateStep f =
      (let t := s.allDies fun d => { d with gate := f d.gate }
       { t with pkg := { t.pkg with gateAt := some t.svcTime } }) := by
  simp only [State.gateStep, h, Bool.false_eq_true, if_false]

/-- Settles O59: each event takes the branch that its premises name. Events that stand for a duration that has passed are log 108,
what package reset keeps is log 76, the calls kept from before it are log 106. -/
theorem powerEvents : Obligations.PowerEvents := by
  refine ⟨?_, ?_, ?_, ?_, ?_, ?_, ?_, ?_, ?_, ?_, ?_, ?_, ?_, ?_, ?_, ?_, ?_, ?_⟩
  · intro s hrunning
    simp only [exec, execPolicyImageFault, hrunning, Bool.not_true, Bool.false_eq_true, if_false]
  · rintro s ⟨hrunning, hcomplete⟩
    simp only [exec, execTelemetryWindow, hrunning, Nat.not_lt.mpr hcomplete, decide_false, Bool.not_true, Bool.or_self,
      Bool.false_eq_true, if_false]
  · rintro die s ⟨hdie, hcool⟩
    simp only [exec, execThermalThrottle, Nat.not_le.mpr hdie, hcool, decide_false, Bool.or_self, Bool.false_eq_true, if_false]
  · intro die s hthrottled
    simp only [exec, execThermalRecover, hthrottled, if_true]
  · exact fun die s hruns => congrArg Host.Outcome.next (State.hold_running hruns)
  · exact fun s hruns => congrArg Host.Outcome.next (State.hold_running hruns)
  · exact fun s hruns => congrArg Host.Outcome.next (State.hold_running hruns)
  · exact fun found s hheld => congrArg Host.Outcome.next (if_pos hheld)
  · intro s hnew
    simp only [exec, execInputLow, State.logModule, hnew, Bool.false_eq_true, if_false]
  · intro s hnew
    simp only [exec, execInputHigh, State.logModule, hnew, Bool.false_eq_true, if_false]
  · exact fun found s hheld => congrArg Host.Outcome.next (if_pos hheld)
  · exact fun found s hother => congrArg Host.Outcome.next (if_neg hother)
  · rintro watts s ⟨habove, hfaster⟩
    simp only [exec, execPowerCapStep, habove, hfaster, Bool.false_eq_true, if_true, if_false]
  · rintro watts s ⟨habove, hslowest, hdue⟩
    simp only [exec, execPowerCapStep, habove, hslowest, State.gateStep_due _ hdue, if_true]
  · rintro watts s ⟨hbelow, hgated, hdue⟩
    simp only [exec, execPowerCapStep, Nat.lt_asymm hbelow, hbelow, hgated, State.gateStep_due _ hdue, if_true, if_false]
  · rintro watts s ⟨hbelow, hopen⟩
    simp only [exec, execPowerCapStep, Nat.lt_asymm hbelow, hbelow, hopen, Bool.false_eq_true, if_true, if_false]
  · rintro watts s ⟨habove, hslowest, hgate, hlog⟩
    have hdue : (s.pkg.capLogged == 0 || decide (s.pkg.capLogged + 100000000 ≤ s.svcTime)) = true := by simpa using hlog
    simp only [exec, execCapNotMet, habove, hslowest, hgate, hdue, decide_true, Bool.and_self, if_true]
  · exact fun found s => rfl

end Sys2Proof.Machine
end

