-- ==== Sys2Proof/Proofs/ServiceEvents.lean ====
section
/-!
SUPPORT. The submission of calls by a host and the end of the staging of an image (R421, R423, R433, R435, R458).
-/
namespace Sys2Proof.Machine
open Sys2Proof

/-- A port that is up and a function of a device of the package pass the check of a submission. -/
theorem submit_known {s : State} {dev port vf : Nat} (hup : ((s.ports[port]?).getD {}).up = true) (hport : port < 2)
    (hvf : vf ≤ 16) (hdev : dev < s.devCount) :
    (!((s.ports[port]?).getD {}).up || decide (2 ≤ port) || decide (16 < vf) || decide (s.devCount ≤ dev)) = false := by
  simp [hup, hport, hvf, hdev]

/-- The list of stagings is no part of the firmware of a kind. -/
theorem Package.fw_staging (p : Package) (l : List (Call × Nat)) (kind : Nat) :
    ({ p with staging := l } : Package).fw kind = p.fw kind := rfl

/-- Settles O60: each event takes the branch that its premises name. A doorbell that is written while the package is held in reset
is kept for the start of the service unit (R458, log 106). -/
theorem serviceEvents : Obligations.ServiceEvents := by
  refine ⟨?_, ?_, ?_, ?_, ?_, ?_⟩
  · rintro dev port vf addr s ⟨hup, hport, hvf, hdev, hruns, hfull⟩
    simp only [exec, execSvcdbWrite, State.submit, submit_known hup hport hvf hdev, hruns, hfull, ne_eq, not_true,
      Bool.false_eq_true, if_true, if_false]
  · rintro dev port vf addr t bs s ⟨hup, hport, hvf, hdev, hruns, hroom, hread⟩
    simp only [exec, execSvcdbWrite, State.submit, submit_known hup hport hvf hdev, hruns, Nat.not_le.mpr hroom, hread, ne_eq,
      not_true, Bool.false_eq_true, if_false]
  · exact fun dev port vf addr s hheld => congrArg Host.Outcome.next (if_pos hheld)
  · exact fun dev port vf s => rfl
  · rintro c kind i s ⟨hstaging, hchecking, hfree⟩
    simp only [exec, execFwStageWriteDone, hstaging, hfree, Package.fw_staging, hchecking, Bool.false_eq_true, if_false, if_true]
  · rintro c kind v i s ⟨hstaging, hchecking, hfree⟩
    simp only [exec, execFwStageWriteDone, hstaging, hfree, Package.fw_staging, hchecking, Nat.add_one_ne_zero, Nat.add_sub_cancel,
      Bool.false_eq_true, if_false]

end Sys2Proof.Machine
end
